-- ==== Sys2Proof/Word.lean ====
section
/-!
DEFINITION. The word types of the DX-8: bytes, 32-bit lane words, 64-bit uniform words (00_scope.md R5; 14_encoding.md R220).
-/
namespace Sys2Proof

/-- One byte of memory. -/
abbrev Byte := BitVec 8

/-- A lane register, a latch, an instruction word. -/
abbrev W32 := BitVec 32

/-- A uniform register, a virtual address, a program counter. -/
abbrev Word := BitVec 64

end Sys2Proof
end

