-- ==== Sys2Proof/Config.lean ====
section
/-!
DEFINITION. What one DX-8 part fixes and the manual leaves open: per-part constants and the free values. Every
constant here is opaque: no proof can see a value of it.
-/
namespace Sys2Proof

/-- The free values (log 6): the k-th value drawn under seed n. Nothing constrains it. -/
opaque Config.freeWord : Nat → Nat → BitVec 64

/-- Silicon stepping of package tile t (R96: per part; log 13). -/
opaque Config.tileStep : Nat → BitVec 8

/-- Scan-path identifier of package tile t (R96: per part; log 13). -/
opaque Config.tileScan : Nat → BitVec 16

/-- The fused minimum security version of the configuration block (R42; log 13). -/
opaque Config.minConfigSvn : BitVec 32

/-- The fused minimum security version of the Ronzel image (R46; log 13). -/
opaque Config.minImageSvn : BitVec 32

/-- The measurement of the Craoz ROM (R52; log 13). -/
opaque Config.romMeasurement : BitVec 64

/-- Craoz's signatures of a measurement response, Ed25519 and ML-DSA-65 (R52; log 12). -/
opaque Config.signEd25519 : List (BitVec 64) → List (BitVec 8)
opaque Config.signMlDsa65 : List (BitVec 64) → List (BitVec 8)

/-- Whether the host die presents this host-memory address (R34; log 23). -/
opaque Config.hostPresent : Nat → Bool

/-- Eight bytes of another node as the step of a stamp reads them, by fabric address (R127; log 17). -/
opaque Config.farEntry : Nat → Nat → BitVec 64

/-- The candidate a special function returns for an FP32 input; used only where R202's bound admits it (log 14).
The first argument names the function. -/
opaque Config.special : Nat → BitVec 32 → BitVec 32

end Sys2Proof
end

