-- ==== Sys2Proof/Syntax.lean ====
section
/-!
DEFINITION. The instructions of the DX-8 as syntax: operands, field codes, the data of the events, and Instr with one
constructor for each row of the opcode table (14_encoding.md R220 to R238; 95_what_each_step_holds.md).
-/
namespace Sys2Proof

/-- An 8-bit operand code (R225). -/
inductive Opnd where
  | v (r : BitVec 7)
  | s (r : BitVec 5)
  | b (k : BitVec 2)
  | pos (n : BitVec 4)
  | neg (n : BitVec 3)
  | flt (k : BitVec 2)
  | lane
  | slice
  | gang
  | res (c : BitVec 8)
  deriving DecidableEq, Repr

/-- The operand a code names (R225). -/
def Opnd.ofCode (c : BitVec 8) : Opnd :=
  if c.toNat < 0x80 then .v (c.setWidth 7)
  else if c.toNat < 0xA0 then .s (c.setWidth 5)
  else if c.toNat < 0xA4 then .b (c.setWidth 2)
  else if c.toNat < 0xB4 then .pos ((c - 0xA4#8).setWidth 4)
  else if c.toNat < 0xBC then .neg ((c - 0xB4#8).setWidth 3)
  else if c.toNat < 0xC0 then .flt (c.setWidth 2)
  else if c = 0xC0#8 then .lane
  else if c = 0xC1#8 then .slice
  else if c = 0xC2#8 then .gang
  else .res c

/-- The code of an operand (R225). -/
def Opnd.code : Opnd → BitVec 8
  | .v r => r.setWidth 8
  | .s r => 0x80#8 + r.setWidth 8
  | .b k => 0xA0#8 + k.setWidth 8
  | .pos n => 0xA4#8 + n.setWidth 8
  | .neg n => 0xB4#8 + n.setWidth 8
  | .flt k => 0xBC#8 + k.setWidth 8
  | .lane => 0xC0#8
  | .slice => 0xC1#8
  | .gang => 0xC2#8
  | .res c => c

/-- An 8-bit destination field of a lane instruction: bit 7 suppresses write-back (R228). -/
structure LDst where
  nw : Bool
  r : BitVec 7
  deriving DecidableEq, Repr

def LDst.ofCode (c : BitVec 8) : LDst := ⟨c.getLsbD 7, c.setWidth 7⟩
def LDst.code (d : LDst) : BitVec 8 := BitVec.ofBool d.nw ++ d.r

/-- An 8-bit destination field of a uniform instruction: bits [6:5] must be 0 (R228). -/
structure UDst where
  nw : Bool
  r : BitVec 5
  deriving DecidableEq, Repr

def UDst.ofCode? (c : BitVec 8) : Option UDst :=
  if c.extractLsb' 5 2 == 0#2 then some ⟨c.getLsbD 7, c.setWidth 5⟩ else none
def UDst.code (d : UDst) : BitVec 8 := BitVec.ofBool d.nw ++ (0#2 ++ d.r)

/-- Access width and extension (R232). -/
inductive Ty where
  | b | bs | h | hs | w | d | q
  deriving DecidableEq, Repr

def Ty.ofCode? (c : BitVec 3) : Option Ty :=
  match c.toNat with
  | 0 => some .b | 1 => some .bs | 2 => some .h | 3 => some .hs | 4 => some .w | 5 => some .d | 6 => some .q
  | _ => none
/-- A store admits no sign-extending type (R286, R339). -/
def Ty.storable : Ty → Bool
  | .bs | .hs => false
  | _ => true
def Ty.ofStore? (c : BitVec 3) : Option Ty :=
  (Ty.ofCode? c).bind fun t => if t.storable then some t else none
def Ty.code : Ty → BitVec 3
  | .b => 0 | .bs => 1 | .h => 2 | .hs => 3 | .w => 4 | .d => 5 | .q => 6

/-- Width of an access in bytes (R232). -/
def Ty.bytes : Ty → Nat
  | .b | .bs => 1 | .h | .hs => 2 | .w => 4 | .d => 8 | .q => 16

/-- Registers of 32 bits a lane access fills (R286). -/
def Ty.regs : Ty → Nat
  | .d => 2 | .q => 4 | _ => 1

/-- The widths of atomics and monitors: .w and .d (R292, R295, R340). -/
inductive Ty2 where
  | w | d
  deriving DecidableEq, Repr

def Ty2.ofCode? (c : BitVec 3) : Option Ty2 :=
  match c.toNat with
  | 4 => some .w | 5 => some .d | _ => none
def Ty2.code : Ty2 → BitVec 3
  | .w => 4 | .d => 5
def Ty2.bytes : Ty2 → Nat
  | .w => 4 | .d => 8

/-- Scopes (R135). -/
inductive Scope where
  | gang | block | cluster | die | package | domain | system
  deriving DecidableEq, Repr

def Scope.ofCode? (c : BitVec 3) : Option Scope :=
  match c.toNat with
  | 0 => some .gang | 1 => some .block | 2 => some .cluster | 3 => some .die | 4 => some .package
  | 5 => some .domain | 6 => some .system | _ => none
def Scope.code : Scope → BitVec 3
  | .gang => 0 | .block => 1 | .cluster => 2 | .die => 3 | .package => 4 | .domain => 5 | .system => 6
/-- The rank of a scope: a wider scope has a higher rank. -/
def Scope.rank (s : Scope) : Nat := s.code.toNat

/-- The order of a load or store with its scope (R233): ord in the high three bits, sc in the low three. -/
inductive MOrd where
  | plain
  | sync (sc : Scope)
  | stm
  | vol
  deriving DecidableEq, Repr

def MOrd.ofCode? (c : BitVec 6) : Option MOrd :=
  let sc := c.extractLsb' 0 3
  match (c.extractLsb' 3 3).toNat with
  | 0 => if sc == 0#3 then some .plain else none
  | 1 => (Scope.ofCode? sc).map .sync
  | 2 => if sc == 0#3 then some .stm else none
  | 3 => if sc == 0#3 then some .vol else none
  | _ => none
def MOrd.code : MOrd → BitVec 6
  | .plain => 0
  | .sync sc => 1#3 ++ sc.code
  | .stm => 0b010000
  | .vol => 0b011000

/-- The order of a uniform atomic or MONWAIT: relaxed, or ordered at a scope (R292, R296). -/
inductive AOrd where
  | plain
  | sync (sc : Scope)
  deriving DecidableEq, Repr

def AOrd.ofCode? (c : BitVec 6) : Option AOrd :=
  let sc := c.extractLsb' 0 3
  match (c.extractLsb' 3 3).toNat with
  | 0 => if sc == 0#3 then some .plain else none
  | 1 => (Scope.ofCode? sc).map .sync
  | _ => none
def AOrd.code : AOrd → BitVec 6
  | .plain => 0
  | .sync sc => 1#3 ++ sc.code

/-- Order and scope of a lane atomic (R234). -/
inductive Os where
  | rlxB | rlxD | rlxP | acqP | relP | arP | arF | rlxF
  deriving DecidableEq, Repr

def Os.ofCode (c : BitVec 3) : Os :=
  match c.toNat with
  | 0 => .rlxB | 1 => .rlxD | 2 => .rlxP | 3 => .acqP | 4 => .relP | 5 => .arP | 6 => .arF | _ => .rlxF
def Os.code : Os → BitVec 3
  | .rlxB => 0 | .rlxD => 1 | .rlxP => 2 | .acqP => 3 | .relP => 4 | .arP => 5 | .arF => 6 | .rlxF => 7

/-- The address field of LA (R234): a lane pair holding a virtual address, or a register holding a scratchpad address. -/
inductive LaAddr where
  | glob (n : BitVec 6)
  | spad (n : BitVec 6)
  deriving DecidableEq, Repr

def LaAddr.ofCode (c : BitVec 7) : LaAddr :=
  if c.getLsbD 6 then .spad (c.setWidth 6) else .glob (c.setWidth 6)
def LaAddr.code : LaAddr → BitVec 7
  | .glob n => 0#1 ++ n
  | .spad n => 1#1 ++ n

/-- Integer conditions of the lane CMP (R265). -/
inductive ICond where
  | eq | ne | lt | le | blo | bls
  deriving DecidableEq, Repr

def ICond.ofCode? (c : BitVec 3) : Option ICond :=
  match c.toNat with
  | 0 => some .eq | 1 => some .ne | 2 => some .lt | 3 => some .le | 4 => some .blo | 5 => some .bls | _ => none
def ICond.code : ICond → BitVec 3
  | .eq => 0 | .ne => 1 | .lt => 2 | .le => 3 | .blo => 4 | .bls => 5

/-- Floating-point conditions (R265). -/
inductive FCond where
  | eq | ne | lt | le | gt | ge | un | ord
  deriving DecidableEq, Repr

def FCond.ofCode (c : BitVec 3) : FCond :=
  match c.toNat with
  | 0 => .eq | 1 => .ne | 2 => .lt | 3 => .le | 4 => .gt | 5 => .ge | 6 => .un | _ => .ord
def FCond.code : FCond → BitVec 3
  | .eq => 0 | .ne => 1 | .lt => 2 | .le => 3 | .gt => 4 | .ge => 5 | .un => 6 | .ord => 7

/-- How a comparison combines with its predicate (R265). -/
inductive Comb where
  | set | and | or
  deriving DecidableEq, Repr

def Comb.ofCode? (c : BitVec 2) : Option Comb :=
  match c.toNat with
  | 0 => some .set | 1 => some .and | 2 => some .or | _ => none
def Comb.code : Comb → BitVec 2
  | .set => 0 | .and => 1 | .or => 2

/-- Rounding modes (R270). -/
inductive Rm where
  | rn | rz | rd | ru
  deriving DecidableEq, Repr

def Rm.ofCode (c : BitVec 2) : Rm :=
  match c.toNat with
  | 0 => .rn | 1 => .rz | 2 => .rd | _ => .ru
def Rm.code : Rm → BitVec 2
  | .rn => 0 | .rz => 1 | .rd => 2 | .ru => 3

/-- Numeric types of CVT (R271). -/
inductive NTy where
  | f32 | f16 | bf16 | e4m3 | e5m2 | s32 | u32
  deriving DecidableEq, Repr

def NTy.ofCode? (c : BitVec 3) : Option NTy :=
  match c.toNat with
  | 0 => some .f32 | 1 => some .f16 | 2 => some .bf16 | 3 => some .e4m3 | 4 => some .e5m2
  | 5 => some .s32 | 6 => some .u32 | _ => none
def NTy.code : NTy → BitVec 3
  | .f32 => 0 | .f16 => 1 | .bf16 => 2 | .e4m3 => 3 | .e5m2 => 4 | .s32 => 5 | .u32 => 6
def NTy.isFloat : NTy → Bool
  | .s32 | .u32 => false
  | _ => true

/-- Dual-exponent formats (R280). -/
inductive DxFmt where
  | dx8 | dx6 | dx4
  deriving DecidableEq, Repr

def DxFmt.ofCode? (c : BitVec 2) : Option DxFmt :=
  match c.toNat with
  | 0 => some .dx8 | 1 => some .dx6 | 2 => some .dx4 | _ => none
def DxFmt.code : DxFmt → BitVec 2
  | .dx8 => 0 | .dx6 => 1 | .dx4 => 2

/-- Integer scan and reduction operations (R276). -/
inductive ScanOp where
  | add | min | max | minu | maxu | and | or | xor
  deriving DecidableEq, Repr

def ScanOp.ofCode (c : BitVec 3) : ScanOp :=
  match c.toNat with
  | 0 => .add | 1 => .min | 2 => .max | 3 => .minu | 4 => .maxu | 5 => .and | 6 => .or | _ => .xor
def ScanOp.code : ScanOp → BitVec 3
  | .add => 0 | .min => 1 | .max => 2 | .minu => 3 | .maxu => 4 | .and => 5 | .or => 6 | .xor => 7

/-- Floating-point scan operations (R276). -/
inductive FScanOp where
  | add | min | max
  deriving DecidableEq, Repr

def FScanOp.ofCode? (c : BitVec 2) : Option FScanOp :=
  match c.toNat with
  | 0 => some .add | 1 => some .min | 2 => some .max | _ => none
def FScanOp.code : FScanOp → BitVec 2
  | .add => 0 | .min => 1 | .max => 2

/-- Reduction operations of LRED (R277). -/
inductive RedOp where
  | int (op : ScanOp)
  | flt (op : FScanOp)
  | ballot
  deriving DecidableEq, Repr

def RedOp.ofCode? (c : BitVec 4) : Option RedOp :=
  if c.getLsbD 3 then
    match (c.setWidth 3).toNat with
    | 0 => some (.flt .add) | 1 => some (.flt .min) | 2 => some (.flt .max) | 3 => some .ballot | _ => none
  else some (.int (ScanOp.ofCode (c.setWidth 3)))
def RedOp.code : RedOp → BitVec 4
  | .int op => 0#1 ++ op.code
  | .flt op => 0b10#2 ++ op.code
  | .ballot => 11

/-- VOTE modes (R278). -/
inductive VoteMode where
  | any | all | uni
  deriving DecidableEq, Repr

def VoteMode.ofCode? (c : BitVec 2) : Option VoteMode :=
  match c.toNat with
  | 0 => some .any | 1 => some .all | 2 => some .uni | _ => none
def VoteMode.code : VoteMode → BitVec 2
  | .any => 0 | .all => 1 | .uni => 2

/-- BRP modes (R251). -/
inductive BrpMode where
  | any | all | none | nall
  deriving DecidableEq, Repr

def BrpMode.ofCode (c : BitVec 2) : BrpMode :=
  match c.toNat with
  | 0 => .any | 1 => .all | 2 => .none | _ => .nall
def BrpMode.code : BrpMode → BitVec 2
  | .any => 0 | .all => 1 | .none => 2 | .nall => 3

/-- MSETP operations (R258). -/
inductive MsetOp where
  | and | ortop | settop
  deriving DecidableEq, Repr

def MsetOp.ofCode? (c : BitVec 2) : Option MsetOp :=
  match c.toNat with
  | 0 => some .and | 1 => some .ortop | 2 => some .settop | _ => none
def MsetOp.code : MsetOp → BitVec 2
  | .and => 0 | .ortop => 1 | .settop => 2

/-- FENCE kinds (R294). -/
inductive FenceKind where
  | acq | rel | ar | sc
  deriving DecidableEq, Repr

def FenceKind.ofCode (c : BitVec 2) : FenceKind :=
  match c.toNat with
  | 0 => .acq | 1 => .rel | 2 => .ar | _ => .sc
def FenceKind.code : FenceKind → BitVec 2
  | .acq => 0 | .rel => 1 | .ar => 2 | .sc => 3

/-- The system registers SRD and SWR reach (R364); a REG the table does not list traps when it is used (R363). -/
inductive SysReg where
  | tcause | tepc | tdet0 | tdet1 | tdet2 | tscr0 | tscr1 | tscr2 | tscr3 | gstat | tctl | bpc
  | dcyc | dusec | thstat | gnode | gpstat | errcnt | trev | dlstat
  | psroot | tlbinv | pshlog | shdisc | spstat | skreq | tfence | fwtab
  | unlisted (c : BitVec 11)
  deriving DecidableEq, Repr

def SysReg.ofCode (c : BitVec 11) : SysReg :=
  match c.toNat with
  | 0x001 => .tcause | 0x002 => .tepc | 0x003 => .tdet0 | 0x004 => .tdet1 | 0x005 => .tdet2
  | 0x006 => .tscr0 | 0x007 => .tscr1 | 0x008 => .tscr2 | 0x009 => .tscr3 | 0x00A => .gstat
  | 0x010 => .tctl | 0x011 => .bpc | 0x020 => .dcyc | 0x021 => .dusec | 0x022 => .thstat
  | 0x023 => .gnode | 0x024 => .gpstat | 0x025 => .errcnt | 0x026 => .trev | 0x027 => .dlstat
  | 0x040 => .psroot | 0x041 => .tlbinv | 0x042 => .pshlog | 0x043 => .shdisc
  | 0x044 => .spstat | 0x045 => .skreq | 0x046 => .tfence | 0x047 => .fwtab
  | _ => .unlisted c
def SysReg.code : SysReg → BitVec 11
  | .tcause => 0x001 | .tepc => 0x002 | .tdet0 => 0x003 | .tdet1 => 0x004 | .tdet2 => 0x005
  | .tscr0 => 0x006 | .tscr1 => 0x007 | .tscr2 => 0x008 | .tscr3 => 0x009 | .gstat => 0x00A
  | .tctl => 0x010 | .bpc => 0x011 | .dcyc => 0x020 | .dusec => 0x021 | .thstat => 0x022
  | .gnode => 0x023 | .gpstat => 0x024 | .errcnt => 0x025 | .trev => 0x026 | .dlstat => 0x027
  | .psroot => 0x040 | .tlbinv => 0x041 | .pshlog => 0x042 | .shdisc => 0x043
  | .spstat => 0x044 | .skreq => 0x045 | .tfence => 0x046 | .fwtab => 0x047
  | .unlisted c => c

/-- The resumption condition of SUSPEND (R359): the fields a, b and f of its word. -/
inductive Susp where
  | now
  | delay (a : Opnd)
  deriving DecidableEq, Repr

def Susp.ofCode? (x : BitVec 24) : Option Susp :=
  if x.extractLsb' 2 14 == 0#14 then
    match (x.extractLsb' 0 2).toNat with
    | 0 => if x.extractLsb' 16 8 == 0#8 then some .now else none
    | 1 => some (.delay (Opnd.ofCode (x.extractLsb' 16 8)))
    | _ => none
  else none
def Susp.code : Susp → BitVec 24
  | .now => 0#24
  | .delay a => a.code ++ (0#14 ++ 1#2)

/-! ### The data of the events -/

/-- A link with flits and replay: a Gletan port, or one end of a die-to-die boundary, the far one being that of its
higher-numbered die (R18, R20). -/
inductive Link where
  | port (p : Nat)
  | boundary (b : Nat) (far : Bool)
  deriving DecidableEq, Repr

/-- One transaction packet (R30). -/
structure Packet where
  op : BitVec 8
  vc : BitVec 2
  dnode : BitVec 10
  snode : BitVec 10
  sep : BitVec 10
  fseq : BitVec 16
  vf : BitVec 9
  world : Bool
  addr : BitVec 42
  tag : BitVec 16
  len : BitVec 9
  aop : BitVec 4
  dtype : BitVec 3
  cseq : BitVec 16
  rgroup : BitVec 16
  ncontrib : BitVec 10
  payload : List Byte
  deriving DecidableEq, Repr

/-- A read response that reaches its reader: the k-th response on its way inside the package, or a READDATA packet. -/
inductive ReadResp where
  | inside (k : Nat)
  | packet (pk : Packet)
  deriving DecidableEq, Repr

/-- A partition entry of the configuration block (R42). -/
structure PartEntry where
  fields : BitVec 16
  vflo : BitVec 16
  vfhi : BitVec 16
  wflags : Byte
  reserved : Byte
  spbase : Word
  spsize : Word
  ssbase : Word
  sssize : Word
  tailZero : Bool
  deriving DecidableEq, Repr

/-- The signed configuration block as Craoz reads it (R42); the two flags are what its signatures verify to (log 12). -/
structure ConfigBlock where
  magic : BitVec 32
  svn : BitVec 32
  node : BitVec 16
  npart : Byte
  reservedZero : Bool
  part : List PartEntry
  edOk : Bool
  mldOk : Bool
  deriving DecidableEq, Repr

/-- A Ronzel image (R46); the two flags are what its signatures verify to, the digest is its measurement (log 12). -/
structure FlashImage where
  svn : BitVec 32
  digest : Word
  edOk : Bool
  mldOk : Bool
  deriving DecidableEq, Repr

/-- Registers of a virtual function frozen at lock (R53), other than the launch-window configuration. -/
inductive LockedReg where
  | bar
  | memEnable
  | msixControl
  | msixEntry (n : Nat)
  deriving DecidableEq, Repr

/-- A write to a register with no behaviour of its own (R363): by a sub-gang's SWR, by the physical function's
management registers, or by the debug port. -/
inductive RegWrite where
  | sub (t u : Nat) (reg : SysReg) (idx : BitVec 8) (v : Word)
  | psched (part : Nat) (v : Word)
  | hsroot (vf : Nat) (v : Word)
  | bpc (t k : Nat) (v : Word)
  deriving DecidableEq, Repr

/-- A freeze of a distributor or field controller, or of the debug port, which holds the tile after it or does not (R89,
R101). -/
inductive FreezeKind where
  | plain
  | debug (holds : Bool)
  deriving DecidableEq, Repr

/-- A word of a tile's image (R94): of a sub-gang its program counter and run depth; of a slice its masks, an entry of its mask
stack, a uniform register, and a trap register (0 to 8: TCAUSE, TEPC, TDET0 to TDET2, TSCR0 to TSCR3); of a lane its
predicates, a register and a latch; a word of a scratchpad allotment, of the accumulator store and of a plane's row; a register
of a bin-store slot; the bytes of a held write of the commit buffer; a timeline counter's two halves; the data of an entry of
the return log; a parameter of an engine command. -/
inductive ScanPlace where
  | pc (u : Nat)
  | depth (u : Nat)
  | mask (u sl : Nat)
  | live (u sl : Nat)
  | stack (u sl k : Nat)
  | uniform (u sl : Nat) (r : BitVec 5)
  | trap (u sl k : Nat)
  | pred (u sl ln : Nat)
  | lane (u sl ln : Nat) (r : BitVec 7)
  | latch (u sl ln k : Nat)
  | spad (ctx w : Nat)
  | acc (a : Nat)
  | plane (active : Bool) (q row w : Nat)
  | binStore (slot r : Nat)
  | held (g k w : Nat)
  | timeline (ctx tc : Nat)
  | retlog (k : Nat)
  | engine (id k : Nat)
  deriving DecidableEq, Repr

/-- What the debug port reads or writes in the image of a halted tile (R102). -/
inductive ScanAccess where
  | read (p : ScanPlace)
  | write (p : ScanPlace) (v : Word)
  deriving DecidableEq, Repr

/-- Where an uncorrectable data error lies (R211, R168): codes 5 and 8, 7, and 9 of group 15; a line may belong to a strand pool,
and `engine` names the line that was lost. -/
inductive DataErr where
  | line (pa : Nat)
  | sheafWord (t : Nat) (p : ScanPlace)
  | engine (t ctx pa : Nat)
  deriving DecidableEq, Repr

/-- Where a corrected error lies (R218): the storage of a block on a tile, a die's other SRAM, or a die's DRAM. -/
inductive ErrPlace where
  | tile (t ctx : Nat) (unit : BitVec 8)
  | sram (die : Nat)
  | dram (die : Nat)
  deriving DecidableEq, Repr

/-- The core-rail current at an evaluation (R10, R16): within its limit, above it, or above it for longer than 1 ms. -/
inductive CoreCurrent where
  | within | above | stayedAbove
  deriving DecidableEq, Repr

/-- What the patrol scrubber finds in a line (R219). -/
inductive ScrubFind where
  | clean | correctable | uncorrectable
  deriving DecidableEq, Repr

/-- The instructions and events of the DX-8: one constructor for each row of the opcode table. -/
inductive Instr where
  /-- ADD_LANE (R261). -/
  | addLane (d : LDst) (a : Opnd) (b : Opnd)
  /-- SUB_LANE (R261). -/
  | subLane (d : LDst) (a : Opnd) (b : Opnd)
  /-- MUL_LANE (R261). -/
  | mulLane (d : LDst) (a : Opnd) (b : Opnd)
  /-- MULH_LANE (R261). -/
  | mulhLane (d : LDst) (a : Opnd) (b : Opnd)
  /-- MULHU_LANE (R261). -/
  | mulhuLane (d : LDst) (a : Opnd) (b : Opnd)
  /-- MAD (R261). -/
  | mad (d : LDst) (a : Opnd) (b : Opnd)
  /-- AND_LANE (R261). -/
  | andLane (d : LDst) (a : Opnd) (b : Opnd)
  /-- OR_LANE (R261). -/
  | orLane (d : LDst) (a : Opnd) (b : Opnd)
  /-- XOR_LANE (R261). -/
  | xorLane (d : LDst) (a : Opnd) (b : Opnd)
  /-- ANDN_LANE (R261). -/
  | andnLane (d : LDst) (a : Opnd) (b : Opnd)
  /-- SHL_LANE (R261). -/
  | shlLane (d : LDst) (a : Opnd) (b : Opnd)
  /-- SHR_LANE (R261). -/
  | shrLane (d : LDst) (a : Opnd) (b : Opnd)
  /-- SAR_LANE (R261). -/
  | sarLane (d : LDst) (a : Opnd) (b : Opnd)
  /-- ROL_LANE (R261). -/
  | rolLane (d : LDst) (a : Opnd) (b : Opnd)
  /-- MIN_LANE (R261). -/
  | minLane (d : LDst) (a : Opnd) (b : Opnd)
  /-- MAX_LANE (R261). -/
  | maxLane (d : LDst) (a : Opnd) (b : Opnd)
  /-- MINU_LANE (R261). -/
  | minuLane (d : LDst) (a : Opnd) (b : Opnd)
  /-- MAXU_LANE (R261). -/
  | maxuLane (d : LDst) (a : Opnd) (b : Opnd)
  /-- CLZ_LANE (R261). -/
  | clzLane (d : LDst) (a : Opnd)
  /-- POPC_LANE (R261). -/
  | popcLane (d : LDst) (a : Opnd)
  /-- BREV (R261). -/
  | brev (d : LDst) (a : Opnd)
  /-- BFE_LANE (R262). -/
  | bfeLane (d : LDst) (a : Opnd) (b : Opnd)
  /-- BFI_LANE (R262). -/
  | bfiLane (d : LDst) (a : Opnd) (b : Opnd)
  /-- SEL_LANE (R263). -/
  | selLane (d : BitVec 7) (a : BitVec 7) (b : BitVec 7) (p : BitVec 3)
  /-- ADDC (R263). -/
  | addc (d : BitVec 7) (a : BitVec 7) (b : BitVec 7) (p : BitVec 3)
  /-- SUBB (R263). -/
  | subb (d : BitVec 7) (a : BitVec 7) (b : BitVec 7) (p : BitVec 3)
  /-- MADC (R263). -/
  | madc (d : BitVec 7) (a : BitVec 7) (b : BitVec 7) (p : BitVec 3)
  /-- CMP_LANE (R265). -/
  | cmpLane (pd : BitVec 3) (m : Comb) (c : ICond) (a : Opnd) (b : Opnd)
  /-- PLOG (R267). -/
  | plog (pd : BitVec 3) (tt : BitVec 4) (px : BitVec 3) (py : BitVec 3)
  /-- MOVI_LANE (R264). -/
  | moviLane (d : LDst) (imm : BitVec 16)
  /-- MOVHI_LANE (R264). -/
  | movhiLane (d : LDst) (imm : BitVec 16)
  /-- ADDI_LANE (R264). -/
  | addiLane (d : LDst) (imm : BitVec 16)
  /-- FADD (R268). -/
  | fadd (d : LDst) (a : Opnd) (b : Opnd)
  /-- FSUB (R268). -/
  | fsub (d : LDst) (a : Opnd) (b : Opnd)
  /-- FMUL (R268). -/
  | fmul (d : LDst) (a : Opnd) (b : Opnd)
  /-- FMA (R268). -/
  | fma (d : LDst) (a : Opnd) (b : Opnd)
  /-- FMIN (R269). -/
  | fmin (d : LDst) (a : Opnd) (b : Opnd)
  /-- FMAX (R269). -/
  | fmax (d : LDst) (a : Opnd) (b : Opnd)
  /-- FCMP (R265). -/
  | fcmp (pd : BitVec 3) (m : Comb) (c : FCond) (a : Opnd) (b : Opnd)
  /-- FCLASS (R265). -/
  | fclass (pd : BitVec 3) (m : Comb) (a : Opnd) (b : Opnd)
  /-- FRND (R270). -/
  | frnd (d : LDst) (a : Opnd) (rm : Rm)
  /-- CVT (R271). -/
  | cvt (d : LDst) (a : Opnd) (rm : Rm) (src : NTy) (dst : NTy)
  /-- RCP (R268). -/
  | rcp (d : LDst) (a : Opnd)
  /-- RSQ (R268). -/
  | rsq (d : LDst) (a : Opnd)
  /-- SQRT (R268). -/
  | sqrt (d : LDst) (a : Opnd)
  /-- EXP2 (R268). -/
  | exp2 (d : LDst) (a : Opnd)
  /-- LOG2 (R268). -/
  | log2 (d : LDst) (a : Opnd)
  /-- SIN (R268). -/
  | sin (d : LDst) (a : Opnd)
  /-- COS (R268). -/
  | cos (d : LDst) (a : Opnd)
  /-- TANH (R268). -/
  | tanh (d : LDst) (a : Opnd)
  /-- PADD (R272). -/
  | padd (d : BitVec 7) (a : BitVec 7) (b : BitVec 7) (bf : Bool)
  /-- PMUL (R272). -/
  | pmul (d : BitVec 7) (a : BitVec 7) (b : BitVec 7) (bf : Bool)
  /-- PFMA (R272). -/
  | pfma (d : BitVec 7) (a : BitVec 7) (b : BitVec 7) (bf : Bool)
  /-- PMAX (R272). -/
  | pmax (d : BitVec 7) (a : BitVec 7) (b : BitVec 7) (bf : Bool)
  /-- FSCL (R268). -/
  | fscl (d : LDst) (a : Opnd) (b : Opnd)
  /-- DXPACK (R281). -/
  | dxpack (d : LDst) (a : Opnd) (half : Bool) (fmt : DxFmt)
  /-- DXUNPK (R282). -/
  | dxunpk (d : LDst) (a : Opnd) (half : Bool) (fmt : DxFmt)
  /-- DXEXP (R281). -/
  | dxexp (d : LDst) (a : Opnd) (fmt : DxFmt)
  /-- SHUF (R274). -/
  | shuf (d : LDst) (a : Opnd) (b : Opnd)
  /-- LPUSH (R275). -/
  | lpush (d : LDst) (a : Opnd) (b : Opnd)
  /-- BCAST (R274). -/
  | bcast (d : LDst) (a : Opnd) (b : Opnd)
  /-- LSCAN (R276). -/
  | lscan (d : LDst) (a : Opnd) (ex : Bool) (op : ScanOp)
  /-- FSCAN (R276). -/
  | fscan (d : LDst) (a : Opnd) (ex : Bool) (op : FScanOp)
  /-- LRED (R277). -/
  | lred (d : LDst) (a : Opnd) (op : RedOp)
  /-- VOTE (R278). -/
  | vote (pd : BitVec 3) (m : VoteMode) (px : BitVec 3)
  /-- RNG (R283). -/
  | rng (d : LDst) (a : Opnd) (b : Opnd)
  /-- PREFPOP (R279). -/
  | prefpop (d : LDst) (a : Opnd) (inc : Bool)
  /-- LD_LANE (R286). -/
  | ldLane (d : LDst) (addr : BitVec 6) (ty : Ty) (o : MOrd)
  /-- ST_LANE (R286). -/
  | stLane (data : Opnd) (addr : BitVec 6) (ty : Ty) (o : MOrd)
  /-- LDS (R286). -/
  | lds (d : LDst) (addr : BitVec 7) (ty : Ty) (o : MOrd)
  /-- STS (R286). -/
  | sts (data : Opnd) (addr : BitVec 7) (ty : Ty) (o : MOrd)
  /-- AADD_LANE (R291). -/
  | aaddLane (d : BitVec 7) (addr : LaAddr) (v : BitVec 7) (os : Os)
  /-- AFADD (R291). -/
  | afadd (d : BitVec 7) (addr : LaAddr) (v : BitVec 7) (os : Os)
  /-- AMIN (R291). -/
  | amin (d : BitVec 7) (addr : LaAddr) (v : BitVec 7) (os : Os)
  /-- AMAX_LANE (R291). -/
  | amaxLane (d : BitVec 7) (addr : LaAddr) (v : BitVec 7) (os : Os)
  /-- AMINU (R291). -/
  | aminu (d : BitVec 7) (addr : LaAddr) (v : BitVec 7) (os : Os)
  /-- AMAXU (R291). -/
  | amaxu (d : BitVec 7) (addr : LaAddr) (v : BitVec 7) (os : Os)
  /-- AAND (R291). -/
  | aand (d : BitVec 7) (addr : LaAddr) (v : BitVec 7) (os : Os)
  /-- AOR (R291). -/
  | aor (d : BitVec 7) (addr : LaAddr) (v : BitVec 7) (os : Os)
  /-- AXOR (R291). -/
  | axor (d : BitVec 7) (addr : LaAddr) (v : BitVec 7) (os : Os)
  /-- AXCHG_LANE (R291). -/
  | axchgLane (d : BitVec 7) (addr : LaAddr) (v : BitVec 7) (os : Os)
  /-- ACAS_LANE (R291). -/
  | acasLane (d : BitVec 7) (addr : LaAddr) (v : BitVec 7) (os : Os)
  /-- SLD_LANE (R339). -/
  | sldLane (d : LDst) (addr : BitVec 6) (ty : Ty) (pm : BitVec 3) (sn : BitVec 3)
  /-- SST_LANE (R339). -/
  | sstLane (data : Opnd) (addr : BitVec 6) (ty : Ty) (sn : BitVec 3)
  /-- SRANK_LANE (R341). -/
  | srankLane (d : LDst) (addr : BitVec 6) (pm : BitVec 3)
  /-- SANCH_LANE (R341). -/
  | sanchLane (d : LDst) (addr : BitVec 6) (sn : BitVec 3)
  /-- SEND_LANE (R344). -/
  | sendLane (r : Opnd) (ch : BitVec 6) (n : BitVec 2) (row : Bool)
  /-- RECV_LANE (R344). -/
  | recvLane (d : LDst) (ch : BitVec 6) (n : BitVec 2) (row : Bool)
  /-- SPAWN (R360). -/
  | spawn (r : Opnd) (base : BitVec 6) (det : Bool) (k : BitVec 4)
  /-- SAADD (R340). -/
  | saadd (d : Opnd) (addr : BitVec 6) (ty : Ty2) (sn : BitVec 3)
  /-- SAMIN (R340). -/
  | samin (d : Opnd) (addr : BitVec 6) (ty : Ty2) (sn : BitVec 3)
  /-- SAMAX (R340). -/
  | samax (d : Opnd) (addr : BitVec 6) (ty : Ty2) (sn : BitVec 3)
  /-- SACAS (R340). -/
  | sacas (d : Opnd) (addr : BitVec 6) (ty : Ty2) (sn : BitVec 3)
  /-- SAXCHG (R340). -/
  | saxchg (d : Opnd) (addr : BitVec 6) (ty : Ty2) (sn : BitVec 3)
  /-- ADD_UNIFORM (R244). -/
  | addUniform (d : UDst) (a : Opnd) (b : Opnd)
  /-- SUB_UNIFORM (R244). -/
  | subUniform (d : UDst) (a : Opnd) (b : Opnd)
  /-- MUL_UNIFORM (R244). -/
  | mulUniform (d : UDst) (a : Opnd) (b : Opnd)
  /-- MULH_UNIFORM (R244). -/
  | mulhUniform (d : UDst) (a : Opnd) (b : Opnd)
  /-- MULHU_UNIFORM (R244). -/
  | mulhuUniform (d : UDst) (a : Opnd) (b : Opnd)
  /-- AND_UNIFORM (R244). -/
  | andUniform (d : UDst) (a : Opnd) (b : Opnd)
  /-- OR_UNIFORM (R244). -/
  | orUniform (d : UDst) (a : Opnd) (b : Opnd)
  /-- XOR_UNIFORM (R244). -/
  | xorUniform (d : UDst) (a : Opnd) (b : Opnd)
  /-- ANDN_UNIFORM (R244). -/
  | andnUniform (d : UDst) (a : Opnd) (b : Opnd)
  /-- SHL_UNIFORM (R244). -/
  | shlUniform (d : UDst) (a : Opnd) (b : Opnd)
  /-- SHR_UNIFORM (R244). -/
  | shrUniform (d : UDst) (a : Opnd) (b : Opnd)
  /-- SAR_UNIFORM (R244). -/
  | sarUniform (d : UDst) (a : Opnd) (b : Opnd)
  /-- MIN_UNIFORM (R244). -/
  | minUniform (d : UDst) (a : Opnd) (b : Opnd)
  /-- MAX_UNIFORM (R244). -/
  | maxUniform (d : UDst) (a : Opnd) (b : Opnd)
  /-- MINU_UNIFORM (R244). -/
  | minuUniform (d : UDst) (a : Opnd) (b : Opnd)
  /-- MAXU_UNIFORM (R244). -/
  | maxuUniform (d : UDst) (a : Opnd) (b : Opnd)
  /-- CLZ_UNIFORM (R244). -/
  | clzUniform (d : UDst) (a : Opnd)
  /-- POPC_UNIFORM (R244). -/
  | popcUniform (d : UDst) (a : Opnd)
  /-- BFE_UNIFORM (R246). -/
  | bfeUniform (d : UDst) (a : Opnd) (b : Opnd)
  /-- BFI_UNIFORM (R246). -/
  | bfiUniform (d : UDst) (a : Opnd) (b : Opnd)
  /-- CMP_EQ_UNIFORM (R245). -/
  | cmpEqUniform (d : UDst) (a : Opnd) (b : Opnd)
  /-- CMP_NE_UNIFORM (R245). -/
  | cmpNeUniform (d : UDst) (a : Opnd) (b : Opnd)
  /-- CMP_LT_UNIFORM (R245). -/
  | cmpLtUniform (d : UDst) (a : Opnd) (b : Opnd)
  /-- CMP_LE_UNIFORM (R245). -/
  | cmpLeUniform (d : UDst) (a : Opnd) (b : Opnd)
  /-- CMP_BLO_UNIFORM (R245). -/
  | cmpBloUniform (d : UDst) (a : Opnd) (b : Opnd)
  /-- CMP_BLS_UNIFORM (R245). -/
  | cmpBlsUniform (d : UDst) (a : Opnd) (b : Opnd)
  /-- SEL_UNIFORM (R247). -/
  | selUniform (d : UDst) (a : Opnd) (b : Opnd)
  /-- MOVI_UNIFORM (R248). -/
  | moviUniform (s : BitVec 5) (imm : BitVec 19)
  /-- MOVHI_UNIFORM (R248). -/
  | movhiUniform (s : BitVec 5) (imm : BitVec 19)
  /-- ADDI_UNIFORM (R248). -/
  | addiUniform (s : BitVec 5) (imm : BitVec 19)
  /-- ROL_UNIFORM (R244). -/
  | rolUniform (d : UDst) (a : Opnd) (b : Opnd)
  /-- BR (R250). -/
  | br (off : BitVec 24)
  /-- BRZ (R250). -/
  | brz (c : Opnd) (off : BitVec 16)
  /-- BRNZ (R250). -/
  | brnz (c : Opnd) (off : BitVec 16)
  /-- BRP (R251). -/
  | brp (m : BrpMode) (p : BitVec 3) (off : BitVec 16)
  /-- CALL (R253). -/
  | call (off : BitVec 24)
  /-- RET (R253). -/
  | ret
  /-- JMPI (R253). -/
  | jmpi (d : UDst) (a : Opnd) (b : Opnd)
  /-- REGANG (R254). -/
  | regang
  /-- MPUSH (R258). -/
  | mpush (inv : Bool) (p : BitVec 3)
  /-- MPOP (R258). -/
  | mpop
  /-- MSETP (R258). -/
  | msetp (op : MsetOp) (inv : Bool) (p : BitVec 3)
  /-- MELSE (R258). -/
  | melse
  /-- LOOP (R252). -/
  | loop (c : Opnd) (off : BitVec 16)
  /-- YIELD (R255). -/
  | yield
  /-- EXIT (R256). -/
  | exit
  /-- NOP (R255). -/
  | nop
  /-- LD_UNIFORM (R287). -/
  | ldUniform (d : UDst) (addr : BitVec 5) (ty : Ty) (o : MOrd)
  /-- ST_UNIFORM (R287). -/
  | stUniform (data : Opnd) (addr : BitVec 5) (ty : Ty) (o : MOrd)
  /-- AADD_UNIFORM (R292). -/
  | aaddUniform (d : UDst) (addr : BitVec 5) (ty : Ty2) (o : AOrd)
  /-- ACAS_UNIFORM (R292). -/
  | acasUniform (d : UDst) (addr : BitVec 5) (ty : Ty2) (o : AOrd)
  /-- AXCHG_UNIFORM (R292). -/
  | axchgUniform (d : UDst) (addr : BitVec 5) (ty : Ty2) (o : AOrd)
  /-- AMAX_UNIFORM (R292). -/
  | amaxUniform (d : UDst) (addr : BitVec 5) (ty : Ty2) (o : AOrd)
  /-- FENCE (R294). -/
  | fence (sc : Scope) (k : FenceKind)
  /-- WAITC (R259). -/
  | waitc (a : Opnd) (sel : BitVec 5)
  /-- MONARM (R295). -/
  | monarm (data : Opnd) (addr : BitVec 5) (ty : Ty2)
  /-- MONWAIT (R296). -/
  | monwait (d : UDst) (ty : Ty2) (o : AOrd)
  /-- BARINIT (R298). -/
  | barinit (a : Opnd) (b : Opnd)
  /-- BARARV (R298). -/
  | bararv (a : Opnd) (b : Opnd)
  /-- BAREXP (R298). -/
  | barexp (a : Opnd) (b : Opnd)
  /-- BARWAIT (R299). -/
  | barwait (a : Opnd) (b : Opnd)
  /-- TLWAIT (R301). -/
  | tlwait (tc : BitVec 4) (x : Opnd)
  /-- TLQRY (R302). -/
  | tlqry (tc : BitVec 4) (d : UDst)
  /-- TDEF (R311). -/
  | tdef (h : BitVec 6) (n : BitVec 5)
  /-- COPY (R314). -/
  | copy (tc : BitVec 4) (hd : BitVec 6) (hs : BitVec 6) (stamp : Bool) (bar : Bool) (link : Bool) (n : BitVec 5)
  /-- COPYM (R319). -/
  | copym (tc : BitVec 4) (hd : BitVec 6) (hs : BitVec 6) (bar : Bool) (link : Bool) (n : BitVec 5)
  /-- COPYS (R320). -/
  | copys (tc : BitVec 4) (hd : BitVec 6) (hs : BitVec 6) (n : BitVec 5)
  /-- COPYR (R321). -/
  | copyr (tc : BitVec 4) (hd : BitVec 6) (hs : BitVec 6) (n : BitVec 5)
  /-- MLOAD (R323). -/
  | mload (tc : BitVec 4) (h : BitVec 6) (n : BitVec 5)
  /-- MSWAP (R324). -/
  | mswap (tc : BitVec 4) (mask : BitVec 4)
  /-- MMUL (R325). -/
  | mmul (tc : BitVec 4) (hd : BitVec 6) (hs : BitVec 6) (n : BitVec 5)
  /-- ACCZ (R326). -/
  | accz (tc : BitVec 4) (h : BitVec 6)
  /-- ACCDRN (R327). -/
  | accdrn (tc : BitVec 4) (hd : BitVec 6) (hs : BitVec 6) (z : Bool) (n : BitVec 5)
  /-- ACCMOV (R328). -/
  | accmov (st : Bool) (reg : BitVec 5) (x : Opnd)
  /-- ATTN (R331). -/
  | attn (tc : BitVec 4) (hd : BitVec 6) (hs : BitVec 6) (n : BitVec 5)
  /-- HISTRD (R329). -/
  | histrd (h : BitVec 6) (bin : BitVec 5) (d : UDst)
  /-- HISTCLR (R329). -/
  | histclr (tc : BitVec 4) (h : BitVec 6)
  /-- SNEW (R157). -/
  | snew (a : Opnd) (b : Opnd) (n : BitVec 5)
  /-- SFREE (R157). -/
  | sfree (a : Opnd)
  /-- SLEN (R157). -/
  | slen (a : Opnd) (n : BitVec 5)
  /-- SINS (R157). -/
  | sins (a : Opnd) (b : Opnd) (z : Bool) (n : BitVec 5)
  /-- SDEL (R157). -/
  | sdel (a : Opnd) (b : Opnd) (n : BitVec 5)
  /-- SSPLIT (R157). -/
  | ssplit (a : Opnd) (b : Opnd) (n : BitVec 5)
  /-- SCAT (R157). -/
  | scat (a : Opnd) (b : Opnd) (share : Bool)
  /-- SGAP (R159). -/
  | sgap (a : Opnd) (b : Opnd) (n : BitVec 5)
  /-- SAPND (R159). -/
  | sapnd (a : Opnd) (n : BitVec 5)
  /-- SCLOSE (R159). -/
  | sclose (a : Opnd)
  /-- SRANK_UNIFORM (R336). -/
  | srankUniform (a : Opnd) (pm : BitVec 3) (n : BitVec 5)
  /-- SANCH_UNIFORM (R160). -/
  | sanchUniform (a : Opnd) (b : Opnd) (n : BitVec 5)
  /-- SLD_UNIFORM (R338). -/
  | sldUniform (d : UDst) (addr : BitVec 5) (ty : Ty) (pm : BitVec 3) (sn : BitVec 3)
  /-- SST_UNIFORM (R338). -/
  | sstUniform (data : Opnd) (addr : BitVec 5) (ty : Ty) (sn : BitVec 3)
  /-- SEND_UNIFORM (R345). -/
  | sendUniform (r : Opnd) (ch : BitVec 6) (n : BitVec 2)
  /-- RECV_UNIFORM (R345). -/
  | recvUniform (d : UDst) (ch : BitVec 6) (n : BitVec 2)
  /-- GET (R178). -/
  | get (r : Opnd) (ch : BitVec 6) (n : BitVec 2) (p : BitVec 3)
  /-- PUT (R178). -/
  | put (r : Opnd) (ch : BitVec 6) (n : BitVec 2) (eos : Bool)
  /-- KNOT (R348). -/
  | knot (g : BitVec 8) (h : BitVec 8)
  /-- SKFOLD (R349). -/
  | skfold (d : UDst) (a : Opnd)
  /-- SKSPREAD (R349). -/
  | skspread (d : UDst) (a : Opnd)
  /-- SKQRY (R349). -/
  | skqry (d : UDst) (a : Opnd)
  /-- LAUNCH (R356). -/
  | launch (a : Opnd)
  /-- SUSPEND (R359). -/
  | suspend (k : Susp)
  /-- LQRY (R362). -/
  | lqry (d : UDst) (a : Opnd)
  /-- SRD (R363). -/
  | srd (s : BitVec 5) (reg : SysReg) (idx : BitVec 8)
  /-- SWR (R363). -/
  | swr (s : BitVec 5) (reg : SysReg) (idx : BitVec 8)
  /-- TRAP (R366). -/
  | trap (imm : BitVec 24)
  /-- TRET (R208). -/
  | tret
  /-- BRK (R366). -/
  | brk (imm : BitVec 24)
  /-- RAILS_GOOD (R11). -/
  | railsGood
  /-- FULL_RESET (R42). -/
  | fullReset (cfg : ConfigBlock)
  /-- RECOVERY_IMAGE (R46). -/
  | recoveryImage (img : FlashImage)
  /-- FIRMWARE_UPDATE (R47). -/
  | firmwareUpdate (img : FlashImage) (powerFails : Bool)
  /-- THROTTLE_EVALUATION (R16). -/
  | throttleEvaluation (temps : List (BitVec 16)) (current : CoreCurrent)
  /-- THERMTRIP (R16). -/
  | thermtrip (die : Nat) (temp : BitVec 16)
  /-- THSTAT_TRIPPED_CLEAR (R16). -/
  | thstatTrippedClear (die : Nat) (v : Word)
  /-- FLIT_RECEIVE (R23). -/
  | flitReceive (l : Link) (flit : List Byte)
  /-- REPLAY_REQUEST (R24). -/
  | replayRequest (l : Link) (fseq : BitVec 12)
  /-- PORT_RETRAIN (R24). -/
  | portRetrain (p : Nat)
  /-- PORT_TRAINING_DONE (R21). -/
  | portTrainingDone (p : Nat) (lanes : BitVec 8)
  /-- BOUNDARY_RETRAIN (R19). -/
  | boundaryRetrain (b : Nat)
  /-- BOUNDARY_TRAINING_DONE (R19). -/
  | boundaryTrainingDone (b : Nat) (ok : Bool)
  /-- DIE_PACKET_ARRIVAL (R19). -/
  | diePacketArrival (src dst : Nat)
  /-- VECTOR_ANNOUNCE (R145). -/
  | vectorAnnounce (src : Nat)
  /-- REMOTE_WRITE_APPLY (R146). -/
  | remoteWriteApply (home k : Nat)
  /-- REMOTE_READ_PERFORM (R146). -/
  | remoteReadPerform (home k : Nat)
  /-- READ_RESPONSE_ARRIVAL (R146). -/
  | readResponseArrival (r : ReadResp)
  /-- GPQCTL_QUIESCE (R29). -/
  | gpqctlQuiesce (p : Nat)
  /-- GPQCTL_RESUME (R29). -/
  | gpqctlResume (p : Nat)
  /-- PORT_QUIESCE_DONE (R29). -/
  | portQuiesceDone (p : Nat)
  /-- GRTAB_WRITE (R29). -/
  | grtabWrite (die : Nat) (node : BitVec 10) (v : BitVec 8)
  /-- PACKET_WRITE (R31). -/
  | packetWrite (port : Nat) (pk : Packet)
  /-- PACKET_READ (R381). -/
  | packetRead (port : Nat) (pk : Packet)
  /-- PACKET_ATOMIC (R290). -/
  | packetAtomic (port : Nat) (pk : Packet)
  /-- PACKET_SIGNAL (R33). -/
  | packetSignal (port : Nat) (pk : Packet)
  /-- SIGNAL_APPLY (R33). -/
  | signalApply (k : Nat)
  /-- REDUCE_CONTRIBUTION (R35). -/
  | reduceContribution (pk : Packet)
  /-- LOCAL_REDUCE_COMBINE (R37). -/
  | localReduceCombine (k : Nat)
  /-- ACK_RESPONSE (R149). -/
  | ackResponse (pk : Packet)
  /-- ATOMRES_RESPONSE (R290). -/
  | atomresResponse (pk : Packet)
  /-- ERROR_RESPONSE (R382). -/
  | errorResponse (pk : Packet)
  /-- LOCK_INTERFACE_REQUEST (R53). -/
  | lockInterfaceRequest (vf : Nat) (keyed : Bool)
  /-- GET_DEVICE_INTERFACE_REPORT (R53). -/
  | getDeviceInterfaceReport (vf : Nat)
  /-- START_INTERFACE_REQUEST (R53). -/
  | startInterfaceRequest (vf : Nat)
  /-- STOP_INTERFACE_REQUEST (R53). -/
  | stopInterfaceRequest (vf : Nat)
  /-- STOP_SCRUB_DONE (R55). -/
  | stopScrubDone (vf : Nat)
  /-- LOCKED_REGISTER_WRITE (R53). -/
  | lockedRegisterWrite (vf : Nat) (reg : LockedReg) (v : BitVec 128)
  /-- IDE_INTEGRITY_FAILURE (R53). -/
  | ideIntegrityFailure (vf : Nat)
  /-- SPDM_MEASUREMENTS (R52). -/
  | spdmMeasurements (nonce : Word)
  /-- LAUNCH_RECORD_WRITE (R60). -/
  | launchRecordWrite (vf win off : Nat) (data : List Byte) (ide : Bool)
  /-- LWCFG_WRITE (R63). -/
  | lwcfgWrite (vf win : Nat) (v : Word)
  /-- SYSTEM_REGISTER_WRITE (R363). -/
  | systemRegisterWrite (w : RegWrite)
  /-- TEPC_WRITE (R208). -/
  | tepcWrite (t u : Nat) (v : Word)
  /-- TLBINV_WRITE (R130). -/
  | tlbinvWrite (part : Nat) (v : Word)
  /-- HTLBINV_WRITE (R129). -/
  | htlbinvWrite (vf : Nat) (v : Word)
  /-- TLBINV_COMPLETE (R130). -/
  | tlbinvComplete (part : Nat)
  /-- TRANSLATION_WALK (R127). -/
  | translationWalk (t vf : Nat) (va : Word)
  /-- SHDISC_WRITE (R100). -/
  | shdiscWrite (part slot : Nat)
  /-- SKREQ_REEL (R187). -/
  | skreqReel (part : Nat) (desc : Word)
  /-- SKREQ_UNREEL (R187). -/
  | skreqUnreel (part : Nat) (desc : Word)
  /-- SKREQ_EXPORT (R190). -/
  | skreqExport (part : Nat) (desc : Word)
  /-- WORLD_MOVE_REQUEST (R50). -/
  | worldMoveRequest (granule : Nat) (secure : Bool)
  /-- WORLD_MOVE_COMPLETE (R50). -/
  | worldMoveComplete (granule : Nat)
  /-- QUEUE_AGE_TIMER (R72). -/
  | queueAgeTimer (part q : Nat)
  /-- PLACE_BLOCK (R76). -/
  | placeBlock (part : Nat) (tiles : List Nat)
  /-- TIME_SLICE_BOUNDARY (R79). -/
  | timeSliceBoundary (part : Nat)
  /-- USED_UPDATE (R66). -/
  | usedUpdate (t : Nat)
  /-- GRID_COMPLETION (R67). -/
  | gridCompletion (grid : Nat)
  /-- SCRUB_COMPLETE (R51). -/
  | scrubComplete (t : Nat)
  /-- FREEZE_REQUEST (R89). -/
  | freezeRequest (t : Nat) (kind : FreezeKind)
  /-- DRAIN_COMPLETE (R90). -/
  | drainComplete (t : Nat)
  /-- SHEAF_SAVE_DONE (R96). -/
  | sheafSaveDone (t : Nat)
  /-- SHEAF_RESTORE (R97). -/
  | sheafRestore (part slot t : Nat)
  /-- SHEAF_RESTORE_DONE (R98). -/
  | sheafRestoreDone (t : Nat)
  /-- DEBUG_RESUME (R101). -/
  | debugResume (t : Nat) (subs : List Nat)
  /-- DEBUG_SAVE_REQUEST (R101). -/
  | debugSaveRequest (t : Nat)
  /-- DEBUG_SCAN_ACCESS (R102). -/
  | debugScanAccess (t : Nat) (acc : ScanAccess)
  /-- BIN_TIMER_EXPIRY (R84). -/
  | binTimerExpiry (t bin : Nat)
  /-- BIN_FORM_GANG (R85). -/
  | binFormGang (t bin : Nat)
  /-- BIN_STORE_DEADLOCK (R87). -/
  | binStoreDeadlock (t : Nat)
  /-- MONITOR_WATCH_FIRE (R296). -/
  | monitorWatchFire (t run : Nat)
  /-- MONITOR_POLL (R297). -/
  | monitorPoll (t run : Nat)
  /-- SUSPEND_DELAY_EXPIRY (R359). -/
  | suspendDelayExpiry (t run : Nat)
  /-- LOG_ENTRY_COMPLETE (R131). -/
  | logEntryComplete (t u sl slot : Nat)
  /-- TRAP_ENTRY (R207). -/
  | trapEntry (t u : Nat)
  /-- IMPRECISE_REPORT_TAKEN (R206). -/
  | impreciseReportTaken (t u : Nat)
  /-- TILE_STATE_ERROR (R213). -/
  | tileStateError (t gang : Nat) (code : BitVec 8)
  /-- DATA_ERROR (R211). -/
  | dataError (e : DataErr)
  /-- CORRECTED_ERROR (R218). -/
  | correctedError (w : ErrPlace)
  /-- PATROL_SCRUB (R219). -/
  | patrolScrub (line : Nat) (found : ScrubFind)
  /-- ENGINE_COMMAND_COMPLETE (R151). -/
  | engineCommandComplete (t id : Nat)
  /-- BARRIER_BYTE_COUNT (R298). -/
  | barrierByteCount (t id n : Nat)
  /-- LINKED_START (R317). -/
  | linkedStart (t id : Nat)
  /-- STRAND_OP_APPLY (R163). -/
  | strandOpApply (home k : Nat)
  /-- STRAND_RESPONSE (R337). -/
  | strandResponse (k : Nat)
  /-- CHANNEL_ITEM_ARRIVAL (R179). -/
  | channelItemArrival (part sk link : Nat)
  /-- DISTRIBUTOR_REEL_REQUEST (R187). -/
  | distributorReelRequest (part sk : Nat)
  /-- STAGE_GANG_PLACE (R188). -/
  | stageGangPlace (part sk stage t : Nat)
  /-- SKEIN_GATHER_DONE (R185). -/
  | skeinGatherDone (part sk : Nat)
  /-- SKEIN_COPY_DONE (R184). -/
  | skeinCopyDone (part sk : Nat)
  /-- SKEIN_UNREEL_AT_KNOT (R186). -/
  | skeinUnreelAtKnot (part sk : Nat)
  /-- SKEIN_EXPORT_AT_KNOT (R190). -/
  | skeinExportAtKnot (part sk : Nat)
  /-- SKEIN_SWITCH_TIMEOUT (R184). -/
  | skeinSwitchTimeout (part sk : Nat)
  /-- RAILS_REMOVED (R11). -/
  | railsRemoved
  /-- FREED_SLOT_NOTICE_ARRIVAL (R179). -/
  | freedSlotNoticeArrival (part sk link : Nat)
  /-- DISTRIBUTOR_UNREEL_REQUEST (R187). -/
  | distributorUnreelRequest (part sk : Nat)  deriving DecidableEq, Repr

end Sys2Proof
end

