-- ==== Sys2Proof/Machine/NumFmt.lean ====
section
/-!
DEFINITION. Number formats and exact arithmetic: every operation is computed exactly on dyadic numbers and rounded once
at the end (12_number_formats.md R191 to R203; 16_lane_instructions.md R268 to R272).
-/
namespace Sys2Proof.Machine

/-- The value of a floating-point word: a NaN, an infinity, or (−1)^neg × m × 2^e (a zero keeps its sign). -/
inductive FV where
  | nan
  | inf (neg : Bool)
  | fin (neg : Bool) (m : Nat) (e : Int)
  deriving DecidableEq, Repr

/-- An IEEE-like format (R199): exponent bits, mantissa bits, bias; `ieee` formats have infinities, E4M3 has none. -/
structure FFmt where
  eb : Nat
  mb : Nat
  bias : Nat
  ieee : Bool
  deriving DecidableEq, Repr

def f32 : FFmt := ⟨8, 23, 127, true⟩
def f16 : FFmt := ⟨5, 10, 15, true⟩
def bf16 : FFmt := ⟨8, 7, 127, true⟩
def e4m3 : FFmt := ⟨4, 3, 7, false⟩
def e5m2 : FFmt := ⟨5, 2, 15, true⟩

/-- The exponent of the smallest subnormal. -/
def FFmt.emin (f : FFmt) : Int := 1 - (f.bias : Int) - (f.mb : Int)
def FFmt.width (f : FFmt) : Nat := 1 + f.eb + f.mb
def FFmt.signBit (f : FFmt) : Nat := 2 ^ (f.eb + f.mb)
/-- The pattern of +∞ (IEEE formats). -/
def FFmt.infBits (f : FFmt) : Nat := (2 ^ f.eb - 1) * 2 ^ f.mb
/-- The canonical NaN (R199). -/
def FFmt.nanBits (f : FFmt) : Nat := if f.ieee then f.infBits + 2 ^ (f.mb - 1) else 2 ^ (f.eb + f.mb) - 1
/-- The largest finite pattern. -/
def FFmt.maxBits (f : FFmt) : Nat := if f.ieee then f.infBits - 1 else 2 ^ (f.eb + f.mb) - 2

/-- The value of a pattern (R199). -/
def FFmt.value (f : FFmt) (x : Nat) : FV :=
  let neg := x / f.signBit % 2 == 1
  let y := x % f.signBit
  if f.ieee && decide (y > f.infBits) then .nan
  else if f.ieee && decide (y = f.infBits) then .inf neg
  else if !f.ieee && decide (y = f.nanBits) then .nan
  else
    let e := y / 2 ^ f.mb
    let m := y % 2 ^ f.mb
    if e = 0 then .fin neg m f.emin else .fin neg (2 ^ f.mb + m) (f.emin + (e : Int) - 1)

/-- m × 2^e as a multiple of 2^q, when q ≤ e. -/
def shl (m : Nat) (k : Int) : Nat := m * 2 ^ k.toNat

/-- Rounds m / 2^k to an integer in the given mode, for a value of the given sign (R270). -/
def roundShift (rm : Rm) (neg : Bool) (m k : Nat) : Nat :=
  let q := m / 2 ^ k
  let r := m % 2 ^ k
  let up : Bool := match rm with
    | .rn => decide (2 * r > 2 ^ k) || (decide (2 * r = 2 ^ k ∧ k ≠ 0) && q % 2 == 1)
    | .rz => false
    | .rd => neg && decide (r ≠ 0)
    | .ru => !neg && decide (r ≠ 0)
  if up then q + 1 else q

/-- The number of significant bits. -/
def bitLen (m : Nat) : Nat := if m = 0 then 0 else m.log2 + 1

/-- The magnitude pattern of m × 2^e rounded to nearest even, before overflow is looked at: exponent and mantissa read
as one number. `sticky` says whether a discarded tail lies below m. -/
def FFmt.roundMag (f : FFmt) (m : Nat) (e : Int) : Nat :=
  let q := max (e + (bitLen m : Int) - ((f.mb : Int) + 1)) f.emin
  let m' := if q ≤ e then shl m (e - q) else roundShift .rn false m (q - e).toNat
  (q - f.emin).toNat * 2 ^ f.mb + m'

/-- What a finite value too large for the format becomes (R200). -/
inductive Overflow where
  | infinity | saturate
  deriving DecidableEq, Repr

/-- Encodes a value by one rounding to nearest even (R199, R200). -/
def FFmt.encode (f : FFmt) (v : FV) : Nat :=
  match v with
  | .nan => f.nanBits
  | .inf neg => (if neg then f.signBit else 0) + (if f.ieee then f.infBits else f.maxBits)
  | .fin neg m e =>
    let y := if m = 0 then 0 else f.roundMag m e
    let y := if y > f.maxBits then (if f.ieee then f.infBits else f.maxBits) else y
    (if neg then f.signBit else 0) + y

/-- A signed dyadic number. -/
structure Dy where
  m : Int
  e : Int
  deriving DecidableEq, Repr

def Dy.add (a b : Dy) : Dy :=
  let e := min a.e b.e
  ⟨a.m * 2 ^ (a.e - e).toNat + b.m * 2 ^ (b.e - e).toNat, e⟩
def Dy.mul (a b : Dy) : Dy := ⟨a.m * b.m, a.e + b.e⟩
def Dy.zero : Dy := ⟨0, 0⟩
def FV.dy : FV → Dy
  | .fin neg m e => ⟨if neg then -(m : Int) else m, e⟩
  | _ => Dy.zero
/-- A dyadic number as a value; zero is +0. -/
def Dy.fv (a : Dy) : FV := .fin (decide (a.m < 0)) a.m.natAbs a.e
/-- Whether a < b. -/
def Dy.lt (a b : Dy) : Bool :=
  let e := min a.e b.e
  decide (a.m * 2 ^ (a.e - e).toNat < b.m * 2 ^ (b.e - e).toNat)
def Dy.le (a b : Dy) : Bool := !Dy.lt b a

def FV.isZero : FV → Bool
  | .fin _ m _ => m == 0
  | _ => false
def FV.isNan : FV → Bool
  | .nan => true
  | _ => false
def FV.neg? : FV → Bool
  | .nan => false
  | .inf n => n
  | .fin n _ _ => n
def FV.negate : FV → FV
  | .nan => .nan
  | .inf n => .inf (!n)
  | .fin n m e => .fin (!n) m e

/-- The exact sum; a zero sum of non-zero or unlike terms is +0. -/
def FV.add (a b : FV) : FV :=
  match a, b with
  | .nan, _ => .nan
  | _, .nan => .nan
  | .inf n, .inf k => if n = k then .inf n else .nan
  | .inf n, _ => .inf n
  | _, .inf n => .inf n
  | .fin n m e, .fin k l c =>
    if m = 0 ∧ l = 0 then .fin (n && k) 0 0
    else ((FV.fin n m e).dy.add (FV.fin k l c).dy).fv

/-- The exact product. -/
def FV.mul (a b : FV) : FV :=
  match a, b with
  | .nan, _ => .nan
  | _, .nan => .nan
  | .inf n, b => if b.isZero then .nan else .inf (n != b.neg?)
  | a, .inf n => if a.isZero then .nan else .inf (a.neg? != n)
  | .fin n m e, .fin k l c => .fin (n != k) (m * l) (e + c)

/-- Whether a < b as numbers, −0 equal to +0; false on a NaN. -/
def FV.lt (a b : FV) : Bool :=
  match a, b with
  | .nan, _ => false
  | _, .nan => false
  | .inf n, .inf k => n && !k
  | .inf n, _ => n
  | _, .inf k => !k
  | a, b => a.dy.lt b.dy
def FV.eq (a b : FV) : Bool := !a.isNan && !b.isNan && !FV.lt a b && !FV.lt b a

/-! ### FP32 lane operations (R268 to R271) -/

def fval (x : W32) : FV := f32.value x.toNat
def fenc (v : FV) : W32 := BitVec.ofNat 32 (f32.encode v)
def fadd (a b : W32) : W32 := fenc ((fval a).add (fval b))
def fsub (a b : W32) : W32 := fenc ((fval a).add (fval b).negate)
def fmul (a b : W32) : W32 := fenc ((fval a).mul (fval b))
/-- a × b + d with one rounding (R268). -/
def fma (a b d : W32) : W32 := fenc (((fval a).mul (fval b)).add (fval d))

/-- The order FMIN and FMAX use: −0 below +0 (R269). -/
def fvBelow (a b : FV) : Bool := FV.lt a b || (a.isZero && b.isZero && a.neg? && !b.neg?)
/-- The lesser of two values of one format by R269, as patterns. -/
def FFmt.min (f : FFmt) (x y : Nat) : Nat :=
  let a := f.value x; let b := f.value y
  if a.isNan then (if b.isNan then f.nanBits else y) else if b.isNan then x
  else if fvBelow b a then y else x
def FFmt.max (f : FFmt) (x y : Nat) : Nat :=
  let a := f.value x; let b := f.value y
  if a.isNan then (if b.isNan then f.nanBits else y) else if b.isNan then x
  else if fvBelow a b then y else x
def fmin (a b : W32) : W32 := BitVec.ofNat 32 (f32.min a.toNat b.toNat)
def fmax (a b : W32) : W32 := BitVec.ofNat 32 (f32.max a.toNat b.toNat)

/-- round(a × 2^b), b a signed integer (R268). -/
def fscl (a b : W32) : W32 :=
  match fval a with
  | .nan => fenc .nan
  | .inf n => fenc (.inf n)
  | .fin n m e => if m = 0 then fenc (.fin n 0 0) else fenc (.fin n m (e + max (-1000) (min 1000 b.toInt)))

/-- An integral value of a finite number in a rounding mode: its magnitude. -/
def roundInt (rm : Rm) (neg : Bool) (m : Nat) (e : Int) : Nat :=
  if 0 ≤ e then shl m e else roundShift rm neg m (-e).toNat

/-- FRND (R270). -/
def frnd (rm : Rm) (a : W32) : W32 :=
  match fval a with
  | .nan => fenc .nan
  | .inf n => fenc (.inf n)
  | .fin n m e => fenc (.fin n (roundInt rm n m e) 0)

end Sys2Proof.Machine

/-- The floating-point format of a numeric type; integers have none. -/
def Sys2Proof.NTy.fmt : Sys2Proof.NTy → Sys2Proof.Machine.FFmt
  | .f32 => Sys2Proof.Machine.f32 | .f16 => Sys2Proof.Machine.f16 | .bf16 => Sys2Proof.Machine.bf16
  | .e4m3 => Sys2Proof.Machine.e4m3 | .e5m2 => Sys2Proof.Machine.e5m2 | .s32 | .u32 => Sys2Proof.Machine.f32

namespace Sys2Proof.Machine

/-- Clamps an integer into a range and writes it as 32 bits. -/
def satW (lo hi v : Int) : W32 := BitVec.ofInt 32 (max lo (min hi v))

/-- CVT (R271). -/
def cvt (dst src : NTy) (rm : Rm) (a : W32) : W32 :=
  if src.isFloat then
    let v := src.fmt.value (a.toNat % 2 ^ src.fmt.width)
    if dst.isFloat then BitVec.ofNat 32 (dst.fmt.encode v)
    else
      let (lo, hi) : Int × Int := if dst = .s32 then (-(2 ^ 31), 2 ^ 31 - 1) else (0, 2 ^ 32 - 1)
      match v with
      | .nan => 0
      | .inf n => satW lo hi (if n then lo else hi)
      | .fin n m e => satW lo hi (let k : Int := roundInt rm n m e; if n then -k else k)
  else
    let v : Int := if src = .s32 then a.toInt else (a.toNat : Int)
    if dst.isFloat then BitVec.ofNat 32 (dst.fmt.encode (.fin (decide (v < 0)) v.natAbs 0))
    else if dst = src then a
    else if dst = .s32 then satW (-(2 ^ 31)) (2 ^ 31 - 1) v else satW 0 (2 ^ 32 - 1) v

/-- An integer as an FP32 pattern, exactly for small ones (R226). -/
def intF32 (v : Int) : W32 := BitVec.ofNat 32 (f32.encode (.fin (decide (v < 0)) v.natAbs 0))

/-- One half of a packed operation (R272). -/
def halves (f : Nat → Nat → Nat → Nat) (a b d : W32) : W32 :=
  BitVec.ofNat 32 (f (a.toNat % 65536) (b.toNat % 65536) (d.toNat % 65536) +
    65536 * f (a.toNat / 65536) (b.toNat / 65536) (d.toNat / 65536))

/-- FP16, or BF16 when set. -/
def halfFmt (bf : Bool) : FFmt := if bf then bf16 else f16
def padd (bf : Bool) (a b : W32) : W32 :=
  let f := halfFmt bf; halves (fun x y _ => f.encode ((f.value x).add (f.value y))) a b 0
def pmul (bf : Bool) (a b : W32) : W32 :=
  let f := halfFmt bf; halves (fun x y _ => f.encode ((f.value x).mul (f.value y))) a b 0
def pfma (bf : Bool) (a b d : W32) : W32 :=
  let f := halfFmt bf; halves (fun x y z => f.encode (((f.value x).mul (f.value y)).add (f.value z))) a b d
def pmax (bf : Bool) (a b : W32) : W32 :=
  let f := halfFmt bf; halves (fun x y _ => f.max x y) a b 0

/-! ### Special functions within their bounds (R202, log 14)

A special function returns the free candidate of Config when it lies within R202's bound of the exact value, and the
nearest FP32 value otherwise. Exact values are held as dyadic approximations with an error far below every bound; the
bound is widened by that error, so every result the manual admits is admitted. -/

/-- The integer square root, bit by bit from bit n. -/
def isqrt (x : Nat) : Nat → Nat → Nat
  | 0, r => r
  | n + 1, r => let r' := r + 2 ^ n; if r' * r' ≤ x then isqrt x n r' else isqrt x n r

/-- The ulp of FP32 at a positive magnitude m × 2^e. -/
def ulp32 (m : Nat) (e : Int) : Dy := ⟨1, max (e + (bitLen m : Int) - 24) (-149)⟩

/-- A dyadic approximation of an exact result with the exponent of its error bound. -/
structure Approx where
  v : Dy
  err : Int
  deriving DecidableEq, Repr

def Dy.abs (a : Dy) : Dy := ⟨a.m.natAbs, a.e⟩
def Dy.sub (a b : Dy) : Dy := a.add ⟨-b.m, b.e⟩

/-- A bound of R202: in units in the last place of the FP32 result, and absolute. -/
structure Bound where
  ulps : Option Nat
  abs : Option Dy
  deriving DecidableEq, Repr

/-- n units in the last place of an FP32 value of magnitude m × 2^e. -/
def ulpsAt (n m : Nat) (e : Int) : Dy :=
  let u := if m = 0 then ⟨1, -149⟩ else ulp32 m e
  ⟨n * u.m, u.e⟩

/-- Whether an FP32 candidate lies within the bound of the exact value. -/
def within (c : W32) (a : Approx) (b : Bound) : Bool :=
  match fval c with
  | .fin n m e =>
    let d := ((FV.fin n m e).dy.sub a.v).abs
    (match b.ulps with | some k => d.le ((ulpsAt k m e).add ⟨1, a.err⟩) | none => true) &&
      (match b.abs with | some t => d.le (t.add ⟨1, a.err⟩) | none => true)
  | .inf n =>
    -- an infinity is the rounding of values from 2^128 upwards less the tolerance
    Dy.le ⟨1, 128⟩ ((a.v.abs).add ((ulpsAt (b.ulps.getD 0) a.v.m.natAbs a.v.e).add ⟨1, a.err⟩)) && (n == decide (a.v.m < 0))
  | .nan => false

/-- The free candidate when the bound admits it, else the nearest value. -/
def special (fn : Nat) (x : W32) (a : Approx) (b : Bound) : W32 :=
  let c := Config.special fn x
  if within c a b then c else fenc a.v.fv

/-- A bound of n units in the last place. -/
def ulps (n : Nat) : Bound := ⟨some n, none⟩

/-- An absolute bound of 2^−22. -/
def absBound : Bound := ⟨none, some ⟨1, -22⟩⟩

/-- m / 2^k rounded down, for k of either sign. -/
def scale (m : Nat) (k : Int) : Nat := if 0 ≤ k then m * 2 ^ k.toNat else m / 2 ^ (-k).toNat

/-- SQRT, correctly rounded. -/
def fsqrt (a : W32) : W32 :=
  match fval a with
  | .nan => fenc .nan
  | .inf n => if n then fenc .nan else fenc (.inf false)
  | .fin n m e =>
    if m = 0 then fenc (.fin n 0 0) else if n then fenc .nan
    else
      -- 60 more bits than needed, and a sticky bit
      let k : Int := if (e - 80) % 2 = 0 then e - 80 else e - 81
      let x := shl m (e - k)
      let r := isqrt x 64 0
      fenc (.fin false (2 * r + (if r * r = x then 0 else 1)) (k / 2 - 1))

/-- RCP within 1 ulp. -/
def frcp (a : W32) : W32 :=
  match fval a with
  | .nan => fenc .nan
  | .inf n => fenc (.fin n 0 0)
  | .fin n m e =>
    if m = 0 then fenc (.inf n)
    else
      let q : Int := ((2 ^ 128 / m : Nat) : Int)
      let v : Approx := ⟨⟨if n then -q else q, -128 - e⟩, -128 - e⟩
      special 0 a v (ulps 1)

/-- RSQ within 2 ulp. -/
def frsq (a : W32) : W32 :=
  match fval a with
  | .nan => fenc .nan
  | .inf n => if n then fenc .nan else fenc (.fin false 0 0)
  | .fin n m e =>
    if m = 0 then fenc (.inf n) else if n then fenc .nan
    else
      let e2 := e % 2
      let y := 2 ^ (200 - e2.toNat) / m
      let r := isqrt y 128 0
      let v : Approx := ⟨⟨r, -100 - (e - e2) / 2⟩, -100 - (e - e2) / 2⟩
      special 1 a v (ulps 2)

/-- ln 2 and π with 160 fractional bits. -/
def ln2 : Nat := 1013035739299659071135698605846798551586536899366
def piFix : Nat := 4591442807048218921384805199743311128454155024418

/-- Σ y^k / k! from a term, in fixed point with 160 fractional bits. -/
def expSeries (y : Nat) : Nat → Nat → Nat → Nat
  | 0, _, _ => 0
  | n + 1, k, t => t + expSeries y n (k + 1) (t * y / 2 ^ 160 / (k + 1))

/-- 2^f for f in [0, 1), fixed point with 160 fractional bits. -/
def exp2Fix (f : Nat) : Nat := expSeries (f * ln2 / 2 ^ 160) 48 0 (2 ^ 160)

/-- 2^x for a finite x of moderate size, as an approximation. -/
def exp2Approx (n : Bool) (m : Nat) (e : Int) : Approx :=
  let fix : Int := scale m (e + 160)
  let x : Int := if n then -fix else fix
  let i := x / 2 ^ 160
  let f := (x % 2 ^ 160).toNat
  ⟨⟨exp2Fix f, i - 160⟩, i - 100⟩

/-- EXP2 within 2 ulp, exact for integers from −149 to 127. -/
def fexp2 (a : W32) : W32 :=
  match fval a with
  | .nan => fenc .nan
  | .inf n => if n then fenc (.fin false 0 0) else fenc (.inf false)
  | .fin n m e =>
    if m = 0 then fenc (.fin false 1 0)
    else if e + (bitLen m : Int) > 9 then
      (if n then special 2 a ⟨⟨0, 0⟩, -400⟩ (ulps 2) else fenc (.inf false))
    else
      let whole : Bool := decide (0 ≤ e) || decide (m % 2 ^ (-e).toNat = 0)
      let k : Int := if n then -(scale m e : Int) else scale m e
      if whole && decide (-149 ≤ k) && decide (k ≤ 127) then fenc (.fin false 1 k)
      else
        let v := exp2Approx n m e
        if Dy.le ⟨1, 128⟩ v.v then fenc (.inf false)
        else special 2 a v (ulps 2)

/-- The fractional bits of log2 z, z in [1, 2) with 200 fractional bits, from the highest, n of them. -/
def log2Bits : Nat → Nat → Nat → Nat
  | 0, _, acc => acc
  | n + 1, z, acc =>
    let y := z * z / 2 ^ 200
    if y ≥ 2 ^ 201 then log2Bits n (y / 2) (2 * acc + 1) else log2Bits n y (2 * acc)

/-- LOG2: exact for powers of two; 2 ulp, and within [0.5, 2] an absolute error of at most 2^−22 too. -/
def flog2 (a : W32) : W32 :=
  match fval a with
  | .nan => fenc .nan
  | .inf n => if n then fenc .nan else fenc (.inf false)
  | .fin n m e =>
    if m = 0 then fenc (.inf true) else if n then fenc .nan
    else
      let i : Int := e + (bitLen m : Int) - 1
      if m = 2 ^ (bitLen m - 1) then fenc (.fin (decide (i < 0)) i.natAbs 0)
      else
        let z := m * 2 ^ 200 / 2 ^ (bitLen m - 1)
        let v : Approx := ⟨⟨i * 2 ^ 120 + log2Bits 120 z 0, -120⟩, -116⟩
        if i = 0 ∨ i = -1 then special 3 a v ⟨some 2, some ⟨1, -22⟩⟩ else special 3 a v (ulps 2)

/-- Σ ± y^k / k! of every second term from k, in fixed point with 160 fractional bits. -/
def trigSeries (y2 : Nat) : Nat → Nat → Nat → Int
  | 0, _, _ => 0
  | n + 1, k, t => (t : Int) - trigSeries y2 n (k + 2) (t * y2 / 2 ^ 160 / ((k + 1) * (k + 2)))

/-- sin(πf) for f in [0, 1/2], with 160 fractional bits. -/
def sinPi (f : Nat) : Int :=
  let y := f * piFix / 2 ^ 160
  trigSeries (y * y / 2 ^ 160) 40 1 y

/-- sin(πx) for x = f / 2^160 in [0, 2). -/
def sinTurn (f : Nat) : Int :=
  let half := 2 ^ 159
  if f ≤ half then sinPi f
  else if f ≤ 2 * half then sinPi (2 * half - f)
  else if f ≤ 3 * half then -(sinPi (f - 2 * half))
  else -(sinPi (4 * half - f))

/-- A finite number modulo 2, with 160 fractional bits. -/
def mod2 (n : Bool) (m : Nat) (e : Int) : Nat :=
  let x : Int := if e ≥ 1 then 0 else if -160 ≤ e then (m * 2 ^ (e + 160).toNat : Nat) else (m / 2 ^ (-160 - e).toNat : Nat)
  ((if n then -x else x) % 2 ^ 161).toNat

/-- SIN in half-turns: absolute error at most 2^−22 (R202). -/
def fsin (a : W32) : W32 :=
  match fval a with
  | .nan => fenc .nan
  | .inf _ => fenc .nan
  | .fin n m e =>
    if m = 0 then fenc (.fin n 0 0)
    else
      let f := mod2 n m e
      if e ≥ 0 ∨ (m % 2 ^ (-e).toNat = 0) then fenc (.fin false 0 0)
      else special 4 a ⟨⟨sinTurn f, -160⟩, -120⟩ absBound

/-- COS in half-turns (R202). -/
def fcos (a : W32) : W32 :=
  match fval a with
  | .nan => fenc .nan
  | .inf _ => fenc .nan
  | .fin n m e =>
    let f := mod2 n m e
    let g := (f + 2 ^ 159) % 2 ^ 161
    -- n + 0.5: twice x is an odd integer
    if e < 0 ∧ (2 * m) % 2 ^ (-e).toNat = 0 ∧ (2 * m) / 2 ^ (-e).toNat % 2 = 1 then fenc (.fin false 0 0)
    else special 5 a ⟨⟨sinTurn g, -160⟩, -120⟩ absBound

/-- TANH within 2 ulp; ±1 exactly from 9.01 (R202). -/
def ftanh (a : W32) : W32 :=
  match fval a with
  | .nan => fenc .nan
  | .inf n => fenc (.fin n 1 0)
  | .fin n m e =>
    if m = 0 then fenc (.fin n 0 0)
    else if Dy.le ⟨901, 0⟩ (Dy.mul ⟨100, 0⟩ ⟨m, e⟩) then fenc (.fin n 1 0)
    else
      let x : Dy := ⟨m, e⟩
      let v : Dy :=
        if e + (bitLen m : Int) < -11 then
          -- x − x³/3: the next term is below 2^−46 of the result
          let c := x.mul (x.mul x)
          x.sub ⟨c.m * 2 ^ 64 / 3, c.e - 64⟩
        else
          -- (1 − E) / (1 + E), E = e^(−2x) = 2^(−2x / ln 2)
          let y := scale m (e + 161) * 2 ^ 160 / ln2
          let i := y / 2 ^ 160
          let E := exp2Fix (2 ^ 160 - 1 - y % 2 ^ 160) / 2 ^ (i + 1)
          ⟨((2 ^ 160 - E) * 2 ^ 160 / (2 ^ 160 + E) : Nat), -160⟩
      let v : Approx := ⟨⟨if n then -v.m else v.m, v.e⟩, v.e + (bitLen v.m.natAbs : Int) - 45⟩
      special 6 a v (ulps 2)

/-! ### Dual-exponent blocks (R191 to R193, R198) -/

/-- Exponent bits, mantissa bits and width of a DX format (R191). -/
def dxW : DxFmt → Nat
  | .dx8 => 3 | .dx6 => 2 | .dx4 => 1
def dxK : DxFmt → Nat
  | .dx8 => 3 | .dx6 => 2 | .dx4 => 1
def dxWidth (f : DxFmt) : Nat := 2 + (dxW f) + (dxK f)
def dxBias (f : DxFmt) : Int := 2 ^ (dxW f) - 1
/-- Bytes of a block (R192). -/
def dxBytes (f : DxFmt) : Nat := 2 + 4 * (dxWidth f)

/-- The value of an element under the header's exponents (R191). -/
def dxElem (f : DxFmt) (ehi elo x : Nat) : FV :=
  let sel := x / 2 ^ ((dxWidth f) - 1) % 2
  let neg := x / 2 ^ ((dxWidth f) - 2) % 2 == 1
  let e := x / 2 ^ (dxK f) % 2 ^ (dxW f)
  let m := x % 2 ^ (dxK f)
  let E : Int := (if sel = 1 then elo else ehi) - 127
  if e = 0 then .fin neg m (E + 1 - (dxBias f) - (dxK f))
  else .fin neg (2 ^ (dxK f) + m) (E + (e : Int) - (dxBias f) - (dxK f))

/-- The 32 values of a block; a NaN block holds 32 NaNs (R193). -/
def dxUnpack (f : DxFmt) (b : List Byte) : List FV :=
  let ehi := (b.getD 1 0).toNat
  let elo := (b.getD 0 0).toNat
  if ehi = 255 ∨ elo = 255 then List.replicate 32 .nan
  else
    let n := (b.drop 2).foldr (fun x acc => x.toNat + 256 * acc) 0
    (List.range 32).map fun i => (dxElem f) ehi elo (n / 2 ^ ((dxWidth f) * i) % 2 ^ (dxWidth f))

/-- An exact magnitude rounded to an element: its exponent and mantissa read as one number, before saturation (R198).
The magnitude is relative to 2^(E − 127). -/
def dxRoundElem (f : DxFmt) (m : Nat) (e : Int) : Nat :=
  (FFmt.mk (dxW f) (dxK f) (2 ^ (dxW f) - 1) true).roundMag m e

/-- ⌊log2 (m × 2^e)⌋. -/
def floorLog2 (m : Nat) (e : Int) : Int := e + (bitLen m : Int) - 1

/-- pick(y) of R198: the block exponent for a largest magnitude. An element of 2.0 lies one above the largest. -/
def dxPick (f : DxFmt) (m : Nat) (e : Int) : Nat :=
  let E := floorLog2 m e + 127
  let E := if (dxRoundElem f) m (e - (E - 127)) ≥ 2 ^ ((dxW f) + (dxK f)) then E + 1 else E
  (max 0 (min 254 E)).toNat

/-- The largest magnitude of a list of finite values. -/
def maxMag (l : List FV) : Dy :=
  l.foldl (fun a v => if a.lt v.dy.abs then v.dy.abs else a) Dy.zero

/-- The header of a pack and the element codes (R198). -/
def dxPack (f : DxFmt) (xs : List FV) : BitVec 16 × List Nat :=
  if xs.any fun v => match v with | .nan => true | .inf _ => true | _ => false then (0xFFFF, xs.map fun _ => 0)
  else
    let M := maxMag xs
    if M.m = 0 then (0, xs.map fun _ => 0)
    else
      let ehi := (dxPick f) M.m.natAbs M.e
      let T : Dy := ⟨1, (ehi : Int) - 127 + 1 - (dxBias f)⟩
      let low := xs.filter fun v => !v.isZero && v.dy.abs.lt T
      let elo := if low.isEmpty then ehi else let L := maxMag low; (dxPick f) L.m.natAbs L.e
      (BitVec.ofNat 16 (ehi * 256 + elo), xs.map fun v =>
        match v with
        | .fin n m e =>
          let lo := m ≠ 0 ∧ v.dy.abs.lt T ∧ elo ≠ ehi
          let E : Int := if lo then elo else ehi
          let q := if m = 0 then 0 else min ((dxRoundElem f) m (e - (E - 127))) (2 ^ ((dxW f) + (dxK f)) - 1)
          (if lo then 2 ^ ((dxWidth f) - 1) else 0) + (if n ∧ q ≠ 0 then 2 ^ ((dxWidth f) - 2) else 0) + q
        | _ => 0)

/-- n bytes, lowest first, of a number. -/
def leBytes (n x : Nat) : List Byte := (List.range n).map fun i => BitVec.ofNat 8 (x / 256 ^ i)

/-- The bytes of a packed block (R192). -/
def dxImage (f : DxFmt) (xs : List FV) : List Byte :=
  let (h, es) := (dxPack f) xs
  let n := es.foldr (fun e acc => e + 2 ^ (dxWidth f) * acc) 0
  leBytes 2 h.toNat ++ leBytes (4 * (dxWidth f)) n

/-! ### MX blocks (R201) -/

inductive MxFmt where
  | fp8e4m3 | fp8e5m2 | fp6e2m3 | fp6e3m2 | fp4 | int8
  deriving DecidableEq, Repr

def MxFmt.width : MxFmt → Nat
  | .fp8e4m3 | .fp8e5m2 | .int8 => 8
  | .fp6e2m3 | .fp6e3m2 => 6
  | .fp4 => 4
def MxFmt.bytes (f : MxFmt) : Nat := 1 + 4 * f.width
def MxFmt.emax : MxFmt → Int
  | .fp8e4m3 => 8 | .fp8e5m2 => 15 | .fp6e2m3 => 2 | .fp6e3m2 => 4 | .fp4 => 2 | .int8 => 0

/-- The element formats without NaN or infinity. -/
def MxFmt.small : MxFmt → FFmt
  | .fp8e4m3 => e4m3 | .fp8e5m2 => e5m2
  | .fp6e2m3 => ⟨2, 3, 1, true⟩ | .fp6e3m2 => ⟨3, 2, 3, true⟩ | .fp4 => ⟨2, 1, 1, true⟩ | .int8 => e4m3

/-- The value of an element before scaling (R201). -/
def MxFmt.elem (f : MxFmt) (x : Nat) : FV :=
  match f with
  | .int8 => let v : Int := if x ≥ 128 then (x : Int) - 256 else x; .fin (decide (v < 0)) v.natAbs (-6)
  | .fp8e4m3 | .fp8e5m2 => f.small.value x
  | _ =>
    let g := f.small
    let neg := x / g.signBit % 2 == 1
    let y := x % g.signBit
    let e := y / 2 ^ g.mb
    let m := y % 2 ^ g.mb
    if e = 0 then .fin neg m g.emin else .fin neg (2 ^ g.mb + m) (g.emin + (e : Int) - 1)

/-- A value scaled by 2^k. -/
def FV.scale (v : FV) (k : Int) : FV :=
  match v with
  | .fin n m e => .fin n m (e + k)
  | v => v

/-- The 32 values of an MX block; NaNs throughout when its scale is 0xFF or an element is no number (R201). -/
def MxFmt.unpack (f : MxFmt) (b : List Byte) : List FV :=
  let X := (b.getD 0 0).toNat
  let n := (b.drop 1).foldr (fun x acc => x.toNat + 256 * acc) 0
  let vs := (List.range 32).map fun i => (f.elem (n / 2 ^ (f.width * i) % 2 ^ f.width)).scale ((X : Int) - 127)
  if X = 255 ∨ (vs.any fun v => match v with | .fin _ _ _ => false | _ => true) then List.replicate 32 .nan else vs

/-- The largest finite magnitude pattern of an element. -/
def MxFmt.maxBits (f : MxFmt) : Nat :=
  match f with
  | .fp8e4m3 => 0x7E | .fp8e5m2 => 0x7B | .int8 => 127
  | .fp6e2m3 => 31 | .fp6e3m2 => 31 | .fp4 => 7

/-- An element code: rounded to nearest even and saturated (R201). -/
def MxFmt.code (f : MxFmt) (v : FV) : Nat :=
  match v with
  | .fin n m e =>
    match f with
    | .int8 =>
      let q : Nat := min (roundInt .rn n m (e + 6)) 127
      if n ∧ q ≠ 0 then 256 - q else q
    | _ =>
      let q : Nat := if m = 0 then 0 else min (f.small.roundMag m e) f.maxBits
      (if n then f.small.signBit else 0) + q
  | _ => 0

/-- The bytes of an exported block (R201). -/
def MxFmt.image (f : MxFmt) (xs : List FV) : List Byte :=
  if xs.any (·.isNan) then 0xFF#8 :: leBytes (4 * f.width) 0
  else
    let M := maxMag xs
    if M.m = 0 then
      -- zero elements keep no sign to export but that of a −0 element, by its code
      let es := xs.map fun v => f.code v
      0#8 :: leBytes (4 * f.width) (es.foldr (fun e acc => e + 2 ^ f.width * acc) 0)
    else
      let X : Int := max 0 (min 254 (floorLog2 M.m.natAbs M.e - f.emax + 127))
      let es := xs.map fun v => f.code (v.scale (127 - X))
      BitVec.ofInt 8 X :: leBytes (4 * f.width) (es.foldr (fun e acc => e + 2 ^ f.width * acc) 0)

/-! ### Histogram bins (R203) -/

/-- The histogram bin of a drained FP32 word. -/
def histBin (x : W32) : Nat :=
  let e : Nat := x.toNat / 2 ^ 23 % 256
  if e = 0 then 0
  else if e = 255 then 31
  else (max (1 : Int) (min 30 (((e : Int) - 127 + 120) / 8 + 1))).toNat

end Sys2Proof.Machine
end

