-- ==== Sys2Proof/Machine/Flags.lean ====
section
/-!
DEFINITION. Conditions, carries and bit operations: what comparisons, carry chains, predicate logic, scans and bit-field
instructions compute (15_uniform_instructions.md R244 to R247, R251; 16_lane_instructions.md R261 to R267, R276, R277).
-/
namespace Sys2Proof.Machine

/-! ### Comparisons -/

end Sys2Proof.Machine

namespace Sys2Proof
open Sys2Proof.Machine

/-- The conditions of the lane CMP (R265). -/
def ICond.holds (c : ICond) (a b : W32) : Bool :=
  match c with
  | .eq => a == b
  | .ne => a != b
  | .lt => a.slt b
  | .le => a.sle b
  | .blo => a.ult b
  | .bls => a.ule b

/-- The conditions of FCMP (R265): with a NaN only ne and un hold. -/
def FCond.holds (c : FCond) (a b : W32) : Bool :=
  let x := fval a
  let y := fval b
  match c with
  | .eq => FV.eq x y
  | .ne => !FV.eq x y
  | .lt => FV.lt x y
  | .le => FV.lt x y || FV.eq x y
  | .gt => FV.lt y x
  | .ge => FV.lt y x || FV.eq x y
  | .un => x.isNan || y.isNan
  | .ord => !(x.isNan || y.isNan)

end Sys2Proof

namespace Sys2Proof.Machine

/-- The class of an FP32 word (R265). -/
def fclass (a : W32) : Nat :=
  let neg := a.getLsbD 31
  let e := bits a.toNat 30 23
  let m := bits a.toNat 22 0
  if e = 255 then (if m ≠ 0 then 8 else if neg then 0 else 7)
  else if e = 0 then (if m = 0 then (if neg then 3 else 4) else if neg then 2 else 5)
  else if neg then 1 else 6
where bits (x hi lo : Nat) : Nat := x / 2 ^ lo % 2 ^ (hi + 1 - lo)

end Sys2Proof.Machine

namespace Sys2Proof
open Sys2Proof.Machine

/-- How a condition combines into its predicate (R265). -/
def Comb.apply (m : Comb) (old r : Bool) : Bool :=
  match m with
  | .set => r
  | .and => old && r
  | .or => old || r

end Sys2Proof

namespace Sys2Proof.Machine

/-- PLOG (R267). -/
def plogBit (tt : BitVec 4) (x y : Bool) : Bool := tt.getLsbD (2 * x.toNat + y.toNat)

/-! ### Carry chains (R263): the result and the carry out -/

def addCarry (a b : W32) (c : Bool) : W32 × Bool :=
  let t := a.toNat + b.toNat + c.toNat
  (BitVec.ofNat 32 t, decide (2 ^ 32 ≤ t))

def subBorrow (a b : W32) (c : Bool) : W32 × Bool :=
  (a - b - BitVec.ofNat 32 c.toNat, decide (a.toNat < b.toNat + c.toNat))

def madCarry (a b : W32) (d : Word) (c : Bool) : Word × Bool :=
  let t := a.toNat * b.toNat + d.toNat + c.toNat
  (BitVec.ofNat 64 t, decide (2 ^ 64 ≤ t))

/-! ### Bit operations of either width -/

def mulHiS {w : Nat} (a b : BitVec w) : BitVec w := BitVec.ofInt w (a.toInt * b.toInt / 2 ^ w)
def mulHiU {w : Nat} (a b : BitVec w) : BitVec w := BitVec.ofNat w (a.toNat * b.toNat / 2 ^ w)
def minS {w : Nat} (a b : BitVec w) : BitVec w := if b.slt a then b else a
def maxS {w : Nat} (a b : BitVec w) : BitVec w := if a.slt b then b else a
def minU {w : Nat} (a b : BitVec w) : BitVec w := if b.ult a then b else a
def maxU {w : Nat} (a b : BitVec w) : BitVec w := if a.ult b then b else a

/-- Leading zero bits. -/
def clzOf {w : Nat} (a : BitVec w) : BitVec w := BitVec.ofNat w (w - bitLen a.toNat)
/-- The number of 1 bits. -/
def popcount {w : Nat} (a : BitVec w) : Nat := (List.range w).foldl (fun n i => n + (a.getLsbD i).toNat) 0
/-- Bit i of the result is bit w − 1 − i of a. -/
def reverse {w : Nat} (a : BitVec w) : BitVec w :=
  (List.range w).foldl (fun r i => if a.getLsbD (w - 1 - i) then r ||| (1#w <<< i) else r) 0

/-- 2^n − 1. -/
def lowOnes (w n : Nat) : BitVec w := BitVec.ofNat w (2 ^ n - 1)

/-- BFE of n bits at pos, sign-extended when asked (R246, R262). -/
def extractBits {w : Nat} (a : BitVec w) (pos len : Nat) (sx : Bool) : BitVec w :=
  let n := min len (w - pos)
  let f := (a >>> pos) &&& lowOnes w n
  if sx && decide (0 < n) && f.getLsbD (n - 1) then f ||| ~~~ lowOnes w n else f

/-- BFI of n bits at pos into d (R246, R262). -/
def insertBits {w : Nat} (d a : BitVec w) (pos len : Nat) : BitVec w :=
  let n := min len (w - pos)
  let m := lowOnes w n <<< pos
  (d &&& ~~~ m) ||| ((a <<< pos) &&& m)

def bfe32 (a b : W32) : W32 := extractBits a (b.extractLsb' 0 5).toNat (b.extractLsb' 8 6).toNat (b.getLsbD 15)
def bfi32 (a b d : W32) : W32 := insertBits d a (b.extractLsb' 0 5).toNat (b.extractLsb' 8 6).toNat
def bfe64 (a b : Word) : Word := extractBits a (b.extractLsb' 0 6).toNat (b.extractLsb' 8 7).toNat (b.getLsbD 15)
def bfi64 (a b d : Word) : Word := insertBits d a (b.extractLsb' 0 6).toNat (b.extractLsb' 8 7).toNat

/-! ### Scans and reductions (R276, R277) -/

end Sys2Proof.Machine

namespace Sys2Proof
open Sys2Proof.Machine

def ScanOp.apply (op : ScanOp) (x y : W32) : W32 :=
  match op with
  | .add => x + y
  | .min => minS x y
  | .max => maxS x y
  | .minu => minU x y
  | .maxu => maxU x y
  | .and => x &&& y
  | .or => x ||| y
  | .xor => x ^^^ y

def ScanOp.ident : ScanOp → W32
  | .add | .maxu | .or | .xor => 0
  | .min => 0x7FFFFFFF
  | .max => 0x80000000
  | .minu | .and => 0xFFFFFFFF

def FScanOp.apply (op : FScanOp) (x y : W32) : W32 :=
  match op with
  | .add => fadd x y
  | .min => fmin x y
  | .max => fmax x y

def FScanOp.ident : FScanOp → W32
  | .add => 0x80000000
  | .min => 0x7F800000
  | .max => 0xFF800000

end Sys2Proof

namespace Sys2Proof.Machine

/-! ### Branch modes (R251) -/

end Sys2Proof.Machine

namespace Sys2Proof
open Sys2Proof.Machine

/-- Whether a slice takes a BRP: the predicate values of its active lanes. -/
def BrpMode.taken (m : BrpMode) (ps : List Bool) : Bool :=
  match m with
  | .any => ps.any id
  | .all => ps.all id
  | .none => !ps.any id
  | .nall => !ps.all id

/-- VOTE (R278). -/
def VoteMode.result (m : VoteMode) (ps : List Bool) : Bool :=
  match m with
  | .any => ps.any id
  | .all => ps.all id
  | .uni => ps.all id || !ps.any id

end Sys2Proof

namespace Sys2Proof.Machine

/-! ### Monitors (R295) -/

/-- Whether a monitor's condition holds for value v of w bits. -/
def condHolds (cond : BitVec 2) (w : Nat) (v c : Nat) : Bool :=
  match cond.toNat with
  | 0 => v == c
  | 1 => v != c
  | 2 => decide ((v + 2 ^ w - c) % 2 ^ w < 2 ^ (w - 1))
  | _ => Nat.land v c != 0

end Sys2Proof.Machine
end

