-- ==== Sys2Proof/WellFormed.lean ====
section
/-!
DEFINITION. Well-formed instructions: the terms of Instr that some word encodes, and events whose names exist.
-/
namespace Sys2Proof

/-- A reserved operand code is 0xC3 or above (R225). -/
def Opnd.ok : Opnd → Bool
  | .res c => decide (0xC3 ≤ c.toNat)
  | _ => true

def Susp.ok : Susp → Bool
  | .now => true
  | .delay a => a.ok

/-- CVT reads its rounding mode only for a floating-point source and an integer destination; otherwise it is 0 (R271). -/
def cvtOk (rm : Rm) (src dst : NTy) : Bool := rm == .rn || (src.isFloat && !dst.isFloat)

/-- PUT.eos requires r = 0 and n = 0 (R347). -/
def putOk (r : Opnd) (n : BitVec 2) (eos : Bool) : Bool := !eos || (r == .v 0 && n == 0)

/-- Virtual functions are numbered 1 to 384 (R41). -/
def vfOk (vf : Nat) : Bool := decide (1 ≤ vf ∧ vf ≤ 384)

/-- A packet carries LEN payload bytes, a READ none (R381). -/
def Packet.lenOk (pk : Packet) : Bool :=
  if pk.op == 0x02#8 then pk.payload.isEmpty else decide (pk.payload.length = pk.len.toNat)

/-- A register is unlisted only if its number is none of R364's. -/
def SysReg.ok : SysReg → Bool
  | .unlisted c => SysReg.ofCode c == .unlisted c
  | _ => true

/-- The well-formed instructions. -/
def Instr.wf : Instr → Bool
  | .addLane _ a b => a.ok && b.ok
  | .subLane _ a b => a.ok && b.ok
  | .mulLane _ a b => a.ok && b.ok
  | .mulhLane _ a b => a.ok && b.ok
  | .mulhuLane _ a b => a.ok && b.ok
  | .mad _ a b => a.ok && b.ok
  | .andLane _ a b => a.ok && b.ok
  | .orLane _ a b => a.ok && b.ok
  | .xorLane _ a b => a.ok && b.ok
  | .andnLane _ a b => a.ok && b.ok
  | .shlLane _ a b => a.ok && b.ok
  | .shrLane _ a b => a.ok && b.ok
  | .sarLane _ a b => a.ok && b.ok
  | .rolLane _ a b => a.ok && b.ok
  | .minLane _ a b => a.ok && b.ok
  | .maxLane _ a b => a.ok && b.ok
  | .minuLane _ a b => a.ok && b.ok
  | .maxuLane _ a b => a.ok && b.ok
  | .clzLane _ a => a.ok
  | .popcLane _ a => a.ok
  | .brev _ a => a.ok
  | .bfeLane _ a b => a.ok && b.ok
  | .bfiLane _ a b => a.ok && b.ok
  | .selLane _ _ _ _ => true
  | .addc _ _ _ _ => true
  | .subb _ _ _ _ => true
  | .madc _ _ _ _ => true
  | .cmpLane _ _ _ a b => a.ok && b.ok
  | .plog _ _ _ _ => true
  | .moviLane _ _ => true
  | .movhiLane _ _ => true
  | .addiLane _ _ => true
  | .fadd _ a b => a.ok && b.ok
  | .fsub _ a b => a.ok && b.ok
  | .fmul _ a b => a.ok && b.ok
  | .fma _ a b => a.ok && b.ok
  | .fmin _ a b => a.ok && b.ok
  | .fmax _ a b => a.ok && b.ok
  | .fcmp _ _ _ a b => a.ok && b.ok
  | .fclass _ _ a b => a.ok && b.ok
  | .frnd _ a _ => a.ok
  | .cvt _ a rm src dst => a.ok && cvtOk rm src dst
  | .rcp _ a => a.ok
  | .rsq _ a => a.ok
  | .sqrt _ a => a.ok
  | .exp2 _ a => a.ok
  | .log2 _ a => a.ok
  | .sin _ a => a.ok
  | .cos _ a => a.ok
  | .tanh _ a => a.ok
  | .padd _ _ _ _ => true
  | .pmul _ _ _ _ => true
  | .pfma _ _ _ _ => true
  | .pmax _ _ _ _ => true
  | .fscl _ a b => a.ok && b.ok
  | .dxpack _ a _ _ => a.ok
  | .dxunpk _ a _ _ => a.ok
  | .dxexp _ a _ => a.ok
  | .shuf _ a b => a.ok && b.ok
  | .lpush _ a b => a.ok && b.ok
  | .bcast _ a b => a.ok && b.ok
  | .lscan _ a _ _ => a.ok
  | .fscan _ a _ _ => a.ok
  | .lred _ a _ => a.ok
  | .vote _ _ _ => true
  | .rng _ a b => a.ok && b.ok
  | .prefpop _ a _ => a.ok
  | .ldLane _ _ _ _ => true
  | .stLane data _ ty _ => data.ok && ty.storable
  | .lds _ _ _ _ => true
  | .sts data _ ty _ => data.ok && ty.storable
  | .aaddLane _ _ _ _ => true
  | .afadd _ _ _ _ => true
  | .amin _ _ _ _ => true
  | .amaxLane _ _ _ _ => true
  | .aminu _ _ _ _ => true
  | .amaxu _ _ _ _ => true
  | .aand _ _ _ _ => true
  | .aor _ _ _ _ => true
  | .axor _ _ _ _ => true
  | .axchgLane _ _ _ _ => true
  | .acasLane _ _ _ _ => true
  | .sldLane _ _ _ _ _ => true
  | .sstLane data _ ty _ => data.ok && ty.storable
  | .srankLane _ _ _ => true
  | .sanchLane _ _ _ => true
  | .sendLane r _ _ _ => r.ok
  | .recvLane _ _ _ _ => true
  | .spawn r _ _ _ => r.ok
  | .saadd d _ _ _ => d.ok
  | .samin d _ _ _ => d.ok
  | .samax d _ _ _ => d.ok
  | .sacas d _ _ _ => d.ok
  | .saxchg d _ _ _ => d.ok
  | .addUniform _ a b => a.ok && b.ok
  | .subUniform _ a b => a.ok && b.ok
  | .mulUniform _ a b => a.ok && b.ok
  | .mulhUniform _ a b => a.ok && b.ok
  | .mulhuUniform _ a b => a.ok && b.ok
  | .andUniform _ a b => a.ok && b.ok
  | .orUniform _ a b => a.ok && b.ok
  | .xorUniform _ a b => a.ok && b.ok
  | .andnUniform _ a b => a.ok && b.ok
  | .shlUniform _ a b => a.ok && b.ok
  | .shrUniform _ a b => a.ok && b.ok
  | .sarUniform _ a b => a.ok && b.ok
  | .minUniform _ a b => a.ok && b.ok
  | .maxUniform _ a b => a.ok && b.ok
  | .minuUniform _ a b => a.ok && b.ok
  | .maxuUniform _ a b => a.ok && b.ok
  | .clzUniform _ a => a.ok
  | .popcUniform _ a => a.ok
  | .bfeUniform _ a b => a.ok && b.ok
  | .bfiUniform _ a b => a.ok && b.ok
  | .cmpEqUniform _ a b => a.ok && b.ok
  | .cmpNeUniform _ a b => a.ok && b.ok
  | .cmpLtUniform _ a b => a.ok && b.ok
  | .cmpLeUniform _ a b => a.ok && b.ok
  | .cmpBloUniform _ a b => a.ok && b.ok
  | .cmpBlsUniform _ a b => a.ok && b.ok
  | .selUniform _ a b => a.ok && b.ok
  | .moviUniform _ _ => true
  | .movhiUniform _ _ => true
  | .addiUniform _ _ => true
  | .rolUniform _ a b => a.ok && b.ok
  | .br _ => true
  | .brz c _ => c.ok
  | .brnz c _ => c.ok
  | .brp _ _ _ => true
  | .call _ => true
  | .ret => true
  | .jmpi _ a b => a.ok && b.ok
  | .regang => true
  | .mpush _ _ => true
  | .mpop => true
  | .msetp _ _ _ => true
  | .melse => true
  | .loop c _ => c.ok
  | .yield => true
  | .exit => true
  | .nop => true
  | .ldUniform _ _ _ _ => true
  | .stUniform data _ ty _ => data.ok && ty.storable
  | .aaddUniform _ _ _ _ => true
  | .acasUniform _ _ _ _ => true
  | .axchgUniform _ _ _ _ => true
  | .amaxUniform _ _ _ _ => true
  | .fence _ _ => true
  | .waitc a _ => a.ok
  | .monarm data _ _ => data.ok
  | .monwait _ _ _ => true
  | .barinit a b => a.ok && b.ok
  | .bararv a b => a.ok && b.ok
  | .barexp a b => a.ok && b.ok
  | .barwait a b => a.ok && b.ok
  | .tlwait _ x => x.ok
  | .tlqry _ _ => true
  | .tdef _ _ => true
  | .copy _ _ _ _ _ _ _ => true
  | .copym _ _ _ _ _ _ => true
  | .copys _ _ _ _ => true
  | .copyr _ _ _ _ => true
  | .mload _ _ _ => true
  | .mswap _ _ => true
  | .mmul _ _ _ _ => true
  | .accz _ _ => true
  | .accdrn _ _ _ _ _ => true
  | .accmov _ _ x => x.ok
  | .attn _ _ _ _ => true
  | .histrd _ _ _ => true
  | .histclr _ _ => true
  | .snew a b _ => a.ok && b.ok
  | .sfree a => a.ok
  | .slen a _ => a.ok
  | .sins a b _ _ => a.ok && b.ok
  | .sdel a b _ => a.ok && b.ok
  | .ssplit a b _ => a.ok && b.ok
  | .scat a b _ => a.ok && b.ok
  | .sgap a b _ => a.ok && b.ok
  | .sapnd a _ => a.ok
  | .sclose a => a.ok
  | .srankUniform a _ _ => a.ok
  | .sanchUniform a b _ => a.ok && b.ok
  | .sldUniform _ _ _ _ _ => true
  | .sstUniform data _ ty _ => data.ok && ty.storable
  | .sendUniform r _ _ => r.ok
  | .recvUniform _ _ _ => true
  | .get r _ _ _ => r.ok
  | .put r _ n eos => r.ok && putOk r n eos
  | .knot _ _ => true
  | .skfold _ a => a.ok
  | .skspread _ a => a.ok
  | .skqry _ a => a.ok
  | .launch a => a.ok
  | .suspend k => k.ok
  | .lqry _ a => a.ok
  | .srd _ reg _ => reg.ok
  | .swr _ reg _ => reg.ok
  | .trap _ => true
  | .tret => true
  | .brk _ => true
  | .railsGood => true
  | .fullReset _ => true
  | .recoveryImage _ => true
  | .firmwareUpdate _ _ => true
  | .throttleEvaluation temps _ => decide (temps.length = 4)
  | .thermtrip die _ => decide (die < 4)
  | .thstatTrippedClear die _ => decide (die < 4)
  | .flitReceive _ flit => decide (flit.length = 128)
  | .replayRequest _ _ => true
  | .portRetrain p => decide (p < 24)
  | .portTrainingDone p _ => decide (p < 24)
  | .boundaryRetrain b => decide (b < 4)
  | .boundaryTrainingDone b _ => decide (b < 4)
  | .diePacketArrival src dst => decide (src < 5) && decide (dst < 5)
  | .vectorAnnounce src => decide (src < 5)
  | .remoteWriteApply home _ => decide (home < 5)
  | .remoteReadPerform home _ => decide (home < 5)
  | .readResponseArrival _ => true
  | .gpqctlQuiesce p => decide (p < 24)
  | .gpqctlResume p => decide (p < 24)
  | .portQuiesceDone p => decide (p < 24)
  | .grtabWrite die _ _ => decide (die < 4)
  | .packetWrite port pk => decide (port < 24) && pk.lenOk
  | .packetRead port pk => decide (port < 24) && pk.lenOk
  | .packetAtomic port pk => decide (port < 24) && pk.lenOk
  | .packetSignal port pk => decide (port < 24) && pk.lenOk
  | .signalApply _ => true
  | .reduceContribution pk => pk.lenOk
  | .localReduceCombine _ => true
  | .ackResponse pk => pk.lenOk
  | .atomresResponse pk => pk.lenOk
  | .errorResponse pk => pk.lenOk
  | .lockInterfaceRequest vf _ => vfOk vf
  | .getDeviceInterfaceReport vf => vfOk vf
  | .startInterfaceRequest vf => vfOk vf
  | .stopInterfaceRequest vf => vfOk vf
  | .stopScrubDone vf => vfOk vf
  | .lockedRegisterWrite vf _ _ => vfOk vf
  | .ideIntegrityFailure vf => vfOk vf
  | .spdmMeasurements _ => true
  | .launchRecordWrite vf win _ _ _ => vfOk vf && decide (win < 16)
  | .lwcfgWrite vf win _ => vfOk vf && decide (win < 16)
  | .systemRegisterWrite _ => true
  | .tepcWrite t _ _ => decide (t < 256)
  | .tlbinvWrite part _ => decide (part < 16)
  | .htlbinvWrite vf _ => vfOk vf
  | .tlbinvComplete part => decide (part < 16)
  | .translationWalk t vf _ => decide (t < 256) && vfOk vf
  | .shdiscWrite part _ => decide (part < 16)
  | .skreqReel part _ => decide (part < 16)
  | .skreqUnreel part _ => decide (part < 16)
  | .skreqExport part _ => decide (part < 16)
  | .worldMoveRequest granule _ => decide (granule < 16384)
  | .worldMoveComplete granule => decide (granule < 16384)
  | .queueAgeTimer part _ => decide (part < 16)
  | .placeBlock part _ => decide (part < 16)
  | .timeSliceBoundary part => decide (part < 16)
  | .usedUpdate t => decide (t < 256)
  | .gridCompletion _ => true
  | .scrubComplete t => decide (t < 256)
  | .freezeRequest t _ => decide (t < 256)
  | .drainComplete t => decide (t < 256)
  | .sheafSaveDone t => decide (t < 256)
  | .sheafRestore part _ t => decide (part < 16) && decide (t < 256)
  | .sheafRestoreDone t => decide (t < 256)
  | .debugResume t _ => decide (t < 256)
  | .debugSaveRequest t => decide (t < 256)
  | .debugScanAccess t _ => decide (t < 256)
  | .binTimerExpiry t _ => decide (t < 256)
  | .binFormGang t _ => decide (t < 256)
  | .binStoreDeadlock t => decide (t < 256)
  | .monitorWatchFire t _ => decide (t < 256)
  | .monitorPoll t _ => decide (t < 256)
  | .suspendDelayExpiry t _ => decide (t < 256)
  | .logEntryComplete t _ _ _ => decide (t < 256)
  | .trapEntry t _ => decide (t < 256)
  | .impreciseReportTaken t _ => decide (t < 256)
  | .tileStateError t _ _ => decide (t < 256)
  | .dataError _ => true
  | .correctedError _ => true
  | .patrolScrub _ _ => true
  | .engineCommandComplete t _ => decide (t < 256)
  | .barrierByteCount t _ _ => decide (t < 256)
  | .linkedStart t _ => decide (t < 256)
  | .strandOpApply home _ => decide (home < 5)
  | .strandResponse _ => true
  | .channelItemArrival part _ _ => decide (part < 16)
  | .distributorReelRequest part _ => decide (part < 16)
  | .stageGangPlace part _ _ t => decide (part < 16) && decide (t < 256)
  | .skeinGatherDone part _ => decide (part < 16)
  | .skeinCopyDone part _ => decide (part < 16)
  | .skeinUnreelAtKnot part _ => decide (part < 16)
  | .skeinExportAtKnot part _ => decide (part < 16)
  | .skeinSwitchTimeout part _ => decide (part < 16)
  | .railsRemoved => true
  | .freedSlotNoticeArrival part _ _ => decide (part < 16)
  | .distributorUnreelRequest part _ => decide (part < 16)

end Sys2Proof
end

