-- ==== Sys2Proof/Decode.lean ====
section
/-!
DEFINITION. The decoder, total on every word and rejecting by name (14_encoding.md R220 to R238), and the encoder
written from the same tables (R222, R223, R236, R237).
-/
namespace Sys2Proof

/-- Why a word decodes to no instruction: the group 1 rows of R238. -/
inductive DecErr where
  /-- An opcode the maps of R236 and R237 mark reserved: group 1, CODE 1. -/
  | reservedOpcode
  /-- A reserved or unused field holding another value: group 1, CODE 2. -/
  | fieldValue
  deriving DecidableEq, Repr

/-- The instruction a field check leaves, or the field row of R238. -/
def fields (o : Option Instr) : Except DecErr Instr :=
  match o with
  | some i => .ok i
  | none => .error .fieldValue

/-- A field that must hold a named value (R237). -/
def chk (c : Bool) (o : Option Instr) : Option Instr := if c then o else none

/-- The rounding-mode field of CVT (R271). -/
def chkCvt (rm : Rm) (src dst : NTy) (o : Option Instr) : Option Instr := chk (cvtOk rm src dst) o

/-- The fields of PUT beside .eos (R347). -/
def chkPut (x : BitVec 24) (o : Option Instr) : Option Instr :=
  chk (putOk (Opnd.ofCode (x.extractLsb' 16 8)) (x.extractLsb' 8 2) (x.extractLsb' 0 1 == 1#1)) o

/-- The lane set: opcode and bits [23:0] (R222, R236). -/
def decodeLane (op : Nat) (x : BitVec 24) : Except DecErr Instr :=
  match op with
  | 0x00 => fields (some (.addLane (LDst.ofCode (x.extractLsb' 16 8)) (Opnd.ofCode (x.extractLsb' 8 8)) (Opnd.ofCode (x.extractLsb' 0 8))))
  | 0x01 => fields (some (.subLane (LDst.ofCode (x.extractLsb' 16 8)) (Opnd.ofCode (x.extractLsb' 8 8)) (Opnd.ofCode (x.extractLsb' 0 8))))
  | 0x02 => fields (some (.mulLane (LDst.ofCode (x.extractLsb' 16 8)) (Opnd.ofCode (x.extractLsb' 8 8)) (Opnd.ofCode (x.extractLsb' 0 8))))
  | 0x03 => fields (some (.mulhLane (LDst.ofCode (x.extractLsb' 16 8)) (Opnd.ofCode (x.extractLsb' 8 8)) (Opnd.ofCode (x.extractLsb' 0 8))))
  | 0x04 => fields (some (.mulhuLane (LDst.ofCode (x.extractLsb' 16 8)) (Opnd.ofCode (x.extractLsb' 8 8)) (Opnd.ofCode (x.extractLsb' 0 8))))
  | 0x05 => fields (some (.mad (LDst.ofCode (x.extractLsb' 16 8)) (Opnd.ofCode (x.extractLsb' 8 8)) (Opnd.ofCode (x.extractLsb' 0 8))))
  | 0x06 => fields (some (.andLane (LDst.ofCode (x.extractLsb' 16 8)) (Opnd.ofCode (x.extractLsb' 8 8)) (Opnd.ofCode (x.extractLsb' 0 8))))
  | 0x07 => fields (some (.orLane (LDst.ofCode (x.extractLsb' 16 8)) (Opnd.ofCode (x.extractLsb' 8 8)) (Opnd.ofCode (x.extractLsb' 0 8))))
  | 0x08 => fields (some (.xorLane (LDst.ofCode (x.extractLsb' 16 8)) (Opnd.ofCode (x.extractLsb' 8 8)) (Opnd.ofCode (x.extractLsb' 0 8))))
  | 0x09 => fields (some (.andnLane (LDst.ofCode (x.extractLsb' 16 8)) (Opnd.ofCode (x.extractLsb' 8 8)) (Opnd.ofCode (x.extractLsb' 0 8))))
  | 0x0A => fields (some (.shlLane (LDst.ofCode (x.extractLsb' 16 8)) (Opnd.ofCode (x.extractLsb' 8 8)) (Opnd.ofCode (x.extractLsb' 0 8))))
  | 0x0B => fields (some (.shrLane (LDst.ofCode (x.extractLsb' 16 8)) (Opnd.ofCode (x.extractLsb' 8 8)) (Opnd.ofCode (x.extractLsb' 0 8))))
  | 0x0C => fields (some (.sarLane (LDst.ofCode (x.extractLsb' 16 8)) (Opnd.ofCode (x.extractLsb' 8 8)) (Opnd.ofCode (x.extractLsb' 0 8))))
  | 0x0D => fields (some (.rolLane (LDst.ofCode (x.extractLsb' 16 8)) (Opnd.ofCode (x.extractLsb' 8 8)) (Opnd.ofCode (x.extractLsb' 0 8))))
  | 0x0E => fields (some (.minLane (LDst.ofCode (x.extractLsb' 16 8)) (Opnd.ofCode (x.extractLsb' 8 8)) (Opnd.ofCode (x.extractLsb' 0 8))))
  | 0x0F => fields (some (.maxLane (LDst.ofCode (x.extractLsb' 16 8)) (Opnd.ofCode (x.extractLsb' 8 8)) (Opnd.ofCode (x.extractLsb' 0 8))))
  | 0x10 => fields (some (.minuLane (LDst.ofCode (x.extractLsb' 16 8)) (Opnd.ofCode (x.extractLsb' 8 8)) (Opnd.ofCode (x.extractLsb' 0 8))))
  | 0x11 => fields (some (.maxuLane (LDst.ofCode (x.extractLsb' 16 8)) (Opnd.ofCode (x.extractLsb' 8 8)) (Opnd.ofCode (x.extractLsb' 0 8))))
  | 0x12 => fields (chk ((x.extractLsb' 0 8) == 164#8) (some (.clzLane (LDst.ofCode (x.extractLsb' 16 8)) (Opnd.ofCode (x.extractLsb' 8 8)))))
  | 0x13 => fields (chk ((x.extractLsb' 0 8) == 164#8) (some (.popcLane (LDst.ofCode (x.extractLsb' 16 8)) (Opnd.ofCode (x.extractLsb' 8 8)))))
  | 0x14 => fields (chk ((x.extractLsb' 0 8) == 164#8) (some (.brev (LDst.ofCode (x.extractLsb' 16 8)) (Opnd.ofCode (x.extractLsb' 8 8)))))
  | 0x15 => fields (some (.bfeLane (LDst.ofCode (x.extractLsb' 16 8)) (Opnd.ofCode (x.extractLsb' 8 8)) (Opnd.ofCode (x.extractLsb' 0 8))))
  | 0x16 => fields (some (.bfiLane (LDst.ofCode (x.extractLsb' 16 8)) (Opnd.ofCode (x.extractLsb' 8 8)) (Opnd.ofCode (x.extractLsb' 0 8))))
  | 0x17 => fields (some (.selLane ((x.extractLsb' 17 7)) ((x.extractLsb' 10 7)) ((x.extractLsb' 3 7)) ((x.extractLsb' 0 3))))
  | 0x18 => fields (some (.addc ((x.extractLsb' 17 7)) ((x.extractLsb' 10 7)) ((x.extractLsb' 3 7)) ((x.extractLsb' 0 3))))
  | 0x19 => fields (some (.subb ((x.extractLsb' 17 7)) ((x.extractLsb' 10 7)) ((x.extractLsb' 3 7)) ((x.extractLsb' 0 3))))
  | 0x1A => fields (some (.madc ((x.extractLsb' 17 7)) ((x.extractLsb' 10 7)) ((x.extractLsb' 3 7)) ((x.extractLsb' 0 3))))
  | 0x1B => fields ((Comb.ofCode? (x.extractLsb' 19 2)).bind (fun m => (ICond.ofCode? (x.extractLsb' 16 3)).bind (fun c => some (.cmpLane ((x.extractLsb' 21 3)) m c (Opnd.ofCode (x.extractLsb' 8 8)) (Opnd.ofCode (x.extractLsb' 0 8))))))
  | 0x1C => fields (chk ((x.extractLsb' 20 1) == 0#1) (chk ((x.extractLsb' 11 5) == 0#5) (chk ((x.extractLsb' 3 5) == 0#5) (some (.plog ((x.extractLsb' 21 3)) ((x.extractLsb' 16 4)) ((x.extractLsb' 8 3)) ((x.extractLsb' 0 3)))))))
  | 0x1D => fields (some (.moviLane (LDst.ofCode (x.extractLsb' 16 8)) ((x.extractLsb' 0 16))))
  | 0x1E => fields (some (.movhiLane (LDst.ofCode (x.extractLsb' 16 8)) ((x.extractLsb' 0 16))))
  | 0x1F => fields (some (.addiLane (LDst.ofCode (x.extractLsb' 16 8)) ((x.extractLsb' 0 16))))
  | 0x20 => fields (some (.fadd (LDst.ofCode (x.extractLsb' 16 8)) (Opnd.ofCode (x.extractLsb' 8 8)) (Opnd.ofCode (x.extractLsb' 0 8))))
  | 0x21 => fields (some (.fsub (LDst.ofCode (x.extractLsb' 16 8)) (Opnd.ofCode (x.extractLsb' 8 8)) (Opnd.ofCode (x.extractLsb' 0 8))))
  | 0x22 => fields (some (.fmul (LDst.ofCode (x.extractLsb' 16 8)) (Opnd.ofCode (x.extractLsb' 8 8)) (Opnd.ofCode (x.extractLsb' 0 8))))
  | 0x23 => fields (some (.fma (LDst.ofCode (x.extractLsb' 16 8)) (Opnd.ofCode (x.extractLsb' 8 8)) (Opnd.ofCode (x.extractLsb' 0 8))))
  | 0x24 => fields (some (.fmin (LDst.ofCode (x.extractLsb' 16 8)) (Opnd.ofCode (x.extractLsb' 8 8)) (Opnd.ofCode (x.extractLsb' 0 8))))
  | 0x25 => fields (some (.fmax (LDst.ofCode (x.extractLsb' 16 8)) (Opnd.ofCode (x.extractLsb' 8 8)) (Opnd.ofCode (x.extractLsb' 0 8))))
  | 0x26 => fields ((Comb.ofCode? (x.extractLsb' 19 2)).bind (fun m => some (.fcmp ((x.extractLsb' 21 3)) m (FCond.ofCode (x.extractLsb' 16 3)) (Opnd.ofCode (x.extractLsb' 8 8)) (Opnd.ofCode (x.extractLsb' 0 8)))))
  | 0x27 => fields ((Comb.ofCode? (x.extractLsb' 19 2)).bind (fun m => chk ((x.extractLsb' 16 3) == 0#3) (some (.fclass ((x.extractLsb' 21 3)) m (Opnd.ofCode (x.extractLsb' 8 8)) (Opnd.ofCode (x.extractLsb' 0 8))))))
  | 0x28 => fields (chk ((x.extractLsb' 2 6) == 0#6) (some (.frnd (LDst.ofCode (x.extractLsb' 16 8)) (Opnd.ofCode (x.extractLsb' 8 8)) (Rm.ofCode (x.extractLsb' 0 2)))))
  | 0x29 => fields ((NTy.ofCode? (x.extractLsb' 3 3)).bind (fun src => (NTy.ofCode? (x.extractLsb' 0 3)).bind (fun dst => chkCvt (Rm.ofCode (x.extractLsb' 6 2)) src dst (some (.cvt (LDst.ofCode (x.extractLsb' 16 8)) (Opnd.ofCode (x.extractLsb' 8 8)) (Rm.ofCode (x.extractLsb' 6 2)) src dst)))))
  | 0x2A => fields (chk ((x.extractLsb' 0 8) == 164#8) (some (.rcp (LDst.ofCode (x.extractLsb' 16 8)) (Opnd.ofCode (x.extractLsb' 8 8)))))
  | 0x2B => fields (chk ((x.extractLsb' 0 8) == 164#8) (some (.rsq (LDst.ofCode (x.extractLsb' 16 8)) (Opnd.ofCode (x.extractLsb' 8 8)))))
  | 0x2C => fields (chk ((x.extractLsb' 0 8) == 164#8) (some (.sqrt (LDst.ofCode (x.extractLsb' 16 8)) (Opnd.ofCode (x.extractLsb' 8 8)))))
  | 0x2D => fields (chk ((x.extractLsb' 0 8) == 164#8) (some (.exp2 (LDst.ofCode (x.extractLsb' 16 8)) (Opnd.ofCode (x.extractLsb' 8 8)))))
  | 0x2E => fields (chk ((x.extractLsb' 0 8) == 164#8) (some (.log2 (LDst.ofCode (x.extractLsb' 16 8)) (Opnd.ofCode (x.extractLsb' 8 8)))))
  | 0x2F => fields (chk ((x.extractLsb' 0 8) == 164#8) (some (.sin (LDst.ofCode (x.extractLsb' 16 8)) (Opnd.ofCode (x.extractLsb' 8 8)))))
  | 0x30 => fields (chk ((x.extractLsb' 0 8) == 164#8) (some (.cos (LDst.ofCode (x.extractLsb' 16 8)) (Opnd.ofCode (x.extractLsb' 8 8)))))
  | 0x31 => fields (chk ((x.extractLsb' 0 8) == 164#8) (some (.tanh (LDst.ofCode (x.extractLsb' 16 8)) (Opnd.ofCode (x.extractLsb' 8 8)))))
  | 0x32 => fields (chk ((x.extractLsb' 1 2) == 0#2) (some (.padd ((x.extractLsb' 17 7)) ((x.extractLsb' 10 7)) ((x.extractLsb' 3 7)) ((x.extractLsb' 0 1) == 1#1))))
  | 0x33 => fields (chk ((x.extractLsb' 1 2) == 0#2) (some (.pmul ((x.extractLsb' 17 7)) ((x.extractLsb' 10 7)) ((x.extractLsb' 3 7)) ((x.extractLsb' 0 1) == 1#1))))
  | 0x34 => fields (chk ((x.extractLsb' 1 2) == 0#2) (some (.pfma ((x.extractLsb' 17 7)) ((x.extractLsb' 10 7)) ((x.extractLsb' 3 7)) ((x.extractLsb' 0 1) == 1#1))))
  | 0x35 => fields (chk ((x.extractLsb' 1 2) == 0#2) (some (.pmax ((x.extractLsb' 17 7)) ((x.extractLsb' 10 7)) ((x.extractLsb' 3 7)) ((x.extractLsb' 0 1) == 1#1))))
  | 0x36 => fields (some (.fscl (LDst.ofCode (x.extractLsb' 16 8)) (Opnd.ofCode (x.extractLsb' 8 8)) (Opnd.ofCode (x.extractLsb' 0 8))))
  | 0x37 => fields (chk ((x.extractLsb' 3 5) == 0#5) ((DxFmt.ofCode? (x.extractLsb' 0 2)).bind (fun fmt => some (.dxpack (LDst.ofCode (x.extractLsb' 16 8)) (Opnd.ofCode (x.extractLsb' 8 8)) ((x.extractLsb' 2 1) == 1#1) fmt))))
  | 0x38 => fields (chk ((x.extractLsb' 3 5) == 0#5) ((DxFmt.ofCode? (x.extractLsb' 0 2)).bind (fun fmt => some (.dxunpk (LDst.ofCode (x.extractLsb' 16 8)) (Opnd.ofCode (x.extractLsb' 8 8)) ((x.extractLsb' 2 1) == 1#1) fmt))))
  | 0x39 => fields (chk ((x.extractLsb' 2 6) == 0#6) ((DxFmt.ofCode? (x.extractLsb' 0 2)).bind (fun fmt => some (.dxexp (LDst.ofCode (x.extractLsb' 16 8)) (Opnd.ofCode (x.extractLsb' 8 8)) fmt))))
  | 0x40 => fields (some (.shuf (LDst.ofCode (x.extractLsb' 16 8)) (Opnd.ofCode (x.extractLsb' 8 8)) (Opnd.ofCode (x.extractLsb' 0 8))))
  | 0x41 => fields (some (.lpush (LDst.ofCode (x.extractLsb' 16 8)) (Opnd.ofCode (x.extractLsb' 8 8)) (Opnd.ofCode (x.extractLsb' 0 8))))
  | 0x42 => fields (some (.bcast (LDst.ofCode (x.extractLsb' 16 8)) (Opnd.ofCode (x.extractLsb' 8 8)) (Opnd.ofCode (x.extractLsb' 0 8))))
  | 0x43 => fields (chk ((x.extractLsb' 4 4) == 0#4) (some (.lscan (LDst.ofCode (x.extractLsb' 16 8)) (Opnd.ofCode (x.extractLsb' 8 8)) ((x.extractLsb' 3 1) == 1#1) (ScanOp.ofCode (x.extractLsb' 0 3)))))
  | 0x44 => fields (chk ((x.extractLsb' 3 5) == 0#5) ((FScanOp.ofCode? (x.extractLsb' 0 2)).bind (fun op => some (.fscan (LDst.ofCode (x.extractLsb' 16 8)) (Opnd.ofCode (x.extractLsb' 8 8)) ((x.extractLsb' 2 1) == 1#1) op))))
  | 0x45 => fields (chk ((x.extractLsb' 4 4) == 0#4) ((RedOp.ofCode? (x.extractLsb' 0 4)).bind (fun op => some (.lred (LDst.ofCode (x.extractLsb' 16 8)) (Opnd.ofCode (x.extractLsb' 8 8)) op))))
  | 0x46 => fields (chk ((x.extractLsb' 18 3) == 0#3) ((VoteMode.ofCode? (x.extractLsb' 16 2)).bind (fun m => chk ((x.extractLsb' 11 5) == 0#5) (chk ((x.extractLsb' 0 8) == 0#8) (some (.vote ((x.extractLsb' 21 3)) m ((x.extractLsb' 8 3))))))))
  | 0x47 => fields (some (.rng (LDst.ofCode (x.extractLsb' 16 8)) (Opnd.ofCode (x.extractLsb' 8 8)) (Opnd.ofCode (x.extractLsb' 0 8))))
  | 0x48 => fields (chk ((x.extractLsb' 1 7) == 0#7) (some (.prefpop (LDst.ofCode (x.extractLsb' 16 8)) (Opnd.ofCode (x.extractLsb' 8 8)) ((x.extractLsb' 0 1) == 1#1))))
  | 0x50 => fields (chk ((x.extractLsb' 15 1) == 0#1) ((Ty.ofCode? (x.extractLsb' 6 3)).bind (fun ty => (MOrd.ofCode? (x.extractLsb' 0 6)).bind (fun o => some (.ldLane (LDst.ofCode (x.extractLsb' 16 8)) ((x.extractLsb' 9 6)) ty o)))))
  | 0x51 => fields (chk ((x.extractLsb' 15 1) == 0#1) ((Ty.ofStore? (x.extractLsb' 6 3)).bind (fun ty => (MOrd.ofCode? (x.extractLsb' 0 6)).bind (fun o => some (.stLane (Opnd.ofCode (x.extractLsb' 16 8)) ((x.extractLsb' 9 6)) ty o)))))
  | 0x52 => fields ((Ty.ofCode? (x.extractLsb' 6 3)).bind (fun ty => (MOrd.ofCode? (x.extractLsb' 0 6)).bind (fun o => some (.lds (LDst.ofCode (x.extractLsb' 16 8)) ((x.extractLsb' 9 7)) ty o))))
  | 0x53 => fields ((Ty.ofStore? (x.extractLsb' 6 3)).bind (fun ty => (MOrd.ofCode? (x.extractLsb' 0 6)).bind (fun o => some (.sts (Opnd.ofCode (x.extractLsb' 16 8)) ((x.extractLsb' 9 7)) ty o))))
  | 0x54 => fields (some (.aaddLane ((x.extractLsb' 17 7)) (LaAddr.ofCode (x.extractLsb' 10 7)) ((x.extractLsb' 3 7)) (Os.ofCode (x.extractLsb' 0 3))))
  | 0x55 => fields (some (.afadd ((x.extractLsb' 17 7)) (LaAddr.ofCode (x.extractLsb' 10 7)) ((x.extractLsb' 3 7)) (Os.ofCode (x.extractLsb' 0 3))))
  | 0x56 => fields (some (.amin ((x.extractLsb' 17 7)) (LaAddr.ofCode (x.extractLsb' 10 7)) ((x.extractLsb' 3 7)) (Os.ofCode (x.extractLsb' 0 3))))
  | 0x57 => fields (some (.amaxLane ((x.extractLsb' 17 7)) (LaAddr.ofCode (x.extractLsb' 10 7)) ((x.extractLsb' 3 7)) (Os.ofCode (x.extractLsb' 0 3))))
  | 0x58 => fields (some (.aminu ((x.extractLsb' 17 7)) (LaAddr.ofCode (x.extractLsb' 10 7)) ((x.extractLsb' 3 7)) (Os.ofCode (x.extractLsb' 0 3))))
  | 0x59 => fields (some (.amaxu ((x.extractLsb' 17 7)) (LaAddr.ofCode (x.extractLsb' 10 7)) ((x.extractLsb' 3 7)) (Os.ofCode (x.extractLsb' 0 3))))
  | 0x5A => fields (some (.aand ((x.extractLsb' 17 7)) (LaAddr.ofCode (x.extractLsb' 10 7)) ((x.extractLsb' 3 7)) (Os.ofCode (x.extractLsb' 0 3))))
  | 0x5B => fields (some (.aor ((x.extractLsb' 17 7)) (LaAddr.ofCode (x.extractLsb' 10 7)) ((x.extractLsb' 3 7)) (Os.ofCode (x.extractLsb' 0 3))))
  | 0x5C => fields (some (.axor ((x.extractLsb' 17 7)) (LaAddr.ofCode (x.extractLsb' 10 7)) ((x.extractLsb' 3 7)) (Os.ofCode (x.extractLsb' 0 3))))
  | 0x5D => fields (some (.axchgLane ((x.extractLsb' 17 7)) (LaAddr.ofCode (x.extractLsb' 10 7)) ((x.extractLsb' 3 7)) (Os.ofCode (x.extractLsb' 0 3))))
  | 0x5E => fields (some (.acasLane ((x.extractLsb' 17 7)) (LaAddr.ofCode (x.extractLsb' 10 7)) ((x.extractLsb' 3 7)) (Os.ofCode (x.extractLsb' 0 3))))
  | 0x60 => fields (chk ((x.extractLsb' 15 1) == 0#1) ((Ty.ofCode? (x.extractLsb' 6 3)).bind (fun ty => some (.sldLane (LDst.ofCode (x.extractLsb' 16 8)) ((x.extractLsb' 9 6)) ty ((x.extractLsb' 3 3)) ((x.extractLsb' 0 3))))))
  | 0x61 => fields (chk ((x.extractLsb' 15 1) == 0#1) ((Ty.ofStore? (x.extractLsb' 6 3)).bind (fun ty => chk ((x.extractLsb' 3 3) == 0#3) (some (.sstLane (Opnd.ofCode (x.extractLsb' 16 8)) ((x.extractLsb' 9 6)) ty ((x.extractLsb' 0 3)))))))
  | 0x62 => fields (chk ((x.extractLsb' 15 1) == 0#1) (chk ((x.extractLsb' 6 3) == 0#3) (chk ((x.extractLsb' 0 3) == 0#3) (some (.srankLane (LDst.ofCode (x.extractLsb' 16 8)) ((x.extractLsb' 9 6)) ((x.extractLsb' 3 3)))))))
  | 0x63 => fields (chk ((x.extractLsb' 15 1) == 0#1) (chk ((x.extractLsb' 6 3) == 0#3) (chk ((x.extractLsb' 3 3) == 0#3) (some (.sanchLane (LDst.ofCode (x.extractLsb' 16 8)) ((x.extractLsb' 9 6)) ((x.extractLsb' 0 3)))))))
  | 0x64 => fields (chk ((x.extractLsb' 0 7) == 0#7) (some (.sendLane (Opnd.ofCode (x.extractLsb' 16 8)) ((x.extractLsb' 10 6)) ((x.extractLsb' 8 2)) ((x.extractLsb' 7 1) == 1#1))))
  | 0x65 => fields (chk ((x.extractLsb' 0 7) == 0#7) (some (.recvLane (LDst.ofCode (x.extractLsb' 16 8)) ((x.extractLsb' 10 6)) ((x.extractLsb' 8 2)) ((x.extractLsb' 7 1) == 1#1))))
  | 0x66 => fields (chk ((x.extractLsb' 8 2) == 0#2) (chk ((x.extractLsb' 5 3) == 0#3) (some (.spawn (Opnd.ofCode (x.extractLsb' 16 8)) ((x.extractLsb' 10 6)) ((x.extractLsb' 4 1) == 1#1) ((x.extractLsb' 0 4))))))
  | 0x67 => fields (chk ((x.extractLsb' 15 1) == 0#1) ((Ty2.ofCode? (x.extractLsb' 6 3)).bind (fun ty => chk ((x.extractLsb' 3 3) == 0#3) (some (.saadd (Opnd.ofCode (x.extractLsb' 16 8)) ((x.extractLsb' 9 6)) ty ((x.extractLsb' 0 3)))))))
  | 0x68 => fields (chk ((x.extractLsb' 15 1) == 0#1) ((Ty2.ofCode? (x.extractLsb' 6 3)).bind (fun ty => chk ((x.extractLsb' 3 3) == 0#3) (some (.samin (Opnd.ofCode (x.extractLsb' 16 8)) ((x.extractLsb' 9 6)) ty ((x.extractLsb' 0 3)))))))
  | 0x69 => fields (chk ((x.extractLsb' 15 1) == 0#1) ((Ty2.ofCode? (x.extractLsb' 6 3)).bind (fun ty => chk ((x.extractLsb' 3 3) == 0#3) (some (.samax (Opnd.ofCode (x.extractLsb' 16 8)) ((x.extractLsb' 9 6)) ty ((x.extractLsb' 0 3)))))))
  | 0x6A => fields (chk ((x.extractLsb' 15 1) == 0#1) ((Ty2.ofCode? (x.extractLsb' 6 3)).bind (fun ty => chk ((x.extractLsb' 3 3) == 0#3) (some (.sacas (Opnd.ofCode (x.extractLsb' 16 8)) ((x.extractLsb' 9 6)) ty ((x.extractLsb' 0 3)))))))
  | 0x6B => fields (chk ((x.extractLsb' 15 1) == 0#1) ((Ty2.ofCode? (x.extractLsb' 6 3)).bind (fun ty => chk ((x.extractLsb' 3 3) == 0#3) (some (.saxchg (Opnd.ofCode (x.extractLsb' 16 8)) ((x.extractLsb' 9 6)) ty ((x.extractLsb' 0 3)))))))
  | _ => .error .reservedOpcode

/-- The uniform set (R223, R237). -/
def decodeUniform (op : Nat) (x : BitVec 24) : Except DecErr Instr :=
  match op with
  | 0x00 => fields ((UDst.ofCode? (x.extractLsb' 16 8)).bind (fun d => some (.addUniform d (Opnd.ofCode (x.extractLsb' 8 8)) (Opnd.ofCode (x.extractLsb' 0 8)))))
  | 0x01 => fields ((UDst.ofCode? (x.extractLsb' 16 8)).bind (fun d => some (.subUniform d (Opnd.ofCode (x.extractLsb' 8 8)) (Opnd.ofCode (x.extractLsb' 0 8)))))
  | 0x02 => fields ((UDst.ofCode? (x.extractLsb' 16 8)).bind (fun d => some (.mulUniform d (Opnd.ofCode (x.extractLsb' 8 8)) (Opnd.ofCode (x.extractLsb' 0 8)))))
  | 0x03 => fields ((UDst.ofCode? (x.extractLsb' 16 8)).bind (fun d => some (.mulhUniform d (Opnd.ofCode (x.extractLsb' 8 8)) (Opnd.ofCode (x.extractLsb' 0 8)))))
  | 0x04 => fields ((UDst.ofCode? (x.extractLsb' 16 8)).bind (fun d => some (.mulhuUniform d (Opnd.ofCode (x.extractLsb' 8 8)) (Opnd.ofCode (x.extractLsb' 0 8)))))
  | 0x05 => fields ((UDst.ofCode? (x.extractLsb' 16 8)).bind (fun d => some (.andUniform d (Opnd.ofCode (x.extractLsb' 8 8)) (Opnd.ofCode (x.extractLsb' 0 8)))))
  | 0x06 => fields ((UDst.ofCode? (x.extractLsb' 16 8)).bind (fun d => some (.orUniform d (Opnd.ofCode (x.extractLsb' 8 8)) (Opnd.ofCode (x.extractLsb' 0 8)))))
  | 0x07 => fields ((UDst.ofCode? (x.extractLsb' 16 8)).bind (fun d => some (.xorUniform d (Opnd.ofCode (x.extractLsb' 8 8)) (Opnd.ofCode (x.extractLsb' 0 8)))))
  | 0x08 => fields ((UDst.ofCode? (x.extractLsb' 16 8)).bind (fun d => some (.andnUniform d (Opnd.ofCode (x.extractLsb' 8 8)) (Opnd.ofCode (x.extractLsb' 0 8)))))
  | 0x09 => fields ((UDst.ofCode? (x.extractLsb' 16 8)).bind (fun d => some (.shlUniform d (Opnd.ofCode (x.extractLsb' 8 8)) (Opnd.ofCode (x.extractLsb' 0 8)))))
  | 0x0A => fields ((UDst.ofCode? (x.extractLsb' 16 8)).bind (fun d => some (.shrUniform d (Opnd.ofCode (x.extractLsb' 8 8)) (Opnd.ofCode (x.extractLsb' 0 8)))))
  | 0x0B => fields ((UDst.ofCode? (x.extractLsb' 16 8)).bind (fun d => some (.sarUniform d (Opnd.ofCode (x.extractLsb' 8 8)) (Opnd.ofCode (x.extractLsb' 0 8)))))
  | 0x0C => fields ((UDst.ofCode? (x.extractLsb' 16 8)).bind (fun d => some (.minUniform d (Opnd.ofCode (x.extractLsb' 8 8)) (Opnd.ofCode (x.extractLsb' 0 8)))))
  | 0x0D => fields ((UDst.ofCode? (x.extractLsb' 16 8)).bind (fun d => some (.maxUniform d (Opnd.ofCode (x.extractLsb' 8 8)) (Opnd.ofCode (x.extractLsb' 0 8)))))
  | 0x0E => fields ((UDst.ofCode? (x.extractLsb' 16 8)).bind (fun d => some (.minuUniform d (Opnd.ofCode (x.extractLsb' 8 8)) (Opnd.ofCode (x.extractLsb' 0 8)))))
  | 0x0F => fields ((UDst.ofCode? (x.extractLsb' 16 8)).bind (fun d => some (.maxuUniform d (Opnd.ofCode (x.extractLsb' 8 8)) (Opnd.ofCode (x.extractLsb' 0 8)))))
  | 0x10 => fields ((UDst.ofCode? (x.extractLsb' 16 8)).bind (fun d => chk ((x.extractLsb' 0 8) == 164#8) (some (.clzUniform d (Opnd.ofCode (x.extractLsb' 8 8))))))
  | 0x11 => fields ((UDst.ofCode? (x.extractLsb' 16 8)).bind (fun d => chk ((x.extractLsb' 0 8) == 164#8) (some (.popcUniform d (Opnd.ofCode (x.extractLsb' 8 8))))))
  | 0x12 => fields ((UDst.ofCode? (x.extractLsb' 16 8)).bind (fun d => some (.bfeUniform d (Opnd.ofCode (x.extractLsb' 8 8)) (Opnd.ofCode (x.extractLsb' 0 8)))))
  | 0x13 => fields ((UDst.ofCode? (x.extractLsb' 16 8)).bind (fun d => some (.bfiUniform d (Opnd.ofCode (x.extractLsb' 8 8)) (Opnd.ofCode (x.extractLsb' 0 8)))))
  | 0x14 => fields ((UDst.ofCode? (x.extractLsb' 16 8)).bind (fun d => some (.cmpEqUniform d (Opnd.ofCode (x.extractLsb' 8 8)) (Opnd.ofCode (x.extractLsb' 0 8)))))
  | 0x15 => fields ((UDst.ofCode? (x.extractLsb' 16 8)).bind (fun d => some (.cmpNeUniform d (Opnd.ofCode (x.extractLsb' 8 8)) (Opnd.ofCode (x.extractLsb' 0 8)))))
  | 0x16 => fields ((UDst.ofCode? (x.extractLsb' 16 8)).bind (fun d => some (.cmpLtUniform d (Opnd.ofCode (x.extractLsb' 8 8)) (Opnd.ofCode (x.extractLsb' 0 8)))))
  | 0x17 => fields ((UDst.ofCode? (x.extractLsb' 16 8)).bind (fun d => some (.cmpLeUniform d (Opnd.ofCode (x.extractLsb' 8 8)) (Opnd.ofCode (x.extractLsb' 0 8)))))
  | 0x18 => fields ((UDst.ofCode? (x.extractLsb' 16 8)).bind (fun d => some (.cmpBloUniform d (Opnd.ofCode (x.extractLsb' 8 8)) (Opnd.ofCode (x.extractLsb' 0 8)))))
  | 0x19 => fields ((UDst.ofCode? (x.extractLsb' 16 8)).bind (fun d => some (.cmpBlsUniform d (Opnd.ofCode (x.extractLsb' 8 8)) (Opnd.ofCode (x.extractLsb' 0 8)))))
  | 0x1A => fields ((UDst.ofCode? (x.extractLsb' 16 8)).bind (fun d => some (.selUniform d (Opnd.ofCode (x.extractLsb' 8 8)) (Opnd.ofCode (x.extractLsb' 0 8)))))
  | 0x1B => fields (some (.moviUniform ((x.extractLsb' 19 5)) ((x.extractLsb' 0 19))))
  | 0x1C => fields (some (.movhiUniform ((x.extractLsb' 19 5)) ((x.extractLsb' 0 19))))
  | 0x1D => fields (some (.addiUniform ((x.extractLsb' 19 5)) ((x.extractLsb' 0 19))))
  | 0x1E => fields ((UDst.ofCode? (x.extractLsb' 16 8)).bind (fun d => some (.rolUniform d (Opnd.ofCode (x.extractLsb' 8 8)) (Opnd.ofCode (x.extractLsb' 0 8)))))
  | 0x20 => fields (some (.br ((x.extractLsb' 0 24))))
  | 0x21 => fields (some (.brz (Opnd.ofCode (x.extractLsb' 16 8)) ((x.extractLsb' 0 16))))
  | 0x22 => fields (some (.brnz (Opnd.ofCode (x.extractLsb' 16 8)) ((x.extractLsb' 0 16))))
  | 0x23 => fields (chk ((x.extractLsb' 21 3) == 0#3) (some (.brp (BrpMode.ofCode (x.extractLsb' 19 2)) ((x.extractLsb' 16 3)) ((x.extractLsb' 0 16)))))
  | 0x24 => fields (some (.call ((x.extractLsb' 0 24))))
  | 0x25 => fields (chk ((x.extractLsb' 0 24) == 0#24) (some (.ret)))
  | 0x26 => fields ((UDst.ofCode? (x.extractLsb' 16 8)).bind (fun d => some (.jmpi d (Opnd.ofCode (x.extractLsb' 8 8)) (Opnd.ofCode (x.extractLsb' 0 8)))))
  | 0x27 => fields (chk ((x.extractLsb' 0 24) == 0#24) (some (.regang)))
  | 0x28 => fields (chk ((x.extractLsb' 16 8) == 0#8) (chk ((x.extractLsb' 8 8) == 0#8) (chk ((x.extractLsb' 4 4) == 0#4) (some (.mpush ((x.extractLsb' 3 1) == 1#1) ((x.extractLsb' 0 3)))))))
  | 0x29 => fields (chk ((x.extractLsb' 0 24) == 0#24) (some (.mpop)))
  | 0x2A => fields (chk ((x.extractLsb' 16 8) == 0#8) (chk ((x.extractLsb' 8 8) == 0#8) (chk ((x.extractLsb' 6 2) == 0#2) ((MsetOp.ofCode? (x.extractLsb' 4 2)).bind (fun op => some (.msetp op ((x.extractLsb' 3 1) == 1#1) ((x.extractLsb' 0 3))))))))
  | 0x2B => fields (chk ((x.extractLsb' 0 24) == 0#24) (some (.melse)))
  | 0x2C => fields (some (.loop (Opnd.ofCode (x.extractLsb' 16 8)) ((x.extractLsb' 0 16))))
  | 0x2D => fields (chk ((x.extractLsb' 0 24) == 0#24) (some (.yield)))
  | 0x2E => fields (chk ((x.extractLsb' 0 24) == 0#24) (some (.exit)))
  | 0x2F => fields (chk ((x.extractLsb' 0 24) == 0#24) (some (.nop)))
  | 0x30 => fields ((UDst.ofCode? (x.extractLsb' 16 8)).bind (fun d => (Ty.ofCode? (x.extractLsb' 8 3)).bind (fun ty => (MOrd.ofCode? (x.extractLsb' 2 6)).bind (fun o => chk ((x.extractLsb' 0 2) == 0#2) (some (.ldUniform d ((x.extractLsb' 11 5)) ty o))))))
  | 0x31 => fields ((Ty.ofStore? (x.extractLsb' 8 3)).bind (fun ty => (MOrd.ofCode? (x.extractLsb' 2 6)).bind (fun o => chk ((x.extractLsb' 0 2) == 0#2) (some (.stUniform (Opnd.ofCode (x.extractLsb' 16 8)) ((x.extractLsb' 11 5)) ty o)))))
  | 0x32 => fields ((UDst.ofCode? (x.extractLsb' 16 8)).bind (fun d => (Ty2.ofCode? (x.extractLsb' 8 3)).bind (fun ty => (AOrd.ofCode? (x.extractLsb' 2 6)).bind (fun o => chk ((x.extractLsb' 0 2) == 0#2) (some (.aaddUniform d ((x.extractLsb' 11 5)) ty o))))))
  | 0x33 => fields ((UDst.ofCode? (x.extractLsb' 16 8)).bind (fun d => (Ty2.ofCode? (x.extractLsb' 8 3)).bind (fun ty => (AOrd.ofCode? (x.extractLsb' 2 6)).bind (fun o => chk ((x.extractLsb' 0 2) == 0#2) (some (.acasUniform d ((x.extractLsb' 11 5)) ty o))))))
  | 0x34 => fields ((UDst.ofCode? (x.extractLsb' 16 8)).bind (fun d => (Ty2.ofCode? (x.extractLsb' 8 3)).bind (fun ty => (AOrd.ofCode? (x.extractLsb' 2 6)).bind (fun o => chk ((x.extractLsb' 0 2) == 0#2) (some (.axchgUniform d ((x.extractLsb' 11 5)) ty o))))))
  | 0x35 => fields ((UDst.ofCode? (x.extractLsb' 16 8)).bind (fun d => (Ty2.ofCode? (x.extractLsb' 8 3)).bind (fun ty => (AOrd.ofCode? (x.extractLsb' 2 6)).bind (fun o => chk ((x.extractLsb' 0 2) == 0#2) (some (.amaxUniform d ((x.extractLsb' 11 5)) ty o))))))
  | 0x36 => fields (chk ((x.extractLsb' 16 8) == 0#8) (chk ((x.extractLsb' 8 8) == 0#8) (chk ((x.extractLsb' 5 3) == 0#3) ((Scope.ofCode? (x.extractLsb' 2 3)).bind (fun sc => some (.fence sc (FenceKind.ofCode (x.extractLsb' 0 2))))))))
  | 0x37 => fields (chk ((x.extractLsb' 8 8) == 0#8) (chk ((x.extractLsb' 5 3) == 0#3) (some (.waitc (Opnd.ofCode (x.extractLsb' 16 8)) ((x.extractLsb' 0 5))))))
  | 0x38 => fields ((Ty2.ofCode? (x.extractLsb' 8 3)).bind (fun ty => chk ((x.extractLsb' 2 6) == 0#6) (chk ((x.extractLsb' 0 2) == 0#2) (some (.monarm (Opnd.ofCode (x.extractLsb' 16 8)) ((x.extractLsb' 11 5)) ty)))))
  | 0x39 => fields ((UDst.ofCode? (x.extractLsb' 16 8)).bind (fun d => chk ((x.extractLsb' 11 5) == 0#5) ((Ty2.ofCode? (x.extractLsb' 8 3)).bind (fun ty => (AOrd.ofCode? (x.extractLsb' 2 6)).bind (fun o => chk ((x.extractLsb' 0 2) == 0#2) (some (.monwait d ty o)))))))
  | 0x3A => fields (chk ((x.extractLsb' 0 8) == 0#8) (some (.barinit (Opnd.ofCode (x.extractLsb' 16 8)) (Opnd.ofCode (x.extractLsb' 8 8)))))
  | 0x3B => fields (chk ((x.extractLsb' 0 8) == 0#8) (some (.bararv (Opnd.ofCode (x.extractLsb' 16 8)) (Opnd.ofCode (x.extractLsb' 8 8)))))
  | 0x3C => fields (chk ((x.extractLsb' 0 8) == 0#8) (some (.barexp (Opnd.ofCode (x.extractLsb' 16 8)) (Opnd.ofCode (x.extractLsb' 8 8)))))
  | 0x3D => fields (chk ((x.extractLsb' 0 8) == 0#8) (some (.barwait (Opnd.ofCode (x.extractLsb' 16 8)) (Opnd.ofCode (x.extractLsb' 8 8)))))
  | 0x3E => fields (chk ((x.extractLsb' 14 6) == 0#6) (chk ((x.extractLsb' 8 6) == 0#6) (some (.tlwait ((x.extractLsb' 20 4)) (Opnd.ofCode (x.extractLsb' 0 8))))))
  | 0x3F => fields (chk ((x.extractLsb' 14 6) == 0#6) (chk ((x.extractLsb' 8 6) == 0#6) ((UDst.ofCode? (x.extractLsb' 0 8)).bind (fun d => some (.tlqry ((x.extractLsb' 20 4)) d)))))
  | 0x40 => fields (chk ((x.extractLsb' 20 4) == 0#4) (chk ((x.extractLsb' 8 6) == 0#6) (chk ((x.extractLsb' 5 3) == 0#3) (some (.tdef ((x.extractLsb' 14 6)) ((x.extractLsb' 0 5)))))))
  | 0x41 => fields (some (.copy ((x.extractLsb' 20 4)) ((x.extractLsb' 14 6)) ((x.extractLsb' 8 6)) ((x.extractLsb' 7 1) == 1#1) ((x.extractLsb' 6 1) == 1#1) ((x.extractLsb' 5 1) == 1#1) ((x.extractLsb' 0 5))))
  | 0x42 => fields (chk ((x.extractLsb' 7 1) == 0#1) (some (.copym ((x.extractLsb' 20 4)) ((x.extractLsb' 14 6)) ((x.extractLsb' 8 6)) ((x.extractLsb' 6 1) == 1#1) ((x.extractLsb' 5 1) == 1#1) ((x.extractLsb' 0 5)))))
  | 0x43 => fields (chk ((x.extractLsb' 5 3) == 0#3) (some (.copys ((x.extractLsb' 20 4)) ((x.extractLsb' 14 6)) ((x.extractLsb' 8 6)) ((x.extractLsb' 0 5)))))
  | 0x44 => fields (chk ((x.extractLsb' 5 3) == 0#3) (some (.copyr ((x.extractLsb' 20 4)) ((x.extractLsb' 14 6)) ((x.extractLsb' 8 6)) ((x.extractLsb' 0 5)))))
  | 0x45 => fields (chk ((x.extractLsb' 8 6) == 0#6) (chk ((x.extractLsb' 5 3) == 0#3) (some (.mload ((x.extractLsb' 20 4)) ((x.extractLsb' 14 6)) ((x.extractLsb' 0 5))))))
  | 0x46 => fields (chk ((x.extractLsb' 14 6) == 0#6) (chk ((x.extractLsb' 8 6) == 0#6) (chk ((x.extractLsb' 4 4) == 0#4) (some (.mswap ((x.extractLsb' 20 4)) ((x.extractLsb' 0 4)))))))
  | 0x47 => fields (chk ((x.extractLsb' 5 3) == 0#3) (some (.mmul ((x.extractLsb' 20 4)) ((x.extractLsb' 14 6)) ((x.extractLsb' 8 6)) ((x.extractLsb' 0 5)))))
  | 0x48 => fields (chk ((x.extractLsb' 8 6) == 0#6) (chk ((x.extractLsb' 0 8) == 0#8) (some (.accz ((x.extractLsb' 20 4)) ((x.extractLsb' 14 6))))))
  | 0x49 => fields (chk ((x.extractLsb' 6 2) == 0#2) (some (.accdrn ((x.extractLsb' 20 4)) ((x.extractLsb' 14 6)) ((x.extractLsb' 8 6)) ((x.extractLsb' 5 1) == 1#1) ((x.extractLsb' 0 5)))))
  | 0x4A => fields (chk ((x.extractLsb' 20 4) == 0#4) (chk ((x.extractLsb' 8 6) == 0#6) (some (.accmov ((x.extractLsb' 19 1) == 1#1) ((x.extractLsb' 14 5)) (Opnd.ofCode (x.extractLsb' 0 8))))))
  | 0x4B => fields (chk ((x.extractLsb' 5 3) == 0#3) (some (.attn ((x.extractLsb' 20 4)) ((x.extractLsb' 14 6)) ((x.extractLsb' 8 6)) ((x.extractLsb' 0 5)))))
  | 0x4C => fields (chk ((x.extractLsb' 20 4) == 0#4) (chk ((x.extractLsb' 13 1) == 0#1) ((UDst.ofCode? (x.extractLsb' 0 8)).bind (fun d => some (.histrd ((x.extractLsb' 14 6)) ((x.extractLsb' 8 5)) d)))))
  | 0x4D => fields (chk ((x.extractLsb' 8 6) == 0#6) (chk ((x.extractLsb' 0 8) == 0#8) (some (.histclr ((x.extractLsb' 20 4)) ((x.extractLsb' 14 6))))))
  | 0x50 => fields (chk ((x.extractLsb' 5 3) == 0#3) (some (.snew (Opnd.ofCode (x.extractLsb' 16 8)) (Opnd.ofCode (x.extractLsb' 8 8)) ((x.extractLsb' 0 5)))))
  | 0x51 => fields (chk ((x.extractLsb' 8 8) == 0#8) (chk ((x.extractLsb' 0 8) == 0#8) (some (.sfree (Opnd.ofCode (x.extractLsb' 16 8))))))
  | 0x52 => fields (chk ((x.extractLsb' 8 8) == 0#8) (chk ((x.extractLsb' 5 3) == 0#3) (some (.slen (Opnd.ofCode (x.extractLsb' 16 8)) ((x.extractLsb' 0 5))))))
  | 0x53 => fields (chk ((x.extractLsb' 6 2) == 0#2) (some (.sins (Opnd.ofCode (x.extractLsb' 16 8)) (Opnd.ofCode (x.extractLsb' 8 8)) ((x.extractLsb' 5 1) == 1#1) ((x.extractLsb' 0 5)))))
  | 0x54 => fields (chk ((x.extractLsb' 5 3) == 0#3) (some (.sdel (Opnd.ofCode (x.extractLsb' 16 8)) (Opnd.ofCode (x.extractLsb' 8 8)) ((x.extractLsb' 0 5)))))
  | 0x55 => fields (chk ((x.extractLsb' 5 3) == 0#3) (some (.ssplit (Opnd.ofCode (x.extractLsb' 16 8)) (Opnd.ofCode (x.extractLsb' 8 8)) ((x.extractLsb' 0 5)))))
  | 0x56 => fields (chk ((x.extractLsb' 6 2) == 0#2) (chk ((x.extractLsb' 0 5) == 0#5) (some (.scat (Opnd.ofCode (x.extractLsb' 16 8)) (Opnd.ofCode (x.extractLsb' 8 8)) ((x.extractLsb' 5 1) == 1#1)))))
  | 0x57 => fields (chk ((x.extractLsb' 5 3) == 0#3) (some (.sgap (Opnd.ofCode (x.extractLsb' 16 8)) (Opnd.ofCode (x.extractLsb' 8 8)) ((x.extractLsb' 0 5)))))
  | 0x58 => fields (chk ((x.extractLsb' 8 8) == 0#8) (chk ((x.extractLsb' 5 3) == 0#3) (some (.sapnd (Opnd.ofCode (x.extractLsb' 16 8)) ((x.extractLsb' 0 5))))))
  | 0x59 => fields (chk ((x.extractLsb' 8 8) == 0#8) (chk ((x.extractLsb' 0 8) == 0#8) (some (.sclose (Opnd.ofCode (x.extractLsb' 16 8))))))
  | 0x5A => fields (chk ((x.extractLsb' 8 8) == 0#8) (some (.srankUniform (Opnd.ofCode (x.extractLsb' 16 8)) ((x.extractLsb' 5 3)) ((x.extractLsb' 0 5)))))
  | 0x5B => fields (chk ((x.extractLsb' 5 3) == 0#3) (some (.sanchUniform (Opnd.ofCode (x.extractLsb' 16 8)) (Opnd.ofCode (x.extractLsb' 8 8)) ((x.extractLsb' 0 5)))))
  | 0x5C => fields ((UDst.ofCode? (x.extractLsb' 16 8)).bind (fun d => (Ty.ofCode? (x.extractLsb' 8 3)).bind (fun ty => chk ((x.extractLsb' 0 2) == 0#2) (some (.sldUniform d ((x.extractLsb' 11 5)) ty ((x.extractLsb' 5 3)) ((x.extractLsb' 2 3)))))))
  | 0x5D => fields ((Ty.ofStore? (x.extractLsb' 8 3)).bind (fun ty => chk ((x.extractLsb' 5 3) == 0#3) (chk ((x.extractLsb' 0 2) == 0#2) (some (.sstUniform (Opnd.ofCode (x.extractLsb' 16 8)) ((x.extractLsb' 11 5)) ty ((x.extractLsb' 2 3)))))))
  | 0x60 => fields (chk ((x.extractLsb' 0 8) == 0#8) (some (.sendUniform (Opnd.ofCode (x.extractLsb' 16 8)) ((x.extractLsb' 10 6)) ((x.extractLsb' 8 2)))))
  | 0x61 => fields ((UDst.ofCode? (x.extractLsb' 16 8)).bind (fun d => chk ((x.extractLsb' 0 8) == 0#8) (some (.recvUniform d ((x.extractLsb' 10 6)) ((x.extractLsb' 8 2))))))
  | 0x62 => fields (chk ((x.extractLsb' 3 5) == 0#5) (some (.get (Opnd.ofCode (x.extractLsb' 16 8)) ((x.extractLsb' 10 6)) ((x.extractLsb' 8 2)) ((x.extractLsb' 0 3)))))
  | 0x63 => fields (chk ((x.extractLsb' 1 7) == 0#7) (chkPut x (some (.put (Opnd.ofCode (x.extractLsb' 16 8)) ((x.extractLsb' 10 6)) ((x.extractLsb' 8 2)) ((x.extractLsb' 0 1) == 1#1)))))
  | 0x64 => fields (chk ((x.extractLsb' 0 8) == 0#8) (some (.knot ((x.extractLsb' 16 8)) ((x.extractLsb' 8 8)))))
  | 0x65 => fields ((UDst.ofCode? (x.extractLsb' 16 8)).bind (fun d => chk ((x.extractLsb' 0 8) == 0#8) (some (.skfold d (Opnd.ofCode (x.extractLsb' 8 8))))))
  | 0x66 => fields ((UDst.ofCode? (x.extractLsb' 16 8)).bind (fun d => chk ((x.extractLsb' 0 8) == 0#8) (some (.skspread d (Opnd.ofCode (x.extractLsb' 8 8))))))
  | 0x67 => fields ((UDst.ofCode? (x.extractLsb' 16 8)).bind (fun d => chk ((x.extractLsb' 0 8) == 0#8) (some (.skqry d (Opnd.ofCode (x.extractLsb' 8 8))))))
  | 0x68 => fields (chk ((x.extractLsb' 8 8) == 0#8) (chk ((x.extractLsb' 0 8) == 0#8) (some (.launch (Opnd.ofCode (x.extractLsb' 16 8))))))
  | 0x69 => fields ((Susp.ofCode? x).bind (fun k => some (.suspend k)))
  | 0x6A => fields ((UDst.ofCode? (x.extractLsb' 16 8)).bind (fun d => chk ((x.extractLsb' 0 8) == 0#8) (some (.lqry d (Opnd.ofCode (x.extractLsb' 8 8))))))
  | 0x70 => fields (some (.srd ((x.extractLsb' 19 5)) (SysReg.ofCode (x.extractLsb' 8 11)) ((x.extractLsb' 0 8))))
  | 0x71 => fields (some (.swr ((x.extractLsb' 19 5)) (SysReg.ofCode (x.extractLsb' 8 11)) ((x.extractLsb' 0 8))))
  | 0x72 => fields (some (.trap ((x.extractLsb' 0 24))))
  | 0x73 => fields (chk ((x.extractLsb' 0 24) == 0#24) (some (.tret)))
  | 0x74 => fields (some (.brk ((x.extractLsb' 0 24))))
  | _ => .error .reservedOpcode

/-- Bit 31 selects the set and bits [30:24] the instruction within it (R220). -/
def decode (w : W32) : Except DecErr Instr :=
  if w.getLsbD 31 then decodeUniform (w.extractLsb' 24 7).toNat (w.setWidth 24)
  else decodeLane (w.extractLsb' 24 7).toNat (w.setWidth 24)

/-- A word from its set bit, opcode and fields (R220). -/
def word (u : BitVec 1) (op : BitVec 7) (x : BitVec 24) : Option W32 := some (u ++ (op ++ x))

/-- The word of an instruction; an event has none. -/
def encode : Instr → Option W32
  | .addLane d a b => word 0#1 0x00#7 ((LDst.code d) ++ (Opnd.code a) ++ (Opnd.code b))
  | .subLane d a b => word 0#1 0x01#7 ((LDst.code d) ++ (Opnd.code a) ++ (Opnd.code b))
  | .mulLane d a b => word 0#1 0x02#7 ((LDst.code d) ++ (Opnd.code a) ++ (Opnd.code b))
  | .mulhLane d a b => word 0#1 0x03#7 ((LDst.code d) ++ (Opnd.code a) ++ (Opnd.code b))
  | .mulhuLane d a b => word 0#1 0x04#7 ((LDst.code d) ++ (Opnd.code a) ++ (Opnd.code b))
  | .mad d a b => word 0#1 0x05#7 ((LDst.code d) ++ (Opnd.code a) ++ (Opnd.code b))
  | .andLane d a b => word 0#1 0x06#7 ((LDst.code d) ++ (Opnd.code a) ++ (Opnd.code b))
  | .orLane d a b => word 0#1 0x07#7 ((LDst.code d) ++ (Opnd.code a) ++ (Opnd.code b))
  | .xorLane d a b => word 0#1 0x08#7 ((LDst.code d) ++ (Opnd.code a) ++ (Opnd.code b))
  | .andnLane d a b => word 0#1 0x09#7 ((LDst.code d) ++ (Opnd.code a) ++ (Opnd.code b))
  | .shlLane d a b => word 0#1 0x0A#7 ((LDst.code d) ++ (Opnd.code a) ++ (Opnd.code b))
  | .shrLane d a b => word 0#1 0x0B#7 ((LDst.code d) ++ (Opnd.code a) ++ (Opnd.code b))
  | .sarLane d a b => word 0#1 0x0C#7 ((LDst.code d) ++ (Opnd.code a) ++ (Opnd.code b))
  | .rolLane d a b => word 0#1 0x0D#7 ((LDst.code d) ++ (Opnd.code a) ++ (Opnd.code b))
  | .minLane d a b => word 0#1 0x0E#7 ((LDst.code d) ++ (Opnd.code a) ++ (Opnd.code b))
  | .maxLane d a b => word 0#1 0x0F#7 ((LDst.code d) ++ (Opnd.code a) ++ (Opnd.code b))
  | .minuLane d a b => word 0#1 0x10#7 ((LDst.code d) ++ (Opnd.code a) ++ (Opnd.code b))
  | .maxuLane d a b => word 0#1 0x11#7 ((LDst.code d) ++ (Opnd.code a) ++ (Opnd.code b))
  | .clzLane d a => word 0#1 0x12#7 ((LDst.code d) ++ (Opnd.code a) ++ 164#8)
  | .popcLane d a => word 0#1 0x13#7 ((LDst.code d) ++ (Opnd.code a) ++ 164#8)
  | .brev d a => word 0#1 0x14#7 ((LDst.code d) ++ (Opnd.code a) ++ 164#8)
  | .bfeLane d a b => word 0#1 0x15#7 ((LDst.code d) ++ (Opnd.code a) ++ (Opnd.code b))
  | .bfiLane d a b => word 0#1 0x16#7 ((LDst.code d) ++ (Opnd.code a) ++ (Opnd.code b))
  | .selLane d a b p => word 0#1 0x17#7 (d ++ a ++ b ++ p)
  | .addc d a b p => word 0#1 0x18#7 (d ++ a ++ b ++ p)
  | .subb d a b p => word 0#1 0x19#7 (d ++ a ++ b ++ p)
  | .madc d a b p => word 0#1 0x1A#7 (d ++ a ++ b ++ p)
  | .cmpLane pd m c a b => word 0#1 0x1B#7 (pd ++ (Comb.code m) ++ (ICond.code c) ++ (Opnd.code a) ++ (Opnd.code b))
  | .plog pd tt px py => word 0#1 0x1C#7 (pd ++ 0#1 ++ tt ++ 0#5 ++ px ++ 0#5 ++ py)
  | .moviLane d imm => word 0#1 0x1D#7 ((LDst.code d) ++ imm)
  | .movhiLane d imm => word 0#1 0x1E#7 ((LDst.code d) ++ imm)
  | .addiLane d imm => word 0#1 0x1F#7 ((LDst.code d) ++ imm)
  | .fadd d a b => word 0#1 0x20#7 ((LDst.code d) ++ (Opnd.code a) ++ (Opnd.code b))
  | .fsub d a b => word 0#1 0x21#7 ((LDst.code d) ++ (Opnd.code a) ++ (Opnd.code b))
  | .fmul d a b => word 0#1 0x22#7 ((LDst.code d) ++ (Opnd.code a) ++ (Opnd.code b))
  | .fma d a b => word 0#1 0x23#7 ((LDst.code d) ++ (Opnd.code a) ++ (Opnd.code b))
  | .fmin d a b => word 0#1 0x24#7 ((LDst.code d) ++ (Opnd.code a) ++ (Opnd.code b))
  | .fmax d a b => word 0#1 0x25#7 ((LDst.code d) ++ (Opnd.code a) ++ (Opnd.code b))
  | .fcmp pd m c a b => word 0#1 0x26#7 (pd ++ (Comb.code m) ++ (FCond.code c) ++ (Opnd.code a) ++ (Opnd.code b))
  | .fclass pd m a b => word 0#1 0x27#7 (pd ++ (Comb.code m) ++ 0#3 ++ (Opnd.code a) ++ (Opnd.code b))
  | .frnd d a rm => word 0#1 0x28#7 ((LDst.code d) ++ (Opnd.code a) ++ 0#6 ++ (Rm.code rm))
  | .cvt d a rm src dst => word 0#1 0x29#7 ((LDst.code d) ++ (Opnd.code a) ++ (Rm.code rm) ++ (NTy.code src) ++ (NTy.code dst))
  | .rcp d a => word 0#1 0x2A#7 ((LDst.code d) ++ (Opnd.code a) ++ 164#8)
  | .rsq d a => word 0#1 0x2B#7 ((LDst.code d) ++ (Opnd.code a) ++ 164#8)
  | .sqrt d a => word 0#1 0x2C#7 ((LDst.code d) ++ (Opnd.code a) ++ 164#8)
  | .exp2 d a => word 0#1 0x2D#7 ((LDst.code d) ++ (Opnd.code a) ++ 164#8)
  | .log2 d a => word 0#1 0x2E#7 ((LDst.code d) ++ (Opnd.code a) ++ 164#8)
  | .sin d a => word 0#1 0x2F#7 ((LDst.code d) ++ (Opnd.code a) ++ 164#8)
  | .cos d a => word 0#1 0x30#7 ((LDst.code d) ++ (Opnd.code a) ++ 164#8)
  | .tanh d a => word 0#1 0x31#7 ((LDst.code d) ++ (Opnd.code a) ++ 164#8)
  | .padd d a b bf => word 0#1 0x32#7 (d ++ a ++ b ++ 0#2 ++ (BitVec.ofBool bf))
  | .pmul d a b bf => word 0#1 0x33#7 (d ++ a ++ b ++ 0#2 ++ (BitVec.ofBool bf))
  | .pfma d a b bf => word 0#1 0x34#7 (d ++ a ++ b ++ 0#2 ++ (BitVec.ofBool bf))
  | .pmax d a b bf => word 0#1 0x35#7 (d ++ a ++ b ++ 0#2 ++ (BitVec.ofBool bf))
  | .fscl d a b => word 0#1 0x36#7 ((LDst.code d) ++ (Opnd.code a) ++ (Opnd.code b))
  | .dxpack d a half fmt => word 0#1 0x37#7 ((LDst.code d) ++ (Opnd.code a) ++ 0#5 ++ (BitVec.ofBool half) ++ (DxFmt.code fmt))
  | .dxunpk d a half fmt => word 0#1 0x38#7 ((LDst.code d) ++ (Opnd.code a) ++ 0#5 ++ (BitVec.ofBool half) ++ (DxFmt.code fmt))
  | .dxexp d a fmt => word 0#1 0x39#7 ((LDst.code d) ++ (Opnd.code a) ++ 0#6 ++ (DxFmt.code fmt))
  | .shuf d a b => word 0#1 0x40#7 ((LDst.code d) ++ (Opnd.code a) ++ (Opnd.code b))
  | .lpush d a b => word 0#1 0x41#7 ((LDst.code d) ++ (Opnd.code a) ++ (Opnd.code b))
  | .bcast d a b => word 0#1 0x42#7 ((LDst.code d) ++ (Opnd.code a) ++ (Opnd.code b))
  | .lscan d a ex op => word 0#1 0x43#7 ((LDst.code d) ++ (Opnd.code a) ++ 0#4 ++ (BitVec.ofBool ex) ++ (ScanOp.code op))
  | .fscan d a ex op => word 0#1 0x44#7 ((LDst.code d) ++ (Opnd.code a) ++ 0#5 ++ (BitVec.ofBool ex) ++ (FScanOp.code op))
  | .lred d a op => word 0#1 0x45#7 ((LDst.code d) ++ (Opnd.code a) ++ 0#4 ++ (RedOp.code op))
  | .vote pd m px => word 0#1 0x46#7 (pd ++ 0#3 ++ (VoteMode.code m) ++ 0#5 ++ px ++ 0#8)
  | .rng d a b => word 0#1 0x47#7 ((LDst.code d) ++ (Opnd.code a) ++ (Opnd.code b))
  | .prefpop d a inc => word 0#1 0x48#7 ((LDst.code d) ++ (Opnd.code a) ++ 0#7 ++ (BitVec.ofBool inc))
  | .ldLane d addr ty o => word 0#1 0x50#7 ((LDst.code d) ++ 0#1 ++ addr ++ (Ty.code ty) ++ (MOrd.code o))
  | .stLane data addr ty o => word 0#1 0x51#7 ((Opnd.code data) ++ 0#1 ++ addr ++ (Ty.code ty) ++ (MOrd.code o))
  | .lds d addr ty o => word 0#1 0x52#7 ((LDst.code d) ++ addr ++ (Ty.code ty) ++ (MOrd.code o))
  | .sts data addr ty o => word 0#1 0x53#7 ((Opnd.code data) ++ addr ++ (Ty.code ty) ++ (MOrd.code o))
  | .aaddLane d addr v os => word 0#1 0x54#7 (d ++ (LaAddr.code addr) ++ v ++ (Os.code os))
  | .afadd d addr v os => word 0#1 0x55#7 (d ++ (LaAddr.code addr) ++ v ++ (Os.code os))
  | .amin d addr v os => word 0#1 0x56#7 (d ++ (LaAddr.code addr) ++ v ++ (Os.code os))
  | .amaxLane d addr v os => word 0#1 0x57#7 (d ++ (LaAddr.code addr) ++ v ++ (Os.code os))
  | .aminu d addr v os => word 0#1 0x58#7 (d ++ (LaAddr.code addr) ++ v ++ (Os.code os))
  | .amaxu d addr v os => word 0#1 0x59#7 (d ++ (LaAddr.code addr) ++ v ++ (Os.code os))
  | .aand d addr v os => word 0#1 0x5A#7 (d ++ (LaAddr.code addr) ++ v ++ (Os.code os))
  | .aor d addr v os => word 0#1 0x5B#7 (d ++ (LaAddr.code addr) ++ v ++ (Os.code os))
  | .axor d addr v os => word 0#1 0x5C#7 (d ++ (LaAddr.code addr) ++ v ++ (Os.code os))
  | .axchgLane d addr v os => word 0#1 0x5D#7 (d ++ (LaAddr.code addr) ++ v ++ (Os.code os))
  | .acasLane d addr v os => word 0#1 0x5E#7 (d ++ (LaAddr.code addr) ++ v ++ (Os.code os))
  | .sldLane d addr ty pm sn => word 0#1 0x60#7 ((LDst.code d) ++ 0#1 ++ addr ++ (Ty.code ty) ++ pm ++ sn)
  | .sstLane data addr ty sn => word 0#1 0x61#7 ((Opnd.code data) ++ 0#1 ++ addr ++ (Ty.code ty) ++ 0#3 ++ sn)
  | .srankLane d addr pm => word 0#1 0x62#7 ((LDst.code d) ++ 0#1 ++ addr ++ 0#3 ++ pm ++ 0#3)
  | .sanchLane d addr sn => word 0#1 0x63#7 ((LDst.code d) ++ 0#1 ++ addr ++ 0#3 ++ 0#3 ++ sn)
  | .sendLane r ch n row => word 0#1 0x64#7 ((Opnd.code r) ++ ch ++ n ++ (BitVec.ofBool row) ++ 0#7)
  | .recvLane d ch n row => word 0#1 0x65#7 ((LDst.code d) ++ ch ++ n ++ (BitVec.ofBool row) ++ 0#7)
  | .spawn r base det k => word 0#1 0x66#7 ((Opnd.code r) ++ base ++ 0#2 ++ 0#3 ++ (BitVec.ofBool det) ++ k)
  | .saadd d addr ty sn => word 0#1 0x67#7 ((Opnd.code d) ++ 0#1 ++ addr ++ (Ty2.code ty) ++ 0#3 ++ sn)
  | .samin d addr ty sn => word 0#1 0x68#7 ((Opnd.code d) ++ 0#1 ++ addr ++ (Ty2.code ty) ++ 0#3 ++ sn)
  | .samax d addr ty sn => word 0#1 0x69#7 ((Opnd.code d) ++ 0#1 ++ addr ++ (Ty2.code ty) ++ 0#3 ++ sn)
  | .sacas d addr ty sn => word 0#1 0x6A#7 ((Opnd.code d) ++ 0#1 ++ addr ++ (Ty2.code ty) ++ 0#3 ++ sn)
  | .saxchg d addr ty sn => word 0#1 0x6B#7 ((Opnd.code d) ++ 0#1 ++ addr ++ (Ty2.code ty) ++ 0#3 ++ sn)
  | .addUniform d a b => word 1#1 0x00#7 ((UDst.code d) ++ (Opnd.code a) ++ (Opnd.code b))
  | .subUniform d a b => word 1#1 0x01#7 ((UDst.code d) ++ (Opnd.code a) ++ (Opnd.code b))
  | .mulUniform d a b => word 1#1 0x02#7 ((UDst.code d) ++ (Opnd.code a) ++ (Opnd.code b))
  | .mulhUniform d a b => word 1#1 0x03#7 ((UDst.code d) ++ (Opnd.code a) ++ (Opnd.code b))
  | .mulhuUniform d a b => word 1#1 0x04#7 ((UDst.code d) ++ (Opnd.code a) ++ (Opnd.code b))
  | .andUniform d a b => word 1#1 0x05#7 ((UDst.code d) ++ (Opnd.code a) ++ (Opnd.code b))
  | .orUniform d a b => word 1#1 0x06#7 ((UDst.code d) ++ (Opnd.code a) ++ (Opnd.code b))
  | .xorUniform d a b => word 1#1 0x07#7 ((UDst.code d) ++ (Opnd.code a) ++ (Opnd.code b))
  | .andnUniform d a b => word 1#1 0x08#7 ((UDst.code d) ++ (Opnd.code a) ++ (Opnd.code b))
  | .shlUniform d a b => word 1#1 0x09#7 ((UDst.code d) ++ (Opnd.code a) ++ (Opnd.code b))
  | .shrUniform d a b => word 1#1 0x0A#7 ((UDst.code d) ++ (Opnd.code a) ++ (Opnd.code b))
  | .sarUniform d a b => word 1#1 0x0B#7 ((UDst.code d) ++ (Opnd.code a) ++ (Opnd.code b))
  | .minUniform d a b => word 1#1 0x0C#7 ((UDst.code d) ++ (Opnd.code a) ++ (Opnd.code b))
  | .maxUniform d a b => word 1#1 0x0D#7 ((UDst.code d) ++ (Opnd.code a) ++ (Opnd.code b))
  | .minuUniform d a b => word 1#1 0x0E#7 ((UDst.code d) ++ (Opnd.code a) ++ (Opnd.code b))
  | .maxuUniform d a b => word 1#1 0x0F#7 ((UDst.code d) ++ (Opnd.code a) ++ (Opnd.code b))
  | .clzUniform d a => word 1#1 0x10#7 ((UDst.code d) ++ (Opnd.code a) ++ 164#8)
  | .popcUniform d a => word 1#1 0x11#7 ((UDst.code d) ++ (Opnd.code a) ++ 164#8)
  | .bfeUniform d a b => word 1#1 0x12#7 ((UDst.code d) ++ (Opnd.code a) ++ (Opnd.code b))
  | .bfiUniform d a b => word 1#1 0x13#7 ((UDst.code d) ++ (Opnd.code a) ++ (Opnd.code b))
  | .cmpEqUniform d a b => word 1#1 0x14#7 ((UDst.code d) ++ (Opnd.code a) ++ (Opnd.code b))
  | .cmpNeUniform d a b => word 1#1 0x15#7 ((UDst.code d) ++ (Opnd.code a) ++ (Opnd.code b))
  | .cmpLtUniform d a b => word 1#1 0x16#7 ((UDst.code d) ++ (Opnd.code a) ++ (Opnd.code b))
  | .cmpLeUniform d a b => word 1#1 0x17#7 ((UDst.code d) ++ (Opnd.code a) ++ (Opnd.code b))
  | .cmpBloUniform d a b => word 1#1 0x18#7 ((UDst.code d) ++ (Opnd.code a) ++ (Opnd.code b))
  | .cmpBlsUniform d a b => word 1#1 0x19#7 ((UDst.code d) ++ (Opnd.code a) ++ (Opnd.code b))
  | .selUniform d a b => word 1#1 0x1A#7 ((UDst.code d) ++ (Opnd.code a) ++ (Opnd.code b))
  | .moviUniform s imm => word 1#1 0x1B#7 (s ++ imm)
  | .movhiUniform s imm => word 1#1 0x1C#7 (s ++ imm)
  | .addiUniform s imm => word 1#1 0x1D#7 (s ++ imm)
  | .rolUniform d a b => word 1#1 0x1E#7 ((UDst.code d) ++ (Opnd.code a) ++ (Opnd.code b))
  | .br off => word 1#1 0x20#7 (off)
  | .brz c off => word 1#1 0x21#7 ((Opnd.code c) ++ off)
  | .brnz c off => word 1#1 0x22#7 ((Opnd.code c) ++ off)
  | .brp m p off => word 1#1 0x23#7 (0#3 ++ (BrpMode.code m) ++ p ++ off)
  | .call off => word 1#1 0x24#7 (off)
  | .ret => word 1#1 0x25#7 (0#24)
  | .jmpi d a b => word 1#1 0x26#7 ((UDst.code d) ++ (Opnd.code a) ++ (Opnd.code b))
  | .regang => word 1#1 0x27#7 (0#24)
  | .mpush inv p => word 1#1 0x28#7 (0#8 ++ 0#8 ++ 0#4 ++ (BitVec.ofBool inv) ++ p)
  | .mpop => word 1#1 0x29#7 (0#24)
  | .msetp op inv p => word 1#1 0x2A#7 (0#8 ++ 0#8 ++ 0#2 ++ (MsetOp.code op) ++ (BitVec.ofBool inv) ++ p)
  | .melse => word 1#1 0x2B#7 (0#24)
  | .loop c off => word 1#1 0x2C#7 ((Opnd.code c) ++ off)
  | .yield => word 1#1 0x2D#7 (0#24)
  | .exit => word 1#1 0x2E#7 (0#24)
  | .nop => word 1#1 0x2F#7 (0#24)
  | .ldUniform d addr ty o => word 1#1 0x30#7 ((UDst.code d) ++ addr ++ (Ty.code ty) ++ (MOrd.code o) ++ 0#2)
  | .stUniform data addr ty o => word 1#1 0x31#7 ((Opnd.code data) ++ addr ++ (Ty.code ty) ++ (MOrd.code o) ++ 0#2)
  | .aaddUniform d addr ty o => word 1#1 0x32#7 ((UDst.code d) ++ addr ++ (Ty2.code ty) ++ (AOrd.code o) ++ 0#2)
  | .acasUniform d addr ty o => word 1#1 0x33#7 ((UDst.code d) ++ addr ++ (Ty2.code ty) ++ (AOrd.code o) ++ 0#2)
  | .axchgUniform d addr ty o => word 1#1 0x34#7 ((UDst.code d) ++ addr ++ (Ty2.code ty) ++ (AOrd.code o) ++ 0#2)
  | .amaxUniform d addr ty o => word 1#1 0x35#7 ((UDst.code d) ++ addr ++ (Ty2.code ty) ++ (AOrd.code o) ++ 0#2)
  | .fence sc k => word 1#1 0x36#7 (0#8 ++ 0#8 ++ 0#3 ++ (Scope.code sc) ++ (FenceKind.code k))
  | .waitc a sel => word 1#1 0x37#7 ((Opnd.code a) ++ 0#8 ++ 0#3 ++ sel)
  | .monarm data addr ty => word 1#1 0x38#7 ((Opnd.code data) ++ addr ++ (Ty2.code ty) ++ 0#6 ++ 0#2)
  | .monwait d ty o => word 1#1 0x39#7 ((UDst.code d) ++ 0#5 ++ (Ty2.code ty) ++ (AOrd.code o) ++ 0#2)
  | .barinit a b => word 1#1 0x3A#7 ((Opnd.code a) ++ (Opnd.code b) ++ 0#8)
  | .bararv a b => word 1#1 0x3B#7 ((Opnd.code a) ++ (Opnd.code b) ++ 0#8)
  | .barexp a b => word 1#1 0x3C#7 ((Opnd.code a) ++ (Opnd.code b) ++ 0#8)
  | .barwait a b => word 1#1 0x3D#7 ((Opnd.code a) ++ (Opnd.code b) ++ 0#8)
  | .tlwait tc x => word 1#1 0x3E#7 (tc ++ 0#6 ++ 0#6 ++ (Opnd.code x))
  | .tlqry tc d => word 1#1 0x3F#7 (tc ++ 0#6 ++ 0#6 ++ (UDst.code d))
  | .tdef h n => word 1#1 0x40#7 (0#4 ++ h ++ 0#6 ++ 0#3 ++ n)
  | .copy tc hd hs stamp bar link n => word 1#1 0x41#7 (tc ++ hd ++ hs ++ (BitVec.ofBool stamp) ++ (BitVec.ofBool bar) ++ (BitVec.ofBool link) ++ n)
  | .copym tc hd hs bar link n => word 1#1 0x42#7 (tc ++ hd ++ hs ++ 0#1 ++ (BitVec.ofBool bar) ++ (BitVec.ofBool link) ++ n)
  | .copys tc hd hs n => word 1#1 0x43#7 (tc ++ hd ++ hs ++ 0#3 ++ n)
  | .copyr tc hd hs n => word 1#1 0x44#7 (tc ++ hd ++ hs ++ 0#3 ++ n)
  | .mload tc h n => word 1#1 0x45#7 (tc ++ h ++ 0#6 ++ 0#3 ++ n)
  | .mswap tc mask => word 1#1 0x46#7 (tc ++ 0#6 ++ 0#6 ++ 0#4 ++ mask)
  | .mmul tc hd hs n => word 1#1 0x47#7 (tc ++ hd ++ hs ++ 0#3 ++ n)
  | .accz tc h => word 1#1 0x48#7 (tc ++ h ++ 0#6 ++ 0#8)
  | .accdrn tc hd hs z n => word 1#1 0x49#7 (tc ++ hd ++ hs ++ 0#2 ++ (BitVec.ofBool z) ++ n)
  | .accmov st reg x => word 1#1 0x4A#7 (0#4 ++ (BitVec.ofBool st) ++ reg ++ 0#6 ++ (Opnd.code x))
  | .attn tc hd hs n => word 1#1 0x4B#7 (tc ++ hd ++ hs ++ 0#3 ++ n)
  | .histrd h bin d => word 1#1 0x4C#7 (0#4 ++ h ++ 0#1 ++ bin ++ (UDst.code d))
  | .histclr tc h => word 1#1 0x4D#7 (tc ++ h ++ 0#6 ++ 0#8)
  | .snew a b n => word 1#1 0x50#7 ((Opnd.code a) ++ (Opnd.code b) ++ 0#3 ++ n)
  | .sfree a => word 1#1 0x51#7 ((Opnd.code a) ++ 0#8 ++ 0#8)
  | .slen a n => word 1#1 0x52#7 ((Opnd.code a) ++ 0#8 ++ 0#3 ++ n)
  | .sins a b z n => word 1#1 0x53#7 ((Opnd.code a) ++ (Opnd.code b) ++ 0#2 ++ (BitVec.ofBool z) ++ n)
  | .sdel a b n => word 1#1 0x54#7 ((Opnd.code a) ++ (Opnd.code b) ++ 0#3 ++ n)
  | .ssplit a b n => word 1#1 0x55#7 ((Opnd.code a) ++ (Opnd.code b) ++ 0#3 ++ n)
  | .scat a b share => word 1#1 0x56#7 ((Opnd.code a) ++ (Opnd.code b) ++ 0#2 ++ (BitVec.ofBool share) ++ 0#5)
  | .sgap a b n => word 1#1 0x57#7 ((Opnd.code a) ++ (Opnd.code b) ++ 0#3 ++ n)
  | .sapnd a n => word 1#1 0x58#7 ((Opnd.code a) ++ 0#8 ++ 0#3 ++ n)
  | .sclose a => word 1#1 0x59#7 ((Opnd.code a) ++ 0#8 ++ 0#8)
  | .srankUniform a pm n => word 1#1 0x5A#7 ((Opnd.code a) ++ 0#8 ++ pm ++ n)
  | .sanchUniform a b n => word 1#1 0x5B#7 ((Opnd.code a) ++ (Opnd.code b) ++ 0#3 ++ n)
  | .sldUniform d addr ty pm sn => word 1#1 0x5C#7 ((UDst.code d) ++ addr ++ (Ty.code ty) ++ pm ++ sn ++ 0#2)
  | .sstUniform data addr ty sn => word 1#1 0x5D#7 ((Opnd.code data) ++ addr ++ (Ty.code ty) ++ 0#3 ++ sn ++ 0#2)
  | .sendUniform r ch n => word 1#1 0x60#7 ((Opnd.code r) ++ ch ++ n ++ 0#8)
  | .recvUniform d ch n => word 1#1 0x61#7 ((UDst.code d) ++ ch ++ n ++ 0#8)
  | .get r ch n p => word 1#1 0x62#7 ((Opnd.code r) ++ ch ++ n ++ 0#5 ++ p)
  | .put r ch n eos => word 1#1 0x63#7 ((Opnd.code r) ++ ch ++ n ++ 0#7 ++ (BitVec.ofBool eos))
  | .knot g h => word 1#1 0x64#7 (g ++ h ++ 0#8)
  | .skfold d a => word 1#1 0x65#7 ((UDst.code d) ++ (Opnd.code a) ++ 0#8)
  | .skspread d a => word 1#1 0x66#7 ((UDst.code d) ++ (Opnd.code a) ++ 0#8)
  | .skqry d a => word 1#1 0x67#7 ((UDst.code d) ++ (Opnd.code a) ++ 0#8)
  | .launch a => word 1#1 0x68#7 ((Opnd.code a) ++ 0#8 ++ 0#8)
  | .suspend k => word 1#1 0x69#7 (Susp.code k)
  | .lqry d a => word 1#1 0x6A#7 ((UDst.code d) ++ (Opnd.code a) ++ 0#8)
  | .srd s reg idx => word 1#1 0x70#7 (s ++ (SysReg.code reg) ++ idx)
  | .swr s reg idx => word 1#1 0x71#7 (s ++ (SysReg.code reg) ++ idx)
  | .trap imm => word 1#1 0x72#7 (imm)
  | .tret => word 1#1 0x73#7 (0#24)
  | .brk imm => word 1#1 0x74#7 (imm)
  | .railsGood => none
  | .fullReset _ => none
  | .recoveryImage _ => none
  | .firmwareUpdate _ _ => none
  | .throttleEvaluation _ _ => none
  | .thermtrip _ _ => none
  | .thstatTrippedClear _ _ => none
  | .flitReceive _ _ => none
  | .replayRequest _ _ => none
  | .portRetrain _ => none
  | .portTrainingDone _ _ => none
  | .boundaryRetrain _ => none
  | .boundaryTrainingDone _ _ => none
  | .diePacketArrival _ _ => none
  | .vectorAnnounce _ => none
  | .remoteWriteApply _ _ => none
  | .remoteReadPerform _ _ => none
  | .readResponseArrival _ => none
  | .gpqctlQuiesce _ => none
  | .gpqctlResume _ => none
  | .portQuiesceDone _ => none
  | .grtabWrite _ _ _ => none
  | .packetWrite _ _ => none
  | .packetRead _ _ => none
  | .packetAtomic _ _ => none
  | .packetSignal _ _ => none
  | .signalApply _ => none
  | .reduceContribution _ => none
  | .localReduceCombine _ => none
  | .ackResponse _ => none
  | .atomresResponse _ => none
  | .errorResponse _ => none
  | .lockInterfaceRequest _ _ => none
  | .getDeviceInterfaceReport _ => none
  | .startInterfaceRequest _ => none
  | .stopInterfaceRequest _ => none
  | .stopScrubDone _ => none
  | .lockedRegisterWrite _ _ _ => none
  | .ideIntegrityFailure _ => none
  | .spdmMeasurements _ => none
  | .launchRecordWrite _ _ _ _ _ => none
  | .lwcfgWrite _ _ _ => none
  | .systemRegisterWrite _ => none
  | .tepcWrite _ _ _ => none
  | .tlbinvWrite _ _ => none
  | .htlbinvWrite _ _ => none
  | .tlbinvComplete _ => none
  | .translationWalk _ _ _ => none
  | .shdiscWrite _ _ => none
  | .skreqReel _ _ => none
  | .skreqUnreel _ _ => none
  | .skreqExport _ _ => none
  | .worldMoveRequest _ _ => none
  | .worldMoveComplete _ => none
  | .queueAgeTimer _ _ => none
  | .placeBlock _ _ => none
  | .timeSliceBoundary _ => none
  | .usedUpdate _ => none
  | .gridCompletion _ => none
  | .scrubComplete _ => none
  | .freezeRequest _ _ => none
  | .drainComplete _ => none
  | .sheafSaveDone _ => none
  | .sheafRestore _ _ _ => none
  | .sheafRestoreDone _ => none
  | .debugResume _ _ => none
  | .debugSaveRequest _ => none
  | .debugScanAccess _ _ => none
  | .binTimerExpiry _ _ => none
  | .binFormGang _ _ => none
  | .binStoreDeadlock _ => none
  | .monitorWatchFire _ _ => none
  | .monitorPoll _ _ => none
  | .suspendDelayExpiry _ _ => none
  | .logEntryComplete _ _ _ _ => none
  | .trapEntry _ _ => none
  | .impreciseReportTaken _ _ => none
  | .tileStateError _ _ _ => none
  | .dataError _ => none
  | .correctedError _ => none
  | .patrolScrub _ _ => none
  | .engineCommandComplete _ _ => none
  | .barrierByteCount _ _ _ => none
  | .linkedStart _ _ => none
  | .strandOpApply _ _ => none
  | .strandResponse _ => none
  | .channelItemArrival _ _ _ => none
  | .distributorReelRequest _ _ => none
  | .stageGangPlace _ _ _ _ => none
  | .skeinGatherDone _ _ => none
  | .skeinCopyDone _ _ => none
  | .skeinUnreelAtKnot _ _ => none
  | .skeinExportAtKnot _ _ => none
  | .skeinSwitchTimeout _ _ => none
  | .railsRemoved => none
  | .freedSlotNoticeArrival _ _ _ => none
  | .distributorUnreelRequest _ _ => none

/-- The four bytes of a word as they lie in memory, lowest address first (R5, R220). -/
def wordBytes (w : W32) : List Byte :=
  [w.extractLsb' 0 8, w.extractLsb' 8 8, w.extractLsb' 16 8, w.extractLsb' 24 8]

/-- The word four little-endian bytes hold (R5). -/
def bytesWord : List Byte → Option W32
  | [a, b, c, d] => some (d ++ (c ++ (b ++ a)))
  | _ => none

/-- The instruction the decoder reads from an instruction whose bits are w, bit 0 the least significant (the host's name). -/
def decodeTableWord (_nbits w : Nat) : Option Instr :=
  match bytesWord (wordBytes (BitVec.ofNat 32 w)) with
  | some x => (decode x).toOption
  | none => none

end Sys2Proof
end

