-- ==== Sys2Proof/Machine/KMap.lean ====
section
/-!
DEFINITION. Sparse data by a natural key: a list of pairs kept in rising order of key, with the plain operations.
-/
namespace Sys2Proof.Machine

/-- Data by key. -/
abbrev KMap (α : Type) := List (Nat × α)

/-- The entry of key k. -/
def kget {α : Type} : KMap α → Nat → Option α
  | [], _ => none
  | (j, v) :: m, k => if j = k then some v else kget m k

/-- The entry of key k, or a default. -/
def kgetD {α : Type} (m : KMap α) (k : Nat) (d : α) : α := (kget m k).getD d

/-- Sets the entry of key k, keeping rising order. -/
def kset {α : Type} : KMap α → Nat → α → KMap α
  | [], k, v => [(k, v)]
  | (j, w) :: m, k, v =>
    if j = k then (k, v) :: m
    else if k < j then (k, v) :: (j, w) :: m
    else (j, w) :: kset m k v

/-- Removes the entry of key k. -/
def kdel {α : Type} : KMap α → Nat → KMap α
  | [], _ => []
  | (j, w) :: m, k => if j = k then kdel m k else (j, w) :: kdel m k

/-- The keys in order. -/
def kkeys {α : Type} (m : KMap α) : List Nat := m.map (·.1)

/-- The values in order of key. -/
def kvals {α : Type} (m : KMap α) : List α := m.map (·.2)

/-- Applies f to every value. -/
def kmap {α : Type} (m : KMap α) (f : Nat → α → α) : KMap α := m.map fun (k, v) => (k, f k v)

/-- Keeps the entries that satisfy p. -/
def kfilter {α : Type} (m : KMap α) (p : Nat → α → Bool) : KMap α := m.filter fun (k, v) => p k v

/-- The lowest number not among the keys, searched below n. -/
def kfree {α : Type} (m : KMap α) (n : Nat) : Option Nat := (List.range n).find? fun k => (kget m k).isNone

/-- Inserts a number into a rising list. -/
def insNat (n : Nat) : List Nat → List Nat
  | [] => [n]
  | m :: l => if n ≤ m then n :: m :: l else m :: insNat n l

/-- The numbers of a list in rising order. -/
def sortNat (l : List Nat) : List Nat := l.foldl (fun a n => insNat n a) []

end Sys2Proof.Machine
end

