-- ==== Sys2Proof/Machine/State.lean ====
section
/-!
DEFINITION. The state of the DX-8, as plain data: everything the spec gives the machine (INVENTORY.md, State), the
reasons a step can stop, and the state after reset.
-/
namespace Sys2Proof.Machine

/-- What a register that no write has reached reads: zero, or the free values of a seed (log 6). -/
inductive Fill where
  | zero
  | free (seed : Nat)
  deriving DecidableEq, Repr

/-- One lane (R104, R225, R228, R229): registers written, predicates (bit k is pk), the results produced since the
run began (newest first, at most four), its %gang, and the ring saved at trap entry (R207). `bad` names the registers that a
restore left poisoned (R96). -/
structure Lane where
  v : KMap W32
  fill : Fill
  p : Byte
  ring : List W32
  gangIx : Nat
  svRing : List W32
  bad : List Nat
  deriving DecidableEq, Repr

/-- The monitor of a slice (R295): the location, its width, the comparand and the condition. -/
structure Monitor where
  pa : Nat
  va : Word
  ty : Ty2
  cmp : Word
  cond : BitVec 2
  deriving DecidableEq, Repr

/-- How far one access of a log entry has come (R131, R132). -/
inductive AccState where
  | pending
  | done
  | faulted (group : Nat) (code : Byte) (datum : Word)
  deriving DecidableEq, Repr

/-- One access of a log entry: its lane within the gang (none for a uniform instruction), its address or rank word,
and the data it carries. For a load, `mask` marks the bytes of `data` that the commit buffer supplied (R133, R165);
`pr` is the predicate a strand access gives. -/
structure Access where
  lane : Option Nat
  addr : Word
  data : BitVec 128
  mask : BitVec 16
  pr : Bool
  st : AccState
  deriving DecidableEq, Repr

/-- An entry of a slice's operand log (R131): its slot, the instruction, the stamp that names the instruction, and its
accesses in lane order. `strand` is the strand identifier or cursor the instruction named, `args` its other operands,
`act` the slice's active lanes when it issued. -/
structure LogEntry where
  slot : Nat
  seq : Nat
  i : Instr
  strand : W32
  args : List Word
  act : BitVec 4
  accs : List Access
  deriving DecidableEq, Repr

/-- One slice (R103, R104, R105, R204, R257); `bad` names the uniform registers that a restore left poisoned (R96). -/
structure Slice where
  pos : Nat
  mask : BitVec 4
  live : BitVec 4
  stack : List (BitVec 4)
  s : KMap Word
  fill : Fill
  lanes : List Lane
  tcause : Word
  tepc : Word
  tdet0 : W32
  tdet1 : W32
  tdet2 : W32
  tscr0 : Word
  tscr1 : Word
  tscr2 : Word
  tscr3 : Word
  svDepth : Nat
  log : List LogEntry
  monitor : Option Monitor
  knotCount : Nat
  bad : List Nat
  deriving DecidableEq, Repr

/-- What a park recorded for its re-execution (R301, R357, R359). -/
inductive Resume where
  | launch (addr : Word)
  | tlwait (n : W32)
  | suspend
  | monwait
  deriving DecidableEq, Repr

/-- A report of group 13, 14 or 19 held for a sub-gang (R209, R210). -/
structure Report where
  group : Nat
  code : Byte
  datum : Word
  deriving DecidableEq, Repr

/-- A sub-gang: the slices that issue together (R106), with the program counter and run depth (R230). `regang` is the
address of the REGANG it waits at (R107). `issued`, `stall`, `yield` and `binWait` are the sequencer's (log 8). -/
structure Sub where
  gang : Nat
  pc : Word
  depth : Nat
  slices : KMap Slice
  regang : Option Word
  resume : Option Resume
  svResume : Option Resume
  bpSkip : Option Nat
  reports : List Report
  issued : Nat
  stall : Option Nat
  yield : Option Nat
  binWait : Option Nat
  deriving DecidableEq, Repr

/-- What a gang is (R107, R109, R114, R174). -/
inductive GangKind where
  | placed
  | formed
  | stage (part sk stage : Nat)
  | folded (part sk : Nat)
  deriving DecidableEq, Repr

/-- Retry states (R215, R365). -/
inductive RState where
  | never | run | retry | lasting | nonretry
  deriving DecidableEq, Repr

/-- A write held in the commit buffer (R133, R165); a store with its virtual address, and the fabric address it had when it was
held. -/
inductive Held where
  | store (lane : Option Nat) (va : Word) (fa : Nat) (bytes : List Byte)
  | sst (i : Instr) (strand : W32) (lanes : List (Option Nat × Word × BitVec 128))
  | sapnd (cursor : W32) (n : Nat) (bytes : List Byte)
  deriving DecidableEq, Repr

/-- Where a retry resumes (R212): the initial state of R58, or the bin-store slots of the continuations it began from,
by position. -/
inductive RetryPoint where
  | lapsed
  | initial
  | conts (slots : List (Option Nat))
  deriving DecidableEq, Repr

/-- The retry state of a gang with its commit-buffer share (R133, R212, R215). `late` is the oldest held write that failed
when the buffer issued it: group, CODE, LANE, datum (R383). -/
structure Retry where
  st : RState
  attempts : Nat
  share : Bool
  held : List Held
  point : RetryPoint
  late : Option (Nat × Byte × Byte × Word)
  deriving DecidableEq, Repr

/-- An original gang (R107). `total` counts its slices at formation; `bud` is the exhaustion it last reported (R210). `rebin`
names the tile it failed on while its retry point waits for a bin (R213, R214). -/
structure Gang where
  ctx : Nat
  kind : GangKind
  ix : Nat
  feeder : Bool
  detached : Bool
  total : Nat
  retry : Retry
  bud : Nat
  rebin : Option Nat
  deriving DecidableEq, Repr

/-- A timeline counter (R151): issue count, completion value, and the numbers completed beyond it. -/
structure Timeline where
  issue : W32
  compl : W32
  ahead : List W32
  deriving DecidableEq, Repr

/-- A tensor descriptor (R310). -/
structure TDesc where
  w0 : Word
  w1 : Word
  w2 : Word
  w3 : Word
  deriving DecidableEq, Repr

/-- A block channel (R342): kind, item width in words, entries head first. -/
structure Chan where
  row : Bool
  width : Nat
  entries : List (List W32)
  deriving DecidableEq, Repr

/-- A launch record (R56). -/
structure LRecord where
  entry : Word
  handler : Word
  args : Word
  region : Word
  compl : Word
  edge : Word
  geom : Word
  flags : Word
  deriving DecidableEq, Repr

/-- Why a word of a tile is poisoned: a line of memory that an engine derived it from (R211), or a sheaf that brought it (R96). -/
inductive Mark where
  | line (pa : Nat)
  | sheaf
  deriving DecidableEq, Repr

/-- A taken slot of a pending-launch queue (R116): the grid it started and its TAG. -/
structure PendSlot where
  grid : Nat
  tag : BitVec 16
  deriving DecidableEq, Repr

/-- A block resident in a context of a tile (R109, R111). `peers` lists the tile and context of each position of its
cluster group (R119). `proxy` names the owning block of a context that a stage gang takes (R188). -/
structure Block where
  uid : Nat
  grid : Nat
  index : Nat
  rcd : LRecord
  vf : Nat
  world : Bool
  part : Nat
  prio : Nat
  gangs : Nat
  slices : Nat
  vregs : Nat
  feeder : Nat
  peers : List (Nat × Nat)
  pos : Nat
  spad : List Host.Cell
  spadFill : Fill
  spadPoison : KMap Mark
  tcs : KMap Timeline
  handles : KMap TDesc
  hist : KMap (KMap W32)
  chans : KMap Chan
  pend : List PendSlot
  launches : BitVec 16
  tctl : Word
  reports : List Report
  corrected : Nat
  skein : Option Nat
  lastSkein : Option Word
  begun : Bool
  proxy : Option Nat
  deriving DecidableEq, Repr

/-- What a continuation waits for (R84, R113, R359). -/
inductive Cond where
  | none
  | slot
  | monitor
  | timeline (tc : BitVec 4) (n : W32)
  | delay (us : Nat)
  deriving DecidableEq, Repr

/-- Where a continuation stands in the bin store (R84, R212); `since` orders those that wait for a bin (R87). -/
inductive ContAt where
  | waiting (c : Cond) (watched : Bool)
  | ready (since : Nat)
  | bin (b : Nat)
  | retry (gang : Nat)
  deriving DecidableEq, Repr

/-- A continuation (R112, R113): entry, block and grid, registers, its run (a park or a SPAWN) and its place in it. For a
park run, `slice` is the slice's order in the run and the masks, feeder right and monitor are that slice's. `bad` names the
poisoned registers (R96). -/
structure Cont where
  entry : Word
  ctx : Nat
  uid : Nat
  grid : Nat
  detached : Bool
  park : Bool
  run : Nat
  slice : Nat
  lane : Nat
  regs : KMap W32
  fill : Fill
  bad : List Nat
  gangIx : Nat
  mask : BitVec 4
  live : BitVec 4
  stack : List (BitVec 4)
  feeder : Bool
  monitor : Option Monitor
  resume : Option Resume
  place : ContAt
  deriving DecidableEq, Repr

/-- Bin states (R84). -/
inductive BinState where
  | filling (deadline : Nat)
  | ready (since : Nat)
  deriving DecidableEq, Repr

/-- A bin in use (R84): its key, and its positions in order: a bin-store slot, or none where skipped. `retry` names the gang
whose retry point it holds (R213). -/
structure Bin where
  entry : Word
  uid : Nat
  grid : Nat
  detached : Bool
  retry : Option Nat
  st : BinState
  pos : List (Option Nat)
  deriving DecidableEq, Repr

/-- A translation held by a TLB or a die translation unit (R129): one two-stage translation of one page, with the
intermediate address the partition stage gave. -/
structure TlbEntry where
  vf : Nat
  va : Nat
  ia : Nat
  size : Nat
  out : Nat
  r : Bool
  w : Bool
  x : Bool
  deriving DecidableEq, Repr

/-- The stationary planes of one quadrant (R323): format, depth, panel, KB0, the MLOAD that wrote them and its set, and
the bytes of rows with their panel scales, and the rows that derive from a poisoned byte (R211). -/
structure Plane where
  load : Nat
  set : Nat
  fmt : Nat
  kb0 : Nat
  panel : Nat
  rows : List (List Byte)
  scales : List (List (BitVec 16))
  bad : KMap Mark
  deriving DecidableEq, Repr

/-- An accepted engine command (R306, R307): the block, the counter and number, the command, its descriptors and parameter
registers, the pages translated at issue, ATTN's record, and the copies it waits for. `phase` is 0 while it reads at
other nodes (for a held MMUL or ATTN, before it starts), 1 before its payload is written, 2 once it is, and 3 once its
stamp or count is under way too; `pos` counts the packets sent in the phase, `counted` the bytes counted on its barrier, `lost` says that a byte of it
was not performed (R152), `wait` names what is not yet answered, `got` the
bytes read from other nodes, `bad` marks a poisoned record, `seed` names its free values. -/
structure EngCmd where
  id : Nat
  uid : Nat
  vf : Nat
  world : Bool
  tc : BitVec 4
  num : W32
  cmd : Instr
  d1 : TDesc
  d2 : TDesc
  par : List Word
  pages : List (Nat × Nat)
  aux : List Byte
  bad : Option Mark
  links : List Nat
  phase : Nat
  pos : Nat
  counted : Nat
  lost : Bool
  wait : List Nat
  got : KMap Byte
  seed : Nat
  deriving DecidableEq, Repr

/-- An entry of a rank cache (R163): a range of ranks of a strand, the pool segment it lies in, and the edit generation. -/
structure RankEntry where
  part : Nat
  strand : W32
  lo : Nat
  n : Nat
  seg : Nat
  gen : W32
  deriving DecidableEq, Repr

/-- A read response, an acknowledgement or a loss on its way to the access that waits for it (R146, R90). `lane` is the
lane's index, none for a uniform instruction; `pr` is the predicate of a strand access and `strand` marks the answer of a
strand unit; `fill` is the line an L1 fill brings (R124), `rank` the entry a rank cache fill brings (R163); `bad` is the cause the access raises: group, CODE, DATUM. -/
structure Resp where
  die : Nat
  tile : Nat
  seq : Nat
  lane : Option Nat
  data : BitVec 128
  pr : Bool
  strand : Bool
  obs : Option (List W32)
  fill : Option (Nat × List Byte)
  rank : Option RankEntry
  bad : Option (Nat × Byte × Word)
  deriving DecidableEq, Repr

/-- An entry of a return log (R90): an answer to an access, or one to an engine command: the request's name, the bytes it
brings, and the cause it reports. -/
inductive LogItem where
  | access (r : Resp)
  | engine (id name : Nat) (got : List (Nat × Byte)) (bad : Option (Nat × Byte × Nat))
  deriving DecidableEq, Repr

/-- Tile sheaf states (R101). -/
inductive TMode where
  | run
  | drain (kind : FreezeKind) (imageHeld : Bool)
  | save
  | halt (savePending : Bool)
  | load (slot : Nat) (deferred : Option FreezeKind)
  | vacant
  deriving DecidableEq, Repr

/-- A tile (R89 to R134, R306, R323). `fusec` and `vcout` are the DUSEC and the requests outstanding at its last freeze (R95). -/
structure Tile where
  mode : TMode
  vf : Nat
  world : Bool
  scrub : Bool
  scrubbed : Bool
  blocks : KMap Block
  gangs : KMap Gang
  subs : KMap Sub
  conts : KMap Cont
  bins : KMap Bin
  acc : KMap W32
  accPoison : KMap Mark
  active : KMap Plane
  shadow : KMap Plane
  bpc : KMap Word
  l1 : KMap (List Byte)
  icache : KMap W32
  tlb : List TlbEntry
  ranks : List RankEntry
  copyQ : List EngCmd
  arrayQ : List EngCmd
  links : KMap (List Nat)
  retlog : List LogItem
  carry : Option (List W32)
  fusec : Word
  vcout : List Nat
  deriving DecidableEq, Repr

/-- A strand request (R157, R335 to R341): what a strand instruction asks of the home strand unit. `args` holds the rank,
count or second operand; `bytes` the source bytes. -/
structure StrandReq where
  tile : Nat
  seq : Nat
  part : Nat
  world : Bool
  i : Instr
  strand : W32
  args : List Word
  bytes : List Byte
  lanes : List (Option Nat × Word × BitVec 128)
  deriving DecidableEq, Repr

/-- What a packet between dies carries (R145, R146). -/
inductive Body where
  | write (pa : Nat) (bytes : List Byte)
  | atomic (pa : Nat) (op : Nat) (w : Nat) (y z : Word)
  | signal (pa : Nat) (inc : Word) (held : Nat)
  | read (pa : Nat) (n : Nat) (line : Bool)
  | strand (r : StrandReq)
  | announce (n : W32)
  deriving DecidableEq, Repr

/-- A packet between dies, or to the host die (entry 4): its number on its path (R19), the carried vector, its body, the access
that waits for it, and the world of its agent (R49). `flow` is the fabric packet that came in through a port and is to be
answered; `shut` marks one that reached its home while its granule was closed (R50). -/
structure Msg where
  src : Nat
  dst : Nat
  num : Nat
  vec : List W32
  own : W32
  body : Body
  tile : Nat
  seq : Nat
  lane : Option Nat
  flow : Option Packet
  world : Bool
  shut : Bool
  deriving DecidableEq, Repr

/-- One die, and the host die as entry 4 (R12, R16, R145, R219, R29, R129). `frac` counts the tile cycles of the microsecond
under way, `outq` holds what has not yet left the die (R24, R145). -/
structure Die where
  dcyc : Word
  frac : Nat
  dusec : Word
  thstat : Word
  vec : List W32
  known : List W32
  applied : List W32
  observed : List W32
  sendNo : KMap Nat
  recvNo : KMap Nat
  outq : List Msg
  inbox : List Msg
  errcnt : Word
  grtab : KMap Byte
  grstat : Word
  dtu : List TlbEntry
  deriving DecidableEq, Repr

/-- A flit a sender keeps until it is acknowledged (R24). -/
structure KeptFlit where
  fseq : BitVec 12
  bytes : List Byte
  deriving DecidableEq, Repr

/-- A link with flits and replay (R18, R21 to R25): GPSTAT or DLSTAT, QUIESCE, and the link layer. `tx` holds packet bytes
that fill no flit yet (R30), `carried` names the request, reduce and signal packets not yet answered (R29). -/
structure Port where
  stat : Word
  quiesce : Bool
  txNext : BitVec 12
  kept : List KeptFlit
  rxNext : BitVec 12
  replayFrom : BitVec 12
  replayRun : Nat
  resend : List KeptFlit
  wantReplay : Option (BitVec 12)
  tx : List Byte
  rx : List Byte
  carried : List Nat
  deriving DecidableEq, Repr

/-- Who waits for the answer to a packet (R25, R206); for a REDUCE the tile, command and name of each contribution it
combines. -/
inductive Owner where
  | access (tile seq : Nat) (lane : Option Nat)
  | engine (tile id : Nat)
  | reduce (who : List (Nat × Nat × Nat))
  | grid (g : Nat)
  | none
  deriving DecidableEq, Repr

/-- A request an NI has outstanding (R91): its name, NI, packet and owner; whether it has left by a port. -/
structure Out where
  id : Nat
  die : Nat
  ni : Nat
  pk : Packet
  port : Option Nat
  owner : Owner
  deriving DecidableEq, Repr

/-- A signal held at its destination (R33), or a signal or reduce still to be sent. -/
structure HeldSignal where
  port : Nat
  pk : Packet
  deriving DecidableEq, Repr

/-- A reduce operation at a switch (R35, R38): its contributions in order of arrival, and whether it has failed. -/
structure ReduceOp where
  dnode : BitVec 10
  rgroup : BitVec 16
  addr : BitVec 42
  epoch : BitVec 16
  contribs : List Packet
  failed : Bool
  deriving DecidableEq, Repr

/-- A contribution of this package to a reduce operation (R37): its tile, the command that sent it, its name, its packet,
and how many contributions the package combines. -/
structure LocalContrib where
  tile : Nat
  id : Nat
  name : Nat
  pk : Packet
  need : Nat
  deriving DecidableEq, Repr

/-- TDISP states (R53). -/
inductive TdState where
  | unlocked | locked | run | error
  deriving DecidableEq, Repr

/-- A launch window (R59). -/
structure Window where
  free : BitVec 7
  depth : BitVec 7
  cap : BitVec 3
  accepted : W32
  drops : BitVec 16
  rejects : Byte
  lasterr : BitVec 4
  deriving DecidableEq, Repr

/-- The interface report (R53): the interface flags, the one MMIO range, and the rest. -/
structure TdReport where
  noPeerToPeer : Bool
  dmaCarriesT : Bool
  mmioBase : Word
  mmioSize : Nat
  msixControl : BitVec 16
  part : Nat
  fields : BitVec 16
  node : BitVec 10
  world : Bool
  deriving DecidableEq, Repr

/-- A virtual function (R41, R53 to R55, R59, R128). -/
structure Vf where
  td : TdState
  bar : Word
  memEnable : Bool
  msixControl : BitVec 16
  msix : KMap (BitVec 128)
  keyed : Bool
  report : Option TdReport
  stopScrub : Bool
  windows : KMap Window
  hsroot : Word
  deriving DecidableEq, Repr

/-- Where a record's slot is held (R61, R116, R69). -/
inductive Origin where
  | window (vf w : Nat)
  | pend (uid : Nat)
  | edge (vf : Nat) (va : Word)
  deriving DecidableEq, Repr

/-- Effective values of a region (R64, R65), the control blocks of its path from the region to the root, and whether the
region was exhausted when they were read (R66). -/
structure Eff where
  prio : Nat
  age : Nat
  world : Bool
  fdp : Byte
  path : List (Word × Nat)
  exhausted : Bool
  deriving DecidableEq, Repr

/-- A record waiting in a region queue (R72). `secure` says whether its submitter may launch secure work (R57, check 8); `vec` is
the vector its acceptance acquires (R62, R69). -/
structure Rec where
  grid : Nat
  r : LRecord
  origin : Origin
  vf : Nat
  secure : Bool
  sameWorld : Option Bool
  cap : Nat
  stamp : Nat
  vec : List W32
  deriving DecidableEq, Repr

/-- Region queue states (R72); EMPTY is a queue with no record. -/
inductive QState where
  | waiting | held | placing | exhausted
  deriving DecidableEq, Repr

/-- A region queue (R72): the function and address that name the region, its records head first, level and age timer;
`used` is the slice-microseconds not yet added to USED (R66), `reserve` says since when its cooperative head reserves
(R74, R77). -/
structure Queue where
  vf : Nat
  region : Word
  st : QState
  recs : List Rec
  level : Nat
  since : Nat
  eff : Option Eff
  exhaustions : Nat
  used : Nat
  reserve : Option Nat
  deriving DecidableEq, Repr

/-- A grid whose placement has begun (R67, R76, R217). -/
structure Grid where
  part : Nat
  queue : Nat
  rcd : Rec
  world : Bool
  prio : Nat
  fdp : Byte
  placed : Nat
  ended : Nat
  unrec : Bool
  withdrawn : Bool
  slotHeld : Bool
  deriving DecidableEq, Repr

/-- A sheaf in a slot of a sheaf store (R94 to R97): the header's fields that are not the image's own, the outbound queue, and
the image. `held` lists the consuming endpoints with HELD and ADV. -/
structure Sheaf where
  complete : Bool
  restoring : Bool
  crcOk : Bool
  magicOk : Bool
  part : Nat
  src : Nat
  rev : W32
  fusec : Word
  vsnap : List W32
  poison : Bool
  held : List (Nat × Nat × Nat)
  outs : List Out
  image : Tile
  deriving DecidableEq, Repr

/-- An element of a strand: its own name (for anchors and cursors), its bytes, and whether it is poisoned (R168). -/
structure Elem where
  uid : Nat
  bytes : List Byte
  poison : Bool
  deriving DecidableEq, Repr

/-- A strand (R154, R155, R163): its elements; the pool segments they lie in, in order, each with how many of them it holds,
in its slots from the first on; the segments of its interior nodes, or the one of an empty strand; and the elements SDEL has
taken from it, whose anchors end with it (R160). -/
structure Strand where
  home : Nat
  esize : Nat
  elems : List Elem
  segs : List (Nat × Nat)
  nodes : List Nat
  gone : List Nat
  editGen : W32
  deriving DecidableEq, Repr

/-- An open cursor (R159): its strand, its run number in its gap, the elements of its run, and the elements before rank r
when SGAP ran. -/
structure Cursor where
  home : Nat
  strand : W32
  gap : Nat
  run : Nat
  mine : List Nat
  before : List Nat
  deriving DecidableEq, Repr

/-- An anchor entry of a home's table (R160). -/
structure Anchor where
  gen : W32
  elem : Option Nat
  deriving DecidableEq, Repr

/-- Where a stage of a skein stands (R174, R180, R184). -/
inductive StageAt where
  | unplaced
  | gang (t g : Nat)
  | folded
  | exited
  deriving DecidableEq, Repr

/-- A stage of a skein (R171, R183): its entry and window, where it stands, the address it is stopped at and how (0 at
entry, 1 GET, 2 PUT, 3 KNOT; 4 while it runs on from there), the live groups there, its saved slices, whether it has
pushed end-of-stream, and whether a switch holds it at a knot. -/
structure Stage where
  entry : Word
  win : Nat
  place : StageAt
  pc : Word
  stop : Nat
  live : BitVec 16
  slices : KMap Slice
  eos : Bool
  atKnot : Bool
  deriving DecidableEq, Repr

/-- A link of a skein (R171, R179): rows at the endpoint, rows and freed-slot notices on their way, rows that wait at the
sender's NI for a held endpoint (R92), credits, and whether its endpoint exists; none is the end-of-stream row. -/
structure SkLink where
  ch : Nat
  depth : Nat
  item : Nat
  rows : List (Option (List W32))
  flight : List (Option (List W32))
  waiting : List (Option (List W32))
  credits : Nat
  notices : Nat
  made : Bool
  deriving DecidableEq, Repr

/-- A switch in progress (R184). -/
inductive Switch where
  | none
  | gathering (byDist export_ : Bool)
  | copying (export_ : Bool)
  | unreeling
  | unreelCopy
  | exporting
  | exportCopy
  deriving DecidableEq, Repr

/-- A skein (R171 to R190). -/
structure Skein where
  desc : Word
  descPa : Nat
  vf : Nat
  tile : Nat
  ctx : Nat
  uid : Nat
  slices : Nat
  ringBase : Nat
  save : Word
  last : Nat
  switches : Word
  folded : Bool
  foldGang : Option Nat
  run : Nat
  sw : Switch
  stages : List Stage
  links : List SkLink
  freezeDefer : List (Nat × FreezeKind)
  deriving DecidableEq, Repr

/-- An SWR to TLBINV in progress (R130): the sub-gang, and the accesses and engine commands, by tile and name, that were
under way with a dropped translation. -/
structure Inval where
  tile : Nat
  sub : Nat
  accs : List (Nat × Nat)
  cmds : List (Nat × Nat)
  deriving DecidableEq, Repr

/-- A partition (R42, R44, R71 to R81, R97, R128, R155). `tainted` lists the pool segments that have held poison, `retired` those
retired from the pool (R168). -/
structure Part where
  fields : BitVec 16
  vflo : Nat
  vfhi : Nat
  secok : Bool
  spbase : Nat
  spsize : Nat
  ssbase : Nat
  sssize : Nat
  psroot : Word
  psched : Word
  pschedNext : Option Word
  nextSlice : Nat
  queues : KMap Queue
  refused : BitVec 16
  lastSlot : Byte
  lastErr : BitVec 4
  sheaves : KMap Sheaf
  tainted : List Nat
  retired : List Nat
  strands : KMap Strand
  cursors : KMap Cursor
  anchors : KMap Anchor
  skeins : KMap Skein
  inval : Option Inval
  edgesDue : List (Nat × Word)
  deriving DecidableEq, Repr

/-- A granule move in progress (R50): the world it moves to. -/
structure Move where
  granule : Nat
  secure : Bool
  deriving DecidableEq, Repr

/-- Whose turn it is (log 1). -/
inductive Turn where
  /-- An event of the opcode table. -/
  | event (i : Instr)
  /-- A sub-gang issues its next instruction. -/
  | issue (t u : Nat)
  /-- A tile loses a cached line, instruction word or translation (R124, R221, R129). -/
  | dropLine (t line : Nat)
  | dropWord (t pa : Nat)
  | dropTlb (t k : Nat)
  /-- Time passes on a die, in cycles of its tile clock (R12, R14, R15). -/
  | tick (die cyc : Nat)
  /-- The host writes or reads bytes at a package-physical address (R40, R148). -/
  | hostWrite (pa : Nat) (bytes : List Byte)
  | hostRead (pa n : Nat)
  /-- The host reads eight bytes of a launch window (R59). -/
  | hostWindow (vf w off : Nat)
  deriving DecidableEq, Repr

/-- What has come back to the host: bytes it read (R148), what a launch window reads (R59), a request that no function
supports (R44), what the debug port reads (R102), the answers of the security protocols (R52, R53). -/
inductive HostGot where
  | bytes (pa : Nat) (bs : List Byte)
  | window (vf w off : Nat) (v : Word)
  | unsupported (vf : Nat)
  | scan (t : Nat) (p : ScanPlace) (v : Option Word)
  | report (vf : Nat) (r : TdReport)
  | tdispError (vf : Nat)
  deriving DecidableEq, Repr

/-- Why a step can fault. -/
inductive Fault where
  /-- A host access names an address outside the 42-bit map or in its reserved range (R122). Raised by the host's turn.
  Safe: the model stops where the spec gives the write no target. -/
  | noTarget
  deriving DecidableEq, Repr

/-- Why a step can be refused. -/
inductive Refusal where
  /-- An instruction whose meaning this model does not give; raised by an arm of Dispatch. Safe. -/
  | notModelled (mnemonic : String)
  /-- An instruction executed while no sub-gang is named as its issuer, or the named one does not exist: no such
  execution exists (R105). Raised by every instruction; step never meets it. Safe. -/
  | noIssuer
  deriving DecidableEq, Repr

/-- The whole machine. -/
structure State where
  -- package, power and boot (01, 03)
  vaux : Bool
  vdram : Bool
  vcore : Bool
  vserdes : Bool
  vhost : Bool
  released : Bool
  thermtrip : Bool
  configFailed : Bool
  recovery : Bool
  cutOff : Bool
  flashImage : Option FlashImage
  flashConfig : Option ConfigBlock
  measured : List Word
  measuredEd : List Byte
  measuredMld : List Byte
  gnode : Word
  parts : KMap Part
  dies : KMap Die
  boundaries : KMap Port
  ports : KMap Port
  vfs : KMap Vf
  tiles : KMap Tile
  grids : KMap Grid
  -- worlds (R48, R50)
  fwtab : List Nat
  closed : List Move
  tfence : List Nat
  -- memory, its poisoned lines, and the words of it that engines have marked (R211)
  mem : List Host.Cell
  poison : List Nat
  poisonWords : List Nat
  -- on the way inside the package and across the fabric
  wire : List Msg
  resps : List Resp
  flowTx : KMap Nat
  flowRx : KMap Nat
  lastReq : KMap Nat
  unseen : List (Nat × Nat)
  signals : List HeldSignal
  outs : List Out
  outbox : List Packet
  arrivals : List (Nat × Packet)
  reduces : List ReduceOp
  reduceVia : List (Nat × Packet)
  locals : List LocalContrib
  hostGot : List HostGot
  -- the model's own fields (log 1, 6, 8)
  agenda : List Turn
  cur : Option (Nat × Nat)
  free : Nat
  gen : Nat
  stamp : Nat
  nextId : Nat
  deriving DecidableEq, Repr

/-! ### The reset values -/

def Window.reset : Window :=
  { free := 16, depth := 16, cap := 3, accepted := 0, drops := 0, rejects := 0, lasterr := 0 }

def Vf.reset : Vf :=
  { td := .unlocked, bar := 0, memEnable := false, msixControl := 0, msix := [], keyed := false, report := none,
    stopScrub := false, windows := [], hsroot := 0 }

def Port.reset : Port :=
  { stat := 0, quiesce := true, txNext := 0, kept := [], rxNext := 0, replayFrom := 0, replayRun := 0, resend := [],
    wantReplay := none, tx := [], rx := [], carried := [] }

def zeroVec : List W32 := [0, 0, 0, 0, 0]

def Die.reset : Die :=
  { dcyc := 0, frac := 0, dusec := 0, thstat := 0, vec := zeroVec, known := zeroVec, applied := zeroVec, observed := zeroVec,
    sendNo := [], recvNo := [], outq := [], inbox := [], errcnt := 0, grtab := [], grstat := 0, dtu := [] }

def Tile.reset : Tile :=
  { mode := .vacant, vf := 0, world := false, scrub := false, scrubbed := false, blocks := [], gangs := [], subs := [],
    conts := [], bins := [], acc := [], accPoison := [], active := [], shadow := [], bpc := [], l1 := [], icache := [], tlb := [], ranks := [],
    copyQ := [], arrayQ := [], links := [], retlog := [], carry := none, fusec := 0, vcout := [0, 0, 0, 0] }

/-- PSCHED after reset: BINT 2 and TSLICE 2,000 (R79). -/
def pschedReset : Word := 0x0000020000000000#64 ||| 2000#64

/-- The machine in reset: no rail is good, Craoz holds every die, nothing is configured (log 3). -/
def State.reset : State :=
  { vaux := false, vdram := false, vcore := false, vserdes := false, vhost := false, released := false,
    thermtrip := false, configFailed := false, recovery := false, cutOff := false, flashImage := none,
    flashConfig := none, measured := [], measuredEd := [], measuredMld := [], gnode := 0, parts := [], dies := [], boundaries := [], ports := [], vfs := [],
    tiles := [], grids := [], fwtab := [], closed := [], tfence := [], mem := [], poison := [], poisonWords := [], wire := [], resps := [],
    flowTx := [], flowRx := [], lastReq := [], unseen := [], signals := [], outs := [], outbox := [], arrivals := [],
    reduces := [], reduceVia := [], locals := [], hostGot := [], agenda := [], cur := none, free := 0, gen := 0, stamp := 0, nextId := 1 }

end Sys2Proof.Machine
end

