-- ==== Sys2Proof/Machine/Base.lean ====
section
/-!
DEFINITION. The plain operations over the state: access to its parts, the issuer of an instruction, retiring, waiting,
free values, memory bytes, launch records (04_launch_interface.md R56), error counts (13_traps_faults.md R219).
-/
namespace Sys2Proof.Machine

/-- What executing an instruction answers. -/
abbrev Out1 := Host.Outcome State Fault Refusal

/-! ### Parts of the state -/

def State.tile (s : State) (t : Nat) : Tile := kgetD s.tiles t Tile.reset
def State.setTile (s : State) (t : Nat) (T : Tile) : State := { s with tiles := kset s.tiles t T }
def State.die (s : State) (d : Nat) : Die := kgetD s.dies d Die.reset
def State.setDie (s : State) (d : Nat) (D : Die) : State := { s with dies := kset s.dies d D }
def State.port (s : State) (p : Nat) : Port := kgetD s.ports p Port.reset
def State.setPort (s : State) (p : Nat) (P : Port) : State := { s with ports := kset s.ports p P }
def State.boundary (s : State) (b : Nat) : Port := kgetD s.boundaries b Port.reset
def State.setBoundary (s : State) (b : Nat) (P : Port) : State := { s with boundaries := kset s.boundaries b P }
def State.vf (s : State) (v : Nat) : Vf := kgetD s.vfs v Vf.reset
def State.setVf (s : State) (v : Nat) (V : Vf) : State := { s with vfs := kset s.vfs v V }
def State.part (s : State) (p : Nat) : Option Part := kget s.parts p
def State.setPart (s : State) (p : Nat) (P : Part) : State := { s with parts := kset s.parts p P }
def State.setGrid (s : State) (g : Nat) (G : Grid) : State := { s with grids := kset s.grids g G }

/-- The partition a virtual function is bound to (R42). -/
def State.partOfVf (s : State) (v : Nat) : Option Nat :=
  (s.parts.find? fun (_, P) => decide (P.vflo ≤ v) && decide (v ≤ P.vfhi)).map (·.1)

/-- The die of a package tile (R8). -/
def dieOf (t : Nat) : Nat := t / 64

/-- The package field of a package tile (R8). -/
def fieldOf (t : Nat) : Nat :=
  let k := t % 64
  4 * dieOf t + 2 * (if k / 8 < 4 then 0 else 1) + (if k % 8 < 4 then 0 else 1)

/-- Whether a package tile lies in a partition's fields (R42). -/
def Part.hasTile (P : Part) (t : Nat) : Bool := P.fields.getLsbD (fieldOf t) && decide (t < 256)

/-- The partition of a tile. -/
def State.partOfTile (s : State) (t : Nat) : Option Nat := (s.parts.find? fun (_, P) => P.hasTile t).map (·.1)

/-- The lead distributor's die: that of the partition's lowest-numbered field (R71). -/
def Part.leadDie (P : Part) : Nat := (((List.range 16).find? fun f => P.fields.getLsbD f).getD 0) / 4

/-- The tiles of a partition in ascending number. -/
def Part.tiles (P : Part) : List Nat := (List.range 256).filter P.hasTile

/-- The node identifier of this package (R26). -/
def State.node (s : State) : Nat := (s.gnode.setWidth 10).toNat

/-- Draws a fresh seed of free values (log 6). -/
def State.seed (s : State) : Nat × State := (s.free, { s with free := s.free + 1 })

/-- Draws a fresh name. -/
def State.fresh (s : State) : Nat × State := (s.nextId, { s with nextId := s.nextId + 1 })

/-- The next stamp of an order of events. -/
def State.tock (s : State) : Nat × State := (s.stamp, { s with stamp := s.stamp + 1 })

/-! ### Bytes -/

/-- What a byte of memory no cell lists reads as: the spec gives no contents of DRAM at power-on (log 4). -/
def memFill : Byte := 0

/-- Reads one byte of a cell list. -/
def cellGet (m : List Host.Cell) (a : Nat) : Byte := kgetD m a memFill

/-- Writes one byte of a cell list, keeping it canonical: the fill value is not listed. -/
def cellSet (m : List Host.Cell) (a : Nat) (v : Byte) : List Host.Cell := if v = memFill then kdel m a else kset m a v

/-- Writes bytes from an address upwards. -/
def cellsSet (m : List Host.Cell) (a : Nat) : List Byte → List Host.Cell
  | [] => m
  | v :: vs => cellsSet (cellSet m a v) (a + 1) vs

/-- The canonical form of a cell list: addresses strictly rising, no listed byte equal to the fill. -/
def cellsWf : List Host.Cell → Bool
  | [] => true
  | [(_, v)] => v != memFill
  | (a, v) :: (b, w) :: m => decide (a < b) && v != memFill && cellsWf ((b, w) :: m)

abbrev Memory.wf (m : List Host.Cell) : Prop := cellsWf m = true

/-- n bytes of memory from a package-physical address. -/
def State.bytes (s : State) (pa n : Nat) : List Byte := (List.range n).map fun k => cellGet s.mem (pa + k)

/-- Writes bytes of memory at a package-physical address. -/
def State.putBytes (s : State) (pa : Nat) (bs : List Byte) : State := { s with mem := cellsSet s.mem pa bs }

/-- The number little-endian bytes hold (R5). -/
def leNat : List Byte → Nat
  | [] => 0
  | b :: bs => b.toNat + 256 * leNat bs

/-- The n little-endian bytes of a number (R5). -/
def natLe : Nat → Nat → List Byte
  | 0, _ => []
  | n + 1, x => BitVec.ofNat 8 x :: natLe n (x / 256)

/-- A word of memory of n bytes. -/
def State.le (s : State) (pa n : Nat) : Nat := leNat (s.bytes pa n)

/-! ### Bit fields -/

/-- Bits [hi:lo] of a number. -/
def bits (x hi lo : Nat) : Nat := x / 2 ^ lo % 2 ^ (hi + 1 - lo)

/-- A saturating increment of a field of w bits at bit lo of a word. -/
def satInc (x : Word) (lo w n : Nat) : Word :=
  let f := bits x.toNat (lo + w - 1) lo
  let f' := min (f + n) (2 ^ w - 1)
  x + BitVec.ofNat 64 ((f' - f) * 2 ^ lo)

/-- Sets a field of w bits at bit lo of a word. -/
def setField (x : Word) (lo w v : Nat) : Word :=
  let m := BitVec.ofNat 64 ((2 ^ w - 1) * 2 ^ lo)
  (x &&& ~~~ m) ||| (BitVec.ofNat 64 (v % 2 ^ w * 2 ^ lo))

/-! ### Launch records (R56) -/

def LRecord.grid (r : LRecord) : Nat := bits r.geom.toNat 63 40
def LRecord.spad (r : LRecord) : Nat := bits r.geom.toNat 39 30
def LRecord.gangs (r : LRecord) : Nat := bits r.geom.toNat 29 25 + 1
def LRecord.slices (r : LRecord) : Nat := bits r.geom.toNat 24 22 + 1
def LRecord.feeder (r : LRecord) : Nat := bits r.geom.toNat 21 17
def LRecord.vregs (r : LRecord) : Nat := 8 * (bits r.geom.toNat 16 13 + 1)
def LRecord.cinc (r : LRecord) : Nat := bits r.flags.toNat 63 32
def LRecord.tag (r : LRecord) : BitVec 16 := BitVec.ofNat 16 (bits r.flags.toNat 31 16)
def LRecord.cgcode (r : LRecord) : Nat := bits r.flags.toNat 10 9
def LRecord.coop (r : LRecord) : Bool := r.flags.getLsbD 8
def LRecord.retry (r : LRecord) : Bool := r.flags.getLsbD 7
def LRecord.rcount (r : LRecord) : Nat := max 1 (bits r.flags.toNat 6 4)
/-- Blocks per cluster group. -/
def LRecord.cgsize (r : LRecord) : Nat :=
  match r.cgcode with
  | 0 => 1 | 1 => 2 | _ => 4

/-- The record 64 little-endian bytes hold. -/
def LRecord.ofBytes (b : List Byte) : LRecord :=
  let w := fun k => BitVec.ofNat 64 (leNat ((b.drop (8 * k)).take 8))
  ⟨w 0, w 1, w 2, w 3, w 4, w 5, w 6, w 7⟩

/-! ### Parts of a tile -/

def Tile.setBlock (T : Tile) (c : Nat) (B : Block) : Tile := { T with blocks := kset T.blocks c B }
def Tile.setGang (T : Tile) (g : Nat) (G : Gang) : Tile := { T with gangs := kset T.gangs g G }
def Tile.setSub (T : Tile) (u : Nat) (U : Sub) : Tile := { T with subs := kset T.subs u U }

def State.setSub (s : State) (t u : Nat) (U : Sub) : State := s.setTile t ((s.tile t).setSub u U)
def State.setGang (s : State) (t g : Nat) (G : Gang) : State := s.setTile t ((s.tile t).setGang g G)
def State.setBlock (s : State) (t c : Nat) (B : Block) : State := s.setTile t ((s.tile t).setBlock c B)

/-- The subs of a gang. -/
def Tile.subsOf (T : Tile) (g : Nat) : KMap Sub := kfilter T.subs fun _ U => U.gang == g

/-- Applies f to every slice of a sub-gang. -/
def Sub.mapSlices (U : Sub) (f : Slice → Slice) : Sub := { U with slices := kmap U.slices fun _ S => f S }

/-- The lowest slice of a sub-gang (R105). -/
def Sub.low (U : Sub) : Option (Nat × Slice) := U.slices.head?

/-! ### The issuer (R105) -/

/-- The issuer of an instruction with everything it belongs to. -/
structure Issuer where
  t : Nat
  u : Nat
  tile : Tile
  sub : Sub
  gang : Gang
  block : Block
  deriving DecidableEq, Repr

/-- The issuer the step names, if it exists. -/
def State.issuer (s : State) : Option Issuer :=
  match s.cur with
  | none => none
  | some (t, u) =>
    let T := s.tile t
    match kget T.subs u with
    | none => none
    | some U =>
      match kget T.gangs U.gang with
      | none => none
      | some G =>
        match kget T.blocks G.ctx with
        | none =>
          -- a stage gang on another tile than its owner's has its block there (R174, R188)
          none
        | some B => some ⟨t, u, T, U, G, B⟩

/-- Runs a meaning on the issuer; without one there is no such execution. -/
def withIssuer (s : State) (f : Issuer → Out1) : Out1 :=
  match s.issuer with
  | some I => f I
  | none => .refused .noIssuer

/-- How an instruction changes the run depth (R230). -/
inductive RunKind where
  /-- A straight lane instruction that advances the ring. -/
  | ring
  /-- A straight instruction that does not. -/
  | straight
  /-- Any other instruction. -/
  | other
  deriving DecidableEq, Repr

/-- The run depth after an instruction issues (R230). -/
def depthAfter (d : Nat) : RunKind → Nat
  | .ring => min 4 (d + 1)
  | .straight => d
  | .other => 0

/-- A sub-gang after its instruction has issued: the next word, the run depth, and no trace of waiting. -/
def Sub.retire (U : Sub) (k : RunKind) : Sub :=
  { U with pc := U.pc + 4, depth := depthAfter U.depth k, resume := none, bpSkip := none, stall := none, binWait := none }

/-- The issuer retires with its sub-gang changed to U. -/
def retire (s : State) (I : Issuer) (k : RunKind) (U : Sub) : Out1 := .next (s.setSub I.t I.u (U.retire k))

/-- The issuer waits at its instruction: it is marked stalled and re-executes later; from then on it counts as ready anew (R82,
log 8). -/
def wait (s : State) (I : Issuer) : Out1 :=
  match kget (s.tile I.t).subs I.u with
  | some U => .next (s.setSub I.t I.u { U with stall := some s.gen, issued := s.stamp })
  | none => .next s

/-! ### Vectors (R145) -/

/-- a is at or ahead of b, modulo 2^32. -/
def geq (a b : W32) : Bool := decide ((a - b).toNat < 2 ^ 31)
/-- The entrywise join of two vectors. -/
def joinVec (a b : List W32) : List W32 := (a.zip b).map fun (x, y) => if geq x y then x else y
/-- Entry e of a vector. -/
def ent (v : List W32) (e : Nat) : W32 := v.getD e 0
/-- Whether A covers c in every entry. -/
def coversVec (A c : List W32) : Bool := (A.zip c).all fun (x, y) => geq x y

/-- A die's vector joins an observed vector (R146). -/
def State.observe (s : State) (d : Nat) (o : List W32) : State :=
  let D := s.die d
  s.setDie d { D with vec := joinVec D.vec o }

/-! ### Errors counted (R219) -/

inductive ErrField where
  | sramcor | dramcor | transient | lasting | poisoned | unrecov
  deriving DecidableEq, Repr

def State.countErr (s : State) (d : Nat) (f : ErrField) : State :=
  let D := s.die d
  let (lo, w) := match f with
    | .sramcor => (48, 16) | .dramcor => (32, 16) | .transient => (24, 8) | .lasting => (16, 8)
    | .poisoned => (8, 8) | .unrecov => (0, 8)
  s.setDie d { D with errcnt := satInc D.errcnt lo w 1 }

/-! ### Where a block stands -/

/-- The tile and context of a resident block, by its name. -/
def State.findBlock (s : State) (uid : Nat) : Option (Nat × Nat × Block) :=
  s.tiles.findSome? fun (t, T) => (T.blocks.find? fun (_, B) => B.uid == uid).map fun (c, B) => (t, c, B)

/-- Changes a block wherever it is: resident, or in the image of a sheaf. -/
def State.mapBlock (s : State) (uid : Nat) (f : Block → Block) : State :=
  let g : Tile → Tile := fun T =>
    if T.blocks.any fun (_, B) => B.uid == uid then
      { T with blocks := kmap T.blocks fun _ B => if B.uid == uid then f B else B }
    else T
  match s.findBlock uid with
  | some (t, c, B) => s.setBlock t c (f B)
  | none => { s with parts := kmap s.parts fun _ P => { P with sheaves := kmap P.sheaves fun _ h => { h with image := g h.image } } }

end Sys2Proof.Machine
end

