-- ==== Sys2Proof/Machine/Translate.lean ====
section
/-!
DEFINITION. Address translation in two stages, the checks an access meets, and bytes at their homes
(08_memory_translation.md R122 to R130; 03_host_partitions.md R45, R49, R50; 10_strands.md R156).
-/
namespace Sys2Proof.Machine

/-- The cause an access raises in its lane (R205): group, CODE and DATUM. -/
structure Cause where
  group : Nat
  code : Byte
  datum : Word
  deriving DecidableEq, Repr

/-- What an access needs of a page (R128). -/
inductive Need where
  | read | write | atomic | fetch
  deriving DecidableEq, Repr

def Need.code : Need → Byte
  | .read => 1 | .write => 2 | .atomic => 3 | .fetch => 4

/-- DRAM of the package: the ranges of the four dies (R122). -/
def isDram (pa : Nat) : Bool := decide (pa < 2 ^ 40)
/-- Host memory (R122). -/
def isHost (pa : Nat) : Bool := decide (2 ^ 40 ≤ pa) && decide (pa < 2 ^ 41)
/-- The home of a package-physical address: a die, or the host die as entry 4 (R122, R123). -/
def homeOf (pa : Nat) : Nat := if pa < 2 ^ 40 then pa / 2 ^ 38 else 4
/-- The 64 MiB granule of a DRAM address (R48). -/
def granuleOf (pa : Nat) : Nat := pa / 2 ^ 26
/-- The 128-byte line of an address (R123). -/
def lineOf (pa : Nat) : Nat := pa / 128

/-- The lowest address bit a table of level l indexes (R127). -/
def levelShift (l : Nat) : Nat := 16 + 6 * l

/-- A leaf of one stage: output base, the size of its page, and what it permits. -/
structure Leaf where
  base : Nat
  size : Nat
  r : Bool
  w : Bool
  x : Bool
  deriving DecidableEq, Repr

/-- A translation failure: stage (0 partition, 1 hypervisor), condition of R128 and level; or a denied table read. -/
inductive WalkErr where
  | cond (stage c level : Nat)
  | denied
  deriving DecidableEq, Repr

/-- The CODE of a translation failure (R205, log 16). -/
def transCode (stage c level : Nat) : Byte := BitVec.ofNat 8 (c + 16 * stage + 32 * level)

/-- The ADDR field of a translation entry (R127). -/
def pteAddr (e : Nat) : Nat := bits e 51 9 * 2 ^ 9

/-- Whether an entry is invalid: V is 0 or a reserved bit is set (R128, condition 2). -/
def pteBad (e : Nat) : Bool := e % 2 == 0 || bits e 63 52 != 0 || bits e 8 5 != 0

/-- The index into a table of level l; the root indexes `top` as its highest bit (R127). -/
def pteIndex (a l top : Nat) : Nat := if l = 4 then bits a top 40 else bits a (levelShift l + 5) (levelShift l)

/-- One level of a walk of stage st: from an entry, the next table or a leaf. -/
def pteStep (st l e : Nat) : Except WalkErr (Nat ⊕ Leaf) :=
  if pteBad e then .error (.cond st 2 l)
  else if bits e 1 1 = 1 then
    if l = 4 then .error (.cond st 3 4)
    else if pteAddr e % 2 ^ levelShift l ≠ 0 then .error (.cond st 5 l)
    else .ok (.inr ⟨pteAddr e, 2 ^ levelShift l, bits e 2 2 == 1, bits e 3 3 == 1, bits e 4 4 == 1⟩)
  else if l = 0 then .error (.cond st 4 0)
  else .ok (.inl (pteAddr e))

/-- The hypervisor-stage walk of an intermediate address from a table of level l (R126, R127). -/
def hvWalk (s : State) (ia : Nat) : Nat → Nat → Except WalkErr (Leaf × Nat)
  | 0, tbl =>
    if isDram tbl then
      match pteStep 1 0 (s.le (tbl + 8 * pteIndex ia 0 47) 8) with
      | .error e => .error e
      | .ok (.inr lf) => .ok (lf, 0)
      | .ok (.inl _) => .error (.cond 1 4 0)
    else .error (.cond 1 7 0)
  | l + 1, tbl =>
    if isDram tbl then
      match pteStep 1 (l + 1) (s.le (tbl + 8 * pteIndex ia (l + 1) 47) 8) with
      | .error e => .error e
      | .ok (.inr lf) => .ok (lf, l + 1)
      | .ok (.inl nxt) => hvWalk s ia l nxt
    else .error (.cond 1 7 (l + 1))

/-- The hypervisor stage of a virtual function: an intermediate address to a fabric address (R126, R128). -/
def hvTranslate (s : State) (vf ia : Nat) : Except WalkErr (Nat × Leaf) :=
  let root := (s.vf vf).hsroot
  if root.getLsbD 0 then
    match hvWalk s ia 4 (bits root.toNat 41 15 * 2 ^ 15) with
    | .error e => .error e
    | .ok (lf, l) =>
      let fa := lf.base + ia % lf.size
      if 640 ≤ fa / 2 ^ 42 then .error (.cond 1 8 l)
      else if fa / 2 ^ 42 = s.node ∧ 2 ^ 41 ≤ fa % 2 ^ 42 then .error (.cond 1 9 l)
      else .ok (fa, lf)
  else .error (.cond 1 2 4)

/-- A table entry of the partition stage, read through the hypervisor stage (R127, R128). -/
def partEntryAt (s : State) (vf ia : Nat) : Except WalkErr Nat :=
  match hvTranslate s vf ia with
  | .error e => .error e
  | .ok (fa, lf) =>
    if lf.r then
      if fa / 2 ^ 42 = s.node then .ok (s.le (fa % 2 ^ 42) 8) else .ok (Config.farEntry s.stamp fa).toNat
    else .error .denied

/-- The partition-stage walk of a virtual address from a table of level l (R127). -/
def ptWalk (s : State) (vf va : Nat) : Nat → Nat → Except WalkErr (Leaf × Nat)
  | 0, tbl =>
    if tbl < 2 ^ 48 then
      match partEntryAt s vf (tbl + 8 * pteIndex va 0 51) with
      | .error e => .error e
      | .ok e =>
        match pteStep 0 0 e with
        | .error e => .error e
        | .ok (.inr lf) => .ok (lf, 0)
        | .ok (.inl _) => .error (.cond 0 4 0)
    else .error (.cond 0 6 0)
  | l + 1, tbl =>
    if tbl < 2 ^ 48 then
      match partEntryAt s vf (tbl + 8 * pteIndex va (l + 1) 51) with
      | .error e => .error e
      | .ok e =>
        match pteStep 0 (l + 1) e with
        | .error e => .error e
        | .ok (.inr lf) => .ok (lf, l + 1)
        | .ok (.inl nxt) => ptWalk s vf va l nxt
    else .error (.cond 0 6 (l + 1))

/-- Bits [63:52] of a virtual address are copies of bit 51 (R126). -/
def canonical (va : Word) : Bool := va.extractLsb' 51 13 == 0#13 || va.extractLsb' 51 13 == BitVec.allOnes 13

/-- A complete two-stage walk (R126 to R128): the page's translation. -/
def walk (s : State) (vf : Nat) (va : Word) : Except WalkErr TlbEntry :=
  if canonical va then
    match s.partOfVf vf with
    | none => .error (.cond 0 2 4)
    | some p =>
      match s.part p with
      | none => .error (.cond 0 2 4)
      | some P =>
        if P.psroot.getLsbD 0 then
          match ptWalk s vf va.toNat 4 (bits P.psroot.toNat 47 15 * 2 ^ 15) with
          | .error e => .error e
          | .ok (lf, l) =>
            if 2 ^ 48 ≤ lf.base then .error (.cond 0 6 l)
            else
              match hvTranslate s vf (lf.base + va.toNat % lf.size) with
              | .error e => .error e
              | .ok (fa, hl) =>
                let size := min lf.size hl.size
                let ia := lf.base + va.toNat % lf.size
                .ok { vf := vf, va := va.toNat / size * size, ia := ia / size * size, size := size, out := fa / size * size,
                      r := lf.r && hl.r, w := lf.w && hl.w, x := lf.x && hl.x }
        else .error (.cond 0 2 4)
  else .error (.cond 0 1 4)

/-- Whether a held translation covers an address of a virtual function. -/
def TlbEntry.covers (e : TlbEntry) (vf : Nat) (va : Word) : Bool :=
  e.vf == vf && decide (e.va ≤ va.toNat) && decide (va.toNat < e.va + e.size)

/-- The translation a tile uses: its TLB, then its die's translation unit, then a walk (R129). -/
def lookup (s : State) (t vf : Nat) (va : Word) : Except WalkErr TlbEntry :=
  match (s.tile t).tlb.find? (·.covers vf va) with
  | some e => .ok e
  | none =>
    match (s.die (dieOf t)).dtu.find? (·.covers vf va) with
    | some e => .ok e
    | none => walk s vf va

/-- The cause of a failed translation (R205). -/
def WalkErr.cause (va : Word) : WalkErr → Cause
  | .cond st c l => ⟨3, transCode st c l, va⟩
  | .denied => ⟨4, 1, va⟩

/-- Whether a page permits a need (R128). -/
def TlbEntry.permits (e : TlbEntry) : Need → Bool
  | .read => e.r
  | .write => e.w
  | .atomic => e.r && e.w
  | .fetch => e.x

/-- An address in some partition's sheaf store (R45). -/
def State.inSheafStore (s : State) (pa : Nat) : Bool :=
  s.parts.any fun (_, P) => decide (P.ssbase ≤ pa) && decide (pa < P.ssbase + P.sssize)

/-- An address in some partition's strand pool (R156). -/
def State.inStrandPool (s : State) (pa : Nat) : Bool :=
  s.parts.any fun (_, P) => decide (P.spbase ≤ pa) && decide (pa < P.spbase + P.spsize)

/-- The security cause of an access to this node (R45, R49, R50, R156). -/
def security (s : State) (world : Bool) (pa : Nat) : Option Byte :=
  if isDram pa then
    if s.closed.any (fun m => m.granule == granuleOf pa) || (!world && s.fwtab.contains (granuleOf pa)) then some 1
    else if s.inSheafStore pa then some 2
    else if s.inStrandPool pa then some 3
    else none
  else none

/-- The checks of one global access of n bytes, in the priority order of R205: security, translation, permission,
alignment. The answer is the fabric address and the translation used. -/
def check (s : State) (t vf : Nat) (world : Bool) (va : Word) (need : Need) (n : Nat) : Except Cause (Nat × TlbEntry) :=
  match lookup s t vf va with
  | .error e => .error (e.cause va)
  | .ok e =>
    let fa := e.out + (va.toNat - e.va)
    match (if fa / 2 ^ 42 = s.node then security s world (fa % 2 ^ 42) else none) with
    | some c => .error ⟨18, c, va⟩
    | none =>
      if e.permits need then
        if va.toNat % n = 0 then .ok (fa, e) else .error ⟨5, BitVec.ofNat 8 n.log2, va⟩
      else .error ⟨4, need.code, va⟩

/-- A tile keeps a translation, at most 512 (R129). -/
def State.fillTlb (s : State) (t : Nat) (e : TlbEntry) : State :=
  let T := s.tile t
  if T.tlb.contains e then s else s.setTile t { T with tlb := (e :: T.tlb).take 512 }

/-- Drops the translations a test names from every TLB and die translation unit of a set of tiles' dies (R130). -/
def State.dropTlbs (s : State) (f : TlbEntry → Bool) : State :=
  { s with
    tiles := kmap s.tiles fun _ T => { T with tlb := T.tlb.filter fun e => !f e }
    dies := kmap s.dies fun _ D => { D with dtu := D.dtu.filter fun e => !f e } }

/-- Whether one of n bytes of memory is poisoned: its line, or its word (R211). -/
def State.poisonedAt (s : State) (pa n : Nat) : Bool :=
  (List.range n).any fun k => s.poison.contains (lineOf (pa + k)) || s.poisonWords.contains ((pa + k) / 4)

/-- Bytes at a fabric address, as the device reads them: memory's, or, at another node, free (log 17). -/
def State.placeBytes (s : State) (fa n : Nat) : List Byte :=
  if fa / 2 ^ 42 = s.node then s.bytes (fa % 2 ^ 42) n
  else (List.range n).map fun k => ((Config.farEntry s.stamp ((fa + k) / 8 * 8)) >>> (8 * ((fa + k) % 8))).setWidth 8

/-- A little-endian number at a fabric address, as the device reads it. -/
def State.placeLe (s : State) (fa n : Nat) : Nat := leNat (s.placeBytes fa n)

/-- A read of device-kept data (records, region blocks, descriptors) at a virtual address of a function: the bytes and
where they lie, when every page permits it. -/
def devRead (s : State) (t vf : Nat) (world : Bool) (va : Word) (n : Nat) (need : Need) : Except Cause (Nat × List Byte) :=
  match check s t vf world va need 1 with
  | .error c => .error c
  | .ok (fa, _) =>
    .ok (fa, s.placeBytes fa n)

end Sys2Proof.Machine
end

