-- ==== Sys2Proof/Machine/Bins.lean ====
section
/-!
DEFINITION. The bin store and the bins of a tile: continuations entering bins, and a bin forming a gang
(05_scheduler.md R84 to R88; 07_execution_model.md R112 to R114; 13_traps_faults.md R212).
-/
namespace Sys2Proof.Machine

/-- The bin timer of a tile in microseconds; a BINT of 0 acts as 1 (R79, R84). -/
def State.bint (s : State) (t : Nat) : Nat :=
  match s.partOfTile t with
  | none => 1
  | some p =>
    match s.part p with
    | none => 1
    | some P => max 1 (bits P.psched.toNat 47 40)

/-- The DUSEC a tile's bin timers count on: that of its lead distributor's die (R71). -/
def State.usec (s : State) (t : Nat) : Nat :=
  match (s.partOfTile t).bind s.part with
  | some P => (s.die P.leadDie).dusec.toNat
  | none => 0

/-- The bin-store slots a tile has free (R84). -/
def Tile.freeSlots (T : Tile) : Nat := 1024 - T.conts.length

/-- The free slots of the bin store, lowest first. -/
def Tile.slotList (T : Tile) (n : Nat) : List Nat := ((List.range 1024).filter fun k => (kget T.conts k).isNone).take n

/-- The FILLING bin of a key (R84). A detached continuation shares a bin with detached ones only, and a retry point with
none (log 60). -/
def Tile.fillingBin (T : Tile) (entry : Word) (uid : Nat) (det : Bool) : Option (Nat × Bin) :=
  T.bins.find? fun (_, b) =>
    b.entry == entry && b.uid == uid && b.detached == det && b.retry.isNone && (match b.st with | .filling _ => true | .ready _ => false)

/-- Marks the continuations of the given slots as standing in bin b. -/
def Tile.markBin (T : Tile) (b : Nat) (slots : List (Option Nat)) : Tile :=
  { T with conts := kmap T.conts fun k c => if slots.contains (some k) then { c with place := .bin b } else c }

/-- A bin whose 32 positions are in use becomes READY (R84). -/
def Bin.close (b : Bin) (stamp : Nat) : Bin :=
  if b.pos.length ≥ 32 then
    match b.st with
    | .filling _ => { b with st := .ready stamp }
    | .ready _ => b
  else b

/-- Opens a FREE bin for the key of a continuation with the given positions (R84, the FREE row). -/
def Tile.openBin (T : Tile) (deadline stamp : Nat) (c : Cont) (pos : List (Option Nat)) : Option Tile :=
  match kfree T.bins 32 with
  | none => none
  | some b =>
    let B : Bin := { entry := c.entry, uid := c.uid, grid := c.grid, detached := c.detached, retry := none, st := .filling deadline, pos := pos }
    some (({ T with bins := kset T.bins b (B.close stamp) }).markBin b pos)

/-- The positions of continuations enter a bin: a park run starts at a multiple of 4, and closes a FILLING bin with too few
positions left (R113). The answer says whether they entered. -/
def Tile.enterBin (T : Tile) (deadline stamp : Nat) (c : Cont) (pos : List (Option Nat)) : Tile × Bool :=
  match T.fillingBin c.entry c.uid c.detached with
  | some (b, B) =>
    let start := if c.park then (B.pos.length + 3) / 4 * 4 else B.pos.length
    if start + pos.length ≤ 32 then
      let B' : Bin := { B with pos := B.pos ++ List.replicate (start - B.pos.length) none ++ pos }
      (({ T with bins := kset T.bins b (B'.close stamp) }).markBin b pos, true)
    else
      let T := { T with bins := kset T.bins b { B with st := .ready stamp } }
      match T.openBin deadline stamp c pos with
      | some T' => (T', true)
      | none => (T, false)
  | none =>
    match T.openBin deadline stamp c pos with
    | some T' => (T', true)
    | none => (T, false)

/-- The slots of a run in order of position: for a park run four positions per slice, none where no lane lives. -/
def Tile.runPos (T : Tile) (run : Nat) : List (Option Nat) :=
  let cs := T.conts.filter fun (_, c) => c.run == run
  match cs.head? with
  | none => []
  | some (_, c0) =>
    if c0.park then
      let m := cs.foldl (fun n kc => max n (kc.2.slice + 1)) 0
      (List.range (4 * m)).map fun j =>
        (cs.find? fun (_, c) => c.slice == j / 4 && c.lane == j % 4).map (·.1)
    else cs.map fun (k, _) => some k

/-- Whether a tile holds neither a block nor a continuation. -/
def Tile.idle (T : Tile) : Bool := T.blocks.isEmpty && T.conts.isEmpty

/-- Whether a tile holds a block of a grid. -/
def Tile.holdsGrid (T : Tile) (grid : Nat) : Bool := T.blocks.any fun (_, B) => B.grid == grid && B.proxy.isNone

/-- The tile on which a continuation of tile t enters a bin (R86): its own, and for a detached one whose grid has no block
there the lowest that holds one; none where no tile does. -/
def State.binTile (s : State) (t : Nat) (c : Cont) : Option Nat :=
  if !c.detached || (s.tile t).holdsGrid c.grid then some t
  else (s.tiles.find? fun (_, T) => T.holdsGrid c.grid).map (·.1)

/-- Marks a run as one whose condition holds; a run that already waits for a bin keeps its place in the order (R87). -/
def Tile.markReady (T : Tile) (run since : Nat) : Tile :=
  { T with conts := kmap T.conts fun _ c =>
      if c.run == run then { c with place := match c.place with | .ready n => .ready n | _ => .ready since } else c }

/-- A run that is ready enters a bin on its tile, or stays ready in its slots (R87). -/
def State.enterRun (s : State) (t run : Nat) (c : Cont) : State × Bool :=
  let T := s.tile t
  let (T, ok) := T.enterBin (s.usec t + s.bint t) s.stamp c (T.runPos run)
  ({ s.setTile t T with stamp := s.stamp + 1 }, ok)

/-- A ready run moves with its slots to the tile where it enters a bin (R86), if that tile runs and has a bin and the slots
for it; else it stays. The vector of its die goes with it (R361, log 60). -/
def State.moveRun (s : State) (t t' run : Nat) (c : Cont) : State :=
  let T := s.tile t
  let T' := s.tile t'
  let cs := T.conts.filter fun (_, x) => x.run == run
  if T'.mode = .run ∧ cs.length ≤ T'.freeSlots then
    let conts := (cs.zip (T'.slotList cs.length)).foldl (fun m x => kset m x.2 x.1.2) T'.conts
    let s' := (s.setTile t { T with conts := kfilter T.conts fun _ x => x.run != run }).setTile t' { T' with conts := conts }
    match s'.enterRun t' run c with
    | (s', true) => if dieOf t' = dieOf t then s' else s'.observe (dieOf t') (s.die (dieOf t)).vec
    | (_, false) => s
  else s

/-- A run whose condition holds enters a bin where R86 says, or stays ready in its slots (R87). -/
def State.admitRun (s : State) (t run : Nat) : State :=
  match (s.tile t).conts.find? fun (_, c) => c.run == run with
  | none => s
  | some (_, c) =>
    let s := { s.setTile t ((s.tile t).markReady run s.stamp) with stamp := s.stamp + 1 }
    match s.binTile t c with
    | none => s
    | some t' => if t' = t then (s.enterRun t run c).1 else s.moveRun t t' run c

/-- Inserts a run by the stamp at which it became ready. -/
def insRun (x : Nat × Nat) : List (Nat × Nat) → List (Nat × Nat)
  | [] => [x]
  | y :: l => if x.1 < y.1 then x :: y :: l else y :: insRun x l

/-- The runs that stand ready and in no bin, in the order in which they became ready. -/
def Tile.readyRuns (T : Tile) : List Nat :=
  (T.conts.foldl (fun l kc =>
    match kc.2.place with
    | .ready n => if l.any fun x => x.2 == kc.2.run then l else insRun (n, kc.2.run) l
    | _ => l) []).map (·.2)

/-- Ready runs enter bins that have become FREE, before any later arrival (R87). -/
def State.admitReady (s : State) (t : Nat) : State :=
  (s.tile t).readyRuns.foldl (fun s r => s.admitRun t r) s

/-- The runs of a tile that wait for a condition. -/
def Tile.waitingRuns (T : Tile) (f : Cont → Cond → Bool) : List Nat :=
  T.conts.foldl (fun l kc =>
    match kc.2.place with
    | .waiting c _ => if f kc.2 c && !l.contains kc.2.run then l ++ [kc.2.run] else l
    | _ => l) []

/-- Runs parked on a LAUNCH of a block enter bins once a slot is free (R116). -/
def State.wakeSlots (s : State) (uid : Nat) : State :=
  match s.findBlock uid with
  | none => s
  | some (t, _, B) =>
    if B.pend.length < 4 ∧ (s.tile t).mode = .run then
      ((s.tile t).waitingRuns fun c k => c.uid == uid && k == .slot).foldl (fun s r => s.admitRun t r) s
    else s

/-- The wait of TLWAIT is over (R151). -/
def tlReached (compl n : W32) : Bool := decide ((compl - n).toNat < 2 ^ 31)

/-- A block's timeline counter. -/
def Block.tl (B : Block) (tc : BitVec 4) : Timeline := kgetD B.tcs tc.toNat ⟨0, 0, []⟩

/-- Runs parked on a TLWAIT enter bins once the completion value reaches their number (R113, R151). -/
def State.wakeTimeline (s : State) (t uid : Nat) (tc : BitVec 4) (compl : W32) : State :=
  ((s.tile t).waitingRuns fun c k =>
    c.uid == uid && (match k with | .timeline tc' n => tc' == tc && tlReached compl n | _ => false)).foldl
    (fun s r => s.admitRun t r) s

/-- The slices a tile has in use (R75). -/
def Tile.slicesUsed (T : Tile) : Nat := T.subs.foldl (fun n ku => n + ku.2.slices.length) 0

/-- The lane registers a skein needs in one gang of all its stages, and in the stages given (R188). -/
def stageRegs (slices : Nat) (sts : List Stage) : Nat := 32 * slices * sts.foldl (fun n st => n + st.win) 0

/-- The stages of a skein that stand in gangs on a tile. -/
def Skein.stagesOn (K : Skein) (t : Nat) : List Stage :=
  K.stages.filter fun st => match st.place with | .gang t' _ => t' == t | _ => false

/-- Slices and lane registers that a reel reserves on its owning tile beyond what its stage gangs there will release
(R188). -/
def Skein.reserve (K : Skein) (t : Nat) : Nat × Nat :=
  let held := (K.slices - K.slices * (K.stagesOn t).length, stageRegs K.slices K.stages - stageRegs K.slices (K.stagesOn t))
  if K.tile = t ∧ K.foldGang.isNone then
    match K.sw with
    | .gathering _ _ | .copying _ => held
    | _ => (0, 0)
  else (0, 0)

/-- What the reels of all partitions reserve on a tile. -/
def State.skeinReserve (s : State) (t : Nat) : Nat × Nat :=
  s.parts.foldl (fun n kP => kP.2.skeins.foldl (fun n kK =>
    let r := kK.2.reserve t
    (n.1 + r.1, n.2 + r.2)) n) (0, 0)

/-- Slices of a tile in use or reserved (R75, R188). -/
def State.slicesTaken (s : State) (t : Nat) : Nat := (s.tile t).slicesUsed + (s.skeinReserve t).1

/-- Lane registers of a tile in use or reserved (R75, R188). -/
def State.regsTaken (s : State) (t : Nat) : Nat :=
  (s.tile t).blocks.foldl (fun n kB => n + 4 * kB.2.gangs * kB.2.slices * kB.2.vregs) 0 +
  s.parts.foldl (fun n kP => kP.2.skeins.foldl (fun n kK =>
    if kK.2.tile = t ∧ kK.2.foldGang.isSome then n + stageRegs kK.2.slices kK.2.stages else n) n) 0 +
  (s.skeinReserve t).2

/-- The tile slice numbers in use (R103). -/
def Tile.slicePos (T : Tile) : List Nat := T.subs.flatMap fun (_, U) => U.slices.map fun (_, S) => S.pos

/-- The lowest n free tile slice numbers, ascending (R103: which ones is not architected, log 20). -/
def Tile.freePos (T : Tile) (n : Nat) : List Nat :=
  let used := T.slicePos
  ((List.range 128).filter fun p => !used.contains p).take n

/-- Commit-buffer shares in use (R133). -/
def Tile.sharesUsed (T : Tile) : Nat := T.gangs.foldl (fun n kg => if kg.2.retry.share then n + 1 else n) 0

/-- A lane with every register zero (R58). -/
def Lane.zero (gangIx : Nat) : Lane :=
  { v := [], fill := .zero, p := 1, ring := [], gangIx := gangIx, svRing := [], bad := [] }

/-- A slice at the beginning of a block (R58). -/
def Slice.zero (pos gangIx : Nat) (s0 s1 s2 : Word) : Slice :=
  { pos := pos, mask := 15, live := 15, stack := [], s := [(0, s0), (1, s1), (2, s2)], fill := .zero,
    lanes := List.replicate 4 (Lane.zero gangIx), tcause := 0, tepc := 0, tdet0 := 0, tdet1 := 0, tdet2 := 0,
    tscr0 := 0, tscr1 := 0, tscr2 := 0, tscr3 := 0, svDepth := 0, log := [], monitor := none, knotCount := 0, bad := [] }

/-- A sub-gang about to issue at a program counter. -/
def Sub.start (gang : Nat) (pc : Word) (slices : KMap Slice) (stamp : Nat) : Sub :=
  { gang := gang, pc := pc, depth := 0, slices := slices, regang := none, resume := none, svResume := none, bpSkip := none,
    reports := [], issued := stamp, stall := none, yield := none, binWait := none }

/-- No retry (R365, RSTATE 0). -/
def Retry.never : Retry := { st := .never, attempts := 0, share := false, held := [], point := .lapsed, late := none }

/-- A gang begins: retryable when its record asks for it and a share is free (R133). -/
def Retry.begin (T : Tile) (r : LRecord) (point : RetryPoint) : Retry :=
  if r.retry && decide (T.sharesUsed < 4) then { st := .run, attempts := r.rcount, share := true, held := [], point := point, late := none }
  else .never

/-- The slice a bin's four positions form (R85, R114). -/
def formSlice (T : Tile) (B : Block) (seed : Nat) (pos : Nat) (g0 : Nat) (four : List (Option Nat)) : Slice :=
  let cs := four.map fun o => o.bind fun k => kget T.conts k
  let first := cs.findSome? id
  let occ : BitVec 4 := (List.range 4).foldl (fun m j => if (cs.getD j none).isSome then m ||| (1#4 <<< j) else m) 0
  let lanes := (List.range 4).map fun j =>
    match cs.getD j none with
    | some c => { v := c.regs, fill := c.fill, p := 1, ring := [], gangIx := c.gangIx, svRing := [], bad := c.bad : Lane }
    | none => { v := [], fill := .free (seed + 1), p := 1, ring := [], gangIx := g0, svRing := [], bad := [] : Lane }
  let S := Slice.zero pos g0 B.rcd.args (BitVec.ofNat 64 B.index) (BitVec.ofNat 64 B.rcd.grid)
  let S := { S with lanes := lanes, fill := .free seed, mask := occ, live := occ }
  match first with
  | some c => if c.park then { S with mask := c.mask, live := c.live, stack := c.stack, monitor := c.monitor } else S
  | none => S

/-- The slices that bin positions form, four positions to a slice (R85). -/
def formSlices (T : Tile) (B : Block) (seed g0 : Nat) (place : List Nat) (pos : List (Option Nat)) : KMap Slice :=
  (List.range ((pos.length + 3) / 4)).map fun i =>
    (i, formSlice T B (seed + 2 * i) (place.getD i 0) g0 ((pos.drop (4 * i)).take 4 ++ List.replicate 4 none |>.take 4))

/-- The queue of a grid's region. -/
def State.regionQueue (s : State) (grid : Nat) : Option Queue :=
  match kget s.grids grid with
  | none => none
  | some G => (s.part G.part).bind fun P => kget P.queues G.queue

/-- The exhaustions of its region that a gang which forms now has nothing to report of (R210): all, but for the one that lasts. -/
def State.budOf (s : State) (grid : Nat) : Nat :=
  match s.regionQueue grid with
  | some q => if (match q.eff with | some e => e.exhausted | none => false) then q.exhaustions - 1 else q.exhaustions
  | none => 0

/-- What a retry point forms again (R212): its slices, where they begin, and what the park recorded. -/
def Tile.restart (T : Tile) (B : Block) (G : Gang) (seed : Nat) (place : List Nat) : Option (KMap Slice × Word × Option Resume) :=
  match G.retry.point with
  | .lapsed => none
  | .initial =>
    some ((List.range B.rcd.slices).map fun i =>
      (i, Slice.zero (place.getD i 0) G.ix B.rcd.args (BitVec.ofNat 64 B.index) (BitVec.ofNat 64 B.rcd.grid)), B.rcd.entry, none)
  | .conts pos =>
    match (pos.findSome? id).bind fun k => kget T.conts k with
    | some c => some (formSlices T B seed G.ix place pos, c.entry, c.resume)
    | none => none

/-- The block whose context the gang of a bin joins: the bin's own, and for detached continuations the lowest context of
their grid on the tile (R115). -/
def Tile.binBlock (T : Tile) (b : Bin) : Option (Nat × Block) :=
  if b.detached then T.blocks.find? fun (_, B) => B.grid == b.grid && B.proxy.isNone
  else T.blocks.find? fun (_, B) => B.uid == b.uid

/-- The gang that a retry point's bin forms is the gang that failed (R213): it resumes with one sub-gang. -/
def State.formAgain (s : State) (t b g : Nat) : State :=
  let T := s.tile t
  match kget T.gangs g with
  | none => s
  | some G =>
    match kget T.blocks G.ctx with
    | none => s
    | some B =>
      if s.slicesTaken t + G.total ≤ 128 then
        match T.restart B G s.free (T.freePos G.total) with
        | none => s
        | some (slices, entry, resume) =>
          let U := { Sub.start g entry slices s.stamp with resume := resume }
          let T := { T with bins := kdel T.bins b, gangs := kset T.gangs g { G with rebin := none, bud := s.budOf B.grid }, subs := kset T.subs s.nextId U }
          ({ s.setTile t T with nextId := s.nextId + 1, stamp := s.stamp + 1, free := s.free + 16 }).admitReady t
      else s

/-- A READY bin forms a gang when enough slices are free (R85). The resume record of the first continuation rules the whole
gang: where a bin has gathered several parks of one address that recorded different values, the spec names none (log 30). -/
def State.formGang (s : State) (t b : Nat) : State :=
  let T := s.tile t
  match kget T.bins b with
  | none => s
  | some bn =>
    match bn.st, bn.retry with
    | .filling _, _ => s
    | .ready _, some g => s.formAgain t b g
    | .ready _, none =>
      let n := (bn.pos.length + 3) / 4
      match T.binBlock bn with
      | none => s
      | some (ctx, B) =>
        if s.slicesTaken t + n ≤ 128 then
          let conts := bn.pos.filterMap fun o => o.bind fun k => kget T.conts k
          let g0 := match conts.head? with | some c => c.gangIx | none => 0
          let positions := T.freePos n
          let seed := s.free
          let slices := formSlices T B seed g0 positions bn.pos
          let retry := Retry.begin T B.rcd (.conts bn.pos)
          let gid := s.nextId
          let G : Gang := { ctx := ctx, kind := .formed, ix := g0, feeder := !conts.isEmpty && conts.all (·.feeder),
                            detached := bn.detached, total := n, retry := retry, bud := s.budOf B.grid, rebin := none }
          let U := { Sub.start gid bn.entry slices s.stamp with resume := conts.head?.bind (·.resume) }
          let conts' : KMap Cont :=
            if retry.share then
              kmap T.conts fun k c => if bn.pos.contains (some k) then { c with place := .retry gid } else c
            else kfilter T.conts fun k _ => !bn.pos.contains (some k)
          let T' := { T with bins := kdel T.bins b, conts := conts', gangs := kset T.gangs gid G,
                             subs := kset T.subs (gid + 1) U }
          ({ s.setTile t T' with free := seed + 2 * n, nextId := gid + 2, stamp := s.stamp + 1 }).admitReady t
        else s

/-- A bin of detached continuations whose tile has lost the last block of their grid gives them back: they are ready to enter
a bin elsewhere (R86, log 60). -/
def Tile.unbin (T : Tile) (stamp : Nat) : Tile :=
  let lost := (T.bins.filter fun (_, b) => b.detached && b.retry.isNone && !T.holdsGrid b.grid).map (·.1)
  if lost.isEmpty then T
  else
    { T with
      bins := kfilter T.bins fun b _ => !lost.contains b
      conts := kmap T.conts fun _ c =>
        match c.place with
        | .bin b => if lost.contains b then { c with place := .ready stamp } else c
        | _ => c }

end Sys2Proof.Machine
end

