-- ==== Sys2Proof/Machine/Blocks.lean ====
section
/-!
DEFINITION. Slots of launch windows, pending-launch queues and edges; the end of a gang, a block and a grid
(04_launch_interface.md R61, R68, R69; 07_execution_model.md R111, R116; 13_traps_faults.md R217).
-/
namespace Sys2Proof.Machine

/-- A region queue of a held record is tried again once an edge slot returns (R72). -/
def Part.unhold (P : Part) : Part :=
  { P with queues := kmap P.queues fun _ q => if q.st = .held then { q with st := .waiting } else q }

/-- A slot of an edge whose control block lies at another node waits for the lead distributor to return it. -/
def State.edgeDue (s : State) (vf : Nat) (va : Word) : State :=
  match s.partOfVf vf with
  | none => s
  | some p =>
    match s.part p with
    | none => s
    | some P => s.setPart p { P with edgesDue := P.edgesDue ++ [(vf, va)] }

/-- The FREE counter of an edge control block rises by one, never above DEPTH (R68). -/
def State.returnEdge (s : State) (vf : Nat) (va : Word) : State :=
  match walk s vf va with
  | .error _ => s
  | .ok e =>
    let fa := e.out + (va.toNat - e.va)
    if fa / 2 ^ 42 = s.node then
      let pa := fa % 2 ^ 42
      let depth := s.le pa 4
      let free := s.le (pa + 4) 4
      let s := if free < depth then s.putBytes (pa + 4) (natLe 4 (free + 1)) else s
      { s with parts := kmap s.parts fun _ P => P.unhold }
    else s.edgeDue vf va

/-- The slot that held a grid's record returns (R61, R116, R69). -/
def State.returnSlot (s : State) (o : Origin) (grid : Nat) : State :=
  match o with
  | .window vf w =>
    let V := s.vf vf
    let W := kgetD V.windows w Window.reset
    let W' := if W.free.toNat < W.depth.toNat ∧ V.td ≠ .error then { W with free := W.free + 1 } else W
    s.setVf vf { V with windows := kset V.windows w W' }
  | .pend uid =>
    (s.mapBlock uid fun B => { B with pend := B.pend.filter fun p => p.grid != grid }).wakeSlots uid
  | .edge vf va => s.returnEdge vf va

/-- Removes a gang with its sub-gangs from a tile; the bin-store slots of its retry point are freed (R212). -/
def Tile.dropGang (T : Tile) (g : Nat) : Tile :=
  { T with gangs := kdel T.gangs g
           subs := kfilter T.subs fun _ U => U.gang != g
           conts := kfilter T.conts fun _ c => c.place != .retry g
           bins := kfilter T.bins fun _ b => b.retry != some g }

/-- A tile, or the image of one, without a stage gang and the context it takes (R188). -/
def Tile.dropStage (T : Tile) (g : Nat) : Tile :=
  match kget T.gangs g with
  | none => T
  | some G =>
    let T := T.dropGang g
    match kget T.blocks G.ctx with
    | some B => if B.proxy.isSome then { T with blocks := kdel T.blocks G.ctx } else T
    | none => T

/-- Frees the slots of sheaves that a change has left with no block: a tile that was loading one is empty again (R217). -/
def State.tidySheaves (s : State) (p : Nat) : State :=
  match s.part p with
  | none => s
  | some P =>
    let left := kfilter P.sheaves fun _ h => !h.image.blocks.isEmpty
    let s := s.setPart p { P with sheaves := left }
    { s with tiles := kmap s.tiles fun t T =>
        match T.mode with
        | .load slot _ => if P.hasTile t && (kget left slot).isNone then { T with mode := .vacant } else T
        | _ => T }

/-- Removes a stage gang, from the tile it stands on or from the sheaf that holds it. -/
def State.dropStageGang (s : State) (p t g : Nat) : State :=
  if (kget (s.tile t).gangs g).isSome then s.setTile t ((s.tile t).dropStage g)
  else
    match s.part p with
    | none => s
    | some P =>
      if P.sheaves.any fun (_, h) => (kget h.image.gangs g).isSome then
        (s.setPart p { P with sheaves := kmap P.sheaves fun _ h => { h with image := h.image.dropStage g } }).tidySheaves p
      else s

/-- Ends a skein with all its gangs. -/
def State.dropSkein (s : State) (p k : Nat) : State :=
  match s.part p with
  | none => s
  | some P =>
    match kget P.skeins k with
    | none => s
    | some K =>
      let s := K.stages.foldl (fun s st => match st.place with | .gang t g => s.dropStageGang p t g | _ => s) s
      let s := match K.foldGang with
        | some g => s.setTile K.tile ((s.tile K.tile).dropGang g)
        | none => s
      match s.part p with
      | some P => s.setPart p { P with skeins := kdel P.skeins k }
      | none => s

/-- Removes a block from its tile with its gangs, continuations, bins and skein; detached continuations stay (R86, R115). -/
def State.dropBlock (s : State) (t ctx : Nat) : State :=
  match kget (s.tile t).blocks ctx with
  | none => s
  | some B =>
    let s := match B.skein with
      | some k => s.dropSkein B.part k
      | none => s
    -- cluster peers no longer find it (log 50)
    let s := if B.peers.length ≤ 1 then s else
      { s with tiles := kmap s.tiles fun _ T => { T with blocks := kmap T.blocks fun _ X =>
          if X.grid == B.grid then { X with peers := X.peers.map fun p => if p == (t, ctx) then (256, 0) else p } else X } }
    let T := s.tile t
    let gone := (T.gangs.filter fun (_, G) => G.ctx == ctx).map (·.1)
    let T := gone.foldl (fun T g => T.dropGang g) T
    s.setTile t { T with
      scrubbed := false
      blocks := kdel T.blocks ctx
      copyQ := T.copyQ.filter fun c => c.uid != B.uid
      arrayQ := T.arrayQ.filter fun c => c.uid != B.uid
      conts := kfilter T.conts fun _ c => c.uid != B.uid || c.detached
      bins := kfilter T.bins fun _ b => b.uid != B.uid || b.detached }

/-- Counts the end of one block of a grid. -/
def State.countEnded (s : State) (g : Nat) (unrec : Bool) : State :=
  match kget s.grids g with
  | none => s
  | some G => s.setGrid g { G with ended := G.ended + 1, unrec := G.unrec || unrec }

/-- The continuations of a block with its bins, detached ones too, end with it (R217). -/
def Tile.endConts (T : Tile) (uid : Nat) : Tile :=
  { T with conts := kfilter T.conts fun _ c => c.uid != uid, bins := kfilter T.bins fun _ b => b.uid != uid }

/-- Ends a block as unrecovered, without the rule of its grid (R217). -/
def State.failBlock (s : State) (t ctx : Nat) : State :=
  match kget (s.tile t).blocks ctx with
  | none => s
  | some B =>
    let s := s.dropBlock t ctx
    ((s.setTile t ((s.tile t).endConts B.uid)).countEnded B.grid true).countErr (dieOf t) .unrecov

/-- The blocks of a grid that are resident. -/
def State.blocksOf (s : State) (g : Nat) : List (Nat × Nat) :=
  s.tiles.flatMap fun (t, T) => (T.blocks.filter fun (_, B) => B.grid == g && B.proxy.isNone).map fun (c, _) => (t, c)

/-- A tile, or the image of one, without some of its blocks and what belongs to them. -/
def Tile.without (T : Tile) (f : Block → Bool) : Tile :=
  let gone := T.blocks.filter fun (_, B) => f B
  let cs := gone.map (·.1)
  let us := gone.map (·.2.uid)
  { T with blocks := kfilter T.blocks fun c _ => !cs.contains c
           subs := kfilter T.subs fun _ U => !(match kget T.gangs U.gang with | some G => cs.contains G.ctx | none => false)
           gangs := kfilter T.gangs fun _ G => !cs.contains G.ctx
           conts := kfilter T.conts fun _ c => !us.contains c.uid
           bins := kfilter T.bins fun _ b => !us.contains b.uid
           copyQ := T.copyQ.filter fun c => !us.contains c.uid
           arrayQ := T.arrayQ.filter fun c => !us.contains c.uid }

/-- Ends blocks held in the sheaves of a partition as unrecovered, with their skeins; a sheaf left with no block frees its slot
(R217). -/
def State.failHeld (s : State) (p : Nat) (f : Block → Bool) : State :=
  match s.part p with
  | none => s
  | some P =>
    let gone := P.sheaves.flatMap fun (_, h) => (h.image.blocks.filter fun (_, B) => f B && B.proxy.isNone).map (·.2)
    if gone.isEmpty then s
    else
      let s := gone.foldl (fun s B => match B.skein with | some k => s.dropSkein p k | none => s) s
      let s := match s.part p with
        | some P => s.setPart p { P with sheaves := kmap P.sheaves fun _ h => { h with image := h.image.without f } }
        | none => s
      gone.foldl (fun s B => (s.countEnded B.grid true).countErr P.leadDie .unrecov) (s.tidySheaves p)

/-- The record of a grid is withdrawn when not all its blocks are placed: no further block is placed and its slot
returns (R217). -/
def State.withdraw (s : State) (g : Nat) : State :=
  match kget s.grids g with
  | none => s
  | some G =>
    if G.placed < G.rcd.r.grid ∧ ¬ G.withdrawn then
      let s := s.setGrid g { G with withdrawn := true, slotHeld := false }
      let s := match s.part G.part with
        | none => s
        | some P => s.setPart G.part { P with queues := kmap P.queues fun _ q => { q with recs := q.recs.filter fun r => r.grid != g } }
      if G.slotHeld then s.returnSlot G.rcd.origin g else s
    else s

/-- The grid rule of R217: with bit 2 of FDP every block of the grid ends, and an unplaced rest is withdrawn. -/
def State.failGrid (s : State) (g : Nat) : State :=
  match kget s.grids g with
  | none => s
  | some G =>
    let s := (s.blocksOf g).foldl (fun s tc => s.failBlock tc.1 tc.2) s
    (s.failHeld G.part fun B => B.grid == g).withdraw g

/-- A block ends as unrecovered, with its grid when its region's fault policy says so (R217). -/
def State.unrecovered (s : State) (t ctx : Nat) : State :=
  match kget (s.tile t).blocks ctx with
  | none => s
  | some B =>
    let s := s.failBlock t ctx
    match kget s.grids B.grid with
    | none => s
    | some G => if G.fdp.getLsbD 2 then s.failGrid B.grid else s

/-- A block, by its name, ends as unrecovered, where it is resident or in a sheaf (R209, R217). -/
def State.unrecoveredAt (s : State) (p uid : Nat) : State :=
  match s.findBlock uid with
  | some (t, c, _) => s.unrecovered t c
  | none =>
    match (s.part p).bind fun P => P.sheaves.findSome? fun (_, h) => h.image.blocks.find? fun (_, B) => B.uid == uid with
    | none => s
    | some (_, B) =>
      let s := s.failHeld p fun X => X.uid == uid
      match kget s.grids B.grid with
      | none => s
      | some G => if G.fdp.getLsbD 2 then s.failGrid B.grid else s

/-- Engine commands of a block that have not completed. -/
def Tile.cmdsOf (T : Tile) (uid : Nat) : List EngCmd := (T.copyQ ++ T.arrayQ).filter fun c => c.uid == uid

/-- Whether a detached continuation of a grid stands on a tile or in an image: in the bin store, or running. -/
def Tile.detachedOf (T : Tile) (grid : Nat) : Bool :=
  (T.conts.any fun (_, c) => c.detached && c.grid == grid) ||
  (T.gangs.any fun (_, G) => G.detached && (match kget T.blocks G.ctx with | some B => B.grid == grid | none => false))

/-- Whether a detached continuation of a grid remains anywhere (R111, R115). -/
def State.detachedLeft (s : State) (grid : Nat) : Bool :=
  (s.tiles.any fun (_, T) => T.detachedOf grid) || s.parts.any fun (_, P) => P.sheaves.any fun (_, h) => h.image.detachedOf grid

/-- Requests of a tile's accesses still on their way (R256). -/
def State.inFlight (s : State) (t seq : Nat) : Bool :=
  s.wire.any (fun m => m.tile == t && m.seq == seq) ||
  s.resps.any (fun r => r.tile == t && r.seq == seq) ||
  s.dies.any (fun (_, D) => D.inbox.any fun m => m.tile == t && m.seq == seq) ||
  s.outs.any (fun o => match o.owner with | .access t' q _ => t' == t && q == seq | _ => false)

/-- The conditions of R111: every gang and continuation of the block has ended, its pending-launch queue is empty, and
no command of it remains (R256). The last block of a grid waits for its detached continuations (R111). -/
def State.blockDone (s : State) (t ctx : Nat) (B : Block) : Bool :=
  let T := s.tile t
  B.begun && !(T.gangs.any fun (_, G) => G.ctx == ctx) && !(T.conts.any fun (_, c) => c.uid == B.uid && !c.detached) &&
  B.pend.isEmpty && (T.cmdsOf B.uid).isEmpty && B.skein.isNone &&
  (match kget s.grids B.grid with
   | none => true
   | some G => !(decide (G.ended + 1 = G.placed) && s.detachedLeft B.grid))

/-- Ends a block whose conditions hold; one with a held engine or loss report ends as unrecovered (R111, R206). -/
def State.settleBlock (s : State) (t ctx : Nat) : State :=
  match kget (s.tile t).blocks ctx with
  | none => s
  | some B =>
    if B.proxy.isNone ∧ (s.tile t).mode = .run ∧ s.blockDone t ctx B then
      if B.reports.all (fun r => r.group == 14) then (s.dropBlock t ctx).countEnded B.grid false else s.unrecovered t ctx
    else s

/-- Ends every block of a tile whose conditions hold. -/
def State.settleTile (s : State) (t : Nat) : State :=
  (kkeys (s.tile t).blocks).foldl (fun s c => s.settleBlock t c) s

/-! ### Retry points in bins (R212 to R214) -/

/-- Whether a tile lies within the retry scope of a region's fault policy from another (R64, R214). -/
def retryScope (fdp : Byte) (src t : Nat) : Bool :=
  match (fdp.setWidth 2).toNat with
  | 0 => t == src
  | 1 => fieldOf t == fieldOf src
  | 2 => dieOf t == dieOf src
  | _ => true

/-- The tiles other than the failing one on which a detached retry point may enter a bin: those within the scope that hold a
block of its grid (R214). -/
def State.retryTiles (s : State) (src grid : Nat) : List Nat :=
  match kget s.grids grid with
  | none => []
  | some G => (s.tiles.filter fun (t, T) => t != src && retryScope G.fdp src t && !s.tfence.contains t && T.holdsGrid grid).map (·.1)

/-- The slots of the bin store that a retry point keeps (R212). -/
def Retry.slots (r : Retry) : List Nat :=
  match r.point with
  | .conts pos => pos.filterMap id
  | _ => []

/-- The positions a retry point takes in its bin: those it had, or four for each slice of the initial state. -/
def Gang.positions (G : Gang) : List (Option Nat) :=
  match G.retry.point with
  | .conts pos => pos
  | _ => List.replicate (4 * G.total) none

/-- A retry point opens a FREE bin of its own on its gang's tile (R84, R213, R214). -/
def State.openRetryBin (s : State) (t g : Nat) (G : Gang) (B : Block) : State :=
  let T := s.tile t
  match kfree T.bins 32 with
  | none => s
  | some b =>
    let bn : Bin := { entry := B.rcd.entry, uid := B.uid, grid := B.grid, detached := G.detached, retry := some g,
                      st := .filling (s.usec t + s.bint t), pos := G.positions }
    { s.setTile t { T with bins := kset T.bins b (bn.close s.stamp), gangs := kset T.gangs g { G with rebin := none } } with stamp := s.stamp + 1 }

/-- A detached gang moves to another tile with its retry point and its share (R214). -/
def State.moveRetry (s : State) (src t g : Nat) (G : Gang) (grid : Nat) : State :=
  let T := s.tile src
  let T' := s.tile t
  match T'.blocks.find? fun (_, X) => X.proxy.isNone && X.grid == grid with
  | none => s
  | some (ctx, _) =>
    let ks := G.retry.slots
    let slots := ks.zip (T'.slotList ks.length)
    let slotOf : Nat → Option Nat := fun k => (slots.find? fun x => x.1 == k).map (·.2)
    let conts := slots.foldl (fun m x => match kget T.conts x.1 with | some c => kset m x.2 c | none => m) T'.conts
    let point := match G.retry.point with | .conts pos => .conts (pos.map fun o => o.bind slotOf) | p => p
    let G' := { G with ctx := ctx, retry := { G.retry with point := point } }
    (s.setTile src (T.dropGang g)).setTile t { T' with conts := conts, gangs := kset T'.gangs g G' }

/-- The retry point of a gang that failed enters a bin (R214): on its own tile, and that of a detached gang on another tile where
one may take it; it waits there for the bin, the slots and the share it needs. -/
def State.binAgain (s : State) (t g : Nat) : State :=
  match kget (s.tile t).gangs g with
  | none => s
  | some G =>
    match G.rebin, kget (s.tile t).blocks G.ctx with
    | some src, some B =>
      let others := if G.detached then s.retryTiles src B.grid else []
      if others.isEmpty then s.openRetryBin t g G B
      else
        match others.find? fun x =>
          let X := s.tile x
          X.mode == .run && decide (G.retry.slots.length ≤ X.freeSlots) && decide (X.sharesUsed < 4) && (kfree X.bins 32).isSome with
        | none => s
        | some x =>
          let s := s.moveRetry t x g G B.grid
          match kget (s.tile x).gangs g with
          | some G => s.openRetryBin x g G B
          | none => s
    | _, _ => s

/-- The retry points of a tile that wait for a bin. -/
def Tile.rebins (T : Tile) : List Nat := (T.gangs.filter fun (_, G) => G.rebin.isSome).map (·.1)

/-- What moves on of itself on a running tile after a step (R86, R87, R116): retry points enter bins, bins of a grid that has left give
their continuations back, runs parked on LAUNCH wake where their block has a slot, and ready runs enter bins. -/
def State.settleBins (s : State) (t : Nat) : State :=
  if (s.tile t).mode = .run ∧ ((s.tile t).conts ≠ [] ∨ (s.tile t).rebins ≠ []) then
    let s := (s.tile t).rebins.foldl (fun s g => s.binAgain t g) s
    let s := s.setTile t ((s.tile t).unbin s.stamp)
    let s := (s.tile t).blocks.foldl (fun s kB => s.wakeSlots kB.2.uid) s
    s.admitReady t
  else s

/-- A grid has ended when every block placed has ended and no more will be (R67, R217). -/
def Grid.over (G : Grid) : Bool := decide (G.ended ≥ G.placed) && (decide (G.placed = G.rcd.r.grid) || G.withdrawn)

end Sys2Proof.Machine
end

