-- ==== Sys2Proof/Machine/Ops.lean ====
section
/-!
DEFINITION. Taking an exception and returning from one, and what an instruction that raises causes does
(13_traps_faults.md R204 to R210; 07_execution_model.md R108).
-/
namespace Sys2Proof.Machine

/-- What a trap reports (R204, R205): the address TEPC receives, the lane (0xFF for none), the lanes whose causes are not
reported, and the operand-log slot when it belongs to one. -/
structure Trap where
  group : Nat
  code : Byte
  lane : Byte
  others : W32
  datum : Word
  imprecise : Bool
  log : Option Nat
  tepc : Word
  deriving DecidableEq, Repr

/-- TCAUSE at handler entry, with INH set (R204, R207). -/
def Trap.tcause (tr : Trap) : Word :=
  BitVec.ofNat 64 (tr.code.toNat * 2 ^ 24 + tr.lane.toNat * 2 ^ 16 + 2 ^ 15 + (if tr.imprecise then 2 ^ 14 else 0) +
    (match tr.log with | some k => 2 ^ 11 + k % 8 * 2 ^ 8 | none => 0) + tr.group % 32)

/-- INH of a slice (R204). -/
def Slice.inh (S : Slice) : Bool := S.tcause.getLsbD 15

/-- A slice as the handler finds it (R204, R207): trap registers written, latch rings and run depth saved. -/
def Slice.trapped (S : Slice) (tr : Trap) (depth : Nat) : Slice :=
  { S with
    tcause := tr.tcause
    tepc := tr.tepc
    tdet0 := tr.others
    tdet1 := tr.datum.setWidth 32
    tdet2 := (tr.datum >>> 32).setWidth 32
    svDepth := depth
    lanes := S.lanes.map fun L => { L with svRing := L.ring } }

/-- Handler entry of a sub-gang (R207): every slice receives the same trap registers, the run depth is 0, and issue
continues at the handler. -/
def Sub.enterHandler (U : Sub) (tr : Trap) (handler : Word) : Sub :=
  { U.mapSlices (fun S => S.trapped tr U.depth) with
    pc := handler, depth := 0, svResume := U.resume, resume := none, bpSkip := none, stall := none, binWait := none,
    regang := none }

/-- INH of a sub-gang: that of its lowest slice. -/
def Sub.inh (U : Sub) : Bool :=
  match U.low with
  | some (_, S) => S.inh
  | none => false

/-- TAKING AN EXCEPTION (R207, R209): the stopped sub-gang enters its block's handler; with INH set or no handler the
block ends as unrecovered. -/
def takeTrap (s : State) (t u : Nat) (tr : Trap) : State :=
  let T := s.tile t
  match kget T.subs u with
  | none => s
  | some U =>
    match kget T.gangs U.gang with
    | none => s
    | some G =>
      match kget T.blocks G.ctx with
      | none => s
      | some B =>
        if U.inh || B.rcd.handler == 0 then
          -- the owning block of a stage gang ends with it
          match B.proxy with
          | some uid => s.unrecoveredAt B.part uid
          | none => s.unrecovered t G.ctx
        else s.setTile t (T.setSub u (U.enterHandler tr B.rcd.handler))

/-- A slice after TRET (R208): the latch rings are restored and INH is cleared. -/
def Slice.returned (S : Slice) : Slice :=
  { S with tcause := S.tcause &&& ~~~ 0x8000#64, lanes := S.lanes.map fun L => { L with ring := L.svRing } }

/-- RETURN FROM AN EXCEPTION (R208): the ring and run depth saved at entry, INH cleared, issue at TEPC. After a
breakpoint of compare register k, that register does not match until one instruction has issued. -/
def Sub.leaveHandler (U : Sub) : Sub :=
  match U.low with
  | none => U
  | some (_, S) =>
    let k := bits S.tcause.toNat 31 24
    { U.mapSlices Slice.returned with
      pc := S.tepc, depth := S.svDepth, resume := U.svResume, svResume := none, stall := none, binWait := none
      bpSkip := if bits S.tcause.toNat 4 0 = 12 ∧ k < 4 then some k else none }

/-! ### Raising causes at an instruction -/

/-- The priority of a cause group, 1 highest (R205). -/
def groupRank (g : Nat) : Nat :=
  match g with
  | 15 => 1 | 1 => 2 | 2 => 3 | 18 => 4 | 11 => 5 | 3 => 6 | 4 => 7 | 5 => 8 | 6 => 9 | 7 => 10 | 8 => 11 | 9 => 12
  | 10 => 13 | 16 => 14 | 17 => 15 | 19 => 16 | 12 => 17 | 13 => 18 | 14 => 19 | 20 => 20 | _ => 21

/-- The instruction word a datum carries (R205). -/
def wordOf (i : Instr) : Word :=
  match encode i with
  | some w => w.setWidth 64
  | none => 0

/-- The datum of groups 1 and 2: the instruction word, with an operand code in [39:32] (R205). -/
def wordDatum (i : Instr) (code : Byte) : Word := wordOf i ||| (code.setWidth 64 <<< 32)

/-- A trap of the whole instruction (LANE 0xFF), at the instruction. -/
def trapAt (s : State) (I : Issuer) (group : Nat) (code : Byte) (datum : Word) : Out1 :=
  .next (takeTrap s I.t I.u ⟨group, code, 0xFF, 0, datum, false, none, I.sub.pc⟩)

/-- A trap of the whole instruction of a group whose datum is an address, where the cause has none: the spec states no
datum, so it is a free value (log 6). -/
def trapNoAddr (s : State) (I : Issuer) (group : Nat) (code : Byte) : Out1 :=
  trapAt { s with free := s.free + 1 } I group code (Config.freeWord s.free 0)

/-- A trap of the whole instruction whose datum is the instruction word. -/
def trapWord (s : State) (I : Issuer) (i : Instr) (group : Nat) (code : Byte) : Out1 := trapAt s I group code (wordOf i)

/-- Of several lanes' causes, the one reported: highest priority, then lowest lane; the others go to TDET0 (R206). -/
def pickCause (cs : List (Nat × Cause)) : Option (Nat × Cause × W32) :=
  match cs.foldl (fun (best : Option (Nat × Cause)) (lc : Nat × Cause) =>
      match best with
      | none => some lc
      | some b => if groupRank lc.2.group < groupRank b.2.group then some lc else some b) none with
  | none => none
  | some (l, c) =>
    some (l, c, cs.foldl (fun m lc => if lc.1 = l then m else m ||| (1#32 <<< lc.1)) 0)

/-- A trap of a lane instruction none of whose lanes takes effect (R206). -/
def trapLanes (s : State) (I : Issuer) (cs : List (Nat × Cause)) : Out1 :=
  match pickCause cs with
  | none => .next s
  | some (l, c, others) =>
    .next (takeTrap s I.t I.u ⟨c.group, c.code, BitVec.ofNat 8 l, others, c.datum, false, none, I.sub.pc⟩)

/-! ### Slices and lanes of the issuer -/

/-- Whether lane j of the gang is active in a sub-gang (R103, R104). -/
def Sub.active (U : Sub) (j : Nat) : Bool :=
  match kget U.slices (j / 4) with
  | some S => S.mask.getLsbD (j % 4)
  | none => false

/-- The active lanes of a sub-gang, ascending. -/
def Sub.actives (U : Sub) : List Nat := (List.range 32).filter U.active

/-- The lanes of a sub-gang's span, ascending (R273). -/
def Sub.span (U : Sub) : List Nat := U.slices.flatMap fun (i, _) => (List.range 4).map fun j => 4 * i + j

/-- A lane of a sub-gang. -/
def Sub.lane (U : Sub) (j : Nat) : Option Lane :=
  match kget U.slices (j / 4) with
  | some S => S.lanes[j % 4]?
  | none => none

/-- Changes one lane. -/
def Sub.mapLane (U : Sub) (j : Nat) (f : Lane → Lane) : Sub :=
  match kget U.slices (j / 4) with
  | some S => { U with slices := kset U.slices (j / 4) { S with lanes := S.lanes.modify (j % 4) f } }
  | none => U

/-- The value of a register no write has reached. -/
def Fill.word (f : Fill) (k : Nat) : Word :=
  match f with
  | .zero => 0
  | .free seed => Config.freeWord seed k

/-- A lane register (R225). -/
def Lane.reg (L : Lane) (r : Nat) : W32 := (kget L.v r).getD ((L.fill.word r).setWidth 32)
/-- A write leaves the register without a poison mark (R96). -/
def Lane.setReg (L : Lane) (r : Nat) (x : W32) : Lane := { L with v := kset L.v r x, bad := L.bad.filter (· != r) }

/-- A predicate of a lane; p0 reads 1 (R228). -/
def Lane.pred (L : Lane) (k : Nat) : Bool := k == 0 || L.p.getLsbD k
/-- Writes a predicate; a write to p0 is discarded (R228). -/
def Lane.setPred (L : Lane) (k : Nat) (x : Bool) : Lane :=
  if k = 0 then L else { L with p := (L.p &&& ~~~ (1#8 <<< k)) ||| (if x then 1#8 <<< k else 0) }

/-- A uniform register of a slice (R105). -/
def Slice.sreg (S : Slice) (r : Nat) : Word := (kget S.s r).getD (S.fill.word r)
def Slice.setSreg (S : Slice) (r : Nat) (x : Word) : Slice := { S with s := kset S.s r x, bad := S.bad.filter (· != r) }

/-- Writes a uniform register in every slice of a sub-gang (R105). -/
def Sub.setS (U : Sub) (r : Nat) (x : Word) : Sub := U.mapSlices fun S => S.setSreg r x

/-- The uniform register of the issuer's lowest slice (R105). -/
def Sub.sreg (U : Sub) (r : Nat) : Word :=
  match U.low with
  | some (_, S) => S.sreg r
  | none => 0

/-- Writes a uniform destination field unless it is suppressed (R228). -/
def Sub.setDst (U : Sub) (d : UDst) (x : Word) : Sub := if d.nw then U else U.setS d.r.toNat x

/-- A result enters a lane's latch ring (R229); with run depth 0 a new run begins there. -/
def Lane.push (L : Lane) (depth : Nat) (x : W32) : Lane :=
  { L with ring := if depth = 0 then [x] else (x :: L.ring).take 4 }

/-- A lane that produces no result as a new run begins holds none of the run's results (R230, log 11). -/
def Lane.noPush (L : Lane) (depth : Nat) : Lane := if depth = 0 then { L with ring := [] } else L

end Sys2Proof.Machine
end

