-- ==== Sys2Proof/Machine/Operands.lean ====
section
/-!
DEFINITION. Operands: what each operand code reads, the checks of register operands, the window of a stage, pending
destinations, and the frames of straight instructions (14_encoding.md R225 to R230, R238; 11_skeins.md R175;
08_memory_translation.md R131).
-/
namespace Sys2Proof.Machine

/-! ### Registers an instruction names -/

/-- A register by its name in the instruction: lane, uniform or predicate register. -/
inductive RegName where
  | v (n : Nat)
  | s (n : Nat)
  | p (n : Nat)
  deriving DecidableEq, Repr

/-- The window of lane registers an issuer may name (R175, R227): what is added to a register number, the first number
not allowed, and in a stage the address of its descriptor. -/
structure Win where
  base : Nat
  limit : Nat
  skein : Option Word
  deriving DecidableEq, Repr

/-- The skein of a stage gang or folded gang. -/
def State.skeinOf (s : State) (k : GangKind) : Option Skein :=
  match k with
  | .stage p sk _ => (s.part p).bind fun P => kget P.skeins sk
  | .folded p sk => (s.part p).bind fun P => kget P.skeins sk
  | _ => none

/-- The stage a gang runs: that of a stage gang, the running stage of a folded gang. -/
def State.stageOf (s : State) (k : GangKind) : Option (Nat × Stage) :=
  match k with
  | .stage _ _ n => (s.skeinOf k).bind fun K => (K.stages[n]?).map fun st => (n, st)
  | .folded _ _ => (s.skeinOf k).bind fun K => (K.stages[K.run]?).map fun st => (K.run, st)
  | _ => none

/-- The window base of a stage: eight times the WIN values of the lower stages (R175). -/
def windowBase (stages : List Stage) (n : Nat) : Nat := 8 * (stages.take n).foldl (fun a st => a + st.win) 0

/-- The window of a gang of a kind whose block has n lane registers. -/
def State.windowOf (s : State) (k : GangKind) (n : Nat) : Win :=
  match k with
  | .stage _ _ _ =>
    match s.skeinOf k, s.stageOf k with
    | some K, some (_, st) => ⟨0, 8 * st.win, some K.desc⟩
    | _, _ => ⟨0, n, none⟩
  | .folded _ _ =>
    match s.skeinOf k, s.stageOf k with
    | some K, some (m, st) => ⟨windowBase K.stages m, 8 * st.win, some K.desc⟩
    | _, _ => ⟨0, n, none⟩
  | _ => ⟨0, n, none⟩

/-- The window of an issuer. -/
def State.window (s : State) (I : Issuer) : Win := s.windowOf I.gang.kind I.block.vregs

/-- One operand position as the checks of R238 see it: its code, whether the code is reserved, the latch it reads, the
lane registers it names with the size of their group, whether a uniform group is misaligned, whether its class is not
accepted, the registers it touches, and whether it only writes them. -/
structure Use where
  code : Byte
  res : Bool
  lat : Option Nat
  reg : Nat
  cnt : Nat
  odd : Bool
  cls : Bool
  touch : List RegName
  wr : Bool
  deriving DecidableEq, Repr

namespace Use

def lanes (code : Byte) (r n : Nat) : Use :=
  ⟨code, false, none, r, n, decide (r % n ≠ 0), false, (List.range n).map fun k => .v (r + k), false⟩
def plain (code : Byte) (touch : List RegName) : Use := ⟨code, false, none, 0, 0, false, false, touch, false⟩
def bad (code : Byte) : Use := ⟨code, false, none, 0, 0, false, true, [], false⟩
def latch (code : Byte) (k : Nat) (cls : Bool) : Use := ⟨code, false, some k, 0, 0, false, cls, [], false⟩
def reserved (code : Byte) : Use := ⟨code, true, none, 0, 0, false, false, [], false⟩

/-- A source of one register, of any class. -/
def src (o : Opnd) : Use :=
  match o with
  | .v r => lanes o.code r.toNat 1
  | .s r => plain o.code [.s r.toNat]
  | .b k => latch o.code k.toNat false
  | .res c => reserved c
  | _ => plain o.code []

/-- A 64-bit source of a lane instruction: a lane pair or a uniform register (R279, R283). -/
def wide (o : Opnd) : Use :=
  match o with
  | .v r => lanes o.code r.toNat 2
  | .s r => plain o.code [.s r.toNat]
  | .b k => latch o.code k.toNat true
  | .res c => reserved c
  | _ => bad o.code

/-- A position that names a uniform register and says that any other code traps with CODE 7: a latch and a reserved code too
(R252, R283, R360; log 64). -/
def uni (o : Opnd) : Use :=
  match o with
  | .s r => plain o.code [.s r.toNat]
  | _ => bad o.code

/-- A position that accepts a lane register group only (R286, R339). -/
def group (o : Opnd) (n : Nat) : Use :=
  match o with
  | .v r => lanes o.code r.toNat n
  | .b k => latch o.code k.toNat true
  | .res c => reserved c
  | _ => bad o.code

/-- A position that accepts an even uniform register, the low one of n (R287, R295). -/
def uniPair (o : Opnd) (n : Nat) : Use :=
  match o with
  | .s r => ⟨o.code, false, none, 0, 0, decide (r.toNat % n ≠ 0), false, (List.range n).map fun k => .s (r.toNat + k), false⟩
  | .b k => latch o.code k.toNat true
  | .res c => reserved c
  | _ => bad o.code

/-- Lane registers named by number: n from r. -/
def vreg (r n : Nat) : Use := lanes (BitVec.ofNat 8 r) r n

/-- Lane registers v(r) to v(r + n − 1) with no alignment. -/
def vrun (r n : Nat) : Use := ⟨BitVec.ofNat 8 r, false, none, r, n, false, false, (List.range n).map fun k => .v (r + k), false⟩

/-- A lane destination of n registers; a suppressed one is checked only if it is read (R228). -/
def dst (d : LDst) (n : Nat) (read : Bool) : Use :=
  if d.nw && !read then plain d.code [] else { lanes (d.r.setWidth 8) d.r.toNat n with wr := !read }

/-- Uniform registers named by number: n from r, aligned. -/
def sreg (r n : Nat) : Use :=
  ⟨0x80#8 + BitVec.ofNat 8 r, false, none, 0, 0, decide (r % n ≠ 0), false, (List.range n).map fun k => .s (r + k), false⟩

/-- A uniform destination of n registers (R228). -/
def udst (d : UDst) (n : Nat) (read : Bool) : Use :=
  if d.nw && !read then plain d.code [] else { sreg d.r.toNat n with wr := !read }

/-- Uniform registers named by number that are only written. -/
def out (r n : Nat) : Use := { sreg r n with wr := true }

/-- A predicate read or written. -/
def prd (k : BitVec 3) : Use := plain 0 (if k = 0 then [] else [.p k.toNat])

end Use

/-- The first row of R238 that applies to the operands: its group and CODE, and the offending code. A register outside a
stage's window belongs to group 16, of lower priority (R175, R206). -/
def useFault (W : Win) (depth : Nat) (straight : Bool) (us : List Use) : Option (Nat × Byte × Byte) :=
  match us.find? fun u => u.res with
  | some u => some (2, 1, u.code)
  | none =>
    match us.find? fun u => match u.lat with | some k => !straight || decide (depth ≤ k) | none => false with
    | some u => some (2, 2, u.code)
    | none =>
      let out := us.find? fun u => u.cnt != 0 && decide (W.limit < u.reg + u.cnt)
      match if W.skein.isSome then none else out with
      | some u => some (2, 5, u.code)
      | none =>
        match us.find? fun u => u.odd with
        | some u => some (2, 6, u.code)
        | none =>
          match us.find? fun u => u.cls with
          | some u => some (2, 7, u.code)
          | none => out.map fun u => (16, 3, u.code)

/-- The registers a list of operands touches. -/
def touches (us : List Use) : List RegName := us.flatMap fun u => u.touch

/-- Whether an operand reads a latch. -/
def readsLatch (us : List Use) : Bool := us.any fun u => u.lat.isSome

/-! ### What an operand reads (R225, R226) -/

/-- The FP32 pattern of an inline float. -/
def fltBits (k : BitVec 2) : W32 :=
  match k.toNat with
  | 0 => 0x3F000000 | 1 => 0x3F800000 | 2 => 0x40000000 | _ => 0xBF800000

/-- The value of a latch in a lane; a result not of this run reads a free value (R230, log 6). -/
def latchVal (seed : Nat) (U : Sub) (j k : Nat) : W32 :=
  match (U.lane j).bind fun L => L.ring[k]? with
  | some x => x
  | none => (Config.freeWord seed (1000 + 4 * j + k)).setWidth 32

/-- A lane register of lane j, through the window. -/
def vregOf (W : Win) (U : Sub) (j r : Nat) : W32 :=
  match U.lane j with
  | some L => L.reg (W.base + r)
  | none => 0

/-- %gang of lane j. -/
def gangOf (U : Sub) (j : Nat) : Nat :=
  match U.lane j with
  | some L => L.gangIx
  | none => 0

/-- A 32-bit operand of lane j in an integer position. -/
def laneVal (W : Win) (seed : Nat) (U : Sub) (o : Opnd) (j : Nat) : W32 :=
  match o with
  | .v r => vregOf W U j r.toNat
  | .s r => (U.sreg r.toNat).setWidth 32
  | .b k => latchVal seed U j k.toNat
  | .pos n => n.setWidth 32
  | .neg n => BitVec.ofInt 32 (-1 - n.toNat)
  | .flt k => fltBits k
  | .lane => BitVec.ofNat 32 j
  | .slice => BitVec.ofNat 32 (j / 4)
  | .gang => BitVec.ofNat 32 (gangOf U j)
  | .res _ => 0

/-- An operand of lane j in a position of a floating-point format: integers and inline floats are converted to it. -/
def laneValFmt (f : FFmt) (W : Win) (seed : Nat) (U : Sub) (o : Opnd) (j : Nat) : W32 :=
  let int : Int → W32 := fun v => BitVec.ofNat 32 (f.encode (.fin (decide (v < 0)) v.natAbs 0))
  match o with
  | .pos n => int n.toNat
  | .neg n => int (-1 - n.toNat)
  | .flt k => BitVec.ofNat 32 (f.encode (fval (fltBits k)))
  | .lane => int j
  | .slice => int (j / 4 : Nat)
  | .gang => int (gangOf U j)
  | o => laneVal W seed U o j

/-- A 32-bit operand of lane j in an FP32 position: integers are converted exactly. -/
def laneValF (W : Win) (seed : Nat) (U : Sub) (o : Opnd) (j : Nat) : W32 :=
  match o with
  | .pos n => intF32 n.toNat
  | .neg n => intF32 (-1 - n.toNat)
  | .lane => intF32 j
  | .slice => intF32 (j / 4 : Nat)
  | .gang => intF32 (gangOf U j)
  | o => laneVal W seed U o j

/-- A 64-bit operand of lane j: a lane pair, or a uniform register. -/
def laneVal64 (W : Win) (U : Sub) (o : Opnd) (j : Nat) : Word :=
  match o with
  | .v r => vregOf W U j (r.toNat + 1) ++ vregOf W U j r.toNat
  | .s r => U.sreg r.toNat
  | _ => 0

/-- The lowest active lane of an issuer. -/
def Sub.lowActive (U : Sub) : Option Nat := U.actives.head?

/-- A 64-bit operand of a uniform instruction (R105, R226). -/
def uniVal (W : Win) (seed : Nat) (U : Sub) (o : Opnd) : Word :=
  match o with
  | .v r => match U.lowActive with | some j => (vregOf W U j r.toNat).setWidth 64 | none => 0
  | .s r => U.sreg r.toNat
  | .b k => match U.lowActive with | some j => (latchVal seed U j k.toNat).setWidth 64 | none => 0
  | .pos n => n.setWidth 64
  | .neg n => BitVec.ofInt 64 (-1 - n.toNat)
  | .flt k => (fltBits k).setWidth 64
  | .lane => match U.lowActive with | some j => BitVec.ofNat 64 j | none => 0
  | .slice => match U.low with | some (i, _) => BitVec.ofNat 64 i | none => 0
  | .gang =>
    match U.lowActive with
    | some j => BitVec.ofNat 64 (gangOf U j)
    | none => match U.low with | some (i, _) => BitVec.ofNat 64 (gangOf U (4 * i)) | none => 0
  | .res _ => 0

/-! ### Writing lane results -/

/-- Writes n words into the registers of lane j from r, through the window. -/
def writeRegs (W : Win) (U : Sub) (j r : Nat) (ws : List W32) : Sub :=
  U.mapLane j fun L => ws.zipIdx.foldl (fun L (x, k) => L.setReg (W.base + r + k) x) L

/-- Writes the result of a straight lane instruction in one lane: registers unless suppressed, and the latch (R229). -/
def writeResult (W : Win) (U : Sub) (depth j : Nat) (d : LDst) (ws : List W32) : Sub :=
  let U := if d.nw then U else writeRegs W U j d.r.toNat ws
  U.mapLane j fun L => L.push depth (ws.headD 0)

/-- The lanes of a sub-gang after a ring-advancing instruction: active lanes take their results; in the others a run
that begins now holds none (R230, log 11). -/
def writeResults (W : Win) (U : Sub) (d : LDst) (res : List (Nat × List W32)) : Sub :=
  let depth := U.depth
  let U := if depth = 0 then U.mapSlices fun S => { S with lanes := S.lanes.map fun L => L.noPush 0 } else U
  res.foldl (fun U (j, ws) => writeResult W U depth j d ws) U

/-! ### Pending destinations (R131) -/

/-- Whether an entry still holds an access that has not faulted: it is on its way, or its result is not yet written. -/
def LogEntry.pending (e : LogEntry) : Bool :=
  e.accs.any fun a => match a.st with | .faulted _ _ _ => false | _ => true
/-- Whether an entry has a faulted access. -/
def LogEntry.faulted (e : LogEntry) : Bool :=
  e.accs.any fun a => match a.st with | .faulted _ _ _ => true | _ => false

def seqRegs (f : Nat → RegName) (r n : Nat) : List RegName := (List.range n).map fun k => f (r + k)

/-- The registers the results of a logged instruction are owed to. -/
def destsOf (i : Instr) : List RegName :=
  match i with
  | .ldLane d _ ty _ => if d.nw then [] else seqRegs .v d.r.toNat ty.regs
  | .lds d _ ty _ => if d.nw then [] else seqRegs .v d.r.toNat ty.regs
  | .sldLane d _ ty pm _ => (if d.nw then [] else seqRegs .v d.r.toNat ty.regs) ++ (if pm = 0 then [] else [.p pm.toNat])
  | .srankLane d _ pm => (if d.nw then [] else seqRegs .v d.r.toNat 4) ++ (if pm = 0 then [] else [.p pm.toNat])
  | .sanchLane d _ _ => if d.nw then [] else seqRegs .v d.r.toNat 2
  | .aaddLane d _ _ _ | .afadd d _ _ _ | .amin d _ _ _ | .amaxLane d _ _ _ | .aminu d _ _ _ | .amaxu d _ _ _
  | .aand d _ _ _ | .aor d _ _ _ | .axor d _ _ _ | .axchgLane d _ _ _ | .acasLane d _ _ _ => [.v d.toNat]
  | .saadd d _ ty _ | .samin d _ ty _ | .samax d _ ty _ | .sacas d _ ty _ | .saxchg d _ ty _ =>
    match d with
    | .v r => seqRegs .v r.toNat (ty.bytes / 4)
    | _ => []
  | .ldUniform d _ ty _ => if d.nw then [] else seqRegs .s d.r.toNat (if ty = .q then 2 else 1)
  | .sldUniform d _ ty pm _ =>
    (if d.nw then [] else seqRegs .s d.r.toNat (if ty = .q then 2 else 1)) ++ (if pm = 0 then [] else [.p pm.toNat])
  | .aaddUniform d _ _ _ | .acasUniform d _ _ _ | .axchgUniform d _ _ _ | .amaxUniform d _ _ _ =>
    if d.nw then [] else [.s d.r.toNat]
  | .snew _ _ n | .slen _ n | .ssplit _ _ n | .sgap _ _ n | .sanchUniform _ _ n => [.s n.toNat]
  | .srankUniform _ pm n => seqRegs .s n.toNat 2 ++ (if pm = 0 then [] else [.p pm.toNat])
  | _ => []

/-- The registers the pending entries of an issuer are owed. -/
def Sub.owed (U : Sub) : List RegName :=
  U.slices.flatMap fun (_, S) => S.log.flatMap fun e => if e.pending then destsOf e.i else []

/-- An instruction that touches a register a pending entry owes waits (R131). -/
def Sub.hazard (U : Sub) (rs : List RegName) : Bool :=
  let o := U.owed
  !o.isEmpty && rs.any fun r => o.contains r

/-! ### Raising the cause of an instruction as a whole -/

/-- Whether a word belongs to the lane set (R220). -/
def laneWord (w : W32) : Bool := !w.getLsbD 31

/-- A cause of the instruction as a whole: a lane instruction raises it in every active lane (LANE 0xFF when none is
active), a uniform one with LANE 0xFF (R204, R206; log 29). -/
def trapWhole (s : State) (I : Issuer) (lane : Bool) (group : Nat) (code : Byte) (datum : Word) : Out1 :=
  if lane then
    match I.sub.actives with
    | [] => trapAt s I group code datum
    | ls => trapLanes s I (ls.map fun j => (j, ⟨group, code, datum⟩))
  else trapAt s I group code datum

/-- Whether an instruction belongs to the lane set. -/
def isLane (i : Instr) : Bool :=
  match encode i with
  | some w => laneWord w
  | none => false

/-- The registers that a list of operands reads. -/
def reads (us : List Use) : List RegName := us.flatMap fun u => if u.wr then [] else u.touch

/-- Whether one of the registers read is a lane register of lane j that a restore left poisoned (R96). -/
def Sub.laneBad (U : Sub) (W : Win) (rs : List RegName) (j : Nat) : Bool :=
  match U.lane j with
  | some L => !L.bad.isEmpty && rs.any fun r => match r with | .v n => L.bad.contains (W.base + n) | _ => false
  | none => false

/-- Whether one of the registers read is a uniform register that a restore left poisoned (R96). -/
def Sub.uniBad (U : Sub) (rs : List RegName) : Bool :=
  match U.low with
  | some (_, S) => !S.bad.isEmpty && rs.any fun r => match r with | .s n => S.bad.contains n | _ => false
  | none => false

/-- Whether an instruction of the lane or the uniform set reads a poisoned register (R96): in an active lane, or, of a uniform
instruction, in the lowest one. -/
def Sub.readsBad (U : Sub) (W : Win) (lane : Bool) (us : List Use) : Bool :=
  let rs := reads us
  if lane then U.actives.any fun j => U.laneBad W rs j || U.uniBad rs
  else U.uniBad rs || (match U.lowActive with | some j => U.laneBad W rs j | none => false)

/-- The registers read hold no poison mark any more: the first use has reported it (log 39). -/
def Sub.heal (U : Sub) (W : Win) (us : List Use) : Sub :=
  let rs := reads us
  U.mapSlices fun S =>
    { S with bad := S.bad.filter fun n => !rs.contains (.s n)
             lanes := S.lanes.map fun L => { L with bad := L.bad.filter fun n => !(decide (W.base ≤ n) && rs.contains (.v (n - W.base))) } }

/-- The first use of a poisoned register raises group 15, CODE 7 (R96, R205). -/
def trapBad (s : State) (I : Issuer) (W : Win) (lane : Bool) (us : List Use) : Out1 :=
  let rs := reads us
  let s' := s.setSub I.t I.u (I.sub.heal W us)
  if lane then trapLanes s' I ((I.sub.actives.filter fun j => I.sub.laneBad W rs j || I.sub.uniBad rs).map fun j => (j, ⟨15, 7, 0⟩))
  else trapAt s' I 15 7 0

/-- Whether an instruction is one that a stage gang may not execute (R176): group 4, CODE 7 (R205). -/
def barredInStage (i : Instr) : Bool :=
  match i with
  | .launch _ | .suspend _ | .tlwait _ _ | .tlqry _ _ | .spawn _ _ _ _ | .sendLane _ _ _ _ | .recvLane _ _ _ _ | .sendUniform _ _ _
  | .recvUniform _ _ _ | .accmov _ _ _ | .histrd _ _ _ => true
  | _ => false

/-- The operand checks of an instruction, the wait for owed registers, the first use of a poisoned register, whose cause
precedes those of operands, then the rest: `f` receives the window and the seed for undefined latches (R96, R205, R230, R238).
A register outside a stage's window yields to the permission cause of an instruction that no stage may execute. -/
def withOperands (s : State) (i : Instr) (straight : Bool) (us : List Use)
    (f : State → Issuer → Win → Nat → Out1) : Out1 :=
  withIssuer s fun I =>
    let W := s.window I
    if I.sub.readsBad W (isLane i) us && !I.sub.hazard (touches us) then trapBad s I W (isLane i) us
    else
      match useFault W I.sub.depth straight us with
      | some (g, c, code) =>
        if g = 16 ∧ barredInStage i = true then trapWhole { s with free := s.free + 1 } I (isLane i) 4 7 (Config.freeWord s.free 0)
        else trapWhole s I (isLane i) g c (if g = 16 then W.skein.getD 0 else wordDatum i code)
      | none =>
        if I.sub.hazard (touches us) then wait s I
        else if readsLatch us then f { s with free := s.free + 1 } I W s.free
        else f s I W 0

/-! ### Frames of straight lane instructions -/

/-- The readings a lane instruction's function uses. -/
structure Rd where
  W : Win
  seed : Nat
  U : Sub

def Rd.int (R : Rd) (o : Opnd) (j : Nat) : W32 := laneVal R.W R.seed R.U o j
def Rd.flt (R : Rd) (o : Opnd) (j : Nat) : W32 := laneValF R.W R.seed R.U o j
def Rd.fmt (R : Rd) (f : FFmt) (o : Opnd) (j : Nat) : W32 := laneValFmt f R.W R.seed R.U o j
def Rd.wide (R : Rd) (o : Opnd) (j : Nat) : Word := laneVal64 R.W R.U o j
def Rd.v (R : Rd) (j : Nat) (r : Nat) : W32 := vregOf R.W R.U j r
def Rd.p (R : Rd) (j : Nat) (k : BitVec 3) : Bool :=
  match R.U.lane j with
  | some L => L.pred k.toNat
  | none => false

/-- A straight lane instruction that writes n registers of each active lane: the results by lane (R104, R229). -/
def laneResult (s : State) (i : Instr) (us : List Use) (d : LDst) (f : Rd → Nat → List W32) : Out1 :=
  withOperands s i true us fun s I W seed =>
    let R : Rd := ⟨W, seed, I.sub⟩
    retire s I .ring (writeResults W I.sub d (I.sub.actives.map fun j => (j, f R j)))

/-- A straight lane instruction that writes a predicate of each active lane (R266). -/
def lanePred (s : State) (i : Instr) (us : List Use) (pd : BitVec 3) (f : Rd → Nat → Bool) : Out1 :=
  withOperands s i true (Use.prd pd :: us) fun s I W seed =>
    let R : Rd := ⟨W, seed, I.sub⟩
    retire s I .straight (I.sub.actives.foldl (fun U j => U.mapLane j fun L => L.setPred pd.toNat (f R j)) I.sub)

/-- d ← f a b of integers. -/
def laneInt2 (s : State) (i : Instr) (d : LDst) (a b : Opnd) (f : W32 → W32 → W32) : Out1 :=
  laneResult s i [.src a, .src b, .dst d 1 false] d fun R j => [f (R.int a j) (R.int b j)]

/-- d ← f a b d of integers. -/
def laneInt3 (s : State) (i : Instr) (d : LDst) (a b : Opnd) (f : W32 → W32 → W32 → W32) : Out1 :=
  laneResult s i [.src a, .src b, .dst d 1 true] d fun R j => [f (R.int a j) (R.int b j) (R.v j d.r.toNat)]

/-- d ← f a of an integer. -/
def laneInt1 (s : State) (i : Instr) (d : LDst) (a : Opnd) (f : W32 → W32) : Out1 :=
  laneResult s i [.src a, .dst d 1 false] d fun R j => [f (R.int a j)]

/-- d ← f a b of FP32. -/
def laneFlt2 (s : State) (i : Instr) (d : LDst) (a b : Opnd) (f : W32 → W32 → W32) : Out1 :=
  laneResult s i [.src a, .src b, .dst d 1 false] d fun R j => [f (R.flt a j) (R.flt b j)]

/-- d ← f a of FP32. -/
def laneFlt1 (s : State) (i : Instr) (d : LDst) (a : Opnd) (f : W32 → W32) : Out1 :=
  laneResult s i [.src a, .dst d 1 false] d fun R j => [f (R.flt a j)]

/-- A 7-bit destination that always writes (R228). -/
def dstOf (r : BitVec 7) : LDst := ⟨false, r⟩

/-- A uniform instruction of the straight range or a plain uniform computation: d ← f (R243). -/
def uniResult (s : State) (i : Instr) (us : List Use) (d : UDst) (f : (Opnd → Word) → Sub → Word) : Out1 :=
  withOperands s i true us fun s I W seed =>
    retire s I .straight (I.sub.setDst d (f (uniVal W seed I.sub) I.sub))

/-- d ← f a b of 64-bit uniform values. -/
def uni2 (s : State) (i : Instr) (d : UDst) (a b : Opnd) (f : Word → Word → Word) : Out1 :=
  uniResult s i [.src a, .src b, .udst d 1 false] d fun rd _ => f (rd a) (rd b)

end Sys2Proof.Machine
end

