-- ==== Sys2Proof/Machine/Control.lean ====
section
/-!
DEFINITION. Branches, splits, REGANG, execution masks and WAITC (07_execution_model.md R104 to R107;
15_uniform_instructions.md R249 to R255, R257 to R259).
-/
namespace Sys2Proof.Machine

/-! ### Branches and splits -/

/-- The target of a branch: its own address plus four times the offset (R224). -/
def branchTarget {n : Nat} (pc : Word) (off : BitVec n) : Word := pc + off.signExtend 64 * 4

/-- A sub-gang that has branched to pc with some of its slices: run depth 0 (R230, R249). -/
def Sub.branched (U : Sub) (pc : Word) (slices : KMap Slice) : Sub :=
  { U.retire .other with pc := pc, slices := slices }

/-- The issuer continues in parts, one for each program counter reached: one part goes on as the issuer, several split it
(R106). The first part keeps the issuer's name and its held reports. -/
def splitInto (s : State) (I : Issuer) (U : Sub) (parts : List (Word × KMap Slice)) : State :=
  match parts with
  | [] => s
  | (pc, sl) :: rest =>
    rest.foldl (fun s (pc, sl) =>
      { s.setSub I.t s.nextId { U.branched pc sl with reports := [] } with nextId := s.nextId + 1 })
      (s.setSub I.t I.u (U.branched pc sl))

/-- A branch with an outcome for each slice (R249). -/
def branch (s : State) (I : Issuer) (U : Sub) (target : Word) (taken : Slice → Nat → Bool) : Out1 :=
  let yes := kfilter U.slices fun i S => taken S i
  let no := kfilter U.slices fun i S => !taken S i
  let parts := if no.isEmpty then [(target, yes)] else if yes.isEmpty then [(U.pc + 4, no)]
    else [(U.pc + 4, no), (target, yes)]
  .next (splitInto s I U parts)

/-- BR (R250). -/
def execBr (off : BitVec 24) (s : State) : Out1 :=
  withOperands s (.br off) false [] fun s I _ _ =>
    branch s I I.sub (branchTarget I.sub.pc off) fun _ _ => true

/-- The sub-gang of one slice of an issuer. -/
def Sub.only (U : Sub) (i : Nat) (S : Slice) : Sub := { U with slices := [(i, S)] }

/-- A branch operand: a lane register is read in each slice, any other code once (R250). -/
def sliceVal (W : Win) (U : Sub) (o : Opnd) (i : Nat) (S : Slice) : Word :=
  match o with
  | .v _ => uniVal W 0 (U.only i S) o
  | o => uniVal W 0 U o

/-- BRZ (R250). -/
def execBrz (c : Opnd) (off : BitVec 16) (s : State) : Out1 :=
  withOperands s (.brz c off) false [.src c] fun s I W _ =>
    branch s I I.sub (branchTarget I.sub.pc off) fun S i => sliceVal W I.sub c i S == 0

/-- BRNZ (R250). -/
def execBrnz (c : Opnd) (off : BitVec 16) (s : State) : Out1 :=
  withOperands s (.brnz c off) false [.src c] fun s I W _ =>
    branch s I I.sub (branchTarget I.sub.pc off) fun S i => sliceVal W I.sub c i S != 0

/-- The values of a predicate in the active lanes of a slice. -/
def Slice.activePreds (S : Slice) (p : BitVec 3) : List Bool :=
  (S.lanes.zipIdx.filter fun (_, j) => S.mask.getLsbD j).map fun (L, _) => L.pred p.toNat

/-- BRP (R251). -/
def execBrp (m : BrpMode) (p : BitVec 3) (off : BitVec 16) (s : State) : Out1 :=
  withOperands s (.brp m p off) false [.prd p] fun s I _ _ =>
    branch s I I.sub (branchTarget I.sub.pc off) fun S _ => m.taken (S.activePreds p)

/-- LOOP (R252). -/
def execLoop (c : Opnd) (off : BitVec 16) (s : State) : Out1 :=
  withOperands s (.loop c off) false [.uni c] fun s I _ _ =>
    match c with
    | .s r =>
      let x := I.sub.sreg r.toNat - 1
      branch s I (I.sub.setS r.toNat x) (branchTarget I.sub.pc off) fun _ _ => x != 0
    | _ => .next s

/-- CALL (R253). -/
def execCall (off : BitVec 24) (s : State) : Out1 :=
  withOperands s (.call off) false [.sreg 31 1] fun s I _ _ =>
    branch s I (I.sub.setS 31 (I.sub.pc + 4)) (branchTarget I.sub.pc off) fun _ _ => true

/-- RET (R253). -/
def execRet (s : State) : Out1 :=
  withOperands s .ret false [.sreg 31 1] fun s I _ _ => branch s I I.sub (I.sub.sreg 31) fun _ _ => true

/-- The slices of a sub-gang grouped by target, in order of the lowest slice of each (R253). -/
def groupByTarget (slices : KMap Slice) (t : Nat → Slice → Word) : List (Word × KMap Slice) :=
  slices.foldl (fun gs (i, S) =>
    if gs.any fun g => g.1 == t i S then gs.map fun g => if g.1 == t i S then (g.1, g.2 ++ [(i, S)]) else g
    else gs ++ [(t i S, [(i, S)])]) []

/-- JMPI (R253): targets are computed before the link is written. -/
def execJmpi (d : UDst) (a b : Opnd) (s : State) : Out1 :=
  withOperands s (.jmpi d a b) false [.src a, .src b, .udst d 1 false] fun s I W _ =>
    let t := fun i S => sliceVal W I.sub a i S + sliceVal W I.sub b i S
    let parts := groupByTarget I.sub.slices t
    let link : Slice → Slice := fun S => if d.nw then S else S.setSreg d.r.toNat (I.sub.pc + 4)
    .next (splitInto s I I.sub (parts.map fun (pc, sl) => (pc, kmap sl fun _ S => link S)))

/-! ### REGANG (R107, R254) -/

/-- The slice numbers of a gang still on the tile. -/
def Tile.slicesOf (T : Tile) (g : Nat) : List Nat := (T.subsOf g).flatMap fun (_, U) => kkeys U.slices

/-- A slice at the fusion: the uniform registers and monitor of the lowest fused slice (R107, R295). -/
def Slice.fused (S low : Slice) : Slice := { S with s := low.s, fill := low.fill, monitor := low.monitor }

/-- The waiting sub-gangs of a gang fuse into one that continues after the REGANG (R107). -/
def fuse (s : State) (t : Nat) (subs : KMap Sub) (addr : Word) : State :=
  match subs with
  | [] => s
  | (u0, U0) :: rest =>
    let slices := rest.foldl (fun m (_, U) => U.slices.foldl (fun m (i, S) => kset m i S) m) U0.slices
    match slices with
    | [] => s
    | (_, low) :: _ =>
      let U := { U0.retire .other with
        pc := addr + 4, slices := kmap slices fun _ S => S.fused low, regang := none,
        reports := subs.flatMap fun (_, U) => U.reports }
      let T := s.tile t
      s.setTile t { T with subs := kset (rest.foldl (fun m (u, _) => kdel m u) T.subs) u0 U }

/-- Whether a sub-gang waits at a REGANG; one that runs its handler does not (R107). -/
def Sub.waits (U : Sub) : Bool := U.regang.isSome && !U.inh

/-- Ends the wait of a gang whose remaining slices all wait: at one address they fuse, at several each waiting sub-gang
traps with group 9, CODE 3 (R107). -/
def settleRegang (s : State) (t g : Nat) : State :=
  let subs := (s.tile t).subsOf g
  if subs.isEmpty || !(subs.all fun (_, U) => U.waits) then s
  else
    match subs.head?.bind fun (_, U) => U.regang with
    | none => s
    | some addr =>
      if subs.all fun (_, U) => U.regang == some addr then fuse s t subs addr
      else subs.foldl (fun s (u, U) =>
        takeTrap s t u ⟨9, 3, 0xFF, 0, wordOf .regang, false, none, U.regang.getD 0⟩) s

/-- Whether a pending entry of a sub-gang owes a uniform register. -/
def Sub.owesUniform (U : Sub) : Bool := U.owed.any fun r => match r with | .s _ => true | _ => false

/-- REGANG (R254): the whole original gang completes at once, else the issuer waits. The fusion writes every uniform register, so
the instruction itself waits for those that a pending entry owes (R107, R131). -/
def execRegang (s : State) : Out1 :=
  withIssuer s fun I =>
    if (I.tile.subsOf I.sub.gang).length ≤ 1 then retire s I .other I.sub
    else if I.sub.owesUniform then wait s I
    else .next (settleRegang (s.setSub I.t I.u { I.sub with regang := some I.sub.pc, depth := 0 }) I.t I.sub.gang)

/-- YIELD (R255): the sequencer passes the issuer over for a time. -/
def execYield (s : State) : Out1 :=
  withIssuer s fun I => retire s I .other { I.sub with yield := some s.stamp }

/-- NOP (R255). -/
def execNop (s : State) : Out1 := withIssuer s fun I => retire s I .straight I.sub

/-! ### Execution masks (R257, R258) -/

/-- The top of the mask stack, or the live set (R257). -/
def Slice.top (S : Slice) : BitVec 4 := S.stack.headD S.live

/-- The values of a predicate in the lanes of a slice, active or not, inverted when asked (R257). -/
def Slice.predMask (S : Slice) (p : BitVec 3) (inv : Bool) : BitVec 4 :=
  S.lanes.zipIdx.foldl (fun m (L, j) => if L.pred p.toNat != inv then m ||| (1#4 <<< j) else m) 0

/-- A mask instruction: it traps if some slice is at a forbidden depth, else acts on each slice. -/
def maskOp (s : State) (i : Instr) (us : List Use) (bad : Slice → Bool) (code : Byte) (f : Slice → Slice) : Out1 :=
  withOperands s i true us fun s I _ _ =>
    if I.sub.slices.any fun (_, S) => bad S then trapWord s I i 9 code
    else retire s I .straight (I.sub.mapSlices f)

/-- MPUSH (R258). -/
def execMpush (inv : Bool) (p : BitVec 3) (s : State) : Out1 :=
  maskOp s (.mpush inv p) [.prd p] (fun S => decide (S.stack.length ≥ 16)) 1 fun S =>
    { S with stack := S.mask :: S.stack, mask := S.mask &&& S.predMask p inv }

/-- MPOP (R258). -/
def execMpop (s : State) : Out1 :=
  maskOp s .mpop [] (fun S => S.stack.isEmpty) 2 fun S => { S with mask := S.top, stack := S.stack.tail }

/-- MSETP (R258). -/
def execMsetp (op : MsetOp) (inv : Bool) (p : BitVec 3) (s : State) : Out1 :=
  maskOp s (.msetp op inv p) [.prd p] (fun _ => false) 0 fun S =>
    let c := S.predMask p inv
    { S with mask := match op with
      | .and => S.mask &&& c
      | .ortop => S.mask ||| (c &&& S.top)
      | .settop => c &&& S.top }

/-- MELSE (R258). -/
def execMelse (s : State) : Out1 :=
  maskOp s .melse [] (fun S => S.stack.isEmpty) 2 fun S => { S with mask := S.top &&& ~~~ S.mask }

/-! ### WAITC (R259) -/

/-- Whether an instruction counts under bit k of WAITC's selection. -/
def countsUnder (i : Instr) (k : Nat) : Bool :=
  match i with
  | .ldLane _ _ _ _ | .ldUniform _ _ _ _ => k == 0
  | .stLane _ _ _ _ | .stUniform _ _ _ _ => k == 1
  | .aaddLane _ a _ _ | .afadd _ a _ _ | .amin _ a _ _ | .amaxLane _ a _ _ | .aminu _ a _ _ | .amaxu _ a _ _
  | .aand _ a _ _ | .aor _ a _ _ | .axor _ a _ _ | .axchgLane _ a _ _ | .acasLane _ a _ _ =>
    match a with
    | .glob _ => k == 0 || k == 1
    | .spad _ => k == 4
  | .aaddUniform d _ _ _ | .acasUniform d _ _ _ | .axchgUniform d _ _ _ | .amaxUniform d _ _ _ =>
    k == 1 || (k == 0 && !d.nw)
  | .lds _ _ _ _ | .sts _ _ _ _ => k == 4
  | .sendLane _ _ _ _ | .recvLane _ _ _ _ | .sendUniform _ _ _ | .recvUniform _ _ _ => k == 2
  | .sldLane _ _ _ _ _ | .sstLane _ _ _ _ | .srankLane _ _ _ | .sanchLane _ _ _
  | .saadd _ _ _ _ | .samin _ _ _ _ | .samax _ _ _ _ | .sacas _ _ _ _ | .saxchg _ _ _ _
  | .snew _ _ _ | .sfree _ | .slen _ _ | .sins _ _ _ _ | .sdel _ _ _ | .ssplit _ _ _ | .scat _ _ _ | .sgap _ _ _
  | .sapnd _ _ | .sclose _ | .srankUniform _ _ _ | .sanchUniform _ _ _ | .sldUniform _ _ _ _ _ | .sstUniform _ _ _ _ =>
    k == 3
  | _ => false

/-- A slice's count of a category: its instructions not yet finished, one whose access has faulted among them. -/
def Slice.outstanding (S : Slice) (k : Nat) : Nat := (S.log.filter fun e => countsUnder e.i k).length

/-- WAITC (R259). -/
def execWaitc (a : Opnd) (sel : BitVec 5) (s : State) : Out1 :=
  withOperands s (.waitc a sel) false [.src a] fun s I W _ =>
    let lim := (uniVal W 0 I.sub a).toNat
    if I.sub.slices.all fun (_, S) => (List.range 5).all fun k => !sel.getLsbD k || decide (S.outstanding k ≤ lim)
    then retire s I .other I.sub
    else wait s I

end Sys2Proof.Machine
end

