-- ==== Sys2Proof/Machine/Strands.lean ====
section
/-!
DEFINITION. The home strand unit: every operation on strands, cursors and anchors as one indivisible step
(10_strands.md R154 to R168; 21_strand_skein_instructions.md R336, R339 to R341).
-/
namespace Sys2Proof.Machine

/-! ### Segments of the pool (R155, R167, log 18) -/

/-- Segments of a partition's pool. -/
def Part.segTotal (P : Part) : Nat := P.spsize / 4096
/-- The segments a strand lies in, with those of its interior nodes. -/
def Strand.held (t : Strand) : List Nat := t.segs.map (·.1) ++ t.nodes
/-- The segments that a partition's strands hold: one that several share is held once. -/
def Part.segsUsed (P : Part) : List Nat := P.strands.foldl (fun l kt => kt.2.held.foldl (fun l g => if l.contains g then l else g :: l) l) []
/-- Segments free (R168, SPSTAT.FREESEG). -/
def Part.segFree (P : Part) : Nat := P.segTotal - P.segsUsed.length - P.retired.length

/-- Ceiling division. -/
def cdiv (a b : Nat) : Nat := (a + b - 1) / b

/-- n segments of the pool that are in none of a list: which, is a free value (log 18). -/
def Part.pickSegs (P : Part) : Nat → List Nat → Nat → Option (List Nat)
  | _, _, 0 => some []
  | x, taken, n + 1 =>
    match (List.range (taken.length + 1)).find? fun k =>
        decide (0 < P.segTotal) && !taken.contains ((x + k) % P.segTotal) with
    | none => none
    | some k => (Part.pickSegs P (x + 1) ((x + k) % P.segTotal :: taken) n).map fun l => (x + k) % P.segTotal :: l

/-- A stretch of a strand that is laid out anew: a segment that stays as it is with its n elements, or w elements to be placed. -/
inductive Stretch where
  | keep (g n : Nat)
  | loose (w : Nat)
  deriving DecidableEq, Repr

/-- The stretches of the first i elements, and of those from element j on: a segment cut in two is no longer what it was. -/
def frontOf : List (Nat × Nat) → Nat → List Stretch
  | [], _ => []
  | (g, n) :: l, i => if i = 0 then [] else if n ≤ i then .keep g n :: frontOf l (i - n) else [.loose i]
def backOf : List (Nat × Nat) → Nat → List Stretch
  | [], _ => []
  | (g, n) :: l, j =>
    if n ≤ j then backOf l (j - n)
    else (if j = 0 then Stretch.keep g n else .loose (n - j)) :: l.map fun x => .keep x.1 x.2

/-- Stretches to be placed join where they meet, and take in what lies next to them where fewer than a quarter of the S slots
would be used; only the last segment of a strand may hold fewer (R155). -/
def gather (S : Nat) : List Stretch → Nat → List Stretch
  | [], w => if w = 0 then [] else [.loose w]
  | .loose n :: l, w => gather S l (w + n)
  | .keep g n :: l, w =>
    if (w ≠ 0 ∧ 4 * w < S) ∨ (4 * n < S ∧ l ≠ []) then gather S l (w + n)
    else (if w = 0 then [] else [.loose w]) ++ .keep g n :: gather S l 0

/-- How many segments w elements take: any number that leaves each at least a quarter full, the number x counts from the fewest. -/
def segCount (S w x : Nat) : Nat := cdiv w S + x % (max (cdiv w S) (4 * w / S) - cdiv w S + 1)

/-- The segments of interior nodes above n element segments: any number up to the nodes that eight children each need (R155);
an empty strand holds one segment. -/
def nodeCount (n x : Nat) : Nat :=
  if n = 0 then 1 else if n = 1 then 0 else 1 + x % (n / 7 + 1)

/-- Stretches laid out: each that is to be placed takes as many segments as `count` says, of a list, and fills them evenly. -/
def layOut (count : Nat → Nat) : List Stretch → List Nat → List (Nat × Nat) × List Nat
  | [], gs => ([], gs)
  | .keep g n :: l, gs => let r := layOut count l gs; ((g, n) :: r.1, r.2)
  | .loose w :: l, gs =>
    let k := count w
    let here := (gs.take k).zipIdx.map fun (g, i) => (g, w / k + (if i < w % k then 1 else 0))
    let r := layOut count l (gs.drop k)
    (here ++ r.1, r.2)

/-- Segments that a layout needs to place its loose stretches, and those it has in all. -/
def looseSegs (count : Nat → Nat) (st : List Stretch) : Nat := st.foldl (fun n x => match x with | .loose w => n + count w | .keep _ _ => n) 0
def keptSegs (st : List Stretch) : List Nat := st.filterMap fun x => match x with | .keep g _ => some g | .loose _ => none

/-- The segments of a layout that hold a poisoned element. -/
def poisonedSegs : List (Nat × Nat) → List Elem → List Nat
  | [], _ => []
  | (g, n) :: l, es => (if (es.take n).any (·.poison) then [g] else []) ++ poisonedSegs l (es.drop n)

/-- A segment that has held poison is retired when the last reference to it is released (R168). -/
def Part.retire (P : Part) : Part :=
  let used := P.segsUsed
  { P with tainted := P.tainted.filter used.contains, retired := P.retired ++ P.tainted.filter fun g => !used.contains g }

/-- Puts strand a in a partition, its elements in the stretches given and its edit generation advanced (R155, R163). Segments that
only its old self held, those of `old`, come first, the rest from the pool; none where the pool has too few free (code 3).
`spare` are not for it. With `fit` an edit that takes elements away takes no segments it does not need. -/
def Part.place (P : Part) (seed a : Nat) (t : Strand) (old spare : List Nat) (st : List Stretch) (fit : Bool) : Option Part :=
  let Q := { P with strands := kdel P.strands a }
  let S := 4096 / t.esize
  let st := gather S st 0
  let taken := Q.segsUsed ++ keptSegs st ++ spare
  let mine := (old.foldl (fun l g => if taken.contains g || l.contains g then l else l ++ [g]) []).filter fun g => fit || !P.tainted.contains g
  let some_ := fun w => segCount S w (Config.freeWord seed w).toNat
  let few := fun w => cdiv w S
  let nodes := fun count => nodeCount (looseSegs count st + (keptSegs st).length)
  let tight := fit && decide (mine.length < looseSegs some_ st + nodes some_ (Config.freeWord seed 0).toNat)
  let count := if tight then few else some_
  let q := nodes count (if tight then 0 else (Config.freeWord seed 0).toNat)
  let need := looseSegs count st + q
  match P.pickSegs (Config.freeWord seed 1).toNat (taken ++ mine ++ P.tainted ++ P.retired) (need - mine.length) with
  | none => none
  | some new =>
    let r := layOut count st (mine ++ new)
    let t := { t with segs := r.1, nodes := r.2.take q, editGen := t.editGen + 1 }
    some { P with strands := kset P.strands a t, tainted := P.tainted ++ poisonedSegs t.segs t.elems }.retire

/-- A strand of a partition by its identifier (R154): index 0 names none. -/
def Part.strandAt (P : Part) (a : W32) : Option Strand := if (a.setWidth 30) = 0 then none else kget P.strands a.toNat

/-- Where element r of a strand lies: the segment and its slot there. -/
def slotOf : List (Nat × Nat) → Nat → Option (Nat × Nat)
  | [], _ => none
  | (g, n) :: l, r => if r < n then some (g, r) else slotOf l (r - n)

/-- The line of the package that holds element r of a strand. -/
def Part.lineAt (P : Part) (t : Strand) (r : Nat) : Word :=
  match slotOf t.segs r with
  | some (g, k) => BitVec.ofNat 64 (P.spbase + 4096 * g + k * t.esize / 128 * 128)
  | none => 0

/-- How many strands, or places in one, hold a segment (R167). -/
def Part.segRefs (P : Part) (g : Nat) : Nat := P.strands.foldl (fun n kt => n + (kt.2.segs.filter fun x => x.1 == g).length) 0

/-- The segments of a layout, and the ranks each holds. -/
def withRanks : List (Nat × Nat) → Nat → List (Nat × Nat × Nat)
  | [], _ => []
  | (g, n) :: l, lo => (g, lo, n) :: withRanks l (lo + n)

/-- The shared segments of a strand that hold some of the ranks (R167). -/
def Part.sharedAt (P : Part) (t : Strand) (ranks : List Nat) : List Nat :=
  (withRanks t.segs 0).filterMap fun (g, lo, n) =>
    if 1 < P.segRefs g && ranks.any fun r => decide (lo ≤ r) && decide (r < lo + n) then some lo else none

/-- Puts segments of a list in place of those that begin at some ranks. -/
def swapSegs (at_ : List Nat) : List (Nat × Nat × Nat) → List Nat → List (Nat × Nat)
  | [], _ => []
  | (g, lo, n) :: l, gs =>
    if at_.contains lo then (gs.headD g, n) :: swapSegs at_ l gs.tail else (g, n) :: swapSegs at_ l gs

/-- Private copies of the shared segments of a strand that hold some ranks (R167); none where the pool has too few free. -/
def Part.ownCopies (P : Part) (seed : Nat) (a : Nat) (t : Strand) (ranks : List Nat) : Option Part :=
  let at_ := P.sharedAt t ranks
  match P.pickSegs (Config.freeWord seed 1).toNat (P.segsUsed ++ P.retired) at_.length with
  | none => none
  | some new =>
    let t := { t with segs := swapSegs at_ (withRanks t.segs 0) new, editGen := t.editGen + 1 }
    some { P with strands := kset P.strands a t, tainted := P.tainted ++ poisonedSegs t.segs t.elems }.retire

/-! ### What an operation answers -/

/-- The answer of the strand unit: a failure with its causes by lane (a lane with none has group 0), or the results by
lane with the predicate each gives. -/
inductive SAns where
  | fail (lanes : List (Option Nat × Nat × Byte × Word))
  | ok (lanes : List (Option Nat × BitVec 128 × Bool × Option (Nat × Byte × Word)))
  deriving Repr

/-- The failure of a structural operation (R158). -/
def SAns.code (c : Byte) (rank : Word) : SAns := .fail [(none, 6, c, rank)]
/-- The single result of a structural operation. -/
def SAns.res (x : BitVec 128) : SAns := .ok [(none, x, true, none)]

/-- The bound of ranks, lengths and counts (R154). -/
def rankLimit : Nat := 2 ^ 40

/-! ### Edits -/

/-- New elements from bytes, e bytes each, with fresh names from id. -/
def newElems (id e n : Nat) (bytes : List Byte) : List Elem :=
  (List.range n).map fun k => ⟨id + k, (bytes.drop (e * k)).take e ++ List.replicate (e - ((bytes.drop (e * k)).take e).length) 0, false⟩

/-- Whether a strand has an open cursor (R157); keys of 2^32 and more are retired runs. -/
def Part.hasCursor (P : Part) (a : W32) : Bool := P.cursors.any fun (h, c) => decide (h < 2 ^ 32) && c.strand == a

/-- An open cursor by its handle (R159). -/
def Part.cursorAt (P : Part) (c : W32) : Option Cursor := if c.extractLsb' 12 18 = 0#18 then kget P.cursors c.toNat else none

/-- The position at which SAPND on a cursor inserts (R159). -/
def Part.appendPos (P : Part) (c : Cursor) (t : Strand) : Nat :=
  let lastOf (uids : List Nat) : Option Nat :=
    (t.elems.zipIdx.filter fun (e, _) => uids.contains e.uid).getLast?.map fun (_, i) => i + 1
  let runOf (i : Nat) : List Nat := P.cursors.flatMap fun (_, k) => if k.gap == c.gap && k.run == i then k.mine else []
  let found := (List.range (c.run + 1)).reverse.findSome? fun i => lastOf (runOf i)
  match found with
  | some p => p
  | none => (lastOf c.before).getD 0

/-- Drops the retired runs of gaps with no cursor open. -/
def Part.tidyCursors (P : Part) : Part :=
  { P with cursors := kfilter P.cursors fun h c =>
      decide (h < 2 ^ 32) || P.cursors.any fun (h', k) => decide (h' < 2 ^ 32) && k.gap == c.gap }

/-- Frees the anchors of elements (R160): their generations advance. -/
def Part.freeAnchors (P : Part) (f : Nat → Bool) : Part :=
  { P with anchors := kmap P.anchors fun _ a =>
      match a.elem with
      | some e => if f e then { gen := a.gen + 1, elem := none } else a
      | none => a }

/-- The lowest index of a home whose identifier is free (R154; log 31). -/
def Part.freeIndex (P : Part) (home : Nat) : Option Nat :=
  let used := (P.strands.filter fun (k, _) => k / 2 ^ 30 == home).map fun (k, _) => k % 2 ^ 30
  ((List.range (used.length + 2)).drop 1).find? fun i => decide (i < 2 ^ 30) && !used.contains i

/-- The identifier of an index at a home. -/
def strandId (home i : Nat) : Nat := home * 2 ^ 30 + i

/-- The lowest k consecutive free cursor entries of a home (R159; log 31). -/
def Part.freeCursors (P : Part) (home k : Nat) : Option Nat :=
  let base := home * 2 ^ 30
  let used := (P.cursors.filter fun (h, _) => decide (h < 2 ^ 32) && h / 2 ^ 30 == home).map fun (h, _) => h % 4096
  if used.length + k ≤ 4096 then
    ((List.range (4097 - k)).find? fun i => (List.range k).all fun j => !used.contains (i + j)).map fun i => base + i
  else none

/-- The lowest free anchor entry of a home (R160; log 31). -/
def Part.freeAnchor (P : Part) (home : Nat) : Option Nat :=
  let taken := (P.anchors.filter fun (k, a) => k / 65536 == home && a.elem.isSome).map fun (k, _) => k % 65536
  if taken.length < 65536 then (List.range (taken.length + 1)).find? fun i => !taken.contains i else none

/-- Makes an anchor on an element: the token (R160). -/
def Part.anchorOn (P : Part) (home uid : Nat) : Option (Part × Word) :=
  match P.freeAnchor home with
  | none => none
  | some i =>
    let key := home * 65536 + i
    let gen := match kget P.anchors key with | some a => a.gen | none => 0
    some ({ P with anchors := kset P.anchors key ⟨gen, some uid⟩ }, gen ++ BitVec.ofNat 32 key)

/-- SRANK of one token (R160): the rank and strand, or gone; a gone element's entry is freed. -/
def Part.rankOf (P : Part) (tok : Word) : Part × Option (Nat × Nat) :=
  let key := (tok.extractLsb' 0 18).toNat
  if tok.extractLsb' 18 14 ≠ 0#14 then (P, none)
  else
    match kget P.anchors key with
    | none => (P, none)
    | some a =>
      if a.gen ≠ tok.extractLsb' 32 32 then (P, none)
      else
        match a.elem with
        | none => (P, none)
        | some u =>
          match P.strands.findSome? fun (k, t) => (t.elems.findIdx? fun e => e.uid == u).map fun r => (r, k) with
          | some x => (P, some x)
          | none => ({ P with anchors := kset P.anchors key ⟨a.gen + 1, none⟩ }, none)

/-- The result words of SRANK: rank in the low half, strand above it. -/
def rankWords (x : Option (Nat × Nat)) : BitVec 128 :=
  match x with
  | some (r, k) => BitVec.ofNat 128 (k * 2 ^ 64 + r)
  | none => BitVec.ofNat 128 (2 ^ 64 - 1)

/-! ### Structural operations (R157). Each takes the partition, a seed of free values and the next fresh name -/

abbrev SStep := Part × Nat × SAns

/-- A failing operation changes nothing (R158). -/
def failed (P : Part) (id : Nat) (c : Byte) (rank : Word) : SStep := (P, id, .code c rank)

/-- SNEW. -/
def opSnew (P : Part) (seed id : Nat) (size home : Word) : SStep :=
  if ¬ [1, 2, 4, 8, 16, 32, 64].contains size.toNat then failed P id 9 0
  else if home.toNat > 3 ∨ ¬ ((List.range 4).any fun k => P.fields.getLsbD (4 * home.toNat + k)) then failed P id 11 0
  else
    match P.freeIndex home.toNat with
    | none => failed P id 3 0
    | some i =>
      match P.place seed (strandId home.toNat i) ⟨home.toNat, size.toNat, [], [], [], [], 0⟩ [] [] [] false with
      | none => failed P id 3 0
      | some P => (P, id, .res (BitVec.ofNat 128 (strandId home.toNat i)))

/-- SFREE. -/
def opSfree (P : Part) (id : Nat) (a : W32) : SStep :=
  match P.strandAt a with
  | none => failed P id 4 0
  | some t =>
    let P := P.freeAnchors fun e => (t.elems.any fun x => x.uid == e) || t.gone.contains e
    let P := { P with strands := kdel P.strands a.toNat, cursors := kfilter P.cursors fun _ c => c.strand != a }
    (P.retire, id, .res 0)

/-- SLEN. -/
def opSlen (P : Part) (id : Nat) (a : W32) : SStep :=
  match P.strandAt a with
  | none => failed P id 4 0
  | some t => (P, id, .res (BitVec.ofNat 128 t.elems.length))

/-- SINS. -/
def opSins (P : Part) (seed id : Nat) (a : W32) (r n : Word) (bytes : List Byte) : SStep :=
  match P.strandAt a with
  | none => failed P id 4 r
  | some t =>
    if t.elems.length < r.toNat then failed P id 1 r
    else if rankLimit ≤ t.elems.length + n.toNat then failed P id 2 r
    else if n = 0 then (P, id, .res 0)
    else
      let new := newElems id t.esize n.toNat bytes
      match P.place seed a.toNat { t with elems := t.elems.take r.toNat ++ new ++ t.elems.drop r.toNat } t.held []
          (frontOf t.segs r.toNat ++ .loose n.toNat :: backOf t.segs r.toNat) false with
      | none => failed P id 3 r
      | some P => (P, id + n.toNat, .res 0)

/-- The elements of a list that anchors name. -/
def Part.anchored (P : Part) (us : List Nat) : List Nat := us.filter fun u => P.anchors.any fun (_, A) => A.elem == some u

/-- SDEL. Only a private copy of a shared segment takes segments (R167). -/
def opSdel (P : Part) (seed id : Nat) (a : W32) (r n : Word) : SStep :=
  match P.strandAt a with
  | none => failed P id 4 r
  | some t =>
    if rankLimit ≤ r.toNat then failed P id 1 r
    else if rankLimit ≤ n.toNat then failed P id 2 r
    else if t.elems.length < r.toNat + n.toNat then failed P id 1 r
    else if n = 0 then (P, id, .res 0)
    else
      let gone := ((t.elems.drop r.toNat).take n.toNat).map (·.uid)
      match P.place seed a.toNat { t with elems := t.elems.take r.toNat ++ t.elems.drop (r.toNat + n.toNat), gone := t.gone ++ P.anchored gone }
          t.held [] (frontOf t.segs r.toNat ++ backOf t.segs (r.toNat + n.toNat)) true with
      | none => failed P id 3 r
      | some P => (P, id, .res 0)

/-- SSPLIT. -/
def opSsplit (P : Part) (seed id : Nat) (a : W32) (r : Word) : SStep :=
  match P.strandAt a with
  | none => failed P id 4 r
  | some t =>
    if t.elems.length < r.toNat then failed P id 1 r
    else if P.hasCursor a then failed P id 6 r
    else
      match P.freeIndex t.home with
      | none => failed P id 3 r
      | some i =>
        let b := strandId t.home i
        match (P.place seed a.toNat { t with elems := t.elems.take r.toNat } t.held (keptSegs (backOf t.segs r.toNat)) (frontOf t.segs r.toNat)
            false).bind fun P =>
            P.place (seed + 1) b ⟨t.home, t.esize, t.elems.drop r.toNat, [], [], [], 0⟩ t.held [] (backOf t.segs r.toNat) false with
        | none => failed P id 3 r
        | some P => (P, id, .res (BitVec.ofNat 128 b))

/-- SCAT and SCAT.share. -/
def opScat (P : Part) (seed id : Nat) (a b : W32) (share : Bool) : SStep :=
  match P.strandAt a, P.strandAt b with
  | some t, some u =>
    if t.esize ≠ u.esize ∨ t.home ≠ u.home then failed P id 5 0
    else if a = b then failed P id 10 0
    else if P.hasCursor a || (!share && P.hasCursor b) then failed P id 6 0
    else if rankLimit ≤ t.elems.length + u.elems.length then failed P id 2 0
    else if share then
      let copies := u.elems.zipIdx.map fun (e, k) => { e with uid := id + k }
      match P.place seed a.toNat { t with elems := t.elems ++ copies } t.held [] (frontOf (t.segs ++ u.segs) rankLimit) false with
      | none => failed P id 3 0
      | some P => (P, id + copies.length, .res 0)
    else
      match (P.place seed b.toNat { u with elems := [] } u.nodes (u.segs.map (·.1)) [] false).bind fun P =>
          P.place (seed + 1) a.toNat { t with elems := t.elems ++ u.elems } (t.held ++ u.segs.map (·.1)) [] (frontOf (t.segs ++ u.segs) rankLimit) false with
      | none => failed P id 3 0
      | some P => (P, id, .res 0)
  | _, _ => failed P id 4 0

/-- SGAP. -/
def opSgap (P : Part) (id : Nat) (a : W32) (r k : Word) : SStep :=
  match P.strandAt a with
  | none => failed P id 4 r
  | some t =>
    if t.elems.length < r.toNat then failed P id 1 r
    else if k.toNat = 0 ∨ 32 < k.toNat then failed P id 7 r
    else
      match P.freeCursors t.home k.toNat with
      | none => failed P id 7 r
      | some h =>
        let before := (t.elems.take r.toNat).map (·.uid)
        let cs := (List.range k.toNat).foldl (fun m i => kset m (h + i) ⟨t.home, a, id, i, [], before⟩) P.cursors
        ({ P with cursors := cs }, id + 1, .res (BitVec.ofNat 128 h))

/-- SAPND. -/
def opSapnd (P : Part) (seed id : Nat) (c : W32) (n : Word) (bytes : List Byte) : SStep :=
  match P.cursorAt c with
  | none => failed P id 7 0
  | some k =>
    match P.strandAt k.strand with
    | none => failed P id 7 0
    | some t =>
      if rankLimit ≤ t.elems.length + n.toNat then failed P id 2 0
      else if n = 0 then (P, id, .res 0)
      else
        let p := P.appendPos k t
        let new := newElems id t.esize n.toNat bytes
        match P.place seed k.strand.toNat { t with elems := t.elems.take p ++ new ++ t.elems.drop p } t.held []
            (frontOf t.segs p ++ .loose n.toNat :: backOf t.segs p) false with
        | none => failed P id 3 0
        | some P =>
          ({ P with cursors := kset P.cursors c.toNat { k with mine := k.mine ++ new.map (·.uid) } }, id + n.toNat, .res 0)

/-- SCLOSE: the elements of the run stay; what later cursors of the gap follow is kept while one is open (R159). -/
def opSclose (P : Part) (id : Nat) (c : W32) : SStep :=
  match P.cursorAt c with
  | none => failed P id 7 0
  | some k =>
    (({ P with cursors := kset (kdel P.cursors c.toNat) (2 ^ 32 + id) k }).tidyCursors, id + 1, .res 0)

/-- SANCH of one rank. -/
def opSanch (P : Part) (id : Nat) (a : W32) (r : Word) : SStep :=
  match P.strandAt a with
  | none => failed P id 4 r
  | some t =>
    match t.elems[r.toNat]? with
    | none => failed P id 1 r
    | some e =>
      match P.anchorOn t.home e.uid with
      | none => failed P id 8 r
      | some (P, tok) => (P, id, .res (tok.setWidth 128))

/-- SRANK of one token; it never traps. -/
def opSrank (P : Part) (id : Nat) (tok : Word) : SStep :=
  let (P, x) := P.rankOf tok
  (P, id, .ok [(none, rankWords x, x.isSome, none)])

/-! ### Element accesses (R164, R339, R340) -/

/-- Rank, part offset and whether the word is in form (R339). -/
def rankPart (w : Word) : Nat × Nat × Bool :=
  ((w.extractLsb' 0 40).toNat, 16 * (w.extractLsb' 40 2).toNat, w.extractLsb' 42 22 == 0#22)

/-- Whether a rank word reaches an element of a strand for an access of W bytes; an atomic must lie within it. -/
def reaches (t : Strand) (w : Word) (W : Nat) (whole : Bool) : Bool :=
  let (r, off, ok) := rankPart w
  ok && decide (off < t.esize) && decide (r < t.elems.length) && (!whole || decide (off + W ≤ t.esize))

/-- The operation an element access performs. -/
inductive ElemOp where
  | load (nf : Bool)
  | store
  | atomic (op : Nat)
  deriving DecidableEq, Repr

/-- Whether an access must lie within its element, whether it answers a lane out of range with a predicate, and whether it
writes. -/
def ElemOp.whole : ElemOp → Bool
  | .atomic _ => true
  | _ => false
def ElemOp.nf : ElemOp → Bool
  | .load b => b
  | _ => false
def ElemOp.writes : ElemOp → Bool
  | .load _ => false
  | _ => true

/-- W bytes of an element from an offset; bytes beyond it read 0. -/
def elemBytes (e : Elem) (off W : Nat) : List Byte :=
  (List.range W).map fun k => e.bytes.getD (off + k) 0

/-- Writes bytes of an element from an offset; bytes beyond it are not written. -/
def setElemBytes (e : Elem) (off : Nat) (bs : List Byte) : Elem :=
  { e with bytes := e.bytes.zipIdx.map fun (x, k) => if off ≤ k then (bs[k - off]?).getD x else x }

/-- The new value of an atomic operation on w bits, by its fabric code (R290): old value x, operands y and z. -/
def atomicOp (op w : Nat) (x y z : Nat) : Nat :=
  let s : Nat → Int := fun v => if v < 2 ^ (w - 1) then (v : Int) else (v : Int) - 2 ^ w
  match op with
  | 0 => (x + y) % 2 ^ w
  | 1 => (fadd (BitVec.ofNat 32 x) (BitVec.ofNat 32 y)).toNat
  | 2 => if s y < s x then y else x
  | 3 => if s x < s y then y else x
  | 4 => min x y
  | 5 => max x y
  | 6 => Nat.land x y
  | 7 => Nat.lor x y
  | 8 => Nat.xor x y
  | 9 => y
  | _ => if x = y then z else x

/-- One lane of an element access on a strand: the strand and the result. A poisoned byte touched raises group 15, CODE 8
(R168), with the address of its line. -/
def elemLane (P : Part) (t : Strand) (op : ElemOp) (W : Nat) (lane : Option Nat) (w : Word) (x : BitVec 128) :
    Strand × (Option Nat × BitVec 128 × Bool × Option (Nat × Byte × Word)) :=
  let (r, off, _) := rankPart w
  match t.elems[r]? with
  | none => (t, (lane, 0, false, none))
  | some e =>
    if e.poison then (t, (lane, 0, false, some (15, 8, P.lineAt t r)))
    else
      let old := elemBytes e off W
      match op with
      | .load _ => (t, (lane, BitVec.ofNat 128 (leNat old), true, none))
      | .store => ({ t with elems := t.elems.set r (setElemBytes e off (natLe W x.toNat)) }, (lane, 0, true, none))
      | .atomic k =>
        let o := leNat old
        let v := atomicOp k (8 * W) o (x.toNat % 2 ^ (8 * W)) (x.toNat / 2 ^ 64 % 2 ^ (8 * W))
        ({ t with elems := t.elems.set r (setElemBytes e off (natLe W v)) }, (lane, BitVec.ofNat 128 o, true, none))

/-- An element access of all lanes of one instruction, at one instant (R339): if some lane is out of range, and the access
does not take that in its stride, no lane takes effect (R164). -/
def opElem (P : Part) (seed id : Nat) (a : W32) (op : ElemOp) (W : Nat) (lanes : List (Option Nat × Word × BitVec 128)) :
    SStep :=
  match P.strandAt a with
  | none => (P, id, .fail (lanes.map fun (l, w, _) => (l, 6, 4, (w.extractLsb' 0 40).setWidth 64)))
  | some t =>
    let out := fun w => !reaches t w W op.whole
    if !op.nf && lanes.any fun (_, w, _) => out w then
      (P, id, .fail (lanes.map fun (l, w, _) =>
        if out w then (l, 6, 1, (w.extractLsb' 0 40).setWidth 64) else (l, 0, 0, 0)))
    else
      let ranks := (lanes.map fun (_, w, _) => (rankPart w).1)
      match (if op.writes && !(P.sharedAt t ranks).isEmpty then P.ownCopies seed a.toNat t ranks else some P) with
      | none => (P, id, .fail (lanes.map fun (l, w, _) => (l, 6, 3, (w.extractLsb' 0 40).setWidth 64)))
      | some P' =>
        let t := (P'.strandAt a).getD t
        let (t, res) := lanes.foldl (fun (acc : Strand × List (Option Nat × BitVec 128 × Bool × Option (Nat × Byte × Word)))
            (l, w, x) =>
          if out w then (acc.1, acc.2 ++ [(l, 0, false, none)])
          else
            let (t, r) := elemLane P' acc.1 op W l w x
            (t, acc.2 ++ [r])) (t, [])
        ({ P' with strands := kset P'.strands a.toNat t }, id, .ok res)

/-- Lane SANCH (R341): all lanes or none. -/
def opSanchLanes (P : Part) (id : Nat) (a : W32) (lanes : List (Option Nat × Word × BitVec 128)) : SStep :=
  let (P', res) := lanes.foldl (fun (acc : Part × List (Option Nat × Nat × Byte × Word × BitVec 128)) (l, w, _) =>
    let r : Word := (w.extractLsb' 0 40).setWidth 64
    match opSanch acc.1 id a r with
    | (P, _, .ok [(_, x, _, _)]) => (P, acc.2 ++ [(l, 0, 0, 0, x)])
    | (P, _, .fail [(_, g, c, d)]) => (P, acc.2 ++ [(l, g, c, d, 0)])
    | (P, _, _) => (P, acc.2)) (P, [])
  if res.any fun (_, g, _, _, _) => g != 0 then (P, id, .fail (res.map fun (l, g, c, d, _) => (l, g, c, d)))
  else (P', id, .ok (res.map fun (l, _, _, _, x) => (l, x, true, none)))

/-- Lane SRANK (R341). -/
def opSrankLanes (P : Part) (id : Nat) (lanes : List (Option Nat × Word × BitVec 128)) : SStep :=
  let (P', res) := lanes.foldl (fun (acc : Part × List (Option Nat × BitVec 128 × Bool × Option (Nat × Byte × Word))) (l, w, _) =>
    let (P, x) := acc.1.rankOf w
    (P, acc.2 ++ [(l, rankWords x, x.isSome, none)])) (P, [])
  (P', id, .ok res)

/-- The home unit's step for a request (R157). -/
def strandStep (P : Part) (seed id : Nat) (r : StrandReq) : SStep :=
  let arg := fun k => r.args.getD k 0
  match r.i with
  | .snew _ _ _ => opSnew P seed id (arg 0) (arg 1)
  | .sfree _ => opSfree P id r.strand
  | .slen _ _ => opSlen P id r.strand
  | .sins _ _ _ _ => opSins P seed id r.strand (arg 0) (arg 1) r.bytes
  | .sdel _ _ _ => opSdel P seed id r.strand (arg 0) (arg 1)
  | .ssplit _ _ _ => opSsplit P seed id r.strand (arg 0)
  | .scat _ _ share => opScat P seed id r.strand ((arg 0).setWidth 32) share
  | .sgap _ _ _ => opSgap P id r.strand (arg 0) (arg 1)
  | .sapnd _ _ => opSapnd P seed id r.strand (arg 0) r.bytes
  | .sclose _ => opSclose P id r.strand
  | .srankUniform _ _ _ => opSrank P id (arg 0)
  | .sanchUniform _ _ _ => opSanch P id r.strand (arg 0)
  | .sldLane _ _ ty pm _ => opElem P seed id r.strand (.load (pm != 0)) ty.bytes r.lanes
  | .sldUniform _ _ ty pm _ => opElem P seed id r.strand (.load (pm != 0)) ty.bytes r.lanes
  | .sstLane _ _ ty _ => opElem P seed id r.strand .store ty.bytes r.lanes
  | .sstUniform _ _ ty _ => opElem P seed id r.strand .store ty.bytes r.lanes
  | .saadd _ _ ty _ => opElem P seed id r.strand (.atomic 0) ty.bytes r.lanes
  | .samin _ _ ty _ => opElem P seed id r.strand (.atomic 2) ty.bytes r.lanes
  | .samax _ _ ty _ => opElem P seed id r.strand (.atomic 3) ty.bytes r.lanes
  | .saxchg _ _ ty _ => opElem P seed id r.strand (.atomic 9) ty.bytes r.lanes
  | .sacas _ _ ty _ => opElem P seed id r.strand (.atomic 10) ty.bytes r.lanes
  | .sanchLane _ _ _ => opSanchLanes P id r.strand r.lanes
  | .srankLane _ _ _ => opSrankLanes P id r.lanes
  | _ => (P, id, .ok [])

/-- A request that writes at its home: all but reads (R145). -/
def strandWrites (i : Instr) : Bool :=
  match i with
  | .sldLane _ _ _ _ _ | .sldUniform _ _ _ _ _ | .slen _ _ | .srankLane _ _ _ | .srankUniform _ _ _ => false
  | _ => true

/-! ### Rank caches (R163) -/

/-- Whether a step has moved what the ranks of a strand name: it has another edit generation, or is gone. -/
def Part.edited (P P' : Part) (a : W32) : Bool := (kget P.strands a.toNat).map (·.editGen) != (kget P'.strands a.toNat).map (·.editGen)

/-- Every rank cache drops the entries of the strands that a step of partition p has edited. -/
def State.dropRanks (s : State) (p : Nat) (P P' : Part) : State :=
  { s with tiles := kmap s.tiles fun _ T => { T with ranks := T.ranks.filter fun e => !(e.part == p && P.edited P' e.strand) } }

/-- Element accesses (R164). -/
def isElement (i : Instr) : Bool :=
  match i with
  | .sldLane _ _ _ _ _ | .sldUniform _ _ _ _ _ | .sstLane _ _ _ _ | .sstUniform _ _ _ _
  | .saadd _ _ _ _ | .samin _ _ _ _ | .samax _ _ _ _ | .saxchg _ _ _ _ | .sacas _ _ _ _ => true
  | _ => false

/-- The entry that an element access of a lane fills. -/
def State.rankEntry (s : State) (r : StrandReq) (lane : Option Nat) : Option RankEntry :=
  match (if isElement r.i then (s.part r.part).bind fun P => P.strandAt r.strand else none), r.lanes.find? fun x => x.1 == lane with
  | some t, some (_, w, _) => ((withRanks t.segs 0).find? fun (_, lo, n) => decide (lo ≤ (rankPart w).1) && decide ((rankPart w).1 < lo + n)).map fun (g, lo, n) =>
      ⟨r.part, r.strand, lo, n, g, t.editGen⟩
  | _, _ => none

/-- A rank cache takes an entry, at most 256, unless the strand has been edited since (R163). -/
def State.fillRank (s : State) (t : Nat) (e : RankEntry) : State :=
  let now := match (s.part e.part).bind fun P => P.strandAt e.strand with | some x => x.editGen == e.gen | none => false
  if now then s.setTile t { s.tile t with ranks := (e :: (s.tile t).ranks.filter (· != e)).take 256 } else s

/-- The segments that a request reaches: those of the elements it names, or all that its strand holds. -/
def Part.reached (P : Part) (r : StrandReq) : List Nat :=
  let a := match r.i with | .sapnd _ _ | .sclose _ => (match P.cursorAt r.strand with | some k => k.strand | none => 0) | _ => r.strand
  match P.strandAt a with
  | none => []
  | some t =>
    if isElement r.i then r.lanes.filterMap fun x => (slotOf t.segs (rankPart x.2.1).1).map (·.1)
    else t.held

/-- Whether the world check stops a request: the unit works in the world of the tile that asks, and a segment it reaches lies in
a closed granule, or a secure one for a non-secure tile (R48, R49, R50). -/
def State.strandDenied (s : State) (P : Part) (r : StrandReq) : Bool :=
  (P.reached r).any fun g =>
    let k := (P.spbase + 4096 * g) / 2 ^ 26
    s.closed.any (fun m => m.granule == k) || (!r.world && s.fwtab.contains k)

/-- The home strand unit applies a request of a partition: the answer. A request that the world check stops has no effect; its
report names no address, and its datum is a free value (log 6). -/
def State.strandApply (s : State) (r : StrandReq) : State × SAns :=
  match s.part r.part with
  | none => (s, .ok [])
  | some P =>
    if s.strandDenied P r then
      ({ s with free := s.free + 2 },
       .fail ((if r.lanes.isEmpty then [none] else r.lanes.map (·.1)).map fun l => (l, 18, 1, Config.freeWord s.free 0)))
    else
    let (P', id, ans) := strandStep P s.free s.nextId r
    ({ (s.setPart r.part P').dropRanks r.part P P' with nextId := id, free := s.free + 2 }, ans)

end Sys2Proof.Machine
end

