-- ==== Sys2Proof/Machine/Logs.lean ====
section
/-!
DEFINITION. The operand log: results written back, faulted entries, handler entry for them, and answers that reach a tile
(08_memory_translation.md R131, R132; 13_traps_faults.md R206, R207; 06_sheaves.md R90; 09_consistency.md R146).
-/
namespace Sys2Proof.Machine

/-! ### The L1 read cache (R124, R125) -/

/-- A fill on its way that must not land, because its line has been invalidated since. -/
def cancelFills (s : State) (t : Nat) (p : Nat → Bool) : State :=
  let f : Msg → Msg := fun m =>
    match m.body with
    | .read pa n true => if m.tile == t && p (lineOf pa) then { m with body := .read pa n false } else m
    | _ => m
  { s with
    wire := s.wire.map f
    dies := kmap s.dies fun _ D => { D with inbox := D.inbox.map f, outq := D.outq.map f }
    resps := s.resps.map fun r =>
      match r.fill with
      | some (l, _) => if r.tile == t && p l then { r with fill := none } else r
      | none => r }

/-- Invalidates the lines of a tile's L1 that p names, and fills of them still on their way. -/
def State.l1Drop (s : State) (t : Nat) (p : Nat → Bool) : State :=
  let T := s.tile t
  cancelFills (s.setTile t { T with l1 := kfilter T.l1 fun l _ => !p l }) t p

/-- Invalidates every line of a tile's L1 (R125). -/
def State.l1Clear (s : State) (t : Nat) : State := s.l1Drop t fun _ => true

/-! ### Orders an instruction names (R140, R233, R234) -/

/-- Whether a memory instruction is an acquire. -/
def acquires (i : Instr) : Bool :=
  let os : Os → Bool := fun o => match o with | .acqP | .arP | .arF => true | _ => false
  match i with
  | .ldLane _ _ _ (.sync _) | .lds _ _ _ (.sync _) | .ldUniform _ _ _ (.sync _) => true
  | .aaddLane _ _ _ o | .afadd _ _ _ o | .amin _ _ _ o | .amaxLane _ _ _ o | .aminu _ _ _ o | .amaxu _ _ _ o
  | .aand _ _ _ o | .aor _ _ _ o | .axor _ _ _ o | .axchgLane _ _ _ o | .acasLane _ _ _ o => os o
  | .aaddUniform _ _ _ (.sync _) | .acasUniform _ _ _ (.sync _) | .axchgUniform _ _ _ (.sync _)
  | .amaxUniform _ _ _ (.sync _) => true
  | _ => false

/-- The scope of an access to scratchpad: one wider than cluster acts as cluster (R234, R289). -/
def Scope.inSpad (sc : Scope) : Scope := if sc.rank ≤ Scope.cluster.rank then sc else .cluster

/-- The scope of a memory instruction that is a release. -/
def releases (i : Instr) : Option Scope :=
  let os : LaAddr → Os → Option Scope := fun a o =>
    let sc := match o with | .relP | .arP => some .package | .arF => some .domain | _ => none
    match a with
    | .glob _ => sc
    | .spad _ => sc.map Scope.inSpad
  match i with
  | .sts _ _ _ (.sync sc) => some (Scope.inSpad sc)
  | .stLane _ _ _ (.sync sc) | .stUniform _ _ _ (.sync sc) => some sc
  | .aaddLane _ a _ o | .afadd _ a _ o | .amin _ a _ o | .amaxLane _ a _ o | .aminu _ a _ o | .amaxu _ a _ o
  | .aand _ a _ o | .aor _ a _ o | .axor _ a _ o | .axchgLane _ a _ o | .acasLane _ a _ o => os a o
  | .aaddUniform _ _ _ (.sync sc) | .acasUniform _ _ _ (.sync sc) | .axchgUniform _ _ _ (.sync sc)
  | .amaxUniform _ _ _ (.sync sc) => some sc
  | _ => none

/-- Whether an acquire of the issuer is still pending: no later access is performed before it (R142). -/
def Sub.acquirePending (U : Sub) : Bool := U.slices.any fun (_, S) => S.log.any fun e => e.pending && acquires e.i

/-- Whether no access of the issuer is pending. -/
def Sub.quiet (U : Sub) : Bool := U.slices.all fun (_, S) => S.log.all fun e => !e.pending

/-- Whether the operand logs of the issuer hold no entry. -/
def Sub.logsEmpty (U : Sub) : Bool := U.slices.all fun (_, S) => S.log.isEmpty

/-! ### Writing results back -/

/-- What a completed access writes: lane registers, uniform registers, a predicate. -/
structure WB where
  v : List (Nat × W32)
  s : List (Nat × Word)
  p : Option (Nat × Bool)
  deriving DecidableEq, Repr

/-- The words a lane load of a type gives (R232, R286). -/
def loadWords (ty : Ty) (x : BitVec 128) : List W32 :=
  match ty with
  | .b => [(x.setWidth 8).setWidth 32]
  | .bs => [(x.setWidth 8).signExtend 32]
  | .h => [(x.setWidth 16).setWidth 32]
  | .hs => [(x.setWidth 16).signExtend 32]
  | .w => [x.setWidth 32]
  | .d => [x.setWidth 32, x.extractLsb' 32 32]
  | .q => [x.setWidth 32, x.extractLsb' 32 32, x.extractLsb' 64 32, x.extractLsb' 96 32]

/-- The registers a uniform load of a type gives (R232, R287). -/
def loadUni (ty : Ty) (x : BitVec 128) : List Word :=
  match ty with
  | .b => [(x.setWidth 8).setWidth 64]
  | .bs => [(x.setWidth 8).signExtend 64]
  | .h => [(x.setWidth 16).setWidth 64]
  | .hs => [(x.setWidth 16).signExtend 64]
  | .w => [(x.setWidth 32).setWidth 64]
  | .d => [x.setWidth 64]
  | .q => [x.setWidth 64, x.extractLsb' 64 64]

/-- Values for consecutive registers from r. -/
def seqFrom {α : Type} (r : Nat) (l : List α) : List (Nat × α) := l.zipIdx.map fun (x, k) => (r + k, x)

/-- The predicate pM: none for p0 (R338). -/
def predOf (pm : BitVec 3) (pr : Bool) : Option (Nat × Bool) := if pm = 0 then none else some (pm.toNat, pr)

/-- What the result of an instruction writes (R286, R287, R291, R292, R335 to R341). -/
def wbOf (i : Instr) (x : BitVec 128) (pr : Bool) : WB :=
  match i with
  | .ldLane d _ ty _ => ⟨if d.nw then [] else seqFrom d.r.toNat (loadWords ty x), [], none⟩
  | .lds d _ ty _ => ⟨if d.nw then [] else seqFrom d.r.toNat (loadWords ty x), [], none⟩
  | .sldLane d _ ty pm _ => ⟨if d.nw then [] else seqFrom d.r.toNat (loadWords ty x), [], predOf pm pr⟩
  | .srankLane d _ pm =>
    ⟨if d.nw then [] else seqFrom d.r.toNat [x.setWidth 32, x.extractLsb' 32 32, x.extractLsb' 64 32, 0], [], predOf pm pr⟩
  | .sanchLane d _ _ => ⟨if d.nw then [] else seqFrom d.r.toNat [x.setWidth 32, x.extractLsb' 32 32], [], none⟩
  | .aaddLane d _ _ _ | .afadd d _ _ _ | .amin d _ _ _ | .amaxLane d _ _ _ | .aminu d _ _ _ | .amaxu d _ _ _
  | .aand d _ _ _ | .aor d _ _ _ | .axor d _ _ _ | .axchgLane d _ _ _ | .acasLane d _ _ _ =>
    ⟨[(d.toNat, x.setWidth 32)], [], none⟩
  | .saadd d _ ty _ | .samin d _ ty _ | .samax d _ ty _ | .sacas d _ ty _ | .saxchg d _ ty _ =>
    match d with
    | .v r => ⟨seqFrom r.toNat (match ty with | .w => [x.setWidth 32] | .d => [x.setWidth 32, x.extractLsb' 32 32]), [], none⟩
    | _ => ⟨[], [], none⟩
  | .ldUniform d _ ty _ => ⟨[], if d.nw then [] else seqFrom d.r.toNat (loadUni ty x), none⟩
  | .sldUniform d _ ty pm _ => ⟨[], if d.nw then [] else seqFrom d.r.toNat (loadUni ty x), predOf pm pr⟩
  | .aaddUniform d _ ty _ | .acasUniform d _ ty _ | .axchgUniform d _ ty _ | .amaxUniform d _ ty _ =>
    ⟨[], if d.nw then [] else [(d.r.toNat, match ty with | .w => (x.setWidth 32).setWidth 64 | .d => x.setWidth 64)], none⟩
  | .snew _ _ n | .slen _ n | .ssplit _ _ n | .sgap _ _ n | .sanchUniform _ _ n => ⟨[], [(n.toNat, x.setWidth 64)], none⟩
  | .srankUniform _ pm n =>
    ⟨[], [(n.toNat, x.setWidth 64), (n.toNat + 1, (x.extractLsb' 64 32).setWidth 64)], predOf pm pr⟩
  | _ => ⟨[], [], none⟩

/-- Writes the result of one access into its slice: a lane's into that lane, a uniform one into the slice's registers and
the predicate of the lanes that were active (R105, R336). -/
def Slice.writeBack (S : Slice) (W : Win) (e : LogEntry) (a : Access) : Slice :=
  let wb := wbOf e.i a.data a.pr
  match a.lane with
  | some j =>
    { S with lanes := S.lanes.modify (j % 4) fun L =>
        let L := wb.v.foldl (fun L (r, x) => L.setReg (W.base + r) x) L
        match wb.p with | some (k, b) => L.setPred k b | none => L }
  | none =>
    let S := wb.s.foldl (fun S (r, x) => S.setSreg r x) S
    match wb.p with
    | some (k, b) =>
      { S with lanes := S.lanes.zipIdx.map fun (L, j) => if e.act.getLsbD j then L.setPred k b else L }
    | none => S

/-- An access has been performed. -/
def Access.isDone (a : Access) : Bool := a.st == .done

/-- An entry with nothing on its way: its results are written; the faulted accesses stay in it, or it is freed (R131). -/
def Slice.settleEntry (S : Slice) (W : Win) (e : LogEntry) : Slice :=
  let S := (e.accs.filter Access.isDone).foldl (fun S a => S.writeBack W e a) S
  let rest := e.accs.filter fun a => !a.isDone
  { S with log := if rest.isEmpty then S.log.filter fun x => x.slot != e.slot
                  else S.log.map fun x => if x.slot == e.slot then { e with accs := rest } else x }

/-- Whether an entry has an access on its way. -/
def LogEntry.waiting (e : LogEntry) : Bool := e.accs.any fun a => a.st == .pending

/-- Settles every entry of a slice that has nothing on its way and something performed. -/
def Slice.settleLog (S : Slice) (W : Win) : Slice :=
  S.log.foldl (fun S e => if !e.waiting && e.pending then S.settleEntry W e else S) S

/-- A named entry completes. -/
def State.completeEntry (s : State) (t u sl slot : Nat) : State :=
  let T := s.tile t
  match kget T.subs u with
  | none => s
  | some U =>
    match kget U.slices sl, kget T.gangs U.gang with
    | some S, some G =>
      let n := match kget T.blocks G.ctx with | some B => B.vregs | none => 128
      match S.log.find? fun e => e.slot == slot with
      | some e =>
        if e.waiting then s
        else s.setSub t u { U with slices := kset U.slices sl (S.settleEntry (s.windowOf G.kind n) e) }
      | none => s
    | _, _ => s

/-! ### Faulted entries (R132) -/

/-- The faulted entries of a sub-gang. -/
def Sub.faults (U : Sub) : List LogEntry := U.slices.flatMap fun (_, S) => S.log.filter LogEntry.faulted

/-- The causes by lane that the faulted entries of the instruction stamped q raise, and their slot. -/
def Sub.faultsOf (U : Sub) (q : Nat) : List (Option Nat × Cause) × Nat :=
  let mine := U.faults.filter fun e => e.seq == q
  let cs := mine.flatMap fun e => e.accs.filterMap fun a =>
    match a.st with
    | .faulted g c d => if g = 0 then none else some (a.lane, (⟨g, c, d⟩ : Cause))
    | _ => none
  (cs, match mine.head? with | some e => e.slot | none => 0)

/-- The faulted accesses of a sub-gang's oldest faulted instruction: its stamp, the causes by lane, and its slot. -/
def Sub.oldestFault (U : Sub) : Option (Nat × List (Option Nat × Cause) × Nat) :=
  match U.faults.foldl (fun (m : Option Nat) e => match m with | none => some e.seq | some q => some (min q e.seq)) none with
  | none => none
  | some q => some (q, (U.faultsOf q).1, (U.faultsOf q).2)

/-- The trap a list of causes by lane gives: the highest priority, then the lowest lane (R206). -/
def logTrap (cs : List (Option Nat × Cause)) (slot : Nat) (tepc : Word) : Option Trap :=
  match cs with
  | [] => none
  | (none, c) :: _ => some ⟨c.group, c.code, 0xFF, 0, c.datum, false, some slot, tepc⟩
  | _ =>
    match pickCause (cs.filterMap fun (l, c) => l.map fun j => (j, c)) with
    | none => none
    | some (l, c, others) => some ⟨c.group, c.code, BitVec.ofNat 8 l, others, c.datum, false, some slot, tepc⟩

/-- Whether a gang holds its writes: RUN, RETRY or LASTING (R133, R215). -/
def Retry.holding (r : Retry) : Bool :=
  match r.st with
  | .run | .retry | .lasting => true
  | _ => false

/-- Whether a sub-gang has met a lost packet while its gang can be retried: a tile-state error, not a trap (R211, R213). -/
def Tile.retryLoss (T : Tile) (u : Nat) : Bool :=
  match kget T.subs u with
  | none => false
  | some U =>
    (match kget T.gangs U.gang with | some G => G.retry.holding | none => false) &&
    U.slices.any fun (_, S) => S.log.any fun e => e.accs.any fun a =>
      match a.st with | .faulted 15 6 _ => true | _ => false

/-- Handler entry for the oldest faulted entry, once no entry is pending (R132). In a handler a new fault has no handler
to receive it (R209). -/
def State.enterLogTrap (s : State) (t u : Nat) : State :=
  match kget (s.tile t).subs u with
  | none => s
  | some U =>
    if U.quiet && !U.inh && !(s.tile t).retryLoss u then
      match U.oldestFault with
      | none => s
      | some (_, cs, slot) =>
        match logTrap cs slot U.pc with
        | some tr => takeTrap s t u tr
        | none => s
    else s

/-- Records what became of an access of a sub-gang, in every slice whose log holds it. -/
def Sub.setAccess (U : Sub) (seq : Nat) (lane : Option Nat) (f : Access → Access) : Sub :=
  U.mapSlices fun S => { S with log := S.log.map fun e =>
    if e.seq == seq then { e with accs := e.accs.map fun a => if a.lane == lane && a.st == .pending then f a else a } else e }

/-- Whether a sub-gang holds an entry of an instruction. -/
def Sub.holds (U : Sub) (seq : Nat) : Bool := U.slices.any fun (_, S) => S.log.any fun e => e.seq == seq

/-- The bytes of a load with those of the commit buffer laid over them (R133). -/
def overlayBytes (mask : BitVec 16) (own mem : BitVec 128) : BitVec 128 :=
  (List.range 16).foldl (fun x k =>
    if mask.getLsbD k then x ||| (((own >>> (8 * k)).setWidth 8).setWidth 128 <<< (8 * k))
    else x ||| (((mem >>> (8 * k)).setWidth 8).setWidth 128 <<< (8 * k))) 0

/-- An answer takes its effect on its tile (R98, R146): the vector joins, the line fills, the access is done or faulted. A
held write of the commit buffer that failed is kept for the instruction that issued it (R383). -/
def State.absorb (s : State) (r : Resp) : State :=
  let s := match r.obs with | some o => s.observe (dieOf r.tile) o | none => s
  let s := match r.rank with | some e => s.fillRank r.tile e | none => s
  let T := s.tile r.tile
  let s := match r.fill with | some (l, bs) => s.setTile r.tile { T with l1 := kset T.l1 l bs } | none => s
  let T := s.tile r.tile
  let f : Access → Access := fun a =>
    match r.bad with
    | some (g, c, d) => { a with st := .faulted g c (if g = 18 ∧ !r.strand then a.addr else d) }
    | none => { a with st := .done, data := if r.strand && !r.pr then r.data else overlayBytes a.mask a.data r.data, pr := r.pr }
  let subs := kmap T.subs fun _ U => if U.holds r.seq then U.setAccess r.seq r.lane f else U
  let gangs := kmap T.gangs fun g G =>
    if g == r.seq then
      match r.bad, G.retry.late with
      | some (g, c, d), none =>
        if g = 0 then G
        else { G with retry := { G.retry with late := some (g, c, match r.lane with | some j => BitVec.ofNat 8 j | none => 0xFF, d) } }
      | _, _ => G
    else G
  let s := s.setTile r.tile { T with subs := subs, gangs := gangs }
  -- an acquire that has its value invalidates L1
  let acq := subs.any fun (_, U) => U.slices.any fun (_, S) => S.log.any fun e => e.seq == r.seq && acquires e.i
  let s := if acq then s.l1Clear r.tile else s
  if r.bad.isSome then
    match (s.tile r.tile).subs.find? fun (u, U) => U.holds r.seq && U.inh && !(s.tile r.tile).retryLoss u with
    | some (u, U) =>
      match r.bad with
      | some (g, c, d) =>
        takeTrap s r.tile u ⟨g, c, match r.lane with | some j => BitVec.ofNat 8 j | none => 0xFF, 0, d, false, none, U.pc⟩
      | none => s
    | none => s
  else s

/-- An answer reaches a tile: a draining tile puts it into its return log (R90). -/
def State.deliver (s : State) (r : Resp) : State :=
  let T := s.tile r.tile
  match T.mode with
  | .drain _ _ => s.setTile r.tile { T with retlog := T.retlog ++ [.access r] }
  | _ => s.absorb r

end Sys2Proof.Machine
end

