-- ==== Sys2Proof/Machine/Wire.lean ====
section
/-!
DEFINITION. Accesses between dies: vectors, messages, and what a home does with them (09_consistency.md R138, R144 to R148;
02_links.md R17 to R19; 06_sheaves.md R99; 13_traps_faults.md R211).
-/
namespace Sys2Proof.Machine

/-! ### Vectors a tile carries (R99, R146) -/

/-- The vector an access of a tile carries: its die's, joined with the carry vector of a restored tile. -/
def State.carried (s : State) (t : Nat) : List W32 :=
  match (s.tile t).carry with
  | some c => joinVec (s.die (dieOf t)).vec c
  | none => (s.die (dieOf t)).vec

/-- A tile drops its carry vector once the vector of its die covers it (R99), no message of it waits at its own die and no answer is on its way. -/
def State.dropCarry (s : State) (t : Nat) : State :=
  let d := dieOf t
  match (s.tile t).carry with
  | some c =>
    if coversVec (s.die d).vec c && !((s.die d).inbox.any fun m => m.tile == t && m.src == d) && !(s.resps.any fun r => r.tile == t) then s.setTile t { s.tile t with carry := none } else s
  | none => s

/-- A body that counts as a write on leaving its die (R145). -/
def Body.writes (b : Body) : Bool :=
  match b with
  | .write _ _ | .atomic _ _ _ _ _ | .signal _ _ _ => true
  | .strand r => strandWrites r.i
  | .read _ _ _ | .announce _ => false

/-! ### Paths between dies (R17, R19) -/

/-- The dies across the horizontal and the vertical boundary of a die (R7). -/
def acrossH (x : Nat) : Nat := if x % 2 = 0 then x + 1 else x - 1
def acrossV (x : Nat) : Nat := if x < 2 then x + 2 else x - 2

/-- The boundary between two dies that share one: 0 is 0–1, 1 is 2–3, 2 is 0–2, 3 is 1–3. -/
def boundaryOf (x y : Nat) : Nat := if y = acrossH x then min x y / 2 else 2 + min x y

/-- The boundaries a packet crosses from die x to die y: the horizontal one first, then the vertical one (R17). -/
def pathOf (x y : Nat) : List Nat :=
  if y = acrossH x ∨ y = acrossV x then [boundaryOf x y] else [boundaryOf x (acrossH x), boundaryOf (acrossH x) y]

/-- The other way around the square (R19). -/
def detourOf (x y : Nat) : List Nat :=
  if y = acrossH x then [boundaryOf x (acrossV x), boundaryOf (acrossV x) (acrossV y), boundaryOf (acrossV y) y]
  else if y = acrossV x then [boundaryOf x (acrossH x), boundaryOf (acrossH x) (acrossH y), boundaryOf (acrossH y) y]
  else [boundaryOf x (acrossV x), boundaryOf (acrossV x) y]

/-- STATE of a boundary (R19): 0 down, 1 training, 2 up. -/
def State.boundaryState (s : State) (b : Nat) : Nat := bits (s.boundary b).stat.toNat 1 0

/-- The path between two dies: that of R17, or, where a boundary of it is down, the detour of R19; none where they are cut
off. No boundary lies between a die and the host die (log 48). -/
def State.diePath (s : State) (x y : Nat) : Option (List Nat) :=
  if x = y ∨ 4 ≤ x ∨ 4 ≤ y then some []
  else if (pathOf x y).all fun b => s.boundaryState b != 0 then some (pathOf x y)
  else if (detourOf x y).all fun b => s.boundaryState b != 0 then some (detourOf x y)
  else none

/-- Whether the path from die x to die y exists and every boundary of it is in a state that satisfies `ok` (R17, R19). -/
def State.reaches (s : State) (ok : Nat → Bool) (x y : Nat) : Bool :=
  match s.diePath x y with
  | some p => p.all fun b => ok (s.boundaryState b)
  | none => false

/-- Two dies cut off from each other: no path of boundaries that are not down (R19). -/
def State.cutOffDies (s : State) (x y : Nat) : Bool := (s.diePath x y).isNone

/-! ### The applied vector (R145) -/

/-- The applied vector of a home from what it knows and what waits in its inbox. -/
def Die.refresh (D : Die) (d : Nat) : Die :=
  { D with applied := (List.range 5).map fun e =>
      if e = d then ent D.vec e
      else
        match D.inbox.find? fun m => m.src == e && m.body.writes with
        | some m => m.own - 1
        | none => ent D.known e }

def State.refresh (s : State) (d : Nat) : State := s.setDie d ((s.die d).refresh d)

/-- Whether a home may apply or perform a message (R146, R99). -/
def Die.readyFor (D : Die) (home : Nat) (m : Msg) : Bool :=
  let A := (D.refresh home).applied
  (List.range 5).all fun e =>
    if m.body.writes && e == m.src && m.src != home then geq (ent A e) (ent m.vec e - 1) else geq (ent A e) (ent m.vec e)

/-- Whether a die must stall its outbound writes: one of its entries is 2^31 or more ahead of what some other home has applied
(R145). Its own entry is never behind another home's; another die's entry stops at 2^31 ahead, since that die stalls. -/
def State.writeStalled (s : State) (d : Nat) : Bool :=
  let v := (s.die d).vec
  (List.range 5).any fun h => h != d && (List.range 5).any fun e =>
    let n := (ent v e - ent (s.die h).applied e).toNat
    if e = d then decide (2 ^ 31 ≤ n) else n == 2 ^ 31

/-! ### Flits on the boundaries (R18, R19, R24) -/

/-- The end of a boundary at die x, as a key of `State.boundaries`: b for its lower-numbered die, b + 4 for the other. -/
def boundaryEnd (b x : Nat) : Nat := if (match b with | 0 => 0 | 1 => 2 | 2 => 0 | _ => 1) = x then b else b + 4

/-- What names a packet between dies in its flits (log 25). -/
def Msg.name (m : Msg) : List Byte := natLe 2 m.src ++ natLe 2 m.dst ++ natLe 8 m.num

/-- A packet between dies as bytes: its name in a header of 32 bytes, then the bytes it carries (log 25). -/
def Msg.packet (m : Msg) : List Byte :=
  m.name ++ List.replicate 20 0 ++ (match m.body with | .write _ bs => bs | .strand r => r.bytes | _ => [])

/-- Flits a packet between dies takes. -/
def Msg.flits (m : Msg) : Nat := (m.packet.length + 119) / 120

/-- One bit of CRC-32C. -/
def crcBit (c : W32) : W32 := if c.getLsbD 0 then (c >>> 1) ^^^ 0x82F63B78#32 else c >>> 1

/-- CRC-32C of bytes (R22). -/
def crc32c (bs : List Byte) : W32 :=
  bs.foldl (fun c b => (List.range 8).foldl (fun c _ => crcBit c) (c ^^^ b.setWidth 32)) 0xFFFFFFFF#32 ^^^ 0xFFFFFFFF#32

/-- A flit of a kind with its trailer (R22). -/
def mkFlit (data : List Byte) (ack fseq : BitVec 12) (kind : Nat) : List Byte :=
  let b := data.take 120 ++ List.replicate (120 - data.length) 0 ++ natLe 4 (ack.toNat * 2 ^ 20 + fseq.toNat * 2 ^ 8 + kind * 16)
  b ++ natLe 4 (crc32c b).toNat

/-- Cuts bytes into pieces of 120. -/
def pieces120 : Nat → List Byte → List (List Byte)
  | 0, _ => []
  | n + 1, bs => if bs.isEmpty then [] else bs.take 120 :: pieces120 n (bs.drop 120)

/-- A link frames bytes into data flits, which it keeps until they are acknowledged (R24). -/
def Port.frame (P : Port) (bs : List Byte) : Port :=
  (pieces120 (bs.length / 120 + 1) bs).foldl (fun P d =>
    { P with txNext := P.txNext + 1, kept := P.kept ++ [⟨P.txNext, mkFlit d (P.rxNext - 1) P.txNext 0⟩] }) P

/-- An acknowledged sequence frees the kept flits up to it (R24). -/
def Port.acked (P : Port) (a : BitVec 12) : Port :=
  { P with kept := P.kept.filter fun f => decide (2048 ≤ (a - f.fseq).toNat)
           resend := P.resend.filter fun f => decide (2048 ≤ (a - f.fseq).toNat) }

/-- The first boundary of a path from die x, as the end at x. -/
def State.firstEnd (s : State) (x y : Nat) : Option Nat :=
  match s.diePath x y with
  | some (b :: _) => some (boundaryEnd b x)
  | _ => none

/-- Frames a message on the first boundary of its path. -/
def State.frameMsg (s : State) (m : Msg) : State :=
  match s.firstEnd m.src m.dst with
  | some e => s.setBoundary e ((s.boundary e).frame m.packet)
  | none => s

/-- The flit of a link that begins a message. -/
def Port.flitOf (P : Port) (m : Msg) : Option KeptFlit := P.kept.find? fun f => f.bytes.take 12 == m.name

/-- A message has crossed the boundary at an end: its flits, and those before them, are received and acknowledged. -/
def State.ackMsg (s : State) (e : Nat) (m : Msg) : State :=
  match (s.boundary e).flitOf m with
  | none => s
  | some f =>
    let last := f.fseq + BitVec.ofNat 12 (m.flits - 1)
    let s := s.setBoundary e ((s.boundary e).acked last)
    let o := if e < 4 then e + 4 else e - 4
    let P := s.boundary o
    s.setBoundary o (if (last - P.rxNext).toNat < 2048 then { P with rxNext := last + 1 } else P)

/-- n flits cross the boundary b from die x at once: sent, received and acknowledged, and with them those sent before. -/
def State.crossAt (s : State) (b x n : Nat) : State :=
  let e := boundaryEnd b x
  let P := s.boundary e
  let next := P.txNext + BitVec.ofNat 12 n
  let s := s.setBoundary e { P with txNext := next, kept := [], resend := [] }
  let o := if e < 4 then e + 4 else e - 4
  s.setBoundary o { s.boundary o with rxNext := next }

/-- The die on the other side of a boundary. -/
def overBoundary (b x : Nat) : Nat := if b < 2 then acrossH x else acrossV x

/-- n flits cross a path from die x. -/
def State.crossPath (s : State) (n : Nat) : List Nat → Nat → State
  | [], _ => s
  | b :: l, x => State.crossPath (s.crossAt b x n) n l (overBoundary b x)

/-- A message arrives over its path: it leaves the flits of the first boundary, and crosses the others. -/
def State.crossMsg (s : State) (m : Msg) : State :=
  match s.diePath m.src m.dst with
  | some (b :: l) => (s.ackMsg (boundaryEnd b m.src) m).crossPath m.flits l (overBoundary b m.src)
  | _ => s

/-! ### Sending -/

/-- Whether a message may leave its die: its first boundary keeps fewer than 512 flits with it (R24), and, for a write, its die
does not stall (R145). -/
def State.mayLeave (s : State) (m : Msg) : Bool :=
  !(m.body.writes && s.writeStalled m.src) &&
  match s.firstEnd m.src m.dst with
  | some e => decide ((s.boundary e).kept.length + m.flits ≤ 512)
  | none => true

/-- A message leaves its die (R145, R146, R19): a write first increments its die's own entry; it takes the next number of its
path and is framed on the path's first boundary. -/
def State.leave (s : State) (m : Msg) : State :=
  let D := s.die m.src
  let D := if m.body.writes then { D with vec := D.vec.set m.src (ent D.vec m.src + 1) } else D
  let vec := if m.body.writes then m.vec.set m.src (ent D.vec m.src) else m.vec
  let num := kgetD D.sendNo m.dst 0
  let body := match m.body with | .announce _ => .announce (ent D.vec m.src) | b => b
  let m := { m with num := num, vec := vec, own := ent D.vec m.src, body := body }
  let s := (s.setDie m.src { D with sendNo := kset D.sendNo m.dst (num + 1) }).frameMsg m
  { s with wire := s.wire ++ [m] }

/-- The bytes a message touches. -/
def Body.span (b : Body) : Option (Nat × Nat) :=
  match b with
  | .write pa bs => some (pa, bs.length)
  | .atomic pa _ w _ _ => some (pa, w / 8)
  | .signal pa _ _ => some (pa, 8)
  | .read pa n _ => some (pa, n)
  | _ => none

/-- Whether a request touches a granule that is closed (R50). -/
def State.shutAt (s : State) (b : Body) : Bool :=
  match b.span with
  | some (pa, n) => s.closed.any fun m => (m.granule == granuleOf pa || m.granule == granuleOf (pa + n - 1)) && isDram pa
  | none => false

/-- The world of the agent of a request (R48, R49): that of the packet, of the tile and its NI, or of the host, which is
non-secure; the device's own accesses reach both. -/
def State.worldFor (s : State) (src t : Nat) (flow : Option Packet) : Bool :=
  match flow with
  | some pk => pk.world
  | none => if t < 256 then (s.tile t).world else src != 4

/-- A message of die `src` for die `dst` (R145, R146): it leaves at once where nothing waits before it and it may; else it
waits in its die's queue. The vector is the one its tile carries. A message of a restored tile to its own die joins the
inbox at once (R99). -/
def State.send (s : State) (src dst t seq : Nat) (lane : Option Nat) (vec : List W32) (body : Body)
    (flow : Option Packet) : State :=
  let D := s.die src
  let m : Msg := ⟨src, dst, 0, vec, ent vec src, body, t, seq, lane, flow, s.worldFor src t flow, false⟩
  if src = dst then s.setDie dst { D with inbox := D.inbox ++ [m] }
  else if D.outq.isEmpty && s.mayLeave m then s.leave m
  else s.setDie src { D with outq := D.outq ++ [m] }

/-! ### What a home does (R123, R138) -/

/-- The line of the lowest poisoned byte an access touches (R211). -/
def State.poisonLine (s : State) (pa n : Nat) : Option Nat :=
  ((List.range n).find? fun k => s.poisonedAt (pa + k) 1).map fun k => lineOf (pa + k) * 128

/-- An atomic at its home: the state and the old value. -/
def State.atomicAt (s : State) (pa op w : Nat) (y z : Word) : State × Nat :=
  let x := s.le pa (w / 8)
  let v := atomicOp op w x (y.toNat % 2 ^ w) (z.toNat % 2 ^ w)
  (s.putBytes pa (natLe (w / 8) v), x)

/-- A write becomes part of what a home has observed (R145). -/
def State.joinObserved (s : State) (home : Nat) (v : List W32) : State :=
  let D := s.die home
  s.setDie home { D with observed := joinVec D.observed v }

/-- The 128-bit datum little-endian bytes hold. -/
def dataOf (bs : List Byte) : BitVec 128 := BitVec.ofNat 128 (leNat bs)

/-- The answers of a strand request: one for each lane, or the failures. An element access that succeeds fills the rank cache
(R163). -/
def strandResps (home : Nat) (r : StrandReq) (obs : List W32) (rank : Option Nat → Option RankEntry) (ans : SAns) : List Resp :=
  match ans with
  | .fail ls => ls.map fun (l, g, c, d) => ⟨home, r.tile, r.seq, l, 0, false, true, some obs, none, none, some (g, c, d)⟩
  | .ok ls => ls.map fun (l, x, p, bad) => ⟨home, r.tile, r.seq, l, x, p, true, some obs, none, if bad.isSome then none else rank l, bad⟩

/-- The security cause of a request at its home (R45, R49, R50, R156). -/
def State.homeDenies (s : State) (m : Msg) : Option Byte :=
  if m.shut then some 1
  else
    match m.body.span with
    | none => none
    | some (pa, n) => [pa, pa + n - 1].findSome? fun a =>
        match security { s with closed := [] } m.world a with
        | some c => some c
        | none => none

/-- What a home answers when a request was done, or could not be done. -/
def State.answerTo (s : State) (home : Nat) (m : Msg) (x : BitVec 128) (fill : Option (Nat × List Byte))
    (bad : Option (Nat × Byte × Word)) : Resp :=
  ⟨home, m.tile, m.seq, m.lane, x, false, false, some (s.die home).observed, fill, none, bad⟩

/-- A home does what a message asks: the state and the answers. Writes enter the observed vector; a read takes it back with its
response (R146). -/
def State.performBody (s : State) (home : Nat) (m : Msg) : State × List Resp :=
  match m.body with
  | .write pa bs =>
    let s := (s.putBytes pa bs).joinObserved home m.vec
    (s, [s.answerTo home m 0 none none])
  | .signal pa inc _ =>
    let s := (s.putBytes pa (natLe 8 (s.le pa 8 + inc.toNat))).joinObserved home m.vec
    (s, [s.answerTo home m 0 none none])
  | .atomic pa op w y z =>
    match s.poisonLine pa (w / 8) with
    | some l => (s, [s.answerTo home m 0 none (some (15, 5, BitVec.ofNat 64 l))])
    | none =>
      let (s, x) := s.atomicAt pa op w y z
      let s := s.joinObserved home m.vec
      (s, [s.answerTo home m (BitVec.ofNat 128 x) none none])
  | .read pa n line =>
    match s.poisonLine pa n with
    | some l => (s, [s.answerTo home m 0 none (some (15, 5, BitVec.ofNat 64 l))])
    | none =>
      let fill := if line then some (lineOf pa, s.bytes (lineOf pa * 128) 128) else none
      (s, [s.answerTo home m (dataOf (s.bytes pa n)) fill none])
  | .strand r =>
    let (s, ans) := s.strandApply r
    let s := if strandWrites r.i then s.joinObserved home m.vec else s
    (s, strandResps home r (s.die home).observed (s.rankEntry r) ans)
  | .announce _ => (s, [])

/-- A home performs a message that reached it. A request the world check refuses has no effect (R49). -/
def State.perform (s : State) (home : Nat) (m : Msg) : State × List Resp :=
  match s.homeDenies m with
  | some c => (s, [s.answerTo home m 0 none (some (18, c, BitVec.ofNat 64 (match m.body.span with | some (pa, _) => pa | none => 0)))])
  | none => s.performBody home m

/-- Whether two messages of one tile must keep their order: they touch one line, or one strand (R125, R162). -/
def Msg.ordered (a b : Msg) : Bool :=
  a.tile == b.tile &&
  match a.body, b.body with
  | .strand q, .strand r => q.strand == r.strand
  | x, y =>
    match x.span, y.span with
    | some (p, n), some (q, m) => decide (lineOf p ≤ lineOf (q + m - 1)) && decide (lineOf q ≤ lineOf (p + n - 1))
    | _, _ => false

/-- The k-th message of an inbox, when its home may take it: its vector is covered, and no earlier message that it must
follow stands before it. -/
def Die.takeable (D : Die) (home k : Nat) : Option Msg :=
  match D.inbox[k]? with
  | none => none
  | some m =>
    if D.readyFor home m && !((D.inbox.take k).any fun a => a.ordered m ||
        (a.body.writes && m.body.writes && a.src == m.src)) then some m else none

/-! ### The issuing tile's own die (R144) -/

/-- Whether a tile's accesses to a home are performed at issue: the home is its own die and it carries no vector (R146). -/
def State.isLocal (s : State) (t home : Nat) : Bool := home == dieOf t && (s.tile t).carry.isNone

/-- An access to the issuer's own die is performed at once, its checks just made: the state and the answers. -/
def State.performHere (s : State) (t seq : Nat) (lane : Option Nat) (body : Body) : State × List Resp :=
  let d := dieOf t
  s.performBody d ⟨d, d, 0, (s.die d).vec, ent (s.die d).vec d, body, t, seq, lane, none, (s.tile t).world, false⟩

/-- The answer to a message between dies that are cut off (R19): group 15, CODE 6. -/
def lostResp (home t seq : Nat) (lane : Option Nat) (addr : Nat) : Resp :=
  ⟨home, t, seq, lane, 0, false, false, none, none, none, some (15, 6, BitVec.ofNat 64 addr)⟩

/-- The answers that stand for a lost message: every lane of a strand request is lost. -/
def Msg.lost (m : Msg) : List Resp :=
  match m.body with
  | .strand r =>
    if r.lanes.isEmpty then [{ lostResp m.dst m.tile m.seq none 0 with strand := true }]
    else r.lanes.map fun (l, _, _) => { lostResp m.dst m.tile m.seq l 0 with strand := true }
  | .announce _ => []
  | b => [lostResp m.dst m.tile m.seq m.lane (match b.span with | some (p, _) => p | none => 0)]

end Sys2Proof.Machine
end

