-- ==== Sys2Proof/Machine/Fabric.lean ====
section
/-!
DEFINITION. The Gletan fabric as this package sees it: packets and flits, flows, routes, requests outstanding, answers
(02_links.md R20 to R38, R381, R382; 06_sheaves.md R91).
-/
namespace Sys2Proof.Machine

/-! ### Packets as bytes (R30) -/

def opWrite : Byte := 0x01
def opRead : Byte := 0x02
def opAtomic : Byte := 0x03
def opSignal : Byte := 0x04
def opReduce : Byte := 0x05
def opReadData : Byte := 0x10
def opAck : Byte := 0x11
def opAtomRes : Byte := 0x12
def opError : Byte := 0x13

/-- The four header words. -/
def packetWords (p : Packet) : List Nat :=
  [p.op.toNat * 2 ^ 56 + p.vc.toNat * 2 ^ 54 + p.dnode.toNat * 2 ^ 44 + p.snode.toNat * 2 ^ 34 + p.sep.toNat * 2 ^ 24 +
     p.fseq.toNat * 2 ^ 8,
   p.vf.toNat * 2 ^ 55 + (if p.world then 2 ^ 54 else 0) + p.addr.toNat,
   p.tag.toNat * 2 ^ 48 + p.len.toNat * 2 ^ 39 + p.aop.toNat * 2 ^ 35 + p.dtype.toNat * 2 ^ 32,
   p.cseq.toNat * 2 ^ 48 + p.rgroup.toNat * 2 ^ 32 + p.ncontrib.toNat * 2 ^ 22]

/-- A packet as bytes: header and payload, padded to an 8-byte boundary. -/
def packetBytes (p : Packet) : List Byte :=
  let b := (packetWords p).flatMap (natLe 8) ++ p.payload
  b ++ List.replicate ((8 - b.length % 8) % 8) 0

/-- The packet a header of 32 bytes describes, with the given payload. -/
def packetOfHeader (h payload : List Byte) : Packet :=
  let w := fun k => leNat ((h.drop (8 * k)).take 8)
  { op := BitVec.ofNat 8 (bits (w 0) 63 56), vc := BitVec.ofNat 2 (bits (w 0) 55 54), dnode := BitVec.ofNat 10 (bits (w 0) 53 44),
    snode := BitVec.ofNat 10 (bits (w 0) 43 34), sep := BitVec.ofNat 10 (bits (w 0) 33 24), fseq := BitVec.ofNat 16 (bits (w 0) 23 8),
    vf := BitVec.ofNat 9 (bits (w 1) 63 55), world := bits (w 1) 54 54 == 1, addr := BitVec.ofNat 42 (bits (w 1) 41 0),
    tag := BitVec.ofNat 16 (bits (w 2) 63 48), len := BitVec.ofNat 9 (bits (w 2) 47 39), aop := BitVec.ofNat 4 (bits (w 2) 38 35),
    dtype := BitVec.ofNat 3 (bits (w 2) 34 32), cseq := BitVec.ofNat 16 (bits (w 3) 63 48),
    rgroup := BitVec.ofNat 16 (bits (w 3) 47 32), ncontrib := BitVec.ofNat 10 (bits (w 3) 31 22), payload := payload }

/-- Payload bytes that follow a header: none for READ (R381). -/
def payloadLen (p : Packet) : Nat := if p.op = opRead then 0 else p.len.toNat

/-- A packet with every field zero. -/
def packetZero : Packet :=
  { op := 0, vc := 0, dnode := 0, snode := 0, sep := 0, fseq := 0, vf := 0, world := false, addr := 0, tag := 0, len := 0,
    aop := 0, dtype := 0, cseq := 0, rgroup := 0, ncontrib := 0, payload := [] }

/-- Whole packets at the head of a stream of payload bytes, and the bytes left: a header of zeros is padding to the end
of a flit (log 25). -/
def parsePackets : Nat → List Byte → List Packet × List Byte
  | 0, bs => ([], bs)
  | n + 1, bs =>
    if bs.length < 32 then
      if bs.all (· == 0) then ([], []) else ([], bs)
    else if (bs.take 32).all (· == 0) then parsePackets n (bs.drop 8)
    else
      let h := packetOfHeader (bs.take 32) []
      let len := payloadLen h
      let all := 32 + (len + 7) / 8 * 8
      if bs.length < all then ([], bs)
      else
        let (ps, rest) := parsePackets n (bs.drop all)
        ({ h with payload := (bs.drop 32).take len } :: ps, rest)

/-! ### Flits (R22) -/

/-- The fields of a flit: packet data, ACKSEQ, FSEQ, KIND, and whether its CRC holds. -/
def readFlit (f : List Byte) : List Byte × BitVec 12 × BitVec 12 × Nat × Bool :=
  let t := leNat ((f.drop 120).take 4)
  (f.take 120, BitVec.ofNat 12 (bits t 31 20), BitVec.ofNat 12 (bits t 19 8), bits t 7 4,
   f.length == 128 && crc32c (f.take 124) == BitVec.ofNat 32 (leNat ((f.drop 124).take 4)))

/-! ### Flows (R31, R33) -/

/-- The key of a flow: endpoint, the other node, channel. -/
def flowKey (ep node vc : Nat) : Nat := (ep * 1024 + node) * 4 + vc

/-- The key of a companion flow at its source. -/
def pairKey (ep node : Nat) : Nat := ep * 1024 + node

/-- The endpoint of an NI of a die (R30). -/
def sepOf (die ni : Nat) : Nat := die * 256 + ni

/-- State of a port (R21): 0 down, 1 training, 2 up, 3 quiesced. -/
def Port.state (P : Port) : Nat := bits P.stat.toNat 1 0

/-- The port a die's route table names for a node; 0xFF for none (R28, R29). -/
def State.route (s : State) (die node : Nat) : Nat := (kgetD (s.die die).grtab node 0xFF).toNat

/-- A packet whose route is 0xFF or a port that is down is lost (R29), and so is one whose die is cut off from the die of its
port (R19). -/
def State.routeLost (s : State) (die node : Nat) : Bool :=
  let p := s.route die node
  decide (24 ≤ p) || (s.port p).state == 0 || s.cutOffDies die (p / 6)

/-- Flits that the bytes a port has not framed yet take together with n more (R30). -/
def Port.flitsFor (P : Port) (n : Nat) : Nat := (P.tx.length + n + 119) / 120

/-- A port takes a new packet while it is up, not quiescing, and has room for its flits (R24, R29). -/
def Port.takes (P : Port) (pk : Packet) : Bool :=
  P.state == 2 && !P.quiesce && decide (P.kept.length + P.flitsFor (packetBytes pk).length ≤ 512)

/-- Packet bytes join those of the packets before them, back to back, and every whole flit is framed (R30). -/
def Port.push (P : Port) (bs : List Byte) : Port :=
  let all := P.tx ++ bs
  let n := all.length / 120 * 120
  { P.frame (all.take n) with tx := all.drop n }

/-- Where no packet follows, the rest of the last flit is zeros (log 25). -/
def Port.flush (P : Port) : Port := if P.tx.isEmpty then P else { P.frame P.tx with tx := [] }

def State.flushPorts (s : State) : State := { s with ports := kmap s.ports fun _ P => P.flush }

/-- A packet crosses from its die to the die of its port (R28): its flits cross the boundaries of the path, and it takes a
number of that path (R19). -/
def State.crossTo (s : State) (die p : Nat) (pk : Packet) : State :=
  let d := p / 6
  if d = die then s
  else
    let s := s.crossPath (((packetBytes pk).length + 119) / 120) ((s.diePath die d).getD []) die
    let D := s.die die
    let s := s.setDie die { D with sendNo := kset D.sendNo d (kgetD D.sendNo d 0 + 1) }
    let E := s.die d
    s.setDie d { E with recvNo := kset E.recvNo die (kgetD E.recvNo die 0 + 1) }

/-- Whether a packet may cross from its die to the die of its port: every boundary of the path is up, and nothing of the path
is on its way (R19, R28). -/
def State.crossOpen (s : State) (die p : Nat) : Bool :=
  let d := p / 6
  d == die || (s.reaches (fun st => st == 2) die d && !(s.wire.any fun m => m.src == die && m.dst == d) &&
    !((s.die die).outq.any fun m => m.dst == d))

/-- A packet of a die leaves by a port. -/
def State.emit (s : State) (die p : Nat) (pk : Packet) (id : Option Nat) : State :=
  let s := s.crossTo die p pk
  let P := (s.port p).push (packetBytes pk)
  let P := match id with | some i => { P with carried := P.carried ++ [i] } | none => P
  { s.setPort p P with outbox := s.outbox ++ [pk] }

/-- The names of what an NI has on its way inside the package: requests of its tile to other dies, one for each lane of a plain
access and one for a strand request, from their issue to their answer (R91). -/
def State.onWay (s : State) (t : Nat) : List (Nat × Option Nat) :=
  let mine : List Msg → List (Nat × Option Nat) := fun l =>
    (l.filter fun m => m.tile == t && m.flow.isNone).map fun m => (m.seq, m.lane)
  let back : List (Nat × Option Nat) := (s.resps.filter fun r => r.tile == t).map fun r => (r.seq, if r.strand then none else r.lane)
  mine s.wire ++ s.dies.flatMap (fun (_, D) => mine D.inbox ++ mine D.outq) ++
    back.foldl (fun l x => if l.contains x then l else l ++ [x]) []

/-- Requests an NI has outstanding (R91): packets to other nodes, and a tile's requests to other dies. -/
def State.outCount (s : State) (die ni : Nat) : Nat :=
  (s.outs.filter fun o => o.die == die && o.ni == ni && o.pk.vc != 1).length + (if ni < 64 then (s.onWay (64 * die + ni)).length else 0)

/-- Whether an NI may issue n more requests. -/
def State.outRoom (s : State) (die ni n : Nat) : Bool := n == 0 || decide (s.outCount die ni + n ≤ 256)

/-- The answer a lost packet gives the access that waits for it (R25). -/
def Out.lostResp (o : Out) : Option Resp :=
  match o.owner with
  | .access t q l => some ⟨dieOf t, t, q, l, 0, false, false, none, none, none, some (15, 6, o.pk.addr.setWidth 64)⟩
  | _ => none

/-- A packet of an NI enters its flow under a name: numbered, tagged, and kept as outstanding until it is answered (R31, R33,
R91). -/
def State.enterFlow (s : State) (id die ni : Nat) (pk : Packet) (owner : Owner) : State :=
  let ep := sepOf die ni
  let node := pk.dnode.toNat
  let fk := flowKey ep node pk.vc.toNat
  let f := kgetD s.flowTx fk 0
  let cs : BitVec 16 := match kget s.lastReq (pairKey ep node) with | some c => BitVec.ofNat 16 c | none => 0xFFFF
  let pk := { pk with snode := BitVec.ofNat 10 s.node, sep := BitVec.ofNat 10 ep, fseq := BitVec.ofNat 16 f,
                      tag := if pk.op = opReduce then pk.tag else BitVec.ofNat 16 id,
                      cseq := if pk.op = opSignal then cs else pk.cseq }
  { s with
    flowTx := kset s.flowTx fk ((f + 1) % 65536)
    lastReq := if pk.vc = 0 then kset s.lastReq (pairKey ep node) (f % 65536) else s.lastReq
    outs := s.outs ++ [⟨id, die, ni, pk, none, owner⟩] }

/-- A new request of an NI. -/
def State.request (s : State) (die ni : Nat) (pk : Packet) (owner : Owner) : State :=
  ({ s with nextId := s.nextId + 1 } : State).enterFlow s.nextId die ni pk owner

/-- A request that has not been sent leaves its flow as if it had never entered it: its number is the next again (R90). The
requests of a flow leave last first. -/
def State.leaveFlow (s : State) (o : Out) : State :=
  let ep := sepOf o.die o.ni
  let node := o.pk.dnode.toNat
  let f := o.pk.fseq.toNat
  { s with
    flowTx := kset s.flowTx (flowKey ep node o.pk.vc.toNat) f
    lastReq := if o.pk.vc = 0 then kset s.lastReq (pairKey ep node) ((f + 65535) % 65536) else s.lastReq
    outs := s.outs.filter fun x => x.id != o.id }

/-- Whether the tile of an NI is frozen: its outbound queue issues nothing (R90). -/
def State.niFrozen (s : State) (o : Out) : Bool :=
  decide (o.ni < 64) &&
  match (s.tile (64 * o.die + o.ni)).mode with
  | .drain _ _ | .save | .halt _ => true
  | _ => false

/-- Whether two packets belong to one flow (R31). -/
def sameFlow (a b : Packet) : Bool := a.sep == b.sep && a.dnode == b.dnode && a.vc == b.vc

/-- A waiting packet leaves by its port (R29): a request stays outstanding, a response is gone. -/
def State.emitOut (s : State) (o : Out) : State :=
  let p := s.route o.die o.pk.dnode.toNat
  if o.pk.vc = 1 then { s.emit o.die p o.pk none with outs := s.outs.filter fun x => x.id != o.id }
  else { s.emit o.die p o.pk (some o.id) with outs := s.outs.map fun x => if x.id == o.id then { x with port := some p } else x }

/-- Whether a waiting packet may leave: no earlier one of its flow waits, its port takes it, and it can cross to it. -/
def State.outReady (s : State) (o : Out) : Bool :=
  let p := s.route o.die o.pk.dnode.toNat
  !((s.outs.takeWhile fun x => x.id != o.id).any fun x => x.port.isNone && sameFlow x.pk o.pk) && (s.port p).takes o.pk && s.crossOpen o.die p

/-- What happens next to the waiting packets, first to last: each is lost, leaves by its port, or waits behind an earlier
one of its flow (R29); those of a frozen tile stay (R90). The lost ones are answered. -/
def State.pumpFabric (s : State) : State × List Out :=
  s.outs.foldl (fun (acc : State × List Out) o =>
    let (s, lost) := acc
    if o.port.isSome || s.niFrozen o then acc
    else if s.routeLost o.die o.pk.dnode.toNat then ({ s with outs := s.outs.filter fun x => x.id != o.id }, lost ++ [o])
    else if s.outReady o then (s.emitOut o, lost)
    else acc) (s, [])

/-- The packet an NI has just numbered leaves, if it may (R29). -/
def State.tryLast (s : State) : State :=
  match s.outs.getLast? with
  | some o => if o.port.isNone && !s.routeLost o.die o.pk.dnode.toNat && s.outReady o then s.emitOut o else s
  | none => s

/-- A response leaves for its requester (R30): unanswered itself, on the response channel of the die cache agent of a die;
where its route names no port that is up it is lost. -/
def State.respond (s : State) (die : Nat) (req : Packet) (op : Byte) (payload : List Byte) : State :=
  let ep := sepOf die 65
  let node := req.snode.toNat
  let fk := flowKey ep node 1
  let f := kgetD s.flowTx fk 0
  let pk := { packetZero with
    op := op, vc := 1, dnode := req.snode, snode := BitVec.ofNat 10 s.node, sep := BitVec.ofNat 10 ep,
    fseq := BitVec.ofNat 16 f, vf := req.vf, world := req.world, addr := req.addr, tag := req.tag,
    len := BitVec.ofNat 9 payload.length, payload := payload }
  let s := { s with flowTx := kset s.flowTx fk ((f + 1) % 65536) }
  if s.routeLost die node then s
  else (({ s with outs := s.outs ++ [⟨s.nextId, die, 65, pk, none, .none⟩], nextId := s.nextId + 1 } : State)).tryLast

/-- An ERROR answer with a code of R382. -/
def State.refuse (s : State) (die : Nat) (req : Packet) (code : Nat) : State := s.respond die req opError (natLe 8 code)

/-- The packet that answers a message which came in as a packet. An ATOMIC that a poisoned line kept from being performed
answers with old value 0, the model's choice (log 39). -/
def State.answerPacket (s : State) (home : Nat) (pk : Packet) (rs : List Resp) : State :=
  match rs with
  | [] => s
  | r :: _ =>
    match r.bad with
    | some (18, c, _) => s.refuse home pk (if c = 1 then 2 else 3)
    | _ =>
    if pk.op = opRead then s.respond home pk opReadData (s.bytes pk.addr.toNat pk.len.toNat)
    else if pk.op = opAtomic then s.respond home pk opAtomRes (natLe (if pk.dtype = 1 then 8 else 4) r.data.toNat)
    else s.respond home pk opAck []

/-- The key under which a packet of a request flow is known as arrived and not yet visible (R33). -/
def unseenKey (pk : Packet) : Nat × Nat := (flowKey pk.sep.toNat pk.snode.toNat 0, pk.fseq.toNat)

/-- The die whose agent answers for a home: its own, and for host memory the die of the port the packet came in by (log 41). -/
def answerDie (home : Nat) (m : Msg) : Nat := if home < 4 then home else m.src

/-- What a read of the host brings (R148): the bytes, and the vector that joins the host die's. -/
def State.hostAnswer (s : State) (m : Msg) (rs : List Resp) : State :=
  match m.body, rs with
  | .read pa n _, r :: _ =>
    let D := s.die 4
    { s.setDie 4 { D with vec := joinVec D.vec (r.obs.getD zeroVec) } with hostGot := s.hostGot ++ [.bytes pa (s.bytes pa n)] }
  | _, _ => s

/-- A home takes the k-th message of its inbox and performs it; an incoming packet is answered, and the writes of the host and
of the device, which no tile waits for, are not. -/
def State.takeMsg (s : State) (home k : Nat) (m : Msg) : State :=
  let D := s.die home
  let s := s.setDie home { D with inbox := D.inbox.eraseIdx k }
  let (s, rs) := s.perform home m
  let s := s.refresh home
  match m.flow with
  | some pk => { s.answerPacket (answerDie home m) pk rs with unseen := s.unseen.filter fun u => u != unseenKey pk }
  | none => if 256 ≤ m.tile then (if m.src = 4 then s.hostAnswer m rs else s) else { s with resps := s.resps ++ rs }

end Sys2Proof.Machine
end

