-- ==== Sys2Proof/Machine/Commit.lean ====
section
/-!
DEFINITION. Writes on their way to their homes, and the commit buffer of a retryable gang (08_memory_translation.md R133,
R134; 13_traps_faults.md R212, R215, R383).
-/
namespace Sys2Proof.Machine

/-! ### A request to a home -/

/-- The packet that carries a body to another node (R30, R290, R381). -/
def nodePacket (vf : Nat) (world : Bool) (fa : Nat) (b : Body) : Packet :=
  let p := { packetZero with dnode := BitVec.ofNat 10 (fa / 2 ^ 42), addr := BitVec.ofNat 42 fa, vf := BitVec.ofNat 9 vf, world := world }
  match b with
  | .write _ bs => { p with op := opWrite, len := BitVec.ofNat 9 bs.length, payload := bs }
  | .read _ n _ => { p with op := opRead, len := BitVec.ofNat 9 n }
  | .atomic _ op w y z =>
    let pl := natLe (w / 8) y.toNat ++ (if op = 10 then natLe (w / 8) z.toNat else [])
    { p with op := opAtomic, aop := BitVec.ofNat 4 op, dtype := if op = 1 then 2 else if w = 64 then 1 else 0,
             len := BitVec.ofNat 9 pl.length, payload := pl }
  | .signal _ inc _ => { p with op := opSignal, vc := 3, len := 8, payload := natLe 8 inc.toNat }
  | _ => p

/-- What became of a request at its issue: answered, or on its way. -/
inductive Sent where
  | answered (r : Resp)
  | onWay
  deriving Repr

/-- A tile sends a request to a fabric address (R27, R123, R144 to R146): its own die performs it at once, another die or
the host gets a message, another node a packet. -/
def State.requestTo (s : State) (t vf : Nat) (world : Bool) (seq : Nat) (lane : Option Nat) (fa : Nat) (body : Body) :
    State × Sent :=
  if fa / 2 ^ 42 ≠ s.node then
    let die := dieOf t
    if s.routeLost die (fa / 2 ^ 42) then (s, .answered (lostResp 4 t seq lane (fa % 2 ^ 42)))
    else ((s.request die (t % 64) (nodePacket vf world fa body) (.access t seq lane)).tryLast, .onWay)
  else
    let home := homeOf (fa % 2 ^ 42)
    if s.isLocal t home then
      match s.performHere t seq lane body with
      | (s, r :: _) => (s, .answered r)
      | (s, []) => (s, .onWay)
    else if s.cutOffDies (dieOf t) home then (s, .answered (lostResp home t seq lane (fa % 2 ^ 42)))
    else (s.send (dieOf t) home t seq lane (s.carried t) body none, .onWay)

/-- A tile sends a strand request to its home: the answers when the home is its own die. -/
def State.strandRequest (s : State) (t home : Nat) (r : StrandReq) : State × Option (List Resp) :=
  if s.isLocal t home then
    let (s, rs) := s.performHere t r.seq none (.strand r)
    (s, some rs)
  else if s.cutOffDies (dieOf t) home then
    (s, some (Msg.lost ⟨dieOf t, home, 0, [], 0, .strand r, t, r.seq, none, none, r.world, false⟩))
  else (s.send (dieOf t) home t r.seq none (s.carried t) (.strand r) none, none)

/-- The home of a strand identifier, cursor handle or token: bits [31:30] (R154, R159). -/
def strandHome (a : W32) : Nat := (a.extractLsb' 30 2).toNat

/-! ### The commit buffer (R133) -/

/-- The payload bytes of a held write. -/
def Held.size (h : Held) : Nat :=
  match h with
  | .store _ _ _ bs => bs.length
  | .sst i _ ls =>
    ls.length * (match i with | .sstLane _ _ ty _ => ty.bytes | .sstUniform _ _ ty _ => ty.bytes | _ => 0)
  | .sapnd _ _ bs => bs.length

/-- Bytes of a share in use. -/
def Retry.used (r : Retry) : Nat := r.held.foldl (fun n h => n + h.size) 0

/-- A share holds 16 KiB (R133). -/
def shareBytes : Nat := 16384

/-- The bytes of a gang's held stores laid over a location it reads: data and mask (R133). -/
def heldOver (hs : List Held) (fa n : Nat) : BitVec 128 × BitVec 16 :=
  hs.foldl (fun acc h =>
    match h with
    | .store _ _ a bs =>
      (List.range n).foldl (fun (acc : BitVec 128 × BitVec 16) k =>
        if a ≤ fa + k && fa + k < a + bs.length then
          let b := bs.getD (fa + k - a) 0
          let m := (0xFF#128 <<< (8 * k))
          ((acc.1 &&& ~~~ m) ||| (b.setWidth 128 <<< (8 * k)), acc.2 ||| (1#16 <<< k))
        else acc) acc
    | _ => acc) (0, 0)

/-- The oldest failure a list of answers holds: group, CODE, LANE, datum (R383). -/
def firstFailure (rs : List Resp) : Option (Nat × Byte × Byte × Word) :=
  rs.findSome? fun r =>
    match r.bad with
    | some (g, c, d) => if g = 0 then none else some (g, c, match r.lane with | some j => BitVec.ofNat 8 j | none => 0xFF, d)
    | none => none

/-- Sets the retry state of a gang. -/
def State.setRetry (s : State) (t g : Nat) (f : Retry → Retry) : State :=
  match kget (s.tile t).gangs g with
  | some G => s.setGang t g { G with retry := f G.retry }
  | none => s

/-- Records a failed held write, if it is the first. -/
def State.noteLate (s : State) (t g : Nat) (rs : List Resp) : State :=
  match firstFailure rs with
  | some x => s.setRetry t g fun r => { r with late := if r.late.isSome then r.late else some x }
  | none => s

/-- Issues one held write of a gang as the gang's own; whether it is still on its way. A store is translated and checked anew
(R130, R49), and its line leaves the tile's L1 (R124). -/
def State.issueOne (s : State) (t g vf : Nat) (world : Bool) (part : Nat) (h : Held) : State × Bool :=
  match h with
  | .store lane va _ bs =>
    match check s t vf world va .write 1 with
    | .error c => (s.noteLate t g [{ lostResp 4 t g lane 0 with bad := some (c.group, c.code, c.datum) }], false)
    | .ok (fa, _) =>
      let s := s.l1Drop t fun l => fa / 2 ^ 42 == s.node && l == lineOf (fa % 2 ^ 42)
      match s.requestTo t vf world g lane fa (.write (fa % 2 ^ 42) bs) with
      | (s, .answered r) => (s.noteLate t g [r], false)
      | (s, .onWay) => (s, true)
  | .sst i a ls =>
    match s.strandRequest t (strandHome a) ⟨t, g, part, world, i, a, [], [], ls⟩ with
    | (s, some rs) => (s.noteLate t g rs, false)
    | (s, none) => (s, true)
  | .sapnd c n bs =>
    match s.strandRequest t (strandHome c) ⟨t, g, part, world, .sapnd (.pos 0) 0, c, [BitVec.ofNat 64 n], bs, []⟩ with
    | (s, some rs) => (s.noteLate t g rs, false)
    | (s, none) => (s, true)

/-- Issues a gang's held writes in program order, each after the one before it has been performed; whether all are
performed. -/
def State.drainHeld (s : State) (t g vf : Nat) (world : Bool) (part : Nat) : Nat → State × Bool
  | 0 => (s, false)
  | n + 1 =>
    match kget (s.tile t).gangs g with
    | none => (s, true)
    | some G =>
      if s.inFlight t g then (s, false)
      else
        match G.retry.held with
        | [] => (s, true)
        | h :: hs =>
          if !s.outRoom (dieOf t) (t % 64) 1 then (s, false) else
          let s := s.setRetry t g fun r => { r with held := hs }
          let (s, way) := s.issueOne t g vf world part h
          if way then (s, false) else State.drainHeld s t g vf world part n

/-- The retry point of a gang lapses, and the bin store frees its slots (R212); a retry that reaches this is counted (R215,
R219). -/
def State.lapse (s : State) (t g : Nat) (f : Retry → Retry) : State :=
  let T := s.tile t
  let retried : Bool := match kget T.gangs g with | some G => G.retry.st == .retry | none => false
  let s := if retried = true then s.countErr (dieOf t) .transient else s
  (s.setTile t { s.tile t with conts := kfilter T.conts fun _ c => c.place != .retry g }).setRetry t g fun r =>
    { f r with point := .lapsed }

/-- A gang is no longer retryable: its share is free once its held writes are performed (R134, R215). -/
def State.unshare (s : State) (t g : Nat) : State := s.setRetry t g fun r => { r with st := .nonretry, share := false }

/-- The trap of a late failure of a held write (R383). -/
def lateTrap (s : State) (I : Issuer) (x : Nat × Byte × Byte × Word) : Out1 :=
  let s := (s.unshare I.t I.sub.gang).setRetry I.t I.sub.gang fun r => { r with late := none }
  .next (takeTrap s I.t I.u ⟨x.1, x.2.1, x.2.2.1, 0, x.2.2.2, true, none, I.sub.pc⟩)

/-- Runs a continuation on the issuer as it now stands. -/
def again (s : State) (f : State → Issuer → Out1) : Out1 :=
  match s.issuer with
  | some I => f s I
  | none => .next s

/-- Whether a gang has held writes to issue, or has issued some that are not yet performed (R133, R383). -/
def Retry.draining (r : Retry) : Bool := r.holding || r.share || !r.held.isEmpty || r.late.isSome

/-- Issues a gang's held writes at a commit point, which begins as `start` says: the retry point lapses before any of them is
performed. Once they are, `finish` and the instruction follow; a held write that failed traps instead (R383). -/
def drainThen (s : State) (I : Issuer) (start finish : State → State) (f : State → Issuer → Out1) : Out1 :=
  if I.gang.retry.draining then
    let s := start s
    let (s, done) := s.drainHeld I.t I.sub.gang I.block.vf I.block.world I.block.part (I.gang.retry.held.length + 1)
    if done then
      match (kget (s.tile I.t).gangs I.sub.gang).bind fun G => G.retry.late with
      | some x => lateTrap s I x
      | none => again (finish s) f
    else wait s I
  else f s I

/-- An event that makes a retryable gang non-retryable (R134, R212): its held writes are issued and performed first, then
the instruction proceeds. -/
def becomeNonRetry (s : State) (I : Issuer) (f : State → Issuer → Out1) : Out1 :=
  drainThen s I (fun s => if I.gang.retry.holding then s.lapse I.t I.sub.gang fun r => { r with st := .nonretry } else s)
    (fun s => s.unshare I.t I.sub.gang) f

/-- A commit point of a gang (R133, R212, R215): it is in RUN again with all its attempts, and its retry point has lapsed; the
held writes are issued and performed. A gang of which other sub-gangs go on keeps its share (log 61). -/
def commitPoint (s : State) (I : Issuer) (f : State → Issuer → Out1) : Out1 :=
  drainThen s I (fun s =>
      if I.gang.retry.holding && I.gang.retry.point != .lapsed then
        s.lapse I.t I.sub.gang fun r => { r with st := .run, attempts := I.block.rcd.rcount }
      else s) id f

end Sys2Proof.Machine
end

