-- ==== Sys2Proof/Machine/Access.lean ====
section
/-!
DEFINITION. Loads, stores and atomics as one shared operation: the checks of each lane, the scratchpad ports, the L1 read
cache, the request to the home, and the operand log (08_memory_translation.md R119, R120, R124, R125, R128, R131 to R134;
17_memory_instructions.md R285 to R293).
-/
namespace Sys2Proof.Machine

/-! ### Scratchpad -/

/-- A byte of a block's scratchpad allotment. -/
def Block.spadByte (B : Block) (k : Nat) : Byte :=
  match kget B.spad k with
  | some v => v
  | none => match B.spadFill with | .zero => 0 | .free seed => (Config.freeWord seed k).setWidth 8

/-- Writes a byte of a block's scratchpad, in canonical form where unwritten bytes are zero. -/
def Block.setSpadByte (B : Block) (k : Nat) (v : Byte) : Block :=
  match B.spadFill with
  | .zero => { B with spad := cellSet B.spad k v }
  | .free _ => { B with spad := kset B.spad k v }

def Block.spadBytes (B : Block) (off n : Nat) : List Byte := (List.range n).map fun k => B.spadByte (off + k)
def Block.setSpad (B : Block) (off : Nat) : List Byte → Block
  | [] => B
  | v :: vs => (B.setSpadByte off v).setSpad (off + 1) vs
def Block.spadLe (B : Block) (off n : Nat) : Nat := leNat (B.spadBytes off n)

/-- The block whose allotment an issuer addresses with its tile and context: the owning block of a stage (R176). -/
def State.ownerOf (s : State) (I : Issuer) : Option (Nat × Nat × Block) :=
  match I.block.proxy with
  | some uid => s.findBlock uid
  | none => some (I.t, I.gang.ctx, I.block)

/-- A place in a scratchpad: tile, context, offset. -/
structure SpadAt where
  t : Nat
  ctx : Nat
  off : Nat
  deriving DecidableEq, Repr

/-- The scratchpad place an address names, with the checks of R119 and R115; none while the owning tile is frozen. -/
def State.spadFind (s : State) (I : Issuer) (addr : W32) (n : Nat) : Except Cause (Option SpadAt) :=
  let datum : Word := addr.setWidth 64
  if I.gang.detached then .error ⟨4, 6, datum⟩
  else
    match s.ownerOf I with
    | none => .ok none
    | some (_, _, B) =>
      let sel := (addr.extractLsb' 30 2).toNat
      let off := (addr.setWidth 21).toNat
      if B.rcd.cgsize ≤ sel ∨ addr.extractLsb' 21 9 ≠ 0#9 ∨ B.rcd.spad * 4096 < off + n then .error ⟨4, 5, datum⟩
      else if off % n ≠ 0 then .error ⟨5, BitVec.ofNat 8 n.log2, datum⟩
      else
        match B.peers[sel]? with
        | none => .ok none
        | some (t, c) => if 256 ≤ t ∨ (s.tile t).mode = .run then .ok (some ⟨t, c, off⟩) else .ok none

/-- The mark of the first poisoned word that a place of a scratchpad touches (R211). -/
def State.spadMark (s : State) (a : SpadAt) (n : Nat) : Option Mark :=
  match kget (s.tile a.t).blocks a.ctx with
  | some B => (B.spadPoison.find? fun (w, _) => decide (4 * w < a.off + n) && decide (a.off < 4 * w + 4)).map (·.2)
  | none => none

/-- CODE and datum of group 15 for a marked word (R205): engine data lost with the line it derives from, or a poisoned word of a
sheaf. -/
def Mark.code : Mark → Byte
  | .line _ => 9
  | .sheaf => 7
def Mark.datum : Mark → Word
  | .line pa => BitVec.ofNat 64 pa
  | .sheaf => 0

/-- A byte of the allotment of a block that has ended: the spec gives none, so it is free (log 50). -/
def goneByte (s : State) (off : Nat) : Byte := (Config.freeWord s.free (2 ^ 40 + off)).setWidth 8

/-- Bytes at a scratchpad place. -/
def State.spadRead (s : State) (a : SpadAt) (n : Nat) : List Byte :=
  match kget (s.tile a.t).blocks a.ctx with
  | some B => B.spadBytes a.off n
  | none => (List.range n).map fun k => goneByte s (a.off + k)

/-- Writes bytes at a scratchpad place; a word wholly written loses its poison mark. -/
def State.spadWrite (s : State) (a : SpadAt) (bs : List Byte) : State :=
  match kget (s.tile a.t).blocks a.ctx with
  | some B =>
    let B := B.setSpad a.off bs
    s.setBlock a.t a.ctx { B with spadPoison := kfilter B.spadPoison fun w _ =>
      !(decide (a.off ≤ 4 * w) && decide (4 * w + 4 ≤ a.off + bs.length)) }
  | none => s

/-! ### What a memory instruction does -/

inductive MemKind where
  | load (n : Nat) (o : MOrd)
  | store (n : Nat)
  | atomic (op w : Nat)
  deriving DecidableEq, Repr

/-- The space and kind of a load, store or atomic (R285, R290). -/
def memKind (i : Instr) : Option (Bool × MemKind) :=
  let sp : LaAddr → Bool := fun a => match a with | .glob _ => false | .spad _ => true
  match i with
  | .ldLane _ _ ty o => some (false, .load ty.bytes o)
  | .ldUniform _ _ ty o => some (false, .load ty.bytes o)
  | .lds _ _ ty o => some (true, .load ty.bytes o)
  | .stLane _ _ ty _ => some (false, .store ty.bytes)
  | .stUniform _ _ ty _ => some (false, .store ty.bytes)
  | .sts _ _ ty _ => some (true, .store ty.bytes)
  | .aaddLane _ a _ _ => some (sp a, .atomic 0 32)
  | .afadd _ a _ _ => some (sp a, .atomic 1 32)
  | .amin _ a _ _ => some (sp a, .atomic 2 32)
  | .amaxLane _ a _ _ => some (sp a, .atomic 3 32)
  | .aminu _ a _ _ => some (sp a, .atomic 4 32)
  | .amaxu _ a _ _ => some (sp a, .atomic 5 32)
  | .aand _ a _ _ => some (sp a, .atomic 6 32)
  | .aor _ a _ _ => some (sp a, .atomic 7 32)
  | .axor _ a _ _ => some (sp a, .atomic 8 32)
  | .axchgLane _ a _ _ => some (sp a, .atomic 9 32)
  | .acasLane _ a _ _ => some (sp a, .atomic 10 32)
  | .aaddUniform _ _ ty _ => some (false, .atomic 0 (8 * ty.bytes))
  | .axchgUniform _ _ ty _ => some (false, .atomic 9 (8 * ty.bytes))
  | .amaxUniform _ _ ty _ => some (false, .atomic 3 (8 * ty.bytes))
  | .acasUniform _ _ ty _ => some (false, .atomic 10 (8 * ty.bytes))
  | _ => none

def MemKind.size (k : MemKind) : Nat :=
  match k with
  | .load n _ => n | .store n => n | .atomic _ w => w / 8
def MemKind.need (k : MemKind) : Need :=
  match k with
  | .load _ _ => .read | .store _ => .write | .atomic _ _ => .atomic

/-- An access that an answer has reached: held bytes lie over what it brings, but not over the 0 of a rank out of range (R164). -/
def Access.answer (a : Access) (r : Resp) : Access :=
  match r.bad with
  | some (g, c, d) => { a with st := .faulted g c d }
  | none => { a with st := .done, data := if r.strand && !r.pr then r.data else overlayBytes a.mask a.data r.data, pr := r.pr }

/-- The effects of an answer outside the access: the vector joins, a rank cache entry and an L1 line fill (R146, R163, R124). -/
def State.takeAnswer (s : State) (r : Resp) : State :=
  let s := match r.obs with | some o => s.observe (dieOf r.tile) o | none => s
  let s := match r.rank with | some e => s.fillRank r.tile e | none => s
  match r.fill with
  | some (l, bs) => s.setTile r.tile { s.tile r.tile with l1 := kset (s.tile r.tile).l1 l bs }
  | none => s

/-- One access of an issuer to global memory, its checks passed. -/
def issueGlobal (s : State) (I : Issuer) (seq : Nat) (k : MemKind) (a : Access) (fa : Nat) : State × Access :=
  let pa := fa % 2 ^ 42
  let near := decide (fa / 2 ^ 42 = s.node) && isDram pa
  let n := k.size
  let held := match kget (s.tile I.t).gangs I.sub.gang with | some G => G.retry.held | none => []
  let holding := match kget (s.tile I.t).gangs I.sub.gang with | some G => G.retry.holding | none => false
  let body : Body := match k with
    | .load n o =>
      let line := near && (match o with
        | .plain | .stm => true
        | .vol => (kget (s.tile I.t).l1 (lineOf pa)).isSome
        | .sync _ => false)
      .read pa n line
    | .store n => .write pa (natLe n a.data.toNat)
    | .atomic op w => .atomic pa op w (a.data.setWidth 64) (a.data.extractLsb' 64 64)
  let go (s : State) (a : Access) : State × Access :=
    match s.requestTo I.t I.block.vf I.block.world seq a.lane fa body with
    | (s, .answered r) => (s.takeAnswer r, a.answer r)
    | (s, .onWay) => (s, { a with st := .pending })
  match k with
  | .load _ o =>
    let (od, om) := heldOver held fa n
    let a := { a with data := od, mask := om }
    let hit := match o with
      | .plain | .stm => if near then kget (s.tile I.t).l1 (lineOf pa) else none
      | _ => none
    match hit with
    | some bs => (s, { a with st := .done, data := overlayBytes om od (dataOf ((bs.drop (pa % 128)).take n)) })
    | none => go s a
  | .store _ =>
    let s := s.l1Drop I.t fun l => near && l == lineOf pa
    if holding then
      (s.setRetry I.t I.sub.gang fun r => { r with held := r.held ++ [.store a.lane a.addr fa (natLe n a.data.toNat)] },
       { a with st := .done })
    else go s a
  | .atomic _ _ => go (s.l1Drop I.t fun l => near && l == lineOf pa) a

/-- One access of an issuer: a lane's, or a uniform instruction's. It ends performed, on its way, or faulted. -/
def issueAccess (s : State) (I : Issuer) (seq : Nat) (spad : Bool) (k : MemKind) (a : Access) : State × Access :=
  let n := k.size
  if spad then
    match s.spadFind I (a.addr.setWidth 32) n with
    | .error c => (s, { a with st := .faulted c.group c.code c.datum })
    | .ok none => (s, { a with st := .pending })
    | .ok (some p) =>
      let reads := match k with | .store _ => false | _ => true
      match if reads then s.spadMark p n else none with
      | some m => (s, { a with st := .faulted 15 m.code m.datum })
      | none =>
      match k with
      | .load _ _ => (s, { a with st := .done, data := dataOf (s.spadRead p n) })
      | .store _ => (s.spadWrite p (natLe n a.data.toNat), { a with st := .done })
      | .atomic op w =>
        let x := leNat (s.spadRead p n)
        let y := a.data.toNat % 2 ^ 64 % 2 ^ w
        let z := a.data.toNat / 2 ^ 64 % 2 ^ w
        (s.spadWrite p (natLe n (atomicOp op w x y z)), { a with st := .done, data := BitVec.ofNat 128 x })
  else
    match check s I.t I.block.vf I.block.world a.addr k.need n with
    | .error c => (s, { a with st := .faulted c.group c.code c.datum })
    | .ok (fa, e) => issueGlobal (s.fillTlb I.t e) I seq k a fa

/-- Issues accesses in order. -/
def issueAll (s : State) (I : Issuer) (seq : Nat) (spad : Bool) (k : MemKind) (as : List Access) : State × List Access :=
  as.foldl (fun (acc : State × List Access) a =>
    let (s, a) := issueAccess acc.1 I seq spad k a
    (s, acc.2 ++ [a])) (s, [])

/-! ### Waits at issue -/

/-- The bytes of memory two accesses of instructions with the same space overlap (R131). -/
def overlap (a n b m : Nat) : Bool := decide (a < b + m) && decide (b < a + n)

/-- Whether an access overlaps a pending access of the same lane; a uniform access is in every lane's order (R131, R137). -/
def Sub.overlapsPending (U : Sub) (spad : Bool) (n : Nat) (a : Access) : Bool :=
  U.slices.any fun (_, S) => S.log.any fun e =>
    match memKind e.i with
    | some (sp, k) => sp == spad && e.accs.any fun b =>
        b.st == .pending && (a.lane.isNone || b.lane.isNone || a.lane == b.lane) &&
        overlap a.addr.toNat n b.addr.toNat k.size
    | none => false

/-- Whether the log of some slice an instruction takes an entry in is full (R131). -/
def Sub.logFull (U : Sub) (uniform : Bool) : Bool :=
  U.slices.any fun (_, S) => (uniform || S.mask != 0) && decide (S.log.length ≥ 8)

/-- The space of a tensor descriptor (R310). -/
def TDesc.space (d : TDesc) : Nat := bits d.w3.toNat 5 4
/-- Whether a copy goes into scratchpad (R314). -/
def isInward (hd hs : TDesc) : Bool := hd.space == 1 && decide (hs.space ≤ 1)

/-- Whether a command has writes to other nodes to send, or sent and not acknowledged: it is no copy into scratchpad, and it waits
for an answer, a page of it lies at another node, or its kind sends packets; or it stamps at another node. -/
def EngCmd.fabricBusy (c : EngCmd) (node : Nat) : Bool :=
  match c.cmd with
  | .copys _ _ _ _ | .copyr _ _ _ _ => true
  | .copy _ _ _ stamp _ _ _ => (stamp || !isInward c.d1 c.d2) && (!c.wait.isEmpty || c.pages.any fun p => p.2 / 2 ^ 42 != node)
  | .copym _ _ _ _ _ _ => false
  | _ => !c.wait.isEmpty || c.pages.any fun p => p.2 / 2 ^ 42 != node

/-- Commands of the issuer's block whose packets to other nodes a domain release waits for (R149). -/
def fabricBusy (node : Nat) (I : Issuer) : Bool :=
  (I.tile.copyQ ++ I.tile.arrayQ).any fun c => c.uid == I.block.uid && c.fabricBusy node

/-- A release of a scope waits: for the accesses of the issuer, and at domain or system scope for acknowledgements from
other nodes (R142, R149). -/
def releaseWaits (node : Nat) (I : Issuer) (sc : Scope) : Bool := !I.sub.quiet || (decide (5 ≤ sc.rank) && fabricBusy node I)

/-- What an access needs of its path before it may issue: room at the NI for a request that leaves its die, a die that does not stall its
writes, a scratchpad owner that runs (R91, R145). -/
def pathWaits (s : State) (I : Issuer) (spad : Bool) (k : MemKind) (as : List Access) : Bool :=
  if spad then as.any fun a => match s.spadFind I (a.addr.setWidth 32) k.size with | .ok none => true | _ => false
  else
    let fas := as.filterMap fun a =>
      match check s I.t I.block.vf I.block.world a.addr k.need k.size with | .ok (fa, _) => some fa | .error _ => none
    let far := (fas.filter fun fa => fa / 2 ^ 42 != s.node || !s.isLocal I.t (homeOf (fa % 2 ^ 42))).length
    let writes := match k with | .load _ _ => false | _ => true
    !s.outRoom (dieOf I.t) (I.t % 64) far ||
    (writes && s.writeStalled (dieOf I.t) && fas.any fun fa => fa / 2 ^ 42 == s.node && homeOf (fa % 2 ^ 42) != dieOf I.t)

/-! ### Entries -/

/-- The lowest free slot of a slice's log (R204). -/
def Slice.freeSlot (S : Slice) : Nat := ((List.range 8).find? fun k => !(S.log.any fun e => e.slot == k)).getD 0

/-- An instruction's accesses enter the logs of its slices, and what is complete is written back at once. -/
def Sub.logAccesses (U : Sub) (W : Win) (i : Instr) (seq : Nat) (strand : W32) (args : List Word) (as : List Access) : Sub :=
  { U with slices := kmap U.slices fun n S =>
      let mine := as.filter fun a => match a.lane with | some j => j / 4 == n | none => true
      if mine.isEmpty then S
      else
        let e : LogEntry := ⟨S.freeSlot, seq, i, strand, args, S.mask, mine⟩
        ({ S with log := S.log ++ [e] }).settleLog W }

/-- After the accesses of the instruction stamped `seq`: without a running handler it is entered once nothing is pending;
in a handler a cause of that instruction finds no handler (R132, R209). -/
def State.raiseFaults (s : State) (t u seq : Nat) : State :=
  match kget (s.tile t).subs u with
  | none => s
  | some U =>
    if U.inh && !(s.tile t).retryLoss u then
      match logTrap (U.faultsOf seq).1 (U.faultsOf seq).2 U.pc with
      | some tr => takeTrap s t u tr
      | none => s
    else s.enterLogTrap t u

/-- Accesses issue and the instruction retires (R131). -/
def issueMemory (s : State) (I : Issuer) (W : Win) (i : Instr) (spad : Bool) (k : MemKind) (as : List Access) : Out1 :=
  let (seq, s) := s.fresh
  let (s, as) := issueAll s I seq spad k as
  match kget (s.tile I.t).subs I.u with
  | none => .next s
  | some U =>
    let s := s.setSub I.t I.u ((U.logAccesses W i seq 0 [] as).retire .other)
    let s := if acquires i && as.any Access.isDone then s.l1Clear I.t else s
    .next (s.raiseFaults I.t I.u seq)

/-- A load, store or atomic: operand checks, waits, the retry rules of R134 and R212, then its accesses. `lanes` gives each
acting lane's address and data. -/
def memory (s : State) (i : Instr) (us : List Use) (lanes : Win → Issuer → List (Option Nat × Word × BitVec 128)) : Out1 :=
  withOperands s i false us fun s I W _ =>
    match memKind i with
    | none => .next s
    | some (spad, k) =>
      let as := (lanes W I).map fun (l, a, d) => (⟨l, a, d, 0, false, .pending⟩ : Access)
      let uniform := !isLane i
      let scope := releases i
      if as.isEmpty then retire s I .other I.sub
      else if I.sub.logFull uniform || I.sub.acquirePending || (match scope with | some sc => releaseWaits s.node I sc | none => false) ||
          as.any (fun a => I.sub.overlapsPending spad k.size a) || pathWaits s I spad k as then wait s I
      else
        let atomic := match k with | .atomic _ _ => true | _ => false
        let store := match k with | .store _ => !spad | _ => false
        let leaves := atomic || (match scope with | some sc => decide (2 ≤ sc.rank) | none => false) ||
          (store && I.gang.retry.holding && decide (shareBytes < I.gang.retry.used + as.length * k.size))
        if leaves then becomeNonRetry s I fun s I => issueMemory s I W i spad k as
        else issueMemory s I W i spad k as

end Sys2Proof.Machine
end

