-- ==== Sys2Proof/Machine/Direct.lean ====
section
/-!
DEFINITION. Accesses that an agent performs at a home in one step, once its vectors and its path allow it: the engines,
monitors, the device's own writes, and packets that enter from the fabric (09_consistency.md R136, R144 to R146, R148).
-/
namespace Sys2Proof.Machine

/-- Whether a home may perform at this instant an access of die `src` that carries `vec` (R146). An access to a home on its own
die applies without waiting, but that of a restored tile waits until the vector it carries is covered, and no access passes one of
a restored tile that waits so (R99, R125). On another die
nothing of `src` that must come first is on its way to the home or waits there, and the home's applied vector covers every
other entry. -/
def State.homeOpen (s : State) (src home : Nat) (vec : List W32) (writes : Bool) : Bool :=
  let D := s.die home
  let A := (D.refresh home).applied
  let clear := !(D.inbox.any fun m => m.src == src && (writes || m.body.writes))
  if src = home then clear && (vec == D.vec || (List.range 5).all fun e => geq (ent A e) (ent vec e))
  else
    !(s.wire.any fun m => m.src == src && m.dst == home) && !((s.die src).outq.any fun m => m.dst == home) && clear &&
    !(writes && s.writeStalled src) && s.reaches (fun st => st == 2) src home &&
    (List.range 5).all fun e => e == src || geq (ent A e) (ent vec e)

/-- The vectors after a write of die `src` at a home (R145, R146); the answer is the carried vector. -/
def State.noteWrite (s : State) (src home : Nat) (vec : List W32) : State :=
  if src = home then s.joinObserved home vec
  else
    let D := s.die src
    let n := ent D.vec src + 1
    let vec := vec.set src n
    let num := kgetD D.sendNo home 0
    let s := s.setDie src { D with vec := D.vec.set src n, sendNo := kset D.sendNo home (num + 1) }
    let H := s.die home
    let s := s.setDie home { H with known := H.known.set src n, recvNo := kset H.recvNo src (num + 1) }
    (s.refresh home).joinObserved home vec

/-- The vectors after a read of die `src` at a home: the reader joins what the home has observed (R146). -/
def State.noteRead (s : State) (src home : Nat) : State :=
  let s :=
    if src = home then s
    else
      let H := s.die home
      (s.setDie home { H with known := H.known.set src (ent (s.die src).vec src) }).refresh home
  s.observe src (s.die home).observed

/-- Whether every home a range of package-physical addresses touches is open to die `src`. A range of one command lies in
one home or crosses into the next. -/
def State.rangeOpen (s : State) (src pa n : Nat) (vec : List W32) (writes : Bool) : Bool :=
  n == 0 || (s.homeOpen src (homeOf pa) vec writes && s.homeOpen src (homeOf (pa + n - 1)) vec writes)

/-- Writes bytes at their home at once. -/
def State.writeNow (s : State) (src pa : Nat) (bs : List Byte) (vec : List W32) : State :=
  (s.noteWrite src (homeOf pa) vec).putBytes pa bs

/-- Reads bytes at their home at once. -/
def State.readNow (s : State) (src pa n : Nat) : State × List Byte :=
  let s := s.noteRead src (homeOf pa)
  (s, s.bytes pa n)

/-- A write of the device on behalf of a die, without an access of its own to wait for (R136): performed at once at a home on
that die, and a message to any other home, which applies it as R146 says. -/
def State.deviceWrite (s : State) (src pa : Nat) (bs : List Byte) : State :=
  if homeOf pa = src then s.writeNow src pa bs (s.die src).vec
  else if s.cutOffDies src (homeOf pa) then s
  else s.send src (homeOf pa) 256 0 none (s.die src).vec (.write pa bs) none

end Sys2Proof.Machine
end

