-- ==== Sys2Proof/Machine/Memory.lean ====
section
/-!
DEFINITION. Loads, stores and atomics (17_memory_instructions.md R285 to R293).
-/
namespace Sys2Proof.Machine

/-- The global address of lane j in the pair an address field names (R286). -/
def lanePair (W : Win) (U : Sub) (n : BitVec 6) (j : Nat) : Word :=
  vregOf W U j (2 * n.toNat + 1) ++ vregOf W U j (2 * n.toNat)

/-- The scratchpad address of lane j (R286, R119). -/
def laneSpad (W : Win) (U : Sub) (r : Nat) (j : Nat) : Word := (vregOf W U j r).setWidth 64

/-- Every active lane with its address and data. -/
def perLane (U : Sub) (addr : Nat → Word) (data : Nat → BitVec 128) : List (Option Nat × Word × BitVec 128) :=
  U.actives.map fun j => (some j, addr j, data j)

/-- The use of the data operand of a lane store (R286). -/
def storeUse (data : Opnd) (ty : Ty) : Use :=
  match ty with
  | .d | .q => .group data ty.regs
  | _ => .src data

/-- The datum of a lane store (R286). -/
def storeData (W : Win) (U : Sub) (data : Opnd) (ty : Ty) (j : Nat) : BitVec 128 :=
  match ty, data with
  | .d, .v r => (vregOf W U j (r.toNat + 1) ++ vregOf W U j r.toNat).setWidth 128
  | .q, .v r =>
    vregOf W U j (r.toNat + 3) ++ (vregOf W U j (r.toNat + 2) ++ (vregOf W U j (r.toNat + 1) ++ vregOf W U j r.toNat))
  | _, _ => (laneVal W 0 U data j).setWidth 128

/-- The use of the data operand of a uniform store (R287). -/
def storeUniUse (data : Opnd) (ty : Ty) : Use :=
  match ty with
  | .q => .uniPair data 2
  | _ => .src data

/-- The datum of a uniform store (R287). -/
def storeUniData (W : Win) (U : Sub) (data : Opnd) (ty : Ty) : BitVec 128 :=
  match ty, data with
  | .q, .s r => U.sreg (r.toNat + 1) ++ U.sreg r.toNat
  | _, _ => (uniVal W 0 U data).setWidth 128

/-- LD of the lane set (R286, R289). -/
def execLdLane (d : LDst) (addr : BitVec 6) (ty : Ty) (o : MOrd) (s : State) : Out1 :=
  memory s (.ldLane d addr ty o) [.vreg (2 * addr.toNat) 2, .dst d ty.regs false] fun W I =>
    perLane I.sub (lanePair W I.sub addr) fun _ => 0

/-- ST of the lane set (R286, R289). -/
def execStLane (data : Opnd) (addr : BitVec 6) (ty : Ty) (o : MOrd) (s : State) : Out1 :=
  memory s (.stLane data addr ty o) [storeUse data ty, .vreg (2 * addr.toNat) 2] fun W I =>
    perLane I.sub (lanePair W I.sub addr) (storeData W I.sub data ty)

/-- LDS (R286). -/
def execLds (d : LDst) (addr : BitVec 7) (ty : Ty) (o : MOrd) (s : State) : Out1 :=
  memory s (.lds d addr ty o) [.vreg addr.toNat 1, .dst d ty.regs false] fun W I =>
    perLane I.sub (laneSpad W I.sub addr.toNat) fun _ => 0

/-- STS (R286). -/
def execSts (data : Opnd) (addr : BitVec 7) (ty : Ty) (o : MOrd) (s : State) : Out1 :=
  memory s (.sts data addr ty o) [storeUse data ty, .vreg addr.toNat 1] fun W I =>
    perLane I.sub (laneSpad W I.sub addr.toNat) (storeData W I.sub data ty)

/-- LD of the uniform set (R287). -/
def execLdUniform (d : UDst) (addr : BitVec 5) (ty : Ty) (o : MOrd) (s : State) : Out1 :=
  memory s (.ldUniform d addr ty o) [.sreg addr.toNat 1, .udst d (if ty = .q then 2 else 1) false] fun _ I =>
    [(none, I.sub.sreg addr.toNat, 0)]

/-- ST of the uniform set (R287). -/
def execStUniform (data : Opnd) (addr : BitVec 5) (ty : Ty) (o : MOrd) (s : State) : Out1 :=
  memory s (.stUniform data addr ty o) [storeUniUse data ty, .sreg addr.toNat 1] fun W I =>
    [(none, I.sub.sreg addr.toNat, storeUniData W I.sub data ty)]

/-! ### Atomics -/

/-- The use of the address field of a lane atomic (R234). -/
def laUse (a : LaAddr) : Use :=
  match a with
  | .glob n => .vreg (2 * n.toNat) 2
  | .spad n => .vreg n.toNat 1

/-- The address of a lane atomic in lane j. -/
def laAddrOf (W : Win) (U : Sub) (a : LaAddr) (j : Nat) : Word :=
  match a with
  | .glob n => lanePair W U n j
  | .spad n => laneSpad W U n.toNat j

/-- A lane atomic (R291): n registers from v are read, one for a plain operation, two for compare-and-swap. -/
def laneAtomic (s : State) (i : Instr) (d : BitVec 7) (a : LaAddr) (v : BitVec 7) (n : Nat) : Out1 :=
  memory s i [laUse a, .vreg v.toNat n, .dst (dstOf d) 1 false] fun W I =>
    perLane I.sub (laAddrOf W I.sub a) fun j =>
      ((if n = 2 then vregOf W I.sub j (v.toNat + 1) else 0).setWidth 64) ++ (vregOf W I.sub j v.toNat).setWidth 64

/-- A uniform atomic (R292): n registers from d are read. -/
def uniAtomic (s : State) (i : Instr) (d : UDst) (addr : BitVec 5) (n : Nat) : Out1 :=
  memory s i [.udst d n true, .sreg addr.toNat 1] fun _ I =>
    [(none, I.sub.sreg addr.toNat, (if n = 2 then I.sub.sreg (d.r.toNat + 1) else 0) ++ I.sub.sreg d.r.toNat)]

/-- AADD of the lane set (R290, R291). -/
def execAaddLane (d : BitVec 7) (addr : LaAddr) (v : BitVec 7) (os : Os) (s : State) : Out1 :=
  laneAtomic s (.aaddLane d addr v os) d addr v 1

/-- AFADD of the lane set (R290, R291). -/
def execAfadd (d : BitVec 7) (addr : LaAddr) (v : BitVec 7) (os : Os) (s : State) : Out1 :=
  laneAtomic s (.afadd d addr v os) d addr v 1

/-- AMIN of the lane set (R290, R291). -/
def execAmin (d : BitVec 7) (addr : LaAddr) (v : BitVec 7) (os : Os) (s : State) : Out1 :=
  laneAtomic s (.amin d addr v os) d addr v 1

/-- AMAX of the lane set (R290, R291). -/
def execAmaxLane (d : BitVec 7) (addr : LaAddr) (v : BitVec 7) (os : Os) (s : State) : Out1 :=
  laneAtomic s (.amaxLane d addr v os) d addr v 1

/-- AMINU of the lane set (R290, R291). -/
def execAminu (d : BitVec 7) (addr : LaAddr) (v : BitVec 7) (os : Os) (s : State) : Out1 :=
  laneAtomic s (.aminu d addr v os) d addr v 1

/-- AMAXU of the lane set (R290, R291). -/
def execAmaxu (d : BitVec 7) (addr : LaAddr) (v : BitVec 7) (os : Os) (s : State) : Out1 :=
  laneAtomic s (.amaxu d addr v os) d addr v 1

/-- AAND of the lane set (R290, R291). -/
def execAand (d : BitVec 7) (addr : LaAddr) (v : BitVec 7) (os : Os) (s : State) : Out1 :=
  laneAtomic s (.aand d addr v os) d addr v 1

/-- AOR of the lane set (R290, R291). -/
def execAor (d : BitVec 7) (addr : LaAddr) (v : BitVec 7) (os : Os) (s : State) : Out1 :=
  laneAtomic s (.aor d addr v os) d addr v 1

/-- AXOR of the lane set (R290, R291). -/
def execAxor (d : BitVec 7) (addr : LaAddr) (v : BitVec 7) (os : Os) (s : State) : Out1 :=
  laneAtomic s (.axor d addr v os) d addr v 1

/-- AXCHG of the lane set (R290, R291). -/
def execAxchgLane (d : BitVec 7) (addr : LaAddr) (v : BitVec 7) (os : Os) (s : State) : Out1 :=
  laneAtomic s (.axchgLane d addr v os) d addr v 1

/-- ACAS of the lane set (R290, R291). -/
def execAcasLane (d : BitVec 7) (addr : LaAddr) (v : BitVec 7) (os : Os) (s : State) : Out1 :=
  laneAtomic s (.acasLane d addr v os) d addr v 2

/-- AADD of the uniform set (R290, R292). -/
def execAaddUniform (d : UDst) (addr : BitVec 5) (ty : Ty2) (o : AOrd) (s : State) : Out1 :=
  uniAtomic s (.aaddUniform d addr ty o) d addr 1

/-- ACAS of the uniform set (R290, R292). -/
def execAcasUniform (d : UDst) (addr : BitVec 5) (ty : Ty2) (o : AOrd) (s : State) : Out1 :=
  uniAtomic s (.acasUniform d addr ty o) d addr 2

/-- AXCHG of the uniform set (R290, R292). -/
def execAxchgUniform (d : UDst) (addr : BitVec 5) (ty : Ty2) (o : AOrd) (s : State) : Out1 :=
  uniAtomic s (.axchgUniform d addr ty o) d addr 1

/-- AMAX of the uniform set (R290, R292). -/
def execAmaxUniform (d : UDst) (addr : BitVec 5) (ty : Ty2) (o : AOrd) (s : State) : Out1 :=
  uniAtomic s (.amaxUniform d addr ty o) d addr 1

end Sys2Proof.Machine
end

