-- ==== Sys2Proof/Machine/StrandOps.lean ====
section
/-!
DEFINITION. The strand instructions: structural operations, element accesses, anchors (21_strand_skein_instructions.md R335
to R341; 10_strands.md R157 to R168; 08_memory_translation.md R131 to R134).
-/
namespace Sys2Proof.Machine

/-! ### Source bytes of SINS and SAPND (R157, R336) -/

/-- What reading a range of source bytes gives. -/
inductive SrcAns where
  | fault (c : Cause)
  | wait
  | ok (s : State) (bytes : List Byte)

/-- Reads n bytes from a virtual address in pieces that end at 64 KiB boundaries, each checked on its own page. -/
def readPieces (s : State) (I : Issuer) : Nat → Word → Nat → List Byte → SrcAns
  | 0, _, _, acc => .ok s acc
  | k + 1, va, n, acc =>
    if n = 0 then .ok s acc
    else
      let m := min n (65536 - va.toNat % 65536)
      match devRead s I.t I.block.vf I.block.world va m .read with
      | .error c => .fault c
      | .ok (fa, bs) =>
        let pa := fa % 2 ^ 42
        if fa / 2 ^ 42 ≠ s.node then readPieces s I k (va + BitVec.ofNat 64 m) (n - m) (acc ++ bs)
        else
          match s.poisonLine pa m with
          | some l => .fault ⟨15, 5, BitVec.ofNat 64 l⟩
          | none =>
            if s.homeOpen (dieOf I.t) (homeOf pa) (s.carried I.t) false then
              readPieces (s.noteRead (dieOf I.t) (homeOf pa)) I k (va + BitVec.ofNat 64 m) (n - m) (acc ++ bs)
            else .wait

/-- n bytes from a virtual address. -/
def readSource (s : State) (I : Issuer) (va : Word) (n : Nat) : SrcAns := readPieces s I (n / 65536 + 2) va n []

/-- A list of bytes at a virtual address with a gang's held stores laid over it (R133). -/
def overlayHeld (s : State) (I : Issuer) (va : Word) (bs : List Byte) : List Byte :=
  if I.gang.retry.held.isEmpty then bs
  else
    bs.zipIdx.map fun (b, k) =>
      match lookup s I.t I.block.vf (va + BitVec.ofNat 64 k) with
      | .error _ => b
      | .ok e =>
        let (d, m) := heldOver I.gang.retry.held (e.out + ((va + BitVec.ofNat 64 k).toNat - e.va)) 1
        if m.getLsbD 0 then d.setWidth 8 else b

/-! ### Requests -/

/-- Which homes a strand instruction asks, and which of its accesses go there: one home by its strand or cursor, but the
token of each access for SRANK (R154, R159, R160). -/
def homesOf (t : Nat) (i : Instr) (a : W32) (args : List Word) (as : List Access) : List (Nat × List Access) :=
  match i with
  | .srankLane _ _ _ =>
    (List.range 4).filterMap fun h =>
      let mine := as.filter fun x => (x.addr.extractLsb' 16 2).toNat == h
      if mine.isEmpty then none else some (h, mine)
  | .srankUniform _ _ _ => [(((args.getD 0 0).extractLsb' 16 2).toNat, as)]
  | .snew _ _ _ => [(if (args.getD 1 0).toNat ≤ 3 then (args.getD 1 0).toNat else dieOf t, as)]
  | _ => [(strandHome a, as)]

/-- Gives accesses the answers that name their lanes. -/
def answerAll (as : List Access) (rs : List Resp) : List Access :=
  as.map fun a => match rs.find? fun r => r.lane == a.lane with | some r => a.answer r | none => a

/-- Sends a strand instruction's accesses to their homes; those of the issuer's own die are answered at once. -/
def strandSend (s : State) (I : Issuer) (seq : Nat) (i : Instr) (a : W32) (args : List Word) (bytes : List Byte)
    (as : List Access) : State × List Access :=
  (homesOf I.t i a args as).foldl (fun (acc : State × List Access) (home, mine) =>
    let r : StrandReq := ⟨I.t, seq, I.block.part, I.block.world, i, a, args, bytes, mine.map fun x => (x.lane, x.addr, x.data)⟩
    match acc.1.strandRequest I.t home r with
    | (s, some rs) =>
      let s := rs.foldl (fun s r => s.takeAnswer r) s
      (s, answerAll acc.2 rs)
    | (s, none) => (s, acc.2)) (s, as)

/-- The end of an issue: entries, results, faults (R131). -/
def finishIssue (s : State) (I : Issuer) (W : Win) (i : Instr) (seq : Nat) (a : W32) (args : List Word) (as : List Access) :
    Out1 :=
  match kget (s.tile I.t).subs I.u with
  | none => .next s
  | some U => .next ((s.setSub I.t I.u ((U.logAccesses W i seq a args as).retire .other)).raiseFaults I.t I.u seq)

/-- The width of an element access in bytes. -/
def elemWidth (i : Instr) : Nat :=
  match i with
  | .sldLane _ _ ty _ _ | .sldUniform _ _ ty _ _ | .sstLane _ _ ty _ | .sstUniform _ _ ty _ => ty.bytes
  | .saadd _ _ ty _ | .samin _ _ ty _ | .samax _ _ ty _ | .sacas _ _ ty _ | .saxchg _ _ ty _ => ty.bytes
  | _ => 0

/-- Whether element accesses overlap the bytes of a pending one of the same lane; a uniform access is in every lane's order (R131,
R137). -/
def Sub.elementPending (U : Sub) (i : Instr) (a : W32) (as : List Access) : Bool :=
  isElement i && U.slices.any fun (_, S) => S.log.any fun e =>
    isElement e.i && e.strand == a && e.accs.any fun b => b.st == .pending && as.any fun x =>
      (x.lane.isNone || b.lane.isNone || x.lane == b.lane) && (rankPart x.addr).1 == (rankPart b.addr).1 &&
      overlap (rankPart x.addr).2.1 (elemWidth i) (rankPart b.addr).2.1 (elemWidth e.i)

/-- Whether a strand instruction must wait before it issues: for the log, for a pending access it overlaps, for room at the NI
(R91), or for a die that stalls its writes (R145). -/
def strandWaits (s : State) (I : Issuer) (uniform : Bool) (i : Instr) (a : W32) (args : List Word) (as : List Access) : Bool :=
  I.sub.logFull uniform || I.sub.acquirePending || I.sub.elementPending i a as ||
  !s.outRoom (dieOf I.t) (I.t % 64) ((homesOf I.t i a args as).filter fun h => !s.isLocal I.t h.1).length ||
  (strandWrites i && s.writeStalled (dieOf I.t) && (homesOf I.t i a args as).any fun h => h.1 != dieOf I.t)

/-- A strand instruction issues as a request. -/
def issueStrand (s : State) (I : Issuer) (W : Win) (i : Instr) (a : W32) (args : List Word) (bytes : List Byte)
    (as : List Access) : Out1 :=
  let (seq, s) := s.fresh
  let (s, as) := strandSend s I seq i a args bytes as
  finishIssue s I W i seq a args as

/-! ### Structural instructions (R335 to R337) -/

/-- The access that stands for a structural instruction. -/
def wholeAccess : Access := ⟨none, 0, 0, 0, false, .pending⟩

/-- A structural instruction: for R134 it acts as a strand atomic (R165). `f` gives the strand or cursor and the
arguments. -/
def structural (s : State) (i : Instr) (us : List Use) (f : Win → Sub → W32 × List Word) : Out1 :=
  withOperands s i false us fun s I W _ =>
    let (a, args) := f W I.sub
    if strandWaits s I true i a args [wholeAccess] then wait s I
    else becomeNonRetry s I fun s I => issueStrand s I W i a args [] [wholeAccess]

/-- A parameter register pair of SINS, SAPND and SRANK: n + 1 above 31 is of no accepted class (R335). -/
def paramPair (n : BitVec 5) : Use :=
  if n = 31 then Use.bad (0x80#8 + n.setWidth 8) else { Use.sreg n.toNat 1 with touch := [.s n.toNat, .s (n.toNat + 1)] }

def lo32 (x : Word) : W32 := x.setWidth 32

/-- SNEW. -/
def execSnew (a b : Opnd) (n : BitVec 5) (s : State) : Out1 :=
  structural s (.snew a b n) [.src a, .src b, .out n.toNat 1] fun W U => (0, [uniVal W 0 U a, uniVal W 0 U b])

/-- SFREE. -/
def execSfree (a : Opnd) (s : State) : Out1 :=
  structural s (.sfree a) [.src a] fun W U => (lo32 (uniVal W 0 U a), [])

/-- SLEN. -/
def execSlen (a : Opnd) (n : BitVec 5) (s : State) : Out1 :=
  structural s (.slen a n) [.src a, .out n.toNat 1] fun W U => (lo32 (uniVal W 0 U a), [])

/-- SDEL. -/
def execSdel (a b : Opnd) (n : BitVec 5) (s : State) : Out1 :=
  structural s (.sdel a b n) [.src a, .src b, .sreg n.toNat 1] fun W U =>
    (lo32 (uniVal W 0 U a), [uniVal W 0 U b, U.sreg n.toNat])

/-- SSPLIT. -/
def execSsplit (a b : Opnd) (n : BitVec 5) (s : State) : Out1 :=
  structural s (.ssplit a b n) [.src a, .src b, .out n.toNat 1] fun W U => (lo32 (uniVal W 0 U a), [uniVal W 0 U b])

/-- SCAT and SCAT.share. -/
def execScat (a b : Opnd) (share : Bool) (s : State) : Out1 :=
  structural s (.scat a b share) [.src a, .src b] fun W U => (lo32 (uniVal W 0 U a), [uniVal W 0 U b])

/-- SGAP. -/
def execSgap (a b : Opnd) (n : BitVec 5) (s : State) : Out1 :=
  structural s (.sgap a b n) [.src a, .src b, .sreg n.toNat 1] fun W U =>
    (lo32 (uniVal W 0 U a), [uniVal W 0 U b, U.sreg n.toNat])

/-- SCLOSE. -/
def execSclose (a : Opnd) (s : State) : Out1 :=
  structural s (.sclose a) [.src a] fun W U => (lo32 (uniVal W 0 U a), [])

/-- Uniform SANCH. -/
def execSanchUniform (a b : Opnd) (n : BitVec 5) (s : State) : Out1 :=
  structural s (.sanchUniform a b n) [.src a, .src b, .out n.toNat 1] fun W U =>
    (lo32 (uniVal W 0 U a), [uniVal W 0 U b])

/-- Uniform SRANK. -/
def execSrankUniform (a : Opnd) (pm : BitVec 3) (n : BitVec 5) (s : State) : Out1 :=
  structural s (.srankUniform a pm n) [.src a, { paramPair n with wr := true }, .prd pm] fun W U => (0, [uniVal W 0 U a])

/-- The element size of a strand, 0 where the identifier names none. -/
def State.elemSize (s : State) (p : Nat) (a : W32) : Nat :=
  match (s.part p).bind fun P => P.strandAt a with
  | some t => t.esize
  | none => 0

/-- SINS and SINS.z (R336). -/
def execSins (a b : Opnd) (z : Bool) (n : BitVec 5) (s : State) : Out1 :=
  let i : Instr := .sins a b z n
  withOperands s i false [.src a, .src b, if z then .sreg n.toNat 1 else paramPair n] fun s I W _ =>
    let id := lo32 (uniVal W 0 I.sub a)
    let cnt := I.sub.sreg n.toNat
    let args := [uniVal W 0 I.sub b, cnt, if z then 0 else I.sub.sreg (n.toNat + 1)]
    if strandWaits s I true i id args [wholeAccess] then wait s I
    else becomeNonRetry s I fun s I =>
      let len := if z || rankLimit ≤ cnt.toNat then 0 else cnt.toNat * s.elemSize I.block.part id
      match readSource s I (args.getD 2 0) len with
      | .fault c => trapAt s I c.group c.code c.datum
      | .wait => wait s I
      | .ok s bs => issueStrand s I W i id args bs [wholeAccess]

/-- SAPND (R336, R165): a retryable gang's append is held. -/
def execSapnd (a : Opnd) (n : BitVec 5) (s : State) : Out1 :=
  let i : Instr := .sapnd a n
  withOperands s i false [.src a, paramPair n] fun s I W _ =>
    let c := lo32 (uniVal W 0 I.sub a)
    let cnt := I.sub.sreg n.toNat
    let args := [cnt, I.sub.sreg (n.toNat + 1)]
    if strandWaits s I true i c args [wholeAccess] then wait s I
    else
      let strand := match (s.part I.block.part).bind fun P => P.cursorAt c with | some k => k.strand | none => 0
      let len := if rankLimit ≤ cnt.toNat then 0 else cnt.toNat * s.elemSize I.block.part strand
      match readSource s I (args.getD 1 0) len with
      | .fault x => trapAt s I x.group x.code x.datum
      | .wait => wait s I
      | .ok s bs =>
        let bs := overlayHeld s I (args.getD 1 0) bs
        if I.gang.retry.holding then
          if shareBytes < I.gang.retry.used + bs.length then
            becomeNonRetry s I fun s I => issueStrand s I W i c args bs [wholeAccess]
          else
            let s := s.setRetry I.t I.sub.gang fun r => { r with held := r.held ++ [.sapnd c cnt.toNat bs] }
            again s fun s I => retire s I .other I.sub
        else issueStrand s I W i c args bs [wholeAccess]

/-! ### Element instructions (R338 to R341) -/

/-- The bytes a gang's held SSTs have written of the W bytes a rank word reaches, for elements of `size` bytes: those beyond the
element are not written (R165, R339). -/
def heldStrand (hs : List Held) (a : W32) (w : Word) (W size : Nat) : BitVec 128 × BitVec 16 :=
  let (r, off, _) := rankPart w
  hs.foldl (fun acc h =>
    match h with
    | .sst i b ls =>
      if b = a then
        let n := match i with | .sstLane _ _ ty _ => ty.bytes | .sstUniform _ _ ty _ => ty.bytes | _ => 0
        ls.foldl (fun acc (_, v, x) =>
          let (r', off', ok) := rankPart v
          if r' = r ∧ ok then
            (List.range W).foldl (fun (acc : BitVec 128 × BitVec 16) k =>
              if off' ≤ off + k && off + k < off' + n && off + k < size then
                let byte : BitVec 128 := ((x >>> (8 * (off + k - off'))).setWidth 8).setWidth 128
                ((acc.1 &&& ~~~ (0xFF#128 <<< (8 * k))) ||| (byte <<< (8 * k)), acc.2 ||| (1#16 <<< k))
              else acc) acc
          else acc) acc
      else acc
    | _ => acc) (0, 0)

/-- How an element instruction behaves in a retryable gang (R133, R134, R165). -/
inductive ElemKind where
  | load | store | atomic
  deriving DecidableEq, Repr

/-- An element instruction on the strand in s(sn); `f` gives the acting lanes with rank words and data. -/
def element (s : State) (i : Instr) (k : ElemKind) (us : List Use) (sn : Nat)
    (f : Win → Sub → List (Option Nat × Word × BitVec 128)) : Out1 :=
  withOperands s i false us fun s I W _ =>
    let a := lo32 (I.sub.sreg sn)
    let as := (f W I.sub).map fun (l, w, x) => (⟨l, w, x, 0, false, .pending⟩ : Access)
    if as.isEmpty then retire s I .other I.sub
    else if strandWaits s I (!isLane i) i a [] as then wait s I
    else
      match k with
      | .load =>
        let as := as.map fun x =>
          let (d, m) := heldStrand I.gang.retry.held a x.addr (elemWidth i) (s.elemSize I.block.part a)
          { x with data := d, mask := m }
        issueStrand s I W i a [] [] as
      | .store =>
        if I.gang.retry.holding then
          if shareBytes < I.gang.retry.used + as.length * elemWidth i then
            becomeNonRetry s I fun s I => issueStrand s I W i a [] [] as
          else
            let s := s.setRetry I.t I.sub.gang fun r =>
              { r with held := r.held ++ [.sst i a (as.map fun x => (x.lane, x.addr, x.data))] }
            again s fun s I => retire s I .other I.sub
        else issueStrand s I W i a [] [] as
      | .atomic => becomeNonRetry s I fun s I => issueStrand s I W i a [] [] as

/-- SLD of the lane set (R339). -/
def execSldLane (d : LDst) (addr : BitVec 6) (ty : Ty) (pm sn : BitVec 3) (s : State) : Out1 :=
  element s (.sldLane d addr ty pm sn) .load
    [.vreg (2 * addr.toNat) 2, .dst d ty.regs false, .prd pm, .sreg sn.toNat 1] sn.toNat fun W U =>
      perLane U (lanePair W U addr) fun _ => 0

/-- SST of the lane set (R339). -/
def execSstLane (data : Opnd) (addr : BitVec 6) (ty : Ty) (sn : BitVec 3) (s : State) : Out1 :=
  element s (.sstLane data addr ty sn) .store [storeUse data ty, .vreg (2 * addr.toNat) 2, .sreg sn.toNat 1] sn.toNat
    fun W U => perLane U (lanePair W U addr) (storeData W U data ty)

/-- SLD of the uniform set (R339). -/
def execSldUniform (d : UDst) (addr : BitVec 5) (ty : Ty) (pm sn : BitVec 3) (s : State) : Out1 :=
  element s (.sldUniform d addr ty pm sn) .load
    [.sreg addr.toNat 1, .udst d (if ty = .q then 2 else 1) false, .prd pm, .sreg sn.toNat 1] sn.toNat fun _ U =>
      [(none, U.sreg addr.toNat, 0)]

/-- SST of the uniform set (R339). -/
def execSstUniform (data : Opnd) (addr : BitVec 5) (ty : Ty) (sn : BitVec 3) (s : State) : Out1 :=
  element s (.sstUniform data addr ty sn) .store [storeUniUse data ty, .sreg addr.toNat 1, .sreg sn.toNat 1] sn.toNat
    fun W U => [(none, U.sreg addr.toNat, storeUniData W U data ty)]

/-- The n words of lane j from v(r), low first. -/
def lanesFrom (W : Win) (U : Sub) (r n j : Nat) : Nat :=
  (List.range n).foldl (fun x k => x + (vregOf W U j (r + k)).toNat * 2 ^ (32 * k)) 0

/-- The data lane j gives an element atomic of n words (R340): y from v(d) and, for SACAS, the new value from the registers
above it. -/
def elemData (W : Win) (U : Sub) (d : Opnd) (n : Nat) (cas : Bool) (j : Nat) : BitVec 128 :=
  match d with
  | .v r => BitVec.ofNat 128 (lanesFrom W U r.toNat n j + (if cas then lanesFrom W U (r.toNat + n) n j * 2 ^ 64 else 0))
  | _ => 0

/-- An element atomic (R340). -/
def elemAtomic (s : State) (i : Instr) (d : Opnd) (addr : BitVec 6) (ty : Ty2) (sn : BitVec 3) (cas : Bool) : Out1 :=
  let n := ty.bytes / 4
  element s i .atomic [.group d (if cas then 2 * n else n), .vreg (2 * addr.toNat) 2, .sreg sn.toNat 1] sn.toNat fun W U =>
    perLane U (lanePair W U addr) (elemData W U d n cas)

/-- SAADD (R340). -/
def execSaadd (d : Opnd) (addr : BitVec 6) (ty : Ty2) (sn : BitVec 3) (s : State) : Out1 :=
  elemAtomic s (.saadd d addr ty sn) d addr ty sn false
/-- SAMIN (R340). -/
def execSamin (d : Opnd) (addr : BitVec 6) (ty : Ty2) (sn : BitVec 3) (s : State) : Out1 :=
  elemAtomic s (.samin d addr ty sn) d addr ty sn false
/-- SAMAX (R340). -/
def execSamax (d : Opnd) (addr : BitVec 6) (ty : Ty2) (sn : BitVec 3) (s : State) : Out1 :=
  elemAtomic s (.samax d addr ty sn) d addr ty sn false
/-- SACAS (R340). -/
def execSacas (d : Opnd) (addr : BitVec 6) (ty : Ty2) (sn : BitVec 3) (s : State) : Out1 :=
  elemAtomic s (.sacas d addr ty sn) d addr ty sn true
/-- SAXCHG (R340). -/
def execSaxchg (d : Opnd) (addr : BitVec 6) (ty : Ty2) (sn : BitVec 3) (s : State) : Out1 :=
  elemAtomic s (.saxchg d addr ty sn) d addr ty sn false

/-- SANCH of the lane set (R341): for R134 a structural operation. -/
def execSanchLane (d : LDst) (addr : BitVec 6) (sn : BitVec 3) (s : State) : Out1 :=
  element s (.sanchLane d addr sn) .atomic [.vreg (2 * addr.toNat) 2, .dst d 2 false, .sreg sn.toNat 1] sn.toNat fun W U =>
    perLane U (lanePair W U addr) fun _ => 0

/-- SRANK of the lane set (R341): for R134 a structural operation. -/
def execSrankLane (d : LDst) (addr : BitVec 6) (pm : BitVec 3) (s : State) : Out1 :=
  withOperands s (.srankLane d addr pm) false [.vreg (2 * addr.toNat) 2, .dst d 4 false, .prd pm] fun s I W _ =>
    let i : Instr := .srankLane d addr pm
    let as := (perLane I.sub (lanePair W I.sub addr) fun _ => 0).map fun (l, w, x) => (⟨l, w, x, 0, false, .pending⟩ : Access)
    if as.isEmpty then retire s I .other I.sub
    else if strandWaits s I false i 0 [] as then wait s I
    else becomeNonRetry s I fun s I => issueStrand s I W i 0 [] [] as

/-! ### Re-issue of faulted accesses (R132, R164, R208) -/

/-- The source range a logged SINS or SAPND reads: its address and length, none for an instruction without one (R336). -/
def sourceRange (s : State) (I : Issuer) (e : LogEntry) : Option (Word × Nat) :=
  let len : Nat → W32 → Nat := fun cnt id => if rankLimit ≤ cnt then 0 else cnt * s.elemSize I.block.part id
  match e.i with
  | .sins _ _ z _ => if z then none else some (e.args.getD 2 0, len (e.args.getD 1 0).toNat e.strand)
  | .sapnd _ _ =>
    let strand := match (s.part I.block.part).bind fun P => P.cursorAt e.strand with | some k => k.strand | none => 0
    some (e.args.getD 1 0, len (e.args.getD 0 0).toNat strand)
  | _ => none

/-- Re-issues the faulted accesses of one logged instruction; strand requests go out as a whole again. -/
def reissue (s : State) (I : Issuer) (e : LogEntry) : State :=
  let redo : List Access := e.accs.filterMap fun a =>
    match a.st with | .faulted _ _ _ => some { a with st := .pending } | _ => none
  let put (s : State) (as : List Access) : State :=
    match kget (s.tile I.t).subs I.u with
    | none => s
    | some U =>
      let f : Access → Access := fun a =>
        match a.st with
        | .faulted _ _ _ => (as.find? fun b => b.lane == a.lane).getD a
        | _ => a
      let U := U.mapSlices fun S => { S with log := S.log.map fun x =>
        if x.seq == e.seq then { x with accs := x.accs.map f } else x }
      s.setSub I.t I.u { U with slices := kmap U.slices fun _ S => S.settleLog (s.window I) }
  match memKind e.i with
  | some (spad, k) =>
    let (s, as) := issueAll s I e.seq spad k redo
    let s := if acquires e.i && as.any Access.isDone then s.l1Clear I.t else s
    put s as
  | none =>
    match sourceRange s I e with
    | none =>
      let (s, as) := strandSend s I e.seq e.i e.strand e.args [] redo
      put s as
    | some (va, n) =>
      match readSource s I va n with
      | .fault c => put s (redo.map fun a => { a with st := .faulted c.group c.code c.datum })
      | .wait => s
      | .ok s bs =>
        let (s, as) := strandSend s I e.seq e.i e.strand e.args bs redo
        put s as

/-- The faulted entries of a sub-gang in log order, each instruction once: for a strand request all its lanes are gathered
into one. -/
def Sub.faultedEntries (U : Sub) : List LogEntry :=
  let es := U.slices.flatMap fun (_, S) => S.log.filter LogEntry.faulted
  let seqs := (sortNat (es.map fun e => e.seq)).foldl (fun l n => if l.contains n then l else l ++ [n]) []
  seqs.filterMap fun q =>
    let mine := es.filter fun e => e.seq == q
    mine.head?.map fun e =>
      if e.accs.any fun a => a.lane.isNone then e else { e with accs := mine.flatMap fun x => x.accs }

end Sys2Proof.Machine
end

