-- ==== Sys2Proof/Machine/Park.lean ====
section
/-!
DEFINITION. Parking a sub-gang, leaving a gang, and the end of a gang (07_execution_model.md R107, R111, R113;
05_scheduler.md R84, R87; 13_traps_faults.md R212).
-/
namespace Sys2Proof.Machine

/-- Removes a sub-gang from its gang; the gang ends with its last one, and a REGANG of the others is settled (R107, R111). -/
def State.leaveGang (s : State) (t u : Nat) : State :=
  let T := s.tile t
  match kget T.subs u with
  | none => s
  | some U =>
    let T := { T with subs := kdel T.subs u }
    if (T.subsOf U.gang).isEmpty then
      let ctx := match kget T.gangs U.gang with | some G => G.ctx | none => 0
      let T := T.dropGang U.gang
      match kget T.blocks ctx with
      | some B => if B.proxy.isSome then s.setTile t { T with blocks := kdel T.blocks ctx } else (s.setTile t T).admitReady t
      | none => (s.setTile t T).admitReady t
    else settleRegang (s.setTile t T) t U.gang

/-- The live lanes of a sub-gang: those that hold a thread (R113, R257). -/
def Sub.liveLanes (U : Sub) : List (Nat × Nat × Nat) :=
  (U.slices.zipIdx).flatMap fun ((i, S), n) => ((List.range 4).filter fun j => S.live.getLsbD j).map fun j => (i, n, j)

/-- A continuation's registers: v0 to v15 by value (R113). -/
def Lane.saved (L : Lane) (n : Nat) : KMap W32 := (List.range (min 16 n)).map fun r => (r, L.reg r)

/-- The continuations of a park (R113), in the slots given: the registers a continuation does not keep are free values of its
own (R85). A park inside a handler keeps neither INH nor the trap registers: the spec lists what travels and names them not
(log 30). -/
def parkConts (T : Tile) (I : Issuer) (U : Sub) (run seed : Nat) (resume : Resume) (place : ContAt) : KMap Cont :=
  let ls := U.liveLanes
  (ls.zip (T.slotList ls.length)).foldl (fun m ((i, n, j), k) =>
    match kget U.slices i with
    | none => m
    | some S =>
      match S.lanes[j]? with
      | none => m
      | some L =>
        kset m k { entry := U.pc, ctx := I.gang.ctx, uid := I.block.uid, grid := I.block.grid, detached := I.gang.detached, park := true, run := run,
                   slice := n, lane := j, regs := L.saved I.block.vregs, fill := .free (seed + k), bad := L.bad.filter (· < min 16 I.block.vregs), gangIx := L.gangIx, mask := S.mask,
                   live := S.live, stack := S.stack, feeder := I.gang.feeder, monitor := S.monitor, resume := some resume,
                   place := place }) T.conts

/-- PARK (R113): the operand logs must be empty and the bin store have the slots; the gang's held writes are performed
first; every live lane becomes a continuation that waits for its condition, or enters a bin at once. -/
def park (s : State) (I : Issuer) (resume : Resume) (cond : Option Cond) (watched : Bool) : Out1 :=
  if !I.sub.logsEmpty then wait s I
  else
    let need := I.sub.liveLanes.length
    let binOk := cond.isSome || (I.tile.fillingBin I.sub.pc I.block.uid I.gang.detached).isSome || (kfree I.tile.bins 32).isSome
    if I.tile.freeSlots < need || !binOk then
      let U := { I.sub with binWait := some (I.sub.binWait.getD s.stamp), stall := some s.gen }
      .next (s.setSub I.t I.u U)
    else
      commitPoint s I fun s I =>
        let run := s.nextId
        let place : ContAt := match cond with | some c => .waiting c watched | none => .ready s.stamp
        let conts := parkConts I.tile I I.sub run s.free resume place
        let s := { s.setTile I.t { I.tile with conts := conts } with nextId := run + 1, free := s.free + 1024 }
        let s := s.leaveGang I.t I.u
        .next (match cond with | some _ => s | none => s.admitRun I.t run)

end Sys2Proof.Machine
end

