-- ==== Sys2Proof/Machine/Sync.lean ====
section
/-!
DEFINITION. Fences, monitors, arrival barriers and timeline waits (17_memory_instructions.md R294 to R303;
09_consistency.md R143, R149, R151, R153).
-/
namespace Sys2Proof.Machine

/-- Whether a gang runs stages of a skein (R174). -/
def Gang.isStage (G : Gang) : Bool :=
  match G.kind with
  | .stage _ _ _ | .folded _ _ => true
  | _ => false

/-! ### FENCE (R294) -/

/-- FENCE: earlier accesses of the issuer are performed first, at domain or system scope with the acknowledgements of
R149; an acquire invalidates L1; a release of a scope wider than block ends a retry. -/
def execFence (sc : Scope) (k : FenceKind) (s : State) : Out1 :=
  withOperands s (.fence sc k) false [] fun s I _ _ =>
    if releaseWaits s.node I sc then wait s I
    else
      let done : State → Issuer → Out1 := fun s I =>
        let s := if k = .rel then s else s.l1Clear I.t
        retire s I .other I.sub
      if k ≠ .acq ∧ 2 ≤ sc.rank then becomeNonRetry s I done else done s I

/-! ### Monitors (R295 to R297) -/

/-- Whether a monitor's condition holds for a value (R295). -/
def Monitor.holds (m : Monitor) (v : Nat) : Bool :=
  let w := 8 * m.ty.bytes
  let c := m.cmp.toNat % 2 ^ w
  match m.cond.toNat with
  | 0 => v == c
  | 1 => v != c
  | 2 => decide ((v + 2 ^ w - c) % 2 ^ w < 2 ^ (w - 1))
  | _ => Nat.land v c != 0

/-- MONARM: checks the address without an access, and arms every slice of the issuer. -/
def execMonarm (data : Opnd) (addr : BitVec 5) (ty : Ty2) (s : State) : Out1 :=
  withOperands s (.monarm data addr ty) false [.uniPair data 2, .sreg addr.toNat 1] fun s I _ _ =>
    let i : Instr := .monarm data addr ty
    let va := I.sub.sreg addr.toNat
    let r := match data with | .s r => r.toNat | _ => 0
    match check s I.t I.block.vf I.block.world va .read ty.bytes with
    | .error c => trapAt s I c.group c.code c.datum
    | .ok (fa, e) =>
      if fa / 2 ^ 42 ≠ s.node ∨ ¬ isDram (fa % 2 ^ 42) then trapWord s I i 9 5
      else if I.sub.sreg (r + 1) / 4 ≠ 0 then trapWord s I i 9 6
      else
        let m : Monitor := ⟨fa % 2 ^ 42, va, ty, I.sub.sreg r, (I.sub.sreg (r + 1)).setWidth 2⟩
        retire (s.fillTlb I.t e) I .other (I.sub.mapSlices fun S => { S with monitor := some m })

/-- Watches a die cache has in use (R297). -/
def State.watches (s : State) (d : Nat) : Nat :=
  s.tiles.foldl (fun n (_, T) => n + (T.conts.filter fun (_, c) =>
    (match c.place with | .waiting .monitor w => w | _ => false) &&
    (match c.monitor with | some m => homeOf m.pa == d | none => false)).length) 0

/-- MONWAIT: one read at the home; the value is written when the condition holds, else the issuer parks. A stage gang holds
its slices instead of parking (log 32). -/
def execMonwait (d : UDst) (ty : Ty2) (o : AOrd) (s : State) : Out1 :=
  withOperands s (.monwait d ty o) false [.udst d 1 false] fun s I _ _ =>
    let i : Instr := .monwait d ty o
    match I.sub.low.bind fun (_, S) => S.monitor with
    | none => trapWord s I i 9 4
    | some m =>
      if m.ty ≠ ty then trapWord s I i 9 4
      else
        let home := homeOf m.pa
        let n := ty.bytes
        let a : Access := ⟨none, m.va, 0, 0, false, .pending⟩
        if I.sub.acquirePending || I.sub.overlapsPending false n a || !s.homeOpen (dieOf I.t) home (s.carried I.t) false then
          wait s I
        else
          match s.poisonLine m.pa n, security s I.block.world m.pa with
          | some l, _ => trapAt s I 15 5 (BitVec.ofNat 64 l)
          | none, some c => trapAt s I 18 c m.va
          | none, none =>
            let (s, bs) := s.readNow (dieOf I.t) m.pa n
            let (od, om) := heldOver I.gang.retry.held (m.pa + s.node * 2 ^ 42) n
            let v := (overlayBytes om od (dataOf bs)).toNat % 2 ^ (8 * n)
            if m.holds v then
              let U := (I.sub.setDst d (BitVec.ofNat 64 v)).mapSlices fun S => { S with monitor := none }
              retire (s.l1Clear I.t) { I with sub := U } .other U
            else if I.gang.isStage then wait s I
            else park s I .monwait (some .monitor) (decide (s.watches home < 8192))

/-! ### Arrival barriers (R298 to R300) -/

/-- The four words of a barrier (R298). -/
structure Barrier where
  expect : Nat
  bytes : Int
  init : Nat
  phase : Nat
  deriving DecidableEq, Repr

def Barrier.read (s : State) (a : SpadAt) : Barrier :=
  let w := fun k => leNat (s.spadRead { a with off := a.off + k } 4)
  ⟨w 0, (BitVec.ofNat 32 (w 4)).toInt, w 8, w 12⟩

def Barrier.write (b : Barrier) (s : State) (a : SpadAt) : State :=
  s.spadWrite a (natLe 4 b.expect ++ natLe 4 (BitVec.ofInt 32 b.bytes).toNat ++ natLe 4 b.init ++ natLe 4 b.phase)

/-- A phase completes when nothing more is expected (R298). -/
def Barrier.check (b : Barrier) : Barrier :=
  if b.expect = 0 ∧ b.bytes = 0 then { b with phase := (b.phase + 1) % 2 ^ 32, expect := b.init } else b

/-- A barrier instruction: the checks of its address, then its step at the owning port. The issuer waits until the step is
performed. -/
def barrierOp (s : State) (i : Instr) (a b : Opnd) (f : State → Issuer → SpadAt → Nat → Out1) : Out1 :=
  withOperands s i false [.src a, .src b] fun s I W _ =>
    match s.spadFind I ((uniVal W 0 I.sub a).setWidth 32) 16 with
    | .error c => trapAt s I c.group c.code c.datum
    | .ok none => wait s I
    | .ok (some p) => if I.sub.acquirePending then wait s I else f s I p ((uniVal W 0 I.sub b).setWidth 32).toNat

/-- BARINIT (R298). -/
def execBarinit (a b : Opnd) (s : State) : Out1 :=
  barrierOp s (.barinit a b) a b fun s I p n =>
    if 1 ≤ n ∧ n < 2 ^ 31 then retire ((Barrier.mk n 0 n 0).write s p) I .other I.sub
    else trapWord s I (.barinit a b) 9 7

/-- BARARV (R298, R153): a release, so earlier accesses of the issuer are performed first. -/
def execBararv (a b : Opnd) (s : State) : Out1 :=
  barrierOp s (.bararv a b) a b fun s I p k =>
    if !I.sub.quiet then wait s I
    else becomeNonRetry s I fun s I =>
      let B := Barrier.read s p
      if 1 ≤ k ∧ k ≤ B.expect then retire ({ B with expect := B.expect - k }.check.write s p) I .other I.sub
      else trapWord s I (.bararv a b) 9 8

/-- BAREXP (R298). -/
def execBarexp (a b : Opnd) (s : State) : Out1 :=
  barrierOp s (.barexp a b) a b fun s I p m =>
    becomeNonRetry s I fun s I =>
      let B := Barrier.read s p
      if 1 ≤ m ∧ m < 2 ^ 31 ∧ B.bytes + m < 2 ^ 31 then retire ({ B with bytes := B.bytes + m }.check.write s p) I .other I.sub
      else trapWord s I (.barexp a b) 9 8

/-- BARWAIT (R299, R153): it holds its slices until phase p has completed, and acquires. -/
def execBarwait (a b : Opnd) (s : State) : Out1 :=
  barrierOp s (.barwait a b) a b fun s I p n =>
    let B := Barrier.read s p
    if (B.phase + 2 ^ 33 - n - 1) % 2 ^ 32 < 2 ^ 31 then retire (s.l1Clear I.t) I .other I.sub
    else wait s I

/-- A copy's bytes are counted on a barrier at its port; a count that would pass −2^31 is refused (R298). -/
def Barrier.land (b : Barrier) (n : Nat) : Option Barrier :=
  if b.bytes - n < -(2 ^ 31) then none else some ({ b with bytes := b.bytes - n }).check

/-! ### Timeline waits (R301, R302) -/

/-- The permission causes of TLWAIT and TLQRY (R115, R176). -/
def timelineBarred (I : Issuer) : Option Byte :=
  if I.gang.detached then some 6 else if I.gang.isStage then some 7 else none

/-- TLWAIT: the number of a resumed wait is the recorded one. -/
def execTlwait (tc : BitVec 4) (x : Opnd) (s : State) : Out1 :=
  withIssuer s fun I0 =>
    let i : Instr := .tlwait tc x
    let saved := match I0.sub.resume with | some (.tlwait n) => some n | _ => none
    withOperands s i false (if saved.isSome then [] else [.src x]) fun s I W _ =>
      match timelineBarred I with
      | some c => trapNoAddr s I 4 c
      | none =>
        let n := match saved with | some n => n | none => (uniVal W 0 I.sub x).setWidth 32
        let T := I.block.tl tc
        let ahead := (n - T.issue).toNat
        if 1 ≤ ahead ∧ ahead < 2 ^ 31 then trapWord s I i 9 9
        else if I.sub.acquirePending then wait s I
        else if tlReached T.compl n then retire (s.l1Clear I.t) I .other I.sub
        else park s I (.tlwait n) (some (.timeline tc n)) false

/-- TLQRY. -/
def execTlqry (tc : BitVec 4) (d : UDst) (s : State) : Out1 :=
  withOperands s (.tlqry tc d) false [.udst d 1 false] fun s I _ _ =>
    match timelineBarred I with
    | some c => trapNoAddr s I 4 c
    | none =>
      let T := I.block.tl tc
      retire s I .other (I.sub.setDst d (T.issue ++ T.compl))

end Sys2Proof.Machine
end

