-- ==== Sys2Proof/Machine/Submit.lean ====
section
/-!
DEFINITION. Launch records: submission and dispatch checks, regions, region queues, and completion pairs
(04_launch_interface.md R56 to R69; 05_scheduler.md R71 to R75).
-/
namespace Sys2Proof.Machine

/-! ### Capacity (R75) -/

/-- Slices of one block. -/
def LRecord.blockSlices (r : LRecord) : Nat := r.gangs * r.slices
/-- Lane registers of one block. -/
def LRecord.laneRegs (r : LRecord) : Nat := 4 * r.gangs * r.slices * r.vregs
/-- The capacity k of a record: blocks that fit an empty tile. -/
def LRecord.capacity (r : LRecord) : Nat :=
  min (min (128 / r.blockSlices) (65536 / r.laneRegs)) (min (512 / max 1 r.spad) 16)

/-! ### Submission checks (R57, codes 1 to 5) -/

/-- Check 2: reserved bits, CGSIZE, GRID, SPAD and alignments (R56). -/
def LRecord.wellFormed (r : LRecord) : Bool :=
  bits r.geom.toNat 12 0 == 0 && bits r.flags.toNat 15 11 == 0 && bits r.flags.toNat 3 0 == 0 && r.cgcode != 3 &&
  decide (1 ≤ r.grid) && decide (1 ≤ r.spad) && decide (r.spad ≤ 512) &&
  r.entry.toNat % 4 == 0 && r.handler.toNat % 4 == 0 && r.region.toNat % 64 == 0 && r.compl.toNat % 16 == 0 &&
  r.edge.toNat % 64 == 0

/-- The first failing submission check after check 1, for a partition. -/
def LRecord.submitCheck (r : LRecord) (P : Part) : Option Nat :=
  if !r.wellFormed then some 2
  else if r.gangs ≤ r.feeder then some 3
  else if 128 < r.blockSlices ∨ 65536 < r.laneRegs then some 4
  else if r.grid % r.cgsize ≠ 0 ∨ (r.coop ∧ r.capacity * P.tiles.length < r.grid) then some 5
  else none

/-! ### Regions (R64, R65) -/

/-- A control block as read from memory. -/
structure RBlock where
  va : Word
  fa : Nat
  parent : Word
  ovr : Nat
  prio : Nat
  world : Nat
  fdp : Nat
  age : Nat
  budget : Nat
  used : Nat
  tail : Bool
  deriving DecidableEq, Repr

/-- The fabric address that a function's stages make readable and writable for an address (R57, check 6). -/
def State.devicePlace (s : State) (vf : Nat) (va : Word) : Option Nat :=
  match walk s vf va with
  | .error _ => none
  | .ok e => if e.r && e.w then some (e.out + (va.toNat - e.va)) else none

/-- Whether every die that can be told has applied the writes a vector covers: what an acceptance acquires is then seen at
every home (R62, R69, R146). -/
def State.coveredBy (s : State) (vec : List W32) : Bool :=
  (List.range 4).all fun d => (s.dies.any fun (x, _) => s.cutOffDies d x) || coversVec ((s.die d).refresh d).applied vec

/-- Reads a control block at a fabric address. -/
def State.readRBlock (s : State) (va : Word) (fa : Nat) : RBlock :=
  let le := fun k n => s.placeLe (fa + k) n
  { va := va, fa := fa, parent := BitVec.ofNat 64 (le 0 8), ovr := le 8 1, prio := le 9 1, world := le 10 1, fdp := le 11 1,
    age := le 12 4, budget := le 16 8, used := le 24 8, tail := (s.placeBytes (fa + 32) 32).all (· == 0) }

/-- Whether a control block satisfies check 7. -/
def RBlock.ok (b : RBlock) : Bool :=
  decide (b.prio ≤ 7) && decide (b.world ≤ 1) && decide (b.ovr < 32) && decide (b.fdp < 8) && b.tail

/-- The chain from a region to its root, at most n control blocks: a failing check, or the blocks (R57, checks 6, 7). -/
def State.regionChain (s : State) (vf : Nat) : Nat → Word → Except Nat (List RBlock)
  | 0, _ => .error 7
  | n + 1, va =>
    if va.toNat % 64 ≠ 0 then .error 6
    else
      match s.devicePlace vf va with
      | none => .error 6
      | some fa =>
        let b := s.readRBlock va fa
        if !b.ok then .error 7
        else if b.parent = 0 then .ok [b]
        else
          match State.regionChain s vf n b.parent with
          | .error c => .error c
          | .ok bs => .ok (b :: bs)

/-- The nearest block that overrides a field; the root counts as overriding every field (R65). -/
def effOf (bs : List RBlock) (bit : Nat) : Option RBlock :=
  match bs.find? fun b => b.ovr / 2 ^ bit % 2 == 1 with
  | some b => some b
  | none => bs.getLast?

/-- Whether a region is exhausted (R66). -/
def chainExhausted (bs : List RBlock) : Bool :=
  bs.zipIdx.any fun (b, k) =>
    (b.ovr % 2 == 1 || k + 1 == bs.length) && b.budget != 2 ^ 64 - 1 && decide (128 * b.budget ≤ b.used)

/-- The effective values of a chain (R65). -/
def chainEff (bs : List RBlock) : Eff :=
  let f := fun bit (g : RBlock → Nat) => match effOf bs bit with | some b => g b | none => 0
  { prio := f 1 (·.prio), age := f 2 (·.age), world := f 4 (·.world) == 1, fdp := BitVec.ofNat 8 (f 3 (·.fdp)),
    path := bs.map fun b => (b.va, b.fa), exhausted := chainExhausted bs }

/-- The effective values of a region as a read of R65 finds them. -/
def State.readEff (s : State) (vf : Nat) (region : Word) : Except Nat Eff :=
  match s.regionChain vf 8 region with
  | .error c => .error c
  | .ok bs => .ok (chainEff bs)

/-! ### Region queues (R72) -/

/-- The name of a region: a function and an address; functions of one partition share its partition stage. -/
def Part.queueOf (P : Part) (vf : Nat) (region : Word) : Option (Nat × Queue) :=
  P.queues.find? fun (_, q) => q.vf == vf && q.region == region

/-- DUSEC of a partition's lead distributor (R71). -/
def State.leadUsec (s : State) (P : Part) : Nat := (s.die P.leadDie).dusec.toNat

/-- The base of a queue: the base priority of its head (R65, R72). -/
def Queue.base (q : Queue) : Nat :=
  match q.recs.head?, q.eff with
  | some r, some e => min e.prio r.cap
  | _, _ => 0

/-- A record is accepted by the queue of its region (R60, R72): an EMPTY queue starts at its base with its age timer. The region
of a new queue is read once the writes that the acceptance acquires are seen (R62); until then its base is 0 (log 40). -/
def State.enqueue (s : State) (p : Nat) (r : Rec) : State :=
  match s.part p with
  | none => s
  | some P =>
    let now := s.leadUsec P
    match P.queueOf r.vf r.r.region with
    | some (k, q) =>
      let q' : Queue := { q with recs := q.recs ++ [r] }
      let q' := if q.recs.isEmpty then { q' with level := q'.base, since := now } else q'
      s.setPart p { P with queues := kset P.queues k q' }
    | none =>
      let k := (kfree P.queues (P.queues.length + 1)).getD 0
      let eff := match (if s.coveredBy r.vec then s.readEff r.vf r.r.region else .error 0) with | .ok e => some e | .error _ => none
      let q : Queue := { vf := r.vf, region := r.r.region, st := if (match eff with | some e => e.exhausted | none => false) then .exhausted else .waiting,
                         recs := [r], level := 0, since := now, eff := eff,
                         exhaustions := if (match eff with | some e => e.exhausted | none => false) then 1 else 0, used := 0, reserve := none }
      s.setPart p { P with queues := kset P.queues k { q with level := q.base } }

/-- A record that passed its submission checks enters its queue under a fresh grid name. -/
def State.submit (s : State) (p vf : Nat) (r : LRecord) (origin : Nat → Origin) (secure : Bool) (sameWorld : Option Bool)
    (cap : Nat) (vec : List W32) : State × Nat :=
  let g := s.nextId
  let rc : Rec := { grid := g, r := r, origin := origin g, vf := vf, secure := secure, sameWorld := sameWorld, cap := cap, stamp := s.stamp, vec := vec }
  (({ s with nextId := g + 1, stamp := s.stamp + 1 } : State).enqueue p rc, g)

/-! ### Completion pairs (R67) -/

/-- Whether a completion address names a pair: it is not 0, is aligned and translates (R67). -/
def State.complNamed (s : State) (vf : Nat) (compl : Word) : Bool :=
  compl != 0 && compl.toNat % 16 == 0 && (match walk s vf compl with | .ok _ => true | .error _ => false)

/-- Where a completion pair can be written: its fabric address. -/
def State.complAt (s : State) (vf : Nat) (compl : Word) : Option Nat :=
  if compl = 0 ∨ compl.toNat % 16 ≠ 0 then none
  else
    match walk s vf compl with
    | .error _ => none
    | .ok e => if e.r && e.w then some (e.out + (compl.toNat - e.va)) else none

/-- One atomic of the device on a 64-bit word at a fabric address, for a die (R67): performed at its home in this package,
where the world check may stop it (R49), or sent to its node. -/
def State.deviceAtomic (s : State) (die vf : Nat) (world : Bool) (grid fa op : Nat) (y : Word) : State :=
  if fa / 2 ^ 42 = s.node ∧ (security s world (fa % 2 ^ 42)).isSome then s
  else if fa / 2 ^ 42 = s.node then
    let pa := fa % 2 ^ 42
    ((s.noteWrite die (homeOf pa) (s.die die).vec).atomicAt pa op 64 y 0).1
  else (s.request die 65 (nodePacket vf world fa (.atomic (fa % 2 ^ 42) op 64 y 0)) (.grid grid)).tryLast

/-- Whether the device may perform an atomic at a fabric address now (R146, R91). -/
def State.deviceOpen (s : State) (die fa : Nat) : Bool :=
  if fa / 2 ^ 42 = s.node then s.homeOpen die (homeOf (fa % 2 ^ 42)) (s.die die).vec true else s.outRoom die 65 3

/-- Reports the end of a grid at its completion pair (R67): the word at COMPL + 8 takes the abnormal bits first, then the
counter at COMPL takes CINC. -/
def State.complete (s : State) (die vf : Nat) (world : Bool) (grid : Nat) (r : LRecord) (flags : Nat) : State :=
  match s.complAt vf r.compl with
  | none => s
  | some fa =>
    let s := if flags = 0 then s else s.deviceAtomic die vf world grid (fa + 8) 7 (BitVec.ofNat 64 flags)
    s.deviceAtomic die vf world grid fa 0 (BitVec.ofNat 64 r.cinc)

end Sys2Proof.Machine
end

