-- ==== Sys2Proof/Machine/System.lean ====
section
/-!
DEFINITION. Launch, suspend, spawn, launch query, system registers, and the entry to and return from the trap handler
(24_launch_system_instructions.md R356 to R367; 13_traps_faults.md R204 to R210).
-/
namespace Sys2Proof.Machine

/-! ### LAUNCH (R356 to R358) -/

/-- Reads a 64-byte record where the address and its page allow it. -/
def recordAt (s : State) (I : Issuer) (va : Word) : SrcAns := readSource s I va 64

/-- A LAUNCH with its record address, once the pending-launch queue has a free slot. -/
def launchNow (s : State) (I : Issuer) (i : Instr) (va : Word) : Out1 :=
  if !I.sub.quiet then wait s I
  else
    becomeNonRetry s I fun s I =>
      match recordAt s I va with
      | .fault c => trapAt s I c.group c.code c.datum
      | .wait => wait s I
      | .ok s bs =>
        match s.part I.block.part with
        | none => .next s
        | some P =>
          if va.toNat % 64 ≠ 0 then trapWord s I i 10 1
          else
            let r := LRecord.ofBytes bs
            match r.submitCheck P with
            | some c => trapWord s I i 10 (BitVec.ofNat 8 c)
            | none =>
              let (s, g) := s.submit I.block.part I.block.vf r (fun _ => .pend I.block.uid) I.block.world (some I.block.world) 7 (s.carried I.t)
              let s := s.mapBlock I.block.uid fun B =>
                { B with pend := B.pend ++ [⟨g, r.tag⟩], launches := B.launches + 1 }
              again s fun s I => retire s I .other I.sub

/-- LAUNCH: the record address of a resumed LAUNCH is the recorded one. -/
def execLaunch (a : Opnd) (s : State) : Out1 :=
  withIssuer s fun I0 =>
    let i : Instr := .launch a
    let saved := match I0.sub.resume with | some (.launch va) => some va | _ => none
    withOperands s i false (if saved.isSome then [] else [.src a]) fun s I W _ =>
      let va := match saved with | some va => va | none => uniVal W 0 I.sub a
      if I.gang.isStage then trapNoAddr s I 4 7
      else if I.block.pend.length < 4 then launchNow s I i va
      else park s I (.launch va) (some .slot) false

/-! ### SUSPEND (R359) -/

/-- SUSPEND: one that resumes from its own park completes without effect. -/
def execSuspend (k : Susp) (s : State) : Out1 :=
  withIssuer s fun I0 =>
    let resumed := I0.sub.resume == some .suspend
    let us := match k with | .now => [] | .delay a => [Use.src a]
    withOperands s (.suspend k) false (if resumed then [] else us) fun s I W _ =>
      if I.gang.isStage then trapNoAddr s I 4 7
      else if resumed then retire s I .other I.sub
      else
        match k with
        | .now => park s I .suspend none false
        | .delay a =>
          let us := ((uniVal W 0 I.sub a).setWidth 32).toNat
          if us = 0 then park s I .suspend none false else park s I .suspend (some (.delay us)) false

/-! ### SPAWN (R360, R361) -/

/-- The continuation of one spawning lane enters a bin; none where no bin can take it (R84, R87). -/
def spawnOne (T : Tile) (deadline stamp : Nat) (slot : Nat) (c : Cont) : Option Tile :=
  let T := { T with conts := kset T.conts slot c }
  match T.enterBin deadline stamp c [some slot] with
  | (T, true) => some T
  | (_, false) => none

/-- SPAWN. -/
def execSpawn (r : Opnd) (base : BitVec 6) (det : Bool) (k : BitVec 4) (s : State) : Out1 :=
  let i : Instr := .spawn r base det k
  let n := k.toNat + 1
  withOperands s i false [.uni r, .vrun base.toNat n] fun s I W _ =>
    let entry := match r with | .s r => I.sub.sreg r.toNat | _ => 0
    let trapNo (c : Byte) : Out1 :=
      trapWhole { s with free := s.free + 1 } I true 4 c (Config.freeWord s.free 0)
    if I.gang.isStage then trapNo 7
    else if I.gang.detached && !det then trapNo 6
    else if entry.toNat % 4 ≠ 0 then trapWhole s I true 5 2 entry
    else
      let ls := I.sub.actives
      if ls.isEmpty then retire s I .other I.sub
      else if !I.sub.quiet then wait s I
      else
        becomeNonRetry s I fun s I =>
          let T := I.tile
          let slots := T.slotList ls.length
          let mk : Nat → Nat → Cont := fun q j =>
            let regs : KMap W32 := (List.range n).map fun x => (x, vregOf W I.sub j (base.toNat + x))
            { entry := entry, ctx := I.gang.ctx, uid := I.block.uid, grid := I.block.grid, detached := det, park := false, run := s.nextId + q, slice := 0, lane := 0,
              regs := regs, fill := .free (s.free + q), bad := [], gangIx := gangOf I.sub j, mask := 0, live := 0, stack := [], feeder := false,
              monitor := none, resume := none, place := .ready s.stamp }
          let T' : Option Tile :=
            if slots.length < ls.length then none
            else ((ls.zip slots).zipIdx).foldl (fun T ((j, slot), q) =>
              T.bind fun T => spawnOne T (s.usec I.t + s.bint I.t) (s.stamp + q) slot (mk q j)) (some T)
          match T' with
          | some T' =>
            let s := { s.setTile I.t T' with nextId := s.nextId + ls.length, stamp := s.stamp + ls.length, free := s.free + ls.length }
            again s fun s I => retire s I .other I.sub
          | none =>
            .next (s.setSub I.t I.u { I.sub with binWait := some (I.sub.binWait.getD s.stamp), stall := some s.gen })

/-! ### LQRY (R362) -/

/-- The value LQRY reads for a selector. -/
def lqryValue (ctx : Nat) (B : Block) (sel : Nat) : Word :=
  if sel = 0 then
    BitVec.ofNat 64 (ctx * 2 ^ 24 + (if B.rcd.retry then 2 ^ 19 else 0) + (if B.rcd.coop then 2 ^ 18 else 0) +
      B.rcd.cgcode * 2 ^ 16 + B.rcd.tag.toNat)
  else
    BitVec.ofNat 64 (B.launches.toNat * 2 ^ 32 + (match B.pend.head? with | some p => p.tag.toNat * 2 ^ 16 | none => 0) +
      B.pend.length)

/-- LQRY. -/
def execLqry (d : UDst) (a : Opnd) (s : State) : Out1 :=
  withOperands s (.lqry d a) false [.src a, .udst d 1 false] fun s I W _ =>
    let sel := (uniVal W 0 I.sub a).toNat
    if 1 < sel then trapAt s I 2 8 (wordDatum (.lqry d a) a.code)
    else
      match s.ownerOf I with
      | none => wait s I
      | some (_, ctx, B) => retire s I .other (I.sub.setDst d (lqryValue ctx B sel))

/-! ### System registers (R363 to R365) -/

/-- Whether an issuer has runtime rights (R364). -/
def State.runtimeRights (s : State) (I : Issuer) : Bool :=
  match s.part I.block.part with
  | some P => decide (I.block.vf = P.vflo)
  | none => false

/-- Instances of a register: one more than its highest IDX; 0 for a register the table does not list. -/
def sysCount (r : SysReg) : Nat :=
  match r with
  | .bpc => 4 | .thstat => 4 | .gpstat => 24 | .errcnt => 4 | .trev => 256 | .dlstat => 4 | .tfence => 4 | .fwtab => 256
  | .unlisted _ => 0
  | _ => 1

/-- Whether the register may be read and written by runtime gangs only, and by secure ones only (R364). -/
def sysRuntime (r : SysReg) : Bool :=
  match r with
  | .bpc | .psroot | .tlbinv | .pshlog | .shdisc | .spstat | .skreq | .tfence | .fwtab => true
  | _ => false

/-- Whether some field of a register can be written. -/
def sysWritable (r : SysReg) : Bool :=
  match r with
  | .tepc | .tscr0 | .tscr1 | .tscr2 | .tscr3 | .tctl | .bpc | .thstat | .psroot | .tlbinv | .shdisc | .skreq => true
  | _ => false

/-- GSTAT (R365). -/
def gstatOf (G : Gang) : Word :=
  let st := match G.retry.st with | .never => 0 | .run => 1 | .retry => 2 | .lasting => 3 | .nonretry => 4
  BitVec.ofNat 64 ((if G.detached then 2 ^ 11 else 0) + (if G.feeder then 2 ^ 10 else 0) + (if G.isStage then 2 ^ 9 else 0) +
    G.retry.attempts % 16 * 2 ^ 4 + st)

/-- Frozen blocks that no unfenced tile of their revision could take (R99, PSHLOG.NOREV). -/
def State.norev (s : State) (P : Part) : Nat :=
  P.sheaves.foldl (fun n (_, h) =>
    if h.complete && !(P.tiles.any fun t => !s.tfence.contains t &&
        (0xD8#8 ++ (Config.tileStep t ++ Config.tileScan t)) == h.rev) then n + (h.image.blocks.filter fun (_, B) => B.proxy.isNone).length else n) 0

/-- TREV of a tile (R96). -/
def trevOf (t : Nat) : W32 := 0xD8#8 ++ (Config.tileStep t ++ Config.tileScan t)

/-- PSHLOG (R99). -/
def State.pshlog (s : State) (P : Part) : Word :=
  let pending := (P.sheaves.filter fun (_, h) => h.complete).length
  BitVec.ofNat 64 (min pending 65535 * 2 ^ 48 + P.refused.toNat * 2 ^ 32 + P.lastSlot.toNat * 2 ^ 24 + P.lastErr.toNat * 2 ^ 16 +
    min (s.norev P) 65535)

/-- SPSTAT (R168). -/
def Part.spstat (P : Part) : Word := BitVec.ofNat 64 (P.segFree * 2 ^ 36 + min 255 P.retired.length * 2 ^ 28)

/-- TFENCE word w as the runtime of a partition reads it (R219). -/
def State.tfenceWord (s : State) (P : Part) (w : Nat) : Word :=
  (List.range 64).foldl (fun x j =>
    if s.tfence.contains (64 * w + j) && P.hasTile (64 * w + j) then x ||| (1#64 <<< j) else x) 0

/-- FWTAB word w of a field (R48). -/
def State.fwtabWord (s : State) (k : Nat) : Word :=
  let field := k / 16
  let g0 := (field / 4) * 4096 + (field % 4) * 1024 + 64 * (k % 16)
  (List.range 64).foldl (fun x j => if s.fwtab.contains (g0 + j) then x ||| (1#64 <<< j) else x) 0

/-- The value of a listed register as an issuer reads it; a write-only register reads 0 (R363). -/
def State.sysRead (s : State) (I : Issuer) (r : SysReg) (k : Nat) : Word :=
  let S : Slice := match I.sub.low with | some (_, S) => S | none => Slice.zero 0 0 0 0 0
  let P := s.part I.block.part
  let owner := match s.ownerOf I with | some (_, _, B) => B | none => I.block
  let D := s.die (dieOf I.t)
  match r with
  | .tcause => S.tcause
  | .tepc => S.tepc
  | .tdet0 => S.tdet0.setWidth 64
  | .tdet1 => S.tdet1.setWidth 64
  | .tdet2 => S.tdet2.setWidth 64
  | .tscr0 => S.tscr0
  | .tscr1 => S.tscr1
  | .tscr2 => S.tscr2
  | .tscr3 => S.tscr3
  | .gstat => gstatOf I.gang
  | .tctl => owner.tctl
  | .bpc => kgetD I.tile.bpc k 0
  | .dcyc => D.dcyc
  | .dusec => D.dusec
  | .thstat => (s.die k).thstat
  | .gnode => s.gnode
  | .gpstat => (s.port k).stat
  | .errcnt => (s.die k).errcnt
  | .trev => (trevOf k).setWidth 64
  | .dlstat => (s.boundary k).stat
  | .psroot => match P with | some P => P.psroot | none => 0
  | .pshlog => match P with | some P => s.pshlog P | none => 0
  | .spstat => match P with | some P => P.spstat | none => 0
  | .tfence => match P with | some P => s.tfenceWord P k | none => 0
  | .fwtab => s.fwtabWord k
  | .tlbinv | .shdisc | .skreq | .unlisted _ => 0

/-- The trap an access to a system register meets (R363): group, CODE, datum. No operand code is at fault there, so the
datum's bits [39:32] are free. -/
def sysFault (s : State) (I : Issuer) (i : Instr) (r : SysReg) (k : Nat) (write : Bool) : Option (Nat × Byte × Word) :=
  let datum := wordDatum i ((Config.freeWord s.free 0).setWidth 8)
  match r with
  | .unlisted _ => some (1, 2, wordOf i)
  | _ =>
    if sysCount r ≤ k then some (2, 8, datum)
    else if (sysRuntime r && !s.runtimeRights I) || (r == .fwtab && !I.block.world) || (write && !sysWritable r) then some (2, 9, datum)
    else none

/-- SRD (R363). -/
def execSrd (d : BitVec 5) (reg : SysReg) (idx : BitVec 8) (s : State) : Out1 :=
  withOperands s (.srd d reg idx) false [.out d.toNat 1] fun s I _ _ =>
    match sysFault s I (.srd d reg idx) reg idx.toNat false with
    | some (g, c, x) => trapAt { s with free := s.free + 1 } I g c x
    | none => retire s I .other (I.sub.setS d.toNat (s.sysRead I reg idx.toNat))

/-- A write to TEPC (R208): the faulted log entries and the saved ring are discarded, and TRET resumes with depth 0. -/
def Slice.writeTepc (S : Slice) (x : Word) : Slice :=
  { S with
    tepc := x
    svDepth := 0
    lanes := S.lanes.map fun L => { L with svRing := [] }
    log := S.log.filter fun e => !e.faulted }

/-- BPC keeps its address and enable (R367). -/
def bpcMask (x : Word) : Word := x &&& 0xFFFFFFFFFFFFFFFD#64
/-- PSROOT keeps ROOT and EN (R128). -/
def psrootMask (x : Word) : Word := x &&& 0x0000FFFFFFFF8001#64
/-- HSROOT keeps ROOT [41:15] and EN (R128). -/
def hsrootMask (x : Word) : Word := x &&& 0x000003FFFFFF8001#64
/-- PSCHED keeps BINT and TSLICE (R79). -/
def pschedMask (x : Word) : Word := x &&& 0x0000FF00FFFFFFFF#64
/-- TRIPPED is cleared by writing 1 to it (R16). -/
def clearTripped (old x : Word) : Word := if x.getLsbD 10 then old &&& ~~~ 0x400#64 else old

/-- A write to a register of the slices, the block, the tile or a die (R363): all but TLBINV, SHDISC and SKREQ. -/
def State.sysWrite (s : State) (I : Issuer) (r : SysReg) (k : Nat) (x : Word) : State :=
  match r with
  | .tepc => s.setSub I.t I.u (I.sub.mapSlices fun S => S.writeTepc x)
  | .tscr0 => s.setSub I.t I.u (I.sub.mapSlices fun S => { S with tscr0 := x })
  | .tscr1 => s.setSub I.t I.u (I.sub.mapSlices fun S => { S with tscr1 := x })
  | .tscr2 => s.setSub I.t I.u (I.sub.mapSlices fun S => { S with tscr2 := x })
  | .tscr3 => s.setSub I.t I.u (I.sub.mapSlices fun S => { S with tscr3 := x })
  | .tctl => s.mapBlock (I.block.proxy.getD I.block.uid) fun B => { B with tctl := x &&& 3#64 }
  | .bpc => s.setTile I.t { s.tile I.t with bpc := kset (s.tile I.t).bpc k (bpcMask x) }
  | .thstat => s.setDie k { s.die k with thstat := clearTripped (s.die k).thstat x }
  | .psroot =>
    match s.part I.block.part with
    | some P => s.setPart I.block.part { P with psroot := psrootMask x }
    | none => s
  | _ => s

/-! ### TLBINV (R129, R130) -/

/-- The range a write to TLBINV names. -/
def tlbRange (x : Word) : Nat × Nat :=
  let size := 2 ^ (16 + 6 * bits x.toNat 15 14)
  (bits x.toNat 63 16 * 2 ^ 16, size)

/-- Whether a range is misaligned; ALL ignores it. -/
def tlbMisaligned (x : Word) : Bool := !x.getLsbD 0 && (tlbRange x).1 % (tlbRange x).2 != 0

/-- Whether a held translation belongs to a partition and overlaps the range. -/
def Part.invalidates (P : Part) (x : Word) (e : TlbEntry) : Bool :=
  let (va, size) := tlbRange x
  decide (P.vflo ≤ e.vf) && decide (e.vf ≤ P.vfhi) &&
  (x.getLsbD 0 || (decide (e.va < va + size) && decide (va < e.va + e.size)))

/-- The translations of the package that a test names. -/
def State.heldTranslations (s : State) (f : TlbEntry → Bool) : List TlbEntry :=
  (s.tiles.flatMap fun (_, T) => T.tlb.filter f) ++ s.dies.flatMap fun (_, D) => D.dtu.filter f

/-- Whether one of some translations leads to a fabric address. -/
def leadsTo (es : List TlbEntry) (fa : Nat) : Bool := es.any fun e => decide (e.out ≤ fa) && decide (fa < e.out + e.size)

/-- Drops the translations a TLBINV write names. -/
def State.tlbDrop (s : State) (p : Nat) (x : Word) : State :=
  match s.part p with
  | some P => s.dropTlbs (P.invalidates x)
  | none => s

/-- The accesses under way, not yet performed at their homes, that tiles of a partition sent to an address of some
translations: tile and name (R130). -/
def State.accessesUnder (s : State) (P : Part) (es : List TlbEntry) : List (Nat × Nat) :=
  let ofMsg : Msg → Option (Nat × Nat) := fun m =>
    match m.body.span with
    | some (pa, _) => if P.hasTile m.tile && m.flow.isNone && leadsTo es (s.node * 2 ^ 42 + pa) then some (m.tile, m.seq) else none
    | none => none
  s.wire.filterMap ofMsg ++ (s.dies.flatMap fun (_, D) => (D.inbox ++ D.outq).filterMap ofMsg) ++
  s.outs.filterMap fun o =>
    match o.owner with
    | .access t q _ => if P.hasTile t && leadsTo es (o.pk.dnode.toNat * 2 ^ 42 + o.pk.addr.toNat) then some (t, q) else none
    | _ => none

/-- The engine commands under way on a partition's tiles that were translated through some translations (R130, R307). -/
def State.commandsUnder (s : State) (P : Part) (es : List TlbEntry) : List (Nat × Nat) :=
  s.tiles.flatMap fun (t, T) =>
    if P.hasTile t then ((T.copyQ ++ T.arrayQ).filter fun c => c.pages.any fun x => leadsTo es x.2).map fun c => (t, c.id) else []

/-- Whether an access is still to be performed at its home. -/
def State.unperformed (s : State) (t q : Nat) : Bool :=
  s.wire.any (fun m => m.tile == t && m.seq == q) || s.dies.any (fun (_, D) => (D.inbox ++ D.outq).any fun m => m.tile == t && m.seq == q) ||
  s.outs.any fun o => match o.owner with | .access t' q' _ => t' == t && q' == q | _ => false

/-- Whether an invalidation still waits for an access or a command that used a dropped translation (R130). -/
def State.invalWaits (s : State) (v : Inval) : Bool :=
  v.accs.any (fun x => s.unperformed x.1 x.2) ||
  v.cmds.any fun x => ((s.tile x.1).copyQ ++ (s.tile x.1).arrayQ).any fun c => c.id == x.2

/-- SWR to TLBINV: a release of package scope for the issuer, then the drop; it completes once no access is on its way. -/
def swrTlbinv (s : State) (I : Issuer) (i : Instr) (x : Word) : Out1 :=
  if !I.sub.quiet then wait s I
  else
    becomeNonRetry s I fun s I =>
      if tlbMisaligned x then trapAt { s with free := s.free + 1 } I 2 4 (wordDatum i ((Config.freeWord s.free 0).setWidth 8))
      else
        match s.part I.block.part with
        | none => .next s
        | some P =>
          match P.inval with
          | none =>
            let es := s.heldTranslations (P.invalidates x)
            let v : Inval := ⟨I.t, I.u, s.accessesUnder P es, s.commandsUnder P es⟩
            let s := s.dropTlbs (P.invalidates x)
            wait (s.setPart I.block.part { P with inval := some v }) I
          | some _ => wait s I

/-- TLBINV completes: the sub-gang that wrote it retires (R130). -/
def State.tlbinvDone (s : State) (p : Nat) : State :=
  match s.part p with
  | none => s
  | some P =>
    match P.inval with
    | none => s
    | some v =>
      if s.invalWaits v then s
      else
        let s := s.setPart p { P with inval := none }
        match kget (s.tile v.tile).subs v.sub with
        | some U => s.setSub v.tile v.sub (U.retire .other)
        | none => s

/-- Discards the sheaf of a slot: its blocks end as unrecovered and the slot is freed (R97, R100). -/
def State.discardSheaf (s : State) (p slot : Nat) : State :=
  match s.part p with
  | none => s
  | some P =>
    match kget P.sheaves slot with
    | none => s
    | some h =>
      let bs := h.image.blocks.filter fun (_, B) => B.proxy.isNone
      let sks := h.image.blocks.filterMap fun (_, B) => B.skein
      let s := s.setPart p { P with sheaves := kdel P.sheaves slot }
      let s := sks.foldl (fun s k => s.dropSkein p k) s
      bs.foldl (fun s (_, B) =>
        let s := (s.countEnded B.grid true).countErr P.leadDie .unrecov
        match kget s.grids B.grid with
        | some G => if G.fdp.getLsbD 2 then s.failGrid B.grid else s
        | none => s) s

/-! ### TRAP, BRK, TRET (R366) -/

/-- TRAP: group 20, with the immediate; TEPC is the next instruction. -/
def execTrap (imm : BitVec 24) (s : State) : Out1 :=
  withOperands s (.trap imm) false [] fun s I _ _ =>
    .next (takeTrap (s.setSub I.t I.u { I.sub with depth := 0 }) I.t I.u ⟨20, 0, 0xFF, 0, imm.setWidth 64, false, none, I.sub.pc + 4⟩)

/-- BRK: group 12, CODE 4, with the immediate; TEPC is the next instruction. -/
def execBrk (imm : BitVec 24) (s : State) : Out1 :=
  withOperands s (.brk imm) false [] fun s I _ _ =>
    .next (takeTrap (s.setSub I.t I.u { I.sub with depth := 0 }) I.t I.u ⟨12, 4, 0xFF, 0, imm.setWidth 64, false, none, I.sub.pc + 4⟩)

/-- Whether the source of a faulted entry cannot be read yet. -/
def reissueWaits (s : State) (I : Issuer) (e : LogEntry) : Bool :=
  match memKind e.i, sourceRange s I e with
  | some (spad, k), _ => pathWaits s I spad k e.accs
  | none, some (va, n) => match readSource s I va n with | .wait => true | _ => false
  | none, none => false

/-- TRET (R208, R132): the handler is left; the faulted accesses are issued again in log order, and those that fault again
enter it anew. -/
def execTret (s : State) : Out1 :=
  withOperands s .tret false [] fun s I _ _ =>
    if !I.sub.inh then trapWord s I .tret 1 3
    else if I.sub.faultedEntries.any fun e => reissueWaits s I e then wait s I
    else
      let es := I.sub.faultedEntries
      let s := s.setSub I.t I.u I.sub.leaveHandler
      let s := es.foldl (fun s e => match s.issuer with | some I => reissue s I e | none => s) s
      .next (s.enterLogTrap I.t I.u)

end Sys2Proof.Machine
end

