-- ==== Sys2Proof/Machine/Channels.lean ====
section
/-!
DEFINITION. Block channels: SEND and RECV (21_strand_skein_instructions.md R342 to R346).
-/
namespace Sys2Proof.Machine

/-- Entries a block channel holds at most (R342). -/
def chanDepth : Nat := 32

def Block.chan (B : Block) (c : Nat) : Chan := kgetD B.chans c ⟨false, 1, []⟩

/-- Whether a channel is a link of the live skein a block owns (R342). -/
def State.isLink (s : State) (B : Block) (c : Nat) : Bool :=
  match B.skein with
  | none => false
  | some k =>
    match (s.part B.part).bind fun P => kget P.skeins k with
    | some K => K.links.any fun l => l.ch == c
    | none => false

/-- The datum of the channel cause: the word, with the channel number above it (R205). -/
def chanDatum (i : Instr) (c : Nat) : Word := wordOf i ||| (BitVec.ofNat 64 c <<< 32)

/-- SEND or RECV on a channel: its permission and channel causes, then the end of a retry, then `f` on the channel (R343,
R346). A SEND is a release and a RECV an acquire, so nothing of the issuer is pending. An operation of one entry per lane
with no active lane moves none and completes at once (R344). -/
def channelOp (s : State) (i : Instr) (lane : Bool) (us : List Use) (c : Nat) (row : Bool) (width : Nat)
    (f : State → Issuer → Win → Chan → Out1) : Out1 :=
  withOperands s i false us fun s I W _ =>
    let noAddr (x : Byte) : Out1 := trapWhole { s with free := s.free + 1 } I lane 4 x (Config.freeWord s.free 0)
    if I.gang.isStage then noAddr 7
    else if I.gang.detached then noAddr 6
    else if s.isLink I.block c then trapWhole s I lane 8 2 (chanDatum i c)
    else
      let ch := I.block.chan c
      let idle := lane && !row && I.sub.actives.isEmpty
      if !idle && !ch.entries.isEmpty && (ch.row != row || ch.width != width) then trapWhole s I lane 8 1 (chanDatum i c)
      else if !idle && !I.sub.quiet then wait s I
      else becomeNonRetry s I fun s I => f s I W (I.block.chan c)

/-- Sets a channel of the issuer's block. -/
def setChan (s : State) (I : Issuer) (c : Nat) (ch : Chan) : State :=
  s.setBlock I.t I.gang.ctx { I.block with chans := kset I.block.chans c ch }

/-- Pushes entries as one step, or waits for room (R344). -/
def pushEntries (s : State) (I : Issuer) (c : Nat) (ch : Chan) (row : Bool) (width : Nat) (es : List (List W32)) : Out1 :=
  if chanDepth < ch.entries.length + es.length then wait s I
  else if es.isEmpty then retire s I .other I.sub
  else retire (setChan s I c ⟨row, width, ch.entries ++ es⟩) I .other I.sub

/-- The item of lane j: width words from the source operand. -/
def sendItem (W : Win) (U : Sub) (r : Opnd) (width j : Nat) : List W32 :=
  match r with
  | .v r => (List.range width).map fun k => vregOf W U j (r.toNat + k)
  | o => [laneVal W 0 U o j]

/-- The use of an item operand of a lane SEND (R344). -/
def itemUse (r : Opnd) (width : Nat) : Use :=
  match r with
  | .v v => .vrun v.toNat width
  | o => if width = 1 then .src o else .group o 1

/-- SEND of the lane set (R344). -/
def execSendLane (r : Opnd) (ch : BitVec 6) (n : BitVec 2) (row : Bool) (s : State) : Out1 :=
  let width := n.toNat + 1
  channelOp s (.sendLane r ch n row) true [itemUse r width] ch.toNat row width fun s I W C =>
    let es : List (List W32) :=
      if row then
        [(List.range 32).flatMap fun j => if I.sub.active j then sendItem W I.sub r width j else List.replicate width 0]
      else I.sub.actives.map fun j => sendItem W I.sub r width j
    pushEntries s I ch.toNat C row width es

/-- RECV of the lane set (R344). -/
def execRecvLane (d : LDst) (ch : BitVec 6) (n : BitVec 2) (row : Bool) (s : State) : Out1 :=
  let width := n.toNat + 1
  channelOp s (.recvLane d ch n row) true [if d.nw then .plain d.code [] else { Use.vrun d.r.toNat width with wr := true }] ch.toNat
    row width fun s I W C =>
    let ls := I.sub.actives
    let need := if row then 1 else ls.length
    if C.entries.length < need then wait s I
    else
      let items : List (Nat × List W32) :=
        if row then
          let e := C.entries.headD []
          ls.map fun j => (j, (e.drop (j * width)).take width)
        else ls.zip C.entries
      let U := if d.nw then I.sub else items.foldl (fun U (j, ws) => writeRegs W U j d.r.toNat ws) I.sub
      let s := if need = 0 then s else setChan s I ch.toNat { C with entries := C.entries.drop need }
      retire (s.l1Clear I.t) I .other U

/-- The words of a uniform item (R345). -/
def uniItem (W : Win) (U : Sub) (r : Opnd) (width : Nat) : List W32 :=
  let lo : Word := match r with | .s v => U.sreg v.toNat | o => uniVal W 0 U o
  let hi : Word := match r with | .s v => U.sreg (v.toNat + 1) | _ => 0
  ([lo.setWidth 32, lo.extractLsb' 32 32, hi.setWidth 32, hi.extractLsb' 32 32] : List W32).take width

/-- SEND of the uniform set (R345). -/
def execSendUniform (r : Opnd) (ch : BitVec 6) (n : BitVec 2) (s : State) : Out1 :=
  let width := n.toNat + 1
  channelOp s (.sendUniform r ch n) false [if width ≤ 2 then .src r else .uniPair r 2] ch.toNat false width fun s I W C =>
    pushEntries s I ch.toNat C false width [uniItem W I.sub r width]

/-- RECV of the uniform set (R345). -/
def execRecvUniform (d : UDst) (ch : BitVec 6) (n : BitVec 2) (s : State) : Out1 :=
  let width := n.toNat + 1
  channelOp s (.recvUniform d ch n) false [.udst d (if width ≤ 2 then 1 else 2) false] ch.toNat false width fun s I _ C =>
    match C.entries with
    | [] => wait s I
    | e :: es =>
      let w := fun k => e.getD k 0
      let U := I.sub.setDst d (w 1 ++ w 0)
      let U := if d.nw || width ≤ 2 then U else U.setS (d.r.toNat + 1) (w 3 ++ w 2)
      retire ((setChan s I ch.toNat { C with entries := es }).l1Clear I.t) I .other U

end Sys2Proof.Machine
end

