-- ==== Sys2Proof/Machine/Skein.lean ====
section
/-!
DEFINITION. Skeins: descriptors, the two forms, GET, PUT and KNOT, switch requests, SKFOLD, SKSPREAD and SKQRY, the end of
a skein, and EXIT (11_skeins.md R171 to R190; 21_strand_skein_instructions.md R347 to R350; 15_uniform_instructions.md
R256).
-/
namespace Sys2Proof.Machine

/-! ### The descriptor (R171 to R173) -/

/-- A descriptor as read from memory. -/
structure SkDesc where
  form : Nat
  last : Nat
  slices : Nat
  ringBase : Nat
  save : Word
  switches : Word
  stages : List (Word × Nat)
  links : List (Nat × Nat × Nat)
  fits : Bool
  deriving DecidableEq, Repr

/-- Bytes of one row of a link (R173). -/
def rowBytes (slices item : Nat) : Nat := item * 16 * slices

/-- Bytes of a ring. -/
def ringBytes (slices depth item : Nat) : Nat := 16 + depth * rowBytes slices item

/-- The descriptor 256 bytes hold; `fits` says that every field is in range, every reserved byte is 0, and no two links
name one channel (R171, R172). -/
def SkDesc.ofBytes (b : List Byte) : SkDesc :=
  let at_ := fun o n => leNat ((b.drop o).take n)
  let zero := fun o n => ((b.drop o).take n).all (· == 0)
  let ns := at_ 4 1
  let sl := at_ 5 1
  let stages := (List.range (min ns 8)).map fun k => (BitVec.ofNat 64 (at_ (0x40 + 16 * k) 8), at_ (0x48 + 16 * k) 1)
  let links := (List.range (min ns 8 - 1)).map fun k => (at_ (0xC0 + 8 * k) 1, at_ (0xC1 + 8 * k) 1, at_ (0xC2 + 8 * k) 1)
  { form := at_ 0 1 % 16, last := at_ 0 1 / 16, slices := sl, ringBase := at_ 8 4, save := BitVec.ofNat 64 (at_ 0x10 8),
    switches := BitVec.ofNat 64 (at_ 0x18 8), stages := stages, links := links,
    fits := decide (1 ≤ ns) && decide (ns ≤ 8) && decide (1 ≤ sl) && decide (sl ≤ 8) && decide (at_ 0 1 / 16 ≤ 3) &&
      zero 1 3 && zero 6 2 && zero 12 4 && zero 0x20 32 && zero 0xF8 8 && at_ 8 4 % 16 == 0 && at_ 0x10 8 % 64 == 0 &&
      (stages.all fun (e, w) => e.toNat % 4 == 0 && decide (1 ≤ w) && decide (w ≤ 16)) &&
      ((List.range 8).all fun k => if k < ns then zero (0x49 + 16 * k) 7 else zero (0x40 + 16 * k) 16) &&
      (links.all fun (c, d, i) => decide (c < 64) && decide (1 ≤ d) && decide (d ≤ 32) && decide (1 ≤ i) && decide (i ≤ 4)) &&
      ((List.range 7).all fun k => if k + 1 < ns then zero (0xC3 + 8 * k) 5 else zero (0xC0 + 8 * k) 8) &&
      decide ((links.map (·.1)).Nodup) }

/-- The sum of the WIN values. -/
def SkDesc.wins (d : SkDesc) : Nat := d.stages.foldl (fun n st => n + st.2) 0

/-- The end of the last ring in the allotment (R173). -/
def SkDesc.ringEnd (d : SkDesc) : Nat := d.links.foldl (fun n l => n + ringBytes d.slices l.2.1 l.2.2) d.ringBase

/-- A descriptor is valid for a block with an allotment of `spad` bytes (R172). -/
def SkDesc.valid (d : SkDesc) (spad : Nat) : Bool := d.fits && (decide (16 < d.wins) || decide (d.ringEnd ≤ spad))

def Skein.wins (K : Skein) : Nat := K.stages.foldl (fun n st => n + st.win) 0

/-- The offset of ring k in the owning block's allotment. -/
def Skein.ringAt (K : Skein) (k : Nat) : Nat :=
  (K.links.take k).foldl (fun n l => n + ringBytes K.slices l.depth l.item) K.ringBase

/-! ### STATE and SWITCHES (R171, R184) -/

/-- The form STATE shows (R184). -/
def Skein.form (K : Skein) : Nat :=
  match K.sw with
  | .gathering _ _ => 2
  | .copying _ => 3
  | .unreeling | .unreelCopy => 5
  | .exporting | .exportCopy => 4
  | .none => if K.folded then 4 else 1

/-- Whether stages stop at their next knot: GATHERING, and UNREELING and EXPORTING before the knot (R184). -/
def Skein.stopping (K : Skein) : Bool :=
  match K.sw with
  | .gathering _ _ | .unreeling | .exporting => true
  | _ => false

/-- Whether a stage has exited. -/
def Stage.gone (st : Stage) : Bool := st.place == .exited

def State.skein (s : State) (p k : Nat) : Option Skein := (s.part p).bind fun P => kget P.skeins k

def State.setSkein (s : State) (p k : Nat) (K : Skein) : State :=
  match s.part p with
  | some P => s.setPart p { P with skeins := kset P.skeins k K }
  | none => s

/-- The world of a tile. -/
def State.worldOf (s : State) (t : Nat) : Bool := (s.tile t).world

/-- Bytes from a fabric address in pieces that end at line boundaries. -/
def linesFrom : Nat → Nat → List Byte → List (Nat × List Byte)
  | 0, _, _ => []
  | f + 1, fa, bs =>
    if bs.isEmpty then [] else (fa, bs.take (128 - fa % 128)) :: linesFrom f (fa + (128 - fa % 128)) (bs.drop (128 - fa % 128))

/-- The device writes bytes at a fabric address on behalf of a block: at their home, or as packets, one for each line. -/
def State.deviceWriteAt (s : State) (t vf fa : Nat) (bs : List Byte) : State :=
  if fa / 2 ^ 42 = s.node ∧ (security s (s.worldOf t) (fa % 2 ^ 42)).isSome then s
  else if fa / 2 ^ 42 = s.node then s.deviceWrite (dieOf t) (fa % 2 ^ 42) bs
  else (linesFrom (bs.length / 128 + 2) fa bs).foldl (fun s x =>
    (s.request (dieOf t) 65 (nodePacket vf (s.worldOf t) x.1 (.write (x.1 % 2 ^ 42) x.2)) .none).tryLast) s

/-- Writes STATE of a skein with a form. -/
def State.writeForm (s : State) (K : Skein) (form : Nat) : State :=
  s.deviceWriteAt K.tile K.vf K.descPa (natLe 4 (form + 16 * K.last))

/-- Writes STATE of a skein as it stands. -/
def State.writeState (s : State) (K : Skein) : State := s.writeForm K K.form

/-- Writes SWITCHES. -/
def State.writeSwitches (s : State) (K : Skein) : State :=
  s.deviceWriteAt K.tile K.vf (K.descPa + 0x18) (natLe 8 K.switches.toNat)

/-- Changes a skein and writes its STATE. -/
def State.updateSkein (s : State) (p k : Nat) (K : Skein) : State := (s.setSkein p k K).writeState K

/-! ### Slices of stages -/

/-- The slices of a stage at its ENTRY (R175): registers and predicates 0, every mask full, s0 to s2 as at a block's
beginning; the spec gives s3 to s31 no value there. -/
def entrySlices (B : Block) (n stage seed : Nat) : KMap Slice :=
  (List.range n).map fun i =>
    (i, { Slice.zero 0 (32 + stage) B.rcd.args (BitVec.ofNat 64 B.index) (BitVec.ofNat 64 B.rcd.grid) with fill := .free seed })

/-- Uniform registers after GET, PUT and KNOT: s3 to s31 are undefined (R175). -/
def Slice.loseUniform (S : Slice) (seed : Nat) : Slice :=
  { S with s := (List.range 3).map fun r => (r, S.sreg r), fill := .free seed, bad := S.bad.filter (· < 3) }

/-- A lane after a switch: registers outside the live groups of the window at `base` are undefined (R183). -/
def Lane.keepLive (L : Lane) (base win : Nat) (live : BitVec 16) (seed : Nat) : Lane :=
  { L with
    v := (List.range (8 * win)).filterMap fun r => if live.getLsbD (r / 8) then some (base + r, L.reg (base + r)) else none
    fill := .free seed
    bad := L.bad.filter fun r => decide (base ≤ r) && decide (r < base + 8 * win) && live.getLsbD ((r - base) / 8) }

/-- A lane's window moved from one base to another. -/
def Lane.moveWindow (L : Lane) (old new : Nat) : Lane :=
  { L with v := L.v.filterMap fun (r, x) => if old ≤ r then some (r - old + new, x) else none
           bad := L.bad.filterMap fun r => if old ≤ r then some (r - old + new) else none }

/-- The slices of a stage after a switch (R183, R185, R186): live registers, moved to the window's new base. A stage at its
ENTRY has none. -/
def switchSlices (st : Stage) (old new seed : Nat) (slices : KMap Slice) : KMap Slice :=
  kmap slices fun i S =>
    { S.loseUniform (seed + 64) with
      lanes := S.lanes.zipIdx.map fun (L, j) =>
        (L.keepLive old st.win st.live (seed + 4 * i + j)).moveWindow old new }

/-- The slices of a resumed stage in the folded gang (R180): masks, mask stacks, predicates and the window are the stage's;
the trap registers and slice numbers are those of the gang's slices. -/
def resumeSlices (T : Tile) (cur saved : KMap Slice) (seed : Nat) : KMap Slice :=
  let fresh := T.freePos saved.length
  saved.zipIdx.map fun ((i, S), q) =>
    let S' := match kget cur i with
      | some C => { C with mask := S.mask, live := S.live, stack := S.stack, lanes := S.lanes, log := S.log, s := S.s, fill := S.fill }
      | none => { S with pos := fresh.getD q 0 }
    (i, S'.loseUniform seed)

/-- Sets a stage of a skein. -/
def Skein.setStage (K : Skein) (n : Nat) (st : Stage) : Skein := { K with stages := K.stages.set n st }
def Skein.setLink (K : Skein) (n : Nat) (l : SkLink) : Skein := { K with links := K.links.set n l }

/-- The whole window as a live set (R183). -/
def Stage.all (st : Stage) : BitVec 16 := BitVec.ofNat 16 (2 ^ st.win - 1)

/-- Transfers control of the folded gang from the running stage, already saved, to stage n (R180). -/
def State.transferTo (s : State) (t u p k n : Nat) : State :=
  match s.skein p k, kget (s.tile t).subs u with
  | some K, some U =>
    match K.stages[n]? with
    | none => s
    | some st =>
      let slices := resumeSlices (s.tile t) U.slices st.slices s.free
      let U' := { Sub.start U.gang st.pc slices s.stamp with reports := U.reports }
      { (s.setSkein p k { K with run := n }).setSub t u U' with free := s.free + 1, stamp := s.stamp + 1 }
  | _, _ => s

/-! ### Rings (R173) -/

/-- HEAD, TAIL and EOS of a ring. -/
def Block.ring (B : Block) (off : Nat) : Nat × Nat × Nat := (B.spadLe off 4, B.spadLe (off + 4) 4, B.spadLe (off + 8) 4)

def Block.setWord (B : Block) (off x : Nat) : Block := B.setSpad off (natLe 4 x)

/-- The words of a row in slot q of a ring. -/
def Block.ringRow (B : Block) (off row q : Nat) : List W32 :=
  (List.range (row / 4)).map fun k => BitVec.ofNat 32 (B.spadLe (off + 16 + q * row + 4 * k) 4)

def Block.putRow (B : Block) (off row q : Nat) (ws : List W32) : Block :=
  B.setSpad (off + 16 + q * row) (ws.flatMap fun w => natLe 4 w.toNat)

/-- Writes a whole ring: its header and rows from slot 0 (R185). -/
def Block.fillRing (B : Block) (off row : Nat) (rows : List (List W32)) (eos : Bool) : Block :=
  rows.zipIdx.foldl (fun B (ws, q) => B.putRow off row q ws)
    (B.setSpad off (natLe 4 0 ++ natLe 4 rows.length ++ natLe 4 (if eos then 1 else 0) ++ natLe 4 0))

/-- The rows a ring holds, head first (R186). -/
def Block.ringRows (B : Block) (off row depth : Nat) : List (List W32) :=
  let (h, t, _) := B.ring off
  (List.range (min depth ((t + 2 ^ 32 - h) % 2 ^ 32))).map fun q => B.ringRow off row ((h + q) % depth)

/-! ### GET, PUT, KNOT (R178 to R180, R183, R347, R348) -/

/-- The uses of the item operand of GET and PUT: lane registers, checked against the window later (R347). -/
def itemUses (I : Issuer) (r : Opnd) (n : Nat) (wr : Bool) : List Use :=
  match r with
  | .v x => [{ Use.vrun x.toNat n with cnt := if I.gang.isStage then 0 else n, wr := wr }]
  | .res c => [.reserved c]
  | o => [.bad o.code]

/-- The first lane register of an item operand. -/
def itemReg (r : Opnd) : Nat := match r with | .v x => x.toNat | _ => 0

/-- A trap of the skein cause: the datum is the descriptor's address (R177, R205). -/
def trapSkein (s : State) (I : Issuer) (K : Skein) (code : Byte) : Out1 := trapAt s I 16 code K.desc

/-- The partition and name of the skein an issuer's gang belongs to. -/
def Gang.skeinName (G : Gang) : Option (Nat × Nat) :=
  match G.kind with
  | .stage p k _ | .folded p k => some (p, k)
  | _ => none

/-- Runs a skein instruction on the issuer's skein and stage; any other gang traps (code 6), with a free datum (log 6). -/
def inStage (s : State) (I : Issuer) (f : Nat → Nat → Skein → Nat → Stage → Out1) : Out1 :=
  match I.gang.skeinName, s.skeinOf I.gang.kind, s.stageOf I.gang.kind with
  | some (p, k), some K, some (n, st) => f p k K n st
  | _, _, _ => trapNoAddr s I 16 6

/-- Whether the issuer is what remains of its whole gang. -/
def wholeGang (I : Issuer) : Bool := decide ((I.tile.subsOf I.sub.gang).length ≤ 1)

/-- A stage stops at a knot (R183, R184): its accesses are performed first; it is held until the switch is over. -/
def stopAtKnot (s : State) (I : Issuer) (p k : Nat) (K : Skein) (n : Nat) (st : Stage) (kind : Nat) (live : BitVec 16) : Out1 :=
  if !I.sub.quiet then wait s I
  else
    let st := { st with stop := kind, live := live, pc := I.sub.pc, atKnot := true }
    let sw := match K.sw with | .unreeling => .unreelCopy | .exporting => .exportCopy | x => x
    wait (s.setSkein p k { K.setStage n st with sw := sw }) I

/-- Retires a GET, PUT or KNOT. -/
def retireSk (s : State) (I : Issuer) (U : Sub) : Out1 :=
  retire { s with free := s.free + 1 } I .other (U.mapSlices fun S => S.loseUniform s.free)

/-- The folded gang leaves stage n at its GET or PUT and transfers to another stage (R180). -/
def leaveStage (s : State) (I : Issuer) (p k : Nat) (K : Skein) (n : Nat) (st : Stage) (kind next : Nat) : Out1 :=
  if !I.sub.quiet then wait s I
  else
    let st := { st with stop := kind, live := st.all, pc := I.sub.pc, slices := I.sub.slices }
    .next ((s.setSkein p k (K.setStage n st)).transferTo I.t I.u p k next)

/-- The checks GET and PUT share (R176, R177): the item's link of the skein, the whole gang, the width and the window; then
a stage stops here if a switch asks for it. -/
def linkOp (s : State) (i : Instr) (r : Opnd) (ch : BitVec 6) (n : Nat) (us : Issuer → List Use) (item : Bool) (get : Bool)
    (f : State → Issuer → Win → Nat → Nat → Skein → Nat → Stage → Nat → SkLink → Out1) : Out1 :=
  withIssuer s fun I0 =>
    withOperands s i false (us I0) fun s I W _ =>
      inStage s I fun p k K m st =>
        if !(K.links.any fun l => l.ch == ch.toNat) then trapNoAddr s I 4 7
        else
          let li := if get then m - 1 else m
          match if get && m == 0 then none else K.links[li]? with
          | none => trapSkein s I K 2
          | some l =>
            if l.ch ≠ ch.toNat then trapSkein s I K 2
            else if item && decide (8 * st.win < itemReg r + n) then trapSkein s I K 3
            else if !get && st.eos then trapSkein s I K 4
            else if !wholeGang I then trapSkein s I K 5
            else if item && n != l.item then trapSkein s I K 7
            else if K.stopping then stopAtKnot s I p k K m st (if get then 1 else 2) st.all
            else f s I W p k K m st li l

/-- GET writes a row's parts into the active lanes, and the predicate of every lane (R178). -/
def takeRow (W : Win) (U : Sub) (lanes r n : Nat) (pm : BitVec 3) (row : Option (List W32)) : Sub :=
  let U := match row with
    | some ws => U.actives.foldl (fun U j => writeRegs W U j r ((List.range n).map fun k => ws.getD (lanes * k + j) 0)) U
    | none => U
  U.span.foldl (fun U j => U.mapLane j fun L => L.setPred pm.toNat row.isSome) U

/-- GET (R178 to R180, R347). -/
def execGet (r : Opnd) (ch : BitVec 6) (n : BitVec 2) (pm : BitVec 3) (s : State) : Out1 :=
  let width := n.toNat + 1
  linkOp s (.get r ch n pm) r ch width (fun I => itemUses I r width true ++ [.prd pm]) true true
    fun s I W p k K m st li l =>
      let lanes := 4 * K.slices
      let dst := itemReg r
      let done := fun (s : State) (row : Option (List W32)) => retireSk s I (takeRow W I.sub lanes dst width pm row)
      if K.folded then
        let off := K.ringAt li
        let row := rowBytes K.slices l.item
        let (h, t, eos) := I.block.ring off
        if h ≠ t then
          let B := I.block.setWord off (h + 1)
          done (s.setBlock I.t I.gang.ctx B) (some (I.block.ringRow off row (h % l.depth)))
        else if eos ≠ 0 then done s none
        else leaveStage s I p k K m st 1 (m - 1)
      else
        match l.rows with
        | [] => wait s I
        | none :: _ => done s none
        | some ws :: rest => done (s.setSkein p k (K.setLink li { l with rows := rest, notices := l.notices + 1 })) (some ws)

/-- Whether the stage at an end of a link is not held by a freeze (R92): its gang stands on a tile that runs, or it is not yet
placed. -/
def State.stageOpen (s : State) (st : Stage) : Bool :=
  match st.place with
  | .gang t g => (s.tile t).mode == .run && (kget (s.tile t).gangs g).isSome
  | .unplaced => true
  | _ => false

/-- The row a PUT builds: the named registers of the active lanes, 0 in every other lane (R178). -/
def buildRow (W : Win) (U : Sub) (lanes r n : Nat) : List W32 :=
  (List.range n).flatMap fun k => (List.range lanes).map fun j => if U.active j then vregOf W U j (r + k) else 0

/-- PUT and PUT.eos (R178 to R180, R347): a row for a held endpoint waits at the sender's NI and takes no credit (R92). -/
def execPut (r : Opnd) (ch : BitVec 6) (n : BitVec 2) (eos : Bool) (s : State) : Out1 :=
  let width := n.toNat + 1
  linkOp s (.put r ch n eos) r ch width (fun I => if eos then [] else itemUses I r width false) (!eos) false
    fun s I W p k K m st li l =>
      let row := buildRow W I.sub (4 * K.slices) (itemReg r) width
      let K1 := if eos then K.setStage m { st with eos := true } else K
      let gone := match K.stages[m + 1]? with | some c => c.gone | none => true
      if gone then retireSk (s.setSkein p k K1) I I.sub
      else if K.folded then
        let off := K.ringAt li
        let (h, t, _) := I.block.ring off
        if eos then retireSk ((s.setSkein p k K1).setBlock I.t I.gang.ctx (I.block.setWord (off + 8) 1)) I I.sub
        else if (t + 2 ^ 32 - h) % 2 ^ 32 < l.depth then
          let B := (I.block.putRow off (rowBytes K.slices l.item) (t % l.depth) row).setWord (off + 4) (t + 1)
          retireSk (s.setBlock I.t I.gang.ctx B) I I.sub
        else leaveStage s I p k K m st 2 (m + 1)
      else
        let x := if eos then none else some row
        let credit := if eos then 0 else 1
        let held := !l.waiting.isEmpty || !(match K.stages[m + 1]? with | some c => s.stageOpen c | none => true)
        if !eos && decide (l.credits ≤ (l.waiting.filter Option.isSome).length) then wait s I
        else if held then retireSk (s.setSkein p k (K1.setLink li { l with waiting := l.waiting ++ [x] })) I I.sub
        else retireSk (s.setSkein p k (K1.setLink li { l with credits := l.credits - credit, flight := l.flight ++ [x] })) I I.sub

/-- KNOT (R183, R348). -/
def execKnot (g h : BitVec 8) (s : State) : Out1 :=
  withOperands s (.knot g h) false [] fun s I _ _ =>
    inStage s I fun p k K m st =>
      let live : BitVec 16 := h ++ g
      if 2 ^ st.win ≤ live.toNat then trapSkein s I K 3
      else if !wholeGang I then trapSkein s I K 5
      else if K.stopping then stopAtKnot s I p k K m st 3 live
      else retireSk s I I.sub

/-! ### Switch requests (R184, R187, R188) -/

/-- The tile, sub-gang name and sub-gang of a stage's gang. -/
def State.stageSub (s : State) (st : Stage) : Option (Nat × Nat × Sub) :=
  match st.place with
  | .gang t g => ((s.tile t).subsOf g).head?.map fun (u, U) => (t, u, U)
  | _ => none

/-- Whether a gang of a skein stands on a tile that does not run. -/
def State.skeinFrozen (s : State) (K : Skein) : Bool :=
  decide ((s.tile K.tile).mode ≠ .run) || (s.findBlock K.uid).isNone ||
  K.stages.any fun st => match st.place with | .gang _ _ => !s.stageOpen st | _ => false

/-- Whether the owning tile has room for the folded gang, counting what stage gangs there will release (R188). -/
def State.foldRoom (s : State) (t slices regs : Nat) (here : List Stage) : Bool :=
  decide (s.slicesTaken t + slices ≤ 128 + slices * here.length) &&
  decide (s.regsTaken t + regs ≤ 65536 + stageRegs slices here)

/-- The result code of a reel request for a live skein (R187). -/
def State.reelCode (s : State) (K : Skein) : Nat :=
  match K.sw with
  | .unreeling | .unreelCopy => 3
  | .gathering _ _ | .copying _ | .exporting | .exportCopy => 1
  | .none =>
    if K.folded then 1
    else if 16 < K.wins then 2
    else if s.skeinFrozen K then 3
    else if s.foldRoom K.tile K.slices (stageRegs K.slices K.stages) (K.stagesOn K.tile) then 0
    else 4

/-- The result code of an unreel or export request for a live skein (R187, R190). -/
def State.unreelCode (s : State) (K : Skein) : Nat :=
  match K.sw with
  | .unreeling | .unreelCopy => 1
  | .gathering _ _ | .copying _ | .exporting | .exportCopy => 3
  | .none => if !K.folded then 1 else if s.skeinFrozen K then 3 else 0

/-- The instruction counts of a gang's slices start again at a request (R184). -/
def State.resetCounts (s : State) (t g : Nat) : State :=
  let T := s.tile t
  s.setTile t { T with subs := kmap T.subs fun _ U =>
    if U.gang == g then U.mapSlices fun S => { S with knotCount := 0 } else U }

/-- A stage that has issued nothing since its ENTRY, and stands before it, sits at a knot (R183); the issuer of the request does
not, and a gang that has entered its trap handler does not. -/
def State.atEntry (s : State) (by_ : Option Nat) (t g : Nat) (st : Stage) : Bool :=
  st.stop == 0 && by_ != some g && (match ((s.tile t).subsOf g).head? with | some (_, U) => U.pc == st.entry && !U.inh | none => false)

/-- A reel begins: GATHERING (R184). -/
def State.startReel (s : State) (p k : Nat) (K : Skein) (byDist export_ : Bool) (by_ : Option Nat) : State :=
  let stages := K.stages.map fun st =>
    match st.place with
    | .unplaced => { st with atKnot := true }
    | .gang t g => if s.atEntry by_ t g st then { st with atKnot := true, live := 0, pc := st.entry } else st
    | _ => st
  let s := s.updateSkein p k { K with sw := .gathering byDist export_, stages := stages }
  K.stages.foldl (fun s st => match st.place with | .gang t g => s.resetCounts t g | _ => s) s

/-- An unreel or export begins (R184, R190): the running stage stops at its next knot. -/
def State.startUnreel (s : State) (p k : Nat) (K : Skein) (export_ : Bool) (by_ : Option Nat) : State :=
  let now := match K.stages[K.run]?, K.foldGang with
    | some st, some g => s.atEntry by_ K.tile g st
    | _, _ => false
  let K := match K.stages[K.run]? with
    | some st => if now then K.setStage K.run { st with atKnot := true, live := 0, pc := st.entry } else K
    | none => K
  let sw : Switch := match export_, now with
    | false, false => .unreeling | false, true => .unreelCopy | true, false => .exporting | true, true => .exportCopy
  let K := { K with sw := sw }
  let s := if export_ then s.setSkein p k K else s.updateSkein p k K
  match K.foldGang with
  | some g => s.resetCounts K.tile g
  | none => s

/-- A switch or export that has not begun its copy is dropped (R184): the stopped stages resume. -/
def State.skeinAbort (s : State) (p k last : Nat) : State :=
  match s.skein p k with
  | none => s
  | some K =>
    if K.stopping then
      s.updateSkein p k { K with sw := .none, last := last, stages := K.stages.map fun st => { st with atKnot := false } }
    else s

/-- Whether the switch of a skein has timed out (R184): a slice has counted 4,096 instructions while its stage does not
sit at a knot. -/
def State.skeinTimedOut (s : State) (K : Skein) : Bool :=
  let full : Nat → Nat → Bool := fun t g => ((s.tile t).subsOf g).any fun (_, U) => U.slices.any fun (_, S) => decide (4096 ≤ S.knotCount)
  K.stopping &&
  ((K.stages.any fun st => !st.atKnot && (match st.place with | .gang t g => full t g | _ => false)) ||
   (match K.foldGang, K.stages[K.run]? with | some g, some st => !st.atKnot && full K.tile g | _, _ => false))

/-- The stage a gang runs has issued an instruction: its slices count it, and it has left its ENTRY (R184). `n` is the
stage that ran before the instruction, `one` what it counts: a request itself counts 0. -/
def State.countIssue (s : State) (t u : Nat) (kind : GangKind) (n one : Nat) : State :=
  let go := fun p k =>
    let s := match s.skein p k with
      | some K =>
        match K.stages[n]? with
        | some st => if st.atKnot || (K.folded && K.run != n) || st.gone then s else s.setSkein p k (K.setStage n { st with stop := 4 })
        | none => s
      | none => s
    match kget (s.tile t).subs u with
    | some U => s.setSub t u (U.mapSlices fun S => { S with knotCount := S.knotCount + one })
    | none => s
  match kind with
  | .stage p k _ => go p k
  | .folded p k => go p k
  | _ => s

/-! ### Starting a skein (R174, R190) -/

/-- Bytes of device data at a virtual address, page by page; what cannot be read is free (R190 states no fate). -/
def State.devBytes (s : State) (t vf : Nat) (world : Bool) (seed : Nat) : Nat → Word → Nat → List Byte
  | 0, _, _ => []
  | f + 1, va, n =>
    if n = 0 then []
    else
      let m := min n (65536 - va.toNat % 65536)
      let bs := match devRead s t vf world va m .read with
        | .ok (_, bs) => bs
        | .error _ => (List.range m).map fun k => (Config.freeWord seed k).setWidth 8
      bs ++ s.devBytes t vf world seed f (va + BitVec.ofNat 64 m) (n - m)

/-- Writes device data at a virtual address, page by page; a page that cannot be written takes none of it (R190). -/
def State.devPut (s : State) (t vf : Nat) (world : Bool) : Nat → Word → List Byte → State
  | 0, _, _ => s
  | f + 1, va, bs =>
    if bs.isEmpty then s
    else
      let m := min bs.length (65536 - va.toNat % 65536)
      let s := match check s t vf world va .write 1 with
        | .ok (fa, _) => s.deviceWriteAt t vf fa (bs.take m)
        | .error _ => s
      State.devPut s t vf world f (va + BitVec.ofNat 64 m) (bs.drop m)

/-- The mask stack a save area's slice record holds. -/
def stackOf (n w : Nat) : List (BitVec 4) := (List.range (min n 16)).map fun i => BitVec.ofNat 4 (w / 2 ^ (4 * i))

/-- Stage n of a save area (R190): the window at `base`, from the bytes of the area. -/
def Stage.ofSave (st : Stage) (B : Block) (slices n base seed : Nat) (img : List Byte) : Stage :=
  let at_ := fun o m => leNat ((img.drop o).take m)
  let o := 0x40 + 144 * n
  let gone := at_ (o + 8) 1 % 2 == 1
  let stop := at_ (o + 8) 1 / 2 % 4
  let sl : KMap Slice := kmap (entrySlices B slices n seed) fun i S =>
    let r := o + 16 + 16 * i
    let mask := BitVec.ofNat 4 (at_ r 1)
    { S with
      mask := mask
      stack := stackOf (at_ (r + 1) 1) (at_ (r + 2) 8)
      lanes := S.lanes.zipIdx.map fun (L, j) =>
        { L with
          p := BitVec.ofNat 8 (at_ (r + 10 + j) 1 % 128 * 2 + 1)
          v := (List.range (8 * st.win)).map fun q => (base + q, BitVec.ofNat 32 (at_ (0x4C0 + 128 * (base + q) + 4 * (4 * i + j)) 4)) } }
  { st with place := if gone then .exited else .folded, pc := BitVec.ofNat 64 (at_ o 8), stop := stop, live := st.all, slices := sl }

/-- The slices of a folded gang that starts or resumes at a stage, in free places of its tile. -/
def Tile.placeSlices (T : Tile) (saved : KMap Slice) : KMap Slice :=
  let ps := T.freePos saved.length
  saved.zipIdx.map fun ((i, S), q) => (i, { S with pos := ps.getD q 0 })

/-- Creates the folded gang of a skein on its owning tile, at stage n. -/
def State.makeFolded (s : State) (p k : Nat) (K : Skein) (n : Nat) : State :=
  match K.stages[n]? with
  | none => s
  | some st =>
    let T := s.tile K.tile
    let g := s.nextId
    let G : Gang := { ctx := K.ctx, kind := .folded p k, ix := 32, feeder := false, detached := false, total := K.slices,
                      retry := .never, bud := s.budOf (match kget T.blocks K.ctx with | some B => B.grid | none => 0), rebin := none }
    let U := Sub.start g st.pc (T.placeSlices st.slices) s.stamp
    let T := { T with gangs := kset T.gangs g G, subs := kset T.subs (g + 1) U }
    ({ s.setTile K.tile T with nextId := g + 2, stamp := s.stamp + 1 }).setSkein p k { K with foldGang := some g, run := n, folded := true }

/-- Starts a skein for a block (R174, R190): stage gangs still to be placed, or a folded gang; form 6 restarts from the save
area and continues as COPYING does. -/
def State.startSkein (s : State) (p : Nat) (B : Block) (t ctx : Nat) (va : Word) (fa : Nat) (d : SkDesc) (fold : Bool) : State :=
  let k := s.nextId
  let restart := d.form == 6
  let stage : Nat → Word × Nat → Stage := fun n (e, w) =>
    { entry := e, win := w, place := if fold then .folded else .unplaced, pc := e, stop := 0, live := 0,
      slices := entrySlices B d.slices n (s.free + n), eos := false, atKnot := false }
  let sts := d.stages.zipIdx.map fun (x, n) => stage n x
  let links : List SkLink := d.links.map fun (c, dp, it) =>
    { ch := c, depth := dp, item := it, rows := [], flight := [], waiting := [], credits := 0, notices := 0, made := false }
  let K : Skein := { desc := va, descPa := fa, vf := B.vf, tile := t, ctx := ctx, uid := B.uid, slices := d.slices,
                     ringBase := d.ringBase, save := d.save, last := if restart then d.last else 0, switches := d.switches,
                     folded := fold, foldGang := none, run := 0, sw := .none, stages := sts, links := links, freezeDefer := [] }
  let s := { s with nextId := k + 1, free := s.free + 16 }
  let s := s.mapBlock B.uid fun B => { B with skein := some k, lastSkein := some (BitVec.ofNat 64 fa) }
  if !fold then s.updateSkein p k K
  else if restart then
    let ringEnd := d.ringEnd
    let img := s.devBytes t B.vf (s.worldOf t) s.free 16 d.save (0x44C0 + (ringEnd - d.ringBase))
    let s := { s with free := s.free + 1 }
    let sts := K.stages.zipIdx.map fun (st, n) => st.ofSave B d.slices n (windowBase K.stages n) (s.free + n) img
    let s := { s with free := s.free + 16 }
    let B' := B.setSpad d.ringBase (img.drop 0x44C0)
    let sts := sts.zipIdx.map fun (st, n) =>
      { st with eos := decide (n + 1 < sts.length) && (B'.ring (K.ringAt n)).2.2 != 0 }
    let nxt := leNat ((img.drop 4).take 1)
    let live := fun n => match sts[n]? with | some st => !st.gone | none => false
    let run := if live nxt then nxt else ((List.range sts.length).find? live).getD 0
    let K := { K with stages := sts.zipIdx.map fun (st, n) => { st with atKnot := n == run }, sw := .copying false }
    let s := s.mapBlock B.uid fun B => B.setSpad d.ringBase (img.drop 0x44C0)
    let s := s.makeFolded p k K run
    match s.skein p k with
    | some K => s.writeState K
    | none => s
  else
    let s := s.mapBlock B.uid fun B => d.links.zipIdx.foldl (fun B (_, n) => B.setSpad (K.ringAt n) (List.replicate 16 0)) B
    let s := s.makeFolded p k K 0
    match s.skein p k with
    | some K => s.writeState K
    | none => s

/-- The live skein of a partition whose descriptor lies at a fabric address. -/
def Part.skeinAt (P : Part) (fa : Nat) : Option (Nat × Skein) := P.skeins.find? fun (_, K) => K.descPa == fa

/-- SKFOLD or SKSPREAD once its descriptor has been read and is acceptable (R172, R174, R187): the state and the result
code. -/
def State.skeinAct (s : State) (p : Nat) (P : Part) (B : Block) (t ctx g : Nat) (va : Word) (fa : Nat) (d : SkDesc) (fold : Bool) :
    State × Nat :=
  let request := fun k (K : Skein) =>
    if fold then
      let c := s.reelCode K
      if c = 0 then (s.startReel p k K false false (some g), 0) else (s, c)
    else
      let c := s.unreelCode K
      if c = 0 then (s.startUnreel p k K false (some g), 0) else (s, c)
  if d.form = 0 ∨ d.form = 6 then
    match B.skein.bind fun k => kget P.skeins k with
    | some K => (s, if K.descPa = fa then 1 else 5)
    | none =>
      if fold && decide (16 < d.wins) then (s, 2)
      else if fold && !s.foldRoom t d.slices (32 * d.slices * d.wins) [] then (s, 4)
      else if d.form = 6 ∧ ¬ fold then (s, 7)
      else (s.startSkein p B t ctx va fa d fold, 0)
  else if d.form = 7 then
    if B.lastSkein = some (BitVec.ofNat 64 fa) then
      match B.skein.bind fun k => (kget P.skeins k).map fun K => (k, K) with
      | some (k, K) => if K.descPa = fa then request k K else (s, 6)
      | none => (s, 6)
    else (s, 7)
  else
    match P.skeinAt fa with
    | some (k, K) => if K.uid = B.uid then request k K else (s, 7)
    | none => (s, 7)

/-- SKFOLD and SKSPREAD (R349). -/
def skeinSwitch (s : State) (i : Instr) (d : UDst) (a : Opnd) (fold : Bool) : Out1 :=
  withOperands s i false [.src a, .udst d 1 false] fun s I W _ =>
    let va := uniVal W 0 I.sub a
    match check s I.t I.block.vf I.block.world va .read 1 with
    | .error c => trapAt s I c.group c.code c.datum
    | .ok _ =>
      match check s I.t I.block.vf I.block.world va .write 1 with
      | .error c => trapAt s I c.group c.code c.datum
      | .ok (fa, e) =>
        if va.toNat % 256 ≠ 0 then trapAt s I 16 1 va
        else if I.sub.acquirePending || I.sub.overlapsPending false 256 ⟨none, va, 0, 0, false, .pending⟩ then wait s I
        else
          becomeNonRetry (s.fillTlb I.t e) I fun s I =>
            match readSource s I va 256, s.ownerOf I, s.part I.block.part with
            | .fault c, _, _ => trapAt s I c.group c.code c.datum
            | .ok s bs, some (t, ctx, B), some P =>
              let desc := SkDesc.ofBytes bs
              if 8 ≤ desc.form ∨ ((desc.form = 0 ∨ desc.form = 6) ∧ ¬ desc.valid (B.rcd.spad * 4096)) then trapAt s I 16 1 va
              else
                let (s, code) := s.skeinAct I.block.part P B t ctx I.sub.gang va fa desc fold
                again s fun s I => retire s I .other (I.sub.setDst d (BitVec.ofNat 64 code))
            | _, _, _ => wait s I

/-- SKFOLD. -/
def execSkfold (d : UDst) (a : Opnd) (s : State) : Out1 := skeinSwitch s (.skfold d a) d a true

/-- SKSPREAD. -/
def execSkspread (d : UDst) (a : Opnd) (s : State) : Out1 := skeinSwitch s (.skspread d a) d a false

/-- SKQRY: a 4-byte load with acquire order at package scope (R349). -/
def execSkqry (d : UDst) (a : Opnd) (s : State) : Out1 :=
  withOperands s (.skqry d a) false [.src a, .udst d 1 false] fun s I W _ =>
    let va := uniVal W 0 I.sub a
    match check s I.t I.block.vf I.block.world va .read 4 with
    | .error c => trapAt s I c.group c.code c.datum
    | .ok (_, e) =>
      if I.sub.acquirePending || I.sub.overlapsPending false 4 ⟨none, va, 0, 0, false, .pending⟩ then wait s I
      else
        match readSource (s.fillTlb I.t e) I va 4 with
        | .fault c => trapAt s I c.group c.code c.datum
        | .wait => wait s I
        | .ok s bs =>
          let x := leNat (overlayHeld s I va bs)
          again (s.l1Clear I.t) fun s I => retire s I .other (I.sub.setDst d (BitVec.ofNat 64 x))

/-! ### The end of a stage and of a skein (R178, R180, R182) -/

/-- A skein ends with a last form: STATE is written, its gangs end, and its owner has none (R182, R190). -/
def State.endSkein (s : State) (p k : Nat) (K : Skein) (form : Nat) : State :=
  let s := s.writeForm K form
  let s := s.mapBlock K.uid fun B => { B with skein := none }
  (s.dropSkein p k).settleTile K.tile

/-- Whether STATE of a skein can be written now (R146, R91). -/
def State.stateOpen (s : State) (K : Skein) : Bool := s.deviceOpen (dieOf K.tile) K.descPa

/-- The stage a folded gang turns to when stage n exits: the nearest live stage above, else the nearest below (R180). -/
def Skein.nextStage (K : Skein) (n : Nat) : Option Nat :=
  let live := fun m => match K.stages[m]? with | some st => !st.gone | none => false
  match (List.range K.stages.length).find? fun m => decide (n < m) && live m with
  | some m => some m
  | none => (List.range n).reverse.find? live

/-- Stage n of a skein executes EXIT with the last of its slices (R178, R180, R182). -/
def stageExit (s : State) (I : Issuer) (p k : Nat) (K : Skein) (n : Nat) (st : Stage) : Out1 :=
  let push := decide (n + 1 < K.stages.length) && !st.eos
  let K1 := K.setStage n { st with place := .exited, eos := true, atKnot := false, slices := [] }
  match K1.nextStage n with
  | none => if s.stateOpen K then .next ((s.leaveGang I.t I.u).setSkein p k K1 |>.endSkein p k K1 7) else wait s I
  | some m =>
    if K.folded then
      let s := if push then s.setBlock I.t I.gang.ctx (I.block.setWord (K.ringAt n + 8) 1) else s
      let s := (s.setSkein p k K1).transferTo I.t I.u p k m
      -- a switch that waits for a knot finds the resumed stage at one
      if K.stopping then
        match s.skein p k with
        | some K2 =>
          match K2.stages[m]? with
          | some st2 =>
            .next (s.setSkein p k { K2.setStage m { st2 with atKnot := true } with
              sw := match K2.sw with | .unreeling => .unreelCopy | .exporting => .exportCopy | x => x })
          | none => .next s
        | none => .next s
      else .next s
    else
      let K1 := match K1.links[n]? with
        | some l =>
          if !push then K1
          else if l.waiting.isEmpty && (match K.stages[n + 1]? with | some c => c.gone || s.stageOpen c | none => true) then
            K1.setLink n { l with flight := l.flight ++ [none] }
          else K1.setLink n { l with waiting := l.waiting ++ [none] }
        | none => K1
      .next ((s.setSkein p k K1).leaveGang I.t I.u)

/-- EXIT (R256). -/
def execExit (s : State) : Out1 :=
  withOperands s .exit false [] fun s I _ _ =>
    if !I.sub.logsEmpty then wait s I
    else if !wholeGang I then .next (s.leaveGang I.t I.u)
    else
      match I.gang.skeinName, s.skeinOf I.gang.kind, s.stageOf I.gang.kind with
      | some (p, k), some K, some (n, st) => stageExit s I p k K n st
      | _, _, _ => commitPoint s I fun s I => .next (s.leaveGang I.t I.u)

/-! ### Requests of the runtime and the distributor (R187, R190) -/

/-- A request on a skein that follows the conditions of SKFOLD and SKSPREAD, dropped unless they give code 0. -/
def State.reelRequest (s : State) (p k : Nat) (byDist export_ : Bool) : State :=
  match s.skein p k with
  | some K => if s.reelCode K = 0 then s.startReel p k K byDist export_ none else s
  | none => s

def State.unreelRequest (s : State) (p k : Nat) : State :=
  match s.skein p k with
  | some K => if s.unreelCode K = 0 ∧ K.folded then s.startUnreel p k K false none else s
  | none => s

/-- An export request: without a save area it is ignored; a spread skein is reeled first (R190). -/
def State.exportRequest (s : State) (p k : Nat) : State :=
  match s.skein p k with
  | none => s
  | some K =>
    if K.save = 0 then s
    else if K.folded then (if s.unreelCode K = 0 then s.startUnreel p k K true none else s)
    else s.reelRequest p k false true

/-- The live skein of a partition that a descriptor address of SKREQ names: the first whose owning block translates the address to its
descriptor (R187). -/
def State.skeinNamed (s : State) (p : Nat) (va : Word) : Option Nat :=
  (s.part p).bind fun P => (P.skeins.find? fun (_, K) =>
    match lookup s K.tile K.vf va with
    | .ok e => e.out + (va.toNat - e.va) == K.descPa
    | .error _ => false).map (·.1)

/-- A write to SKREQ (R187). -/
def State.skreq (s : State) (p : Nat) (x : Word) : State :=
  match s.skeinNamed p (x &&& ~~~ 0xFF#64) with
  | none => s
  | some k =>
    match bits x.toNat 1 0 with
    | 0 => s.reelRequest p k false false
    | 1 => s.unreelRequest p k
    | 2 => s.exportRequest p k
    | _ => s

/-! ### SWR (R363) -/

/-- Whether a partition's slot holds a complete sheaf that is not being restored (R100). -/
def Part.discardable (P : Part) (slot : Nat) : Option Byte :=
  match kget P.sheaves slot with
  | none => some 1
  | some h => if !h.complete then some 1 else if h.restoring then some 2 else none

/-- SWR. -/
def execSwr (r : BitVec 5) (reg : SysReg) (idx : BitVec 8) (s : State) : Out1 :=
  let i : Instr := .swr r reg idx
  withOperands s i false [.sreg r.toNat 1] fun s I _ _ =>
    match sysFault s I i reg idx.toNat true with
    | some (g, c, x) => trapAt { s with free := s.free + 1 } I g c x
    | none =>
      let x := I.sub.sreg r.toNat
      match reg with
      | .tlbinv => swrTlbinv s I i x
      | .shdisc =>
        let slot := bits x.toNat 7 0
        match (s.part I.block.part).bind fun P => P.discardable slot with
        | some c => trapAt s I 17 c (BitVec.ofNat 64 slot)
        | none => again (s.discardSheaf I.block.part slot) fun s I => retire s I .other I.sub
      | .skreq => again (s.skreq I.block.part x) fun s I => retire s I .other I.sub
      | reg => again (s.sysWrite I reg idx.toNat x) fun s I => retire s I .other I.sub

end Sys2Proof.Machine
end

