-- ==== Sys2Proof/Machine/Engine.lean ====
section
/-!
DEFINITION. The engines: tensor descriptors, what a command is checked for at issue, and its acceptance
(19_engine_instructions.md R306 to R332; 07_execution_model.md R110; 09_consistency.md R150, R151).
-/
namespace Sys2Proof.Machine

/-! ### Tensor descriptors (R310) -/

def TDesc.scale (d : TDesc) : Nat := bits d.w1.toNat 63 32
def TDesc.rstride (d : TDesc) : Nat := bits d.w1.toNat 31 0
def TDesc.rows (d : TDesc) : Nat := bits d.w2.toNat 63 32
def TDesc.cols (d : TDesc) : Nat := bits d.w2.toNat 31 0
def TDesc.vm (d : TDesc) : Bool := d.w3.getLsbD 8
def TDesc.panel (d : TDesc) : Nat := bits d.w3.toNat 7 6
def TDesc.fmt (d : TDesc) : Nat := bits d.w3.toNat 3 0
def TDesc.zero : TDesc := ⟨0, 0, 0, 0⟩

/-- The DX format of an FMT code. -/
def dxOf (f : Nat) : Option DxFmt :=
  match f with
  | 3 => some .dx8 | 4 => some .dx6 | 5 => some .dx4 | _ => none

/-- The MX format of an FMT code. -/
def mxOf (f : Nat) : Option MxFmt :=
  match f with
  | 8 => some .fp8e4m3 | 9 => some .fp8e5m2 | 10 => some .fp6e2m3 | 11 => some .fp6e3m2 | 12 => some .fp4 | 13 => some .int8
  | _ => none

/-- The floating-point element format of an FMT code. -/
def elemOf (f : Nat) : Option FFmt :=
  match f with
  | 0 => some f32 | 1 => some f16 | 2 => some bf16 | 6 => some e4m3 | 7 => some e5m2 | _ => none

/-- Elements and bytes of one unit of a format: an element, or a block of 32. -/
def fmtUnit (f : Nat) : Nat × Nat :=
  match dxOf f, mxOf f with
  | some g, _ => (32, dxBytes g)
  | _, some g => (32, g.bytes)
  | none, none => (1, match f with | 0 | 14 => 4 | 1 | 2 => 2 | _ => 1)

/-- Whether a format is one of blocks. -/
def isBlockFmt (f : Nat) : Bool := (fmtUnit f).1 == 32

/-- Bytes of n elements in a row (R310). -/
def nbytes (f n : Nat) : Nat := cdiv n (fmtUnit f).1 * (fmtUnit f).2

def TDesc.rowBytes (d : TDesc) : Nat := nbytes d.fmt d.cols

/-- The alignment of BASE and RSTRIDE (R311). -/
def fmtAlign (f : Nat) : Nat :=
  match dxOf f, mxOf f with
  | some _, _ => 2
  | _, some _ => 1
  | none, none => (fmtUnit f).2

/-- Whether n bytes at a scratchpad address lie in the allotment that SEL names (R119). -/
def Block.inside (B : Block) (a n : Nat) : Bool :=
  decide (a < 2 ^ 32) && decide (a / 2 ^ 30 < B.rcd.cgsize) && a / 2 ^ 21 % 2 ^ 9 == 0 && decide (a % 2 ^ 21 + n ≤ B.rcd.spad * 4096)

/-- Where the validity mask of a tile at a base starts (R312). -/
def TDesc.maskAt (d : TDesc) (base : Nat) : Nat := (base + d.rows * d.rstride + 15) / 16 * 16
/-- Bytes of a validity mask. -/
def TDesc.maskBytes (d : TDesc) : Nat := 16 * cdiv d.rows 128

/-- Panels that a tile's blocks cover (R312). -/
def TDesc.panels (d : TDesc) (kb0 P : Nat) : Nat := (kb0 + d.cols / 32 - 1) / P - kb0 / P + 1

/-- Whether an accumulator region stands in the store (R313). -/
def TDesc.accOk (d : TDesc) : Bool :=
  let b := d.w0.toNat
  let bank := bits b 17 16
  let row := bits b 11 6
  let col := bits b 5 0
  decide (b < 2 ^ 18) && d.fmt == 0 && d.rstride == 0 && d.scale == 0 && d.panel == 0 &&
  decide (1 ≤ d.rows) && decide (1 ≤ d.cols) && decide (d.cols ≤ 128) && decide (row + d.rows ≤ 64) &&
  decide (col + d.cols ≤ 128) && (decide (col + d.cols ≤ 64) || bank == 0 || bank == 2)

/-- The conditions of TDEF (R311). -/
def Block.descOk (B : Block) (d : TDesc) : Bool :=
  let b := d.w0.toNat
  let al := fmtAlign d.fmt
  d.fmt != 15 && d.space != 3 && bits d.w3.toNat 63 9 == 0 && decide (1 ≤ d.rows) && decide (1 ≤ d.cols) &&
  (!isBlockFmt d.fmt || d.cols % 32 == 0) && ((mxOf d.fmt).isNone || d.space == 0) && (!d.vm || d.space == 1) &&
  (d.scale == 0 || (d.space == 1 && (dxOf d.fmt).isSome)) &&
  (if d.space = 2 then d.accOk
   else
     b % al == 0 && decide (d.rowBytes ≤ d.rstride) && d.rstride % al == 0 &&
     (d.space == 0 ||
      (B.inside b ((d.rows - 1) * d.rstride + d.rowBytes) && (!d.vm || B.inside (d.maskAt b) d.maskBytes) &&
       ((dxOf d.fmt).isNone ||
        (d.scale % 2 == 0 && B.inside d.scale (2 * d.panels 0 (16 * 2 ^ d.panel) * d.rows))))))

/-! ### Checks at issue (R307) -/

/-- What the checks of a command find: the causes, and what an accepted command takes with it. -/
structure EngPlan where
  causes : List Cause
  d1 : TDesc
  d2 : TDesc
  pages : List (Nat × Nat)
  aux : List Byte
  bad : Option Mark

def EngPlan.fail (cs : List Cause) : EngPlan := ⟨cs, .zero, .zero, [], [], none⟩

/-- The engine cause: the command word, and above it what the code's row names (R332). -/
def engCause (i : Instr) (code : Byte) (x : Nat) : Cause := ⟨7, code, wordOf i ||| BitVec.ofNat 64 (x % 2 ^ 32 * 2 ^ 32)⟩

/-- The cause reported of several: the highest priority, then the first found (R205, R206). -/
def bestCause (cs : List Cause) : Option Cause :=
  cs.foldl (fun (b : Option Cause) c =>
    match b with
    | none => some c
    | some x => if groupRank c.group < groupRank x.group then some c else some x) none

/-- One condition of a command. -/
def need (ok : Bool) (c : Cause) : List Cause := if ok then [] else [c]

/-- Translates the 64 KiB pages a range touches, those not yet in the list: the causes and the pages (R307, R128, R49). -/
def pagesOf (s : State) (t vf : Nat) (world : Bool) (nd : Need) (va n : Nat) (acc : List Cause × List (Nat × Nat)) :
    List Cause × List (Nat × Nat) :=
  if n = 0 then acc
  else
    (List.range ((va + n - 1) / 65536 - va / 65536 + 1)).foldl (fun acc q =>
      let pg := va / 65536 + q
      if acc.2.any fun p => p.1 == pg then acc
      else
        let a := max va (pg * 65536)
        match check s t vf world (BitVec.ofNat 64 a) nd 1 with
        | .error c => (acc.1 ++ [c], acc.2)
        | .ok (fa, _) => (acc.1, acc.2 ++ [(pg, fa - a % 65536)])) acc

/-- The fabric address of a virtual one under a command's pages. -/
def pageAt (ps : List (Nat × Nat)) (va : Nat) : Nat :=
  match ps.find? fun p => p.1 == va / 65536 with
  | some p => p.2 + va % 65536
  | none => 0

/-- A range of a command in pieces of at most `cut` bytes that end at multiples of `cut`: fabric address, offset, length. -/
def cutPieces (ps : List (Nat × Nat)) (cut : Nat) : Nat → Nat → Nat → Nat → List (Nat × Nat × Nat)
  | 0, _, _, _ => []
  | f + 1, va, off, n =>
    if n = 0 then []
    else
      let m := min n (cut - va % cut)
      (pageAt ps va, off, m) :: cutPieces ps cut f (va + m) (off + m) (n - m)

/-- A range in pieces that end at line boundaries. -/
def linePieces (ps : List (Nat × Nat)) (va n : Nat) : List (Nat × Nat × Nat) := cutPieces ps 128 (n / 128 + 2) va 0 n

/-- The origin a parameter register holds. -/
def originRow (x : Word) : Nat := bits x.toNat 63 32
def originCol (x : Word) : Nat := bits x.toNat 31 0

/-- A row of a window (R314): its index, whether it lies in the other operand, the elements of it that do, and the address
and length of those in the other operand. -/
structure WinRow where
  r : Nat
  inside : Bool
  cnt : Nat
  at_ : Nat
  len : Nat
  deriving DecidableEq, Repr

/-- The rows of a window of `rows` by `cols` elements in an operand G from an origin. -/
def windowRows (rows cols : Nat) (G : TDesc) (org : Word) : List WinRow :=
  (List.range rows).map fun r =>
    let gr := originRow org + r
    let inside := decide (gr < G.rows)
    let cnt := if inside then min cols (G.cols - originCol org) else 0
    ⟨r, inside, cnt, (G.w0.toNat + gr * G.rstride + nbytes G.fmt (originCol org)) % 2 ^ 64, nbytes G.fmt cnt⟩

/-- The pages of a global window. -/
def windowPages (s : State) (I : Issuer) (nd : Need) (rows : List WinRow) : List Cause × List (Nat × Nat) :=
  rows.foldl (fun acc w => pagesOf s I.t I.block.vf I.block.world nd w.at_ w.len acc) ([], [])

/-! ### Acceptance (R306, R150, R151) -/

/-- Whether an instruction is a command of the array queue. -/
def isArrayCmd (i : Instr) : Bool :=
  match i with
  | .mload _ _ _ | .mswap _ _ | .mmul _ _ _ _ | .accz _ _ | .accdrn _ _ _ _ _ | .attn _ _ _ _ | .histclr _ _ => true
  | _ => false

/-- The key of the linked copies of a counter of a block. -/
def linkKey (uid : Nat) (tc : BitVec 4) : Nat := uid * 16 + tc.toNat

/-- Whether a copy names .link. -/
def isLinked (i : Instr) : Bool :=
  match i with
  | .copy _ _ _ _ _ l _ => l
  | .copym _ _ _ _ l _ => l
  | _ => false

/-- Whether a command waits for linked copies. -/
def takesLinks (i : Instr) : Bool :=
  match i with
  | .mmul _ _ _ _ | .attn _ _ _ _ => true
  | _ => false

/-- A command that has passed its checks is accepted: it takes a number and enters its queue. -/
def accept (s : State) (I : Issuer) (i : Instr) (tc : BitVec 4) (par : List Word) (p : EngPlan) : State :=
  let T := I.tile
  let B := I.block
  let L := B.tl tc
  let key := linkKey B.uid tc
  let links := if takesLinks i then kgetD T.links key [] else []
  let c : EngCmd := { id := s.nextId, uid := B.uid, vf := B.vf, world := B.world, tc := tc, num := L.issue + 1, cmd := i, d1 := p.d1,
                      d2 := p.d2, par := par, pages := p.pages, aux := p.aux, bad := p.bad, links := links,
                      phase := if takesLinks i && links.isEmpty then 1 else 0, pos := 0, counted := 0, lost := false, wait := [], got := [],
                      seed := s.free }
  let B := { B with tcs := kset B.tcs tc.toNat { L with issue := L.issue + 1 } }
  let T := { T with
    copyQ := if isArrayCmd i then T.copyQ else T.copyQ ++ [c]
    arrayQ := if isArrayCmd i then T.arrayQ ++ [c] else T.arrayQ
    links := if isLinked i then kset T.links key (kgetD T.links key [] ++ [c.id]) else if takesLinks i then kdel T.links key else T.links }
  { s.setTile I.t (T.setBlock I.gang.ctx B) with nextId := s.nextId + 1, free := s.free + 1 }

/-- The uses of parameter registers s(n) to s(n + top) that exist. -/
def paramUses (n : BitVec 5) (top : Nat) : List Use :=
  (List.range (top + 1)).filterMap fun k =>
    if n.toNat + k ≤ 31 then some (Use.plain (0x80#8 + BitVec.ofNat 8 (n.toNat + k)) [.s (n.toNat + k)]) else none

/-- The parameter registers of a command, those of its uses that exist, and whether one does not (R309). -/
def paramWords (I : Issuer) (n : Option (BitVec 5)) (top : Nat) : List Word :=
  match n with
  | some n => (List.range (top + 1)).map fun k => I.sub.sreg (n.toNat + k)
  | none => []
def paramUseList (n : Option (BitVec 5)) (top : Nat) : List Use :=
  match n with
  | some n => paramUses n top
  | none => []
def paramsMissing (n : Option (BitVec 5)) (top : Nat) : Bool :=
  match n with
  | some n => decide (31 < n.toNat + top)
  | none => false

/-- The engine queue that takes a command (R306). -/
def Tile.engineQueue (T : Tile) (i : Instr) : List EngCmd := if isArrayCmd i then T.arrayQ else T.copyQ

/-- Whether a command waits at issue: for room in its queue, for the issuer's accesses, or for its counter (R306, R150, R151). -/
def engineWaits (I : Issuer) (i : Instr) (tc : BitVec 4) : Bool :=
  let L := I.block.tl tc
  decide (16 ≤ (I.tile.engineQueue i).length) || !I.sub.quiet || decide (2 ^ 31 - 1 ≤ (L.issue - L.compl).toNat)

/-- An engine command (R307, R309): its registers, its rights, its checks; then it waits for room in its queue and for the
issuer's accesses, ends a retry, and is accepted. -/
def engineCmd (s : State) (i : Instr) (tc : BitVec 4) (n : Option (BitVec 5)) (top : Nat) (plan : State → Issuer → List Word → EngPlan) :
    Out1 :=
  withOperands s i false (paramUseList n top) fun s I _ _ =>
    let par := paramWords I n top
    let p := if paramsMissing n top then EngPlan.fail [engCause i 3 32] else plan s I par
    match bestCause (need I.gang.feeder ⟨11, 0, wordOf i⟩ ++ p.causes) with
    | some c => trapAt s I c.group c.code c.datum
    | none =>
      if engineWaits I i tc then wait s I
      else becomeNonRetry s I fun s I => again (accept s I i tc par p) fun s I => retire s I .other I.sub

/-- A handle that a command names, or its cause (R311, R332). -/
def handleOf (B : Block) (i : Instr) (h : BitVec 6) : TDesc × List Cause :=
  match kget B.handles h.toNat with
  | some d => (d, [])
  | none => (.zero, [engCause i 1 h.toNat])

/-- Runs the checks that need two handles. -/
def withHandles (B : Block) (i : Instr) (h1 h2 : BitVec 6) (f : TDesc → TDesc → EngPlan) : EngPlan :=
  let (d1, c1) := handleOf B i h1
  let (d2, c2) := handleOf B i h2
  if c1.isEmpty && c2.isEmpty then f d1 d2 else EngPlan.fail (c1 ++ c2)

/-! ### TDEF (R311) -/

/-- TDEF: it takes effect at issue. -/
def execTdef (h : BitVec 6) (n : BitVec 5) (s : State) : Out1 :=
  let i : Instr := .tdef h n
  withOperands s i false (paramUses n 3) fun s I _ _ =>
    let w := fun k => I.sub.sreg (n.toNat + k)
    let d : TDesc := ⟨w 0, w 1, w 2, w 3⟩
    let aligned := n.toNat % 4 == 0
    match bestCause (need I.gang.feeder ⟨11, 0, wordOf i⟩ ++
        (if aligned then need (I.block.descOk d) (engCause i 2 h.toNat) else [engCause i 3 n.toNat])) with
    | some c => trapAt s I c.group c.code c.datum
    | none =>
      becomeNonRetry s I fun s I =>
        again (s.setBlock I.t I.gang.ctx { I.block with handles := kset I.block.handles h.toNat d }) fun s I =>
          retire s I .other I.sub

/-! ### Copies (R314 to R321) -/

/-- Whether a pairing of formats is converted on the copy path (R315). -/
def convOk (sf df : Nat) : Bool :=
  sf == df || (sf == 0 && ((elemOf df).isSome || (dxOf df).isSome)) || (df == 0 && ((elemOf sf).isSome || (dxOf sf).isSome)) ||
  ((mxOf sf).isSome && (dxOf df).isSome) || ((dxOf sf).isSome && (mxOf df).isSome)

def isOutward (hd hs : TDesc) : Bool := hd.space == 0 && hs.space == 1

/-- The whole tile and the other operand of a copy. -/
def tileOf (hd hs : TDesc) : TDesc := if isInward hd hs then hd else hs
def otherOf (hd hs : TDesc) : TDesc := if isInward hd hs then hs else hd

/-- The checks every copy shares: spaces, formats, the column of the origin, and the pages of its global window. `hG` is
the handle of the other operand. -/
def copyPlan (s : State) (I : Issuer) (i : Instr) (h1 h2 : BitVec 6) (dirOk : TDesc → TDesc → Bool) (org : Word)
    (more : TDesc → TDesc → List Cause × List (Nat × Nat)) : EngPlan :=
  withHandles I.block i h1 h2 fun hd hs =>
    if dirOk hd hs then
      let T := tileOf hd hs
      let G := otherOf hd hs
      let hG := if isInward hd hs then h2 else h1
      let (cs, ps) := if G.space = 0 then windowPages s I (if isInward hd hs then .read else .write) (windowRows T.rows T.cols G org)
        else ([], [])
      let (cs2, ps2) := more hd hs
      ⟨cs ++ need (!isBlockFmt G.fmt || originCol org % 32 == 0) (engCause i 4 hG.toNat) ++
        need (convOk hs.fmt hd.fmt) (engCause i 4 h1.toNat) ++ cs2, hd, hs, ps ++ ps2.filter fun p => !ps.any fun q => q.1 == p.1, [], none⟩
    else EngPlan.fail [engCause i 4 h1.toNat]

/-- The checks of COPY. -/
def planCopy (tc : BitVec 4) (h1 h2 : BitVec 6) (stamp bar link : Bool) (n : BitVec 5) (s : State) (I : Issuer) (par : List Word) : EngPlan :=
  let i : Instr := .copy tc h1 h2 stamp bar link n
  let p := fun k => par.getD k 0
  copyPlan s I i h1 h2 (fun hd hs => isInward hd hs || isOutward hd hs) (p 0) fun hd _ =>
    let b := bits (p 1).toNat 31 0
    let barCs := if !bar then []
      else if hd.space ≠ 1 then [engCause i 4 h1.toNat]
      else need (b % 16 == 0 && I.block.inside b 16 && b / 2 ^ 30 == hd.w0.toNat / 2 ^ 30) (engCause i 3 (n.toNat + 1))
    let (stCs, ps) := if stamp then pagesOf s I.t I.block.vf I.block.world .write (p 2).toNat 8 ([], []) else ([], [])
    (stCs ++ barCs ++ need (!stamp || (p 2).toNat % 8 == 0) (engCause i 3 (n.toNat + 2)), ps)

/-- COPY. -/
def execCopy (tc : BitVec 4) (h1 h2 : BitVec 6) (stamp bar link : Bool) (n : BitVec 5) (s : State) : Out1 :=
  engineCmd s (.copy tc h1 h2 stamp bar link n) tc (some n) (if stamp then 3 else if bar then 1 else 0) (planCopy tc h1 h2 stamp bar link n)

/-- The checks of COPYM. -/
def planCopym (tc : BitVec 4) (h1 h2 : BitVec 6) (bar link : Bool) (n : BitVec 5) (s : State) (I : Issuer) (par : List Word) : EngPlan :=
  let i : Instr := .copym tc h1 h2 bar link n
  let p := fun k => par.getD k 0
  copyPlan s I i h1 h2 (fun hd hs => isInward hd hs && hs.space == 0) (p 0) fun _ _ =>
    let mask := bits (p 1).toNat 35 32
    let off := bits (p 1).toNat 20 0
    (need (mask != 0 && decide (mask < 2 ^ I.block.rcd.cgsize) &&
      (!bar || (off % 16 == 0 && decide (off + 16 ≤ I.block.rcd.spad * 4096)))) (engCause i 3 (n.toNat + 1)), [])

/-- COPYM. -/
def execCopym (tc : BitVec 4) (h1 h2 : BitVec 6) (bar link : Bool) (n : BitVec 5) (s : State) : Out1 :=
  engineCmd s (.copym tc h1 h2 bar link n) tc (some n) 1 (planCopym tc h1 h2 bar link n)

/-- The checks of COPYS. -/
def planCopys (tc : BitVec 4) (h1 h2 : BitVec 6) (n : BitVec 5) (s : State) (I : Issuer) (par : List Word) : EngPlan :=
  let i : Instr := .copys tc h1 h2 n
  let p := fun k => par.getD k 0
  copyPlan s I i h1 h2 isOutward (p 0) fun _ _ =>
    let (cs, ps) := pagesOf s I.t I.block.vf I.block.world .atomic (p 1).toNat 8 ([], [])
    (cs ++ need ((p 1).toNat % 8 == 0) (engCause i 3 (n.toNat + 1)), ps)

/-- COPYS. -/
def execCopys (tc : BitVec 4) (h1 h2 : BitVec 6) (n : BitVec 5) (s : State) : Out1 :=
  engineCmd s (.copys tc h1 h2 n) tc (some n) 2 (planCopys tc h1 h2 n)

/-- Whether a reduce word is acceptable for a format (R321). -/
def reduceOk (w f : Nat) : Bool :=
  let aop := bits w 31 28
  bits w 27 26 == 0 && bits w 15 9 == 0 && decide (1 ≤ bits w 25 16) && decide (bits w 25 16 ≤ 640) &&
  decide (1 ≤ bits w 8 0) && decide (bits w 8 0 ≤ 256) &&
  ((aop == 0 && (f == 0 || f == 2)) || (decide (1 ≤ aop) && decide (aop ≤ 3) && f == 14))

/-- The checks of COPYR. -/
def planCopyr (tc : BitVec 4) (h1 h2 : BitVec 6) (n : BitVec 5) (s : State) (I : Issuer) (par : List Word) : EngPlan :=
  let i : Instr := .copyr tc h1 h2 n
  let p := fun k => par.getD k 0
  copyPlan s I i h1 h2 isOutward (p 0) fun hd hs =>
    (need (hd.fmt == hs.fmt && (hd.fmt == 0 || hd.fmt == 2 || hd.fmt == 14)) (engCause i 4 h1.toNat) ++
     need (reduceOk (p 1).toNat hs.fmt) (engCause i 3 (n.toNat + 1)), [])

/-- COPYR. -/
def execCopyr (tc : BitVec 4) (h1 h2 : BitVec 6) (n : BitVec 5) (s : State) : Out1 :=
  engineCmd s (.copyr tc h1 h2 n) tc (some n) 1 (planCopyr tc h1 h2 n)

/-! ### Stationary planes and MMUL (R323 to R325) -/

/-- The depth of a quadrant in elements. -/
def quadDepth (f : Nat) : Option Nat :=
  match f with
  | 1 | 2 => some 64 | 3 | 4 => some 128 | 5 => some 256 | _ => none

/-- The quadrants of a set. -/
def quadSet (st : Nat) : List Nat :=
  match st with
  | 0 => [0] | 1 => [1] | 2 => [2] | 3 => [3] | 4 => [0, 1] | 5 => [2, 3] | 6 => [0, 2] | 7 => [1, 3] | _ => [0, 1, 2, 3]

/-- The panel size a parameter's field gives; none for a reserved value (R323). -/
def panelSize (d : TDesc) (v : Nat) : Option Nat :=
  if v = 0 then some (16 * 2 ^ d.panel) else if 4 ≤ v then some (16 * 2 ^ (v - 4)) else none

/-- Whether a tile lies in the block's own scratchpad. -/
def Block.owns (B : Block) (d : TDesc) : Bool := d.space == 1 && d.w0.toNat / 2 ^ 30 == B.pos

/-- Whether a DX tile's panel scales lie in the allotment (R312). -/
def Block.scalesIn (B : Block) (d : TDesc) (kb0 P : Nat) : Bool :=
  (dxOf d.fmt).isNone || B.inside d.scale (2 * d.panels kb0 P * d.rows)

/-- The checks of MLOAD. -/
def planMload (tc : BitVec 4) (h : BitVec 6) (n : BitVec 5) (_ : State) (I : Issuer) (par : List Word) : EngPlan :=
  let i : Instr := .mload tc h n
  let x := (par.getD 0 0).toNat
  let (B, cs) := handleOf I.block i h
  let st := bits x 43 40
  if !cs.isEmpty then EngPlan.fail cs
  else
    match panelSize B (bits x 34 32), quadDepth B.fmt with
    | none, _ => EngPlan.fail [engCause i 3 n.toNat]
    | some P, kq =>
      let rows := if st = 4 ∨ st = 5 ∨ st = 8 then 128 else 64
      let deep := decide (6 ≤ st)
      ⟨need (bits x 39 35 == 0 && bits x 63 44 == 0 && decide (st ≤ 8)) (engCause i 3 n.toNat) ++
       need (I.block.owns B && kq.isSome) (engCause i 4 h.toNat) ++
       need (B.rows == rows && B.cols == (if deep then 2 * kq.getD 0 else kq.getD 0)) (engCause i 5 h.toNat) ++
       need (I.block.scalesIn B (bits x 31 0) P) (engCause i 5 h.toNat), B, .zero, [], [], none⟩

/-- MLOAD. -/
def execMload (tc : BitVec 4) (h : BitVec 6) (n : BitVec 5) (s : State) : Out1 :=
  engineCmd s (.mload tc h n) tc (some n) 0 (planMload tc h n)

/-- The checks of MSWAP. -/
def planMswap (tc : BitVec 4) (mask : BitVec 4) (_ : State) (_ : Issuer) (_ : List Word) : EngPlan :=
  let i : Instr := .mswap tc mask
  ⟨need (mask != 0) (engCause i 3 0), .zero, .zero, [], [], none⟩

/-- MSWAP. -/
def execMswap (tc : BitVec 4) (mask : BitVec 4) (s : State) : Out1 :=
  engineCmd s (.mswap tc mask) tc none 0 (planMswap tc mask)

/-- The planes a queued MLOAD will leave, without their contents. -/
def EngCmd.plane (c : EngCmd) : Plane :=
  let x := (c.par.getD 0 0).toNat
  { load := c.id, set := bits x 43 40, fmt := c.d1.fmt, kb0 := bits x 31 0, panel := (panelSize c.d1 (bits x 34 32)).getD 16,
    rows := [], scales := [], bad := [] }

/-- The effect of MSWAP on the planes (R324). -/
def swapPlanes (mask : BitVec 4) (p : KMap Plane × KMap Plane) : KMap Plane × KMap Plane :=
  (List.range 4).foldl (fun (p : KMap Plane × KMap Plane) q =>
    if mask.getLsbD q then
      let put : KMap Plane → Option Plane → KMap Plane := fun m o => match o with | some x => kset m q x | none => kdel m q
      (put p.1 (kget p.2 q), put p.2 (kget p.1 q))
    else p) p

/-- The active and shadow planes once every queued array command has completed (R306). -/
def Tile.planesAhead (T : Tile) : KMap Plane × KMap Plane :=
  T.arrayQ.foldl (fun p c =>
    match c.cmd with
    | .mload _ _ _ => (p.1, (quadSet c.plane.set).foldl (fun m q => kset m q c.plane) p.2)
    | .mswap _ mask => swapPlanes mask p
    | _ => p) (T.active, T.shadow)

/-- Whether two formats pair in MMUL (R195). -/
def pairOk (a b : Nat) : Bool := ((dxOf a).isSome && (dxOf b).isSome) || (a == b && (a == 1 || a == 2))

/-- The checks of MMUL. -/
def planMmul (tc : BitVec 4) (h1 h2 : BitVec 6) (n : BitVec 5) (_ : State) (I : Issuer) (par : List Word) : EngPlan :=
  let i : Instr := .mmul tc h1 h2 n
  withHandles I.block i h1 h2 fun R A =>
    let x := (par.getD 0 0).toNat
    let kb0 := bits x 31 0
    let q := bits R.w0.toNat 17 16
    let act := I.tile.planesAhead.1
    match panelSize A (bits x 34 32) with
    | none => EngPlan.fail [engCause i 3 n.toNat]
    | some P =>
      let cs := need (bits x 63 35 == 0) (engCause i 3 n.toNat) ++ need (R.space == 2) (engCause i 4 h1.toNat) ++
        need (I.block.owns A) (engCause i 4 h2.toNat)
      match kget act q with
      | none => EngPlan.fail (cs ++ [engCause i 6 (2 ^ q)])
      | some pl =>
        let one := (quadSet pl.set).all fun r => match kget act r with | some x => x.load == pl.load | none => false
        let nrows := if pl.set = 4 ∨ pl.set = 5 ∨ pl.set = 8 then 128 else 64
        let depth := (quadDepth pl.fmt).getD 0 * (if 6 ≤ pl.set then 2 else 1)
        ⟨cs ++ need (one && pl.kb0 == kb0) (engCause i 6 ((quadSet pl.set).foldl (fun m r => m + 2 ^ r) 0)) ++
          need (pairOk A.fmt pl.fmt) (engCause i 4 h2.toNat) ++
          need (A.rows == R.rows && A.cols == depth && R.cols == nrows) (engCause i 5 h2.toNat) ++
          need (I.block.scalesIn A kb0 P) (engCause i 5 h2.toNat), R, A, [], [], none⟩

/-- MMUL. -/
def execMmul (tc : BitVec 4) (h1 h2 : BitVec 6) (n : BitVec 5) (s : State) : Out1 :=
  engineCmd s (.mmul tc h1 h2 n) tc (some n) 0 (planMmul tc h1 h2 n)

/-! ### The accumulator store (R326 to R328) -/

/-- The checks of ACCZ. -/
def planAccz (tc : BitVec 4) (h : BitVec 6) (_ : State) (I : Issuer) (_ : List Word) : EngPlan :=
  let i : Instr := .accz tc h
  let (R, cs) := handleOf I.block i h
  ⟨cs ++ need (!cs.isEmpty || R.space == 2) (engCause i 4 h.toNat), R, .zero, [], [], none⟩

/-- ACCZ. -/
def execAccz (tc : BitVec 4) (h : BitVec 6) (s : State) : Out1 :=
  engineCmd s (.accz tc h) tc none 0 (planAccz tc h)

/-- The checks of ACCDRN. -/
def planAccdrn (tc : BitVec 4) (h1 h2 : BitVec 6) (z : Bool) (n : BitVec 5) (s : State) (I : Issuer) (par : List Word) : EngPlan :=
  let i : Instr := .accdrn tc h1 h2 z n
  withHandles I.block i h1 h2 fun D R =>
    let org := par.getD 0 0
    let space := R.space == 2 && decide (D.space ≤ 1) && decide (D.fmt ≤ 5)
    let (cs, ps) := if space && D.space == 0 then windowPages s I .write (windowRows R.rows R.cols D org) else ([], [])
    ⟨cs ++ need space (engCause i 4 h1.toNat) ++
      need (!space || (dxOf D.fmt).isNone || R.cols % 32 == 0) (engCause i 5 h1.toNat) ++
      (if D.space = 1 then need (org == 0) (engCause i 3 n.toNat) ++
          need (D.rows == R.rows && D.cols == R.cols) (engCause i 5 h1.toNat)
       else need (!isBlockFmt D.fmt || originCol org % 32 == 0) (engCause i 4 h1.toNat)), D, R, ps, [], none⟩

/-- ACCDRN. -/
def execAccdrn (tc : BitVec 4) (h1 h2 : BitVec 6) (z : Bool) (n : BitVec 5) (s : State) : Out1 :=
  engineCmd s (.accdrn tc h1 h2 z n) tc (some n) 0 (planAccdrn tc h1 h2 z n)

/-- ACCMOV: it takes effect after every array command before it, waiting without parking. -/
def execAccmov (st : Bool) (reg : BitVec 5) (x : Opnd) (s : State) : Out1 :=
  let i : Instr := .accmov st reg x
  withOperands s i false [.src x, if st then .sreg reg.toNat 1 else .out reg.toNat 1] fun s I W _ =>
    let a := ((uniVal W 0 I.sub x).setWidth 32).toNat
    if 2 ^ 18 ≤ a then trapAt s I 2 3 (wordDatum i x.code)
    else if I.gang.isStage then trapNoAddr s I 4 7
    else if !I.tile.arrayQ.isEmpty then wait s I
    else if st then
      let T := I.tile
      let T := { T with acc := kset T.acc a ((I.sub.sreg reg.toNat).setWidth 32), accPoison := kdel T.accPoison a }
      again (s.setTile I.t T) fun s I => retire s I .other I.sub
    else
      match kget I.tile.accPoison a with
      | some m => trapAt s I 15 m.code m.datum
      | none => retire s I .other (I.sub.setS reg.toNat ((kgetD I.tile.acc a 0).setWidth 64))

/-! ### Histograms (R329) -/

/-- The checks of HISTCLR. -/
def planHistclr (tc : BitVec 4) (h : BitVec 6) (_ : State) (I : Issuer) (_ : List Word) : EngPlan :=
  let i : Instr := .histclr tc h
  ⟨(handleOf I.block i h).2, .zero, .zero, [], [], none⟩

/-- HISTCLR. -/
def execHistclr (tc : BitVec 4) (h : BitVec 6) (s : State) : Out1 :=
  engineCmd s (.histclr tc h) tc none 0 (planHistclr tc h)

/-- HISTRD. -/
def execHistrd (h : BitVec 6) (bin : BitVec 5) (d : UDst) (s : State) : Out1 :=
  withOperands s (.histrd h bin d) false [.udst d 1 false] fun s I _ _ =>
    match timelineBarred I with
    | some c => trapNoAddr s I 4 c
    | none =>
      let x := kgetD (kgetD I.block.hist h.toNat []) bin.toNat 0
      retire s I .other (I.sub.setDst d (x.setWidth 64))

/-! ### ATTN (R330, R331) -/

/-- The fields of an ATTN parameter record (R330). -/
structure AttnRec where
  kvel : Nat
  ktile : Nat
  vtile : Nat
  stride : Nat
  nblk : Nat
  tok0 : Nat
  tokend : Nat
  c : W32
  init : Bool
  final : Bool
  flagsOk : Bool
  hrows : Nat
  kfmt : Nat
  vfmt : Nat
  ml : Nat
  sink : List W32
  deriving DecidableEq, Repr

def AttnRec.ofBytes (b : List Byte) : AttnRec :=
  let g := fun o n => leNat ((b.drop o).take n)
  { kvel := g 0 4, ktile := g 4 4, vtile := g 8 4, stride := g 12 4, nblk := g 16 2, tok0 := g 18 1, tokend := g 19 1,
    c := BitVec.ofNat 32 (g 20 4), init := g 24 1 % 2 == 1, final := g 24 1 / 2 % 2 == 1, flagsOk := decide (g 24 1 < 4),
    hrows := g 25 1, kfmt := g 26 1, vfmt := g 27 1, ml := g 28 4,
    sink := (List.range 8).map fun k => BitVec.ofNat 32 (g (32 + 4 * k) 4) }

/-- Whether n bytes at an address lie in the block's own allotment. -/
def Block.ownInside (B : Block) (a n : Nat) : Bool := B.inside a n && a / 2 ^ 30 == B.pos

/-- The accumulator word of row i and column c of a region (R313). -/
def TDesc.accAt (d : TDesc) (i c : Nat) : Nat :=
  let b := d.w0.toNat
  let col := bits b 5 0 + c
  (bits b 17 16 + col / 64) * 2 ^ 16 + bits b 15 12 * 2 ^ 12 + (bits b 11 6 + i) * 64 + col % 64

/-- The words of a region, row by row. -/
def TDesc.cells (d : TDesc) : List (List Nat) := (List.range d.rows).map fun i => (List.range d.cols).map fun c => d.accAt i c

/-- The conditions of R331 on a record, for a query of M rows and an output region. -/
def Block.attnOk (B : Block) (a : AttnRec) (M : Nat) (O : TDesc) : Bool :=
  let rk := nbytes a.kfmt 128
  let rv := nbytes a.vfmt 128
  let last := a.stride * (a.nblk - 1)
  let words := (List.range M).flatMap fun r => [a.ml + 64 * r, a.ml + 64 * r + 1]
  decide (1 ≤ a.nblk) && decide (a.nblk ≤ 1024) && decide (a.tok0 < 64) && decide (1 ≤ a.tokend) && decide (a.tokend ≤ 64) &&
  (decide (1 < a.nblk) || decide (a.tok0 < a.tokend)) && a.flagsOk && decide (1 ≤ a.hrows) && decide (a.hrows ≤ 64) &&
  (quadDepth a.kfmt).isSome && (a.vfmt == 1 || a.vfmt == 2) && a.kvel % 8 == 0 && decide (M ≤ 8 * a.hrows) &&
  B.ownInside a.kvel (32 * a.nblk) && B.ownInside a.ktile (64 * rk) && B.ownInside (a.ktile + last) (64 * rk) &&
  B.ownInside a.vtile (64 * rv) && B.ownInside (a.vtile + last) (64 * rv) &&
  decide (a.ml < 2 ^ 18) && decide (bits a.ml 11 6 + M ≤ 64) && decide (bits a.ml 5 0 < 63) &&
  !(words.any fun w => O.cells.any fun row => row.contains w) &&
  (List.range M).all fun r => match fval (a.sink.getD (r / a.hrows) 0) with | .fin _ _ _ => true | _ => false

/-- The checks of ATTN. -/
def planAttn (tc : BitVec 4) (h1 h2 : BitVec 6) (n : BitVec 5) (s : State) (I : Issuer) (par : List Word) : EngPlan :=
  let i : Instr := .attn tc h1 h2 n
  withHandles I.block i h1 h2 fun O Q =>
    let x := par.getD 0 0
    let ra := bits x.toNat 31 0
    let cs := need (bits x.toNat 63 32 == 0) (engCause i 3 n.toNat) ++
      need (O.space == 2) (engCause i 4 h1.toNat) ++ need (I.block.owns Q) (engCause i 4 h2.toNat) ++
      need (Q.cols == 128 && decide (Q.rows ≤ 64)) (engCause i 5 h2.toNat) ++
      need (O.cols == 128 && O.rows == Q.rows) (engCause i 5 h1.toNat)
    if ra % 16 ≠ 0 ∨ ¬ I.block.ownInside ra 64 then EngPlan.fail (cs ++ [engCause i 7 ra])
    else if !cs.isEmpty then EngPlan.fail cs
    else
      let p : SpadAt := ⟨I.t, I.gang.ctx, ra % 2 ^ 21⟩
      let raw := s.spadRead p 64
      let a := AttnRec.ofBytes raw
      ⟨need (I.block.attnOk a Q.rows O) (engCause i 7 ra) ++ need (pairOk Q.fmt a.kfmt) (engCause i 4 h2.toNat), O, Q, [], raw,
        s.spadMark p 64⟩

/-- ATTN: its record is read at issue. -/
def execAttn (tc : BitVec 4) (h1 h2 : BitVec 6) (n : BitVec 5) (s : State) : Out1 :=
  engineCmd s (.attn tc h1 h2 n) tc (some n) 0 (planAttn tc h1 h2 n)

end Sys2Proof.Machine
end

