-- ==== Sys2Proof/Machine/EngineRun.lean ====
section
/-!
DEFINITION. What the engines do: the bytes a command moves, the array, the attention sequencer, and the completion of a
command (19_engine_instructions.md R306 to R331; 12_number_formats.md R195 to R203; 09_consistency.md R151, R152;
13_traps_faults.md R211; log 22).
-/
namespace Sys2Proof.Machine

/-- A fold that may stop with no answer. -/
def foldOpt {α β : Type} (f : β → α → Option β) : β → List α → Option β
  | b, [] => some b
  | b, a :: l =>
    match f b a with
    | some b => foldOpt f b l
    | none => none

/-- Cuts a list into pieces of n. -/
def piecesOf {α : Type} (n : Nat) : Nat → List α → List (List α)
  | 0, _ => []
  | f + 1, l => if l.isEmpty then [] else l.take n :: piecesOf n f (l.drop n)

def cut {α : Type} (n : Nat) (l : List α) : List (List α) := piecesOf n (l.length + 1) l

/-! ### Bytes with their poison marks (R211) -/

/-- A byte, and its poison mark. -/
abbrev PByte := Byte × Option Mark

def PByte.zero : PByte := (0, none)

/-- The mark that what derives from some bytes takes: the first of theirs. -/
def markOf (bs : List PByte) : Option Mark := bs.findSome? (·.2)

/-- The place of a scratchpad address of a block's cluster group (R119). -/
def Block.placeOf (B : Block) (a : Nat) : Option SpadAt :=
  match B.peers[a / 2 ^ 30]? with
  | some (t, c) => some ⟨t, c, a % 2 ^ 21⟩
  | none => none

/-- Bytes of a scratchpad with their marks. -/
def State.spadMarked (s : State) (p : SpadAt) (n : Nat) : List PByte :=
  match kget (s.tile p.t).blocks p.ctx with
  | some B => (List.range n).map fun k => (B.spadByte (p.off + k), kget B.spadPoison ((p.off + k) / 4))
  | none => (List.range n).map fun k => (goneByte s (p.off + k), none)

/-- The words that bytes from an address on mark. -/
def marksOf (at_ : Nat) (bs : List PByte) : List (Nat × Mark) :=
  bs.zipIdx.filterMap fun (b, k) => b.2.map fun m => ((at_ + k) / 4, m)

/-- Writes bytes to a scratchpad, marking every word that takes a poisoned one (R211). -/
def State.spadPut (s : State) (p : SpadAt) (bs : List PByte) : State :=
  let s := s.spadWrite p (bs.map (·.1))
  match marksOf p.off bs, kget (s.tile p.t).blocks p.ctx with
  | [], _ | _, none => s
  | ms, some B => s.setBlock p.t p.ctx { B with spadPoison := ms.foldl (fun l x => kset l x.1 x.2) B.spadPoison }

/-- Writes bytes at their home, marking every word that takes a poisoned one (R211). -/
def State.memPut (s : State) (src pa : Nat) (bs : List PByte) (vec : List W32) : State :=
  let s := s.writeNow src pa (bs.map (·.1)) vec
  { s with poisonWords := (marksOf pa bs).foldl (fun l x => if l.contains x.1 then l else insNat x.1 l) s.poisonWords }

/-- A byte of memory with the mark of its line or word. -/
def State.memMark (s : State) (pa : Nat) : Option Mark :=
  if s.poisonedAt pa 1 then some (.line (lineOf pa * 128)) else none

/-- A report held for a block (R206). -/
def State.reportTo (s : State) (uid : Nat) (r : Report) : State := s.mapBlock uid fun B => { B with reports := B.reports ++ [r] }

/-- Bytes a command reads: from scratchpad, from their homes at once, or those another node has answered. None while a
peer's tile or a home's path is closed. -/
def State.engRead (s : State) (t : Nat) (c : EngCmd) (B : Block) (space a n : Nat) : Option (State × List PByte) :=
  if n = 0 then some (s, [])
  else if space = 1 then
    match B.placeOf a with
    | some p => if (s.tile p.t).mode = .run then some (s, s.spadMarked p n) else none
    | none => none
  else
    foldOpt (fun (acc : State × List PByte) (x : Nat × Nat × Nat) =>
      let (fa, _, m) := x
      let pa := fa % 2 ^ 42
      if fa / 2 ^ 42 = acc.1.node then
        if let some d := security acc.1 c.world pa then
          -- the world check at the home (R49, R50): the access has no effect and is reported
          some (acc.1.reportTo c.uid ⟨18, d, BitVec.ofNat 64 (a + x.2.1)⟩, acc.2 ++ (List.range m).map fun k =>
            ((Config.freeWord c.seed (fa + k)).setWidth 8, none))
        else if acc.1.rangeOpen (dieOf t) pa m (acc.1.carried t) false then
          let (s, bs) := acc.1.readNow (dieOf t) pa m
          some (s, acc.2 ++ bs.zipIdx.map fun (b, k) => (b, s.memMark (pa + k)))
        else none
      else some (acc.1, acc.2 ++ (List.range m).map fun k =>
        (kgetD c.got (fa + k) ((Config.freeWord c.seed (fa + k)).setWidth 8), none)))
      (s, []) (cutPieces c.pages 65536 (n / 65536 + 2) a 0 n)

/-! ### Conversion (R315) -/

/-- The values of one unit of a format. -/
def decodeUnit (f : Nat) (b : List Byte) : List FV :=
  match dxOf f, mxOf f, elemOf f with
  | some g, _, _ => dxUnpack g b
  | none, some g, _ => g.unpack b
  | none, none, some g => [g.value (leNat b)]
  | none, none, none => []

/-- Values written in a format; a block takes 32. -/
def encodeValues (f : Nat) (xs : List FV) : List Byte :=
  match dxOf f, mxOf f, elemOf f with
  | some g, _, _ => dxImage g xs
  | none, some g, _ => g.image xs
  | none, none, some g => xs.flatMap fun x => leBytes (g.width / 8) (g.encode x)
  | none, none, none => []

/-- One element or block converted. -/
def convChunk (sf df : Nat) (b : List PByte) : List PByte :=
  let bad := markOf b
  let xs := (cut (fmtUnit sf).2 (b.map (·.1))).flatMap (decodeUnit sf)
  let xs := if isBlockFmt df then (xs ++ List.replicate 32 (FV.fin false 0 0)).take 32 else xs
  (encodeValues df xs).map fun x => (x, bad)

/-- The bytes of a row converted from one format to another. -/
def convRow (sf df : Nat) (b : List PByte) : List PByte :=
  if sf = df then b
  else
    let n := if isBlockFmt sf || isBlockFmt df then 32 else 1
    (cut (n / (fmtUnit sf).1 * (fmtUnit sf).2) b).flatMap (convChunk sf df)

/-! ### What a copy moves (R314, R319) -/

/-- The rows of a validity mask as bytes, the valid ones given (R312). -/
def maskImage (n : Nat) (valid : Nat → Bool) : List Byte :=
  (List.range n).map fun k => (List.range 8).foldl (fun (b : Byte) j => if valid (8 * k + j) then b ||| (1#8 <<< j) else b) 0

/-- Bit r of a mask. -/
def maskBit (m : List PByte) (r : Nat) : Bool := (m.getD (r / 8) PByte.zero).1.getLsbD (r % 8)

/-- The rows a copy writes: their addresses in the destination operand and their bytes, the mask last. -/
def State.copyRows (s : State) (t : Nat) (c : EngCmd) (B : Block) : Option (State × List (Nat × List PByte)) :=
  let T := tileOf c.d1 c.d2
  let G := otherOf c.d1 c.d2
  let rows := windowRows T.rows T.cols G (c.par.getD 0 0)
  if isInward c.d1 c.d2 then
    match foldOpt (fun (acc : State × List (Nat × List PByte)) (w : WinRow) =>
        match acc.1.engRead t c B G.space w.at_ w.len with
        | none => none
        | some (s, b) =>
          let d := (convRow c.d2.fmt c.d1.fmt b).take (nbytes T.fmt w.cnt)
          some (s, acc.2 ++ [(T.w0.toNat + w.r * T.rstride, d ++ List.replicate (T.rowBytes - d.length) PByte.zero)]))
        (s, []) rows with
    | none => none
    | some (s, out) =>
      let inside : Nat → Bool := fun r => match rows[r]? with | some w => w.inside | none => false
      some (s, if T.vm then out ++ [(T.maskAt T.w0.toNat, (maskImage T.maskBytes inside).map fun b => (b, none))] else out)
  else
    match s.engRead t c B 1 (T.maskAt T.w0.toNat) (if T.vm then T.maskBytes else 0) with
    | none => none
    | some (s, mask) =>
      foldOpt (fun (acc : State × List (Nat × List PByte)) (w : WinRow) =>
        match acc.1.engRead t c B 1 (T.w0.toNat + w.r * T.rstride) (nbytes T.fmt w.cnt) with
        | none => none
        | some (s, b) =>
          let bad := if T.vm then (mask.getD (w.r / 8) PByte.zero).2 else none
          let d := (convRow c.d2.fmt c.d1.fmt b).take (nbytes G.fmt w.cnt)
          some (s, acc.2 ++ [(w.at_, d.map fun x => (x.1, x.2 <|> bad))]))
        (s, []) (rows.filter fun w => decide (0 < w.cnt) && (!T.vm || maskBit mask w.r))

/-- The SELs of a copy's targets (R319). -/
def EngCmd.targets (c : EngCmd) : List Nat :=
  match c.cmd with
  | .copym _ _ _ _ _ _ => (List.range 4).filter fun p => (c.par.getD 1 0).getLsbD (32 + p)
  | _ => [c.d1.w0.toNat / 2 ^ 30]

/-- An address with its SEL replaced. -/
def withSel (a p : Nat) : Nat := p * 2 ^ 30 + a % 2 ^ 30

/-- The barriers of a counted copy (R316). -/
def EngCmd.barriers (c : EngCmd) : List Nat :=
  match c.cmd with
  | .copy _ _ _ _ bar _ _ => if bar then [bits (c.par.getD 1 0).toNat 31 0] else []
  | .copym _ _ _ bar _ _ => if bar then c.targets.map fun p => p * 2 ^ 30 + bits (c.par.getD 1 0).toNat 20 0 else []
  | _ => []

/-- The bytes a counted copy counts on each barrier (R316). -/
def EngCmd.countTotal (c : EngCmd) : Nat := c.d1.rows * c.d1.rowBytes + (if c.d1.vm then c.d1.maskBytes else 0)

/-- The ranges a copy writes: a space (the scratchpad of a tile's context, or memory), an address, a length (R322). -/
def EngCmd.dests (c : EngCmd) (B : Block) : List (Nat × Nat × Nat) :=
  let T := tileOf c.d1 c.d2
  if isInward c.d1 c.d2 then
    c.targets.flatMap fun p =>
      let sp := match B.peers[p]? with | some (t, x) => 1 + t * 32 + x | none => 0
      ((List.range T.rows).map fun r => (sp, T.w0.toNat % 2 ^ 21 + r * T.rstride, T.rowBytes)) ++
        (if T.vm then [(sp, T.maskAt T.w0.toNat % 2 ^ 21, T.maskBytes)] else [])
  else
    (windowRows T.rows T.cols (otherOf c.d1 c.d2) (c.par.getD 0 0)).flatMap fun w =>
      (linePieces c.pages w.at_ w.len).map fun (fa, _, n) => (0, fa, n)

/-- Whether two lists of ranges meet. -/
def rangesMeet (a b : List (Nat × Nat × Nat)) : Bool :=
  a.any fun x => b.any fun y => x.1 == y.1 && decide (x.2.1 < y.2.1 + y.2.2) && decide (y.2.1 < x.2.1 + x.2.2)

/-- Whether an earlier copy of the tile has still to write bytes that a copy writes (R322). -/
def Tile.copyBehind (T : Tile) (c : EngCmd) : Bool :=
  (T.copyQ.takeWhile fun x => x.id != c.id).any fun x =>
    decide (x.phase < 2) &&
    (match T.blocks.find? (fun (_, B) => B.uid == x.uid), T.blocks.find? (fun (_, B) => B.uid == c.uid) with
     | some (_, X), some (_, B) => rangesMeet (x.dests X) (c.dests B)
     | _, _ => false)

/-- The pieces of a copy's sources at other nodes. -/
def EngCmd.farSources (c : EngCmd) (node : Nat) : List (Nat × Nat) :=
  let G := otherOf c.d1 c.d2
  if isInward c.d1 c.d2 && G.space == 0 then
    (windowRows c.d1.rows c.d1.cols G (c.par.getD 0 0)).flatMap fun w =>
      ((linePieces c.pages w.at_ w.len).filter fun x => x.1 / 2 ^ 42 != node).map fun (fa, _, n) => (fa, n)
  else []

/-! ### Packets of a command (R25, R91, R206) -/

/-- A command sends a packet; one without a route is lost and reported (R25, R206). -/
def State.engSend (s : State) (t : Nat) (c : EngCmd) (fa : Nat) (b : Body) : State × EngCmd :=
  if s.routeLost (dieOf t) (fa / 2 ^ 42) then (s.reportTo c.uid ⟨15, 6, BitVec.ofNat 64 (fa % 2 ^ 42)⟩, { c with lost := true })
  else
    let id := s.nextId
    ((s.request (dieOf t) (t % 64) (nodePacket c.vf c.world fa b) (.engine t c.id)).tryLast, { c with wait := c.wait ++ [id] })

/-- Sends packets while the NI has room. -/
def State.engSendAll (s : State) (t : Nat) (c : EngCmd) (l : List (Nat × Body)) : State × EngCmd :=
  l.foldl (fun acc x => acc.1.engSend t acc.2 x.1 x.2) (s, c)

/-- Requests the NI of a tile may still issue (R91). -/
def State.niRoom (s : State) (t : Nat) : Nat := 256 - s.outCount (dieOf t) (t % 64)

/-- Rows written to memory, in pieces: other nodes' in packets, then this node's at their homes, where the world check stops a piece
and reports it (R49, R50). The command is left in
phase 2 once every byte is written or sent. -/
def State.putRows (s : State) (t : Nat) (c : EngCmd) (rows : List (Nat × List PByte)) : Option (State × EngCmd) :=
  let all := rows.flatMap fun (a, bs) => (linePieces c.pages a bs.length).map fun (fa, off, n) => (a + off, fa, (bs.drop off).take n)
  let ps := all.map (·.2)
  let far := (ps.filter fun p => p.1 / 2 ^ 42 != s.node).drop c.pos
  let here := all.filter fun p => p.2.1 / 2 ^ 42 == s.node
  let near := (here.filter fun p => (security s c.world (p.2.1 % 2 ^ 42)).isNone).map (·.2)
  let denied := here.filterMap fun p => (security s c.world (p.2.1 % 2 ^ 42)).map fun d => (⟨18, d, BitVec.ofNat 64 p.1⟩ : Report)
  let room := s.niRoom t
  if room < far.length then
    if room = 0 then none
    else
      let (s, c) := s.engSendAll t c ((far.take room).map fun p => (p.1, Body.write (p.1 % 2 ^ 42) (p.2.map (·.1))))
      some (s, { c with pos := c.pos + room })
  else
    let src := dieOf t
    match foldOpt (fun (s : State) (p : Nat × List PByte) =>
        if s.rangeOpen src (p.1 % 2 ^ 42) p.2.length (s.carried t) true then some (s.memPut src (p.1 % 2 ^ 42) p.2 (s.carried t))
        else none) s near with
    | none => none
    | some s =>
      let s := denied.foldl (fun s r => s.reportTo c.uid r) s
      let (s, c) := s.engSendAll t { c with lost := c.lost || !denied.isEmpty } (far.map fun p => (p.1, Body.write (p.1 % 2 ^ 42) (p.2.map (·.1))))
      some (s, { c with phase := 2, pos := 0 })

/-- Rows written to scratchpad, at every target. -/
def State.putSpadRows (s : State) (B : Block) (sels : List Nat) (rows : List (Nat × List PByte)) : Option State :=
  foldOpt (fun (s : State) (p : Nat) =>
    foldOpt (fun (s : State) (x : Nat × List PByte) =>
      match B.placeOf (withSel x.1 p) with
      | some pl => if (s.tile pl.t).mode = .run then some (s.spadPut pl x.2) else none
      | none => none) s rows) s sels

/-! ### Copies -/

/-- A contribution of COPYR for one packet (R321). -/
def reducePacket (c : EngCmd) (fa : Nat) (bs : List Byte) : Packet :=
  let w := (c.par.getD 1 0).toNat
  { packetZero with
    op := opReduce, vc := 2, dnode := BitVec.ofNat 10 (fa / 2 ^ 42), addr := BitVec.ofNat 42 fa, vf := BitVec.ofNat 9 c.vf,
    world := c.world, tag := BitVec.ofNat 16 (bits w 63 48), rgroup := BitVec.ofNat 16 (bits w 47 32),
    aop := BitVec.ofNat 4 (bits w 31 28), ncontrib := BitVec.ofNat 10 (bits w 25 16),
    dtype := if c.d2.fmt = 0 then 2 else if c.d2.fmt = 2 then 3 else 0, len := BitVec.ofNat 9 bs.length, payload := bs }

/-- COPYR's contributions: each destination row cut every 256 bytes from its first byte (R321). -/
def State.contribute (s : State) (t : Nat) (c : EngCmd) (rows : List (Nat × List PByte)) : State × EngCmd :=
  let need := bits (c.par.getD 1 0).toNat 8 0
  rows.foldl (fun (acc : State × EngCmd) x =>
    ((cut 256 x.2).zipIdx).foldl (fun (acc : State × EngCmd) (p : List PByte × Nat) =>
      let (s, c) := acc
      let (name, s) := s.fresh
      let pk := reducePacket c (pageAt c.pages (x.1 + 256 * p.2)) (p.1.map (·.1))
      ({ s with locals := s.locals ++ [⟨t, c.id, name, pk, need⟩] }, { c with wait := c.wait ++ [name] })) acc) (s, c)

/-- The payload of a copy: first what it reads at other nodes, then everything it writes. -/
def State.copyPayload (s : State) (t : Nat) (c : EngCmd) (B : Block) : Option (State × EngCmd) :=
  if c.phase = 0 then
    let far := (c.farSources s.node).drop c.pos
    if far.isEmpty then (if c.wait.isEmpty then some (s, { c with phase := 1, pos := 0 }) else none)
    else
      let room := min far.length (s.niRoom t)
      if room = 0 then none
      else
        let (s, c) := s.engSendAll t c ((far.take room).map fun p => (p.1, Body.read (p.1 % 2 ^ 42) p.2 false))
        some (s, { c with pos := c.pos + room })
  else if (s.tile t).copyBehind c then none
  else
    match s.copyRows t c B with
    | none => none
    | some (s, rows) =>
      match c.cmd with
      | .copyr _ _ _ _ => let (s, c) := s.contribute t c rows; some (s, { c with phase := 2 })
      | _ =>
        if isInward c.d1 c.d2 then (s.putSpadRows B c.targets rows).map fun s => (s, { c with phase := 2 })
        else s.putRows t c rows

/-- What a copy does after its payload: a stamp (R318, R152), or an add to a counter (R320). -/
def EngCmd.closing (c : EngCmd) : Option (Nat × Body) :=
  match c.cmd with
  | .copy _ _ _ stamp _ _ _ =>
    if stamp then
      let fa := pageAt c.pages (c.par.getD 2 0).toNat
      some (fa, .write (fa % 2 ^ 42) (natLe 8 (c.par.getD 3 0).toNat))
    else none
  | .copys _ _ _ _ =>
    let fa := pageAt c.pages (c.par.getD 1 0).toNat
    some (fa, .signal (fa % 2 ^ 42) (c.par.getD 2 0) 0)
  | _ => none

/-- Whether a copy withholds its stamp or its count: a payload byte of it, lost or refused, has not been performed at its home
(R152, R320; log 51). -/
def EngCmd.withholds (c : EngCmd) : Bool := c.lost && (match c.cmd with | .copyr _ _ _ _ => false | _ => true)

/-- Performs a copy's stamp or count at its home, or sends it. -/
def State.copyClose (s : State) (t : Nat) (c : EngCmd) : Option (State × EngCmd) :=
  if !c.wait.isEmpty then none
  else
    match (if c.withholds then none else c.closing) with
    | none => some (s, { c with phase := 3 })
    | some (fa, b) =>
      if let some d := (if fa / 2 ^ 42 = s.node then security s c.world (fa % 2 ^ 42) else none) then
        some (s.reportTo c.uid ⟨18, d, c.par.getD (match c.cmd with | .copys _ _ _ _ => 1 | _ => 2) 0⟩, { c with phase := 3 })
      else if fa / 2 ^ 42 ≠ s.node then
        if s.niRoom t = 0 then none
        else
          let (s, c) := s.engSend t c fa b
          some (s, { c with phase := 3 })
      else
        let pa := fa % 2 ^ 42
        let src := dieOf t
        if s.rangeOpen src pa 8 (s.carried t) true then
          let bs := match b with
            | .signal _ inc _ => natLe 8 (s.le pa 8 + inc.toNat)
            | .write _ bs => bs
            | _ => []
          some (s.writeNow src pa bs (s.carried t), { c with phase := 3 })
        else none

/-! ### Counting on barriers (R298, R316) -/

/-- n bytes of a counted copy are counted on every barrier of it; a count that would pass −2^31 is clamped and reported. -/
def State.countBytes (s : State) (c : EngCmd) (B : Block) (n : Nat) : Option State :=
  foldOpt (fun (s : State) a =>
    match B.placeOf a with
    | none => some s
    | some p =>
      if (s.tile p.t).mode = .run then
        let b := Barrier.read s p
        match b.land n with
        | some b => some (b.write s p)
        | none =>
          some (({ b with bytes := -(2 ^ 31) }.write s p).reportTo c.uid
            ⟨7, 9, wordOf c.cmd ||| BitVec.ofNat 64 (a % 2 ^ 32 * 2 ^ 32)⟩)
      else none) s c.barriers

/-! ### The accumulator store and the stationary planes -/

/-- Writes an accumulator word with its mark (R211). -/
def Tile.accPut (T : Tile) (a : Nat) (x : W32) (bad : Option Mark) : Tile :=
  { T with acc := kset T.acc a x
           accPoison := match bad with | some m => kset T.accPoison a m | none => kdel T.accPoison a }

def Tile.accGet (T : Tile) (a : Nat) : W32 := kgetD T.acc a 0

/-- The rows of a scratchpad tile. -/
def State.tileRows (s : State) (t : Nat) (c : EngCmd) (B : Block) (d : TDesc) : Option (State × List (List PByte)) :=
  foldOpt (fun (acc : State × List (List PByte)) r =>
    match acc.1.engRead t c B 1 (d.w0.toNat + r * d.rstride) d.rowBytes with
    | none => none
    | some (s, b) => some (s, acc.2 ++ [b])) (s, []) (List.range d.rows)

/-- The panel scales of a tile's rows (R312): none for formats without them. -/
def State.tileScales (s : State) (t : Nat) (c : EngCmd) (B : Block) (d : TDesc) (kb0 P : Nat) :
    Option (State × List (List PByte)) :=
  if (dxOf d.fmt).isSome then
    let n := 2 * d.panels kb0 P
    foldOpt (fun (acc : State × List (List PByte)) r =>
      match acc.1.engRead t c B 1 (d.scale + n * r) n with
      | none => none
      | some (s, b) => some (s, acc.2 ++ [b])) (s, []) (List.range d.rows)
  else some (s, List.replicate d.rows [])

/-- BF16 patterns of bytes. -/
def bf16s (b : List Byte) : List (BitVec 16) := (cut 2 b).map fun x => BitVec.ofNat 16 (leNat x)

/-- MLOAD: the shadow planes of the set take the weights and their scales (R323). -/
def State.mload (s : State) (t : Nat) (c : EngCmd) (B : Block) : Option State :=
  let pl := c.plane
  match s.tileRows t c B c.d1 with
  | none => none
  | some (s, rows) =>
    match s.tileScales t c B c.d1 pl.kb0 pl.panel with
    | none => none
    | some (s, sc) =>
      let bad := (List.range rows.length).filterMap fun r => (markOf (rows.getD r [] ++ sc.getD r [])).map fun m => (r, m)
      let pl := { pl with rows := rows.map fun r => r.map (·.1), scales := sc.map fun r => bf16s (r.map (·.1)), bad := bad }
      let T := s.tile t
      some (s.setTile t { T with shadow := (quadSet pl.set).foldl (fun m q => kset m q pl) T.shadow })

/-! ### Products (R195) -/

/-- The canonical NaN of FP32. -/
def nanW : W32 := 0x7FC00000

/-- A row of an operand in blocks of 32 K elements. -/
def rowBlocks (f : Nat) (b : List Byte) : List (List FV) :=
  match dxOf f with
  | some g => (cut (dxBytes g) b).map (dxUnpack g)
  | none => cut 32 ((cut (fmtUnit f).2 b).flatMap (decodeUnit f))

/-- The panel scale of each block of a row (R194, R312); 1.0 without scales. -/
def blockScales (n kb0 P : Nat) (sc : List (BitVec 16)) : List FV :=
  (List.range n).map fun b =>
    if sc.isEmpty then .fin false 1 0 else bf16.value (sc.getD ((kb0 + b) / P - kb0 / P) 0).toNat

/-- One value is added to an accumulator word with one rounding; a NaN stays the canonical NaN. -/
def accAdd (acc : W32) (v : FV) : W32 := fenc ((fval acc).add v)

def FV.isFin : FV → Bool
  | .fin _ _ _ => true
  | _ => false

/-- The exact sum of products of finite values. -/
def dotDy (xs ys : List FV) : Dy := (xs.zip ys).foldl (fun a p => a.add (p.1.dy.mul p.2.dy)) Dy.zero

/-- One DX block of a dot product with its two panel scales. -/
def dxStep (acc : W32) (xs ys : List FV) (g h : FV) : W32 :=
  if (xs.all FV.isFin) && (ys.all FV.isFin) && g.isFin && h.isFin then
    accAdd acc ((g.dy.mul h.dy).mul (dotDy xs ys)).fv
  else nanW

/-- One group of a BF16 or FP16 dot product. -/
def groupStep (acc : W32) (xs ys : List FV) : W32 :=
  let ps := (xs.zip ys).map fun p => p.1.mul p.2
  if ps.any FV.isNan then nanW
  else
    let pos := ps.any fun p => p == .inf false
    let neg := ps.any fun p => p == .inf true
    if pos && neg then nanW
    else if pos then accAdd acc (.inf false)
    else if neg then accAdd acc (.inf true)
    else accAdd acc (ps.foldl (fun (a : Dy) p => a.add p.dy) Dy.zero).fv

/-- A dot product by blocks, in ascending K (R195). -/
def dotBlocks (dx : Bool) (acc : W32) (a b : List (List FV)) (ga gb : List FV) : W32 :=
  ((a.zip b).zip (ga.zip gb)).foldl (fun acc x =>
    if dx then dxStep acc x.1.1 x.1.2 x.2.1 x.2.2 else groupStep acc x.1.1 x.1.2) acc

/-- The valid rows of a scratchpad tile (R312). -/
def State.tileMask (s : State) (t : Nat) (c : EngCmd) (B : Block) (d : TDesc) : Option (State × List PByte) :=
  s.engRead t c B 1 (d.maskAt d.w0.toNat) (if d.vm then d.maskBytes else 0)

/-- MMUL (R325). -/
def State.mmul (s : State) (t : Nat) (c : EngCmd) (B : Block) : Option State :=
  let R := c.d1
  let A := c.d2
  let x := (c.par.getD 0 0).toNat
  let kb0 := bits x 31 0
  let P := (panelSize A (bits x 34 32)).getD 16
  match s.tileRows t c B A with
  | none => none
  | some (s, rows) =>
    match s.tileScales t c B A kb0 P with
    | none => none
    | some (s, sc) =>
      match s.tileMask t c B A with
      | none => none
      | some (s, mask) =>
        match kget (s.tile t).active (bits R.w0.toNat 17 16) with
        | none => some s
        | some pl =>
          let dx := (dxOf A.fmt).isSome
          let cols := (pl.rows.zip pl.scales).map fun (b, g) =>
            let bl := rowBlocks pl.fmt b
            (bl, blockScales bl.length pl.kb0 pl.panel g)
          some (s.setTile t ((List.range A.rows).foldl (fun (T : Tile) i =>
            if A.vm && !maskBit mask i then T
            else
              let row := rows.getD i []
              let g := sc.getD i []
              let bad := markOf (row ++ g) <|> (if A.vm then (mask.getD (i / 8) PByte.zero).2 else none)
              let a := rowBlocks A.fmt (row.map (·.1))
              let ga := blockScales a.length kb0 P (bf16s (g.map (·.1)))
              (cols.zipIdx).foldl (fun (T : Tile) (col : (List (List FV) × List FV) × Nat) =>
                let w := R.accAt i col.2
                T.accPut w (dotBlocks dx (T.accGet w) a col.1.1 ga col.1.2)
                  (bad <|> kget pl.bad col.2 <|> kget T.accPoison w)) T) (s.tile t)))

/-! ### Draining (R327, R203) -/

/-- The rows a drain writes. -/
def drainRows (T : Tile) (c : EngCmd) : List (Nat × List PByte) :=
  let D := c.d1
  let R := c.d2
  let row : Nat → Nat → List PByte := fun i n =>
    let ws := (List.range n).map fun k => R.accAt i k
    convRow 0 D.fmt (ws.flatMap fun w => (natLe 4 (T.accGet w).toNat).map fun b => (b, kget T.accPoison w))
  if D.space = 1 then
    ((List.range R.rows).map fun i => (D.w0.toNat + i * D.rstride, row i R.cols)) ++
      (if D.vm then [(D.maskAt D.w0.toNat, (maskImage D.maskBytes fun r => decide (r < D.rows)).map fun b => (b, none))] else [])
  else
    ((windowRows R.rows R.cols D (c.par.getD 0 0)).filter fun w => decide (0 < w.cnt)).map fun w => (w.at_, row w.r w.cnt)

/-- A saturating count in a histogram (R203). -/
def histAdd (h : KMap W32) (x : W32) : KMap W32 :=
  let k := histBin x
  let n := kgetD h k 0
  kset h k (if n = BitVec.allOnes 32 then n else n + 1)

/-- After a drain has written: its counts, and with .z the zeros. -/
def State.drainEnd (s : State) (t : Nat) (c : EngCmd) (h1 : BitVec 6) (z : Bool) : State :=
  let T := s.tile t
  let ws := c.d2.cells.flatten
  let s := s.mapBlock c.uid fun B =>
    { B with hist := kset B.hist h1.toNat (ws.foldl (fun h w => histAdd h (T.accGet w)) (kgetD B.hist h1.toNat [])) }
  if z then s.setTile t (ws.foldl (fun (T : Tile) w => T.accPut w 0 none) (s.tile t)) else s

/-! ### Attention (R196, R331) -/

/-- a / b with one rounding. -/
def fdiv (a b : W32) : W32 :=
  match fval a, fval b with
  | .nan, _ => nanW
  | _, .nan => nanW
  | .inf _, .inf _ => nanW
  | .inf n, v => fenc (.inf (n != v.neg?))
  | .fin n _ _, .inf k => fenc (.fin (n != k) 0 0)
  | .fin n m e, .fin k l f =>
    if l = 0 then (if m = 0 then nanW else fenc (.inf (n != k)))
    else
      let sh := 64 + bitLen l
      let q := m * 2 ^ sh / l
      fenc (.fin (n != k) (2 * q + (if m * 2 ^ sh % l = 0 then 0 else 1)) (e - f - sh - 1))

/-- The greater of two values, NaN when either is (R196). -/
def maxNan (a b : W32) : W32 := if (fval a).isNan || (fval b).isNan then nanW else fmax a b

/-- One key-value block of a span: its surviving token rows with their keys, the value rows by token, and its mark. -/
structure KvBlock where
  js : List (Nat × List (List FV))
  vals : List (List FV)
  bad : Option Mark
  deriving Repr

/-- The token rows J of a span's block (R331). -/
def AttnRec.rowsOf (a : AttnRec) (i surv : Nat) : List Nat :=
  (List.range 64).filter fun j => surv.testBit j && !(i == 0 && decide (j < a.tok0)) && !(i + 1 == a.nblk && decide (a.tokend ≤ j))

/-- Reads block i of a span. -/
def State.kvBlock (s : State) (t : Nat) (c : EngCmd) (B : Block) (a : AttnRec) (i : Nat) : Option (State × KvBlock) :=
  let rk := nbytes a.kfmt 128
  let rv := nbytes a.vfmt 128
  match s.engRead t c B 1 (a.kvel + 32 * i + 16) 8 with
  | none => none
  | some (s, sv) =>
    let js := a.rowsOf i (leNat (sv.map (·.1)))
    match foldOpt (fun (acc : State × List (Nat × List PByte × List PByte)) j =>
        match acc.1.engRead t c B 1 (a.ktile + a.stride * i + rk * j) rk with
        | none => none
        | some (s, k) =>
          match s.engRead t c B 1 (a.vtile + a.stride * i + rv * j) rv with
          | none => none
          | some (s, v) => some (s, acc.2 ++ [(j, k, v)])) (s, []) js with
    | none => none
    | some (s, kv) =>
      some (s, { js := kv.map fun x => (x.1, rowBlocks a.kfmt (x.2.1.map (·.1)))
                 vals := (List.range 64).map fun j =>
                   match kv.find? fun x => x.1 == j with
                   | some x => (cut (fmtUnit a.vfmt).2 (x.2.2.map (·.1))).flatMap (decodeUnit a.vfmt)
                   | none => []
                 bad := markOf sv <|> kv.findSome? fun x => markOf (x.2.1 ++ x.2.2) })

/-- The running maximum, sum and output of a query row. -/
structure AttnRow where
  m : W32
  l : W32
  o : List W32
  deriving DecidableEq, Repr

/-- One block of a span for one query row (R196). -/
def attnStep (a : AttnRec) (q : List (List FV)) (st : AttnRow) (b : KvBlock) : AttnRow :=
  if b.js.isEmpty then st
  else
    let one := List.replicate q.length (FV.fin false 1 0)
    let ts := b.js.map fun (j, k) => (j, fmul (dotBlocks (dxOf a.kfmt).isSome 0 q k one one) a.c)
    let m' := ts.foldl (fun m x => maxNan m x.2) st.m
    let al := fexp2 (fsub st.m m')
    let ps := ts.map fun x => (x.1, fexp2 (fsub x.2 m'))
    let sum := match ps with
      | [] => (0 : W32)
      | p :: r => r.foldl (fun x y => fadd x y.2) p.2
    let l' := fadd (fmul st.l al) sum
    let g := (elemOf a.vfmt).getD f16
    let pv := (List.range 64).map fun j =>
      match ps.find? fun x => x.1 == j with
      | some x => g.value (g.encode (fval x.2))
      | none => FV.fin false 0 0
    let o' := st.o.zipIdx.map fun (o, d) =>
      let vs := b.vals.map fun v => v.getD d (FV.fin false 0 0)
      ((cut 32 pv).zip (cut 32 vs)).foldl (fun acc x => groupStep acc x.1 x.2) (fmul o al)
    ⟨m', l', o'⟩

/-- ATTN (R330, R331). -/
def State.attn (s : State) (t : Nat) (c : EngCmd) (B : Block) : Option State :=
  let a := AttnRec.ofBytes c.aux
  let O := c.d1
  match s.tileRows t c B c.d2 with
  | none => none
  | some (s, rows) =>
    match foldOpt (fun (acc : State × List KvBlock) i =>
        match acc.1.kvBlock t c B a i with
        | none => none
        | some (s, b) => some (s, acc.2 ++ [b])) (s, []) (List.range a.nblk) with
    | none => none
    | some (s, bs) =>
      let kvBad := c.bad <|> bs.findSome? (·.bad)
      some (s.setTile t ((List.range O.rows).foldl (fun (T : Tile) r =>
        let row := rows.getD r []
        let wm := a.ml + 64 * r
        let ws := (List.range 128).map fun d => O.accAt r d
        let bad := kvBad <|> markOf row <|> (if a.init then none else (wm :: (wm + 1) :: ws).findSome? fun w => kget T.accPoison w)
        let st : AttnRow :=
          if a.init then ⟨a.sink.getD (r / a.hrows) 0, 0x3F800000, List.replicate 128 0⟩
          else ⟨T.accGet wm, T.accGet (wm + 1), ws.map T.accGet⟩
        let st := bs.foldl (attnStep a (rowBlocks c.d2.fmt (row.map (·.1)))) st
        let out := if a.final then st.o.map fun o => fdiv o st.l else st.o
        let T := (T.accPut wm st.m bad).accPut (wm + 1) st.l bad
        (ws.zip out).foldl (fun (T : Tile) x => T.accPut x.1 x.2 bad) T) (s.tile t)))

/-! ### Commands as a whole -/

/-- A command of a tile. -/
def Tile.cmd (T : Tile) (id : Nat) : Option EngCmd := (T.copyQ ++ T.arrayQ).find? fun c => c.id == id

/-- Replaces a command of a tile. -/
def Tile.setCmd (T : Tile) (c : EngCmd) : Tile :=
  let f : EngCmd → EngCmd := fun x => if x.id == c.id then c else x
  { T with copyQ := T.copyQ.map f, arrayQ := T.arrayQ.map f }

/-- Whether a command of the array queue may run: it is the first, and no link holds it (R306, R317). -/
def Tile.arrayFirst (T : Tile) (c : EngCmd) : Bool :=
  match T.arrayQ with
  | [] => false
  | x :: _ => x.id == c.id && (!takesLinks c.cmd || c.phase != 0)

/-- One advance of an array command: what it does, and whether it then only waits for acknowledgements. -/
def State.arrayAdvance (s : State) (t : Nat) (c : EngCmd) (B : Block) : Option (State × EngCmd) :=
  if !(s.tile t).arrayFirst c then none
  else if 2 ≤ c.phase then (if c.wait.isEmpty then some (s, { c with phase := 3 }) else none)
  else
    let done : Option State → Option (State × EngCmd) := fun o => o.map fun s => (s, { c with phase := 3 })
    match c.cmd with
    | .mload _ _ _ => done (s.mload t c B)
    | .mswap _ mask =>
      let T := s.tile t
      let p := swapPlanes mask (T.active, T.shadow)
      done (some (s.setTile t { T with active := p.1, shadow := p.2 }))
    | .mmul _ _ _ _ => done (s.mmul t c B)
    | .accz _ _ => done (some (s.setTile t (c.d1.cells.flatten.foldl (fun (T : Tile) w => T.accPut w 0 none) (s.tile t))))
    | .histclr _ h => done (some (s.mapBlock c.uid fun B => { B with hist := kdel B.hist h.toNat }))
    | .attn _ _ _ _ => done (s.attn t c B)
    | .accdrn _ h1 _ z _ =>
      let rows := drainRows (s.tile t) c
      if c.d1.space = 1 then
        done ((s.putSpadRows B [c.d1.w0.toNat / 2 ^ 30] rows).map fun s => s.drainEnd t c h1 z)
      else
        match s.putRows t c rows with
        | none => none
        | some (s, c) => some (if c.phase = 2 then s.drainEnd t c h1 z else s, c)
    | _ => done (some s)

/-- One advance of a command; none when it can do nothing now. -/
def State.cmdAdvance (s : State) (t : Nat) (c : EngCmd) (B : Block) : Option (State × EngCmd) :=
  if isArrayCmd c.cmd then s.arrayAdvance t c B
  else if c.phase < 2 then s.copyPayload t c B
  else if c.phase = 2 then s.copyClose t c
  else none

/-- The completion value after command n has completed (R151). -/
def Timeline.complete (L : Timeline) (n : W32) : Timeline :=
  let ahead := n :: L.ahead
  let k := (ahead.foldl (fun (c : W32) _ => if ahead.contains (c + 1) then c + 1 else c) L.compl)
  { L with compl := k, ahead := ahead.filter fun x => !geq k x }

/-- A command completes: its remaining bytes are counted, it leaves its queue, links to it are met, and its counter
advances, which may wake parked waits (R151, R316, R317). -/
def State.cmdFinish (s : State) (t : Nat) (c : EngCmd) (B : Block) : Option State :=
  match (if c.counted < c.countTotal ∧ c.barriers ≠ [] then s.countBytes c B (c.countTotal - c.counted) else some s) with
  | none => none
  | some s =>
    let T := s.tile t
    let T := { T with
      copyQ := T.copyQ.filter fun x => x.id != c.id
      arrayQ := (T.arrayQ.filter fun x => x.id != c.id).map fun x => { x with links := x.links.filter (· != c.id) }
      links := kmap T.links fun _ l => l.filter (· != c.id) }
    let s := s.setTile t T
    let s := s.mapBlock c.uid fun B => { B with tcs := kset B.tcs c.tc.toNat ((B.tl c.tc).complete c.num) }
    match T.blocks.find? fun (_, B) => B.uid == c.uid with
    | none => some s
    | some (ctx, _) =>
      let compl := match s.findBlock c.uid with | some (_, _, B) => (B.tl c.tc).compl | none => 0
      some ((s.wakeTimeline t c.uid c.tc compl).settleBlock t ctx)

/-- Advances a command as far as it can go; none when it cannot move. -/
def State.cmdRun (t id : Nat) : Nat → State → Option State
  | 0, _ => none
  | n + 1, s =>
    match (s.tile t).cmd id with
    | none => none
    | some c =>
      match (s.tile t).blocks.find? fun (_, B) => B.uid == c.uid with
      | none => none
      | some (_, B) =>
        if c.phase = 3 then (if c.wait.isEmpty then s.cmdFinish t c B else none)
        else
          match s.cmdAdvance t c B with
          | none => none
          | some (s, c) =>
            let s := s.setTile t ((s.tile t).setCmd c)
            match State.cmdRun t id n s with
            | some s => some s
            | none => some s

/-- Whether a tile's engines run. -/
def Tile.runs (T : Tile) : Bool := decide (T.mode = .run)

/-- ENGINE_COMMAND_COMPLETE (R151): the command goes on as far as it can, to its completion when nothing is left to wait
for. -/
def execEngineCommandComplete (t id : Nat) (s : State) : Out1 :=
  if (s.tile t).runs then
    match State.cmdRun t id 8 s with
    | some s => .next s
    | none => .next s
  else .next s

/-- BARRIER_BYTE_COUNT (R298, R316): n bytes of a counted copy, its payload performed, are counted on its barrier. -/
def execBarrierByteCount (t id n : Nat) (s : State) : Out1 :=
  if (s.tile t).runs then
    match (s.tile t).cmd id with
    | none => .next s
    | some c =>
      match (s.tile t).blocks.find? fun (_, B) => B.uid == c.uid with
      | none => .next s
      | some (_, B) =>
        if c.barriers = [] ∨ n = 0 ∨ c.countTotal < c.counted + n then .next s
        else
          let r :=
            if c.phase = 0 then
              match s.copyPayload t c B with
              | some (s, c) => if c.phase = 1 then s.copyPayload t c B else some (s, c)
              | none => none
            else if c.phase = 1 then s.copyPayload t c B
            else some (s, c)
          match r with
          | none => .next s
          | some (s', c) =>
            if c.phase < 2 then .next (s'.setTile t ((s'.tile t).setCmd c))
            else
              match s'.countBytes c B n with
              | none => .next s
              | some s => .next (s.setTile t ((s.tile t).setCmd { c with counted := c.counted + n }))
  else .next s

/-- LINKED_START (R317): a held MMUL or ATTN starts once every copy it waits for has completed. -/
def execLinkedStart (t id : Nat) (s : State) : Out1 :=
  let T := s.tile t
  match T.arrayQ with
  | [] => .next s
  | c :: _ =>
    if c.id = id ∧ T.runs ∧ takesLinks c.cmd ∧ c.phase = 0 ∧ c.links = [] then .next (s.setTile t (T.setCmd { c with phase := 1 }))
    else .next s

end Sys2Proof.Machine
end

