-- ==== Sys2Proof/Machine/Lost.lean ====
section
/-!
DEFINITION. Answers to packets that reach an engine, a reduction or a lane, and packets that are lost (02_links.md R25, R37,
R38; 13_traps_faults.md R206; 19_engine_instructions.md R321, R332).
-/
namespace Sys2Proof.Machine

/-- A command by its name: on the tile that sent, or in the image of a sheaf of it, wherever that stands now. -/
def State.findCmd (s : State) (t id : Nat) : Option EngCmd :=
  match (s.tile t).cmd id with
  | some c => some c
  | none =>
    match s.tiles.findSome? fun (_, T) => T.cmd id with
    | some c => some c
    | none => s.parts.findSome? fun (_, P) => P.sheaves.findSome? fun (_, h) => h.image.cmd id

/-- Replaces a command wherever it stands. -/
def State.putCmd (s : State) (t : Nat) (c : EngCmd) : State :=
  if ((s.tile t).cmd c.id).isSome then s.setTile t ((s.tile t).setCmd c)
  else
    { s with tiles := kmap s.tiles fun _ T => if (T.cmd c.id).isSome then T.setCmd c else T
             parts := kmap s.parts fun _ P => { P with sheaves := kmap P.sheaves fun _ h =>
               if (h.image.cmd c.id).isSome then { h with image := h.image.setCmd c } else h } }

/-- An answer takes its effect on an engine command: the bytes it read, and a report that is held for its block (R206, R321). -/
def State.engTake (s : State) (t id name : Nat) (got : List (Nat × Byte)) (bad : Option (Nat × Byte × Nat)) : State :=
  match s.findCmd t id with
  | none => s
  | some c =>
    let s := s.putCmd t { c with wait := c.wait.filter (· != name), lost := c.lost || bad.isSome, got := got.foldl (fun m x => kset m x.1 x.2) c.got }
    match bad with
    | none => s
    | some (8, _, addr) => s.reportTo c.uid ⟨7, 8, wordOf c.cmd ||| BitVec.ofNat 64 (addr % 2 ^ 32 * 2 ^ 32)⟩
    | some (g, code, addr) => s.reportTo c.uid ⟨g, code, BitVec.ofNat 64 addr⟩

/-- The draining tile a command stands on, if one does. -/
def State.drainingOf (s : State) (id : Nat) : Option Nat :=
  (s.tiles.find? fun (_, T) => (match T.mode with | .drain _ _ => true | _ => false) && (T.cmd id).isSome).map (·.1)

/-- An answer reaches an engine command: a draining tile puts it into its return log (R90). -/
def State.engAnswer (s : State) (t id name : Nat) (got : List (Nat × Byte)) (bad : Option (Nat × Byte × Nat)) : State :=
  match s.drainingOf id with
  | some x => s.setTile x { s.tile x with retlog := (s.tile x).retlog ++ [.engine id name got bad] }
  | none => s.engTake t id name got bad

/-- A request that is lost is reported to its owner with group 15, CODE 6 (R25). -/
def State.loseOut (s : State) (o : Out) : State :=
  let addr := o.pk.addr.toNat
  match o.owner with
  | .access _ _ _ => match o.lostResp with | some r => s.deliver r | none => s
  | .engine t id => s.engAnswer t id o.id [] (some (15, 6, addr))
  | .reduce who => who.foldl (fun s w => s.engAnswer w.1 w.2.1 w.2.2 [] (some (15, 6, addr))) s
  | .grid _ => s
  | .none => s

/-- The waiting packets move on; those without a way are lost. -/
def State.pump (s : State) : State :=
  let (s, lost) := s.pumpFabric
  lost.foldl State.loseOut s

/-- A request is answered: it no longer counts against its port (R29). -/
def State.closeOut (s : State) (o : Out) : State :=
  let s := { s with outs := s.outs.filter fun x => x.id != o.id }
  match o.port with
  | some p => let P := s.port p; s.setPort p { P with carried := P.carried.filter (· != o.id) }
  | none => s

/-- The request an answer belongs to: the same node, endpoint, tag and address. -/
def State.outOf (s : State) (pk : Packet) : Option Out :=
  s.outs.find? fun o => o.id != 0 && o.port.isSome && o.pk.dnode == pk.snode && o.pk.tag == pk.tag && o.pk.addr == pk.addr

/-- A request of this package is answered: `data` of a READDATA or ATOMRES, or an ERROR code (R382, log 28). -/
def State.answerOut (s : State) (o : Out) (data : List Byte) (error : Bool) : State :=
  let s := s.closeOut o
  let addr := o.pk.addr.toNat
  match o.owner with
  | .access t q l =>
    if error then
      -- the spec gives no report to a lane: the access completes with a free value
      let x : BitVec 128 := (Config.freeWord s.free 0).setWidth 128 ||| ((Config.freeWord s.free 1).setWidth 128 <<< 64)
      ({ s with free := s.free + 1 }).deliver ⟨dieOf t, t, q, l, x, false, false, none, none, none, none⟩
    else s.deliver ⟨dieOf t, t, q, l, dataOf data, false, false, none, none, none, none⟩
  | .engine t id =>
    let fa := o.pk.dnode.toNat * 2 ^ 42 + addr
    let got := if o.pk.op = opRead then data.zipIdx.map fun (b, k) => (fa + k, b) else []
    s.engAnswer t id o.id got (if error then some (8, 0, addr) else none)
  | .reduce who => who.foldl (fun s w => s.engAnswer w.1 w.2.1 w.2.2 [] (if error then some (8, 0, addr) else none)) s
  | .grid _ => s
  | .none => s

end Sys2Proof.Machine
end

