-- ==== Sys2Proof/Machine/Sheaf.lean ====
section
/-!
DEFINITION. Freezing a tile, its sheaf, restoring it, and the debug port (06_sheaves.md R89 to R102; 05_scheduler.md R81;
11_skeins.md R184, R189; 13_traps_faults.md R216).
-/
namespace Sys2Proof.Machine

/-! ### Slots (R45) -/

/-- The sheaf-store slot of a tile of a partition: its place among the partition's tiles. -/
def Part.slotOf (P : Part) (t : Nat) : Nat := (P.tiles.takeWhile fun x => x != t).length

/-- Whether the slot of a tile holds no sheaf. -/
def State.slotFree (s : State) (t : Nat) : Bool :=
  match (s.partOfTile t).bind s.part with
  | some P => (kget P.sheaves (P.slotOf t)).isNone
  | none => false

/-! ### Sheaves that belong together (R81, R93) -/

/-- What binds the blocks of an image to those of others: the grid of a cooperative launch, or a cluster group. -/
def Tile.bonds (T : Tile) : List (Nat × Nat) :=
  T.blocks.filterMap fun (_, B) =>
    if B.proxy.isSome then none
    else if B.rcd.coop then some (B.grid, 0)
    else if 1 < B.rcd.cgsize then some (B.grid, 1 + B.index / B.rcd.cgsize)
    else none

/-- The images bound to a set of them, by rounds. -/
def boundTo (all : List (Nat × List (Nat × Nat))) : Nat → List Nat → List Nat
  | 0, l => l
  | n + 1, l =>
    let keys := (all.filter fun x => l.contains x.1).flatMap (·.2)
    let l' := (all.filter fun x => l.contains x.1 || x.2.any fun k => keys.contains k).map (·.1)
    if l'.length = l.length then l else boundTo all n l'

/-- The slots whose sheaves must be restored with a slot's. -/
def Part.boundSlots (P : Part) (slot : Nat) : List Nat :=
  boundTo (P.sheaves.map fun (k, h) => (k, h.image.bonds)) P.sheaves.length [slot]

/-- The running tiles of a partition that must be frozen with a tile. -/
def State.boundTiles (s : State) (P : Part) (t : Nat) : List Nat :=
  boundTo (P.tiles.filterMap fun x => if (s.tile x).idle then none else some (x, (s.tile x).bonds)) 256 [t]

/-! ### The freeze (R89, R101, R184) -/

/-- The skeins with a gang, or their owner, on a tile: partition, name, skein. -/
def State.skeinsAt (s : State) (t : Nat) : List (Nat × Nat × Skein) :=
  s.parts.flatMap fun (p, P) =>
    (P.skeins.filter fun (_, K) => K.tile == t || !(K.stagesOn t).isEmpty).map fun (k, K) => (p, k, K)

/-- Whether the copy of a switch is under way. -/
def Skein.copying (K : Skein) : Bool :=
  match K.sw with
  | .copying _ | .unreelCopy | .exportCopy => true
  | _ => false

/-- The requests of a tile outstanding on the request, response, reduce and signal channels (R95): requests to other dies count
on the request channel. -/
def State.outstanding (s : State) (t : Nat) : List Nat :=
  let mine := s.outs.filter fun o => o.die == dieOf t && o.ni == t % 64 && o.port.isSome
  (List.range 4).map fun v => (mine.filter fun o => o.pk.vc.toNat == v).length + (if v = 0 then (s.onWay t).length else 0)

/-- A freeze request reaches a tile (R101): one that runs work stops and drains; a switch that has not begun its copy is
cancelled, and one that copies defers the freeze (R184). A tile that holds continuations is not empty (log 60). -/
def State.startFreeze (s : State) (t : Nat) (kind : FreezeKind) : State :=
  let T := s.tile t
  match T.mode with
  | .run =>
    if T.idle then s
    else
      let ks := s.skeinsAt t
      match ks.find? fun x => x.2.2.copying with
      | some (p, k, K) => s.setSkein p k { K with freezeDefer := K.freezeDefer ++ [(t, kind)] }
      | none =>
        let s := ks.foldl (fun s x => s.skeinAbort x.1 x.2.1 3) s
        s.setTile t { s.tile t with mode := .drain kind false, fusec := (s.die (dieOf t)).dusec, vcout := s.outstanding t }
  | .load slot none => s.setTile t { T with mode := .load slot (some kind) }
  | _ => s

/-- A tile is frozen with the tiles whose blocks belong together with its own: those of a cluster group, or of a cooperative
grid (R81, R93). -/
def State.freezeTile (s : State) (t : Nat) (kind : FreezeKind) : State :=
  match (s.partOfTile t).bind s.part with
  | none => s
  | some P => ((t :: (s.boundTiles P t).filter fun x => x != t)).foldl (fun s x => s.startFreeze x kind) s

/-- Freezes that a switch deferred take effect on the tiles as they now stand (R184). -/
def State.deferredFreezes (s : State) (l : List (Nat × FreezeKind)) : State :=
  l.foldl (fun s x => s.freezeTile x.1 x.2) s

/-- Whether the slots of a tile and of those that are frozen with it hold no sheaf (R81). -/
def State.slotsFree (s : State) (t : Nat) : Bool :=
  match (s.partOfTile t).bind s.part with
  | some P => (t :: s.boundTiles P t).all s.slotFree
  | none => false

/-- A switch whose time is over is dropped, LAST 2 (R184); after a reel of the distributor the tiles that hold stage gangs
are frozen (R188). -/
def State.timeoutSkein (s : State) (p k : Nat) : State :=
  match s.skein p k with
  | none => s
  | some K =>
    if s.skeinTimedOut K then
      let byDist := match K.sw with | .gathering true _ => true | _ => false
      let s := s.skeinAbort p k 2
      if byDist then
        K.stages.foldl (fun s st =>
          match st.place with | .gang t _ => if s.slotsFree t then s.freezeTile t .plain else s | _ => s) s
      else s
    else s

/-- FREEZE_REQUEST (R89, R93). -/
def execFreezeRequest (t : Nat) (kind : FreezeKind) (s : State) : Out1 :=
  if s.released && (s.partOfTile t).isSome then .next (s.freezeTile t kind) else .next s

/-- Whether rows are on their way to a consuming endpoint of a tile (R92). -/
def State.rowsComing (s : State) (t : Nat) : Bool :=
  (s.skeinsAt t).any fun (_, _, K) => K.links.zipIdx.any fun (l, n) =>
    l.made && !l.flight.isEmpty && (match K.stages[n + 1]? with | some st => (match st.place with | .gang t' _ => t' == t | _ => false) | none => false)

/-- Whether the NI of a tile still waits for a response or an acknowledgement of what it has sent, or for a row that is on its
way to it (R90, R92). -/
def State.draining (s : State) (t : Nat) : Bool :=
  let mine : Msg → Bool := fun m => m.tile == t && m.flow.isNone && (match m.body with | .announce _ => false | _ => true)
  s.wire.any mine || s.dies.any (fun (_, D) => D.inbox.any mine || D.outq.any mine) || s.resps.any (fun r => r.tile == t) ||
  s.rowsComing t ||
  s.outs.any fun o => o.port.isSome &&
    match o.owner with
    | .access t' _ _ | .engine t' _ => t' == t
    | .reduce who => who.any fun w => w.1 == t
    | _ => false

/-- DRAIN_COMPLETE (R90, R101): the last answer has come. A debug freeze whose port holds the tile keeps the image in it; another
streams once its slot holds no sheaf (log 63). An image held, or a save pending, streams when its slot is free. -/
def execDrainComplete (t : Nat) (s : State) : Out1 :=
  let T := s.tile t
  match T.mode with
  | .drain kind _ =>
    if s.draining t then .next s
    else if kind = .debug true then .next (s.setTile t { T with mode := .halt false })
    else if s.slotFree t then .next (s.setTile t { T with mode := .save })
    else .next (s.setTile t { T with mode := .drain kind true })
  | .halt true => if s.slotFree t then .next (s.setTile t { T with mode := .save }) else .next s
  | _ => .next s

/-! ### The sheaf (R94 to R96) -/

/-- The links whose consuming endpoint is in use on a tile: partition, skein, link number, the link, and the endpoint's number (R95). -/
def State.endpointLinks (s : State) (t : Nat) : List (Nat × Nat × Nat × SkLink × Nat) :=
  (s.skeinsAt t).flatMap fun (p, k, K) =>
    (K.links.zipIdx.filterMap fun (l, n) =>
      match K.stages[n + 1]? with
      | some st =>
        match st.place with
        | .gang t' g =>
          if t' = t ∧ l.made then
            let ctx := match kget (s.tile t).gangs g with | some G => G.ctx | none => 0
            some (p, k, n, l, 64 * ctx + l.ch)
          else none
        | _ => none
      | none => none)

/-- Endpoint records of a tile: endpoint number, items held, free slots last advertised (R95), which are those the producer
holds credits for and those of notices on their way to it. -/
def State.endpoints (s : State) (t : Nat) : List (Nat × Nat × Nat) :=
  (s.endpointLinks t).map fun (_, _, _, l, e) => (e, (l.rows.filter fun r => r.isSome).length, l.credits + l.notices)

/-- A tile after its image has been written: its arrays hold what they held, a scrub that was due is still due, and nothing runs
on it. -/
def Tile.vacated (T : Tile) : Tile :=
  { Tile.reset with vf := T.vf, world := T.world, scrub := T.scrub, bpc := T.bpc, acc := T.acc, accPoison := T.accPoison,
                    active := T.active, shadow := T.shadow, l1 := T.l1, icache := T.icache, tlb := T.tlb }

/-- Whether a word of an image carries a poison mark that a save gave it (R95, R96). -/
def Tile.spoiled (T : Tile) : Bool :=
  let m : KMap Mark → Bool := fun l => l.any fun x => x.2 == .sheaf
  (T.subs.any fun (_, U) => U.slices.any fun (_, S) => !S.bad.isEmpty || S.lanes.any fun L => !L.bad.isEmpty) ||
  T.conts.any (fun (_, c) => !c.bad.isEmpty) || T.blocks.any (fun (_, B) => m B.spadPoison) || m T.accPoison ||
  T.active.any (fun (_, p) => m p.bad) || T.shadow.any (fun (_, p) => m p.bad) ||
  T.gangs.any fun (_, G) => G.retry.late == some (15, 7, 0xFF, 0)

/-- The bytes of a sheaf's header with their offsets (R95), for the vf of its blocks and a CRC. -/
def Sheaf.header (h : Sheaf) (crc : Word) : List (Nat × List Byte) :=
  let im := h.image
  let status := (if h.complete then 1 else 0) + (if h.poison then 2 else 0)
  let ep := fun k => match h.held.find? fun x => x.1 == k with
    | some (_, n, adv) => 2 ^ 31 + n % 64 * 2 ^ 25 + adv % 64 * 2 ^ 19
    | none => 0
  [(0, natLe 4 0x53484541), (4, natLe 4 h.rev.toNat), (8, natLe 2 h.src), (0xA, natLe 1 h.part),
   (0xB, natLe 1 (if im.world then 1 else 0)), (0xC, natLe 2 im.vf), (0xE, natLe 2 status), (0x10, natLe 8 h.fusec.toNat),
   (0x18, h.vsnap.flatMap fun x => natLe 4 x.toNat), (0x2C, natLe 2 im.retlog.length), (0x2E, natLe 2 0),
   (0x30, im.vcout.flatMap (natLe 2)), (0x38, natLe 8 0), (0x40, (List.range 1024).flatMap fun k => natLe 4 (ep k)),
   (0x1040, List.replicate 4024 0), (0x1FF8, natLe 8 crc.toNat)]

/-- The header of a sheaf is written at its slot (R94, R95). The CRC is over sections whose inner layout the spec does not give,
so its value is free (log 19). -/
def State.writeHeader (s : State) (P : Part) (slot : Nat) (h : Sheaf) : State :=
  (h.header (Config.freeWord s.free 0)).foldl (fun s x => s.putBytes (P.ssbase + slot * 2 ^ 22 + x.1) x.2) { s with free := s.free + 1 }

/-- SHEAF_SAVE_DONE (R96, R101): the image with its outbound queue, the CRC and COMPLETE are written; the tile becomes VACANT. -/
def execSheafSaveDone (t : Nat) (s : State) : Out1 :=
  let T := s.tile t
  match T.mode, s.partOfTile t, (s.partOfTile t).bind s.part with
  | .save, some p, some P =>
    let outs := s.outs.filter fun o => o.die == dieOf t && o.ni == t % 64 && o.port.isNone
    let h : Sheaf := { complete := true, restoring := false, crcOk := true, magicOk := true, part := p, src := t, rev := trevOf t,
                       fusec := T.fusec, vsnap := s.carried t, poison := T.spoiled, held := s.endpoints t, outs := outs, image := T }
    let s := (outs.reverse.foldl State.leaveFlow s).writeHeader P (P.slotOf t) h
    .next ((s.setPart p { P with sheaves := kset P.sheaves (P.slotOf t) h }).setTile t T.vacated)
  | _, _, _ => .next s

/-! ### Restoring (R97 to R99) -/

/-- The check of R97 that fails first. -/
def State.restoreCode (p : Nat) (h : Sheaf) (t : Nat) : Option Nat :=
  if !(h.magicOk && h.complete) then some 4
  else if !h.crcOk then some 2
  else if h.part ≠ p then some 3
  else if h.rev ≠ trevOf t then some 1
  else none

/-- A refusal is logged in PSHLOG (R97, R99). -/
def Part.refuse (P : Part) (slot code : Nat) : Part :=
  { P with refused := if P.refused = 0xFFFF then P.refused else P.refused + 1, lastSlot := BitVec.ofNat 8 slot,
           lastErr := BitVec.ofNat 4 code }

/-- Whether two tiles stand in one cluster (R8). -/
def sameCluster (a b : Nat) : Bool := a / 64 == b / 64 && a % 64 / 16 == b % 64 / 16 && a % 8 / 2 == b % 8 / 2

/-- Whether the places of cluster groups admit a sheaf on tile t: the others of a group that are being restored stand in
the same cluster, and for a group of two in the same row (R93, R76). -/
def State.groupFits (s : State) (P : Part) (h : Sheaf) (t : Nat) : Bool :=
  P.tiles.all fun x =>
    match (s.tile x).mode with
    | .load slot _ =>
      match kget P.sheaves slot with
      | none => true
      | some o => h.image.blocks.all fun (_, B) =>
          o.image.blocks.all fun (_, C) =>
            if B.proxy.isNone && C.proxy.isNone && B.grid == C.grid && decide (1 < B.rcd.cgsize) &&
                B.index / B.rcd.cgsize == C.index / C.rcd.cgsize
            then sameCluster x t && (B.rcd.cgsize != 2 || x / 8 == t / 8) else true
    | _ => true

/-- Whether a place lies within the FDP scope of an evacuated sheaf: 0 and 1 its field, 2 its die, 3 any (R64, R216). -/
def State.scopeFits (s : State) (h : Sheaf) (t : Nat) : Bool :=
  !s.tfence.contains h.src ||
  h.image.blocks.all fun (_, B) =>
    match kget s.grids B.grid with
    | none => true
    | some G =>
      match (G.fdp.setWidth 2).toNat with
      | 3 => true
      | 2 => dieOf t == dieOf h.src
      | _ => fieldOf t == fieldOf h.src

/-- Whether the region of a block is exhausted (R72). -/
def State.exhaustedBlock (s : State) (P : Part) (B : Block) : Bool :=
  match (kget s.grids B.grid).bind fun G => kget P.queues G.queue with
  | some q => q.st == .exhausted
  | none => false

/-- Whether no block of a sheaf belongs to an exhausted region, so that it may be restored (R72). -/
def State.restorable (s : State) (P : Part) (h : Sheaf) : Bool := !(h.image.blocks.any fun (_, B) => s.exhaustedBlock P B)

/-- The sheaves that a fenced tile's held image waits for: they come before all others (R216). -/
def State.urgentSlots (s : State) (P : Part) : List Nat :=
  (P.tiles.filter fun x => s.tfence.contains x && (match (s.tile x).mode with | .drain _ true => true | _ => false)).filterMap fun x =>
    match kget P.sheaves (P.slotOf x) with
    | some h => if s.restorable P h && !h.restoring then some (P.slotOf x) else none
    | none => none

/-- Whether a tile is empty for a restore (R97, R216). -/
def State.emptyTile (s : State) (P : Part) (t : Nat) : Bool :=
  let T := s.tile t
  P.hasTile t && !s.tfence.contains t && T.idle && (match T.mode with | .run | .vacant => true | _ => false)

/-- Every name of a tile's place follows its image to another tile: skeins, stage gangs and cluster peers. -/
def State.moveNames (s : State) (im : Tile) (src t : Nat) : State :=
  let own := im.blocks.map fun (_, B) => B.uid
  let parts := kmap s.parts fun _ P => { P with skeins := kmap P.skeins fun _ K =>
    { K with tile := if own.contains K.uid then t else K.tile
             stages := K.stages.map fun st =>
               match st.place with
               | .gang t' g => if t' = src ∧ (kget im.gangs g).isSome then { st with place := .gang t g } else st
               | _ => st } }
  let fix : Block → Block := fun X =>
    match im.blocks.find? fun (_, B) => B.proxy.isNone && X.proxy.isNone && B.grid == X.grid && decide (1 < X.rcd.cgsize) &&
        B.index / X.rcd.cgsize == X.index / X.rcd.cgsize with
    | some (c, B) => { X with peers := X.peers.set B.pos (t, c) }
    | none => X
  let fixT : Tile → Tile := fun T => { T with blocks := kmap T.blocks fun _ X => fix X }
  { s with tiles := kmap s.tiles fun _ T => fixT T
           parts := kmap parts fun _ P => { P with sheaves := kmap P.sheaves fun _ h => { h with image := fixT h.image } } }

/-- A block that is its own group names its own place. -/
def Tile.ownPeers (T : Tile) (t : Nat) : Tile :=
  { T with blocks := kmap T.blocks fun c B => if B.peers.length ≤ 1 then { B with peers := [(t, c)] } else B }

/-- Bins of a restored tile are READY (R84). -/
def Tile.readyBins (T : Tile) (stamp : Nat) : Tile :=
  { T with bins := kmap T.bins fun _ b => { b with st := match b.st with | .filling _ => .ready stamp | x => x } }

/-- The return log of a tile is applied to its own arrays in order (R98). -/
def State.applyRetlog (s : State) (t : Nat) : State :=
  let l := (s.tile t).retlog
  let s := s.setTile t { s.tile t with retlog := [] }
  l.foldl (fun s x =>
    match x with
    | .access r => s.absorb { r with tile := t }
    | .engine id name got bad => s.engTake t id name got bad) s

/-- Changes a link of a skein. -/
def State.mapLink (s : State) (p k n : Nat) (f : SkLink → SkLink) : State :=
  match s.skein p k with
  | some K => match K.links[n]? with | some l => s.setSkein p k (K.setLink n (f l)) | none => s
  | none => s

/-- Every producer's credit count for an endpoint of a tile is set from ADV (R98, step 4): the free slots advertised, less those
of notices still on their way. -/
def State.setCredits (s : State) (t : Nat) (held : List (Nat × Nat × Nat)) : State :=
  (s.endpointLinks t).foldl (fun s (p, k, n, _, e) =>
    match held.find? fun x => x.1 == e with
    | some (_, _, adv) => s.mapLink p k n fun l => { l with credits := adv - l.notices }
    | none => s) s

/-- The rows that wait at their senders' NIs for the endpoints of a tile are released, each with one credit (R92, R98, step 5). -/
def State.releaseItems (s : State) (t : Nat) : State :=
  (s.endpointLinks t).foldl (fun s (p, k, n, _, _) => s.mapLink p k n fun l =>
    { l with flight := l.flight ++ l.waiting, credits := l.credits - (l.waiting.filter Option.isSome).length, waiting := [] }) s

/-- The owner of a request of a tile's outbound queue, on the tile it now stands on. -/
def Owner.on (o : Owner) (t : Nat) : Owner :=
  match o with
  | .access _ q l => .access t q l
  | .engine _ id => .engine t id
  | o => o

/-- One sheaf is loaded onto the tile it was assigned to, and the tile runs (R98, R99). A scrub the image's tile was waiting for
is still due. -/
def State.loadSheaf (s : State) (p slot t : Nat) (h : Sheaf) : State :=
  let s := match s.part p with
    | some P => s.setPart p { P with sheaves := kdel P.sheaves slot }
    | none => s
  let s := s.l1Clear t
  let s := s.moveNames h.image h.src t
  -- the image as its names now stand
  let im := h.image
  let own : Block → Block := fun B =>
    if B.proxy.isSome then B
    else
      (im.blocks.filter fun x => x.2.proxy.isNone && x.2.grid == B.grid && x.2.index / x.2.rcd.cgsize == B.index / B.rcd.cgsize).foldl
        (fun (B : Block) x => { B with peers := B.peers.set x.2.pos (t, x.1) }) B
  let im := { im with blocks := kmap im.blocks fun _ B => own B }
  let T := { (im.ownPeers t).readyBins s.stamp with
    mode := .run, carry := some (joinVec (s.die (dieOf t)).vec h.vsnap), l1 := [], icache := [], tlb := [], ranks := [], scrubbed := false }
  let s := { s.setTile t T with stamp := s.stamp + 1 }
  let s := ((s.applyRetlog t).setCredits t h.held).releaseItems t
  h.outs.foldl (fun s o => s.enterFlow o.id (dieOf t) (t % 64) o.pk (o.owner.on t)) s

/-- The tile a slot's sheaf is being restored onto. -/
def State.loadingTile (s : State) (P : Part) (slot : Nat) : Option (Nat × Option FreezeKind) :=
  P.tiles.findSome? fun x => match (s.tile x).mode with | .load k d => if k = slot then some (x, d) else none | _ => none

/-- SHEAF_RESTORE_DONE (R98, R101): the sheaves that belong together run from one moment; a deferred freeze then takes
effect. -/
def execSheafRestoreDone (t : Nat) (s : State) : Out1 :=
  match (s.tile t).mode, s.partOfTile t, (s.partOfTile t).bind s.part with
  | .load slot _, some p, some P =>
    let slots := P.boundSlots slot
    let jobs := slots.filterMap fun k => match kget P.sheaves k, s.loadingTile P k with
      | some _, some (x, d) => some (k, x, d)
      | _, _ => none
    if jobs.length < slots.length then .next s
    else
      let s := jobs.foldl (fun s j =>
        match (s.part p).bind fun P => kget P.sheaves j.1 with
        | some h => s.loadSheaf p j.1 j.2.1 h
        | none => s) s
      .next (jobs.foldl (fun s j => match j.2.2 with | some kind => s.freezeTile j.2.1 kind | none => s) s)
  | _, _, _ => .next s

/-! ### The debug port (R101, R102, R210) -/

/-- A debug report is held for a sub-gang; with no handler it is discarded (R209). -/
def Tile.selectSub (T : Tile) (u : Nat) : Tile :=
  match kget T.subs u with
  | none => T
  | some U =>
    let handler : Word := match (kget T.gangs U.gang).bind fun G => kget T.blocks G.ctx with | some B => B.rcd.handler | none => (0 : Word)
    if handler = 0 then T else T.setSub u { U with reports := U.reports ++ [⟨13, 0, 0⟩] }

/-- DEBUG_RESUME (R101, R210): the tile runs again where it stood, and the selected sub-gangs report group 13. -/
def execDebugResume (t : Nat) (us : List Nat) (s : State) : Out1 :=
  let T := s.tile t
  match T.mode with
  | .halt _ => .next (((s.setTile t (us.foldl Tile.selectSub { T with mode := .run })).applyRetlog t).releaseItems t)
  | _ => .next s

/-- DEBUG_SAVE_REQUEST (R101). -/
def execDebugSaveRequest (t : Nat) (s : State) : Out1 :=
  let T := s.tile t
  match T.mode with
  | .halt _ => .next (s.setTile t { T with mode := if s.slotFree t then .save else .halt true })
  | _ => .next s

/-- A trap register of a slice by its number (R204): TCAUSE, TEPC, TDET0 to TDET2, TSCR0 to TSCR3. -/
def Slice.trapReg (S : Slice) (k : Nat) : Option Word :=
  match k with
  | 0 => some S.tcause | 1 => some S.tepc | 2 => some (S.tdet0.setWidth 64) | 3 => some (S.tdet1.setWidth 64)
  | 4 => some (S.tdet2.setWidth 64) | 5 => some S.tscr0 | 6 => some S.tscr1 | 7 => some S.tscr2 | 8 => some S.tscr3 | _ => none

def Slice.setTrapReg (S : Slice) (k : Nat) (x : Word) : Slice :=
  match k with
  | 0 => { S with tcause := x } | 1 => { S with tepc := x } | 2 => { S with tdet0 := x.setWidth 32 }
  | 3 => { S with tdet1 := x.setWidth 32 } | 4 => { S with tdet2 := x.setWidth 32 } | 5 => { S with tscr0 := x }
  | 6 => { S with tscr1 := x } | 7 => { S with tscr2 := x } | 8 => { S with tscr3 := x } | _ => S

/-- A slice, and a lane of one, by their places. -/
def Tile.sliceAt (T : Tile) (u sl : Nat) : Option Slice := (kget T.subs u).bind fun U => kget U.slices sl
def Tile.laneAt (T : Tile) (u sl ln : Nat) : Option Lane := (T.sliceAt u sl).bind fun S => S.lanes[ln]?

/-- Word w of bytes, four to a word. -/
def wordAt (bs : List Byte) (w : Nat) : Option Word :=
  if 4 * w < bs.length then some (BitVec.ofNat 64 (leNat ((bs.drop (4 * w)).take 4))) else none

/-- Bytes with their word w replaced. -/
def setWordAt (bs : List Byte) (w : Nat) (x : Word) : List Byte :=
  bs.zipIdx.map fun (b, k) => if k / 4 = w then (natLe 4 (x.toNat % 2 ^ 32)).getD (k % 4) b else b

/-- The bytes a held write carries. -/
def Held.bytes (h : Held) : List Byte :=
  match h with
  | .store _ _ _ bs => bs
  | .sapnd _ _ bs => bs
  | .sst _ _ ls => ls.flatMap fun x => natLe 16 x.2.2.toNat

def Held.setBytes (h : Held) (bs : List Byte) : Held :=
  match h with
  | .store l va fa _ => .store l va fa bs
  | .sapnd c n _ => .sapnd c n bs
  | .sst i a ls => .sst i a (ls.zipIdx.map fun (x, k) => (x.1, x.2.1, BitVec.ofNat 128 (leNat ((bs.drop (16 * k)).take 16))))

/-- What a place of an image holds (R102); none where the image has no such place. -/
def Tile.scanGet (T : Tile) (p : ScanPlace) : Option Word :=
  match p with
  | .pc u => (kget T.subs u).map (·.pc)
  | .depth u => (kget T.subs u).map fun U => BitVec.ofNat 64 U.depth
  | .mask u sl => (T.sliceAt u sl).map fun S => S.mask.setWidth 64
  | .live u sl => (T.sliceAt u sl).map fun S => S.live.setWidth 64
  | .stack u sl k => ((T.sliceAt u sl).bind fun S => S.stack[k]?).map fun m => m.setWidth 64
  | .uniform u sl r => (T.sliceAt u sl).map fun S => S.sreg r.toNat
  | .trap u sl k => (T.sliceAt u sl).bind fun S => S.trapReg k
  | .pred u sl ln => (T.laneAt u sl ln).map fun L => L.p.setWidth 64
  | .lane u sl ln r => (T.laneAt u sl ln).map fun L => (L.reg r.toNat).setWidth 64
  | .latch u sl ln k => ((T.laneAt u sl ln).bind fun L => L.ring[k]?).map fun x => x.setWidth 64
  | .spad c w => (kget T.blocks c).bind fun B =>
      if 4 * w < B.rcd.spad * 4096 then some (BitVec.ofNat 64 (B.spadLe (4 * w) 4)) else none
  | .acc a => if a < 2 ^ 18 then some ((kgetD T.acc a 0).setWidth 64) else none
  | .plane act q row w => ((kget (if act then T.active else T.shadow) q).bind fun p => p.rows[row]?).bind fun bs => wordAt bs w
  | .binStore k r => (kget T.conts k).map fun c => ((kget c.regs r).getD ((c.fill.word r).setWidth 32)).setWidth 64
  | .held g k w => ((kget T.gangs g).bind fun G => G.retry.held[k]?).bind fun h => wordAt h.bytes w
  | .timeline c tc => ((kget T.blocks c).bind fun B => kget B.tcs tc).map fun L => L.issue ++ L.compl
  | .retlog k => match T.retlog[k]? with | some (.access r) => some (r.data.setWidth 64) | _ => none
  | .engine id k => (T.cmd id).bind fun c => c.par[k]?

/-- Puts a word into a place of an image (R102); a place the image does not have takes nothing. -/
def Tile.scanPut (T : Tile) (p : ScanPlace) (v : Word) : Tile :=
  let sub := fun u (f : Sub → Sub) => match kget T.subs u with | some U => T.setSub u (f U) | none => T
  let slice := fun u sl (f : Slice → Slice) => sub u fun U =>
    match kget U.slices sl with | some S => { U with slices := kset U.slices sl (f S) } | none => U
  let lane := fun u sl ln (f : Lane → Lane) => slice u sl fun S => { S with lanes := S.lanes.modify ln f }
  if (T.scanGet p).isNone then T
  else
    match p with
    | .pc u => sub u fun U => { U with pc := v }
    | .depth u => sub u fun U => { U with depth := min 4 v.toNat }
    | .mask u sl => slice u sl fun S => { S with mask := v.setWidth 4 }
    | .live u sl => slice u sl fun S => { S with live := v.setWidth 4 }
    | .stack u sl k => slice u sl fun S => { S with stack := S.stack.set k (v.setWidth 4) }
    | .uniform u sl r => slice u sl fun S => S.setSreg r.toNat v
    | .trap u sl k => slice u sl fun S => S.setTrapReg k v
    | .pred u sl ln => lane u sl ln fun L => { L with p := v.setWidth 8 ||| 1 }
    | .lane u sl ln r => lane u sl ln fun L => L.setReg r.toNat (v.setWidth 32)
    | .latch u sl ln k => lane u sl ln fun L => { L with ring := L.ring.set k (v.setWidth 32) }
    | .spad c w => match kget T.blocks c with
      | some B => T.setBlock c (B.setSpad (4 * w) (natLe 4 (v.toNat % 2 ^ 32)))
      | none => T
    | .acc a => { T with acc := kset T.acc a (v.setWidth 32) }
    | .plane act q row w =>
      let f : KMap Plane → KMap Plane := fun m => match kget m q with
        | some p => kset m q { p with rows := p.rows.modify row fun bs => setWordAt bs w v }
        | none => m
      if act then { T with active := f T.active } else { T with shadow := f T.shadow }
    | .binStore k r => match kget T.conts k with
      | some c => { T with conts := kset T.conts k { c with regs := kset c.regs r (v.setWidth 32) } }
      | none => T
    | .held g k w => match kget T.gangs g with
      | some G => T.setGang g { G with retry := { G.retry with held := G.retry.held.modify k fun h => h.setBytes (setWordAt h.bytes w v) } }
      | none => T
    | .timeline c tc => match kget T.blocks c with
      | some B => T.setBlock c { B with tcs := kset B.tcs tc { B.tl (BitVec.ofNat 4 tc) with issue := v.extractLsb' 32 32, compl := v.setWidth 32 } }
      | none => T
    | .retlog k => { T with retlog := T.retlog.modify k fun x =>
        match x with | .access r => .access { r with data := v.setWidth 128 } | x => x }
    | .engine id k => match T.cmd id with
      | some c => T.setCmd { c with par := c.par.set k v }
      | none => T

/-- DEBUG_SCAN_ACCESS (R102): the debug port reads or writes the image of a halted tile in place. -/
def execDebugScanAccess (t : Nat) (a : ScanAccess) (s : State) : Out1 :=
  let T := s.tile t
  match T.mode, a with
  | .halt _, .write p v => .next (s.setTile t (T.scanPut p v))
  | .halt _, .read p => .next { s with hostGot := s.hostGot ++ [.scan t p (T.scanGet p)] }
  | _, _ => .next s

/-! ### Words that a save reads with an error (R96, R216) -/

/-- A word of a tile's arrays takes a poison mark; none where it is no such word or has one already. A held write of the commit
buffer is lost, and its failure is reported when the buffer would issue it (log 39). -/
def Tile.spoil (T : Tile) (p : ScanPlace) : Option Tile :=
  if (T.scanGet p).isNone then none
  else
    match p with
    | .uniform u sl r => match kget T.subs u, T.sliceAt u sl with
      | some U, some S => if S.bad.contains r.toNat then none
          else some (T.setSub u { U with slices := kset U.slices sl { S with bad := S.bad ++ [r.toNat] } })
      | _, _ => none
    | .lane u sl ln r => match kget T.subs u, T.sliceAt u sl, T.laneAt u sl ln with
      | some U, some S, some L => if L.bad.contains r.toNat then none
          else
            let S := { S with lanes := S.lanes.modify ln fun L => { L with bad := L.bad ++ [r.toNat] } }
            some (T.setSub u { U with slices := kset U.slices sl S })
      | _, _, _ => none
    | .spad c w => (kget T.blocks c).bind fun B =>
        if (kget B.spadPoison w).isSome then none else some (T.setBlock c { B with spadPoison := kset B.spadPoison w .sheaf })
    | .acc a => if (kget T.accPoison a).isSome then none else some { T with accPoison := kset T.accPoison a .sheaf }
    | .plane act q row _ =>
      (kget (if act then T.active else T.shadow) q).bind fun pl =>
        if (kget pl.bad row).isSome then none
        else
          let pl := { pl with bad := kset pl.bad row .sheaf }
          some (if act then { T with active := kset T.active q pl } else { T with shadow := kset T.shadow q pl })
    | .binStore k r => (kget T.conts k).bind fun c =>
        if c.bad.contains r then none else some { T with conts := kset T.conts k { c with bad := c.bad ++ [r] } }
    | .held g k _ => (kget T.gangs g).map fun G =>
        T.setGang g { G with retry := { G.retry with held := G.retry.held.eraseIdx k
                                                     late := if G.retry.late.isSome then G.retry.late else some (15, 7, 0xFF, 0) } }
    | _ => none

end Sys2Proof.Machine
end

