-- ==== Sys2Proof/Machine/Issue.lean ====
section
/-!
DEFINITION. Before an instruction issues: held reports, breakpoints, the fetch; and the sequencer's choice
(14_encoding.md R220, R221, R231; 13_traps_faults.md R205 to R210; 24_launch_system_instructions.md R367;
05_scheduler.md R82).
-/
namespace Sys2Proof.Machine

/-! ### Instructions that read a latch (R231) -/

/-- Whether an operand names a latch. -/
def isLatchOpnd (o : Opnd) : Bool :=
  match o with
  | .b _ => true
  | _ => false

/-- Whether an instruction names a latch in an operand position. -/
def readsLatchOf (i : Instr) : Bool :=
  match i with
  | .addLane _ a b | .subLane _ a b | .mulLane _ a b | .mulhLane _ a b | .mulhuLane _ a b | .mad _ a b
  | .andLane _ a b | .orLane _ a b | .xorLane _ a b | .andnLane _ a b | .shlLane _ a b | .shrLane _ a b
  | .sarLane _ a b | .rolLane _ a b | .minLane _ a b | .maxLane _ a b | .minuLane _ a b | .maxuLane _ a b
  | .bfeLane _ a b | .bfiLane _ a b | .cmpLane _ _ _ a b | .fadd _ a b | .fsub _ a b | .fmul _ a b | .fma _ a b
  | .fmin _ a b | .fmax _ a b | .fcmp _ _ _ a b | .fclass _ _ a b | .fscl _ a b | .shuf _ a b | .lpush _ a b
  | .bcast _ a b | .rng _ a b | .addUniform _ a b | .subUniform _ a b | .mulUniform _ a b | .mulhUniform _ a b
  | .mulhuUniform _ a b | .andUniform _ a b | .orUniform _ a b | .xorUniform _ a b | .andnUniform _ a b
  | .shlUniform _ a b | .shrUniform _ a b | .sarUniform _ a b | .minUniform _ a b | .maxUniform _ a b
  | .minuUniform _ a b | .maxuUniform _ a b | .bfeUniform _ a b | .bfiUniform _ a b | .cmpEqUniform _ a b
  | .cmpNeUniform _ a b | .cmpLtUniform _ a b | .cmpLeUniform _ a b | .cmpBloUniform _ a b | .cmpBlsUniform _ a b
  | .selUniform _ a b | .rolUniform _ a b | .jmpi _ a b | .barinit a b | .bararv a b | .barexp a b | .barwait a b
  | .snew a b _ | .sins a b _ _ | .sdel a b _ | .ssplit a b _ | .scat a b _ | .sgap a b _ | .sanchUniform a b _ => isLatchOpnd a || isLatchOpnd b
  | .clzLane _ a | .popcLane _ a | .brev _ a | .frnd _ a _ | .cvt _ a _ _ _ | .rcp _ a | .rsq _ a | .sqrt _ a
  | .exp2 _ a | .log2 _ a | .sin _ a | .cos _ a | .tanh _ a | .dxpack _ a _ _ | .dxunpk _ a _ _ | .dxexp _ a _
  | .lscan _ a _ _ | .fscan _ a _ _ | .lred _ a _ | .prefpop _ a _ | .clzUniform _ a | .popcUniform _ a
  | .waitc a _ | .sfree a | .slen a _ | .sapnd a _ | .sclose a | .srankUniform a _ _ | .skfold _ a | .skspread _ a
  | .skqry _ a | .launch a | .suspend (.delay a) | .lqry _ a => isLatchOpnd a
  | .stLane data _ _ _ | .sts data _ _ _ | .sstLane data _ _ _ | .stUniform data _ _ _ | .monarm data _ _
  | .sstUniform data _ _ _ => isLatchOpnd data
  | .sendLane r _ _ _ | .spawn r _ _ _ | .sendUniform r _ _ | .get r _ _ _ | .put r _ _ _ => isLatchOpnd r
  | .saadd d _ _ _ | .samin d _ _ _ | .samax d _ _ _ | .sacas d _ _ _ | .saxchg d _ _ _ => isLatchOpnd d
  | .brz c _ | .brnz c _ | .loop c _ => isLatchOpnd c
  | .tlwait _ x | .accmov _ _ x => isLatchOpnd x
  | _ => false

/-! ### The fetch (R220, R221) -/

/-- What a fetch gives. -/
inductive Fetched where
  | wait
  | word (w : W32)
  | fault (group : Nat) (code : Byte) (datum : Word)
  deriving DecidableEq, Repr

/-- The word at a fabric address: the instruction cache's, or memory's. -/
def State.fetchWord (s : State) (t fa : Nat) : W32 :=
  match kget (s.tile t).icache fa with
  | some w => w
  | none =>
    if fa / 2 ^ 42 = s.node then BitVec.ofNat 32 (s.le (fa % 2 ^ 42) 4)
    else ((Config.farEntry s.stamp (fa / 8 * 8)) >>> (8 * (fa % 8))).setWidth 32

/-- Whether the home of an address of this node may answer a fetch of a tile now (R99, R146): its own die at once, unless the
tile carries a vector; else once the vector it carries is covered there. -/
def State.fetchOpen (s : State) (t pa : Nat) : Bool :=
  s.isLocal t (homeOf pa) || s.homeOpen (dieOf t) (homeOf pa) (s.carried t) false

/-- Fetches at the issuer's program counter: the alignment of the counter, then the page's checks, then the word, which the
instruction cache keeps; a word of another die that is cut off is lost (R19). -/
def fetch (s : State) (I : Issuer) : State × Fetched :=
  let pc := I.sub.pc
  if pc.toNat % 4 ≠ 0 then (s, .fault 5 2 pc)
  else
    match check s I.t I.block.vf I.block.world pc .fetch 4 with
    | .error c => (s, .fault c.group c.code c.datum)
    | .ok (fa, e) =>
      let hit := (kget (s.tile I.t).icache fa).isSome
      match (if hit ∨ fa / 2 ^ 42 ≠ s.node then none else s.poisonLine (fa % 2 ^ 42) 4) with
      | some l => (s, .fault 15 5 (BitVec.ofNat 64 l))
      | none =>
        if !hit && decide (fa / 2 ^ 42 = s.node) && s.cutOffDies (dieOf I.t) (homeOf (fa % 2 ^ 42)) then
          (s, .fault 15 6 (BitVec.ofNat 64 (fa % 2 ^ 42)))
        else if !hit && decide (fa / 2 ^ 42 = s.node) && !s.fetchOpen I.t (fa % 2 ^ 42) then (s, .wait)
        else
        let w := s.fetchWord I.t fa
        let s := s.fillTlb I.t e
        (s.setTile I.t { s.tile I.t with icache := kset (s.tile I.t).icache fa w }, .word w)

/-! ### Held reports (R206, R209, R210, R231, R367) -/

/-- A finding of exhaustion that a gang has not yet reported is reported by the sub-gang that issues first after it; with
BUDTRAP 0 or no handler it passes unreported (R209, R210). -/
def State.noteBudget (s : State) (I : Issuer) : State :=
  match s.regionQueue I.block.grid with
  | none => s
  | some q =>
    if I.gang.bud < q.exhaustions then
      let s := s.setGang I.t I.sub.gang { I.gang with bud := q.exhaustions }
      let owner := match s.ownerOf I with | some (_, _, B) => B | none => I.block
      if owner.tctl.getLsbD 1 && I.block.rcd.handler != 0 then
        s.setSub I.t I.u { I.sub with reports := I.sub.reports ++ [⟨19, 0, q.region⟩] }
      else s
    else s

/-- A report of corrected errors held for a block is taken up by the sub-gang of it that issues next (R210, log 33). -/
def State.noteCorrected (s : State) (I : Issuer) : State :=
  match I.block.reports.find? fun r => r.group == 14 with
  | none => s
  | some r =>
    let s := s.mapBlock I.block.uid fun B => { B with reports := B.reports.filter fun r => r.group != 14 }
    if I.block.rcd.handler = 0 then s
    else
      match kget (s.tile I.t).subs I.u with
      | some U => s.setSub I.t I.u { U with reports := U.reports ++ [r] }
      | none => s

/-- The lowest enabled compare register that matches the address about to issue (R367); none while a handler runs, with no
handler, or for the register TRET has just passed (R208, R209). -/
def breakpointAt (I : Issuer) : Option Nat :=
  if I.sub.inh || I.block.rcd.handler == 0 then none
  else (List.range 4).find? fun k =>
    let x := kgetD I.tile.bpc k 0
    x.getLsbD 0 && (x &&& ~~~ 3#64) == I.sub.pc && I.sub.bpSkip != some k

/-- A matching compare register becomes a report of the sub-gang, taken at once or deferred behind latch readers. -/
def State.noteBreakpoint (s : State) (I : Issuer) : State :=
  match breakpointAt I with
  | none => s
  | some k =>
    if I.sub.reports.any fun r => r.group == 12 then s
    else s.setSub I.t I.u { I.sub with reports := I.sub.reports ++ [⟨12, BitVec.ofNat 8 k, 0⟩] }

/-- The report of a sub-gang that is taken first: the highest priority, then the oldest (R205). -/
def Sub.nextReport (U : Sub) : Option Report :=
  U.reports.foldl (fun (b : Option Report) r =>
    match b with
    | none => some r
    | some x => if groupRank r.group < groupRank x.group then some r else some x) none

/-- Handler entry for a held report: TEPC is the instruction about to issue (R207, R231). -/
def State.takeReport (s : State) (t u : Nat) (r : Report) (imprecise : Bool) : State :=
  match kget (s.tile t).subs u with
  | none => s
  | some U =>
    takeTrap (s.setSub t u { U with reports := U.reports.erase r }) t u ⟨r.group, r.code, 0xFF, 0, r.datum, imprecise, none, U.pc⟩

/-- The imprecise report that a gang with feeder rights takes before its next instruction (R206); while a handler runs it stays
held, so that reports are taken one at a time (log 33). -/
def Issuer.feederReport (I : Issuer) : Option Report :=
  if I.gang.feeder && !I.sub.inh then I.block.reports.find? fun r => r.group != 14 else none

/-- A held engine or loss report of a block is taken (R206): with no handler the block ends (R209). -/
def State.takeImprecise (s : State) (t u : Nat) (I : Issuer) : State :=
  match I.feederReport with
  | none => s
  | some r =>
    (s.mapBlock I.block.uid fun B => { B with reports := B.reports.erase r }).takeReport t u r true

/-! ### Issuing -/

/-- What stands before the issuer's next instruction: a wait for the fetch, a fault of it, a word that names nothing, or an instruction. -/
inductive Next where
  | wait
  | fault (group : Nat) (code : Byte) (datum : Word)
  | bad (w : W32) (code : Byte)
  | instr (i : Instr)
  deriving DecidableEq, Repr

/-- Fetches and decodes (R220, R238). -/
def fetchNext (s : State) (I : Issuer) : State × Next :=
  match fetch s I with
  | (s, .wait) => (s, .wait)
  | (s, .fault g c d) => (s, .fault g c d)
  | (s, .word w) =>
    match decode w with
    | .ok i => (s, .instr i)
    | .error .reservedOpcode => (s, .bad w 1)
    | .error .fieldValue => (s, .bad w 2)

/-- What happens as a sub-gang comes to issue. -/
inductive Front where
  /-- A trap was taken in place of an instruction. -/
  | trapped (s : State)
  /-- The fetch has to wait. -/
  | wait (s : State)
  /-- The instruction that executes now. -/
  | run (s : State) (i : Instr)

/-- Everything before the execution of an instruction: imprecise reports, the reports that arise here, the fetch, the
deferral behind latch readers, and words that decode to nothing. -/
def front (s : State) (I : Issuer) : Front :=
  if I.feederReport.isSome then .trapped (s.takeImprecise I.t I.u I)
  else
    let s := s.noteBudget I
    let s := match s.issuer with | some I => s.noteCorrected I | none => s
    let s := match s.issuer with | some I => s.noteBreakpoint I | none => s
    match s.issuer with
    | none => .trapped s
    | some I =>
      let (s, nx) := fetchNext s I
      if nx = .wait then .wait s else
      let latch := match nx with | .instr i => readsLatchOf i | _ => false
      match (if latch || I.sub.inh then none else I.sub.nextReport) with
      | some r => .trapped (s.takeReport I.t I.u r false)
      | none =>
        match nx with
        | .instr i => .run s i
        | .wait => .wait s
        | .fault g c d =>
          match trapAt s I g c d with
          | .next s => .trapped s
          | _ => .trapped s
        | .bad w c =>
          match trapWhole s I (laneWord w) 1 c (w.setWidth 64) with
          | .next s => .trapped s
          | _ => .trapped s

/-! ### The sequencer (R82, R255) -/

/-- Whether a gang of a stage is held at a knot (R184). -/
def State.heldAtKnot (s : State) (k : GangKind) : Bool :=
  match s.stageOf k with
  | some (_, st) => st.atKnot
  | none => false

/-- Whether a sub-gang can issue now: its tile runs, its block has begun, and nothing holds it (R76, R84, R107, R132, R184;
log 8). -/
def State.ready (s : State) (t u : Nat) : Bool :=
  let T := s.tile t
  match kget T.subs u with
  | none => false
  | some U =>
    decide (T.mode = .run) && U.stall != some s.gen && !(U.regang.isSome && !U.inh) &&
    (U.inh || !(U.slices.any fun (_, S) => S.log.any LogEntry.faulted)) &&
    (match kget T.gangs U.gang with
     | none => false
     | some G => !s.heldAtKnot G.kind && (match kget T.blocks G.ctx with | some B => B.begun | none => false))

/-- The sequencer's key of a sub-gang: base priority, its last issue, context, gang index. -/
def Tile.issueKey (T : Tile) (u : Nat) : Nat × Nat × Nat × Nat :=
  match kget T.subs u with
  | none => (0, 0, 0, 0)
  | some U =>
    match kget T.gangs U.gang with
    | none => (0, U.issued, 0, 0)
    | some G => ((match kget T.blocks G.ctx with | some B => B.prio | none => 0), U.issued, G.ctx, G.ix)

/-- Whether key a is served before key b (R82). -/
def servedFirst (a b : Nat × Nat × Nat × Nat) : Bool :=
  if a.1 ≠ b.1 then decide (b.1 < a.1)
  else if a.2.1 ≠ b.2.1 then decide (a.2.1 < b.2.1)
  else if a.2.2.1 ≠ b.2.2.1 then decide (a.2.2.1 < b.2.2.1)
  else decide (a.2.2.2 < b.2.2.2)

/-- Whether YIELD passes a sub-gang over: a ready one of the same or a higher priority has not issued since (R255). -/
def Tile.passedOver (T : Tile) (ready : List Nat) (u : Nat) : Bool :=
  match (kget T.subs u).bind fun U => U.yield with
  | none => false
  | some y =>
    ready.any fun v => v != u && decide ((T.issueKey u).1 ≤ (T.issueKey v).1) && decide ((T.issueKey v).2.1 ≤ y)

/-- The sub-gang a tile issues next. -/
def State.pickOn (s : State) (t : Nat) : Option Nat :=
  let T := s.tile t
  let ready := (kkeys T.subs).filter fun u => s.ready t u
  (ready.filter fun u => !T.passedOver ready u).foldl (fun (b : Option Nat) u =>
    match b with
    | none => some u
    | some v => if servedFirst (T.issueKey u) (T.issueKey v) then some u else some v) none

/-- The sub-gang that issues next: of the tiles' choices the one that has not issued for longest (log 1). -/
def State.pickIssue (s : State) : Option (Nat × Nat) :=
  s.tiles.foldl (fun (b : Option (Nat × Nat)) (t, T) =>
    match s.pickOn t with
    | none => b
    | some u =>
      match b with
      | none => some (t, u)
      | some (t', u') => if (T.issueKey u).2.1 < ((s.tile t').issueKey u').2.1 then some (t, u) else b) none

/-! ### Around an execution -/

/-- Names the issuer; a YIELD of it is over, and so is a carry vector that the die's own covers (R99). -/
def State.beginIssue (s : State) (t u : Nat) : State :=
  let s := match kget (s.tile t).subs u with
    | some U => s.setSub t u { U with yield := none }
    | none => s
  { s.dropCarry t with cur := some (t, u) }

/-- Whether the issuer waits at its instruction (log 8). -/
def State.waiting (s : State) (t u : Nat) : Bool :=
  match kget (s.tile t).subs u with
  | some U => U.stall == some s.gen
  | none => false

/-- After an execution that was not a wait: the order of issue advances, waiting sub-gangs may try again, and blocks whose
conditions hold end. -/
def State.endIssue (s : State) (t u : Nat) : State :=
  let s := match kget (s.tile t).subs u with
    | some U => s.setSub t u { U with issued := s.stamp + 1 }
    | none => s
  { ((kkeys s.tiles).foldl (fun s t => s.settleBins t) (s.settleTile t)).flushPorts with cur := none, gen := s.gen + 1, stamp := s.stamp + 1 }

/-- Whether the stages of a gang's skein are to stop at their next knot. -/
def State.stoppingFor (s : State) (kind : GangKind) : Bool := match s.skeinOf kind with | some K => K.stopping | none => false

/-- The kind of a sub-gang's gang, the stage it runs, and whether a switch asks the stage to stop. -/
def State.stageBefore (s : State) (t u : Nat) : GangKind × Nat × Bool :=
  match (kget (s.tile t).subs u).bind fun U => kget (s.tile t).gangs U.gang with
  | none => (.placed, 0, false)
  | some G => (G.kind, match s.stageOf G.kind with | some (n, _) => n | none => 0, s.stoppingFor G.kind)

/-- Ends an execution: a wait changes nothing else; otherwise a stage counts it, from the request on, and a switch may time out
(R184). -/
def State.finishIssue (s : State) (t u : Nat) (kind : GangKind) (n : Nat) (asked : Bool) : State :=
  if s.waiting t u then { s with cur := none }
  else
    let s := s.countIssue t u kind n (if s.stoppingFor kind && !asked then 0 else 1)
    let s := match kind with
      | .stage p k _ | .folded p k => s.timeoutSkein p k
      | _ => s
    s.endIssue t u

end Sys2Proof.Machine
end

