-- ==== Sys2Proof/Machine/Launch.lean ====
section
/-!
DEFINITION. Trusted I/O states, launch windows, register writes from outside a gang, worlds of granules, and translation
upkeep (03_host_partitions.md R41, R44, R48 to R55; 04_launch_interface.md R57, R59 to R63; 08_memory_translation.md R127
to R130; 24_launch_system_instructions.md R363).
-/
namespace Sys2Proof.Machine

/-! ### The end of a function's work (R51, R54, R55) -/

/-- A tile from the moment its scrub is due: nothing of it remains, its breakpoint registers apart (R51). -/
def Tile.beginScrub (T : Tile) : Tile := { Tile.reset with vf := T.vf, world := T.world, bpc := T.bpc, scrub := true }

/-- The function whose work a tile holds: while it loads a sheaf, the sheaf's (R98). -/
def State.workOf (s : State) (t : Nat) (T : Tile) : Nat :=
  match T.mode with
  | .load slot _ =>
    match ((s.partOfTile t).bind s.part).bind fun P => kget P.sheaves slot with
    | some h => h.image.vf
    | none => T.vf
  | _ => T.vf

/-- The tiles that hold work of a virtual function. -/
def State.tilesOf (s : State) (v : Nat) : List Nat := (s.tiles.filter fun (t, T) => s.workOf t T == v).map (·.1)

/-- A request to the host that has not been sent to it is dropped; its place in the order of writes stays (R54). -/
def Msg.dropHost (m : Msg) (ts : List Nat) : Msg :=
  if m.dst = 4 ∧ m.flow.isNone ∧ ts.contains m.tile then { m with body := .announce m.own } else m

/-- What a partition keeps once the work of a virtual function has ended. Use that has not been added to USED goes with the
function's queues, the model's choice (log 58). -/
def Part.without (P : Part) (v : Nat) : Part :=
  { P with queues := kfilter P.queues fun _ q => q.vf != v
           sheaves := kfilter P.sheaves fun _ h => h.image.vf != v
           skeins := kfilter P.skeins fun _ K => K.vf != v }

/-- Every grid of a virtual function ends without a completion, its waiting records are discarded, its tiles are to be
scrubbed, and its requests not yet sent to the host are dropped (R54). -/
def State.endFunction (s : State) (v : Nat) : State :=
  let ts := s.tilesOf v
  let s := ts.foldl (fun s t => s.l1Clear t) s
  let s := ts.foldl (fun s t => s.setTile t (s.tile t).beginScrub) s
  { s with parts := kmap s.parts fun _ P => P.without v
           grids := kfilter s.grids fun _ G => G.rcd.vf != v
           wire := s.wire.map fun m => m.dropHost ts
           dies := kmap s.dies fun _ D => { D with outq := D.outq.filter fun m => !(m.dst == 4 && m.flow.isNone && ts.contains m.tile) } }

/-- Changes every window of a virtual function. -/
def Vf.mapWindows (V : Vf) (f : Window → Window) : Vf :=
  { V with windows := (List.range 16).map fun w => (w, f (kgetD V.windows w Window.reset)) }

/-- Entry to ERROR (R54). -/
def State.tdError (s : State) (v : Nat) : State :=
  let s := s.endFunction v
  let V := s.vf v
  s.setVf v { V.mapWindows (fun W => { W with free := 0 }) with td := .error }

/-- Whether a number names a virtual function of a released package (R41). -/
def State.hasVf (s : State) (v : Nat) : Bool := s.released && decide (1 ≤ v) && decide (v ≤ 384)

/-! ### TDISP (R53 to R55) -/

/-- The interface report of a virtual function (R53). -/
def State.tdReport (s : State) (v : Nat) : TdReport :=
  let p := (s.partOfVf v).getD 0
  let fields := match s.part p with | some P => P.fields | none => 0
  let world := match s.part p with | some P => P.tiles.any fun t => (s.tile t).world | none => false
  { noPeerToPeer := true, dmaCarriesT := true, mmioBase := (s.vf v).bar, mmioSize := 65536, msixControl := (s.vf v).msixControl,
    part := p, fields := fields, node := BitVec.ofNat 10 s.node, world := world }

/-- What the host gets back. -/
def State.toHost (s : State) (x : HostGot) : State := { s with hostGot := s.hostGot ++ [x] }

/-- A request the function's state does not list is answered with a TDISP error and changes nothing (R53). -/
def tdispError (v : Nat) (s : State) : Out1 := if s.hasVf v then .next (s.toHost (.tdispError v)) else .next s

/-- LOCK_INTERFACE_REQUEST (R53): with its IDE stream keyed an unlocked function is locked and its report generated. -/
def execLockInterfaceRequest (v : Nat) (keyed : Bool) (s : State) : Out1 :=
  let V := s.vf v
  if s.hasVf v ∧ V.td = .unlocked ∧ keyed then
    .next (s.setVf v { V with td := .locked, keyed := true, report := some (s.tdReport v) })
  else tdispError v s

/-- GET_DEVICE_INTERFACE_REPORT (R53): a locked function returns its report. -/
def execGetDeviceInterfaceReport (v : Nat) (s : State) : Out1 :=
  let V := s.vf v
  match V.report with
  | some r => if s.hasVf v ∧ V.td = .locked then .next (s.toHost (.report v r)) else tdispError v s
  | none => tdispError v s

/-- START_INTERFACE_REQUEST (R53). -/
def execStartInterfaceRequest (v : Nat) (s : State) : Out1 :=
  let V := s.vf v
  if s.hasVf v ∧ V.td = .locked then .next (s.setVf v { V with td := .run }) else tdispError v s

/-- STOP_INTERFACE_REQUEST (R53): the function's tiles are scrubbed and its registers unlocked; its windows take records
again once the scrub has completed (R55). That it is in CONFIG_UNLOCKED, with its BAR writable, from the request on is the
model's choice (log 53). -/
def execStopInterfaceRequest (v : Nat) (s : State) : Out1 :=
  if s.hasVf v then
    let s := s.endFunction v
    .next (s.setVf v { s.vf v with td := .unlocked, report := none, stopScrub := true })
  else .next s

/-- STOP_SCRUB_DONE (R55): once no tile of the function is still to be scrubbed, every window's FREE takes its DEPTH. -/
def execStopScrubDone (v : Nat) (s : State) : Out1 :=
  let V := s.vf v
  if V.stopScrub ∧ (s.tilesOf v).all (fun t => !(s.tile t).scrub) then
    .next (s.setVf v { V.mapWindows (fun W => { W with free := W.depth }) with stopScrub := false })
  else .next s

/-- The value a frozen register of the configuration space holds. -/
def Vf.lockedReg (V : Vf) (r : LockedReg) : BitVec 128 :=
  match r with
  | .bar => V.bar.setWidth 128
  | .memEnable => if V.memEnable then 1 else 0
  | .msixControl => V.msixControl.setWidth 128
  | .msixEntry n => kgetD V.msix n 0

/-- The value a register of the configuration space takes of a write: a BAR of 64 KiB, one enable bit, 16 bits (R41). -/
def lockedValue (r : LockedReg) (x : BitVec 128) : BitVec 128 :=
  match r with
  | .bar => ((x.setWidth 64 : Word) &&& ~~~ 0xFFFF#64).setWidth 128
  | .memEnable => x &&& 1
  | .msixControl => (x.setWidth 16 : BitVec 16).setWidth 128
  | .msixEntry _ => x

/-- Sets a register of the configuration space. -/
def Vf.setLocked (V : Vf) (r : LockedReg) (x : BitVec 128) : Vf :=
  match r with
  | .bar => { V with bar := x.setWidth 64 }
  | .memEnable => { V with memEnable := x.getLsbD 0 }
  | .msixControl => { V with msixControl := x.setWidth 16 }
  | .msixEntry n => { V with msix := kset V.msix n x }

/-- LOCKED_REGISTER_WRITE (R53): free while unlocked; a write that changes a frozen register moves the function to ERROR. -/
def execLockedRegisterWrite (v : Nat) (r : LockedReg) (x : BitVec 128) (s : State) : Out1 :=
  let V := s.vf v
  if s.hasVf v then
    match V.td with
    | .unlocked => .next (s.setVf v (V.setLocked r (lockedValue r x)))
    | .error => .next s
    | _ => if lockedValue r x = V.lockedReg r then .next s else .next (s.tdError v)
  else .next s

/-- IDE_INTEGRITY_FAILURE (R53). -/
def execIdeIntegrityFailure (v : Nat) (s : State) : Out1 :=
  if s.hasVf v ∧ (s.vf v).td = .run then .next (s.tdError v) else .next s

/-! ### Launch windows (R55, R59 to R63) -/

/-- A write that a window drops is counted. -/
def Window.drop (W : Window) : Window := { W with drops := if W.drops = 0xFFFF then W.drops else W.drops + 1 }

/-- A record that a check refuses is counted, with its code. -/
def Window.reject (W : Window) (c : Nat) : Window :=
  { W with rejects := if W.rejects = 0xFF then W.rejects else W.rejects + 1, lasterr := BitVec.ofNat 4 c }

/-- A record is accepted: a slot is taken. -/
def Window.accept (W : Window) : Window := { W with free := W.free - 1, accepted := W.accepted + 1 }

def Vf.window (V : Vf) (w : Nat) : Window := kgetD V.windows w Window.reset
def Vf.setWindow (V : Vf) (w : Nat) (W : Window) : Vf := { V with windows := kset V.windows w W }

/-- Whether the launch windows of a function accept a write by its TDISP state (R55). -/
def Vf.accepts (V : Vf) (ide : Bool) : Bool :=
  match V.td with
  | .unlocked => !V.stopScrub
  | .run => ide
  | .locked | .error => false

/-- A launch-window write of a function that is bound to no partition completes as an unsupported request (R44). -/
def tdUnsupported (v : Nat) (s : State) : Out1 := if s.hasVf v then .next (s.toHost (.unsupported v)) else .next s

/-- The first failing submission check of a window write (R57, codes 1 to 5). -/
def windowCheck (P : Part) (off : Nat) (data : List Byte) : Option Nat :=
  if off ≠ 0 ∨ data.length ≠ 64 then some 1 else (LRecord.ofBytes data).submitCheck P

/-- LAUNCH_RECORD_WRITE (R60): a write to LWREC is dropped, rejected or accepted. A function bound to no partition answers it
as unsupported (R44); the acceptance acquires what the host wrote before (R62). -/
def execLaunchRecordWrite (v w off : Nat) (data : List Byte) (ide : Bool) (s : State) : Out1 :=
  let V := s.vf v
  match s.partOfVf v, (s.partOfVf v).bind s.part with
  | some p, some P =>
    if !V.memEnable || decide (16 ≤ w) || decide (64 ≤ off) then .next s
    else
      let W := V.window w
      if !V.accepts ide || W.free == 0 then .next (s.setVf v (V.setWindow w W.drop))
      else
        match windowCheck P off data with
        | some c => .next (s.setVf v (V.setWindow w (W.reject c)))
        | none =>
          let s := s.setVf v (V.setWindow w W.accept)
          .next (s.submit p v (LRecord.ofBytes data) (fun _ => .window v w) (P.secok && v == P.vflo) none W.cap.toNat (s.die 4).vec).1
  | _, _ => tdUnsupported v s

/-- What a launch window reads (R59): LWFREE, LWCFG and LWSTAT at their offsets, and 0 at LWREC and elsewhere. -/
def Window.read (W : Window) (off : Nat) : Word :=
  match off with
  | 0x040 => W.free.setWidth 64
  | 0x048 => W.depth.setWidth 64 ||| (W.cap.setWidth 64 <<< 8)
  | 0x050 => (W.accepted.setWidth 64 <<< 32) ||| (W.drops.setWidth 64 <<< 16) ||| (W.rejects.setWidth 64 <<< 8) ||| W.lasterr.setWidth 64
  | _ => 0

/-- The host reads a launch window of a function whose BAR decodes (R59). -/
def hostWindowTurn (v w off : Nat) (s : State) : Out1 :=
  let V := s.vf v
  if s.hasVf v && V.memEnable && decide (w < 16) then .next (s.toHost (.window v w off ((V.window w).read off))) else .next s

/-- LWCFG_WRITE (R63). -/
def execLwcfgWrite (v w : Nat) (x : Word) (s : State) : Out1 :=
  let V := s.vf v
  if (s.partOfVf v).isNone then tdUnsupported v s
  else if !V.memEnable || decide (16 ≤ w) then .next s
  else
    let W := V.window w
    let depth : BitVec 7 := x.extractLsb' 0 7
    let cap : BitVec 3 := x.extractLsb' 8 3
    match V.td with
    | .unlocked =>
      if W.free = W.depth ∧ 1 ≤ depth.toNat ∧ depth.toNat ≤ 64 then
        .next (s.setVf v (V.setWindow w { W with depth := depth, cap := cap, free := depth }))
      else .next s
    | .error => .next s
    | _ => if depth = W.depth ∧ cap = W.cap then .next s else .next (s.tdError v)

/-! ### Registers written from outside a gang (R79, R128, R363, R367) -/

/-- The issuer a sub-gang would be. -/
def State.issuerOf (s : State) (t u : Nat) : Option Issuer := ({ s with cur := some (t, u) } : State).issuer

/-- SYSTEM_REGISTER_WRITE (R363): a write to a register without a behaviour of its own. PSCHED takes effect at the next
time-slice boundary (R79). -/
def execSystemRegisterWrite (w : RegWrite) (s : State) : Out1 :=
  match w with
  | .sub t u reg k x =>
    match s.issuerOf t u with
    | none => .next s
    | some I =>
      if (sysFault s I .tret reg k.toNat true).isSome then .next s
      else
        match reg with
        | .tlbinv | .shdisc | .skreq => .next s
        | r => .next (s.sysWrite I r k.toNat x)
  | .psched p x =>
    match s.part p with
    | some P => .next (s.setPart p { P with pschedNext := some (pschedMask x) })
    | none => .next s
  | .hsroot v x => if s.hasVf v then .next (s.setVf v { s.vf v with hsroot := hsrootMask x }) else .next s
  | .bpc t k x =>
    if (s.partOfTile t).isSome ∧ k < 4 then .next (s.setTile t { s.tile t with bpc := kset (s.tile t).bpc k (bpcMask x) }) else .next s

/-- TEPC_WRITE (R208): a write to TEPC by a sub-gang. -/
def execTepcWrite (t u : Nat) (x : Word) (s : State) : Out1 :=
  match kget (s.tile t).subs u with
  | some U => .next (s.setSub t u (U.mapSlices fun S => S.writeTepc x))
  | none => .next s

/-- SHDISC_WRITE (R100): a slot without a complete sheaf, or with one that is being restored, is not discarded. -/
def execShdiscWrite (p slot : Nat) (s : State) : Out1 :=
  match (s.part p).bind fun P => P.discardable slot with
  | some _ => .next s
  | none => .next (s.discardSheaf p slot)

/-- SKREQ_REEL (R187). -/
def execSkreqReel (p : Nat) (desc : Word) (s : State) : Out1 :=
  match s.skeinNamed p desc with
  | some k => .next (s.reelRequest p k false false)
  | none => .next s

/-- SKREQ_UNREEL (R187). -/
def execSkreqUnreel (p : Nat) (desc : Word) (s : State) : Out1 :=
  match s.skeinNamed p desc with
  | some k => .next (s.unreelRequest p k)
  | none => .next s

/-- SKREQ_EXPORT (R190). -/
def execSkreqExport (p : Nat) (desc : Word) (s : State) : Out1 :=
  match s.skeinNamed p desc with
  | some k => .next (s.exportRequest p k)
  | none => .next s

/-! ### Translations (R127, R129, R130) -/

/-- TLBINV_WRITE (R130): every translation of the partition that overlaps the range is dropped; a misaligned write drops
none. -/
def execTlbinvWrite (p : Nat) (x : Word) (s : State) : Out1 :=
  if tlbMisaligned x then .next s else .next (s.tlbDrop p x)

/-- Whether HTLBINV names a held translation: the range is of intermediate addresses (R129). -/
def hvInvalidates (v : Nat) (x : Word) (e : TlbEntry) : Bool :=
  let (ia, size) := tlbRange x
  e.vf == v && (x.getLsbD 0 || (decide (e.ia < ia + size) && decide (ia < e.ia + e.size)))

/-- HTLBINV_WRITE (R129). -/
def execHtlbinvWrite (v : Nat) (x : Word) (s : State) : Out1 :=
  if tlbMisaligned x then .next s else .next (s.dropTlbs (hvInvalidates v x))

/-- TLBINV_COMPLETE (R130). -/
def execTlbinvComplete (p : Nat) (s : State) : Out1 := .next (s.tlbinvDone p)

/-- TRANSLATION_WALK (R127): a die's translation unit completes a walk for a tile; what it finds is kept by the unit, at
most 65,536 entries, and by the tile (R129). A failing walk is reported at the access that needs it. -/
def execTranslationWalk (t v : Nat) (va : Word) (s : State) : Out1 :=
  match walk s v va with
  | .error _ => .next s
  | .ok e =>
    let d := dieOf t
    let D := s.die d
    let s := s.setDie d { D with dtu := (e :: D.dtu.filter fun x => x != e).take 65536 }
    .next (s.fillTlb t e)

/-! ### World moves (R48, R50) -/

/-- WORLD_MOVE_REQUEST (R50): Craoz marks the granule closed. -/
def execWorldMoveRequest (g : Nat) (secure : Bool) (s : State) : Out1 :=
  if s.released && decide (g < 2 ^ 14) && !(s.closed.any fun m => m.granule == g) then
    .next { s with closed := s.closed ++ [⟨g, secure⟩] }
  else .next s

/-- Whether a message touches a granule. -/
def Msg.touches (m : Msg) (g : Nat) : Bool :=
  match m.body.span with
  | some (pa, n) => decide (pa / 2 ^ 26 ≤ g) && decide (g ≤ (pa + n - 1) / 2 ^ 26) && decide (pa < 2 ^ 40)
  | none => false

/-- Whether an access that its home accepted before the granule closed has not completed (R50). -/
def State.granuleBusy (s : State) (g : Nat) : Bool := s.dies.any fun (_, D) => D.inbox.any fun m => m.touches g && !m.shut

/-- A granule reads zero everywhere: its bytes, its poison marks, and what L1 caches, and answers on their way to one, hold of it
(R50). -/
def State.zeroGranule (s : State) (g : Nat) : State :=
  let out : Nat → Bool := fun pa => pa / 2 ^ 26 != g
  { s with mem := s.mem.filter fun c => out c.1
           poison := s.poison.filter fun l => out (l * 128), poisonWords := s.poisonWords.filter fun w => out (w * 4)
           resps := s.resps.map fun r => match r.fill with | some (l, _) => if out (l * 128) then r else { r with fill := none } | none => r
           tiles := kmap s.tiles fun _ T => { T with l1 := kfilter T.l1 fun l _ => out (l * 128) } }

/-- WORLD_MOVE_COMPLETE (R50): once the accesses accepted before have completed, the granule is zeroed, takes its new world
bit, and opens. -/
def execWorldMoveComplete (g : Nat) (s : State) : Out1 :=
  match s.closed.find? fun m => m.granule == g with
  | none => .next s
  | some m =>
    if s.granuleBusy g then .next s
    else
      let s := s.zeroGranule g
      let tab := s.fwtab.filter fun x => x != g
      .next { s with fwtab := if m.secure then insNat g tab else tab, closed := s.closed.filter fun x => x.granule != g }

end Sys2Proof.Machine
end

