-- ==== Sys2Proof/Machine/Events.lean ====
section
/-!
DEFINITION. Events of a tile's bins, monitors, operand logs and reports, and strand messages between dies (05_scheduler.md
R84 to R87; 17_memory_instructions.md R296, R297; 24_launch_system_instructions.md R359; 08_memory_translation.md R131, R132;
13_traps_faults.md R206, R207; 10_strands.md R157, R163).
-/
namespace Sys2Proof.Machine

/-! ### Bins (R84, R85, R87) -/

/-- BIN_TIMER_EXPIRY (R84): a FILLING bin whose timer has expired becomes READY. -/
def execBinTimerExpiry (t b : Nat) (s : State) : Out1 :=
  let T := s.tile t
  match kget T.bins b with
  | some bn =>
    match bn.st with
    | .filling d =>
      if T.mode = .run ∧ d ≤ s.usec t then
        .next { s.setTile t { T with bins := kset T.bins b { bn with st := .ready s.stamp } } with stamp := s.stamp + 1 }
      else .next s
    | .ready _ => .next s
  | none => .next s

/-- The READY bin of a tile that became READY first (R85). -/
def Tile.firstReady (T : Tile) : Option Nat :=
  (T.bins.foldl (fun (m : Option (Nat × Nat)) (b, bn) =>
    match bn.st with
    | .filling _ => m
    | .ready q => match m with | some (_, q') => if q < q' then some (b, q) else m | none => some (b, q)) none).map (·.1)

/-- Whether the acquire with which a bin's threads begin invalidates L1 (R125, R361): that of a detached thread has package
scope, and a block with a skein acquires beyond its tile. -/
def Tile.binAcquires (T : Tile) (b : Nat) : Bool :=
  match kget T.bins b with
  | some bn => bn.detached || (match T.binBlock bn with | some (_, B) => B.skein.isSome | none => false)
  | none => false

/-- BIN_FORM_GANG (R85): the first READY bin forms its gang when its slices are free. -/
def execBinFormGang (t b : Nat) (s : State) : Out1 :=
  let T := s.tile t
  if T.mode = .run ∧ T.firstReady = some b then .next ((if T.binAcquires b then s.l1Clear t else s).formGang t b) else .next s

/-- Whether every gang resident on a tile waits for a bin or for slots of the bin store, its other sub-gangs at a REGANG, and no
bin can form a gang from the slices that are free (R87). -/
def State.binDeadlock (s : State) (t : Nat) : Bool :=
  let T := s.tile t
  let waits := fun (U : Sub) => U.binWait.isSome
  T.mode == .run && (T.subs.any fun (_, U) => waits U) &&
  (T.subs.all fun (_, U) => waits U || (U.waits && (T.subsOf U.gang).any fun (_, V) => waits V)) &&
  !(T.bins.any fun (_, bn) => decide (s.slicesTaken t + (bn.pos.length + 3) / 4 ≤ 128))

/-- The sub-gang of a tile whose instruction has waited longest. -/
def Tile.oldestWait (T : Tile) : Option Nat :=
  (T.subs.foldl (fun (m : Option (Nat × Nat)) (u, U) =>
    match U.binWait with
    | none => m
    | some q => match m with | some (_, q') => if q < q' then some (u, q) else m | none => some (u, q)) none).map (·.1)

/-- BIN_STORE_DEADLOCK (R87): the oldest waiting instruction traps with the launch cause, CODE 9. -/
def execBinStoreDeadlock (t : Nat) (s : State) : Out1 :=
  if s.binDeadlock t then
    match (s.tile t).oldestWait.bind fun u => s.issuerOf t u with
    | none => .next s
    | some I =>
      match fetchNext s I with
      | (s, .instr i) => trapWhole s I (isLane i) 10 9 (wordOf i)
      | (_, .wait) => .next s
      | (s, .fault g c d) => trapAt s I g c d
      | (s, .bad w c) => trapWhole s I (laneWord w) 1 c (w.setWidth 64)
  else .next s

/-! ### Parked conditions (R296, R297, R359) -/

/-- Whether the monitor of a parked run is met by the value at its location: that of its lowest slice. One whose location the world
check now denies is re-executed, and traps (R49, R50; log 42). -/
def State.monitorMet (s : State) (t run : Nat) : Bool :=
  match ((s.tile t).conts.filter fun (_, c) => c.run == run).foldl (fun (m : Option Cont) (_, c) =>
      match m with | some x => if c.slice < x.slice then some c else m | none => some c) none with
  | some c =>
    match c.monitor with
    | some m => (security s (s.tile t).world m.pa).isSome || m.holds (s.le m.pa m.ty.bytes)
    | none => false
  | none => false

/-- Whether a run of a tile waits for its monitor, with or without a watch of the home. -/
def Tile.onMonitor (T : Tile) (run : Nat) (watched : Bool) : Bool :=
  T.conts.any fun (_, c) => c.run == run && (match c.place with | .waiting .monitor w => w == watched | _ => false)

/-- MONITOR_WATCH_FIRE (R296): the home finds the condition of a watched location met; the continuations enter a bin. -/
def execMonitorWatchFire (t run : Nat) (s : State) : Out1 :=
  let T := s.tile t
  if T.mode = .run ∧ T.onMonitor run true ∧ s.monitorMet t run then .next (s.admitRun t run) else .next s

/-- MONITOR_POLL (R297): a monitor without a watch is read again. -/
def execMonitorPoll (t run : Nat) (s : State) : Out1 :=
  let T := s.tile t
  if T.mode = .run ∧ T.onMonitor run false ∧ s.monitorMet t run then .next (s.admitRun t run) else .next s

/-- Whether the delay of a suspended run has passed (R359). -/
def Tile.delayOver (T : Tile) (run : Nat) : Bool :=
  T.conts.any fun (_, c) => c.run == run && (match c.place with | .waiting (.delay 0) _ => true | _ => false)

/-- SUSPEND_DELAY_EXPIRY (R359). -/
def execSuspendDelayExpiry (t run : Nat) (s : State) : Out1 :=
  let T := s.tile t
  if T.mode = .run ∧ T.delayOver run then .next (s.admitRun t run) else .next s

/-! ### Operand logs and handler entry (R131, R132, R206, R207) -/

/-- LOG_ENTRY_COMPLETE (R131): an entry with nothing on its way writes its results; once none is pending, a faulted one
enters the handler (R132). -/
def execLogEntryComplete (t u sl slot : Nat) (s : State) : Out1 :=
  if (s.tile t).mode = .run then .next ((s.completeEntry t u sl slot).enterLogTrap t u) else .next s

/-- Whether a faulted entry is due to enter the handler (R132). -/
def State.logTrapDue (s : State) (t u : Nat) : Bool :=
  match kget (s.tile t).subs u with
  | some U => U.quiet && !U.inh && !(s.tile t).retryLoss u && (match U.oldestFault with | some (_, cs, _) => !cs.isEmpty | none => false)
  | none => false

/-- TRAP_ENTRY (R207): a faulted entry, or a report held for a sub-gang that is about to issue, enters the handler. -/
def execTrapEntry (t u : Nat) (s : State) : Out1 :=
  if (s.tile t).mode ≠ .run then .next s
  else if s.logTrapDue t u then .next (s.enterLogTrap t u)
  else if s.ready t u then
    let s1 := s.beginIssue t u
    match s1.issuer with
    | none => .next s
    | some I =>
      match front s1 I with
      | .trapped s' => .next (s'.endIssue t u)
      | .wait _ => .next s
      | .run _ _ => .next s
  else .next s

/-- IMPRECISE_REPORT_TAKEN (R206): a gang with feeder rights takes a report held for its block before its next instruction. -/
def execImpreciseReportTaken (t u : Nat) (s : State) : Out1 :=
  if s.ready t u then
    match s.issuerOf t u with
    | some I => .next (s.takeImprecise t u I)
    | none => .next s
  else .next s

/-! ### Strand messages (R157, R163, R337) -/

/-- STRAND_OP_APPLY (R163): the home strand unit performs a request that its inbox may release. -/
def execStrandOpApply (home k : Nat) (s : State) : Out1 :=
  match (s.die home).takeable home k with
  | none => .next s
  | some m =>
    match m.body with
    | .strand _ => .next (s.takeMsg home k m)
    | _ => .next s

/-- STRAND_RESPONSE (R337): the answers of one strand instruction, which come together. -/
def execStrandResponse (k : Nat) (s : State) : Out1 :=
  match s.resps[k]? with
  | none => .next s
  | some x =>
    if x.strand && (x.bad.isSome || s.reaches (fun st => st == 2) x.die (dieOf x.tile)) then
      let mine : Resp → Bool := fun r => r.strand && r.tile == x.tile && r.seq == x.seq
      let rs := s.resps.filter mine
      .next (rs.foldl (fun s r => s.deliver r) { s with resps := s.resps.filter fun r => !mine r })
    else .next s

end Sys2Proof.Machine
end

