-- ==== Sys2Proof/Machine/Errors.lean ====
section
/-!
DEFINITION. Hardware errors: retry, evacuation, poison, and error counts (13_traps_faults.md R211 to R219; 10_strands.md
R168; 06_sheaves.md R96).
-/
namespace Sys2Proof.Machine

/-! ### Retry (R212 to R216) -/

/-- A gang that failed stops: its sub-gangs are gone, its held writes are discarded, and its retry point is binned again (R213,
R214). -/
def State.rebin (s : State) (t g : Nat) (st : RState) (attempts : Nat) : State :=
  let T := s.tile t
  match kget T.gangs g with
  | none => s
  | some G =>
    let us := (T.subsOf g).map (·.1)
    let G := { G with retry := { G.retry with st := st, attempts := attempts, held := [], late := none }, rebin := some t }
    let T := { T with gangs := kset T.gangs g G
                      subs := kfilter T.subs fun u _ => !us.contains u
                      bins := kfilter T.bins fun _ b => b.retry != some g }
    (s.setTile t T).binAgain t g

/-- A tile is fenced, and frozen at once (R216); it stays so until the next full reset. -/
def State.fence (s : State) (t : Nat) : State :=
  let s := { s with tfence := if s.tfence.contains t then s.tfence else insNat t s.tfence }
  (s.countErr (dieOf t) .lasting).freezeTile t .plain

/-- The ADDR of the lost packet that a sub-gang's log reports (R205); none where no entry names one. -/
def Sub.lostAddr (U : Sub) : Option Word :=
  U.slices.findSome? fun (_, S) => S.log.findSome? fun e => e.accs.findSome? fun a =>
    match a.st with | .faulted 15 6 d => some d | _ => none

/-- A tile-state error that no retry absorbs: the trap of group 15 at the gang's first sub-gang (R215). The datum of code 6 is the
packet's ADDR where the log names the packet, else a free value (log 6). -/
def State.stateTrap (s : State) (t g : Nat) (code : Byte) : State :=
  match ((s.tile t).subsOf g).head? with
  | none => s
  | some (u, U) =>
    let datum : Word := if code = 6 then U.lostAddr.getD (Config.freeWord s.free 0) else 0
    takeTrap { s with free := s.free + 1 } t u ⟨15, code, 0xFF, 0, datum, false, none, U.pc⟩

/-- TILE_STATE_ERROR (R213 to R216): codes 1 to 4 and 6 of group 15. A gang that can be retried is binned again; one that
cannot, or whose retry point has lapsed at a commit point it has not left yet (log 61), takes the trap. -/
def execTileStateError (t g : Nat) (code : BitVec 8) (s : State) : Out1 :=
  let T := s.tile t
  if T.mode ≠ .run ∨ ¬ [1, 2, 3, 4, 6].contains code.toNat then .next s
  else
    match kget T.gangs g with
    | none => .next s
    | some G =>
      if G.retry.point = .lapsed then .next (s.stateTrap t g code)
      else
        match G.retry.st with
        | .run => .next (s.rebin t g .retry (G.retry.attempts - 1))
        | .retry =>
          if 0 < G.retry.attempts then .next (s.rebin t g .retry (G.retry.attempts - 1))
          else .next ((s.rebin t g .lasting 0).fence t)
        | .lasting => .next (s.unrecovered t G.ctx)
        | _ => .next (s.stateTrap t g code)

/-! ### Poison (R96, R168, R211) -/

/-- The ranks of a strand whose elements lie in a line of a pool segment. -/
def Strand.ranksIn (t : Strand) (g line : Nat) : List Nat :=
  (withRanks t.segs 0).flatMap fun (x, lo, n) =>
    if x = g then ((List.range n).filter fun k => k * t.esize / 128 == line).map (lo + ·) else []

/-- An error in a line of a strand pool poisons the elements it holds, in every strand that shares the segment (R168). -/
def Part.poisonLine (P : Part) (pa : Nat) : Part :=
  let g := (pa - P.spbase) / 4096
  let strands := kmap P.strands fun _ t =>
    let rs := t.ranksIn g ((pa - P.spbase) % 4096 / 128)
    { t with elems := t.elems.zipIdx.map fun (e, k) => if rs.contains k then { e with poison := true } else e }
  { P with strands := strands, tainted := if P.segsUsed.contains g then g :: P.tainted.filter (· != g) else P.tainted }

/-- A line is poisoned, and counted on its home's die; a line of a sheaf store spoils its sheaf's CRC, one of a strand pool
poisons elements. -/
def State.poisonLineAt (s : State) (pa : Nat) : State :=
  let l := lineOf pa
  if s.inStrandPool pa then
    let s := s.countErr (homeOf pa) .poisoned
    { s with parts := kmap s.parts fun _ P => if P.spbase ≤ pa ∧ pa < P.spbase + P.spsize then P.poisonLine pa else P }
  else if !isDram pa || s.poison.contains l then s
  else
    let s := ({ s with poison := insNat l s.poison }).countErr (homeOf pa) .poisoned
    { s with parts := kmap s.parts fun _ P =>
        if P.ssbase ≤ pa ∧ pa < P.ssbase + P.sssize then
          let k := (pa - P.ssbase) / 2 ^ 22
          match kget P.sheaves k with
          | some h => { P with sheaves := kset P.sheaves k { h with crcOk := false } }
          | none => P
        else P }

/-- DATA_ERROR (R211): an uncorrectable error poisons a line of memory or of a strand pool (R168), or a word of a sheaf that is
being written (R96); an engine that lost data reports it (R206). -/
def execDataError (e : DataErr) (s : State) : Out1 :=
  match e with
  | .line pa => .next (s.poisonLineAt pa)
  | .sheafWord t p =>
    let T := s.tile t
    match (if T.mode = .save then T.spoil p else none) with
    | some T => .next ((s.setTile t T).countErr (dieOf t) .poisoned)
    | none => .next s
  | .engine t ctx pa =>
    match kget (s.tile t).blocks ctx with
    | none => .next s
    | some B => .next (s.reportTo B.uid ⟨15, 9, BitVec.ofNat 64 (lineOf pa * 128)⟩)

/-! ### Corrected errors (R210, R218, R219) -/

/-- A corrected error of a block's tile storage: the 256th is reported where TCTL enables it and there is a handler. -/
def Block.countCorrected (B : Block) (unit : Byte) : Block :=
  if B.corrected + 1 < 256 then { B with corrected := B.corrected + 1 }
  else
    let B := { B with corrected := 0 }
    if B.tctl.getLsbD 0 && B.rcd.handler != 0 then { B with reports := B.reports ++ [⟨14, unit, 256⟩] } else B

/-- CORRECTED_ERROR (R218): the value is repaired; nothing but the counts changes. -/
def execCorrectedError (w : ErrPlace) (s : State) : Out1 :=
  match w with
  | .tile t ctx unit =>
    let s := s.countErr (dieOf t) .sramcor
    match kget (s.tile t).blocks ctx with
    | some B => .next (s.setBlock t ctx (B.countCorrected unit))
    | none => .next s
  | .sram d => .next (s.countErr d .sramcor)
  | .dram d => .next (s.countErr d .dramcor)

/-- PATROL_SCRUB (R219): the scrubber corrects a correctable line and poisons an uncorrectable one. -/
def execPatrolScrub (line : Nat) (found : ScrubFind) (s : State) : Out1 :=
  if isDram (line * 128) then
    match found with
    | .clean => .next s
    | .correctable => .next (s.countErr (homeOf (line * 128)) .dramcor)
    | .uncorrectable => .next (s.poisonLineAt (line * 128))
  else .next s

end Sys2Proof.Machine
end

