-- ==== Sys2Proof/Machine/Links.lean ====
section
/-!
DEFINITION. Flits, ports and boundaries, packets between dies, routes (02_links.md R17 to R29; 09_consistency.md R145, R146;
log 10, 25).
-/
namespace Sys2Proof.Machine

/-! ### Flits and replay (R21 to R25) -/

/-- The link layer of a link. -/
def State.link (s : State) (l : Link) : Port :=
  match l with
  | .port p => s.port p
  | .boundary b far => s.boundary (if far then b + 4 else b)

def State.setLink (s : State) (l : Link) (P : Port) : State :=
  match l with
  | .port p => s.setPort p P
  | .boundary b far => s.setBoundary (if far then b + 4 else b) P

/-- Whether a link exists (R7, R20). -/
def linkExists (l : Link) : Bool :=
  match l with
  | .port p => decide (p < 24)
  | .boundary b _ => decide (b < 4)

/-- Whether a link carries flits: it is up or quiesced. -/
def Port.alive (P : Port) : Bool := decide (2 ≤ P.state)

/-- FLIT_RECEIVE (R22, R23): a flit in order with a good CRC and a known KIND is accepted, its acknowledgement taken and
its packet data joined to the stream; any other is discarded and a replay is requested. What a boundary's flits carry stands in
`State.wire` and takes effect at DIE_PACKET_ARRIVAL (R18, log 25). -/
def execFlitReceive (l : Link) (flit : List Byte) (s : State) : Out1 :=
  let P := s.link l
  if linkExists l && P.alive then
    let (data, ack, fseq, kind, ok) := readFlit flit
    if ok && decide (kind < 4) && fseq == P.rxNext then
      let P := { P.acked ack with rxNext := P.rxNext + 1, wantReplay := none }
      match l with
      | .boundary _ _ => .next (s.setLink l P)
      | .port p =>
        let (pks, rest) := if kind = 0 then parsePackets 64 (P.rx ++ data) else ([], P.rx)
        let s := s.setPort p { P with rx := rest }
        .next ({ s with arrivals := s.arrivals ++ pks.map fun k => (p, k) }).pump
    else .next (s.setLink l { P with wantReplay := some P.rxNext })
  else .next s

/-- Counts flits that a link replays (R19, R21): DLSTAT counts both ends of a boundary in the entry of its lower one. -/
def State.countReplays (s : State) (l : Link) (n : Nat) : State :=
  match l with
  | .port p => let P := s.port p; s.setPort p { P with stat := satInc P.stat 32 32 n }
  | .boundary b _ => let P := s.boundary b; s.setBoundary b { P with stat := satInc P.stat 32 32 n }

/-- REPLAY_REQUEST (R24): every kept flit from the named sequence on is sent again; those before it have arrived. -/
def execReplayRequest (l : Link) (fseq : BitVec 12) (s : State) : Out1 :=
  let P := s.link l
  if linkExists l && P.alive then
    let P := P.acked (fseq - 1)
    let P := { P with
      resend := P.kept
      replayRun := if P.replayRun ≠ 0 ∧ P.replayFrom = fseq then P.replayRun + 1 else 1
      replayFrom := fseq }
    .next ((s.setLink l P).countReplays l P.kept.length).pump
  else .next s

/-- A link leaves for training after eight replays from one sequence (R19, R24). -/
def Port.retrain (P : Port) : Port :=
  { P with stat := satInc (setField P.stat 0 2 1) 24 8 1, replayRun := 0 }

/-- PORT_RETRAIN (R24). -/
def execPortRetrain (p : Nat) (s : State) : Out1 :=
  let P := s.port p
  if p < 24 ∧ P.alive ∧ 8 ≤ P.replayRun then .next (s.setPort p P.retrain) else .next s

/-- Packets sent through a port that went down and still unanswered are lost (R25). -/
def State.portDown (s : State) (p : Nat) : State :=
  let lost := s.outs.filter fun o => o.port == some p
  let s := { s with outs := s.outs.filter fun o => o.port != some p }
  (lost.foldl State.loseOut s).pump

/-- PORT_TRAINING_DONE (R21, R29): a trained port is quiesced; with four to seven good lanes it is degraded, with fewer it
is down and its packets are lost. Flits kept are sent again. -/
def execPortTrainingDone (p : Nat) (lanes : BitVec 8) (s : State) : Out1 :=
  let P := s.port p
  if p < 24 ∧ P.state = 1 then
    let n := ((List.range 8).filter fun k => lanes.getLsbD k).length
    let stat := setField (setField P.stat 16 8 lanes.toNat) 2 1 (if 4 ≤ n ∧ n < 8 then 1 else 0)
    if 4 ≤ n then .next (s.setPort p { P with stat := setField stat 0 2 3, quiesce := true, resend := P.kept })
    else
      let P := { P with stat := setField stat 0 2 0, quiesce := true, kept := [], resend := [], tx := [], rx := [], carried := [] }
      .next ((s.setPort p { P with wantReplay := none }).portDown p)
  else .next s

/-! ### Boundaries (R19) -/

/-- Sets STATE of a boundary at both its ends. -/
def State.setBoundaryState (s : State) (b v : Nat) : State :=
  let s := s.setBoundary b { s.boundary b with stat := setField (s.boundary b).stat 0 2 v }
  s.setBoundary (b + 4) { s.boundary (b + 4) with stat := setField (s.boundary (b + 4)).stat 0 2 v }

/-- BOUNDARY_RETRAIN (R19): after eight replays from one sequence at either end. -/
def execBoundaryRetrain (b : Nat) (s : State) : Out1 :=
  if b < 4 ∧ (s.boundary b).alive ∧ (8 ≤ (s.boundary b).replayRun ∨ 8 ≤ (s.boundary (b + 4)).replayRun) then
    let s := s.setBoundary b (s.boundary b).retrain
    .next ((s.setBoundary (b + 4) { s.boundary (b + 4) with replayRun := 0 }).setBoundaryState b 1)
  else .next s

/-- Packets and responses between dies that are cut off from each other are lost (R19). -/
def State.loseCutOff (s : State) : State :=
  let gone := s.wire.filter fun m => s.cutOffDies m.src m.dst
  let s := { s with
    wire := s.wire.filter fun m => !s.cutOffDies m.src m.dst
    cutOff := s.cutOff || (List.range 4).any fun x => (List.range 4).any fun y => s.cutOffDies x y
    unseen := s.unseen.filter fun u => !gone.any fun m => (m.flow.map unseenKey) == some u
    resps := s.resps.map fun r =>
      if s.cutOffDies r.die (dieOf r.tile) then { r with bad := some (15, 6, 0), fill := none, obs := none } else r }
  (gone.flatMap fun m => if m.flow.isSome || decide (256 ≤ m.tile) then [] else m.lost).foldl State.deliver s

/-- The messages on the wire whose flits an end of a boundary still keeps, in their order. -/
def State.keptAt (s : State) (e : Nat) : List Msg := s.wire.filter fun m => ((s.boundary e).flitOf m).isSome

/-- A boundary goes down: what its ends kept is sent again along the detour, and what has no path is lost (R19). -/
def State.boundaryDown (s : State) (b : Nat) : State :=
  let ms := s.keptAt b ++ s.keptAt (b + 4)
  let s := s.setBoundaryState b 0
  let s := s.setBoundary b { s.boundary b with kept := [], resend := [] }
  let s := s.setBoundary (b + 4) { s.boundary (b + 4) with kept := [], resend := [] }
  (ms.foldl State.frameMsg s).loseCutOff

/-- BOUNDARY_TRAINING_DONE (R19): the boundary is up and resends what its ends keep, or it is down until the next full reset. -/
def execBoundaryTrainingDone (b : Nat) (ok : Bool) (s : State) : Out1 :=
  if b < 4 ∧ (s.boundary b).state = 1 then
    if ok then
      let s := s.setBoundaryState b 2
      let s := s.setBoundary b { s.boundary b with resend := (s.boundary b).kept }
      .next (s.setBoundary (b + 4) { s.boundary (b + 4) with resend := (s.boundary (b + 4)).kept })
    else .next (s.boundaryDown b)
  else .next s

/-- The next message that waits in a die's queue leaves, or is lost where its die is cut off from the other (R19, R24, R145). -/
def leaveNext (d : Nat) (s : State) : Out1 :=
  let D := s.die d
  match D.outq with
  | [] => .next s
  | m :: rest =>
    let s' := s.setDie d { D with outq := rest }
    if s.cutOffDies m.src m.dst then .next ((if m.flow.isSome || decide (256 ≤ m.tile) then [] else m.lost).foldl State.deliver s')
    else if s.mayLeave m then .next (s'.leave m)
    else .next s

/-! ### Packets between dies (R17, R19, R145, R146) -/

/-- A message reaches its die: a number it has had is dropped; what it says of its sender's writes becomes known (R19,
R145). -/
def State.acceptMsg (s : State) (m : Msg) : State :=
  let D := s.die m.dst
  if kgetD D.recvNo m.src 0 = m.num then
    let known := if geq m.own (ent D.known m.src) then D.known.set m.src m.own else D.known
    let inbox := match m.body with | .announce _ => D.inbox | _ => D.inbox ++ [{ m with shut := s.shutAt m.body }]
    ((s.setDie m.dst { D with recvNo := kset D.recvNo m.src (m.num + 1), known := known, inbox := inbox }).refresh m.dst).crossMsg m
  else s

/-- DIE_PACKET_ARRIVAL (R19): the next packet on the path between two dies arrives, with those of the same instruction
that follow it (log 10). -/
def execDiePacketArrival (src dst : Nat) (s : State) : Out1 :=
  if s.reaches (fun st => st == 2) src dst then
    match s.wire.filter fun m => m.src == src && m.dst == dst with
    | [] => .next s
    | m :: l =>
      let more := if m.tile = 0 ∧ m.seq = 0 then [] else l.takeWhile fun x => x.tile == m.tile && x.seq == m.seq
      let ms := m :: more
      .next (ms.foldl State.acceptMsg { s with wire := s.wire.filter fun x => !ms.contains x })
  else .next s

/-- VECTOR_ANNOUNCE (R145): a die tells every other home die its own entry, behind its earlier writes. -/
def execVectorAnnounce (src : Nat) (s : State) : Out1 :=
  if s.released ∧ src < 5 then
    let v := (s.die src).vec
    .next (((List.range 5).filter fun d => d != src && !s.cutOffDies src d).foldl (fun s d =>
      let m : Msg := ⟨src, d, 0, v, ent v src, .announce (ent v src), 0, 0, none, none, true, false⟩
      if s.mayLeave m then s.leave m else s) s)
  else .next s

/-- Whether a message is an atomic of the same instruction on the same word as another (R291). -/
def Msg.sameWord (a b : Msg) : Bool :=
  a.tile == b.tile && a.seq == b.seq && a.flow.isNone && b.flow.isNone &&
  match a.body, b.body with
  | .atomic p _ _ _ _, .atomic q _ _ _ _ => p == q
  | _, _ => false

/-- Takes the atomics of one instruction on one word one after another (R291). -/
def State.takeWord (home : Nat) (m : Msg) : Nat → State → State
  | 0, s => s
  | n + 1, s =>
    match (s.die home).inbox.findIdx? fun x => m.sameWord x with
    | none => s
    | some k =>
      match (s.die home).takeable home k with
      | some x => State.takeWord home m n (s.takeMsg home k x)
      | none => s

/-- REMOTE_WRITE_APPLY (R146): a home applies a write once its applied vector covers the vector it carries. -/
def execRemoteWriteApply (home k : Nat) (s : State) : Out1 :=
  match (s.die home).takeable home k with
  | none => .next s
  | some m =>
    match m.body with
    | .write _ _ | .signal _ _ _ => .next (s.takeMsg home k m)
    | .atomic _ _ _ _ _ => .next (State.takeWord home m 32 (s.takeMsg home k m))
    | _ => .next s

/-- REMOTE_READ_PERFORM (R146). -/
def execRemoteReadPerform (home k : Nat) (s : State) : Out1 :=
  match (s.die home).takeable home k with
  | none => .next s
  | some m =>
    match m.body with
    | .read _ _ _ => .next (s.takeMsg home k m)
    | _ => .next s

/-- The first packet of its flow among the arrivals is this one (R31): its port. -/
def State.arrived (s : State) (pk : Packet) : Option Nat :=
  match s.arrivals.find? fun a => a.2.sep == pk.sep && a.2.snode == pk.snode && a.2.vc == pk.vc with
  | some (p, k) => if k = pk then some p else none
  | none => none

/-- Takes a packet off the arrivals. -/
def State.takeArrival (s : State) (p : Nat) (pk : Packet) : State := { s with arrivals := s.arrivals.erase (p, pk) }

/-- A response that came in by a port is taken: it crosses to the die of the request it answers (R17), and that request
completes; where the dies are cut off the answer is lost (R19). -/
def State.takeResponse (s : State) (pk : Packet) (error : Bool) : State :=
  match s.arrived pk with
  | none => s
  | some p =>
    match s.outOf pk with
    | none => s.takeArrival p pk
    | some o =>
      if s.cutOffDies (p / 6) o.die then (((s.takeArrival p pk).closeOut o).loseOut o).pump
      else if s.reaches (fun st => st == 2) (p / 6) o.die then ((s.takeArrival p pk).answerOut o pk.payload error).pump
      else s

/-- READ_RESPONSE_ARRIVAL (R146, R381): a read's answer inside the package, or a READDATA packet. -/
def execReadResponseArrival (r : ReadResp) (s : State) : Out1 :=
  match r with
  | .inside k =>
    match s.resps[k]? with
    | none => .next s
    | some x =>
      -- lines that fill one L1 keep the order in which the home read them
      let behind := match x.fill with | some (l, _) => (s.resps.take k).any fun y => y.tile == x.tile && (y.fill.map (·.1)) == some l | none => false
      if !x.strand && !behind && (x.bad.isSome || s.reaches (fun st => st == 2) x.die (dieOf x.tile)) then
        .next (({ s with resps := s.resps.eraseIdx k }).deliver x)
      else .next s
  | .packet pk => if pk.op = opReadData ∧ pk.vc = 1 then .next (s.takeResponse pk false) else .next s

/-! ### Routes and quiescing (R28, R29) -/

/-- GPQCTL_QUIESCE (R29). -/
def execGpqctlQuiesce (p : Nat) (s : State) : Out1 :=
  if p < 24 ∧ s.released then .next (s.setPort p { s.port p with quiesce := true }) else .next s

/-- GPQCTL_RESUME (R29): a quiesced port is up again and the packets that wait for it proceed. -/
def execGpqctlResume (p : Nat) (s : State) : Out1 :=
  let P := s.port p
  if p < 24 ∧ s.released then
    .next (s.setPort p { P with quiesce := false, stat := if P.state = 3 then setField P.stat 0 2 2 else P.stat }).pump
  else .next s

/-- PORT_QUIESCE_DONE (R29): every packet the port carried has been answered. -/
def execPortQuiesceDone (p : Nat) (s : State) : Out1 :=
  let P := s.port p
  if p < 24 ∧ P.quiesce ∧ P.state = 2 ∧ P.carried = [] then .next (s.setPort p { P with stat := setField P.stat 0 2 3 })
  else .next s

/-- GRTAB_WRITE (R28, R29). -/
def execGrtabWrite (die : Nat) (node : BitVec 10) (v : BitVec 8) (s : State) : Out1 :=
  if die < 4 ∧ node.toNat < 640 ∧ s.released then
    let D := s.die die
    let old := kgetD D.grtab node.toNat 0xFF
    let quiet : BitVec 8 → Bool := fun x => x == 0xFF || (decide (x.toNat < 24) && (s.port x.toNat).state == 3)
    if old = v then .next s
    else if quiet old && quiet v then
      .next (s.setDie die { D with grtab := if v = 0xFF then kdel D.grtab node.toNat else kset D.grtab node.toNat v }).pump
    else .next (s.setDie die { D with grstat := satInc D.grstat 0 16 1 })
  else .next s

end Sys2Proof.Machine
end

