-- ==== Sys2Proof/Machine/Packets.lean ====
section
/-!
DEFINITION. Packets that come in through the ports, signals, in-switch and in-package reduction, and responses
(02_links.md R30 to R39, R381, R382; 17_memory_instructions.md R290).
-/
namespace Sys2Proof.Machine

/-! ### Refusals (R34, R381, R382) -/

/-- The channel of an operation; none for a reserved one. -/
def vcOf (op : Byte) : Option (BitVec 2) :=
  if op = opWrite ∨ op = opRead ∨ op = opAtomic then some 0
  else if op = opSignal then some 3
  else if op = opReduce then some 2
  else if op = opReadData ∨ op = opAck ∨ op = opAtomRes ∨ op = opError then some 1
  else none

/-- The bytes an ATOMIC acts on. -/
def atomicBytes (pk : Packet) : Nat := if pk.dtype = 1 then 8 else 4

/-- Whether LEN lies in the range of its operation (R30, R381). The model's choice where the rules name no code: an ATOMIC whose
LEN is another width than its DTYPE's, and a REDUCE whose LEN is no multiple of the element size (R35), count as out of range
and are refused with code 5 (log 59). -/
def lenOk (pk : Packet) : Bool :=
  let n := pk.len.toNat
  if pk.op = opWrite ∨ pk.op = opRead then decide (1 ≤ n) && decide (n ≤ 256)
  else if pk.op = opAtomic then n == atomicBytes pk * (if pk.aop = 10 then 2 else 1)
  else if pk.op = opSignal then n == 8
  else if pk.op = opReduce then
    decide (4 ≤ n) && decide (n ≤ 256) && n % (match pk.dtype.toNat with | 1 => 8 | 3 => 2 | _ => 4) == 0
  else true

/-- Whether AOP and DTYPE pair (R36, R290). -/
def aopOk (pk : Packet) : Bool :=
  if pk.op = opAtomic then (pk.aop == 1 && pk.dtype == 2) || (pk.aop != 1 && decide (pk.aop.toNat ≤ 10) && decide (pk.dtype.toNat ≤ 1))
  else if pk.op = opReduce then
    (pk.aop == 0 && (pk.dtype == 2 || pk.dtype == 3)) || (decide (1 ≤ pk.aop.toNat) && decide (pk.aop.toNat ≤ 3) && decide (pk.dtype.toNat ≤ 1))
  else true

/-- The causes that a packet's own fields give (R382). That a reserved DTYPE refuses only the operations that use DTYPE, ATOMIC and
REDUCE, is the model's choice (log 59). -/
def formCode (pk : Packet) : Option Nat :=
  if vcOf pk.op ≠ some pk.vc ∨ ¬ lenOk pk ∨ ((pk.op = opAtomic ∨ pk.op = opReduce) ∧ 4 ≤ pk.dtype.toNat) then some 5
  else if !aopOk pk then some 6
  else none

/-- Whether bytes of this node are mapped (R34, R122, log 23). -/
def mappedHere (pa n : Nat) : Bool :=
  (List.range n).all fun k => isDram (pa + k) || (isHost (pa + k) && Config.hostPresent (pa + k))

/-- The code of the ERROR that refuses a packet, if it is refused: the lowest that applies (R34, R382). -/
def State.errorCode (s : State) (pk : Packet) : Option Nat :=
  let pa := pk.addr.toNat
  let n := if pk.op = opSignal then 8 else if pk.op = opAtomic then atomicBytes pk else max 1 pk.len.toNat
  let ps := (List.range n).map fun k => pa + k
  if !mappedHere pa n then some 1
  else if ps.any fun a => security s pk.world a == some 1 then some 2
  else if ps.any fun a => (security s pk.world a).isSome then some 3
  else if (pk.op = opSignal ∧ pa % 8 ≠ 0) ∨ (pk.op = opAtomic ∧ pa % atomicBytes pk ≠ 0) then some 4
  else formCode pk

/-! ### Requests from other nodes (R31 to R34) -/

/-- A packet is refused: answered with ERROR, or, on the response channel, only discarded (R381). -/
def State.refuseAt (s : State) (die : Nat) (pk : Packet) (c : Nat) : State := if pk.vc = 1 then s else s.refuse die pk c

/-- Whether a contribution fails its whole operation by its own fields: AOP or DTYPE reserved, or not a pair (R36). -/
def failsReduce (pk : Packet) : Bool := decide (4 ≤ pk.dtype.toNat) || !aopOk pk

/-- What a request asks of the home. -/
def packetBody (pk : Packet) : Body :=
  let pa := pk.addr.toNat
  if pk.op = opRead then .read pa pk.len.toNat false
  else if pk.op = opAtomic then
    let w := atomicBytes pk
    .atomic pa pk.aop.toNat (8 * w) (BitVec.ofNat 64 (leNat (pk.payload.take w))) (BitVec.ofNat 64 (leNat ((pk.payload.drop w).take w)))
  else if pk.op = opSignal then .signal pa (BitVec.ofNat 64 (leNat pk.payload)) 0
  else .write pa pk.payload

/-- A packet takes its way to its home: performed at the die of its port, or carried to another die (R145). -/
def State.enterHome (s : State) (die : Nat) (pk : Packet) : State :=
  let home := homeOf pk.addr.toNat
  let v := (s.die die).vec
  if home = die then
    let (s, rs) := s.perform die ⟨die, die, 0, v, ent v die, packetBody pk, 0, 0, none, some pk, pk.world, false⟩
    s.answerPacket die pk rs
  else if s.cutOffDies die home then s
  else
    let s := s.send die home 0 0 none v (packetBody pk) (some pk)
    if pk.vc = 0 ∧ (packetBody pk).writes then { s with unseen := s.unseen ++ [unseenKey pk] } else s

/-- A request packet is taken: refused with an ERROR, discarded, or sent to its home; its flow's next number is noted. -/
def State.takeRequest (s : State) (p : Nat) (pk : Packet) : State :=
  let die := p / 6
  let s := s.takeArrival p pk
  let s := if pk.vc = 0 then
      { s with flowRx := kset s.flowRx (flowKey pk.sep.toNat pk.snode.toNat 0) ((pk.fseq.toNat + 1) % 65536) } else s
  match s.errorCode pk with
  | some c => s.refuseAt die pk c
  | none => s.enterHome die pk

/-- Whether a packet stands first of its flow at a port. -/
def State.canTake (s : State) (p : Nat) (pk : Packet) : Bool := s.arrived pk == some p

/-- PACKET_WRITE (R31, R34): also a packet of a reserved operation, which is discarded or refused (R381). -/
def execPacketWrite (port : Nat) (pk : Packet) (s : State) : Out1 :=
  if s.canTake port pk && (pk.op == opWrite || (vcOf pk.op).isNone || (vcOf pk.op == some 1 && pk.vc != 1)) then .next (s.takeRequest port pk).pump else .next s

/-- PACKET_READ (R381). -/
def execPacketRead (port : Nat) (pk : Packet) (s : State) : Out1 :=
  if s.canTake port pk && pk.op == opRead then .next (s.takeRequest port pk).pump else .next s

/-- PACKET_ATOMIC (R290). -/
def execPacketAtomic (port : Nat) (pk : Packet) (s : State) : Out1 :=
  if s.canTake port pk && pk.op == opAtomic then .next (s.takeRequest port pk).pump else .next s

/-- PACKET_SIGNAL (R33): it is held at its destination, or refused or discarded. -/
def execPacketSignal (port : Nat) (pk : Packet) (s : State) : Out1 :=
  if s.arrived pk == some port && pk.op == opSignal then
    let s := s.takeArrival port pk
    match s.errorCode pk with
    | some c => .next (s.refuseAt (port / 6) pk c).pump
    | none => .next { s with signals := s.signals ++ [⟨port, pk⟩] }
  else .next s

/-- Whether a held signal may be applied (R33): every companion packet at or before CSEQ has arrived and is visible, and no
earlier signal of its flow is held. -/
def State.signalReady (s : State) (k : Nat) (h : HeldSignal) : Bool :=
  let pk := h.pk
  let f := flowKey pk.sep.toNat pk.snode.toNat 0
  let n := kgetD s.flowRx f 0
  let c := pk.cseq.toNat
  decide ((n + 2 * 65536 - 1 - c) % 65536 < 32768) &&
  !(s.unseen.any fun u => u.1 == f && decide ((c + 65536 - u.2) % 65536 < 32768)) &&
  !((s.signals.take k).any fun x => x.pk.sep == pk.sep && x.pk.snode == pk.snode)

/-- SIGNAL_APPLY (R33). -/
def execSignalApply (k : Nat) (s : State) : Out1 :=
  match s.signals[k]? with
  | none => .next s
  | some h =>
    if s.signalReady k h then .next (({ s with signals := s.signals.eraseIdx k }).enterHome (h.port / 6) h.pk).pump else .next s

/-! ### Reduction (R35 to R38) -/

/-- Elements of a payload as numbers. -/
def elems (n : Nat) (b : List Byte) : List Nat := (cut n b).map leNat

/-- One step of the fold of R36 on elements already widened. -/
def foldStep (aop dtype : Nat) (x y : Nat) : Nat :=
  let w := if dtype = 1 then 64 else 32
  match aop with
  | 0 => (fadd (BitVec.ofNat 32 x) (BitVec.ofNat 32 y)).toNat
  | 1 => (x + y) % 2 ^ w
  | 2 => if (BitVec.ofNat w x).toInt ≤ (BitVec.ofNat w y).toInt then x else y
  | _ => if (BitVec.ofNat w x).toInt ≤ (BitVec.ofNat w y).toInt then y else x

/-- The left fold of contributions in their order (R36). -/
def foldReduce (aop dtype : Nat) (cs : List (List Byte)) : List Byte :=
  let n := match dtype with | 1 => 8 | 3 => 2 | _ => 4
  let widen : Nat → Nat := fun x => if dtype = 3 then f32.encode (bf16.value x) else x
  match cs with
  | [] => []
  | c :: rest =>
    let acc := rest.foldl (fun (acc : List Nat) c => (acc.zip ((elems n c).map widen)).map fun p => foldStep aop dtype p.1 p.2)
      ((elems n c).map widen)
    acc.flatMap fun x => natLe n (if dtype = 3 then bf16.encode (f32.value x) else x)

/-- The switch answers a contributor; an answer to this node arrives at a port of it, and one to a node whose contribution
came in at a port leaves from that port's die. -/
def State.switchAnswer (s : State) (pk : Packet) (code : Option Nat) : State :=
  if pk.snode.toNat = s.node then
    let r := { packetZero with
      op := (match code with | none => opAck | some _ => opError), vc := 1, dnode := pk.snode, snode := pk.dnode, sep := pk.sep,
      addr := pk.addr, tag := pk.tag, len := (match code with | none => 0 | some _ => 8),
      payload := (match code with | none => [] | some c => natLe 8 c) }
    { s with arrivals := s.arrivals ++ [(s.route (pk.sep.toNat / 256) pk.dnode.toNat, r)] }
  else
    match s.reduceVia.find? fun x => x.2 == pk with
    | none => s
    | some (d, _) =>
      let s := { s with reduceVia := s.reduceVia.erase (d, pk) }
      match code with
      | none => s.respond d pk opAck []
      | some c => s.refuse d pk c

/-- Whether a contribution belongs to an operation (R35). -/
def ReduceOp.has (o : ReduceOp) (pk : Packet) : Bool :=
  o.dnode == pk.dnode && o.rgroup == pk.rgroup && o.addr == pk.addr && o.epoch == pk.tag

/-- Inserts a contribution by ascending node. -/
def insNode (pk : Packet) : List Packet → List Packet
  | [] => [pk]
  | x :: l => if pk.snode.toNat ≤ x.snode.toNat then pk :: x :: l else x :: insNode pk l

/-- The result of a reduction is written at its destination when that is this node (R35, R34). -/
def State.writeResult (s : State) (pk : Packet) (bs : List Byte) : State × Option Nat :=
  if pk.dnode.toNat = s.node then
    match s.errorCode { pk with op := opWrite, vc := 0 } with
    | some c => (s, some c)
    | none => (s.deviceWrite (homeOf pk.addr.toNat) pk.addr.toNat bs, none)
  else (s, none)

/-- Whether another REDUCE of this package for the operation has yet to reach the switch: it waits at its NI or is on its way
(R37). -/
def State.moreToCome (s : State) (o : ReduceOp) : Bool :=
  (s.outbox.any fun x => x.op == opReduce && x.snode.toNat == s.node && o.has x) ||
  s.outs.any fun x => x.port.isNone && x.pk.op == opReduce && o.has x.pk

/-- Contributors of an operation, each counted once (R35). -/
def contributors (cs : List Packet) : Nat := (cs.map fun x => x.snode).eraseDups.length

/-- A contribution reaches the switch (R35, R36, R38). A failed operation stands until each of its contributors has been
answered; a package that sends several REDUCEs for it has sent a second one (R37). -/
def State.contributeSwitch (s : State) (pk : Packet) : State :=
  let op := (s.reduces.find? fun o => o.has pk).getD ⟨pk.dnode, pk.rgroup, pk.addr, pk.tag, [], false⟩
  let others := s.reduces.filter fun o => !o.has pk
  let own := formCode pk
  let clash := op.contribs.any (fun x => x.snode == pk.snode) || (pk.snode.toNat == s.node && s.moreToCome op) ||
    (match op.contribs.head? with | some x => x.len != pk.len || x.aop != pk.aop || x.dtype != pk.dtype | none => false)
  let cs := op.contribs ++ [pk]
  let full := decide (pk.ncontrib.toNat ≤ contributors cs)
  if own.isSome || clash || op.failed then
    let s := if op.failed then s else op.contribs.foldl (fun s x => s.switchAnswer x (some 7)) s
    let s := s.switchAnswer pk (some (own.getD 7))
    { s with reduces := if full && !s.moreToCome op then others else others ++ [{ op with contribs := cs, failed := true }] }
  else if full then
    let bs := foldReduce pk.aop.toNat pk.dtype.toNat ((cs.foldl (fun l x => insNode x l) []).map (·.payload))
    let (s, code) := s.writeResult pk bs
    let s := cs.foldl (fun s x => s.switchAnswer x code) s
    { s with reduces := others }
  else { s with reduces := others ++ [{ op with contribs := cs }] }

/-- REDUCE_CONTRIBUTION (R35, R36, R38): a REDUCE that has left this package, or one of another node, reaches the switch. One
that a port of this node has received is checked there first (R34, R381, R382). -/
def execReduceContribution (pk : Packet) (s : State) : Out1 :=
  if pk.op = opReduce then
    match s.arrived pk with
    | some p =>
      let s := s.takeArrival p pk
      match s.errorCode pk with
      | some c =>
        let s := s.refuseAt (p / 6) pk c
        .next (if pk.vc == 2 && failsReduce pk then s.contributeSwitch pk else s).pump
      | none => .next (({ s with reduceVia := s.reduceVia ++ [(p / 6, pk)] }).contributeSwitch pk).pump
    | none =>
      if s.arrivals.any fun a => a.2 == pk then .next s
      else if pk.snode.toNat = s.node then
        if s.outbox.contains pk then .next (({ s with outbox := s.outbox.erase pk }).contributeSwitch pk) else .next s
      else .next (s.contributeSwitch pk)
  else .next s

/-- Inserts a local contribution by ascending tile: ascending die, and within a die ascending tile (R37, R8). -/
def insContrib (c : LocalContrib) : List LocalContrib → List LocalContrib
  | [] => [c]
  | x :: l => if c.tile < x.tile then c :: x :: l else x :: insContrib c l

/-- The contributions of this package to the operation of one of them. -/
def State.localGroup (s : State) (k : Nat) : List LocalContrib :=
  match s.locals[k]? with
  | none => []
  | some c =>
    (s.locals.filter fun x => x.pk.dnode == c.pk.dnode && x.pk.rgroup == c.pk.rgroup && x.pk.addr == c.pk.addr && x.pk.tag == c.pk.tag).take
      c.need

/-- One REDUCE of the package under its own node identifier, for the contributions it stands for. -/
def State.sendReduce (s : State) (die : Nat) (pk : Packet) (cs : List LocalContrib) : State :=
  let who := cs.map fun c => (c.tile, c.id, c.name)
  if s.routeLost die pk.dnode.toNat then
    who.foldl (fun s w => s.engAnswer w.1 w.2.1 w.2.2 [] (some (15, 6, pk.addr.toNat))) s
  else (s.request die 65 pk (.reduce who)).pump

/-- Every contribution of a group is answered: done, or, with `bad`, by an ERROR (R37, R38). -/
def State.answerLocals (s : State) (cs : List LocalContrib) (bad : Bool) : State :=
  cs.foldl (fun s x => s.engAnswer x.tile x.id x.name [] (if bad then some (8, 0, x.pk.addr.toNat) else none)) s

/-- LOCAL_REDUCE_COMBINE (R37): once the package's contributions to an operation are all there, they are folded and one
REDUCE leaves; contributions that disagree leave one by one. A reduction confined to this package is folded and written here;
its contributions fail together where they disagree, where AOP and DTYPE do not pair (R36), or where the destination refuses the
result (R34). -/
def execLocalReduceCombine (k : Nat) (s : State) : Out1 :=
  let cs := (s.localGroup k).foldl (fun l c => insContrib c l) []
  match cs with
  | [] => .next s
  | c :: _ =>
    let die := dieOf c.tile
    let same := cs.all fun x => x.pk.len == c.pk.len && x.pk.aop == c.pk.aop && x.pk.dtype == c.pk.dtype
    let room := if same then 1 else cs.length
    let confined := c.pk.dnode.toNat == s.node && c.pk.ncontrib == 1
    if cs.length < c.need ∨ ¬ s.outRoom die 65 room then .next s
    else
      let s' := { s with locals := s.locals.filter fun x => !cs.contains x }
      let bs := foldReduce c.pk.aop.toNat c.pk.dtype.toNat (cs.map (·.pk.payload))
      if confined then
        if !same || (formCode c.pk).isSome || (s.errorCode { c.pk with op := opWrite, vc := 0 }).isSome then .next (s'.answerLocals cs true)
        else if s'.rangeOpen die c.pk.addr.toNat bs.length (s'.die die).vec true then
          .next ((s'.writeNow die c.pk.addr.toNat bs (s'.die die).vec).answerLocals cs false)
        else .next s
      else if !same then .next (cs.foldl (fun s x => s.sendReduce (dieOf x.tile) x.pk [x]) s')
      else .next (s'.sendReduce die { c.pk with payload := bs } cs)

/-! ### Responses (R30, R149) -/

/-- ACK_RESPONSE (R149). -/
def execAckResponse (pk : Packet) (s : State) : Out1 :=
  if pk.op = opAck ∧ pk.vc = 1 then .next (s.takeResponse pk false) else .next s

/-- ATOMRES_RESPONSE (R290). -/
def execAtomresResponse (pk : Packet) (s : State) : Out1 :=
  if pk.op = opAtomRes ∧ pk.vc = 1 then .next (s.takeResponse pk false) else .next s

/-- ERROR_RESPONSE (R382, R38). -/
def execErrorResponse (pk : Packet) (s : State) : Out1 :=
  if pk.op = opError ∧ pk.vc = 1 then .next (s.takeResponse pk true) else .next s

end Sys2Proof.Machine
end

