-- ==== Sys2Proof/Machine/Place.lean ====
section
/-!
DEFINITION. Dispatch checks, edges, placement, scrubs, time slices and pre-emption, USED, and the end of a grid
(04_launch_interface.md R57, R58, R61, R65 to R69; 05_scheduler.md R71 to R81; 03_host_partitions.md R51; 07_execution_model.md
R109).
-/
namespace Sys2Proof.Machine

/-! ### Region queues (R65, R66, R72, R73) -/

/-- The grids of a queue take the base priority and fault policy of a read of their region (R65). -/
def State.refreshGrids (s : State) (p k : Nat) (e : Eff) : State :=
  { s with grids := kmap s.grids fun _ G => if G.part = p ∧ G.queue = k then { G with prio := min e.prio G.rcd.cap, fdp := e.fdp } else G }

/-- A read of a region's effective values (R65): a chain that fails a check leaves the values of the previous read; a region
found exhausted, or exhausted no longer, changes its queue's state (R72). -/
def State.refreshQueue (s : State) (p k : Nat) : State :=
  match s.part p with
  | none => s
  | some P =>
    match kget P.queues k with
    | none => s
    | some q =>
      match s.readEff q.vf q.region with
      | .error _ => s
      | .ok e =>
        let q := if q.eff.isNone then { q with eff := some e, level := min e.prio (match q.recs.head? with | some r => r.cap | none => 7) }
          else { q with eff := some e }
        let q : Queue :=
          if e.exhausted then
            if q.st = .exhausted then q else { q with st := .exhausted, exhaustions := q.exhaustions + 1 }
          else if q.st = .exhausted then { q with st := .waiting, level := q.base, since := s.leadUsec P }
          else q
        (s.setPart p { P with queues := kset P.queues k q }).refreshGrids p k e

/-- Sheaves of a region that await restore (R73, R80). -/
def State.frozenOf (s : State) (P : Part) (k : Nat) : Nat :=
  (P.sheaves.filter fun (_, h) => h.image.blocks.any fun (_, B) =>
    B.proxy.isNone && (match kget s.grids B.grid with | some G => G.queue == k | none => false)).length

/-- The level of a queue: one that holds only frozen blocks stands at the highest base of those (R72, R73, R80). -/
def State.levelOf (s : State) (P : Part) (k : Nat) (q : Queue) : Nat :=
  if q.recs.isEmpty then
    P.sheaves.foldl (fun n (_, h) => h.image.blocks.foldl (fun n (_, B) =>
      if B.proxy.isNone && (match kget s.grids B.grid with | some G => G.queue == k | none => false) then max n B.prio else n) n) 0
  else q.level

/-- Whether a queue waits: records to place, or blocks to restore, of a region that is not exhausted (R72, R80). -/
def State.waits (s : State) (P : Part) (k : Nat) (q : Queue) : Bool :=
  (match q.st with | .waiting | .placing => true | _ => false) && (!q.recs.isEmpty || decide (0 < s.frozenOf P k))

/-- Whether queue a is served before queue b (R72, R73), with their levels: level, then the queue already being placed, then
the head accepted earlier, then the lower region address. A queue that holds only frozen blocks has no head: the spec gives it
no time of acceptance, and it comes first among its equals (log 62). -/
def servedBefore (la lb : Nat) (a b : Queue) : Bool :=
  let st := fun (q : Queue) => match q.recs.head? with | some r => r.stamp | none => 0
  if la ≠ lb then decide (lb < la)
  else if (a.st == .placing) ≠ (b.st == .placing) then a.st == .placing
  else if st a ≠ st b then decide (st a < st b)
  else decide (a.region.toNat < b.region.toNat)

/-- Inserts a queue into the order of service. -/
def insQueue (level : Nat × Queue → Nat) (x : Nat × Queue) : List (Nat × Queue) → List (Nat × Queue)
  | [] => [x]
  | y :: l => if servedBefore (level x) (level y) x.2 y.2 then x :: y :: l else y :: insQueue level x l

/-- The waiting queues of a partition in the order of service (R73). -/
def State.order (s : State) (P : Part) : List (Nat × Queue) :=
  (P.queues.filter fun (k, q) => s.waits P k q).foldl (fun l x => insQueue (fun y => s.levelOf P y.1 y.2) x l) []

/-- Whether records of a queue may be placed: it waits, and blocks frozen of its region come first (R73). -/
def State.placeable (s : State) (P : Part) (k : Nat) (q : Queue) : Bool :=
  !q.recs.isEmpty && (match q.st with | .waiting | .placing => true | _ => false) && s.frozenOf P k == 0

/-! ### Room (R75 to R77) -/

/-- Slices that READY bins of a tile claim before any placement (R85). -/
def Tile.readyClaims (T : Tile) : Nat :=
  T.bins.foldl (fun n (_, b) => match b.st with | .ready _ => n + (b.pos.length + 3) / 4 | .filling _ => n) 0

/-- Whether a tile may take a block of a function and world (R75, R216). -/
def State.takes (s : State) (P : Part) (t vf : Nat) (world : Bool) : Bool :=
  let T := s.tile t
  P.hasTile t && !s.tfence.contains t && (match T.mode with | .run | .vacant => true | _ => false) &&
  (T.idle || (T.vf == vf && T.world == world))

/-- How many blocks of a record fit a tile now (R75). -/
def State.roomCount (s : State) (P : Part) (t : Nat) (r : LRecord) (vf : Nat) (world : Bool) : Nat :=
  if s.takes P t vf world then
    let T := s.tile t
    let spad := T.blocks.foldl (fun n (_, B) => if B.proxy.isNone then n + B.rcd.spad else n) 0
    min (min ((128 - (s.slicesTaken t + T.readyClaims)) / r.blockSlices) ((65536 - s.regsTaken t) / r.laneRegs))
      (min ((512 - spad) / max 1 r.spad) (16 - T.blocks.length))
  else 0

/-- The sets of tiles a block or cluster group of size c may occupy (R76). -/
def Part.places (P : Part) (c : Nat) : List (List Nat) :=
  match c with
  | 1 => P.tiles.map fun t => [t]
  | 2 => (P.tiles.filter fun t => t % 2 == 0).map fun t => [t, t + 1]
  | _ => (P.tiles.filter fun t => t % 2 == 0 && t / 8 % 2 == 0).map fun t => [t, t + 1, t + 8, t + 9]

/-- How many blocks of a record fit the whole partition now, in whole groups. -/
def State.fitCount (s : State) (P : Part) (r : LRecord) (vf : Nat) (world : Bool) : Nat :=
  (P.places r.cgsize).foldl (fun n ts =>
    match ts.map fun t => s.roomCount P t r vf world with
    | [] => n
    | x :: xs => n + r.cgsize * xs.foldl min x) 0

/-- Capacity that a cooperative grid reserves: its record, function and world, its grid, and how many blocks it needs
(R74, R77). -/
structure Reserve where
  r : LRecord
  vf : Nat
  world : Bool
  grid : Nat
  need : Nat
  deriving DecidableEq, Repr

/-- The reservations of cooperative grids whose placement has begun (R77). -/
def State.begunReserves (s : State) (p : Nat) : List Reserve :=
  s.grids.filterMap fun (g, G) =>
    if G.part == p && G.rcd.r.coop && decide (G.placed < G.rcd.r.grid) && !G.withdrawn then
      some ⟨G.rcd.r, G.rcd.vf, G.world, g, G.rcd.r.grid - G.placed⟩
    else none

/-- The reservation of a cooperative head that waits, with the stamp at which it began (R77). -/
def State.waitingReserve (s : State) (q : Queue) : Option (Nat × Reserve) :=
  match q.reserve, q.recs.head?, q.st with
  | some n, some rc, .waiting | some n, some rc, .placing =>
    if (kget s.grids rc.grid).isNone && rc.r.coop then
      some (n, ⟨rc.r, rc.vf, match q.eff with | some e => e.world | none => false, rc.grid, rc.r.grid⟩)
    else none
  | _, _, _ => none

/-- Inserts a waiting reservation by its stamp. -/
def insReserve (x : Nat × Reserve) : List (Nat × Reserve) → List (Nat × Reserve)
  | [] => [x]
  | y :: l => if x.1 < y.1 then x :: y :: l else y :: insReserve x l

/-- Every reservation of a partition, the oldest first: grids whose placement has begun, then heads that wait (R77). -/
def State.reserves (s : State) (p : Nat) (P : Part) : List Reserve :=
  s.begunReserves p ++ ((P.queues.filterMap fun (_, q) => s.waitingReserve q).foldl (fun l x => insReserve x l) []).map (·.2)

/-- The reservations that bind a grid: those older than its own, or all (R74, R77). -/
def bindingOn (res : List Reserve) (grid : Nat) : List Reserve := res.takeWhile fun v => v.grid != grid

/-- Whether a change leaves what reservations hold (R77): each can still place of its need what it could before. -/
def State.keeps (s s' : State) (P : Part) (res : List Reserve) : Bool :=
  res.all fun v => decide (min v.need (s.fitCount P v.r v.vf v.world) ≤ min v.need (s'.fitCount P v.r v.vf v.world))

/-! ### Dispatch (R57, R68) -/

/-- The dispatch check that a head record fails (R57, codes 6 to 8). An edge's 128 bytes may lie in two pages, and both translate
(R68). -/
def State.dispatchCode (s : State) (rc : Rec) : Option Nat :=
  let r := rc.r
  let bad6 := (r.compl != 0 && (s.complAt rc.vf r.compl).isNone) ||
    (r.edge != 0 && ((s.devicePlace rc.vf r.edge).isNone || (s.devicePlace rc.vf (r.edge + 64)).isNone))
  match s.regionChain rc.vf 8 r.region with
  | .error c => some (if bad6 then 6 else c)
  | .ok bs =>
    if bad6 then some 6
    else
      let world := (chainEff bs).world
      if (world && !rc.secure) || (match rc.sameWorld with | some w => w != world | none => false) then some 8 else none

/-- Whether the completion pair of a record can be written now, or needs no write. -/
def State.complOpen (s : State) (die vf : Nat) (r : LRecord) : Bool :=
  match s.complAt vf r.compl with
  | none => true
  | some fa => s.deviceOpen die fa

/-- Changes a queue of a partition. -/
def State.mapQueue (s : State) (p k : Nat) (f : Queue → Queue) : State :=
  match s.part p with
  | none => s
  | some P =>
    match kget P.queues k with
    | some q => s.setPart p { P with queues := kset P.queues k (f q) }
    | none => s

/-- The head record leaves its queue (R72). -/
def Queue.drop (q : Queue) : Queue :=
  { q with recs := q.recs.drop 1, reserve := none, st := if q.st = QState.exhausted then QState.exhausted else QState.waiting }

/-- The last block of the head is placed: the record leaves, and the level is the base of the new head (R72). -/
def Queue.pop (q : Queue) : Queue := { q.drop with level := q.drop.base }

/-- A head that fails a dispatch check is discarded: completion as an abnormal end, and its slot returns (R57, R67, R72). A
producer discarded here has not completed in the sense of R69: it starts no consumer (log 40). -/
def State.discardHead (s : State) (p k : Nat) (P : Part) (rc : Rec) : State :=
  let s := s.complete P.leadDie rc.vf false rc.grid rc.r 1
  let s := s.mapQueue p k Queue.drop
  s.returnSlot rc.origin rc.grid

/-- The FREE counter of an edge control block (R68): its fabric address, and its value. -/
def State.edgeFree (s : State) (vf : Nat) (edge : Word) : Option (Nat × Nat) :=
  (s.devicePlace vf edge).map fun fa => (fa + 4, s.placeLe (fa + 4) 4)

/-- A request of a lead distributor to another node. -/
def State.distributorSend (s : State) (die vf : Nat) (world : Bool) (fa : Nat) (b : Body) : State :=
  (s.request die 65 (nodePacket vf world fa b) .none).tryLast

/-- The lead distributor writes a FREE counter (R68). -/
def State.writeFree (s : State) (die vf : Nat) (world : Bool) (fa f : Nat) : State :=
  if fa / 2 ^ 42 = s.node then s.deviceWrite die (fa % 2 ^ 42) (natLe 4 f)
  else s.distributorSend die vf world fa (.write (fa % 2 ^ 42) (natLe 4 f))

/-- The slots of edges at other nodes return, one at a time (R68). -/
def returnFarEdge (p : Nat) (s : State) : Out1 :=
  match s.part p with
  | none => .next s
  | some P =>
    match P.edgesDue with
    | [] => .next s
    | (vf, va) :: l =>
      let s' := s.setPart p { P with edgesDue := l }
      match s.devicePlace vf va with
      | none => .next s'
      | some fa =>
        if !s.deviceOpen P.leadDie fa then .next s
        else
          let f := s.placeLe (fa + 4) 4
          let s' := if f < s.placeLe fa 4 then s'.writeFree P.leadDie vf false (fa + 4) (f + 1) else s'
          .next { s' with parts := kmap s'.parts fun _ P => P.unhold }

/-! ### Placing (R58, R76, R109) -/

/-- One gang of a new block with its one sub-gang. -/
def Tile.addGang (T : Tile) (r : LRecord) (ctx index bud stamp gid g : Nat) (pos : List Nat) : Tile :=
  let slices : KMap Slice := (List.range r.slices).map fun i =>
    (i, Slice.zero (pos.getD (g * r.slices + i) 0) g r.args (BitVec.ofNat 64 index) (BitVec.ofNat 64 r.grid))
  let G : Gang := { ctx := ctx, kind := .placed, ix := g, feeder := g == r.feeder, detached := false, total := r.slices,
                    retry := Retry.begin T r .initial, bud := bud, rebin := none }
  { T with gangs := kset T.gangs gid G, subs := kset T.subs (gid + 1) (Sub.start gid r.entry slices stamp) }

/-- A block is placed on a tile (R58, R109): the tile is to be scrubbed first where its function or world changes (R51);
the caches that a block's beginning invalidates are cleared, at once where it begins at once (R221, R125). -/
def State.placeOne (s : State) (rc : Rec) (p : Nat) (world : Bool) (prio bud index ctx t : Nat) (peers : List (Nat × Nat))
    (pos : Nat) (begun : Bool) : State :=
  let r := rc.r
  let s := (if begun then s.l1Clear t else s).observe (dieOf t) rc.vec
  let T := s.tile t
  let scrub := T.scrub || T.vf != rc.vf || T.world != world
  let fill : Fill := if scrub || T.scrubbed then .zero else .free s.free
  let B : Block := {
    uid := s.nextId, grid := rc.grid, index := index, rcd := r, vf := rc.vf, world := world, part := p, prio := prio, gangs := r.gangs,
    slices := r.slices, vregs := r.vregs, feeder := r.feeder, peers := peers, pos := pos, spad := [], spadFill := fill,
    spadPoison := [], tcs := [], handles := [], hist := [], chans := [], pend := [], launches := 0, tctl := 0, reports := [],
    corrected := 0, skein := none, lastSkein := none, begun := begun, proxy := none }
  let ps := T.freePos r.blockSlices
  let T := { T with mode := .run, vf := rc.vf, world := world, scrub := scrub, icache := if begun then [] else T.icache, blocks := kset T.blocks ctx B,
                    tlb := if scrub then [] else T.tlb }
  let T := (List.range r.gangs).foldl (fun T g => T.addGang r ctx index bud s.stamp (s.nextId + 1 + 2 * g) g ps) T
  { s.setTile t T with nextId := s.nextId + 1 + 2 * r.gangs, free := s.free + 1, stamp := s.stamp + 1 }

/-- Whether a tile is to be scrubbed before a block of a function and world begins on it (R51). -/
def State.scrubDue (s : State) (t vf : Nat) (world : Bool) : Bool :=
  let T := s.tile t
  T.scrub || T.vf != vf || T.world != world

/-- The next block or cluster group of a record is placed on the given tiles (R76); all its blocks begin together. -/
def State.placeGroup (s : State) (rc : Rec) (p : Nat) (world : Bool) (prio bud index : Nat) (ts : List Nat) : State :=
  let peers := ts.map fun t => (t, (kfree (s.tile t).blocks 16).getD 0)
  let begun := !(ts.any fun t => s.scrubDue t rc.vf world)
  peers.zipIdx.foldl (fun s x => s.placeOne rc p world prio bud (index + x.2) x.1.2 x.1.1 peers x.2 begun) s

/-- Counts a placement in its grid, which begins with its first block (R67, R76). -/
def State.notePlaced (s : State) (p k : Nat) (rc : Rec) (world : Bool) (prio : Nat) (fdp : Byte) (c : Nat) : State :=
  match kget s.grids rc.grid with
  | some G => s.setGrid rc.grid { G with placed := G.placed + c, slotHeld := decide (G.placed + c < rc.r.grid) }
  | none =>
    s.setGrid rc.grid { part := p, queue := k, rcd := rc, world := world, prio := prio, fdp := fdp, placed := c, ended := 0,
                        unrec := false, withdrawn := false, slotHeld := decide (c < rc.r.grid) }

/-- Whether a selectable queue of higher level than n waits (R72). -/
def State.higherWaits (s : State) (p k n : Nat) : Bool :=
  match s.part p with
  | some P => (s.order P).any fun x => x.1 != k && decide (n < s.levelOf P x.1 x.2)
  | none => false

/-- A block or group of a queue's head is placed (R72, R76): the edge slot is taken before the first (R68); the level falls
back to the base; with the last the record leaves and its slot returns (R61). -/
def State.placeNext (s : State) (p k : Nat) (P : Part) (q : Queue) (rc : Rec) (e : Eff) (ts : List Nat) : State :=
  let now := s.leadUsec P
  let started := kget s.grids rc.grid
  let world := match started with | some G => G.world | none => e.world
  let prio := match started with | some G => G.prio | none => min e.prio rc.cap
  let fdp := match started with | some G => G.fdp | none => e.fdp
  let index := match started with | some G => G.placed | none => 0
  let s :=
    if started.isSome ∨ rc.r.edge = 0 then s
    else
      match s.edgeFree rc.vf rc.r.edge with
      | some (fa, f) => s.writeFree P.leadDie rc.vf world fa (f - 1)
      | none => s
  let s := s.placeGroup rc p world prio q.exhaustions index ts
  let s := s.notePlaced p k rc world prio fdp ts.length
  if index + ts.length = rc.r.grid then (s.mapQueue p k Queue.pop).returnSlot rc.origin rc.grid
  else
    let s := s.mapQueue p k fun q => { q with level := q.base, since := now }
    let up := s.higherWaits p k q.base
    s.mapQueue p k fun q => { q with st := if up then .waiting else .placing }

/-! ### What the lead distributor serves next (R71 to R78) -/

/-- Whether the given tiles are a place for the next block or group, and the reservations that bind it stay whole. -/
def State.placeFits (s : State) (P : Part) (rc : Rec) (world : Bool) (res : List Reserve) (ts : List Nat) : Bool :=
  ts.all (fun t => decide (1 ≤ s.roomCount P t rc.r rc.vf world)) &&
  (res.isEmpty || s.keeps (s.placeGroup rc 0 world 0 0 0 ts) P res)

/-- The first place, in order of tile number, for the next block or group. -/
def State.findPlace (s : State) (P : Part) (rc : Rec) (world : Bool) (res : List Reserve) : Option (List Nat) :=
  (P.places rc.r.cgsize).find? fun ts => s.placeFits P rc world res ts

/-- Whether n more groups of a record can be placed one after another within what older reservations leave. -/
def State.fitsAll (P : Part) (rc : Rec) (world : Bool) (res : List Reserve) : Nat → State → Bool
  | 0, _ => true
  | n + 1, s =>
    match s.findPlace P rc world res with
    | some ts => State.fitsAll P rc world res n (s.placeGroup rc 0 world 0 0 0 ts)
    | none => false

/-- Whether the whole of a cooperative grid fits at this moment (R77). -/
def State.wholeFits (s : State) (P : Part) (rc : Rec) (world : Bool) (res : List Reserve) : Bool :=
  decide (rc.r.grid ≤ s.fitCount P rc.r rc.vf world) && (res.isEmpty || State.fitsAll P rc world res (rc.r.grid / rc.r.cgsize) s)

/-- Whether two lists of tiles hold the same tiles. -/
def sameTiles (a b : List Nat) : Bool := a.length == b.length && a.all (fun t => b.contains t) && b.all fun t => a.contains t

/-- The queues whose regions have blocks in a sheaf. -/
def State.queuesOf (s : State) (h : Sheaf) : List Nat :=
  h.image.blocks.filterMap fun (_, B) => if B.proxy.isNone then (kget s.grids B.grid).map (·.queue) else none

/-- A tile as it would be while a sheaf loads onto it. -/
def State.loading (s : State) (slot t : Nat) : State := s.setTile t { s.tile t with mode := .load slot none }

/-- Whether a sheaf may go to a tile: an empty tile that its group, its scope and the reservations of others allow (R72, R77, R93,
R97, R216). -/
def State.restoreFits (s : State) (p : Nat) (P : Part) (slot : Nat) (h : Sheaf) (t : Nat) : Bool :=
  !h.restoring && s.emptyTile P t && s.restorable P h && s.groupFits P h t && s.scopeFits h t &&
  (let res := (s.reserves p P).filter fun v => !(h.image.blocks.any fun (_, B) => B.grid == v.grid)
   res.isEmpty || s.keeps (s.loading slot t) P res)

/-- The state in which a sheaf is assigned to a tile, if it may be and passes the checks of R97. -/
def State.assigned (s : State) (p slot t : Nat) : Option State :=
  match s.part p with
  | none => none
  | some P =>
    match kget P.sheaves slot with
    | none => none
    | some h =>
      if s.restoreFits p P slot h t && (State.restoreCode p h t).isNone then
        some ((s.setPart p { P with sheaves := kset P.sheaves slot { h with restoring := true } }).loading slot t)
      else none

/-- Whether the given sheaves can be assigned to tiles, one after another (R81, R93). -/
def State.assignAll (p : Nat) (ts : List Nat) : List Nat → State → Bool
  | [], _ => true
  | k :: ks, s =>
    match ts.findSome? fun t => s.assigned p k t with
    | some s' => State.assignAll p ts ks s'
    | none => false

/-- The sheaves and tiles of a partition that a restore can pair now: those that belong together all find a place, and a tile of
another revision is left out (R73, R81, R93, R97). -/
def State.restores (s : State) (p : Nat) (P : Part) (mine : Nat → Sheaf → Bool) : List (Nat × Nat) :=
  let ts := P.tiles.filter fun t => s.emptyTile P t
  (P.sheaves.filter fun (slot, h) => !h.restoring && mine slot h).flatMap fun (slot, h) =>
    let rest := (P.boundSlots slot).filter fun x => x != slot && (match kget P.sheaves x with | some o => !o.restoring | none => false)
    (ts.filter fun t =>
      match State.restoreCode p h t with
      | some c => c != 1 && s.restoreFits p P slot h t
      | none => match s.assigned p slot t with | some s' => State.assignAll p ts rest s' | none => false).map fun t => (slot, t)

/-- The restores that a queue's region waits for. -/
def State.queueRestores (s : State) (p : Nat) (P : Part) (k : Nat) : List (Nat × Nat) :=
  s.restores p P fun _ h => (s.queuesOf h).contains k

/-- What the lead distributor does for a queue it considers. -/
inductive Serve where
  /-- Frozen blocks of its region come first, and can be restored. -/
  | restore
  /-- Its region is found exhausted. -/
  | exhaust
  /-- The head is discarded: it fails a dispatch check. -/
  | discard
  /-- The head is held: its edge has no free slot. -/
  | hold
  /-- The cooperative head does not fit, and begins to reserve. -/
  | reserve
  /-- Its next block or group can be placed, for instance there. -/
  | place (ts : List Nat)
  /-- It can be given nothing now. -/
  | pass
  /-- It waits for something of the device to be seen or to be possible. -/
  | stop
  deriving DecidableEq, Repr

/-- The values of its region that a head is dispatched under: those of its grid, or of a read now (R65). -/
def State.effNow (s : State) (q : Queue) (rc : Rec) : Eff :=
  let now : Option Eff := if (kget s.grids rc.grid).isSome then q.eff else match s.readEff q.vf q.region with | .ok e => some e | .error _ => q.eff
  now.getD ⟨0, 0, false, 0, [], false⟩

/-- The world of a record's blocks: that of its grid, or of its region (R58). -/
def State.recWorld (s : State) (rc : Rec) (e : Eff) : Bool := match kget s.grids rc.grid with | some G => G.world | none => e.world

/-- How a head is dispatched or its placement goes on, once nothing frozen comes before it (R57, R68, R73, R74, R77). -/
def State.serveHead (s : State) (p : Nat) (P : Part) (q : Queue) (rc : Rec) : Serve :=
  let begun := (kget s.grids rc.grid).isSome
  let e := s.effNow q rc
  let world := s.recWorld rc e
  let res := bindingOn (s.reserves p P) rc.grid
  if !begun && e.exhausted then .exhaust
  else
    match (if begun then none else s.dispatchCode rc) with
    | some _ => if s.complOpen P.leadDie rc.vf rc.r then .discard else .stop
    | none =>
      match (if begun ∨ rc.r.edge = 0 then none else s.edgeFree rc.vf rc.r.edge) with
      | some (_, 0) => .hold
      | x =>
        if (match x with | some (fa, _) => !s.deviceOpen P.leadDie fa | none => false) then .stop
        else if !begun && rc.r.coop && !s.wholeFits P rc world res then (if q.reserve.isSome then .pass else .reserve)
        else
          match s.findPlace P rc world res with
          | some ts => .place ts
          | none => .pass

/-- How a queue is served: its frozen blocks before its records (R73); records of a function that is locked and not started wait
(R55); a head is read once what its acceptance acquires is seen (R62). -/
def State.serve (s : State) (p : Nat) (P : Part) (k : Nat) (q : Queue) : Serve :=
  if 0 < s.frozenOf P k then (if (s.queueRestores p P k).isEmpty then .pass else .restore)
  else
    match q.recs.head? with
    | none => .pass
    | some rc =>
      if (s.vf rc.vf).td = .locked then .pass
      else if (kget s.grids rc.grid).isNone && !s.coveredBy rc.vec then .stop
      else s.serveHead p P q rc

/-- The first queue in the order of service that is given something, and what (R73, R74): nothing while it has to wait. -/
def State.firstServed (s : State) (p : Nat) (P : Part) : List (Nat × Queue) → Option (Nat × Queue × Serve)
  | [] => none
  | (k, q) :: ks =>
    match s.serve p P k q with
    | .pass => s.firstServed p P ks
    | .stop => none
    | x => some (k, q, x)

/-- New queues whose region could not yet be read are read once it can be (R62). -/
def State.readNew (s : State) (p : Nat) : State :=
  match s.part p with
  | none => s
  | some P =>
    (P.queues.filter fun (_, q) => q.eff.isNone && (match q.recs.head? with | some r => s.coveredBy r.vec | none => false)).foldl
      (fun s x => s.refreshQueue p x.1) s

/-- What the lead distributor serves next. -/
def State.nextServe (s : State) (p : Nat) : Option (Nat × Queue × Serve) :=
  let s := s.readNew p
  match s.part p with
  | none => none
  | some P => s.firstServed p P (s.order P)

/-! ### PLACE_BLOCK (R71 to R78) -/

/-- A head that is dispatched has its region read (R65). -/
def State.dispatchRead (s : State) (p k : Nat) (rc : Rec) : State := if (kget s.grids rc.grid).isSome then s else s.refreshQueue p k

/-- A queue is served as found: its region is exhausted, its head is discarded or held or begins to reserve, or a block or group
is placed on the given tiles, if they are a place for it. -/
def State.serveQueue (s : State) (p k : Nat) (q : Queue) (x : Serve) (ts : List Nat) : State :=
  match q.recs.head? with
  | none => s
  | some rc =>
    let e := s.effNow q rc
    let s := match x with | .restore | .pass | .stop => s | _ => s.dispatchRead p k rc
    match s.part p, x with
    | some P, .discard => s.discardHead p k P rc
    | some _, .hold => s.mapQueue p k fun q => { q with st := .held }
    | some _, .reserve => { s.mapQueue p k (fun q => { q with reserve := some s.stamp }) with stamp := s.stamp + 1 }
    | some P, .place _ =>
      match (P.places rc.r.cgsize).find? fun x => sameTiles x ts with
      | some y => if s.placeFits P rc (s.recWorld rc e) (bindingOn (s.reserves p P) rc.grid) y then s.placeNext p k P q rc e y else s
      | none => s
    | _, _ => s

/-- PLACE_BLOCK (R76): the lead distributor serves the first queue it can; `ts` names the tiles, which are not architected. -/
def execPlaceBlock (p : Nat) (ts : List Nat) (s : State) : Out1 :=
  match s.nextServe p with
  | none => .next (s.readNew p)
  | some (k, q, x) => .next ((s.readNew p).serveQueue p k q x ts)

/-! ### SHEAF_RESTORE (R97) -/

/-- Whether it is a sheaf's turn (R73, R216): what a fenced tile's image waits for comes first; the rest of a group that is being
restored goes on; else the first queue served is one of its regions', or it holds no block of a region. -/
def State.restoreTurn (s : State) (p : Nat) (P : Part) (slot : Nat) (h : Sheaf) : Bool :=
  let urgent := s.urgentSlots P
  if !urgent.isEmpty then urgent.contains slot
  else
    (P.boundSlots slot).any (fun x => x != slot && (match kget P.sheaves x with | some o => o.restoring | none => false)) ||
    (s.queuesOf h).isEmpty ||
    (match s.nextServe p with | some (k, _, .restore) => (s.queuesOf h).contains k | _ => false)

/-- SHEAF_RESTORE (R97): a sheaf is assigned to an empty tile and checked. Code 1 leaves it in its slot; the other refusals
end its blocks, and every block of its cooperative grids. -/
def execSheafRestore (p slot t : Nat) (s : State) : Out1 :=
  match s.part p with
  | none => .next s
  | some P =>
    match kget P.sheaves slot with
    | none => .next s
    | some h =>
      if !s.restoreFits p P slot h t || !s.restoreTurn p P slot h then .next s
      else
        match State.restoreCode p h t with
        | none => .next ((s.setPart p { P with sheaves := kset P.sheaves slot { h with restoring := true } }).loading slot t)
        | some code =>
          let s := s.setPart p (P.refuse slot code)
          if code = 1 then .next s
          else
            let coops := (h.image.blocks.filter fun (_, B) => B.proxy.isNone && B.rcd.coop).map fun (_, B) => B.grid
            .next (coops.foldl (fun s g => s.failGrid g) (s.discardSheaf p slot))

/-! ### SCRUB_COMPLETE (R51) -/

/-- The block of a context begins (R76): its tile's L1 and instruction cache are invalidated (R125, R221). -/
def State.beginAt (s : State) (t c grid : Nat) : State :=
  match kget (s.tile t).blocks c with
  | some B =>
    if B.grid = grid then
      let s := (s.l1Clear t).setBlock t c { B with begun := true }
      s.setTile t { s.tile t with icache := [] }
    else s
  | none => s

/-- A block whose group waits for no scrub begins (R76), and its group with it. -/
def State.beginBlocks (s : State) (t : Nat) : State :=
  (s.tile t).blocks.foldl (fun s (c, B) =>
    if B.begun || B.peers.any (fun p => (s.tile p.1).scrub) then s
    else B.peers.foldl (fun s p => if p = (t, c) then s else s.beginAt p.1 p.2 B.grid) (s.beginAt t c B.grid)) s

/-- SCRUB_COMPLETE (R51): the tile's stores are zero and its caches empty; the launch held for it begins. On a frozen tile the
scrub stands still (R89), and goes on where the image is restored. -/
def execScrubComplete (t : Nat) (s : State) : Out1 :=
  let T := s.tile t
  if T.scrub && (T.mode == .run || T.mode == .vacant) then
    let s := s.l1Clear t
    let T := s.tile t
    let T := { T with scrub := false, scrubbed := true, acc := [], accPoison := [], active := [], shadow := [], icache := [], tlb := [],
                      l1 := [], ranks := [] }
    .next ((s.setTile t T).beginBlocks t)
  else .next s

/-! ### Ageing (R72) -/

/-- QUEUE_AGE_TIMER (R72): the timer of a waiting queue has reached the effective AGE. -/
def execQueueAgeTimer (p k : Nat) (s : State) : Out1 :=
  match s.part p with
  | none => .next s
  | some P =>
    match kget P.queues k with
    | none => .next s
    | some q =>
      let age := match q.eff with | some e => e.age | none => 0
      if q.st = .waiting ∧ q.recs ≠ [] ∧ age ≠ 0 ∧ q.base < 7 ∧ q.level < 6 ∧ q.since + age ≤ s.leadUsec P then
        .next (s.setPart p { P with queues := kset P.queues k { q with level := q.level + 1, since := q.since + age } })
      else .next s

/-! ### Pre-emption (R79 to R81) -/

/-- The blocks of a tile with the queues of their regions. -/
def State.blockQueues (s : State) (P : Part) (t : Nat) : List (Block × Option Queue) :=
  (s.tile t).blocks.map fun (_, B) => (B, (kget s.grids B.grid).bind fun G => kget P.queues G.queue)

/-- The level of the highest waiting queue (R80). -/
def State.topLevel (s : State) (P : Part) : Option Nat :=
  P.queues.foldl (fun m (k, q) => if s.waits P k q then some (match m with | some n => max n (s.levelOf P k q) | none => s.levelOf P k q) else m) none

/-- Tiles that a waiting queue demands (R80). -/
def State.demandOf (s : State) (P : Part) (k : Nat) (q : Queue) : Nat :=
  s.frozenOf P k +
  match q.recs.head? with
  | none => 0
  | some rc =>
    let left := rc.r.grid - (match kget s.grids rc.grid with | some G => G.placed | none => 0)
    let c := rc.r.cgsize
    let cap := max 1 rc.r.capacity
    c * ((left / c + cap - 1) / cap)

/-- The empty tiles that a reservation takes (R77, R80): as many of them, in order, as it needs beyond the room on others. -/
def State.reservedTiles (s : State) (P : Part) (v : Reserve) : List Nat :=
  let room := fun (ts : List Nat) => v.r.cgsize * (match ts.map fun t => s.roomCount P t v.r v.vf v.world with | [] => 0 | x :: xs => xs.foldl min x)
  let empty := fun (ts : List Nat) => ts.all fun t => s.emptyTile P t
  let ps := P.places v.r.cgsize
  ((ps.filter (fun ts => !empty ts) ++ ps.filter empty).foldl (fun (acc : Nat × List Nat) ts =>
    if acc.1 = 0 ∨ room ts = 0 then acc else (acc.1 - room ts, acc.2 ++ ts)) (v.need, [])).2

/-- The tiles of a partition that are empty and not reserved (R77, R80). -/
def State.emptyTiles (s : State) (p : Nat) (P : Part) : List Nat :=
  let taken := (s.reserves p P).flatMap fun v => s.reservedTiles P v
  P.tiles.filter fun t => s.emptyTile P t && !taken.contains t

/-- The tiles of a partition that are being frozen and will be empty: they meet demand already (R80). -/
def State.emptying (s : State) (P : Part) : Nat :=
  (P.tiles.filter fun t => !s.tfence.contains t && (match (s.tile t).mode with | .drain .plain _ | .save => true | _ => false)).length

/-- The demand of the waiting queues of a higher level than n (R80). -/
def State.demand (s : State) (p : Nat) (P : Part) (n : Nat) : Nat :=
  (P.queues.foldl (fun m (k, q) => if s.waits P k q && decide (n < s.levelOf P k q) then m + s.demandOf P k q else m) 0) - (s.emptyTiles p P).length - s.emptying P

/-- The highest base priority of a tile's blocks. -/
def Tile.topBase (T : Tile) : Nat := T.blocks.foldl (fun n (_, B) => max n B.prio) 0

/-- Whether a tile may be frozen for waiting queues (R80, R81): it runs, its slot is free, and each of its blocks is of an
exhausted region or, at a time-slice boundary, of a base below the highest waiting level. -/
def State.eligible (s : State) (P : Part) (boundary : Bool) (t : Nat) : Bool :=
  let T := s.tile t
  T.mode == .run && !T.blocks.isEmpty && s.slotFree t &&
  (s.blockQueues P t).all fun (B, q) =>
    (match q with | some q => q.st == .exhausted | none => false) ||
    (boundary && (match s.topLevel P with | some n => decide (B.prio < n) | none => false))

/-- The spread skeins with a stage gang on a tile that a reel could still gather (R81). -/
def State.spreadHere (s : State) (t : Nat) : List (Nat × Nat × Skein) :=
  (s.skeinsAt t).filter fun x => !x.2.2.folded && !(x.2.2.stagesOn t).isEmpty

/-- Freezes the tiles that stand together with tile t; a tile with a gang of a spread skein is first offered for reeling,
and is frozen only where no reel can begin (R81). The answer counts the tiles frozen. -/
def State.freezeTogether (s : State) (ts : List Nat) : State × Nat :=
  let reels := (ts.flatMap fun t => s.spreadHere t).filter fun x => s.reelCode x.2.2 == 0
  let going := ts.any fun t => (s.spreadHere t).any fun x => x.2.2.sw != .none
  if going then (s, 0)
  else if reels.isEmpty then (ts.foldl (fun s t => s.startFreeze t .plain) s, ts.length)
  else (reels.foldl (fun s x => s.reelRequest x.1 x.2.1 true false) s, 0)

/-- Inserts a tile by the highest base of its blocks, then its number. -/
def insTile (b : Nat → Nat) (t : Nat) : List Nat → List Nat
  | [] => [t]
  | u :: l => if b t < b u ∨ (b t = b u ∧ t < u) then t :: u :: l else u :: insTile b t l

/-- The eligible tiles in the order in which they are taken (R80). -/
def State.eligibleTiles (s : State) (P : Part) (boundary : Bool) : List Nat :=
  (P.tiles.filter fun t => s.eligible P boundary t).foldl (fun l t => insTile (fun x => (s.tile x).topBase) t l) []

/-- Freezes eligible tiles, no more than the demand of the queues of a level above each tile's blocks (R80). -/
def State.freezeEligible (s : State) (p : Nat) (P : Part) (boundary : Bool) : State :=
  let need := fun t => s.demand p P (s.tile t).topBase
  let all := s.eligibleTiles P boundary
  (all.foldl (fun (acc : State × Nat) t =>
    let (s, n) := acc
    -- what this request has frozen is counted by n
    if n < need t ∧ (s.tile t).mode = .run then
      let ts := s.boundTiles P t
      if n + ts.length ≤ need t ∧ ts.all fun x => all.contains x then
        let (s, m) := s.freezeTogether ts
        (s, n + m)
      else acc
    else acc) (s, 0)).1

/-- Whether tiles of exhausted regions are to be frozen at once (R80). -/
def State.exhaustedDue (s : State) (p : Nat) (P : Part) : Bool :=
  (s.eligibleTiles P false).any fun t =>
    decide ((s.boundTiles P t).length ≤ s.demand p P (s.tile t).topBase) && (s.boundTiles P t).all (fun x => s.eligible P false x) &&
    !(s.spreadHere t).any fun x => x.2.2.sw != .none

/-- TIME_SLICE_BOUNDARY (R79): a written PSCHED takes effect, the regions are read, and eligible tiles are frozen. -/
def execTimeSliceBoundary (p : Nat) (s : State) : Out1 :=
  match s.part p with
  | none => .next s
  | some P =>
    if s.leadUsec P < P.nextSlice then .next s
    else
      let psched := P.pschedNext.getD P.psched
      let P := { P with psched := psched, pschedNext := none, nextSlice := P.nextSlice + max 100 (bits psched.toNat 31 0) }
      let s := (kkeys P.queues).foldl (fun s k => s.refreshQueue p k) (s.setPart p P)
      match s.part p with
      | some P => .next (s.freezeEligible p P true)
      | none => .next s

/-! ### USED (R66) -/

/-- The slice-microseconds held for a region are added to USED of every block on its path (R66). -/
def State.addUsed (s : State) (die : Nat) (q : Queue) : State :=
  match q.eff with
  | none => s
  | some e => e.path.foldl (fun s x =>
      let pa := x.2 % 2 ^ 42
      if x.2 / 2 ^ 42 = s.node then
        ((s.noteWrite die (homeOf pa) (s.die die).vec).atomicAt (pa + 24) 0 64 (BitVec.ofNat 64 q.used) 0).1
      else s.distributorSend die q.vf e.world (x.2 + 24) (.atomic (pa + 24) 0 64 (BitVec.ofNat 64 q.used) 0)) s

/-- Whether the additions of a queue can be made now. -/
def State.usedOpen (s : State) (die : Nat) (q : Queue) : Bool :=
  match q.eff with
  | none => true
  | some e => e.path.all fun x => s.deviceOpen die x.2

/-- USED_UPDATE (R66): what the partition of a tile holds is added. -/
def execUsedUpdate (t : Nat) (s : State) : Out1 :=
  match s.partOfTile t, (s.partOfTile t).bind s.part with
  | some p, some P =>
    .next (P.queues.foldl (fun s (k, q) =>
      if q.used = 0 ∨ ¬ s.usedOpen P.leadDie q then s
      else (s.addUsed P.leadDie q).mapQueue p k fun q => { q with used := 0 }) s)
  | _, _ => .next s

/-! ### GRID_COMPLETION (R67, R69) -/

/-- The lead distributor's die joins what the dies of the partition have seen: the completion releases every write of the
grid (R67). -/
def State.gatherVec (s : State) (P : Part) : State :=
  (List.range 4).foldl (fun s d =>
    if (List.range 16).any fun f => P.fields.getLsbD f && f / 4 == d then s.observe P.leadDie (s.die d).vec else s) s

/-- The record a grid's edge appends, as the queue of its region would hold it. -/
def consumerRec (g : Nat) (G : Grid) (r : LRecord) : Rec :=
  { grid := g, r := r, origin := .edge G.rcd.vf G.rcd.r.edge, vf := G.rcd.vf, secure := G.world, sameWorld := none, cap := 7, stamp := 0,
    vec := zeroVec }

/-- The consumer record of a grid's edge, at EDGE + 0x40 under that address's own translation, with the check of R57 it fails:
check 1 holds for every copy; code 2 stands for an edge that cannot be read (R68, R69). -/
def State.consumer (s : State) (g : Nat) (G : Grid) (P : Part) : Option (LRecord × Option Nat) :=
  if G.rcd.r.edge = 0 then none
  else
    match s.devicePlace G.rcd.vf (G.rcd.r.edge + 64) with
    | none => some (⟨0, 0, 0, 0, 0, 0, 0, 0⟩, some 2)
    | some fa =>
      let r := LRecord.ofBytes (s.placeBytes fa 64)
      match r.submitCheck P with
      | some c => some (r, some c)
      | none => some (r, s.dispatchCode (consumerRec g G r))

/-- GRID_COMPLETION (R67, R69): the consumer is copied and checked, the producer's pair is written, and the consumer is
appended, or its failure is reported and the edge slot returns. -/
def execGridCompletion (g : Nat) (s : State) : Out1 :=
  match kget s.grids g with
  | none => .next s
  | some G =>
    match s.part G.part with
    | none => .next s
    | some P =>
      let die := P.leadDie
      let vf := G.rcd.vf
      let con := s.consumer g G P
      let failed := match con with | some (_, some _) => true | _ => false
      let named := match con with | some (r, _) => s.complNamed vf r.compl | none => false
      if !G.over || !s.complOpen die vf G.rcd.r ||
          (match con with | some (r, some _) => !s.complOpen die vf r | _ => false) then .next s
      else
        let s := s.gatherVec P
        let flags := (if G.unrec then 1 else 0) + (if failed && !named then 2 else 0)
        let s := s.complete die vf G.world g G.rcd.r flags
        let s := { s with grids := kdel s.grids g }
        match con with
        | none => .next s
        | some (r, none) =>
          .next (s.submit G.part vf r (fun _ => .edge vf G.rcd.r.edge) G.world none 7 (s.die die).vec).1
        | some (r, some _) =>
          let s := s.complete die vf G.world g r 1
          .next (s.returnEdge vf G.rcd.r.edge)

end Sys2Proof.Machine
end

