-- ==== Sys2Proof/Machine/SkeinRun.lean ====
section
/-!
DEFINITION. Skein events: rows and notices on their way, stage gangs being placed, and the copies of reel, unreel and export
(11_skeins.md R178, R179, R183 to R190).
-/
namespace Sys2Proof.Machine

/-! ### Rows and credits (R179, R92) -/

/-- Whether the endpoint of a stage takes a row that is on its way: the stage is not held, or its NI drains (R92). -/
def State.takesRows (s : State) (st : Stage) : Bool :=
  s.stageOpen st ||
  match st.place with
  | .gang t g => (match (s.tile t).mode with | .drain _ _ => true | _ => false) && (kget (s.tile t).gangs g).isSome
  | _ => false

/-- CHANNEL_ITEM_ARRIVAL (R179): a row reaches the consuming endpoint of a link; for a stage that has exited it is dropped. -/
def execChannelItemArrival (p k n : Nat) (s : State) : Out1 :=
  match s.skein p k with
  | none => .next s
  | some K =>
    match K.links[n]?, K.stages[n + 1]? with
    | some l, some st =>
      match l.flight with
      | [] => .next s
      | x :: rest =>
        if st.gone then .next (s.setSkein p k (K.setLink n { l with flight := rest }))
        else if l.made && s.takesRows st then .next (s.setSkein p k (K.setLink n { l with flight := rest, rows := l.rows ++ [x] }))
        else .next s
    | _, _ => .next s

/-- FREED_SLOT_NOTICE_ARRIVAL (R179): a notice reaches the producer of a link, whose credits grow. -/
def execFreedSlotNoticeArrival (p k n : Nat) (s : State) : Out1 :=
  match s.skein p k with
  | none => .next s
  | some K =>
    match K.links[n]?, K.stages[n]? with
    | some l, some st =>
      if l.notices = 0 then .next s
      else if st.gone then .next (s.setSkein p k (K.setLink n { l with notices := l.notices - 1 }))
      else if s.stageOpen st then
        .next (s.setSkein p k (K.setLink n { l with notices := l.notices - 1, credits := l.credits + 1 }))
      else .next s
    | _, _ => .next s

/-! ### Requests of the distributor (R187) -/

/-- DISTRIBUTOR_REEL_REQUEST. -/
def execDistributorReelRequest (p k : Nat) (s : State) : Out1 := .next (s.reelRequest p k true false)

/-- DISTRIBUTOR_UNREEL_REQUEST. -/
def execDistributorUnreelRequest (p k : Nat) (s : State) : Out1 := .next (s.unreelRequest p k)

/-- SKEIN_SWITCH_TIMEOUT (R184). -/
def execSkeinSwitchTimeout (p k : Nat) (s : State) : Out1 := .next (s.timeoutSkein p k)

/-! ### Stage gangs (R174, R175, R188) -/

/-- Whether a tile has room for a stage gang (R75, R188): slices, lane registers and a block context. -/
def State.stageRoom (s : State) (P : Part) (K : Skein) (st : Stage) (B : Block) (t : Nat) : Bool :=
  let T := s.tile t
  s.takes P t B.vf B.world && decide (s.slicesTaken t + T.readyClaims + K.slices ≤ 128) &&
  decide (s.regsTaken t + 32 * K.slices * st.win ≤ 65536) && decide (T.blocks.length < 16)

/-- The context a stage gang takes: it belongs to the owning block, without an allotment (R188). -/
def stageBlock (B : Block) (uid slices win : Nat) (begun : Bool) : Block :=
  { B with uid := uid, gangs := 1, slices := slices, vregs := 8 * win, peers := [], pos := 0, spad := [], spadFill := .zero,
           spadPoison := [], pend := [], reports := [], skein := none, lastSkein := none, begun := begun, proxy := some B.uid }

/-- Whether a stage gang may go to a tile: there is room, and what cooperative grids reserve stays whole (R77, R188). -/
def State.stageFits (s : State) (p : Nat) (P : Part) (K : Skein) (st : Stage) (B : Block) (t : Nat) : Bool :=
  let T := s.tile t
  let s' := s.setTile t { T with
    mode := .run, vf := B.vf, world := B.world
    blocks := kset T.blocks ((kfree T.blocks 16).getD 0) (stageBlock B s.nextId K.slices st.win true) }
  let res := s.reserves p P
  s.stageRoom P K st B t && (res.isEmpty || s.keeps s' P res)

/-- STAGE_GANG_PLACE (R188): a stage that is not yet placed begins, or continues, on a tile with room; its endpoint
advertises the depth of its link (R179). -/
def execStageGangPlace (p k n t : Nat) (s : State) : Out1 :=
  match s.part p, s.skein p k with
  | some P, some K =>
    match K.stages[n]?, s.findBlock K.uid with
    | some st, some (t0, _, B) =>
      if st.place = .unplaced ∧ K.sw = .none ∧ ¬ K.folded ∧ (s.tile t0).mode = .run ∧ s.stageFits p P K st B t then
        let s := (if s.scrubDue t B.vf B.world then s else s.l1Clear t).observe (dieOf t) (s.carried t0)
        let due := s.scrubDue t B.vf B.world
        let T := s.tile t
        let ctx := (kfree T.blocks 16).getD 0
        let g := s.nextId
        let G : Gang := { ctx := ctx, kind := .stage p k n, ix := 32 + n, feeder := false, detached := false, total := K.slices,
                          retry := .never, bud := s.budOf B.grid, rebin := none }
        let U := Sub.start g st.pc (T.placeSlices st.slices) s.stamp
        let T := { T with mode := .run, vf := B.vf, world := B.world, scrub := due,
                          blocks := kset T.blocks ctx (stageBlock B (g + 2) K.slices st.win (!due)),
                          gangs := kset T.gangs g G, subs := kset T.subs (g + 1) U }
        let K := K.setStage n { st with place := .gang t g, slices := [], atKnot := false }
        let K := if n = 0 then K else
          match K.links[n - 1]? with
          | some l => if l.made then K else K.setLink (n - 1) { l with credits := l.depth, made := true }
          | none => K
        .next ({ s.setTile t T with nextId := g + 3, stamp := s.stamp + 1 }.setSkein p k K)
      else .next s
    | _, _ => .next s
  | _, _ => .next s

/-! ### Reel (R184, R185) -/

/-- SKEIN_GATHER_DONE (R184): every stage sits at a knot or has exited; the copy begins. -/
def execSkeinGatherDone (p k : Nat) (s : State) : Out1 :=
  match s.skein p k with
  | none => .next s
  | some K =>
    match K.sw with
    | .gathering _ x =>
      if K.stages.all (fun st => st.atKnot || st.gone) ∧ s.stateOpen K then .next (s.updateSkein p k { K with sw := .copying x })
      else .next s
    | _ => .next s

/-- The slices of a stage before a reel's copy: of its gang, or as saved where it is not placed. -/
def State.stageSlices (s : State) (st : Stage) : KMap Slice :=
  match s.stageSub st with
  | some (_, _, U) => U.slices
  | none => st.slices

/-- A switch has ended well: LAST 1, SWITCHES + 1, STATE written; what it deferred takes effect (R184). -/
def State.switchOver (s : State) (p k : Nat) (defer : List (Nat × FreezeKind)) : State :=
  match s.skein p k with
  | none => s
  | some K =>
    let K := { K with sw := .none, last := 1, switches := K.switches + 1, freezeDefer := [] }
    ((s.updateSkein p k K).writeSwitches K).deferredFreezes defer

/-- The rows a link holds for a reel, and whether the end-of-stream row is among them (R185). -/
def SkLink.held (l : SkLink) : List (List W32) × Bool :=
  let all := if l.made then l.rows else l.rows ++ l.flight
  (all.filterMap id, all.contains none)

/-- The copy of a reel (R185): rows into rings, live registers and saved state into the folded gang; stage gangs and
endpoints go. -/
def State.reelCopy (s : State) (p k : Nat) (K : Skein) : State :=
  let sts := K.stages.zipIdx.map fun (st, n) =>
    if st.gone then st
    else { st with place := .folded, atKnot := false
                   slices := switchSlices st 0 (windowBase K.stages n) (s.free + 256 * n) (s.stageSlices st) }
  let s := { s with free := s.free + 2048 }
  let s := K.stages.foldl (fun s st => match st.place with | .gang t g => s.dropStageGang p t g | _ => s) s
  let s := s.mapBlock K.uid fun B => K.links.zipIdx.foldl (fun B x =>
    B.fillRing (K.ringAt x.2) (rowBytes K.slices x.1.item) x.1.held.1 x.1.held.2) B
  let links := K.links.map fun l => { l with rows := [], flight := [], waiting := [], credits := 0, notices := 0, made := false }
  let run := ((List.range sts.length).find? fun n => match sts[n]? with | some st => !st.gone | none => false).getD 0
  s.makeFolded p k { K with stages := sts, links := links, sw := .none } run

/-- SKEIN_COPY_DONE (R184, R190): the folded gang resumes; with an export asked for, that follows. A restart from a save
area has its folded gang already. -/
def execSkeinCopyDone (p k : Nat) (s : State) : Out1 :=
  match s.skein p k with
  | none => .next s
  | some K =>
    match K.sw with
    | .copying x =>
      if !s.stateOpen K || (s.tile K.tile).mode != .run then .next s
      else if K.foldGang.isSome then
        let K' := { K with stages := K.stages.map fun st => { st with atKnot := false } }
        .next ((s.setSkein p k K').switchOver p k K.freezeDefer)
      else if K.links.all fun l => !l.made || (l.flight.isEmpty && l.waiting.isEmpty) then
        let s := (s.reelCopy p k K).switchOver p k K.freezeDefer
        .next (if x then s.exportRequest p k else s)
      else .next s
    | _ => .next s

/-! ### Unreel (R186) -/

/-- The stages of a folded skein with the running one's slices saved, and its gang gone from the tile. -/
def State.unfold (s : State) (K : Skein) : State × List Stage :=
  match K.foldGang with
  | none => (s, K.stages)
  | some g =>
    let T := s.tile K.tile
    let now := match (T.subsOf g).head? with | some (_, U) => U.slices | none => []
    (s.setTile K.tile (T.dropGang g), K.stages.zipIdx.map fun (st, n) => if n = K.run then { st with slices := now } else st)

/-- A link as an unreel creates its endpoint: the ring's rows, and as many credits as it has free slots (R186). -/
def SkLink.ofRing (l : SkLink) (B : Block) (slices off : Nat) : SkLink :=
  let rows := B.ringRows off (rowBytes slices l.item) l.depth
  let eos := (B.ring off).2.2 != 0
  { l with rows := rows.map some ++ (if eos then [none] else []), flight := [], credits := l.depth - rows.length, notices := 0,
           made := true }

/-- SKEIN_UNREEL_AT_KNOT (R186): every live stage is to be placed again with its live registers and saved state. -/
def execSkeinUnreelAtKnot (p k : Nat) (s : State) : Out1 :=
  match s.skein p k with
  | none => .next s
  | some K =>
    if K.sw ≠ .unreelCopy ∨ ¬ s.stateOpen K then .next s
    else
      match s.findBlock K.uid with
      | none => .next s
      | some (_, _, B) =>
        let (s, sts) := s.unfold K
        let sts := sts.zipIdx.map fun (st, n) =>
          if st.gone then st
          else { st with place := .unplaced, atKnot := false
                         slices := switchSlices st (windowBase K.stages n) 0 (s.free + 256 * n) st.slices }
        let s := { s with free := s.free + 2048 }
        let links := K.links.zipIdx.map fun (l, n) => l.ofRing B K.slices (K.ringAt n)
        let K' := { K with stages := sts, links := links, folded := false, foldGang := none, run := 0 }
        .next ((s.setSkein p k K').switchOver p k K.freezeDefer)

/-! ### Export (R190) -/

/-- A slice record of a save area: mask, stack, p1 to p7 of each lane. -/
def sliceRecord (S : Slice) : List Byte :=
  let st := S.stack.zipIdx.foldl (fun n x => n + x.1.toNat * 2 ^ (4 * x.2)) 0
  natLe 1 S.mask.toNat ++ natLe 1 S.stack.length ++ natLe 8 st ++
    ((List.range 4).map fun j => match S.lanes[j]? with | some L => (L.p >>> 1) &&& (0x7F : Byte) | none => (0 : Byte)) ++ [0, 0]

/-- A stage record of a save area: saved address, flags, eight slice records. -/
def stageRecord (st : Stage) : List Byte :=
  natLe 8 st.pc.toNat ++ natLe 8 ((if st.gone then 1 else 0) + 2 * (st.stop % 4)) ++
    (List.range 8).flatMap fun i =>
      match kget st.slices i with
      | some S => if st.gone then List.replicate 16 0 else sliceRecord S
      | none => List.replicate 16 0

/-- Register q of the windows in order, 32 lanes: lanes the gang has not are 0; outside the live sets it is free. -/
def regRecord (sts : List Stage) (slices q seed : Nat) : List Byte :=
  let own := (List.range sts.length).find? fun n =>
    decide (windowBase sts n ≤ q) && (match sts[n]? with | some st => decide (q < windowBase sts n + 8 * st.win) | none => false)
  (List.range 32).flatMap fun j =>
    if 4 * slices ≤ j then natLe 4 0
    else
      let free : W32 := (Config.freeWord seed (32 * q + j)).setWidth 32
      let x : W32 := match own.bind fun n => (sts[n]?).map fun st => (n, st) with
        | some (n, st) =>
          if st.gone || !st.live.getLsbD ((q - windowBase sts n) / 8) then free
          else match (kget st.slices (j / 4)).bind fun S => S.lanes[j % 4]? with
            | some L => L.reg q
            | none => free
        | none => free
      natLe 4 x.toNat

/-- The save area of a skein (R190). -/
def saveArea (K : Skein) (sts : List Stage) (B : Block) (seed : Nat) : List Byte :=
  let ringEnd := (List.range K.links.length).foldl (fun n i => match K.links[i]? with | some l => n + ringBytes K.slices l.depth l.item | none => n) 0
  natLe 4 0x534B5356 ++ natLe 1 K.run ++ List.replicate 59 (0 : Byte) ++
    ((List.range 8).flatMap fun n => match sts[n]? with | some st => stageRecord st | none => List.replicate 144 0) ++
    ((List.range 128).flatMap fun q => regRecord sts K.slices q seed) ++
    B.spadBytes K.ringBase ringEnd

/-- SKEIN_EXPORT_AT_KNOT (R190): the save area and the rings are written, then STATE; the folded gang and the skein end. -/
def execSkeinExportAtKnot (p k : Nat) (s : State) : Out1 :=
  match s.skein p k with
  | none => .next s
  | some K =>
    if K.sw ≠ .exportCopy ∨ ¬ s.stateOpen K then .next s
    else
      match s.findBlock K.uid with
      | none => .next s
      | some (_, _, B) =>
        let (s, sts) := s.unfold K
        let bytes := saveArea K sts B s.free
        let s := { s with free := s.free + 1 }
        let s := s.devPut K.tile K.vf (s.worldOf K.tile) (bytes.length / 65536 + 2) K.save bytes
        let K' := { K with last := 1, foldGang := none }
        .next (((s.setSkein p k K').endSkein p k K' 6).deferredFreezes K.freezeDefer)

end Sys2Proof.Machine
end

