-- ==== Sys2Proof/Machine/Agenda.lean ====
section
/-!
DEFINITION. What the machine does of itself: the events of the opcode table that are due, and the next one (log 1).
-/
namespace Sys2Proof.Machine

/-- An event of the opcode table with its operands, as what it does to a state. -/
abbrev Due := State → Out1

/-! ### Answers and messages inside the package (R19, R145, R146) -/

/-- Answers on their way to a tile. -/
def State.dueAnswers (s : State) : List Due :=
  s.resps.zipIdx.map fun (r, k) => if r.strand then execStrandResponse k else execReadResponseArrival (.inside k)

/-- The next packet of every path between dies. -/
def State.duePackets (s : State) : List Due := s.wire.map fun m => execDiePacketArrival m.src m.dst

/-- The messages at a home that it may take. -/
def State.dueAtHomes (s : State) : List Due :=
  s.dies.flatMap fun (h, D) => (List.range D.inbox.length).filterMap fun k =>
    match D.takeable h k with
    | none => none
    | some m =>
      match m.body with
      | .write _ _ | .signal _ _ _ | .atomic _ _ _ _ _ => some (execRemoteWriteApply h k)
      | .read _ _ _ => some (execRemoteReadPerform h k)
      | .strand _ => some (execStrandOpApply h k)
      | .announce _ => none

/-- Whether home h does not yet know die d's own entry and nothing on its way will tell it. -/
def State.untold (s : State) (d h : Nat) : Bool :=
  h != d && ent (s.die h).known d != ent (s.die d).vec d && !s.cutOffDies d h && !s.wire.any fun m => m.src == d && m.dst == h

/-- The dies that have an entry to announce. -/
def State.dueAnnounces (s : State) : List Due :=
  s.dies.filterMap fun (d, _) => if s.dies.any fun (h, _) => s.untold d h then some (execVectorAnnounce d) else none

/-- The dies from whose queue a message may leave. -/
def State.dueLeaving (s : State) : List Due := s.dies.filterMap fun (d, D) => if D.outq.isEmpty then none else some (leaveNext d)

/-- The links that have had eight replays from one sequence (R19, R24). -/
def State.dueRetrains (s : State) : List Due :=
  (s.ports.filterMap fun (p, P) => if P.alive && decide (8 ≤ P.replayRun) then some (execPortRetrain p) else none) ++
  s.boundaries.filterMap fun (e, P) => if P.alive && decide (8 ≤ P.replayRun) then some (execBoundaryRetrain (e % 4)) else none

/-! ### The fabric (R28 to R38) -/

/-- The event that takes an arrived packet. -/
def arrivalEvent (p : Nat) (pk : Packet) : Due :=
  if pk.op = opRead then execPacketRead p pk
  else if pk.op = opAtomic then execPacketAtomic p pk
  else if pk.op = opSignal then execPacketSignal p pk
  else if pk.op = opReduce then execReduceContribution pk
  else if pk.vc = 1 ∧ pk.op = opReadData then execReadResponseArrival (.packet pk)
  else if pk.vc = 1 ∧ pk.op = opAck then execAckResponse pk
  else if pk.vc = 1 ∧ pk.op = opAtomRes then execAtomresResponse pk
  else if pk.vc = 1 ∧ pk.op = opError then execErrorResponse pk
  else execPacketWrite p pk

/-- The packets that wait at their NIs move on (R28, R29). -/
def pumpNext (s : State) : Out1 := .next s.pump

/-- Packets, signals and reductions that can move on. -/
def State.dueFabric (s : State) : List Due :=
  (s.arrivals.map fun a => arrivalEvent a.1 a.2) ++ ((List.range s.signals.length).map fun k => execSignalApply k) ++
  ((s.outbox.filter fun pk => pk.op == opReduce && pk.snode.toNat == s.node).map fun pk => execReduceContribution pk) ++
  ((List.range s.locals.length).map fun k => execLocalReduceCombine k) ++
  (if s.outs.any fun o => o.port.isNone then [pumpNext] else []) ++
  s.ports.filterMap fun (p, P) => if P.quiesce && P.state == 2 && P.carried.isEmpty then some (execPortQuiesceDone p) else none

/-! ### Tiles (R84 to R88, R101, R131, R132, R206, R306) -/

/-- The log entries of a sub-gang with nothing on its way and something performed. -/
def dueEntries (t u : Nat) (U : Sub) : List Due :=
  U.slices.flatMap fun (k, S) => (S.log.filter fun e => !e.waiting && e.pending).map fun e => execLogEntryComplete t u k e.slot

/-- The runs of a tile that wait for a monitor or a delay. -/
def dueParked (s : State) (t : Nat) (T : Tile) : List Due :=
  T.conts.filterMap fun (_, c) =>
    match c.place with
    | .waiting .monitor w => if s.monitorMet t c.run then some (if w then execMonitorWatchFire t c.run else execMonitorPoll t c.run) else none
    | .waiting (.delay 0) _ => some (execSuspendDelayExpiry t c.run)
    | _ => none

/-- What is due on a running tile. -/
def State.dueRunning (s : State) (t : Nat) (T : Tile) : List Due :=
  (T.subs.flatMap fun (u, U) =>
    (if T.retryLoss u then [execTileStateError t U.gang 6] else []) ++ dueEntries t u U ++ (if s.logTrapDue t u then [execTrapEntry t u] else [])) ++
  (T.copyQ.map fun c => execEngineCommandComplete t c.id) ++
  (match T.arrayQ with | c :: _ => [execLinkedStart t c.id, execEngineCommandComplete t c.id] | [] => []) ++
  (T.bins.filterMap fun (b, x) => match x.st with | .filling d => if d ≤ s.usec t then some (execBinTimerExpiry t b) else none | .ready _ => none) ++
  (match T.firstReady with | some b => [execBinFormGang t b] | none => []) ++ dueParked s t T

/-- What is due on a tile. -/
def State.dueTile (s : State) (t : Nat) (T : Tile) : List Due :=
  (if T.scrub then [execScrubComplete t] else []) ++
  match T.mode with
  | .run => s.dueRunning t T
  | .drain _ _ | .halt true => [execDrainComplete t]
  | .save => [execSheafSaveDone t]
  | .load _ _ => [execSheafRestoreDone t]
  | _ => []

/-! ### Partitions (R66, R71 to R81, R97, R130, R171 to R190) -/

/-- What is due for a skein. -/
def State.dueSkein (s : State) (p : Nat) (P : Part) (k : Nat) (K : Skein) : List Due :=
  (if s.skeinTimedOut K then [execSkeinSwitchTimeout p k] else []) ++
  ((List.range K.links.length).flatMap fun n => [execChannelItemArrival p k n, execFreedSlotNoticeArrival p k n]) ++
  (match K.sw with
   | .gathering _ _ => [execSkeinGatherDone p k]
   | .copying _ => [execSkeinCopyDone p k]
   | .unreelCopy => [execSkeinUnreelAtKnot p k]
   | .exportCopy => [execSkeinExportAtKnot p k]
   | _ => []) ++
  K.stages.zipIdx.flatMap fun (st, n) => if st.place = .unplaced then P.tiles.map fun t => execStageGangPlace p k n t else []

/-- What the lead distributor does next: a restore or a placement of the first queue it can serve (R73), the sheaves that a
fenced tile waits for first (R216), then those that belong to a group being restored or to no region. -/
def State.dueServe (s : State) (p : Nat) (P : Part) : List Due :=
  let urgent := s.urgentSlots P
  let go := fun (l : List (Nat × Nat)) => l.map fun x => execSheafRestore p x.1 x.2
  if P.queues.isEmpty && P.sheaves.isEmpty then []
  else if !urgent.isEmpty then go (s.restores p P fun slot _ => urgent.contains slot)
  else
    go (if P.sheaves.isEmpty then [] else s.restores p P fun slot h =>
      (s.queuesOf h).isEmpty || (P.boundSlots slot).any fun x => match kget P.sheaves x with | some o => o.restoring | none => false) ++
    match s.nextServe p with
    | none => if s.readNew p = s then [] else [execPlaceBlock p []]
    | some (k, _, .restore) => go (s.queueRestores p P k)
    | some (_, _, .place ts) => [execPlaceBlock p ts]
    | some _ => [execPlaceBlock p []]

/-- The tiles of exhausted regions that are frozen at once, or the reels that come first (R80, R81). -/
def State.dueFreezes (s : State) (p : Nat) (P : Part) : List Due :=
  (s.eligibleTiles P false).flatMap fun t =>
    if decide ((s.boundTiles P t).length ≤ s.demand p P (s.tile t).topBase) && (s.boundTiles P t).all fun x => s.eligible P false x then
      let here := (s.boundTiles P t).flatMap fun x => s.spreadHere x
      if here.any fun x => x.2.2.sw != .none then []
      else
        match here.filter fun x => s.reelCode x.2.2 == 0 with
        | [] => [execFreezeRequest t .plain]
        | l => l.map fun x => execDistributorReelRequest x.1 x.2.1
    else []

/-- Whether the age timer of a queue has run out (R72). -/
def Queue.ageDue (q : Queue) (now : Nat) : Bool :=
  let age := match q.eff with | some e => e.age | none => 0
  q.st == .waiting && !q.recs.isEmpty && age != 0 && decide (q.since + age ≤ now)

/-- What is due for the queues of a partition. -/
def State.dueQueues (s : State) (p : Nat) (P : Part) : List Due :=
  let now := s.leadUsec P
  (if P.nextSlice ≤ now then [execTimeSliceBoundary p] else []) ++
  if P.queues.isEmpty then s.dueServe p P
  else
    (if P.queues.any fun (_, q) => q.used != 0 && s.usedOpen P.leadDie q then (P.tiles.take 1).map execUsedUpdate else []) ++
    (P.queues.filterMap fun (k, q) => if q.ageDue now then some (execQueueAgeTimer p k) else none) ++
    s.dueServe p P ++ s.dueFreezes p P

/-- What is due for a partition. -/
def State.duePart (s : State) (p : Nat) (P : Part) : List Due :=
  (P.skeins.flatMap fun (k, K) => s.dueSkein p P k K) ++ s.dueQueues p P ++
  (if P.edgesDue.isEmpty then [] else [returnFarEdge p]) ++ (if P.inval.isSome then [execTlbinvComplete p] else [])

/-- What is due for the package as a whole. -/
def State.dueRest (s : State) : List Due :=
  (s.grids.filterMap fun (g, G) => if G.over then some (execGridCompletion g) else none) ++
  (s.closed.map fun m => execWorldMoveComplete m.granule) ++
  (s.vfs.filterMap fun (v, V) => if V.stopScrub then some (execStopScrubDone v) else none) ++
  s.tiles.filterMap fun (t, _) => if s.binDeadlock t then some (execBinStoreDeadlock t) else none

/-! ### The next event -/

/-- Every event that may be due, in the order in which they are tried (log 1). -/
def State.due (s : State) : List Due :=
  s.dueAnswers ++ s.dueRetrains ++ s.duePackets ++ s.dueLeaving ++ s.dueAtHomes ++ s.dueAnnounces ++ s.dueFabric ++ (s.tiles.flatMap fun (t, T) => s.dueTile t T) ++
  (s.parts.flatMap fun (p, P) => s.duePart p P) ++ s.dueRest

/-- Whether an event changes anything. -/
def State.happens (s : State) (e : Due) : Bool :=
  match e s with
  | .next s' => decide (s' ≠ s)
  | _ => false

/-- The next event that is due. -/
def State.nextEvent (s : State) : Option Due := s.due.find? s.happens

end Sys2Proof.Machine
end

