-- ==== Sys2Proof/Machine/LaneCross.lean ====
section
/-!
DEFINITION. The cross-lane instructions, dual-exponent packing and random numbers (16_lane_instructions.md R273 to R283).
-/
namespace Sys2Proof.Machine

/-- a of lane k where k lies in the span, else 0 (R273). -/
def spanInt (R : Rd) (o : Opnd) (k : Nat) : W32 := if R.U.span.contains k then R.int o k else 0

/-- SHUF (R274). -/
def execShuf (d : LDst) (a b : Opnd) (s : State) : Out1 :=
  laneResult s (.shuf d a b) [.src a, .src b, .dst d 1 false] d fun R j => [spanInt R a ((R.int b j).toNat % 32)]

/-- BCAST (R274): b is read in the lowest active lane. -/
def execBcast (d : LDst) (a b : Opnd) (s : State) : Out1 :=
  laneResult s (.bcast d a b) [.src a, .src b, .dst d 1 false] d fun R j =>
    [spanInt R a ((R.int b (R.U.lowActive.getD j)).toNat % 32)]

/-- The value LPUSH leaves in lane k: that of its highest-numbered sender, else its own d (R275). -/
def pushed (R : Rd) (d : LDst) (a b : Opnd) (k : Nat) : W32 :=
  match (R.U.actives.filter fun i => (R.int b i).toNat % 32 == k).getLast? with
  | some i => R.int a i
  | none => R.v k d.r.toNat

/-- LPUSH (R275). -/
def execLpush (d : LDst) (a b : Opnd) (s : State) : Out1 :=
  laneResult s (.lpush d a b) [.src a, .src b, .dst d 1 true] d fun R j => [pushed R d a b j]

/-- A left fold of values without an identity. -/
def fold1 (f : W32 → W32 → W32) : List W32 → Option W32
  | [] => none
  | x :: xs => some (xs.foldl f x)

/-- The scan of lane j over the active lanes up to it (R276). -/
def scanAt (R : Rd) (val : Nat → W32) (f : W32 → W32 → W32) (ident : W32) (ex : Bool) (j : Nat) : W32 :=
  (fold1 f ((R.U.actives.filter fun k => if ex then decide (k < j) else decide (k ≤ j)).map val)).getD ident

/-- LSCAN (R276). -/
def execLscan (d : LDst) (a : Opnd) (ex : Bool) (op : ScanOp) (s : State) : Out1 :=
  laneResult s (.lscan d a ex op) [.src a, .dst d 1 false] d fun R j =>
    [scanAt R (fun k => R.int a k) op.apply op.ident ex j]

/-- A value as a floating-point result: a NaN becomes the canonical one (R199). -/
def canonF (x : W32) : W32 := if (fval x).isNan then fenc .nan else x

/-- FSCAN (R276). -/
def execFscan (d : LDst) (a : Opnd) (ex : Bool) (op : FScanOp) (s : State) : Out1 :=
  laneResult s (.fscan d a ex op) [.src a, .dst d 1 false] d fun R j =>
    [scanAt R (fun k => canonF (R.flt a k)) op.apply op.ident ex j]

/-- The result of LRED (R277). -/
def reduceAll (R : Rd) (a : Opnd) (op : RedOp) : W32 :=
  match op with
  | .int op => (fold1 op.apply (R.U.actives.map fun k => R.int a k)).getD op.ident
  | .flt op => (fold1 op.apply (R.U.actives.map fun k => canonF (R.flt a k))).getD op.ident
  | .ballot => R.U.actives.foldl (fun m k => if R.int a k ≠ 0 then m ||| (1#32 <<< k) else m) 0

/-- LRED (R277). -/
def execLred (d : LDst) (a : Opnd) (op : RedOp) (s : State) : Out1 :=
  laneResult s (.lred d a op) [.src a, .dst d 1 false] d fun R _ => [reduceAll R a op]

/-- VOTE (R278). -/
def execVote (pd : BitVec 3) (m : VoteMode) (px : BitVec 3) (s : State) : Out1 :=
  lanePred s (.vote pd m px) [.prd px] pd fun R _ => m.result (R.U.actives.map fun k => R.p k px)

/-- PREFPOP (R279). -/
def execPrefpop (d : LDst) (a : Opnd) (inc : Bool) (s : State) : Out1 :=
  laneResult s (.prefpop d a inc) [.wide a, .dst d 1 false] d fun R j =>
    [BitVec.ofNat 32 ((R.U.actives.filter fun k => if inc then decide (k ≤ j) else decide (k < j)).foldl
      (fun n k => n + popcount (R.wide a k)) 0)]

/-! ### Dual-exponent packing (R280 to R282) -/

/-- The share of a block image that lane j holds: four bytes, or two in half layout. -/
def imageShare (img : List Byte) (half : Bool) (j : Nat) : W32 :=
  if half then BitVec.ofNat 32 (leNat ((img.drop (2 * j)).take 2)) else BitVec.ofNat 32 (leNat ((img.drop (4 * j)).take 4))

/-- The 32 inputs of a pack: a of the active lanes of the span, +0 elsewhere (R281). -/
def packInputs (R : Rd) (a : Opnd) : List FV :=
  (List.range 32).map fun j => if R.U.actives.contains j then fval (R.flt a j) else .fin false 0 0

/-- DXPACK (R281). -/
def execDxpack (d : LDst) (a : Opnd) (half : Bool) (fmt : DxFmt) (s : State) : Out1 :=
  laneResult s (.dxpack d a half fmt) [.src a, .dst d 1 false] d fun R j =>
    [imageShare (dxImage fmt (packInputs R a)) half j]

/-- DXEXP (R281). -/
def execDxexp (d : LDst) (a : Opnd) (fmt : DxFmt) (s : State) : Out1 :=
  laneResult s (.dxexp d a fmt) [.src a, .dst d 1 false] d fun R _ => [(dxPack fmt (packInputs R a)).1.setWidth 32]

/-- The block image the lanes of the span hold (R282). -/
def gatherImage (R : Rd) (a : Opnd) (half : Bool) : List Byte :=
  (List.range 32).flatMap fun j => natLe (if half then 2 else 4) (spanInt R a j).toNat

/-- DXUNPK (R282). -/
def execDxunpk (d : LDst) (a : Opnd) (half : Bool) (fmt : DxFmt) (s : State) : Out1 :=
  laneResult s (.dxunpk d a half fmt) [.src a, .dst d 1 false] d fun R j =>
    [fenc ((dxUnpack fmt ((gatherImage R a half).take (dxBytes fmt))).getD j .nan)]

/-! ### Random numbers (R283) -/

/-- One round of RNG on its four words. -/
def rngRound (k0 k1 : W32) (x : W32 × W32 × W32 × W32) (r rotA rotB : Nat) : W32 × W32 × W32 × W32 :=
  let (x0, x1, x2, x3) := x
  let y0 := x0 + x1
  let y1 := x1.rotateLeft rotA ^^^ y0
  let y2 := x2 + x3
  let y3 := x3.rotateLeft rotB ^^^ y2
  let n := BitVec.ofNat 32 (r + 1)
  (y0 ^^^ (k0 + n * 0x9E3779B9#32), y3, y2 ^^^ (k1 + n * 0x6C8E9CF5#32), y1)

/-- The rotations of the ten rounds. -/
def rngRots : List (Nat × Nat × Nat) :=
  [(0, 7, 23), (1, 19, 3), (2, 11, 18), (3, 27, 12), (4, 5, 28), (5, 22, 8), (6, 14, 25), (7, 30, 13), (8, 9, 20),
   (9, 17, 10)]

/-- The four words of RNG for a counter and a key. -/
def rngWords (ctr key : Word) : List W32 :=
  let k0 := key.setWidth 32
  let k1 := (key >>> 32).setWidth 32
  let (x0, x1, x2, x3) := rngRots.foldl (fun x (r, a, b) => rngRound k0 k1 x r a b)
    (ctr.setWidth 32, (ctr >>> 32).setWidth 32, k0, k1 ^^^ 0xB7E15163#32)
  [x0, x1, x2, x3]

/-- RNG (R283). -/
def execRng (d : LDst) (a b : Opnd) (s : State) : Out1 :=
  laneResult s (.rng d a b) [.wide a, .uni b, .dst d 4 false] d fun R j => rngWords (R.wide a j) (R.wide b j)

end Sys2Proof.Machine
end

