-- ==== Sys2Proof/Machine/LaneFloat.lean ====
section
/-!
DEFINITION. The lane floating-point instructions (16_lane_instructions.md R265, R268 to R272).
-/
namespace Sys2Proof.Machine

/-- FADD (R268, R269). -/
def execFadd (d : LDst) (a b : Opnd) (s : State) : Out1 :=
  laneFlt2 s (.fadd d a b) d a b Sys2Proof.Machine.fadd

/-- FSUB (R268, R269). -/
def execFsub (d : LDst) (a b : Opnd) (s : State) : Out1 :=
  laneFlt2 s (.fsub d a b) d a b Sys2Proof.Machine.fsub

/-- FMUL (R268, R269). -/
def execFmul (d : LDst) (a b : Opnd) (s : State) : Out1 :=
  laneFlt2 s (.fmul d a b) d a b Sys2Proof.Machine.fmul

/-- FMIN (R268, R269). -/
def execFmin (d : LDst) (a b : Opnd) (s : State) : Out1 :=
  laneFlt2 s (.fmin d a b) d a b Sys2Proof.Machine.fmin

/-- FMAX (R268, R269). -/
def execFmax (d : LDst) (a b : Opnd) (s : State) : Out1 :=
  laneFlt2 s (.fmax d a b) d a b Sys2Proof.Machine.fmax

/-- FMA (R268). -/
def execFma (d : LDst) (a b : Opnd) (s : State) : Out1 :=
  laneResult s (.fma d a b) [.src a, .src b, .dst d 1 true] d fun R j =>
    [Sys2Proof.Machine.fma (R.flt a j) (R.flt b j) (R.v j d.r.toNat)]

/-- FSCL (R268). -/
def execFscl (d : LDst) (a b : Opnd) (s : State) : Out1 :=
  laneResult s (.fscl d a b) [.src a, .src b, .dst d 1 false] d fun R j =>
    [Sys2Proof.Machine.fscl (R.flt a j) (R.int b j)]

/-- FCMP (R265). -/
def execFcmp (pd : BitVec 3) (m : Comb) (c : FCond) (a b : Opnd) (s : State) : Out1 :=
  lanePred s (.fcmp pd m c a b) [.src a, .src b] pd fun R j =>
    m.apply (R.p j pd) (c.holds (R.flt a j) (R.flt b j))

/-- FCLASS (R265). -/
def execFclass (pd : BitVec 3) (m : Comb) (a b : Opnd) (s : State) : Out1 :=
  lanePred s (.fclass pd m a b) [.src a, .src b] pd fun R j =>
    m.apply (R.p j pd) ((R.int b j).getLsbD (Sys2Proof.Machine.fclass (R.flt a j)))

/-- FRND (R270). -/
def execFrnd (d : LDst) (a : Opnd) (rm : Rm) (s : State) : Out1 :=
  laneFlt1 s (.frnd d a rm) d a (Sys2Proof.Machine.frnd rm)

/-- CVT (R271). -/
def execCvt (d : LDst) (a : Opnd) (rm : Rm) (src dst : NTy) (s : State) : Out1 :=
  laneResult s (.cvt d a rm src dst) [.src a, .dst d 1 false] d fun R j =>
    [Sys2Proof.Machine.cvt dst src rm (if src.isFloat then R.fmt src.fmt a j else R.int a j)]

/-- RCP (R202, R268). -/
def execRcp (d : LDst) (a : Opnd) (s : State) : Out1 :=
  laneFlt1 s (.rcp d a) d a frcp

/-- RSQ (R202, R268). -/
def execRsq (d : LDst) (a : Opnd) (s : State) : Out1 :=
  laneFlt1 s (.rsq d a) d a frsq

/-- SQRT (R202, R268). -/
def execSqrt (d : LDst) (a : Opnd) (s : State) : Out1 :=
  laneFlt1 s (.sqrt d a) d a fsqrt

/-- EXP2 (R202, R268). -/
def execExp2 (d : LDst) (a : Opnd) (s : State) : Out1 :=
  laneFlt1 s (.exp2 d a) d a fexp2

/-- LOG2 (R202, R268). -/
def execLog2 (d : LDst) (a : Opnd) (s : State) : Out1 :=
  laneFlt1 s (.log2 d a) d a flog2

/-- SIN (R202, R268). -/
def execSin (d : LDst) (a : Opnd) (s : State) : Out1 :=
  laneFlt1 s (.sin d a) d a fsin

/-- COS (R202, R268). -/
def execCos (d : LDst) (a : Opnd) (s : State) : Out1 :=
  laneFlt1 s (.cos d a) d a fcos

/-- TANH (R202, R268). -/
def execTanh (d : LDst) (a : Opnd) (s : State) : Out1 :=
  laneFlt1 s (.tanh d a) d a ftanh

/-- PADD (R272). -/
def execPadd (d a b : BitVec 7) (bf : Bool) (s : State) : Out1 :=
  laneResult s (.padd d a b bf) [.vreg a.toNat 1, .vreg b.toNat 1, .dst (dstOf d) 1 false] (dstOf d) fun R j =>
    [Sys2Proof.Machine.padd bf (R.v j a.toNat) (R.v j b.toNat)]

/-- PMUL (R272). -/
def execPmul (d a b : BitVec 7) (bf : Bool) (s : State) : Out1 :=
  laneResult s (.pmul d a b bf) [.vreg a.toNat 1, .vreg b.toNat 1, .dst (dstOf d) 1 false] (dstOf d) fun R j =>
    [Sys2Proof.Machine.pmul bf (R.v j a.toNat) (R.v j b.toNat)]

/-- PMAX (R272). -/
def execPmax (d a b : BitVec 7) (bf : Bool) (s : State) : Out1 :=
  laneResult s (.pmax d a b bf) [.vreg a.toNat 1, .vreg b.toNat 1, .dst (dstOf d) 1 false] (dstOf d) fun R j =>
    [Sys2Proof.Machine.pmax bf (R.v j a.toNat) (R.v j b.toNat)]

/-- PFMA (R272). -/
def execPfma (d a b : BitVec 7) (bf : Bool) (s : State) : Out1 :=
  laneResult s (.pfma d a b bf) [.vreg a.toNat 1, .vreg b.toNat 1, .vreg d.toNat 1] (dstOf d) fun R j =>
    [Sys2Proof.Machine.pfma bf (R.v j a.toNat) (R.v j b.toNat) (R.v j d.toNat)]

end Sys2Proof.Machine
end

