-- ==== Sys2Proof/Machine/LaneInt.lean ====
section
/-!
DEFINITION. The lane integer instructions, carry chains, comparisons and predicate logic
(16_lane_instructions.md R261 to R267).
-/
namespace Sys2Proof.Machine

/-- d ← a + b (R261). -/
def execAddLane (d : LDst) (a b : Opnd) (s : State) : Out1 :=
  laneInt2 s (.addLane d a b) d a b (fun x y => x + y)

/-- d ← a − b (R261). -/
def execSubLane (d : LDst) (a b : Opnd) (s : State) : Out1 :=
  laneInt2 s (.subLane d a b) d a b (fun x y => x - y)

/-- bits [31:0] of a × b (R261). -/
def execMulLane (d : LDst) (a b : Opnd) (s : State) : Out1 :=
  laneInt2 s (.mulLane d a b) d a b (fun x y => x * y)

/-- bits [63:32] of the signed product (R261). -/
def execMulhLane (d : LDst) (a b : Opnd) (s : State) : Out1 :=
  laneInt2 s (.mulhLane d a b) d a b mulHiS

/-- bits [63:32] of the unsigned product (R261). -/
def execMulhuLane (d : LDst) (a b : Opnd) (s : State) : Out1 :=
  laneInt2 s (.mulhuLane d a b) d a b mulHiU

/-- a AND b (R261). -/
def execAndLane (d : LDst) (a b : Opnd) (s : State) : Out1 :=
  laneInt2 s (.andLane d a b) d a b (fun x y => x &&& y)

/-- a OR b (R261). -/
def execOrLane (d : LDst) (a b : Opnd) (s : State) : Out1 :=
  laneInt2 s (.orLane d a b) d a b (fun x y => x ||| y)

/-- a XOR b (R261). -/
def execXorLane (d : LDst) (a b : Opnd) (s : State) : Out1 :=
  laneInt2 s (.xorLane d a b) d a b (fun x y => x ^^^ y)

/-- a AND NOT b (R261). -/
def execAndnLane (d : LDst) (a b : Opnd) (s : State) : Out1 :=
  laneInt2 s (.andnLane d a b) d a b (fun x y => x &&& ~~~ y)

/-- a shifted left by b[4:0] (R261). -/
def execShlLane (d : LDst) (a b : Opnd) (s : State) : Out1 :=
  laneInt2 s (.shlLane d a b) d a b (fun x y => x <<< (y.extractLsb' 0 5).toNat)

/-- a shifted right by b[4:0] (R261). -/
def execShrLane (d : LDst) (a b : Opnd) (s : State) : Out1 :=
  laneInt2 s (.shrLane d a b) d a b (fun x y => x >>> (y.extractLsb' 0 5).toNat)

/-- a shifted right by b[4:0], sign entering (R261). -/
def execSarLane (d : LDst) (a b : Opnd) (s : State) : Out1 :=
  laneInt2 s (.sarLane d a b) d a b (fun x y => x.sshiftRight (y.extractLsb' 0 5).toNat)

/-- a rotated left by b[4:0] (R261). -/
def execRolLane (d : LDst) (a b : Opnd) (s : State) : Out1 :=
  laneInt2 s (.rolLane d a b) d a b (fun x y => x.rotateLeft (y.extractLsb' 0 5).toNat)

/-- signed minimum (R261). -/
def execMinLane (d : LDst) (a b : Opnd) (s : State) : Out1 :=
  laneInt2 s (.minLane d a b) d a b minS

/-- signed maximum (R261). -/
def execMaxLane (d : LDst) (a b : Opnd) (s : State) : Out1 :=
  laneInt2 s (.maxLane d a b) d a b maxS

/-- unsigned minimum (R261). -/
def execMinuLane (d : LDst) (a b : Opnd) (s : State) : Out1 :=
  laneInt2 s (.minuLane d a b) d a b minU

/-- unsigned maximum (R261). -/
def execMaxuLane (d : LDst) (a b : Opnd) (s : State) : Out1 :=
  laneInt2 s (.maxuLane d a b) d a b maxU

/-- d ← a × b + d (R261). -/
def execMad (d : LDst) (a b : Opnd) (s : State) : Out1 :=
  laneInt3 s (.mad d a b) d a b (fun x y z => x * y + z)

/-- leading zero bits (R261). -/
def execClzLane (d : LDst) (a : Opnd) (s : State) : Out1 :=
  laneInt1 s (.clzLane d a) d a clzOf

/-- number of 1 bits (R261). -/
def execPopcLane (d : LDst) (a : Opnd) (s : State) : Out1 :=
  laneInt1 s (.popcLane d a) d a (fun x => BitVec.ofNat 32 (popcount x))

/-- bits in reverse order (R261). -/
def execBrev (d : LDst) (a : Opnd) (s : State) : Out1 :=
  laneInt1 s (.brev d a) d a reverse

/-- BFE (R262). -/
def execBfeLane (d : LDst) (a b : Opnd) (s : State) : Out1 :=
  laneInt2 s (.bfeLane d a b) d a b bfe32

/-- BFI (R262). -/
def execBfiLane (d : LDst) (a b : Opnd) (s : State) : Out1 :=
  laneInt3 s (.bfiLane d a b) d a b bfi32

/-- SEL (R263). -/
def execSelLane (d a b : BitVec 7) (p : BitVec 3) (s : State) : Out1 :=
  laneResult s (.selLane d a b p) [.vreg a.toNat 1, .vreg b.toNat 1, .dst (dstOf d) 1 false, .prd p] (dstOf d)
    fun R j => [if R.p j p then R.v j a.toNat else R.v j b.toNat]

/-- A carry instruction: its result registers and its carry, which goes back into the predicate (R263). -/
def laneCarry (s : State) (i : Instr) (us : List Use) (d : BitVec 7) (p : BitVec 3) (f : Rd → Nat → List W32 × Bool) :
    Out1 :=
  withOperands s i true us fun s I W seed =>
    let R : Rd := ⟨W, seed, I.sub⟩
    let res := I.sub.actives.map fun j => (j, f R j)
    let U := writeResults W I.sub (dstOf d) (res.map fun (j, r) => (j, r.1))
    retire s I .ring (res.foldl (fun U (j, r) => U.mapLane j fun L => L.setPred p.toNat r.2) U)

/-- ADDC (R263). -/
def execAddc (d a b : BitVec 7) (p : BitVec 3) (s : State) : Out1 :=
  laneCarry s (.addc d a b p) [.vreg a.toNat 1, .vreg b.toNat 1, .dst (dstOf d) 1 false, .prd p] d p fun R j =>
    let r := addCarry (R.v j a.toNat) (R.v j b.toNat) (R.p j p); ([r.1], r.2)

/-- SUBB (R263). -/
def execSubb (d a b : BitVec 7) (p : BitVec 3) (s : State) : Out1 :=
  laneCarry s (.subb d a b p) [.vreg a.toNat 1, .vreg b.toNat 1, .dst (dstOf d) 1 false, .prd p] d p fun R j =>
    let r := subBorrow (R.v j a.toNat) (R.v j b.toNat) (R.p j p); ([r.1], r.2)

/-- MADC (R263). -/
def execMadc (d a b : BitVec 7) (p : BitVec 3) (s : State) : Out1 :=
  laneCarry s (.madc d a b p) [.vreg a.toNat 1, .vreg b.toNat 1, .vreg d.toNat 2, .prd p] d p fun R j =>
    let r := madCarry (R.v j a.toNat) (R.v j b.toNat) (R.v j (d.toNat + 1) ++ R.v j d.toNat) (R.p j p)
    ([r.1.setWidth 32, (r.1 >>> 32).setWidth 32], r.2)

/-- CMP (R265). -/
def execCmpLane (pd : BitVec 3) (m : Comb) (c : ICond) (a b : Opnd) (s : State) : Out1 :=
  lanePred s (.cmpLane pd m c a b) [.src a, .src b] pd fun R j =>
    m.apply (R.p j pd) (c.holds (R.int a j) (R.int b j))

/-- PLOG (R267). -/
def execPlog (pd : BitVec 3) (tt : BitVec 4) (px py : BitVec 3) (s : State) : Out1 :=
  lanePred s (.plog pd tt px py) [.prd px, .prd py] pd fun R j => plogBit tt (R.p j px) (R.p j py)

/-- MOVI (R264). -/
def execMoviLane (d : LDst) (imm : BitVec 16) (s : State) : Out1 :=
  laneResult s (.moviLane d imm) [.dst d 1 false] d fun _ _ => [imm.signExtend 32]

/-- MOVHI (R264). -/
def execMovhiLane (d : LDst) (imm : BitVec 16) (s : State) : Out1 :=
  laneResult s (.movhiLane d imm) [.dst d 1 true] d fun R j => [imm ++ (R.v j d.r.toNat).setWidth 16]

/-- ADDI (R264). -/
def execAddiLane (d : LDst) (imm : BitVec 16) (s : State) : Out1 :=
  laneResult s (.addiLane d imm) [.dst d 1 true] d fun R j => [R.v j d.r.toNat + imm.signExtend 32]

end Sys2Proof.Machine
end

