-- ==== Sys2Proof/Machine/Power.lean ====
section
/-!
DEFINITION. Rails, boot, the configuration block, flash images, heat and measurements (01_package.md R11 to R16;
03_host_partitions.md R42 to R47, R52; 02_links.md R26).
-/
namespace Sys2Proof.Machine

/-! ### The configuration block (R42, R43) -/

/-- The permitted fusion edges of two package fields (R43). -/
def fusionEdge (a b : Nat) : Bool :=
  let e : Nat → Nat → Bool := fun x y =>
    (x / 4 == y / 4 && ([(0, 1), (2, 3), (0, 2), (1, 3)].contains (x % 4, y % 4))) ||
    [(1, 4), (3, 6), (9, 12), (11, 14), (2, 8), (3, 9), (6, 12), (7, 13)].contains (x, y)
  e a b || e b a

/-- The fields reached from a set of fields through permitted edges within a mask, n rounds. -/
def fieldsReached (m : BitVec 16) : Nat → List Nat → List Nat
  | 0, l => l
  | n + 1, l => fieldsReached m n ((List.range 16).filter fun f => l.contains f || (m.getLsbD f && l.any fun g => fusionEdge f g))

/-- The fields of a mask, ascending. -/
def fieldList (m : BitVec 16) : List Nat := (List.range 16).filter fun f => m.getLsbD f

/-- Whether a set of fields is connected (R43). -/
def fieldsConnected (m : BitVec 16) : Bool :=
  match fieldList m with
  | [] => false
  | f :: l => l.all fun g => (fieldsReached m 16 [f]).contains g

/-- Whether a range lies in DRAM beneath one die that holds a field of the mask (R43). -/
def rangeBeneath (m : BitVec 16) (base size : Nat) : Bool :=
  decide (base + size ≤ 2 ^ 40) && base / 2 ^ 38 == (base + size - 1) / 2 ^ 38 && (fieldList m).any fun f => f / 4 == base / 2 ^ 38

/-- The conditions on one partition entry (R42, R43). -/
def partEntryOk (e : PartEntry) : Bool :=
  e.fields != 0 && fieldsConnected e.fields && decide (1 ≤ e.vflo.toNat) && decide (e.vflo.toNat ≤ e.vfhi.toNat) &&
  decide (e.vfhi.toNat ≤ 384) && e.wflags >>> 1 == 0 && e.reserved == 0 && e.tailZero &&
  e.spbase.toNat % 2 ^ 26 == 0 && e.spsize.toNat % 2 ^ 26 == 0 && e.spsize != 0 && e.ssbase.toNat % 2 ^ 26 == 0 &&
  e.sssize.toNat % 2 ^ 26 == 0 && decide (2 ^ 22 * (16 * (fieldList e.fields).length) ≤ e.sssize.toNat) &&
  rangeBeneath e.fields e.spbase.toNat e.spsize.toNat && rangeBeneath e.fields e.ssbase.toNat e.sssize.toNat

/-- An entry at or above NPART. -/
def partEntryZero (e : PartEntry) : Bool :=
  e.fields == 0 && e.vflo == 0 && e.vfhi == 0 && e.wflags == 0 && e.reserved == 0 && e.spbase == 0 && e.spsize == 0 &&
  e.ssbase == 0 && e.sssize == 0 && e.tailZero

/-- Whether ranges do not overlap pairwise. -/
def apart : List (Nat × Nat) → Bool
  | [] => true
  | x :: l => (l.all fun y => decide (x.1 + x.2 ≤ y.1) || decide (y.1 + y.2 ≤ x.1)) && apart l

/-- Whether Craoz accepts a configuration block (R42, R43). -/
def configOk (c : ConfigBlock) : Bool :=
  let n := c.npart.toNat
  let es := c.part.take n
  c.edOk && c.mldOk && c.magic == 0x594D4342#32 && decide (Config.minConfigSvn.toNat ≤ c.svn.toNat) && decide (c.node.toNat < 640) &&
  decide (1 ≤ n) && decide (n ≤ 16) && c.part.length == 16 && c.reservedZero && es.all partEntryOk &&
  (c.part.drop n).all partEntryZero &&
  (List.range 16).all (fun f => decide ((es.filter fun e => e.fields.getLsbD f).length ≤ 1)) &&
  apart (es.map fun e => (e.vflo.toNat, e.vfhi.toNat + 1 - e.vflo.toNat)) &&
  apart (es.flatMap fun e => [(e.spbase.toNat, e.spsize.toNat), (e.ssbase.toNat, e.sssize.toNat)])

/-- Whether Craoz runs a flash image (R46). -/
def imageOk (i : FlashImage) : Bool := i.edOk && i.mldOk && decide (Config.minImageSvn.toNat ≤ i.svn.toNat)

/-- A partition at full reset. -/
def partStart (e : PartEntry) : Part :=
  { fields := e.fields, vflo := e.vflo.toNat, vfhi := e.vfhi.toNat, secok := e.wflags.getLsbD 0, spbase := e.spbase.toNat,
    spsize := e.spsize.toNat, ssbase := e.ssbase.toNat, sssize := e.sssize.toNat, psroot := 0, psched := pschedReset,
    pschedNext := none, nextSlice := 2000, queues := [], refused := 0, lastSlot := 0, lastErr := 0, sheaves := [],
    tainted := [], edgesDue := [], retired := [], strands := [], cursors := [], anchors := [], skeins := [], inval := none }

/-! ### Reset and release (R11, R42, R46) -/

/-- The machine with every die in reset: what Craoz keeps on VAUX stays, and DRAM while its rail is up; host memory is not
the package's. -/
def State.held (s : State) (keepMem : Bool) : State :=
  { State.reset with
    vaux := s.vaux, vdram := s.vdram, vcore := s.vcore, vserdes := s.vserdes, vhost := s.vhost, thermtrip := s.thermtrip,
    flashImage := s.flashImage, flashConfig := s.flashConfig,
    mem := if keepMem then s.mem else s.mem.filter fun c => isHost c.1, poison := if keepMem then s.poison else [], poisonWords := if keepMem then s.poisonWords else [],
    hostGot := s.hostGot, agenda := s.agenda, free := s.free, gen := s.gen, stamp := s.stamp, nextId := s.nextId }

/-- A link that begins to train as its die leaves reset (R21, R29). -/
def Port.train : Port := { Port.reset with stat := 1 }

/-- Craoz releases the dies when every rail is good, the image runs and the configuration block is accepted: the partition
layout is set, and the links train (R11, R42, R44, R46). -/
def State.release (s : State) : State :=
  match s.flashConfig, s.flashImage with
  | some c, some i =>
    if s.vaux && s.vdram && s.vcore && s.vserdes && s.vhost && !s.released && configOk c && imageOk i then
      let es := c.part.take c.npart.toNat
      { s with
        released := true
        recovery := false
        gnode := BitVec.ofNat 64 (2 ^ 31 + c.node.toNat)
        parts := es.zipIdx.map fun (e, k) => (k, partStart e)
        dies := (List.range 5).map fun d => (d, Die.reset)
        boundaries := (List.range 8).map fun b => (b, Port.train)
        ports := (List.range 24).map fun p => (p, Port.train) }
    else s
  | _, _ => s

/-- Craoz boots (R42, R46): a block it rejects, or finds missing, releases no die and is reported in the boot status; an image it
rejects, or finds missing, opens recovery; with both accepted the dies are released. -/
def State.boot (s : State) : State :=
  { s with configFailed := !(match s.flashConfig with | some c => configOk c | none => false)
           recovery := !(match s.flashImage with | some i => imageOk i | none => false) }.release

/-- RAILS_GOOD (R11): all rails have been applied; Craoz boots. THERMTRIP is deasserted here and at RAILS_REMOVED, the model's
choice (log 48). -/
def execRailsGood (s : State) : Out1 :=
  let s := { s with vaux := true, vdram := true, vcore := true, vserdes := true, vhost := true, thermtrip := false }
  .next (if s.released then s else s.boot)

/-- FULL_RESET (R42, R43, R46): every die is held, and Craoz boots from the configuration block and the image in flash. -/
def execFullReset (cfg : ConfigBlock) (s : State) : Out1 :=
  if s.vaux then .next { s.held s.vdram with flashConfig := some cfg }.boot else .next s

/-- RECOVERY_IMAGE (R46): the host supplies an image on the recovery path; it is written to flash, and boot goes on, if it
verifies. -/
def execRecoveryImage (img : FlashImage) (s : State) : Out1 :=
  if s.vaux && s.recovery && imageOk img then .next { s with flashImage := some img }.boot else .next s

/-- FIRMWARE_UPDATE (R47): a verified image is written to flash; a loss of power during the write leaves one that fails
verification, and takes the rails with it. -/
def execFirmwareUpdate (img : FlashImage) (powerFails : Bool) (s : State) : Out1 :=
  if s.vaux && s.released && imageOk img then
    if powerFails then
      let s := { s with vaux := false, vdram := false, vcore := false, vserdes := false, vhost := false, thermtrip := false }
      .next { s.held false with flashImage := some { img with edOk := false, mldOk := false } }
    else .next { s with flashImage := some img }
  else .next s

/-- RAILS_REMOVED (R11): every state not already saved is lost. -/
def execRailsRemoved (s : State) : Out1 :=
  .next ({ s with vaux := false, vdram := false, vcore := false, vserdes := false, vhost := false, thermtrip := false }.held false)

/-! ### Heat (R15, R16) -/

/-- One evaluation of a die's throttle level (R16): it rises at 95 °C, or where the current has stayed above its limit for longer
than 1 ms; it goes to 4 at 105 °C; it falls below 90 °C while the current is within its limit. CAUSE names the causes of a
rise. -/
def throttle (x : Word) (temp : Nat) (current : CoreCurrent) : Word :=
  let level := bits x.toNat 2 0
  let hot := decide (95 * 256 ≤ temp)
  let top := decide (105 * 256 ≤ temp)
  let stayed := current == .stayedAbove
  let level' :=
    if top then 4
    else if hot || stayed then max level (min 4 (level + 1))
    else if decide (temp < 90 * 256) && current == .within then level - 1
    else level
  let cause := if level < level' then (if hot then 1 else 0) + (if stayed then 2 else 0) else bits x.toNat 9 8
  let x := setField (setField (setField x 0 3 level') 8 2 cause) 16 16 temp
  if top then x ||| 0x400 else x

/-- THROTTLE_EVALUATION (R16): every die's hottest sensor, and the core-rail current. -/
def execThrottleEvaluation (temps : List (BitVec 16)) (current : CoreCurrent) (s : State) : Out1 :=
  if s.released then
    .next ((List.range 4).foldl (fun (s : State) d =>
      let D := s.die d
      match temps[d]? with
      | some t => s.setDie d { D with thstat := throttle D.thstat t.toNat current }
      | none => s) s)
  else .next s

/-- THERMTRIP (R16): at 115 °C Craoz removes the core rails and asserts the pin; state not saved is lost. -/
def execThermtrip (_die : Nat) (temp : BitVec 16) (s : State) : Out1 :=
  if 115 * 256 ≤ temp.toNat ∧ s.vcore then .next ({ s with vcore := false, thermtrip := true }.held s.vdram) else .next s

/-- THSTAT_TRIPPED_CLEAR (R16): a write of 1 to bit 10 clears it. -/
def execThstatTrippedClear (die : Nat) (v : Word) (s : State) : Out1 :=
  if v.getLsbD 10 then
    let D := s.die die
    .next (s.setDie die { D with thstat := D.thstat &&& ~~~ 0x400#64 })
  else .next s

/-! ### Measurements (R52) -/

/-- What a configuration block is measured as: its fields in order. -/
def configWords (c : ConfigBlock) : List Word :=
  [c.magic.setWidth 64, c.svn.setWidth 64, c.node.setWidth 64, c.npart.setWidth 64] ++
    c.part.flatMap fun e => [e.fields.setWidth 64, e.vflo.setWidth 64, e.vfhi.setWidth 64, e.wflags.setWidth 64, e.spbase,
      e.spsize, e.ssbase, e.sssize]

/-- SPDM_MEASUREMENTS (R52): the response covers the ROM, the image, the configuration block and the fused minima, after
the requester's nonce, and carries both signatures. -/
def execSpdmMeasurements (nonce : Word) (s : State) : Out1 :=
  if s.vaux then
    let m := [nonce, Config.romMeasurement, (match s.flashImage with | some i => i.digest | none => 0)] ++
      (match s.flashConfig with | some c => configWords c | none => []) ++
      [Config.minImageSvn.setWidth 64, Config.minConfigSvn.setWidth 64]
    .next { s with measured := m, measuredEd := Config.signEd25519 m, measuredMld := Config.signMlDsa65 m }
  else .next s

end Sys2Proof.Machine
end

