-- ==== Sys2Proof/Machine/UniArith.lean ====
section
/-!
DEFINITION. Uniform arithmetic: 64-bit integers, comparisons, bit fields, immediates (15_uniform_instructions.md R243 to
R248).
-/
namespace Sys2Proof.Machine

/-- 1 when a condition holds, else 0 (R245). -/
def bool64 (b : Bool) : Word := if b then 1 else 0

/-- ADD of the uniform set (R244). -/
def execAddUniform (d : UDst) (a b : Opnd) (s : State) : Out1 :=
  uni2 s (.addUniform d a b) d a b (fun x y => x + y)

/-- SUB of the uniform set (R244). -/
def execSubUniform (d : UDst) (a b : Opnd) (s : State) : Out1 :=
  uni2 s (.subUniform d a b) d a b (fun x y => x - y)

/-- MUL of the uniform set (R244). -/
def execMulUniform (d : UDst) (a b : Opnd) (s : State) : Out1 :=
  uni2 s (.mulUniform d a b) d a b (fun x y => x * y)

/-- MULH of the uniform set (R244). -/
def execMulhUniform (d : UDst) (a b : Opnd) (s : State) : Out1 :=
  uni2 s (.mulhUniform d a b) d a b mulHiS

/-- MULHU of the uniform set (R244). -/
def execMulhuUniform (d : UDst) (a b : Opnd) (s : State) : Out1 :=
  uni2 s (.mulhuUniform d a b) d a b mulHiU

/-- AND of the uniform set (R244). -/
def execAndUniform (d : UDst) (a b : Opnd) (s : State) : Out1 :=
  uni2 s (.andUniform d a b) d a b (fun x y => x &&& y)

/-- OR of the uniform set (R244). -/
def execOrUniform (d : UDst) (a b : Opnd) (s : State) : Out1 :=
  uni2 s (.orUniform d a b) d a b (fun x y => x ||| y)

/-- XOR of the uniform set (R244). -/
def execXorUniform (d : UDst) (a b : Opnd) (s : State) : Out1 :=
  uni2 s (.xorUniform d a b) d a b (fun x y => x ^^^ y)

/-- ANDN of the uniform set (R244). -/
def execAndnUniform (d : UDst) (a b : Opnd) (s : State) : Out1 :=
  uni2 s (.andnUniform d a b) d a b (fun x y => x &&& ~~~ y)

/-- SHL of the uniform set (R244). -/
def execShlUniform (d : UDst) (a b : Opnd) (s : State) : Out1 :=
  uni2 s (.shlUniform d a b) d a b (fun x y => x <<< (y.extractLsb' 0 6).toNat)

/-- SHR of the uniform set (R244). -/
def execShrUniform (d : UDst) (a b : Opnd) (s : State) : Out1 :=
  uni2 s (.shrUniform d a b) d a b (fun x y => x >>> (y.extractLsb' 0 6).toNat)

/-- SAR of the uniform set (R244). -/
def execSarUniform (d : UDst) (a b : Opnd) (s : State) : Out1 :=
  uni2 s (.sarUniform d a b) d a b (fun x y => x.sshiftRight (y.extractLsb' 0 6).toNat)

/-- MIN of the uniform set (R244). -/
def execMinUniform (d : UDst) (a b : Opnd) (s : State) : Out1 :=
  uni2 s (.minUniform d a b) d a b minS

/-- MAX of the uniform set (R244). -/
def execMaxUniform (d : UDst) (a b : Opnd) (s : State) : Out1 :=
  uni2 s (.maxUniform d a b) d a b maxS

/-- MINU of the uniform set (R244). -/
def execMinuUniform (d : UDst) (a b : Opnd) (s : State) : Out1 :=
  uni2 s (.minuUniform d a b) d a b minU

/-- MAXU of the uniform set (R244). -/
def execMaxuUniform (d : UDst) (a b : Opnd) (s : State) : Out1 :=
  uni2 s (.maxuUniform d a b) d a b maxU

/-- CLZ (R244). -/
def execClzUniform (d : UDst) (a : Opnd) (s : State) : Out1 :=
  uniResult s (.clzUniform d a) [.src a, .udst d 1 false] d fun rd _ => clzOf (rd a)

/-- POPC (R244). -/
def execPopcUniform (d : UDst) (a : Opnd) (s : State) : Out1 :=
  uniResult s (.popcUniform d a) [.src a, .udst d 1 false] d fun rd _ => BitVec.ofNat 64 (popcount (rd a))

/-- BFE (R246). -/
def execBfeUniform (d : UDst) (a b : Opnd) (s : State) : Out1 :=
  uni2 s (.bfeUniform d a b) d a b bfe64

/-- BFI (R246): d is read as a source. -/
def execBfiUniform (d : UDst) (a b : Opnd) (s : State) : Out1 :=
  uniResult s (.bfiUniform d a b) [.src a, .src b, .udst d 1 true] d fun rd U =>
    bfi64 (rd a) (rd b) (U.sreg d.r.toNat)

/-- CMP.eq of the uniform set (R245). -/
def execCmpEqUniform (d : UDst) (a b : Opnd) (s : State) : Out1 :=
  uni2 s (.cmpEqUniform d a b) d a b fun x y => bool64 (x == y)

/-- CMP.ne of the uniform set (R245). -/
def execCmpNeUniform (d : UDst) (a b : Opnd) (s : State) : Out1 :=
  uni2 s (.cmpNeUniform d a b) d a b fun x y => bool64 (x != y)

/-- CMP.lt of the uniform set (R245). -/
def execCmpLtUniform (d : UDst) (a b : Opnd) (s : State) : Out1 :=
  uni2 s (.cmpLtUniform d a b) d a b fun x y => bool64 (x.slt y)

/-- CMP.le of the uniform set (R245). -/
def execCmpLeUniform (d : UDst) (a b : Opnd) (s : State) : Out1 :=
  uni2 s (.cmpLeUniform d a b) d a b fun x y => bool64 (x.sle y)

/-- CMP.blo of the uniform set (R245). -/
def execCmpBloUniform (d : UDst) (a b : Opnd) (s : State) : Out1 :=
  uni2 s (.cmpBloUniform d a b) d a b fun x y => bool64 (x.ult y)

/-- CMP.bls of the uniform set (R245). -/
def execCmpBlsUniform (d : UDst) (a b : Opnd) (s : State) : Out1 :=
  uni2 s (.cmpBlsUniform d a b) d a b fun x y => bool64 (x.ule y)

/-- SEL (R247): d is its condition. -/
def execSelUniform (d : UDst) (a b : Opnd) (s : State) : Out1 :=
  uniResult s (.selUniform d a b) [.src a, .src b, .udst d 1 true] d fun rd U =>
    if U.sreg d.r.toNat ≠ 0 then rd a else rd b

/-- MOVI (R248). -/
def execMoviUniform (r : BitVec 5) (imm : BitVec 19) (s : State) : Out1 :=
  uniResult s (.moviUniform r imm) [.out r.toNat 1] ⟨false, r⟩ fun _ _ => imm.signExtend 64

/-- MOVHI (R248). -/
def execMovhiUniform (r : BitVec 5) (imm : BitVec 19) (s : State) : Out1 :=
  uniResult s (.movhiUniform r imm) [.sreg r.toNat 1] ⟨false, r⟩ fun _ U => (U.sreg r.toNat <<< 19) ||| imm.setWidth 64

/-- ADDI (R248). -/
def execAddiUniform (r : BitVec 5) (imm : BitVec 19) (s : State) : Out1 :=
  uniResult s (.addiUniform r imm) [.sreg r.toNat 1] ⟨false, r⟩ fun _ U => U.sreg r.toNat + imm.signExtend 64

/-- ROL (R244). -/
def execRolUniform (d : UDst) (a b : Opnd) (s : State) : Out1 :=
  uni2 s (.rolUniform d a b) d a b fun x y => x.rotateLeft (y.extractLsb' 0 6).toNat

end Sys2Proof.Machine
end

