-- ==== Sys2Proof/Machine/Dispatch.lean ====
section
/-!
DEFINITION. One arm per instruction and event of the opcode table, each a direct call of its meaning.
-/
namespace Sys2Proof.Machine

def exec (i : Instr) (s : State) : Host.Outcome State Fault Refusal :=
  match i with
  | .addLane d a b => Sys2Proof.Machine.execAddLane d a b s
  | .subLane d a b => Sys2Proof.Machine.execSubLane d a b s
  | .mulLane d a b => Sys2Proof.Machine.execMulLane d a b s
  | .mulhLane d a b => Sys2Proof.Machine.execMulhLane d a b s
  | .mulhuLane d a b => Sys2Proof.Machine.execMulhuLane d a b s
  | .mad d a b => Sys2Proof.Machine.execMad d a b s
  | .andLane d a b => Sys2Proof.Machine.execAndLane d a b s
  | .orLane d a b => Sys2Proof.Machine.execOrLane d a b s
  | .xorLane d a b => Sys2Proof.Machine.execXorLane d a b s
  | .andnLane d a b => Sys2Proof.Machine.execAndnLane d a b s
  | .shlLane d a b => Sys2Proof.Machine.execShlLane d a b s
  | .shrLane d a b => Sys2Proof.Machine.execShrLane d a b s
  | .sarLane d a b => Sys2Proof.Machine.execSarLane d a b s
  | .rolLane d a b => Sys2Proof.Machine.execRolLane d a b s
  | .minLane d a b => Sys2Proof.Machine.execMinLane d a b s
  | .maxLane d a b => Sys2Proof.Machine.execMaxLane d a b s
  | .minuLane d a b => Sys2Proof.Machine.execMinuLane d a b s
  | .maxuLane d a b => Sys2Proof.Machine.execMaxuLane d a b s
  | .clzLane d a => Sys2Proof.Machine.execClzLane d a s
  | .popcLane d a => Sys2Proof.Machine.execPopcLane d a s
  | .brev d a => Sys2Proof.Machine.execBrev d a s
  | .bfeLane d a b => Sys2Proof.Machine.execBfeLane d a b s
  | .bfiLane d a b => Sys2Proof.Machine.execBfiLane d a b s
  | .selLane d a b p => Sys2Proof.Machine.execSelLane d a b p s
  | .addc d a b p => Sys2Proof.Machine.execAddc d a b p s
  | .subb d a b p => Sys2Proof.Machine.execSubb d a b p s
  | .madc d a b p => Sys2Proof.Machine.execMadc d a b p s
  | .cmpLane pd m c a b => Sys2Proof.Machine.execCmpLane pd m c a b s
  | .plog pd tt px py => Sys2Proof.Machine.execPlog pd tt px py s
  | .moviLane d imm => Sys2Proof.Machine.execMoviLane d imm s
  | .movhiLane d imm => Sys2Proof.Machine.execMovhiLane d imm s
  | .addiLane d imm => Sys2Proof.Machine.execAddiLane d imm s
  | .fadd d a b => Sys2Proof.Machine.execFadd d a b s
  | .fsub d a b => Sys2Proof.Machine.execFsub d a b s
  | .fmul d a b => Sys2Proof.Machine.execFmul d a b s
  | .fma d a b => Sys2Proof.Machine.execFma d a b s
  | .fmin d a b => Sys2Proof.Machine.execFmin d a b s
  | .fmax d a b => Sys2Proof.Machine.execFmax d a b s
  | .fcmp pd m c a b => Sys2Proof.Machine.execFcmp pd m c a b s
  | .fclass pd m a b => Sys2Proof.Machine.execFclass pd m a b s
  | .frnd d a rm => Sys2Proof.Machine.execFrnd d a rm s
  | .cvt d a rm src dst => Sys2Proof.Machine.execCvt d a rm src dst s
  | .rcp d a => Sys2Proof.Machine.execRcp d a s
  | .rsq d a => Sys2Proof.Machine.execRsq d a s
  | .sqrt d a => Sys2Proof.Machine.execSqrt d a s
  | .exp2 d a => Sys2Proof.Machine.execExp2 d a s
  | .log2 d a => Sys2Proof.Machine.execLog2 d a s
  | .sin d a => Sys2Proof.Machine.execSin d a s
  | .cos d a => Sys2Proof.Machine.execCos d a s
  | .tanh d a => Sys2Proof.Machine.execTanh d a s
  | .padd d a b bf => Sys2Proof.Machine.execPadd d a b bf s
  | .pmul d a b bf => Sys2Proof.Machine.execPmul d a b bf s
  | .pfma d a b bf => Sys2Proof.Machine.execPfma d a b bf s
  | .pmax d a b bf => Sys2Proof.Machine.execPmax d a b bf s
  | .fscl d a b => Sys2Proof.Machine.execFscl d a b s
  | .dxpack d a half fmt => Sys2Proof.Machine.execDxpack d a half fmt s
  | .dxunpk d a half fmt => Sys2Proof.Machine.execDxunpk d a half fmt s
  | .dxexp d a fmt => Sys2Proof.Machine.execDxexp d a fmt s
  | .shuf d a b => Sys2Proof.Machine.execShuf d a b s
  | .lpush d a b => Sys2Proof.Machine.execLpush d a b s
  | .bcast d a b => Sys2Proof.Machine.execBcast d a b s
  | .lscan d a ex op => Sys2Proof.Machine.execLscan d a ex op s
  | .fscan d a ex op => Sys2Proof.Machine.execFscan d a ex op s
  | .lred d a op => Sys2Proof.Machine.execLred d a op s
  | .vote pd m px => Sys2Proof.Machine.execVote pd m px s
  | .rng d a b => Sys2Proof.Machine.execRng d a b s
  | .prefpop d a inc => Sys2Proof.Machine.execPrefpop d a inc s
  | .ldLane d addr ty o => Sys2Proof.Machine.execLdLane d addr ty o s
  | .stLane data addr ty o => Sys2Proof.Machine.execStLane data addr ty o s
  | .lds d addr ty o => Sys2Proof.Machine.execLds d addr ty o s
  | .sts data addr ty o => Sys2Proof.Machine.execSts data addr ty o s
  | .aaddLane d addr v os => Sys2Proof.Machine.execAaddLane d addr v os s
  | .afadd d addr v os => Sys2Proof.Machine.execAfadd d addr v os s
  | .amin d addr v os => Sys2Proof.Machine.execAmin d addr v os s
  | .amaxLane d addr v os => Sys2Proof.Machine.execAmaxLane d addr v os s
  | .aminu d addr v os => Sys2Proof.Machine.execAminu d addr v os s
  | .amaxu d addr v os => Sys2Proof.Machine.execAmaxu d addr v os s
  | .aand d addr v os => Sys2Proof.Machine.execAand d addr v os s
  | .aor d addr v os => Sys2Proof.Machine.execAor d addr v os s
  | .axor d addr v os => Sys2Proof.Machine.execAxor d addr v os s
  | .axchgLane d addr v os => Sys2Proof.Machine.execAxchgLane d addr v os s
  | .acasLane d addr v os => Sys2Proof.Machine.execAcasLane d addr v os s
  | .sldLane d addr ty pm sn => Sys2Proof.Machine.execSldLane d addr ty pm sn s
  | .sstLane data addr ty sn => Sys2Proof.Machine.execSstLane data addr ty sn s
  | .srankLane d addr pm => Sys2Proof.Machine.execSrankLane d addr pm s
  | .sanchLane d addr sn => Sys2Proof.Machine.execSanchLane d addr sn s
  | .sendLane r ch n row => Sys2Proof.Machine.execSendLane r ch n row s
  | .recvLane d ch n row => Sys2Proof.Machine.execRecvLane d ch n row s
  | .spawn r base det k => Sys2Proof.Machine.execSpawn r base det k s
  | .saadd d addr ty sn => Sys2Proof.Machine.execSaadd d addr ty sn s
  | .samin d addr ty sn => Sys2Proof.Machine.execSamin d addr ty sn s
  | .samax d addr ty sn => Sys2Proof.Machine.execSamax d addr ty sn s
  | .sacas d addr ty sn => Sys2Proof.Machine.execSacas d addr ty sn s
  | .saxchg d addr ty sn => Sys2Proof.Machine.execSaxchg d addr ty sn s
  | .addUniform d a b => Sys2Proof.Machine.execAddUniform d a b s
  | .subUniform d a b => Sys2Proof.Machine.execSubUniform d a b s
  | .mulUniform d a b => Sys2Proof.Machine.execMulUniform d a b s
  | .mulhUniform d a b => Sys2Proof.Machine.execMulhUniform d a b s
  | .mulhuUniform d a b => Sys2Proof.Machine.execMulhuUniform d a b s
  | .andUniform d a b => Sys2Proof.Machine.execAndUniform d a b s
  | .orUniform d a b => Sys2Proof.Machine.execOrUniform d a b s
  | .xorUniform d a b => Sys2Proof.Machine.execXorUniform d a b s
  | .andnUniform d a b => Sys2Proof.Machine.execAndnUniform d a b s
  | .shlUniform d a b => Sys2Proof.Machine.execShlUniform d a b s
  | .shrUniform d a b => Sys2Proof.Machine.execShrUniform d a b s
  | .sarUniform d a b => Sys2Proof.Machine.execSarUniform d a b s
  | .minUniform d a b => Sys2Proof.Machine.execMinUniform d a b s
  | .maxUniform d a b => Sys2Proof.Machine.execMaxUniform d a b s
  | .minuUniform d a b => Sys2Proof.Machine.execMinuUniform d a b s
  | .maxuUniform d a b => Sys2Proof.Machine.execMaxuUniform d a b s
  | .clzUniform d a => Sys2Proof.Machine.execClzUniform d a s
  | .popcUniform d a => Sys2Proof.Machine.execPopcUniform d a s
  | .bfeUniform d a b => Sys2Proof.Machine.execBfeUniform d a b s
  | .bfiUniform d a b => Sys2Proof.Machine.execBfiUniform d a b s
  | .cmpEqUniform d a b => Sys2Proof.Machine.execCmpEqUniform d a b s
  | .cmpNeUniform d a b => Sys2Proof.Machine.execCmpNeUniform d a b s
  | .cmpLtUniform d a b => Sys2Proof.Machine.execCmpLtUniform d a b s
  | .cmpLeUniform d a b => Sys2Proof.Machine.execCmpLeUniform d a b s
  | .cmpBloUniform d a b => Sys2Proof.Machine.execCmpBloUniform d a b s
  | .cmpBlsUniform d a b => Sys2Proof.Machine.execCmpBlsUniform d a b s
  | .selUniform d a b => Sys2Proof.Machine.execSelUniform d a b s
  | .moviUniform r imm => Sys2Proof.Machine.execMoviUniform r imm s
  | .movhiUniform r imm => Sys2Proof.Machine.execMovhiUniform r imm s
  | .addiUniform r imm => Sys2Proof.Machine.execAddiUniform r imm s
  | .rolUniform d a b => Sys2Proof.Machine.execRolUniform d a b s
  | .br off => Sys2Proof.Machine.execBr off s
  | .brz c off => Sys2Proof.Machine.execBrz c off s
  | .brnz c off => Sys2Proof.Machine.execBrnz c off s
  | .brp m p off => Sys2Proof.Machine.execBrp m p off s
  | .call off => Sys2Proof.Machine.execCall off s
  | .ret => Sys2Proof.Machine.execRet s
  | .jmpi d a b => Sys2Proof.Machine.execJmpi d a b s
  | .regang => Sys2Proof.Machine.execRegang s
  | .mpush inv p => Sys2Proof.Machine.execMpush inv p s
  | .mpop => Sys2Proof.Machine.execMpop s
  | .msetp op inv p => Sys2Proof.Machine.execMsetp op inv p s
  | .melse => Sys2Proof.Machine.execMelse s
  | .loop c off => Sys2Proof.Machine.execLoop c off s
  | .yield => Sys2Proof.Machine.execYield s
  | .exit => Sys2Proof.Machine.execExit s
  | .nop => Sys2Proof.Machine.execNop s
  | .ldUniform d addr ty o => Sys2Proof.Machine.execLdUniform d addr ty o s
  | .stUniform data addr ty o => Sys2Proof.Machine.execStUniform data addr ty o s
  | .aaddUniform d addr ty o => Sys2Proof.Machine.execAaddUniform d addr ty o s
  | .acasUniform d addr ty o => Sys2Proof.Machine.execAcasUniform d addr ty o s
  | .axchgUniform d addr ty o => Sys2Proof.Machine.execAxchgUniform d addr ty o s
  | .amaxUniform d addr ty o => Sys2Proof.Machine.execAmaxUniform d addr ty o s
  | .fence sc k => Sys2Proof.Machine.execFence sc k s
  | .waitc a sel => Sys2Proof.Machine.execWaitc a sel s
  | .monarm data addr ty => Sys2Proof.Machine.execMonarm data addr ty s
  | .monwait d ty o => Sys2Proof.Machine.execMonwait d ty o s
  | .barinit a b => Sys2Proof.Machine.execBarinit a b s
  | .bararv a b => Sys2Proof.Machine.execBararv a b s
  | .barexp a b => Sys2Proof.Machine.execBarexp a b s
  | .barwait a b => Sys2Proof.Machine.execBarwait a b s
  | .tlwait tc x => Sys2Proof.Machine.execTlwait tc x s
  | .tlqry tc d => Sys2Proof.Machine.execTlqry tc d s
  | .tdef h n => Sys2Proof.Machine.execTdef h n s
  | .copy tc hd hs stamp bar link n => Sys2Proof.Machine.execCopy tc hd hs stamp bar link n s
  | .copym tc hd hs bar link n => Sys2Proof.Machine.execCopym tc hd hs bar link n s
  | .copys tc hd hs n => Sys2Proof.Machine.execCopys tc hd hs n s
  | .copyr tc hd hs n => Sys2Proof.Machine.execCopyr tc hd hs n s
  | .mload tc h n => Sys2Proof.Machine.execMload tc h n s
  | .mswap tc mask => Sys2Proof.Machine.execMswap tc mask s
  | .mmul tc hd hs n => Sys2Proof.Machine.execMmul tc hd hs n s
  | .accz tc h => Sys2Proof.Machine.execAccz tc h s
  | .accdrn tc hd hs z n => Sys2Proof.Machine.execAccdrn tc hd hs z n s
  | .accmov st reg x => Sys2Proof.Machine.execAccmov st reg x s
  | .attn tc hd hs n => Sys2Proof.Machine.execAttn tc hd hs n s
  | .histrd h bin d => Sys2Proof.Machine.execHistrd h bin d s
  | .histclr tc h => Sys2Proof.Machine.execHistclr tc h s
  | .snew a b n => Sys2Proof.Machine.execSnew a b n s
  | .sfree a => Sys2Proof.Machine.execSfree a s
  | .slen a n => Sys2Proof.Machine.execSlen a n s
  | .sins a b z n => Sys2Proof.Machine.execSins a b z n s
  | .sdel a b n => Sys2Proof.Machine.execSdel a b n s
  | .ssplit a b n => Sys2Proof.Machine.execSsplit a b n s
  | .scat a b share => Sys2Proof.Machine.execScat a b share s
  | .sgap a b n => Sys2Proof.Machine.execSgap a b n s
  | .sapnd a n => Sys2Proof.Machine.execSapnd a n s
  | .sclose a => Sys2Proof.Machine.execSclose a s
  | .srankUniform a pm n => Sys2Proof.Machine.execSrankUniform a pm n s
  | .sanchUniform a b n => Sys2Proof.Machine.execSanchUniform a b n s
  | .sldUniform d addr ty pm sn => Sys2Proof.Machine.execSldUniform d addr ty pm sn s
  | .sstUniform data addr ty sn => Sys2Proof.Machine.execSstUniform data addr ty sn s
  | .sendUniform r ch n => Sys2Proof.Machine.execSendUniform r ch n s
  | .recvUniform d ch n => Sys2Proof.Machine.execRecvUniform d ch n s
  | .get r ch n p => Sys2Proof.Machine.execGet r ch n p s
  | .put r ch n eos => Sys2Proof.Machine.execPut r ch n eos s
  | .knot g h => Sys2Proof.Machine.execKnot g h s
  | .skfold d a => Sys2Proof.Machine.execSkfold d a s
  | .skspread d a => Sys2Proof.Machine.execSkspread d a s
  | .skqry d a => Sys2Proof.Machine.execSkqry d a s
  | .launch a => Sys2Proof.Machine.execLaunch a s
  | .suspend k => Sys2Proof.Machine.execSuspend k s
  | .lqry d a => Sys2Proof.Machine.execLqry d a s
  | .srd r reg idx => Sys2Proof.Machine.execSrd r reg idx s
  | .swr r reg idx => Sys2Proof.Machine.execSwr r reg idx s
  | .trap imm => Sys2Proof.Machine.execTrap imm s
  | .tret => Sys2Proof.Machine.execTret s
  | .brk imm => Sys2Proof.Machine.execBrk imm s
  | .railsGood => Sys2Proof.Machine.execRailsGood s
  | .fullReset cfg => Sys2Proof.Machine.execFullReset cfg s
  | .recoveryImage img => Sys2Proof.Machine.execRecoveryImage img s
  | .firmwareUpdate img powerFails => Sys2Proof.Machine.execFirmwareUpdate img powerFails s
  | .throttleEvaluation temps current => Sys2Proof.Machine.execThrottleEvaluation temps current s
  | .thermtrip die temp => Sys2Proof.Machine.execThermtrip die temp s
  | .thstatTrippedClear die v => Sys2Proof.Machine.execThstatTrippedClear die v s
  | .flitReceive l flit => Sys2Proof.Machine.execFlitReceive l flit s
  | .replayRequest l fseq => Sys2Proof.Machine.execReplayRequest l fseq s
  | .portRetrain p => Sys2Proof.Machine.execPortRetrain p s
  | .portTrainingDone p lanes => Sys2Proof.Machine.execPortTrainingDone p lanes s
  | .boundaryRetrain b => Sys2Proof.Machine.execBoundaryRetrain b s
  | .boundaryTrainingDone b ok => Sys2Proof.Machine.execBoundaryTrainingDone b ok s
  | .diePacketArrival src dst => Sys2Proof.Machine.execDiePacketArrival src dst s
  | .vectorAnnounce src => Sys2Proof.Machine.execVectorAnnounce src s
  | .remoteWriteApply home k => Sys2Proof.Machine.execRemoteWriteApply home k s
  | .remoteReadPerform home k => Sys2Proof.Machine.execRemoteReadPerform home k s
  | .readResponseArrival r => Sys2Proof.Machine.execReadResponseArrival r s
  | .gpqctlQuiesce p => Sys2Proof.Machine.execGpqctlQuiesce p s
  | .gpqctlResume p => Sys2Proof.Machine.execGpqctlResume p s
  | .portQuiesceDone p => Sys2Proof.Machine.execPortQuiesceDone p s
  | .grtabWrite die node v => Sys2Proof.Machine.execGrtabWrite die node v s
  | .packetWrite port pk => Sys2Proof.Machine.execPacketWrite port pk s
  | .packetRead port pk => Sys2Proof.Machine.execPacketRead port pk s
  | .packetAtomic port pk => Sys2Proof.Machine.execPacketAtomic port pk s
  | .packetSignal port pk => Sys2Proof.Machine.execPacketSignal port pk s
  | .signalApply k => Sys2Proof.Machine.execSignalApply k s
  | .reduceContribution pk => Sys2Proof.Machine.execReduceContribution pk s
  | .localReduceCombine k => Sys2Proof.Machine.execLocalReduceCombine k s
  | .ackResponse pk => Sys2Proof.Machine.execAckResponse pk s
  | .atomresResponse pk => Sys2Proof.Machine.execAtomresResponse pk s
  | .errorResponse pk => Sys2Proof.Machine.execErrorResponse pk s
  | .lockInterfaceRequest vf keyed => Sys2Proof.Machine.execLockInterfaceRequest vf keyed s
  | .getDeviceInterfaceReport vf => Sys2Proof.Machine.execGetDeviceInterfaceReport vf s
  | .startInterfaceRequest vf => Sys2Proof.Machine.execStartInterfaceRequest vf s
  | .stopInterfaceRequest vf => Sys2Proof.Machine.execStopInterfaceRequest vf s
  | .stopScrubDone vf => Sys2Proof.Machine.execStopScrubDone vf s
  | .lockedRegisterWrite vf reg v => Sys2Proof.Machine.execLockedRegisterWrite vf reg v s
  | .ideIntegrityFailure vf => Sys2Proof.Machine.execIdeIntegrityFailure vf s
  | .spdmMeasurements nonce => Sys2Proof.Machine.execSpdmMeasurements nonce s
  | .launchRecordWrite vf win off data ide => Sys2Proof.Machine.execLaunchRecordWrite vf win off data ide s
  | .lwcfgWrite vf win v => Sys2Proof.Machine.execLwcfgWrite vf win v s
  | .systemRegisterWrite w => Sys2Proof.Machine.execSystemRegisterWrite w s
  | .tepcWrite t u v => Sys2Proof.Machine.execTepcWrite t u v s
  | .tlbinvWrite part v => Sys2Proof.Machine.execTlbinvWrite part v s
  | .htlbinvWrite vf v => Sys2Proof.Machine.execHtlbinvWrite vf v s
  | .tlbinvComplete part => Sys2Proof.Machine.execTlbinvComplete part s
  | .translationWalk t vf va => Sys2Proof.Machine.execTranslationWalk t vf va s
  | .shdiscWrite part slot => Sys2Proof.Machine.execShdiscWrite part slot s
  | .skreqReel part desc => Sys2Proof.Machine.execSkreqReel part desc s
  | .skreqUnreel part desc => Sys2Proof.Machine.execSkreqUnreel part desc s
  | .skreqExport part desc => Sys2Proof.Machine.execSkreqExport part desc s
  | .worldMoveRequest granule secure => Sys2Proof.Machine.execWorldMoveRequest granule secure s
  | .worldMoveComplete granule => Sys2Proof.Machine.execWorldMoveComplete granule s
  | .queueAgeTimer part q => Sys2Proof.Machine.execQueueAgeTimer part q s
  | .placeBlock part tiles => Sys2Proof.Machine.execPlaceBlock part tiles s
  | .timeSliceBoundary part => Sys2Proof.Machine.execTimeSliceBoundary part s
  | .usedUpdate t => Sys2Proof.Machine.execUsedUpdate t s
  | .gridCompletion grid => Sys2Proof.Machine.execGridCompletion grid s
  | .scrubComplete t => Sys2Proof.Machine.execScrubComplete t s
  | .freezeRequest t debug => Sys2Proof.Machine.execFreezeRequest t debug s
  | .drainComplete t => Sys2Proof.Machine.execDrainComplete t s
  | .sheafSaveDone t => Sys2Proof.Machine.execSheafSaveDone t s
  | .sheafRestore part slot t => Sys2Proof.Machine.execSheafRestore part slot t s
  | .sheafRestoreDone t => Sys2Proof.Machine.execSheafRestoreDone t s
  | .debugResume t subs => Sys2Proof.Machine.execDebugResume t subs s
  | .debugSaveRequest t => Sys2Proof.Machine.execDebugSaveRequest t s
  | .debugScanAccess t acc => Sys2Proof.Machine.execDebugScanAccess t acc s
  | .binTimerExpiry t bin => Sys2Proof.Machine.execBinTimerExpiry t bin s
  | .binFormGang t bin => Sys2Proof.Machine.execBinFormGang t bin s
  | .binStoreDeadlock t => Sys2Proof.Machine.execBinStoreDeadlock t s
  | .monitorWatchFire t run => Sys2Proof.Machine.execMonitorWatchFire t run s
  | .monitorPoll t run => Sys2Proof.Machine.execMonitorPoll t run s
  | .suspendDelayExpiry t run => Sys2Proof.Machine.execSuspendDelayExpiry t run s
  | .logEntryComplete t u sl slot => Sys2Proof.Machine.execLogEntryComplete t u sl slot s
  | .trapEntry t u => Sys2Proof.Machine.execTrapEntry t u s
  | .impreciseReportTaken t u => Sys2Proof.Machine.execImpreciseReportTaken t u s
  | .tileStateError t gang code => Sys2Proof.Machine.execTileStateError t gang code s
  | .dataError e => Sys2Proof.Machine.execDataError e s
  | .correctedError w => Sys2Proof.Machine.execCorrectedError w s
  | .patrolScrub line found => Sys2Proof.Machine.execPatrolScrub line found s
  | .engineCommandComplete t id => Sys2Proof.Machine.execEngineCommandComplete t id s
  | .barrierByteCount t id n => Sys2Proof.Machine.execBarrierByteCount t id n s
  | .linkedStart t id => Sys2Proof.Machine.execLinkedStart t id s
  | .strandOpApply home k => Sys2Proof.Machine.execStrandOpApply home k s
  | .strandResponse k => Sys2Proof.Machine.execStrandResponse k s
  | .channelItemArrival part sk link => Sys2Proof.Machine.execChannelItemArrival part sk link s
  | .distributorReelRequest part sk => Sys2Proof.Machine.execDistributorReelRequest part sk s
  | .stageGangPlace part sk stage t => Sys2Proof.Machine.execStageGangPlace part sk stage t s
  | .skeinGatherDone part sk => Sys2Proof.Machine.execSkeinGatherDone part sk s
  | .skeinCopyDone part sk => Sys2Proof.Machine.execSkeinCopyDone part sk s
  | .skeinUnreelAtKnot part sk => Sys2Proof.Machine.execSkeinUnreelAtKnot part sk s
  | .skeinExportAtKnot part sk => Sys2Proof.Machine.execSkeinExportAtKnot part sk s
  | .skeinSwitchTimeout part sk => Sys2Proof.Machine.execSkeinSwitchTimeout part sk s
  | .railsRemoved => Sys2Proof.Machine.execRailsRemoved s
  | .freedSlotNoticeArrival part sk link => Sys2Proof.Machine.execFreedSlotNoticeArrival part sk link s
  | .distributorUnreelRequest part sk => Sys2Proof.Machine.execDistributorUnreelRequest part sk s

end Sys2Proof.Machine
end

