-- ==== Sys2Proof/Machine/Turns.lean ====
section
/-!
DEFINITION. One turn of the machine: an event, an instruction of a sub-gang, the passing of time, or a move of the world
outside (log 1; 01_package.md R12 to R16; 04_launch_interface.md R66; 05_scheduler.md R82; 07_execution_model.md R105).
-/
namespace Sys2Proof.Machine

/-! ### Events and instructions -/

/-- After an event: blocks whose conditions hold end, and waiting sub-gangs may try again. -/
def State.afterEvent (s : State) : State :=
  let s := (kkeys s.tiles).foldl (fun s t => s.settleTile t) s
  let s := ((kkeys s.tiles).foldl (fun s t => s.settleBins t) s).flushPorts
  { s with gen := s.gen + 1 }

/-- An event happens. -/
def dueTurn (e : Due) (s : State) : Out1 :=
  match e { s with cur := none } with
  | .next s => .next s.afterEvent
  | o => o

/-- An event of the opcode table, named from outside; an instruction word is none. -/
def eventTurn (i : Instr) (s : State) : Out1 :=
  match encode i with
  | some _ => .next s
  | none => dueTurn (exec i) s

/-- A sub-gang issues: what stands before its instruction, the instruction, and what follows it. -/
def issueTurn (t u : Nat) (s : State) : Out1 :=
  let s := s.beginIssue t u
  match s.issuer with
  | none => .next { s with cur := none }
  | some I =>
    let (kind, n, asked) := s.stageBefore t u
    match front s I with
    | .trapped s => .next (s.endIssue t u)
    | .wait s =>
      match wait s I with
      | .next s => .next { s with cur := none }
      | o => o
    | .run s i =>
      match exec i s with
      | .next s => .next (s.finishIssue t u kind n asked)
      | o => o

/-! ### Time (R12, R14 to R16, R66) -/

/-- Tile-clock cycles in a microsecond at a die's throttle level (R15). -/
def Die.perUsec (D : Die) : Nat := 2400 - 300 * min 4 (bits D.thstat.toNat 2 0)

/-- The microseconds that end while a die's tile clock makes n more cycles (R12, R15). -/
def Die.usecsIn (D : Die) (n : Nat) : Nat := (D.frac + n) / D.perUsec

/-- A counter rises and, in more time than any part runs, stops at its largest value: it never decreases (R14). -/
def countUp (x : Word) (n : Nat) : Word := BitVec.ofNat 64 (min (x.toNat + n) (2 ^ 64 - 1))

/-- n tile cycles pass on a die: DCYC rises by them, DUSEC by the microseconds that end (R12, R15), THRUS too above level 0 (R16). -/
def Die.tick (D : Die) (n : Nat) : Die :=
  let us := D.usecsIn n
  { D with
    dcyc := countUp D.dcyc n
    frac := (D.frac + n) % D.perUsec
    dusec := countUp D.dusec us
    thstat := if bits D.thstat.toNat 2 0 = 0 then D.thstat else setField D.thstat 32 32 (bits D.thstat.toNat 63 32 + us) }

/-- The slices that a tile's gangs hold for the regions of a partition, from the moment their block begins: the
slice-microseconds of `us` (R66). -/
def State.usedBy (s : State) (T : Tile) (k us : Nat) : Nat :=
  us * T.subs.foldl (fun n (_, U) =>
    match ((kget T.gangs U.gang).bind fun G => kget T.blocks G.ctx).bind fun B => if B.begun then kget s.grids B.grid else none with
    | some G => if G.queue = k then n + U.slices.length else n
    | none => n) 0

/-- A delay of a continuation runs down (R359). -/
def Cont.tick (c : Cont) (us : Nat) : Cont :=
  match c.place with
  | .waiting (.delay d) w => { c with place := .waiting (.delay (d - us)) w }
  | _ => c

/-- n tile cycles pass on a die: a frozen tile counts nothing. -/
def State.tickDie (s : State) (d n : Nat) : State :=
  let us := (s.die d).usecsIn n
  let live := s.tiles.filter fun (t, T) => dieOf t == d && T.mode == .run
  let parts := kmap s.parts fun _ P =>
    { P with queues := kmap P.queues fun k q =>
        { q with used := q.used + live.foldl (fun n (t, T) => if P.hasTile t then n + s.usedBy T k us else n) 0 } }
  let tiles := kmap s.tiles fun t T =>
    if dieOf t = d ∧ T.mode = .run then { T with conts := kmap T.conts fun _ c => c.tick us } else T
  { (s.setDie d ((s.die d).tick n)) with parts := parts, tiles := tiles }

/-- A turn in which n tile cycles pass on one die of a released package. -/
def tickTurn (d n : Nat) (s : State) : Out1 :=
  if s.released && decide (d < 4) then .next { s.tickDie d n with gen := s.gen + 1 } else .next s

/-- The least of the given times. -/
def soonest (l : List Nat) : Option Nat := l.foldl (fun m x => match m with | none => some x | some y => some (min x y)) none

/-- Microseconds left of the intervals whose end moves work on: bin timers, delays, and the ages of waiting queues. -/
def State.timers (s : State) : List Nat :=
  (s.tiles.flatMap fun (t, T) =>
    if T.mode = .run then
      (T.bins.filterMap fun (_, b) => match b.st with | .filling d => some (d - s.usec t) | .ready _ => none) ++
      T.conts.filterMap fun (_, c) => match c.place with | .waiting (.delay n) _ => some n | _ => none
    else []) ++
  s.parts.flatMap fun (_, P) =>
    let now := s.leadUsec P
    P.queues.filterMap fun (_, q) =>
      let age := match q.eff with | some e => e.age | none => 0
      if q.st == .waiting && age != 0 && decide (q.level < 6) && decide (q.base < 7) && !q.recs.isEmpty then some (q.since + age - now)
      else none

/-- Microseconds left of the time slices of partitions that have had work. -/
def State.slicesLeft (s : State) : List Nat :=
  s.parts.filterMap fun (_, P) => if P.queues.isEmpty then none else some (P.nextSlice - s.leadUsec P)

/-- How many microseconds pass where nothing else can happen: until the next interval ends, a time slice among them where
work waits for its end. -/
def State.idle (s : State) : Option Nat :=
  let l := s.timers
  let waits := s.parts.any fun (_, P) => P.queues.any fun (k, q) => !q.recs.isEmpty || decide (0 < s.frozenOf P k)
  if l.isEmpty && !waits then none else soonest (l ++ s.slicesLeft)

/-- Where nothing else can happen, time passes on every die until the next interval ends; where none runs, nothing. -/
def idleTurn (s : State) : Out1 :=
  match s.idle with
  | none | some 0 => .next s
  | some n => .next { (List.range 4).foldl (fun s d => s.tickDie d (n * (s.die d).perUsec)) s with gen := s.gen + 1 }

/-! ### The world outside (R40, R122, R124, R129, R148, R221) -/

/-- The host writes bytes (R148): its own memory at once, this package's DRAM by messages, one for each line, that carry its
vector; a write its world bit or a closed granule forbids has no effect (R48, R50). -/
def hostTurn (pa : Nat) (bs : List Byte) (s : State) : Out1 :=
  let ps := (List.range bs.length).map fun k => pa + k
  if ps.any fun a => !isDram a && !isHost a then .fault .noTarget
  else if !s.released then .next (if ps.all isHost then s.putBytes pa bs else s)
  else if ps.any fun a => (security s false a).isSome then .next s
  else
    let s := (cutPieces [] 128 (bs.length / 128 + 2) pa 0 bs.length).foldl (fun s p =>
      let piece := (bs.drop p.2.1).take p.2.2
      let a := pa + p.2.1
      if isHost a then s.deviceWrite 4 a piece else s.send 4 (homeOf a) 256 0 none (s.die 4).vec (.write a piece) none) s
    .next { s with gen := s.gen + 1 }

/-- The host reads bytes (R148): its own memory at once, this package's DRAM by messages, one for each line, that carry its vector;
where its world bit or a closed granule forbids a line, that line is not read (R48, R50). -/
def hostReadTurn (pa n : Nat) (s : State) : Out1 :=
  let ps := (List.range n).map fun k => pa + k
  if ps.any fun a => !isDram a && !isHost a then .fault .noTarget
  else if ps.all isHost then .next { s with hostGot := s.hostGot ++ [.bytes pa (s.bytes pa n)] }
  else if !s.released then .next s
  else
    let s := (cutPieces [] 128 (n / 128 + 2) pa 0 n).foldl (fun s p =>
      let a := pa + p.2.1
      if isHost a then { s with hostGot := s.hostGot ++ [.bytes a (s.bytes a p.2.2)] }
      else if ((List.range p.2.2).any fun k => (security s false (a + k)).isSome) then s
      else s.send 4 (homeOf a) 256 0 none (s.die 4).vec (.read a p.2.2 false) none) s
    .next { s with gen := s.gen + 1 }

/-- One turn of the agenda. -/
def turn (x : Turn) (s : State) : Out1 :=
  match x with
  | .event i => eventTurn i s
  | .issue t u => if s.ready t u then issueTurn t u s else .next s
  | .dropLine t l => let T := s.tile t; .next (s.setTile t { T with l1 := kdel T.l1 l })
  | .dropWord t fa => let T := s.tile t; .next (s.setTile t { T with icache := kdel T.icache fa })
  | .dropTlb t k => let T := s.tile t; .next (s.setTile t { T with tlb := T.tlb.eraseIdx k })
  | .tick d n => tickTurn d n s
  | .hostWrite pa bs => hostTurn pa bs s
  | .hostRead pa n => hostReadTurn pa n s
  | .hostWindow v w off => hostWindowTurn v w off s

/-- The machine's own next turn: an event that is due, else the instruction the sequencers choose, else time. -/
def ownTurn (s : State) : Out1 :=
  match s.nextEvent with
  | some e => dueTurn e s
  | none =>
    match s.pickIssue with
    | some (t, u) => issueTurn t u s
    | none => idleTurn s

/-- One step: the head of the agenda, or the machine's own next turn. -/
def nextTurn (s : State) : Out1 :=
  match s.agenda with
  | x :: rest => turn x { s with agenda := rest }
  | [] => ownTurn s

end Sys2Proof.Machine
end

