-- ==== Sys2Proof/Machine/Placed.lean ====
section
/-!
DEFINITION. A word placed where the machine issues next: in the memory a ready sub-gang fetches from, or, where no sub-gang
is ready, in a block that stands as if a launch had begun it (log 2).
-/
namespace Sys2Proof.Machine

/-- The virtual address of the placed block's entry, and of its page. -/
def placedAt : Nat := 0x10000

/-- The record of the placed block: one gang of one slice, 128 lane registers, one page of scratchpad, a handler. -/
def placedRecord : LRecord :=
  { entry := 0x10000, handler := 0x10100, args := 0, region := 0, compl := 0, edge := 0,
    geom := BitVec.ofNat 64 (1 * 2 ^ 40 + 1 * 2 ^ 30 + 15 * 2 ^ 13), flags := 0 }

/-- The block. -/
def placedBlock : Block :=
  { uid := 1, grid := 1, index := 0, rcd := placedRecord, vf := 1, world := false, part := 0, prio := 0, gangs := 1, slices := 1,
    vregs := 128, feeder := 0, peers := [(0, 0)], pos := 0, spad := [], spadFill := .zero, spadPoison := [], tcs := [], handles := [],
    hist := [], chans := [], pend := [], launches := 0, tctl := 0, reports := [], corrected := 0, skein := none,
    lastSkein := none, begun := true, proxy := none }

/-- The page the block's code lies in: readable, writable, executable, at the same address of this node. -/
def placedPage (node : Nat) : TlbEntry :=
  { vf := 1, va := placedAt, ia := placedAt, size := 65536, out := node * 2 ^ 42 + placedAt, r := true, w := true, x := true }

/-- Tile 0 with the block about to issue. -/
def placedTile (node : Nat) : Tile :=
  { Tile.reset with
    mode := .run, vf := 1, blocks := [(0, placedBlock)],
    gangs := [(2, { ctx := 0, kind := .placed, ix := 0, feeder := true, detached := false, total := 1, retry := .never, bud := 0, rebin := none })],
    subs := [(3, Sub.start 2 0x10000 [(0, Slice.zero 0 0 0 0 1)] 0)], tlb := [placedPage node] }

/-- The partition the block runs in: the first field, one virtual function. -/
def placedPart : Part :=
  { fields := 1, vflo := 1, vfhi := 1, secok := false, spbase := 0x4000000, spsize := 0x4000000, ssbase := 0x8000000,
    sssize := 0x4000000, psroot := 0, psched := pschedReset, pschedNext := none, nextSlice := 2000, queues := [], refused := 0,
    lastSlot := 0, lastErr := 0, sheaves := [], tainted := [], edgesDue := [], retired := [], strands := [], cursors := [], anchors := [],
    skeins := [], inval := none }

/-- The grid of the block, all of it placed. -/
def placedGrid : Grid :=
  { part := 0, queue := 0,
    rcd := { grid := 1, r := placedRecord, origin := .window 1 0, vf := 1, secure := false, sameWorld := none, cap := 0, stamp := 0,
             vec := zeroVec },
    world := false, prio := 0, fdp := 0, placed := 1, ended := 0, unrec := false, withdrawn := false, slotHeld := false }

/-- A released package whose one running block is the placed one. -/
def State.placedOn (s : State) (w : W32) : State :=
  let s := { s with
    released := true, cutOff := false, parts := [(0, placedPart)], dies := (List.range 5).map fun d => (d, Die.reset), boundaries := [],
    ports := [], vfs := [], tiles := [(0, placedTile s.node)], grids := [(1, placedGrid)], fwtab := [], closed := [],
    tfence := [], poison := [], poisonWords := [], wire := [], resps := [], unseen := [], signals := [], outs := [], outbox := [], arrivals := [],
    reduces := [], reduceVia := [], locals := [], agenda := [], cur := none, stamp := 1, nextId := 4 }
  s.putBytes placedAt (wordBytes w)

/-- Where the sub-gang that issues next fetches from, if nothing else comes first: its tile and the address in this node. -/
def State.fetchPlace (s : State) : Option (Nat × Nat) :=
  match s.agenda, s.nextEvent, s.pickIssue with
  | [], none, some (t, u) =>
    match (s.issuerOf t u).map fun I => check s t I.block.vf I.block.world I.sub.pc .fetch 4 with
    | some (.ok (fa, _)) => if fa / 2 ^ 42 = s.node then some (t, fa % 2 ^ 42) else none
    | _ => none
  | _, _, _ => none

/-- A word stands where the next step fetches. -/
def State.placeWord (s : State) (w : W32) : State :=
  match s.fetchPlace with
  | some (t, pa) =>
    let T := s.tile t
    (s.setTile t { T with icache := kdel T.icache (s.node * 2 ^ 42 + pa) }).putBytes pa (wordBytes w)
  | none => s.placedOn w

end Sys2Proof.Machine
end

