-- ==== Sys2Proof/Safety.lean ====
section
/-!
DEFINITION. The terms the statements use: when an instruction executes normally, what a step of one sub-gang leaves alone,
and the spec's instruction tables.
-/
namespace Sys2Proof.Machine

/-! ### An instruction that executes normally (R96, R131, R238) -/

/-- Instruction i has issuer I, no row of R238 applies to its operands, no pending entry owes a register it touches, and
it reads no register that a restore left poisoned. -/
structure Issues (s : State) (i : Instr) (straight : Bool) (us : List Use) (I : Issuer) : Prop where
  issuer : s.issuer = some I
  operands : useFault (s.window I) I.sub.depth straight us = none
  notOwed : I.sub.hazard (touches us) = false
  clean : I.sub.readsBad (s.window I) (isLane i) us = false

/-- The state once the operands have been checked: an instruction that reads a latch draws a seed of free values (log 6). -/
def State.afterOperands (s : State) (us : List Use) : State := if readsLatch us then { s with free := s.free + 1 } else s

/-- The seed such an instruction reads undefined latches under. -/
def State.latchSeed (s : State) (us : List Use) : Nat := if readsLatch us then s.free else 0

/-- What an instruction that executes normally reads its operands from. -/
def State.reads (s : State) (I : Issuer) (us : List Use) : Rd := ⟨s.window I, s.latchSeed us, I.sub⟩

/-! ### What a step of one sub-gang leaves alone -/

/-- A slice without its lanes. -/
def Slice.bare (S : Slice) : Slice := { S with lanes := [] }

/-- From s to t only the lanes of the issuer change, lane j by f j, and the issuer retires: the rest of the state, its other
slices' registers, its masks, logs and trap registers are as before. -/
def LaneStep (s : State) (I : Issuer) (k : RunKind) (f : Nat → Lane → Lane) (t : State) : Prop :=
  ∃ U : Sub, t = s.setSub I.t I.u U ∧ { U with slices := I.sub.slices } = I.sub.retire k ∧
    (∀ j, j < 32 → U.lane j = (I.sub.lane j).map (f j)) ∧
    ∀ n, (kget U.slices n).map Slice.bare = (kget I.sub.slices n).map Slice.bare

/-- From s to t only the slices of the issuer change, each by f, and the issuer retires. -/
def SliceStep (s : State) (I : Issuer) (k : RunKind) (f : Slice → Slice) (t : State) : Prop :=
  t = s.setSub I.t I.u { I.sub.retire k with slices := I.sub.slices.map fun (n, S) => (n, f S) }

/-! ### Lane instructions (R229, R230, R261 to R283) -/

/-- Registers r, r + 1, … of a lane take words. -/
def Lane.putRegs (L : Lane) (r : Nat) (ws : List W32) : Lane := ws.zipIdx.foldl (fun L (x, k) => L.setReg (r + k) x) L

/-- A lane after an instruction of the run has given it a result: the destination registers unless the write is suppressed,
and the result at the head of the latch ring (R229, R230). -/
def Lane.took (L : Lane) (W : Win) (depth : Nat) (d : LDst) (ws : List W32) : Lane :=
  let L := if d.nw then L else L.putRegs (W.base + d.r.toNat) ws
  { L with ring := if depth = 0 then [ws.headD 0] else (ws.headD 0 :: L.ring).take 4 }

/-- A lane to which an instruction gives no result: as a run begins it holds none of the run's (log 11). -/
def Lane.missed (L : Lane) (depth : Nat) : Lane := if depth = 0 then { L with ring := [] } else L

/-- A straight lane instruction that writes lane registers: its operands, its destination, and the words each active lane
takes. -/
structure LaneForm where
  uses : List Use
  dst : LDst
  val : Rd → Nat → List W32

/-- d ← f a b, of integers. -/
def LaneForm.int2 (d : LDst) (a b : Opnd) (f : W32 → W32 → W32) : LaneForm :=
  ⟨[.src a, .src b, .dst d 1 false], d, fun R j => [f (R.int a j) (R.int b j)]⟩
/-- d ← f a, of an integer. -/
def LaneForm.int1 (d : LDst) (a : Opnd) (f : W32 → W32) : LaneForm :=
  ⟨[.src a, .dst d 1 false], d, fun R j => [f (R.int a j)]⟩
/-- d ← f a b, of FP32 values. -/
def LaneForm.flt2 (d : LDst) (a b : Opnd) (f : W32 → W32 → W32) : LaneForm :=
  ⟨[.src a, .src b, .dst d 1 false], d, fun R j => [f (R.flt a j) (R.flt b j)]⟩
/-- d ← f a, of an FP32 value. -/
def LaneForm.flt1 (d : LDst) (a : Opnd) (f : W32 → W32) : LaneForm :=
  ⟨[.src a, .dst d 1 false], d, fun R j => [f (R.flt a j)]⟩
/-- d ← f a b of packed halves in named registers. -/
def LaneForm.packed2 (d a b : BitVec 7) (f : W32 → W32 → W32) : LaneForm :=
  ⟨[.vreg a.toNat 1, .vreg b.toNat 1, .dst ⟨false, d⟩ 1 false], ⟨false, d⟩, fun R j => [f (R.v j a.toNat) (R.v j b.toNat)]⟩

/-- The count of a shift, b[4:0]. -/
def low5 (b : W32) : Nat := b.toNat % 32

/-- The lane integer instructions (R261 to R264). -/
def laneIntForm (i : Instr) : Option LaneForm :=
  match i with
  | .addLane d a b => some (.int2 d a b fun x y => BitVec.ofNat 32 (x.toNat + y.toNat))
  | .subLane d a b => some (.int2 d a b fun x y => BitVec.ofInt 32 (x.toNat - y.toNat))
  | .mulLane d a b => some (.int2 d a b fun x y => BitVec.ofNat 32 (x.toNat * y.toNat))
  | .mulhLane d a b => some (.int2 d a b fun x y => BitVec.ofInt 32 (x.toInt * y.toInt / 2 ^ 32))
  | .mulhuLane d a b => some (.int2 d a b fun x y => BitVec.ofNat 32 (x.toNat * y.toNat / 2 ^ 32))
  | .mad d a b => some ⟨[.src a, .src b, .dst d 1 true], d, fun R j =>
      [BitVec.ofNat 32 ((R.int a j).toNat * (R.int b j).toNat + (R.v j d.r.toNat).toNat)]⟩
  | .andLane d a b => some (.int2 d a b fun x y => x &&& y)
  | .orLane d a b => some (.int2 d a b fun x y => x ||| y)
  | .xorLane d a b => some (.int2 d a b fun x y => x ^^^ y)
  | .andnLane d a b => some (.int2 d a b fun x y => x &&& ~~~ y)
  | .shlLane d a b => some (.int2 d a b fun x y => BitVec.ofNat 32 (x.toNat * 2 ^ low5 y))
  | .shrLane d a b => some (.int2 d a b fun x y => BitVec.ofNat 32 (x.toNat / 2 ^ low5 y))
  | .sarLane d a b => some (.int2 d a b fun x y => BitVec.ofInt 32 (x.toInt / 2 ^ low5 y))
  | .rolLane d a b => some (.int2 d a b fun x y => (x <<< low5 y) ||| (x >>> (32 - low5 y)))
  | .minLane d a b => some (.int2 d a b fun x y => if x.toInt ≤ y.toInt then x else y)
  | .maxLane d a b => some (.int2 d a b fun x y => if x.toInt ≤ y.toInt then y else x)
  | .minuLane d a b => some (.int2 d a b fun x y => if x.toNat ≤ y.toNat then x else y)
  | .maxuLane d a b => some (.int2 d a b fun x y => if x.toNat ≤ y.toNat then y else x)
  | .clzLane d a => some (.int1 d a clzOf)
  | .popcLane d a => some (.int1 d a fun x => BitVec.ofNat 32 (popcount x))
  | .brev d a => some (.int1 d a reverse)
  | .bfeLane d a b => some (.int2 d a b bfe32)
  | .bfiLane d a b => some ⟨[.src a, .src b, .dst d 1 true], d, fun R j => [bfi32 (R.int a j) (R.int b j) (R.v j d.r.toNat)]⟩
  | .selLane d a b p => some ⟨[.vreg a.toNat 1, .vreg b.toNat 1, .dst ⟨false, d⟩ 1 false, .prd p], ⟨false, d⟩,
      fun R j => [if R.p j p then R.v j a.toNat else R.v j b.toNat]⟩
  | .moviLane d imm => some ⟨[.dst d 1 false], d, fun _ _ => [BitVec.ofInt 32 imm.toInt]⟩
  | .movhiLane d imm => some ⟨[.dst d 1 true], d, fun R j =>
      [BitVec.ofNat 32 (imm.toNat * 2 ^ 16 + (R.v j d.r.toNat).toNat % 2 ^ 16)]⟩
  | .addiLane d imm => some ⟨[.dst d 1 true], d, fun R j => [BitVec.ofInt 32 ((R.v j d.r.toNat).toNat + imm.toInt)]⟩
  | _ => none

/-- The lane floating-point instructions (R268 to R272). -/
def laneFloatForm (i : Instr) : Option LaneForm :=
  match i with
  | .fadd d a b => some (.flt2 d a b fadd)
  | .fsub d a b => some (.flt2 d a b fsub)
  | .fmul d a b => some (.flt2 d a b fmul)
  | .fma d a b => some ⟨[.src a, .src b, .dst d 1 true], d, fun R j => [fma (R.flt a j) (R.flt b j) (R.v j d.r.toNat)]⟩
  | .fmin d a b => some (.flt2 d a b fmin)
  | .fmax d a b => some (.flt2 d a b fmax)
  | .fscl d a b => some ⟨[.src a, .src b, .dst d 1 false], d, fun R j => [fscl (R.flt a j) (R.int b j)]⟩
  | .frnd d a rm => some (.flt1 d a (frnd rm))
  | .cvt d a rm src dst => some ⟨[.src a, .dst d 1 false], d, fun R j =>
      [cvt dst src rm (if src.isFloat then R.fmt src.fmt a j else R.int a j)]⟩
  | .rcp d a => some (.flt1 d a frcp)
  | .rsq d a => some (.flt1 d a frsq)
  | .sqrt d a => some (.flt1 d a fsqrt)
  | .exp2 d a => some (.flt1 d a fexp2)
  | .log2 d a => some (.flt1 d a flog2)
  | .sin d a => some (.flt1 d a fsin)
  | .cos d a => some (.flt1 d a fcos)
  | .tanh d a => some (.flt1 d a ftanh)
  | .padd d a b bf => some (.packed2 d a b (padd bf))
  | .pmul d a b bf => some (.packed2 d a b (pmul bf))
  | .pmax d a b bf => some (.packed2 d a b (pmax bf))
  | .pfma d a b bf => some ⟨[.vreg a.toNat 1, .vreg b.toNat 1, .vreg d.toNat 1], ⟨false, d⟩,
      fun R j => [pfma bf (R.v j a.toNat) (R.v j b.toNat) (R.v j d.toNat)]⟩
  | _ => none

/-- a of lane k where k lies in the span of the issuer, else 0 (R273). -/
def Rd.across (R : Rd) (o : Opnd) (k : Nat) : W32 := if k ∈ R.U.span then R.int o k else 0

/-- The lane that LPUSH takes lane k's new value from: its highest-numbered sender (R275). -/
def Rd.sender (R : Rd) (b : Opnd) (k : Nat) : Option Nat := (R.U.actives.filter fun i => low5 (R.int b i) == k).getLast?

/-- The left fold of an operation of integers over the active lanes that satisfy p, from the operation's identity. -/
def Rd.fold (R : Rd) (a : Opnd) (op : ScanOp) (p : Nat → Bool) : W32 :=
  (R.U.actives.filter p).foldl (fun x k => op.apply x (R.int a k)) op.ident

/-- The cross-lane instructions that write lane registers, packing and random numbers (R273 to R283). -/
def laneCrossForm (i : Instr) : Option LaneForm :=
  match i with
  | .shuf d a b => some ⟨[.src a, .src b, .dst d 1 false], d, fun R j => [R.across a (low5 (R.int b j))]⟩
  | .bcast d a b => some ⟨[.src a, .src b, .dst d 1 false], d, fun R j =>
      [R.across a (low5 (R.int b (R.U.lowActive.getD j)))]⟩
  | .lpush d a b => some ⟨[.src a, .src b, .dst d 1 true], d, fun R j =>
      [match R.sender b j with | some i => R.int a i | none => R.v j d.r.toNat]⟩
  | .lscan d a ex op => some ⟨[.src a, .dst d 1 false], d, fun R j =>
      [R.fold a op fun k => if ex then decide (k < j) else decide (k ≤ j)]⟩
  | .fscan d a ex op => some ⟨[.src a, .dst d 1 false], d, fun R j =>
      [scanAt R (fun k => canonF (R.flt a k)) op.apply op.ident ex j]⟩
  | .lred d a op => some ⟨[.src a, .dst d 1 false], d, fun R _ => [reduceAll R a op]⟩
  | .prefpop d a inc => some ⟨[.wide a, .dst d 1 false], d, fun R j =>
      [BitVec.ofNat 32 (((R.U.actives.filter fun k => if inc then decide (k ≤ j) else decide (k < j)).map fun k =>
        popcount (R.wide a k)).sum)]⟩
  | .dxpack d a half fmt => some ⟨[.src a, .dst d 1 false], d, fun R j => [imageShare (dxImage fmt (packInputs R a)) half j]⟩
  | .dxexp d a fmt => some ⟨[.src a, .dst d 1 false], d, fun R _ => [(dxPack fmt (packInputs R a)).1.setWidth 32]⟩
  | .dxunpk d a half fmt => some ⟨[.src a, .dst d 1 false], d, fun R j =>
      [fenc ((dxUnpack fmt ((gatherImage R a half).take (dxBytes fmt))).getD j .nan)]⟩
  | .rng d a b => some ⟨[.wide a, .uni b, .dst d 4 false], d, fun R j => rngWords (R.wide a j) (R.wide b j)⟩
  | _ => none

/-- A straight lane instruction that writes a predicate: its operands, the predicate, and what each active lane sets it to. -/
structure PredForm where
  uses : List Use
  dst : BitVec 3
  val : Rd → Nat → Bool

/-- How a condition combines into the old value of its predicate (R265). -/
def combine (m : Comb) (old r : Bool) : Bool :=
  match m with
  | .set => r
  | .and => old && r
  | .or => old || r

/-- The lane instructions that write a predicate (R265 to R267, R278). -/
def lanePredForm (i : Instr) : Option PredForm :=
  match i with
  | .cmpLane pd m c a b => some ⟨[.src a, .src b], pd, fun R j =>
      let x := R.int a j
      let y := R.int b j
      combine m (R.p j pd) (match c with
        | .eq => decide (x = y) | .ne => decide (x ≠ y)
        | .lt => decide (x.toInt < y.toInt) | .le => decide (x.toInt ≤ y.toInt)
        | .blo => decide (x.toNat < y.toNat) | .bls => decide (x.toNat ≤ y.toNat))⟩
  | .fcmp pd m c a b => some ⟨[.src a, .src b], pd, fun R j =>
      let x := fval (R.flt a j)
      let y := fval (R.flt b j)
      let nan := x.isNan || y.isNan
      combine m (R.p j pd) (match c with
        | .eq => FV.eq x y | .ne => nan || !FV.eq x y
        | .lt => FV.lt x y | .le => FV.lt x y || FV.eq x y
        | .gt => FV.lt y x | .ge => FV.lt y x || FV.eq x y
        | .un => nan | .ord => !nan)⟩
  | .fclass pd m a b => some ⟨[.src a, .src b], pd, fun R j =>
      combine m (R.p j pd) ((R.int b j).getLsbD (fclass (R.flt a j)))⟩
  | .plog pd tt px py => some ⟨[.prd px, .prd py], pd, fun R j =>
      tt.getLsbD (2 * (if R.p j px then 1 else 0) + (if R.p j py then 1 else 0))⟩
  | .vote pd m px => some ⟨[.prd px], pd, fun R _ =>
      let ps := R.U.actives.map fun k => R.p k px
      match m with
      | .any => decide (true ∈ ps)
      | .all => decide (false ∉ ps)
      | .uni => decide (¬ (true ∈ ps ∧ false ∈ ps))⟩
  | _ => none

/-- A carry instruction: its registers and predicate, and the words and the carry of each active lane. -/
structure CarryForm where
  uses : List Use
  dst : BitVec 7
  p : BitVec 3
  val : Rd → Nat → List W32 × Bool

/-- The value of a Bool as a number. -/
def bit (b : Bool) : Nat := if b then 1 else 0

/-- The carry instructions (R263). -/
def laneCarryForm (i : Instr) : Option CarryForm :=
  match i with
  | .addc d a b p => some ⟨[.vreg a.toNat 1, .vreg b.toNat 1, .dst (dstOf d) 1 false, .prd p], d, p, fun R j =>
      let t := (R.v j a.toNat).toNat + (R.v j b.toNat).toNat + bit (R.p j p)
      ([BitVec.ofNat 32 t], decide (2 ^ 32 ≤ t))⟩
  | .subb d a b p => some ⟨[.vreg a.toNat 1, .vreg b.toNat 1, .dst (dstOf d) 1 false, .prd p], d, p, fun R j =>
      let a := (R.v j a.toNat).toNat
      let b := (R.v j b.toNat).toNat + bit (R.p j p)
      ([BitVec.ofInt 32 (a - b)], decide (a < b))⟩
  | .madc d a b p => some ⟨[.vreg a.toNat 1, .vreg b.toNat 1, .vreg d.toNat 2, .prd p], d, p, fun R j =>
      let t := (R.v j a.toNat).toNat * (R.v j b.toNat).toNat +
        ((R.v j (d.toNat + 1)).toNat * 2 ^ 32 + (R.v j d.toNat).toNat) + bit (R.p j p)
      ([BitVec.ofNat 32 t, BitVec.ofNat 32 (t / 2 ^ 32)], decide (2 ^ 64 ≤ t))⟩
  | _ => none

/-! ### Uniform arithmetic (R243 to R248) -/

/-- A uniform instruction that computes one value: its operands, its destination, and the value. -/
structure UniForm where
  uses : List Use
  dst : UDst
  val : (Opnd → Word) → Sub → Word

/-- d ← f a b. -/
def UniForm.two (d : UDst) (a b : Opnd) (f : Word → Word → Word) : UniForm :=
  ⟨[.src a, .src b, .udst d 1 false], d, fun rd _ => f (rd a) (rd b)⟩

/-- The count of a shift, b[5:0]. -/
def low6 (b : Word) : Nat := b.toNat % 64

/-- 1 when a condition holds and 0 when it does not. -/
def flag (p : Prop) [Decidable p] : Word := if p then 1 else 0

/-- The uniform arithmetic instructions (R244 to R248). -/
def uniForm (i : Instr) : Option UniForm :=
  match i with
  | .addUniform d a b => some (.two d a b fun x y => BitVec.ofNat 64 (x.toNat + y.toNat))
  | .subUniform d a b => some (.two d a b fun x y => BitVec.ofInt 64 (x.toNat - y.toNat))
  | .mulUniform d a b => some (.two d a b fun x y => BitVec.ofNat 64 (x.toNat * y.toNat))
  | .mulhUniform d a b => some (.two d a b fun x y => BitVec.ofInt 64 (x.toInt * y.toInt / 2 ^ 64))
  | .mulhuUniform d a b => some (.two d a b fun x y => BitVec.ofNat 64 (x.toNat * y.toNat / 2 ^ 64))
  | .andUniform d a b => some (.two d a b fun x y => x &&& y)
  | .orUniform d a b => some (.two d a b fun x y => x ||| y)
  | .xorUniform d a b => some (.two d a b fun x y => x ^^^ y)
  | .andnUniform d a b => some (.two d a b fun x y => x &&& ~~~ y)
  | .shlUniform d a b => some (.two d a b fun x y => BitVec.ofNat 64 (x.toNat * 2 ^ low6 y))
  | .shrUniform d a b => some (.two d a b fun x y => BitVec.ofNat 64 (x.toNat / 2 ^ low6 y))
  | .sarUniform d a b => some (.two d a b fun x y => BitVec.ofInt 64 (x.toInt / 2 ^ low6 y))
  | .rolUniform d a b => some (.two d a b fun x y => (x <<< low6 y) ||| (x >>> (64 - low6 y)))
  | .minUniform d a b => some (.two d a b fun x y => if x.toInt ≤ y.toInt then x else y)
  | .maxUniform d a b => some (.two d a b fun x y => if x.toInt ≤ y.toInt then y else x)
  | .minuUniform d a b => some (.two d a b fun x y => if x.toNat ≤ y.toNat then x else y)
  | .maxuUniform d a b => some (.two d a b fun x y => if x.toNat ≤ y.toNat then y else x)
  | .clzUniform d a => some ⟨[.src a, .udst d 1 false], d, fun rd _ => clzOf (rd a)⟩
  | .popcUniform d a => some ⟨[.src a, .udst d 1 false], d, fun rd _ => BitVec.ofNat 64 (popcount (rd a))⟩
  | .bfeUniform d a b => some (.two d a b bfe64)
  | .bfiUniform d a b => some ⟨[.src a, .src b, .udst d 1 true], d, fun rd U => bfi64 (rd a) (rd b) (U.sreg d.r.toNat)⟩
  | .cmpEqUniform d a b => some (.two d a b fun x y => flag (x = y))
  | .cmpNeUniform d a b => some (.two d a b fun x y => flag (x ≠ y))
  | .cmpLtUniform d a b => some (.two d a b fun x y => flag (x.toInt < y.toInt))
  | .cmpLeUniform d a b => some (.two d a b fun x y => flag (x.toInt ≤ y.toInt))
  | .cmpBloUniform d a b => some (.two d a b fun x y => flag (x.toNat < y.toNat))
  | .cmpBlsUniform d a b => some (.two d a b fun x y => flag (x.toNat ≤ y.toNat))
  | .selUniform d a b => some ⟨[.src a, .src b, .udst d 1 true], d, fun rd U => if U.sreg d.r.toNat ≠ 0 then rd a else rd b⟩
  | .moviUniform r imm => some ⟨[.out r.toNat 1], ⟨false, r⟩, fun _ _ => BitVec.ofInt 64 imm.toInt⟩
  | .movhiUniform r imm => some ⟨[.sreg r.toNat 1], ⟨false, r⟩, fun _ U =>
      BitVec.ofNat 64 ((U.sreg r.toNat).toNat * 2 ^ 19 + imm.toNat)⟩
  | .addiUniform r imm => some ⟨[.sreg r.toNat 1], ⟨false, r⟩, fun _ U => BitVec.ofInt 64 ((U.sreg r.toNat).toNat + imm.toInt)⟩
  | _ => none

/-- A slice whose uniform destination has been written, unless the write is suppressed; what is written is not poisoned (R96, R228). -/
def Slice.putDst (S : Slice) (d : UDst) (x : Word) : Slice :=
  if d.nw then S else { S with s := kset S.s d.r.toNat x, bad := S.bad.filter (· != d.r.toNat) }

/-! ### Branches (R249 to R253) -/

/-- A branch with an outcome for each slice: its operands, what it writes in every slice, its target, and the slices that take
it. The value it takes its outcome from is read before the write. -/
structure BranchForm where
  uses : List Use
  write : Sub → Slice → Slice
  target : Sub → Word
  taken : Win → Sub → Nat → Slice → Bool

/-- The address of the word at an offset (R224). -/
def target {n : Nat} (off : BitVec n) (U : Sub) : Word := BitVec.ofInt 64 (U.pc.toNat + 4 * off.toInt)

/-- The active lanes of a slice that hold a predicate value (R251). -/
def Slice.holds (S : Slice) (p : BitVec 3) (x : Bool) : Bool :=
  (List.range S.lanes.length).any fun j => S.mask.getLsbD j && (S.lanes[j]?).any fun L => L.pred p.toNat == x

/-- The branches (R250 to R253). -/
def branchForm (i : Instr) : Option BranchForm :=
  match i with
  | .br off => some ⟨[], fun _ S => S, target off, fun _ _ _ _ => true⟩
  | .brz c off => some ⟨[.src c], fun _ S => S, target off, fun W U n S => decide (sliceVal W U c n S = 0)⟩
  | .brnz c off => some ⟨[.src c], fun _ S => S, target off, fun W U n S => decide (sliceVal W U c n S ≠ 0)⟩
  | .brp m p off => some ⟨[.prd p], fun _ S => S, target off, fun _ _ _ S =>
      match m with
      | .any => S.holds p true
      | .all => !S.holds p false
      | .none => !S.holds p true
      | .nall => S.holds p false⟩
  | .loop (.s r) off => some ⟨[.uni (.s r)], fun U S => S.putDst ⟨false, r⟩ (U.sreg r.toNat - 1), target off, fun _ U _ _ =>
      decide (U.sreg r.toNat ≠ 1)⟩
  | .call off => some ⟨[.sreg 31 1], fun U S => S.putDst ⟨false, 31⟩ (U.pc + 4), target off, fun _ _ _ _ => true⟩
  | .ret => some ⟨[.sreg 31 1], fun _ S => S, fun U => U.sreg 31, fun _ _ _ _ => true⟩
  | _ => none

/-- A sub-gang that has branched to an address with some slices: its run depth is 0 (R230, R249). -/
def Sub.goes (U : Sub) (pc : Word) (slices : KMap Slice) : Sub := { U.retire .other with pc := pc, slices := slices }

/-! ### Execution masks (R257, R258) -/

/-- A mask instruction: the predicate it reads, the slices at which it traps, and what it does to each slice. -/
structure MaskForm where
  uses : List Use
  bad : Slice → Bool
  code : Byte
  act : Slice → Slice

/-- top: the newest entry of the mask stack, or the live set when the stack is empty (R257). -/
def Slice.topMask (S : Slice) : BitVec 4 :=
  match S.stack with
  | [] => S.live
  | m :: _ => m

/-- The mask instructions (R258). -/
def maskForm (i : Instr) : Option MaskForm :=
  match i with
  | .mpush inv p => some ⟨[.prd p], fun S => decide (16 ≤ S.stack.length), 1, fun S =>
      { S with stack := S.mask :: S.stack, mask := S.mask &&& S.predMask p inv }⟩
  | .mpop => some ⟨[], fun S => decide (S.stack = []), 2, fun S => { S with mask := S.topMask, stack := S.stack.drop 1 }⟩
  | .msetp .and inv p => some ⟨[.prd p], fun _ => false, 0, fun S => { S with mask := S.mask &&& S.predMask p inv }⟩
  | .msetp .ortop inv p => some ⟨[.prd p], fun _ => false, 0, fun S =>
      { S with mask := S.mask ||| (S.predMask p inv &&& S.topMask) }⟩
  | .msetp .settop inv p => some ⟨[.prd p], fun _ => false, 0, fun S => { S with mask := S.predMask p inv &&& S.topMask }⟩
  | .melse => some ⟨[], fun S => decide (S.stack = []), 2, fun S => { S with mask := S.topMask &&& ~~~ S.mask }⟩
  | _ => none

/-! ### Loads, stores and atomics (R285 to R293) -/

/-- A load, store or atomic: its operands, whether it addresses a scratchpad, its kind, the address and data of each acting
lane (of none for a uniform instruction), its destination register, and the words a performed access gives it. -/
structure MemForm where
  uses : List Use
  spad : Bool
  kind : MemKind
  lanes : Win → Sub → List (Option Nat × Word × BitVec 128)
  dst : Option Nat
  words : BitVec 128 → List W32
  sregs : BitVec 128 → List Word

/-- The words a lane load of a type gives (R232, R286). -/
def laneWords (ty : Ty) (x : BitVec 128) : List W32 :=
  match ty with
  | .b => [BitVec.ofNat 32 (x.toNat % 2 ^ 8)]
  | .bs => [BitVec.ofInt 32 (x.setWidth 8).toInt]
  | .h => [BitVec.ofNat 32 (x.toNat % 2 ^ 16)]
  | .hs => [BitVec.ofInt 32 (x.setWidth 16).toInt]
  | .w => [BitVec.ofNat 32 x.toNat]
  | .d => [BitVec.ofNat 32 x.toNat, BitVec.ofNat 32 (x.toNat / 2 ^ 32)]
  | .q => [BitVec.ofNat 32 x.toNat, BitVec.ofNat 32 (x.toNat / 2 ^ 32), BitVec.ofNat 32 (x.toNat / 2 ^ 64),
      BitVec.ofNat 32 (x.toNat / 2 ^ 96)]

/-- The values a uniform load of a type gives (R232, R287). -/
def uniWords (ty : Ty) (x : BitVec 128) : List Word :=
  match ty with
  | .b => [BitVec.ofNat 64 (x.toNat % 2 ^ 8)]
  | .bs => [BitVec.ofInt 64 (x.setWidth 8).toInt]
  | .h => [BitVec.ofNat 64 (x.toNat % 2 ^ 16)]
  | .hs => [BitVec.ofInt 64 (x.setWidth 16).toInt]
  | .w => [BitVec.ofNat 64 (x.toNat % 2 ^ 32)]
  | .d => [BitVec.ofNat 64 x.toNat]
  | .q => [BitVec.ofNat 64 x.toNat, BitVec.ofNat 64 (x.toNat / 2 ^ 64)]

/-- The destination of a lane load, unless its write is suppressed. -/
def lreg (d : LDst) : Option Nat := if d.nw then none else some d.r.toNat
/-- The destination of a uniform load or atomic, unless its write is suppressed. -/
def ureg (d : UDst) : Option Nat := if d.nw then none else some d.r.toNat

/-- A lane load. -/
def MemForm.load (spad : Bool) (use : Use) (addr : Win → Sub → Nat → Word) (d : LDst) (ty : Ty) (o : MOrd) : MemForm :=
  ⟨[use, .dst d ty.regs false], spad, .load ty.bytes o, fun W U => perLane U (addr W U) fun _ => 0, lreg d, laneWords ty, fun _ => []⟩
/-- A lane store. -/
def MemForm.store (spad : Bool) (use : Use) (addr : Win → Sub → Nat → Word) (data : Opnd) (ty : Ty) : MemForm :=
  ⟨[storeUse data ty, use], spad, .store ty.bytes, fun W U => perLane U (addr W U) (storeData W U data ty), none, fun _ => [],
    fun _ => []⟩
/-- A lane atomic of n data registers. -/
def MemForm.atomic (op n : Nat) (d : BitVec 7) (a : LaAddr) (v : BitVec 7) : MemForm :=
  ⟨[laUse a, .vreg v.toNat n, .dst (dstOf d) 1 false], (match a with | .glob _ => false | .spad _ => true), .atomic op 32,
    fun W U => perLane U (laAddrOf W U a) fun j =>
      BitVec.ofNat 128 ((vregOf W U j v.toNat).toNat + (if n = 2 then (vregOf W U j (v.toNat + 1)).toNat * 2 ^ 64 else 0)),
    some d.toNat, fun x => [BitVec.ofNat 32 x.toNat], fun _ => []⟩
/-- A uniform atomic of n data registers. -/
def MemForm.uatomic (op n : Nat) (d : UDst) (addr : BitVec 5) (ty : Ty2) : MemForm :=
  ⟨[.udst d n true, .sreg addr.toNat 1], false, .atomic op (8 * ty.bytes),
    fun _ U => [(none, U.sreg addr.toNat,
      BitVec.ofNat 128 ((U.sreg d.r.toNat).toNat + (if n = 2 then (U.sreg (d.r.toNat + 1)).toNat * 2 ^ 64 else 0)))],
    ureg d, fun _ => [], fun x => [match ty with | .w => BitVec.ofNat 64 (x.toNat % 2 ^ 32) | .d => BitVec.ofNat 64 x.toNat]⟩

/-- The loads, stores and atomics (R285 to R292). -/
def memForm (i : Instr) : Option MemForm :=
  match i with
  | .ldLane d a ty o => some (.load false (.vreg (2 * a.toNat) 2) (fun W U => lanePair W U a) d ty o)
  | .lds d a ty o => some (.load true (.vreg a.toNat 1) (fun W U => laneSpad W U a.toNat) d ty o)
  | .stLane x a ty _ => some (.store false (.vreg (2 * a.toNat) 2) (fun W U => lanePair W U a) x ty)
  | .sts x a ty _ => some (.store true (.vreg a.toNat 1) (fun W U => laneSpad W U a.toNat) x ty)
  | .ldUniform d a ty o => some ⟨[.sreg a.toNat 1, .udst d (if ty = .q then 2 else 1) false], false, .load ty.bytes o,
      fun _ U => [(none, U.sreg a.toNat, 0)], ureg d, fun _ => [], uniWords ty⟩
  | .stUniform x a ty _ => some ⟨[storeUniUse x ty, .sreg a.toNat 1], false, .store ty.bytes,
      fun W U => [(none, U.sreg a.toNat, storeUniData W U x ty)], none, fun _ => [], fun _ => []⟩
  | .aaddLane d a v _ => some (.atomic 0 1 d a v)
  | .afadd d a v _ => some (.atomic 1 1 d a v)
  | .amin d a v _ => some (.atomic 2 1 d a v)
  | .amaxLane d a v _ => some (.atomic 3 1 d a v)
  | .aminu d a v _ => some (.atomic 4 1 d a v)
  | .amaxu d a v _ => some (.atomic 5 1 d a v)
  | .aand d a v _ => some (.atomic 6 1 d a v)
  | .aor d a v _ => some (.atomic 7 1 d a v)
  | .axor d a v _ => some (.atomic 8 1 d a v)
  | .axchgLane d a v _ => some (.atomic 9 1 d a v)
  | .acasLane d a v _ => some (.atomic 10 2 d a v)
  | .aaddUniform d a ty _ => some (.uatomic 0 1 d a ty)
  | .amaxUniform d a ty _ => some (.uatomic 3 1 d a ty)
  | .axchgUniform d a ty _ => some (.uatomic 9 1 d a ty)
  | .acasUniform d a ty _ => some (.uatomic 10 2 d a ty)
  | _ => none

/-- The operands of an instruction in the order its fields name them, and whether it is straight (R230, R238). -/
def usesOf (i : Instr) : Option (List Use × Bool) :=
  (match i with | .loop c _ => some ([.uni c], false) | _ => none) <|>
  ((laneIntForm i).map fun F => (F.uses, true)) <|> ((laneFloatForm i).map fun F => (F.uses, true)) <|>
  ((laneCrossForm i).map fun F => (F.uses, true)) <|> ((lanePredForm i).map fun F => (.prd F.dst :: F.uses, true)) <|>
  ((laneCarryForm i).map fun F => (F.uses, true)) <|> ((uniForm i).map fun F => (F.uses, true)) <|>
  ((branchForm i).map fun F => (F.uses, false)) <|> ((maskForm i).map fun F => (F.uses, true)) <|>
  ((memForm i).map fun F => (F.uses, false))

/-- The accesses an issuer makes. -/
def MemForm.accesses (F : MemForm) (s : State) (I : Issuer) : List Access :=
  (F.lanes (s.window I) I.sub).map fun (l, a, x) => ⟨l, a, x, 0, false, .pending⟩

/-- A gang that is not held to a retry: it keeps no writes back (R133). -/
def Gang.free (G : Gang) : Prop := G.retry.holding = false ∧ G.retry.held = [] ∧ G.retry.late = none ∧ G.retry.share = false

/-- Nothing an access waits for (R91, R131, R137, R142, R145, R149): no full log, no acquire before it that is still pending,
for a release no older access, no older access of its lane to its bytes, and room on its path. -/
structure Goes (s : State) (i : Instr) (F : MemForm) (I : Issuer) : Prop where
  room : I.sub.logFull (!isLane i) = false
  acquired : I.sub.acquirePending = false
  released : ∀ sc, releases i = some sc → releaseWaits s.node I sc = false
  apart : ∀ a ∈ F.accesses s I, I.sub.overlapsPending F.spad F.kind.size a = false
  path : pathWaits s I F.spad F.kind (F.accesses s I) = false

/-- The state and the accesses once the first n accesses of an instruction have been made. -/
def MemForm.made (F : MemForm) (s : State) (I : Issuer) (n : Nat) : State × List Access :=
  issueAll { s with nextId := s.nextId + 1 } I s.nextId F.spad F.kind ((F.accesses s I).take n)

/-- A slice after a performed access of its own: the words it gives, in the lane's registers or the slice's. -/
def MemForm.put (F : MemForm) (W : Win) (S : Slice) (a : Access) : Slice :=
  match F.dst, a.lane with
  | some r, some j => { S with lanes := S.lanes.modify (j % 4) fun L => L.putRegs (W.base + r) (F.words a.data) }
  | some r, none => (F.sregs a.data).zipIdx.foldl (fun S (x, k) => S.setSreg (r + k) x) S
  | none, _ => S

/-- The accesses of slice n: its lanes', or the one of a uniform instruction. -/
def ofSlice (n : Nat) (as : List Access) : List Access := as.filter fun a => match a.lane with | some j => j / 4 == n | none => true

/-- The first byte of memory of this node that an access stores to, its checks made in state s. -/
def MemForm.storesAt (F : MemForm) (s : State) (I : Issuer) (a : Access) : Option Nat :=
  if F.spad then none
  else match F.kind with
    | .load _ _ => none
    | k => match check s I.t I.block.vf I.block.world a.addr k.need k.size with
      | .ok (fa, _) => if fa / 2 ^ 42 = s.node then some (fa % 2 ^ 42) else none
      | .error _ => none

/-- An access of an issuer whose checks pass with fabric address fa under translation e, at a home on the issuer's own die,
and whose tile carries no vector (R123, R144, R146). -/
structure Near (s : State) (I : Issuer) (k : MemKind) (a : Access) (fa : Nat) (e : TlbEntry) : Prop where
  checked : check s I.t I.block.vf I.block.world a.addr k.need k.size = .ok (fa, e)
  node : fa / 2 ^ 42 = s.node
  home : homeOf (fa % 2 ^ 42) = dieOf I.t
  dram : fa % 2 ^ 42 < 2 ^ 40
  carry : (s.tile I.t).carry = none

/-- The gang of an issuer keeps no writes back (R133). -/
def noneHeld (s : State) (I : Issuer) : Prop := ∀ G, kget (s.tile I.t).gangs I.sub.gang = some G → G.free

/-- The writes the gang of an issuer keeps back, oldest first (R133). -/
def heldOf (s : State) (I : Issuer) : List Held :=
  match kget (s.tile I.t).gangs I.sub.gang with
  | some G => G.retry.held
  | none => []

/-- The byte a gang's held stores give an address: the newest that writes it (R133). -/
def heldByte (hs : List Held) (b : Nat) : Option Byte :=
  hs.foldl (fun x h =>
    match h with
    | .store _ _ a bs => if a ≤ b ∧ b < a + bs.length then some (bs.getD (b - a) 0) else x
    | _ => x) none

/-- The line of the L1 read cache a load takes its bytes from: a plain or streaming load does, a volatile load and an acquire
do not (R124, R141). -/
def l1Line (s : State) (t pa : Nat) (o : MOrd) : Option (List Byte) :=
  match o with
  | .plain | .stm => kget (s.tile t).l1 (pa / 128)
  | _ => none

/-- Some byte of a range lies in a poisoned line, or in a poisoned word (R211). -/
def State.spoilt (s : State) (pa n : Nat) : Prop := ∃ k, k < n ∧ ((pa + k) / 128 ∈ s.poison ∨ (pa + k) / 4 ∈ s.poisonWords)

/-- Bytes of a datum, byte 0 first. -/
def datumByte (x : BitVec 128) (k : Nat) : Byte := BitVec.ofNat 8 (x.toNat / 256 ^ k)

/-! ### The step of a decoded instruction (R220, R221) -/

/-- Sub-gang u of tile t is the next to issue, its turn begun from s0: the head of the agenda names it, or the agenda is empty,
no event is due and the sequencers choose it (log 1). -/
def State.nextIssuer (s s0 : State) (t u : Nat) : Prop :=
  (s.agenda = .issue t u :: s0.agenda ∧ s0 = { s with agenda := s0.agenda } ∧ s0.ready t u = true) ∨
  (s.agenda = [] ∧ s0 = s ∧ s.nextEvent.isNone = true ∧ s.pickIssue = some (t, u))

/-- No report and no breakpoint takes the place of the issuer's instruction (R206, R209, R210, R367). -/
structure Undisturbed (s : State) (I : Issuer) : Prop where
  feeder : I.gang.feeder = false ∨ I.block.reports.all (fun r => r.group == 14) = true
  budget : ∀ q, s.regionQueue I.block.grid = some q → q.exhaustions ≤ I.gang.bud
  corrected : I.block.reports.all (fun r => r.group != 14) = true
  unmatched : breakpointAt I = none
  unreported : I.sub.reports = []

/-- The word at the issuer's program counter, at fabric address fa under translation e: the instruction cache's, or its four
bytes of memory, none of them poisoned, at a home that is reached and may answer (R5, R19, R146, R220, R221). -/
structure WordAt (s : State) (I : Issuer) (fa : Nat) (e : TlbEntry) (w : W32) : Prop where
  aligned : I.sub.pc.toNat % 4 = 0
  checked : check s I.t I.block.vf I.block.world I.sub.pc .fetch 4 = .ok (fa, e)
  word : kget (s.tile I.t).icache fa = some w ∨
    (kget (s.tile I.t).icache fa = none ∧ fa / 2 ^ 42 = s.node ∧ ¬ s.spoilt (fa % 2 ^ 42) 4 ∧
      s.cutOffDies (dieOf I.t) (homeOf (fa % 2 ^ 42)) = false ∧ s.fetchOpen I.t (fa % 2 ^ 42) = true ∧
      bytesWord ((List.range 4).map fun k => cellGet s.mem (fa % 2 ^ 42 + k)) = some w)

/-- A fetch keeps its translation and its word in the tile's caches (R127, R221). -/
def State.fetched (s : State) (t fa : Nat) (e : TlbEntry) (w : W32) : State :=
  let s := s.fillTlb t e
  s.setTile t { s.tile t with icache := kset (s.tile t).icache fa w }

/-- The group 1 code of a word that decodes to nothing (R238). -/
def groupOneCode : DecErr → Byte
  | .reservedOpcode => 1
  | .fieldValue => 2

/-! ### Traps (R204 to R209) -/

/-- TCAUSE of a trap, field by field (R204). -/
structure CauseWord (c : Word) (tr : Trap) : Prop where
  group : bits c.toNat 4 0 = tr.group
  rest5 : bits c.toNat 7 5 = 0
  logent : bits c.toNat 10 8 = tr.log.getD 0
  logv : bits c.toNat 11 11 = bit tr.log.isSome
  rest12 : bits c.toNat 13 12 = 0
  imprecise : bits c.toNat 14 14 = bit tr.imprecise
  inh : bits c.toNat 15 15 = 1
  lane : bits c.toNat 23 16 = tr.lane.toNat
  code : bits c.toNat 31 24 = tr.code.toNat
  rest32 : bits c.toNat 63 32 = 0

/-- A slice as a handler finds it (R207): the trap registers, the run depth and every lane's ring saved; its masks and its
registers as they were. -/
def Slice.entered (S : Slice) (c : Word) (tr : Trap) (depth : Nat) : Slice :=
  { S with tcause := c, tepc := tr.tepc, tdet0 := tr.others, tdet1 := tr.datum.extractLsb' 0 32,
           tdet2 := tr.datum.extractLsb' 32 32, svDepth := depth, lanes := S.lanes.map fun L => { L with svRing := L.ring } }

/-- A slice as TRET leaves it (R208): INH clear, the rings restored. -/
def Slice.left (S : Slice) : Slice :=
  { S with tcause := S.tcause &&& ~~~ 0x8000#64, lanes := S.lanes.map fun L => { L with ring := L.svRing } }

/-! ### System registers (R363, R364) -/

/-- The rights a system register asks for (R364). -/
inductive Rights where
  | any
  | runtime
  | secure
  deriving DecidableEq, Repr

/-- The rows of the register table: instances, rights, and whether some field can be written (R363). -/
def sysRow (r : SysReg) : Option (Nat × Rights × Bool) :=
  match r with
  | .tcause => some (1, .any, false)
  | .tepc => some (1, .any, true)
  | .tdet0 | .tdet1 | .tdet2 => some (1, .any, false)
  | .tscr0 | .tscr1 | .tscr2 | .tscr3 => some (1, .any, true)
  | .gstat => some (1, .any, false)
  | .tctl => some (1, .any, true)
  | .bpc => some (4, .runtime, true)
  | .dcyc | .dusec => some (1, .any, false)
  | .thstat => some (4, .any, true)
  | .gnode => some (1, .any, false)
  | .gpstat => some (24, .any, false)
  | .errcnt => some (4, .any, false)
  | .trev => some (256, .any, false)
  | .dlstat => some (4, .any, false)
  | .psroot => some (1, .runtime, true)
  | .tlbinv => some (1, .runtime, true)
  | .pshlog => some (1, .runtime, false)
  | .shdisc => some (1, .runtime, true)
  | .spstat => some (1, .runtime, false)
  | .skreq => some (1, .runtime, true)
  | .tfence => some (4, .runtime, false)
  | .fwtab => some (256, .secure, false)
  | .unlisted _ => none

/-- Whether an issuer holds rights: runtime rights are those of a block of its partition's first function, the secure
runtime's also those of the secure world (R364). -/
def State.holdsRights (s : State) (I : Issuer) (r : Rights) : Prop :=
  match r with
  | .any => True
  | .runtime => ∃ P, s.part I.block.part = some P ∧ I.block.vf = P.vflo
  | .secure => (∃ P, s.part I.block.part = some P ∧ I.block.vf = P.vflo) ∧ I.block.world = true

/-- An access to instance k of a register that no trap of R363 stops. -/
def SysOk (s : State) (I : Issuer) (r : SysReg) (k : Nat) (write : Bool) : Prop :=
  ∃ n rt w, sysRow r = some (n, rt, w) ∧ k < n ∧ s.holdsRights I rt ∧ (write = true → w = true)

/-- What a write of x to a register of the slices does to each slice (R204, R208); none for another register. -/
def sliceWrite (r : SysReg) (x : Word) : Option (Slice → Slice) :=
  match r with
  | .tepc => some fun S => { S with tepc := x, svDepth := 0, lanes := S.lanes.map fun L => { L with svRing := [] },
                                    log := S.log.filter fun e => !e.faulted }
  | .tscr0 => some fun S => { S with tscr0 := x }
  | .tscr1 => some fun S => { S with tscr1 := x }
  | .tscr2 => some fun S => { S with tscr2 := x }
  | .tscr3 => some fun S => { S with tscr3 := x }
  | _ => none

/-- A word of which only the bits that satisfy p are kept. -/
def keepsBits (y x : Word) (p : Nat → Prop) : Prop := ∀ b, (y.getLsbD b = true ↔ x.getLsbD b = true ∧ p b)

/-! ### Waiting, traps of a whole instruction, and parks -/

/-- An instruction waits: it has no effect but its mark, and executes again later (log 8). -/
def Waits (s : State) (i : Instr) (I : Issuer) : Prop :=
  exec i s = .next (s.setSub I.t I.u { I.sub with stall := some s.gen, issued := s.stamp })

/-- An instruction traps as a whole, with no other effect. -/
def Traps (s : State) (i : Instr) (I : Issuer) (group : Nat) (code : Byte) (datum : Word) : Prop :=
  exec i s = .next (takeTrap s I.t I.u ⟨group, code, 0xFF, 0, datum, false, none, I.sub.pc⟩)

/-- An instruction traps as a whole where the spec states no datum: a free value stands there (log 6). -/
def TrapsFree (s : State) (i : Instr) (I : Issuer) (group : Nat) (code : Byte) : Prop :=
  ∃ x, exec i s = .next (takeTrap { s with free := s.free + 1 } I.t I.u ⟨group, code, 0xFF, 0, x, false, none, I.sub.pc⟩)

/-- The continuation that lane j of slice n parks as in slot k (R113): v0 to v15 by value, with their poison marks, the masks, the
gang index, the monitor and the instruction it resumes at; its other registers are free values of its own. -/
def parkedCont (s : State) (I : Issuer) (resume : Resume) (place : ContAt) (k n : Nat) (S : Slice) (j : Nat) (L : Lane) : Cont :=
  { entry := I.sub.pc, ctx := I.gang.ctx, uid := I.block.uid, grid := I.block.grid, detached := I.gang.detached, park := true,
    run := s.nextId, slice := n, lane := j, regs := (List.range (min 16 I.block.vregs)).map fun r => (r, L.reg r),
    fill := .free (s.free + k), bad := L.bad.filter (· < min 16 I.block.vregs), gangIx := L.gangIx, mask := S.mask, live := S.live, stack := S.stack, feeder := I.gang.feeder, monitor := S.monitor,
    resume := some resume, place := place }

/-- C is the bin store of the issuer's tile once every live lane of the issuer has become a continuation in a slot that was
free; what it held before stays. -/
structure ParksIn (s : State) (I : Issuer) (resume : Resume) (place : ContAt) (C : KMap Cont) : Prop where
  old : ∀ k c, kget I.tile.conts k = some c → kget C k = some c
  new : ∀ k c, kget C k = some c → kget I.tile.conts k = none → ∃ n i S j L, (I.sub.slices[n]?).map (·.1) = some i ∧
    kget I.sub.slices i = some S ∧ j < 4 ∧ S.lanes[j]? = some L ∧ c = parkedCont s I resume place k n S j L
  each : ∀ n i S j L, I.sub.slices[n]? = some (i, S) → kget I.sub.slices i = some S → j < 4 → S.live.getLsbD j = true →
    S.lanes[j]? = some L → ∃ k, k < 1024 ∧ kget I.tile.conts k = none ∧ kget C k = some (parkedCont s I resume place k n S j L)

/-- From s to t the issuer parks (R113): its live lanes enter the bin store, waiting for a condition or at once in a bin, and
the sub-gang leaves its gang. -/
def Parks (s : State) (I : Issuer) (resume : Resume) (cond : Option Cond) (watched : Bool) (t : State) : Prop :=
  ∃ C, ParksIn s I resume (match cond with | some c => .waiting c watched | none => .ready s.stamp) C ∧
    let left := ({ s.setTile I.t { I.tile with conts := C } with nextId := s.nextId + 1, free := s.free + 1024 }).leaveGang I.t I.u
    t = match cond with
      | some _ => left
      | none => left.admitRun I.t s.nextId

/-- The bin store has a slot for every live lane, and a bin where the park enters one at once (R87, R113). -/
def parkRoom (I : Issuer) (cond : Option Cond) : Prop :=
  I.sub.liveLanes.length ≤ I.tile.freeSlots ∧
  (cond = none → (I.tile.fillingBin I.sub.pc I.block.uid I.gang.detached).isSome = true ∨ (kfree I.tile.bins 32).isSome = true)

/-- The condition of a monitor (R295), for a value of w bits. -/
def monitorCond (cond : Nat) (w v c : Nat) : Prop :=
  match cond with
  | 0 => v = c
  | 1 => v ≠ c
  | 2 => (v + 2 ^ w - c) % 2 ^ w < 2 ^ (w - 1)
  | _ => v &&& c ≠ 0

/-- The four words of an arrival barrier in a block's scratchpad (R298). -/
def Block.barrier (B : Block) (off : Nat) : Nat × Nat × Nat × Nat :=
  (leNat (B.spadBytes off 4), leNat (B.spadBytes (off + 4) 4), leNat (B.spadBytes (off + 8) 4), leNat (B.spadBytes (off + 12) 4))

/-- From s to s' only a barrier changes: it holds w, every other byte of its scratchpad and all of memory are as before. -/
def BarrierStep (s : State) (p : SpadAt) (w : Nat × Nat × Nat × Nat) (s' : State) : Prop :=
  ∃ B B', kget (s.tile p.t).blocks p.ctx = some B ∧ kget (s'.tile p.t).blocks p.ctx = some B' ∧ B'.barrier p.off = w ∧
    (∀ x, x < p.off ∨ p.off + 16 ≤ x → B'.spadByte x = B.spadByte x) ∧
    s' = s.setBlock p.t p.ctx B' ∧ B' = { B with spad := B'.spad, spadPoison := B'.spadPoison }

/-- A barrier once its expectation is e and its bytes b: with neither left its phase completes (R298). -/
def phaseStep (e b init phase : Nat) : Nat × Nat × Nat × Nat :=
  if e = 0 ∧ b = 0 then (init, 0, init, (phase + 1) % 2 ^ 32) else (e, b, init, phase)

/-! ### Launch, suspend, spawn, exit -/

/-- The continuation that an active lane spawns (R112, R360): the block that issued it, its window registers, the gang index of the
lane it comes from, and a fresh run; its other registers are free values of its own. -/
def spawnedCont (s : State) (I : Issuer) (entry : Word) (base n : Nat) (det : Bool) (q j : Nat) : Cont :=
  { entry := entry, ctx := I.gang.ctx, uid := I.block.uid, grid := I.block.grid, detached := det, park := false, run := s.nextId + q, slice := 0, lane := 0,
    regs := (List.range n).map fun x => (x, vregOf (s.window I) I.sub j (base + x)), fill := .free (s.free + q), bad := [],
    gangIx := gangOf I.sub j, mask := 0, live := 0, stack := [], feeder := false, monitor := none, resume := none,
    place := .ready s.stamp }

/-- The tile once the active lanes' continuations have entered bins, the lowest lane first; none where one does not fit. -/
def spawnAll (s : State) (I : Issuer) (mk : Nat → Nat → Cont) : Option Tile :=
  let ls := I.sub.actives
  let slots := I.tile.slotList ls.length
  if slots.length < ls.length then none
  else ((ls.zip slots).zipIdx).foldl (fun T ((j, slot), q) =>
    T.bind fun T => spawnOne T (s.usec I.t + s.bint I.t) (s.stamp + q) slot (mk q j)) (some I.tile)

/-- The record a LAUNCH submits (R116, R357, R358): in the block's world, with its function, capped at priority 7, and with
what its tile has observed. -/
def launched (s : State) (I : Issuer) (r : LRecord) : Rec :=
  { grid := s.nextId, r := r, origin := .pend I.block.uid, vf := I.block.vf, secure := I.block.world,
    sameWorld := some I.block.world, cap := 7, stamp := s.stamp, vec := s.carried I.t }

/-- The last record of a region's queue. -/
def State.lastRecord (s : State) (p vf : Nat) (region : Word) : Option Rec :=
  ((s.part p).bind fun P => P.queueOf vf region).bind fun q => q.2.recs.getLast?

/-! ### Engines -/

/-- An engine command: its counter, its first parameter register, how many more it uses, and its checks at issue. -/
def enginePlan : Instr → Option (BitVec 4 × Option (BitVec 5) × Nat × (State → Issuer → List Word → EngPlan))
  | .copy tc h1 h2 st bar link n => some (tc, some n, if st then 3 else if bar then 1 else 0, planCopy tc h1 h2 st bar link n)
  | .copym tc h1 h2 bar link n => some (tc, some n, 1, planCopym tc h1 h2 bar link n)
  | .copys tc h1 h2 n => some (tc, some n, 2, planCopys tc h1 h2 n)
  | .copyr tc h1 h2 n => some (tc, some n, 1, planCopyr tc h1 h2 n)
  | .mload tc h n => some (tc, some n, 0, planMload tc h n)
  | .mswap tc mask => some (tc, none, 0, planMswap tc mask)
  | .mmul tc h1 h2 n => some (tc, some n, 0, planMmul tc h1 h2 n)
  | .accz tc h => some (tc, none, 0, planAccz tc h)
  | .accdrn tc h1 h2 z n => some (tc, some n, 0, planAccdrn tc h1 h2 z n)
  | .histclr tc h => some (tc, none, 0, planHistclr tc h)
  | .attn tc h1 h2 n => some (tc, some n, 0, planAttn tc h1 h2 n)
  | _ => none

/-- The handles an engine command names. -/
def engineHandles : Instr → List (BitVec 6)
  | .copy _ h1 h2 _ _ _ _ => [h1, h2]
  | .copym _ h1 h2 _ _ _ => [h1, h2]
  | .copys _ h1 h2 _ => [h1, h2]
  | .copyr _ h1 h2 _ => [h1, h2]
  | .mload _ h _ => [h]
  | .mmul _ h1 h2 _ => [h1, h2]
  | .accz _ h => [h]
  | .accdrn _ h1 h2 _ _ => [h1, h2]
  | .histclr _ h => [h]
  | .attn _ h1 h2 _ => [h1, h2]
  | _ => []

/-- Every parameter register of a command exists (R309). -/
def paramsExist (n : Option (BitVec 5)) (top : Nat) : Prop := ∀ r, n = some r → r.toNat + top ≤ 31

/-! ### Strands -/

/-- Strand a of a partition holds elements es, its size and home kept and its edit generation advanced; it may hold more or
fewer segments (log 18). -/
def Part.Holds (P P' : Part) (a : W32) (es : List Elem) : Prop :=
  ∃ t t', P.strandAt a = some t ∧ P'.strandAt a = some t' ∧ t'.elems = es ∧ t'.esize = t.esize ∧ t'.home = t.home ∧
    t'.editGen = t.editGen + 1

/-- The strands but those named, and the cursors and anchors, are as before. -/
def Part.Rest (P P' : Part) (ks : List Nat) : Prop :=
  (∀ b, b ∉ ks → kget P'.strands b = kget P.strands b) ∧ P'.cursors = P.cursors ∧ P'.anchors = P.anchors

/-- n new elements of size e, with the bytes given and fresh names from id, not poisoned. -/
def NewElems (id e n : Nat) (bytes : List Byte) (new : List Elem) : Prop :=
  new.length = n ∧ ∀ k x, new[k]? = some x → x.poison = false ∧ x.uid = id + k ∧ x.bytes.length = e ∧
    ∀ j, j < e → x.bytes.getD j 0 = bytes.getD (e * k + j) 0

/-- An operation of the home strand unit fails and changes nothing (R158). -/
def StrandFails (P : Part) (seed id : Nat) (r : StrandReq) (c : Byte) (rank : Word) : Prop :=
  strandStep P seed id r = (P, id, .code c rank)

/-- An operation succeeds with a result. -/
def StrandDoes (P : Part) (seed id : Nat) (r : StrandReq) (x : BitVec 128) (P' : Part) : Prop :=
  ∃ id', strandStep P seed id r = (P', id', .res x)

/-- The operation of an element instruction and its width in bytes (R339, R340). -/
def elementOp : Instr → Option (ElemOp × Nat)
  | .sldLane _ _ ty pm _ => some (.load (pm != 0), ty.bytes)
  | .sldUniform _ _ ty pm _ => some (.load (pm != 0), ty.bytes)
  | .sstLane _ _ ty _ => some (.store, ty.bytes)
  | .sstUniform _ _ ty _ => some (.store, ty.bytes)
  | .saadd _ _ ty _ => some (.atomic 0, ty.bytes)
  | .samin _ _ ty _ => some (.atomic 2, ty.bytes)
  | .samax _ _ ty _ => some (.atomic 3, ty.bytes)
  | .saxchg _ _ ty _ => some (.atomic 9, ty.bytes)
  | .sacas _ _ ty _ => some (.atomic 10, ty.bytes)
  | _ => none

/-- The rank a rank word names and the byte of the element it starts at (R339). -/
def wordRank (w : Word) : Nat := w.toNat % 2 ^ 40
def wordOff (w : Word) : Nat := 16 * (w.toNat / 2 ^ 40 % 4)

/-- A rank word reaches an element of a strand for an access of n bytes: its reserved bits are 0, it starts within the element, and
an atomic lies within it (R339, R340). -/
def Reaches (t : Strand) (op : ElemOp) (n : Nat) (w : Word) : Prop :=
  w.toNat / 2 ^ 42 = 0 ∧ wordOff w < t.esize ∧ wordRank w < t.elems.length ∧ ((∃ k, op = .atomic k) → wordOff w + n ≤ t.esize)

/-- n bytes of an element from an offset, as a number; bytes beyond the element read 0. -/
def Elem.value (e : Elem) (off n : Nat) : Nat := leNat ((List.range n).map fun k => e.bytes.getD (off + k) 0)

/-- Strand a holds the elements of t, but that the bytes of element r from offset off are those of v; bytes beyond the element
are not written. -/
def Part.Wrote (P' : Part) (a : W32) (t : Strand) (r off n v : Nat) : Prop :=
  ∃ t', P'.strandAt a = some t' ∧ t'.esize = t.esize ∧ t'.elems.map (·.uid) = t.elems.map (·.uid) ∧
    ∀ k e, t.elems[k]? = some e → ∃ e', t'.elems[k]? = some e' ∧ e'.bytes.length = e.bytes.length ∧ e'.poison = e.poison ∧
      ∀ j, j < e.bytes.length → e'.bytes.getD j 0 = if k = r ∧ off ≤ j ∧ j < off + n then BitVec.ofNat 8 (v / 256 ^ (j - off)) else e.bytes.getD j 0

/-- How a strand instruction issues: its operands, whether its access is one of the uniform set (R131), and its strand or cursor, arguments
and accesses. -/
structure StrandForm where
  uses : List Use
  uniform : Bool
  strand : Sub → Win → W32
  args : Sub → Win → List Word
  lanes : Sub → Win → List (Option Nat × Word × BitVec 128)

/-- The form of a structural instruction: one access stands for it. -/
def whole (uses : List Use) (strand : Sub → Win → W32) (args : Sub → Win → List Word) : Option StrandForm :=
  some ⟨uses, true, strand, args, fun _ _ => [(none, 0, 0)]⟩

/-- The form of an element instruction on the strand in s(sn). -/
def onStrand (uniform : Bool) (uses : List Use) (sn : BitVec 3) (lanes : Sub → Win → List (Option Nat × Word × BitVec 128)) : Option StrandForm :=
  some ⟨uses, uniform, fun U _ => (U.sreg sn.toNat).setWidth 32, fun _ _ => [], lanes⟩

/-- The form of an element atomic: y, and for SACAS the new value above it. -/
def onAtomic (i : Instr) (d : Opnd) (addr : BitVec 6) (ty : Ty2) (sn : BitVec 3) (cas : Bool) : Option StrandForm :=
  let n := ty.bytes / 4
  onStrand (!isLane i) [.group d (if cas then 2 * n else n), .vreg (2 * addr.toNat) 2, .sreg sn.toNat 1] sn fun U W =>
    perLane U (lanePair W U addr) (elemData W U d n cas)

/-- The forms of the strand instructions that read no bytes of memory (R335 to R341). -/
def strandForm : Instr → Option StrandForm
  | .snew a b n => whole [.src a, .src b, .out n.toNat 1] (fun _ _ => 0) fun U W => [uniVal W 0 U a, uniVal W 0 U b]
  | .sfree a => whole [.src a] (fun U W => (uniVal W 0 U a).setWidth 32) fun _ _ => []
  | .slen a n => whole [.src a, .out n.toNat 1] (fun U W => (uniVal W 0 U a).setWidth 32) fun _ _ => []
  | .sdel a b n => whole [.src a, .src b, .sreg n.toNat 1] (fun U W => (uniVal W 0 U a).setWidth 32) fun U W => [uniVal W 0 U b, U.sreg n.toNat]
  | .ssplit a b n => whole [.src a, .src b, .out n.toNat 1] (fun U W => (uniVal W 0 U a).setWidth 32) fun U W => [uniVal W 0 U b]
  | .scat a b _ => whole [.src a, .src b] (fun U W => (uniVal W 0 U a).setWidth 32) fun U W => [uniVal W 0 U b]
  | .sgap a b n => whole [.src a, .src b, .sreg n.toNat 1] (fun U W => (uniVal W 0 U a).setWidth 32) fun U W => [uniVal W 0 U b, U.sreg n.toNat]
  | .sclose a => whole [.src a] (fun U W => (uniVal W 0 U a).setWidth 32) fun _ _ => []
  | .sanchUniform a b n => whole [.src a, .src b, .out n.toNat 1] (fun U W => (uniVal W 0 U a).setWidth 32) fun U W => [uniVal W 0 U b]
  | .srankUniform a pm n => whole [.src a, { paramPair n with wr := true }, .prd pm] (fun _ _ => 0) fun U W => [uniVal W 0 U a]
  | i@(.sldLane d addr ty pm sn) => onStrand (!isLane i) [.vreg (2 * addr.toNat) 2, .dst d ty.regs false, .prd pm, .sreg sn.toNat 1] sn fun U W =>
      perLane U (lanePair W U addr) fun _ => 0
  | i@(.sstLane data addr ty sn) => onStrand (!isLane i) [storeUse data ty, .vreg (2 * addr.toNat) 2, .sreg sn.toNat 1] sn fun U W =>
      perLane U (lanePair W U addr) (storeData W U data ty)
  | i@(.sldUniform d addr ty pm sn) => onStrand (!isLane i) [.sreg addr.toNat 1, .udst d (if ty = .q then 2 else 1) false, .prd pm, .sreg sn.toNat 1] sn
      fun U _ => [(none, U.sreg addr.toNat, 0)]
  | i@(.sstUniform data addr ty sn) => onStrand (!isLane i) [storeUniUse data ty, .sreg addr.toNat 1, .sreg sn.toNat 1] sn fun U W =>
      [(none, U.sreg addr.toNat, storeUniData W U data ty)]
  | i@(.saadd d addr ty sn) => onAtomic i d addr ty sn false
  | i@(.samin d addr ty sn) => onAtomic i d addr ty sn false
  | i@(.samax d addr ty sn) => onAtomic i d addr ty sn false
  | i@(.sacas d addr ty sn) => onAtomic i d addr ty sn true
  | i@(.saxchg d addr ty sn) => onAtomic i d addr ty sn false
  | i@(.sanchLane d addr sn) => onStrand (!isLane i) [.vreg (2 * addr.toNat) 2, .dst d 2 false, .sreg sn.toNat 1] sn fun U W => perLane U (lanePair W U addr) fun _ => 0
  | .srankLane d addr pm => some ⟨[.vreg (2 * addr.toNat) 2, .dst d 4 false, .prd pm], false, fun _ _ => 0, fun _ _ => [],
      fun U W => perLane U (lanePair W U addr) fun _ => 0⟩
  | _ => none

/-- The accesses of a form, not yet performed. -/
def StrandForm.accesses (F : StrandForm) (s : State) (I : Issuer) : List Access :=
  (F.lanes I.sub (s.window I)).map fun (l, w, x) => ⟨l, w, x, 0, false, .pending⟩

/-- Where the result of a strand instruction goes (R335 to R341): lane registers from v on, a register or two from s on, a
predicate. -/
structure StrandDst where
  v : Option Nat
  words : BitVec 128 → List W32
  s : Option Nat
  sregs : BitVec 128 → List Word
  p : BitVec 3

/-- The low n words of a result. -/
def lowWords (n : Nat) (x : BitVec 128) : List W32 := (List.range n).map fun k => BitVec.ofNat 32 (x.toNat / 2 ^ (32 * k))

/-- One register from s on takes the low half of a result. -/
def intoReg (n : BitVec 5) : StrandDst := ⟨none, fun _ => [], some n.toNat, fun x => [BitVec.ofNat 64 x.toNat], 0⟩

/-- The registers above y of an element atomic take the old value. -/
def intoGroup (d : Opnd) (ty : Ty2) : StrandDst :=
  ⟨match d with | .v r => some r.toNat | _ => none, lowWords (ty.bytes / 4), none, fun _ => [], 0⟩

def strandDst : Instr → StrandDst
  | .snew _ _ n | .slen _ n | .ssplit _ _ n | .sgap _ _ n | .sanchUniform _ _ n => intoReg n
  | .srankUniform _ pm n =>
    ⟨none, fun _ => [], some n.toNat, fun x => [BitVec.ofNat 64 x.toNat, BitVec.ofNat 64 (x.toNat / 2 ^ 64 % 2 ^ 32)], pm⟩
  | .sldLane d _ ty pm _ => ⟨lreg d, laneWords ty, none, fun _ => [], pm⟩
  | .sldUniform d _ ty pm _ => ⟨none, fun _ => [], ureg d, uniWords ty, pm⟩
  | .sanchLane d _ _ => ⟨lreg d, lowWords 2, none, fun _ => [], 0⟩
  | .srankLane d _ pm => ⟨lreg d, fun x => lowWords 3 x ++ [0], none, fun _ => [], pm⟩
  | .saadd d _ ty _ | .samin d _ ty _ | .samax d _ ty _ | .sacas d _ ty _ | .saxchg d _ ty _ => intoGroup d ty
  | _ => ⟨none, fun _ => [], none, fun _ => [], 0⟩

/-- A slice after the result x, with predicate b, of an access of its own: a lane's goes to that lane, another to the slice's
registers and the predicate of its active lanes. -/
def StrandDst.put (D : StrandDst) (W : Win) (S : Slice) (lane : Option Nat) (x : BitVec 128) (b : Bool) : Slice :=
  let pred := fun (L : Lane) => if D.p = 0 then L else L.setPred D.p.toNat b
  match lane with
  | some j =>
    let wr := fun (L : Lane) => pred (match D.v with | some r => L.putRegs (W.base + r) (D.words x) | none => L)
    { S with lanes := S.lanes.modify (j % 4) wr }
  | none =>
    let T := match D.s with | some r => (D.sregs x).zipIdx.foldl (fun (T : Slice) (y, k) => T.setSreg (r + k) y) S | none => S
    { T with lanes := T.lanes.zipIdx.map fun (L, j) => if S.mask.getLsbD j then pred L else L }

/-- From s to t a strand instruction whose accesses have one home, on the issuer's own die, completes (R131, R157): the home
unit's step, which the world check lets pass and which fails no lane, has been performed; each access's result stands in its
slice; memory, the other sub-gangs and the blocks are as before. -/
def StrandEffect (s : State) (I : Issuer) (i : Instr) (a : W32) (args : List Word) (bytes : List Byte) (as : List Access) (t : State) : Prop :=
  ∀ h P, homesOf I.t i a args as = [(h, as)] → s.isLocal I.t h = true → s.part I.block.part = some P →
    let r : StrandReq := ⟨I.t, s.nextId, I.block.part, I.block.world, i, a, args, bytes, as.map fun x => (x.lane, x.addr, x.data)⟩
    let st := strandStep P s.free (s.nextId + 1) r
    s.strandDenied P r = false → ∀ ls, st.2.2 = .ok ls → (∀ x ∈ ls, x.2.2.2 = none) → (∀ y ∈ as, ∃ x ∈ ls, x.1 = y.lane) →
    t.part I.block.part = some st.1 ∧ t.mem = s.mem ∧
    kget (t.tile I.t).subs I.u = some { I.sub.retire .other with slices := I.sub.slices.map fun (n, S) =>
      (n, (ofSlice n as).foldl (fun S y => match ls.find? fun x => x.1 == y.lane with
        | some x => (strandDst i).put (s.window I) S y.lane x.2.1 x.2.2.1
        | none => S) S) } ∧
    (∀ u, u ≠ I.u → kget (t.tile I.t).subs u = kget (s.tile I.t).subs u) ∧ (t.tile I.t).gangs = (s.tile I.t).gangs ∧
    (t.tile I.t).blocks = (s.tile I.t).blocks

/-- What SEND or RECV names: its operand, its set, its channel, kind and width, and what it sends, or what it does with the
entries it receives; the entries it needs (R344, R345). -/
structure ChanForm where
  use : Use
  lane : Bool
  ch : Nat
  row : Bool
  width : Nat
  send : Option (Sub → Win → List (List W32))
  recv : Sub → Win → List (List W32) → Sub
  need : Sub → Nat

/-- The words of lane j's item in v(r) to v(r + width - 1), or the one value another operand gives. -/
def laneItem (W : Win) (U : Sub) (r : Opnd) (width j : Nat) : List W32 :=
  match r with
  | .v r => (List.range width).map fun k => vregOf W U j (r.toNat + k)
  | o => [laneVal W 0 U o j]

/-- Words from v(r) up of the lanes given. -/
def takeItems (W : Win) (U : Sub) (d : LDst) (items : List (Nat × List W32)) : Sub :=
  if d.nw then U else items.foldl (fun U (j, ws) => writeRegs W U j d.r.toNat ws) U

/-- The forms of SEND and RECV. -/
def chanForm : Instr → Option ChanForm
  | .sendLane r ch n row =>
    let w := n.toNat + 1
    some ⟨itemUse r w, true, ch.toNat, row, w, some fun U W =>
      if row then [(List.range 32).flatMap fun j => if U.active j then laneItem W U r w j else List.replicate w 0]
      else U.actives.map fun j => laneItem W U r w j, fun U _ _ => U, fun _ => 0⟩
  | .recvLane d ch n row =>
    let w := n.toNat + 1
    some ⟨if d.nw then .plain d.code [] else { Use.vrun d.r.toNat w with wr := true }, true, ch.toNat, row, w, none,
      fun U W es => takeItems W U d (if row then U.actives.map fun j => (j, ((es.headD []).drop (j * w)).take w) else U.actives.zip es),
      fun U => if row then 1 else U.actives.length⟩
  | .sendUniform r ch n =>
    let w := n.toNat + 1
    some ⟨if w ≤ 2 then .src r else .uniPair r 2, false, ch.toNat, false, w, some fun U W =>
      let lo : Word := match r with | .s v => U.sreg v.toNat | o => uniVal W 0 U o
      let hi : Word := match r with | .s v => U.sreg (v.toNat + 1) | _ => 0
      [([lo.setWidth 32, lo.extractLsb' 32 32, hi.setWidth 32, hi.extractLsb' 32 32] : List W32).take w], fun U _ _ => U, fun _ => 0⟩
  | .recvUniform d ch n =>
    let w := n.toNat + 1
    some ⟨.udst d (if w ≤ 2 then 1 else 2) false, false, ch.toNat, false, w, none, fun U _ es =>
      let x := fun k => (es.headD []).getD k 0
      let U' := U.setDst d (x 1 ++ x 0)
      if d.nw || w ≤ 2 then U' else U'.setS (d.r.toNat + 1) (x 3 ++ x 2), fun _ => 1⟩
  | _ => none

/-- The issuer runs stage m, st, of skein k of partition p, K (R174). -/
def InStage (s : State) (I : Issuer) (p k : Nat) (K : Skein) (m : Nat) (st : Stage) : Prop :=
  I.gang.skeinName = some (p, k) ∧ s.skeinOf I.gang.kind = some K ∧ s.stageOf I.gang.kind = some (m, st)

/-- What GET and PUT name: operands, channel, item registers; whether there is an item and whether it is a GET. -/
structure LinkForm where
  uses : Issuer → List Use
  ch : Nat
  first : Nat
  width : Nat
  item : Bool
  get : Bool

/-- The uses of an item of a stage gang, or of any other gang. -/
def itemOf (I : Issuer) (x : BitVec 7) (n : Nat) (wr : Bool) : Use :=
  { Use.vrun x.toNat n with cnt := if I.gang.isStage then 0 else n, wr := wr }

/-- The forms of GET and PUT (R347). -/
def linkForm : Instr → Option LinkForm
  | .get (.v x) ch n pm => some ⟨fun I => [itemOf I x (n.toNat + 1) true, .prd pm], ch.toNat, x.toNat, n.toNat + 1, true, true⟩
  | .put (.v x) ch n false => some ⟨fun I => [itemOf I x (n.toNat + 1) false], ch.toNat, x.toNat, n.toNat + 1, true, false⟩
  | .put _ ch n true => some ⟨fun _ => [], ch.toNat, 0, n.toNat + 1, false, false⟩
  | _ => none

/-- The number of a stage's link for GET, the one below it, and for PUT, the one above it (R172). -/
def LinkForm.link (F : LinkForm) (m : Nat) : Option Nat := if F.get then (if m = 0 then none else some (m - 1)) else some m

/-- The skein cause of GET and PUT, by ascending code (R177, R347): 2 a link of another stage, 3 a register outside the window, 4 a
PUT after EOS, 5 part of a gang, 7 another item width. -/
def LinkForm.cause (F : LinkForm) (I : Issuer) (K : Skein) (m : Nat) (st : Stage) : Option Byte :=
  match (F.link m).bind fun q => K.links[q]? with
  | none => some 2
  | some l =>
    if l.ch ≠ F.ch then some 2
    else if F.item = true ∧ 8 * st.win < F.first + F.width then some 3
    else if F.get = false ∧ st.eos = true then some 4
    else if wholeGang I = false then some 5
    else if F.item = true ∧ F.width ≠ l.item then some 7
    else none

/-- A stage stopped at a knot of a kind, with a live set, at the issuer's instruction (R183, R184). -/
def Skein.stopped (K : Skein) (I : Issuer) (m : Nat) (st : Stage) (kind : Nat) (live : BitVec 16) : Skein :=
  { K.setStage m { st with stop := kind, live := live, pc := I.sub.pc, atKnot := true } with
    sw := match K.sw with | .unreeling => .unreelCopy | .exporting => .exportCopy | x => x }

/-- The stop of a stage for a switch: its accesses are performed first; then it is held. -/
def StopsAtKnot (s : State) (i : Instr) (I : Issuer) (p k : Nat) (K : Skein) (m : Nat) (st : Stage) (kind : Nat) (live : BitVec 16) : Prop :=
  (I.sub.quiet = false → Waits s i I) ∧
  (I.sub.quiet = true → exec i s = .next ((s.setSkein p k (K.stopped I m st kind live)).setSub I.t I.u { I.sub with stall := some s.gen, issued := s.stamp }))

/-- A GET, PUT or KNOT that completes: s0 to s2 stay, the other uniform registers are free values (R183). -/
def SkeinDone (s s' : State) (i : Instr) (I : Issuer) (U : Sub) : Prop :=
  exec i s = .next (State.setSub { s' with free := s'.free + 1 } I.t I.u ((U.mapSlices fun S => S.loseUniform s'.free).retire .other))

/-- A folded gang that leaves stage m for stage n at its GET or PUT (R180): its accesses are performed first. -/
def LeavesStage (s : State) (i : Instr) (I : Issuer) (p k : Nat) (K : Skein) (m : Nat) (st : Stage) (kind n : Nat) : Prop :=
  (I.sub.quiet = false → Waits s i I) ∧
  (I.sub.quiet = true → exec i s = .next (State.transferTo
    (s.setSkein p k (K.setStage m { st with stop := kind, live := st.all, pc := I.sub.pc, slices := I.sub.slices })) I.t I.u p k n))

/-- The dies are released (R11, R42, R46): every rail is good, none is released yet, and the image and the configuration block in
flash are accepted. -/
def State.boots (s : State) (c : ConfigBlock) : Prop :=
  s.flashConfig = some c ∧ (∃ i, s.flashImage = some i ∧ imageOk i = true) ∧ configOk c = true ∧ s.released = false ∧
  s.vaux = true ∧ s.vdram = true ∧ s.vcore = true ∧ s.vserdes = true ∧ s.vhost = true

/-- A state with every rail at one level. -/
def State.rails (s : State) (on : Bool) : State :=
  { s with vaux := on, vdram := on, vcore := on, vserdes := on, vhost := on, thermtrip := false }

/-- The throttle level after an evaluation (R16): 105 degrees set level 4; 95 degrees, or a current that stayed above its limit,
raise the level by one to at most 4; below 90 degrees with the current within its limit it falls by one. -/
def nextLevel (level temp : Nat) (current : CoreCurrent) : Nat :=
  if 105 * 256 ≤ temp then 4
  else if 95 * 256 ≤ temp ∨ current = .stayedAbove then max level (min 4 (level + 1))
  else if temp < 90 * 256 ∧ current = .within then level - 1
  else level

/-- The packets of the wire that arrive together: the first between two dies and those of its instruction that follow it (log 10). -/
def State.arriving (s : State) (src dst : Nat) : List Msg :=
  match s.wire.filter fun m => m.src == src && m.dst == dst with
  | [] => []
  | m :: l => m :: if m.tile = 0 ∧ m.seq = 0 then [] else l.takeWhile fun x => x.tile == m.tile && x.seq == m.seq

/-- What a response packet at port p comes to (R17, R19, R29): without a request that it answers it is gone; where the die of its
port is cut off from that of the request, the answer is lost; where it can cross, the request is answered. -/
def State.Answers (s : State) (pk : Packet) (p : Nat) (error : Bool) (out : State → Prop) : Prop :=
  let s1 := s.takeArrival p pk
  (s.outOf pk = none → out s1) ∧
  ∀ o, s.outOf pk = some o →
    (s.cutOffDies (p / 6) o.die = true → out ((s1.closeOut o).loseOut o).pump) ∧
    (s.cutOffDies (p / 6) o.die = false → s.reaches (fun st => st == 2) (p / 6) o.die = true → out (s1.answerOut o pk.payload error).pump)

/-- The contributions of a local reduction in ascending die, and in a die ascending tile (R37). -/
def State.localSorted (s : State) (k : Nat) : List LocalContrib := (s.localGroup k).foldl (fun l c => insContrib c l) []

/-- An address of this node that no packet may reach: a closed granule or one of the other world gives 2, a sheaf store or a
strand pool 3 (R34, R45, R49, R50, R156). -/
def State.barredAt (s : State) (world : Bool) (pa : Nat) : Option Nat :=
  if isDram pa = true ∧ ((∃ m ∈ s.closed, m.granule = pa / 2 ^ 26) ∨ (world = false ∧ pa / 2 ^ 26 ∈ s.fwtab)) then some 2
  else if isDram pa = true ∧ (s.inSheafStore pa = true ∨ s.inStrandPool pa = true) then some 3
  else none

/-- Every window of a function changed by f. -/
def Vf.windowsAre (V V' : Vf) (f : Window → Window) : Prop := ∀ w, w < 16 → V'.window w = f (V.window w)

/-- A range of addresses a TLBINV or HTLBINV write names (R129, R130): 64 KiB, 4 MiB, 256 MiB or 16 GiB from its first address. -/
def rangeOf (x : Word) : Nat × Nat := (x.toNat / 2 ^ 16 * 2 ^ 16, 2 ^ (16 + 6 * (x.toNat / 2 ^ 14 % 4)))

/-- Bytes of a and b of two ranges meet. -/
def meets (a n b m : Nat) : Prop := a < b + m ∧ b < a + n

/-- A state without the translations some test names (R130). -/
def State.dropped (s t : State) (f : TlbEntry → Prop) : Prop :=
  (∀ k e, (e ∈ (t.tile k).tlb ↔ e ∈ (s.tile k).tlb ∧ ¬ f e)) ∧ (∀ d e, (e ∈ (t.die d).dtu ↔ e ∈ (s.die d).dtu ∧ ¬ f e)) ∧
  t.mem = s.mem ∧ t.parts = s.parts ∧ t.cur = s.cur

/-! ### Placement, freezing and the last events -/

/-- The age a queue's region gives it. -/
def Queue.age (q : Queue) : Nat := match q.eff with | some e => e.age | none => 0

/-- The sheaves restored together with a slot's, each with its tile and the freeze that waits for it. -/
def State.restoreJobs (s : State) (P : Part) (slots : List Nat) : List (Nat × Nat × Option FreezeKind) :=
  slots.filterMap fun k => match kget P.sheaves k, s.loadingTile P k with
    | some _, some (x, d) => some (k, x, d)
    | _, _ => none

/-- The sheaves of a restore are loaded, and the freezes that waited for them take effect. -/
def State.loadJobs (s : State) (p : Nat) (jobs : List (Nat × Nat × Option FreezeKind)) : State :=
  let s := jobs.foldl (fun s j =>
    match (s.part p).bind fun P => kget P.sheaves j.1 with
    | some h => s.loadSheaf p j.1 j.2.1 h
    | none => s) s
  jobs.foldl (fun s j => match j.2.2 with | some kind => s.freezeTile j.2.1 kind | none => s) s

/-- The command of an engine queue, and the block that issued it. -/
def State.engineCmd (s : State) (t id : Nat) (c : EngCmd) (B : Block) : Prop :=
  (s.tile t).mode = .run ∧ (s.tile t).cmd id = some c ∧ ∃ ctx, ((s.tile t).blocks.find? fun x => x.2.uid == c.uid) = some (ctx, B)

/-- A command has left its queue (R151, R317): links to it are met, and its number has completed on its counter. -/
def State.cmdLeaves (s : State) (t : Nat) (c : EngCmd) : State :=
  let T := s.tile t
  (s.setTile t { T with
    copyQ := T.copyQ.filter fun x => x.id != c.id
    arrayQ := (T.arrayQ.filter fun x => x.id != c.id).map fun x => { x with links := x.links.filter (· != c.id) }
    links := kmap T.links fun _ l => l.filter (· != c.id) }).mapBlock c.uid fun B =>
    { B with tcs := kset B.tcs c.tc.toNat ((B.tl c.tc).complete c.num) }

/-- A stage gang's begin on tile t (R188): a context of the owning block without an allotment, and slices of the tile. -/
def State.stagePlaced (s : State) (p k n t t0 : Nat) (K : Skein) (st : Stage) (B : Block) : State :=
  let s := (if s.scrubDue t B.vf B.world then s else s.l1Clear t).observe (dieOf t) (s.carried t0)
  let due := s.scrubDue t B.vf B.world
  let T := s.tile t
  let ctx := (kfree T.blocks 16).getD 0
  let g := s.nextId
  let G : Gang := { ctx := ctx, kind := .stage p k n, ix := 32 + n, feeder := false, detached := false, total := K.slices,
                    retry := .never, bud := s.budOf B.grid, rebin := none }
  let U := Sub.start g st.pc (T.placeSlices st.slices) s.stamp
  let T := { T with mode := .run, vf := B.vf, world := B.world, scrub := due,
                    blocks := kset T.blocks ctx (stageBlock B (g + 2) K.slices st.win (!due)),
                    gangs := kset T.gangs g G, subs := kset T.subs (g + 1) U }
  { s.setTile t T with nextId := g + 3, stamp := s.stamp + 1 }

/-- A placed stage's own record, and its endpoint, which advertises the depth of its link once (R179, R188). -/
def Skein.stageBegun (K : Skein) (n t g : Nat) (st : Stage) : Skein :=
  let K := K.setStage n { st with place := .gang t g, slices := [], atKnot := false }
  if n = 0 then K else
    match K.links[n - 1]? with
    | some l => if l.made then K else K.setLink (n - 1) { l with credits := l.depth, made := true }
    | none => K

end Sys2Proof.Machine
end

