-- ==== Sys2Proof/Certificates/Slice0/Obligations.lean ====
section
/-!
DEFINITION. The statements for the provers.
-/
open Sys2Proof Sys2Proof.Machine

/-! ### Encoding and the step -/

/-- The decoder reads every instruction back from its word, with every operand at every value its encoding admits. -/
def Obligations.EncodeDecode : Prop :=
  ∀ (i : Instr) (w : W32), i.wf = true → encode i = some w → decode w = .ok i

/-- A word that decodes is the word of one well-formed instruction: no bit of it is dropped, and no reserved field holds another
value than the spec names. -/
def Obligations.DecodeEncode : Prop :=
  ∀ (w : W32) (i : Instr), decode w = .ok i → i.wf = true ∧ encode i = some w

/-- Words of the encoding examples of chapters 14 to 24 decode to the instructions they stand for. -/
def Obligations.SampleWords : Prop :=
  decode 0x000507A7 = .ok (.addLane ⟨false, 5⟩ (.v 7) (.pos 3)) ∧
  decode 0x1702081C = .ok (.selLane 1 2 3 4) ∧
  decode 0x5009070C = .ok (.ldLane ⟨false, 9⟩ 3 .w (.sync .package)) ∧
  decode 0x54061061 = .ok (.aaddLane 3 (.glob 4) 12 .rlxD) ∧
  decode 0xA0FFFFFB = .ok (.br (-5)) ∧
  decode 0xB6000013 = .ok (.fence .package .sc) ∧
  decode 0xC111032C = .ok (.copy 1 4 3 false false true 12) ∧
  decode 0xD383A82A = .ok (.sins (.s 3) (.pos 4) true 10) ∧
  decode 0xE204_0801 = .ok (.get (.v 4) 2 0 1) ∧
  decode 0x66881012 = .ok (.spawn (.s 8) 4 true 2) ∧
  decode 0xF020240D = .ok (.srd 4 .gpstat 13) ∧
  decode 0xF3000000 = .ok .tret

/-- When the word at the program counter of the sub-gang that issues next decodes to an instruction, and no report takes its
place, a step is that instruction, the fetch's translation and word kept, and what follows an execution (R220, R221). -/
def Obligations.StepRunsDecoded : Prop :=
  ∀ (s s0 : State) (I : Issuer) (t u fa : Nat) (e : TlbEntry) (w : W32) (i : Instr), s.nextIssuer s0 t u →
    let s1 := s0.beginIssue t u
    s1.issuer = some I → Undisturbed s1 I → WordAt s1 I fa e w → decode w = .ok i →
    step s = match exec i (s1.fetched t fa e w) with
      | .next s' => .next (s'.finishIssue t u (s1.stageBefore t u).1 (s1.stageBefore t u).2.1 (s1.stageBefore t u).2.2)
      | o => o

/-- A fetch that fails traps in place of an instruction, as a whole: a misaligned counter with group 5, code 2; a failed check
with its cause; a poisoned line or word of memory with group 15, code 5; a word of a die that is cut off with group 15, code 6; a
word that decodes to nothing with group 1. The operands of a
lane integer, floating-point, cross-lane, predicate, carry, uniform, branch, mask or memory instruction (R227, R230, R238): the
first row that applies decides the trap, and the first operand it applies to gives the code that stands beside the instruction
word; inside a stage, a register outside its window has the skein cause. Then the instruction waits while an access owes it a
register. The first read of a register that a restore left poisoned, and that no access owes, traps before them (R96, R205). -/
def Obligations.FetchAndOperandTraps : Prop :=
  (∀ (s s0 : State) (I : Issuer) (t u : Nat), s.nextIssuer s0 t u →
     let s1 := s0.beginIssue t u
     s1.issuer = some I → Undisturbed s1 I →
     let traps := fun (s' : State) (g : Nat) (c : Byte) (x : Word) =>
       step s = .next ((takeTrap s' t u ⟨g, c, 0xFF, 0, x, false, none, I.sub.pc⟩).endIssue t u)
     (I.sub.pc.toNat % 4 ≠ 0 → traps s1 5 2 I.sub.pc) ∧
     (∀ c, I.sub.pc.toNat % 4 = 0 → check s1 I.t I.block.vf I.block.world I.sub.pc .fetch 4 = .error c →
       traps s1 c.group c.code c.datum) ∧
     (∀ fa e, I.sub.pc.toNat % 4 = 0 → check s1 I.t I.block.vf I.block.world I.sub.pc .fetch 4 = .ok (fa, e) →
       kget (s1.tile I.t).icache fa = none → fa / 2 ^ 42 = s1.node → s1.spoilt (fa % 2 ^ 42) 4 →
       ∃ k, k < 4 ∧ s1.spoilt (fa % 2 ^ 42 + k) 1 ∧ traps s1 15 5 (BitVec.ofNat 64 (128 * ((fa % 2 ^ 42 + k) / 128)))) ∧
     (∀ fa e, I.sub.pc.toNat % 4 = 0 → check s1 I.t I.block.vf I.block.world I.sub.pc .fetch 4 = .ok (fa, e) →
       kget (s1.tile I.t).icache fa = none → fa / 2 ^ 42 = s1.node → ¬ s1.spoilt (fa % 2 ^ 42) 4 →
       s1.cutOffDies (dieOf I.t) (homeOf (fa % 2 ^ 42)) = true → traps s1 15 6 (BitVec.ofNat 64 (fa % 2 ^ 42))) ∧
     (∀ fa e w c, WordAt s1 I fa e w → decode w = .error c → w.getLsbD 31 = true ∨ I.sub.actives = [] →
       traps (s1.fetched t fa e w) 1 (groupOneCode c) (w.setWidth 64))) ∧
  (∀ (i : Instr) (us : List Use) (b : Bool) (s : State) (I : Issuer), usesOf i = some (us, b) → s.issuer = some I →
     let W := s.window I
     let latch := fun u : Use => match u.lat with | some k => !b || decide (I.sub.depth ≤ k) | none => false
     let beyond := fun u : Use => u.cnt != 0 && decide (W.limit < u.reg + u.cnt)
     let traps := fun (p : Use → Bool) (c : Byte) => ∀ u, us.find? p = some u → exec i s = trapWhole s I (isLane i) 2 c (wordDatum i u.code)
     let no := fun p : Use → Bool => ∀ u ∈ us, p u = false
     let unread := I.sub.readsBad W (isLane i) us = false
     (I.sub.readsBad W (isLane i) us = true → I.sub.hazard (touches us) = false → isLane i = false →
       exec i s = .next (takeTrap (s.setSub I.t I.u (I.sub.heal W us)) I.t I.u ⟨15, 7, 0xFF, 0, 0, false, none, I.sub.pc⟩)) ∧
     (unread → traps (·.res) 1) ∧
     (unread → no (·.res) → traps latch 2) ∧
     (unread → no (·.res) → no latch → W.skein = none → traps beyond 5) ∧
     (unread → no (·.res) → no latch → (W.skein = none → no beyond) → traps (·.odd) 6) ∧
     (unread → no (·.res) → no latch → (W.skein = none → no beyond) → no (·.odd) → traps (·.cls) 7) ∧
     (unread → no (·.res) → no latch → no (·.odd) → no (·.cls) → ∀ d u, W.skein = some d → us.find? beyond = some u →
       exec i s = trapWhole s I (isLane i) 16 3 d) ∧
     (no (·.res) → no latch → no (·.odd) → no (·.cls) → no beyond → I.sub.hazard (touches us) = true → Waits s i I))

/-- Reset memory is in canonical form. -/
def Obligations.ResetMemory : Prop := Memory.wf State.reset.mem

/-- What the registers hold after a full reset: the values the maps of R11, R26, R60, R63 and R79 give, every route of a die
closed, and before a boot no die released, no rail good and no partition bound (where no rail is good is the model's choice, log
3). -/
def Obligations.ResetValues : Prop :=
  (State.reset.released = false ∧ State.reset.vaux = false ∧ State.reset.parts = [] ∧ State.reset.tiles = [] ∧ State.reset.mem = []) ∧
  (Die.reset.dcyc = 0 ∧ Die.reset.dusec = 0 ∧ Die.reset.errcnt = 0 ∧ Die.reset.vec = [0, 0, 0, 0, 0]) ∧
  (∀ die node, State.reset.route die node = 0xFF) ∧
  (Window.reset.free = 16 ∧ Window.reset.depth = 16 ∧ Window.reset.cap = 3 ∧ Window.reset.accepted = 0 ∧ Window.reset.drops = 0 ∧
    Window.reset.rejects = 0 ∧ Window.reset.lasterr = 0) ∧
  (∀ e, (partStart e).psched = BitVec.ofNat 64 (2 * 2 ^ 40 + 2000) ∧ (partStart e).psroot = 0 ∧ (partStart e).refused = 0)

/-- Memory stays in canonical form in every step: addresses rise, and no byte is listed that reads as it would unlisted. -/
def Obligations.StepKeepsMemory : Prop :=
  ∀ (s t : State), Memory.wf s.mem → step s = .next t → Memory.wf t.mem

/-! ### Lane instructions -/

/-- The lane integer instructions and immediates (R261 to R264) complete: every active lane takes its result, nothing else of
the machine changes. The lane floating-point instructions (R268 to R272) likewise. The cross-lane instructions that write lane
registers, packing and random numbers (R273 to R283) likewise: they read the lanes of their span and write the active ones. -/
def Obligations.LaneResult : Prop :=
  (∀ (i : Instr) (F : LaneForm) (s : State) (I : Issuer), laneIntForm i = some F → Issues s i true F.uses I →
     ∃ t, exec i s = .next t ∧ LaneStep (s.afterOperands F.uses) I .ring
       (fun j L => if I.sub.active j then L.took (s.window I) I.sub.depth F.dst (F.val (s.reads I F.uses) j)
         else L.missed I.sub.depth) t) ∧
  (∀ (i : Instr) (F : LaneForm) (s : State) (I : Issuer), laneFloatForm i = some F → Issues s i true F.uses I →
     ∃ t, exec i s = .next t ∧ LaneStep (s.afterOperands F.uses) I .ring
       (fun j L => if I.sub.active j then L.took (s.window I) I.sub.depth F.dst (F.val (s.reads I F.uses) j)
         else L.missed I.sub.depth) t) ∧
  (∀ (i : Instr) (F : LaneForm) (s : State) (I : Issuer), laneCrossForm i = some F → Issues s i true F.uses I →
     ∃ t, exec i s = .next t ∧ LaneStep (s.afterOperands F.uses) I .ring
       (fun j L => if I.sub.active j then L.took (s.window I) I.sub.depth F.dst (F.val (s.reads I F.uses) j)
         else L.missed I.sub.depth) t)

/-- Comparisons, predicate logic and VOTE (R265 to R267, R278) write their predicate in the active lanes, leave the latch rings
as they are, and change nothing else. ADDC, SUBB and MADC (R263): the result registers, the latch ring and the carry of every
active lane. -/
def Obligations.LanePredicates : Prop :=
  (∀ (i : Instr) (F : PredForm) (s : State) (I : Issuer), lanePredForm i = some F → Issues s i true (.prd F.dst :: F.uses) I →
     ∃ t, exec i s = .next t ∧ LaneStep (s.afterOperands F.uses) I .straight
       (fun j L => if I.sub.active j then L.setPred F.dst.toNat (F.val (s.reads I F.uses) j) else L) t) ∧
  (∀ (i : Instr) (F : CarryForm) (s : State) (I : Issuer), laneCarryForm i = some F → Issues s i true F.uses I →
     ∃ t, exec i s = .next t ∧ LaneStep s I .ring
       (fun j L => if I.sub.active j then
           (L.took (s.window I) I.sub.depth ⟨false, F.dst⟩ (F.val (s.reads I F.uses) j).1).setPred F.p.toNat
             (F.val (s.reads I F.uses) j).2
         else L.missed I.sub.depth) t)

/-! ### Uniform arithmetic and control -/

/-- The uniform arithmetic instructions (R244 to R248) complete: every slice of the issuer takes the value in the destination
unless the write is suppressed, and nothing else changes. -/
def Obligations.UniformResult : Prop :=
  ∀ (i : Instr) (F : UniForm) (s : State) (I : Issuer), uniForm i = some F → Issues s i true F.uses I →
    ∃ t, exec i s = .next t ∧ SliceStep (s.afterOperands F.uses) I .straight
      (fun S => S.putDst F.dst (F.val (uniVal (s.window I) (s.latchSeed F.uses) I.sub) I.sub)) t

/-- BR, BRZ, BRNZ, BRP, LOOP, CALL and RET (R249 to R253): with one outcome the issuer continues at the target or at the next
word; with two it splits, the slices that take the branch under a new name. Nothing else changes. JMPI (R253): slice n goes to
its own sum of a and b, taken before the link is written; slices with one target stay together, and each target is one part of
the issuer. -/
def Obligations.ControlResult : Prop :=
  (∀ (i : Instr) (F : BranchForm) (s : State) (I : Issuer), branchForm i = some F → Issues s i false F.uses I →
     let write := fun (x : Nat × Slice) => (x.1, F.write I.sub x.2)
     let yes := (I.sub.slices.filter fun x => F.taken (s.window I) I.sub x.1 x.2).map write
     let no := (I.sub.slices.filter fun x => !F.taken (s.window I) I.sub x.1 x.2).map write
     ∃ t, exec i s = .next t ∧
       (no = [] → t = s.setSub I.t I.u (I.sub.goes (F.target I.sub) yes)) ∧
       (yes = [] → no ≠ [] → t = s.setSub I.t I.u (I.sub.goes (I.sub.pc + 4) no)) ∧
       (yes ≠ [] → no ≠ [] →
         t = { (s.setSub I.t I.u (I.sub.goes (I.sub.pc + 4) no)).setSub I.t s.nextId
                 { I.sub.goes (F.target I.sub) yes with reports := [] } with nextId := s.nextId + 1 })) ∧
  (∀ (d : UDst) (a b : Opnd) (s : State) (I : Issuer), Issues s (.jmpi d a b) false [.src a, .src b, .udst d 1 false] I →
     ∃ parts : List (Word × KMap Slice), exec (.jmpi d a b) s = .next (splitInto s I I.sub parts) ∧
       (parts.map fun p => p.1).Nodup ∧
       ∀ (pc : Word) (n : Nat) (S : Slice), (∃ p ∈ parts, p.1 = pc ∧ (n, S) ∈ p.2) ↔
         ∃ S0, (n, S0) ∈ I.sub.slices ∧ S = S0.putDst d (I.sub.pc + 4) ∧
           pc = sliceVal (s.window I) I.sub a n S0 + sliceVal (s.window I) I.sub b n S0)

/-- The mask instructions (R258) act on every slice of the issuer, and change nothing else. A mask instruction that finds a
slice at a depth it cannot act on traps as a whole with group 9, and no slice changes (R258). -/
def Obligations.MaskResult : Prop :=
  (∀ (i : Instr) (F : MaskForm) (s : State) (I : Issuer), maskForm i = some F → Issues s i true F.uses I →
     (∀ x ∈ I.sub.slices, F.bad x.2 = false) → ∃ t, exec i s = .next t ∧ SliceStep s I .straight F.act t) ∧
  (∀ (i : Instr) (F : MaskForm) (s : State) (I : Issuer), maskForm i = some F → Issues s i true F.uses I →
     (∃ x ∈ I.sub.slices, F.bad x.2 = true) →
     exec i s = .next (takeTrap s I.t I.u ⟨9, F.code, 0xFF, 0, wordOf i, false, none, I.sub.pc⟩))

/-- NOP has no effect and is straight; YIELD only asks the sequencer to pass the issuer over; a REGANG of a whole gang only sets
the run depth to 0 (R254, R255). REGANG of a sub-gang whose gang has another that does not wait: it waits at its address (R107).
WAITC (R259) retires once, in every slice, every selected count is at or below the limit; until then it waits. -/
def Obligations.NoEffectOrWait : Prop :=
  (∀ (s : State) (I : Issuer), s.issuer = some I →
     exec .nop s = .next (s.setSub I.t I.u (I.sub.retire .straight)) ∧
     exec .yield s = .next (s.setSub I.t I.u { I.sub.retire .other with yield := some s.stamp }) ∧
     ((I.tile.subsOf I.sub.gang).length ≤ 1 → exec .regang s = .next (s.setSub I.t I.u (I.sub.retire .other)))) ∧
  (∀ (s : State) (I : Issuer) (v : Nat) (V : Sub), s.issuer = some I → I.sub.gang = V.gang → v ≠ I.u →
     kget I.tile.subs v = some V → V.regang = none → I.sub.owesUniform = false →
     exec .regang s = .next (s.setSub I.t I.u { I.sub with regang := some I.sub.pc, depth := 0 })) ∧
  (∀ (a : Opnd) (sel : BitVec 5) (s : State) (I : Issuer), Issues s (.waitc a sel) false [.src a] I →
     ((∀ x ∈ I.sub.slices, ∀ k, k < 5 → sel.getLsbD k = true → x.2.outstanding k ≤ (uniVal (s.window I) 0 I.sub a).toNat) →
       exec (.waitc a sel) s = .next (s.setSub I.t I.u (I.sub.retire .other))) ∧
     (¬ (∀ x ∈ I.sub.slices, ∀ k, k < 5 → sel.getLsbD k = true → x.2.outstanding k ≤ (uniVal (s.window I) 0 I.sub a).toNat) →
       Waits s (.waitc a sel) I))

/-! ### Loads, stores and atomics -/

/-- A load, store or atomic (R285 to R292) that waits for nothing issues its accesses, lane by lane; with no active lane it has
no effect. One that does not go out waits, with no effect but its mark (R131, R137, R142, R149). -/
def Obligations.MemoryIssues : Prop :=
  (∀ (i : Instr) (F : MemForm) (s : State) (I : Issuer), memForm i = some F → Issues s i false F.uses I → I.gang.free →
     (F.lanes (s.window I) I.sub = [] → exec i s = .next (s.setSub I.t I.u (I.sub.retire .other))) ∧
     (F.lanes (s.window I) I.sub ≠ [] → Goes s i F I →
       ∃ t, exec i s = .next t ∧ issueMemory s I (s.window I) i F.spad F.kind (F.accesses s I) = .next t)) ∧
  (∀ (i : Instr) (F : MemForm) (s : State) (I : Issuer), memForm i = some F → Issues s i false F.uses I →
     F.lanes (s.window I) I.sub ≠ [] → ¬ Goes s i F I → Waits s i I)

/-- All of its accesses performed at issue: each active lane, or each slice of a uniform instruction, takes the words its access
gives; an acquire also empties the L1 read cache; nothing else changes but what the accesses themselves change. -/
def Obligations.MemoryResult : Prop :=
  ∀ (i : Instr) (F : MemForm) (s : State) (I : Issuer), memForm i = some F → Issues s i false F.uses I → I.gang.free →
    F.lanes (s.window I) I.sub ≠ [] → Goes s i F I → (∀ x ∈ I.sub.slices, x.2.log = []) →
    let m := F.made s I (F.accesses s I).length
    (∀ a ∈ m.2, a.st = .done) →
    let t := m.1.setSub I.t I.u { I.sub.retire .other with
      slices := I.sub.slices.map fun (n, S) => (n, (ofSlice n m.2).foldl (F.put (s.window I)) S) }
    exec i s = .next (if acquires i then t.l1Clear I.t else t)

/-- Whatever becomes of it, while a trap of the issuer finds its handler, every byte of memory outside the bytes its accesses
store to reads as before. -/
def Obligations.MemoryFrame : Prop :=
  ∀ (i : Instr) (F : MemForm) (s t : State) (I : Issuer) (x : Nat), memForm i = some F → s.issuer = some I → I.gang.free →
    I.sub.inh = false → I.block.rcd.handler ≠ 0 → exec i s = .next t →
    (∀ k a, (F.accesses s I)[k]? = some a → ∀ pa, F.storesAt (F.made s I k).1 I a = some pa → x < pa ∨ pa + F.kind.size ≤ x) →
    cellGet t.mem x = cellGet s.mem x

/-- A load at its own die (R123, R124, R133): every byte is that of the newest held store of its gang to it, else of the L1
line, else of memory; a poisoned line it must read from memory faults the access with group 15, code 5. Memory is as before. A
store at its own die writes its datum's low bytes, lowest at the lowest address, and no other byte of memory. An atomic at its
own die answers with the old value and writes the new one (R290); at a poisoned line it faults. -/
def Obligations.OwnAccess : Prop :=
  (∀ (s : State) (I : Issuer) (seq n fa : Nat) (o : MOrd) (a : Access) (e : TlbEntry), Near s I (.load n o) a fa e → n ≤ 16 →
     let pa := fa % 2 ^ 42
     let r := issueAccess s I seq false (.load n o) a
     r.1.mem = s.mem ∧
     (∀ bs, l1Line s I.t pa o = some bs → pa % 128 + n ≤ bs.length → r.2.st = .done ∧
       ∀ k, k < n → datumByte r.2.data k = (heldByte (heldOf s I) (fa + k)).getD (bs.getD (pa % 128 + k) 0)) ∧
     (l1Line s I.t pa o = none → ¬ s.spoilt pa n → r.2.st = .done ∧
       ∀ k, k < n → datumByte r.2.data k = (heldByte (heldOf s I) (fa + k)).getD (cellGet s.mem (pa + k))) ∧
     (l1Line s I.t pa o = none → s.spoilt pa n → ∃ k, k < n ∧ s.spoilt (pa + k) 1 ∧
       r.2.st = .faulted 15 5 (BitVec.ofNat 64 (128 * ((pa + k) / 128))))) ∧
  (∀ (s : State) (I : Issuer) (seq n fa : Nat) (a : Access) (e : TlbEntry), Near s I (.store n) a fa e → noneHeld s I →
     let pa := fa % 2 ^ 42
     let r := issueAccess s I seq false (.store n) a
     r.2.st = .done ∧ ∀ x, cellGet r.1.mem x = if pa ≤ x ∧ x < pa + n then datumByte a.data (x - pa) else cellGet s.mem x) ∧
  (∀ (s : State) (I : Issuer) (seq op w fa : Nat) (a : Access) (e : TlbEntry), Near s I (.atomic op w) a fa e → a.mask = 0 →
     w = 32 ∨ w = 64 →
     let pa := fa % 2 ^ 42
     let r := issueAccess s I seq false (.atomic op w) a
     let old := leNat (s.bytes pa (w / 8))
     let new := atomicOp op w old (a.data.toNat % 2 ^ w) (a.data.toNat / 2 ^ 64 % 2 ^ w)
     (¬ s.spoilt pa (w / 8) → r.2.st = .done ∧ r.2.data.toNat = old ∧
       ∀ x, cellGet r.1.mem x = if pa ≤ x ∧ x < pa + w / 8 then BitVec.ofNat 8 (new / 256 ^ (x - pa)) else cellGet s.mem x) ∧
     (s.spoilt pa (w / 8) → r.1.mem = s.mem ∧ ∃ k, k < w / 8 ∧ s.spoilt (pa + k) 1 ∧
       r.2.st = .faulted 15 5 (BitVec.ofNat 64 (128 * ((pa + k) / 128)))))

/-- A store of a gang that holds its writes changes no memory: it joins the end of the gang's share (R133). -/
def Obligations.HeldStore : Prop :=
  ∀ (s : State) (I : Issuer) (G : Gang) (seq n fa : Nat) (a : Access) (e : TlbEntry),
    check s I.t I.block.vf I.block.world a.addr .write n = .ok (fa, e) →
    kget (s.tile I.t).gangs I.sub.gang = some G → G.retry.holding = true →
    let r := issueAccess s I seq false (.store n) a
    r.2.st = .done ∧ r.1.mem = s.mem ∧ r.1.wire.length = s.wire.length ∧ r.1.outs = s.outs ∧
    ∃ bs, bs.length = n ∧ (∀ k, k < n → bs.getD k 0 = datumByte a.data k) ∧
      heldOf r.1 I = G.retry.held ++ [.store a.lane a.addr fa bs]

/-- An access that fails a check has no effect but its fault, the cause of the first check that fails. An access to another die
of the package, on a path that is up, stays pending. Where no message waits to leave its die, the first boundary of the path has
room and a write is not stalled, it leaves as a message behind every one already on its way, a store or atomic counted in its
die's own vector entry first; where messages wait, it waits behind them (R145, R146). -/
def Obligations.FarAccess : Prop :=
  (∀ (s : State) (I : Issuer) (seq : Nat) (k : MemKind) (a : Access) (c : Cause),
     check s I.t I.block.vf I.block.world a.addr k.need k.size = .error c →
     issueAccess s I seq false k a = (s, { a with st := .faulted c.group c.code c.datum })) ∧
  (∀ (s : State) (I : Issuer) (seq fa : Nat) (k : MemKind) (a : Access) (e : TlbEntry),
     check s I.t I.block.vf I.block.world a.addr k.need k.size = .ok (fa, e) → fa / 2 ^ 42 = s.node →
     let pa := fa % 2 ^ 42
     let d := dieOf I.t
     homeOf pa ≠ d → s.cutOffDies d (homeOf pa) = false → noneHeld s I →
     (∀ n o, k = .load n o → l1Line s I.t pa o = none) → (s.die d).vec.length = 5 → d < 5 →
     k.size ≤ 16 →
     let r := issueAccess s I seq false k a
     let writes := match k with | .load _ _ => false | _ => true
     let room := ∀ b, s.firstEnd d (homeOf pa) = some b → (s.boundary b).kept.length < 512
     r.2.st = .pending ∧ r.1.mem = s.mem ∧
     ((s.die d).outq = [] → room → (writes = true → s.writeStalled d = false) →
       ∃ m, r.1.wire.length = s.wire.length + 1 ∧ r.1.wire.getLast? = some m ∧ m.src = d ∧ m.dst = homeOf pa ∧ m.tile = I.t ∧
         m.seq = seq ∧ m.lane = a.lane ∧ m.body.writes = writes ∧
         ent (r.1.die d).vec d = ent (s.die d).vec d + (if writes then 1 else 0) ∧ m.own = ent (r.1.die d).vec d) ∧
     ((s.die d).outq ≠ [] →
       ∃ m, (r.1.die d).outq.length = (s.die d).outq.length + 1 ∧ (r.1.die d).outq.getLast? = some m ∧ m.src = d ∧
         m.dst = homeOf pa ∧ m.tile = I.t ∧ m.seq = seq ∧ m.lane = a.lane ∧ m.body.writes = writes ∧
         ent (r.1.die d).vec d = ent (s.die d).vec d ∧ r.1.wire.length = s.wire.length))

/-- An access to a place in a scratchpad (R119, R285): a load gives the bytes there, a store writes them, an atomic does both;
memory and every other byte of the allotment are as before. Where a scratchpad access of a placed block goes, and the traps of
one that has no place (R119). A detached continuation has no scratchpad (R115). -/
def Obligations.ScratchAccess : Prop :=
  (∀ (s : State) (I : Issuer) (seq : Nat) (k : MemKind) (a : Access) (p : SpadAt) (B : Block),
     s.spadFind I (a.addr.setWidth 32) k.size = .ok (some p) → kget (s.tile p.t).blocks p.ctx = some B →
     ((∀ n, k ≠ .store n) → s.spadMark p k.size = none) → k.size ≤ 16 →
     let r := issueAccess s I seq true k a
     let old := leNat (B.spadBytes p.off k.size)
     let new := match k with
       | .load _ _ => old
       | .store _ => a.data.toNat
       | .atomic op w => atomicOp op w old (a.data.toNat % 2 ^ 64 % 2 ^ w) (a.data.toNat / 2 ^ 64 % 2 ^ w)
     r.2.st = .done ∧ r.1.mem = s.mem ∧ ((∀ n, k ≠ .store n) → r.2.data.toNat = old) ∧
     ∃ B', kget (r.1.tile p.t).blocks p.ctx = some B' ∧ ∀ x, B'.spadByte x =
       if p.off ≤ x ∧ x < p.off + k.size then BitVec.ofNat 8 (new / 256 ^ (x - p.off)) else B.spadByte x) ∧
  (∀ (s : State) (I : Issuer) (addr : W32) (n : Nat), I.gang.detached = false → I.block.proxy = none →
     n = 1 ∨ n = 2 ∨ n = 4 ∨ n = 8 ∨ n = 16 →
     let sel := addr.toNat / 2 ^ 30
     let off := addr.toNat % 2 ^ 21
     let inside := sel < I.block.rcd.cgsize ∧ addr.toNat / 2 ^ 21 % 2 ^ 9 = 0 ∧ off + n ≤ I.block.rcd.spad * 4096
     (¬ inside → s.spadFind I addr n = .error ⟨4, 5, BitVec.ofNat 64 addr.toNat⟩) ∧
     (inside → addr.toNat % n ≠ 0 → ∃ k, 2 ^ k = n ∧ s.spadFind I addr n = .error ⟨5, BitVec.ofNat 8 k, BitVec.ofNat 64 addr.toNat⟩) ∧
     (inside → addr.toNat % n = 0 → ∀ t c, I.block.peers[sel]? = some (t, c) → t < 256 → (s.tile t).mode = .run →
       s.spadFind I addr n = .ok (some ⟨t, c, off⟩))) ∧
  (∀ (s : State) (I : Issuer) (addr : W32) (n : Nat), I.gang.detached = true →
     s.spadFind I addr n = .error ⟨4, 6, BitVec.ofNat 64 addr.toNat⟩)

/-- What an access is checked for once its address is translated, first to last (R128, R205): the security of its memory, the
permissions of its page, its alignment. -/
def Obligations.AccessChecks : Prop :=
  ∀ (s : State) (t vf : Nat) (world : Bool) (va : Word) (need : Need) (n : Nat) (e : TlbEntry), lookup s t vf va = .ok e →
    let fa := e.out + (va.toNat - e.va)
    let sec := if fa / 2 ^ 42 = s.node then security s world (fa % 2 ^ 42) else none
    (∀ c, sec = some c → check s t vf world va need n = .error ⟨18, c, va⟩) ∧
    (sec = none → e.permits need = false → check s t vf world va need n = .error ⟨4, need.code, va⟩) ∧
    (sec = none → e.permits need = true → va.toNat % n ≠ 0 → check s t vf world va need n = .error ⟨5, BitVec.ofNat 8 n.log2, va⟩) ∧
    (sec = none → e.permits need = true → va.toNat % n = 0 → check s t vf world va need n = .ok (fa, e))

/-- The operations of the atomics (R290), of w bits. -/
def Obligations.AtomicOperations : Prop :=
  ∀ (w x y z : Nat), w = 32 ∨ w = 64 → x < 2 ^ w → y < 2 ^ w → z < 2 ^ w →
    let int : Nat → Int := fun v => if v < 2 ^ (w - 1) then (v : Int) else v - 2 ^ w
    atomicOp 0 w x y z = (x + y) % 2 ^ w ∧
    (w = 32 → atomicOp 1 w x y z = (fadd (BitVec.ofNat 32 x) (BitVec.ofNat 32 y)).toNat) ∧
    atomicOp 2 w x y z = (if int x ≤ int y then x else y) ∧
    atomicOp 3 w x y z = (if int x ≤ int y then y else x) ∧
    atomicOp 4 w x y z = min x y ∧
    atomicOp 5 w x y z = max x y ∧
    atomicOp 6 w x y z = x &&& y ∧
    atomicOp 7 w x y z = x ||| y ∧
    atomicOp 8 w x y z = x ^^^ y ∧
    atomicOp 9 w x y z = y ∧
    atomicOp 10 w x y z = (if x = y then z else x)

/-! ### Traps -/

/-- A trap of a sub-gang with a handler and INH clear (R204, R207): every slice finds the same trap registers, issue continues
at the handler with run depth 0, and nothing else of the machine changes. A cause that finds INH set or no handler ends its
block as unrecovered (R209, R217): no block is left in its context, and none of its gangs, sub-gangs or continuations; its grid
counts one more end, its die one more unrecovered block; the grid's other blocks end with it where its region's fault policy
says so. -/
def Obligations.TrapEntry : Prop :=
  (∀ (s : State) (t u : Nat) (U : Sub) (G : Gang) (B : Block) (tr : Trap), kget (s.tile t).subs u = some U →
     kget (s.tile t).gangs U.gang = some G → kget (s.tile t).blocks G.ctx = some B → U.inh = false → B.rcd.handler ≠ 0 →
     tr.group < 32 → (∀ k, tr.log = some k → k < 8) →
     ∃ c, CauseWord c tr ∧ takeTrap s t u tr = s.setSub t u { U with
       slices := U.slices.map fun (n, S) => (n, S.entered c tr U.depth)
       pc := B.rcd.handler, depth := 0, svResume := U.resume, resume := none, bpSkip := none, stall := none, binWait := none,
       regang := none }) ∧
  (∀ (s : State) (t u : Nat) (U : Sub) (G : Gang) (B : Block) (tr : Trap), kget (s.tile t).subs u = some U →
     kget (s.tile t).gangs U.gang = some G → kget (s.tile t).blocks G.ctx = some B → U.inh = true ∨ B.rcd.handler = 0 →
     B.proxy = none →
     let f := s.failBlock t G.ctx
     (∀ x ∈ (f.tile t).blocks, x.1 ≠ G.ctx) ∧ (∀ x ∈ (f.tile t).gangs, x.2.ctx ≠ G.ctx) ∧
     (∀ x ∈ (f.tile t).conts, x.2.uid ≠ B.uid) ∧
     (∀ v V X, (v, V) ∈ (f.tile t).subs → (V.gang, X) ∈ (s.tile t).gangs → X.ctx ≠ G.ctx) ∧
     (∀ X, kget s.grids B.grid = some X → kget f.grids B.grid = some { X with ended := X.ended + 1, unrec := true }) ∧
     bits (f.die (dieOf t)).errcnt.toNat 7 0 = min 255 (bits (s.die (dieOf t)).errcnt.toNat 7 0 + 1) ∧
     ((∀ X, kget s.grids B.grid = some X → X.fdp.getLsbD 2 = false) → takeTrap s t u tr = f) ∧
     (∀ X, kget s.grids B.grid = some X → X.fdp.getLsbD 2 = true → takeTrap s t u tr = f.failGrid B.grid))

/-- TRAP and BRK (R366) trap with groups 20 and 12 and their immediate; TEPC is the next instruction. -/
def Obligations.TrapInstructions : Prop :=
  ∀ (imm : BitVec 24) (s : State) (I : Issuer), s.issuer = some I →
    let at0 := s.setSub I.t I.u { I.sub with depth := 0 }
    exec (.trap imm) s = .next (takeTrap at0 I.t I.u ⟨20, 0, 0xFF, 0, imm.setWidth 64, false, none, I.sub.pc + 4⟩) ∧
    exec (.brk imm) s = .next (takeTrap at0 I.t I.u ⟨12, 4, 0xFF, 0, imm.setWidth 64, false, none, I.sub.pc + 4⟩)

/-- TRET (R208, R366): with INH clear it traps with group 1, code 3; in a handler, with no faulted log entry, every slice's INH
is clear and its rings are restored, and the sub-gang goes on at TEPC with the saved run depth. -/
def Obligations.TrapReturn : Prop :=
  ∀ (s : State) (I : Issuer), s.issuer = some I →
    (I.sub.inh = false → exec .tret s = .next (takeTrap s I.t I.u ⟨1, 3, 0xFF, 0, 0xF3000000, false, none, I.sub.pc⟩)) ∧
    ∀ n S, I.sub.low = some (n, S) → S.tcause.getLsbD 15 = true → (∀ x ∈ I.sub.slices, ∀ e ∈ x.2.log, e.faulted = false) →
      exec .tret s = .next (s.setSub I.t I.u { I.sub with
        slices := I.sub.slices.map fun (n, S) => (n, S.left)
        pc := S.tepc, depth := S.svDepth, resume := I.sub.svResume, svResume := none, stall := none, binWait := none
        bpSkip := if bits S.tcause.toNat 4 0 = 12 ∧ bits S.tcause.toNat 31 24 < 4 then some (bits S.tcause.toNat 31 24) else none })

/-! ### System registers -/

/-- SRD (R363) of a listed register with its rights writes the register's value in every slice. What the registers read (R12,
R16, R19, R21, R26, R96, R99, R128, R168, R204, R210, R219, R363, R365): a slice's register is that of the issuer's lowest
slice, and a write-only register reads 0. -/
def Obligations.SystemRead : Prop :=
  (∀ (d : BitVec 5) (r : SysReg) (k : BitVec 8) (s : State) (I : Issuer), Issues s (.srd d r k) false [.out d.toNat 1] I →
     SysOk s I r k.toNat false →
     ∃ t, exec (.srd d r k) s = .next t ∧ SliceStep s I .other (fun S => S.putDst ⟨false, d⟩ (s.sysRead I r k.toNat)) t) ∧
  (∀ (s : State) (I : Issuer) (n : Nat) (S : Slice) (P : Part), I.sub.low = some (n, S) → s.part I.block.part = some P →
     let rd := fun r k => s.sysRead I r k
     let st := (match I.gang.retry.st with | .never => 0 | .run => 1 | .retry => 2 | .lasting => 3 | .nonretry => 4)
     (rd .tcause 0 = S.tcause ∧ rd .tepc 0 = S.tepc ∧ rd .tdet0 0 = S.tdet0.setWidth 64 ∧ rd .tdet1 0 = S.tdet1.setWidth 64 ∧
       rd .tdet2 0 = S.tdet2.setWidth 64 ∧ rd .tscr0 0 = S.tscr0 ∧ rd .tscr1 0 = S.tscr1 ∧ rd .tscr2 0 = S.tscr2 ∧
       rd .tscr3 0 = S.tscr3) ∧
     (let g := (rd .gstat 0).toNat;
       bits g 2 0 = st ∧ bits g 3 3 = 0 ∧ bits g 7 4 = I.gang.retry.attempts % 16 ∧ bits g 8 8 = 0 ∧ bits g 9 9 = bit I.gang.isStage ∧
       bits g 10 10 = bit I.gang.feeder ∧ bits g 11 11 = bit I.gang.detached ∧ bits g 63 12 = 0) ∧
     (I.block.proxy = none → rd .tctl 0 = I.block.tctl) ∧
     (∀ k, rd .bpc k = kgetD I.tile.bpc k 0 ∧ rd .thstat k = (s.die k).thstat ∧ rd .gpstat k = (s.port k).stat ∧
       rd .errcnt k = (s.die k).errcnt ∧ rd .dlstat k = (s.boundary k).stat ∧ bits (rd .trev k).toNat 31 24 = 0xD8) ∧
     (rd .dcyc 0 = (s.die (dieOf I.t)).dcyc ∧ rd .dusec 0 = (s.die (dieOf I.t)).dusec ∧ rd .gnode 0 = s.gnode ∧ rd .psroot 0 = P.psroot) ∧
     (∀ k j, j < 64 → ((rd .tfence k).getLsbD j = true ↔ 64 * k + j ∈ s.tfence ∧ P.hasTile (64 * k + j) = true)) ∧
     (∀ k j, j < 64 → k < 256 → ((rd .fwtab k).getLsbD j = true ↔
       (k / 16 / 4) * 4096 + (k / 16 % 4) * 1024 + 64 * (k % 16) + j ∈ s.fwtab)) ∧
     (bits (rd .pshlog 0).toNat 15 0 = min (s.norev P) 65535 ∧ bits (rd .pshlog 0).toNat 31 24 = P.lastSlot.toNat ∧
       bits (rd .pshlog 0).toNat 23 16 = P.lastErr.toNat ∧ bits (rd .pshlog 0).toNat 47 32 = P.refused.toNat) ∧
     rd .tlbinv 0 = 0 ∧ rd .shdisc 0 = 0 ∧ rd .skreq 0 = 0)

/-- SWR (R363) of a register of the slices, the block, the tile, a die or the partition, with its rights: the register takes the
bits that can be written, and nothing else changes. -/
def Obligations.SystemWrite : Prop :=
  ∀ (d : BitVec 5) (r : SysReg) (k : BitVec 8) (s : State) (I : Issuer), Issues s (.swr d r k) false [.sreg d.toNat 1] I →
    SysOk s I r k.toNat true →
    let x := I.sub.sreg d.toNat
    let goes := fun (s' : State) => exec (.swr d r k) s = .next (s'.setSub I.t I.u (I.sub.retire .other))
    (∀ f, sliceWrite r x = some f → ∃ t, exec (.swr d r k) s = .next t ∧ SliceStep s I .other f t) ∧
    (r = .tctl → ∃ y, keepsBits y x (· < 2) ∧
      goes (s.mapBlock (I.block.proxy.getD I.block.uid) fun B => { B with tctl := y })) ∧
    (r = .bpc → ∃ y, keepsBits y x (fun b => b ≠ 1 ∧ b < 64) ∧
      goes (s.setTile I.t { I.tile with bpc := kset I.tile.bpc k.toNat y })) ∧
    (r = .thstat → ∃ y, keepsBits y (s.die k.toNat).thstat (fun b => ¬ (b = 10 ∧ x.getLsbD 10 = true)) ∧
      goes (s.setDie k.toNat { s.die k.toNat with thstat := y })) ∧
    (∀ P, r = .psroot → s.part I.block.part = some P → ∃ y, keepsBits y x (fun b => b = 0 ∨ (15 ≤ b ∧ b < 48)) ∧
      goes (s.setPart I.block.part { P with psroot := y }))

/-- The traps of SRD and SWR (R363): a number the table does not list with group 1, code 2; an instance out of range with group
2, code 8; missing rights, and a write to a register that is read-only in every field, with group 2, code 9. -/
def Obligations.SystemTraps : Prop :=
  ∀ (d : BitVec 5) (r : SysReg) (k : BitVec 8) (write : Bool) (s : State) (I : Issuer),
    let i : Instr := if write then .swr d r k else .srd d r k
    Issues s i false [.sreg d.toNat 1] I →
    let traps := fun (g : Nat) (c : Byte) => ∃ x : Word, x.setWidth 32 = (wordOf i).setWidth 32 ∧
      exec i s = .next (takeTrap { s with free := s.free + 1 } I.t I.u ⟨g, c, 0xFF, 0, x, false, none, I.sub.pc⟩)
    (sysRow r = none → traps 1 2) ∧
    (∀ n rt w, sysRow r = some (n, rt, w) → n ≤ k.toNat → traps 2 8) ∧
    (∀ n rt w, sysRow r = some (n, rt, w) → k.toNat < n → ¬ s.holdsRights I rt ∨ (write = true ∧ w = false) → traps 2 9)

/-- SWR to SHDISC (R100, R363): with no complete sheaf in the slot it traps with group 17, code 1, with a restore in progress
with code 2, and otherwise the slot is freed. -/
def Obligations.SheafDiscard : Prop :=
  ∀ (d : BitVec 5) (k : BitVec 8) (s : State) (I : Issuer) (P : Part), Issues s (.swr d .shdisc k) false [.sreg d.toNat 1] I →
    SysOk s I .shdisc k.toNat true → s.part I.block.part = some P →
    let slot := (I.sub.sreg d.toNat).toNat % 256
    let traps := fun (c : Byte) =>
      exec (.swr d .shdisc k) s = .next (takeTrap s I.t I.u ⟨17, c, 0xFF, 0, BitVec.ofNat 64 slot, false, none, I.sub.pc⟩)
    (kget P.sheaves slot = none → traps 1) ∧
    (∀ h, kget P.sheaves slot = some h → h.complete = false → traps 1) ∧
    (∀ h, kget P.sheaves slot = some h → h.complete = true → h.restoring = true → traps 2) ∧
    (∀ h, kget P.sheaves slot = some h → h.complete = true → h.restoring = false → ∃ t, exec (.swr d .shdisc k) s = .next t ∧
      ∀ P', t.part I.block.part = some P' → kget P'.sheaves slot = none)

/-! ### Fences, monitors, barriers and timelines -/

/-- FENCE (R294): while an access of the issuer is pending, or at domain or system scope a command of its block that R149 names,
it waits; then it completes, and an acquire empties the L1 read cache. -/
def Obligations.FenceResult : Prop :=
  ∀ (sc : Scope) (k : FenceKind) (s : State) (I : Issuer), s.issuer = some I →
    let waits := I.sub.quiet = false ∨ (5 ≤ sc.rank ∧ fabricBusy s.node I = true)
    (waits → Waits s (.fence sc k) I) ∧
    (¬ waits → k = .acq ∨ sc.rank < 2 ∨ I.gang.free → exec (.fence sc k) s = .next
      ((if k = .rel then s else s.l1Clear I.t).setSub I.t I.u (I.sub.retire .other))) ∧
    ((s.l1Clear I.t).tile I.t).l1 = [] ∧ (s.l1Clear I.t).mem = s.mem

/-- MONARM (R295, R296): after the checks of a read, an address outside this package's DRAM traps with group 9, code 5, an
unlisted condition with code 6; else every slice of the issuer holds the monitor, and nothing else changes but the TLB. MONWAIT
(R297): with no monitor of its width it traps with group 9, code 4, at a poisoned line with group 15, code 5, in memory closed to
its world with group 18. Else it reads the monitored bytes once: where the condition holds the value is written, the monitor ends and L1 is emptied; where it does not, a
stage gang waits (log 32) and any other parks on its monitor. -/
def Obligations.MonitorResult : Prop :=
  (∀ (r addr : BitVec 5) (ty : Ty2) (s : State) (I : Issuer), Issues s (.monarm (.s r) addr ty) false [.uniPair (.s r) 2, .sreg addr.toNat 1] I →
     let i : Instr := .monarm (.s r) addr ty
     let va := I.sub.sreg addr.toNat
     let c := I.sub.sreg (r.toNat + 1)
     (∀ e, check s I.t I.block.vf I.block.world va .read ty.bytes = .error e → Traps s i I e.group e.code e.datum) ∧
     ∀ fa e, check s I.t I.block.vf I.block.world va .read ty.bytes = .ok (fa, e) →
       (fa / 2 ^ 42 ≠ s.node ∨ ¬ isDram (fa % 2 ^ 42) → Traps s i I 9 5 (wordOf i)) ∧
       (fa / 2 ^ 42 = s.node → isDram (fa % 2 ^ 42) → 4 ≤ c.toNat → Traps s i I 9 6 (wordOf i)) ∧
       (fa / 2 ^ 42 = s.node → isDram (fa % 2 ^ 42) → c.toNat < 4 → ∃ t, exec i s = .next t ∧
         SliceStep (s.fillTlb I.t e) I .other
           (fun S => { S with monitor := some ⟨fa % 2 ^ 42, va, ty, I.sub.sreg r.toNat, BitVec.ofNat 2 c.toNat⟩ }) t)) ∧
  (∀ (d : UDst) (ty : Ty2) (o : AOrd) (s : State) (I : Issuer) (m : Nat) (S : Slice), Issues s (.monwait d ty o) false [.udst d 1 false] I →
     I.sub.low = some (m, S) →
     let i : Instr := .monwait d ty o
     ((∀ M, S.monitor = some M → M.ty ≠ ty) → Traps s i I 9 4 (wordOf i)) ∧
     ∀ M, S.monitor = some M → M.ty = ty →
       let open' := I.sub.acquirePending = false ∧ I.sub.overlapsPending false ty.bytes ⟨none, M.va, 0, 0, false, .pending⟩ = false ∧
         s.homeOpen (dieOf I.t) (homeOf M.pa) (s.carried I.t) false = true
       let v := leNat (s.bytes M.pa ty.bytes)
       let holds := monitorCond M.cond.toNat (8 * ty.bytes) v (M.cmp.toNat % 2 ^ (8 * ty.bytes))
       let s1 := s.noteRead (dieOf I.t) (homeOf M.pa)
       (¬ open' → Waits s i I) ∧
       (open' → s.spoilt M.pa ty.bytes → ∃ k, k < ty.bytes ∧ s.spoilt (M.pa + k) 1 ∧
         Traps s i I 15 5 (BitVec.ofNat 64 (128 * ((M.pa + k) / 128)))) ∧
       (∀ c, open' → ¬ s.spoilt M.pa ty.bytes → security s I.block.world M.pa = some c → Traps s i I 18 c M.va) ∧
       (open' → ¬ s.spoilt M.pa ty.bytes → security s I.block.world M.pa = none → I.gang.free →
         (holds → ∃ t, exec i s = .next t ∧ SliceStep (s1.l1Clear I.t) I .other
           (fun S => { S.putDst d (BitVec.ofNat 64 v) with monitor := none }) t) ∧
         (¬ holds → I.gang.isStage = true → exec i s = .next (s1.setSub I.t I.u { I.sub with stall := some s.gen, issued := s.stamp })) ∧
         (¬ holds → I.gang.isStage = false → I.sub.logsEmpty = true → parkRoom I (some .monitor) →
           ∃ w t, exec i s = .next t ∧ Parks s1 I .monwait (some .monitor) w t)))

/-- The arrival barriers (R298, R299): BARINIT sets a barrier up, BARARV takes k from its expectation, BAREXP adds to its bytes,
each completing the phase when nothing is left; BARWAIT waits for a phase and empties L1. Operands out of range trap with group
9, codes 7 and 8. -/
def Obligations.BarrierResult : Prop :=
  ∀ (a b : Opnd) (s : State) (I : Issuer) (p : SpadAt) (B : Block),
    (∀ i ∈ [Instr.barinit a b, .bararv a b, .barexp a b, .barwait a b], Issues s i false [.src a, .src b] I) →
    let x := ((uniVal (s.window I) 0 I.sub a).setWidth 32 : W32)
    let n := (uniVal (s.window I) 0 I.sub b).toNat % 2 ^ 32
    s.spadFind I x 16 = .ok (some p) → kget (s.tile p.t).blocks p.ctx = some B → I.sub.acquirePending = false →
    ∀ e by' init ph, B.barrier p.off = (e, by', init, ph) →
    let goes := fun (i : Instr) w => ∃ s', BarrierStep s p w s' ∧ exec i s = .next (s'.setSub I.t I.u (I.sub.retire .other))
    let bytes := (BitVec.ofNat 32 by').toInt
    (1 ≤ n ∧ n < 2 ^ 31 → goes (.barinit a b) (n, 0, n, 0)) ∧
    (¬ (1 ≤ n ∧ n < 2 ^ 31) → Traps s (.barinit a b) I 9 7 (wordOf (.barinit a b))) ∧
    (I.sub.quiet = false → Waits s (.bararv a b) I) ∧
    (I.sub.quiet = true → I.gang.free → 1 ≤ n ∧ n ≤ e → goes (.bararv a b) (phaseStep (e - n) by' init ph)) ∧
    (I.sub.quiet = true → I.gang.free → ¬ (1 ≤ n ∧ n ≤ e) → Traps s (.bararv a b) I 9 8 (wordOf (.bararv a b))) ∧
    (I.gang.free → 1 ≤ n ∧ n < 2 ^ 31 ∧ bytes + n < 2 ^ 31 → goes (.barexp a b) (phaseStep e ((by' + n) % 2 ^ 32) init ph)) ∧
    (I.gang.free → ¬ (1 ≤ n ∧ n < 2 ^ 31 ∧ bytes + n < 2 ^ 31) → Traps s (.barexp a b) I 9 8 (wordOf (.barexp a b))) ∧
    ((ph + 2 ^ 33 - n - 1) % 2 ^ 32 < 2 ^ 31 → exec (.barwait a b) s = .next
      ((s.l1Clear I.t).setSub I.t I.u (I.sub.retire .other))) ∧
    (¬ (ph + 2 ^ 33 - n - 1) % 2 ^ 32 < 2 ^ 31 → Waits s (.barwait a b) I)

/-- TLQRY and TLWAIT (R115, R176, R301, R302): a detached gang and a stage gang trap with group 4; TLQRY reads both counters;
TLWAIT traps on a number ahead of ISSUE with group 9, code 9, completes and empties L1 once COMPL has reached it, and parks
until then. -/
def Obligations.TimelineResult : Prop :=
  ∀ (tc : BitVec 4) (s : State) (I : Issuer), s.issuer = some I →
    let T := I.block.tl tc
    (∀ d : UDst, Issues s (.tlqry tc d) false [.udst d 1 false] I →
      (I.gang.detached = true → TrapsFree s (.tlqry tc d) I 4 6) ∧
      (I.gang.detached = false → I.gang.isStage = true → TrapsFree s (.tlqry tc d) I 4 7) ∧
      (I.gang.detached = false → I.gang.isStage = false → ∃ t, exec (.tlqry tc d) s = .next t ∧
        SliceStep s I .other (fun S => S.putDst d (BitVec.ofNat 64 (T.issue.toNat * 2 ^ 32 + T.compl.toNat))) t)) ∧
    ∀ (x : Opnd) (us : List Use) (n : W32), (∀ m, I.sub.resume = some (.tlwait m) → us = [] ∧ n = m) →
      ((∀ m, I.sub.resume ≠ some (.tlwait m)) → us = [.src x] ∧ n = (uniVal (s.window I) 0 I.sub x).setWidth 32) →
      Issues s (.tlwait tc x) false us I →
      let ahead := (n.toNat + 2 ^ 32 - T.issue.toNat) % 2 ^ 32
      let reached := (T.compl.toNat + 2 ^ 32 - n.toNat) % 2 ^ 32 < 2 ^ 31
      (I.gang.detached = true → TrapsFree s (.tlwait tc x) I 4 6) ∧
      (I.gang.detached = false → I.gang.isStage = true → TrapsFree s (.tlwait tc x) I 4 7) ∧
      (I.gang.detached = false → I.gang.isStage = false →
        (1 ≤ ahead ∧ ahead < 2 ^ 31 → Traps s (.tlwait tc x) I 9 9 (wordOf (.tlwait tc x))) ∧
        (¬ (1 ≤ ahead ∧ ahead < 2 ^ 31) → I.sub.acquirePending = true → Waits s (.tlwait tc x) I) ∧
        (¬ (1 ≤ ahead ∧ ahead < 2 ^ 31) → I.sub.acquirePending = false → reached → exec (.tlwait tc x) s = .next
          ((s.l1Clear I.t).setSub I.t I.u (I.sub.retire .other))) ∧
        (¬ (1 ≤ ahead ∧ ahead < 2 ^ 31) → I.sub.acquirePending = false → ¬ reached → I.gang.free → I.sub.logsEmpty = true →
          parkRoom I (some (.timeline tc n)) →
          ∃ t, exec (.tlwait tc x) s = .next t ∧ Parks s I (.tlwait n) (some (.timeline tc n)) false t))

/-! ### Launch, suspend, spawn, exit -/

/-- LQRY (R362): selector 0 reads the block's context, flags, cluster size and tag; selector 1 its launches, the tag of the
oldest slot and the slots taken; a higher one traps. For a stage they are those of the owning block. -/
def Obligations.QueryResult : Prop :=
  ∀ (d : UDst) (a : Opnd) (s : State) (I : Issuer), Issues s (.lqry d a) false [.src a, .udst d 1 false] I →
    let sel := (uniVal (s.window I) 0 I.sub a).toNat
    (1 < sel → Traps s (.lqry d a) I 2 8 (wordDatum (.lqry d a) a.code)) ∧
    ∀ t ctx B, s.ownerOf I = some (t, ctx, B) → sel ≤ 1 → ∃ x st, exec (.lqry d a) s = .next st ∧
      SliceStep s I .other (fun S => S.putDst d (BitVec.ofNat 64 x)) st ∧
      (sel = 0 → x = ctx * 2 ^ 24 + B.rcd.retry.toNat * 2 ^ 19 + B.rcd.coop.toNat * 2 ^ 18 + B.rcd.cgcode * 2 ^ 16 + B.rcd.tag.toNat) ∧
      (sel = 1 → x = B.launches.toNat * 2 ^ 32 + (match B.pend with | p :: _ => p.tag.toNat | [] => 0) * 2 ^ 16 + B.pend.length)

/-- LAUNCH (R116, R356 to R358): a stage gang traps with group 4; with four launches pending it parks until a slot is free.
Else, once the issuer's accesses are performed, the record is read; a misaligned one, and one that fails a check, traps with
group 10; any other joins the tail of its region's queue, takes a slot of the block and counts as a launch. -/
def Obligations.LaunchResult : Prop :=
  ∀ (a : Opnd) (s : State) (I : Issuer) (us : List Use) (va : Word), (∀ m, I.sub.resume = some (.launch m) → us = [] ∧ va = m) →
    ((∀ m, I.sub.resume ≠ some (.launch m)) → us = [.src a] ∧ va = uniVal (s.window I) 0 I.sub a) →
    Issues s (.launch a) false us I →
    let i : Instr := .launch a
    (I.gang.isStage = true → TrapsFree s i I 4 7) ∧
    (I.gang.isStage = false → 4 ≤ I.block.pend.length → I.gang.free → I.sub.logsEmpty = true → parkRoom I (some .slot) →
      ∃ t, exec i s = .next t ∧ Parks s I (.launch va) (some .slot) false t) ∧
    (I.gang.isStage = false → I.block.pend.length < 4 → I.sub.quiet = false → Waits s i I) ∧
    (I.gang.isStage = false → I.block.pend.length < 4 → I.sub.quiet = true → I.gang.free →
      (∀ c, readSource s I va 64 = .fault c → Traps s i I c.group c.code c.datum) ∧
      (readSource s I va 64 = .wait → Waits s i I) ∧
      ∀ s1 bs P, readSource s I va 64 = .ok s1 bs → s1.part I.block.part = some P →
        let r := LRecord.ofBytes bs
        let trap := fun code => Host.Outcome.next (takeTrap s1 I.t I.u ⟨10, code, 0xFF, 0, wordOf i, false, none, I.sub.pc⟩)
        (va.toNat % 64 ≠ 0 → exec i s = trap 1) ∧
        (va.toNat % 64 = 0 → ∀ c, r.submitCheck P = some c → exec i s = trap (BitVec.ofNat 8 c)) ∧
        (va.toNat % 64 = 0 → r.submitCheck P = none → ∃ s2 : State, exec i s = .next
            ((s2.mapBlock I.block.uid fun B => { B with pend := B.pend ++ [⟨s1.nextId, r.tag⟩], launches := B.launches + 1 }).setSub
              I.t I.u (I.sub.retire .other)) ∧
          s2.lastRecord I.block.part I.block.vf r.region = some (launched s1 I r) ∧
          s2.tiles = s1.tiles ∧ s2.nextId = s1.nextId + 1))

/-- SUSPEND (R113, R359): a stage gang traps with group 4; resumed from its own park it completes; else the issuer parks, at
once in a bin, or for its delay where that is not 0. -/
def Obligations.SuspendResult : Prop :=
  ∀ (k : Susp) (s : State) (I : Issuer) (us : List Use) (n : Nat), (I.sub.resume = some .suspend → us = []) →
    (I.sub.resume ≠ some .suspend → match k with
      | .now => us = [] ∧ n = 0
      | .delay a => us = [.src a] ∧ n = (uniVal (s.window I) 0 I.sub a).toNat % 2 ^ 32) →
    Issues s (.suspend k) false us I →
    (I.gang.isStage = true → TrapsFree s (.suspend k) I 4 7) ∧
    (I.gang.isStage = false → I.sub.resume = some .suspend → exec (.suspend k) s = .next (s.setSub I.t I.u (I.sub.retire .other))) ∧
    (I.gang.isStage = false → I.sub.resume ≠ some .suspend → I.gang.free → I.sub.logsEmpty = true →
      let cond := if n = 0 then none else some (Cond.delay n)
      parkRoom I cond → ∃ t, exec (.suspend k) s = .next t ∧ Parks s I .suspend cond false t)

/-- SPAWN (R115, R176, R360, R361): a stage gang, and a detached gang that names no detached spawn, trap with group 4, an entry
that is not a multiple of 4 with group 5. Without an active lane it completes; once the issuer's accesses are performed every
active lane's continuation enters a bin, or with no room for them all the issuer waits for bins. -/
def Obligations.SpawnResult : Prop :=
  ∀ (r base : Nat) (hr : r < 32) (hb : base < 64) (det : Bool) (k : BitVec 4) (s : State) (I : Issuer),
    let i : Instr := .spawn (.s (BitVec.ofNat 5 r)) (BitVec.ofNat 6 base) det k
    Issues s i false [.uni (.s (BitVec.ofNat 5 r)), .vrun base (k.toNat + 1)] I →
    let entry := I.sub.sreg r
    let barred := fun c => ∃ x, exec i s = trapWhole { s with free := s.free + 1 } I true 4 c x
    let goes := I.gang.isStage = false ∧ (I.gang.detached = false ∨ det = true) ∧ entry.toNat % 4 = 0
    (I.gang.isStage = true → barred 7) ∧
    (I.gang.isStage = false → I.gang.detached = true → det = false → barred 6) ∧
    (I.gang.isStage = false → (I.gang.detached = false ∨ det = true) → entry.toNat % 4 ≠ 0 → exec i s = trapWhole s I true 5 2 entry) ∧
    (goes → I.sub.actives = [] → exec i s = .next (s.setSub I.t I.u (I.sub.retire .other))) ∧
    (goes → I.sub.actives ≠ [] → I.sub.quiet = false → Waits s i I) ∧
    (goes → I.sub.actives ≠ [] → I.sub.quiet = true → I.gang.free →
      let T := spawnAll s I (spawnedCont s I entry base (k.toNat + 1) det)
      let n := I.sub.actives.length
      (∀ T', T = some T' → exec i s = .next (State.setSub
        { s.setTile I.t T' with nextId := s.nextId + n, stamp := s.stamp + n, free := s.free + n } I.t I.u (I.sub.retire .other))) ∧
      (T = none → exec i s = .next (s.setSub I.t I.u
        { I.sub with binWait := some (I.sub.binWait.getD s.stamp), stall := some s.gen })))

/-- EXIT (R107, R256): the logs of the issuer must be empty; then the sub-gang leaves its gang, and its tile no longer holds it.
-/
def Obligations.ExitResult : Prop :=
  ∀ (s : State) (I : Issuer), s.issuer = some I →
    (I.sub.logsEmpty = false → Waits s .exit I) ∧
    (I.sub.logsEmpty = true → (wholeGang I = false ∨ (I.gang.isStage = false ∧ I.gang.free)) →
      exec .exit s = .next (s.leaveGang I.t I.u)) ∧
    (wholeGang I = true → kget ((s.leaveGang I.t I.u).tile I.t).subs I.u = none ∧ kget ((s.leaveGang I.t I.u).tile I.t).gangs I.sub.gang = none)

/-! ### Engines -/

/-- An engine command (R306, R307, R309, R150, R151): without feeder rights it traps with group 11; a parameter register that
does not exist, and every check that fails, trap with the cause of highest priority, and nothing is queued. A command that
passes waits for room in its queue and for the issuer's accesses; then it takes the next number of its counter and enters its
queue last. A handle that no TDEF has defined (R307, R332): every command that names it finds code 1 of group 7 with its number.
-/
def Obligations.EngineCommand : Prop :=
  (∀ (i : Instr) (tc : BitVec 4) (n : Option (BitVec 5)) (top : Nat) (plan : State → Issuer → List Word → EngPlan) (s : State) (I : Issuer),
     enginePlan i = some (tc, n, top, plan) → Issues s i false (paramUseList n top) I →
     let par := paramWords I n top
     let L := I.block.tl tc
     let rights := if I.gang.feeder then [] else [(⟨11, 0, wordOf i⟩ : Cause)]
     let room := (I.tile.engineQueue i).length < 16 ∧ (L.issue.toNat + 2 ^ 32 - L.compl.toNat) % 2 ^ 32 < 2 ^ 31 - 1
     (¬ paramsExist n top → ∃ c, bestCause (rights ++ [engCause i 3 32]) = some c ∧ Traps s i I c.group c.code c.datum) ∧
     (paramsExist n top → ∀ c, bestCause (rights ++ (plan s I par).causes) = some c → Traps s i I c.group c.code c.datum) ∧
     (paramsExist n top → I.gang.feeder = true → (plan s I par).causes = [] → (¬ room ∨ I.sub.quiet = false) → Waits s i I) ∧
     (paramsExist n top → I.gang.feeder = true → (plan s I par).causes = [] → room → I.sub.quiet = true → I.gang.free →
       ∃ t c B, exec i s = .next t ∧ t = (accept s I i tc par (plan s I par)).setSub I.t I.u (I.sub.retire .other) ∧
         (t.tile I.t).engineQueue i = I.tile.engineQueue i ++ [c] ∧ c.cmd = i ∧ c.tc = tc ∧ c.par = par ∧ c.num = L.issue + 1 ∧
         c.uid = I.block.uid ∧ c.d1 = (plan s I par).d1 ∧ c.d2 = (plan s I par).d2 ∧ c.pages = (plan s I par).pages ∧
         kget (t.tile I.t).blocks I.gang.ctx = some B ∧ B.tl tc = { L with issue := L.issue + 1 } ∧ t.mem = s.mem)) ∧
  (∀ (i : Instr) (tc : BitVec 4) (n : Option (BitVec 5)) (top : Nat) (plan : State → Issuer → List Word → EngPlan) (s : State) (I : Issuer)
     (par : List Word) (h : BitVec 6), enginePlan i = some (tc, n, top, plan) → h ∈ engineHandles i →
     kget I.block.handles h.toNat = none → engCause i 1 h.toNat ∈ (plan s I par).causes)

/-- TDEF, ACCMOV and HISTRD (R121, R176, R310, R311, R328, R329): they take effect at issue and take no number. TDEF defines a
handle from four registers; ACCMOV moves one accumulator word, after every array command; HISTRD reads a bin. -/
def Obligations.EngineImmediate : Prop :=
  (∀ (h : BitVec 6) (n : BitVec 5) (s : State) (I : Issuer), Issues s (.tdef h n) false (paramUses n 3) I →
    let w := fun k => I.sub.sreg (n.toNat + k)
    let d : TDesc := ⟨w 0, w 1, w 2, w 3⟩
    (I.gang.feeder = false → Traps s (.tdef h n) I 11 0 (wordOf (.tdef h n))) ∧
    (I.gang.feeder = true → n.toNat % 4 ≠ 0 → Traps s (.tdef h n) I 7 3 (engCause (.tdef h n) 3 n.toNat).datum) ∧
    (I.gang.feeder = true → n.toNat % 4 = 0 → I.block.descOk d = false → Traps s (.tdef h n) I 7 2 (engCause (.tdef h n) 2 h.toNat).datum) ∧
    (I.gang.feeder = true → n.toNat % 4 = 0 → I.block.descOk d = true → I.gang.free → exec (.tdef h n) s = .next
      ((s.setBlock I.t I.gang.ctx { I.block with handles := kset I.block.handles h.toNat d }).setSub I.t I.u (I.sub.retire .other)))) ∧
  (∀ (st : Bool) (r : Nat) (hr : r < 32) (x : Opnd) (s : State) (I : Issuer),
    let i : Instr := .accmov st (BitVec.ofNat 5 r) x
    Issues s i false [.src x, if st then .sreg r 1 else .out r 1] I →
    let a := (uniVal (s.window I) 0 I.sub x).toNat % 2 ^ 32
    (2 ^ 18 ≤ a → Traps s i I 2 3 (wordDatum i x.code)) ∧
    (a < 2 ^ 18 → I.gang.isStage = true → TrapsFree s i I 4 7) ∧
    (a < 2 ^ 18 → I.gang.isStage = false → I.tile.arrayQ ≠ [] → Waits s i I) ∧
    (a < 2 ^ 18 → I.gang.isStage = false → I.tile.arrayQ = [] → st = true → ∃ T, exec i s = .next
      ((s.setTile I.t T).setSub I.t I.u (I.sub.retire .other)) ∧ kgetD T.acc a 0 = (I.sub.sreg r).setWidth 32 ∧
      (∀ b, b ≠ a → kgetD T.acc b 0 = kgetD I.tile.acc b 0) ∧ T = { I.tile with acc := T.acc, accPoison := T.accPoison }) ∧
    (a < 2 ^ 18 → I.gang.isStage = false → I.tile.arrayQ = [] → st = false → ∀ m, kget I.tile.accPoison a = some m →
      Traps s i I 15 m.code m.datum) ∧
    (a < 2 ^ 18 → I.gang.isStage = false → I.tile.arrayQ = [] → st = false → kget I.tile.accPoison a = none → ∃ t, exec i s = .next t ∧
      SliceStep s I .other (fun S => S.setSreg r ((kgetD I.tile.acc a 0).setWidth 64)) t)) ∧
  ∀ (h : BitVec 6) (bin : BitVec 5) (d : UDst) (s : State) (I : Issuer), Issues s (.histrd h bin d) false [.udst d 1 false] I →
    (I.gang.detached = true → TrapsFree s (.histrd h bin d) I 4 6) ∧
    (I.gang.detached = false → I.gang.isStage = true → TrapsFree s (.histrd h bin d) I 4 7) ∧
    (I.gang.detached = false → I.gang.isStage = false → ∃ t, exec (.histrd h bin d) s = .next t ∧
      SliceStep s I .other (fun S => S.putDst d ((kgetD (kgetD I.block.hist h.toNat []) bin.toNat 0).setWidth 64)) t)

/-- Commands of the engines (R149, R151, R298, R316, R317). A command advances until it must wait; with nothing left to wait for
it completes, and its timeline goes on to its number once every earlier command has completed; bytes of a counted copy whose
payload is performed are counted on its barriers; a held command starts once its links have completed. -/
def Obligations.EngineEvents : Prop :=
  (∀ t id (s : State) c B, s.engineCmd t id c B →
    (c.phase = 3 → c.wait = [] → (c.barriers = [] ∨ c.countTotal ≤ c.counted) → ∀ ctx, s.findBlock c.uid = some (t, ctx, B) →
      exec (.engineCommandComplete t id) s = .next
        (((s.cmdLeaves t c).wakeTimeline t c.uid c.tc ((B.tl c.tc).complete c.num).compl).settleBlock t ctx)) ∧
    (c.phase ≠ 3 → (s.cmdAdvance t c B = none → exec (.engineCommandComplete t id) s = .next s) ∧
      ∀ s1 c1, s.cmdAdvance t c B = some (s1, c1) → let s2 := s1.setTile t ((s1.tile t).setCmd c1)
        exec (.engineCommandComplete t id) s = .next ((State.cmdRun t id 7 s2).getD s2)) ∧
    (∀ n, c.barriers ≠ [] → n ≠ 0 → c.counted + n ≤ c.countTotal → 2 ≤ c.phase →
      (∀ a ∈ c.barriers, ∀ p, B.placeOf a = some p → (s.tile p.t).mode = .run) → ∃ s', s.countBytes c B n = some s' ∧
        exec (.barrierByteCount t id n) s = .next (s'.setTile t ((s'.tile t).setCmd { c with counted := c.counted + n })) ∧
        ∀ a p, c.barriers = [a] → B.placeOf a = some p →
          let b := Barrier.read s p
          (-(2 ^ 31) : Int) ≤ b.bytes - n → s' = ({ b with bytes := b.bytes - n }.check).write s p)) ∧
  (∀ t id (s : State) c l, (s.tile t).mode = .run → (s.tile t).arrayQ = c :: l → c.id = id → takesLinks c.cmd = true → c.phase = 0 →
    c.links = [] → exec (.linkedStart t id) s = .next (s.setTile t ((s.tile t).setCmd { c with phase := 1 }))) ∧
  (∀ (s : State) t c B, (s.tile t).arrayFirst c = true → c.phase < 2 →
    (∀ q m, c.cmd = .mswap q m → let T := s.tile t
      let x := swapPlanes m (T.active, T.shadow)
      s.arrayAdvance t c B = some (s.setTile t { T with active := x.1, shadow := x.2 }, { c with phase := 3 })) ∧
    (∀ q z, c.cmd = .accz q z → s.arrayAdvance t c B =
      some (s.setTile t (c.d1.cells.flatten.foldl (fun (T : Tile) w => T.accPut w 0 none) (s.tile t)), { c with phase := 3 })) ∧
    (∀ q h, c.cmd = .histclr q h → s.arrayAdvance t c B =
      some (s.mapBlock c.uid fun B => { B with hist := kdel B.hist h.toNat }, { c with phase := 3 }))) ∧
  ∀ (L : Timeline) (n : W32), L.ahead = [] →
    (n = L.compl + 1 → (L.complete n).compl = n) ∧ (n ≠ L.compl + 1 → (L.complete n).compl = L.compl)

/-! ### Strands and channels -/

/-- The structural operations at the home strand unit (R154 to R160, R336, R337): what each needs, the code it fails with,
changing nothing, and else the elements, cursors and anchors it leaves. The choice of free numbers is the model's (log 31), as
is how many segments an edit takes (log 18). SRANK (R160): a token whose anchor is gone gives all ones and a false predicate,
and never traps; one whose element stands in a strand gives its rank and its strand; an anchor whose element stands nowhere is
freed. -/
def Obligations.StrandStructure : Prop :=
  (∀ (P : Part) (seed id : Nat) (r : StrandReq),
     let a := r.strand
     let x := r.args.getD 0 0
     let y := r.args.getD 1 0
     let fails := StrandFails P seed id r
     let does := StrandDoes P seed id r
     -- no strand of that identifier
     (P.strandAt a = none →
       ((∃ o, r.i = .sfree o) ∨ (∃ o n, r.i = .slen o n) → fails 4 0) ∧
       ((∃ o q z n, r.i = .sins o q z n) ∨ (∃ o q n, r.i = .sdel o q n) ∨ (∃ o q n, r.i = .ssplit o q n) ∨ (∃ o q n, r.i = .sgap o q n) ∨
         (∃ o q n, r.i = .sanchUniform o q n) → fails 4 x)) ∧
     -- SNEW
     (∀ o q n, r.i = .snew o q n →
       (x.toNat ∉ [1, 2, 4, 8, 16, 32, 64] → fails 9 0) ∧
       (x.toNat ∈ [1, 2, 4, 8, 16, 32, 64] → (3 < y.toNat ∨ ∀ k, k < 4 → P.fields.getLsbD (4 * y.toNat + k) = false) → fails 11 0) ∧
       (x.toNat ∈ [1, 2, 4, 8, 16, 32, 64] → y.toNat ≤ 3 → (∃ k, k < 4 ∧ P.fields.getLsbD (4 * y.toNat + k) = true) →
         let taken := fun g => g ∈ P.segsUsed ∨ g ∈ P.tainted ∨ g ∈ P.retired
         ((∀ g, g < P.segTotal → taken g) → fails 3 0) ∧ (P.freeIndex y.toNat = none → fails 3 0) ∧
         ((∃ g, g < P.segTotal ∧ ¬ taken g) → P.freeIndex y.toNat ≠ none → ∃ b P', does (BitVec.ofNat 128 b) P' ∧ kget P.strands b = none ∧ b / 2 ^ 30 = y.toNat ∧
           (∃ t, kget P'.strands b = some t ∧ t.elems = [] ∧ t.esize = x.toNat ∧ t.home = y.toNat ∧ t.held.length = 1) ∧
           (∀ c, c ≠ b → kget P'.strands c = kget P.strands c) ∧ P'.cursors = P.cursors ∧ P'.anchors = P.anchors))) ∧
     -- SCLOSE, SAPND
     (P.cursorAt a = none → (∃ o, r.i = .sclose o) ∨ (∃ o n, r.i = .sapnd o n) → fails 7 0) ∧
     (∀ o k, r.i = .sclose o → P.cursorAt a = some k → ∃ P', does 0 P' ∧ P'.strands = P.strands ∧ P'.anchors = P.anchors ∧
       P'.cursorAt a = none) ∧
     (∀ o n k t, r.i = .sapnd o n → P.cursorAt a = some k → P.strandAt k.strand = some t →
       (2 ^ 40 ≤ t.elems.length + x.toNat → fails 2 0) ∧
       (t.elems.length + x.toNat < 2 ^ 40 → x = 0 → does 0 P) ∧
       (t.elems.length + x.toNat < 2 ^ 40 → x ≠ 0 → fails 3 0 ∨ ∃ P' p new, does 0 P' ∧ NewElems id t.esize x.toNat r.bytes new ∧
         P.Holds P' k.strand (t.elems.take p ++ new ++ t.elems.drop p) ∧ P'.anchors = P.anchors ∧ p = P.appendPos k t ∧
         kget P'.cursors a.toNat = some { k with mine := k.mine ++ new.map (·.uid) })) ∧
     ∀ t, P.strandAt a = some t →
       let L := t.elems.length
       (∀ o n, r.i = .slen o n → does (BitVec.ofNat 128 L) P) ∧
       (∀ o, r.i = .sfree o → ∃ P', does 0 P' ∧ kget P'.strands a.toNat = none ∧ (∀ b, b ≠ a.toNat → kget P'.strands b = kget P.strands b) ∧
         (∀ h c, (h, c) ∈ P'.cursors ↔ (h, c) ∈ P.cursors ∧ c.strand ≠ a) ∧
         (∀ k A, kget P.anchors k = some A → let of_ := A.elem.any fun u => (t.elems.any fun e => e.uid == u) || t.gone.contains u
           (of_ = true → kget P'.anchors k = some ⟨A.gen + 1, none⟩) ∧ (of_ = false → kget P'.anchors k = some A))) ∧
       (∀ o q z n, r.i = .sins o q z n →
         (L < x.toNat → fails 1 x) ∧ (x.toNat ≤ L → 2 ^ 40 ≤ L + y.toNat → fails 2 x) ∧
         (x.toNat ≤ L → L + y.toNat < 2 ^ 40 → y = 0 → does 0 P) ∧
         (x.toNat ≤ L → L + y.toNat < 2 ^ 40 → y ≠ 0 → fails 3 x ∨ ∃ P' new, does 0 P' ∧ NewElems id t.esize y.toNat r.bytes new ∧
           P.Holds P' a (t.elems.take x.toNat ++ new ++ t.elems.drop x.toNat) ∧ P.Rest P' [a.toNat])) ∧
       (∀ o q n, r.i = .sdel o q n →
         (2 ^ 40 ≤ x.toNat → fails 1 x) ∧ (x.toNat < 2 ^ 40 → 2 ^ 40 ≤ y.toNat → fails 2 x) ∧
         (x.toNat < 2 ^ 40 → y.toNat < 2 ^ 40 → L < x.toNat + y.toNat → fails 1 x) ∧
         (x.toNat < 2 ^ 40 → y.toNat < 2 ^ 40 → x.toNat + y.toNat ≤ L → y = 0 → does 0 P) ∧
         (x.toNat < 2 ^ 40 → y.toNat < 2 ^ 40 → x.toNat + y.toNat ≤ L → y ≠ 0 → fails 3 x ∨ ∃ P', does 0 P' ∧
           P.Holds P' a (t.elems.take x.toNat ++ t.elems.drop (x.toNat + y.toNat)) ∧ P.Rest P' [a.toNat] ∧
           ∀ t', P'.strandAt a = some t' → ∀ e ∈ (t.elems.drop x.toNat).take y.toNat, (∃ k A, (k, A) ∈ P.anchors ∧ A.elem = some e.uid) →
             e.uid ∈ t'.gone)) ∧
       (∀ o q n, r.i = .ssplit o q n →
         (L < x.toNat → fails 1 x) ∧ (x.toNat ≤ L → P.hasCursor a = true → fails 6 x) ∧
         (x.toNat ≤ L → P.hasCursor a = false → fails 3 x ∨ ∃ b P', does (BitVec.ofNat 128 b) P' ∧ kget P.strands b = none ∧
           b / 2 ^ 30 = t.home ∧ P.Holds P' a (t.elems.take x.toNat) ∧
           (∃ u, kget P'.strands b = some u ∧ u.elems = t.elems.drop x.toNat ∧ u.esize = t.esize ∧ u.home = t.home) ∧
           P.Rest P' [a.toNat, b])) ∧
       (∀ o q sh, r.i = .scat o q sh →
         let b : W32 := x.setWidth 32
         (P.strandAt b = none → fails 4 0) ∧
         ∀ u, P.strandAt b = some u →
           (t.esize ≠ u.esize ∨ t.home ≠ u.home → fails 5 0) ∧
           (t.esize = u.esize → t.home = u.home → a = b → fails 10 0) ∧
           (t.esize = u.esize → t.home = u.home → a ≠ b →
             (P.hasCursor a = true ∨ (sh = false ∧ P.hasCursor b = true) → fails 6 0) ∧
             (P.hasCursor a = false → (sh = true ∨ P.hasCursor b = false) →
               (2 ^ 40 ≤ L + u.elems.length → fails 2 0) ∧
               (L + u.elems.length < 2 ^ 40 → fails 3 0 ∨ ∃ P' es, does 0 P' ∧ P.Holds P' a (t.elems ++ es) ∧
                 (sh = false → es = u.elems ∧ P.Holds P' b [] ∧ P.Rest P' [a.toNat, b.toNat]) ∧
                 (sh = true → es.map (·.bytes) = u.elems.map (·.bytes) ∧ es.map (·.poison) = u.elems.map (·.poison) ∧
                   es.map (·.uid) = (List.range u.elems.length).map (id + ·) ∧ P.Rest P' [a.toNat]))))) ∧
       (∀ o q n, r.i = .sgap o q n →
         (L < x.toNat → fails 1 x) ∧ (x.toNat ≤ L → (y.toNat = 0 ∨ 32 < y.toNat) → fails 7 x) ∧
         (x.toNat ≤ L → 1 ≤ y.toNat → y.toNat ≤ 32 → fails 7 x ∨ ∃ h P', does (BitVec.ofNat 128 h) P' ∧ P'.strands = P.strands ∧
           P'.anchors = P.anchors ∧ (∀ k, k < y.toNat → kget P'.cursors (h + k) =
             some ⟨t.home, a, id, k, [], (t.elems.take x.toNat).map (·.uid)⟩) ∧
           (∀ c, (c < h ∨ h + y.toNat ≤ c) → kget P'.cursors c = kget P.cursors c))) ∧
       (∀ o q n, r.i = .sanchUniform o q n →
         (L ≤ x.toNat → fails 1 x) ∧
         (∀ e, t.elems[x.toNat]? = some e → fails 8 x ∨ ∃ key gen P', does (BitVec.ofNat 128 (gen.toNat * 2 ^ 32 + key % 2 ^ 32)) P' ∧
           (∀ A, kget P.anchors key = some A → A.elem = none) ∧ kget P'.anchors key = some ⟨gen, some e.uid⟩ ∧
           (∀ c, c ≠ key → kget P'.anchors c = kget P.anchors c) ∧ P'.strands = P.strands ∧ P'.cursors = P.cursors))) ∧
  (∀ (P : Part) (seed id : Nat) (r : StrandReq) (o : Opnd) (pm : BitVec 3) (n : BitVec 5), r.i = .srankUniform o pm n →
     let tok := r.args.getD 0 0
     let key := tok.toNat % 2 ^ 18
     let gone := fun P' => strandStep P seed id r = (P', id, .ok [(none, BitVec.ofNat 128 (2 ^ 64 - 1), false, none)])
     ((tok.toNat / 2 ^ 18 % 2 ^ 14 ≠ 0 ∨ kget P.anchors key = none ∨
       ∃ A, kget P.anchors key = some A ∧ (A.gen.toNat ≠ tok.toNat / 2 ^ 32 ∨ A.elem = none)) → gone P) ∧
     ∀ A u, tok.toNat / 2 ^ 18 % 2 ^ 14 = 0 → kget P.anchors key = some A → A.gen.toNat = tok.toNat / 2 ^ 32 → A.elem = some u →
       ((∀ k t, (k, t) ∈ P.strands → ∀ e ∈ t.elems, e.uid ≠ u) → gone { P with anchors := kset P.anchors key ⟨A.gen + 1, none⟩ }) ∧
       (∀ k t e, (k, t) ∈ P.strands → e ∈ t.elems → e.uid = u → ∃ k' t' m, (k', t') ∈ P.strands ∧ (t'.elems[m]?.map (·.uid)) = some u ∧
         strandStep P seed id r = (P, id, .ok [(none, BitVec.ofNat 128 (k' * 2 ^ 64 + m), true, none)])))

/-- Element accesses at the home strand unit (R164, R167, R168, R339, R340): a lane out of range fails the whole instruction,
but a load that gives a predicate answers it false; else a load reads the element's bytes, a store and an atomic write them, and
an atomic answers with the old value. A poisoned element traps with group 15, its address a free value (log 18). Strand
instructions at issue (R131, R134, R145, R154, R165): one with no active lane completes; one that cannot go out waits; else the
instruction completes and its accesses go to their homes as one request. A home on the issuer's own die, whose tile carries no
vector, performs it at once; memory does not change. -/
def Obligations.StrandAccess : Prop :=
  (∀ (P : Part) (seed id : Nat) (r : StrandReq) (op : ElemOp) (n : Nat), elementOp r.i = some (op, n) →
     let a := r.strand
     let fails := fun (g : Option Nat × Word × BitVec 128 → Option Nat × Nat × Byte × Word) =>
       strandStep P seed id r = (P, id, .fail (r.lanes.map g))
     (P.strandAt a = none → fails fun (l, w, _) => (l, 6, 4, BitVec.ofNat 64 (wordRank w))) ∧
     ∀ t, P.strandAt a = some t →
       ((∃ x ∈ r.lanes, ¬ Reaches t op n x.2.1) → op ≠ .load true → ∃ g, fails g ∧ ∀ l w x,
         (¬ Reaches t op n w → g (l, w, x) = (l, 6, 1, BitVec.ofNat 64 (wordRank w))) ∧ (Reaches t op n w → g (l, w, x) = (l, 0, 0, 0))) ∧
       ∀ l w x, r.lanes = [(l, w, x)] →
         (¬ Reaches t op n w → op = .load true → ∃ P', strandStep P seed id r = (P', id, .ok [(l, 0, false, none)]) ∧
           P'.strandAt a = some t ∧ P.Rest P' [a.toNat]) ∧
         ∀ e, Reaches t op n w → t.elems[wordRank w]? = some e →
           (e.poison = true → (fails fun (l, w, _) => (l, 6, 3, BitVec.ofNat 64 (wordRank w))) ∨ ∃ P' t', P'.strandAt a = some t' ∧
             strandStep P seed id r = (P', id, .ok [(l, 0, false, some (15, 8, P'.lineAt t' (wordRank w)))]) ∧
             (op.writes = false → P'.strandAt a = some t)) ∧
           (e.poison = false → ∀ b, op = .load b → ∃ P', strandStep P seed id r =
               (P', id, .ok [(l, BitVec.ofNat 128 (e.value (wordOff w) n), true, none)]) ∧ P'.strandAt a = some t ∧ P.Rest P' [a.toNat]) ∧
           (e.poison = false → op = .store → (fails fun (l, w, _) => (l, 6, 3, BitVec.ofNat 64 (wordRank w))) ∨ ∃ P',
             strandStep P seed id r = (P', id, .ok [(l, 0, true, none)]) ∧ P'.Wrote a t (wordRank w) (wordOff w) n x.toNat ∧ P.Rest P' [a.toNat]) ∧
           (e.poison = false → ∀ k, op = .atomic k → (fails fun (l, w, _) => (l, 6, 3, BitVec.ofNat 64 (wordRank w))) ∨ ∃ P',
             let old := e.value (wordOff w) n
             strandStep P seed id r = (P', id, .ok [(l, BitVec.ofNat 128 old, true, none)]) ∧
             P'.Wrote a t (wordRank w) (wordOff w) n (atomicOp k (8 * n) old (x.toNat % 2 ^ (8 * n)) (x.toNat / 2 ^ 64 % 2 ^ (8 * n))) ∧ P.Rest P' [a.toNat])) ∧
  ((∀ (i : Instr) (F : StrandForm) (s : State) (I : Issuer), strandForm i = some F → Issues s i false F.uses I →
     let as := F.accesses s I
     let a := F.strand I.sub (s.window I)
     let args := F.args I.sub (s.window I)
     (as = [] → exec i s = .next (s.setSub I.t I.u (I.sub.retire .other))) ∧
     (as ≠ [] → strandWaits s I F.uniform i a args as = true → Waits s i I) ∧
     (as ≠ [] → strandWaits s I F.uniform i a args as = false → I.gang.free →
       ∃ t, exec i s = .next t ∧ issueStrand s I (s.window I) i a args [] as = .next t ∧
         (I.sub.logsEmpty = true → StrandEffect s I i a args [] as t))) ∧
   (∀ (a b : Opnd) (z : Bool) (n : BitVec 5) (s : State) (I : Issuer), let i : Instr := .sins a b z n
     Issues s i false [.src a, .src b, if z then .sreg n.toNat 1 else paramPair n] I →
     let id : W32 := (uniVal (s.window I) 0 I.sub a).setWidth 32
     let cnt := I.sub.sreg n.toNat
     let va := if z then 0 else I.sub.sreg (n.toNat + 1)
     let len := if z = true ∨ 2 ^ 40 ≤ cnt.toNat then 0 else cnt.toNat * s.elemSize I.block.part id
     let args := [uniVal (s.window I) 0 I.sub b, cnt, va]
     (strandWaits s I true i id args [wholeAccess] = true → Waits s i I) ∧
     (strandWaits s I true i id args [wholeAccess] = false → I.gang.free →
       (∀ c, readSource s I va len = .fault c → Traps s i I c.group c.code c.datum) ∧ (readSource s I va len = .wait → Waits s i I) ∧
       ∀ s1 bs, readSource s I va len = .ok s1 bs →
         ∃ t, exec i s = .next t ∧ issueStrand s1 I (s.window I) i id args bs [wholeAccess] = .next t ∧
           (I.sub.logsEmpty = true → StrandEffect s1 I i id args bs [wholeAccess] t))) ∧
   (∀ (a : Opnd) (n : BitVec 5) (s : State) (I : Issuer), let i : Instr := .sapnd a n
     Issues s i false [.src a, paramPair n] I →
     let c : W32 := (uniVal (s.window I) 0 I.sub a).setWidth 32
     let cnt := I.sub.sreg n.toNat
     let va := I.sub.sreg (n.toNat + 1)
     let strand := match (s.part I.block.part).bind fun P => P.cursorAt c with | some k => k.strand | none => 0
     let len := if 2 ^ 40 ≤ cnt.toNat then 0 else cnt.toNat * s.elemSize I.block.part strand
     (strandWaits s I true i c [cnt, va] [wholeAccess] = true → Waits s i I) ∧
     (strandWaits s I true i c [cnt, va] [wholeAccess] = false → I.gang.free →
       (∀ x, readSource s I va len = .fault x → Traps s i I x.group x.code x.datum) ∧ (readSource s I va len = .wait → Waits s i I) ∧
       ∀ s1 bs, readSource s I va len = .ok s1 bs →
         ∃ t, exec i s = .next t ∧ issueStrand s1 I (s.window I) i c [cnt, va] bs [wholeAccess] = .next t ∧
           (I.sub.logsEmpty = true → StrandEffect s1 I i c [cnt, va] bs [wholeAccess] t))) ∧
   ∀ (s : State) (I : Issuer) (seq : Nat) (i : Instr) (a : W32) (args : List Word) (bytes : List Byte) (as : List Access) (h : Nat) (P : Part),
     homesOf I.t i a args as = [(h, as)] → s.isLocal I.t h = true → s.part I.block.part = some P →
     let r : StrandReq := ⟨I.t, seq, I.block.part, I.block.world, i, a, args, bytes, as.map fun x => (x.lane, x.addr, x.data)⟩
     s.strandDenied P r = false →
     let st := strandStep P s.free s.nextId r
     let out := strandSend s I seq i a args bytes as
     out.1.part I.block.part = some st.1 ∧ out.1.mem = s.mem ∧ ∃ obs rank, out.2 = answerAll as (strandResps h r obs rank st.2.2))

/-- SEND and RECV (R115, R176, R342 to R346): a stage gang and a detached gang trap with group 4, a link of the block's skein
and a kind or width that differs from that of the entries held with group 8, the channel number in DATUM [37:32]. Else once the
issuer's accesses are performed a SEND pushes its entries as one step, 32 at most being held, and a RECV pops those it needs and
writes its destination; until it can act as a whole it waits. -/
def Obligations.ChannelResult : Prop :=
  ∀ (i : Instr) (F : ChanForm) (s : State) (I : Issuer), chanForm i = some F → Issues s i false [F.use] I →
    let C := kgetD I.block.chans F.ch ⟨false, 1, []⟩
    let barred := fun c => ∃ x, exec i s = trapWhole { s with free := s.free + 1 } I F.lane 4 c x
    let datum := wordOf i ||| (BitVec.ofNat 64 F.ch <<< 32)
    let goes := I.gang.isStage = false ∧ I.gang.detached = false ∧ s.isLink I.block F.ch = false
    let none_ := F.lane = true ∧ F.row = false ∧ I.sub.actives = []
    let fits := C.entries = [] ∨ (C.row = F.row ∧ C.width = F.width)
    let set := fun es => s.setBlock I.t I.gang.ctx { I.block with chans := kset I.block.chans F.ch es }
    (I.gang.isStage = true → barred 7) ∧
    (I.gang.isStage = false → I.gang.detached = true → barred 6) ∧
    (I.gang.isStage = false → I.gang.detached = false → s.isLink I.block F.ch = true → exec i s = trapWhole s I F.lane 8 2 datum) ∧
    (goes → ¬ none_ → ¬ fits → exec i s = trapWhole s I F.lane 8 1 datum) ∧
    (goes → ¬ none_ → fits → I.sub.quiet = false → Waits s i I) ∧
    (goes → (none_ ∨ (fits ∧ I.sub.quiet = true)) → I.gang.free →
      (∀ f, F.send = some f →
        let es := f I.sub (s.window I)
        (32 < C.entries.length + es.length → es ≠ [] → Waits s i I) ∧
        (C.entries.length + es.length ≤ 32 → exec i s =
          .next (State.setSub (if es = [] then s else set ⟨F.row, F.width, C.entries ++ es⟩) I.t I.u (I.sub.retire .other)))) ∧
      (F.send = none →
        let k := F.need I.sub
        (C.entries.length < k → Waits s i I) ∧
        (k ≤ C.entries.length → exec i s =
          .next (State.setSub (State.l1Clear (if k = 0 then s else set { C with entries := C.entries.drop k }) I.t) I.t I.u
            ((F.recv I.sub (s.window I) (C.entries.take k)).retire .other)))))

/-! ### Skeins -/

/-- GET, PUT and KNOT (R174 to R177, R183, R184, R347, R348): in any other gang they trap with group 16, code 6, a channel that
is no link of the skein with group 4, code 7, and the skein causes with group 16, the descriptor's address their datum. While a
switch waits for the stage, it stops there. -/
def Obligations.SkeinChecks : Prop :=
  (∀ (i : Instr) (F : LinkForm) (s : State) (I : Issuer), linkForm i = some F → Issues s i false (F.uses I) I →
    ((∀ p k K m st, ¬ InStage s I p k K m st) → TrapsFree s i I 16 6) ∧
    ∀ p k K m st, InStage s I p k K m st →
      ((∀ l ∈ K.links, l.ch ≠ F.ch) → TrapsFree s i I 4 7) ∧
      ((∃ l ∈ K.links, l.ch = F.ch) →
        (∀ c, F.cause I K m st = some c → Traps s i I 16 c K.desc) ∧
        (F.cause I K m st = none → K.stopping = true → StopsAtKnot s i I p k K m st (if F.get then 1 else 2) st.all))) ∧
  ∀ (g h : BitVec 8) (s : State) (I : Issuer), s.issuer = some I →
    ((∀ p k K m st, ¬ InStage s I p k K m st) → TrapsFree s (.knot g h) I 16 6) ∧
    ∀ p k K m st, InStage s I p k K m st →
      let live : BitVec 16 := h ++ g
      (2 ^ st.win ≤ live.toNat → Traps s (.knot g h) I 16 3 K.desc) ∧
      (live.toNat < 2 ^ st.win → wholeGang I = false → Traps s (.knot g h) I 16 5 K.desc) ∧
      (live.toNat < 2 ^ st.win → wholeGang I = true → K.stopping = true → StopsAtKnot s (.knot g h) I p k K m st 3 live) ∧
      (live.toNat < 2 ^ st.win → wholeGang I = true → K.stopping = false → SkeinDone s s (.knot g h) I I.sub)

/-- GET and PUT of a skein with no switch under way (R178 to R180). Spread, a GET takes the row at the head of its link and owes
the freed slot, EOS stays there, and an empty link makes it wait; a PUT sends its row for a credit, or leaves it at its NI while
the consumer's endpoint is held, which takes no credit (R92). Folded, the rows lie in the
link's ring, and an empty or full ring turns the gang to the stage below or above. Rows for a stage that has exited are dropped.
-/
def Obligations.SkeinRows : Prop :=
  ∀ (i : Instr) (F : LinkForm) (s : State) (I : Issuer) (p k : Nat) (K : Skein) (m : Nat) (st : Stage) (q : Nat) (l : SkLink),
    linkForm i = some F → Issues s i false (F.uses I) I → InStage s I p k K m st → (∃ l ∈ K.links, l.ch = F.ch) →
    F.cause I K m st = none → K.stopping = false → F.link m = some q → K.links[q]? = some l →
    let lanes := 4 * K.slices
    let off := K.ringAt q
    let size := rowBytes K.slices l.item
    let head := I.block.spadLe off 4
    let tail := I.block.spadLe (off + 4) 4
    let ended := I.block.spadLe (off + 8) 4
    (∀ x ch n pm, i = .get (.v x) ch n pm →
      let take := fun row => takeRow (s.window I) I.sub lanes x.toNat (n.toNat + 1) pm row
      (K.folded = false → l.rows = [] → Waits s i I) ∧
      (K.folded = false → ∀ rest, l.rows = none :: rest → SkeinDone s s i I (take none)) ∧
      (K.folded = false → ∀ row rest, l.rows = some row :: rest →
        SkeinDone s (s.setSkein p k (K.setLink q { l with rows := rest, notices := l.notices + 1 })) i I (take (some row))) ∧
      (K.folded = true → head ≠ tail →
        SkeinDone s (s.setBlock I.t I.gang.ctx (I.block.setWord off (head + 1))) i I (take (some (I.block.ringRow off size (head % l.depth))))) ∧
      (K.folded = true → head = tail → ended ≠ 0 → SkeinDone s s i I (take none)) ∧
      (K.folded = true → head = tail → ended = 0 → LeavesStage s i I p k K m st 1 (m - 1))) ∧
    ∀ r ch n eos, i = .put r ch n eos →
      let row := buildRow (s.window I) I.sub lanes F.first F.width
      let K' := if eos then K.setStage m { st with eos := true } else K
      let gone := match K.stages[m + 1]? with | some c => c.gone | none => true
      let full := ¬ (tail + 2 ^ 32 - head) % 2 ^ 32 < l.depth
      let promised := (l.waiting.filter Option.isSome).length
      let held := l.waiting ≠ [] ∨ ∃ c, K.stages[m + 1]? = some c ∧ s.stageOpen c = false
      (gone = true → SkeinDone s (s.setSkein p k K') i I I.sub) ∧
      (gone = false → K.folded = false → eos = false → l.credits ≤ promised → Waits s i I) ∧
      (gone = false → K.folded = false → (eos = true ∨ promised < l.credits) → ¬ held → SkeinDone s (s.setSkein p k (K'.setLink q
        { l with credits := l.credits - (if eos then 0 else 1), flight := l.flight ++ [if eos then none else some row] })) i I I.sub) ∧
      (gone = false → K.folded = false → (eos = true ∨ promised < l.credits) → held → SkeinDone s (s.setSkein p k (K'.setLink q
        { l with waiting := l.waiting ++ [if eos then none else some row] })) i I I.sub) ∧
      (gone = false → K.folded = true → eos = true →
        SkeinDone s ((s.setSkein p k K').setBlock I.t I.gang.ctx (I.block.setWord (off + 8) 1)) i I I.sub) ∧
      (gone = false → K.folded = true → eos = false → full → LeavesStage s i I p k K m st 2 (m + 1)) ∧
      (gone = false → K.folded = true → eos = false → ¬ full →
        SkeinDone s (s.setBlock I.t I.gang.ctx ((I.block.putRow off size (tail % l.depth) row).setWord (off + 4) (tail + 1))) i I I.sub)

/-- SKFOLD, SKSPREAD and SKQRY (R174, R187, R349): the translation and permission checks of their descriptor trap. SKFOLD and
SKSPREAD then trap with skein code 1 where the descriptor is not aligned or not acceptable, or write the code of R187 and start
or ask what it allows; SKQRY writes STATE, zero-extended, and drops the tile's cached lines. EXIT of a stage's last slices
(R178, R180, R182): the last stage ends the skein, form 7 stands in STATE, and its owner has none. Else a spread stage leaves
EOS on its link and its gang ends, and a folded gang sets EOS in the ring and turns to the nearest live stage above, else below.
-/
def Obligations.SkeinSwitch : Prop :=
  ((∀ (i : Instr) (d : UDst) (a : Opnd) (fold : Bool) (s : State) (I : Issuer), i = (if fold then .skfold d a else .skspread d a) →
     Issues s i false [.src a, .udst d 1 false] I →
     let va := uniVal (s.window I) 0 I.sub a
     let chk := fun need => check s I.t I.block.vf I.block.world va need 1
     let owed := I.sub.acquirePending || I.sub.overlapsPending false 256 ⟨none, va, 0, 0, false, .pending⟩
     (∀ c, chk .read = .error c → Traps s i I c.group c.code c.datum) ∧
     (∀ e c, chk .read = .ok e → chk .write = .error c → Traps s i I c.group c.code c.datum) ∧
     ∀ e fa x, chk .read = .ok e → chk .write = .ok (fa, x) →
       (va.toNat % 256 ≠ 0 → Traps s i I 16 1 va) ∧
       (va.toNat % 256 = 0 → owed = true → Waits s i I) ∧
       (va.toNat % 256 = 0 → owed = false → I.gang.free →
         ∀ s1 bs t ctx B P, (s.fillTlb I.t x).ownerOf I = some (t, ctx, B) → (s.fillTlb I.t x).part I.block.part = some P →
           readSource (s.fillTlb I.t x) I va 256 = .ok s1 bs →
           let desc := SkDesc.ofBytes bs
           let bad := 8 ≤ desc.form ∨ ((desc.form = 0 ∨ desc.form = 6) ∧ desc.valid (B.rcd.spad * 4096) = false)
           (bad → exec i s = .next (takeTrap s1 I.t I.u ⟨16, 1, 0xFF, 0, va, false, none, I.sub.pc⟩)) ∧
           (¬ bad → (s1.skeinAct I.block.part P B t ctx I.sub.gang va fa desc fold).2 ≠ 0 →
             exec i s = .next (s1.setSub I.t I.u
               ((I.sub.setDst d (BitVec.ofNat 64 (s1.skeinAct I.block.part P B t ctx I.sub.gang va fa desc fold).2)).retire .other))) ∧
           (¬ bad → ∃ t', exec i s = .next t' ∧ ∀ J, (s1.skeinAct I.block.part P B t ctx I.sub.gang va fa desc fold).1.issuer = some J →
             t' = (s1.skeinAct I.block.part P B t ctx I.sub.gang va fa desc fold).1.setSub J.t J.u
               ((J.sub.setDst d (BitVec.ofNat 64 (s1.skeinAct I.block.part P B t ctx I.sub.gang va fa desc fold).2)).retire .other)))) ∧
   ∀ (d : UDst) (a : Opnd) (s : State) (I : Issuer), Issues s (.skqry d a) false [.src a, .udst d 1 false] I →
     let va := uniVal (s.window I) 0 I.sub a
     let owed := I.sub.acquirePending || I.sub.overlapsPending false 4 ⟨none, va, 0, 0, false, .pending⟩
     (∀ c, check s I.t I.block.vf I.block.world va .read 4 = .error c → Traps s (.skqry d a) I c.group c.code c.datum) ∧
     ∀ fa e, check s I.t I.block.vf I.block.world va .read 4 = .ok (fa, e) →
       (owed = true → Waits s (.skqry d a) I) ∧
       (owed = false → ∀ s1 bs, readSource (s.fillTlb I.t e) I va 4 = .ok s1 bs → I.gang.retry.held = [] →
         exec (.skqry d a) s = .next ((s1.l1Clear I.t).setSub I.t I.u ((I.sub.setDst d (BitVec.ofNat 64 (leNat bs))).retire .other)))) ∧
  (∀ (s : State) (I : Issuer) (p k : Nat) (K : Skein) (m : Nat) (st : Stage), s.issuer = some I → InStage s I p k K m st →
     I.sub.logsEmpty = true → wholeGang I = true →
     let push := m + 1 < K.stages.length ∧ st.eos = false
     let K' := K.setStage m { st with place := .exited, eos := true, atKnot := false, slices := [] }
     (K'.nextStage m = none → s.stateOpen K = false → Waits s .exit I) ∧
     (K'.nextStage m = none → s.stateOpen K = true → exec .exit s = .next (((s.leaveGang I.t I.u).setSkein p k K').endSkein p k K' 7)) ∧
     ∀ n, K'.nextStage m = some n →
       (K.folded = false → ¬ push → exec .exit s = .next ((s.setSkein p k K').leaveGang I.t I.u)) ∧
       (K.folded = false → push → ∀ l, K'.links[m]? = some l →
         let on := l.waiting = [] ∧ ∀ c, K.stages[m + 1]? = some c → c.gone = true ∨ s.stageOpen c = true
         (on → exec .exit s = .next ((s.setSkein p k (K'.setLink m { l with flight := l.flight ++ [none] })).leaveGang I.t I.u)) ∧
         (¬ on → exec .exit s = .next ((s.setSkein p k (K'.setLink m { l with waiting := l.waiting ++ [none] })).leaveGang I.t I.u))) ∧
       (K.folded = true → K.stopping = false → exec .exit s = .next (State.transferTo (State.setSkein
         (if m + 1 < K.stages.length ∧ st.eos = false then s.setBlock I.t I.gang.ctx (I.block.setWord (K.ringAt m + 8) 1) else s) p k K')
           I.t I.u p k n)))

/-- Links of a spread skein and its switches (R174, R179, R184 to R186, R188, R190): a row or a notice reaches its end, or is
dropped with a stage that has exited; a stage that is not placed begins on a tile with room; a gathered skein copies; the copy
of a reel leaves the folded gang, that of an unreel leaves every live stage to be placed, that of an export writes the save
area; a switch whose time is over is dropped. -/
def Obligations.SkeinEvents : Prop :=
  (∀ p k n (s : State) K l st x rest, s.skein p k = some K → K.links[n]? = some l → K.stages[n + 1]? = some st → l.flight = x :: rest →
    (st.gone = true → exec (.channelItemArrival p k n) s = .next (s.setSkein p k (K.setLink n { l with flight := rest }))) ∧
    (st.gone = false → l.made = true →
      (s.stageOpen st = true ∨ ∃ t g d b, st.place = .gang t g ∧ (s.tile t).mode = .drain d b ∧ (kget (s.tile t).gangs g).isSome = true) →
      exec (.channelItemArrival p k n) s =
        .next (s.setSkein p k (K.setLink n { l with flight := rest, rows := l.rows ++ [x] })))) ∧
  (∀ p k n (s : State) K l st, s.skein p k = some K → K.links[n]? = some l → K.stages[n]? = some st → l.notices ≠ 0 →
    (st.gone = true → exec (.freedSlotNoticeArrival p k n) s =
      .next (s.setSkein p k (K.setLink n { l with notices := l.notices - 1 }))) ∧
    (st.gone = false → s.stageOpen st = true → exec (.freedSlotNoticeArrival p k n) s =
      .next (s.setSkein p k (K.setLink n { l with notices := l.notices - 1, credits := l.credits + 1 })))) ∧
  (∀ p k (s : State) K, s.skein p k = some K → s.skeinTimedOut K = true →
    ((∀ x, K.sw ≠ .gathering true x) → exec (.skeinSwitchTimeout p k) s = .next (s.skeinAbort p k 2)) ∧
    ((∃ x, K.sw = .gathering true x) → exec (.skeinSwitchTimeout p k) s = .next (K.stages.foldl (fun s st =>
      match st.place with | .gang t _ => if s.slotsFree t then s.freezeTile t .plain else s | _ => s) (s.skeinAbort p k 2)))) ∧
  (∀ p k n t (s : State) P K st t0 ctx0 B, s.part p = some P → s.skein p k = some K → K.stages[n]? = some st →
    s.findBlock K.uid = some (t0, ctx0, B) → st.place = .unplaced → K.sw = .none → K.folded = false → (s.tile t0).mode = .run →
    s.stageFits p P K st B t = true →
    exec (.stageGangPlace p k n t) s = .next ((s.stagePlaced p k n t t0 K st B).setSkein p k
      (K.stageBegun n t ((s.l1Clear t).observe (dieOf t) (s.carried t0)).nextId st))) ∧
  (∀ p k (s : State) K b x, s.skein p k = some K → K.sw = .gathering b x →
    (∀ st ∈ K.stages, st.atKnot = true ∨ st.gone = true) → s.stateOpen K = true →
    exec (.skeinGatherDone p k) s = .next (s.updateSkein p k { K with sw := .copying x })) ∧
  (∀ p k (s : State) K x, s.skein p k = some K → K.sw = .copying x → s.stateOpen K = true → (s.tile K.tile).mode = .run →
    (K.foldGang.isSome = true → exec (.skeinCopyDone p k) s = .next
      ((s.setSkein p k { K with stages := K.stages.map fun st => { st with atKnot := false } }).switchOver p k K.freezeDefer)) ∧
    (K.foldGang = none → (∀ l ∈ K.links, l.made = true → l.flight = [] ∧ l.waiting = []) →
      let s1 := (s.reelCopy p k K).switchOver p k K.freezeDefer
      exec (.skeinCopyDone p k) s = .next (if x then s1.exportRequest p k else s1))) ∧
  (∀ p k (s : State) K t c B, s.skein p k = some K → K.sw = .unreelCopy → s.stateOpen K = true → s.findBlock K.uid = some (t, c, B) →
    let s1 := (s.unfold K).1
    let sts := (s.unfold K).2.zipIdx.map fun x =>
      if x.1.gone then x.1
      else { x.1 with place := .unplaced, atKnot := false
                      slices := switchSlices x.1 (windowBase K.stages x.2) 0 (s1.free + 256 * x.2) x.1.slices }
    let links := K.links.zipIdx.map fun x => x.1.ofRing B K.slices (K.ringAt x.2)
    exec (.skeinUnreelAtKnot p k) s = .next (({ s1 with free := s1.free + 2048 }.setSkein p k
      { K with stages := sts, links := links, folded := false, foldGang := none, run := 0 }).switchOver p k K.freezeDefer)) ∧
  ∀ p k (s : State) K t c B, s.skein p k = some K → K.sw = .exportCopy → s.stateOpen K = true → s.findBlock K.uid = some (t, c, B) →
    let s1 := (s.unfold K).1
    let area := saveArea K (s.unfold K).2 B s1.free
    let s2 := { s1 with free := s1.free + 1 }
    let s3 := s2.devPut K.tile K.vf (s2.worldOf K.tile) (area.length / 65536 + 2) K.save area
    let K' := { K with last := 1, foldGang := none }
    exec (.skeinExportAtKnot p k) s = .next (((s3.setSkein p k K').endSkein p k K' 6).deferredFreezes K.freezeDefer)

/-! ### The package: power, links, packets -/

/-- Release from reset (R11, R42, R44, R46): where the conditions for boot hold the dies are released, with the node identifier
and the partitions of the configuration block, every die reset and every link training, and memory as it was; else nothing
changes. Power, boot, heat and measurement events (R11, R15, R16, R42, R46, R47, R52). What is kept where dies are in reset is
`State.held`: VAUX's state, and DRAM while its rail is up. -/
def Obligations.PowerEvents : Prop :=
  (∀ (s : State),
     (∀ c, s.boots c → s.release.released = true ∧ s.release.recovery = false ∧ s.release.gnode = BitVec.ofNat 64 (2 ^ 31 + c.node.toNat) ∧
       (∀ k e, (c.part.take c.npart.toNat)[k]? = some e → s.release.part k = some (partStart e)) ∧
       (∀ d, d < 5 → s.release.die d = Die.reset) ∧ (∀ p, p < 24 → (s.release.port p).state = 1) ∧
       (∀ b, b < 8 → (s.release.boundary b).state = 1) ∧ s.release.mem = s.mem) ∧
     ((∀ c, ¬ s.boots c) → s.release = s) ∧
     s.boot = State.release { s with
       configFailed := decide (∀ c, s.flashConfig = some c → configOk c = false)
       recovery := decide (∀ i, s.flashImage = some i → imageOk i = false) }) ∧
  ((∀ (s : State), (s.released = false → exec .railsGood s = .next (s.rails true).boot) ∧
     (s.released = true → exec .railsGood s = .next (s.rails true))) ∧
   (∀ (s : State), exec .railsRemoved s = .next ((s.rails false).held false)) ∧
   (∀ (s : State) (keep : Bool), let t := s.held keep
     t.released = false ∧ t.parts = [] ∧ t.dies = [] ∧ t.tiles = [] ∧ t.grids = [] ∧ t.flashImage = s.flashImage ∧ t.flashConfig = s.flashConfig ∧
     (keep = true → t.mem = s.mem)) ∧
   (∀ c (s : State), s.vaux = true → exec (.fullReset c) s = .next (State.boot { s.held s.vdram with flashConfig := some c })) ∧
   (∀ i (s : State), s.vaux = true → s.recovery = true → imageOk i = true →
     exec (.recoveryImage i) s = .next (State.boot { s with flashImage := some i })) ∧
   (∀ i (s : State), s.vaux = true → s.released = true → imageOk i = true → exec (.firmwareUpdate i false) s = .next { s with flashImage := some i }) ∧
   (∀ i (s : State), s.vaux = true → s.released = true → imageOk i = true → exec (.firmwareUpdate i true) s = .next
     { (s.rails false).held false with flashImage := some { i with edOk := false, mldOk := false } }) ∧
   (∀ d temp (s : State), 115 * 256 ≤ temp.toNat → s.vcore = true → exec (.thermtrip d temp) s = .next
     (State.held { s with vcore := false, thermtrip := true } s.vdram)) ∧
   (∀ temps current (s : State), s.released = true → ∃ t, exec (.throttleEvaluation temps current) s = .next t ∧
     ∀ d x, d < 4 → temps[d]? = some x →
       let v := (t.die d).thstat.toNat
       let old := (s.die d).thstat.toNat
       let level := nextLevel (bits old 2 0) x.toNat current
       bits v 2 0 = level ∧ bits v 31 16 = x.toNat ∧
       (bits old 2 0 < level →
         bits v 8 8 = (if 95 * 256 ≤ x.toNat then 1 else 0) ∧ bits v 9 9 = if current = .stayedAbove then 1 else 0) ∧
       (level ≤ bits old 2 0 → bits v 9 8 = bits old 9 8) ∧ (105 * 256 ≤ x.toNat → bits v 10 10 = 1)) ∧
   (∀ d v (s : State), v.getLsbD 10 = true → exec (.thstatTrippedClear d v) s = .next
     (s.setDie d { s.die d with thstat := (s.die d).thstat &&& ~~~ 0x400#64 })) ∧
   ∀ nonce (s : State), s.vaux = true →
     let m := [nonce, Config.romMeasurement, (match s.flashImage with | some i => i.digest | none => 0)] ++
       (match s.flashConfig with | some c => configWords c | none => []) ++
       [Config.minImageSvn.setWidth 64, Config.minConfigSvn.setWidth 64]
     exec (.spdmMeasurements nonce) s = .next
       { s with measured := m, measuredEd := Config.signEd25519 m, measuredMld := Config.signMlDsa65 m })

/-- Links, boundaries, routes (R19, R21 to R29). A flit in order with a good check and a known kind is accepted; any other is
discarded and asked for again. Packets between dies (R17, R19, R145, R146): those that arrive together are taken in order, an
announcement goes to every other die that can be reached, and a home performs the message it may take. -/
def Obligations.LinkEvents : Prop :=
  ((∀ l flit (s : State), linkExists l = true → (s.link l).alive = true →
     let P := s.link l
     let f := readFlit flit
     let good := f.2.2.2.2 = true ∧ f.2.2.2.1 < 4 ∧ f.2.2.1 = P.rxNext
     let Q := { P.acked f.2.1 with rxNext := P.rxNext + 1, wantReplay := none }
     (¬ good → exec (.flitReceive l flit) s = .next (s.setLink l { P with wantReplay := some P.rxNext })) ∧
     (∀ b far, l = .boundary b far → good → exec (.flitReceive l flit) s = .next (s.setLink l Q)) ∧
     (∀ p, l = .port p → good →
       let r := if f.2.2.2.1 = 0 then parsePackets 64 (P.rx ++ f.1) else ([], P.rx)
       exec (.flitReceive l flit) s = .next (State.pump
         { s.setPort p { Q with rx := r.2 } with arrivals := s.arrivals ++ r.1.map fun k => (p, k) }))) ∧
   (∀ l fseq (s : State), linkExists l = true → (s.link l).alive = true →
     let P := (s.link l).acked (fseq - 1)
     exec (.replayRequest l fseq) s = .next (State.pump ((s.setLink l { P with
       resend := P.kept
       replayRun := if P.replayRun ≠ 0 ∧ P.replayFrom = fseq then P.replayRun + 1 else 1, replayFrom := fseq }).countReplays l P.kept.length)) ∧
   (∀ (s : State) l n, let t := s.countReplays l n
     (∀ p, l = .port p → (t.port p).stat = satInc (s.port p).stat 32 32 n) ∧
     (∀ b far, l = .boundary b far → (t.boundary b).stat = satInc (s.boundary b).stat 32 32 n))) ∧
   (∀ p (s : State), p < 24 → (s.port p).alive = true → 8 ≤ (s.port p).replayRun →
     ∃ t, exec (.portRetrain p) s = .next t ∧ (t.port p).state = 1 ∧ (t.port p).replayRun = 0) ∧
   (∀ b (s : State), b < 4 → (s.boundary b).alive = true → 8 ≤ (s.boundary b).replayRun ∨ 8 ≤ (s.boundary (b + 4)).replayRun →
     ∃ t, exec (.boundaryRetrain b) s = .next t ∧
       ∀ e ∈ [b, b + 4], (t.boundary e).state = 1 ∧ (t.boundary e).replayRun = 0 ∧ (t.boundary e).kept = (s.boundary e).kept) ∧
   (∀ p lanes (s : State), p < 24 → (s.port p).state = 1 →
     let P := s.port p
     let n := ((List.range 8).filter fun k => lanes.getLsbD k).length
     let stat := setField (setField P.stat 16 8 lanes.toNat) 2 1 (if 4 ≤ n ∧ n < 8 then 1 else 0)
     (4 ≤ n → exec (.portTrainingDone p lanes) s = .next (s.setPort p { P with stat := setField stat 0 2 3, quiesce := true, resend := P.kept })) ∧
     (n < 4 → exec (.portTrainingDone p lanes) s = .next (State.portDown (s.setPort p
       { P with stat := setField stat 0 2 0, quiesce := true, kept := [], resend := [], tx := [], rx := [], carried := [], wantReplay := none }) p))) ∧
   (∀ b (s : State), b < 4 → (s.boundary b).state = 1 →
     (∃ t, exec (.boundaryTrainingDone b true) s = .next t ∧
       ∀ e ∈ [b, b + 4], (t.boundary e).state = 2 ∧ (t.boundary e).kept = (s.boundary e).kept ∧ (t.boundary e).resend = (s.boundary e).kept) ∧
     exec (.boundaryTrainingDone b false) s = .next (s.boundaryDown b)) ∧
   (∀ p (s : State), p < 24 → s.released = true → exec (.gpqctlQuiesce p) s = .next (s.setPort p { s.port p with quiesce := true })) ∧
   (∀ p (s : State), p < 24 → s.released = true → let P := s.port p
     exec (.gpqctlResume p) s = .next (State.pump (s.setPort p
       { P with quiesce := false, stat := if P.state = 3 then setField P.stat 0 2 2 else P.stat }))) ∧
   (∀ p (s : State), p < 24 → (s.port p).quiesce = true → (s.port p).state = 2 → (s.port p).carried = [] →
     exec (.portQuiesceDone p) s = .next (s.setPort p { s.port p with stat := setField (s.port p).stat 0 2 3 })) ∧
   ∀ d node v (s : State), d < 4 → node.toNat < 640 → s.released = true →
     let D := s.die d
     let old := kgetD D.grtab node.toNat 0xFF
     let quiet : BitVec 8 → Prop := fun x => x = 0xFF ∨ (x.toNat < 24 ∧ (s.port x.toNat).state = 3)
     (old = v → exec (.grtabWrite d node v) s = .next s) ∧
     (old ≠ v → quiet old → quiet v → ∃ t, exec (.grtabWrite d node v) s = .next t ∧ t = State.pump (s.setDie d
       { D with grtab := if v = 0xFF then kdel D.grtab node.toNat else kset D.grtab node.toNat v })) ∧
     (old ≠ v → ¬ (quiet old ∧ quiet v) → exec (.grtabWrite d node v) s = .next (s.setDie d { D with grstat := satInc D.grstat 0 16 1 }))) ∧
  ((∀ src dst (s : State), s.reaches (fun st => st == 2) src dst = true → s.arriving src dst ≠ [] →
     let ms := s.arriving src dst
     exec (.diePacketArrival src dst) s = .next (ms.foldl State.acceptMsg { s with wire := s.wire.filter fun x => !ms.contains x })) ∧
   (∀ src (s : State), s.released = true → src < 5 → exec (.vectorAnnounce src) s = .next
     (((List.range 5).filter fun d => d != src && !s.cutOffDies src d).foldl (fun x d =>
       let v := (s.die src).vec
       let m : Msg := ⟨src, d, 0, v, ent v src, .announce (ent v src), 0, 0, none, none, true, false⟩
       if x.mayLeave m then x.leave m else x) s)) ∧
   (∀ home k (s : State) m, (s.die home).takeable home k = some m →
     ((∃ pa bs, m.body = .write pa bs) → exec (.remoteWriteApply home k) s = .next (s.takeMsg home k m)) ∧
     ((∃ pa x c, m.body = .signal pa x c) → exec (.remoteWriteApply home k) s = .next (s.takeMsg home k m)) ∧
     ((∃ pa op n y z, m.body = .atomic pa op n y z) → exec (.remoteWriteApply home k) s = .next (State.takeWord home m 32 (s.takeMsg home k m))) ∧
     ((∃ pa n f, m.body = .read pa n f) → exec (.remoteReadPerform home k) s = .next (s.takeMsg home k m)) ∧
     ((∃ r, m.body = .strand r) → exec (.strandOpApply home k) s = .next (s.takeMsg home k m))) ∧
   (∀ k (s : State) x, s.resps[k]? = some x → (x.bad.isSome = true ∨ s.reaches (fun st => st == 2) x.die (dieOf x.tile) = true) →
     (x.strand = false → (∀ l bs, x.fill = some (l, bs) → ∀ y ∈ s.resps.take k, y.tile = x.tile → y.fill.map (·.1) ≠ some l) →
       exec (.readResponseArrival (.inside k)) s = .next (State.deliver { s with resps := s.resps.eraseIdx k } x)) ∧
     (x.strand = true →
       let mine := fun r : Resp => r.strand && r.tile == x.tile && r.seq == x.seq
       exec (.strandResponse k) s = .next ((s.resps.filter mine).foldl (fun s r => s.deliver r) { s with resps := s.resps.filter fun r => !mine r }))) ∧
   ∀ pk p (s : State), s.arrived pk = some p → pk.op = opReadData → pk.vc = 1 → s.Answers pk p false fun t =>
     exec (.readResponseArrival (.packet pk)) s = .next t)

/-- The code of the ERROR that refuses a packet (R34, R381, R382): the lowest cause that applies. Packets that have arrived at a
port (R31 to R38, R381, R382). A request that its die can send on is answered with its ERROR code or enters its home; a signal
is refused, or held until its companion packets are visible; a reduction is checked and reaches the switch; a response completes
the request it answers. -/
def Obligations.PacketEvents : Prop :=
  (∀ (s : State) (pk : Packet),
     let pa := pk.addr.toNat
     let n := if pk.op = opSignal then 8 else if pk.op = opAtomic then (if pk.dtype = 1 then 8 else 4) else max 1 pk.len.toNat
     let mapped := ∀ k, k < n → isDram (pa + k) = true ∨ (isHost (pa + k) = true ∧ Config.hostPresent (pa + k) = true)
     let barred := fun c => ∃ k, k < n ∧ s.barredAt pk.world (pa + k) = some c
     let skew := (pk.op = opSignal ∧ pa % 8 ≠ 0) ∨ (pk.op = opAtomic ∧ pa % n ≠ 0)
     let ill := vcOf pk.op ≠ some pk.vc ∨ lenOk pk = false ∨ ((pk.op = opAtomic ∨ pk.op = opReduce) ∧ 4 ≤ pk.dtype.toNat)
     let code := s.errorCode pk
     (¬ mapped → code = some 1) ∧ (mapped → barred 2 → code = some 2) ∧ (mapped → ¬ barred 2 → barred 3 → code = some 3) ∧
     (mapped → ¬ barred 2 → ¬ barred 3 → skew → code = some 4) ∧
     (mapped → ¬ barred 2 → ¬ barred 3 → ¬ skew → ill → code = some 5) ∧
     (mapped → ¬ barred 2 → ¬ barred 3 → ¬ skew → ¬ ill → aopOk pk = false → code = some 6) ∧
     (mapped → ¬ barred 2 → ¬ barred 3 → ¬ skew → ¬ ill → aopOk pk = true → code = none)) ∧
  ((∀ (p : Nat) (pk : Packet) (s : State), s.canTake p pk = true →
     let s1 := s.takeArrival p pk
     let s2 := if pk.vc = 0 then { s1 with flowRx := kset s1.flowRx (flowKey pk.sep.toNat pk.snode.toNat 0) ((pk.fseq.toNat + 1) % 65536) } else s1
     let t := State.pump (match s2.errorCode pk with
       | some c => if pk.vc = 1 then s2 else s2.refuse (p / 6) pk c
       | none => s2.enterHome (p / 6) pk)
     (pk.op = opWrite → exec (.packetWrite p pk) s = .next t) ∧ (pk.op = opRead → exec (.packetRead p pk) s = .next t) ∧
     (pk.op = opAtomic → exec (.packetAtomic p pk) s = .next t) ∧
     ((vcOf pk.op = none ∨ (vcOf pk.op = some 1 ∧ pk.vc ≠ 1)) → exec (.packetWrite p pk) s = .next t)) ∧
   (∀ (p : Nat) (pk : Packet) (s : State), s.arrived pk = some p → pk.op = opSignal →
     let s1 := s.takeArrival p pk
     (∀ c, s1.errorCode pk = some c → exec (.packetSignal p pk) s = .next (State.pump (if pk.vc = 1 then s1 else s1.refuse (p / 6) pk c))) ∧
     (s1.errorCode pk = none → exec (.packetSignal p pk) s = .next { s1 with signals := s1.signals ++ [⟨p, pk⟩] })) ∧
   (∀ (k : Nat) (s : State) (h : HeldSignal), s.signals[k]? = some h → s.signalReady k h = true →
     exec (.signalApply k) s = .next (State.enterHome { s with signals := s.signals.eraseIdx k } (h.port / 6) h.pk).pump) ∧
   (∀ (p : Nat) (pk : Packet) (s : State), s.arrived pk = some p → pk.op = opReduce →
     let s1 := s.takeArrival p pk
     (∀ c, s1.errorCode pk = some c →
       let s2 := if pk.vc = 1 then s1 else s1.refuse (p / 6) pk c
       ((pk.vc ≠ 2 ∨ (pk.dtype.toNat < 4 ∧ aopOk pk = true)) → exec (.reduceContribution pk) s = .next s2.pump) ∧
       (pk.vc = 2 → (4 ≤ pk.dtype.toNat ∨ aopOk pk = false) → exec (.reduceContribution pk) s = .next (s2.contributeSwitch pk).pump)) ∧
     (s1.errorCode pk = none → exec (.reduceContribution pk) s = .next (State.pump
       (State.contributeSwitch { s1 with reduceVia := s1.reduceVia ++ [(p / 6, pk)] } pk)))) ∧
   (∀ (pk : Packet) (s : State), pk.op = opReduce → pk.snode.toNat = s.node → pk ∈ s.outbox → (∀ a ∈ s.arrivals, a.2 ≠ pk) →
     exec (.reduceContribution pk) s = .next (State.contributeSwitch { s with outbox := s.outbox.erase pk } pk)) ∧
   ∀ (p : Nat) (pk : Packet) (s : State), s.arrived pk = some p → pk.vc = 1 →
     (pk.op = opAck → s.Answers pk p false fun t => exec (.ackResponse pk) s = .next t) ∧
     (pk.op = opAtomRes → s.Answers pk p false fun t => exec (.atomresResponse pk) s = .next t) ∧
     (pk.op = opError → s.Answers pk p true fun t => exec (.errorResponse pk) s = .next t))

/-- Reduction (R35 to R38). At the switch, a contribution that is ill-formed, repeated or of another shape fails its operation,
and every contributor is answered with ERROR, code 7; an operation that failed stands until each node has contributed, and nothing of
this package is still to come; the last one of a sound operation makes the result, which is written and
answered. In the package, contributions that agree are folded and leave as one, others leave one by one; a reduction
confined to the package is written here, and where its contributions disagree or are refused each is answered with an error. -/
def Obligations.ReduceEvents : Prop :=
  (∀ (s : State) (pk : Packet),
    let none_ : ReduceOp := ⟨pk.dnode, pk.rgroup, pk.addr, pk.tag, [], false⟩
    let op := (s.reduces.find? fun o => o.has pk).getD none_
    let others := s.reduces.filter fun o => !o.has pk
    let clash := (∃ x ∈ op.contribs, x.snode = pk.snode) ∨ (pk.snode.toNat = s.node ∧ s.moreToCome op = true) ∨
      ∃ x, op.contribs.head? = some x ∧ (x.len ≠ pk.len ∨ x.aop ≠ pk.aop ∨ x.dtype ≠ pk.dtype)
    let bad := formCode pk ≠ none ∨ clash ∨ op.failed = true
    let cs := op.contribs ++ [pk]
    let last := pk.ncontrib.toNat ≤ (cs.map fun x => x.snode).eraseDups.length
    let stays := fun (t : State) => if last ∧ t.moreToCome op = false then others else others ++ [{ op with contribs := cs, failed := true }]
    let sum := foldReduce pk.aop.toNat pk.dtype.toNat ((cs.foldl (fun l x => insNode x l) []).map (·.payload))
    (bad → op.failed = false →
      let t := (op.contribs.foldl (fun s x => s.switchAnswer x (some 7)) s).switchAnswer pk (some ((formCode pk).getD 7))
      s.contributeSwitch pk = { t with reduces := stays t }) ∧
    (op.failed = true → let t := s.switchAnswer pk (some ((formCode pk).getD 7))
      s.contributeSwitch pk = { t with reduces := stays t }) ∧
    (¬ bad → last → s.contributeSwitch pk =
      { (cs.foldl (fun t x => t.switchAnswer x (s.writeResult pk sum).2) (s.writeResult pk sum).1) with reduces := others }) ∧
    (¬ bad → ¬ last → s.contributeSwitch pk = { s with reduces := others ++ [{ op with contribs := cs }] })) ∧
  ∀ (k : Nat) (s : State) (c : LocalContrib) (l : List LocalContrib), s.localSorted k = c :: l →
    let cs := c :: l
    let die := dieOf c.tile
    let agree : Bool := cs.all fun x => x.pk.len == c.pk.len && x.pk.aop == c.pk.aop && x.pk.dtype == c.pk.dtype
    let s' := { s with locals := s.locals.filter fun x => !cs.contains x }
    let sum := foldReduce c.pk.aop.toNat c.pk.dtype.toNat (cs.map (·.pk.payload))
    let here := c.pk.dnode.toNat = s.node ∧ c.pk.ncontrib = 1
    let refused := ¬ agree ∨ formCode c.pk ≠ none ∨ s.errorCode { c.pk with op := opWrite, vc := 0 } ≠ none
    let out := fun t => exec (.localReduceCombine k) s = .next t
    c.need ≤ cs.length → s.outRoom die 65 (if agree then 1 else cs.length) = true →
      (¬ here → ¬ agree → out (cs.foldl (fun s x => s.sendReduce (dieOf x.tile) x.pk [x]) s')) ∧
      (¬ here → agree → out (s'.sendReduce die { c.pk with payload := sum } cs)) ∧
      (here → refused → out (cs.foldl (fun s x => s.engAnswer x.tile x.id x.name [] (some (8, 0, x.pk.addr.toNat))) s')) ∧
      (here → ¬ refused → s'.rangeOpen die c.pk.addr.toNat sum.length (s'.die die).vec true = true →
        out (cs.foldl (fun s x => s.engAnswer x.tile x.id x.name [] none) (s'.writeNow die c.pk.addr.toNat sum (s'.die die).vec)))

/-! ### Virtual functions, registers, translations -/

/-- The life of a device interface (R53 to R55): which requests move it between its four states, what a register of the
configuration space takes, and that a change to a frozen one, or a failure of its stream in RUN, moves it to ERROR with every
window closed; a request its state does not list is answered with an error, and changes nothing else. Launch windows (R44, R55, R57,
R59 to R63): those of a function bound to no partition answer as unsupported. A write to LWREC is dropped where the interface state or a window without
a free slot refuses it, rejected with the code of the first check it fails, or accepted: a slot is taken and its record enters
its queue. -/
def Obligations.InterfaceEvents : Prop :=
  (∀ (v : Nat) (s : State), s.hasVf v = true → let V := s.vf v
     (V.td = .unlocked → exec (.lockInterfaceRequest v true) s = .next (s.setVf v { V with td := .locked, keyed := true, report := some (s.tdReport v) })) ∧
     (∀ k, (V.td ≠ .unlocked ∨ k = false) → exec (.lockInterfaceRequest v k) s = .next (s.toHost (.tdispError v))) ∧
     (∀ r, V.td = .locked → V.report = some r → exec (.getDeviceInterfaceReport v) s = .next (s.toHost (.report v r))) ∧
     ((V.td ≠ .locked ∨ V.report = none) → exec (.getDeviceInterfaceReport v) s = .next (s.toHost (.tdispError v))) ∧
     (V.td = .locked → exec (.startInterfaceRequest v) s = .next (s.setVf v { V with td := .run })) ∧
     (V.td ≠ .locked → exec (.startInterfaceRequest v) s = .next (s.toHost (.tdispError v))) ∧
     (exec (.stopInterfaceRequest v) s = .next ((s.endFunction v).setVf v { (s.endFunction v).vf v with td := .unlocked, report := none, stopScrub := true })) ∧
     (V.stopScrub = true → (∀ t ∈ s.tilesOf v, (s.tile t).scrub = false) →
       ∃ t, exec (.stopScrubDone v) s = .next t ∧ (t.vf v).stopScrub = false ∧ V.windowsAre (t.vf v) fun W => { W with free := W.depth }) ∧
     (∀ r x, (V.td = .unlocked → exec (.lockedRegisterWrite v r x) s = .next (s.setVf v (V.setLocked r (lockedValue r x)))) ∧
       ((V.td = .locked ∨ V.td = .run) → lockedValue r x = V.lockedReg r → exec (.lockedRegisterWrite v r x) s = .next s) ∧
       ((V.td = .locked ∨ V.td = .run) → lockedValue r x ≠ V.lockedReg r → exec (.lockedRegisterWrite v r x) s = .next (s.tdError v)) ∧
       (V.td = .error → exec (.lockedRegisterWrite v r x) s = .next s)) ∧
     (V.td = .run → exec (.ideIntegrityFailure v) s = .next (s.tdError v)) ∧
     ((s.tdError v).vf v).td = .error ∧ (∀ w, w < 16 → (((s.tdError v).vf v).window w).free = 0) ∧
     (∀ t, t ∈ s.tilesOf v → ((s.tdError v).tile t).scrub = true) ∧
     (∀ g G, kget (s.tdError v).grids g = some G → G.rcd.vf ≠ v)) ∧
  (∀ (v w off : Nat) (data : List Byte) (ide : Bool) (x : Word) (s : State), s.hasVf v = true → s.partOfVf v = none →
     exec (.launchRecordWrite v w off data ide) s = .next (s.toHost (.unsupported v)) ∧
     exec (.lwcfgWrite v w x) s = .next (s.toHost (.unsupported v))) ∧
  ((∀ (v w off : Nat) (data : List Byte) (ide : Bool) (s : State) (p : Nat) (P : Part), s.partOfVf v = some p → s.part p = some P →
     (s.vf v).memEnable = true → w < 16 → off < 64 →
     let V := s.vf v
     let W := V.window w
     let open_ := (V.td = .unlocked ∧ V.stopScrub = false) ∨ (V.td = .run ∧ ide = true)
     let put := fun W' => s.setVf v (V.setWindow w W')
     let bad := windowCheck P off data
     ((¬ open_ ∨ W.free = 0) → exec (.launchRecordWrite v w off data ide) s = .next (put { W with drops := if W.drops = 0xFFFF then W.drops else W.drops + 1 })) ∧
     (open_ → W.free ≠ 0 → ∀ c, bad = some c → exec (.launchRecordWrite v w off data ide) s = .next
       (put { W with rejects := if W.rejects = 0xFF then W.rejects else W.rejects + 1, lasterr := BitVec.ofNat 4 c })) ∧
     (open_ → W.free ≠ 0 → bad = none → exec (.launchRecordWrite v w off data ide) s = .next
       (State.submit (put { W with free := W.free - 1, accepted := W.accepted + 1 }) p v (LRecord.ofBytes data) (fun _ => .window v w)
         (P.secok && v == P.vflo) none W.cap.toNat (s.die 4).vec).1) ∧
     ((off ≠ 0 ∨ data.length ≠ 64) → bad = some 1)) ∧
   ∀ (v w : Nat) (x : Word) (s : State), (s.partOfVf v).isSome = true → (s.vf v).memEnable = true → w < 16 →
     let V := s.vf v
     let W := V.window w
     let depth : BitVec 7 := x.setWidth 7
     let cap : BitVec 3 := (x >>> 8).setWidth 3
     let fits := W.free = W.depth ∧ 1 ≤ depth.toNat ∧ depth.toNat ≤ 64
     (V.td = .unlocked → fits → exec (.lwcfgWrite v w x) s = .next (s.setVf v (V.setWindow w { W with depth := depth, cap := cap, free := depth }))) ∧
     (V.td = .unlocked → ¬ fits → exec (.lwcfgWrite v w x) s = .next s) ∧ (V.td = .error → exec (.lwcfgWrite v w x) s = .next s) ∧
     ((V.td = .locked ∨ V.td = .run) → (depth ≠ W.depth ∨ cap ≠ W.cap) → exec (.lwcfgWrite v w x) s = .next (s.tdError v)) ∧
     ((V.td = .locked ∨ V.td = .run) → depth = W.depth → cap = W.cap → exec (.lwcfgWrite v w x) s = .next s))

/-- Registers written from outside a gang, requests on skeins and sheaves (R79, R97, R100, R187, R190, R208, R363, R367). -/
def Obligations.RegisterEvents : Prop :=
  (∀ t u (reg : SysReg) (k : BitVec 8) (x : Word) (s : State) (I : Issuer), s.issuerOf t u = some I → sysFault s I .tret reg k.toNat true = none →
    reg ≠ .tlbinv → reg ≠ .shdisc → reg ≠ .skreq → exec (.systemRegisterWrite (.sub t u reg k x)) s = .next (s.sysWrite I reg k.toNat x)) ∧
  (∀ p (x : Word) (s : State) P, s.part p = some P → exec (.systemRegisterWrite (.psched p x)) s = .next (s.setPart p { P with pschedNext := some (pschedMask x) })) ∧
  (∀ v (x : Word) (s : State), s.hasVf v = true → exec (.systemRegisterWrite (.hsroot v x)) s = .next (s.setVf v { s.vf v with hsroot := hsrootMask x })) ∧
  (∀ t k (x : Word) (s : State), (s.partOfTile t).isSome = true → k < 4 → exec (.systemRegisterWrite (.bpc t k x)) s = .next
    (s.setTile t { s.tile t with bpc := kset (s.tile t).bpc k (bpcMask x) })) ∧
  (∀ t u (x : Word) (s : State) U, kget (s.tile t).subs u = some U → exec (.tepcWrite t u x) s = .next (s.setSub t u (U.mapSlices fun S => S.writeTepc x))) ∧
  (∀ p slot (s : State) P h, s.part p = some P → kget P.sheaves slot = some h → h.complete = true → h.restoring = false →
    exec (.shdiscWrite p slot) s = .next (s.discardSheaf p slot)) ∧
  (∀ p slot (s : State) P h, s.part p = some P → kget P.sheaves slot = some h → (h.complete = false ∨ h.restoring = true) →
    exec (.shdiscWrite p slot) s = .next s) ∧
  (∀ p (desc : Word) (s : State) k, s.skeinNamed p desc = some k → ∃ P K e, s.part p = some P ∧ (k, K) ∈ P.skeins ∧
    lookup s K.tile K.vf desc = .ok e ∧ e.out + (desc.toNat - e.va) = K.descPa) ∧
  (∀ p (desc : Word) (s : State) k, s.skeinNamed p desc = some k →
    exec (.skreqReel p desc) s = .next (s.reelRequest p k false false) ∧ exec (.skreqUnreel p desc) s = .next (s.unreelRequest p k) ∧
    exec (.skreqExport p desc) s = .next (s.exportRequest p k)) ∧
  (∀ p k (s : State), exec (.distributorReelRequest p k) s = .next (s.reelRequest p k true false) ∧
    exec (.distributorUnreelRequest p k) s = .next (s.unreelRequest p k)) ∧
  (∀ p k (s : State) K, s.skein p k = some K →
    (∀ d e, s.reelCode K ≠ 0 → s.reelRequest p k d e = s) ∧ (∀ d e, s.reelCode K = 0 → s.reelRequest p k d e = s.startReel p k K d e none) ∧
    (s.unreelCode K ≠ 0 → s.unreelRequest p k = s) ∧ (s.unreelCode K = 0 → K.folded = true → s.unreelRequest p k = s.startUnreel p k K false none) ∧
    (K.save = 0 → s.exportRequest p k = s) ∧
    (K.save ≠ 0 → K.folded = true → s.unreelCode K = 0 → s.exportRequest p k = s.startUnreel p k K true none) ∧
    (K.save ≠ 0 → K.folded = true → s.unreelCode K ≠ 0 → s.exportRequest p k = s) ∧
    (K.save ≠ 0 → K.folded = false → s.exportRequest p k = s.reelRequest p k false true)) ∧
  ∀ (r : BitVec 5) (k : BitVec 8) (s : State) (I : Issuer), Issues s (.swr r .skreq k) false [.sreg r.toNat 1] I → sysFault s I (.swr r .skreq k) .skreq k.toNat true = none →
    ∃ t, exec (.swr r .skreq k) s = .next t ∧ ∀ J, (s.skreq I.block.part (I.sub.sreg r.toNat)).issuer = some J →
      t = (s.skreq I.block.part (I.sub.sreg r.toNat)).setSub J.t J.u (J.sub.retire .other)

/-- Translations dropped and walked (R127, R129, R130). TLBINV names a range of virtual addresses of its partition, HTLBINV one
of intermediate addresses of its function, and bit 0 all; a misaligned range drops none. SWR to TLBINV is a release: it waits,
drops, and completes once no access under the translations is on its way. World moves (R48, R50): a granule is closed; once no
access to it is under way it reads zero, takes its world bit and opens. -/
def Obligations.TranslationEvents : Prop :=
  ((∀ (p : Nat) (x : Word) (s : State) (P : Part), s.part p = some P →
     let all := x.getLsbD 0
     (all = false → (rangeOf x).1 % (rangeOf x).2 ≠ 0 → exec (.tlbinvWrite p x) s = .next s) ∧
     ((all = true ∨ (rangeOf x).1 % (rangeOf x).2 = 0) → ∃ t, exec (.tlbinvWrite p x) s = .next t ∧
       s.dropped t fun e => P.vflo ≤ e.vf ∧ e.vf ≤ P.vfhi ∧ (all = true ∨ meets e.va e.size (rangeOf x).1 (rangeOf x).2))) ∧
   (∀ (v : Nat) (x : Word) (s : State),
     let all := x.getLsbD 0
     (all = false → (rangeOf x).1 % (rangeOf x).2 ≠ 0 → exec (.htlbinvWrite v x) s = .next s) ∧
     ((all = true ∨ (rangeOf x).1 % (rangeOf x).2 = 0) → ∃ t, exec (.htlbinvWrite v x) s = .next t ∧
       s.dropped t fun e => e.vf = v ∧ (all = true ∨ meets e.ia e.size (rangeOf x).1 (rangeOf x).2))) ∧
   (∀ (t v : Nat) (va : Word) (s : State),
     (∀ x, walk s v va = .error x → exec (.translationWalk t v va) s = .next s) ∧
     ∀ e, walk s v va = .ok e → exec (.translationWalk t v va) s = .next
       (State.fillTlb (s.setDie (dieOf t) { s.die (dieOf t) with dtu := (e :: (s.die (dieOf t)).dtu.filter fun x => x != e).take 65536 }) t e)) ∧
   (∀ (p : Nat) (s : State) (P : Part) (V : Inval) (U : Sub), s.part p = some P → P.inval = some V → kget (s.tile V.tile).subs V.sub = some U →
     (s.invalWaits V = true → exec (.tlbinvComplete p) s = .next s) ∧
     (s.invalWaits V = false → exec (.tlbinvComplete p) s = .next ((s.setPart p { P with inval := none }).setSub V.tile V.sub (U.retire .other)))) ∧
   ∀ (r : BitVec 5) (k : BitVec 8) (s : State) (I : Issuer) (P : Part), Issues s (.swr r .tlbinv k) false [.sreg r.toNat 1] I →
     sysFault s I (.swr r .tlbinv k) .tlbinv k.toNat true = none → s.part I.block.part = some P →
     let x := I.sub.sreg r.toNat
     let skew := x.getLsbD 0 = false ∧ (rangeOf x).1 % (rangeOf x).2 ≠ 0
     (I.sub.quiet = false → Waits s (.swr r .tlbinv k) I) ∧
     (I.sub.quiet = true → I.gang.free → skew → ∃ y, exec (.swr r .tlbinv k) s = trapAt { s with free := s.free + 1 } I 2 4 y) ∧
     (I.sub.quiet = true → I.gang.free → ¬ skew → P.inval.isSome = true → Waits s (.swr r .tlbinv k) I) ∧
     (I.sub.quiet = true → I.gang.free → ¬ skew → P.inval = none →
       let es := s.heldTranslations (P.invalidates x)
       exec (.swr r .tlbinv k) s = wait ((s.dropTlbs (P.invalidates x)).setPart I.block.part
         { P with inval := some ⟨I.t, I.u, s.accessesUnder P es, s.commandsUnder P es⟩ }) I)) ∧
  ((∀ g secure (s : State), s.released = true → g < 2 ^ 14 → (∀ m ∈ s.closed, m.granule ≠ g) →
     exec (.worldMoveRequest g secure) s = .next { s with closed := s.closed ++ [⟨g, secure⟩] }) ∧
   (∀ g secure (s : State) m, m ∈ s.closed → m.granule = g → exec (.worldMoveRequest g secure) s = .next s) ∧
   ∀ g (s : State) m, (s.closed.find? fun m => m.granule == g) = some m →
     (s.granuleBusy g = true → exec (.worldMoveComplete g) s = .next s) ∧
     (s.granuleBusy g = false → ∃ t, exec (.worldMoveComplete g) s = .next t ∧
       (∀ a, a / 2 ^ 26 = g → cellGet t.mem a = 0) ∧ (∀ a, a / 2 ^ 26 ≠ g → cellGet t.mem a = cellGet s.mem a) ∧
       (m.secure = true ↔ g ∈ t.fwtab) ∧ (∀ h, h ≠ g → (h ∈ t.fwtab ↔ h ∈ s.fwtab)) ∧ (∀ m ∈ t.closed, m.granule ≠ g)))

/-! ### Tiles: placement, freezing, bins, errors -/

/-- Placement (R55, R57, R62, R65, R68, R73, R74, R76, R77). The distributor serves the first queue in the order of service that does
not pass; blocks frozen of a region come before its records; a head that fails a dispatch check is discarded, one whose edge has no
free slot is held, a cooperative head that does not fit begins to reserve, and any other is placed where older reservations leave a
place. The scrub of a tile (R51), the ageing of a waiting queue (R72), a time slice's boundary (R79, R80), the addition of USED (R66)
and the completion of a grid (R67, R69). -/
def Obligations.PlacementEvents : Prop :=
  ((∀ p ts (s : State), s.nextServe p = none → exec (.placeBlock p ts) s = .next (s.readNew p)) ∧
   (∀ p k ts (s : State) P q x rc, s.nextServe p = some (k, q, x) → q.recs.head? = some rc →
     let s0 := s.readNew p
     let e := s0.effNow q rc
     let s1 := s0.dispatchRead p k rc
     let out := fun t => exec (.placeBlock p ts) s = .next t
     s1.part p = some P →
       (x = .discard → out (s1.discardHead p k P rc)) ∧
       (x = .hold → out (s1.mapQueue p k fun q => { q with st := .held })) ∧
       (x = .reserve → out { s1.mapQueue p k (fun q => { q with reserve := some s1.stamp }) with stamp := s1.stamp + 1 }) ∧
       (∀ ts0 y, x = .place ts0 → ((P.places rc.r.cgsize).find? fun y => sameTiles y ts) = some y →
         s1.placeFits P rc (s1.recWorld rc e) (bindingOn (s1.reserves p P) rc.grid) y = true → out (s1.placeNext p k P q rc e y))) ∧
   (∀ (s : State) p P l k q x, s.firstServed p P l = some (k, q, x) ↔ ∃ a b, l = a ++ (k, q) :: b ∧
     (∀ y ∈ a, s.serve p P y.1 y.2 = .pass) ∧ s.serve p P k q = x ∧ x ≠ .pass ∧ x ≠ .stop) ∧
   (∀ (s : State) p P k (q : Queue),
     (0 < s.frozenOf P k → s.serve p P k q = if s.queueRestores p P k = [] then .pass else .restore) ∧
     ∀ rc, s.frozenOf P k = 0 → q.recs.head? = some rc →
       ((s.vf rc.vf).td = .locked → s.serve p P k q = .pass) ∧
       ((s.vf rc.vf).td ≠ .locked → kget s.grids rc.grid = none → s.coveredBy rc.vec = false → s.serve p P k q = .stop) ∧
       ((s.vf rc.vf).td ≠ .locked → (kget s.grids rc.grid = none → s.coveredBy rc.vec = true) → s.serve p P k q = s.serveHead p P q rc)) ∧
   ∀ (s : State) p P (q : Queue) rc, kget s.grids rc.grid = none →
     let e := s.effNow q rc
     let res := bindingOn (s.reserves p P) rc.grid
     let goes := fun x => s.serveHead p P q rc = x
     (e.exhausted = true → goes .exhaust) ∧
     (e.exhausted = false → ∀ c, s.dispatchCode rc = some c → goes (if s.complOpen P.leadDie rc.vf rc.r then .discard else .stop)) ∧
     (e.exhausted = false → s.dispatchCode rc = none →
       (rc.r.edge ≠ 0 → ∀ fa, s.devicePlace rc.vf rc.r.edge = some fa → s.placeLe (fa + 4) 4 = 0 → goes .hold) ∧
       ((rc.r.edge = 0 ∨ ∃ fa, s.devicePlace rc.vf rc.r.edge = some fa ∧ s.placeLe (fa + 4) 4 ≠ 0 ∧ s.deviceOpen P.leadDie (fa + 4) = true) →
         (rc.r.coop = true → s.wholeFits P rc (s.recWorld rc e) res = false → goes (if q.reserve = none then .reserve else .pass)) ∧
         ((rc.r.coop = true → s.wholeFits P rc (s.recWorld rc e) res = true) →
           (∀ ts, s.findPlace P rc (s.recWorld rc e) res = some ts → goes (.place ts)) ∧
           (s.findPlace P rc (s.recWorld rc e) res = none → goes .pass))))) ∧
  ((∀ t (s : State), (s.tile t).scrub = true → (s.tile t).mode = .run ∨ (s.tile t).mode = .vacant →
     exec (.scrubComplete t) s = .next (((s.l1Clear t).setTile t
       { (s.l1Clear t).tile t with scrub := false, scrubbed := true, acc := [], accPoison := [], active := [], shadow := [], icache := [],
                                   tlb := [], l1 := [], ranks := [] }).beginBlocks t)) ∧
   (∀ p k (s : State) P q, s.part p = some P → kget P.queues k = some q →
     q.st = .waiting → q.recs ≠ [] → q.age ≠ 0 → q.base < 7 → q.level < 6 → q.since + q.age ≤ s.leadUsec P →
     exec (.queueAgeTimer p k) s =
       .next (s.setPart p { P with queues := kset P.queues k { q with level := q.level + 1, since := q.since + q.age } })) ∧
   (∀ p (s : State) P, s.part p = some P → P.nextSlice ≤ s.leadUsec P →
     let psched := P.pschedNext.getD P.psched
     let s1 := s.setPart p { P with psched := psched, pschedNext := none,
                                    nextSlice := P.nextSlice + max 100 (bits psched.toNat 31 0) }
     let s2 := (kkeys P.queues).foldl (fun s k => s.refreshQueue p k) s1
     ∃ P2, s2.part p = some P2 ∧ exec (.timeSliceBoundary p) s = .next (s2.freezeEligible p P2 true)) ∧
   (∀ t p (s : State) P, s.partOfTile t = some p → s.part p = some P →
     exec (.usedUpdate t) s = .next (P.queues.foldl (fun s x =>
       if x.2.used = 0 ∨ ¬ s.usedOpen P.leadDie x.2 then s
       else (s.addUsed P.leadDie x.2).mapQueue p x.1 fun q => { q with used := 0 }) s)) ∧
   ∀ g (s : State) G P, kget s.grids g = some G → s.part G.part = some P → G.over = true →
     let die := P.leadDie
     let vf := G.rcd.vf
     s.complOpen die vf G.rcd.r = true →
     let done := fun n : Nat =>
       let s1 := (s.gatherVec P).complete die vf G.world g G.rcd.r ((if G.unrec then 1 else 0) + n)
       { s1 with grids := kdel s1.grids g }
     (s.consumer g G P = none → exec (.gridCompletion g) s = .next (done 0)) ∧
     (∀ r, s.consumer g G P = some (r, none) → exec (.gridCompletion g) s =
       .next ((done 0).submit G.part vf r (fun _ => .edge vf G.rcd.r.edge) G.world none 7 ((done 0).die die).vec).1) ∧
     (∀ r c, s.consumer g G P = some (r, some c) → s.complOpen die vf r = true →
       let named := r.compl ≠ 0 ∧ r.compl.toNat % 16 = 0 ∧ ∃ e, walk s vf r.compl = .ok e
       (named → exec (.gridCompletion g) s = .next (((done 0).complete die vf G.world g r 1).returnEdge vf G.rcd.r.edge)) ∧
       (¬ named → exec (.gridCompletion g) s = .next (((done 2).complete die vf G.world g r 1).returnEdge vf G.rcd.r.edge))))

/-- Freezing a tile and its restore (R89 to R101, R184). A request freezes the tile with those that belong to it; a tile that
runs begins to drain unless a switch that copies defers it, and one that loads defers it too; after the last answer the image
streams into its slot, and the tile is empty; a sheaf is checked, refused with the code that R97 gives, or loaded, and its tile
runs. The debug port at a halted tile (R101, R102, R210): a resume makes it run where it stood, with a report of group 13 for
each sub-gang selected whose block has a handler; a save request streams the image, at once where its slot is free; a scan reads
the image or writes the part it names, and nothing else. -/
def Obligations.SheafEvents : Prop :=
  ((∀ t d p (s : State) P, s.released = true → s.partOfTile t = some p → s.part p = some P →
     exec (.freezeRequest t d) s = .next ((t :: (s.boundTiles P t).filter fun x => x != t).foldl (fun s x => s.startFreeze x d) s)) ∧
   (∀ t d (s : State),
     ((s.tile t).mode = .run → (s.tile t).blocks = [] → (s.tile t).conts = [] → s.startFreeze t d = s) ∧
     ((s.tile t).mode = .run → ((s.tile t).blocks ≠ [] ∨ (s.tile t).conts ≠ []) →
       (∀ p k K, ((s.skeinsAt t).find? fun x => x.2.2.copying) = some (p, k, K) → s.startFreeze t d =
         s.setSkein p k { K with freezeDefer := K.freezeDefer ++ [(t, d)] }) ∧
       (((s.skeinsAt t).find? fun x => x.2.2.copying) = none →
         let s1 := (s.skeinsAt t).foldl (fun s x => s.skeinAbort x.1 x.2.1 3) s
         s.startFreeze t d = s1.setTile t
           { s1.tile t with mode := .drain d false, fusec := (s1.die (dieOf t)).dusec, vcout := s1.outstanding t })) ∧
     (∀ slot, (s.tile t).mode = .load slot none → s.startFreeze t d = s.setTile t { s.tile t with mode := .load slot (some d) })) ∧
   (∀ t d b (s : State), (s.tile t).mode = .drain d b → s.draining t = false →
     (d = .debug true → exec (.drainComplete t) s = .next (s.setTile t { s.tile t with mode := .halt false })) ∧
     (d ≠ .debug true → s.slotFree t = true → exec (.drainComplete t) s = .next (s.setTile t { s.tile t with mode := .save })) ∧
     (d ≠ .debug true → s.slotFree t = false → exec (.drainComplete t) s = .next (s.setTile t { s.tile t with mode := .drain d true }))) ∧
   (∀ t p (s : State) P, (s.tile t).mode = .save → s.partOfTile t = some p → s.part p = some P →
     let T := s.tile t
     let outs := s.outs.filter fun o => o.die == dieOf t && o.ni == t % 64 && o.port.isNone
     ∃ h : Sheaf, (h.complete = true ∧ h.restoring = false ∧ h.crcOk = true ∧ h.magicOk = true ∧ h.part = p ∧ h.src = t ∧
       h.rev = trevOf t ∧ h.fusec = T.fusec ∧ h.vsnap = s.carried t ∧ h.poison = T.spoiled ∧ h.held = s.endpoints t ∧ h.outs = outs ∧
       h.image = T) ∧
       exec (.sheafSaveDone t) s = .next ((((outs.reverse.foldl State.leaveFlow s).writeHeader P (P.slotOf t) h).setPart p
         { P with sheaves := kset P.sheaves (P.slotOf t) h }).setTile t T.vacated)) ∧
   (∀ p slot t (s : State) P h, s.part p = some P → kget P.sheaves slot = some h → s.restoreFits p P slot h t = true →
     s.restoreTurn p P slot h = true →
     let refused := fun code => s.setPart p (P.refuse slot code)
     let coops := (h.image.blocks.filter fun x => x.2.proxy.isNone && x.2.rcd.coop).map fun x => x.2.grid
     let ended := fun code => coops.foldl (fun s g => s.failGrid g) ((refused code).discardSheaf p slot)
     let whole := h.magicOk = true ∧ h.complete = true
     let out := fun s' => exec (.sheafRestore p slot t) s = .next s'
     (¬ whole → out (ended 4)) ∧
     (whole → h.crcOk = false → out (ended 2)) ∧
     (whole → h.crcOk = true → h.part ≠ p → out (ended 3)) ∧
     (whole → h.crcOk = true → h.part = p → h.rev ≠ trevOf t → out (refused 1)) ∧
     (whole → h.crcOk = true → h.part = p → h.rev = trevOf t →
       let s1 := s.setPart p { P with sheaves := kset P.sheaves slot { h with restoring := true } }
       out (s1.setTile t { s1.tile t with mode := .load slot none }))) ∧
   ∀ t slot b p (s : State) P, (s.tile t).mode = .load slot b → s.partOfTile t = some p → s.part p = some P →
     let jobs := s.restoreJobs P (P.boundSlots slot)
     (P.boundSlots slot).length ≤ jobs.length →
     exec (.sheafRestoreDone t) s = .next (s.loadJobs p jobs)) ∧
  (∀ t b (s : State), (s.tile t).mode = .halt b →
     let T := s.tile t
     (∀ us, exec (.debugResume t us) s =
       .next (((s.setTile t (us.foldl Tile.selectSub { T with mode := .run })).applyRetlog t).releaseItems t)) ∧
     (s.slotFree t = true → exec (.debugSaveRequest t) s = .next (s.setTile t { T with mode := .save })) ∧
     (s.slotFree t = false → exec (.debugSaveRequest t) s = .next (s.setTile t { T with mode := .halt true })) ∧
     (b = true → s.slotFree t = true → exec (.drainComplete t) s = .next (s.setTile t { T with mode := .save })) ∧
     (∀ pl x, exec (.debugScanAccess t (.write pl x)) s = .next (s.setTile t (T.scanPut pl x))) ∧
     (∀ pl, exec (.debugScanAccess t (.read pl)) s = .next (s.toHost (.scan t pl (T.scanGet pl)))) ∧
     (∀ pl x, T.scanGet pl = none → T.scanPut pl x = T) ∧
     let place := fun (pl : ScanPlace) (v : Word) (f : Word → Tile) => T.scanGet pl = some v ∧ ∀ x, T.scanPut pl x = f x
     (∀ u U, kget T.subs u = some U →
       place (.pc u) U.pc (fun x => T.setSub u { U with pc := x }) ∧
       (∀ sl S, kget U.slices sl = some S →
         let put := fun S' => T.setSub u { U with slices := kset U.slices sl S' }
         (∀ r, place (.uniform u sl r) (S.sreg r.toNat) fun x => put (S.setSreg r.toNat x)) ∧
         place (.mask u sl) (S.mask.setWidth 64) (fun x => put { S with mask := x.setWidth 4 }) ∧
         (∀ k m, S.stack[k]? = some m → place (.stack u sl k) (m.setWidth 64) fun x => put { S with stack := S.stack.set k (x.setWidth 4) }) ∧
         (∀ ln L, S.lanes[ln]? = some L →
           (∀ r, place (.lane u sl ln r) ((L.reg r.toNat).setWidth 64) fun x =>
             put { S with lanes := S.lanes.modify ln fun L => L.setReg r.toNat (x.setWidth 32) }) ∧
           place (.pred u sl ln) (L.p.setWidth 64) fun x => put { S with lanes := S.lanes.modify ln fun L => { L with p := x.setWidth 8 ||| 1 } }))) ∧
     (∀ c B w, kget T.blocks c = some B → 4 * w < B.rcd.spad * 4096 → place (.spad c w) (BitVec.ofNat 64 (B.spadLe (4 * w) 4)) fun x =>
       T.setBlock c (B.setSpad (4 * w) (natLe 4 (x.toNat % 2 ^ 32)))) ∧
     (∀ k, k < 2 ^ 18 → place (.acc k) ((kgetD T.acc k 0).setWidth 64) fun x => { T with acc := kset T.acc k (x.setWidth 32) }))

/-- Bins and parked waits (R84, R85, R87, R296, R297, R359): a filling bin whose timer expired is ready, the first ready bin
forms its gang, a parked condition that is met sends its run to a bin; a store of bins in which nothing can move ends in a trap
of the oldest waiting instruction, group 10, code 9. Entries of the operand log and handler entry (R131, R132, R206, R207): an
entry completes and, once none is pending, the oldest faulted one enters the handler; a report is taken by the sub-gang that
would issue next. -/
def Obligations.BinEvents : Prop :=
  (∀ t (s : State), (s.tile t).mode = .run →
     let T := s.tile t
     (∀ b bn d, kget T.bins b = some bn → bn.st = .filling d → d ≤ s.usec t → exec (.binTimerExpiry t b) s =
       .next { s.setTile t { T with bins := kset T.bins b { bn with st := .ready s.stamp } } with stamp := s.stamp + 1 }) ∧
     (∀ b, T.firstReady = some b → exec (.binFormGang t b) s = .next (s.formGang t b)) ∧
     (∀ run, T.onMonitor run true = true → s.monitorMet t run = true → exec (.monitorWatchFire t run) s = .next (s.admitRun t run)) ∧
     (∀ run, T.onMonitor run false = true → s.monitorMet t run = true → exec (.monitorPoll t run) s = .next (s.admitRun t run)) ∧
     (∀ run, T.delayOver run = true → exec (.suspendDelayExpiry t run) s = .next (s.admitRun t run)) ∧
     ∀ u I s1, s.binDeadlock t = true → T.oldestWait = some u → s.issuerOf t u = some I →
       (∀ i, fetchNext s I = (s1, .instr i) → exec (.binStoreDeadlock t) s = trapWhole s1 I (isLane i) 10 9 (wordOf i)) ∧
       (∀ g c d, fetchNext s I = (s1, .fault g c d) → exec (.binStoreDeadlock t) s = trapAt s1 I g c d) ∧
       (∀ w c, fetchNext s I = (s1, .bad w c) → exec (.binStoreDeadlock t) s = trapWhole s1 I (laneWord w) 1 c (w.setWidth 64))) ∧
  (∀ t u (s : State), (s.tile t).mode = .run →
     (∀ sl slot, exec (.logEntryComplete t u sl slot) s = .next ((s.completeEntry t u sl slot).enterLogTrap t u)) ∧
     (s.logTrapDue t u = true → exec (.trapEntry t u) s = .next (s.enterLogTrap t u)) ∧
     (∀ I s', s.logTrapDue t u = false → s.ready t u = true → (s.beginIssue t u).issuer = some I →
       front (s.beginIssue t u) I = .trapped s' → exec (.trapEntry t u) s = .next (s'.endIssue t u)) ∧
     ∀ I, s.ready t u = true → s.issuerOf t u = some I → exec (.impreciseReportTaken t u) s = .next (s.takeImprecise t u I))

/-- Errors of storage (R96, R168, R205, R206, R210, R211, R213 to R216, R218, R219). An error of a gang's state bins the gang again,
until no attempt is left and its tile is fenced, or is the trap 15 of the gang, code 6 with the address of the packet its log names;
a lost line is poisoned and counted, and in a strand pool poisons the elements it holds; a word a save cannot read is poisoned in
the image; a corrected error is counted. -/
def Obligations.ErrorEvents : Prop :=
  (∀ t g code (s : State) G, (s.tile t).mode = .run → code.toNat ∈ [1, 2, 3, 4, 6] → kget (s.tile t).gangs g = some G →
    let out := fun s' => exec (.tileStateError t g code) s = .next s'
    (G.retry.point ≠ .lapsed →
      (G.retry.st = .run → out (s.rebin t g .retry (G.retry.attempts - 1))) ∧
      (G.retry.st = .retry → 0 < G.retry.attempts → out (s.rebin t g .retry (G.retry.attempts - 1))) ∧
      (G.retry.st = .retry → G.retry.attempts = 0 → out ((s.rebin t g .lasting 0).fence t)) ∧
      (G.retry.st = .lasting → out (s.unrecovered t G.ctx))) ∧
    (G.retry.point = .lapsed ∨ G.retry.st = .nonretry ∨ G.retry.st = .never → ∀ u U l, (s.tile t).subsOf g = (u, U) :: l →
      out (takeTrap { s with free := s.free + 1 } t u
        ⟨15, code, 0xFF, 0, if code = 6 then U.lostAddr.getD (Config.freeWord s.free 0) else 0, false, none, U.pc⟩))) ∧
  (∀ (U : Sub) d, U.lostAddr = some d → ∃ x ∈ U.slices, ∃ e ∈ x.2.log, ∃ a ∈ e.accs, a.st = .faulted 15 6 d) ∧
  (∀ pa (s : State), isDram pa = true → s.inStrandPool pa = false → lineOf pa ∉ s.poison →
    exec (.dataError (.line pa)) s = .next (s.poisonLineAt pa) ∧ (s.poisonLineAt pa).poison = insNat (lineOf pa) s.poison) ∧
  (∀ pa (s : State), s.inStrandPool pa = true →
    let s1 := s.countErr (homeOf pa) .poisoned
    exec (.dataError (.line pa)) s = .next { s1 with parts := kmap s1.parts fun _ P =>
      if P.spbase ≤ pa ∧ pa < P.spbase + P.spsize then P.poisonLine pa else P }) ∧
  (∀ (P : Part) pa, let off := pa - P.spbase
    (P.poisonLine pa).strands = kmap P.strands fun _ S =>
      { S with elems := S.elems.zipIdx.map fun (e, k) =>
          if k ∈ S.ranksIn (off / 4096) (off % 4096 / 128) then { e with poison := true } else e }) ∧
  (∀ t pl (s : State), (s.tile t).mode = .save →
    (∀ T, (s.tile t).spoil pl = some T → exec (.dataError (.sheafWord t pl)) s = .next ((s.setTile t T).countErr (dieOf t) .poisoned)) ∧
    ((s.tile t).spoil pl = none → exec (.dataError (.sheafWord t pl)) s = .next s)) ∧
  (∀ (T : Tile) u U sl S, kget T.subs u = some U → kget U.slices sl = some S →
    let put := fun S' => some (T.setSub u { U with slices := kset U.slices sl S' })
    (∀ r, r.toNat ∉ S.bad → T.spoil (.uniform u sl r) = put { S with bad := S.bad ++ [r.toNat] }) ∧
    ∀ ln L r, S.lanes[ln]? = some L → r.toNat ∉ L.bad →
      T.spoil (.lane u sl ln r) = put { S with lanes := S.lanes.modify ln fun L => { L with bad := L.bad ++ [r.toNat] } }) ∧
  (∀ t ctx pa (s : State) B, kget (s.tile t).blocks ctx = some B → exec (.dataError (.engine t ctx pa)) s = .next
    (s.reportTo B.uid ⟨15, 9, BitVec.ofNat 64 (128 * (pa / 128))⟩)) ∧
  (∀ t ctx unit (s : State) B, kget (s.tile t).blocks ctx = some B →
    let s1 := s.countErr (dieOf t) .sramcor
    let full := B.tctl.getLsbD 0 = true ∧ B.rcd.handler ≠ 0
    let out := fun B' => exec (.correctedError (.tile t ctx unit)) s = .next (s1.setBlock t ctx B')
    (B.corrected + 1 < 256 → out { B with corrected := B.corrected + 1 }) ∧
    (256 ≤ B.corrected + 1 → full → out { B with corrected := 0, reports := B.reports ++ [⟨14, unit, 256⟩] }) ∧
    (256 ≤ B.corrected + 1 → ¬ full → out { B with corrected := 0 })) ∧
  (∀ d (s : State), exec (.correctedError (.sram d)) s = .next (s.countErr d .sramcor) ∧
    exec (.correctedError (.dram d)) s = .next (s.countErr d .dramcor)) ∧
  ∀ line (s : State), isDram (line * 128) = true →
    exec (.patrolScrub line .clean) s = .next s ∧
    exec (.patrolScrub line .correctable) s = .next (s.countErr (homeOf (line * 128)) .dramcor) ∧
    exec (.patrolScrub line .uncorrectable) s = .next (s.poisonLineAt (line * 128))
end

