-- ==== Sys2Proof/Laws/Exec.lean ====
section
/-!
SUPPORT. Each arm of the dispatch, as a rewriting rule.
-/
namespace Sys2Proof.Machine

theorem exec_addLane {d} {a} {b} {σ : State} : exec (.addLane d a b) σ = execAddLane d a b σ := rfl
theorem exec_subLane {d} {a} {b} {σ : State} : exec (.subLane d a b) σ = execSubLane d a b σ := rfl
theorem exec_mulLane {d} {a} {b} {σ : State} : exec (.mulLane d a b) σ = execMulLane d a b σ := rfl
theorem exec_mulhLane {d} {a} {b} {σ : State} : exec (.mulhLane d a b) σ = execMulhLane d a b σ := rfl
theorem exec_mulhuLane {d} {a} {b} {σ : State} : exec (.mulhuLane d a b) σ = execMulhuLane d a b σ := rfl
theorem exec_mad {d} {a} {b} {σ : State} : exec (.mad d a b) σ = execMad d a b σ := rfl
theorem exec_andLane {d} {a} {b} {σ : State} : exec (.andLane d a b) σ = execAndLane d a b σ := rfl
theorem exec_orLane {d} {a} {b} {σ : State} : exec (.orLane d a b) σ = execOrLane d a b σ := rfl
theorem exec_xorLane {d} {a} {b} {σ : State} : exec (.xorLane d a b) σ = execXorLane d a b σ := rfl
theorem exec_andnLane {d} {a} {b} {σ : State} : exec (.andnLane d a b) σ = execAndnLane d a b σ := rfl
theorem exec_shlLane {d} {a} {b} {σ : State} : exec (.shlLane d a b) σ = execShlLane d a b σ := rfl
theorem exec_shrLane {d} {a} {b} {σ : State} : exec (.shrLane d a b) σ = execShrLane d a b σ := rfl
theorem exec_sarLane {d} {a} {b} {σ : State} : exec (.sarLane d a b) σ = execSarLane d a b σ := rfl
theorem exec_rolLane {d} {a} {b} {σ : State} : exec (.rolLane d a b) σ = execRolLane d a b σ := rfl
theorem exec_minLane {d} {a} {b} {σ : State} : exec (.minLane d a b) σ = execMinLane d a b σ := rfl
theorem exec_maxLane {d} {a} {b} {σ : State} : exec (.maxLane d a b) σ = execMaxLane d a b σ := rfl
theorem exec_minuLane {d} {a} {b} {σ : State} : exec (.minuLane d a b) σ = execMinuLane d a b σ := rfl
theorem exec_maxuLane {d} {a} {b} {σ : State} : exec (.maxuLane d a b) σ = execMaxuLane d a b σ := rfl
theorem exec_clzLane {d} {a} {σ : State} : exec (.clzLane d a) σ = execClzLane d a σ := rfl
theorem exec_popcLane {d} {a} {σ : State} : exec (.popcLane d a) σ = execPopcLane d a σ := rfl
theorem exec_brev {d} {a} {σ : State} : exec (.brev d a) σ = execBrev d a σ := rfl
theorem exec_bfeLane {d} {a} {b} {σ : State} : exec (.bfeLane d a b) σ = execBfeLane d a b σ := rfl
theorem exec_bfiLane {d} {a} {b} {σ : State} : exec (.bfiLane d a b) σ = execBfiLane d a b σ := rfl
theorem exec_selLane {d} {a} {b} {p} {σ : State} : exec (.selLane d a b p) σ = execSelLane d a b p σ := rfl
theorem exec_addc {d} {a} {b} {p} {σ : State} : exec (.addc d a b p) σ = execAddc d a b p σ := rfl
theorem exec_subb {d} {a} {b} {p} {σ : State} : exec (.subb d a b p) σ = execSubb d a b p σ := rfl
theorem exec_madc {d} {a} {b} {p} {σ : State} : exec (.madc d a b p) σ = execMadc d a b p σ := rfl
theorem exec_cmpLane {pd} {m} {c} {a} {b} {σ : State} : exec (.cmpLane pd m c a b) σ = execCmpLane pd m c a b σ := rfl
theorem exec_plog {pd} {tt} {px} {py} {σ : State} : exec (.plog pd tt px py) σ = execPlog pd tt px py σ := rfl
theorem exec_moviLane {d} {imm} {σ : State} : exec (.moviLane d imm) σ = execMoviLane d imm σ := rfl
theorem exec_movhiLane {d} {imm} {σ : State} : exec (.movhiLane d imm) σ = execMovhiLane d imm σ := rfl
theorem exec_addiLane {d} {imm} {σ : State} : exec (.addiLane d imm) σ = execAddiLane d imm σ := rfl
theorem exec_fadd {d} {a} {b} {σ : State} : exec (.fadd d a b) σ = execFadd d a b σ := rfl
theorem exec_fsub {d} {a} {b} {σ : State} : exec (.fsub d a b) σ = execFsub d a b σ := rfl
theorem exec_fmul {d} {a} {b} {σ : State} : exec (.fmul d a b) σ = execFmul d a b σ := rfl
theorem exec_fma {d} {a} {b} {σ : State} : exec (.fma d a b) σ = execFma d a b σ := rfl
theorem exec_fmin {d} {a} {b} {σ : State} : exec (.fmin d a b) σ = execFmin d a b σ := rfl
theorem exec_fmax {d} {a} {b} {σ : State} : exec (.fmax d a b) σ = execFmax d a b σ := rfl
theorem exec_fcmp {pd} {m} {c} {a} {b} {σ : State} : exec (.fcmp pd m c a b) σ = execFcmp pd m c a b σ := rfl
theorem exec_fclass {pd} {m} {a} {b} {σ : State} : exec (.fclass pd m a b) σ = execFclass pd m a b σ := rfl
theorem exec_frnd {d} {a} {rm} {σ : State} : exec (.frnd d a rm) σ = execFrnd d a rm σ := rfl
theorem exec_cvt {d} {a} {rm} {src} {dst} {σ : State} : exec (.cvt d a rm src dst) σ = execCvt d a rm src dst σ := rfl
theorem exec_rcp {d} {a} {σ : State} : exec (.rcp d a) σ = execRcp d a σ := rfl
theorem exec_rsq {d} {a} {σ : State} : exec (.rsq d a) σ = execRsq d a σ := rfl
theorem exec_sqrt {d} {a} {σ : State} : exec (.sqrt d a) σ = execSqrt d a σ := rfl
theorem exec_exp2 {d} {a} {σ : State} : exec (.exp2 d a) σ = execExp2 d a σ := rfl
theorem exec_log2 {d} {a} {σ : State} : exec (.log2 d a) σ = execLog2 d a σ := rfl
theorem exec_sin {d} {a} {σ : State} : exec (.sin d a) σ = execSin d a σ := rfl
theorem exec_cos {d} {a} {σ : State} : exec (.cos d a) σ = execCos d a σ := rfl
theorem exec_tanh {d} {a} {σ : State} : exec (.tanh d a) σ = execTanh d a σ := rfl
theorem exec_padd {d} {a} {b} {bf} {σ : State} : exec (.padd d a b bf) σ = execPadd d a b bf σ := rfl
theorem exec_pmul {d} {a} {b} {bf} {σ : State} : exec (.pmul d a b bf) σ = execPmul d a b bf σ := rfl
theorem exec_pfma {d} {a} {b} {bf} {σ : State} : exec (.pfma d a b bf) σ = execPfma d a b bf σ := rfl
theorem exec_pmax {d} {a} {b} {bf} {σ : State} : exec (.pmax d a b bf) σ = execPmax d a b bf σ := rfl
theorem exec_fscl {d} {a} {b} {σ : State} : exec (.fscl d a b) σ = execFscl d a b σ := rfl
theorem exec_dxpack {d} {a} {half} {fmt} {σ : State} : exec (.dxpack d a half fmt) σ = execDxpack d a half fmt σ := rfl
theorem exec_dxunpk {d} {a} {half} {fmt} {σ : State} : exec (.dxunpk d a half fmt) σ = execDxunpk d a half fmt σ := rfl
theorem exec_dxexp {d} {a} {fmt} {σ : State} : exec (.dxexp d a fmt) σ = execDxexp d a fmt σ := rfl
theorem exec_shuf {d} {a} {b} {σ : State} : exec (.shuf d a b) σ = execShuf d a b σ := rfl
theorem exec_lpush {d} {a} {b} {σ : State} : exec (.lpush d a b) σ = execLpush d a b σ := rfl
theorem exec_bcast {d} {a} {b} {σ : State} : exec (.bcast d a b) σ = execBcast d a b σ := rfl
theorem exec_lscan {d} {a} {ex} {op} {σ : State} : exec (.lscan d a ex op) σ = execLscan d a ex op σ := rfl
theorem exec_fscan {d} {a} {ex} {op} {σ : State} : exec (.fscan d a ex op) σ = execFscan d a ex op σ := rfl
theorem exec_lred {d} {a} {op} {σ : State} : exec (.lred d a op) σ = execLred d a op σ := rfl
theorem exec_vote {pd} {m} {px} {σ : State} : exec (.vote pd m px) σ = execVote pd m px σ := rfl
theorem exec_rng {d} {a} {b} {σ : State} : exec (.rng d a b) σ = execRng d a b σ := rfl
theorem exec_prefpop {d} {a} {inc} {σ : State} : exec (.prefpop d a inc) σ = execPrefpop d a inc σ := rfl
theorem exec_ldLane {d} {addr} {ty} {o} {σ : State} : exec (.ldLane d addr ty o) σ = execLdLane d addr ty o σ := rfl
theorem exec_stLane {data} {addr} {ty} {o} {σ : State} : exec (.stLane data addr ty o) σ = execStLane data addr ty o σ := rfl
theorem exec_lds {d} {addr} {ty} {o} {σ : State} : exec (.lds d addr ty o) σ = execLds d addr ty o σ := rfl
theorem exec_sts {data} {addr} {ty} {o} {σ : State} : exec (.sts data addr ty o) σ = execSts data addr ty o σ := rfl
theorem exec_aaddLane {d} {addr} {v} {os} {σ : State} : exec (.aaddLane d addr v os) σ = execAaddLane d addr v os σ := rfl
theorem exec_afadd {d} {addr} {v} {os} {σ : State} : exec (.afadd d addr v os) σ = execAfadd d addr v os σ := rfl
theorem exec_amin {d} {addr} {v} {os} {σ : State} : exec (.amin d addr v os) σ = execAmin d addr v os σ := rfl
theorem exec_amaxLane {d} {addr} {v} {os} {σ : State} : exec (.amaxLane d addr v os) σ = execAmaxLane d addr v os σ := rfl
theorem exec_aminu {d} {addr} {v} {os} {σ : State} : exec (.aminu d addr v os) σ = execAminu d addr v os σ := rfl
theorem exec_amaxu {d} {addr} {v} {os} {σ : State} : exec (.amaxu d addr v os) σ = execAmaxu d addr v os σ := rfl
theorem exec_aand {d} {addr} {v} {os} {σ : State} : exec (.aand d addr v os) σ = execAand d addr v os σ := rfl
theorem exec_aor {d} {addr} {v} {os} {σ : State} : exec (.aor d addr v os) σ = execAor d addr v os σ := rfl
theorem exec_axor {d} {addr} {v} {os} {σ : State} : exec (.axor d addr v os) σ = execAxor d addr v os σ := rfl
theorem exec_axchgLane {d} {addr} {v} {os} {σ : State} : exec (.axchgLane d addr v os) σ = execAxchgLane d addr v os σ := rfl
theorem exec_acasLane {d} {addr} {v} {os} {σ : State} : exec (.acasLane d addr v os) σ = execAcasLane d addr v os σ := rfl
theorem exec_sldLane {d} {addr} {ty} {pm} {sn} {σ : State} : exec (.sldLane d addr ty pm sn) σ = execSldLane d addr ty pm sn σ := rfl
theorem exec_sstLane {data} {addr} {ty} {sn} {σ : State} : exec (.sstLane data addr ty sn) σ = execSstLane data addr ty sn σ := rfl
theorem exec_srankLane {d} {addr} {pm} {σ : State} : exec (.srankLane d addr pm) σ = execSrankLane d addr pm σ := rfl
theorem exec_sanchLane {d} {addr} {sn} {σ : State} : exec (.sanchLane d addr sn) σ = execSanchLane d addr sn σ := rfl
theorem exec_sendLane {r} {ch} {n} {row} {σ : State} : exec (.sendLane r ch n row) σ = execSendLane r ch n row σ := rfl
theorem exec_recvLane {d} {ch} {n} {row} {σ : State} : exec (.recvLane d ch n row) σ = execRecvLane d ch n row σ := rfl
theorem exec_spawn {r} {base} {det} {k} {σ : State} : exec (.spawn r base det k) σ = execSpawn r base det k σ := rfl
theorem exec_saadd {d} {addr} {ty} {sn} {σ : State} : exec (.saadd d addr ty sn) σ = execSaadd d addr ty sn σ := rfl
theorem exec_samin {d} {addr} {ty} {sn} {σ : State} : exec (.samin d addr ty sn) σ = execSamin d addr ty sn σ := rfl
theorem exec_samax {d} {addr} {ty} {sn} {σ : State} : exec (.samax d addr ty sn) σ = execSamax d addr ty sn σ := rfl
theorem exec_sacas {d} {addr} {ty} {sn} {σ : State} : exec (.sacas d addr ty sn) σ = execSacas d addr ty sn σ := rfl
theorem exec_saxchg {d} {addr} {ty} {sn} {σ : State} : exec (.saxchg d addr ty sn) σ = execSaxchg d addr ty sn σ := rfl
theorem exec_addUniform {d} {a} {b} {σ : State} : exec (.addUniform d a b) σ = execAddUniform d a b σ := rfl
theorem exec_subUniform {d} {a} {b} {σ : State} : exec (.subUniform d a b) σ = execSubUniform d a b σ := rfl
theorem exec_mulUniform {d} {a} {b} {σ : State} : exec (.mulUniform d a b) σ = execMulUniform d a b σ := rfl
theorem exec_mulhUniform {d} {a} {b} {σ : State} : exec (.mulhUniform d a b) σ = execMulhUniform d a b σ := rfl
theorem exec_mulhuUniform {d} {a} {b} {σ : State} : exec (.mulhuUniform d a b) σ = execMulhuUniform d a b σ := rfl
theorem exec_andUniform {d} {a} {b} {σ : State} : exec (.andUniform d a b) σ = execAndUniform d a b σ := rfl
theorem exec_orUniform {d} {a} {b} {σ : State} : exec (.orUniform d a b) σ = execOrUniform d a b σ := rfl
theorem exec_xorUniform {d} {a} {b} {σ : State} : exec (.xorUniform d a b) σ = execXorUniform d a b σ := rfl
theorem exec_andnUniform {d} {a} {b} {σ : State} : exec (.andnUniform d a b) σ = execAndnUniform d a b σ := rfl
theorem exec_shlUniform {d} {a} {b} {σ : State} : exec (.shlUniform d a b) σ = execShlUniform d a b σ := rfl
theorem exec_shrUniform {d} {a} {b} {σ : State} : exec (.shrUniform d a b) σ = execShrUniform d a b σ := rfl
theorem exec_sarUniform {d} {a} {b} {σ : State} : exec (.sarUniform d a b) σ = execSarUniform d a b σ := rfl
theorem exec_minUniform {d} {a} {b} {σ : State} : exec (.minUniform d a b) σ = execMinUniform d a b σ := rfl
theorem exec_maxUniform {d} {a} {b} {σ : State} : exec (.maxUniform d a b) σ = execMaxUniform d a b σ := rfl
theorem exec_minuUniform {d} {a} {b} {σ : State} : exec (.minuUniform d a b) σ = execMinuUniform d a b σ := rfl
theorem exec_maxuUniform {d} {a} {b} {σ : State} : exec (.maxuUniform d a b) σ = execMaxuUniform d a b σ := rfl
theorem exec_clzUniform {d} {a} {σ : State} : exec (.clzUniform d a) σ = execClzUniform d a σ := rfl
theorem exec_popcUniform {d} {a} {σ : State} : exec (.popcUniform d a) σ = execPopcUniform d a σ := rfl
theorem exec_bfeUniform {d} {a} {b} {σ : State} : exec (.bfeUniform d a b) σ = execBfeUniform d a b σ := rfl
theorem exec_bfiUniform {d} {a} {b} {σ : State} : exec (.bfiUniform d a b) σ = execBfiUniform d a b σ := rfl
theorem exec_cmpEqUniform {d} {a} {b} {σ : State} : exec (.cmpEqUniform d a b) σ = execCmpEqUniform d a b σ := rfl
theorem exec_cmpNeUniform {d} {a} {b} {σ : State} : exec (.cmpNeUniform d a b) σ = execCmpNeUniform d a b σ := rfl
theorem exec_cmpLtUniform {d} {a} {b} {σ : State} : exec (.cmpLtUniform d a b) σ = execCmpLtUniform d a b σ := rfl
theorem exec_cmpLeUniform {d} {a} {b} {σ : State} : exec (.cmpLeUniform d a b) σ = execCmpLeUniform d a b σ := rfl
theorem exec_cmpBloUniform {d} {a} {b} {σ : State} : exec (.cmpBloUniform d a b) σ = execCmpBloUniform d a b σ := rfl
theorem exec_cmpBlsUniform {d} {a} {b} {σ : State} : exec (.cmpBlsUniform d a b) σ = execCmpBlsUniform d a b σ := rfl
theorem exec_selUniform {d} {a} {b} {σ : State} : exec (.selUniform d a b) σ = execSelUniform d a b σ := rfl
theorem exec_moviUniform {s} {imm} {σ : State} : exec (.moviUniform s imm) σ = execMoviUniform s imm σ := rfl
theorem exec_movhiUniform {s} {imm} {σ : State} : exec (.movhiUniform s imm) σ = execMovhiUniform s imm σ := rfl
theorem exec_addiUniform {s} {imm} {σ : State} : exec (.addiUniform s imm) σ = execAddiUniform s imm σ := rfl
theorem exec_rolUniform {d} {a} {b} {σ : State} : exec (.rolUniform d a b) σ = execRolUniform d a b σ := rfl
theorem exec_br {off} {σ : State} : exec (.br off) σ = execBr off σ := rfl
theorem exec_brz {c} {off} {σ : State} : exec (.brz c off) σ = execBrz c off σ := rfl
theorem exec_brnz {c} {off} {σ : State} : exec (.brnz c off) σ = execBrnz c off σ := rfl
theorem exec_brp {m} {p} {off} {σ : State} : exec (.brp m p off) σ = execBrp m p off σ := rfl
theorem exec_call {off} {σ : State} : exec (.call off) σ = execCall off σ := rfl
theorem exec_ret {σ : State} : exec (.ret) σ = execRet σ := rfl
theorem exec_jmpi {d} {a} {b} {σ : State} : exec (.jmpi d a b) σ = execJmpi d a b σ := rfl
theorem exec_regang {σ : State} : exec (.regang) σ = execRegang σ := rfl
theorem exec_mpush {inv} {p} {σ : State} : exec (.mpush inv p) σ = execMpush inv p σ := rfl
theorem exec_mpop {σ : State} : exec (.mpop) σ = execMpop σ := rfl
theorem exec_msetp {op} {inv} {p} {σ : State} : exec (.msetp op inv p) σ = execMsetp op inv p σ := rfl
theorem exec_melse {σ : State} : exec (.melse) σ = execMelse σ := rfl
theorem exec_loop {c} {off} {σ : State} : exec (.loop c off) σ = execLoop c off σ := rfl
theorem exec_yield {σ : State} : exec (.yield) σ = execYield σ := rfl
theorem exec_exit {σ : State} : exec (.exit) σ = execExit σ := rfl
theorem exec_nop {σ : State} : exec (.nop) σ = execNop σ := rfl
theorem exec_ldUniform {d} {addr} {ty} {o} {σ : State} : exec (.ldUniform d addr ty o) σ = execLdUniform d addr ty o σ := rfl
theorem exec_stUniform {data} {addr} {ty} {o} {σ : State} : exec (.stUniform data addr ty o) σ = execStUniform data addr ty o σ := rfl
theorem exec_aaddUniform {d} {addr} {ty} {o} {σ : State} : exec (.aaddUniform d addr ty o) σ = execAaddUniform d addr ty o σ := rfl
theorem exec_acasUniform {d} {addr} {ty} {o} {σ : State} : exec (.acasUniform d addr ty o) σ = execAcasUniform d addr ty o σ := rfl
theorem exec_axchgUniform {d} {addr} {ty} {o} {σ : State} : exec (.axchgUniform d addr ty o) σ = execAxchgUniform d addr ty o σ := rfl
theorem exec_amaxUniform {d} {addr} {ty} {o} {σ : State} : exec (.amaxUniform d addr ty o) σ = execAmaxUniform d addr ty o σ := rfl
theorem exec_fence {sc} {k} {σ : State} : exec (.fence sc k) σ = execFence sc k σ := rfl
theorem exec_waitc {a} {sel} {σ : State} : exec (.waitc a sel) σ = execWaitc a sel σ := rfl
theorem exec_monarm {data} {addr} {ty} {σ : State} : exec (.monarm data addr ty) σ = execMonarm data addr ty σ := rfl
theorem exec_monwait {d} {ty} {o} {σ : State} : exec (.monwait d ty o) σ = execMonwait d ty o σ := rfl
theorem exec_barinit {a} {b} {σ : State} : exec (.barinit a b) σ = execBarinit a b σ := rfl
theorem exec_bararv {a} {b} {σ : State} : exec (.bararv a b) σ = execBararv a b σ := rfl
theorem exec_barexp {a} {b} {σ : State} : exec (.barexp a b) σ = execBarexp a b σ := rfl
theorem exec_barwait {a} {b} {σ : State} : exec (.barwait a b) σ = execBarwait a b σ := rfl
theorem exec_tlwait {tc} {x} {σ : State} : exec (.tlwait tc x) σ = execTlwait tc x σ := rfl
theorem exec_tlqry {tc} {d} {σ : State} : exec (.tlqry tc d) σ = execTlqry tc d σ := rfl
theorem exec_tdef {h} {n} {σ : State} : exec (.tdef h n) σ = execTdef h n σ := rfl
theorem exec_copy {tc} {hd} {hs} {stamp} {bar} {link} {n} {σ : State} : exec (.copy tc hd hs stamp bar link n) σ = execCopy tc hd hs stamp bar link n σ := rfl
theorem exec_copym {tc} {hd} {hs} {bar} {link} {n} {σ : State} : exec (.copym tc hd hs bar link n) σ = execCopym tc hd hs bar link n σ := rfl
theorem exec_copys {tc} {hd} {hs} {n} {σ : State} : exec (.copys tc hd hs n) σ = execCopys tc hd hs n σ := rfl
theorem exec_copyr {tc} {hd} {hs} {n} {σ : State} : exec (.copyr tc hd hs n) σ = execCopyr tc hd hs n σ := rfl
theorem exec_mload {tc} {h} {n} {σ : State} : exec (.mload tc h n) σ = execMload tc h n σ := rfl
theorem exec_mswap {tc} {mask} {σ : State} : exec (.mswap tc mask) σ = execMswap tc mask σ := rfl
theorem exec_mmul {tc} {hd} {hs} {n} {σ : State} : exec (.mmul tc hd hs n) σ = execMmul tc hd hs n σ := rfl
theorem exec_accz {tc} {h} {σ : State} : exec (.accz tc h) σ = execAccz tc h σ := rfl
theorem exec_accdrn {tc} {hd} {hs} {z} {n} {σ : State} : exec (.accdrn tc hd hs z n) σ = execAccdrn tc hd hs z n σ := rfl
theorem exec_accmov {st} {reg} {x} {σ : State} : exec (.accmov st reg x) σ = execAccmov st reg x σ := rfl
theorem exec_attn {tc} {hd} {hs} {n} {σ : State} : exec (.attn tc hd hs n) σ = execAttn tc hd hs n σ := rfl
theorem exec_histrd {h} {bin} {d} {σ : State} : exec (.histrd h bin d) σ = execHistrd h bin d σ := rfl
theorem exec_histclr {tc} {h} {σ : State} : exec (.histclr tc h) σ = execHistclr tc h σ := rfl
theorem exec_snew {a} {b} {n} {σ : State} : exec (.snew a b n) σ = execSnew a b n σ := rfl
theorem exec_sfree {a} {σ : State} : exec (.sfree a) σ = execSfree a σ := rfl
theorem exec_slen {a} {n} {σ : State} : exec (.slen a n) σ = execSlen a n σ := rfl
theorem exec_sins {a} {b} {z} {n} {σ : State} : exec (.sins a b z n) σ = execSins a b z n σ := rfl
theorem exec_sdel {a} {b} {n} {σ : State} : exec (.sdel a b n) σ = execSdel a b n σ := rfl
theorem exec_ssplit {a} {b} {n} {σ : State} : exec (.ssplit a b n) σ = execSsplit a b n σ := rfl
theorem exec_scat {a} {b} {share} {σ : State} : exec (.scat a b share) σ = execScat a b share σ := rfl
theorem exec_sgap {a} {b} {n} {σ : State} : exec (.sgap a b n) σ = execSgap a b n σ := rfl
theorem exec_sapnd {a} {n} {σ : State} : exec (.sapnd a n) σ = execSapnd a n σ := rfl
theorem exec_sclose {a} {σ : State} : exec (.sclose a) σ = execSclose a σ := rfl
theorem exec_srankUniform {a} {pm} {n} {σ : State} : exec (.srankUniform a pm n) σ = execSrankUniform a pm n σ := rfl
theorem exec_sanchUniform {a} {b} {n} {σ : State} : exec (.sanchUniform a b n) σ = execSanchUniform a b n σ := rfl
theorem exec_sldUniform {d} {addr} {ty} {pm} {sn} {σ : State} : exec (.sldUniform d addr ty pm sn) σ = execSldUniform d addr ty pm sn σ := rfl
theorem exec_sstUniform {data} {addr} {ty} {sn} {σ : State} : exec (.sstUniform data addr ty sn) σ = execSstUniform data addr ty sn σ := rfl
theorem exec_sendUniform {r} {ch} {n} {σ : State} : exec (.sendUniform r ch n) σ = execSendUniform r ch n σ := rfl
theorem exec_recvUniform {d} {ch} {n} {σ : State} : exec (.recvUniform d ch n) σ = execRecvUniform d ch n σ := rfl
theorem exec_get {r} {ch} {n} {p} {σ : State} : exec (.get r ch n p) σ = execGet r ch n p σ := rfl
theorem exec_put {r} {ch} {n} {eos} {σ : State} : exec (.put r ch n eos) σ = execPut r ch n eos σ := rfl
theorem exec_knot {g} {h} {σ : State} : exec (.knot g h) σ = execKnot g h σ := rfl
theorem exec_skfold {d} {a} {σ : State} : exec (.skfold d a) σ = execSkfold d a σ := rfl
theorem exec_skspread {d} {a} {σ : State} : exec (.skspread d a) σ = execSkspread d a σ := rfl
theorem exec_skqry {d} {a} {σ : State} : exec (.skqry d a) σ = execSkqry d a σ := rfl
theorem exec_launch {a} {σ : State} : exec (.launch a) σ = execLaunch a σ := rfl
theorem exec_suspend {k} {σ : State} : exec (.suspend k) σ = execSuspend k σ := rfl
theorem exec_lqry {d} {a} {σ : State} : exec (.lqry d a) σ = execLqry d a σ := rfl
theorem exec_srd {s} {reg} {idx} {σ : State} : exec (.srd s reg idx) σ = execSrd s reg idx σ := rfl
theorem exec_swr {s} {reg} {idx} {σ : State} : exec (.swr s reg idx) σ = execSwr s reg idx σ := rfl
theorem exec_trap {imm} {σ : State} : exec (.trap imm) σ = execTrap imm σ := rfl
theorem exec_tret {σ : State} : exec (.tret) σ = execTret σ := rfl
theorem exec_brk {imm} {σ : State} : exec (.brk imm) σ = execBrk imm σ := rfl
theorem exec_railsGood {σ : State} : exec (.railsGood) σ = execRailsGood σ := rfl
theorem exec_fullReset {cfg} {σ : State} : exec (.fullReset cfg) σ = execFullReset cfg σ := rfl
theorem exec_recoveryImage {img} {σ : State} : exec (.recoveryImage img) σ = execRecoveryImage img σ := rfl
theorem exec_firmwareUpdate {img} {powerFails} {σ : State} : exec (.firmwareUpdate img powerFails) σ = execFirmwareUpdate img powerFails σ := rfl
theorem exec_throttleEvaluation {temps} {above} {σ : State} : exec (.throttleEvaluation temps above) σ = execThrottleEvaluation temps above σ := rfl
theorem exec_thermtrip {die} {temp} {σ : State} : exec (.thermtrip die temp) σ = execThermtrip die temp σ := rfl
theorem exec_thstatTrippedClear {die} {v} {σ : State} : exec (.thstatTrippedClear die v) σ = execThstatTrippedClear die v σ := rfl
theorem exec_flitReceive {l} {flit} {σ : State} : exec (.flitReceive l flit) σ = execFlitReceive l flit σ := rfl
theorem exec_replayRequest {l} {fseq} {σ : State} : exec (.replayRequest l fseq) σ = execReplayRequest l fseq σ := rfl
theorem exec_portRetrain {p} {σ : State} : exec (.portRetrain p) σ = execPortRetrain p σ := rfl
theorem exec_portTrainingDone {p} {lanes} {σ : State} : exec (.portTrainingDone p lanes) σ = execPortTrainingDone p lanes σ := rfl
theorem exec_boundaryRetrain {b} {σ : State} : exec (.boundaryRetrain b) σ = execBoundaryRetrain b σ := rfl
theorem exec_boundaryTrainingDone {b} {ok} {σ : State} : exec (.boundaryTrainingDone b ok) σ = execBoundaryTrainingDone b ok σ := rfl
theorem exec_diePacketArrival {src} {dst} {σ : State} : exec (.diePacketArrival src dst) σ = execDiePacketArrival src dst σ := rfl
theorem exec_vectorAnnounce {src} {σ : State} : exec (.vectorAnnounce src) σ = execVectorAnnounce src σ := rfl
theorem exec_remoteWriteApply {home} {k} {σ : State} : exec (.remoteWriteApply home k) σ = execRemoteWriteApply home k σ := rfl
theorem exec_remoteReadPerform {home} {k} {σ : State} : exec (.remoteReadPerform home k) σ = execRemoteReadPerform home k σ := rfl
theorem exec_readResponseArrival {r} {σ : State} : exec (.readResponseArrival r) σ = execReadResponseArrival r σ := rfl
theorem exec_gpqctlQuiesce {p} {σ : State} : exec (.gpqctlQuiesce p) σ = execGpqctlQuiesce p σ := rfl
theorem exec_gpqctlResume {p} {σ : State} : exec (.gpqctlResume p) σ = execGpqctlResume p σ := rfl
theorem exec_portQuiesceDone {p} {σ : State} : exec (.portQuiesceDone p) σ = execPortQuiesceDone p σ := rfl
theorem exec_grtabWrite {die} {node} {v} {σ : State} : exec (.grtabWrite die node v) σ = execGrtabWrite die node v σ := rfl
theorem exec_packetWrite {port} {pk} {σ : State} : exec (.packetWrite port pk) σ = execPacketWrite port pk σ := rfl
theorem exec_packetRead {port} {pk} {σ : State} : exec (.packetRead port pk) σ = execPacketRead port pk σ := rfl
theorem exec_packetAtomic {port} {pk} {σ : State} : exec (.packetAtomic port pk) σ = execPacketAtomic port pk σ := rfl
theorem exec_packetSignal {port} {pk} {σ : State} : exec (.packetSignal port pk) σ = execPacketSignal port pk σ := rfl
theorem exec_signalApply {k} {σ : State} : exec (.signalApply k) σ = execSignalApply k σ := rfl
theorem exec_reduceContribution {pk} {σ : State} : exec (.reduceContribution pk) σ = execReduceContribution pk σ := rfl
theorem exec_localReduceCombine {k} {σ : State} : exec (.localReduceCombine k) σ = execLocalReduceCombine k σ := rfl
theorem exec_ackResponse {pk} {σ : State} : exec (.ackResponse pk) σ = execAckResponse pk σ := rfl
theorem exec_atomresResponse {pk} {σ : State} : exec (.atomresResponse pk) σ = execAtomresResponse pk σ := rfl
theorem exec_errorResponse {pk} {σ : State} : exec (.errorResponse pk) σ = execErrorResponse pk σ := rfl
theorem exec_lockInterfaceRequest {vf} {keyed} {σ : State} : exec (.lockInterfaceRequest vf keyed) σ = execLockInterfaceRequest vf keyed σ := rfl
theorem exec_getDeviceInterfaceReport {vf} {σ : State} : exec (.getDeviceInterfaceReport vf) σ = execGetDeviceInterfaceReport vf σ := rfl
theorem exec_startInterfaceRequest {vf} {σ : State} : exec (.startInterfaceRequest vf) σ = execStartInterfaceRequest vf σ := rfl
theorem exec_stopInterfaceRequest {vf} {σ : State} : exec (.stopInterfaceRequest vf) σ = execStopInterfaceRequest vf σ := rfl
theorem exec_stopScrubDone {vf} {σ : State} : exec (.stopScrubDone vf) σ = execStopScrubDone vf σ := rfl
theorem exec_lockedRegisterWrite {vf} {reg} {v} {σ : State} : exec (.lockedRegisterWrite vf reg v) σ = execLockedRegisterWrite vf reg v σ := rfl
theorem exec_ideIntegrityFailure {vf} {σ : State} : exec (.ideIntegrityFailure vf) σ = execIdeIntegrityFailure vf σ := rfl
theorem exec_spdmMeasurements {nonce} {σ : State} : exec (.spdmMeasurements nonce) σ = execSpdmMeasurements nonce σ := rfl
theorem exec_launchRecordWrite {vf} {win} {off} {data} {ide} {σ : State} : exec (.launchRecordWrite vf win off data ide) σ = execLaunchRecordWrite vf win off data ide σ := rfl
theorem exec_lwcfgWrite {vf} {win} {v} {σ : State} : exec (.lwcfgWrite vf win v) σ = execLwcfgWrite vf win v σ := rfl
theorem exec_systemRegisterWrite {w} {σ : State} : exec (.systemRegisterWrite w) σ = execSystemRegisterWrite w σ := rfl
theorem exec_tepcWrite {t} {u} {v} {σ : State} : exec (.tepcWrite t u v) σ = execTepcWrite t u v σ := rfl
theorem exec_tlbinvWrite {part} {v} {σ : State} : exec (.tlbinvWrite part v) σ = execTlbinvWrite part v σ := rfl
theorem exec_htlbinvWrite {vf} {v} {σ : State} : exec (.htlbinvWrite vf v) σ = execHtlbinvWrite vf v σ := rfl
theorem exec_tlbinvComplete {part} {σ : State} : exec (.tlbinvComplete part) σ = execTlbinvComplete part σ := rfl
theorem exec_translationWalk {t} {vf} {va} {σ : State} : exec (.translationWalk t vf va) σ = execTranslationWalk t vf va σ := rfl
theorem exec_shdiscWrite {part} {slot} {σ : State} : exec (.shdiscWrite part slot) σ = execShdiscWrite part slot σ := rfl
theorem exec_skreqReel {part} {desc} {σ : State} : exec (.skreqReel part desc) σ = execSkreqReel part desc σ := rfl
theorem exec_skreqUnreel {part} {desc} {σ : State} : exec (.skreqUnreel part desc) σ = execSkreqUnreel part desc σ := rfl
theorem exec_skreqExport {part} {desc} {σ : State} : exec (.skreqExport part desc) σ = execSkreqExport part desc σ := rfl
theorem exec_worldMoveRequest {granule} {secure} {σ : State} : exec (.worldMoveRequest granule secure) σ = execWorldMoveRequest granule secure σ := rfl
theorem exec_worldMoveComplete {granule} {σ : State} : exec (.worldMoveComplete granule) σ = execWorldMoveComplete granule σ := rfl
theorem exec_queueAgeTimer {part} {q} {σ : State} : exec (.queueAgeTimer part q) σ = execQueueAgeTimer part q σ := rfl
theorem exec_placeBlock {part} {tiles} {σ : State} : exec (.placeBlock part tiles) σ = execPlaceBlock part tiles σ := rfl
theorem exec_timeSliceBoundary {part} {σ : State} : exec (.timeSliceBoundary part) σ = execTimeSliceBoundary part σ := rfl
theorem exec_usedUpdate {t} {σ : State} : exec (.usedUpdate t) σ = execUsedUpdate t σ := rfl
theorem exec_gridCompletion {grid} {σ : State} : exec (.gridCompletion grid) σ = execGridCompletion grid σ := rfl
theorem exec_scrubComplete {t} {σ : State} : exec (.scrubComplete t) σ = execScrubComplete t σ := rfl
theorem exec_freezeRequest {t} {debug} {σ : State} : exec (.freezeRequest t debug) σ = execFreezeRequest t debug σ := rfl
theorem exec_drainComplete {t} {σ : State} : exec (.drainComplete t) σ = execDrainComplete t σ := rfl
theorem exec_sheafSaveDone {t} {σ : State} : exec (.sheafSaveDone t) σ = execSheafSaveDone t σ := rfl
theorem exec_sheafRestore {part} {slot} {t} {σ : State} : exec (.sheafRestore part slot t) σ = execSheafRestore part slot t σ := rfl
theorem exec_sheafRestoreDone {t} {σ : State} : exec (.sheafRestoreDone t) σ = execSheafRestoreDone t σ := rfl
theorem exec_debugResume {t} {subs} {σ : State} : exec (.debugResume t subs) σ = execDebugResume t subs σ := rfl
theorem exec_debugSaveRequest {t} {σ : State} : exec (.debugSaveRequest t) σ = execDebugSaveRequest t σ := rfl
theorem exec_debugScanAccess {t} {acc} {σ : State} : exec (.debugScanAccess t acc) σ = execDebugScanAccess t acc σ := rfl
theorem exec_binTimerExpiry {t} {bin} {σ : State} : exec (.binTimerExpiry t bin) σ = execBinTimerExpiry t bin σ := rfl
theorem exec_binFormGang {t} {bin} {σ : State} : exec (.binFormGang t bin) σ = execBinFormGang t bin σ := rfl
theorem exec_binStoreDeadlock {t} {σ : State} : exec (.binStoreDeadlock t) σ = execBinStoreDeadlock t σ := rfl
theorem exec_monitorWatchFire {t} {run} {σ : State} : exec (.monitorWatchFire t run) σ = execMonitorWatchFire t run σ := rfl
theorem exec_monitorPoll {t} {run} {σ : State} : exec (.monitorPoll t run) σ = execMonitorPoll t run σ := rfl
theorem exec_suspendDelayExpiry {t} {run} {σ : State} : exec (.suspendDelayExpiry t run) σ = execSuspendDelayExpiry t run σ := rfl
theorem exec_logEntryComplete {t} {u} {sl} {slot} {σ : State} : exec (.logEntryComplete t u sl slot) σ = execLogEntryComplete t u sl slot σ := rfl
theorem exec_trapEntry {t} {u} {σ : State} : exec (.trapEntry t u) σ = execTrapEntry t u σ := rfl
theorem exec_impreciseReportTaken {t} {u} {σ : State} : exec (.impreciseReportTaken t u) σ = execImpreciseReportTaken t u σ := rfl
theorem exec_tileStateError {t} {gang} {code} {σ : State} : exec (.tileStateError t gang code) σ = execTileStateError t gang code σ := rfl
theorem exec_dataError {e} {σ : State} : exec (.dataError e) σ = execDataError e σ := rfl
theorem exec_correctedError {w} {σ : State} : exec (.correctedError w) σ = execCorrectedError w σ := rfl
theorem exec_patrolScrub {line} {found} {σ : State} : exec (.patrolScrub line found) σ = execPatrolScrub line found σ := rfl
theorem exec_engineCommandComplete {t} {id} {σ : State} : exec (.engineCommandComplete t id) σ = execEngineCommandComplete t id σ := rfl
theorem exec_barrierByteCount {t} {id} {n} {σ : State} : exec (.barrierByteCount t id n) σ = execBarrierByteCount t id n σ := rfl
theorem exec_linkedStart {t} {id} {σ : State} : exec (.linkedStart t id) σ = execLinkedStart t id σ := rfl
theorem exec_strandOpApply {home} {k} {σ : State} : exec (.strandOpApply home k) σ = execStrandOpApply home k σ := rfl
theorem exec_strandResponse {k} {σ : State} : exec (.strandResponse k) σ = execStrandResponse k σ := rfl
theorem exec_channelItemArrival {part} {sk} {link} {σ : State} : exec (.channelItemArrival part sk link) σ = execChannelItemArrival part sk link σ := rfl
theorem exec_distributorReelRequest {part} {sk} {σ : State} : exec (.distributorReelRequest part sk) σ = execDistributorReelRequest part sk σ := rfl
theorem exec_stageGangPlace {part} {sk} {stage} {t} {σ : State} : exec (.stageGangPlace part sk stage t) σ = execStageGangPlace part sk stage t σ := rfl
theorem exec_skeinGatherDone {part} {sk} {σ : State} : exec (.skeinGatherDone part sk) σ = execSkeinGatherDone part sk σ := rfl
theorem exec_skeinCopyDone {part} {sk} {σ : State} : exec (.skeinCopyDone part sk) σ = execSkeinCopyDone part sk σ := rfl
theorem exec_skeinUnreelAtKnot {part} {sk} {σ : State} : exec (.skeinUnreelAtKnot part sk) σ = execSkeinUnreelAtKnot part sk σ := rfl
theorem exec_skeinExportAtKnot {part} {sk} {σ : State} : exec (.skeinExportAtKnot part sk) σ = execSkeinExportAtKnot part sk σ := rfl
theorem exec_skeinSwitchTimeout {part} {sk} {σ : State} : exec (.skeinSwitchTimeout part sk) σ = execSkeinSwitchTimeout part sk σ := rfl
theorem exec_railsRemoved {σ : State} : exec (.railsRemoved) σ = execRailsRemoved σ := rfl
theorem exec_freedSlotNoticeArrival {part} {sk} {link} {σ : State} : exec (.freedSlotNoticeArrival part sk link) σ = execFreedSlotNoticeArrival part sk link σ := rfl
theorem exec_distributorUnreelRequest {part} {sk} {σ : State} : exec (.distributorUnreelRequest part sk) σ = execDistributorUnreelRequest part sk σ := rfl

end Sys2Proof.Machine
end

