-- ==== Sys2Proof/Laws/KMap.lean ====
section
/-!
SUPPORT. Reading sparse data back after a write, a removal or a map.
-/
namespace Sys2Proof.Machine

@[simp] theorem kget_nil {α : Type} (k : Nat) : kget ([] : KMap α) k = none := rfl

@[simp] theorem kget_kset_same {α : Type} (m : KMap α) (k : Nat) (v : α) : kget (kset m k v) k = some v := by
  induction m with
  | nil => simp [kset, kget]
  | cons p m ih =>
    obtain ⟨j, w⟩ := p
    simp only [kset]
    split
    · simp [kget]
    · split
      · simp [kget]
      · simp [kget, *]

theorem kget_kset_ne {α : Type} (m : KMap α) {j k : Nat} (v : α) (h : j ≠ k) : kget (kset m k v) j = kget m j := by
  induction m with
  | nil => simp [kset, kget, Ne.symm h]
  | cons p m ih =>
    obtain ⟨i, w⟩ := p
    simp only [kset]
    split
    · next e => subst e; simp [kget, Ne.symm h]
    · split
      · simp [kget, Ne.symm h]
      · simp only [kget]
        split
        · rfl
        · exact ih

theorem kget_kset {α : Type} (m : KMap α) (j k : Nat) (v : α) :
    kget (kset m k v) j = if j = k then some v else kget m j := by
  by_cases h : j = k
  · subst h; simp
  · simp [h, kget_kset_ne m v h]

@[simp] theorem kget_kdel_same {α : Type} (m : KMap α) (k : Nat) : kget (kdel m k) k = none := by
  induction m with
  | nil => rfl
  | cons p m ih =>
    obtain ⟨j, w⟩ := p
    simp only [kdel]
    split
    · exact ih
    · simp [kget, *]

theorem kget_kdel_ne {α : Type} (m : KMap α) {j k : Nat} (h : j ≠ k) : kget (kdel m k) j = kget m j := by
  induction m with
  | nil => rfl
  | cons p m ih =>
    obtain ⟨i, w⟩ := p
    simp only [kdel]
    split
    · next e => subst e; simp [kget, Ne.symm h, ih]
    · simp only [kget]
      split
      · rfl
      · exact ih

theorem kget_kmap {α : Type} (m : KMap α) (f : Nat → α → α) (k : Nat) : kget (kmap m f) k = (kget m k).map (f k) := by
  induction m with
  | nil => rfl
  | cons p m ih =>
    obtain ⟨i, w⟩ := p
    simp only [kmap, List.map_cons, kget]
    split
    · next e => subst e; rfl
    · exact ih

theorem mem_of_kget {α : Type} {m : KMap α} {k : Nat} {v : α} (h : kget m k = some v) : (k, v) ∈ m := by
  induction m with
  | nil => simp [kget] at h
  | cons p m ih =>
    obtain ⟨j, w⟩ := p
    simp only [kget] at h
    split at h
    · next e => simp at h; subst e h; simp
    · exact List.mem_cons_of_mem _ (ih h)

end Sys2Proof.Machine
end

