-- ==== Sys2Proof/Laws/State.lean ====
section
/-!
SUPPORT. What each update of the state leaves and changes, field by field.
-/
namespace Sys2Proof.Machine

/-! ### setTile -/

@[simp] theorem State.setTile_vaux (s : State) (k : Nat) (T : Tile) : (s.setTile k T).vaux = s.vaux := rfl
@[simp] theorem State.setTile_vdram (s : State) (k : Nat) (T : Tile) : (s.setTile k T).vdram = s.vdram := rfl
@[simp] theorem State.setTile_vcore (s : State) (k : Nat) (T : Tile) : (s.setTile k T).vcore = s.vcore := rfl
@[simp] theorem State.setTile_vserdes (s : State) (k : Nat) (T : Tile) : (s.setTile k T).vserdes = s.vserdes := rfl
@[simp] theorem State.setTile_vhost (s : State) (k : Nat) (T : Tile) : (s.setTile k T).vhost = s.vhost := rfl
@[simp] theorem State.setTile_released (s : State) (k : Nat) (T : Tile) : (s.setTile k T).released = s.released := rfl
@[simp] theorem State.setTile_thermtrip (s : State) (k : Nat) (T : Tile) : (s.setTile k T).thermtrip = s.thermtrip := rfl
@[simp] theorem State.setTile_configFailed (s : State) (k : Nat) (T : Tile) : (s.setTile k T).configFailed = s.configFailed := rfl
@[simp] theorem State.setTile_recovery (s : State) (k : Nat) (T : Tile) : (s.setTile k T).recovery = s.recovery := rfl
@[simp] theorem State.setTile_cutOff (s : State) (k : Nat) (T : Tile) : (s.setTile k T).cutOff = s.cutOff := rfl
@[simp] theorem State.setTile_flashImage (s : State) (k : Nat) (T : Tile) : (s.setTile k T).flashImage = s.flashImage := rfl
@[simp] theorem State.setTile_flashConfig (s : State) (k : Nat) (T : Tile) : (s.setTile k T).flashConfig = s.flashConfig := rfl
@[simp] theorem State.setTile_measured (s : State) (k : Nat) (T : Tile) : (s.setTile k T).measured = s.measured := rfl
@[simp] theorem State.setTile_gnode (s : State) (k : Nat) (T : Tile) : (s.setTile k T).gnode = s.gnode := rfl
@[simp] theorem State.setTile_parts (s : State) (k : Nat) (T : Tile) : (s.setTile k T).parts = s.parts := rfl
@[simp] theorem State.setTile_dies (s : State) (k : Nat) (T : Tile) : (s.setTile k T).dies = s.dies := rfl
@[simp] theorem State.setTile_boundaries (s : State) (k : Nat) (T : Tile) : (s.setTile k T).boundaries = s.boundaries := rfl
@[simp] theorem State.setTile_ports (s : State) (k : Nat) (T : Tile) : (s.setTile k T).ports = s.ports := rfl
@[simp] theorem State.setTile_vfs (s : State) (k : Nat) (T : Tile) : (s.setTile k T).vfs = s.vfs := rfl
@[simp] theorem State.setTile_tiles (s : State) (k : Nat) (T : Tile) : (s.setTile k T).tiles = kset s.tiles k T := rfl
@[simp] theorem State.setTile_grids (s : State) (k : Nat) (T : Tile) : (s.setTile k T).grids = s.grids := rfl
@[simp] theorem State.setTile_fwtab (s : State) (k : Nat) (T : Tile) : (s.setTile k T).fwtab = s.fwtab := rfl
@[simp] theorem State.setTile_closed (s : State) (k : Nat) (T : Tile) : (s.setTile k T).closed = s.closed := rfl
@[simp] theorem State.setTile_tfence (s : State) (k : Nat) (T : Tile) : (s.setTile k T).tfence = s.tfence := rfl
@[simp] theorem State.setTile_mem (s : State) (k : Nat) (T : Tile) : (s.setTile k T).mem = s.mem := rfl
@[simp] theorem State.setTile_poison (s : State) (k : Nat) (T : Tile) : (s.setTile k T).poison = s.poison := rfl
@[simp] theorem State.setTile_wire (s : State) (k : Nat) (T : Tile) : (s.setTile k T).wire = s.wire := rfl
@[simp] theorem State.setTile_resps (s : State) (k : Nat) (T : Tile) : (s.setTile k T).resps = s.resps := rfl
@[simp] theorem State.setTile_flowTx (s : State) (k : Nat) (T : Tile) : (s.setTile k T).flowTx = s.flowTx := rfl
@[simp] theorem State.setTile_flowRx (s : State) (k : Nat) (T : Tile) : (s.setTile k T).flowRx = s.flowRx := rfl
@[simp] theorem State.setTile_lastReq (s : State) (k : Nat) (T : Tile) : (s.setTile k T).lastReq = s.lastReq := rfl
@[simp] theorem State.setTile_unseen (s : State) (k : Nat) (T : Tile) : (s.setTile k T).unseen = s.unseen := rfl
@[simp] theorem State.setTile_signals (s : State) (k : Nat) (T : Tile) : (s.setTile k T).signals = s.signals := rfl
@[simp] theorem State.setTile_outs (s : State) (k : Nat) (T : Tile) : (s.setTile k T).outs = s.outs := rfl
@[simp] theorem State.setTile_outbox (s : State) (k : Nat) (T : Tile) : (s.setTile k T).outbox = s.outbox := rfl
@[simp] theorem State.setTile_arrivals (s : State) (k : Nat) (T : Tile) : (s.setTile k T).arrivals = s.arrivals := rfl
@[simp] theorem State.setTile_reduces (s : State) (k : Nat) (T : Tile) : (s.setTile k T).reduces = s.reduces := rfl
@[simp] theorem State.setTile_reduceVia (s : State) (k : Nat) (T : Tile) : (s.setTile k T).reduceVia = s.reduceVia := rfl
@[simp] theorem State.setTile_locals (s : State) (k : Nat) (T : Tile) : (s.setTile k T).locals = s.locals := rfl
@[simp] theorem State.setTile_agenda (s : State) (k : Nat) (T : Tile) : (s.setTile k T).agenda = s.agenda := rfl
@[simp] theorem State.setTile_cur (s : State) (k : Nat) (T : Tile) : (s.setTile k T).cur = s.cur := rfl
@[simp] theorem State.setTile_free (s : State) (k : Nat) (T : Tile) : (s.setTile k T).free = s.free := rfl
@[simp] theorem State.setTile_gen (s : State) (k : Nat) (T : Tile) : (s.setTile k T).gen = s.gen := rfl
@[simp] theorem State.setTile_stamp (s : State) (k : Nat) (T : Tile) : (s.setTile k T).stamp = s.stamp := rfl
@[simp] theorem State.setTile_nextId (s : State) (k : Nat) (T : Tile) : (s.setTile k T).nextId = s.nextId := rfl

/-! ### setDie -/

@[simp] theorem State.setDie_vaux (s : State) (k : Nat) (D : Die) : (s.setDie k D).vaux = s.vaux := rfl
@[simp] theorem State.setDie_vdram (s : State) (k : Nat) (D : Die) : (s.setDie k D).vdram = s.vdram := rfl
@[simp] theorem State.setDie_vcore (s : State) (k : Nat) (D : Die) : (s.setDie k D).vcore = s.vcore := rfl
@[simp] theorem State.setDie_vserdes (s : State) (k : Nat) (D : Die) : (s.setDie k D).vserdes = s.vserdes := rfl
@[simp] theorem State.setDie_vhost (s : State) (k : Nat) (D : Die) : (s.setDie k D).vhost = s.vhost := rfl
@[simp] theorem State.setDie_released (s : State) (k : Nat) (D : Die) : (s.setDie k D).released = s.released := rfl
@[simp] theorem State.setDie_thermtrip (s : State) (k : Nat) (D : Die) : (s.setDie k D).thermtrip = s.thermtrip := rfl
@[simp] theorem State.setDie_configFailed (s : State) (k : Nat) (D : Die) : (s.setDie k D).configFailed = s.configFailed := rfl
@[simp] theorem State.setDie_recovery (s : State) (k : Nat) (D : Die) : (s.setDie k D).recovery = s.recovery := rfl
@[simp] theorem State.setDie_cutOff (s : State) (k : Nat) (D : Die) : (s.setDie k D).cutOff = s.cutOff := rfl
@[simp] theorem State.setDie_flashImage (s : State) (k : Nat) (D : Die) : (s.setDie k D).flashImage = s.flashImage := rfl
@[simp] theorem State.setDie_flashConfig (s : State) (k : Nat) (D : Die) : (s.setDie k D).flashConfig = s.flashConfig := rfl
@[simp] theorem State.setDie_measured (s : State) (k : Nat) (D : Die) : (s.setDie k D).measured = s.measured := rfl
@[simp] theorem State.setDie_gnode (s : State) (k : Nat) (D : Die) : (s.setDie k D).gnode = s.gnode := rfl
@[simp] theorem State.setDie_parts (s : State) (k : Nat) (D : Die) : (s.setDie k D).parts = s.parts := rfl
@[simp] theorem State.setDie_dies (s : State) (k : Nat) (D : Die) : (s.setDie k D).dies = kset s.dies k D := rfl
@[simp] theorem State.setDie_boundaries (s : State) (k : Nat) (D : Die) : (s.setDie k D).boundaries = s.boundaries := rfl
@[simp] theorem State.setDie_ports (s : State) (k : Nat) (D : Die) : (s.setDie k D).ports = s.ports := rfl
@[simp] theorem State.setDie_vfs (s : State) (k : Nat) (D : Die) : (s.setDie k D).vfs = s.vfs := rfl
@[simp] theorem State.setDie_tiles (s : State) (k : Nat) (D : Die) : (s.setDie k D).tiles = s.tiles := rfl
@[simp] theorem State.setDie_grids (s : State) (k : Nat) (D : Die) : (s.setDie k D).grids = s.grids := rfl
@[simp] theorem State.setDie_fwtab (s : State) (k : Nat) (D : Die) : (s.setDie k D).fwtab = s.fwtab := rfl
@[simp] theorem State.setDie_closed (s : State) (k : Nat) (D : Die) : (s.setDie k D).closed = s.closed := rfl
@[simp] theorem State.setDie_tfence (s : State) (k : Nat) (D : Die) : (s.setDie k D).tfence = s.tfence := rfl
@[simp] theorem State.setDie_mem (s : State) (k : Nat) (D : Die) : (s.setDie k D).mem = s.mem := rfl
@[simp] theorem State.setDie_poison (s : State) (k : Nat) (D : Die) : (s.setDie k D).poison = s.poison := rfl
@[simp] theorem State.setDie_wire (s : State) (k : Nat) (D : Die) : (s.setDie k D).wire = s.wire := rfl
@[simp] theorem State.setDie_resps (s : State) (k : Nat) (D : Die) : (s.setDie k D).resps = s.resps := rfl
@[simp] theorem State.setDie_flowTx (s : State) (k : Nat) (D : Die) : (s.setDie k D).flowTx = s.flowTx := rfl
@[simp] theorem State.setDie_flowRx (s : State) (k : Nat) (D : Die) : (s.setDie k D).flowRx = s.flowRx := rfl
@[simp] theorem State.setDie_lastReq (s : State) (k : Nat) (D : Die) : (s.setDie k D).lastReq = s.lastReq := rfl
@[simp] theorem State.setDie_unseen (s : State) (k : Nat) (D : Die) : (s.setDie k D).unseen = s.unseen := rfl
@[simp] theorem State.setDie_signals (s : State) (k : Nat) (D : Die) : (s.setDie k D).signals = s.signals := rfl
@[simp] theorem State.setDie_outs (s : State) (k : Nat) (D : Die) : (s.setDie k D).outs = s.outs := rfl
@[simp] theorem State.setDie_outbox (s : State) (k : Nat) (D : Die) : (s.setDie k D).outbox = s.outbox := rfl
@[simp] theorem State.setDie_arrivals (s : State) (k : Nat) (D : Die) : (s.setDie k D).arrivals = s.arrivals := rfl
@[simp] theorem State.setDie_reduces (s : State) (k : Nat) (D : Die) : (s.setDie k D).reduces = s.reduces := rfl
@[simp] theorem State.setDie_reduceVia (s : State) (k : Nat) (D : Die) : (s.setDie k D).reduceVia = s.reduceVia := rfl
@[simp] theorem State.setDie_locals (s : State) (k : Nat) (D : Die) : (s.setDie k D).locals = s.locals := rfl
@[simp] theorem State.setDie_agenda (s : State) (k : Nat) (D : Die) : (s.setDie k D).agenda = s.agenda := rfl
@[simp] theorem State.setDie_cur (s : State) (k : Nat) (D : Die) : (s.setDie k D).cur = s.cur := rfl
@[simp] theorem State.setDie_free (s : State) (k : Nat) (D : Die) : (s.setDie k D).free = s.free := rfl
@[simp] theorem State.setDie_gen (s : State) (k : Nat) (D : Die) : (s.setDie k D).gen = s.gen := rfl
@[simp] theorem State.setDie_stamp (s : State) (k : Nat) (D : Die) : (s.setDie k D).stamp = s.stamp := rfl
@[simp] theorem State.setDie_nextId (s : State) (k : Nat) (D : Die) : (s.setDie k D).nextId = s.nextId := rfl

/-! ### setPort -/

@[simp] theorem State.setPort_vaux (s : State) (k : Nat) (P : Port) : (s.setPort k P).vaux = s.vaux := rfl
@[simp] theorem State.setPort_vdram (s : State) (k : Nat) (P : Port) : (s.setPort k P).vdram = s.vdram := rfl
@[simp] theorem State.setPort_vcore (s : State) (k : Nat) (P : Port) : (s.setPort k P).vcore = s.vcore := rfl
@[simp] theorem State.setPort_vserdes (s : State) (k : Nat) (P : Port) : (s.setPort k P).vserdes = s.vserdes := rfl
@[simp] theorem State.setPort_vhost (s : State) (k : Nat) (P : Port) : (s.setPort k P).vhost = s.vhost := rfl
@[simp] theorem State.setPort_released (s : State) (k : Nat) (P : Port) : (s.setPort k P).released = s.released := rfl
@[simp] theorem State.setPort_thermtrip (s : State) (k : Nat) (P : Port) : (s.setPort k P).thermtrip = s.thermtrip := rfl
@[simp] theorem State.setPort_configFailed (s : State) (k : Nat) (P : Port) : (s.setPort k P).configFailed = s.configFailed := rfl
@[simp] theorem State.setPort_recovery (s : State) (k : Nat) (P : Port) : (s.setPort k P).recovery = s.recovery := rfl
@[simp] theorem State.setPort_cutOff (s : State) (k : Nat) (P : Port) : (s.setPort k P).cutOff = s.cutOff := rfl
@[simp] theorem State.setPort_flashImage (s : State) (k : Nat) (P : Port) : (s.setPort k P).flashImage = s.flashImage := rfl
@[simp] theorem State.setPort_flashConfig (s : State) (k : Nat) (P : Port) : (s.setPort k P).flashConfig = s.flashConfig := rfl
@[simp] theorem State.setPort_measured (s : State) (k : Nat) (P : Port) : (s.setPort k P).measured = s.measured := rfl
@[simp] theorem State.setPort_gnode (s : State) (k : Nat) (P : Port) : (s.setPort k P).gnode = s.gnode := rfl
@[simp] theorem State.setPort_parts (s : State) (k : Nat) (P : Port) : (s.setPort k P).parts = s.parts := rfl
@[simp] theorem State.setPort_dies (s : State) (k : Nat) (P : Port) : (s.setPort k P).dies = s.dies := rfl
@[simp] theorem State.setPort_boundaries (s : State) (k : Nat) (P : Port) : (s.setPort k P).boundaries = s.boundaries := rfl
@[simp] theorem State.setPort_ports (s : State) (k : Nat) (P : Port) : (s.setPort k P).ports = kset s.ports k P := rfl
@[simp] theorem State.setPort_vfs (s : State) (k : Nat) (P : Port) : (s.setPort k P).vfs = s.vfs := rfl
@[simp] theorem State.setPort_tiles (s : State) (k : Nat) (P : Port) : (s.setPort k P).tiles = s.tiles := rfl
@[simp] theorem State.setPort_grids (s : State) (k : Nat) (P : Port) : (s.setPort k P).grids = s.grids := rfl
@[simp] theorem State.setPort_fwtab (s : State) (k : Nat) (P : Port) : (s.setPort k P).fwtab = s.fwtab := rfl
@[simp] theorem State.setPort_closed (s : State) (k : Nat) (P : Port) : (s.setPort k P).closed = s.closed := rfl
@[simp] theorem State.setPort_tfence (s : State) (k : Nat) (P : Port) : (s.setPort k P).tfence = s.tfence := rfl
@[simp] theorem State.setPort_mem (s : State) (k : Nat) (P : Port) : (s.setPort k P).mem = s.mem := rfl
@[simp] theorem State.setPort_poison (s : State) (k : Nat) (P : Port) : (s.setPort k P).poison = s.poison := rfl
@[simp] theorem State.setPort_wire (s : State) (k : Nat) (P : Port) : (s.setPort k P).wire = s.wire := rfl
@[simp] theorem State.setPort_resps (s : State) (k : Nat) (P : Port) : (s.setPort k P).resps = s.resps := rfl
@[simp] theorem State.setPort_flowTx (s : State) (k : Nat) (P : Port) : (s.setPort k P).flowTx = s.flowTx := rfl
@[simp] theorem State.setPort_flowRx (s : State) (k : Nat) (P : Port) : (s.setPort k P).flowRx = s.flowRx := rfl
@[simp] theorem State.setPort_lastReq (s : State) (k : Nat) (P : Port) : (s.setPort k P).lastReq = s.lastReq := rfl
@[simp] theorem State.setPort_unseen (s : State) (k : Nat) (P : Port) : (s.setPort k P).unseen = s.unseen := rfl
@[simp] theorem State.setPort_signals (s : State) (k : Nat) (P : Port) : (s.setPort k P).signals = s.signals := rfl
@[simp] theorem State.setPort_outs (s : State) (k : Nat) (P : Port) : (s.setPort k P).outs = s.outs := rfl
@[simp] theorem State.setPort_outbox (s : State) (k : Nat) (P : Port) : (s.setPort k P).outbox = s.outbox := rfl
@[simp] theorem State.setPort_arrivals (s : State) (k : Nat) (P : Port) : (s.setPort k P).arrivals = s.arrivals := rfl
@[simp] theorem State.setPort_reduces (s : State) (k : Nat) (P : Port) : (s.setPort k P).reduces = s.reduces := rfl
@[simp] theorem State.setPort_reduceVia (s : State) (k : Nat) (P : Port) : (s.setPort k P).reduceVia = s.reduceVia := rfl
@[simp] theorem State.setPort_locals (s : State) (k : Nat) (P : Port) : (s.setPort k P).locals = s.locals := rfl
@[simp] theorem State.setPort_agenda (s : State) (k : Nat) (P : Port) : (s.setPort k P).agenda = s.agenda := rfl
@[simp] theorem State.setPort_cur (s : State) (k : Nat) (P : Port) : (s.setPort k P).cur = s.cur := rfl
@[simp] theorem State.setPort_free (s : State) (k : Nat) (P : Port) : (s.setPort k P).free = s.free := rfl
@[simp] theorem State.setPort_gen (s : State) (k : Nat) (P : Port) : (s.setPort k P).gen = s.gen := rfl
@[simp] theorem State.setPort_stamp (s : State) (k : Nat) (P : Port) : (s.setPort k P).stamp = s.stamp := rfl
@[simp] theorem State.setPort_nextId (s : State) (k : Nat) (P : Port) : (s.setPort k P).nextId = s.nextId := rfl

/-! ### setBoundary -/

@[simp] theorem State.setBoundary_vaux (s : State) (k : Nat) (P : Port) : (s.setBoundary k P).vaux = s.vaux := rfl
@[simp] theorem State.setBoundary_vdram (s : State) (k : Nat) (P : Port) : (s.setBoundary k P).vdram = s.vdram := rfl
@[simp] theorem State.setBoundary_vcore (s : State) (k : Nat) (P : Port) : (s.setBoundary k P).vcore = s.vcore := rfl
@[simp] theorem State.setBoundary_vserdes (s : State) (k : Nat) (P : Port) : (s.setBoundary k P).vserdes = s.vserdes := rfl
@[simp] theorem State.setBoundary_vhost (s : State) (k : Nat) (P : Port) : (s.setBoundary k P).vhost = s.vhost := rfl
@[simp] theorem State.setBoundary_released (s : State) (k : Nat) (P : Port) : (s.setBoundary k P).released = s.released := rfl
@[simp] theorem State.setBoundary_thermtrip (s : State) (k : Nat) (P : Port) : (s.setBoundary k P).thermtrip = s.thermtrip := rfl
@[simp] theorem State.setBoundary_configFailed (s : State) (k : Nat) (P : Port) : (s.setBoundary k P).configFailed = s.configFailed := rfl
@[simp] theorem State.setBoundary_recovery (s : State) (k : Nat) (P : Port) : (s.setBoundary k P).recovery = s.recovery := rfl
@[simp] theorem State.setBoundary_cutOff (s : State) (k : Nat) (P : Port) : (s.setBoundary k P).cutOff = s.cutOff := rfl
@[simp] theorem State.setBoundary_flashImage (s : State) (k : Nat) (P : Port) : (s.setBoundary k P).flashImage = s.flashImage := rfl
@[simp] theorem State.setBoundary_flashConfig (s : State) (k : Nat) (P : Port) : (s.setBoundary k P).flashConfig = s.flashConfig := rfl
@[simp] theorem State.setBoundary_measured (s : State) (k : Nat) (P : Port) : (s.setBoundary k P).measured = s.measured := rfl
@[simp] theorem State.setBoundary_gnode (s : State) (k : Nat) (P : Port) : (s.setBoundary k P).gnode = s.gnode := rfl
@[simp] theorem State.setBoundary_parts (s : State) (k : Nat) (P : Port) : (s.setBoundary k P).parts = s.parts := rfl
@[simp] theorem State.setBoundary_dies (s : State) (k : Nat) (P : Port) : (s.setBoundary k P).dies = s.dies := rfl
@[simp] theorem State.setBoundary_boundaries (s : State) (k : Nat) (P : Port) : (s.setBoundary k P).boundaries = kset s.boundaries k P := rfl
@[simp] theorem State.setBoundary_ports (s : State) (k : Nat) (P : Port) : (s.setBoundary k P).ports = s.ports := rfl
@[simp] theorem State.setBoundary_vfs (s : State) (k : Nat) (P : Port) : (s.setBoundary k P).vfs = s.vfs := rfl
@[simp] theorem State.setBoundary_tiles (s : State) (k : Nat) (P : Port) : (s.setBoundary k P).tiles = s.tiles := rfl
@[simp] theorem State.setBoundary_grids (s : State) (k : Nat) (P : Port) : (s.setBoundary k P).grids = s.grids := rfl
@[simp] theorem State.setBoundary_fwtab (s : State) (k : Nat) (P : Port) : (s.setBoundary k P).fwtab = s.fwtab := rfl
@[simp] theorem State.setBoundary_closed (s : State) (k : Nat) (P : Port) : (s.setBoundary k P).closed = s.closed := rfl
@[simp] theorem State.setBoundary_tfence (s : State) (k : Nat) (P : Port) : (s.setBoundary k P).tfence = s.tfence := rfl
@[simp] theorem State.setBoundary_mem (s : State) (k : Nat) (P : Port) : (s.setBoundary k P).mem = s.mem := rfl
@[simp] theorem State.setBoundary_poison (s : State) (k : Nat) (P : Port) : (s.setBoundary k P).poison = s.poison := rfl
@[simp] theorem State.setBoundary_wire (s : State) (k : Nat) (P : Port) : (s.setBoundary k P).wire = s.wire := rfl
@[simp] theorem State.setBoundary_resps (s : State) (k : Nat) (P : Port) : (s.setBoundary k P).resps = s.resps := rfl
@[simp] theorem State.setBoundary_flowTx (s : State) (k : Nat) (P : Port) : (s.setBoundary k P).flowTx = s.flowTx := rfl
@[simp] theorem State.setBoundary_flowRx (s : State) (k : Nat) (P : Port) : (s.setBoundary k P).flowRx = s.flowRx := rfl
@[simp] theorem State.setBoundary_lastReq (s : State) (k : Nat) (P : Port) : (s.setBoundary k P).lastReq = s.lastReq := rfl
@[simp] theorem State.setBoundary_unseen (s : State) (k : Nat) (P : Port) : (s.setBoundary k P).unseen = s.unseen := rfl
@[simp] theorem State.setBoundary_signals (s : State) (k : Nat) (P : Port) : (s.setBoundary k P).signals = s.signals := rfl
@[simp] theorem State.setBoundary_outs (s : State) (k : Nat) (P : Port) : (s.setBoundary k P).outs = s.outs := rfl
@[simp] theorem State.setBoundary_outbox (s : State) (k : Nat) (P : Port) : (s.setBoundary k P).outbox = s.outbox := rfl
@[simp] theorem State.setBoundary_arrivals (s : State) (k : Nat) (P : Port) : (s.setBoundary k P).arrivals = s.arrivals := rfl
@[simp] theorem State.setBoundary_reduces (s : State) (k : Nat) (P : Port) : (s.setBoundary k P).reduces = s.reduces := rfl
@[simp] theorem State.setBoundary_reduceVia (s : State) (k : Nat) (P : Port) : (s.setBoundary k P).reduceVia = s.reduceVia := rfl
@[simp] theorem State.setBoundary_locals (s : State) (k : Nat) (P : Port) : (s.setBoundary k P).locals = s.locals := rfl
@[simp] theorem State.setBoundary_agenda (s : State) (k : Nat) (P : Port) : (s.setBoundary k P).agenda = s.agenda := rfl
@[simp] theorem State.setBoundary_cur (s : State) (k : Nat) (P : Port) : (s.setBoundary k P).cur = s.cur := rfl
@[simp] theorem State.setBoundary_free (s : State) (k : Nat) (P : Port) : (s.setBoundary k P).free = s.free := rfl
@[simp] theorem State.setBoundary_gen (s : State) (k : Nat) (P : Port) : (s.setBoundary k P).gen = s.gen := rfl
@[simp] theorem State.setBoundary_stamp (s : State) (k : Nat) (P : Port) : (s.setBoundary k P).stamp = s.stamp := rfl
@[simp] theorem State.setBoundary_nextId (s : State) (k : Nat) (P : Port) : (s.setBoundary k P).nextId = s.nextId := rfl

/-! ### setVf -/

@[simp] theorem State.setVf_vaux (s : State) (k : Nat) (V : Vf) : (s.setVf k V).vaux = s.vaux := rfl
@[simp] theorem State.setVf_vdram (s : State) (k : Nat) (V : Vf) : (s.setVf k V).vdram = s.vdram := rfl
@[simp] theorem State.setVf_vcore (s : State) (k : Nat) (V : Vf) : (s.setVf k V).vcore = s.vcore := rfl
@[simp] theorem State.setVf_vserdes (s : State) (k : Nat) (V : Vf) : (s.setVf k V).vserdes = s.vserdes := rfl
@[simp] theorem State.setVf_vhost (s : State) (k : Nat) (V : Vf) : (s.setVf k V).vhost = s.vhost := rfl
@[simp] theorem State.setVf_released (s : State) (k : Nat) (V : Vf) : (s.setVf k V).released = s.released := rfl
@[simp] theorem State.setVf_thermtrip (s : State) (k : Nat) (V : Vf) : (s.setVf k V).thermtrip = s.thermtrip := rfl
@[simp] theorem State.setVf_configFailed (s : State) (k : Nat) (V : Vf) : (s.setVf k V).configFailed = s.configFailed := rfl
@[simp] theorem State.setVf_recovery (s : State) (k : Nat) (V : Vf) : (s.setVf k V).recovery = s.recovery := rfl
@[simp] theorem State.setVf_cutOff (s : State) (k : Nat) (V : Vf) : (s.setVf k V).cutOff = s.cutOff := rfl
@[simp] theorem State.setVf_flashImage (s : State) (k : Nat) (V : Vf) : (s.setVf k V).flashImage = s.flashImage := rfl
@[simp] theorem State.setVf_flashConfig (s : State) (k : Nat) (V : Vf) : (s.setVf k V).flashConfig = s.flashConfig := rfl
@[simp] theorem State.setVf_measured (s : State) (k : Nat) (V : Vf) : (s.setVf k V).measured = s.measured := rfl
@[simp] theorem State.setVf_gnode (s : State) (k : Nat) (V : Vf) : (s.setVf k V).gnode = s.gnode := rfl
@[simp] theorem State.setVf_parts (s : State) (k : Nat) (V : Vf) : (s.setVf k V).parts = s.parts := rfl
@[simp] theorem State.setVf_dies (s : State) (k : Nat) (V : Vf) : (s.setVf k V).dies = s.dies := rfl
@[simp] theorem State.setVf_boundaries (s : State) (k : Nat) (V : Vf) : (s.setVf k V).boundaries = s.boundaries := rfl
@[simp] theorem State.setVf_ports (s : State) (k : Nat) (V : Vf) : (s.setVf k V).ports = s.ports := rfl
@[simp] theorem State.setVf_vfs (s : State) (k : Nat) (V : Vf) : (s.setVf k V).vfs = kset s.vfs k V := rfl
@[simp] theorem State.setVf_tiles (s : State) (k : Nat) (V : Vf) : (s.setVf k V).tiles = s.tiles := rfl
@[simp] theorem State.setVf_grids (s : State) (k : Nat) (V : Vf) : (s.setVf k V).grids = s.grids := rfl
@[simp] theorem State.setVf_fwtab (s : State) (k : Nat) (V : Vf) : (s.setVf k V).fwtab = s.fwtab := rfl
@[simp] theorem State.setVf_closed (s : State) (k : Nat) (V : Vf) : (s.setVf k V).closed = s.closed := rfl
@[simp] theorem State.setVf_tfence (s : State) (k : Nat) (V : Vf) : (s.setVf k V).tfence = s.tfence := rfl
@[simp] theorem State.setVf_mem (s : State) (k : Nat) (V : Vf) : (s.setVf k V).mem = s.mem := rfl
@[simp] theorem State.setVf_poison (s : State) (k : Nat) (V : Vf) : (s.setVf k V).poison = s.poison := rfl
@[simp] theorem State.setVf_wire (s : State) (k : Nat) (V : Vf) : (s.setVf k V).wire = s.wire := rfl
@[simp] theorem State.setVf_resps (s : State) (k : Nat) (V : Vf) : (s.setVf k V).resps = s.resps := rfl
@[simp] theorem State.setVf_flowTx (s : State) (k : Nat) (V : Vf) : (s.setVf k V).flowTx = s.flowTx := rfl
@[simp] theorem State.setVf_flowRx (s : State) (k : Nat) (V : Vf) : (s.setVf k V).flowRx = s.flowRx := rfl
@[simp] theorem State.setVf_lastReq (s : State) (k : Nat) (V : Vf) : (s.setVf k V).lastReq = s.lastReq := rfl
@[simp] theorem State.setVf_unseen (s : State) (k : Nat) (V : Vf) : (s.setVf k V).unseen = s.unseen := rfl
@[simp] theorem State.setVf_signals (s : State) (k : Nat) (V : Vf) : (s.setVf k V).signals = s.signals := rfl
@[simp] theorem State.setVf_outs (s : State) (k : Nat) (V : Vf) : (s.setVf k V).outs = s.outs := rfl
@[simp] theorem State.setVf_outbox (s : State) (k : Nat) (V : Vf) : (s.setVf k V).outbox = s.outbox := rfl
@[simp] theorem State.setVf_arrivals (s : State) (k : Nat) (V : Vf) : (s.setVf k V).arrivals = s.arrivals := rfl
@[simp] theorem State.setVf_reduces (s : State) (k : Nat) (V : Vf) : (s.setVf k V).reduces = s.reduces := rfl
@[simp] theorem State.setVf_reduceVia (s : State) (k : Nat) (V : Vf) : (s.setVf k V).reduceVia = s.reduceVia := rfl
@[simp] theorem State.setVf_locals (s : State) (k : Nat) (V : Vf) : (s.setVf k V).locals = s.locals := rfl
@[simp] theorem State.setVf_agenda (s : State) (k : Nat) (V : Vf) : (s.setVf k V).agenda = s.agenda := rfl
@[simp] theorem State.setVf_cur (s : State) (k : Nat) (V : Vf) : (s.setVf k V).cur = s.cur := rfl
@[simp] theorem State.setVf_free (s : State) (k : Nat) (V : Vf) : (s.setVf k V).free = s.free := rfl
@[simp] theorem State.setVf_gen (s : State) (k : Nat) (V : Vf) : (s.setVf k V).gen = s.gen := rfl
@[simp] theorem State.setVf_stamp (s : State) (k : Nat) (V : Vf) : (s.setVf k V).stamp = s.stamp := rfl
@[simp] theorem State.setVf_nextId (s : State) (k : Nat) (V : Vf) : (s.setVf k V).nextId = s.nextId := rfl

/-! ### setPart -/

@[simp] theorem State.setPart_vaux (s : State) (k : Nat) (P : Part) : (s.setPart k P).vaux = s.vaux := rfl
@[simp] theorem State.setPart_vdram (s : State) (k : Nat) (P : Part) : (s.setPart k P).vdram = s.vdram := rfl
@[simp] theorem State.setPart_vcore (s : State) (k : Nat) (P : Part) : (s.setPart k P).vcore = s.vcore := rfl
@[simp] theorem State.setPart_vserdes (s : State) (k : Nat) (P : Part) : (s.setPart k P).vserdes = s.vserdes := rfl
@[simp] theorem State.setPart_vhost (s : State) (k : Nat) (P : Part) : (s.setPart k P).vhost = s.vhost := rfl
@[simp] theorem State.setPart_released (s : State) (k : Nat) (P : Part) : (s.setPart k P).released = s.released := rfl
@[simp] theorem State.setPart_thermtrip (s : State) (k : Nat) (P : Part) : (s.setPart k P).thermtrip = s.thermtrip := rfl
@[simp] theorem State.setPart_configFailed (s : State) (k : Nat) (P : Part) : (s.setPart k P).configFailed = s.configFailed := rfl
@[simp] theorem State.setPart_recovery (s : State) (k : Nat) (P : Part) : (s.setPart k P).recovery = s.recovery := rfl
@[simp] theorem State.setPart_cutOff (s : State) (k : Nat) (P : Part) : (s.setPart k P).cutOff = s.cutOff := rfl
@[simp] theorem State.setPart_flashImage (s : State) (k : Nat) (P : Part) : (s.setPart k P).flashImage = s.flashImage := rfl
@[simp] theorem State.setPart_flashConfig (s : State) (k : Nat) (P : Part) : (s.setPart k P).flashConfig = s.flashConfig := rfl
@[simp] theorem State.setPart_measured (s : State) (k : Nat) (P : Part) : (s.setPart k P).measured = s.measured := rfl
@[simp] theorem State.setPart_gnode (s : State) (k : Nat) (P : Part) : (s.setPart k P).gnode = s.gnode := rfl
@[simp] theorem State.setPart_parts (s : State) (k : Nat) (P : Part) : (s.setPart k P).parts = kset s.parts k P := rfl
@[simp] theorem State.setPart_dies (s : State) (k : Nat) (P : Part) : (s.setPart k P).dies = s.dies := rfl
@[simp] theorem State.setPart_boundaries (s : State) (k : Nat) (P : Part) : (s.setPart k P).boundaries = s.boundaries := rfl
@[simp] theorem State.setPart_ports (s : State) (k : Nat) (P : Part) : (s.setPart k P).ports = s.ports := rfl
@[simp] theorem State.setPart_vfs (s : State) (k : Nat) (P : Part) : (s.setPart k P).vfs = s.vfs := rfl
@[simp] theorem State.setPart_tiles (s : State) (k : Nat) (P : Part) : (s.setPart k P).tiles = s.tiles := rfl
@[simp] theorem State.setPart_grids (s : State) (k : Nat) (P : Part) : (s.setPart k P).grids = s.grids := rfl
@[simp] theorem State.setPart_fwtab (s : State) (k : Nat) (P : Part) : (s.setPart k P).fwtab = s.fwtab := rfl
@[simp] theorem State.setPart_closed (s : State) (k : Nat) (P : Part) : (s.setPart k P).closed = s.closed := rfl
@[simp] theorem State.setPart_tfence (s : State) (k : Nat) (P : Part) : (s.setPart k P).tfence = s.tfence := rfl
@[simp] theorem State.setPart_mem (s : State) (k : Nat) (P : Part) : (s.setPart k P).mem = s.mem := rfl
@[simp] theorem State.setPart_poison (s : State) (k : Nat) (P : Part) : (s.setPart k P).poison = s.poison := rfl
@[simp] theorem State.setPart_wire (s : State) (k : Nat) (P : Part) : (s.setPart k P).wire = s.wire := rfl
@[simp] theorem State.setPart_resps (s : State) (k : Nat) (P : Part) : (s.setPart k P).resps = s.resps := rfl
@[simp] theorem State.setPart_flowTx (s : State) (k : Nat) (P : Part) : (s.setPart k P).flowTx = s.flowTx := rfl
@[simp] theorem State.setPart_flowRx (s : State) (k : Nat) (P : Part) : (s.setPart k P).flowRx = s.flowRx := rfl
@[simp] theorem State.setPart_lastReq (s : State) (k : Nat) (P : Part) : (s.setPart k P).lastReq = s.lastReq := rfl
@[simp] theorem State.setPart_unseen (s : State) (k : Nat) (P : Part) : (s.setPart k P).unseen = s.unseen := rfl
@[simp] theorem State.setPart_signals (s : State) (k : Nat) (P : Part) : (s.setPart k P).signals = s.signals := rfl
@[simp] theorem State.setPart_outs (s : State) (k : Nat) (P : Part) : (s.setPart k P).outs = s.outs := rfl
@[simp] theorem State.setPart_outbox (s : State) (k : Nat) (P : Part) : (s.setPart k P).outbox = s.outbox := rfl
@[simp] theorem State.setPart_arrivals (s : State) (k : Nat) (P : Part) : (s.setPart k P).arrivals = s.arrivals := rfl
@[simp] theorem State.setPart_reduces (s : State) (k : Nat) (P : Part) : (s.setPart k P).reduces = s.reduces := rfl
@[simp] theorem State.setPart_reduceVia (s : State) (k : Nat) (P : Part) : (s.setPart k P).reduceVia = s.reduceVia := rfl
@[simp] theorem State.setPart_locals (s : State) (k : Nat) (P : Part) : (s.setPart k P).locals = s.locals := rfl
@[simp] theorem State.setPart_agenda (s : State) (k : Nat) (P : Part) : (s.setPart k P).agenda = s.agenda := rfl
@[simp] theorem State.setPart_cur (s : State) (k : Nat) (P : Part) : (s.setPart k P).cur = s.cur := rfl
@[simp] theorem State.setPart_free (s : State) (k : Nat) (P : Part) : (s.setPart k P).free = s.free := rfl
@[simp] theorem State.setPart_gen (s : State) (k : Nat) (P : Part) : (s.setPart k P).gen = s.gen := rfl
@[simp] theorem State.setPart_stamp (s : State) (k : Nat) (P : Part) : (s.setPart k P).stamp = s.stamp := rfl
@[simp] theorem State.setPart_nextId (s : State) (k : Nat) (P : Part) : (s.setPart k P).nextId = s.nextId := rfl

/-! ### setGrid -/

@[simp] theorem State.setGrid_vaux (s : State) (k : Nat) (G : Grid) : (s.setGrid k G).vaux = s.vaux := rfl
@[simp] theorem State.setGrid_vdram (s : State) (k : Nat) (G : Grid) : (s.setGrid k G).vdram = s.vdram := rfl
@[simp] theorem State.setGrid_vcore (s : State) (k : Nat) (G : Grid) : (s.setGrid k G).vcore = s.vcore := rfl
@[simp] theorem State.setGrid_vserdes (s : State) (k : Nat) (G : Grid) : (s.setGrid k G).vserdes = s.vserdes := rfl
@[simp] theorem State.setGrid_vhost (s : State) (k : Nat) (G : Grid) : (s.setGrid k G).vhost = s.vhost := rfl
@[simp] theorem State.setGrid_released (s : State) (k : Nat) (G : Grid) : (s.setGrid k G).released = s.released := rfl
@[simp] theorem State.setGrid_thermtrip (s : State) (k : Nat) (G : Grid) : (s.setGrid k G).thermtrip = s.thermtrip := rfl
@[simp] theorem State.setGrid_configFailed (s : State) (k : Nat) (G : Grid) : (s.setGrid k G).configFailed = s.configFailed := rfl
@[simp] theorem State.setGrid_recovery (s : State) (k : Nat) (G : Grid) : (s.setGrid k G).recovery = s.recovery := rfl
@[simp] theorem State.setGrid_cutOff (s : State) (k : Nat) (G : Grid) : (s.setGrid k G).cutOff = s.cutOff := rfl
@[simp] theorem State.setGrid_flashImage (s : State) (k : Nat) (G : Grid) : (s.setGrid k G).flashImage = s.flashImage := rfl
@[simp] theorem State.setGrid_flashConfig (s : State) (k : Nat) (G : Grid) : (s.setGrid k G).flashConfig = s.flashConfig := rfl
@[simp] theorem State.setGrid_measured (s : State) (k : Nat) (G : Grid) : (s.setGrid k G).measured = s.measured := rfl
@[simp] theorem State.setGrid_gnode (s : State) (k : Nat) (G : Grid) : (s.setGrid k G).gnode = s.gnode := rfl
@[simp] theorem State.setGrid_parts (s : State) (k : Nat) (G : Grid) : (s.setGrid k G).parts = s.parts := rfl
@[simp] theorem State.setGrid_dies (s : State) (k : Nat) (G : Grid) : (s.setGrid k G).dies = s.dies := rfl
@[simp] theorem State.setGrid_boundaries (s : State) (k : Nat) (G : Grid) : (s.setGrid k G).boundaries = s.boundaries := rfl
@[simp] theorem State.setGrid_ports (s : State) (k : Nat) (G : Grid) : (s.setGrid k G).ports = s.ports := rfl
@[simp] theorem State.setGrid_vfs (s : State) (k : Nat) (G : Grid) : (s.setGrid k G).vfs = s.vfs := rfl
@[simp] theorem State.setGrid_tiles (s : State) (k : Nat) (G : Grid) : (s.setGrid k G).tiles = s.tiles := rfl
@[simp] theorem State.setGrid_grids (s : State) (k : Nat) (G : Grid) : (s.setGrid k G).grids = kset s.grids k G := rfl
@[simp] theorem State.setGrid_fwtab (s : State) (k : Nat) (G : Grid) : (s.setGrid k G).fwtab = s.fwtab := rfl
@[simp] theorem State.setGrid_closed (s : State) (k : Nat) (G : Grid) : (s.setGrid k G).closed = s.closed := rfl
@[simp] theorem State.setGrid_tfence (s : State) (k : Nat) (G : Grid) : (s.setGrid k G).tfence = s.tfence := rfl
@[simp] theorem State.setGrid_mem (s : State) (k : Nat) (G : Grid) : (s.setGrid k G).mem = s.mem := rfl
@[simp] theorem State.setGrid_poison (s : State) (k : Nat) (G : Grid) : (s.setGrid k G).poison = s.poison := rfl
@[simp] theorem State.setGrid_wire (s : State) (k : Nat) (G : Grid) : (s.setGrid k G).wire = s.wire := rfl
@[simp] theorem State.setGrid_resps (s : State) (k : Nat) (G : Grid) : (s.setGrid k G).resps = s.resps := rfl
@[simp] theorem State.setGrid_flowTx (s : State) (k : Nat) (G : Grid) : (s.setGrid k G).flowTx = s.flowTx := rfl
@[simp] theorem State.setGrid_flowRx (s : State) (k : Nat) (G : Grid) : (s.setGrid k G).flowRx = s.flowRx := rfl
@[simp] theorem State.setGrid_lastReq (s : State) (k : Nat) (G : Grid) : (s.setGrid k G).lastReq = s.lastReq := rfl
@[simp] theorem State.setGrid_unseen (s : State) (k : Nat) (G : Grid) : (s.setGrid k G).unseen = s.unseen := rfl
@[simp] theorem State.setGrid_signals (s : State) (k : Nat) (G : Grid) : (s.setGrid k G).signals = s.signals := rfl
@[simp] theorem State.setGrid_outs (s : State) (k : Nat) (G : Grid) : (s.setGrid k G).outs = s.outs := rfl
@[simp] theorem State.setGrid_outbox (s : State) (k : Nat) (G : Grid) : (s.setGrid k G).outbox = s.outbox := rfl
@[simp] theorem State.setGrid_arrivals (s : State) (k : Nat) (G : Grid) : (s.setGrid k G).arrivals = s.arrivals := rfl
@[simp] theorem State.setGrid_reduces (s : State) (k : Nat) (G : Grid) : (s.setGrid k G).reduces = s.reduces := rfl
@[simp] theorem State.setGrid_reduceVia (s : State) (k : Nat) (G : Grid) : (s.setGrid k G).reduceVia = s.reduceVia := rfl
@[simp] theorem State.setGrid_locals (s : State) (k : Nat) (G : Grid) : (s.setGrid k G).locals = s.locals := rfl
@[simp] theorem State.setGrid_agenda (s : State) (k : Nat) (G : Grid) : (s.setGrid k G).agenda = s.agenda := rfl
@[simp] theorem State.setGrid_cur (s : State) (k : Nat) (G : Grid) : (s.setGrid k G).cur = s.cur := rfl
@[simp] theorem State.setGrid_free (s : State) (k : Nat) (G : Grid) : (s.setGrid k G).free = s.free := rfl
@[simp] theorem State.setGrid_gen (s : State) (k : Nat) (G : Grid) : (s.setGrid k G).gen = s.gen := rfl
@[simp] theorem State.setGrid_stamp (s : State) (k : Nat) (G : Grid) : (s.setGrid k G).stamp = s.stamp := rfl
@[simp] theorem State.setGrid_nextId (s : State) (k : Nat) (G : Grid) : (s.setGrid k G).nextId = s.nextId := rfl

/-! ### putBytes -/

@[simp] theorem State.putBytes_vaux (s : State) (pa : Nat) (bs : List Byte) : (s.putBytes pa bs).vaux = s.vaux := rfl
@[simp] theorem State.putBytes_vdram (s : State) (pa : Nat) (bs : List Byte) : (s.putBytes pa bs).vdram = s.vdram := rfl
@[simp] theorem State.putBytes_vcore (s : State) (pa : Nat) (bs : List Byte) : (s.putBytes pa bs).vcore = s.vcore := rfl
@[simp] theorem State.putBytes_vserdes (s : State) (pa : Nat) (bs : List Byte) : (s.putBytes pa bs).vserdes = s.vserdes := rfl
@[simp] theorem State.putBytes_vhost (s : State) (pa : Nat) (bs : List Byte) : (s.putBytes pa bs).vhost = s.vhost := rfl
@[simp] theorem State.putBytes_released (s : State) (pa : Nat) (bs : List Byte) : (s.putBytes pa bs).released = s.released := rfl
@[simp] theorem State.putBytes_thermtrip (s : State) (pa : Nat) (bs : List Byte) : (s.putBytes pa bs).thermtrip = s.thermtrip := rfl
@[simp] theorem State.putBytes_configFailed (s : State) (pa : Nat) (bs : List Byte) : (s.putBytes pa bs).configFailed = s.configFailed := rfl
@[simp] theorem State.putBytes_recovery (s : State) (pa : Nat) (bs : List Byte) : (s.putBytes pa bs).recovery = s.recovery := rfl
@[simp] theorem State.putBytes_cutOff (s : State) (pa : Nat) (bs : List Byte) : (s.putBytes pa bs).cutOff = s.cutOff := rfl
@[simp] theorem State.putBytes_flashImage (s : State) (pa : Nat) (bs : List Byte) : (s.putBytes pa bs).flashImage = s.flashImage := rfl
@[simp] theorem State.putBytes_flashConfig (s : State) (pa : Nat) (bs : List Byte) : (s.putBytes pa bs).flashConfig = s.flashConfig := rfl
@[simp] theorem State.putBytes_measured (s : State) (pa : Nat) (bs : List Byte) : (s.putBytes pa bs).measured = s.measured := rfl
@[simp] theorem State.putBytes_gnode (s : State) (pa : Nat) (bs : List Byte) : (s.putBytes pa bs).gnode = s.gnode := rfl
@[simp] theorem State.putBytes_parts (s : State) (pa : Nat) (bs : List Byte) : (s.putBytes pa bs).parts = s.parts := rfl
@[simp] theorem State.putBytes_dies (s : State) (pa : Nat) (bs : List Byte) : (s.putBytes pa bs).dies = s.dies := rfl
@[simp] theorem State.putBytes_boundaries (s : State) (pa : Nat) (bs : List Byte) : (s.putBytes pa bs).boundaries = s.boundaries := rfl
@[simp] theorem State.putBytes_ports (s : State) (pa : Nat) (bs : List Byte) : (s.putBytes pa bs).ports = s.ports := rfl
@[simp] theorem State.putBytes_vfs (s : State) (pa : Nat) (bs : List Byte) : (s.putBytes pa bs).vfs = s.vfs := rfl
@[simp] theorem State.putBytes_tiles (s : State) (pa : Nat) (bs : List Byte) : (s.putBytes pa bs).tiles = s.tiles := rfl
@[simp] theorem State.putBytes_grids (s : State) (pa : Nat) (bs : List Byte) : (s.putBytes pa bs).grids = s.grids := rfl
@[simp] theorem State.putBytes_fwtab (s : State) (pa : Nat) (bs : List Byte) : (s.putBytes pa bs).fwtab = s.fwtab := rfl
@[simp] theorem State.putBytes_closed (s : State) (pa : Nat) (bs : List Byte) : (s.putBytes pa bs).closed = s.closed := rfl
@[simp] theorem State.putBytes_tfence (s : State) (pa : Nat) (bs : List Byte) : (s.putBytes pa bs).tfence = s.tfence := rfl
@[simp] theorem State.putBytes_mem (s : State) (pa : Nat) (bs : List Byte) : (s.putBytes pa bs).mem = cellsSet s.mem pa bs := rfl
@[simp] theorem State.putBytes_poison (s : State) (pa : Nat) (bs : List Byte) : (s.putBytes pa bs).poison = s.poison := rfl
@[simp] theorem State.putBytes_wire (s : State) (pa : Nat) (bs : List Byte) : (s.putBytes pa bs).wire = s.wire := rfl
@[simp] theorem State.putBytes_resps (s : State) (pa : Nat) (bs : List Byte) : (s.putBytes pa bs).resps = s.resps := rfl
@[simp] theorem State.putBytes_flowTx (s : State) (pa : Nat) (bs : List Byte) : (s.putBytes pa bs).flowTx = s.flowTx := rfl
@[simp] theorem State.putBytes_flowRx (s : State) (pa : Nat) (bs : List Byte) : (s.putBytes pa bs).flowRx = s.flowRx := rfl
@[simp] theorem State.putBytes_lastReq (s : State) (pa : Nat) (bs : List Byte) : (s.putBytes pa bs).lastReq = s.lastReq := rfl
@[simp] theorem State.putBytes_unseen (s : State) (pa : Nat) (bs : List Byte) : (s.putBytes pa bs).unseen = s.unseen := rfl
@[simp] theorem State.putBytes_signals (s : State) (pa : Nat) (bs : List Byte) : (s.putBytes pa bs).signals = s.signals := rfl
@[simp] theorem State.putBytes_outs (s : State) (pa : Nat) (bs : List Byte) : (s.putBytes pa bs).outs = s.outs := rfl
@[simp] theorem State.putBytes_outbox (s : State) (pa : Nat) (bs : List Byte) : (s.putBytes pa bs).outbox = s.outbox := rfl
@[simp] theorem State.putBytes_arrivals (s : State) (pa : Nat) (bs : List Byte) : (s.putBytes pa bs).arrivals = s.arrivals := rfl
@[simp] theorem State.putBytes_reduces (s : State) (pa : Nat) (bs : List Byte) : (s.putBytes pa bs).reduces = s.reduces := rfl
@[simp] theorem State.putBytes_reduceVia (s : State) (pa : Nat) (bs : List Byte) : (s.putBytes pa bs).reduceVia = s.reduceVia := rfl
@[simp] theorem State.putBytes_locals (s : State) (pa : Nat) (bs : List Byte) : (s.putBytes pa bs).locals = s.locals := rfl
@[simp] theorem State.putBytes_agenda (s : State) (pa : Nat) (bs : List Byte) : (s.putBytes pa bs).agenda = s.agenda := rfl
@[simp] theorem State.putBytes_cur (s : State) (pa : Nat) (bs : List Byte) : (s.putBytes pa bs).cur = s.cur := rfl
@[simp] theorem State.putBytes_free (s : State) (pa : Nat) (bs : List Byte) : (s.putBytes pa bs).free = s.free := rfl
@[simp] theorem State.putBytes_gen (s : State) (pa : Nat) (bs : List Byte) : (s.putBytes pa bs).gen = s.gen := rfl
@[simp] theorem State.putBytes_stamp (s : State) (pa : Nat) (bs : List Byte) : (s.putBytes pa bs).stamp = s.stamp := rfl
@[simp] theorem State.putBytes_nextId (s : State) (pa : Nat) (bs : List Byte) : (s.putBytes pa bs).nextId = s.nextId := rfl

/-! ### setSub -/

@[simp] theorem State.setSub_vaux (s : State) (t u : Nat) (U : Sub) : (s.setSub t u U).vaux = s.vaux := rfl
@[simp] theorem State.setSub_vdram (s : State) (t u : Nat) (U : Sub) : (s.setSub t u U).vdram = s.vdram := rfl
@[simp] theorem State.setSub_vcore (s : State) (t u : Nat) (U : Sub) : (s.setSub t u U).vcore = s.vcore := rfl
@[simp] theorem State.setSub_vserdes (s : State) (t u : Nat) (U : Sub) : (s.setSub t u U).vserdes = s.vserdes := rfl
@[simp] theorem State.setSub_vhost (s : State) (t u : Nat) (U : Sub) : (s.setSub t u U).vhost = s.vhost := rfl
@[simp] theorem State.setSub_released (s : State) (t u : Nat) (U : Sub) : (s.setSub t u U).released = s.released := rfl
@[simp] theorem State.setSub_thermtrip (s : State) (t u : Nat) (U : Sub) : (s.setSub t u U).thermtrip = s.thermtrip := rfl
@[simp] theorem State.setSub_configFailed (s : State) (t u : Nat) (U : Sub) : (s.setSub t u U).configFailed = s.configFailed := rfl
@[simp] theorem State.setSub_recovery (s : State) (t u : Nat) (U : Sub) : (s.setSub t u U).recovery = s.recovery := rfl
@[simp] theorem State.setSub_cutOff (s : State) (t u : Nat) (U : Sub) : (s.setSub t u U).cutOff = s.cutOff := rfl
@[simp] theorem State.setSub_flashImage (s : State) (t u : Nat) (U : Sub) : (s.setSub t u U).flashImage = s.flashImage := rfl
@[simp] theorem State.setSub_flashConfig (s : State) (t u : Nat) (U : Sub) : (s.setSub t u U).flashConfig = s.flashConfig := rfl
@[simp] theorem State.setSub_measured (s : State) (t u : Nat) (U : Sub) : (s.setSub t u U).measured = s.measured := rfl
@[simp] theorem State.setSub_gnode (s : State) (t u : Nat) (U : Sub) : (s.setSub t u U).gnode = s.gnode := rfl
@[simp] theorem State.setSub_parts (s : State) (t u : Nat) (U : Sub) : (s.setSub t u U).parts = s.parts := rfl
@[simp] theorem State.setSub_dies (s : State) (t u : Nat) (U : Sub) : (s.setSub t u U).dies = s.dies := rfl
@[simp] theorem State.setSub_boundaries (s : State) (t u : Nat) (U : Sub) : (s.setSub t u U).boundaries = s.boundaries := rfl
@[simp] theorem State.setSub_ports (s : State) (t u : Nat) (U : Sub) : (s.setSub t u U).ports = s.ports := rfl
@[simp] theorem State.setSub_vfs (s : State) (t u : Nat) (U : Sub) : (s.setSub t u U).vfs = s.vfs := rfl
@[simp] theorem State.setSub_tiles (s : State) (t u : Nat) (U : Sub) : (s.setSub t u U).tiles = kset s.tiles t ((s.tile t).setSub u U) := rfl
@[simp] theorem State.setSub_grids (s : State) (t u : Nat) (U : Sub) : (s.setSub t u U).grids = s.grids := rfl
@[simp] theorem State.setSub_fwtab (s : State) (t u : Nat) (U : Sub) : (s.setSub t u U).fwtab = s.fwtab := rfl
@[simp] theorem State.setSub_closed (s : State) (t u : Nat) (U : Sub) : (s.setSub t u U).closed = s.closed := rfl
@[simp] theorem State.setSub_tfence (s : State) (t u : Nat) (U : Sub) : (s.setSub t u U).tfence = s.tfence := rfl
@[simp] theorem State.setSub_mem (s : State) (t u : Nat) (U : Sub) : (s.setSub t u U).mem = s.mem := rfl
@[simp] theorem State.setSub_poison (s : State) (t u : Nat) (U : Sub) : (s.setSub t u U).poison = s.poison := rfl
@[simp] theorem State.setSub_wire (s : State) (t u : Nat) (U : Sub) : (s.setSub t u U).wire = s.wire := rfl
@[simp] theorem State.setSub_resps (s : State) (t u : Nat) (U : Sub) : (s.setSub t u U).resps = s.resps := rfl
@[simp] theorem State.setSub_flowTx (s : State) (t u : Nat) (U : Sub) : (s.setSub t u U).flowTx = s.flowTx := rfl
@[simp] theorem State.setSub_flowRx (s : State) (t u : Nat) (U : Sub) : (s.setSub t u U).flowRx = s.flowRx := rfl
@[simp] theorem State.setSub_lastReq (s : State) (t u : Nat) (U : Sub) : (s.setSub t u U).lastReq = s.lastReq := rfl
@[simp] theorem State.setSub_unseen (s : State) (t u : Nat) (U : Sub) : (s.setSub t u U).unseen = s.unseen := rfl
@[simp] theorem State.setSub_signals (s : State) (t u : Nat) (U : Sub) : (s.setSub t u U).signals = s.signals := rfl
@[simp] theorem State.setSub_outs (s : State) (t u : Nat) (U : Sub) : (s.setSub t u U).outs = s.outs := rfl
@[simp] theorem State.setSub_outbox (s : State) (t u : Nat) (U : Sub) : (s.setSub t u U).outbox = s.outbox := rfl
@[simp] theorem State.setSub_arrivals (s : State) (t u : Nat) (U : Sub) : (s.setSub t u U).arrivals = s.arrivals := rfl
@[simp] theorem State.setSub_reduces (s : State) (t u : Nat) (U : Sub) : (s.setSub t u U).reduces = s.reduces := rfl
@[simp] theorem State.setSub_reduceVia (s : State) (t u : Nat) (U : Sub) : (s.setSub t u U).reduceVia = s.reduceVia := rfl
@[simp] theorem State.setSub_locals (s : State) (t u : Nat) (U : Sub) : (s.setSub t u U).locals = s.locals := rfl
@[simp] theorem State.setSub_agenda (s : State) (t u : Nat) (U : Sub) : (s.setSub t u U).agenda = s.agenda := rfl
@[simp] theorem State.setSub_cur (s : State) (t u : Nat) (U : Sub) : (s.setSub t u U).cur = s.cur := rfl
@[simp] theorem State.setSub_free (s : State) (t u : Nat) (U : Sub) : (s.setSub t u U).free = s.free := rfl
@[simp] theorem State.setSub_gen (s : State) (t u : Nat) (U : Sub) : (s.setSub t u U).gen = s.gen := rfl
@[simp] theorem State.setSub_stamp (s : State) (t u : Nat) (U : Sub) : (s.setSub t u U).stamp = s.stamp := rfl
@[simp] theorem State.setSub_nextId (s : State) (t u : Nat) (U : Sub) : (s.setSub t u U).nextId = s.nextId := rfl

/-! ### setGang -/

@[simp] theorem State.setGang_vaux (s : State) (t g : Nat) (G : Gang) : (s.setGang t g G).vaux = s.vaux := rfl
@[simp] theorem State.setGang_vdram (s : State) (t g : Nat) (G : Gang) : (s.setGang t g G).vdram = s.vdram := rfl
@[simp] theorem State.setGang_vcore (s : State) (t g : Nat) (G : Gang) : (s.setGang t g G).vcore = s.vcore := rfl
@[simp] theorem State.setGang_vserdes (s : State) (t g : Nat) (G : Gang) : (s.setGang t g G).vserdes = s.vserdes := rfl
@[simp] theorem State.setGang_vhost (s : State) (t g : Nat) (G : Gang) : (s.setGang t g G).vhost = s.vhost := rfl
@[simp] theorem State.setGang_released (s : State) (t g : Nat) (G : Gang) : (s.setGang t g G).released = s.released := rfl
@[simp] theorem State.setGang_thermtrip (s : State) (t g : Nat) (G : Gang) : (s.setGang t g G).thermtrip = s.thermtrip := rfl
@[simp] theorem State.setGang_configFailed (s : State) (t g : Nat) (G : Gang) : (s.setGang t g G).configFailed = s.configFailed := rfl
@[simp] theorem State.setGang_recovery (s : State) (t g : Nat) (G : Gang) : (s.setGang t g G).recovery = s.recovery := rfl
@[simp] theorem State.setGang_cutOff (s : State) (t g : Nat) (G : Gang) : (s.setGang t g G).cutOff = s.cutOff := rfl
@[simp] theorem State.setGang_flashImage (s : State) (t g : Nat) (G : Gang) : (s.setGang t g G).flashImage = s.flashImage := rfl
@[simp] theorem State.setGang_flashConfig (s : State) (t g : Nat) (G : Gang) : (s.setGang t g G).flashConfig = s.flashConfig := rfl
@[simp] theorem State.setGang_measured (s : State) (t g : Nat) (G : Gang) : (s.setGang t g G).measured = s.measured := rfl
@[simp] theorem State.setGang_gnode (s : State) (t g : Nat) (G : Gang) : (s.setGang t g G).gnode = s.gnode := rfl
@[simp] theorem State.setGang_parts (s : State) (t g : Nat) (G : Gang) : (s.setGang t g G).parts = s.parts := rfl
@[simp] theorem State.setGang_dies (s : State) (t g : Nat) (G : Gang) : (s.setGang t g G).dies = s.dies := rfl
@[simp] theorem State.setGang_boundaries (s : State) (t g : Nat) (G : Gang) : (s.setGang t g G).boundaries = s.boundaries := rfl
@[simp] theorem State.setGang_ports (s : State) (t g : Nat) (G : Gang) : (s.setGang t g G).ports = s.ports := rfl
@[simp] theorem State.setGang_vfs (s : State) (t g : Nat) (G : Gang) : (s.setGang t g G).vfs = s.vfs := rfl
@[simp] theorem State.setGang_tiles (s : State) (t g : Nat) (G : Gang) : (s.setGang t g G).tiles = kset s.tiles t ((s.tile t).setGang g G) := rfl
@[simp] theorem State.setGang_grids (s : State) (t g : Nat) (G : Gang) : (s.setGang t g G).grids = s.grids := rfl
@[simp] theorem State.setGang_fwtab (s : State) (t g : Nat) (G : Gang) : (s.setGang t g G).fwtab = s.fwtab := rfl
@[simp] theorem State.setGang_closed (s : State) (t g : Nat) (G : Gang) : (s.setGang t g G).closed = s.closed := rfl
@[simp] theorem State.setGang_tfence (s : State) (t g : Nat) (G : Gang) : (s.setGang t g G).tfence = s.tfence := rfl
@[simp] theorem State.setGang_mem (s : State) (t g : Nat) (G : Gang) : (s.setGang t g G).mem = s.mem := rfl
@[simp] theorem State.setGang_poison (s : State) (t g : Nat) (G : Gang) : (s.setGang t g G).poison = s.poison := rfl
@[simp] theorem State.setGang_wire (s : State) (t g : Nat) (G : Gang) : (s.setGang t g G).wire = s.wire := rfl
@[simp] theorem State.setGang_resps (s : State) (t g : Nat) (G : Gang) : (s.setGang t g G).resps = s.resps := rfl
@[simp] theorem State.setGang_flowTx (s : State) (t g : Nat) (G : Gang) : (s.setGang t g G).flowTx = s.flowTx := rfl
@[simp] theorem State.setGang_flowRx (s : State) (t g : Nat) (G : Gang) : (s.setGang t g G).flowRx = s.flowRx := rfl
@[simp] theorem State.setGang_lastReq (s : State) (t g : Nat) (G : Gang) : (s.setGang t g G).lastReq = s.lastReq := rfl
@[simp] theorem State.setGang_unseen (s : State) (t g : Nat) (G : Gang) : (s.setGang t g G).unseen = s.unseen := rfl
@[simp] theorem State.setGang_signals (s : State) (t g : Nat) (G : Gang) : (s.setGang t g G).signals = s.signals := rfl
@[simp] theorem State.setGang_outs (s : State) (t g : Nat) (G : Gang) : (s.setGang t g G).outs = s.outs := rfl
@[simp] theorem State.setGang_outbox (s : State) (t g : Nat) (G : Gang) : (s.setGang t g G).outbox = s.outbox := rfl
@[simp] theorem State.setGang_arrivals (s : State) (t g : Nat) (G : Gang) : (s.setGang t g G).arrivals = s.arrivals := rfl
@[simp] theorem State.setGang_reduces (s : State) (t g : Nat) (G : Gang) : (s.setGang t g G).reduces = s.reduces := rfl
@[simp] theorem State.setGang_reduceVia (s : State) (t g : Nat) (G : Gang) : (s.setGang t g G).reduceVia = s.reduceVia := rfl
@[simp] theorem State.setGang_locals (s : State) (t g : Nat) (G : Gang) : (s.setGang t g G).locals = s.locals := rfl
@[simp] theorem State.setGang_agenda (s : State) (t g : Nat) (G : Gang) : (s.setGang t g G).agenda = s.agenda := rfl
@[simp] theorem State.setGang_cur (s : State) (t g : Nat) (G : Gang) : (s.setGang t g G).cur = s.cur := rfl
@[simp] theorem State.setGang_free (s : State) (t g : Nat) (G : Gang) : (s.setGang t g G).free = s.free := rfl
@[simp] theorem State.setGang_gen (s : State) (t g : Nat) (G : Gang) : (s.setGang t g G).gen = s.gen := rfl
@[simp] theorem State.setGang_stamp (s : State) (t g : Nat) (G : Gang) : (s.setGang t g G).stamp = s.stamp := rfl
@[simp] theorem State.setGang_nextId (s : State) (t g : Nat) (G : Gang) : (s.setGang t g G).nextId = s.nextId := rfl

/-! ### setBlock -/

@[simp] theorem State.setBlock_vaux (s : State) (t c : Nat) (B : Block) : (s.setBlock t c B).vaux = s.vaux := rfl
@[simp] theorem State.setBlock_vdram (s : State) (t c : Nat) (B : Block) : (s.setBlock t c B).vdram = s.vdram := rfl
@[simp] theorem State.setBlock_vcore (s : State) (t c : Nat) (B : Block) : (s.setBlock t c B).vcore = s.vcore := rfl
@[simp] theorem State.setBlock_vserdes (s : State) (t c : Nat) (B : Block) : (s.setBlock t c B).vserdes = s.vserdes := rfl
@[simp] theorem State.setBlock_vhost (s : State) (t c : Nat) (B : Block) : (s.setBlock t c B).vhost = s.vhost := rfl
@[simp] theorem State.setBlock_released (s : State) (t c : Nat) (B : Block) : (s.setBlock t c B).released = s.released := rfl
@[simp] theorem State.setBlock_thermtrip (s : State) (t c : Nat) (B : Block) : (s.setBlock t c B).thermtrip = s.thermtrip := rfl
@[simp] theorem State.setBlock_configFailed (s : State) (t c : Nat) (B : Block) : (s.setBlock t c B).configFailed = s.configFailed := rfl
@[simp] theorem State.setBlock_recovery (s : State) (t c : Nat) (B : Block) : (s.setBlock t c B).recovery = s.recovery := rfl
@[simp] theorem State.setBlock_cutOff (s : State) (t c : Nat) (B : Block) : (s.setBlock t c B).cutOff = s.cutOff := rfl
@[simp] theorem State.setBlock_flashImage (s : State) (t c : Nat) (B : Block) : (s.setBlock t c B).flashImage = s.flashImage := rfl
@[simp] theorem State.setBlock_flashConfig (s : State) (t c : Nat) (B : Block) : (s.setBlock t c B).flashConfig = s.flashConfig := rfl
@[simp] theorem State.setBlock_measured (s : State) (t c : Nat) (B : Block) : (s.setBlock t c B).measured = s.measured := rfl
@[simp] theorem State.setBlock_gnode (s : State) (t c : Nat) (B : Block) : (s.setBlock t c B).gnode = s.gnode := rfl
@[simp] theorem State.setBlock_parts (s : State) (t c : Nat) (B : Block) : (s.setBlock t c B).parts = s.parts := rfl
@[simp] theorem State.setBlock_dies (s : State) (t c : Nat) (B : Block) : (s.setBlock t c B).dies = s.dies := rfl
@[simp] theorem State.setBlock_boundaries (s : State) (t c : Nat) (B : Block) : (s.setBlock t c B).boundaries = s.boundaries := rfl
@[simp] theorem State.setBlock_ports (s : State) (t c : Nat) (B : Block) : (s.setBlock t c B).ports = s.ports := rfl
@[simp] theorem State.setBlock_vfs (s : State) (t c : Nat) (B : Block) : (s.setBlock t c B).vfs = s.vfs := rfl
@[simp] theorem State.setBlock_tiles (s : State) (t c : Nat) (B : Block) : (s.setBlock t c B).tiles = kset s.tiles t ((s.tile t).setBlock c B) := rfl
@[simp] theorem State.setBlock_grids (s : State) (t c : Nat) (B : Block) : (s.setBlock t c B).grids = s.grids := rfl
@[simp] theorem State.setBlock_fwtab (s : State) (t c : Nat) (B : Block) : (s.setBlock t c B).fwtab = s.fwtab := rfl
@[simp] theorem State.setBlock_closed (s : State) (t c : Nat) (B : Block) : (s.setBlock t c B).closed = s.closed := rfl
@[simp] theorem State.setBlock_tfence (s : State) (t c : Nat) (B : Block) : (s.setBlock t c B).tfence = s.tfence := rfl
@[simp] theorem State.setBlock_mem (s : State) (t c : Nat) (B : Block) : (s.setBlock t c B).mem = s.mem := rfl
@[simp] theorem State.setBlock_poison (s : State) (t c : Nat) (B : Block) : (s.setBlock t c B).poison = s.poison := rfl
@[simp] theorem State.setBlock_wire (s : State) (t c : Nat) (B : Block) : (s.setBlock t c B).wire = s.wire := rfl
@[simp] theorem State.setBlock_resps (s : State) (t c : Nat) (B : Block) : (s.setBlock t c B).resps = s.resps := rfl
@[simp] theorem State.setBlock_flowTx (s : State) (t c : Nat) (B : Block) : (s.setBlock t c B).flowTx = s.flowTx := rfl
@[simp] theorem State.setBlock_flowRx (s : State) (t c : Nat) (B : Block) : (s.setBlock t c B).flowRx = s.flowRx := rfl
@[simp] theorem State.setBlock_lastReq (s : State) (t c : Nat) (B : Block) : (s.setBlock t c B).lastReq = s.lastReq := rfl
@[simp] theorem State.setBlock_unseen (s : State) (t c : Nat) (B : Block) : (s.setBlock t c B).unseen = s.unseen := rfl
@[simp] theorem State.setBlock_signals (s : State) (t c : Nat) (B : Block) : (s.setBlock t c B).signals = s.signals := rfl
@[simp] theorem State.setBlock_outs (s : State) (t c : Nat) (B : Block) : (s.setBlock t c B).outs = s.outs := rfl
@[simp] theorem State.setBlock_outbox (s : State) (t c : Nat) (B : Block) : (s.setBlock t c B).outbox = s.outbox := rfl
@[simp] theorem State.setBlock_arrivals (s : State) (t c : Nat) (B : Block) : (s.setBlock t c B).arrivals = s.arrivals := rfl
@[simp] theorem State.setBlock_reduces (s : State) (t c : Nat) (B : Block) : (s.setBlock t c B).reduces = s.reduces := rfl
@[simp] theorem State.setBlock_reduceVia (s : State) (t c : Nat) (B : Block) : (s.setBlock t c B).reduceVia = s.reduceVia := rfl
@[simp] theorem State.setBlock_locals (s : State) (t c : Nat) (B : Block) : (s.setBlock t c B).locals = s.locals := rfl
@[simp] theorem State.setBlock_agenda (s : State) (t c : Nat) (B : Block) : (s.setBlock t c B).agenda = s.agenda := rfl
@[simp] theorem State.setBlock_cur (s : State) (t c : Nat) (B : Block) : (s.setBlock t c B).cur = s.cur := rfl
@[simp] theorem State.setBlock_free (s : State) (t c : Nat) (B : Block) : (s.setBlock t c B).free = s.free := rfl
@[simp] theorem State.setBlock_gen (s : State) (t c : Nat) (B : Block) : (s.setBlock t c B).gen = s.gen := rfl
@[simp] theorem State.setBlock_stamp (s : State) (t c : Nat) (B : Block) : (s.setBlock t c B).stamp = s.stamp := rfl
@[simp] theorem State.setBlock_nextId (s : State) (t c : Nat) (B : Block) : (s.setBlock t c B).nextId = s.nextId := rfl

/-! ### Reading a part after an update -/

@[simp] theorem State.tile_setDie (s : State) (j : Nat) (k : Nat) (D : Die) : (s.setDie k D).tile j = s.tile j := rfl
@[simp] theorem State.tile_setPort (s : State) (j : Nat) (k : Nat) (P : Port) : (s.setPort k P).tile j = s.tile j := rfl
@[simp] theorem State.tile_setBoundary (s : State) (j : Nat) (k : Nat) (P : Port) : (s.setBoundary k P).tile j = s.tile j := rfl
@[simp] theorem State.tile_setVf (s : State) (j : Nat) (k : Nat) (V : Vf) : (s.setVf k V).tile j = s.tile j := rfl
@[simp] theorem State.tile_setPart (s : State) (j : Nat) (k : Nat) (P : Part) : (s.setPart k P).tile j = s.tile j := rfl
@[simp] theorem State.tile_setGrid (s : State) (j : Nat) (k : Nat) (G : Grid) : (s.setGrid k G).tile j = s.tile j := rfl
@[simp] theorem State.tile_putBytes (s : State) (j : Nat) (pa : Nat) (bs : List Byte) : (s.putBytes pa bs).tile j = s.tile j := rfl
@[simp] theorem State.tile_setTile_same (s : State) (k : Nat) (X : Tile) : (s.setTile k X).tile k = X := by
  simp [State.tile, State.setTile, kgetD]
theorem State.tile_setTile_ne (s : State) (j k : Nat) (X : Tile) (h : j ≠ k) : (s.setTile k X).tile j = s.tile j := by
  simp [State.tile, State.setTile, kgetD, kget_kset_ne _ _ h]
@[simp] theorem State.die_setTile (s : State) (j : Nat) (k : Nat) (T : Tile) : (s.setTile k T).die j = s.die j := rfl
@[simp] theorem State.die_setPort (s : State) (j : Nat) (k : Nat) (P : Port) : (s.setPort k P).die j = s.die j := rfl
@[simp] theorem State.die_setBoundary (s : State) (j : Nat) (k : Nat) (P : Port) : (s.setBoundary k P).die j = s.die j := rfl
@[simp] theorem State.die_setVf (s : State) (j : Nat) (k : Nat) (V : Vf) : (s.setVf k V).die j = s.die j := rfl
@[simp] theorem State.die_setPart (s : State) (j : Nat) (k : Nat) (P : Part) : (s.setPart k P).die j = s.die j := rfl
@[simp] theorem State.die_setGrid (s : State) (j : Nat) (k : Nat) (G : Grid) : (s.setGrid k G).die j = s.die j := rfl
@[simp] theorem State.die_putBytes (s : State) (j : Nat) (pa : Nat) (bs : List Byte) : (s.putBytes pa bs).die j = s.die j := rfl
@[simp] theorem State.die_setSub (s : State) (j : Nat) (t u : Nat) (U : Sub) : (s.setSub t u U).die j = s.die j := rfl
@[simp] theorem State.die_setGang (s : State) (j : Nat) (t g : Nat) (G : Gang) : (s.setGang t g G).die j = s.die j := rfl
@[simp] theorem State.die_setBlock (s : State) (j : Nat) (t c : Nat) (B : Block) : (s.setBlock t c B).die j = s.die j := rfl
@[simp] theorem State.die_setDie_same (s : State) (k : Nat) (X : Die) : (s.setDie k X).die k = X := by
  simp [State.die, State.setDie, kgetD]
theorem State.die_setDie_ne (s : State) (j k : Nat) (X : Die) (h : j ≠ k) : (s.setDie k X).die j = s.die j := by
  simp [State.die, State.setDie, kgetD, kget_kset_ne _ _ h]
@[simp] theorem State.port_setTile (s : State) (j : Nat) (k : Nat) (T : Tile) : (s.setTile k T).port j = s.port j := rfl
@[simp] theorem State.port_setDie (s : State) (j : Nat) (k : Nat) (D : Die) : (s.setDie k D).port j = s.port j := rfl
@[simp] theorem State.port_setBoundary (s : State) (j : Nat) (k : Nat) (P : Port) : (s.setBoundary k P).port j = s.port j := rfl
@[simp] theorem State.port_setVf (s : State) (j : Nat) (k : Nat) (V : Vf) : (s.setVf k V).port j = s.port j := rfl
@[simp] theorem State.port_setPart (s : State) (j : Nat) (k : Nat) (P : Part) : (s.setPart k P).port j = s.port j := rfl
@[simp] theorem State.port_setGrid (s : State) (j : Nat) (k : Nat) (G : Grid) : (s.setGrid k G).port j = s.port j := rfl
@[simp] theorem State.port_putBytes (s : State) (j : Nat) (pa : Nat) (bs : List Byte) : (s.putBytes pa bs).port j = s.port j := rfl
@[simp] theorem State.port_setSub (s : State) (j : Nat) (t u : Nat) (U : Sub) : (s.setSub t u U).port j = s.port j := rfl
@[simp] theorem State.port_setGang (s : State) (j : Nat) (t g : Nat) (G : Gang) : (s.setGang t g G).port j = s.port j := rfl
@[simp] theorem State.port_setBlock (s : State) (j : Nat) (t c : Nat) (B : Block) : (s.setBlock t c B).port j = s.port j := rfl
@[simp] theorem State.port_setPort_same (s : State) (k : Nat) (X : Port) : (s.setPort k X).port k = X := by
  simp [State.port, State.setPort, kgetD]
theorem State.port_setPort_ne (s : State) (j k : Nat) (X : Port) (h : j ≠ k) : (s.setPort k X).port j = s.port j := by
  simp [State.port, State.setPort, kgetD, kget_kset_ne _ _ h]
@[simp] theorem State.boundary_setTile (s : State) (j : Nat) (k : Nat) (T : Tile) : (s.setTile k T).boundary j = s.boundary j := rfl
@[simp] theorem State.boundary_setDie (s : State) (j : Nat) (k : Nat) (D : Die) : (s.setDie k D).boundary j = s.boundary j := rfl
@[simp] theorem State.boundary_setPort (s : State) (j : Nat) (k : Nat) (P : Port) : (s.setPort k P).boundary j = s.boundary j := rfl
@[simp] theorem State.boundary_setVf (s : State) (j : Nat) (k : Nat) (V : Vf) : (s.setVf k V).boundary j = s.boundary j := rfl
@[simp] theorem State.boundary_setPart (s : State) (j : Nat) (k : Nat) (P : Part) : (s.setPart k P).boundary j = s.boundary j := rfl
@[simp] theorem State.boundary_setGrid (s : State) (j : Nat) (k : Nat) (G : Grid) : (s.setGrid k G).boundary j = s.boundary j := rfl
@[simp] theorem State.boundary_putBytes (s : State) (j : Nat) (pa : Nat) (bs : List Byte) : (s.putBytes pa bs).boundary j = s.boundary j := rfl
@[simp] theorem State.boundary_setSub (s : State) (j : Nat) (t u : Nat) (U : Sub) : (s.setSub t u U).boundary j = s.boundary j := rfl
@[simp] theorem State.boundary_setGang (s : State) (j : Nat) (t g : Nat) (G : Gang) : (s.setGang t g G).boundary j = s.boundary j := rfl
@[simp] theorem State.boundary_setBlock (s : State) (j : Nat) (t c : Nat) (B : Block) : (s.setBlock t c B).boundary j = s.boundary j := rfl
@[simp] theorem State.boundary_setBoundary_same (s : State) (k : Nat) (X : Port) : (s.setBoundary k X).boundary k = X := by
  simp [State.boundary, State.setBoundary, kgetD]
theorem State.boundary_setBoundary_ne (s : State) (j k : Nat) (X : Port) (h : j ≠ k) : (s.setBoundary k X).boundary j = s.boundary j := by
  simp [State.boundary, State.setBoundary, kgetD, kget_kset_ne _ _ h]
@[simp] theorem State.vf_setTile (s : State) (j : Nat) (k : Nat) (T : Tile) : (s.setTile k T).vf j = s.vf j := rfl
@[simp] theorem State.vf_setDie (s : State) (j : Nat) (k : Nat) (D : Die) : (s.setDie k D).vf j = s.vf j := rfl
@[simp] theorem State.vf_setPort (s : State) (j : Nat) (k : Nat) (P : Port) : (s.setPort k P).vf j = s.vf j := rfl
@[simp] theorem State.vf_setBoundary (s : State) (j : Nat) (k : Nat) (P : Port) : (s.setBoundary k P).vf j = s.vf j := rfl
@[simp] theorem State.vf_setPart (s : State) (j : Nat) (k : Nat) (P : Part) : (s.setPart k P).vf j = s.vf j := rfl
@[simp] theorem State.vf_setGrid (s : State) (j : Nat) (k : Nat) (G : Grid) : (s.setGrid k G).vf j = s.vf j := rfl
@[simp] theorem State.vf_putBytes (s : State) (j : Nat) (pa : Nat) (bs : List Byte) : (s.putBytes pa bs).vf j = s.vf j := rfl
@[simp] theorem State.vf_setSub (s : State) (j : Nat) (t u : Nat) (U : Sub) : (s.setSub t u U).vf j = s.vf j := rfl
@[simp] theorem State.vf_setGang (s : State) (j : Nat) (t g : Nat) (G : Gang) : (s.setGang t g G).vf j = s.vf j := rfl
@[simp] theorem State.vf_setBlock (s : State) (j : Nat) (t c : Nat) (B : Block) : (s.setBlock t c B).vf j = s.vf j := rfl
@[simp] theorem State.vf_setVf_same (s : State) (k : Nat) (X : Vf) : (s.setVf k X).vf k = X := by
  simp [State.vf, State.setVf, kgetD]
theorem State.vf_setVf_ne (s : State) (j k : Nat) (X : Vf) (h : j ≠ k) : (s.setVf k X).vf j = s.vf j := by
  simp [State.vf, State.setVf, kgetD, kget_kset_ne _ _ h]
@[simp] theorem State.part_setTile (s : State) (j : Nat) (k : Nat) (T : Tile) : (s.setTile k T).part j = s.part j := rfl
@[simp] theorem State.part_setDie (s : State) (j : Nat) (k : Nat) (D : Die) : (s.setDie k D).part j = s.part j := rfl
@[simp] theorem State.part_setPort (s : State) (j : Nat) (k : Nat) (P : Port) : (s.setPort k P).part j = s.part j := rfl
@[simp] theorem State.part_setBoundary (s : State) (j : Nat) (k : Nat) (P : Port) : (s.setBoundary k P).part j = s.part j := rfl
@[simp] theorem State.part_setVf (s : State) (j : Nat) (k : Nat) (V : Vf) : (s.setVf k V).part j = s.part j := rfl
@[simp] theorem State.part_setGrid (s : State) (j : Nat) (k : Nat) (G : Grid) : (s.setGrid k G).part j = s.part j := rfl
@[simp] theorem State.part_putBytes (s : State) (j : Nat) (pa : Nat) (bs : List Byte) : (s.putBytes pa bs).part j = s.part j := rfl
@[simp] theorem State.part_setSub (s : State) (j : Nat) (t u : Nat) (U : Sub) : (s.setSub t u U).part j = s.part j := rfl
@[simp] theorem State.part_setGang (s : State) (j : Nat) (t g : Nat) (G : Gang) : (s.setGang t g G).part j = s.part j := rfl
@[simp] theorem State.part_setBlock (s : State) (j : Nat) (t c : Nat) (B : Block) : (s.setBlock t c B).part j = s.part j := rfl
@[simp] theorem State.part_setPart_same (s : State) (k : Nat) (X : Part) : (s.setPart k X).part k = some X := by
  simp [State.part, State.setPart]
theorem State.part_setPart_ne (s : State) (j k : Nat) (X : Part) (h : j ≠ k) : (s.setPart k X).part j = s.part j := by
  simp [State.part, State.setPart, kget_kset_ne _ _ h]
@[simp] theorem State.tile_setSub_same (s : State) (t : Nat) (u : Nat) (U : Sub) : (s.setSub t u U).tile t = (s.tile t).setSub u U := by
  simp [State.setSub]
theorem State.tile_setSub_ne (s : State) (j t : Nat) (u : Nat) (U : Sub) (h : j ≠ t) : (s.setSub t u U).tile j = s.tile j := by
  simp [State.setSub, State.tile_setTile_ne _ _ _ _ h]
@[simp] theorem Tile.setSub_subs (T : Tile) (u : Nat) (U : Sub) : (T.setSub u U).subs = kset T.subs u U := rfl
@[simp] theorem Tile.setSub_gangs (T : Tile) (u : Nat) (U : Sub) : (T.setSub u U).gangs = T.gangs := rfl
@[simp] theorem Tile.setSub_blocks (T : Tile) (u : Nat) (U : Sub) : (T.setSub u U).blocks = T.blocks := rfl
@[simp] theorem Tile.setSub_mode (T : Tile) (u : Nat) (U : Sub) : (T.setSub u U).mode = T.mode := rfl
@[simp] theorem Tile.setSub_vf (T : Tile) (u : Nat) (U : Sub) : (T.setSub u U).vf = T.vf := rfl
@[simp] theorem Tile.setSub_world (T : Tile) (u : Nat) (U : Sub) : (T.setSub u U).world = T.world := rfl
@[simp] theorem Tile.setSub_conts (T : Tile) (u : Nat) (U : Sub) : (T.setSub u U).conts = T.conts := rfl
@[simp] theorem Tile.setSub_bins (T : Tile) (u : Nat) (U : Sub) : (T.setSub u U).bins = T.bins := rfl
@[simp] theorem Tile.setSub_acc (T : Tile) (u : Nat) (U : Sub) : (T.setSub u U).acc = T.acc := rfl
@[simp] theorem Tile.setSub_l1 (T : Tile) (u : Nat) (U : Sub) : (T.setSub u U).l1 = T.l1 := rfl
@[simp] theorem Tile.setSub_icache (T : Tile) (u : Nat) (U : Sub) : (T.setSub u U).icache = T.icache := rfl
@[simp] theorem Tile.setSub_tlb (T : Tile) (u : Nat) (U : Sub) : (T.setSub u U).tlb = T.tlb := rfl
@[simp] theorem Tile.setSub_ranks (T : Tile) (u : Nat) (U : Sub) : (T.setSub u U).ranks = T.ranks := rfl
@[simp] theorem Tile.setSub_copyQ (T : Tile) (u : Nat) (U : Sub) : (T.setSub u U).copyQ = T.copyQ := rfl
@[simp] theorem Tile.setSub_arrayQ (T : Tile) (u : Nat) (U : Sub) : (T.setSub u U).arrayQ = T.arrayQ := rfl
@[simp] theorem Tile.setSub_bpc (T : Tile) (u : Nat) (U : Sub) : (T.setSub u U).bpc = T.bpc := rfl
@[simp] theorem State.tile_setGang_same (s : State) (t : Nat) (u : Nat) (U : Gang) : (s.setGang t u U).tile t = (s.tile t).setGang u U := by
  simp [State.setGang]
theorem State.tile_setGang_ne (s : State) (j t : Nat) (u : Nat) (U : Gang) (h : j ≠ t) : (s.setGang t u U).tile j = s.tile j := by
  simp [State.setGang, State.tile_setTile_ne _ _ _ _ h]
@[simp] theorem Tile.setGang_subs (T : Tile) (u : Nat) (U : Gang) : (T.setGang u U).subs = T.subs := rfl
@[simp] theorem Tile.setGang_gangs (T : Tile) (u : Nat) (U : Gang) : (T.setGang u U).gangs = kset T.gangs u U := rfl
@[simp] theorem Tile.setGang_blocks (T : Tile) (u : Nat) (U : Gang) : (T.setGang u U).blocks = T.blocks := rfl
@[simp] theorem Tile.setGang_mode (T : Tile) (u : Nat) (U : Gang) : (T.setGang u U).mode = T.mode := rfl
@[simp] theorem Tile.setGang_vf (T : Tile) (u : Nat) (U : Gang) : (T.setGang u U).vf = T.vf := rfl
@[simp] theorem Tile.setGang_world (T : Tile) (u : Nat) (U : Gang) : (T.setGang u U).world = T.world := rfl
@[simp] theorem Tile.setGang_conts (T : Tile) (u : Nat) (U : Gang) : (T.setGang u U).conts = T.conts := rfl
@[simp] theorem Tile.setGang_bins (T : Tile) (u : Nat) (U : Gang) : (T.setGang u U).bins = T.bins := rfl
@[simp] theorem Tile.setGang_acc (T : Tile) (u : Nat) (U : Gang) : (T.setGang u U).acc = T.acc := rfl
@[simp] theorem Tile.setGang_l1 (T : Tile) (u : Nat) (U : Gang) : (T.setGang u U).l1 = T.l1 := rfl
@[simp] theorem Tile.setGang_icache (T : Tile) (u : Nat) (U : Gang) : (T.setGang u U).icache = T.icache := rfl
@[simp] theorem Tile.setGang_tlb (T : Tile) (u : Nat) (U : Gang) : (T.setGang u U).tlb = T.tlb := rfl
@[simp] theorem Tile.setGang_ranks (T : Tile) (u : Nat) (U : Gang) : (T.setGang u U).ranks = T.ranks := rfl
@[simp] theorem Tile.setGang_copyQ (T : Tile) (u : Nat) (U : Gang) : (T.setGang u U).copyQ = T.copyQ := rfl
@[simp] theorem Tile.setGang_arrayQ (T : Tile) (u : Nat) (U : Gang) : (T.setGang u U).arrayQ = T.arrayQ := rfl
@[simp] theorem Tile.setGang_bpc (T : Tile) (u : Nat) (U : Gang) : (T.setGang u U).bpc = T.bpc := rfl
@[simp] theorem State.tile_setBlock_same (s : State) (t : Nat) (u : Nat) (U : Block) : (s.setBlock t u U).tile t = (s.tile t).setBlock u U := by
  simp [State.setBlock]
theorem State.tile_setBlock_ne (s : State) (j t : Nat) (u : Nat) (U : Block) (h : j ≠ t) : (s.setBlock t u U).tile j = s.tile j := by
  simp [State.setBlock, State.tile_setTile_ne _ _ _ _ h]
@[simp] theorem Tile.setBlock_subs (T : Tile) (u : Nat) (U : Block) : (T.setBlock u U).subs = T.subs := rfl
@[simp] theorem Tile.setBlock_gangs (T : Tile) (u : Nat) (U : Block) : (T.setBlock u U).gangs = T.gangs := rfl
@[simp] theorem Tile.setBlock_blocks (T : Tile) (u : Nat) (U : Block) : (T.setBlock u U).blocks = kset T.blocks u U := rfl
@[simp] theorem Tile.setBlock_mode (T : Tile) (u : Nat) (U : Block) : (T.setBlock u U).mode = T.mode := rfl
@[simp] theorem Tile.setBlock_vf (T : Tile) (u : Nat) (U : Block) : (T.setBlock u U).vf = T.vf := rfl
@[simp] theorem Tile.setBlock_world (T : Tile) (u : Nat) (U : Block) : (T.setBlock u U).world = T.world := rfl
@[simp] theorem Tile.setBlock_conts (T : Tile) (u : Nat) (U : Block) : (T.setBlock u U).conts = T.conts := rfl
@[simp] theorem Tile.setBlock_bins (T : Tile) (u : Nat) (U : Block) : (T.setBlock u U).bins = T.bins := rfl
@[simp] theorem Tile.setBlock_acc (T : Tile) (u : Nat) (U : Block) : (T.setBlock u U).acc = T.acc := rfl
@[simp] theorem Tile.setBlock_l1 (T : Tile) (u : Nat) (U : Block) : (T.setBlock u U).l1 = T.l1 := rfl
@[simp] theorem Tile.setBlock_icache (T : Tile) (u : Nat) (U : Block) : (T.setBlock u U).icache = T.icache := rfl
@[simp] theorem Tile.setBlock_tlb (T : Tile) (u : Nat) (U : Block) : (T.setBlock u U).tlb = T.tlb := rfl
@[simp] theorem Tile.setBlock_ranks (T : Tile) (u : Nat) (U : Block) : (T.setBlock u U).ranks = T.ranks := rfl
@[simp] theorem Tile.setBlock_copyQ (T : Tile) (u : Nat) (U : Block) : (T.setBlock u U).copyQ = T.copyQ := rfl
@[simp] theorem Tile.setBlock_arrayQ (T : Tile) (u : Nat) (U : Block) : (T.setBlock u U).arrayQ = T.arrayQ := rfl
@[simp] theorem Tile.setBlock_bpc (T : Tile) (u : Nat) (U : Block) : (T.setBlock u U).bpc = T.bpc := rfl

end Sys2Proof.Machine
end

