-- ==== Sys2Proof/Laws/Memory.lean ====
section
/-!
SUPPORT. Bytes of memory: reading back after a write, and the canonical form that every write keeps.
-/
namespace Sys2Proof.Machine

/-! ### Reading back -/

theorem cellGet_kset (m : List Host.Cell) (a b : Nat) (v : Byte) : cellGet (kset m a v) b = if b = a then v else cellGet m b := by
  simp only [cellGet, kgetD, kget_kset]
  split <;> rfl

theorem cellGet_kdel (m : List Host.Cell) (a b : Nat) : cellGet (kdel m a) b = if b = a then memFill else cellGet m b := by
  by_cases h : b = a
  · subst h; simp [cellGet, kgetD]
  · simp only [cellGet, kgetD, kget_kdel_ne m h, h, if_false]

theorem cellGet_cellSet (m : List Host.Cell) (a b : Nat) (v : Byte) : cellGet (cellSet m a v) b = if b = a then v else cellGet m b := by
  unfold cellSet
  split
  · next h => rw [cellGet_kdel, h]
  · exact cellGet_kset m a b v

/-- A byte after a write of several: the byte written there, or the one before. -/
theorem cellGet_cellsSet (m : List Host.Cell) (a : Nat) (bs : List Byte) (b : Nat) :
    cellGet (cellsSet m a bs) b = if a ≤ b ∧ b < a + bs.length then bs.getD (b - a) 0 else cellGet m b := by
  induction bs generalizing m a with
  | nil => simp only [cellsSet, List.length_nil]; rw [if_neg (by omega)]
  | cons v bs ih =>
    simp only [cellsSet, ih, cellGet_cellSet, List.length_cons]
    by_cases h : b = a
    · subst h
      rw [if_neg (by omega), if_pos rfl, if_pos (by omega)]
      simp
    · by_cases k : a + 1 ≤ b ∧ b < a + 1 + bs.length
      · rw [if_pos k, if_pos (by omega), show b - a = (b - (a + 1)) + 1 by omega]
        simp
      · rw [if_neg k, if_neg h, if_neg (by omega)]

theorem State.byte_putBytes (s : State) (pa : Nat) (bs : List Byte) (b : Nat) :
    cellGet (s.putBytes pa bs).mem b = if pa ≤ b ∧ b < pa + bs.length then bs.getD (b - pa) 0 else cellGet s.mem b :=
  cellGet_cellsSet s.mem pa bs b

theorem State.bytes_length (s : State) (pa n : Nat) : (s.bytes pa n).length = n := by simp [State.bytes]

/-- Bytes read where they have just been written. -/
theorem State.bytes_putBytes (s : State) (pa : Nat) (bs : List Byte) : (s.putBytes pa bs).bytes pa bs.length = bs := by
  apply List.ext_getElem
  · simp [State.bytes]
  · intro k h1 h2
    simp only [State.bytes, List.getElem_map, List.getElem_range, State.byte_putBytes]
    rw [if_pos (by omega)]
    simp [h2]

/-- Bytes read apart from where others have been written. -/
theorem State.bytes_putBytes_apart (s : State) (pa : Nat) (bs : List Byte) (q n : Nat) (h : q + n ≤ pa ∨ pa + bs.length ≤ q) :
    (s.putBytes pa bs).bytes q n = s.bytes q n := by
  simp only [State.bytes]
  apply List.map_congr_left
  intro k hk
  rw [List.mem_range] at hk
  rw [State.byte_putBytes, if_neg (by omega)]

theorem natLe_length (n x : Nat) : (natLe n x).length = n := by
  induction n generalizing x with
  | zero => rfl
  | succ n ih => simp [natLe, ih]

theorem leNat_lt (bs : List Byte) : leNat bs < 256 ^ bs.length := by
  induction bs with
  | nil => simp [leNat]
  | cons b bs ih =>
    simp only [leNat, List.length_cons, Nat.pow_succ]
    have := b.isLt
    omega

theorem leNat_natLe (n x : Nat) : leNat (natLe n x) = x % 256 ^ n := by
  induction n generalizing x with
  | zero => simp [natLe, leNat, Nat.mod_one]
  | succ n ih =>
    simp only [natLe, leNat, ih, BitVec.toNat_ofNat]
    have e : x % 256 ^ (n + 1) = x % 256 + 256 * (x / 256 % 256 ^ n) := by
      rw [show 256 ^ (n + 1) = 256 * 256 ^ n by rw [Nat.pow_succ, Nat.mul_comm], Nat.mod_mul]
    omega

/-- Byte k of the little-endian bytes of a number. -/
theorem natLe_getD (n x k : Nat) (h : k < n) : (natLe n x).getD k 0 = BitVec.ofNat 8 (x / 256 ^ k) := by
  induction n generalizing x k with
  | zero => omega
  | succ n ih =>
    cases k with
    | zero => simp [natLe]
    | succ k =>
      have := ih (x / 256) k (by omega)
      simp only [natLe, List.getD_cons_succ, this, Nat.pow_succ, Nat.div_div_eq_div_mul]
      rw [Nat.mul_comm]

/-! ### The canonical form -/

/-- The canonical form, as a property of the pairs. -/
theorem cellsWf_iff (m : List Host.Cell) :
    Memory.wf m ↔ m.Pairwise (fun x y => x.1 < y.1) ∧ ∀ x ∈ m, x.2 ≠ memFill := by
  induction m with
  | nil => simp [Memory.wf, cellsWf]
  | cons x m ih =>
    obtain ⟨a, v⟩ := x
    cases m with
    | nil => simp [Memory.wf, cellsWf]
    | cons y m =>
      obtain ⟨b, w⟩ := y
      simp only [Memory.wf] at ih
      simp only [Memory.wf, cellsWf, Bool.and_eq_true, decide_eq_true_eq, bne_iff_ne, ih, List.pairwise_cons, List.mem_cons]
      constructor
      · rintro ⟨⟨h1, h2⟩, ⟨h3, h4⟩, h5⟩
        refine ⟨⟨?_, h3, h4⟩, ?_⟩
        · rintro z (rfl | hz)
          · exact h1
          · exact Nat.lt_trans h1 (h3 z hz)
        · rintro z (rfl | hz)
          · exact h2
          · exact h5 z hz
      · rintro ⟨⟨h1, h3, h4⟩, h5⟩
        exact ⟨⟨h1 (b, w) (by simp), h5 (a, v) (by simp)⟩, ⟨h3, h4⟩, fun z hz => h5 z (by simp [hz])⟩

theorem kset_mem {α : Type} {m : KMap α} {k : Nat} {v : α} {x : Nat × α} (h : x ∈ kset m k v) : x = (k, v) ∨ x ∈ m := by
  induction m with
  | nil => simpa [kset] using h
  | cons p m ih =>
    obtain ⟨j, w⟩ := p
    simp only [kset] at h
    split at h
    · rcases List.mem_cons.mp h with h | h
      · exact .inl h
      · exact .inr (by simp [h])
    · split at h
      · rcases List.mem_cons.mp h with h | h
        · exact .inl h
        · exact .inr h
      · rcases List.mem_cons.mp h with h | h
        · exact .inr (by simp [h])
        · rcases ih h with h | h
          · exact .inl h
          · exact .inr (by simp [h])

theorem kset_pairwise {α : Type} {m : KMap α} (k : Nat) (v : α) (h : m.Pairwise fun x y => x.1 < y.1) :
    (kset m k v).Pairwise fun x y => x.1 < y.1 := by
  induction m with
  | nil => simp [kset]
  | cons p m ih =>
    obtain ⟨j, w⟩ := p
    rw [List.pairwise_cons] at h
    simp only [kset]
    split
    · next e => subst e; exact List.pairwise_cons.mpr h
    · split
      · next l =>
        refine List.pairwise_cons.mpr ⟨?_, List.pairwise_cons.mpr h⟩
        intro z hz
        rcases List.mem_cons.mp hz with rfl | hz
        · exact l
        · exact Nat.lt_trans l (h.1 z hz)
      · next n l =>
        refine List.pairwise_cons.mpr ⟨?_, ih h.2⟩
        intro z hz
        rcases kset_mem hz with rfl | hz
        · exact Nat.lt_of_le_of_ne (Nat.le_of_not_lt l) n
        · exact h.1 z hz

theorem kdel_sublist {α : Type} (m : KMap α) (k : Nat) : List.Sublist (kdel m k) m := by
  induction m with
  | nil => exact .slnil
  | cons p m ih =>
    obtain ⟨j, w⟩ := p
    simp only [kdel]
    split
    · exact ih.cons _
    · exact ih.cons_cons _

/-- A written byte keeps the canonical form. -/
theorem cellSet_wf {m : List Host.Cell} (a : Nat) (v : Byte) (h : Memory.wf m) : Memory.wf (cellSet m a v) := by
  rw [cellsWf_iff] at h ⊢
  unfold cellSet
  split
  · exact ⟨h.1.sublist (kdel_sublist m a), fun x hx => h.2 x ((kdel_sublist m a).subset hx)⟩
  · next n =>
    refine ⟨kset_pairwise a v h.1, fun x hx => ?_⟩
    rcases kset_mem hx with rfl | hx
    · exact n
    · exact h.2 x hx

theorem cellsSet_wf {m : List Host.Cell} (a : Nat) (bs : List Byte) (h : Memory.wf m) : Memory.wf (cellsSet m a bs) := by
  induction bs generalizing m a with
  | nil => exact h
  | cons v bs ih => exact ih (a + 1) (cellSet_wf a v h)

/-- Cells left out keep the canonical form. -/
theorem filter_wf {m : List Host.Cell} (p : Host.Cell → Bool) (h : Memory.wf m) : Memory.wf (m.filter p) := by
  rw [cellsWf_iff] at h ⊢
  exact ⟨h.1.sublist List.filter_sublist, fun x hx => h.2 x ((List.mem_filter.mp hx).1)⟩

theorem State.putBytes_wf {s : State} (pa : Nat) (bs : List Byte) (h : Memory.wf s.mem) : Memory.wf (s.putBytes pa bs).mem :=
  cellsSet_wf pa bs h

end Sys2Proof.Machine
end

