-- ==== Sys2Proof/Laws/KeepBase.lean ====
section
/-! SUPPORT. What the shared operations do to memory: `_mem` says that one leaves memory as it was, `_wf` that one keeps its canonical form (`cellsWf`). -/
set_option linter.unusedSimpArgs false
set_option linter.unusedVariables false
namespace Sys2Proof.Machine
theorem foldl_keep {α β γ : Type} (f : β → α → β) (g : β → γ) (h : ∀ b a, g (f b a) = g b) (l : List α) (b : β) :
    g (l.foldl f b) = g b := by
  induction l generalizing b with
  | nil => rfl
  | cons a l ih => rw [List.foldl_cons, ih, h]

theorem foldl_inv {α β : Type} {f : β → α → β} (P : β → Prop) {b : β} (w : P b) (h : ∀ b a, P b → P (f b a)) (l : List α) :
    P (l.foldl f b) := by
  induction l generalizing b with
  | nil => exact w
  | cons a l ih => exact ih (h b a w)

@[simp] theorem State.putBytes_cells {s : State} (pa : Nat) (bs : List Byte) (h : cellsWf s.mem = true) : cellsWf (cellsSet s.mem pa bs) = true :=
  cellsSet_wf pa bs h

theorem foldl_memS {α : Type} {f : State → α → State} {l : List α} {b : State} (h : ∀ (b : State) a, (f b a).mem = b.mem) :
    (l.foldl f b).mem = b.mem := foldl_keep f State.mem h l b
theorem foldl_memP {α β : Type} {f : State × β → α → State × β} {l : List α} {b : State × β} (h : ∀ (b : State × β) a, (f b a).1.mem = b.1.mem) :
    (l.foldl f b).1.mem = b.1.mem := foldl_keep f (State.mem ∘ Prod.fst) h l b
theorem foldl_wfS {α : Type} {f : State → α → State} {l : List α} {b : State} (w : cellsWf b.mem = true)
    (h : ∀ (b : State) a, cellsWf b.mem = true → cellsWf (f b a).mem = true) : cellsWf (l.foldl f b).mem = true :=
  foldl_inv (fun x : State => cellsWf x.mem = true) w h l
theorem foldl_wfP {α β : Type} {f : State × β → α → State × β} {l : List α} {b : State × β} (w : cellsWf b.1.mem = true)
    (h : ∀ (b : State × β) a, cellsWf b.1.mem = true → cellsWf (f b a).1.mem = true) : cellsWf (l.foldl f b).1.mem = true :=
  foldl_inv (fun x : State × β => cellsWf x.1.mem = true) w h l

theorem mem_of_pair {β : Type} {p : State × β} {s : State} {b : β} (e : p = (s, b)) : s.mem = p.1.mem := by rw [e]

theorem wf_of_pair {β : Type} {p : State × β} {s : State} {b : β} (e : p = (s, b)) (w : cellsWf p.1.mem = true) :
    cellsWf s.mem = true := by rw [e] at w; exact w

@[simp] theorem State.seed_mem (s : State) :
    (State.seed s).2.mem = s.mem := rfl

@[simp] theorem State.fresh_mem (s : State) :
    (State.fresh s).2.mem = s.mem := rfl

theorem withIssuer_wf {s : State} {f : Issuer → Out1} (h : ∀ I z, f I = .next z → cellsWf z.mem = true) {z}
    (e : withIssuer s f = .next z) : cellsWf z.mem = true := by
  unfold withIssuer at e; split at e
  · exact h _ _ e
  · cases e

theorem retire_wf {s : State} {I : Issuer} {k : RunKind} {U : Sub} (hw : cellsWf s.mem = true) {ρ} (he : retire s I k U = .next ρ) :
    cellsWf ρ.mem = true := by
  unfold retire at he; cases he; exact hw

theorem wait_wf {s : State} {I : Issuer} (hw : cellsWf s.mem = true) {ρ} (he : wait s I = .next ρ) :
    cellsWf ρ.mem = true := by
  unfold wait at he; (repeat' split at he) <;> first | (cases he; exact hw)

@[simp] theorem State.countErr_mem (s : State) (d : Nat) (f : ErrField) :
    (State.countErr s d f).mem = s.mem := rfl

@[simp] theorem State.mapBlock_mem (s : State) (uid : Nat) (f : Block → Block) :
    (State.mapBlock s uid f).mem = s.mem := by
  unfold State.mapBlock; split <;> rfl

@[simp] theorem State.fillTlb_mem (s : State) (t : Nat) (e : TlbEntry) :
    (State.fillTlb s t e).mem = s.mem := by
  unfold State.fillTlb; dsimp only; (repeat' split) <;> rfl

@[simp] theorem State.dropTlbs_mem (s : State) (f : TlbEntry → Bool) :
    (State.dropTlbs s f).mem = s.mem := rfl

@[simp] theorem State.enterRun_mem (s : State) (t run : Nat) (c : Cont) : (State.enterRun s t run c).1.mem = s.mem := rfl

@[simp] theorem State.moveRun_mem (s : State) (t t' run : Nat) (c : Cont) : (State.moveRun s t t' run c).mem = s.mem := by
  unfold State.moveRun
  dsimp only
  split
  · split
    · rename_i e
      have q := (mem_of_pair e).trans (State.enterRun_mem _ _ _ _)
      split <;> exact q
    · rfl
  · rfl

@[simp] theorem State.admitRun_mem (s : State) (t run : Nat) : (State.admitRun s t run).mem = s.mem := by
  unfold State.admitRun
  dsimp only
  split
  · rfl
  · split
    · rfl
    · split <;> simp

@[simp] theorem State.admitReady_mem (s : State) (t : Nat) :
    (State.admitReady s t).mem = s.mem := by
  unfold State.admitReady; exact foldl_memS fun b a => by simp

@[simp] theorem State.wakeSlots_mem (s : State) (uid : Nat) :
    (State.wakeSlots s uid).mem = s.mem := by
  first
  | rfl
  | (unfold State.wakeSlots; (try dsimp only); (repeat' split) <;> (first | rfl | (simp [*, foldl_memS, foldl_memP]; done) | ((first | refine foldl_memS (fun b a => ?_) | refine foldl_memP (fun b a => ?_)); (try dsimp only); (repeat' split) <;> (first | rfl | (simp [*]; done))) | ((repeat' (first | rfl | (simp [*]; done) | (with_reducible refine (foldl_memS (fun b a => ?_)).trans ?_) | (with_reducible refine (foldl_memP (fun b a => ?_)).trans ?_) | split)); done)))

@[simp] theorem State.wakeTimeline_mem (s : State) (t uid : Nat) (tc : BitVec 4) (compl : W32) :
    (State.wakeTimeline s t uid tc compl).mem = s.mem := by
  unfold State.wakeTimeline; exact foldl_memS fun b a => by simp

@[simp] theorem State.formAgain_mem (s : State) (t b g : Nat) :
    (State.formAgain s t b g).mem = s.mem := by
  unfold State.formAgain; (try dsimp only); (repeat' split) <;> (first | rfl | (simp [*, foldl_memS, foldl_memP]; done) | ((repeat' (first | rfl | ((simp [*]; done)) | (with_reducible refine (foldl_memS (fun b a => ?_)).trans ?_) | (with_reducible refine (foldl_memP (fun b a => ?_)).trans ?_) | split | simp)); done))

@[simp] theorem State.formGang_mem (s : State) (t b : Nat) :
    (State.formGang s t b).mem = s.mem := by
  unfold State.formGang; (try dsimp only); (repeat' split) <;> (first | rfl | (simp [*, foldl_memS, foldl_memP]; done) | ((repeat' (first | rfl | ((simp [*]; done)) | (with_reducible refine (foldl_memS (fun b a => ?_)).trans ?_) | (with_reducible refine (foldl_memP (fun b a => ?_)).trans ?_) | split | simp)); done))

@[simp] theorem State.edgeDue_mem (s : State) (vf : Nat) (va : Word) :
    (State.edgeDue s vf va).mem = s.mem := by
  unfold State.edgeDue; (try dsimp only); (repeat' split) <;> (first | rfl | (simp [*, foldl_memS, foldl_memP]; done) | ((repeat' (first | rfl | ((simp [*]; done)) | (with_reducible refine (foldl_memS (fun b a => ?_)).trans ?_) | (with_reducible refine (foldl_memP (fun b a => ?_)).trans ?_) | split | simp)); done))

@[simp] theorem State.returnEdge_wf (s : State) (vf : Nat) (va : Word) (hw : cellsWf s.mem = true) :
    cellsWf (State.returnEdge s vf va).mem = true := by
  unfold State.returnEdge; dsimp only; (repeat' split) <;> simp [hw]

@[simp] theorem State.returnSlot_wf (s : State) (o : Origin) (grid : Nat) (hw : cellsWf s.mem = true) :
    cellsWf (State.returnSlot s o grid).mem = true := by
  unfold State.returnSlot; split <;> simp [hw]

@[simp] theorem State.tidySheaves_mem (s : State) (p : Nat) :
    (State.tidySheaves s p).mem = s.mem := by
  unfold State.tidySheaves; (try dsimp only); (repeat' split) <;> (first | rfl | (simp [*, foldl_memS, foldl_memP]; done) | ((repeat' (first | rfl | ((simp [*]; done)) | (with_reducible refine (foldl_memS (fun b a => ?_)).trans ?_) | (with_reducible refine (foldl_memP (fun b a => ?_)).trans ?_) | split | simp)); done))

@[simp] theorem State.dropStageGang_mem (s : State) (p t g : Nat) :
    (State.dropStageGang s p t g).mem = s.mem := by
  unfold State.dropStageGang; (try dsimp only); (repeat' split) <;> (first | rfl | (simp [*, foldl_memS, foldl_memP]; done) | ((repeat' (first | rfl | ((simp [*]; done)) | (with_reducible refine (foldl_memS (fun b a => ?_)).trans ?_) | (with_reducible refine (foldl_memP (fun b a => ?_)).trans ?_) | split | simp)); done))

@[simp] theorem State.dropSkein_mem (s : State) (p k : Nat) :
    (State.dropSkein s p k).mem = s.mem := by
  first
  | rfl
  | (unfold State.dropSkein; (try dsimp only); (repeat' split) <;> (first | rfl | (simp [*, foldl_memS, foldl_memP]; done) | ((first | refine foldl_memS (fun b a => ?_) | refine foldl_memP (fun b a => ?_)); (try dsimp only); (repeat' split) <;> (first | rfl | (simp [*]; done))) | ((repeat' (first | rfl | (simp [*]; done) | (with_reducible refine (foldl_memS (fun b a => ?_)).trans ?_) | (with_reducible refine (foldl_memP (fun b a => ?_)).trans ?_) | split)); done)))

@[simp] theorem State.dropBlock_mem (s : State) (t ctx : Nat) :
    (State.dropBlock s t ctx).mem = s.mem := by
  unfold State.dropBlock; (repeat' split) <;> simp

@[simp] theorem State.countEnded_mem (s : State) (g : Nat) (unrec : Bool) :
    (State.countEnded s g unrec).mem = s.mem := by
  unfold State.countEnded; split <;> rfl

@[simp] theorem State.failBlock_mem (s : State) (t ctx : Nat) :
    (State.failBlock s t ctx).mem = s.mem := by
  unfold State.failBlock; (repeat' split) <;> simp

@[simp] theorem State.failHeld_mem (s : State) (p : Nat) (f : Block → Bool) :
    (State.failHeld s p f).mem = s.mem := by
  unfold State.failHeld; (try dsimp only); (repeat' split) <;> (first | rfl | (simp [*, foldl_memS, foldl_memP]; done) | ((repeat' (first | rfl | ((simp [*]; done)) | (with_reducible refine (foldl_memS (fun b a => ?_)).trans ?_) | (with_reducible refine (foldl_memP (fun b a => ?_)).trans ?_) | split | simp)); done))

@[simp] theorem State.withdraw_wf (s : State) (g : Nat) (hw : cellsWf s.mem = true) :
    cellsWf (State.withdraw s g).mem = true := by
  unfold State.withdraw; dsimp only; (repeat' split) <;> simp [hw]

@[simp] theorem State.failGrid_wf (s : State) (g : Nat) (hw : cellsWf s.mem = true) :
    cellsWf (State.failGrid s g).mem = true := by
  unfold State.failGrid; (try dsimp only); (repeat' split) <;> (first | assumption | (simp [hw]; done) | (simp [*, foldl_wfS, foldl_wfP, foldl_memS, foldl_memP]; done) | ((first | refine foldl_wfS ?_ (fun b a hb => ?_) | refine foldl_wfP ?_ (fun b a hb => ?_)) <;> (try dsimp only) <;> (repeat' split) <;> (first | (simp [*]; done) | (simp [*, foldl_wfS, foldl_wfP, foldl_memS, foldl_memP]; done) | ((repeat' (first | assumption | (with_reducible refine foldl_wfS ?_ (fun b a hb => ?_)) | (with_reducible refine foldl_wfP ?_ (fun b a hb => ?_)) | (with_reducible apply State.withdraw_wf) | (simp [*]; done) | (simp [*]; done) | split)); done))) | ((repeat' (first | assumption | (with_reducible refine foldl_wfS ?_ (fun b a hb => ?_)) | (with_reducible refine foldl_wfP ?_ (fun b a hb => ?_)) | (with_reducible apply State.withdraw_wf) | (simp [*]; done) | (simp [*]; done) | split)); done))

@[simp] theorem State.unrecovered_wf (s : State) (t ctx : Nat) (hw : cellsWf s.mem = true) :
    cellsWf (State.unrecovered s t ctx).mem = true := by
  unfold State.unrecovered; dsimp only; (repeat' split) <;> simp [hw]

@[simp] theorem State.unrecoveredAt_wf (s : State) (p uid : Nat) (hw : cellsWf s.mem = true) :
    cellsWf (State.unrecoveredAt s p uid).mem = true := by
  unfold State.unrecoveredAt; (try dsimp only); (repeat' split) <;> (first | assumption | (simp [hw]; done) | (simp [*, foldl_wfS, foldl_wfP, foldl_memS, foldl_memP]; done) | ((repeat' (first | assumption | (with_reducible refine foldl_wfS ?_ (fun b a hb => ?_)) | (with_reducible refine foldl_wfP ?_ (fun b a hb => ?_)) | ((simp [*]; done)) | split | simp)); done))

@[simp] theorem State.settleBlock_wf (s : State) (t ctx : Nat) (hw : cellsWf s.mem = true) :
    cellsWf (State.settleBlock s t ctx).mem = true := by
  unfold State.settleBlock; (try dsimp only); (repeat' split) <;> (first | assumption | (simp [hw]; done) | (simp [*, foldl_wfS, foldl_wfP, foldl_memS, foldl_memP]; done) | ((repeat' (first | assumption | (with_reducible refine foldl_wfS ?_ (fun b a hb => ?_)) | (with_reducible refine foldl_wfP ?_ (fun b a hb => ?_)) | (with_reducible apply State.unrecovered_wf) | ((simp [*]; done)) | split | simp)); done))

@[simp] theorem State.settleTile_wf (s : State) (t : Nat) (hw : cellsWf s.mem = true) :
    cellsWf (State.settleTile s t).mem = true := by
  unfold State.settleTile; exact foldl_wfS hw fun b a hb => by simp [hb]

@[simp] theorem takeTrap_wf (s : State) (t u : Nat) (tr : Trap) (hw : cellsWf s.mem = true) :
    cellsWf (takeTrap s t u tr).mem = true := by
  unfold takeTrap; dsimp only; (repeat' split) <;> simp [hw]

theorem trapAt_wf {s : State} {I : Issuer} {group : Nat} {code : Byte} {datum : Word} (hw : cellsWf s.mem = true) {ρ} (he : trapAt s I group code datum = .next ρ) :
    cellsWf ρ.mem = true := by
  unfold trapAt at he; cases he; simp [hw]

theorem trapNoAddr_wf {s : State} {I : Issuer} {group : Nat} {code : Byte} (hw : cellsWf s.mem = true) {ρ} (he : trapNoAddr s I group code = .next ρ) :
    cellsWf ρ.mem = true := by
  unfold trapNoAddr at he; (repeat' split at he) <;> first | with_reducible exact trapAt_wf hw he | (cases he; simp [hw])

theorem trapWord_wf {s : State} {I : Issuer} {i : Instr} {group : Nat} {code : Byte} (hw : cellsWf s.mem = true) {ρ} (he : trapWord s I i group code = .next ρ) :
    cellsWf ρ.mem = true := by
  unfold trapWord at he; exact trapAt_wf hw he

theorem trapLanes_wf {s : State} {I : Issuer} {cs : List (Nat × Cause)} (hw : cellsWf s.mem = true) {ρ} (he : trapLanes s I cs = .next ρ) :
    cellsWf ρ.mem = true := by
  unfold trapLanes at he; (repeat' split at he) <;> first | (cases he; simp [hw])


theorem trapWhole_wf {s : State} {I : Issuer} {lane : Bool} {group : Nat} {code : Byte} {datum : Word} (hw : cellsWf s.mem = true) {ρ} (he : trapWhole s I lane group code datum = .next ρ) :
    cellsWf ρ.mem = true := by
  unfold trapWhole at he; (repeat' split at he) <;> first | with_reducible exact trapAt_wf hw he | with_reducible exact trapLanes_wf hw he | (cases he; exact hw)

theorem trapBad_wf {s : State} {I : Issuer} {W : Win} {lane : Bool} {us : List Use} (hw : cellsWf s.mem = true) {ρ} (he : trapBad s I W lane us = .next ρ) :
    cellsWf ρ.mem = true := by
  unfold trapBad at he; dsimp only at he; split at he
  · exact trapLanes_wf (by simpa using hw) he
  · exact trapAt_wf (by simpa using hw) he

theorem withOperands_wf {s : State} {i : Instr} {st : Bool} {us : List Use} {f : State → Issuer → Win → Nat → Out1}
    (w : cellsWf s.mem = true) (h : ∀ s I W n z, cellsWf s.mem = true → f s I W n = .next z → cellsWf z.mem = true) {z}
    (e : withOperands s i st us f = .next z) : cellsWf z.mem = true := by
  unfold withOperands at e
  refine withIssuer_wf ?_ e
  intro I z e
  dsimp only at e
  split at e
  · exact trapBad_wf w e
  · split at e
    · split at e
      · exact trapWhole_wf (by simpa using w) e
      · exact trapWhole_wf w e
    · split at e
      · exact wait_wf w e
      · split at e
        · exact h { s with free := s.free + 1 } _ _ _ _ w e
        · exact h _ _ _ _ _ w e

theorem laneResult_wf {s : State} {i : Instr} {us : List Use} {d : LDst} {f : Rd → Nat → List W32} (hw : cellsWf s.mem = true) {ρ} (he : laneResult s i us d f = .next ρ) :
    cellsWf ρ.mem = true := by
  unfold laneResult at he; refine withOperands_wf hw ?_ he; clear he; intro s I W n ρ hw he; cases he; exact hw

theorem lanePred_wf {s : State} {i : Instr} {us : List Use} {pd : BitVec 3} {f : Rd → Nat → Bool} (hw : cellsWf s.mem = true) {ρ} (he : lanePred s i us pd f = .next ρ) :
    cellsWf ρ.mem = true := by
  unfold lanePred at he; refine withOperands_wf hw ?_ he; clear he; intro s I W n ρ hw he; cases he; exact hw

theorem laneInt2_wf {s : State} {i : Instr} {d : LDst} {a b : Opnd} {f : W32 → W32 → W32} (hw : cellsWf s.mem = true) {ρ} (he : laneInt2 s i d a b f = .next ρ) :
    cellsWf ρ.mem = true := by
  unfold laneInt2 at he; exact laneResult_wf hw he

theorem laneInt3_wf {s : State} {i : Instr} {d : LDst} {a b : Opnd} {f : W32 → W32 → W32 → W32} (hw : cellsWf s.mem = true) {ρ} (he : laneInt3 s i d a b f = .next ρ) :
    cellsWf ρ.mem = true := by
  unfold laneInt3 at he; exact laneResult_wf hw he

theorem laneInt1_wf {s : State} {i : Instr} {d : LDst} {a : Opnd} {f : W32 → W32} (hw : cellsWf s.mem = true) {ρ} (he : laneInt1 s i d a f = .next ρ) :
    cellsWf ρ.mem = true := by
  unfold laneInt1 at he; exact laneResult_wf hw he

theorem laneFlt2_wf {s : State} {i : Instr} {d : LDst} {a b : Opnd} {f : W32 → W32 → W32} (hw : cellsWf s.mem = true) {ρ} (he : laneFlt2 s i d a b f = .next ρ) :
    cellsWf ρ.mem = true := by
  unfold laneFlt2 at he; exact laneResult_wf hw he

theorem laneFlt1_wf {s : State} {i : Instr} {d : LDst} {a : Opnd} {f : W32 → W32} (hw : cellsWf s.mem = true) {ρ} (he : laneFlt1 s i d a f = .next ρ) :
    cellsWf ρ.mem = true := by
  unfold laneFlt1 at he; exact laneResult_wf hw he

theorem uniResult_wf {s : State} {i : Instr} {us : List Use} {d : UDst} {f : (Opnd → Word) → Sub → Word} (hw : cellsWf s.mem = true) {ρ} (he : uniResult s i us d f = .next ρ) :
    cellsWf ρ.mem = true := by
  unfold uniResult at he; refine withOperands_wf hw ?_ he; clear he; intro s I W n ρ hw he; cases he; exact hw

theorem uni2_wf {s : State} {i : Instr} {d : UDst} {a b : Opnd} {f : Word → Word → Word} (hw : cellsWf s.mem = true) {ρ} (he : uni2 s i d a b f = .next ρ) :
    cellsWf ρ.mem = true := by
  unfold uni2 at he; exact uniResult_wf hw he

@[simp] theorem splitInto_mem (s : State) (I : Issuer) (U : Sub) (parts : List (Word × KMap Slice)) :
    (splitInto s I U parts).mem = s.mem := by
  first
  | rfl
  | (unfold splitInto; (try dsimp only); (repeat' split) <;> (first | rfl | (simp [*, foldl_memS, foldl_memP]; done) | ((first | refine foldl_memS (fun b a => ?_) | refine foldl_memP (fun b a => ?_)); (try dsimp only); (repeat' split) <;> (first | rfl | (simp [*]; done))) | ((repeat' (first | rfl | (simp [*]; done) | (with_reducible refine (foldl_memS (fun b a => ?_)).trans ?_) | (with_reducible refine (foldl_memP (fun b a => ?_)).trans ?_) | split)); done)))

theorem branch_wf {s : State} {I : Issuer} {U : Sub} {target : Word} {taken : Slice → Nat → Bool} (hw : cellsWf s.mem = true) {ρ} (he : branch s I U target taken = .next ρ) :
    cellsWf ρ.mem = true := by
  unfold branch at he; dsimp only at he; (repeat' split at he) <;> first | (cases he; exact hw)

theorem execBr_wf {off : BitVec 24} {s : State} (hw : cellsWf s.mem = true) {ρ} (he : execBr off s = .next ρ) :
    cellsWf ρ.mem = true := by
  unfold execBr at he; refine withOperands_wf hw ?_ he; clear he; intro s I W n ρ hw he; exact branch_wf hw he

theorem execBrz_wf {c : Opnd} {off : BitVec 16} {s : State} (hw : cellsWf s.mem = true) {ρ} (he : execBrz c off s = .next ρ) :
    cellsWf ρ.mem = true := by
  unfold execBrz at he; refine withOperands_wf hw ?_ he; clear he; intro s I W n ρ hw he; exact branch_wf hw he

theorem execBrnz_wf {c : Opnd} {off : BitVec 16} {s : State} (hw : cellsWf s.mem = true) {ρ} (he : execBrnz c off s = .next ρ) :
    cellsWf ρ.mem = true := by
  unfold execBrnz at he; refine withOperands_wf hw ?_ he; clear he; intro s I W n ρ hw he; exact branch_wf hw he

theorem execBrp_wf {m : BrpMode} {p : BitVec 3} {off : BitVec 16} {s : State} (hw : cellsWf s.mem = true) {ρ} (he : execBrp m p off s = .next ρ) :
    cellsWf ρ.mem = true := by
  unfold execBrp at he; refine withOperands_wf hw ?_ he; clear he; intro s I W n ρ hw he; exact branch_wf hw he

theorem execLoop_wf {c : Opnd} {off : BitVec 16} {s : State} (hw : cellsWf s.mem = true) {ρ} (he : execLoop c off s = .next ρ) :
    cellsWf ρ.mem = true := by
  unfold execLoop at he; refine withOperands_wf hw ?_ he; clear he; intro s I W n ρ hw he; (repeat' split at he) <;> first | with_reducible exact branch_wf hw he | (cases he; exact hw)

theorem execCall_wf {off : BitVec 24} {s : State} (hw : cellsWf s.mem = true) {ρ} (he : execCall off s = .next ρ) :
    cellsWf ρ.mem = true := by
  unfold execCall at he; refine withOperands_wf hw ?_ he; clear he; intro s I W n ρ hw he; exact branch_wf hw he

theorem execRet_wf {s : State} (hw : cellsWf s.mem = true) {ρ} (he : execRet s = .next ρ) :
    cellsWf ρ.mem = true := by
  unfold execRet at he; refine withOperands_wf hw ?_ he; clear he; intro s I W n ρ hw he; exact branch_wf hw he

theorem execJmpi_wf {d : UDst} {a b : Opnd} {s : State} (hw : cellsWf s.mem = true) {ρ} (he : execJmpi d a b s = .next ρ) :
    cellsWf ρ.mem = true := by
  unfold execJmpi at he; refine withOperands_wf hw ?_ he; clear he; intro s I W n ρ hw he; cases he; simp [hw]

@[simp] theorem fuse_mem (s : State) (t : Nat) (subs : KMap Sub) (addr : Word) :
    (fuse s t subs addr).mem = s.mem := by
  unfold fuse; dsimp only; (repeat' split) <;> rfl

@[simp] theorem settleRegang_wf (s : State) (t g : Nat) (hw : cellsWf s.mem = true) :
    cellsWf (settleRegang s t g).mem = true := by
  unfold settleRegang; (try dsimp only); (repeat' split) <;> (first | assumption | (simp [hw]; done) | (simp [*, foldl_wfS, foldl_wfP, foldl_memS, foldl_memP]; done) | ((first | refine foldl_wfS ?_ (fun b a hb => ?_) | refine foldl_wfP ?_ (fun b a hb => ?_)) <;> (try dsimp only) <;> (repeat' split) <;> (first | (simp [*]; done) | (simp [*, foldl_wfS, foldl_wfP, foldl_memS, foldl_memP]; done) | ((repeat' (first | assumption | (with_reducible refine foldl_wfS ?_ (fun b a hb => ?_)) | (with_reducible refine foldl_wfP ?_ (fun b a hb => ?_)) | (with_reducible apply takeTrap_wf) | (simp [*]; done) | (simp [*]; done) | split)); done))) | ((repeat' (first | assumption | (with_reducible refine foldl_wfS ?_ (fun b a hb => ?_)) | (with_reducible refine foldl_wfP ?_ (fun b a hb => ?_)) | (with_reducible apply takeTrap_wf) | (simp [*]; done) | (simp [*]; done) | split)); done))

theorem execRegang_wf {s : State} (hw : cellsWf s.mem = true) {ρ} (he : execRegang s = .next ρ) :
    cellsWf ρ.mem = true := by
  unfold execRegang at he; refine withIssuer_wf ?_ he; clear he; intro I ρ he; (repeat' split at he) <;> first | with_reducible exact retire_wf hw he | with_reducible exact wait_wf hw he | (cases he; simp [hw])

theorem execYield_wf {s : State} (hw : cellsWf s.mem = true) {ρ} (he : execYield s = .next ρ) :
    cellsWf ρ.mem = true := by
  unfold execYield at he; refine withIssuer_wf ?_ he; clear he; intro I ρ he; cases he; exact hw

theorem execNop_wf {s : State} (hw : cellsWf s.mem = true) {ρ} (he : execNop s = .next ρ) :
    cellsWf ρ.mem = true := by
  unfold execNop at he; refine withIssuer_wf ?_ he; clear he; intro I ρ he; cases he; exact hw

theorem maskOp_wf {s : State} {i : Instr} {us : List Use} {bad : Slice → Bool} {code : Byte} {f : Slice → Slice} (hw : cellsWf s.mem = true) {ρ} (he : maskOp s i us bad code f = .next ρ) :
    cellsWf ρ.mem = true := by
  unfold maskOp at he; refine withOperands_wf hw ?_ he; clear he; intro s I W n ρ hw he; (repeat' split at he) <;> first | with_reducible exact retire_wf hw he | with_reducible exact trapWord_wf hw he | (cases he; exact hw)

theorem execMpush_wf {inv : Bool} {p : BitVec 3} {s : State} (hw : cellsWf s.mem = true) {ρ} (he : execMpush inv p s = .next ρ) :
    cellsWf ρ.mem = true := by
  unfold execMpush at he; exact maskOp_wf hw he

theorem execMpop_wf {s : State} (hw : cellsWf s.mem = true) {ρ} (he : execMpop s = .next ρ) :
    cellsWf ρ.mem = true := by
  unfold execMpop at he; exact maskOp_wf hw he

theorem execMsetp_wf {op : MsetOp} {inv : Bool} {p : BitVec 3} {s : State} (hw : cellsWf s.mem = true) {ρ} (he : execMsetp op inv p s = .next ρ) :
    cellsWf ρ.mem = true := by
  unfold execMsetp at he; exact maskOp_wf hw he

theorem execMelse_wf {s : State} (hw : cellsWf s.mem = true) {ρ} (he : execMelse s = .next ρ) :
    cellsWf ρ.mem = true := by
  unfold execMelse at he; exact maskOp_wf hw he

theorem execWaitc_wf {a : Opnd} {sel : BitVec 5} {s : State} (hw : cellsWf s.mem = true) {ρ} (he : execWaitc a sel s = .next ρ) :
    cellsWf ρ.mem = true := by
  unfold execWaitc at he; refine withOperands_wf hw ?_ he; clear he; intro s I W n ρ hw he; dsimp only at he; (repeat' split at he) <;> first | with_reducible exact retire_wf hw he | with_reducible exact wait_wf hw he | (cases he; exact hw)

@[simp] theorem State.observe_mem (s : State) (d : Nat) (o : List W32) :
    (State.observe s d o).mem = s.mem := rfl

@[simp] theorem cancelFills_mem (s : State) (t : Nat) (p : Nat → Bool) :
    (cancelFills s t p).mem = s.mem := rfl

@[simp] theorem State.l1Drop_mem (s : State) (t : Nat) (p : Nat → Bool) :
    (State.l1Drop s t p).mem = s.mem := rfl

@[simp] theorem State.l1Clear_mem (s : State) (t : Nat) :
    (State.l1Clear s t).mem = s.mem := rfl

@[simp] theorem State.completeEntry_mem (s : State) (t u sl slot : Nat) :
    (State.completeEntry s t u sl slot).mem = s.mem := by
  unfold State.completeEntry; dsimp only; (repeat' split) <;> rfl

@[simp] theorem State.enterLogTrap_wf (s : State) (t u : Nat) (hw : cellsWf s.mem = true) :
    cellsWf (State.enterLogTrap s t u).mem = true := by
  unfold State.enterLogTrap; (repeat' split) <;> simp [hw]

@[simp] theorem State.fillRank_mem (s : State) (t : Nat) (e : RankEntry) :
    (State.fillRank s t e).mem = s.mem := by
  unfold State.fillRank; (try dsimp only); (repeat' split) <;> (first | rfl | (simp [*, foldl_memS, foldl_memP]; done) | ((repeat' (first | rfl | ((simp [*]; done)) | (with_reducible refine (foldl_memS (fun b a => ?_)).trans ?_) | (with_reducible refine (foldl_memP (fun b a => ?_)).trans ?_) | split | simp)); done))

@[simp] theorem State.absorb_wf (s : State) (r : Resp) (w : cellsWf s.mem = true) : cellsWf (s.absorb r).mem = true := by
  unfold State.absorb
  extract_lets s1 s2 T1 s3 T2 f subs gangs s4 acq s5
  have h1 : cellsWf s1.mem = true := by simp only [s1]; split <;> simp [w]
  have h2 : cellsWf s2.mem = true := by simp only [s2]; split <;> simp [h1]
  have h3 : cellsWf s3.mem = true := by simp only [s3]; split <;> simp [h2]
  have h4 : cellsWf s4.mem = true := by simp only [s4]; simp [h3]
  have h5 : cellsWf s5.mem = true := by simp only [s5]; split <;> simp [h4]
  split
  · split
    · split
      · exact takeTrap_wf _ _ _ _ h5
      · exact h5
    · exact h5
  · exact h5

@[simp] theorem State.deliver_wf (s : State) (r : Resp) (hw : cellsWf s.mem = true) :
    cellsWf (State.deliver s r).mem = true := by
  unfold State.deliver; dsimp only; (repeat' split) <;> simp [hw]

@[simp] theorem State.dropRanks_mem (s : State) (p : Nat) (P P' : Part) : (State.dropRanks s p P P').mem = s.mem := rfl

@[simp] theorem State.strandApply_mem (s : State) (r : StrandReq) :
    (State.strandApply s r).1.mem = s.mem := by
  unfold State.strandApply; dsimp only; (repeat' split) <;> rfl

@[simp] theorem State.dropCarry_mem (s : State) (t : Nat) :
    (State.dropCarry s t).mem = s.mem := by
  unfold State.dropCarry; dsimp only; (repeat' split) <;> rfl

@[simp] theorem State.refresh_mem (s : State) (d : Nat) :
    (State.refresh s d).mem = s.mem := rfl

@[simp] theorem State.frameMsg_mem (s : State) (m : Msg) :
    (State.frameMsg s m).mem = s.mem := by
  unfold State.frameMsg; (try dsimp only); (repeat' split) <;> (first | rfl | (simp [*, foldl_memS, foldl_memP]; done) | ((repeat' (first | rfl | ((simp [*]; done)) | (with_reducible refine (foldl_memS (fun b a => ?_)).trans ?_) | (with_reducible refine (foldl_memP (fun b a => ?_)).trans ?_) | split | simp)); done))

@[simp] theorem State.ackMsg_mem (s : State) (e : Nat) (m : Msg) :
    (State.ackMsg s e m).mem = s.mem := by
  unfold State.ackMsg; (try dsimp only); (repeat' split) <;> (first | rfl | (simp [*, foldl_memS, foldl_memP]; done) | ((repeat' (first | rfl | ((simp [*]; done)) | (with_reducible refine (foldl_memS (fun b a => ?_)).trans ?_) | (with_reducible refine (foldl_memP (fun b a => ?_)).trans ?_) | split | simp)); done))

@[simp] theorem State.crossAt_mem (s : State) (b x n : Nat) :
    (State.crossAt s b x n).mem = s.mem := by
  unfold State.crossAt; (try dsimp only); (repeat' split) <;> (first | rfl | (simp [*, foldl_memS, foldl_memP]; done) | ((repeat' (first | rfl | ((simp [*]; done)) | (with_reducible refine (foldl_memS (fun b a => ?_)).trans ?_) | (with_reducible refine (foldl_memP (fun b a => ?_)).trans ?_) | split | simp)); done))

@[simp] theorem State.crossPath_mem (s : State) (n : Nat) (l : List Nat) (x : Nat) : (State.crossPath s n l x).mem = s.mem := by
  induction l generalizing s x with
  | nil => rfl
  | cons b l ih => rw [State.crossPath, ih]; simp

@[simp] theorem State.crossMsg_mem (s : State) (m : Msg) :
    (State.crossMsg s m).mem = s.mem := by
  unfold State.crossMsg; (try dsimp only); (repeat' split) <;> (first | rfl | (simp [*, foldl_memS, foldl_memP]; done) | ((repeat' (first | rfl | ((simp [*]; done)) | (with_reducible refine (foldl_memS (fun b a => ?_)).trans ?_) | (with_reducible refine (foldl_memP (fun b a => ?_)).trans ?_) | split | simp)); done))

@[simp] theorem State.leave_mem (s : State) (m : Msg) :
    (State.leave s m).mem = s.mem := by
  unfold State.leave; (try dsimp only); (repeat' split) <;> (first | rfl | (simp [*, foldl_memS, foldl_memP]; done) | ((repeat' (first | rfl | ((simp [*]; done)) | (with_reducible refine (foldl_memS (fun b a => ?_)).trans ?_) | (with_reducible refine (foldl_memP (fun b a => ?_)).trans ?_) | split | simp)); done))

@[simp] theorem State.send_mem (s : State) (src dst t seq : Nat) (lane : Option Nat) (vec : List W32) (body : Body) (flow : Option Packet) :
    (State.send s src dst t seq lane vec body flow).mem = s.mem := by
  unfold State.send; (try dsimp only); (repeat' split) <;> (first | rfl | (simp [*, foldl_memS, foldl_memP]; done) | ((repeat' (first | rfl | ((simp [*]; done)) | (with_reducible refine (foldl_memS (fun b a => ?_)).trans ?_) | (with_reducible refine (foldl_memP (fun b a => ?_)).trans ?_) | split | simp)); done))

@[simp] theorem State.atomicAt_wf (s : State) (pa op w : Nat) (y z : Word) (hw : cellsWf s.mem = true) :
    cellsWf (State.atomicAt s pa op w y z).1.mem = true := by
  unfold State.atomicAt; simp [hw]

@[simp] theorem State.joinObserved_mem (s : State) (home : Nat) (v : List W32) :
    (State.joinObserved s home v).mem = s.mem := rfl

@[simp] theorem State.performBody_wf (s : State) (home : Nat) (m : Msg) (hw : cellsWf s.mem = true) :
    cellsWf (s.performBody home m).1.mem = true := by
  unfold State.performBody
  split
  · simp [hw]
  · simp [hw]
  · split
    · exact hw
    · simpa using State.atomicAt_wf s _ _ _ _ _ hw
  · split <;> exact hw
  · dsimp only; split <;> simp [hw]
  · exact hw

@[simp] theorem State.perform_wf (s : State) (home : Nat) (m : Msg) (hw : cellsWf s.mem = true) :
    cellsWf (s.perform home m).1.mem = true := by
  unfold State.perform; split <;> simp [hw]

@[simp] theorem State.performHere_wf (s : State) (t seq : Nat) (lane : Option Nat) (body : Body) (hw : cellsWf s.mem = true) :
    cellsWf (State.performHere s t seq lane body).1.mem = true := by
  unfold State.performHere; simp [hw]

@[simp] theorem State.crossTo_mem (s : State) (die p : Nat) (pk : Packet) :
    (State.crossTo s die p pk).mem = s.mem := by
  unfold State.crossTo; (try dsimp only); (repeat' split) <;> (first | rfl | (simp [*, foldl_memS, foldl_memP]; done) | ((repeat' (first | rfl | ((simp [*]; done)) | (with_reducible refine (foldl_memS (fun b a => ?_)).trans ?_) | (with_reducible refine (foldl_memP (fun b a => ?_)).trans ?_) | split | simp)); done))

@[simp] theorem State.emit_mem (s : State) (die p : Nat) (pk : Packet) (id : Option Nat) :
    (State.emit s die p pk id).mem = s.mem := by
  unfold State.emit; (try dsimp only); (repeat' split) <;> (first | rfl | (simp [*, foldl_memS, foldl_memP]; done) | ((repeat' (first | rfl | ((simp [*]; done)) | (with_reducible refine (foldl_memS (fun b a => ?_)).trans ?_) | (with_reducible refine (foldl_memP (fun b a => ?_)).trans ?_) | split | simp)); done))

@[simp] theorem State.enterFlow_mem (s : State) (id die ni : Nat) (pk : Packet) (owner : Owner) :
    (State.enterFlow s id die ni pk owner).mem = s.mem := rfl

@[simp] theorem State.request_mem (s : State) (die ni : Nat) (pk : Packet) (owner : Owner) :
    (State.request s die ni pk owner).mem = s.mem := rfl

@[simp] theorem State.leaveFlow_mem (s : State) (o : Out) : (State.leaveFlow s o).mem = s.mem := rfl

@[simp] theorem State.emitOut_mem (s : State) (o : Out) :
    (State.emitOut s o).mem = s.mem := by
  unfold State.emitOut; (try dsimp only); (repeat' split) <;> (first | rfl | (simp [*, foldl_memS, foldl_memP]; done) | ((repeat' (first | rfl | ((simp [*]; done)) | (with_reducible refine (foldl_memS (fun b a => ?_)).trans ?_) | (with_reducible refine (foldl_memP (fun b a => ?_)).trans ?_) | split | simp)); done))

@[simp] theorem State.tryLast_mem (s : State) :
    (State.tryLast s).mem = s.mem := by
  unfold State.tryLast; (try dsimp only); (repeat' split) <;> (first | rfl | (simp [*, foldl_memS, foldl_memP]; done) | ((repeat' (first | rfl | ((simp [*]; done)) | (with_reducible refine (foldl_memS (fun b a => ?_)).trans ?_) | (with_reducible refine (foldl_memP (fun b a => ?_)).trans ?_) | split | simp)); done))

@[simp] theorem State.outs_keep (s : State) (l : List Out) : ({ s with outs := l } : State).mem = s.mem := rfl

@[simp] theorem State.pumpFabric_mem (s : State) :
    (State.pumpFabric s).1.mem = s.mem := by
  unfold State.pumpFabric; (try dsimp only); (repeat' split) <;> (first | rfl | (simp [*, foldl_memS, foldl_memP]; done) | ((repeat' (first | rfl | ((simp [*]; done)) | (with_reducible refine (foldl_memS (fun b a => ?_)).trans ?_) | (with_reducible refine (foldl_memP (fun b a => ?_)).trans ?_) | split | simp)); done))

@[simp] theorem State.respond_mem (s : State) (die : Nat) (req : Packet) (op : Byte) (payload : List Byte) :
    (State.respond s die req op payload).mem = s.mem := by
  unfold State.respond; (try dsimp only); (repeat' split) <;> (first | rfl | (simp [*, foldl_memS, foldl_memP]; done) | ((repeat' (first | rfl | ((simp [*]; done)) | (with_reducible refine (foldl_memS (fun b a => ?_)).trans ?_) | (with_reducible refine (foldl_memP (fun b a => ?_)).trans ?_) | split | simp)); done))

@[simp] theorem State.refuse_mem (s : State) (die : Nat) (req : Packet) (code : Nat) :
    (State.refuse s die req code).mem = s.mem := by
  unfold State.refuse; simp

@[simp] theorem State.answerPacket_mem (s : State) (home : Nat) (pk : Packet) (rs : List Resp) :
    (State.answerPacket s home pk rs).mem = s.mem := by
  unfold State.answerPacket; (repeat' split) <;> simp

@[simp] theorem State.hostAnswer_mem (s : State) (m : Msg) (rs : List Resp) :
    (State.hostAnswer s m rs).mem = s.mem := by
  unfold State.hostAnswer; (try dsimp only); (repeat' split) <;> (first | rfl | (simp [*, foldl_memS, foldl_memP]; done) | ((repeat' (first | rfl | ((simp [*]; done)) | (with_reducible refine (foldl_memS (fun b a => ?_)).trans ?_) | (with_reducible refine (foldl_memP (fun b a => ?_)).trans ?_) | split | simp)); done))

@[simp] theorem State.takeMsg_wf (s : State) (home k : Nat) (m : Msg) (hw : cellsWf s.mem = true) :
    cellsWf (State.takeMsg s home k m).mem = true := by
  unfold State.takeMsg; (try dsimp only); (repeat' split) <;> (first | assumption | (simp [hw]; done) | (simp [*, foldl_wfS, foldl_wfP, foldl_memS, foldl_memP]; done) | ((repeat' (first | assumption | (with_reducible refine foldl_wfS ?_ (fun b a hb => ?_)) | (with_reducible refine foldl_wfP ?_ (fun b a hb => ?_)) | ((simp [*]; done)) | split | simp)); done))

@[simp] theorem State.requestTo_wf (s : State) (t vf : Nat) (world : Bool) (seq : Nat) (lane : Option Nat) (fa : Nat) (body : Body) (hw : cellsWf s.mem = true) :
    cellsWf (State.requestTo s t vf world seq lane fa body).1.mem = true := by
  unfold State.requestTo; (try dsimp only); (repeat' split) <;> ((try have q0 := wf_of_pair ‹State.performHere _ _ _ _ _ = (_, _)› (State.performHere_wf _ _ _ _ _ (by first | assumption | (simp [*]; done)))); first | assumption | (simp [hw]; done) | (simp [*, foldl_wfS, foldl_wfP, foldl_memS, foldl_memP]; done) | ((repeat' (first | assumption | (with_reducible refine foldl_wfS ?_ (fun b a hb => ?_)) | (with_reducible refine foldl_wfP ?_ (fun b a hb => ?_)) | ((try have q0 := wf_of_pair ‹State.performHere _ _ _ _ _ = (_, _)› (State.performHere_wf _ _ _ _ _ (by first | assumption | (simp [*]; done)))); (simp [*]; done)) | split | simp)); done))

@[simp] theorem State.strandRequest_wf (s : State) (t home : Nat) (r : StrandReq) (hw : cellsWf s.mem = true) :
    cellsWf (State.strandRequest s t home r).1.mem = true := by
  unfold State.strandRequest; dsimp only; (repeat' split) <;> simp [hw]

@[simp] theorem State.setRetry_mem (s : State) (t g : Nat) (f : Retry → Retry) :
    (State.setRetry s t g f).mem = s.mem := by
  unfold State.setRetry; split <;> rfl

@[simp] theorem State.noteLate_mem (s : State) (t g : Nat) (rs : List Resp) :
    (State.noteLate s t g rs).mem = s.mem := by
  unfold State.noteLate; (repeat' split) <;> simp

@[simp] theorem State.issueOne_wf (s : State) (t g vf : Nat) (world : Bool) (part : Nat) (h : Held) (hw : cellsWf s.mem = true) :
    cellsWf (State.issueOne s t g vf world part h).1.mem = true := by
  unfold State.issueOne; (try dsimp only); (repeat' split) <;> ((try have q0 := wf_of_pair ‹State.requestTo _ _ _ _ _ _ _ _ = (_, _)› (State.requestTo_wf _ _ _ _ _ _ _ _ (by first | assumption | (simp [*]; done)))); (try have q1 := wf_of_pair ‹State.strandRequest _ _ _ _ = (_, _)› (State.strandRequest_wf _ _ _ _ (by first | assumption | (simp [*]; done)))); first | assumption | (simp [hw]; done) | (simp [*, foldl_wfS, foldl_wfP, foldl_memS, foldl_memP]; done) | ((repeat' (first | assumption | (with_reducible refine foldl_wfS ?_ (fun b a hb => ?_)) | (with_reducible refine foldl_wfP ?_ (fun b a hb => ?_)) | ((try have q0 := wf_of_pair ‹State.requestTo _ _ _ _ _ _ _ _ = (_, _)› (State.requestTo_wf _ _ _ _ _ _ _ _ (by first | assumption | (simp [*]; done)))); (try have q1 := wf_of_pair ‹State.strandRequest _ _ _ _ = (_, _)› (State.strandRequest_wf _ _ _ _ (by first | assumption | (simp [*]; done)))); (simp [*]; done)) | split | simp)); done))

@[simp] theorem State.lapse_mem (s : State) (t g : Nat) (f : Retry → Retry) :
    (State.lapse s t g f).mem = s.mem := by
  unfold State.lapse; (try dsimp only); (repeat' split) <;> (first | rfl | (simp [*, foldl_memS, foldl_memP]; done) | ((repeat' (first | rfl | ((simp [*]; done)) | (with_reducible refine (foldl_memS (fun b a => ?_)).trans ?_) | (with_reducible refine (foldl_memP (fun b a => ?_)).trans ?_) | split | simp)); done))

@[simp] theorem State.unshare_mem (s : State) (t g : Nat) :
    (State.unshare s t g).mem = s.mem := by
  unfold State.unshare; (try dsimp only); (repeat' split) <;> (first | rfl | (simp [*, foldl_memS, foldl_memP]; done) | ((repeat' (first | rfl | ((simp [*]; done)) | (with_reducible refine (foldl_memS (fun b a => ?_)).trans ?_) | (with_reducible refine (foldl_memP (fun b a => ?_)).trans ?_) | split | simp)); done))

theorem lateTrap_wf {s : State} {I : Issuer} {x : Nat × Byte × Byte × Word} (hw : cellsWf s.mem = true) {ρ} (he : lateTrap s I x = .next ρ) :
    cellsWf ρ.mem = true := by
  unfold lateTrap at he; cases he; simp [hw]

theorem State.drainHeld_wf (s : State) (t g vf : Nat) (world : Bool) (part n : Nat) (hw : cellsWf s.mem = true) :
    cellsWf (s.drainHeld t g vf world part n).1.mem = true := by
  induction n generalizing s with
  | zero => exact hw
  | succ n ih =>
    unfold State.drainHeld
    split
    · exact hw
    · split
      · exact hw
      · split
        · exact hw
        · split
          · exact hw
          · dsimp only
            split
            · simp [hw]
            · exact ih _ (by simp [hw])

theorem again_wf {s : State} {f : State → Issuer → Out1} (hw : cellsWf s.mem = true)
    (h : ∀ s I ρ, cellsWf s.mem = true → f s I = .next ρ → cellsWf ρ.mem = true) {ρ} (he : again s f = .next ρ) :
    cellsWf ρ.mem = true := by
  unfold again at he; split at he
  · exact h _ _ _ hw he
  · cases he; exact hw

theorem drainThen_wf {s : State} {I : Issuer} {start finish : State → State} {f : State → Issuer → Out1} (hw : cellsWf s.mem = true)
    (hs : ∀ s, cellsWf s.mem = true → cellsWf (start s).mem = true) (hf : ∀ s, cellsWf s.mem = true → cellsWf (finish s).mem = true)
    (h : ∀ s I ρ, cellsWf s.mem = true → f s I = .next ρ → cellsWf ρ.mem = true) {ρ} (he : drainThen s I start finish f = .next ρ) :
    cellsWf ρ.mem = true := by
  unfold drainThen at he
  split at he
  · have h2 := State.drainHeld_wf (start s) I.t I.sub.gang I.block.vf I.block.world I.block.part (I.gang.retry.held.length + 1) (hs s hw)
    dsimp only at he
    split at he
    · split at he
      · exact lateTrap_wf h2 he
      · exact again_wf (hf _ h2) h he
    · exact wait_wf h2 he
  · exact h _ _ _ hw he

theorem becomeNonRetry_wf {s : State} {I : Issuer} {f : State → Issuer → Out1} (hw : cellsWf s.mem = true)
    (h : ∀ s I ρ, cellsWf s.mem = true → f s I = .next ρ → cellsWf ρ.mem = true) {ρ} (he : becomeNonRetry s I f = .next ρ) :
    cellsWf ρ.mem = true :=
  drainThen_wf hw (fun s hs => by split <;> simp [hs]) (fun s hs => by simp [hs]) h he

theorem commitPoint_wf {s : State} {I : Issuer} {f : State → Issuer → Out1} (hw : cellsWf s.mem = true)
    (h : ∀ s I ρ, cellsWf s.mem = true → f s I = .next ρ → cellsWf ρ.mem = true) {ρ} (he : commitPoint s I f = .next ρ) :
    cellsWf ρ.mem = true :=
  drainThen_wf hw (fun s hs => by split <;> simp [hs]) (fun s hs => hs) h he

@[simp] theorem State.spadWrite_mem (s : State) (a : SpadAt) (bs : List Byte) :
    (State.spadWrite s a bs).mem = s.mem := by
  unfold State.spadWrite; split <;> rfl

@[simp] theorem State.takeAnswer_mem (s : State) (r : Resp) :
    (State.takeAnswer s r).mem = s.mem := by
  unfold State.takeAnswer; (try dsimp only); (repeat' split) <;> (first | rfl | (simp [*, foldl_memS, foldl_memP]; done) | ((repeat' (first | rfl | ((simp [*]; done)) | (with_reducible refine (foldl_memS (fun b a => ?_)).trans ?_) | (with_reducible refine (foldl_memP (fun b a => ?_)).trans ?_) | split | simp)); done))

@[simp] theorem issueGlobal_wf (s : State) (I : Issuer) (seq : Nat) (k : MemKind) (a : Access) (fa : Nat) (hw : cellsWf s.mem = true) :
    cellsWf (issueGlobal s I seq k a fa).1.mem = true := by
  unfold issueGlobal; (try dsimp only); (repeat' split) <;> ((try have q0 := wf_of_pair ‹State.requestTo _ _ _ _ _ _ _ _ = (_, _)› (State.requestTo_wf _ _ _ _ _ _ _ _ (by first | assumption | (simp [*]; done)))); first | assumption | (simp [hw]; done) | (simp [*, foldl_wfS, foldl_wfP, foldl_memS, foldl_memP]; done) | ((first | refine foldl_wfS ?_ (fun b a hb => ?_) | refine foldl_wfP ?_ (fun b a hb => ?_)) <;> (try dsimp only) <;> (repeat' split) <;> ((try have q0 := wf_of_pair ‹State.requestTo _ _ _ _ _ _ _ _ = (_, _)› (State.requestTo_wf _ _ _ _ _ _ _ _ (by first | assumption | (simp [*]; done)))); first | (simp [*]; done) | (simp [*, foldl_wfS, foldl_wfP, foldl_memS, foldl_memP]; done) | ((repeat' (first | assumption | (with_reducible refine foldl_wfS ?_ (fun b a hb => ?_)) | (with_reducible refine foldl_wfP ?_ (fun b a hb => ?_)) | (with_reducible apply State.held_wf) | (with_reducible apply State.requestTo_wf) | (simp [*]; done) | ((try have q0 := wf_of_pair ‹State.requestTo _ _ _ _ _ _ _ _ = (_, _)› (State.requestTo_wf _ _ _ _ _ _ _ _ (by first | assumption | (simp [*]; done)))); simp [*]; done) | split)); done))) | ((repeat' (first | assumption | (with_reducible refine foldl_wfS ?_ (fun b a hb => ?_)) | (with_reducible refine foldl_wfP ?_ (fun b a hb => ?_)) | (with_reducible apply State.held_wf) | (with_reducible apply State.requestTo_wf) | (simp [*]; done) | ((try have q0 := wf_of_pair ‹State.requestTo _ _ _ _ _ _ _ _ = (_, _)› (State.requestTo_wf _ _ _ _ _ _ _ _ (by first | assumption | (simp [*]; done)))); simp [*]; done) | split)); done))

@[simp] theorem issueAccess_wf (s : State) (I : Issuer) (seq : Nat) (spad : Bool) (k : MemKind) (a : Access) (hw : cellsWf s.mem = true) :
    cellsWf (issueAccess s I seq spad k a).1.mem = true := by
  unfold issueAccess; dsimp only; (repeat' split) <;> simp [hw]

@[simp] theorem issueAll_wf (s : State) (I : Issuer) (seq : Nat) (spad : Bool) (k : MemKind) (as : List Access) (hw : cellsWf s.mem = true) :
    cellsWf (issueAll s I seq spad k as).1.mem = true := by
  unfold issueAll; (try dsimp only); (repeat' split) <;> ((try have q0 := wf_of_pair ‹issueAccess _ _ _ _ _ _ = (_, _)› (issueAccess_wf _ _ _ _ _ _ (by first | assumption | (simp [*]; done)))); first | assumption | (simp [hw]; done) | (simp [*, foldl_wfS, foldl_wfP, foldl_memS, foldl_memP]; done) | ((first | refine foldl_wfS ?_ (fun b a hb => ?_) | refine foldl_wfP ?_ (fun b a hb => ?_)) <;> (try dsimp only) <;> (repeat' split) <;> ((try have q0 := wf_of_pair ‹issueAccess _ _ _ _ _ _ = (_, _)› (issueAccess_wf _ _ _ _ _ _ (by first | assumption | (simp [*]; done)))); first | (simp [*]; done) | (simp [*, foldl_wfS, foldl_wfP, foldl_memS, foldl_memP]; done) | ((repeat' (first | assumption | (with_reducible refine foldl_wfS ?_ (fun b a hb => ?_)) | (with_reducible refine foldl_wfP ?_ (fun b a hb => ?_)) | (with_reducible apply issueAccess_wf) | (simp [*]; done) | ((try have q0 := wf_of_pair ‹issueAccess _ _ _ _ _ _ = (_, _)› (issueAccess_wf _ _ _ _ _ _ (by first | assumption | (simp [*]; done)))); simp [*]; done) | split)); done))) | ((repeat' (first | assumption | (with_reducible refine foldl_wfS ?_ (fun b a hb => ?_)) | (with_reducible refine foldl_wfP ?_ (fun b a hb => ?_)) | (with_reducible apply issueAccess_wf) | (simp [*]; done) | ((try have q0 := wf_of_pair ‹issueAccess _ _ _ _ _ _ = (_, _)› (issueAccess_wf _ _ _ _ _ _ (by first | assumption | (simp [*]; done)))); simp [*]; done) | split)); done))

@[simp] theorem State.raiseFaults_wf (s : State) (t u seq : Nat) (hw : cellsWf s.mem = true) :
    cellsWf (State.raiseFaults s t u seq).mem = true := by
  unfold State.raiseFaults; (repeat' split) <;> simp [hw]

theorem issueMemory_wf {s : State} {I : Issuer} {W : Win} {i : Instr} {spad : Bool} {k : MemKind} {as : List Access} (hw : cellsWf s.mem = true) {ρ} (he : issueMemory s I W i spad k as = .next ρ) :
    cellsWf ρ.mem = true := by
  unfold issueMemory at he; dsimp only at he; (repeat' split at he) <;> first | (cases he; simp [hw])

theorem memory_wf {s : State} {i : Instr} {us : List Use} {lanes : Win → Issuer → List (Option Nat × Word × BitVec 128)} (hw : cellsWf s.mem = true) {ρ} (he : memory s i us lanes = .next ρ) :
    cellsWf ρ.mem = true := by
  unfold memory at he; repeat' first | split at he | (with_reducible refine becomeNonRetry_wf (by first | assumption | (simp [*]; done)) ?_ he; clear he; intro s I ρ hw he) | (with_reducible refine withOperands_wf (by first | assumption | (simp [*]; done)) ?_ he; clear he; intro s I W n ρ hw he) | dsimp only at he
  all_goals first | with_reducible exact issueMemory_wf (by first | assumption | (simp [*]; done)) he | with_reducible exact retire_wf (by first | assumption | (simp [*]; done)) he | with_reducible exact wait_wf (by first | assumption | (simp [*]; done)) he | (cases he; done) | (cases he; first | assumption | (simp [hw]; done) | (simp [*, foldl_wfS, foldl_wfP, foldl_memS, foldl_memP]; done) | ((repeat' (first | assumption | (with_reducible refine foldl_wfS ?_ (fun b a hb => ?_)) | (with_reducible refine foldl_wfP ?_ (fun b a hb => ?_)) | (simp [*]; done) | (simp [*]; done) | split)); done))

@[simp] theorem State.noteWrite_mem (s : State) (src home : Nat) (vec : List W32) :
    (State.noteWrite s src home vec).mem = s.mem := by
  unfold State.noteWrite; split <;> rfl

@[simp] theorem State.noteRead_mem (s : State) (src home : Nat) :
    (State.noteRead s src home).mem = s.mem := by
  unfold State.noteRead; split <;> rfl

@[simp] theorem State.writeNow_wf (s : State) (src pa : Nat) (bs : List Byte) (vec : List W32) (hw : cellsWf s.mem = true) :
    cellsWf (State.writeNow s src pa bs vec).mem = true := by
  unfold State.writeNow; simp [hw]

@[simp] theorem State.readNow_mem (s : State) (src pa n : Nat) :
    (State.readNow s src pa n).1.mem = s.mem := by
  unfold State.readNow; simp

@[simp] theorem State.deviceWrite_wf (s : State) (src pa : Nat) (bs : List Byte) (hw : cellsWf s.mem = true) :
    cellsWf (State.deviceWrite s src pa bs).mem = true := by
  unfold State.deviceWrite; (try dsimp only); (repeat' split) <;> (first | assumption | (simp [hw]; done) | (simp [*, foldl_wfS, foldl_wfP, foldl_memS, foldl_memP]; done) | ((repeat' (first | assumption | (with_reducible refine foldl_wfS ?_ (fun b a hb => ?_)) | (with_reducible refine foldl_wfP ?_ (fun b a hb => ?_)) | ((simp [*]; done)) | split | simp)); done))

@[simp] theorem State.leaveGang_wf (s : State) (t u : Nat) (hw : cellsWf s.mem = true) :
    cellsWf (State.leaveGang s t u).mem = true := by
  unfold State.leaveGang; dsimp only; (repeat' split) <;> simp [hw]

theorem park_wf {s : State} {I : Issuer} {resume : Resume} {cond : Option Cond} {watched : Bool} (hw : cellsWf s.mem = true) {ρ} (he : park s I resume cond watched = .next ρ) :
    cellsWf ρ.mem = true := by
  unfold park at he; repeat' first | split at he | (with_reducible refine commitPoint_wf (by first | assumption | (simp [*]; done)) ?_ he; clear he; intro s I ρ hw he) | dsimp only at he
  all_goals first | with_reducible exact wait_wf (by first | assumption | (simp [*]; done)) he | (cases he; done) | (cases he; first | assumption | (simp [hw]; done) | (simp [*, foldl_wfS, foldl_wfP, foldl_memS, foldl_memP]; done) | ((repeat' (first | assumption | (with_reducible refine foldl_wfS ?_ (fun b a hb => ?_)) | (with_reducible refine foldl_wfP ?_ (fun b a hb => ?_)) | (with_reducible apply State.leaveGang_wf) | (simp [*]; done) | (simp [*]; done) | split)); done))

theorem execFence_wf {sc : Scope} {k : FenceKind} {s : State} (hw : cellsWf s.mem = true) {ρ} (he : execFence sc k s = .next ρ) :
    cellsWf ρ.mem = true := by
  unfold execFence at he; repeat' first | split at he | (with_reducible refine becomeNonRetry_wf (by first | assumption | (simp [*]; done)) ?_ he; clear he; intro s I ρ hw he) | (with_reducible refine withOperands_wf (by first | assumption | (simp [*]; done)) ?_ he; clear he; intro s I W n ρ hw he) | dsimp only at he
  all_goals first | with_reducible exact retire_wf (by first | assumption | (simp [*]; done)) he | with_reducible exact wait_wf (by first | assumption | (simp [*]; done)) he | (cases he; done) | (cases he; first | assumption | (simp [hw]; done) | (simp [*, foldl_wfS, foldl_wfP, foldl_memS, foldl_memP]; done) | ((repeat' (first | assumption | (with_reducible refine foldl_wfS ?_ (fun b a hb => ?_)) | (with_reducible refine foldl_wfP ?_ (fun b a hb => ?_)) | (simp [*]; done) | (simp [*]; done) | split)); done))

theorem execMonarm_wf {data : Opnd} {addr : BitVec 5} {ty : Ty2} {s : State} (hw : cellsWf s.mem = true) {ρ} (he : execMonarm data addr ty s = .next ρ) :
    cellsWf ρ.mem = true := by
  unfold execMonarm at he; refine withOperands_wf hw ?_ he; clear he; intro s I W n ρ hw he; dsimp only at he; (repeat' split at he) <;> first | with_reducible exact retire_wf hw he | with_reducible exact trapAt_wf hw he | with_reducible exact trapWord_wf hw he | (cases he; simp [hw])

theorem execMonwait_wf {d : UDst} {ty : Ty2} {o : AOrd} {s : State} (hw : cellsWf s.mem = true) {ρ} (he : execMonwait d ty o s = .next ρ) :
    cellsWf ρ.mem = true := by
  unfold execMonwait at he; repeat' first | split at he | ((try have q0 := (mem_of_pair ‹State.readNow _ _ _ _ = (_, _)›).trans (State.readNow_mem _ _ _ _)); with_reducible refine withOperands_wf (by first | assumption | (simp [*]; done)) ?_ he; clear he; intro s I W n ρ hw he) | dsimp only at he
  all_goals (try have q0 := (mem_of_pair ‹State.readNow _ _ _ _ = (_, _)›).trans (State.readNow_mem _ _ _ _)); first | with_reducible exact park_wf (by first | assumption | (simp [*]; done)) he | with_reducible exact retire_wf (by first | assumption | (simp [*]; done)) he | with_reducible exact trapAt_wf (by first | assumption | (simp [*]; done)) he | with_reducible exact trapWord_wf (by first | assumption | (simp [*]; done)) he | with_reducible exact wait_wf (by first | assumption | (simp [*]; done)) he | (cases he; done) | (cases he; first | assumption | (simp [hw]; done) | (simp [*, foldl_wfS, foldl_wfP, foldl_memS, foldl_memP]; done) | ((repeat' (first | assumption | (with_reducible refine foldl_wfS ?_ (fun b a hb => ?_)) | (with_reducible refine foldl_wfP ?_ (fun b a hb => ?_)) | (with_reducible apply State.held_wf) | (simp [*]; done) | ((try have q0 := (mem_of_pair ‹State.readNow _ _ _ _ = (_, _)›).trans (State.readNow_mem _ _ _ _)); simp [*]; done) | split)); done))

@[simp] theorem Barrier.write_mem (b : Barrier) (s : State) (a : SpadAt) :
    (Barrier.write b s a).mem = s.mem := by
  unfold Barrier.write; simp

theorem barrierOp_wf {s : State} {i : Instr} {a b : Opnd} {f : State → Issuer → SpadAt → Nat → Out1}
    (hw : cellsWf s.mem = true) (h : ∀ s I p n ρ, cellsWf s.mem = true → f s I p n = .next ρ → cellsWf ρ.mem = true) {ρ}
    (he : barrierOp s i a b f = .next ρ) : cellsWf ρ.mem = true := by
  unfold barrierOp at he
  refine withOperands_wf hw ?_ he
  intro s I W n ρ hw he
  split at he
  · exact trapAt_wf hw he
  · exact wait_wf hw he
  · split at he
    · exact wait_wf hw he
    · exact h _ _ _ _ _ hw he

theorem execBarinit_wf {a b : Opnd} {s : State} (hw : cellsWf s.mem = true) {ρ} (he : execBarinit a b s = .next ρ) :
    cellsWf ρ.mem = true := by
  unfold execBarinit at he; refine barrierOp_wf hw ?_ he; clear he; intro s I p n ρ hw he; (repeat' split at he) <;> first | with_reducible exact retire_wf hw he | with_reducible exact trapWord_wf hw he | (cases he; simp [hw])

theorem execBararv_wf {a b : Opnd} {s : State} (hw : cellsWf s.mem = true) {ρ} (he : execBararv a b s = .next ρ) :
    cellsWf ρ.mem = true := by
  unfold execBararv at he; repeat' first | split at he | (with_reducible refine barrierOp_wf (by first | assumption | (simp [*]; done)) ?_ he; clear he; intro s I p n ρ hw he) | (with_reducible refine becomeNonRetry_wf (by first | assumption | (simp [*]; done)) ?_ he; clear he; intro s I ρ hw he) | dsimp only at he
  all_goals first | with_reducible exact retire_wf (by first | assumption | (simp [*]; done)) he | with_reducible exact trapWord_wf (by first | assumption | (simp [*]; done)) he | with_reducible exact wait_wf (by first | assumption | (simp [*]; done)) he | (cases he; done) | (cases he; first | assumption | (simp [hw]; done) | (simp [*, foldl_wfS, foldl_wfP, foldl_memS, foldl_memP]; done) | ((repeat' (first | assumption | (with_reducible refine foldl_wfS ?_ (fun b a hb => ?_)) | (with_reducible refine foldl_wfP ?_ (fun b a hb => ?_)) | (simp [*]; done) | (simp [*]; done) | split)); done))

theorem execBarexp_wf {a b : Opnd} {s : State} (hw : cellsWf s.mem = true) {ρ} (he : execBarexp a b s = .next ρ) :
    cellsWf ρ.mem = true := by
  unfold execBarexp at he; repeat' first | split at he | (with_reducible refine barrierOp_wf (by first | assumption | (simp [*]; done)) ?_ he; clear he; intro s I p n ρ hw he) | (with_reducible refine becomeNonRetry_wf (by first | assumption | (simp [*]; done)) ?_ he; clear he; intro s I ρ hw he) | dsimp only at he
  all_goals first | with_reducible exact retire_wf (by first | assumption | (simp [*]; done)) he | with_reducible exact trapWord_wf (by first | assumption | (simp [*]; done)) he | (cases he; done) | (cases he; first | assumption | (simp [hw]; done) | (simp [*, foldl_wfS, foldl_wfP, foldl_memS, foldl_memP]; done) | ((repeat' (first | assumption | (with_reducible refine foldl_wfS ?_ (fun b a hb => ?_)) | (with_reducible refine foldl_wfP ?_ (fun b a hb => ?_)) | (simp [*]; done) | (simp [*]; done) | split)); done))

theorem execBarwait_wf {a b : Opnd} {s : State} (hw : cellsWf s.mem = true) {ρ} (he : execBarwait a b s = .next ρ) :
    cellsWf ρ.mem = true := by
  unfold execBarwait at he; refine barrierOp_wf hw ?_ he; clear he; intro s I p n ρ hw he; dsimp only at he; (repeat' split at he) <;> first | with_reducible exact retire_wf hw he | with_reducible exact wait_wf hw he | (cases he; exact hw)

theorem execTlwait_wf {tc : BitVec 4} {x : Opnd} {s : State} (hw : cellsWf s.mem = true) {ρ} (he : execTlwait tc x s = .next ρ) :
    cellsWf ρ.mem = true := by
  unfold execTlwait at he; repeat' first | split at he | (with_reducible refine withIssuer_wf  ?_ he; clear he; intro I ρ he) | (with_reducible refine withOperands_wf (by first | assumption | (simp [*]; done)) ?_ he; clear he; intro s I W n ρ hw he) | dsimp only at he
  all_goals first | with_reducible exact park_wf (by first | assumption | (simp [*]; done)) he | with_reducible exact retire_wf (by first | assumption | (simp [*]; done)) he | with_reducible exact trapNoAddr_wf (by first | assumption | (simp [*]; done)) he | with_reducible exact trapWord_wf (by first | assumption | (simp [*]; done)) he | with_reducible exact wait_wf (by first | assumption | (simp [*]; done)) he | (cases he; done) | (cases he; first | assumption | (simp [hw]; done) | (simp [*, foldl_wfS, foldl_wfP, foldl_memS, foldl_memP]; done) | ((repeat' (first | assumption | (with_reducible refine foldl_wfS ?_ (fun b a hb => ?_)) | (with_reducible refine foldl_wfP ?_ (fun b a hb => ?_)) | (simp [*]; done) | (simp [*]; done) | split)); done))

theorem execTlqry_wf {tc : BitVec 4} {d : UDst} {s : State} (hw : cellsWf s.mem = true) {ρ} (he : execTlqry tc d s = .next ρ) :
    cellsWf ρ.mem = true := by
  unfold execTlqry at he; refine withOperands_wf hw ?_ he; clear he; intro s I W n ρ hw he; (repeat' split at he) <;> first | with_reducible exact retire_wf hw he | with_reducible exact trapNoAddr_wf hw he | (cases he; exact hw)

@[simp] theorem State.enqueue_mem (s : State) (p : Nat) (r : Rec) :
    (State.enqueue s p r).mem = s.mem := by
  unfold State.enqueue; (repeat' split) <;> rfl

@[simp] theorem State.submit_mem (s : State) (p vf : Nat) (r : LRecord) (origin : Nat → Origin) (secure : Bool) (sameWorld : Option Bool)
    (cap : Nat) (vec : List W32) :
    (State.submit s p vf r origin secure sameWorld cap vec).1.mem = s.mem := by
  unfold State.submit; simp

@[simp] theorem State.deviceAtomic_wf (s : State) (die vf : Nat) (world : Bool) (grid fa op : Nat) (y : Word) (hw : cellsWf s.mem = true) :
    cellsWf (State.deviceAtomic s die vf world grid fa op y).mem = true := by
  unfold State.deviceAtomic; (try dsimp only); (repeat' split) <;> (first | assumption | (simp [hw]; done) | (simp [*, foldl_wfS, foldl_wfP, foldl_memS, foldl_memP]; done) | ((repeat' (first | assumption | (with_reducible refine foldl_wfS ?_ (fun b a hb => ?_)) | (with_reducible refine foldl_wfP ?_ (fun b a hb => ?_)) | ((simp [*]; done)) | split | simp)); done))

@[simp] theorem State.complete_wf (s : State) (die vf : Nat) (world : Bool) (grid : Nat) (r : LRecord) (flags : Nat) (hw : cellsWf s.mem = true) :
    cellsWf (State.complete s die vf world grid r flags).mem = true := by
  unfold State.complete; (repeat' split) <;> simp [hw]

theorem execLdLane_wf {d : LDst} {addr : BitVec 6} {ty : Ty} {o : MOrd} {s : State} (hw : cellsWf s.mem = true) {ρ} (he : execLdLane d addr ty o s = .next ρ) :
    cellsWf ρ.mem = true := by
  unfold execLdLane at he; exact memory_wf hw he

theorem execStLane_wf {data : Opnd} {addr : BitVec 6} {ty : Ty} {o : MOrd} {s : State} (hw : cellsWf s.mem = true) {ρ} (he : execStLane data addr ty o s = .next ρ) :
    cellsWf ρ.mem = true := by
  unfold execStLane at he; exact memory_wf hw he

theorem execLds_wf {d : LDst} {addr : BitVec 7} {ty : Ty} {o : MOrd} {s : State} (hw : cellsWf s.mem = true) {ρ} (he : execLds d addr ty o s = .next ρ) :
    cellsWf ρ.mem = true := by
  unfold execLds at he; exact memory_wf hw he

theorem execSts_wf {data : Opnd} {addr : BitVec 7} {ty : Ty} {o : MOrd} {s : State} (hw : cellsWf s.mem = true) {ρ} (he : execSts data addr ty o s = .next ρ) :
    cellsWf ρ.mem = true := by
  unfold execSts at he; exact memory_wf hw he

theorem execLdUniform_wf {d : UDst} {addr : BitVec 5} {ty : Ty} {o : MOrd} {s : State} (hw : cellsWf s.mem = true) {ρ} (he : execLdUniform d addr ty o s = .next ρ) :
    cellsWf ρ.mem = true := by
  unfold execLdUniform at he; exact memory_wf hw he

theorem execStUniform_wf {data : Opnd} {addr : BitVec 5} {ty : Ty} {o : MOrd} {s : State} (hw : cellsWf s.mem = true) {ρ} (he : execStUniform data addr ty o s = .next ρ) :
    cellsWf ρ.mem = true := by
  unfold execStUniform at he; exact memory_wf hw he

theorem laneAtomic_wf {s : State} {i : Instr} {d : BitVec 7} {a : LaAddr} {v : BitVec 7} {n : Nat} (hw : cellsWf s.mem = true) {ρ} (he : laneAtomic s i d a v n = .next ρ) :
    cellsWf ρ.mem = true := by
  unfold laneAtomic at he; exact memory_wf hw he

theorem uniAtomic_wf {s : State} {i : Instr} {d : UDst} {addr : BitVec 5} {n : Nat} (hw : cellsWf s.mem = true) {ρ} (he : uniAtomic s i d addr n = .next ρ) :
    cellsWf ρ.mem = true := by
  unfold uniAtomic at he; exact memory_wf hw he

theorem execAaddLane_wf {d : BitVec 7} {addr : LaAddr} {v : BitVec 7} {os : Os} {s : State} (hw : cellsWf s.mem = true) {ρ} (he : execAaddLane d addr v os s = .next ρ) :
    cellsWf ρ.mem = true := by
  unfold execAaddLane at he; exact laneAtomic_wf hw he

theorem execAfadd_wf {d : BitVec 7} {addr : LaAddr} {v : BitVec 7} {os : Os} {s : State} (hw : cellsWf s.mem = true) {ρ} (he : execAfadd d addr v os s = .next ρ) :
    cellsWf ρ.mem = true := by
  unfold execAfadd at he; exact laneAtomic_wf hw he

theorem execAmin_wf {d : BitVec 7} {addr : LaAddr} {v : BitVec 7} {os : Os} {s : State} (hw : cellsWf s.mem = true) {ρ} (he : execAmin d addr v os s = .next ρ) :
    cellsWf ρ.mem = true := by
  unfold execAmin at he; exact laneAtomic_wf hw he

theorem execAmaxLane_wf {d : BitVec 7} {addr : LaAddr} {v : BitVec 7} {os : Os} {s : State} (hw : cellsWf s.mem = true) {ρ} (he : execAmaxLane d addr v os s = .next ρ) :
    cellsWf ρ.mem = true := by
  unfold execAmaxLane at he; exact laneAtomic_wf hw he

theorem execAminu_wf {d : BitVec 7} {addr : LaAddr} {v : BitVec 7} {os : Os} {s : State} (hw : cellsWf s.mem = true) {ρ} (he : execAminu d addr v os s = .next ρ) :
    cellsWf ρ.mem = true := by
  unfold execAminu at he; exact laneAtomic_wf hw he

theorem execAmaxu_wf {d : BitVec 7} {addr : LaAddr} {v : BitVec 7} {os : Os} {s : State} (hw : cellsWf s.mem = true) {ρ} (he : execAmaxu d addr v os s = .next ρ) :
    cellsWf ρ.mem = true := by
  unfold execAmaxu at he; exact laneAtomic_wf hw he

theorem execAand_wf {d : BitVec 7} {addr : LaAddr} {v : BitVec 7} {os : Os} {s : State} (hw : cellsWf s.mem = true) {ρ} (he : execAand d addr v os s = .next ρ) :
    cellsWf ρ.mem = true := by
  unfold execAand at he; exact laneAtomic_wf hw he

theorem execAor_wf {d : BitVec 7} {addr : LaAddr} {v : BitVec 7} {os : Os} {s : State} (hw : cellsWf s.mem = true) {ρ} (he : execAor d addr v os s = .next ρ) :
    cellsWf ρ.mem = true := by
  unfold execAor at he; exact laneAtomic_wf hw he

theorem execAxor_wf {d : BitVec 7} {addr : LaAddr} {v : BitVec 7} {os : Os} {s : State} (hw : cellsWf s.mem = true) {ρ} (he : execAxor d addr v os s = .next ρ) :
    cellsWf ρ.mem = true := by
  unfold execAxor at he; exact laneAtomic_wf hw he

theorem execAxchgLane_wf {d : BitVec 7} {addr : LaAddr} {v : BitVec 7} {os : Os} {s : State} (hw : cellsWf s.mem = true) {ρ} (he : execAxchgLane d addr v os s = .next ρ) :
    cellsWf ρ.mem = true := by
  unfold execAxchgLane at he; exact laneAtomic_wf hw he

theorem execAcasLane_wf {d : BitVec 7} {addr : LaAddr} {v : BitVec 7} {os : Os} {s : State} (hw : cellsWf s.mem = true) {ρ} (he : execAcasLane d addr v os s = .next ρ) :
    cellsWf ρ.mem = true := by
  unfold execAcasLane at he; exact laneAtomic_wf hw he

theorem execAaddUniform_wf {d : UDst} {addr : BitVec 5} {ty : Ty2} {o : AOrd} {s : State} (hw : cellsWf s.mem = true) {ρ} (he : execAaddUniform d addr ty o s = .next ρ) :
    cellsWf ρ.mem = true := by
  unfold execAaddUniform at he; exact uniAtomic_wf hw he

theorem execAcasUniform_wf {d : UDst} {addr : BitVec 5} {ty : Ty2} {o : AOrd} {s : State} (hw : cellsWf s.mem = true) {ρ} (he : execAcasUniform d addr ty o s = .next ρ) :
    cellsWf ρ.mem = true := by
  unfold execAcasUniform at he; exact uniAtomic_wf hw he

theorem execAxchgUniform_wf {d : UDst} {addr : BitVec 5} {ty : Ty2} {o : AOrd} {s : State} (hw : cellsWf s.mem = true) {ρ} (he : execAxchgUniform d addr ty o s = .next ρ) :
    cellsWf ρ.mem = true := by
  unfold execAxchgUniform at he; exact uniAtomic_wf hw he

theorem execAmaxUniform_wf {d : UDst} {addr : BitVec 5} {ty : Ty2} {o : AOrd} {s : State} (hw : cellsWf s.mem = true) {ρ} (he : execAmaxUniform d addr ty o s = .next ρ) :
    cellsWf ρ.mem = true := by
  unfold execAmaxUniform at he; exact uniAtomic_wf hw he

end Sys2Proof.Machine
end

