-- ==== Sys2Proof/Laws/Ops.lean ====
section
/-!
SUPPORT. What the shared operations of an instruction can do: the checks of operands, the lanes and slices of the issuer,
retiring and waiting.
-/
namespace Sys2Proof.Machine

/-! ### The issuer -/

theorem issuer_sub {s : State} {I : Issuer} (h : s.issuer = some I) : I.tile = s.tile I.t ∧ kget I.tile.subs I.u = some I.sub ∧
    kget I.tile.gangs I.sub.gang = some I.gang ∧ kget I.tile.blocks I.gang.ctx = some I.block ∧ s.cur = some (I.t, I.u) := by
  unfold State.issuer at h
  split at h
  · simp at h
  · next t u e =>
    simp only at h
    split at h
    · simp at h
    · next U hU =>
      split at h
      · simp at h
      · next G hG =>
        split at h
        · simp at h
        · next B hB => simp only [Option.some.injEq] at h; subst h; exact ⟨rfl, hU, hG, hB, e⟩

/-- An issuer that waits is only marked. -/
theorem wait_eq {s : State} {I : Issuer} (h : s.issuer = some I) : wait s I = .next (s.setSub I.t I.u { I.sub with stall := some s.gen, issued := s.stamp }) := by
  have := issuer_sub h
  simp only [wait, ← this.1, this.2.1]

/-! ### Operand checks -/

theorem withIssuer_of {s : State} {I : Issuer} (h : s.issuer = some I) (f : Issuer → Out1) : withIssuer s f = f I := by
  simp [withIssuer, h]

/-- An instruction that executes normally runs its own part. -/
theorem Issues.run {s : State} {i : Instr} {st : Bool} {us : List Use} {I : Issuer} (h : Issues s i st us I)
    (f : State → Issuer → Win → Nat → Out1) :
    withOperands s i st us f = f (s.afterOperands us) I (s.window I) (s.latchSeed us) := by
  simp only [withOperands, withIssuer_of h.issuer, h.operands, h.notOwed, h.clean, State.afterOperands, State.latchSeed]
  cases readsLatch us <;> simp

/-- Only a straight instruction may read a latch (R230). -/
theorem useFault_noLatch {W : Win} {d : Nat} {us : List Use} (h : useFault W d false us = none) : readsLatch us = false := by
  unfold useFault at h
  split at h
  · simp at h
  · split at h
    · simp at h
    · next hf =>
      rw [List.find?_eq_none] at hf
      simp only [readsLatch, List.any_eq_false]
      intro u hu hl
      have := hf u hu
      cases e : u.lat <;> simp_all

/-- An instruction that is not straight runs its own part on the state as it is. -/
theorem Issues.plain {s : State} {i : Instr} {us : List Use} {I : Issuer} (h : Issues s i false us I) (f : State → Issuer → Win → Nat → Out1) :
    withOperands s i false us f = f s I (s.window I) 0 := by
  rw [h.run, State.afterOperands, State.latchSeed, useFault_noLatch h.operands]; rfl

/-! ### Lanes -/

theorem Sub.lane_mapLane (U : Sub) (j k : Nat) (f : Lane → Lane) :
    (U.mapLane j f).lane k = if k = j then (U.lane j).map f else U.lane k := by
  unfold Sub.mapLane Sub.lane
  cases h : kget U.slices (j / 4) with
  | none =>
    by_cases e : k = j
    · subst e; simp [h]
    · simp [e]
  | some S =>
    simp only [kget_kset]
    by_cases e : k / 4 = j / 4
    · simp only [e, h, if_true, List.getElem?_modify]
      by_cases m : j % 4 = k % 4
      · have : k = j := by omega
        simp [this]
      · have : k ≠ j := by omega
        simp [this, m]
    · have : k ≠ j := by omega
      simp [e, this]

theorem Sub.bare_mapLane (U : Sub) (j n : Nat) (f : Lane → Lane) :
    (kget (U.mapLane j f).slices n).map Slice.bare = (kget U.slices n).map Slice.bare := by
  unfold Sub.mapLane
  cases h : kget U.slices (j / 4) with
  | none => rfl
  | some S =>
    simp only [kget_kset]
    split
    · next e => subst e; simp [h, Slice.bare]
    · rfl

theorem Sub.mapLane_rest (U : Sub) (j : Nat) (f : Lane → Lane) (sl : KMap Slice) :
    { U.mapLane j f with slices := sl } = { U with slices := sl } := by
  unfold Sub.mapLane; split <;> rfl

/-- Two sub-gangs that differ in their lanes only, lane j of the second being f j of the first's. -/
def Sub.LanesBy (U V : Sub) (f : Nat → Lane → Lane) : Prop :=
  (∀ sl, { V with slices := sl } = { U with slices := sl }) ∧ (∀ j, V.lane j = (U.lane j).map (f j)) ∧
  ∀ n, (kget V.slices n).map Slice.bare = (kget U.slices n).map Slice.bare

theorem Sub.LanesBy.refl (U : Sub) : U.LanesBy U fun _ L => L := ⟨fun _ => rfl, fun _ => by simp, fun _ => rfl⟩

theorem Sub.LanesBy.trans {U V W : Sub} {f g : Nat → Lane → Lane} (h : U.LanesBy V f) (k : V.LanesBy W g) :
    U.LanesBy W fun j L => g j (f j L) :=
  ⟨fun sl => (k.1 sl).trans (h.1 sl), fun j => by rw [k.2.1, h.2.1, Option.map_map]; rfl, fun n => (k.2.2 n).trans (h.2.2 n)⟩

theorem Sub.LanesBy.mapLane (U : Sub) (j : Nat) (f : Lane → Lane) :
    U.LanesBy (U.mapLane j f) fun k L => if k = j then f L else L :=
  ⟨fun sl => U.mapLane_rest j f sl, fun k => by
    rw [U.lane_mapLane]; by_cases h : k = j <;> simp [h], fun n => U.bare_mapLane j n f⟩

/-- One change for each of several different lanes. -/
theorem Sub.LanesBy.fold {α : Type} (ls : List α) (lane : α → Nat) (f : α → Lane → Lane) (step : Sub → α → Sub)
    (h : ∀ (U : Sub) (a : α), U.LanesBy (step U a) fun k L => if k = lane a then f a L else L) (U : Sub) :
    U.LanesBy (ls.foldl step U) fun k L => ls.foldl (fun L a => if k = lane a then f a L else L) L := by
  induction ls generalizing U with
  | nil => exact .refl U
  | cons a ls ih => exact (h U a).trans (ih _)

theorem foldl_lane_not {α : Type} (ls : List α) (lane : α → Nat) (f : α → Lane → Lane) (k : Nat) (L : Lane)
    (h : ∀ a ∈ ls, k ≠ lane a) : ls.foldl (fun L a => if k = lane a then f a L else L) L = L := by
  induction ls generalizing L with
  | nil => rfl
  | cons a ls ih =>
    rw [List.foldl_cons, if_neg (h a (by simp))]
    exact ih L fun b hb => h b (by simp [hb])

/-- Of several changes to different lanes, lane k takes the one that names it. -/
theorem foldl_lane_mem (ls : List Nat) (nd : ls.Nodup) (f : Nat → Lane → Lane) (k : Nat) (L : Lane) :
    ls.foldl (fun L j => if k = j then f j L else L) L = if k ∈ ls then f k L else L := by
  induction ls generalizing L with
  | nil => rfl
  | cons a ls ih =>
    rw [List.nodup_cons] at nd
    rw [List.foldl_cons]
    by_cases h : k = a
    · subst h
      rw [if_pos rfl, show ls.foldl (fun L a => if k = (fun x => x) a then f a L else L) (f k L) = _ from
        foldl_lane_not ls (fun x => x) f k _ fun b hb e => nd.1 (e ▸ hb)]
      simp
    · rw [if_neg h, ih nd.2]
      simp [h]

theorem Sub.actives_nodup (U : Sub) : U.actives.Nodup := (List.nodup_range).filter _

theorem Sub.mem_actives {U : Sub} {j : Nat} : j ∈ U.actives ↔ j < 32 ∧ U.active j = true := by
  simp [Sub.actives]

theorem Sub.LanesBy.mapAll (U : Sub) (f : Lane → Lane) :
    U.LanesBy (U.mapSlices fun S => { S with lanes := S.lanes.map f }) fun _ L => f L := by
  refine ⟨fun sl => rfl, fun j => ?_, fun n => ?_⟩
  · simp only [Sub.lane, Sub.mapSlices, kget_kmap]
    cases kget U.slices (j / 4) <;> simp
  · simp only [Sub.mapSlices, kget_kmap]
    cases kget U.slices n <;> simp [Slice.bare]

theorem Sub.LanesBy.congr {U V : Sub} {f g : Nat → Lane → Lane} (h : U.LanesBy V f) (e : ∀ j L, f j L = g j L) :
    U.LanesBy V g := by
  have : f = g := funext fun j => funext fun L => e j L
  exact this ▸ h

/-! ### Retiring -/

theorem Sub.retire_rest (U V : Sub) (k : RunKind) (h : ∀ sl, { V with slices := sl } = { U with slices := sl }) (sl : KMap Slice) :
    { V.retire k with slices := sl } = { U.retire k with slices := sl } := by
  have := h sl
  simp only [Sub.mk.injEq] at this
  simp only [Sub.retire, Sub.mk.injEq]
  simp_all

/-- Retiring with changed lanes is a step of the lanes. -/
theorem retire_lanes (s : State) (I : Issuer) (k : RunKind) {V : Sub} {f : Nat → Lane → Lane} (h : I.sub.LanesBy V f) :
    ∃ t, retire s I k V = .next t ∧ LaneStep s I k f t := by
  refine ⟨_, rfl, V.retire k, rfl, ?_, fun j _ => ?_, fun n => ?_⟩
  · rw [Sub.retire_rest I.sub V k h.1]; rfl
  · exact h.2.1 j
  · exact h.2.2 n

end Sys2Proof.Machine
end

