-- ==== Sys2Proof/Laws/Lanes.lean ====
section
/-!
SUPPORT. What a straight lane instruction can do: its results, its predicate, its latch rings.
-/
namespace Sys2Proof.Machine

/-- One result: the registers and the latch of one lane. -/
theorem writeResult_lanes (W : Win) (U : Sub) (depth j : Nat) (d : LDst) (ws : List W32) :
    U.LanesBy (writeResult W U depth j d ws) fun k L => if k = j then L.took W depth d ws else L := by
  unfold writeResult
  cases h : d.nw
  · refine ((Sub.LanesBy.mapLane U j _).trans (Sub.LanesBy.mapLane _ j _)).congr fun k L => ?_
    by_cases e : k = j
    · simp only [e, if_true, Lane.took, h, Lane.push]; rfl
    · simp [e]
  · refine (Sub.LanesBy.mapLane U j _).congr fun k L => ?_
    by_cases e : k = j
    · simp [e, Lane.took, h, Lane.push]
    · simp [e]

theorem took_noPush (L : Lane) (W : Win) (d : LDst) (ws : List W32) :
    ({ L with ring := [] } : Lane).took W 0 d ws = L.took W 0 d ws := by
  simp only [Lane.took]
  have h : ∀ (l : List (W32 × Nat)) (r : Nat) (A B : Lane), { A with ring := [] } = { B with ring := [] } → 
    { l.foldl (fun L (x, k) => L.setReg (r + k) x) A with ring := [ws.headD 0] } = { l.foldl (fun L (x, k) => L.setReg (r + k) x) B with ring := [ws.headD 0] } := by
    intro l
    induction l with
    | nil => intro r A B h; simp_all
    | cons x l ih => intro r A B h; simp only [List.foldl_cons]; apply ih; simp_all [Lane.setReg]
  cases d.nw
  · simp only [Lane.putRegs, if_true, Bool.false_eq_true, if_false]
    exact h _ _ _ _ rfl
  · simp

/-- The results of an instruction: every active lane takes its own, the others miss it. -/
theorem writeResults_lanes (W : Win) (U : Sub) (d : LDst) (f : Nat → List W32) :
    U.LanesBy (writeResults W U d (U.actives.map fun j => (j, f j))) fun j L =>
      if U.active j ∧ j < 32 then L.took W U.depth d (f j) else L.missed U.depth := by
  unfold writeResults
  simp only [List.foldl_map]
  by_cases h : U.depth = 0
  · simp only [h, if_true]
    refine ((Sub.LanesBy.mapAll U fun L => L.noPush 0).trans
      (Sub.LanesBy.fold U.actives (fun j => j) (fun j L => L.took W 0 d (f j)) _ (fun U j => writeResult_lanes W U 0 j d (f j)) _)).congr fun j L => ?_
    rw [foldl_lane_mem _ U.actives_nodup]
    simp only [Sub.mem_actives, Lane.noPush, if_true, Lane.missed, took_noPush, and_comm]
  · simp only [h, if_false]
    refine (Sub.LanesBy.fold U.actives (fun j => j) (fun j L => L.took W U.depth d (f j)) _ (fun V j => writeResult_lanes W V U.depth j d (f j)) U).congr fun j L => ?_
    rw [foldl_lane_mem _ U.actives_nodup]
    simp only [Sub.mem_actives, Lane.missed, h, if_false, and_comm]

theorem LaneStep.congr {s t : State} {I : Issuer} {k : RunKind} {f g : Nat → Lane → Lane} (h : LaneStep s I k f t)
    (e : ∀ j L, j < 32 → f j L = g j L) : LaneStep s I k g t := by
  obtain ⟨U, h1, h2, h3, h4⟩ := h
  refine ⟨U, h1, h2, fun j hj => ?_, h4⟩
  rw [h3 j hj]
  exact congrArg (Option.map · _) (funext fun L => e j L hj)

/-- A straight lane instruction that executes normally completes with its results. -/
theorem laneResult_next {s : State} {i : Instr} {us : List Use} {d : LDst} {f : Rd → Nat → List W32} {I : Issuer}
    (h : Issues s i true us I) :
    ∃ t, laneResult s i us d f = .next t ∧ LaneStep (s.afterOperands us) I .ring
      (fun j L => if I.sub.active j then L.took (s.window I) I.sub.depth d (f (s.reads I us) j)
        else L.missed I.sub.depth) t := by
  unfold laneResult
  rw [h.run]
  obtain ⟨t, ht, hl⟩ := retire_lanes (s.afterOperands us) I .ring (writeResults_lanes (s.window I) I.sub d (f (s.reads I us)))
  exact ⟨t, ht, LaneStep.congr hl fun j L hj => by simp [hj]⟩

/-- The same, for a form that gives the results in other words. -/
theorem laneForm_next {s : State} {i : Instr} {F : LaneForm} {f : Rd → Nat → List W32} {I : Issuer}
    (h : Issues s i true F.uses I) (x : exec i s = laneResult s i F.uses F.dst f) (e : ∀ R j, f R j = F.val R j) :
    ∃ t, exec i s = .next t ∧ LaneStep (s.afterOperands F.uses) I .ring
      (fun j L => if I.sub.active j then L.took (s.window I) I.sub.depth F.dst (F.val (s.reads I F.uses) j)
        else L.missed I.sub.depth) t := by
  obtain rfl : f = F.val := funext fun R => funext fun j => e R j
  rw [x]
  exact laneResult_next h

/-- A straight lane instruction that writes a predicate completes with it. -/
theorem lanePred_next {s : State} {i : Instr} {F : PredForm} {f : Rd → Nat → Bool} {I : Issuer}
    (h : Issues s i true (.prd F.dst :: F.uses) I) (x : exec i s = lanePred s i F.uses F.dst f)
    (e : ∀ R j, f R j = F.val R j) :
    ∃ t, exec i s = .next t ∧ LaneStep (s.afterOperands F.uses) I .straight
      (fun j L => if I.sub.active j then L.setPred F.dst.toNat (F.val (s.reads I F.uses) j) else L) t := by
  obtain rfl : f = F.val := funext fun R => funext fun j => e R j
  rw [x]
  unfold lanePred
  rw [h.run]
  have r : readsLatch (Use.prd F.dst :: F.uses) = readsLatch F.uses := by simp [readsLatch, Use.prd, Use.plain]
  simp only [State.afterOperands, State.latchSeed, State.reads, r]
  obtain ⟨t, ht, hl⟩ := retire_lanes (s.afterOperands F.uses) I .straight
    (Sub.LanesBy.fold I.sub.actives (fun j => j) (fun j L => L.setPred F.dst.toNat (F.val (s.reads I F.uses) j)) _
      (fun U j => Sub.LanesBy.mapLane U j _) I.sub)
  refine ⟨t, ht, LaneStep.congr hl fun j L hj => ?_⟩
  rw [foldl_lane_mem _ I.sub.actives_nodup]
  simp [Sub.mem_actives, hj, State.reads, State.latchSeed]

end Sys2Proof.Machine
end

