-- ==== Sys2Proof/Laws/Access.lean ====
section
/-!
SUPPORT. What loads, stores and atomics do: the forms of the instructions, the accesses they make, and the bytes those move.
-/
set_option linter.unusedSimpArgs false
set_option linter.unusedVariables false
namespace Sys2Proof.Machine

theorem pairData (x y : W32) : (y.setWidth 64 ++ x.setWidth 64 : BitVec 128) = BitVec.ofNat 128 (x.toNat + y.toNat * 2 ^ 64) := by
  apply BitVec.eq_of_toNat_eq
  rw [BitVec.toNat_append, BitVec.toNat_ofNat]
  have hx := x.isLt; have hy := y.isLt
  rw [BitVec.toNat_setWidth, BitVec.toNat_setWidth, Nat.mod_eq_of_lt (by omega), Nat.mod_eq_of_lt (by omega), ← Nat.shiftLeft_add_eq_or_of_lt (by omega), Nat.shiftLeft_eq,
   Nat.mod_eq_of_lt (by omega), Nat.add_comm]

theorem pairData64 (x y : Word) : (y ++ x : BitVec 128) = BitVec.ofNat 128 (x.toNat + y.toNat * 2 ^ 64) := by
  apply BitVec.eq_of_toNat_eq
  rw [BitVec.toNat_append, BitVec.toNat_ofNat]
  have hx := x.isLt; have hy := y.isLt
  rw [← Nat.shiftLeft_add_eq_or_of_lt (by omega), Nat.shiftLeft_eq,
   Nat.mod_eq_of_lt (by omega), Nat.add_comm]

theorem laneAtomic_form (s : State) (i : Instr) (op n : Nat) (d v : BitVec 7) (a : LaAddr) :
    laneAtomic s i d a v n = memory s i (MemForm.atomic op n d a v).uses fun W I => (MemForm.atomic op n d a v).lanes W I.sub := by
  unfold laneAtomic MemForm.atomic
  dsimp only
  congr 1
  funext W I
  congr 1
  funext j
  by_cases h : n = 2
  · simp only [h, if_true]; exact pairData _ _
  · simp only [h, if_false]; exact pairData _ 0

theorem uniAtomic_form (s : State) (i : Instr) (op n : Nat) (d : UDst) (a : BitVec 5) (ty : Ty2) :
    uniAtomic s i d a n = memory s i (MemForm.uatomic op n d a ty).uses fun W I => (MemForm.uatomic op n d a ty).lanes W I.sub := by
  unfold uniAtomic MemForm.uatomic
  dsimp only
  by_cases h : n = 2
  · simp only [h, if_true, pairData64]
  · simp only [h, if_false, pairData64]; rfl

theorem memKind_form {i : Instr} {F : MemForm} (h : memForm i = some F) : memKind i = some (F.spad, F.kind) := by
  cases i <;> simp only [memForm, Option.some.injEq, reduceCtorEq] at h
  all_goals subst h; exact rfl

theorem mem_exec {i : Instr} {F : MemForm} (h : memForm i = some F) (s : State) :
    exec i s = memory s i F.uses fun W I => F.lanes W I.sub := by
  cases i <;> simp only [memForm, Option.some.injEq, reduceCtorEq] at h
  all_goals subst h
  case aaddLane => exact exec_aaddLane.trans (laneAtomic_form ..)
  case afadd => exact exec_afadd.trans (laneAtomic_form ..)
  case amin => exact exec_amin.trans (laneAtomic_form ..)
  case amaxLane => exact exec_amaxLane.trans (laneAtomic_form ..)
  case aminu => exact exec_aminu.trans (laneAtomic_form ..)
  case amaxu => exact exec_amaxu.trans (laneAtomic_form ..)
  case aand => exact exec_aand.trans (laneAtomic_form ..)
  case aor => exact exec_aor.trans (laneAtomic_form ..)
  case axor => exact exec_axor.trans (laneAtomic_form ..)
  case axchgLane => exact exec_axchgLane.trans (laneAtomic_form ..)
  case acasLane => exact exec_acasLane.trans (laneAtomic_form ..)
  case aaddUniform => exact exec_aaddUniform.trans (uniAtomic_form ..)
  case amaxUniform => exact exec_amaxUniform.trans (uniAtomic_form ..)
  case axchgUniform => exact exec_axchgUniform.trans (uniAtomic_form ..)
  case acasUniform => exact exec_acasUniform.trans (uniAtomic_form ..)
  case ldLane => exact exec_ldLane
  case lds => exact exec_lds
  case stLane => exact exec_stLane
  case sts => exact exec_sts
  case ldUniform => exact exec_ldUniform
  case stUniform => exact exec_stUniform

theorem mem_form {i : Instr} {F : MemForm} (h : memForm i = some F) :
    (∀ s, exec i s = memory s i F.uses fun W I => F.lanes W I.sub) ∧ memKind i = some (F.spad, F.kind) :=
  ⟨mem_exec h, memKind_form h⟩

theorem Gang.free.again {s : State} {I : Issuer} (h : I.gang.free) (f : State → Issuer → Out1) : becomeNonRetry s I f = f s I := by
  obtain ⟨a, b, c, e⟩ := h
  have d : Retry.draining I.gang.retry = false := by simp [Retry.draining, a, b, c, e]
  simp [becomeNonRetry, drainThen, d]

theorem Gang.free.commits {s : State} {I : Issuer} (h : I.gang.free) (f : State → Issuer → Out1) : commitPoint s I f = f s I := by
  obtain ⟨a, b, c, e⟩ := h
  have d : Retry.draining I.gang.retry = false := by simp [Retry.draining, a, b, c, e]
  simp [commitPoint, drainThen, d]

/-- A memory instruction that executes normally and has accesses issues them or waits. -/
theorem memory_cases {i : Instr} {F : MemForm} {s : State} {I : Issuer} (h : memForm i = some F) (n : Issues s i false F.uses I) :
    exec i s = if F.lanes (s.window I) I.sub = [] then retire s I .other I.sub
      else if I.sub.logFull (!isLane i) || I.sub.acquirePending || (match releases i with | some sc => releaseWaits s.node I sc | none => false) ||
          (F.accesses s I).any (fun a => I.sub.overlapsPending F.spad F.kind.size a) || pathWaits s I F.spad F.kind (F.accesses s I) then wait s I
      else if (match F.kind with | .atomic _ _ => true | _ => false) || (match releases i with | some sc => decide (2 ≤ sc.rank) | none => false) ||
          ((match F.kind with | .store _ => !F.spad | _ => false) && I.gang.retry.holding &&
            decide (shareBytes < I.gang.retry.used + (F.accesses s I).length * F.kind.size)) then
        becomeNonRetry s I fun s' I' => issueMemory s' I' (s.window I) i F.spad F.kind (F.accesses s I)
      else issueMemory s I (s.window I) i F.spad F.kind (F.accesses s I) := by
  obtain ⟨e, k⟩ := mem_form h
  rw [e, memory, n.plain, k]
  unfold MemForm.accesses
  simp only [List.isEmpty_map, List.isEmpty_iff]
  all_goals rfl

theorem waits_iff {s : State} {i : Instr} {F : MemForm} {I : Issuer} :
    (I.sub.logFull (!isLane i) || I.sub.acquirePending || (match releases i with | some sc => releaseWaits s.node I sc | none => false) ||
      (F.accesses s I).any (fun a => I.sub.overlapsPending F.spad F.kind.size a) || pathWaits s I F.spad F.kind (F.accesses s I)) = false ↔
    Goes s i F I := by
  simp only [Bool.or_eq_false_iff, List.any_eq_false, Bool.not_eq_true]
  constructor
  · rintro ⟨⟨⟨⟨a, b⟩, c⟩, d⟩, e⟩
    exact ⟨a, b, fun sc h => by rw [h] at c; exact c, d, e⟩
  · rintro ⟨a, b, c, d, e⟩
    refine ⟨⟨⟨⟨a, b⟩, ?_⟩, d⟩, e⟩
    cases h : releases i with
    | none => rfl
    | some sc => exact c sc h

/-- No sub-gang changes from s to t. -/
structure Tile.Same (T T' : Tile) : Prop where
  subs : T'.subs = T.subs
  gangs : ∀ g, (kget T'.gangs g).map Gang.ctx = (kget T.gangs g).map Gang.ctx
  blocks : ∀ c, (kget T'.blocks c).map Block.rcd = (kget T.blocks c).map Block.rcd

theorem Tile.Same.refl (T : Tile) : T.Same T := ⟨rfl, fun _ => rfl, fun _ => rfl⟩

theorem Tile.Same.trans {a b c : Tile} (h : a.Same b) (k : b.Same c) : a.Same c :=
  ⟨k.1.trans h.1, fun g => (k.2 g).trans (h.2 g), fun g => (k.3 g).trans (h.3 g)⟩

theorem Tile.Same.of {T T' : Tile} (a : T'.subs = T.subs) (b : T'.gangs = T.gangs) (c : T'.blocks = T.blocks) : T.Same T' :=
  ⟨a, fun _ => by rw [b], fun _ => by rw [c]⟩

def SubsKept (s s' : State) : Prop := ∀ t, (s.tile t).Same (s'.tile t)

theorem SubsKept.refl (s : State) : SubsKept s s := fun _ => .refl _

theorem SubsKept.trans {a b c : State} (h : SubsKept a b) (k : SubsKept b c) : SubsKept a c := fun t => (h t).trans (k t)

theorem SubsKept.of_tiles {s s' : State} (h : s'.tiles = s.tiles) : SubsKept s s' := fun t => by simp only [State.tile, h]; exact .refl _

@[simp] theorem State.tile_setTile (s : State) (k t : Nat) (T : Tile) : (s.setTile k T).tile t = if t = k then T else s.tile t := by
  simp only [State.tile, State.setTile_tiles, kgetD, kget_kset]
  split <;> simp
theorem SubsKept.setTile (s : State) (t : Nat) (T : Tile) (h : (s.tile t).Same T) : SubsKept s (s.setTile t T) := fun x => by
  rw [State.tile_setTile]; split
  · next e => rw [e]; exact h
  · exact .refl _

theorem State.fillTlb_subs (s : State) (t e) : SubsKept s (s.fillTlb t e) := by
  unfold State.fillTlb; dsimp only; split
  · exact .refl _
  · exact .setTile _ _ _ (.of rfl rfl rfl)

theorem State.observe_subs (s : State) (d o) : SubsKept s (s.observe d o) := .of_tiles rfl

theorem State.l1Drop_subs (s : State) (t p) : SubsKept s (s.l1Drop t p) := by
  intro x
  have := SubsKept.setTile s t { s.tile t with l1 := kfilter (s.tile t).l1 fun l _ => !p l } (.of rfl rfl rfl) x
  exact this

theorem State.setRetry_subs (s : State) (t g f) : SubsKept s (s.setRetry t g f) := by
  unfold State.setRetry; split
  · next G h =>
    refine .setTile _ _ _ ⟨rfl, fun k => ?_, fun _ => rfl⟩
    simp only [Tile.setGang, kget_kset]
    split
    · next e => rw [e, h]; rfl
    · rfl
  · exact .refl _

theorem Block.setSpad_rcd (B : Block) (o bs) : (B.setSpad o bs).rcd = B.rcd := by
  induction bs generalizing B o with
  | nil => rfl
  | cons v vs ih => rw [Block.setSpad, ih]; unfold Block.setSpadByte; split <;> rfl

theorem State.spadWrite_subs (s : State) (a bs) : SubsKept s (s.spadWrite a bs) := by
  unfold State.spadWrite; split
  · next B h =>
    refine .setTile _ _ _ ⟨rfl, fun _ => rfl, fun k => ?_⟩
    simp only [Tile.setBlock, kget_kset]
    split
    · next e => rw [e, h]; simp [Block.setSpad_rcd]
    · rfl
  · exact .refl _

theorem State.fillRank_subs (s : State) (t e) : SubsKept s (s.fillRank t e) := by
  unfold State.fillRank; dsimp only; (repeat' split) <;> first
    | exact .setTile _ _ _ (.of rfl rfl rfl)
    | exact .refl _

theorem State.takeAnswer_subs (s : State) (r) : SubsKept s (s.takeAnswer r) := by
  unfold State.takeAnswer
  extract_lets s1 s2
  have h1 : SubsKept s s1 := by
    unfold s1; split
    · exact s.observe_subs _ _
    · exact .refl _
  have h : SubsKept s s2 := by
    unfold s2; split
    · exact h1.trans (State.fillRank_subs _ _ _)
    · exact h1
  clear_value s2
  refine h.trans ?_
  split
  · exact .setTile _ _ _ (.of rfl rfl rfl)
  · exact .refl _

theorem State.frameMsg_tiles (s : State) (m : Msg) : (s.frameMsg m).tiles = s.tiles := by
  unfold State.frameMsg; split <;> rfl

theorem State.leave_tiles (s : State) (m : Msg) : (s.leave m).tiles = s.tiles := by
  unfold State.leave; dsimp only; rw [State.frameMsg_tiles]; rfl

theorem State.send_tiles (s : State) (a b c d e f g h) : (s.send a b c d e f g h).tiles = s.tiles := by
  unfold State.send; dsimp only; split
  · rfl
  · split
    · exact State.leave_tiles _ _
    · rfl

theorem State.crossPath_tiles (n : Nat) (l : List Nat) (s : State) (d : Nat) : (s.crossPath n l d).tiles = s.tiles := by
  induction l generalizing s d with
  | nil => rfl
  | cons b l ih => rw [State.crossPath, ih]; rfl

theorem State.crossTo_tiles (s : State) (die p : Nat) (pk : Packet) : (s.crossTo die p pk).tiles = s.tiles := by
  unfold State.crossTo; dsimp only; split
  · rfl
  · simp only [State.setDie_tiles, State.crossPath_tiles]

theorem State.emit_tiles (s : State) (die p : Nat) (pk : Packet) (x) : (s.emit die p pk x).tiles = s.tiles := by
  unfold State.emit; dsimp only
  show (s.crossTo die p pk).tiles = _
  exact State.crossTo_tiles _ _ _ _

theorem State.tryLast_tiles (s : State) : s.tryLast.tiles = s.tiles := by
  unfold State.tryLast State.emitOut; dsimp only
  (repeat' split) <;> simp [State.emit_tiles]

theorem State.performBody_tiles (s : State) (h : Nat) (m : Msg) (nr : ∀ r, m.body ≠ .strand r) : (s.performBody h m).1.tiles = s.tiles := by
  unfold State.performBody
  split
  · rfl
  · rfl
  · split <;> rfl
  · split
    · rfl
    · split <;> rfl
  · next r e => exact absurd e (nr r)
  · rfl

theorem State.requestTo_subs (s : State) (t vf w seq l fa) (b : Body) (nr : ∀ r, b ≠ .strand r) : SubsKept s (s.requestTo t vf w seq l fa b).1 := by
  unfold State.requestTo
  split
  · dsimp only; split
    · exact .refl _
    · exact .of_tiles (by rw [State.tryLast_tiles]; rfl)
  · dsimp only; split
    · have := State.performBody_tiles s (dieOf t) ⟨dieOf t, dieOf t, 0, (s.die (dieOf t)).vec, ent (s.die (dieOf t)).vec (dieOf t), b, t, seq, l, none, (s.tile t).world, false⟩ nr
      simp only [State.performHere]
      split
      · next e => rw [e] at this; exact .of_tiles this
      · next e => rw [e] at this; exact .of_tiles this
    · split
      · exact .refl _
      · exact .of_tiles (State.send_tiles ..)

theorem issueGlobal_subs (s : State) (I seq k a fa) : SubsKept s (issueGlobal s I seq k a fa).1 := by
  have go : ∀ (s : State) (b : Body) (a : Access), (∀ r, b ≠ .strand r) → SubsKept s
      (match s.requestTo I.t I.block.vf I.block.world seq a.lane fa b with
        | (s, .answered r) => (s.takeAnswer r, a.answer r)
        | (s, .onWay) => (s, { a with st := .pending })).1 := by
    intro s b a nr
    have := s.requestTo_subs I.t I.block.vf I.block.world seq a.lane fa b nr
    split
    · next e => rw [e] at this; exact this.trans (State.takeAnswer_subs _ _)
    · next e => rw [e] at this; exact this
  cases k with
  | load n o =>
    unfold issueGlobal
    extract_lets pa near n' held holding body go'
    have hgo : ∀ s a, SubsKept s (go' s a).1 := fun s a => go s body a (by intro r; exact nofun)
    clear_value go' body
    dsimp only
    split
    · exact .refl _
    · exact hgo _ _
  | store n =>
    unfold issueGlobal
    extract_lets pa near n' held holding body go'
    have hgo : ∀ s a, SubsKept s (go' s a).1 := fun s a => go s body a (by intro r; exact nofun)
    clear_value go' body
    dsimp only
    split
    · exact (State.l1Drop_subs _ _ _).trans (State.setRetry_subs _ _ _ _)
    · exact (State.l1Drop_subs _ _ _).trans (hgo _ _)
  | atomic op w =>
    unfold issueGlobal
    extract_lets pa near n' held holding body go'
    have hgo : ∀ s a, SubsKept s (go' s a).1 := fun s a => go s body a (by intro r; exact nofun)
    clear_value go' body
    exact (State.l1Drop_subs _ _ _).trans (hgo _ _)

theorem issueAccess_subs (s : State) (I seq sp k a) : SubsKept s (issueAccess s I seq sp k a).1 := by
  unfold issueAccess
  dsimp only
  split
  · split
    · exact .refl _
    · exact .refl _
    · cases k <;> dsimp only <;> (repeat' split) <;> first
        | exact SubsKept.of_tiles rfl
        | exact SubsKept.refl _
        | exact State.spadWrite_subs _ _ _
  · split
    · exact .refl _
    · exact (State.fillTlb_subs _ _ _).trans (issueGlobal_subs _ _ _ _ _ _)

theorem issueAll_append (s : State) (I seq sp k) (as : List Access) (acc : List Access) :
    as.foldl (fun (x : State × List Access) a => ((issueAccess x.1 I seq sp k a).1, x.2 ++ [(issueAccess x.1 I seq sp k a).2])) (s, acc) =
    ((issueAll s I seq sp k as).1, acc ++ (issueAll s I seq sp k as).2) := by
  induction as generalizing s acc with
  | nil => simp [issueAll]
  | cons a as ih =>
    rw [List.foldl_cons, ih]
    have : issueAll s I seq sp k (a :: as) = ((issueAll (issueAccess s I seq sp k a).1 I seq sp k as).1,
      [(issueAccess s I seq sp k a).2] ++ (issueAll (issueAccess s I seq sp k a).1 I seq sp k as).2) := by
      unfold issueAll; rw [List.foldl_cons]; exact ih _ _
    rw [this]; simp

theorem issueAll_cons (s : State) (I seq sp k a) (as : List Access) : issueAll s I seq sp k (a :: as) =
    ((issueAll (issueAccess s I seq sp k a).1 I seq sp k as).1,
      (issueAccess s I seq sp k a).2 :: (issueAll (issueAccess s I seq sp k a).1 I seq sp k as).2) := by
  have := issueAll_append (issueAccess s I seq sp k a).1 I seq sp k as [(issueAccess s I seq sp k a).2]
  simpa [issueAll] using this

theorem issueAll_subs (s : State) (I seq sp k as) : SubsKept s (issueAll s I seq sp k as).1 := by
  induction as generalizing s with
  | nil => exact .refl _
  | cons a as ih => rw [issueAll_cons]; exact (issueAccess_subs _ _ _ _ _ _).trans (ih _)

/-- What becomes of an access leaves its lane as it is. -/
theorem issueAccess_lane (s : State) (I seq sp k a) : (issueAccess s I seq sp k a).2.lane = a.lane := by
  unfold issueAccess
  dsimp only
  split
  · split
    · rfl
    · rfl
    · cases k <;> dsimp only <;> (repeat' split) <;> rfl
  · split
    · rfl
    · unfold issueGlobal
      cases k <;> dsimp only <;> (repeat' split) <;> first | rfl | (unfold Access.answer; split <;> rfl)

theorem issueAll_lane (s : State) (I seq sp k as) : (issueAll s I seq sp k as).2.map Access.lane = as.map Access.lane := by
  induction as generalizing s with
  | nil => rfl
  | cons a as ih => rw [issueAll_cons]; simp [ih, issueAccess_lane]

theorem byte8 (x : BitVec 128) : (x.setWidth 8).setWidth 32 = BitVec.ofNat 32 (x.toNat % 2 ^ 8) := by
  apply BitVec.eq_of_toNat_eq; simp

theorem loadWords_eq (ty : Ty) (x : BitVec 128) : loadWords ty x = laneWords ty x := by
  cases ty <;> simp only [loadWords, laneWords, List.cons.injEq, and_true] <;> (try constructor) <;> (try constructor) <;> (try constructor) <;>
    first
    | (apply BitVec.eq_of_toNat_eq; simp [BitVec.extractLsb', Nat.shiftRight_eq_div_pow]; done)
    | rfl

theorem loadUni_eq (ty : Ty) (x : BitVec 128) : loadUni ty x = uniWords ty x := by
  cases ty <;> simp only [loadUni, uniWords, List.cons.injEq, and_true] <;> (try constructor) <;> (try constructor) <;> (try constructor) <;>
    first
    | (apply BitVec.eq_of_toNat_eq; simp [BitVec.extractLsb', Nat.shiftRight_eq_div_pow]; done)
    | rfl

theorem setW32 (x : BitVec 128) : x.setWidth 32 = BitVec.ofNat 32 x.toNat := by
  apply BitVec.eq_of_toNat_eq; simp

theorem setW64 (x : BitVec 128) : x.setWidth 64 = BitVec.ofNat 64 x.toNat := by
  apply BitVec.eq_of_toNat_eq; simp

theorem setW3264 (x : BitVec 128) : (x.setWidth 32).setWidth 64 = BitVec.ofNat 64 (x.toNat % 2 ^ 32) := by
  apply BitVec.eq_of_toNat_eq; simp

theorem mem_wb {i : Instr} {F : MemForm} (h : memForm i = some F) (x : BitVec 128) (pr : Bool) :
    wbOf i x pr = match F.dst with
      | some r => ⟨seqFrom r (F.words x), seqFrom r (F.sregs x), none⟩
      | none => ⟨[], [], none⟩ := by
  cases i <;> simp only [memForm, Option.some.injEq, reduceCtorEq] at h
  all_goals subst h
  all_goals first
    | (simp only [wbOf, MemForm.load, lreg, loadWords_eq]; split <;> rfl)
    | (simp only [wbOf, MemForm.store]; done)
    | (simp only [wbOf, ureg, loadUni_eq]; split <;> rfl)
    | (simp only [wbOf, MemForm.atomic, setW32]; rfl)
    | (simp only [wbOf, MemForm.uatomic, ureg]; split <;> (first | rfl | (rename_i ty _ _; cases ty <;> simp only [setW64, setW3264] <;> rfl)))

theorem foldl_seqFrom {α β : Type} (r b : Nat) (ws : List α) (f : β → Nat → α → β) (L : β) :
    (seqFrom r ws).foldl (fun L x => f L (b + x.1) x.2) L = ws.zipIdx.foldl (fun L x => f L (b + r + x.2) x.1) L := by
  rw [seqFrom, List.foldl_map]
  simp only [Nat.add_assoc]

theorem setSregs_fold (l : List (Word × Nat)) (r : Nat) (S : Slice) :
    l.foldl (fun (S : Slice) x => S.setSreg (r + x.2) x.1) S = (l.map fun x => (r + x.2, x.1)).foldl (fun S x => S.setSreg x.1 x.2) S := by
  rw [List.foldl_map]

theorem mem_put {i : Instr} {F : MemForm} (h : memForm i = some F) (S : Slice) (W : Win) (e : LogEntry) (a : Access) (he : e.i = i) :
    S.writeBack W e a = F.put W S a := by
  unfold Slice.writeBack MemForm.put
  rw [he, mem_wb h]
  cases F.dst with
  | none =>
    dsimp only
    cases a.lane with
    | none => rfl
    | some j =>
      dsimp only [List.foldl]
      have : S.lanes.modify (j % 4) (fun L => L) = S.lanes := List.modify_id ..
      rw [this]
  | some r =>
    dsimp only
    cases a.lane with
    | none =>
      dsimp only
      simp only [seqFrom, List.foldl_map]
    | some j =>
      dsimp only
      have : (fun L : Lane => (seqFrom r (F.words a.data)).foldl (fun L x => L.setReg (W.base + x.1) x.2) L) = fun L => L.putRegs (W.base + r) (F.words a.data) :=
        funext fun L => foldl_seqFrom r W.base (F.words a.data) (fun L n x => L.setReg n x) L
      rw [← this]

theorem setSregs_log (l : List (Word × Nat)) (r : Nat) (S : Slice) : (l.foldl (fun (S : Slice) x => S.setSreg (r + x.2) x.1) S).log = S.log := by
  induction l generalizing S with
  | nil => rfl
  | cons x l ih => rw [List.foldl_cons, ih]; rfl

theorem setSregs_withLog (l : List (Word × Nat)) (r : Nat) (S : Slice) (e : List LogEntry) :
    l.foldl (fun (S : Slice) x => S.setSreg (r + x.2) x.1) { S with log := e } =
      { l.foldl (fun (S : Slice) x => S.setSreg (r + x.2) x.1) S with log := e } := by
  induction l generalizing S with
  | nil => rfl
  | cons x l ih => rw [List.foldl_cons, List.foldl_cons, ← ih]; rfl

theorem put_log (F : MemForm) (W : Win) (S : Slice) (a : Access) : (F.put W S a).log = S.log := by
  unfold MemForm.put; split
  · rfl
  · exact setSregs_log _ _ _
  · rfl

theorem puts_log (F : MemForm) (W : Win) (S : Slice) (as : List Access) (l : List LogEntry) :
    as.foldl (F.put W) { S with log := l } = { as.foldl (F.put W) S with log := l } := by
  induction as generalizing S with
  | nil => rfl
  | cons a as ih =>
    rw [List.foldl_cons, List.foldl_cons, ← ih]
    congr 1
    unfold MemForm.put; split
    · rfl
    · exact setSregs_withLog _ _ _ _
    · rfl

theorem puts_logOf (F : MemForm) (W : Win) (S : Slice) (as : List Access) : (as.foldl (F.put W) S).log = S.log := by
  have := congrArg Slice.log (puts_log F W S as S.log)
  exact this

theorem settle_done {i : Instr} {F : MemForm} (h : memForm i = some F) (S : Slice) (W : Win) (e : LogEntry) (he : e.i = i) (hl : S.log = [])
    (hne : e.accs ≠ []) (hd : ∀ a ∈ e.accs, a.st = .done) :
    ({ S with log := S.log ++ [e] }).settleLog W = e.accs.foldl (F.put W) S := by
  have w : e.waiting = false := by
    simp only [LogEntry.waiting, List.any_eq_false]
    intro a ha; simp [hd a ha]
  have p : e.pending = true := by
    obtain ⟨a, ha⟩ := List.exists_mem_of_ne_nil _ hne
    simp only [LogEntry.pending, List.any_eq_true]
    exact ⟨a, ha, by simp [hd a ha]⟩
  have fd : e.accs.filter Access.isDone = e.accs := by
    rw [List.filter_eq_self]; intro a ha; simp [Access.isDone, hd a ha]
  have fr : (e.accs.filter fun a => !a.isDone) = [] := by
    rw [List.filter_eq_nil_iff]; intro a ha; simp [Access.isDone, hd a ha]
  unfold Slice.settleLog
  simp only [hl, List.nil_append, List.foldl_cons, List.foldl_nil, w, p, Bool.not_false, Bool.and_self, if_true]
  unfold Slice.settleEntry
  have e1 : (fun (S : Slice) (a : Access) => S.writeBack W e a) = F.put W := by funext S a; exact mem_put h S W e a he
  simp only [fd, fr, List.isEmpty_nil, if_true, e1]
  rw [puts_log]
  simp only [List.filter_cons, List.filter_nil]
  simp
  have := puts_logOf F W S e.accs
  rw [hl] at this
  cases hh : (List.foldl (F.put W) S e.accs)
  rw [hh] at this
  simp only at this
  subst this
  rfl

theorem raiseFaults_none (s : State) (t u seq : Nat) (U : Sub) (hk : kget (s.tile t).subs u = some U) (h : U.faults = []) :
    s.raiseFaults t u seq = s := by
  unfold State.raiseFaults
  rw [hk]
  dsimp only
  have h1 : U.faultsOf seq = ([], 0) := by simp [Sub.faultsOf, h]
  split
  · simp [h1, logTrap]
  · unfold State.enterLogTrap
    rw [hk]
    dsimp only
    split
    · have : U.oldestFault = none := by simp [Sub.oldestFault, h]
      rw [this]
    · rfl

theorem setRetry_mem (s : State) (t g f) : (s.setRetry t g f).mem = s.mem := by
  unfold State.setRetry; split <;> rfl

theorem spadWrite_mem (s : State) (a bs) : (s.spadWrite a bs).mem = s.mem := by
  unfold State.spadWrite; split <;> rfl

theorem send_mem (s : State) (a b c d e f g h) : (s.send a b c d e f g h).mem = s.mem := by simp

theorem takeAnswer_mem (s : State) (r) : (s.takeAnswer r).mem = s.mem := by simp

theorem fillTlb_mem (s : State) (t e) : (s.fillTlb t e).mem = s.mem := by
  unfold State.fillTlb; dsimp only; split <;> rfl

theorem pumpFabric_mem (s : State) : s.pumpFabric.1.mem = s.mem := by simp

theorem cell_away {s : State} {pa : Nat} {bs : List Byte} {x : Nat} (h : x < pa ∨ pa + bs.length ≤ x) :
    cellGet (s.putBytes pa bs).mem x = cellGet s.mem x := by
  simp only [State.putBytes, cellGet_cellsSet]
  split
  · omega
  · rfl

/-- What a request may change of memory: the bytes its body writes, when its home is the tile's own die. -/
theorem requestTo_mem (s : State) (t vf w seq l fa) (b : Body) (x : Nat) (nr : ∀ r, b ≠ .strand r) (ns : ∀ p i c, b ≠ .signal p i c)
    (h : fa / 2 ^ 42 = s.node → ∀ pa n, b.writes = true → b.span = some (pa, n) → x < pa ∨ pa + n ≤ x) :
    cellGet (s.requestTo t vf w seq l fa b).1.mem x = cellGet s.mem x := by
  unfold State.requestTo
  split
  · dsimp only; split
    · rfl
    · simp
  · next hn =>
    have h := h (by simpa using hn)
    dsimp only; split
    · have : cellGet (s.performHere t seq l b).1.mem x = cellGet s.mem x := by
        unfold State.performHere State.performBody
        cases b with
        | write pa bs => exact cell_away (h pa bs.length rfl rfl)
        | signal p i c => exact absurd rfl (ns p i c)
        | atomic pa op w y z =>
          dsimp only
          split
          · rfl
          · unfold State.atomicAt
            exact cell_away (by rw [natLe_length]; exact h pa (w / 8) rfl rfl)
        | read pa n line =>
          dsimp only
          split <;> rfl
        | strand r => exact absurd rfl (nr r)
        | announce v => rfl
      split
      · next e => rw [e] at this; exact this
      · next e => rw [e] at this; exact this
    · split
      · rfl
      · rw [send_mem]

theorem issueGlobal_mem (s : State) (I : Issuer) (seq : Nat) (k : MemKind) (a : Access) (fa x : Nat)
    (h : (∀ n o, k ≠ .load n o) → fa / 2 ^ 42 = s.node → x < fa % 2 ^ 42 ∨ fa % 2 ^ 42 + k.size ≤ x) :
    cellGet (issueGlobal s I seq k a fa).1.mem x = cellGet s.mem x := by
  have go : ∀ (s : State) (b : Body) (a : Access), (∀ r, b ≠ .strand r) → (∀ p i c, b ≠ .signal p i c) →
      (fa / 2 ^ 42 = s.node → ∀ pa n, b.writes = true → b.span = some (pa, n) → x < pa ∨ pa + n ≤ x) → cellGet
      (match s.requestTo I.t I.block.vf I.block.world seq a.lane fa b with
        | (s, .answered r) => (s.takeAnswer r, a.answer r)
        | (s, .onWay) => (s, { a with st := .pending })).1.mem x = cellGet s.mem x := by
    intro s b a nr ns hb
    have := requestTo_mem s I.t I.block.vf I.block.world seq a.lane fa b x nr ns hb
    split
    · next e => rw [e] at this; rw [takeAnswer_mem]; exact this
    · next e => rw [e] at this; exact this
  cases k with
  | load n o =>
    unfold issueGlobal
    extract_lets pa near n' held holding body go'
    have hgo : ∀ s a, cellGet (go' s a).1.mem x = cellGet s.mem x := fun s a =>
      go s body a (by intro r; exact nofun) (by intro p i c; exact nofun) fun _ _ _ e => nomatch e
    clear_value go' body
    dsimp only
    split
    · rfl
    · exact hgo _ _
  | store n =>
    unfold issueGlobal
    extract_lets pa near n' held holding body go'
    have hgo : ∀ s' a, s'.gnode = s.gnode → cellGet (go' s' a).1.mem x = cellGet s'.mem x := fun s' a e =>
      go s' body a (by intro r; exact nofun) (by intro p i c; exact nofun) (by
        intro hn pa' n'' _ hs
        simp only [body, Body.span, Option.some.injEq, Prod.mk.injEq, natLe_length] at hs
        obtain ⟨rfl, rfl⟩ := hs
        exact h (by intro _ _; exact nofun) (by rw [hn]; simp only [State.node, e]))
    clear_value go' body
    dsimp only
    split
    · rw [setRetry_mem]; rfl
    · refine (hgo _ _ ?_).trans ?_ <;> rfl
  | atomic op w =>
    unfold issueGlobal
    extract_lets pa near n' held holding body go'
    have hgo : ∀ s' a, s'.gnode = s.gnode → cellGet (go' s' a).1.mem x = cellGet s'.mem x := fun s' a e =>
      go s' body a (by intro r; exact nofun) (by intro p i c; exact nofun) (by
        intro hn pa' n'' _ hs
        simp only [body, Body.span, Option.some.injEq, Prod.mk.injEq] at hs
        obtain ⟨rfl, rfl⟩ := hs
        exact h (by intro _ _; exact nofun) (by rw [hn]; simp only [State.node, e]))
    clear_value go' body
    dsimp only
    refine (hgo _ _ ?_).trans ?_ <;> rfl

theorem issueAccess_mem (F : MemForm) (s : State) (I : Issuer) (seq : Nat) (a : Access) (x : Nat)
    (h : ∀ pa, F.storesAt s I a = some pa → x < pa ∨ pa + F.kind.size ≤ x) :
    cellGet (issueAccess s I seq F.spad F.kind a).1.mem x = cellGet s.mem x := by
  unfold issueAccess
  dsimp only
  split
  · split
    · rfl
    · rfl
    · cases F.kind <;> dsimp only <;> (repeat' split) <;> first | rfl | rw [spadWrite_mem]
  · next hs =>
    have hs : F.spad = false := by simpa using hs
    split
    · rfl
    · next fa e hc =>
      rw [issueGlobal_mem, fillTlb_mem]
      intro hk hn
      have hn : fa / 2 ^ 42 = s.node := by
        rw [hn]; unfold State.fillTlb; dsimp only; split <;> rfl
      apply h
      unfold MemForm.storesAt
      rw [hs]
      revert hc
      cases hk' : F.kind with
      | load n o => exact absurd hk' (hk n o)
      | store n => intro hc; simp [hc, hn, -Nat.reducePow]
      | atomic op w => intro hc; simp [hc, hn, -Nat.reducePow]

theorem issueAll_snoc (s : State) (I seq sp k) (as : List Access) (a : Access) : (issueAll s I seq sp k (as ++ [a])).1 =
    (issueAccess (issueAll s I seq sp k as).1 I seq sp k a).1 := by
  unfold issueAll
  rw [List.foldl_append]; rfl

theorem made_mem (F : MemForm) (s : State) (I : Issuer) (x : Nat)
    (h : ∀ k a, (F.accesses s I)[k]? = some a → ∀ pa, F.storesAt (F.made s I k).1 I a = some pa → x < pa ∨ pa + F.kind.size ≤ x)
    (n : Nat) (hn : n ≤ (F.accesses s I).length) : cellGet (F.made s I n).1.mem x = cellGet s.mem x := by
  induction n with
  | zero => rfl
  | succ n ih =>
    obtain ⟨a, ha⟩ : ∃ a, (F.accesses s I)[n]? = some a := ⟨_, List.getElem?_eq_getElem (by omega)⟩
    have := h n a ha
    have e : (F.made s I (n + 1)).1 = (issueAccess (F.made s I n).1 I s.nextId F.spad F.kind a).1 := by
      unfold MemForm.made
      rw [List.take_add_one, ha]
      exact issueAll_snoc ..
    rw [e, issueAccess_mem F _ _ _ _ _ this, ih (by omega)]

/-! traps with a handler -/

theorem takeTrap_mem {s : State} {t u : Nat} {U : Sub} {G : Gang} {B : Block} (tr : Trap) (hu : kget (s.tile t).subs u = some U)
    (hg : kget (s.tile t).gangs U.gang = some G) (hb : kget (s.tile t).blocks G.ctx = some B) (hi : U.inh = false)
    (hh : B.rcd.handler ≠ 0) : (takeTrap s t u tr).mem = s.mem := by
  unfold takeTrap
  simp only [hu, hg, hb, hi, Bool.false_or, beq_iff_eq, if_neg hh]
  rfl

theorem Sub.inh_of {U V : Sub} (h : U.slices.map (fun x => x.2.tcause) = V.slices.map (fun x => x.2.tcause)) : U.inh = V.inh := by
  unfold Sub.inh Sub.low Slice.inh
  cases hU : U.slices <;> cases hV : V.slices <;> simp_all

theorem writeBack_tcause (S : Slice) (W e a) : (S.writeBack W e a).tcause = S.tcause := by
  have hf : ∀ (l : List (Nat × Word)) (S : Slice), (l.foldl (fun S x => S.setSreg x.1 x.2) S).tcause = S.tcause := by
    intro l; induction l with
    | nil => intro S; rfl
    | cons a l ih => intro S; rw [List.foldl_cons, ih]; rfl
  unfold Slice.writeBack
  dsimp only
  split
  · rfl
  · split
    · exact hf _ _
    · exact hf _ _

theorem settleEntry_tcause (S : Slice) (W e) : (S.settleEntry W e).tcause = S.tcause := by
  unfold Slice.settleEntry
  dsimp only
  exact foldl_keep _ Slice.tcause (fun b a => writeBack_tcause b W e a) _ _

theorem settleLog_tcause (S : Slice) (W) : (S.settleLog W).tcause = S.tcause := by
  unfold Slice.settleLog
  exact foldl_keep _ Slice.tcause (fun b e => by split; exact settleEntry_tcause b W e; rfl) _ _

theorem logAccesses_inh (U : Sub) (W i seq st args as) : (U.logAccesses W i seq st args as).inh = U.inh := by
  apply Sub.inh_of
  unfold Sub.logAccesses kmap
  simp only [List.map_map]
  refine List.map_congr_left fun x _ => ?_
  dsimp only [Function.comp]
  split
  · rfl
  · rw [settleLog_tcause]

theorem raiseFaults_mem {s : State} {t u : Nat} {U : Sub} {G : Gang} {B : Block} (seq : Nat) (hu : kget (s.tile t).subs u = some U)
    (hg : kget (s.tile t).gangs U.gang = some G) (hb : kget (s.tile t).blocks G.ctx = some B) (hi : U.inh = false)
    (hh : B.rcd.handler ≠ 0) : (s.raiseFaults t u seq).mem = s.mem := by
  unfold State.raiseFaults
  rw [hu]
  dsimp only
  rw [hi, Bool.false_and, if_neg (by simp)]
  unfold State.enterLogTrap
  rw [hu]; dsimp only
  split
  · split
    · rfl
    · split
      · exact takeTrap_mem _ hu hg hb hi hh
      · rfl
  · rfl

theorem Tile.Same.found {T T' : Tile} (h : T.Same T') {g : Nat} {G : Gang} {B : Block} (hg : kget T.gangs g = some G)
    (hb : kget T.blocks G.ctx = some B) : ∃ G' B', kget T'.gangs g = some G' ∧ kget T'.blocks G'.ctx = some B' ∧ B'.rcd = B.rcd := by
  have := h.gangs g
  rw [hg] at this
  obtain ⟨G', e, c⟩ := Option.map_eq_some_iff.1 this
  have := h.blocks G.ctx
  rw [hb] at this
  obtain ⟨B', e', c'⟩ := Option.map_eq_some_iff.1 this
  exact ⟨G', B', e, c ▸ e', c'⟩

/-- A sub-gang's trap with a handler leaves memory as it is, whatever of the sub-gang itself changed before it. -/
theorem trapBad_mem {s : State} {I : Issuer} (hI : s.issuer = some I) (hi : I.sub.inh = false) (hh : I.block.rcd.handler ≠ 0)
    {W : Win} {l : Bool} {us : List Use} {t : State} (e : trapBad s I W l us = .next t) : t.mem = s.mem := by
  obtain ⟨hT, hu, hg, hb, -⟩ := issuer_sub hI
  rw [hT] at hu hg hb
  have tw : ∀ tr, (takeTrap (s.setSub I.t I.u (I.sub.heal W us)) I.t I.u tr).mem = s.mem := by
    intro tr
    refine (takeTrap_mem tr (U := I.sub.heal W us) (G := I.gang) (B := I.block) ?_ ?_ ?_ ?_ hh).trans rfl
    · simp [State.setSub, Tile.setSub]
    · simpa [State.setSub, Tile.setSub, Sub.heal, Sub.mapSlices] using hg
    · simpa [State.setSub, Tile.setSub] using hb
    · rw [Sub.inh_of (V := I.sub)]
      · exact hi
      · simp [Sub.heal, Sub.mapSlices, kmap, Function.comp_def]
  unfold trapBad at e
  dsimp only at e
  split at e
  · unfold trapLanes at e
    split at e
    · cases e; rfl
    · cases e; exact tw _
  · cases e; exact tw _

theorem withOperands_mem {s : State} {I : Issuer} (hI : s.issuer = some I) (hi : I.sub.inh = false) (hh : I.block.rcd.handler ≠ 0)
    {i : Instr} {us : List Use} {f : State → Issuer → Win → Nat → Out1} {t : State} {x : Nat}
    (hf : f s I (s.window I) 0 = .next t → cellGet t.mem x = cellGet s.mem x)
    (e : withOperands s i false us f = .next t) : cellGet t.mem x = cellGet s.mem x := by
  obtain ⟨hT, hu, hg, hb, -⟩ := issuer_sub hI
  have tw : ∀ (s' : State) tr, SubsKept s s' → (takeTrap s' I.t I.u tr).mem = s'.mem := by
    intro s' tr k
    rw [hT] at hu hg hb
    obtain ⟨G', B', a, b, c⟩ := (k I.t).found hg hb
    exact takeTrap_mem tr ((k I.t).subs ▸ hu) a b hi (c ▸ hh)
  have tl : ∀ (s' : State) cs t, SubsKept s s' → trapLanes s' I cs = .next t → t.mem = s'.mem := by
    intro s' cs t k h
    unfold trapLanes at h
    split at h
    · cases h; rfl
    · cases h; exact tw _ _ k
  have tww : ∀ (s' : State) l g c d t, SubsKept s s' → trapWhole s' I l g c d = .next t → t.mem = s'.mem := by
    intro s' l g c d t k h
    unfold trapWhole at h
    split at h
    · split at h
      · cases h; rw [tw _ _ k]
      · rw [tl _ _ _ k h]
    · cases h; rw [tw _ _ k]
  rw [withOperands, withIssuer_of hI] at e
  dsimp only at e
  split at e
  · exact congrArg (cellGet · x) (trapBad_mem hI hi hh e)
  · split at e
    · next h0 =>
      split at e
      · exact congrArg (cellGet · x) (tww { s with free := s.free + 1 } _ _ _ _ _ (.of_tiles rfl) e)
      · rw [tww _ _ _ _ _ _ (.refl _) e]
    · next h0 =>
      split at e
      · rw [wait_eq hI] at e; cases e; rfl
      · rw [useFault_noLatch h0] at e
        exact hf e

theorem ite3 {α : Type} {c1 c2 c3 : Prop} [Decidable c1] [Decidable c2] [Decidable c3] {a b d f t : α}
    (e : (if c1 then a else if c2 then b else if c3 then d else f) = t) : a = t ∨ b = t ∨ d = t ∨ f = t := by
  split at e
  · exact .inl e
  · split at e
    · exact .inr (.inl e)
    · split at e
      · exact .inr (.inr (.inl e))
      · exact .inr (.inr (.inr e))

theorem datumByte_bit (x : BitVec 128) (k i : Nat) (h : i < 8) : (datumByte x k).getLsbD i = x.getLsbD (8 * k + i) := by
  have : datumByte x k = (x >>> (8 * k)).setWidth 8 := by
    apply BitVec.eq_of_toNat_eq
    simp [datumByte, Nat.shiftRight_eq_div_pow, Nat.pow_mul]
  rw [this]
  simp [h]

theorem byteAt_bit (b : Byte) (k j : Nat) (hj : j < 128) : (b.setWidth 128 <<< (8 * k)).getLsbD j = (decide (j / 8 = k) && b.getLsbD (j % 8)) := by
  rw [BitVec.getLsbD_shiftLeft, BitVec.getLsbD_setWidth]
  by_cases h : j / 8 = k
  · subst h
    have h1 : ¬ j < 8 * (j / 8) := by omega
    have h2 : j - 8 * (j / 8) = j % 8 := by omega
    simp only [hj, h1, h2, decide_true, decide_false, Bool.not_false, Bool.true_and, Bool.and_eq_right_iff_imp, decide_eq_true_eq]
    intro _; omega
  · by_cases h3 : j < 8 * k
    · simp [hj, h3, h]
    · have h4 : 8 ≤ j - 8 * k := by omega
      simp [hj, h, BitVec.getLsbD_of_ge b _ h4]

theorem overlay_bit (m : BitVec 16) (own mem : BitVec 128) (j : Nat) (hj : j < 128) :
    (overlayBytes m own mem).getLsbD j = if m.getLsbD (j / 8) then own.getLsbD j else mem.getLsbD j := by
  have : ∀ n, (((List.range n).foldl (fun x k =>
      if m.getLsbD k then x ||| (((own >>> (8 * k)).setWidth 8).setWidth 128 <<< (8 * k))
      else x ||| (((mem >>> (8 * k)).setWidth 8).setWidth 128 <<< (8 * k))) 0 : BitVec 128)).getLsbD j =
      (decide (j / 8 < n) && if m.getLsbD (j / 8) then own.getLsbD j else mem.getLsbD j) := by
    intro n
    induction n with
    | zero => simp
    | succ n ih =>
      have hb : ∀ y : BitVec 128, (((y >>> (8 * n)).setWidth 8).setWidth 128 <<< (8 * n)).getLsbD j = (decide (j / 8 = n) && y.getLsbD j) := by
        intro y
        rw [byteAt_bit _ _ _ hj]
        by_cases h : j / 8 = n
        · subst h
          have h1 : j % 8 < 8 := by omega
          have h2 : 8 * (j / 8) + j % 8 = j := by omega
          simp [h1, h2]
        · simp [h]
      rw [List.range_succ, List.foldl_append, List.foldl_cons, List.foldl_nil]
      by_cases h : j / 8 = n
      · subst h
        by_cases hm : m.getLsbD (j / 8) = true
        · simp only [hm, if_true, BitVec.getLsbD_or, ih, hb]; simp
        · rw [if_neg hm, BitVec.getLsbD_or, ih, hb, if_neg hm]; simp
      · have e : decide (j / 8 < n + 1) = decide (j / 8 < n) := by
          apply decide_eq_decide.2; omega
        split <;> simp only [BitVec.getLsbD_or, ih, hb, h, e] <;> simp
  have h16 := this 16
  have hlt : j / 8 < 16 := by omega
  simp only [hlt, decide_true, Bool.true_and] at h16
  exact h16

theorem datumByte_overlay (m : BitVec 16) (own mem : BitVec 128) (k : Nat) (hk : k < 16) :
    datumByte (overlayBytes m own mem) k = if m.getLsbD k then datumByte own k else datumByte mem k := by
  apply BitVec.eq_of_getLsbD_eq
  intro i hi
  rw [datumByte_bit _ _ _ hi, overlay_bit _ _ _ _ (by omega)]
  have : (8 * k + i) / 8 = k := by omega
  rw [this]
  split <;> rw [datumByte_bit _ _ _ hi]

theorem datumByte_dataOf (bs : List Byte) (h : bs.length ≤ 16) (k : Nat) : datumByte (dataOf bs) k = bs.getD k 0 := by
  have hl : leNat bs < 2 ^ 128 := by
    have := leNat_lt bs
    have h2 : 256 ^ bs.length ≤ 256 ^ 16 := Nat.pow_le_pow_right (by omega) h
    have : (256 : Nat) ^ 16 = 2 ^ 128 := by decide
    omega
  have : (dataOf bs).toNat = leNat bs := by
    rw [dataOf, BitVec.toNat_ofNat, Nat.mod_eq_of_lt hl]
  rw [datumByte, this]
  clear this hl h
  induction bs generalizing k with
  | nil => simp [leNat]
  | cons b bs ih =>
    cases k with
    | zero =>
      simp only [leNat, Nat.pow_zero, Nat.div_one, List.getD_cons_zero]
      apply BitVec.eq_of_toNat_eq
      rw [BitVec.toNat_ofNat, Nat.add_mul_mod_self_left, Nat.mod_eq_of_lt b.isLt]
    | succ k =>
      rw [List.getD_cons_succ, ← ih k, leNat, Nat.pow_succ', ← Nat.div_div_eq_div_mul, Nat.add_mul_div_left _ _ (by decide), Nat.div_eq_of_lt b.isLt, Nat.zero_add]

/-- One held store laid over a location. -/
theorem heldOver_store (bs : List Byte) (a fa n : Nat) (acc : BitVec 128 × BitVec 16) (hn : n ≤ 16) :
    let r := (List.range n).foldl (fun (acc : BitVec 128 × BitVec 16) k =>
        if a ≤ fa + k && fa + k < a + bs.length then
          let b := bs.getD (fa + k - a) 0
          let m := (0xFF#128 <<< (8 * k))
          ((acc.1 &&& ~~~ m) ||| (b.setWidth 128 <<< (8 * k)), acc.2 ||| (1#16 <<< k))
        else acc) acc
    ∀ k, k < 16 → (r.2.getLsbD k = if k < n ∧ a ≤ fa + k ∧ fa + k < a + bs.length then true else acc.2.getLsbD k) ∧
      (datumByte r.1 k = if k < n ∧ a ≤ fa + k ∧ fa + k < a + bs.length then bs.getD (fa + k - a) 0 else datumByte acc.1 k) := by
  dsimp only
  induction n with
  | zero => intro k hk; simp
  | succ n ih =>
    intro k hk
    rw [List.range_succ, List.foldl_append, List.foldl_cons, List.foldl_nil]
    obtain ⟨i1, i2⟩ := ih (by omega) k hk
    generalize (List.range n).foldl _ acc = r at i1 i2
    by_cases c : a ≤ fa + n ∧ fa + n < a + bs.length
    · rw [if_pos (by simpa using c)]
      dsimp only
      by_cases e : k = n
      · subst e
        rw [if_pos ⟨by omega, c⟩, if_pos ⟨by omega, c⟩]
        constructor
        · simp [hk]
        · apply BitVec.eq_of_getLsbD_eq
          intro i hi
          rw [datumByte_bit _ _ _ hi, BitVec.getLsbD_or, byteAt_bit _ _ _ (by omega), BitVec.getLsbD_and, BitVec.getLsbD_not,
            show (0xFF#128 : BitVec 128) = (0xFF#8).setWidth 128 from rfl, byteAt_bit _ _ _ (by omega)]
          have h1 : (8 * k + i) / 8 = k := by omega
          have h2 : (8 * k + i) % 8 = i := by omega
          have h3 : (0xFF#8).getLsbD i = true := by
            have : i = 0 ∨ i = 1 ∨ i = 2 ∨ i = 3 ∨ i = 4 ∨ i = 5 ∨ i = 6 ∨ i = 7 := by omega
            rcases this with h | h | h | h | h | h | h | h <;> subst h <;> rfl
          simp [h1, h2, h3]
      · have e1 : (k < n + 1 ∧ a ≤ fa + k ∧ fa + k < a + bs.length) ↔ (k < n ∧ a ≤ fa + k ∧ fa + k < a + bs.length) := by
          constructor
          · rintro ⟨p, q⟩; exact ⟨by omega, q⟩
          · rintro ⟨p, q⟩; exact ⟨by omega, q⟩
        simp only [e1]
        constructor
        · rw [← i1]
          simp only [BitVec.getLsbD_or, BitVec.getLsbD_shiftLeft]
          by_cases l : k < n
          · simp [hk, l]
          · have : (1#16).getLsbD (k - n) = false := by
              rw [BitVec.getLsbD_one]; simp; omega
            simp [hk, l, this]
        · rw [← i2]
          apply BitVec.eq_of_getLsbD_eq
          intro i hi
          rw [datumByte_bit _ _ _ hi, datumByte_bit _ _ _ hi, BitVec.getLsbD_or, byteAt_bit _ _ _ (by omega), BitVec.getLsbD_and, BitVec.getLsbD_not,
            show (0xFF#128 : BitVec 128) = (0xFF#8).setWidth 128 from rfl, byteAt_bit _ _ _ (by omega)]
          have h1 : (8 * k + i) / 8 = k := by omega
          have h2 : 8 * k + i < 128 := by omega
          simp [h1, e, h2]
    · rw [if_neg (by simpa using c)]
      have e1 : (k < n + 1 ∧ a ≤ fa + k ∧ fa + k < a + bs.length) ↔ (k < n ∧ a ≤ fa + k ∧ fa + k < a + bs.length) := by
        constructor
        · rintro ⟨p, q⟩
          refine ⟨?_, q⟩
          by_cases e : k = n
          · subst e; exact absurd q c
          · omega
        · rintro ⟨p, q⟩; exact ⟨by omega, q⟩
      simp only [e1]
      exact ⟨i1, i2⟩

theorem heldOver_byte (hs : List Held) (fa n : Nat) (hn : n ≤ 16) (k : Nat) (hk : k < n) :
    (heldOver hs fa n).2.getLsbD k = (heldByte hs (fa + k)).isSome ∧
    ∀ b, heldByte hs (fa + k) = some b → datumByte (heldOver hs fa n).1 k = b := by
  have gen : ∀ (hs : List Held) (acc : BitVec 128 × BitVec 16) (x : Option Byte),
      (acc.2.getLsbD k = x.isSome ∧ ∀ b, x = some b → datumByte acc.1 k = b) →
      let r := hs.foldl (fun acc h =>
        match h with
        | .store _ _ a bs =>
          (List.range n).foldl (fun (acc : BitVec 128 × BitVec 16) k =>
            if a ≤ fa + k && fa + k < a + bs.length then
              let b := bs.getD (fa + k - a) 0
              let m := (0xFF#128 <<< (8 * k))
              ((acc.1 &&& ~~~ m) ||| (b.setWidth 128 <<< (8 * k)), acc.2 ||| (1#16 <<< k))
            else acc) acc
        | _ => acc) acc
      let y := hs.foldl (fun x h =>
        match h with
        | .store _ _ a bs => if a ≤ (fa + k) ∧ (fa + k) < a + bs.length then some (bs.getD ((fa + k) - a) 0) else x
        | _ => x) x
      r.2.getLsbD k = y.isSome ∧ ∀ b, y = some b → datumByte r.1 k = b := by
    intro hs
    induction hs with
    | nil => intro acc x h; exact h
    | cons h hs ih =>
      intro acc x hx
      rw [List.foldl_cons, List.foldl_cons]
      cases h with
      | store l va a bs =>
        dsimp only
        apply ih
        obtain ⟨j1, j2⟩ := heldOver_store bs a fa n acc hn k (by omega)
        by_cases c : a ≤ fa + k ∧ fa + k < a + bs.length
        · rw [if_pos c]
          rw [if_pos ⟨hk, c⟩] at j1 j2
          refine ⟨by rw [j1]; rfl, fun b hb => ?_⟩
          cases hb
          exact j2
        · rw [if_neg c]
          rw [if_neg (fun q => c q.2)] at j1 j2
          exact ⟨by rw [j1]; exact hx.1, fun b hb => by rw [j2]; exact hx.2 b hb⟩
      | sst => exact ih acc x hx
      | sapnd => exact ih acc x hx
  exact gen hs (0, 0) none ⟨by simp, fun b hb => by cases hb⟩

/-- A tile keeps only a translation more. -/
theorem fillTlb_cases (s : State) (t : Nat) (e : TlbEntry) : s.fillTlb t e = s ∨ ∃ l, s.fillTlb t e = s.setTile t { s.tile t with tlb := l } := by
  unfold State.fillTlb; dsimp only; split
  · exact .inl rfl
  · exact .inr ⟨_, rfl⟩

theorem fillTlb_part {α : Type} (f : Tile → α) (h : ∀ T l, f { T with tlb := l } = f T) (s : State) (t : Nat) (e : TlbEntry) (t' : Nat) :
    f ((s.fillTlb t e).tile t') = f (s.tile t') := by
  rcases fillTlb_cases s t e with k | ⟨l, k⟩
  · rw [k]
  · rw [k, State.tile_setTile]
    split
    · next q => subst q; exact h _ _
    · rfl

theorem fillTlb_state {α : Type} (f : State → α) (h : ∀ (s : State) t T, f (s.setTile t T) = f s) (s : State) (t : Nat) (e : TlbEntry) :
    f (s.fillTlb t e) = f s := by
  rcases fillTlb_cases s t e with k | ⟨l, k⟩
  · rw [k]
  · rw [k]; exact h _ _ _

theorem poisonLine_none {s : State} {pa n : Nat} (h : ¬ s.spoilt pa n) : s.poisonLine pa n = none := by
  unfold State.poisonLine
  rw [Option.map_eq_none_iff, List.find?_eq_none]
  intro k hk hc
  exact h ⟨k, by simpa using hk, by simpa [lineOf, State.poisonedAt] using hc⟩

theorem poisonLine_some {s : State} {pa n : Nat} (h : s.spoilt pa n) : ∃ k, k < n ∧
    ((pa + k) / 128 ∈ s.poison ∨ (pa + k) / 4 ∈ s.poisonWords) ∧ s.poisonLine pa n = some ((pa + k) / 128 * 128) := by
  unfold State.poisonLine
  cases e : (List.range n).find? fun k => s.poisonedAt (pa + k) 1 with
  | none =>
    rw [List.find?_eq_none] at e
    obtain ⟨k, hk, hc⟩ := h
    exact absurd (e k (by simpa using hk)) (by simpa [lineOf, State.poisonedAt, Classical.or_iff_not_imp_left] using hc)
  | some k =>
    have h1 := List.mem_of_find?_eq_some e
    have h2 := List.find?_some e
    exact ⟨k, by simpa using h1, by simpa [lineOf, State.poisonedAt] using h2, rfl⟩

/-- A request to the tile's own die is performed at once. -/
theorem requestTo_here {s : State} {t vf : Nat} {w : Bool} {seq : Nat} {l : Option Nat} {fa : Nat} {b : Body} (hn : fa / 2 ^ 42 = s.node)
    (hh : homeOf (fa % 2 ^ 42) = dieOf t) (hc : (s.tile t).carry = none) : s.requestTo t vf w seq l fa b =
    match s.performHere t seq l b with
      | (s, r :: _) => (s, .answered r)
      | (s, []) => (s, .onWay) := by
  unfold State.requestTo
  rw [if_neg (by simpa using hn)]
  dsimp only
  have hl : s.isLocal t (homeOf (fa % 2 ^ 42)) = true := by simp [State.isLocal, hh, hc, -Nat.reducePow]
  rw [if_pos hl]
  all_goals
    cases s.performHere t seq l b with
    | mk a b => cases b <;> rfl

theorem issue_global {s : State} {I : Issuer} {seq : Nat} {k : MemKind} {a : Access} {fa : Nat} {e : TlbEntry}
    (h : check s I.t I.block.vf I.block.world a.addr k.need k.size = .ok (fa, e)) :
    issueAccess s I seq false k a = issueGlobal (s.fillTlb I.t e) I seq k a fa := by
  show (match check s I.t I.block.vf I.block.world a.addr k.need k.size with
    | .error c => (s, { a with st := .faulted c.group c.code c.datum })
    | .ok (fa, e) => issueGlobal (s.fillTlb I.t e) I seq k a fa) = _
  rw [h]

theorem Near.after {s : State} {I : Issuer} {k a fa e} (h : Near s I k a fa e) : fa / 2 ^ 42 = (s.fillTlb I.t e).node ∧
    homeOf (fa % 2 ^ 42) = dieOf I.t ∧ ((s.fillTlb I.t e).tile I.t).carry = none := by
  refine ⟨?_, h.home, ?_⟩
  · rw [fillTlb_state State.node fun _ _ _ => rfl]; exact h.node
  · rw [fillTlb_part Tile.carry fun _ _ => rfl]; exact h.carry

/-- Where a load at the package's DRAM takes its bytes from. -/
theorem issueGlobal_load {s : State} {I : Issuer} {seq n fa : Nat} {o : MOrd} {a : Access} (hn : fa / 2 ^ 42 = s.node) (hd : fa % 2 ^ 42 < 2 ^ 40) :
    ∃ line, issueGlobal s I seq (.load n o) a fa =
      let a := { a with data := (heldOver (heldOf s I) fa n).1, mask := (heldOver (heldOf s I) fa n).2 }
      match l1Line s I.t (fa % 2 ^ 42) o with
      | some bs => (s, { a with st := .done, data := overlayBytes a.mask a.data (dataOf ((bs.drop (fa % 2 ^ 42 % 128)).take n)) })
      | none =>
        match s.requestTo I.t I.block.vf I.block.world seq a.lane fa (.read (fa % 2 ^ 42) n line) with
        | (s, .answered r) => (s.takeAnswer r, a.answer r)
        | (s, .onWay) => (s, { a with st := .pending }) := by
  have hnear : (decide (fa / 2 ^ 42 = s.node) && isDram (fa % 2 ^ 42)) = true := by
    simp [hn, isDram, hd, -Nat.reducePow]
  unfold issueGlobal
  simp only [hnear]
  cases o <;> exact ⟨_, rfl⟩

theorem overlay_held {hs : List Held} {fa n : Nat} (hn : n ≤ 16) (mem : BitVec 128) (k : Nat) (hk : k < n) :
    datumByte (overlayBytes (heldOver hs fa n).2 (heldOver hs fa n).1 mem) k = (heldByte hs (fa + k)).getD (datumByte mem k) := by
  rw [datumByte_overlay _ _ _ _ (by omega)]
  obtain ⟨a1, a2⟩ := heldOver_byte hs fa n hn k hk
  rw [a1]
  cases hb : heldByte hs (fa + k) with
  | none => rfl
  | some b => exact a2 b hb

theorem heldOf_fillTlb (s : State) (I : Issuer) (e : TlbEntry) : heldOf (s.fillTlb I.t e) I = heldOf s I := by
  have hg : ((s.fillTlb I.t e).tile I.t).gangs = (s.tile I.t).gangs := fillTlb_part Tile.gangs (fun _ _ => rfl) ..
  unfold heldOf; rw [hg]

theorem l1Drop_part {α : Type} (f : Tile → α) (h : ∀ T l, f { T with l1 := l } = f T) (s : State) (t : Nat) (p : Nat → Bool) (t' : Nat) :
    f ((s.l1Drop t p).tile t') = f (s.tile t') := by
  have : (s.l1Drop t p).tile t' = (s.setTile t { s.tile t with l1 := kfilter (s.tile t).l1 fun l _ => !p l }).tile t' := rfl
  rw [this, State.tile_setTile]
  split
  · next q => subst q; exact h _ _
  · rfl

theorem natLe_byte (n : Nat) (x : BitVec 128) (k : Nat) (h : k < n) : (natLe n x.toNat).getD k 0 = datumByte x k := natLe_getD n _ k h

theorem State.die_setDie (s : State) (d e : Nat) (D : Die) : (s.setDie d D).die e = if e = d then D else s.die e := by
  simp only [State.die, State.setDie, kgetD, kget_kset]
  split <;> rfl

/-- A request to another die of the package, on a path that is up, is sent. -/
theorem requestTo_far {s : State} {t vf : Nat} {w : Bool} {seq : Nat} {l : Option Nat} {fa : Nat} {b : Body} (hn : fa / 2 ^ 42 = s.node)
    (hh : homeOf (fa % 2 ^ 42) ≠ dieOf t) (hc : s.cutOffDies (dieOf t) (homeOf (fa % 2 ^ 42)) = false) : s.requestTo t vf w seq l fa b =
    (s.send (dieOf t) (homeOf (fa % 2 ^ 42)) t seq l (s.carried t) b none, .onWay) := by
  unfold State.requestTo
  rw [if_neg (by simpa using hn)]
  dsimp only
  have hl : s.isLocal t (homeOf (fa % 2 ^ 42)) = false := by simp [State.isLocal, hh, -Nat.reducePow]
  rw [if_neg (by simp [hl, -Nat.reducePow]), if_neg (by simp [hc, -Nat.reducePow])]

theorem State.setDie_outq (s : State) (d : Nat) (D : Die) : (s.setDie d D).die d = D := by rw [State.die_setDie, if_pos rfl]

theorem frameMsg_die (s : State) (m : Msg) (d : Nat) : (s.frameMsg m).die d = s.die d := by
  unfold State.frameMsg; split <;> rfl

theorem frameMsg_wire (s : State) (m : Msg) : (s.frameMsg m).wire = s.wire := by
  unfold State.frameMsg; split <;> rfl

/-- A message leaves its die at once where nothing waits before it and it may leave: it is the last on the wire. -/
theorem send_spec (s : State) (d dst t seq : Nat) (l : Option Nat) (v : List W32) (b : Body) (h : d ≠ dst) (hl : (s.die d).vec.length = 5) (hd : d < 5)
    (hb : ∀ v, b ≠ .announce v) (hq : (s.die d).outq = [])
    (hm : ∀ m : Msg, m.src = d → m.dst = dst → m.body = b → s.mayLeave m = true) :
    let s' := s.send d dst t seq l v b none
    s'.mem = s.mem ∧ ∃ m, s'.wire = s.wire ++ [m] ∧ m.src = d ∧ m.dst = dst ∧ m.tile = t ∧ m.seq = seq ∧ m.lane = l ∧ m.body = b ∧
      ent (s'.die d).vec d = ent (s.die d).vec d + (if b.writes then 1 else 0) ∧ m.own = ent (s'.die d).vec d := by
  intro s'
  refine ⟨send_mem .., ?_⟩
  have hs : s' = s.send d dst t seq l v b none := rfl
  unfold State.send at hs
  simp only [if_neg h] at hs
  rw [hq, hm _ rfl rfl rfl] at hs
  simp only [List.isEmpty_nil, Bool.and_self, if_true] at hs
  unfold State.leave at hs
  dsimp only at hs
  clear_value s'
  subst hs
  refine ⟨_, by rw [frameMsg_wire]; exact rfl, rfl, rfl, rfl, rfl, rfl, by clear hm; dsimp only; cases b <;> first | rfl | exact absurd rfl (hb _), ?_, ?_⟩
  · show ent (State.die (State.frameMsg _ _) d).vec d = _
    rw [frameMsg_die, State.setDie_outq]
    dsimp only
    cases b.writes with
    | true => simp [ent, List.getD_eq_getElem?_getD, hl, hd]
    | false => simp
  · show _ = ent (State.die (State.frameMsg _ _) d).vec d
    rw [frameMsg_die, State.setDie_outq]

/-- A message that finds others waiting at its die waits behind them. -/
theorem send_waits (s : State) (d dst t seq : Nat) (l : Option Nat) (v : List W32) (b : Body) (h : d ≠ dst) (hq : (s.die d).outq ≠ []) :
    let s' := s.send d dst t seq l v b none
    s'.mem = s.mem ∧ s'.wire = s.wire ∧ ∃ m, (s'.die d).outq = (s.die d).outq ++ [m] ∧ m.src = d ∧ m.dst = dst ∧ m.tile = t ∧ m.seq = seq ∧
      m.lane = l ∧ m.body = b ∧ (s'.die d).vec = (s.die d).vec := by
  intro s'
  have hs : s' = s.send d dst t seq l v b none := rfl
  unfold State.send at hs
  simp only [if_neg h] at hs
  have hq' : (s.die d).outq.isEmpty = false := by simpa [List.isEmpty_iff] using hq
  rw [hq'] at hs
  simp only [Bool.false_and, Bool.false_eq_true, if_false] at hs
  clear_value s'
  subst hs
  refine ⟨rfl, rfl, _, by rw [State.setDie_outq], rfl, rfl, rfl, rfl, rfl, rfl, by rw [State.setDie_outq]⟩

theorem l1Drop_vec (s : State) (t : Nat) (p : Nat → Bool) (d : Nat) : ((s.l1Drop t p).die d).vec = (s.die d).vec := by
  unfold State.l1Drop cancelFills State.die kgetD
  dsimp only
  rw [kget_kmap, State.setTile_dies]
  cases kget s.dies d <;> rfl

theorem Block.spadByte_setSpadByte (B : Block) (o x : Nat) (v : Byte) : (B.setSpadByte o v).spadByte x = if x = o then v else B.spadByte x := by
  unfold Block.setSpadByte Block.spadByte
  cases h : B.spadFill with
  | zero =>
    dsimp only
    have := cellGet_cellSet B.spad o x v
    simp only [cellGet, kgetD] at this
    cases e : kget (cellSet B.spad o v) x with
    | none =>
      rw [e] at this
      rw [Option.getD_none] at this
      show memFill = _
      rw [this]
      split
      · rfl
      · cases kget B.spad x <;> rfl
    | some w =>
      rw [e] at this
      dsimp only [Option.getD] at this ⊢
      rw [this]
      split
      · rfl
      · cases kget B.spad x <;> rfl
  | free seed =>
    dsimp only
    rw [kget_kset]
    by_cases c : x = o
    · rw [if_pos c, if_pos c]
    · rw [if_neg c, if_neg c]

theorem Block.spadByte_setSpad (B : Block) (o : Nat) (bs : List Byte) (x : Nat) : (B.setSpad o bs).spadByte x =
    if o ≤ x ∧ x < o + bs.length then bs.getD (x - o) 0 else B.spadByte x := by
  induction bs generalizing B o with
  | nil => rw [Block.setSpad, List.length_nil, if_neg (by omega)]
  | cons v vs ih =>
    rw [Block.setSpad, ih, Block.spadByte_setSpadByte, List.length_cons]
    by_cases h : x = o
    · subst h
      rw [if_neg (by omega), if_pos rfl, if_pos (by omega)]
      simp
    · by_cases h2 : o + 1 ≤ x ∧ x < o + 1 + vs.length
      · rw [if_pos h2, if_pos (by omega)]
        have : x - o = (x - (o + 1)) + 1 := by omega
        rw [this, List.getD_cons_succ]
      · rw [if_neg h2, if_neg h, if_neg (by omega)]

/-! memory kept -/

end Sys2Proof.Machine
end

