-- ==== Sys2Proof/Laws/System.lean ====
section
/-!
SUPPORT. What stands before an instruction, what a trap and the end of a block leave, and what system registers read and take.
-/
set_option linter.unusedSimpArgs false
set_option linter.unusedVariables false
namespace Sys2Proof.Machine

theorem issuer_facts {s : State} {I : Issuer} (h : s.issuer = some I) :
    s.cur = some (I.t, I.u) ∧ I.tile = s.tile I.t ∧ kget I.tile.subs I.u = some I.sub ∧
    kget I.tile.gangs I.sub.gang = some I.gang ∧ kget I.tile.blocks I.gang.ctx = some I.block := by
  unfold State.issuer at h
  split at h
  · cases h
  next t u hc =>
    dsimp only at h
    split at h
    · cases h
    next U hU =>
      split at h
      · cases h
      next G hG =>
        split at h
        · cases h
        next B hB =>
          cases h
          exact ⟨hc, rfl, hU, hG, hB⟩

theorem nextIssuer_step {s s0 : State} {t u : Nat} (h : s.nextIssuer s0 t u) : step s = issueTurn t u s0 := by
  obtain ⟨ha, h0, hr⟩ | ⟨ha, h0, hn, hp⟩ := h
  · unfold step nextTurn
    rw [ha]
    dsimp only
    rw [← h0]
    simp [turn, hr]
  · subst h0
    unfold step nextTurn
    rw [ha]
    dsimp only
    unfold ownTurn
    rw [Option.isNone_iff_eq_none] at hn
    rw [hn, hp]

theorem noteBudget_same {s : State} {I : Issuer} (h : ∀ q, s.regionQueue I.block.grid = some q → q.exhaustions ≤ I.gang.bud) :
    s.noteBudget I = s := by
  unfold State.noteBudget
  cases hq : s.regionQueue I.block.grid with
  | none => rfl
  | some q =>
    dsimp only
    rw [if_neg (by have := h q hq; omega)]

def afterFetch (I : Issuer) (r : State × Next) : Front :=
  match r.2 with
  | .instr i => .run r.1 i
  | .wait => .wait r.1
  | .fault g c d => .trapped (takeTrap r.1 I.t I.u ⟨g, c, 0xFF, 0, d, false, none, I.sub.pc⟩)
  | .bad w c => match trapWhole r.1 I (laneWord w) 1 c (w.setWidth 64) with
      | .next s => .trapped s
      | _ => .trapped r.1

theorem front_quiet {s : State} {I : Issuer} (hi : s.issuer = some I) (h : Undisturbed s I) :
    front s I = afterFetch I (fetchNext s I) := by
  have hf : I.feederReport = none := by
    unfold Issuer.feederReport
    rcases h.feeder with hh | hh
    · simp [hh]
    · split
      · rw [List.find?_eq_none]
        intro x hx
        have := List.all_eq_true.mp hh x hx
        simp_all
      · rfl
  have hc : s.noteCorrected I = s := by
    unfold State.noteCorrected
    have : I.block.reports.find? (fun r => r.group == 14) = none := by
      rw [List.find?_eq_none]
      intro x hx
      have := List.all_eq_true.mp h.corrected x hx
      simp_all
    rw [this]
  have hb : s.noteBreakpoint I = s := by
    unfold State.noteBreakpoint
    rw [h.unmatched]
  unfold front
  rw [hf]
  simp only [Option.isSome_none, Bool.false_eq_true, if_false]
  rw [noteBudget_same h.budget]
  simp only [hi, hc, hb]
  have hn : I.sub.nextReport = none := by unfold Sub.nextReport; rw [h.unreported]; rfl
  generalize fetchNext s I = r
  obtain ⟨s', nx⟩ := r
  dsimp only
  rw [hn]
  cases nx with
  | fault => simp [afterFetch, trapAt]
  | instr => simp [afterFetch]
  | wait => simp [afterFetch]
  | bad w c =>
    simp only [reduceCtorEq, if_false, ite_self, afterFetch]
    all_goals cases trapWhole s' I (laneWord w) 1 c (BitVec.setWidth 64 w) <;> rfl

theorem bytesWord_le (b : Nat → Byte) (w : W32) (h : bytesWord ((List.range 4).map b) = some w) :
    BitVec.ofNat 32 (leNat ((List.range 4).map b)) = w := by
  have hr : List.range 4 = [0, 1, 2, 3] := rfl
  rw [hr] at h ⊢
  simp only [List.map_cons, List.map_nil, bytesWord, Option.some.injEq] at h
  subst h
  apply BitVec.eq_of_toNat_eq
  simp only [List.map_cons, List.map_nil, leNat, BitVec.toNat_ofNat]
  have e : ∀ (n m : Nat) (x : BitVec n) (y : BitVec m), (x ++ y).toNat = x.toNat * 2 ^ m + y.toNat := by
    intro n m x y
    rw [BitVec.toNat_append, Nat.shiftLeft_eq, ← Nat.shiftLeft_eq, Nat.shiftLeft_add_eq_or_of_lt y.isLt]
  have h0 := (b 0).isLt
  have h1 := (b 1).isLt
  have h2 := (b 2).isLt
  have h3 := (b 3).isLt
  have e1 := e 8 24 (b 3) (b 2 ++ (b 1 ++ b 0))
  have e2 := e 8 16 (b 2) (b 1 ++ b 0)
  have e3 := e 8 8 (b 1) (b 0)
  have : (b 3 ++ (b 2 ++ (b 1 ++ b 0)) : BitVec 32).toNat = (b 3).toNat * 2 ^ 24 + ((b 2).toNat * 2 ^ 16 + ((b 1).toNat * 2 ^ 8 + (b 0).toNat)) := by
    rw [← e3, ← e2]; exact e1
  rw [this]
  omega

theorem fetch_word {s : State} {I : Issuer} {fa : Nat} {e : TlbEntry} {w : W32} (h : WordAt s I fa e w) :
    fetch s I = (s.fetched I.t fa e w, .word w) := by
  unfold fetch
  dsimp only
  rw [if_neg (by simpa using h.aligned), h.checked]
  dsimp only
  have hw : s.fetchWord I.t fa = w := by
    unfold State.fetchWord
    rcases h.word with hh | ⟨hh, hn, _, _, _, hb⟩
    · rw [hh]
    · rw [hh]
      dsimp only
      rw [if_pos hn]
      exact bytesWord_le _ _ hb
  have hp : (if (kget (s.tile I.t).icache fa).isSome = true ∨ fa / 2 ^ 42 ≠ s.node then none else s.poisonLine (fa % 2 ^ 42) 4) = none := by
    rcases h.word with hh | ⟨hh, hn, hs, _, _, _⟩
    · rw [if_pos (Or.inl (by simp [hh]))]
    · rw [if_neg (by simp [hh, hn, -Nat.reducePow])]
      exact poisonLine_none hs
  rw [hp]
  dsimp only
  rcases h.word with hh | ⟨hh, hn, _, hc, ho, _⟩
  · rw [if_neg (by simp [hh]), if_neg (by simp [hh]), hw]
    rfl
  · rw [if_neg (by simp [hc, -Nat.reducePow]), if_neg (by simp [ho, -Nat.reducePow]), hw]
    rfl

theorem step_runs {s s0 : State} {I : Issuer} {t u : Nat} (h : s.nextIssuer s0 t u)
    (hi : (s0.beginIssue t u).issuer = some I) (hu : Undisturbed (s0.beginIssue t u) I) :
    I.t = t ∧ I.u = u ∧ step s = match afterFetch I (fetchNext (s0.beginIssue t u) I) with
    | .trapped s => .next (s.endIssue t u)
    | .wait s => match wait s I with | .next s => .next { s with cur := none } | o => o
    | .run s i =>
      match exec i s with
      | .next s => .next (s.finishIssue t u ((s0.beginIssue t u).stageBefore t u).1 ((s0.beginIssue t u).stageBefore t u).2.1
          ((s0.beginIssue t u).stageBefore t u).2.2)
      | o => o := by
  have hc := (issuer_facts hi).1
  have : (s0.beginIssue t u).cur = some (t, u) := by unfold State.beginIssue; rfl
  rw [this] at hc
  simp only [Option.some.injEq, Prod.mk.injEq] at hc
  refine ⟨hc.1.symm, hc.2.symm, ?_⟩
  rw [nextIssuer_step h]
  unfold issueTurn
  simp only [hi]
  rw [front_quiet hi hu]
  all_goals
    cases afterFetch I (fetchNext (s0.beginIssue t u) I) with
    | trapped => rfl
    | wait => rfl
    | run s i => dsimp only; cases exec i s <;> rfl

theorem causeWord (tr : Trap) (hg : tr.group < 32) (hl : ∀ k, tr.log = some k → k < 8) : CauseWord tr.tcause tr := by
  have hc := tr.code.isLt
  have hn := tr.lane.isLt
  obtain ⟨v, hv⟩ : ∃ v, v = tr.tcause.toNat := ⟨_, rfl⟩
  have e : tr.tcause.toNat = tr.code.toNat * 2 ^ 24 + tr.lane.toNat * 2 ^ 16 + 2 ^ 15 + bit tr.imprecise * 2 ^ 14 +
      (bit tr.log.isSome * 2 ^ 11 + tr.log.getD 0 * 2 ^ 8) + tr.group := by
    unfold Trap.tcause
    rw [BitVec.toNat_ofNat]
    have h1 : (if tr.imprecise = true then 2 ^ 14 else 0) = bit tr.imprecise * 2 ^ 14 := by cases tr.imprecise <;> rfl
    have h2 : (match tr.log with | some k => 2 ^ 11 + k % 8 * 2 ^ 8 | none => 0) = bit tr.log.isSome * 2 ^ 11 + tr.log.getD 0 * 2 ^ 8 := by
      cases hk : tr.log with
      | none => rfl
      | some k => simp [bit, Nat.mod_eq_of_lt (hl k hk)]
    have h3 : tr.log.getD 0 < 8 := by
      cases hk : tr.log with
      | none => decide
      | some k => exact hl k hk
    have h4 : ∀ b, bit b ≤ 1 := by intro b; cases b <;> decide
    have := h4 tr.imprecise
    have := h4 tr.log.isSome
    rw [h1]
    refine (congrArg (fun z => (tr.code.toNat * 2 ^ 24 + tr.lane.toNat * 2 ^ 16 + 2 ^ 15 + bit tr.imprecise * 2 ^ 14 + z +
      tr.group % 32) % 2 ^ 64) h2).trans ?_
    omega
  have h3 : tr.log.getD 0 < 8 := by
    cases hk : tr.log with
    | none => decide
    | some k => exact hl k hk
  have h4 : ∀ b, bit b ≤ 1 := by intro b; cases b <;> decide
  have h5 := h4 tr.imprecise
  have h6 := h4 tr.log.isSome
  constructor <;> (unfold bits; rw [e]; omega)

theorem setDie_die (s : State) (d : Nat) (D : Die) : (s.setDie d D).die d = D := by simp [State.setDie, State.die, kgetD]

/-- T' is T with blocks, gangs, sub-gangs and continuations removed; a sub-gang that stays has its gang. -/
structure Tile.Less (T T' : Tile) : Prop where
  subs : ∀ x ∈ T'.subs, x ∈ T.subs
  gangs : ∀ x ∈ T'.gangs, x ∈ T.gangs
  keeps : ∀ v V X, (v, V) ∈ T'.subs → (V.gang, X) ∈ T.gangs → (V.gang, X) ∈ T'.gangs

theorem Tile.Less.refl (T : Tile) : T.Less T := ⟨fun _ h => h, fun _ h => h, fun _ _ _ _ h => h⟩

theorem Tile.Less.trans {A B C : Tile} (h : A.Less B) (k : B.Less C) : A.Less C :=
  ⟨fun x hx => h.subs x (k.subs x hx), fun x hx => h.gangs x (k.gangs x hx),
    fun v V X hv hx => k.keeps v V X hv (h.keeps v V X (k.subs _ hv) hx)⟩

theorem Tile.Less.of_eq {T T' : Tile} (hs : T'.subs = T.subs) (hg : T'.gangs = T.gangs) : T.Less T' :=
  ⟨fun x hx => hs ▸ hx, fun x hx => hg ▸ hx, fun v V X _ hx => hg ▸ hx⟩

theorem mem_kdel {α : Type} {m : KMap α} {k : Nat} {x : Nat × α} : x ∈ kdel m k ↔ x ∈ m ∧ x.1 ≠ k := by
  induction m with
  | nil => simp [kdel]
  | cons p m ih =>
    obtain ⟨j, w⟩ := p
    simp only [kdel]
    split
    · next h =>
      rw [ih]
      constructor
      · rintro ⟨a, b⟩; exact ⟨List.mem_cons_of_mem _ a, b⟩
      · rintro ⟨a, b⟩
        rcases List.mem_cons.mp a with rfl | a
        · exact absurd h b
        · exact ⟨a, b⟩
    · next h =>
      rw [List.mem_cons, ih, List.mem_cons]
      constructor
      · rintro (rfl | ⟨a, b⟩)
        · exact ⟨.inl rfl, h⟩
        · exact ⟨.inr a, b⟩
      · rintro ⟨rfl | a, b⟩
        · exact .inl rfl
        · exact .inr ⟨a, b⟩

theorem mem_kfilter {α : Type} {m : KMap α} {p : Nat → α → Bool} {x : Nat × α} :
    x ∈ kfilter m p ↔ x ∈ m ∧ p x.1 x.2 = true := List.mem_filter

theorem less_dropGang (T : Tile) (g : Nat) : T.Less (T.dropGang g) := by
  refine ⟨fun x hx => (mem_kfilter (p := fun _ (U : Sub) => U.gang != g) |>.mp hx).1, fun x hx => (mem_kdel.mp hx).1, ?_⟩
  intro v V X hv hx
  have := (mem_kfilter (p := fun _ (U : Sub) => U.gang != g) |>.mp hv).2
  simp only [bne_iff_ne] at this
  exact mem_kdel.mpr ⟨hx, this⟩

theorem less_setTile (s : State) (t t' : Nat) (T : Tile) (h : (s.tile t').Less T) : (s.tile t).Less ((s.setTile t' T).tile t) := by
  by_cases e : t = t'
  · subst e; simpa using h
  · have : (s.setTile t' T).tile t = s.tile t := by simp [State.setTile, State.tile, kgetD, kget_kset_ne _ _ e]
    rw [this]; exact .refl _

theorem less_dropStage (T : Tile) (g : Nat) : T.Less (T.dropStage g) := by
  unfold Tile.dropStage
  split
  · exact .refl _
  · dsimp only
    split
    · split
      · exact (less_dropGang _ g).trans (.of_eq rfl rfl)
      · exact less_dropGang _ g
    · exact less_dropGang _ g

theorem less_kmap (s : State) (t : Nat) (f : Nat → Tile → Tile) (h : ∀ t T, Tile.Less T (f t T)) :
    (s.tile t).Less (State.tile { s with tiles := kmap s.tiles f } t) := by
  unfold State.tile
  simp only [kgetD, kget_kmap]
  cases kget s.tiles t with
  | none => exact .refl _
  | some T => exact h t T

theorem less_tidySheaves (s : State) (p t : Nat) : (s.tile t).Less ((s.tidySheaves p).tile t) := by
  unfold State.tidySheaves
  split
  · exact .refl _
  · extract_lets left s1
    show (s1.tile t).Less _
    apply less_kmap
    intro t T
    split
    · split
      · exact .of_eq rfl rfl
      · exact .refl _
    · exact .refl _

theorem less_dropStageGang (s : State) (p t t' g : Nat) : (s.tile t).Less ((s.dropStageGang p t' g).tile t) := by
  unfold State.dropStageGang
  split
  · exact less_setTile _ _ _ _ (less_dropStage _ _)
  · split
    · exact .refl _
    · next P _ =>
      split
      · exact less_tidySheaves (s.setPart p { P with sheaves := _ }) p t
      · exact .refl _

theorem less_foldl {α : Type} (l : List α) (f : State → α → State) (t : Nat) (h : ∀ (s : State) x, (s.tile t).Less ((f s x).tile t)) (s : State) :
    (s.tile t).Less ((l.foldl f s).tile t) := by
  induction l generalizing s with
  | nil => exact .refl _
  | cons x l ih => exact (h s x).trans (ih _)

theorem setPart_tile (s : State) (p : Nat) (P : Part) (t : Nat) : (s.setPart p P).tile t = s.tile t := rfl

theorem less_dropSkein (s : State) (p k t : Nat) : (s.tile t).Less ((s.dropSkein p k).tile t) := by
  unfold State.dropSkein
  split
  · exact .refl _
  · next P hP =>
    split
    · exact .refl _
    · next K hK =>
      extract_lets s1 s2
      have h1 : (s.tile t).Less (s1.tile t) := by
        apply less_foldl
        intro s x
        split
        · exact less_dropStageGang _ _ _ _ _
        · exact .refl _
      have h2 : (s1.tile t).Less (s2.tile t) := by
        show (s1.tile t).Less ((match K.foldGang with
          | some g => s1.setTile K.tile ((s1.tile K.tile).dropGang g)
          | none => s1).tile t)
        split
        · exact less_setTile _ _ _ _ (less_dropGang _ _)
        · exact .refl _
      split
      · rw [setPart_tile]; exact h1.trans h2
      · exact h1.trans h2

theorem fold_dropGang (l : List Nat) (T : Tile) : T.Less (l.foldl (fun T g => T.dropGang g) T) ∧
    ∀ g ∈ l, ∀ x ∈ (l.foldl (fun T g => T.dropGang g) T).gangs, x.1 ≠ g := by
  induction l generalizing T with
  | nil => exact ⟨.refl _, by simp⟩
  | cons g l ih =>
    obtain ⟨a, b⟩ := ih (T.dropGang g)
    refine ⟨(less_dropGang T g).trans a, ?_⟩
    intro g' hg' x hx
    rcases List.mem_cons.mp hg' with rfl | h
    · have := a.gangs x hx
      exact (mem_kdel.mp this).2
    · exact b g' h x hx

theorem countEnded_tile (s : State) (g : Nat) (b : Bool) (t : Nat) : (s.countEnded g b).tile t = s.tile t := by
  unfold State.countEnded; split <;> rfl

theorem countErr_tile (s : State) (d : Nat) (f : ErrField) (t : Nat) : (s.countErr d f).tile t = s.tile t := rfl

theorem setTile_same (s : State) (t : Nat) (T : Tile) : (s.setTile t T).tile t = T := by simp [State.setTile, State.tile, kgetD]

theorem dropBlock_tile {s : State} {t ctx : Nat} {B : Block} (hB : kget (s.tile t).blocks ctx = some B) :
    ∀ T, (s.dropBlock t ctx).tile t = T →
    (∀ x ∈ T.blocks, x.1 ≠ ctx) ∧ (∀ x ∈ T.gangs, x.2.ctx ≠ ctx) ∧ (∀ x ∈ T.conts, x.2.uid ≠ B.uid ∨ x.2.detached = true) ∧
      (∀ v V X, (v, V) ∈ T.subs → (V.gang, X) ∈ (s.tile t).gangs → X.ctx ≠ ctx) := by
  intro T' hT
  unfold State.dropBlock at hT
  split at hT
  · next h => rw [h] at hB; cases hB
  next B' h =>
  obtain rfl : B' = B := by rw [h] at hB; exact Option.some.inj hB
  extract_lets s1 s2 T gone T2 at hT
  rw [setTile_same] at hT
  subst hT
  have h1 : (s.tile t).Less (s1.tile t) := by
    show (s.tile t).Less (State.tile (match B'.skein with | some k => s.dropSkein B'.part k | none => s) t)
    split
    · exact less_dropSkein _ _ _ _
    · exact .refl _
  have h2 : (s1.tile t).Less (s2.tile t) := by
    show (s1.tile t).Less (State.tile (if B'.peers.length ≤ 1 then s1 else _) t)
    split
    · exact .refl _
    · unfold State.tile
      simp only [kgetD, kget_kmap]
      cases kget s1.tiles t with
      | none => exact .refl _
      | some T => exact .of_eq rfl rfl
  obtain ⟨h3, h4⟩ := fold_dropGang gone T
  have h5 := (h1.trans h2).trans h3
  refine ⟨fun x hx => (mem_kdel (m := (gone.foldl (fun T g => T.dropGang g) T).blocks) |>.mp hx).2, ?_, ?_, ?_⟩
  · intro x hx hc
    have hm := h3.gangs x hx
    exact h4 x.1 (List.mem_map.mpr ⟨x, List.mem_filter.mpr ⟨hm, by simp [hc]⟩, rfl⟩) x hx rfl
  · intro x hx
    have := (List.mem_filter.mp hx).2
    simpa using this
  · intro v V X hv hx hc
    have hm := h5.keeps v V X hv hx
    have hm2 := h3.gangs _ hm
    exact h4 V.gang (List.mem_map.mpr ⟨(V.gang, X), List.mem_filter.mpr ⟨hm2, by simp [hc]⟩, rfl⟩) _ hm rfl

theorem dropBlock_rest {α : Type} (f : State → α) (h1 : ∀ (s : State) T, f { s with tiles := T } = f s)
    (h2 : ∀ (s : State) P, f { s with parts := P } = f s) (s : State) (t ctx : Nat) : f (s.dropBlock t ctx) = f s := by
  have hst : ∀ (s : State) t T, f (s.setTile t T) = f s := fun s t T => h1 s _
  have hsp : ∀ (s : State) p P, f (s.setPart p P) = f s := fun s t T => h2 s _
  have htd : ∀ (s : State) p, f (s.tidySheaves p) = f s := by
    intro s p
    unfold State.tidySheaves
    split
    · rfl
    · dsimp only; rw [h1, hsp]
  have hg : ∀ (s : State) p t g, f (s.dropStageGang p t g) = f s := by
    intro s p t g
    unfold State.dropStageGang
    split
    · exact hst _ _ _
    · split
      · rfl
      · split
        · rw [htd, hsp]
        · rfl
  have hk : ∀ (s : State) p k, f (s.dropSkein p k) = f s := by
    intro s p k
    unfold State.dropSkein
    split
    · rfl
    · split
      · rfl
      · next K _ =>
        extract_lets s1 s2
        have e0 : ∀ (l : List Stage) (s : State), f (l.foldl (fun s st => match st.place with | .gang t g => s.dropStageGang p t g | _ => s) s) = f s := by
          intro l
          induction l with
          | nil => intro s; rfl
          | cons x l ih =>
            intro s
            rw [List.foldl_cons, ih]
            cases x.place with
            | gang t g => exact hg _ _ _ _
            | _ => rfl
        have e1 : f s1 = f s := e0 _ _
        have e2 : f s2 = f s1 := by
          show f (match K.foldGang with
            | some g => s1.setTile K.tile ((s1.tile K.tile).dropGang g)
            | none => s1) = f s1
          split
          · exact hst _ _ _
          · rfl
        split
        · rw [hsp, e2, e1]
        · rw [e2, e1]
  unfold State.dropBlock
  split
  · rfl
  · next B _ =>
    extract_lets s1 s2 T gone T2
    rw [hst]
    have e1 : f s1 = f s := by
      show f (match B.skein with | some k => s.dropSkein B.part k | none => s) = f s
      split
      · exact hk _ _ _
      · rfl
    have e2 : f s2 = f s1 := by
      show f (if B.peers.length ≤ 1 then s1 else _) = f s1
      split
      · rfl
      · exact h1 _ _
    rw [e2, e1]

theorem satInc_bits (x : Word) : bits (satInc x 0 8 1).toNat 7 0 = min 255 (bits x.toNat 7 0 + 1) := by
  unfold satInc bits
  simp only [BitVec.toNat_add, BitVec.toNat_ofNat]
  omega

theorem runtimeRights_iff {s : State} {I : Issuer} : s.runtimeRights I = true ↔ ∃ P, s.part I.block.part = some P ∧ I.block.vf = P.vflo := by
  unfold State.runtimeRights
  cases s.part I.block.part with
  | none => simp
  | some P => simp

theorem sysRow_facts (r : SysReg) (n : Nat) (rt : Rights) (w : Bool) (h : sysRow r = some (n, rt, w)) :
    sysCount r = n ∧ sysWritable r = w ∧ sysRuntime r = (rt != .any) ∧ ((r == .fwtab) = (rt == .secure)) ∧ ∀ c, r ≠ .unlisted c := by
  cases r <;> simp only [sysRow, Option.some.injEq, Prod.mk.injEq, reduceCtorEq] at h <;> obtain ⟨rfl, rfl, rfl⟩ := h <;>
    refine ⟨rfl, rfl, rfl, rfl, ?_⟩ <;> intro c <;> simp

theorem holds_iff {s : State} {I : Issuer} {rt : Rights} :
    s.holdsRights I rt ↔ ((rt != .any) && !s.runtimeRights I || (rt == .secure) && !I.block.world) = false := by
  cases rt <;> simp [State.holdsRights, ← runtimeRights_iff]

open Classical in
theorem sysFault_listed {s : State} {I : Issuer} {i : Instr} {r : SysReg} {k : Nat} {write : Bool} {n : Nat} {rt : Rights} {w : Bool}
    (h : sysRow r = some (n, rt, w)) :
    sysFault s I i r k write = if n ≤ k then some (2, 8, wordDatum i ((Config.freeWord s.free 0).setWidth 8))
      else if ¬ s.holdsRights I rt ∨ (write = true ∧ w = false) then some (2, 9, wordDatum i ((Config.freeWord s.free 0).setWidth 8))
      else none := by
  obtain ⟨a, b, c, d, e⟩ := sysRow_facts r n rt w h
  unfold sysFault
  dsimp only
  split
  · exact absurd rfl (e _)
  rw [a, b, c, d]
  split
  · rfl
  · rw [holds_iff]
    cases (rt != Rights.any && !s.runtimeRights I) <;> cases (rt == Rights.secure && !I.block.world) <;> cases write <;> cases w <;> simp

theorem sysFault_ok {s : State} {I : Issuer} {i : Instr} {r : SysReg} {k : Nat} {write : Bool} (h : SysOk s I r k write) :
    sysFault s I i r k write = none := by
  obtain ⟨n, rt, w, hr, hk, hh, hw⟩ := h
  rw [sysFault_listed hr, if_neg (by omega), if_neg]
  rintro (h | ⟨h, h2⟩)
  · exact h hh
  · rw [hw h] at h2; cases h2

theorem wordDatum_low (i : Instr) (c : Byte) : (wordDatum i c).setWidth 32 = (wordOf i).setWidth 32 := by
  unfold wordDatum
  apply BitVec.eq_of_getLsbD_eq
  intro b hb
  simp [hb]

theorem setS_bare (U : Sub) (r : Nat) (x : Word) (k : RunKind) : (U.setS r x).retire k =
    { U.retire k with slices := U.slices.map fun (n, S) => (n, S.setSreg r x) } := by
  simp [Sub.setS, Sub.mapSlices, kmap, Sub.retire]

theorem again_of {s : State} {I' : Issuer} (h : s.issuer = some I') (f : State → Issuer → Out1) : again s f = f s I' := by
  unfold again; rw [h]

/-- A state whose tile table changes only in what an issuer does not name still has the issuer, its sub-gang unchanged. -/
theorem issuer_keep {s s' : State} {I : Issuer} (h : s.issuer = some I) (hc : s'.cur = s.cur)
    (hs : (s'.tile I.t).subs = (s.tile I.t).subs) (hg : (s'.tile I.t).gangs = (s.tile I.t).gangs)
    (hb : ∀ c, (kget (s.tile I.t).blocks c).isSome = true → (kget (s'.tile I.t).blocks c).isSome = true) :
    ∃ B, s'.issuer = some ⟨I.t, I.u, s'.tile I.t, I.sub, I.gang, B⟩ ∧ kget (s'.tile I.t).blocks I.gang.ctx = some B := by
  have hcur : s.cur = some (I.t, I.u) := by
    unfold State.issuer at h
    split at h
    · cases h
    next t u hc => 
      dsimp only at h
      repeat (split at h <;> first | cases h | skip)
      exact hc
  obtain ⟨ht, h1, h2, h3, _⟩ := issuer_sub h
  rw [ht] at h1 h2 h3
  have := hb I.gang.ctx (by rw [h3]; rfl)
  obtain ⟨B, hB⟩ := Option.isSome_iff_exists.mp this
  refine ⟨B, ?_, hB⟩
  unfold State.issuer
  rw [hc, hcur]
  simp only [hs, hg, h1, h2, hB]

theorem getLsbD_fold (p : Nat → Bool) (n : Nat) : ∀ (m : Nat) (x : Word), m + n = 64 → ∀ j, j < 64 →
    ((List.range' m n).foldl (fun x j => if p j then x ||| (1#64 <<< j) else x) x).getLsbD j = (x.getLsbD j || (decide (m ≤ j) && p j)) := by
  induction n with
  | zero => intro m x hm j hj; simp; omega
  | succ n ih =>
    intro m x hm j hj
    rw [List.range'_succ, List.foldl_cons, ih (m + 1) _ (by omega) j hj]
    by_cases hp : p m
    · simp only [hp, if_true, BitVec.getLsbD_or, BitVec.getLsbD_shiftLeft, hj, decide_true, Bool.true_and]
      by_cases e : j = m
      · subst e; simp [hp]
      · by_cases l : j < m
        · have h1 : ¬ m ≤ j := by omega
          have h2 : ¬ m + 1 ≤ j := by omega
          simp [l, h1, h2]
        · have h1 : m ≤ j := by omega
          have h2 : m + 1 ≤ j := by omega
          have h3 : (1#64).getLsbD (j - m) = false := by
            have : j - m ≠ 0 := by omega
            simp [this]
          simp [l, h1, h2, h3]
    · simp only [hp]
      by_cases e : j = m
      · subst e; simp [hp]
      · have : decide (m + 1 ≤ j) = decide (m ≤ j) := by congr 1; simp; omega
        rw [this]; simp

theorem wordBits (p : Nat → Bool) (j : Nat) (hj : j < 64) :
    ((List.range 64).foldl (fun x j => if p j then x ||| (1#64 <<< j) else x) 0).getLsbD j = p j := by
  rw [List.range_eq_range', getLsbD_fold p 64 0 0 rfl j hj]
  simp

theorem bit_le (b : Bool) : bit b ≤ 1 := by cases b <;> decide

theorem ite_bit (b : Bool) (k : Nat) : (if b = true then k else 0) = bit b * k := by cases b <;> simp [bit]

theorem swr_goes {d : BitVec 5} {r : SysReg} {k : BitVec 8} {s : State} {I : Issuer} (h : Issues s (.swr d r k) false [.sreg d.toNat 1] I)
    (ok : SysOk s I r k.toNat true) (h1 : r ≠ .tlbinv) (h2 : r ≠ .shdisc) (h3 : r ≠ .skreq) :
    exec (.swr d r k) s = again (s.sysWrite I r k.toNat (I.sub.sreg d.toNat)) fun s I => retire s I .other I.sub := by
  show execSwr d r k s = _
  unfold execSwr
  dsimp only
  rw [h.plain, sysFault_ok ok]
  dsimp only
  cases r <;> first | rfl | contradiction

theorem kset_some {α : Type} (m : KMap α) (k j : Nat) (v : α) (h : (kget m j).isSome = true) : (kget (kset m k v) j).isSome = true := by
  by_cases e : j = k
  · subst e; simp
  · rw [kget_kset_ne _ _ e]; exact h

theorem mapBlock_tile (s : State) (uid t : Nat) (f : Block → Block) :
    ((s.mapBlock uid f).tile t).subs = (s.tile t).subs ∧ ((s.mapBlock uid f).tile t).gangs = (s.tile t).gangs ∧
    (s.mapBlock uid f).cur = s.cur ∧
    ∀ c, (kget (s.tile t).blocks c).isSome = true → (kget ((s.mapBlock uid f).tile t).blocks c).isSome = true := by
  unfold State.mapBlock
  cases hf : s.findBlock uid with
  | none => exact ⟨rfl, rfl, rfl, fun _ h => h⟩
  | some x =>
    obtain ⟨t', c', B⟩ := x
    show ((s.setBlock t' c' (f B)).tile t).subs = _ ∧ ((s.setBlock t' c' (f B)).tile t).gangs = _ ∧ (s.setBlock t' c' (f B)).cur = _ ∧
      ∀ c, _ → (kget ((s.setBlock t' c' (f B)).tile t).blocks c).isSome = _
    by_cases e : t = t'
    · subst e
      have : (s.setBlock t c' (f B)).tile t = (s.tile t).setBlock c' (f B) := by simp [State.setBlock, State.setTile, State.tile, kgetD]
      rw [this]
      exact ⟨rfl, rfl, rfl, fun c h => kset_some _ _ _ _ h⟩
    · have : (s.setBlock t' c' (f B)).tile t = s.tile t := by simp [State.setBlock, State.setTile, State.tile, kgetD, kget_kset_ne _ _ e]
      rw [this]
      exact ⟨rfl, rfl, rfl, fun _ h => h⟩

theorem again_retire {s s' : State} {I : Issuer} (h : s.issuer = some I) (hc : s'.cur = s.cur)
    (hs : (s'.tile I.t).subs = (s.tile I.t).subs) (hg : (s'.tile I.t).gangs = (s.tile I.t).gangs)
    (hb : ∀ c, (kget (s.tile I.t).blocks c).isSome = true → (kget (s'.tile I.t).blocks c).isSome = true) :
    (again s' fun s I => retire s I .other I.sub) = .next (s'.setSub I.t I.u (I.sub.retire .other)) := by
  obtain ⟨B, hi, _⟩ := issuer_keep h hc hs hg hb
  rw [again_of hi]
  rfl

theorem kset_kset {α : Type} (m : KMap α) (k : Nat) (v w : α) : kset (kset m k v) k w = kset m k w := by
  induction m with
  | nil => simp [kset]
  | cons p m ih =>
    obtain ⟨j, x⟩ := p
    by_cases h1 : j = k
    · subst h1; simp [kset]
    · by_cases h2 : k < j
      · simp [kset, h1, h2]
      · simp [kset, h1, h2, ih]

theorem setSub_twice (s : State) (t u : Nat) (U V : Sub) : (s.setSub t u U).setSub t u V = s.setSub t u V := by
  simp [State.setSub, State.setTile, State.tile, kgetD, Tile.setSub, kset_kset]

theorem again_slices {s : State} {I : Issuer} (h : s.issuer = some I) (f : Slice → Slice) :
    (again (s.setSub I.t I.u (I.sub.mapSlices f)) fun s I => retire s I .other I.sub) =
      .next (s.setSub I.t I.u { I.sub.retire .other with slices := I.sub.slices.map fun (n, S) => (n, f S) }) := by
  obtain ⟨ht, h1, h2, h3, hc⟩ := issuer_sub h
  rw [ht] at h1 h2 h3
  have hi : (s.setSub I.t I.u (I.sub.mapSlices f)).issuer = some ⟨I.t, I.u, (s.setSub I.t I.u (I.sub.mapSlices f)).tile I.t,
      I.sub.mapSlices f, I.gang, I.block⟩ := by
    have e : (s.setSub I.t I.u (I.sub.mapSlices f)).tile I.t = (s.tile I.t).setSub I.u (I.sub.mapSlices f) := by
      simp [State.setSub, State.setTile, State.tile, kgetD]
    unfold State.issuer
    rw [show (s.setSub I.t I.u (I.sub.mapSlices f)).cur = some (I.t, I.u) from hc]
    simp only [e]
    simp [Tile.setSub, h2, h3, show (I.sub.mapSlices f).gang = I.sub.gang from rfl]
  rw [again_of hi]
  unfold retire
  rw [setSub_twice]
  rfl

/-- No sheaf in a slot of a partition. -/
def NoSheaf (p slot : Nat) (s : State) : Prop := ∀ P, s.part p = some P → kget P.sheaves slot = none

variable {p slot : Nat}

theorem NoSheaf.parts {s s' : State} (h : NoSheaf p slot s) (e : s'.parts = s.parts) : NoSheaf p slot s' := by
  intro P hP; apply h P; unfold State.part at *; rw [e] at hP; exact hP

theorem NoSheaf.setPart {s : State} (h : NoSheaf p slot s) (q : Nat) (Q : Part) (hq : p = q → kget Q.sheaves slot = none) :
    NoSheaf p slot (s.setPart q Q) := by
  intro P hP
  unfold State.part State.setPart at hP
  by_cases e : p = q
  · subst e; simp only [kget_kset_same, Option.some.injEq] at hP; subst hP; exact hq rfl
  · rw [kget_kset_ne _ _ e] at hP; exact h P hP

theorem NoSheaf.same {s : State} (h : NoSheaf p slot s) {q : Nat} {P Q : Part} (hP : s.part q = some P)
    (e : ∀ k, kget P.sheaves k = none → kget Q.sheaves k = none) : NoSheaf p slot (s.setPart q Q) :=
  h.setPart q Q fun hpq => e _ (h P (hpq ▸ hP))

theorem NoSheaf.mapParts {s : State} (h : NoSheaf p slot s) (f : Nat → Part → Part)
    (e : ∀ q P, kget P.sheaves slot = none → kget (f q P).sheaves slot = none) : NoSheaf p slot { s with parts := kmap s.parts f } := by
  intro P hP
  unfold State.part at hP
  simp only [kget_kmap, Option.map_eq_some_iff] at hP
  obtain ⟨P0, h0, rfl⟩ := hP
  exact e _ _ (h P0 h0)

theorem NoSheaf.foldl {α : Type} (l : List α) (f : State → α → State) (hf : ∀ s x, NoSheaf p slot s → NoSheaf p slot (f s x)) :
    ∀ s, NoSheaf p slot s → NoSheaf p slot (l.foldl f s) := by
  induction l with
  | nil => exact fun _ h => h
  | cons x l ih => exact fun s h => ih _ (hf s x h)

theorem kget_kfilter_none {α : Type} (m : KMap α) (f : Nat → α → Bool) (k : Nat) (h : kget m k = none) : kget (kfilter m f) k = none := by
  cases e : kget (kfilter m f) k with
  | none => rfl
  | some v =>
    have := (List.mem_filter.mp (mem_of_kget e)).1
    exfalso
    clear e
    induction m with
    | nil => cases this
    | cons x m ih =>
      obtain ⟨j, w⟩ := x
      simp only [kget] at h
      split at h
      · cases h
      next hj =>
        rcases List.mem_cons.mp this with e | e
        · simp only [Prod.mk.injEq] at e; exact hj e.1.symm
        · exact ih h e

theorem NoSheaf.tidySheaves {s : State} (h : NoSheaf p slot s) (q : Nat) : NoSheaf p slot (s.tidySheaves q) := by
  unfold State.tidySheaves
  split
  · exact h
  · next P hP =>
    extract_lets left s1
    have : NoSheaf p slot s1 := h.same hP (fun k hk => by dsimp only; exact kget_kfilter_none _ _ _ hk)
    exact this.parts rfl

theorem NoSheaf.dropStageGang {s : State} (h : NoSheaf p slot s) (q t g : Nat) : NoSheaf p slot (s.dropStageGang q t g) := by
  unfold State.dropStageGang
  split
  · exact h.parts rfl
  · split
    · exact h
    · next P hP =>
      split
      · refine (h.same hP fun k hk => ?_).tidySheaves _
        dsimp only
        rw [kget_kmap, hk]
        rfl
      · exact h

theorem NoSheaf.dropSkein {s : State} (h : NoSheaf p slot s) (q k : Nat) : NoSheaf p slot (s.dropSkein q k) := by
  unfold State.dropSkein
  split
  · exact h
  split
  · exact h
  next K _ =>
  extract_lets s1 s2
  have h1 : NoSheaf p slot s1 := by
    apply NoSheaf.foldl
    · intro s x h
      split
      · exact h.dropStageGang _ _ _
      · exact h
    · exact h
  have h2 : NoSheaf p slot s2 := by
    show NoSheaf p slot (match K.foldGang with
      | some g => s1.setTile K.tile ((s1.tile K.tile).dropGang g)
      | none => s1)
    split
    · exact h1.parts rfl
    · exact h1
  split
  · next P hP => exact h2.same hP fun _ h => h
  · exact h2

theorem NoSheaf.dropBlock {s : State} (h : NoSheaf p slot s) (t c : Nat) : NoSheaf p slot (s.dropBlock t c) := by
  unfold State.dropBlock
  split
  · exact h
  next B _ =>
  extract_lets s1 s2 T gone T2
  have h1 : NoSheaf p slot s1 := by
    show NoSheaf p slot (match B.skein with | some k => s.dropSkein B.part k | none => s)
    split
    · exact h.dropSkein _ _
    · exact h
  have h2 : NoSheaf p slot s2 := by
    show NoSheaf p slot (if B.peers.length ≤ 1 then s1 else _)
    split
    · exact h1
    · exact h1.parts rfl
  exact h2.parts rfl

theorem NoSheaf.countEnded {s : State} (h : NoSheaf p slot s) (g : Nat) (b : Bool) : NoSheaf p slot (s.countEnded g b) := by
  unfold State.countEnded
  split
  · exact h
  · exact h.parts rfl

theorem NoSheaf.countErr {s : State} (h : NoSheaf p slot s) (g : Nat) (b : ErrField) : NoSheaf p slot (s.countErr g b) := h.parts rfl

theorem NoSheaf.failBlock {s : State} (h : NoSheaf p slot s) (t c : Nat) : NoSheaf p slot (s.failBlock t c) := by
  unfold State.failBlock
  split
  · exact h
  · dsimp only
    apply NoSheaf.countErr
    apply NoSheaf.countEnded
    exact (h.dropBlock _ _).parts rfl

theorem NoSheaf.failHeld {s : State} (h : NoSheaf p slot s) (q : Nat) (f : Block → Bool) : NoSheaf p slot (s.failHeld q f) := by
  unfold State.failHeld
  split
  · exact h
  next P hP =>
  dsimp only
  split
  · exact h
  · apply NoSheaf.foldl
    · intro s x h
      exact (h.countEnded _ _).countErr _ _
    · apply NoSheaf.tidySheaves
      have h1 : ∀ (l : List Block) (s : State), NoSheaf p slot s →
          NoSheaf p slot (l.foldl (fun s B => match B.skein with | some k => s.dropSkein q k | none => s) s) := by
        intro l s h
        apply NoSheaf.foldl
        · intro s x h
          split
          · exact h.dropSkein _ _
          · exact h
        · exact h
      split
      · next P' hP' =>
        refine NoSheaf.same (h1 _ _ h) hP' fun k hk => ?_
        dsimp only
        rw [kget_kmap, hk]
        rfl
      · exact h1 _ _ h

theorem NoSheaf.mapBlock {s : State} (h : NoSheaf p slot s) (u : Nat) (f : Block → Block) : NoSheaf p slot (s.mapBlock u f) := by
  unfold State.mapBlock
  dsimp only
  split
  · exact h.parts rfl
  · apply h.mapParts
    intro q P hk
    dsimp only
    rw [kget_kmap, hk]
    rfl

theorem enterRun_parts (s : State) (t r : Nat) (c : Cont) : (s.enterRun t r c).1.parts = s.parts := rfl

theorem admitRun_parts (s : State) (t r : Nat) : (s.admitRun t r).parts = s.parts := by
  unfold State.admitRun
  split
  · rfl
  · extract_lets s1
    split
    · rfl
    · split
      · exact enterRun_parts _ _ _ _
      · unfold State.moveRun
        dsimp only
        split
        · split
          · next s' e =>
            have e' := congrArg (fun x => x.1.parts) e
            rw [enterRun_parts] at e'
            split
            · exact e'.symm
            · exact e'.symm
          · rfl
        · rfl

theorem NoSheaf.wakeSlots {s : State} (h : NoSheaf p slot s) (u : Nat) : NoSheaf p slot (s.wakeSlots u) := by
  unfold State.wakeSlots
  split
  · exact h
  · split
    · apply NoSheaf.foldl
      · exact fun s x h => h.parts (admitRun_parts _ _ _)
      · exact h
    · exact h

theorem NoSheaf.returnEdge {s : State} (h : NoSheaf p slot s) (v : Nat) (va : Word) : NoSheaf p slot (s.returnEdge v va) := by
  unfold State.returnEdge
  split
  · exact h
  · dsimp only
    split
    · apply NoSheaf.mapParts
      · split
        · exact h.parts rfl
        · exact h
      · exact fun _ _ h => h
    · unfold State.edgeDue
      split
      · exact h
      · split
        · exact h
        · next hP => exact h.same hP fun _ hk => hk

theorem NoSheaf.returnSlot {s : State} (h : NoSheaf p slot s) (o : Origin) (g : Nat) : NoSheaf p slot (s.returnSlot o g) := by
  unfold State.returnSlot
  split
  · exact h.parts rfl
  · exact (h.mapBlock _ _).wakeSlots _
  · exact h.returnEdge _ _

theorem NoSheaf.withdraw {s : State} (h : NoSheaf p slot s) (g : Nat) : NoSheaf p slot (s.withdraw g) := by
  unfold State.withdraw
  split
  · exact h
  next G _ =>
  split
  · extract_lets s1 s2
    have h1 : NoSheaf p slot s1 := h.parts rfl
    have h2 : NoSheaf p slot s2 := by
      show NoSheaf p slot (match s1.part G.part with | none => s1 | some P => _)
      split
      · exact h1
      · next P hP => exact h1.same hP fun _ h => h
    split
    · exact h2.returnSlot _ _
    · exact h2
  · exact h

theorem NoSheaf.failGrid {s : State} (h : NoSheaf p slot s) (g : Nat) : NoSheaf p slot (s.failGrid g) := by
  unfold State.failGrid
  split
  · exact h
  · dsimp only
    apply NoSheaf.withdraw
    apply NoSheaf.failHeld
    apply NoSheaf.foldl
    · exact fun s x h => h.failBlock _ _
    · exact h

theorem discard_noSheaf (s : State) (p slot : Nat) : NoSheaf p slot (s.discardSheaf p slot) := by
  unfold State.discardSheaf
  split
  · next h => intro P hP; rw [h] at hP; cases hP
  next P hP =>
  split
  · next h => intro P' hP'; rw [hP] at hP'; cases hP'; exact h
  next h _ =>
  dsimp only
  apply NoSheaf.foldl
  · intro s x h
    split
    · split
      · exact ((h.countEnded _ _).countErr _ _).failGrid _
      · exact (h.countEnded _ _).countErr _ _
    · exact (h.countEnded _ _).countErr _ _
  · apply NoSheaf.foldl
    · exact fun s x h => h.dropSkein _ _
    · intro P' hP'
      simp only [State.part, State.setPart, kget_kset_same, Option.some.injEq] at hP'
      subst hP'
      show kget (kdel P.sheaves slot) slot = none
      cases hk : kget (kdel P.sheaves slot) slot with
      | none => rfl
      | some v =>
        have := mem_of_kget hk
        exfalso
        clear hk
        generalize P.sheaves = m at this
        induction m with
        | nil => simp [kdel] at this
        | cons x m ih =>
          obtain ⟨j, w⟩ := x
          simp only [kdel] at this
          split at this
          · exact ih this
          · next hj =>
            rcases List.mem_cons.mp this with e | e
            · simp only [Prod.mk.injEq] at e; exact hj e.1.symm
            · exact ih e

end Sys2Proof.Machine
end

