-- ==== Sys2Proof/Laws/Uniform.lean ====
section
/-!
SUPPORT. What uniform instructions, branches and mask instructions do, and the values of uniform arithmetic.
-/
set_option linter.unusedSimpArgs false
set_option linter.unusedVariables false
namespace Sys2Proof.Machine

theorem setDst_eq (U : Sub) (d : UDst) (x : Word) (k : RunKind) :
    (U.setDst d x).retire k = { U.retire k with slices := U.slices.map fun (n, S) => (n, S.putDst d x) } := by
  cases h : d.nw <;> simp [Sub.setDst, Slice.putDst, h, Sub.setS, Sub.mapSlices, kmap, Slice.setSreg, Sub.retire]

theorem uniForm_next {s : State} {i : Instr} {F : UniForm} {f : (Opnd → Word) → Sub → Word} {I : Issuer}
    (h : Issues s i true F.uses I) (x : exec i s = uniResult s i F.uses F.dst f) (e : ∀ R j, f R j = F.val R j) :
    ∃ t, exec i s = .next t ∧ SliceStep (s.afterOperands F.uses) I .straight
      (fun S => S.putDst F.dst (F.val (uniVal (s.window I) (s.latchSeed F.uses) I.sub) I.sub)) t := by
  obtain rfl : f = F.val := funext fun R => funext fun j => e R j
  rw [x]; unfold uniResult; rw [h.run]
  exact ⟨_, rfl, by unfold SliceStep; rw [setDst_eq]⟩

theorem minS_eq (x y : Word) : minS x y = if x.toInt ≤ y.toInt then x else y := by
  simp only [minS, BitVec.slt_eq_decide, decide_eq_true_eq]; split <;> split <;> first | rfl | omega

theorem maxS_eq (x y : Word) : maxS x y = if x.toInt ≤ y.toInt then y else x := by
  simp only [maxS, BitVec.slt_eq_decide, decide_eq_true_eq]
  split <;> split <;> first | rfl | omega | (apply BitVec.eq_of_toInt_eq; omega)

theorem minU_eq (x y : Word) : minU x y = if x.toNat ≤ y.toNat then x else y := by
  simp only [minU, BitVec.ult_eq_decide, decide_eq_true_eq]; split <;> split <;> first | rfl | omega

theorem maxU_eq (x y : Word) : maxU x y = if x.toNat ≤ y.toNat then y else x := by
  simp only [maxU, BitVec.ult_eq_decide, decide_eq_true_eq]
  split <;> split <;> first | rfl | omega | (apply BitVec.eq_of_toNat_eq; omega)

theorem cnt_eq (y : Word) : (y.extractLsb' 0 6).toNat = low6 y := by
  simp [low6, BitVec.extractLsb'_toNat]

theorem low6_lt (y : Word) : low6 y < 64 := Nat.mod_lt _ (by decide)

theorem add_eq (x y : Word) : x + y = BitVec.ofNat 64 (x.toNat + y.toNat) := by
  apply BitVec.eq_of_toNat_eq; simp

theorem mul_eq (x y : Word) : x * y = BitVec.ofNat 64 (x.toNat * y.toNat) := by
  apply BitVec.eq_of_toNat_eq; simp

theorem sub_eq (x y : Word) : x - y = BitVec.ofInt 64 (x.toNat - y.toNat) := by
  apply BitVec.eq_of_toNat_eq
  simp only [BitVec.toNat_sub, BitVec.toNat_ofInt]; have := x.isLt; have := y.isLt; omega

theorem shl_eq (x y : Word) : x <<< low6 y = BitVec.ofNat 64 (x.toNat * 2 ^ low6 y) := by
  apply BitVec.eq_of_toNat_eq; simp [Nat.shiftLeft_eq]

theorem shr_eq (x y : Word) : x >>> low6 y = BitVec.ofNat 64 (x.toNat / 2 ^ low6 y) := by
  apply BitVec.eq_of_toNat_eq
  simp only [BitVec.toNat_ushiftRight, Nat.shiftRight_eq_div_pow, BitVec.toNat_ofNat]
  rw [Nat.mod_eq_of_lt (Nat.lt_of_le_of_lt (Nat.div_le_self _ _) x.isLt)]

theorem sar_eq (x y : Word) : x.sshiftRight (low6 y) = BitVec.ofInt 64 (x.toInt / 2 ^ low6 y) := by
  rw [BitVec.sshiftRight, Int.shiftRight_eq_div_pow]; norm_cast

theorem rol_eq (x y : Word) : x.rotateLeft (low6 y) = (x <<< low6 y) ||| (x >>> (64 - low6 y)) := by
  rw [BitVec.rotateLeft_def, Nat.mod_eq_of_lt (low6_lt y)]

theorem movhi_eq (m : BitVec 19) (z : Word) : (z <<< 19) ||| m.setWidth 64 = BitVec.ofNat 64 (z.toNat * 2 ^ 19 + m.toNat) := by
  apply BitVec.eq_of_toNat_eq
  have := m.isLt
  have h : (z <<< 19) ||| m.setWidth 64 = (z <<< 19) + m.setWidth 64 := by
    rw [BitVec.add_eq_or_of_and_eq_zero]
    apply BitVec.eq_of_getLsbD_eq
    intro i hi
    simp only [BitVec.getLsbD_and, BitVec.getLsbD_shiftLeft, BitVec.getLsbD_setWidth, BitVec.getLsbD_zero]
    by_cases c : i < 19
    · simp [c]
    · rw [BitVec.getLsbD_of_ge m i (by omega)]; simp
  rw [h]
  simp [Nat.shiftLeft_eq]

theorem addi_eq (m : BitVec 19) (z : Word) : z + m.signExtend 64 = BitVec.ofInt 64 (z.toNat + m.toInt) := by
  rw [BitVec.ofInt_add]; congr 1; simp

theorem beq_eq_decide {a b : Word} : (a == b) = decide (a = b) := rfl

theorem bne_eq_decide {a b : Word} : (a != b) = decide (a ≠ b) := by rw [bne, beq_eq_decide, ← decide_not]

theorem bool_flag (p : Prop) [Decidable p] (b : Bool) (h : b = decide p) : bool64 b = flag p := by
  subst h; simp [bool64, flag]

theorem kmap_filter (m : KMap Slice) (p : Nat → Slice → Bool) : kfilter m p = m.filter fun x => p x.1 x.2 := rfl

theorem branch_next (s : State) (I : Issuer) (w : Slice → Slice) (tg : Word) (tk : Nat → Slice → Bool) (f : Slice → Nat → Bool)
  (U : Sub) (hU : U = { I.sub with slices := I.sub.slices.map fun x => (x.1, w x.2) })
  (hf : ∀ n S, f (w S) n = tk n S) :
    let write := fun (x : Nat × Slice) => (x.1, w x.2)
    let yes := (I.sub.slices.filter fun x => tk x.1 x.2).map write
    let no := (I.sub.slices.filter fun x => !tk x.1 x.2).map write
    ∃ t, branch s I U tg f = .next t ∧
      (no = [] → t = s.setSub I.t I.u (I.sub.goes tg yes)) ∧
      (yes = [] → no ≠ [] → t = s.setSub I.t I.u (I.sub.goes (I.sub.pc + 4) no)) ∧
      (yes ≠ [] → no ≠ [] →
        t = { (s.setSub I.t I.u (I.sub.goes (I.sub.pc + 4) no)).setSub I.t s.nextId
                { I.sub.goes tg yes with reports := [] } with nextId := s.nextId + 1 }) := by
  intro write yes no
  have ey : (kfilter U.slices fun i S => f S i) = yes := by
    subst hU; simp only [kfilter, yes, write, List.filter_map]; congr 1; apply List.filter_congr; intro x _; simp [hf]
  have en : (kfilter U.slices fun i S => !f S i) = no := by
    subst hU; simp only [kfilter, no, write, List.filter_map]; congr 1; apply List.filter_congr; intro x _; simp [hf]
  have ec : ∀ pc sl, U.branched pc sl = I.sub.goes pc sl := by intros; subst hU; rfl
  have ep : U.pc = I.sub.pc := by subst hU; rfl
  unfold branch
  simp only [ey, en, ep]
  refine ⟨_, rfl, fun h => ?_, fun h k => ?_, fun h k => ?_⟩
  · simp [h, splitInto, ec]
  · simp [h, k, splitInto, ec]
  · simp [h, k, splitInto, ec]

theorem same_slices (U : Sub) : U = { U with slices := U.slices.map fun x => (x.1, x.2) } := by
  simp

theorem target_eq {n : Nat} (off : BitVec n) (U : Sub) (h : n ≤ 64) : branchTarget U.pc off = target off U := by
  unfold branchTarget target
  rw [BitVec.ofInt_add, BitVec.ofInt_mul, BitVec.mul_comm]
  congr 1; simp

theorem mem_activePreds (S : Slice) (p : BitVec 3) (x : Bool) : x ∈ S.activePreds p ↔ S.holds p x = true := by
  simp only [Slice.activePreds, Slice.holds, List.mem_map, List.mem_filter, List.any_eq_true, List.mem_range, Bool.and_eq_true,
    Option.any_eq_true, beq_iff_eq]
  constructor
  · rintro ⟨⟨L, j⟩, ⟨h1, h2⟩, h3⟩
    have := List.mem_zipIdx' h1
    exact ⟨j, this.1, h2, L, by rw [List.getElem?_eq_getElem this.1]; exact congrArg some this.2.symm, h3⟩
  · rintro ⟨j, hj, h2, L, h3, h4⟩
    refine ⟨(L, j), ⟨?_, h2⟩, h4⟩
    rw [List.mem_zipIdx_iff_getElem?]
    exact h3

theorem holds_true (S : Slice) (p : BitVec 3) : (S.activePreds p).any id = S.holds p true := by
  rw [Bool.eq_iff_iff, ← mem_activePreds]; simp

theorem holds_false (S : Slice) (p : BitVec 3) : (S.activePreds p).all id = !S.holds p false := by
  have := mem_activePreds S p false
  cases h : S.holds p false
  · simp only [h, Bool.false_eq_true, iff_false] at this
    simp only [Bool.not_false, List.all_eq_true, id]
    intro x hx; cases x <;> simp_all
  · simp only [h, iff_true] at this
    simp only [Bool.not_true, List.all_eq_false]
    exact ⟨false, this, by simp⟩

theorem group_inv (t : Nat → Slice → Word) (sl : KMap Slice) (gs : List (Word × KMap Slice)) (nd : (gs.map (·.1)).Nodup) :
    let r := sl.foldl (fun gs (i, S) =>
      if gs.any fun g => g.1 == t i S then gs.map fun g => if g.1 == t i S then (g.1, g.2 ++ [(i, S)]) else g
      else gs ++ [(t i S, [(i, S)])]) gs
    (r.map (·.1)).Nodup ∧ ∀ pc n S, (∃ p ∈ r, p.1 = pc ∧ (n, S) ∈ p.2) ↔ (∃ p ∈ gs, p.1 = pc ∧ (n, S) ∈ p.2) ∨ ((n, S) ∈ sl ∧ pc = t n S) := by
  induction sl generalizing gs with
  | nil => exact ⟨nd, fun pc n S => by simp⟩
  | cons x sl ih =>
    obtain ⟨i, X⟩ := x
    simp only [List.foldl_cons]
    by_cases c : (gs.any fun g => g.1 == t i X) = true
    · simp only [c, if_true]
      have hm : ((gs.map fun g => if g.1 == t i X then (g.1, g.2 ++ [(i, X)]) else g).map (·.1)) = gs.map (·.1) := by
        rw [List.map_map]; apply List.map_congr_left; intro g _; simp only [Function.comp]; split <;> rfl
      have := ih (gs.map fun g => if g.1 == t i X then (g.1, g.2 ++ [(i, X)]) else g) (by rw [hm]; exact nd)
      refine ⟨this.1, fun pc n S => (this.2 pc n S).trans ?_⟩
      simp only [List.mem_cons, Prod.mk.injEq]
      rw [List.any_eq_true] at c
      obtain ⟨g0, hg0, e0⟩ := c
      constructor
      · rintro (⟨p, hp, h1, h2⟩ | h)
        · obtain ⟨g, hg, rfl⟩ := List.mem_map.mp hp
          by_cases e : g.1 == t i X
          · simp only [e, if_true, List.mem_append, List.mem_singleton, Prod.mk.injEq] at h1 h2
            rcases h2 with h2 | ⟨rfl, rfl⟩
            · exact .inl ⟨g, hg, h1, h2⟩
            · exact .inr ⟨.inl ⟨rfl, rfl⟩, by rw [← h1]; exact eq_of_beq e⟩
          · simp only [e] at h1 h2
            exact .inl ⟨g, hg, h1, h2⟩
        · exact .inr ⟨.inr h.1, h.2⟩
      · rintro (⟨g, hg, h1, h2⟩ | ⟨⟨rfl, rfl⟩ | h, e⟩)
        · refine .inl ⟨_, List.mem_map.mpr ⟨g, hg, rfl⟩, ?_, ?_⟩
          · split <;> exact h1
          · split
            · exact List.mem_append_left _ h2
            · exact h2
        · refine .inl ⟨_, List.mem_map.mpr ⟨g0, hg0, rfl⟩, ?_, ?_⟩
          · rw [if_pos e0, e]; exact eq_of_beq e0
          · rw [if_pos e0]; simp
        · exact .inr ⟨h, e⟩
    · simp only [c]
      have hn : t i X ∉ gs.map (·.1) := by
        intro hm; obtain ⟨g, hg, e⟩ := List.mem_map.mp hm
        exact c (List.any_eq_true.mpr ⟨g, hg, by simp [e]⟩)
      have := ih (gs ++ [(t i X, [(i, X)])]) (by
        rw [List.map_append, List.nodup_append]; refine ⟨nd, by simp, ?_⟩
        intro a ha b hb; simp at hb; subst hb; exact fun e => hn (e ▸ ha))
      refine ⟨this.1, fun pc n S => (this.2 pc n S).trans ?_⟩
      simp only [List.mem_append, List.mem_cons, List.not_mem_nil, or_false, Prod.mk.injEq]
      constructor
      · rintro (⟨p, hp | rfl, h1, h2⟩ | h)
        · exact .inl ⟨p, hp, h1, h2⟩
        · simp only [List.mem_singleton, Prod.mk.injEq] at h2; obtain ⟨rfl, rfl⟩ := h2
          exact .inr ⟨.inl ⟨rfl, rfl⟩, h1.symm⟩
        · exact .inr ⟨.inr h.1, h.2⟩
      · rintro (⟨p, hp, h1, h2⟩ | ⟨⟨rfl, rfl⟩ | h, e⟩)
        · exact .inl ⟨p, .inl hp, h1, h2⟩
        · exact .inl ⟨_, .inr rfl, e.symm, by simp⟩
        · exact .inr ⟨h, e⟩

theorem mask_next {s : State} {i : Instr} {F : MaskForm} {I : Issuer} {us} {bad} {code} {f}
    (h : Issues s i true F.uses I) (x : exec i s = maskOp s i us bad code f) (hu : us = F.uses) (n : readsLatch F.uses = false)
    (hb : ∀ S, bad S = F.bad S) (hf : ∀ S, f S = F.act S) (hc : code = F.code) :
    ((∀ x ∈ I.sub.slices, F.bad x.2 = false) → ∃ t, exec i s = .next t ∧ SliceStep s I .straight F.act t) ∧
    ((∃ x ∈ I.sub.slices, F.bad x.2 = true) →
    exec i s = .next (takeTrap s I.t I.u ⟨9, F.code, 0xFF, 0, wordOf i, false, none, I.sub.pc⟩)) := by
  subst hu hc
  obtain rfl : f = F.act := funext hf
  obtain rfl : bad = F.bad := funext hb
  rw [x]; unfold maskOp; rw [h.run, State.afterOperands, n]
  constructor
  · intro hbad
    rw [if_neg (by simpa using hbad)]
    exact ⟨_, rfl, rfl⟩
  · rintro ⟨x, hx, hbad⟩
    have : (I.sub.slices.any fun x => F.bad x.2) = true := List.any_eq_true.mpr ⟨x, hx, hbad⟩
    simp only [this, if_true]; rfl

end Sys2Proof.Machine
end

