-- ==== Sys2Proof/Laws/Sync.lean ====
section
/-!
SUPPORT. What a park puts into the bin store, and what fences, monitors, barriers and timelines read and leave.
-/
set_option linter.unusedSimpArgs false
set_option linter.unusedVariables false
namespace Sys2Proof.Machine

theorem kget_mem {α : Type} {m : KMap α} {k : Nat} {v : α} (h : (k, v) ∈ m) : (kget m k).isSome = true := by
  induction m with
  | nil => cases h
  | cons x m ih =>
    obtain ⟨j, w⟩ := x
    simp only [kget]
    split
    · rfl
    · next hj =>
      rcases List.mem_cons.mp h with e | e
      · simp only [Prod.mk.injEq] at e; exact absurd e.1.symm hj
      · exact ih e

theorem filter_le {n : Nat} (m : KMap Cont) : ((List.range n).filter fun k => (kget m k).isSome).length ≤ m.length := by
  have nd : ((List.range n).filter fun k => (kget m k).isSome).Nodup := List.nodup_range.filter _
  have sub : ∀ k ∈ (List.range n).filter (fun k => (kget m k).isSome), k ∈ m.map (·.1) := by
    intro k hk
    obtain ⟨v, hv⟩ := Option.isSome_iff_exists.mp (List.mem_filter.mp hk).2
    exact List.mem_map.mpr ⟨(k, v), mem_of_kget hv, rfl⟩
  have : ∀ (l r : List Nat), l.Nodup → (∀ x ∈ l, x ∈ r) → l.length ≤ r.length := by
    intro l
    induction l with
    | nil => simp
    | cons a l ih =>
      intro r hn hs
      have ha := hs a (List.mem_cons_self ..)
      have hp := List.perm_cons_erase ha
      have := ih (r.erase a) (List.nodup_cons.mp hn).2 (fun x hx => by
        have hx2 := hs x (List.mem_cons_of_mem _ hx)
        have hne : x ≠ a := fun e => (List.nodup_cons.mp hn).1 (e ▸ hx)
        exact (List.mem_erase_of_ne hne).mpr hx2)
      have := hp.length_eq
      simp only [List.length_cons] at *
      omega
  have := this _ _ nd sub
  simpa using this

theorem split_length {α : Type} (l : List α) (p : α → Bool) :
    (l.filter p).length + (l.filter fun x => !p x).length = l.length := by
  induction l with
  | nil => rfl
  | cons a l ih => cases h : p a <;> simp [h] <;> omega

theorem slotList_length (T : Tile) (n : Nat) (h : n ≤ T.freeSlots) : (T.slotList n).length = n := by
  unfold Tile.slotList Tile.freeSlots at *
  rw [List.length_take]
  have h1 := filter_le (n := 1024) T.conts
  have h2 : ((List.range 1024).filter fun k => (kget T.conts k).isSome).length +
      ((List.range 1024).filter fun k => (kget T.conts k).isNone).length = 1024 := by
    have := split_length (List.range 1024) (fun k => (kget T.conts k).isSome)
    simp only [List.length_range] at this
    have e : (fun k => (kget T.conts k).isNone) = fun k => !(kget T.conts k).isSome := by
      funext k; simp
    rw [e]
    exact this
  omega

theorem slotList_free {T : Tile} {n k : Nat} (h : k ∈ T.slotList n) : k < 1024 ∧ kget T.conts k = none := by
  unfold Tile.slotList at h
  have := List.mem_filter.mp (List.mem_of_mem_take h)
  exact ⟨List.mem_range.mp this.1, by simpa using this.2⟩

theorem slotList_nodup (T : Tile) (n : Nat) : (T.slotList n).Nodup :=
  ((List.nodup_range (n := 1024)).filter _).sublist (List.take_sublist _ _)

/-- Setting the entries a list gives, one after another. -/
theorem fold_kset {β : Type} (g : β × Nat → Option Cont) (l : List (β × Nat)) : ∀ (m : KMap Cont), (l.map (·.2)).Nodup →
    let C := l.foldl (fun m x => match g x with | some c => kset m x.2 c | none => m) m
    (∀ k, (∀ x ∈ l, x.2 ≠ k) → kget C k = kget m k) ∧
    (∀ x ∈ l, ∀ c, g x = some c → kget C x.2 = some c) ∧ (∀ x ∈ l, g x = none → kget C x.2 = kget m x.2) := by
  induction l with
  | nil => intro m _; exact ⟨fun _ _ => rfl, by simp, by simp⟩
  | cons y l ih =>
    intro m nd C
    have hn := List.nodup_cons.mp nd
    obtain ⟨a, b, c⟩ := ih (match g y with | some c => kset m y.2 c | none => m) hn.2
    have hy : ∀ x ∈ l, x.2 ≠ y.2 := fun x hx e => hn.1 (List.mem_map.mpr ⟨x, hx, e⟩)
    refine ⟨?_, ?_, ?_⟩
    · intro k hk
      refine (a k fun x hx => hk x (List.mem_cons_of_mem _ hx)).trans ?_
      split
      · rw [kget_kset_ne _ _ (hk y (List.mem_cons_self ..)).symm]
      · rfl
    · intro x hx c' hc
      rcases List.mem_cons.mp hx with rfl | hx
      · refine (a x.2 hy).trans ?_
        rw [hc]
        simp
      · exact b x hx c' hc
    · intro x hx hg
      rcases List.mem_cons.mp hx with rfl | hx
      · refine (a x.2 hy).trans ?_
        rw [hg]
      · refine (c x hx hg).trans ?_
        split
        · rw [kget_kset_ne _ _ (hy x hx)]
        · rfl

theorem parkConts_in {s : State} {I : Issuer} {resume : Resume} {place : ContAt} (h : I.sub.liveLanes.length ≤ I.tile.freeSlots) :
    ParksIn s I resume place (parkConts I.tile I I.sub s.nextId s.free resume place) := by
  have hlen := slotList_length I.tile _ h
  let g : (Nat × Nat × Nat) × Nat → Option Cont := fun x => (kget I.sub.slices x.1.1).bind fun S => (S.lanes[x.1.2.2]?).map fun L => parkedCont s I resume place x.2 x.1.2.1 S x.1.2.2 L
  let l := I.sub.liveLanes.zip (I.tile.slotList I.sub.liveLanes.length)
  have e : parkConts I.tile I I.sub s.nextId s.free resume place =
      l.foldl (fun m x => match g x with | some c => kset m x.2 c | none => m) I.tile.conts := by
    unfold parkConts
    show List.foldl _ _ l = _
    congr 1
    funext m x
    obtain ⟨⟨i, n, j⟩, k⟩ := x
    show _ = match (kget I.sub.slices i).bind fun S => (S.lanes[j]?).map fun L => parkedCont s I resume place k n S j L with | some c => kset m k c | none => m
    dsimp only
    cases hS : kget I.sub.slices i with
    | none => rfl
    | some S =>
      dsimp only
      cases hL : S.lanes[j]? with
      | none => simp [hL]
      | some L => simp [hL, parkedCont, Lane.saved]
  have hk : l.map (·.2) = I.tile.slotList I.sub.liveLanes.length := List.map_snd_zip (by omega)
  have hf : l.map (·.1) = I.sub.liveLanes := List.map_fst_zip (by omega)
  obtain ⟨a, b, c⟩ := fold_kset g l I.tile.conts (by rw [hk]; exact slotList_nodup _ _)
  have hlive : ∀ x ∈ I.sub.liveLanes, ∃ S, I.sub.slices[x.2.1]? = some (x.1, S) ∧ x.2.2 < 4 ∧ S.live.getLsbD x.2.2 = true := by
    intro x hx
    unfold Sub.liveLanes at hx
    obtain ⟨y, hy, hx⟩ := List.mem_flatMap.mp hx
    obtain ⟨⟨i, S⟩, n⟩ := y
    obtain ⟨j, hj, rfl⟩ := List.mem_map.mp hx
    have := List.mem_filter.mp hj
    exact ⟨S, (List.mem_zipIdx_iff_getElem?.mp hy), List.mem_range.mp this.1, this.2⟩
  rw [e]
  refine ⟨?_, ?_, ?_⟩
  · intro k c' hc
    refine (a k ?_).trans hc
    intro x hx hxk
    have := (slotList_free (hk ▸ List.mem_map.mpr ⟨x, hx, rfl⟩ : x.2 ∈ _)).2
    rw [hxk, hc] at this
    cases this
  · intro k c' hc hn
    by_cases hx : ∃ x ∈ l, x.2 = k
    · obtain ⟨x, hx, rfl⟩ := hx
      cases hg : g x with
      | none => rw [c x hx hg, hn] at hc; cases hc
      | some c0 =>
        rw [b x hx c0 hg] at hc
        cases hc
        obtain ⟨S, h1, h2, h3⟩ := hlive x.1 (hf ▸ List.mem_map.mpr ⟨x, hx, rfl⟩)
        obtain ⟨S', hS', hM⟩ := Option.bind_eq_some_iff.mp hg
        obtain ⟨L, hL, rfl⟩ := Option.map_eq_some_iff.mp hM
        exact ⟨_, _, S', _, L, by rw [h1]; rfl, hS', h2, hL, rfl⟩
    · rw [a k (fun x hx' e => hx ⟨x, hx', e⟩), hn] at hc
      cases hc
  · intro n i S j L h1 h2 h3 h4 h5
    have : (i, n, j) ∈ I.sub.liveLanes := by
      unfold Sub.liveLanes
      refine List.mem_flatMap.mpr ⟨((i, S), n), List.mem_zipIdx_iff_getElem?.mpr h1, ?_⟩
      exact List.mem_map.mpr ⟨j, List.mem_filter.mpr ⟨List.mem_range.mpr h3, h4⟩, rfl⟩
    rw [← hf] at this
    obtain ⟨x, hx, hxe⟩ := List.mem_map.mp this
    have hs := slotList_free (hk ▸ List.mem_map.mpr ⟨x, hx, rfl⟩ : x.2 ∈ _)
    refine ⟨x.2, hs.1, hs.2, b x hx _ ?_⟩
    show (kget I.sub.slices x.1.1).bind _ = _
    rw [hxe, h2]
    simp [h5]

theorem park_free {s : State} {I : Issuer} {resume : Resume} {cond : Option Cond} {w : Bool} (hf : I.gang.free) (he : I.sub.logsEmpty = true)
    (hr : parkRoom I cond) : ∃ t, park s I resume cond w = .next t ∧ Parks s I resume cond w t := by
  unfold park
  rw [if_neg (by simp [he])]
  dsimp only
  have h1 : ¬ I.tile.freeSlots < I.sub.liveLanes.length := by have := hr.1; omega
  have h2 : (cond.isSome || (I.tile.fillingBin I.sub.pc I.block.uid I.gang.detached).isSome || (kfree I.tile.bins 32).isSome) = true := by
    cases cond with
    | some c => rfl
    | none => rcases hr.2 rfl with h | h <;> simp [h]
  rw [if_neg (by simp only [h1, h2]; simp)]
  rw [hf.commits]
  refine ⟨_, rfl, _, parkConts_in hr.1, ?_⟩
  cases cond <;> rfl

theorem kfilter_false {α : Type} (m : KMap α) (p : Nat → α → Bool) (h : ∀ k v, p k v = false) : kfilter m p = [] := by
  unfold kfilter
  rw [List.filter_eq_nil_iff]
  intro x _
  simp [h]

theorem cancelFills_tile (s : State) (t : Nat) (p : Nat → Bool) (t' : Nat) : ((cancelFills s t p).tile t') = s.tile t' := rfl

theorem l1Clear_l1 (s : State) (t : Nat) : ((s.l1Clear t).tile t).l1 = [] := by
  unfold State.l1Clear State.l1Drop
  dsimp only
  rw [cancelFills_tile, setTile_same]
  exact kfilter_false _ _ (fun _ _ => rfl)

theorem readsBad_nil (U : Sub) (W : Win) (lane : Bool) : U.readsBad W lane [] = false := by
  have hu : U.uniBad (reads []) = false := by
    unfold Sub.uniBad
    cases U.low <;> simp [reads]
  have hl : ∀ j, U.laneBad W (reads []) j = false := by
    intro j
    unfold Sub.laneBad
    cases U.lane j <;> simp [reads]
  unfold Sub.readsBad
  simp only [hu, hl, Bool.or_false, List.any_eq_true, Bool.false_eq_true, and_false, exists_false]
  cases U.lowActive <;> simp

theorem issues_nil {s : State} {I : Issuer} (h : s.issuer = some I) (i : Instr) : Issues s i false [] I :=
  ⟨h, by simp [useFault], by simp [touches, Sub.hazard], readsBad_nil _ _ _⟩

theorem retire_slices (U : Sub) (m : KMap Slice) (k : RunKind) : ({ U with slices := m }).retire k = { U.retire k with slices := m } := rfl

theorem monitor_holds (m : Monitor) (v : Nat) :
    m.holds v = true ↔ monitorCond m.cond.toNat (8 * m.ty.bytes) v (m.cmp.toNat % 2 ^ (8 * m.ty.bytes)) := by
  unfold Monitor.holds monitorCond
  dsimp only
  have : m.cond.toNat < 4 := m.cond.isLt
  generalize m.cond.toNat = c at *
  match c, this with
  | 0, _ => simp
  | 1, _ => simp
  | 2, _ => simp
  | 3, _ => simp

theorem heldOver_nil (fa n : Nat) : heldOver [] fa n = (0, 0) := rfl

theorem overlay_zero (o m : BitVec 128) : overlayBytes 0 o m = m := by
  apply BitVec.eq_of_getLsbD_eq
  intro j hj
  rw [overlay_bit _ _ _ _ hj]
  simp

theorem overlay_none (fa n : Nat) (m : BitVec 128) : overlayBytes (heldOver [] fa n).2 (heldOver [] fa n).1 m = m := overlay_zero _ _

theorem leNat_bytes_lt (s : State) (pa n : Nat) : leNat (s.bytes pa n) < 2 ^ (8 * n) := by
  have := leNat_lt (s.bytes pa n)
  have e : (s.bytes pa n).length = n := by simp [State.bytes]
  rw [e] at this
  rwa [Nat.pow_mul]

theorem Ty2.bytes_le (ty : Ty2) : ty.bytes ≤ 8 := by cases ty <;> decide

theorem dataOf_toNat (s : State) (pa n : Nat) (h : n ≤ 16) : (dataOf (s.bytes pa n)).toNat % 2 ^ (8 * n) = leNat (s.bytes pa n) := by
  have := leNat_bytes_lt s pa n
  have : 2 ^ (8 * n) ≤ 2 ^ 128 := Nat.pow_le_pow_right (by decide) (by omega)
  unfold dataOf
  rw [BitVec.toNat_ofNat, Nat.mod_eq_of_lt (a := leNat _) (by omega), Nat.mod_eq_of_lt (by assumption)]

theorem noteRead_issuer {s : State} {I : Issuer} (h : s.issuer = some I) (d hm : Nat) : (s.noteRead d hm).issuer = some I := by
  have : (s.noteRead d hm).cur = s.cur ∧ (s.noteRead d hm).tiles = s.tiles := by
    unfold State.noteRead State.observe
    split <;> exact ⟨rfl, rfl⟩
  rw [← h]
  unfold State.issuer State.tile
  rw [this.1, this.2]

theorem noteRead_gen (s : State) (d hm : Nat) : (s.noteRead d hm).gen = s.gen := by
  unfold State.noteRead State.observe
  split <;> rfl

theorem monwait_value (s : State) (a b pa n fa : Nat) (h : n ≤ 16) :
    (overlayBytes (heldOver [] fa n).2 (heldOver [] fa n).1 (dataOf ((s.noteRead a b).bytes pa n))).toNat % 2 ^ (8 * n) = leNat (s.bytes pa n) := by
  refine (congrArg (fun x : BitVec 128 => x.toNat % 2 ^ (8 * n)) (overlay_none fa n _)).trans ?_
  refine (dataOf_toNat _ _ _ h).trans ?_
  unfold State.bytes
  rw [State.noteRead_mem]

theorem Block.spadBytes_setSpad (B : Block) (o : Nat) (bs : List Byte) (x n : Nat) (h1 : o ≤ x) (h2 : x + n ≤ o + bs.length) :
    (B.setSpad o bs).spadBytes x n = (bs.drop (x - o)).take n := by
  apply List.ext_getElem
  · simp [Block.spadBytes]; omega
  · intro k hk1 hk2
    simp only [Block.spadBytes, List.length_map, List.length_range] at hk1
    simp only [Block.spadBytes, List.getElem_map, List.getElem_range]
    rw [Block.spadByte_setSpad, if_pos (by omega), List.getElem_take, List.getElem_drop, List.getD_eq_getElem?_getD, List.getElem?_eq_getElem (by omega)]
    show bs[_] = _
    congr 1
    omega

def barBytes (w : Nat × Nat × Nat × Nat) : List Byte := natLe 4 w.1 ++ natLe 4 w.2.1 ++ natLe 4 w.2.2.1 ++ natLe 4 w.2.2.2

theorem barBytes_length (w) : (barBytes w).length = 16 := by simp [barBytes, natLe_length]

theorem barrier_write {s : State} {p : SpadAt} {B : Block} (hB : kget (s.tile p.t).blocks p.ctx = some B) (w : Nat × Nat × Nat × Nat)
    (h : w.1 < 2 ^ 32 ∧ w.2.1 < 2 ^ 32 ∧ w.2.2.1 < 2 ^ 32 ∧ w.2.2.2 < 2 ^ 32) : BarrierStep s p w (s.spadWrite p (barBytes w)) := by
  have hl := barBytes_length w
  have e : s.spadWrite p (barBytes w) = s.setBlock p.t p.ctx { B.setSpad p.off (barBytes w) with
      spadPoison := kfilter (B.setSpad p.off (barBytes w)).spadPoison fun w' _ => !(decide (p.off ≤ 4 * w') && decide (4 * w' + 4 ≤ p.off + (barBytes w).length)) } := by
    unfold State.spadWrite
    rw [hB]
  refine ⟨B, _, hB, by rw [e, State.tile_setBlock_same]; exact kget_kset_same .., ?_, ?_, e, ?_⟩
  · have g : ∀ k x, k < 4 → x < 2 ^ 32 → ((barBytes w).drop (4 * k)).take 4 = natLe 4 x → leNat ((B.setSpad p.off (barBytes w)).spadBytes (p.off + 4 * k) 4) = x := by
      intro k x hk hx hd
      rw [Block.spadBytes_setSpad _ _ _ _ _ (by omega) (by omega), show p.off + 4 * k - p.off = 4 * k by omega, hd, leNat_natLe, Nat.mod_eq_of_lt (by simpa using hx)]
    obtain ⟨a, b, c, d⟩ := w
    obtain ⟨h1, h2, h3, h4⟩ := h
    show (leNat ((B.setSpad p.off _).spadBytes p.off 4), leNat ((B.setSpad p.off _).spadBytes (p.off + 4) 4), leNat ((B.setSpad p.off _).spadBytes (p.off + 8) 4), leNat ((B.setSpad p.off _).spadBytes (p.off + 12) 4)) = _
    rw [g 1 b (by decide) h2 (by rfl), g 2 c (by decide) h3 (by rfl), g 3 d (by decide) h4 (by rfl)]
    have := g 0 a (by decide) h1 (by rfl)
    rw [Nat.mul_zero, Nat.add_zero] at this
    rw [this]
  · intro x hx
    show (B.setSpad p.off _).spadByte x = _
    rw [Block.spadByte_setSpad, if_neg (by omega)]
  · have : ∀ (bs : List Byte) (B : Block) o, B.setSpad o bs = { B with spad := (B.setSpad o bs).spad } := by
      intro bs
      induction bs with
      | nil => intro B o; rfl
      | cons v vs ih =>
        intro B o
        rw [Block.setSpad, ih]
        unfold Block.setSpadByte
        cases B.spadFill <;> rfl
    rw [this]

end Sys2Proof.Machine
end

