-- ==== Sys2Proof/Laws/Tasks.lean ====
section
/-!
SUPPORT. What a launch, a spawn and an exit leave, and when two states have the same running sub-gang.
-/
set_option linter.unusedSimpArgs false
set_option linter.unusedVariables false
namespace Sys2Proof.Machine

/-- Two states with the same running sub-gang: what an instruction may have changed before it retires. -/
structure SameIssuer (s s' : State) (I : Issuer) : Prop where
  cur : s'.cur = s.cur
  subs : (s'.tile I.t).subs = (s.tile I.t).subs
  gangs : (s'.tile I.t).gangs = (s.tile I.t).gangs
  blocks : ∀ c, (kget (s.tile I.t).blocks c).isSome = true → (kget (s'.tile I.t).blocks c).isSome = true

theorem SameIssuer.refl (s : State) (I : Issuer) : SameIssuer s s I := ⟨rfl, rfl, rfl, fun _ h => h⟩

theorem SameIssuer.trans {a b c : State} {I : Issuer} (h : SameIssuer a b I) (k : SameIssuer b c I) : SameIssuer a c I :=
  ⟨k.cur.trans h.cur, k.subs.trans h.subs, k.gangs.trans h.gangs, fun x hx => k.blocks x (h.blocks x hx)⟩

theorem SameIssuer.of_tiles {s s' : State} (hc : s'.cur = s.cur) (h : s'.tiles = s.tiles) (I : Issuer) : SameIssuer s s' I := by
  have : s'.tile I.t = s.tile I.t := by unfold State.tile; rw [h]
  exact ⟨hc, by rw [this], by rw [this], by rw [this]; exact fun _ h => h⟩

theorem SameIssuer.mapBlock (s : State) (uid : Nat) (f : Block → Block) (I : Issuer) : SameIssuer s (s.mapBlock uid f) I := by
  obtain ⟨a, b, c, d⟩ := mapBlock_tile s uid I.t f
  exact ⟨c, a, b, d⟩

theorem SameIssuer.setTile (s : State) (t : Nat) (T : Tile) (I : Issuer) (h1 : T.subs = (s.tile t).subs) (h2 : T.gangs = (s.tile t).gangs)
    (h3 : ∀ c, (kget (s.tile t).blocks c).isSome = true → (kget T.blocks c).isSome = true) : SameIssuer s (s.setTile t T) I := by
  by_cases h : I.t = t
  · subst h
    have : (s.setTile I.t T).tile I.t = T := setTile_same ..
    exact ⟨rfl, by rw [this, h1], by rw [this, h2], by rw [this]; exact h3⟩
  · have : (s.setTile t T).tile I.t = s.tile I.t := by
      unfold State.setTile State.tile kgetD
      rw [kget_kset_ne _ _ h]
    exact ⟨rfl, by rw [this], by rw [this], by rw [this]; exact fun _ h => h⟩

theorem SameIssuer.fillTlb (s : State) (t : Nat) (e : TlbEntry) (I : Issuer) : SameIssuer s (s.fillTlb t e) I := by
  unfold State.fillTlb
  dsimp only
  split
  · exact .refl _ _
  · exact .setTile _ _ _ _ rfl rfl (fun _ h => h)

theorem SameIssuer.noteRead (s : State) (a b : Nat) (I : Issuer) : SameIssuer s (s.noteRead a b) I := by
  apply SameIssuer.of_tiles <;> (unfold State.noteRead State.observe; split <;> rfl)

theorem SameIssuer.retire {s s' : State} {I : Issuer} (h : s.issuer = some I) (k : SameIssuer s s' I) :
    (again s' fun s I => Machine.retire s I .other I.sub) = .next (s'.setSub I.t I.u (I.sub.retire .other)) :=
  again_retire h k.cur k.subs k.gangs k.blocks

theorem SameIssuer.readPieces {I : Issuer} {s1 : State} {bs : List Byte} : ∀ (k : Nat) (s : State) (va : Word) (n : Nat) (acc : List Byte),
    readPieces s I k va n acc = .ok s1 bs → SameIssuer s s1 I := by
  intro k
  induction k with
  | zero => intro s va n acc h; rw [Machine.readPieces] at h; cases h; exact .refl _ _
  | succ k ih =>
    intro s va n acc h
    rw [Machine.readPieces] at h
    split at h
    · cases h; exact .refl _ _
    · dsimp only at h
      split at h
      · cases h
      · next fa bs' hd =>
        split at h
        · exact ih _ _ _ _ h
        · split at h
          · cases h
          · split at h
            · exact (SameIssuer.noteRead _ _ _ _).trans (ih _ _ _ _ h)
            · cases h

theorem getLast_append {α : Type} (l : List α) (x : α) : (l ++ [x]).getLast? = some x := by simp

theorem find_kset {α : Type} (p : Nat × α → Bool) (m : KMap α) (k : Nat) (v w : α)
    (h : m.find? p = none ∨ m.find? p = some (k, w)) (hp : p (k, v) = true) : (kset m k v).find? p = some (k, v) := by
  induction m with
  | nil => simp [kset, hp]
  | cons x m ih =>
    obtain ⟨j, r⟩ := x
    rw [kset]
    split
    · simp [hp]
    · split
      · simp [hp]
      · next h1 h2 =>
        rw [List.find?_cons] at h ⊢
        cases hx : p (j, r) with
        | true =>
          rw [hx] at h
          rcases h with h | h
          · cases h
          · simp only [Option.some.injEq, Prod.mk.injEq] at h
            exact absurd h.1 h1
        | false =>
          rw [hx] at h
          exact ih h

theorem enqueue_last (s : State) (p : Nat) (P : Part) (r : Rec) (h : s.part p = some P) :
    (s.enqueue p r).lastRecord p r.vf r.r.region = some r ∧ (s.enqueue p r).tiles = s.tiles ∧ (s.enqueue p r).nextId = s.nextId ∧
      (s.enqueue p r).cur = s.cur := by
  unfold State.enqueue
  rw [h]
  dsimp only
  have hp : ∀ (P' : Part), (s.setPart p P').part p = some P' := fun P' => by
    unfold State.setPart State.part
    exact kget_kset_same ..
  cases hq : P.queueOf r.vf r.r.region with
  | some x =>
    obtain ⟨k, q⟩ := x
    refine ⟨?_, rfl, rfl, rfl⟩
    unfold State.lastRecord
    dsimp only
    rw [hp]
    dsimp only [Option.bind]
    have hm : (q.vf == r.vf && q.region == r.r.region) = true :=
      (@List.find?_some _ (fun x : Nat × Queue => x.2.vf == r.vf && x.2.region == r.r.region) (k, q) P.queues hq)
    have : ∀ q' : Queue, q'.vf = q.vf → q'.region = q.region → ({ P with queues := kset P.queues k q' } : Part).queueOf r.vf r.r.region = some (k, q') := by
      intro q' e1 e2
      exact find_kset _ _ _ _ q (.inr hq) (by show (q'.vf == r.vf && q'.region == r.r.region) = true; rw [e1, e2]; exact hm)
    rw [this _ (by split <;> rfl) (by split <;> rfl)]
    dsimp only
    split <;> exact getLast_append _ _
  | none =>
    refine ⟨?_, rfl, rfl, rfl⟩
    unfold State.lastRecord
    dsimp only
    rw [hp]
    dsimp only [Option.bind]
    have : ∀ k, ∀ q' : Queue, q'.vf = r.vf → q'.region = r.r.region → ({ P with queues := kset P.queues k q' } : Part).queueOf r.vf r.r.region = some (k, q') := by
      intro k q' e1 e2
      exact find_kset _ _ _ _ q' (.inl hq) (by show (q'.vf == r.vf && q'.region == r.r.region) = true; rw [e1, e2]; simp)
    rw [this _ _ rfl rfl]
    rfl

theorem issuer_tile {s : State} {I : Issuer} (h : s.issuer = some I) : I.tile = s.tile I.t := by
  obtain ⟨h1, _⟩ := issuer_sub h
  exact h1

def Tile.BinOnly (T T' : Tile) : Prop := T'.subs = T.subs ∧ T'.gangs = T.gangs ∧ T'.blocks = T.blocks

theorem openBin_only {T T' : Tile} {a b c d} (h : T.openBin a b c d = some T') : T.BinOnly T' := by
  unfold Tile.openBin at h
  split at h <;> cases h
  exact ⟨rfl, rfl, rfl⟩

theorem enterBin_only (T : Tile) (a b c d) : T.BinOnly (T.enterBin a b c d).1 := by
  unfold Tile.enterBin
  cases T.fillingBin c.entry c.uid c.detached with
  | some x =>
    obtain ⟨b', B⟩ := x
    dsimp only
    generalize (if c.park = true then (B.pos.length + 3) / 4 * 4 else B.pos.length) = start
    split
    · exact ⟨rfl, rfl, rfl⟩
    · split
      · next h => obtain ⟨a, b, c⟩ := openBin_only h; exact ⟨a, b, c⟩
      · exact ⟨rfl, rfl, rfl⟩
  | none =>
    dsimp only
    split
    · next h => exact openBin_only h
    · exact ⟨rfl, rfl, rfl⟩

theorem spawnOne_only {T T' : Tile} {a b c d} (h : spawnOne T a b c d = some T') : T.BinOnly T' := by
  unfold spawnOne at h
  dsimp only at h
  split at h
  · next he =>
    cases h
    have := enterBin_only { T with conts := kset T.conts c d } a b d [some c]
    rw [he] at this
    exact this
  · cases h

theorem spawnAll_same {s : State} {I : Issuer} {mk} {T' : Tile} (h : spawnAll s I mk = some T') : I.tile.BinOnly T' := by
  unfold spawnAll at h
  dsimp only at h
  split at h
  · cases h
  · generalize (I.sub.actives.zip (I.tile.slotList I.sub.actives.length)).zipIdx = l at h
    have : ∀ (T0 : Option Tile), (∀ T, T0 = some T → I.tile.BinOnly T) → ∀ T', (l.foldl (fun T ((j, slot), q) => T.bind fun T => spawnOne T (s.usec I.t + s.bint I.t) (s.stamp + q) slot (mk q j)) T0) = some T' → I.tile.BinOnly T' := by
      clear h
      induction l with
      | nil => intro T0 h0 T' h; exact h0 _ h
      | cons x l ih =>
        intro T0 h0 T' h
        refine ih _ ?_ T' h
        intro T hT
        cases T0 with
        | none => cases hT
        | some T1 =>
          obtain ⟨a, b, c⟩ := h0 T1 rfl
          obtain ⟨a', b', c'⟩ := spawnOne_only hT
          exact ⟨a'.trans a, b'.trans b, c'.trans c⟩
    exact this _ (fun T h => by cases h; exact ⟨rfl, rfl, rfl⟩) _ h

theorem Tile.BinOnly.refl (T : Tile) : T.BinOnly T := ⟨rfl, rfl, rfl⟩

theorem Tile.BinOnly.trans {A B C : Tile} (h : A.BinOnly B) (k : B.BinOnly C) : A.BinOnly C :=
  ⟨k.1.trans h.1, k.2.1.trans h.2.1, k.2.2.trans h.2.2⟩

theorem setTile_only (s : State) (t t' : Nat) (T : Tile) (h : (s.tile t).BinOnly T) : (s.tile t').BinOnly ((s.setTile t T).tile t') := by
  by_cases e : t' = t
  · subst e; rw [setTile_same]; exact h
  · have : (s.setTile t T).tile t' = s.tile t' := by unfold State.setTile State.tile kgetD; rw [kget_kset_ne _ _ e]
    rw [this]; exact .refl _

theorem enterRun_only (s : State) (t r t' : Nat) (c : Cont) : (s.tile t').BinOnly ((s.enterRun t r c).1.tile t') :=
  setTile_only s t t' _ (enterBin_only ..)

theorem moveRun_only (s : State) (t t1 r t' : Nat) (c : Cont) : (s.tile t').BinOnly ((s.moveRun t t1 r c).tile t') := by
  unfold State.moveRun
  extract_lets T T' cs conts s'
  split
  · have h1 : (s.tile t').BinOnly (s'.tile t') := by
      by_cases e : t' = t1
      · subst e; show (s.tile t').BinOnly ((State.setTile _ _ _).tile t'); rw [setTile_same]; exact ⟨rfl, rfl, rfl⟩
      · have : s'.tile t' = (s.setTile t { T with conts := kfilter T.conts fun _ x => x.run != r }).tile t' := by
          show (State.setTile _ _ _).tile t' = _
          unfold State.setTile State.tile kgetD
          rw [kget_kset_ne _ _ e]
        rw [this]
        exact setTile_only _ _ _ _ ⟨rfl, rfl, rfl⟩
    split
    · next s2 he =>
      have h2 : (s'.tile t').BinOnly (s2.tile t') := by
        have := enterRun_only s' t1 r t' c
        rw [he] at this
        exact this
      split
      · exact h1.trans h2
      · exact h1.trans h2
    · exact .refl _
  · exact .refl _

theorem admitRun_only (s : State) (t r t' : Nat) : (s.tile t').BinOnly ((s.admitRun t r).tile t') := by
  unfold State.admitRun
  split
  · exact .refl _
  · extract_lets s0 s1
    have h1 : (s.tile t').BinOnly (s1.tile t') := setTile_only s t t' _ ⟨rfl, rfl, rfl⟩
    split
    · exact h1
    · split
      · exact h1.trans (enterRun_only s1 t r t' _)
      · exact h1.trans (moveRun_only s1 t _ r t' _)

theorem admitReady_only (s : State) (t t' : Nat) : (s.tile t').BinOnly ((s.admitReady t).tile t') := by
  unfold State.admitReady
  generalize (s.tile t).readyRuns = l
  induction l generalizing s with
  | nil => exact ⟨rfl, rfl, rfl⟩
  | cons r l ih =>
    obtain ⟨a, b, c⟩ := ih (s.admitRun t r)
    obtain ⟨a', b', c'⟩ := admitRun_only s t r t'
    exact ⟨a.trans a', b.trans b', c.trans c'⟩

theorem issuer_at {s : State} {I : Issuer} (h : s.issuer = some I) : kget (s.tile I.t).subs I.u = some I.sub := by
  obtain ⟨h1, h2, _⟩ := issuer_sub h
  rw [← h1]; exact h2

theorem kget_kdel_self {α : Type} (m : KMap α) (k : Nat) : kget (kdel m k) k = none := by
  cases h : kget (kdel m k) k with
  | none => rfl
  | some v =>
    have := mem_of_kget h
    exact absurd rfl (mem_kdel.mp this).2

theorem kget_kfilter_self {α : Type} (m : KMap α) (p : Nat → α → Bool) (k : Nat) (h : kget m k = none) : kget (kfilter m p) k = none := by
  cases e : kget (kfilter m p) k with
  | none => rfl
  | some v =>
    have := (mem_kfilter (p := p)).mp (mem_of_kget e)
    have := kget_mem this.1
    rw [h] at this
    cases this

theorem leaveGang_gone {s : State} {I : Issuer} (h : s.issuer = some I) (hw : wholeGang I = true) :
    kget ((s.leaveGang I.t I.u).tile I.t).subs I.u = none ∧ kget ((s.leaveGang I.t I.u).tile I.t).gangs I.sub.gang = none := by
  have hs := issuer_at h
  have ht := issuer_tile h
  have hone : ((kdel (s.tile I.t).subs I.u).filter fun (_, U) => U.gang == I.sub.gang).isEmpty = true := by
    unfold wholeGang at hw
    rw [decide_eq_true_iff, ht] at hw
    rw [List.isEmpty_iff]
    have hin : (I.u, I.sub) ∈ (s.tile I.t).subsOf I.sub.gang := mem_kfilter.mpr ⟨mem_of_kget hs, by simp⟩
    apply List.eq_nil_iff_forall_not_mem.mpr
    intro x hx
    have hx := List.mem_filter.mp hx
    have hx1 := mem_kdel.mp hx.1
    have hx2 : x ∈ (s.tile I.t).subsOf I.sub.gang := mem_kfilter.mpr ⟨hx1.1, hx.2⟩
    cases hl : (s.tile I.t).subsOf I.sub.gang with
    | nil => rw [hl] at hin; cases hin
    | cons y ys =>
      rw [hl] at hw hin hx2
      have : ys = [] := by cases ys with | nil => rfl | cons _ _ => simp at hw
      subst this
      have e1 : (I.u, I.sub) = y := by simpa using hin
      have e2 : x = y := by simpa using hx2
      exact hx1.2 (by rw [e2, ← e1])
  have base : ∀ (T : Tile) (bl : KMap Block), kget T.subs I.u = none → kget ((T.dropGang I.sub.gang).subs) I.u = none ∧ kget ((T.dropGang I.sub.gang).gangs) I.sub.gang = none := by
    intro T bl hT
    exact ⟨kget_kfilter_self T.subs (fun _ U => U.gang != I.sub.gang) _ hT, kget_kdel_self T.gangs _⟩
  have hd : kget (kdel (s.tile I.t).subs I.u) I.u = none := kget_kdel_self _ _
  have adm : ∀ (s : State) (T : Tile), kget T.subs I.u = none ∧ kget T.gangs I.sub.gang = none → kget (((s.setTile I.t T).admitReady I.t).tile I.t).subs I.u = none ∧ kget (((s.setTile I.t T).admitReady I.t).tile I.t).gangs I.sub.gang = none := by
    intro s T hT
    obtain ⟨a, b, _⟩ := admitReady_only (s.setTile I.t T) I.t I.t
    rw [a, b, setTile_same]
    exact hT
  unfold State.leaveGang
  dsimp only
  rw [hs]
  dsimp only
  split
  case isFalse hn => exact absurd hone hn
  split
  · split
    · rw [setTile_same]
      exact base { s.tile I.t with subs := kdel (s.tile I.t).subs I.u } [] hd
    · exact adm _ _ (base { s.tile I.t with subs := kdel (s.tile I.t).subs I.u } [] hd)
  · exact adm _ _ (base { s.tile I.t with subs := kdel (s.tile I.t).subs I.u } [] hd)

end Sys2Proof.Machine
end

