-- ==== Sys2Proof/Laws/Engines.lean ====
section
/-!
SUPPORT. What an engine command leaves when it is accepted.
-/
set_option linter.unusedSimpArgs false
set_option linter.unusedVariables false
namespace Sys2Proof.Machine

theorem exec_engine {i : Instr} {tc n top plan} (h : enginePlan i = some (tc, n, top, plan)) (s : State) :
    exec i s = engineCmd s i tc n top plan := by
  unfold enginePlan at h
  split at h <;> first | (simp only [Option.some.injEq, Prod.mk.injEq] at h; obtain ⟨rfl, rfl, rfl, rfl⟩ := h; rfl) | cases h

theorem enginePlan_single {i : Instr} {tc n top plan} (h : enginePlan i = some (tc, n, top, plan)) (hn : n = none) : top = 0 := by
  unfold enginePlan at h
  split at h <;> first | (simp only [Option.some.injEq, Prod.mk.injEq] at h; obtain ⟨rfl, rfl, rfl, rfl⟩ := h; first | rfl | cases hn) | cases h

theorem seq_sub (a b : W32) : (a - b).toNat = (a.toNat + 2 ^ 32 - b.toNat) % 2 ^ 32 := by
  rw [BitVec.toNat_sub]; have := b.isLt; congr 1; omega

theorem bestCause_cons (c : Cause) (cs : List Cause) : ∃ x, bestCause (c :: cs) = some x := by
  unfold bestCause
  rw [List.foldl_cons]
  dsimp only
  induction cs generalizing c with
  | nil => exact ⟨c, rfl⟩
  | cons d cs ih =>
    rw [List.foldl_cons]
    dsimp only
    split
    · exact ih d
    · exact ih c

theorem SameIssuer.accept {s : State} {I : Issuer} (h : s.issuer = some I) (i tc par p) : SameIssuer s (accept s I i tc par p) I := by
  have hs := issuer_tile h
  unfold Machine.accept
  dsimp only
  refine SameIssuer.trans (b := s.setTile I.t _) (.setTile s I.t (Tile.setBlock _ I.gang.ctx _) I ?_ ?_ ?_) ⟨rfl, rfl, rfl, fun _ h => h⟩
  · show I.tile.subs = _; rw [hs]
  · show I.tile.gangs = _; rw [hs]
  · intro c hc
    show (kget (kset I.tile.blocks _ _) c).isSome = true
    rw [hs]
    exact kset_some _ _ _ _ hc

end Sys2Proof.Machine
end

