-- ==== Sys2Proof/Laws/Events.lean ====
section
/-!
SUPPORT. Fields of a word, and what the events of the package leave of tables, windows, tiles and memory.
-/
set_option linter.unusedSimpArgs false
set_option linter.unusedVariables false
namespace Sys2Proof.Machine

theorem bits_testBit (x hi lo i : Nat) : (bits x hi lo).testBit i = (decide (i < hi + 1 - lo) && x.testBit (lo + i)) := by
  unfold bits
  rw [Nat.testBit_mod_two_pow, Nat.testBit_div_two_pow, Nat.add_comm i lo]

theorem setField_testBit (x : Word) (lo w v i : Nat) (h : lo + w ≤ 64) : (setField x lo w v).toNat.testBit i =
    if lo ≤ i ∧ i < lo + w then v.testBit (i - lo) else x.toNat.testBit i := by
  rw [BitVec.testBit_toNat, BitVec.testBit_toNat]
  unfold setField
  simp only [BitVec.getLsbD_or, BitVec.getLsbD_and, BitVec.getLsbD_not, BitVec.getLsbD_ofNat, Nat.testBit_mul_two_pow, Nat.testBit_two_pow_sub_one, Nat.testBit_mod_two_pow]
  by_cases h1 : lo ≤ i ∧ i < lo + w
  · rw [if_pos h1]
    have : i < 64 := by omega
    have h3 : i - lo < w := by omega
    simp [this, h1.1, h3]
  · rw [if_neg h1]
    by_cases h2 : i < 64
    · by_cases h3 : lo ≤ i
      · have : ¬ i - lo < w := by omega
        simp [h2, this]
      · simp [h2, h3]
    · simp [h2]
      exact BitVec.getLsbD_of_ge _ _ (by omega)

theorem bits_setField_same (x : Word) (lo w v : Nat) (h : lo + w ≤ 64) (hp : 0 < w) : bits (setField x lo w v).toNat (lo + w - 1) lo = v % 2 ^ w := by
  apply Nat.eq_of_testBit_eq
  intro i
  rw [bits_testBit, setField_testBit _ _ _ _ _ h, Nat.testBit_mod_two_pow]
  by_cases hw : i < w
  · rw [if_pos (by omega), show lo + i - lo = i by omega]
    congr 1
    simp; omega
  · have : ¬ i < lo + w - 1 + 1 - lo := by omega
    simp [hw, this]

theorem bits_setField_other (x : Word) (lo w v hi' lo' : Nat) (h : lo + w ≤ 64) (hd : hi' < lo ∨ lo + w ≤ lo') : bits (setField x lo w v).toNat hi' lo' = bits x.toNat hi' lo' := by
  apply Nat.eq_of_testBit_eq
  intro i
  rw [bits_testBit, bits_testBit, setField_testBit _ _ _ _ _ h]
  by_cases hi : i < hi' + 1 - lo'
  · rw [if_neg (by omega)]
  · simp [hi]

theorem kget_zipIdx {α β : Type} (f : α → β) (l : List α) (k m : Nat) : kget ((l.zipIdx m).map fun (e, q) => (q, f e)) (m + k) = (l[k]?).map f := by
  induction l generalizing m k with
  | nil => rfl
  | cons a l ih =>
    rw [List.zipIdx_cons, List.map_cons]
    cases k with
    | zero => simp [kget]
    | succ k =>
      show kget ((m, f a) :: _) _ = _
      have : kget ((m, f a) :: ((l.zipIdx (m + 1)).map fun (e, q) => (q, f e))) (m + (k + 1)) = kget ((l.zipIdx (m + 1)).map fun (e, q) => (q, f e)) (m + (k + 1)) := if_neg (by omega)
      rw [this, show m + (k + 1) = m + 1 + k by omega, ih]
      rfl

theorem kget_range {β : Type} (x : β) (n k : Nat) (h : k < n) : kget ((List.range n).map fun d => (d, x)) k = some x := by
  have : ∀ n m, kget ((List.range' m n).map fun d => (d, x)) k = if m ≤ k ∧ k < m + n then some x else none := by
    intro n
    induction n with
    | zero => intro m; rw [if_neg (by omega)]; rfl
    | succ n ih =>
      intro m
      rw [List.range'_succ, List.map_cons]
      by_cases e : m = k
      · subst e; rw [if_pos (by omega)]; simp [kget]
      · have : kget ((m, x) :: ((List.range' (m + 1) n).map fun d => (d, x))) k = kget ((List.range' (m + 1) n).map fun d => (d, x)) k := if_neg e
        rw [this, ih]
        by_cases h : m + 1 ≤ k ∧ k < m + 1 + n
        · rw [if_pos h, if_pos (by omega)]
        · rw [if_neg h, if_neg (by omega)]
  rw [List.range_eq_range', this, if_pos (by omega)]

def thStep (temps : List (BitVec 16)) (above : CoreCurrent) (s : State) (d : Nat) : State :=
  let D := s.die d
  match temps[d]? with
  | some t => s.setDie d { D with thstat := throttle D.thstat t.toNat above }
  | none => s

theorem thStep_other (temps : List (BitVec 16)) (above : CoreCurrent) (d : Nat) : ∀ (l : List Nat) (s : State), d ∉ l → (l.foldl (thStep temps above) s).die d = s.die d := by
  intro l
  induction l with
  | nil => intro s _; rfl
  | cons a l ih =>
    intro s h
    rw [List.foldl_cons, ih _ (fun e => h (List.mem_cons_of_mem _ e))]
    unfold thStep
    split
    · exact State.die_setDie_ne _ _ _ _ (fun e => h (by rw [e]; exact List.mem_cons_self ..))
    · rfl

theorem thStep_die (temps : List (BitVec 16)) (above : CoreCurrent) (s : State) (d : Nat) (x : BitVec 16) (hd : d < 4) (hx : temps[d]? = some x) :
    (((List.range 4).foldl (thStep temps above) s).die d).thstat = throttle (s.die d).thstat x.toNat above := by
  have hs : ∃ l1 l2, List.range 4 = l1 ++ d :: l2 ∧ d ∉ l1 ∧ d ∉ l2 := by
    match d, hd with
    | 0, _ => exact ⟨[], [1, 2, 3], rfl, by decide, by decide⟩
    | 1, _ => exact ⟨[0], [2, 3], rfl, by decide, by decide⟩
    | 2, _ => exact ⟨[0, 1], [3], rfl, by decide, by decide⟩
    | 3, _ => exact ⟨[0, 1, 2], [], rfl, by decide, by decide⟩
  obtain ⟨l1, l2, h1, h2, h3⟩ := hs
  have step : ∀ s0 : State, thStep temps above s0 d = s0.setDie d { s0.die d with thstat := throttle (s0.die d).thstat x.toNat above } := by
    intro s0
    unfold thStep
    rw [hx]
  rw [h1, List.foldl_append, List.foldl_cons, thStep_other _ _ _ _ _ h3]
  rw [step, State.die_setDie_same, thStep_other _ _ _ _ _ h2]

theorem bits_or_1024 (x : Word) (hi lo : Nat) (h : hi < 10 ∨ 10 < lo) : bits (x ||| 0x400#64).toNat hi lo = bits x.toNat hi lo := by
  apply Nat.eq_of_testBit_eq
  intro i
  rw [bits_testBit, bits_testBit, BitVec.toNat_or, Nat.testBit_or]
  by_cases hi2 : i < hi + 1 - lo
  · have : (0x400#64).toNat.testBit (lo + i) = false := by
      show (2 ^ 10).testBit (lo + i) = false
      rw [Nat.testBit_two_pow]; simp; omega
    rw [this, Bool.or_false]
  · simp [hi2]

theorem retrain_state (P : Port) : P.retrain.state = 1 := by
  unfold Port.retrain Port.state
  dsimp only
  have key : ∀ (x : Word) (n lo w : Nat), 2 ≤ lo → bits (satInc x lo w n).toNat 1 0 = bits x.toNat 1 0 := by
    intro x n lo w h
    unfold satInc
    dsimp only
    generalize (min (bits x.toNat (lo + w - 1) lo + n) (2 ^ w - 1) - bits x.toNat (lo + w - 1) lo : Nat) = k
    unfold bits
    rw [BitVec.toNat_add, BitVec.toNat_ofNat]
    obtain ⟨m, rfl⟩ : ∃ m, lo = m + 2 := ⟨lo - 2, by omega⟩
    have : k * 2 ^ (m + 2) = 4 * (k * 2 ^ m) := by rw [Nat.pow_add, ← Nat.mul_assoc, Nat.mul_comm 4]
    rw [this]
    generalize k * 2 ^ m = q
    omega
  rw [key _ _ _ _ (by omega), bits_setField_same _ 0 2 _ (by omega) (by omega)]
  all_goals rfl

theorem barred_eq (s : State) (w : Bool) (pa : Nat) : s.barredAt w pa = (security s w pa).map fun c => if c = 1 then 2 else 3 := by
  unfold State.barredAt security
  have hg : granuleOf pa = pa / 2 ^ 26 := rfl
  have h1 : (s.closed.any (fun m => m.granule == granuleOf pa) || (!w && s.fwtab.contains (granuleOf pa))) = true ↔ (∃ m ∈ s.closed, m.granule = pa / 2 ^ 26) ∨ (w = false ∧ pa / 2 ^ 26 ∈ s.fwtab) := by
    rw [hg]; simp
  by_cases hd : isDram pa = true
  · rw [if_pos hd]
    by_cases hc : (∃ m ∈ s.closed, m.granule = pa / 2 ^ 26) ∨ (w = false ∧ pa / 2 ^ 26 ∈ s.fwtab)
    · rw [if_pos ⟨hd, hc⟩, if_pos (h1.mpr hc)]; rfl
    · rw [if_neg (fun e => hc e.2), if_neg (fun e => hc (h1.mp e))]
      cases s.inSheafStore pa <;> cases s.inStrandPool pa <;> simp [hd]
  · rw [if_neg hd, if_neg (fun e => hd e.1), if_neg (fun e => hd e.1)]; rfl

theorem mapWindows_are (V : Vf) (f : Window → Window) : V.windowsAre (V.mapWindows f) f := by
  intro w hw
  unfold Vf.mapWindows Vf.window
  dsimp only
  have : ∀ n m, kget ((List.range' m n).map fun w => (w, f (kgetD V.windows w Window.reset))) w = if m ≤ w ∧ w < m + n then some (f (kgetD V.windows w Window.reset)) else none := by
    intro n
    induction n with
    | zero => intro m; rw [if_neg (by omega)]; rfl
    | succ n ih =>
      intro m
      rw [List.range'_succ, List.map_cons]
      by_cases e : m = w
      · subst e; rw [if_pos (by omega)]; simp [kget]
      · refine (if_neg e).trans ((ih (m + 1)).trans ?_)
        by_cases h : m + 1 ≤ w ∧ w < m + 1 + n
        · rw [if_pos h, if_pos (by omega)]
        · rw [if_neg h, if_neg (by omega)]
  show (kget _ w).getD _ = _
  rw [List.range_eq_range', this, if_pos (by omega)]
  rfl

theorem scrubs {t : Nat} : ∀ (l : List Nat) (s : State), (t ∈ l ∨ (s.tile t).scrub = true) → ((l.foldl (fun s t => s.setTile t (s.tile t).beginScrub) s).tile t).scrub = true := by
  intro l
  induction l with
  | nil => intro s h; exact h.elim (fun h => by cases h) id
  | cons a l ih =>
    intro s h
    rw [List.foldl_cons]
    apply ih
    by_cases e : t = a
    · subst e; right; rw [State.tile_setTile_same]; rfl
    · rcases h with h | h
      · rcases List.mem_cons.mp h with h | h
        · exact absurd h e
        · exact .inl h
      · right; rw [State.tile_setTile_ne _ _ _ _ e]; exact h

theorem endFunction_scrub (s : State) (v t : Nat) (h : t ∈ s.tilesOf v) : ((s.endFunction v).tile t).scrub = true := by
  show ((((s.tilesOf v).foldl (fun s t => s.setTile t (s.tile t).beginScrub) ((s.tilesOf v).foldl (fun s t => s.l1Clear t) s))).tile t).scrub = true
  exact scrubs _ _ (.inl h)

theorem endFunction_grids (s : State) (v g : Nat) (G : Grid) (h : kget (s.endFunction v).grids g = some G) : G.rcd.vf ≠ v := by
  have h : kget (kfilter _ fun _ G => G.rcd.vf != v) g = some G := h
  have := List.mem_filter.mp (mem_of_kget h)
  simpa using this.2

theorem find_filter_key (m : List Host.Cell) (p : Nat → Bool) (k : Nat) : cellGet (m.filter fun c => p c.1) k = if p k then cellGet m k else memFill := by
  unfold cellGet kgetD
  have : kget (m.filter fun c => p c.1) k = if p k then kget m k else none := by
    induction m with
    | nil => split <;> rfl
    | cons x m ih =>
      obtain ⟨j, v⟩ := x
      rw [List.filter_cons]
      by_cases e : j = k
      · subst e
        by_cases hp : p j = true
        · rw [if_pos hp, if_pos hp]; exact (if_pos rfl).trans (if_pos rfl).symm
        · rw [if_neg hp, ih, if_neg hp, if_neg hp]
      · have e2 : kget ((j, v) :: m) k = kget m k := if_neg e
        rw [e2]
        by_cases hp : p j = true
        · rw [if_pos hp]; exact (if_neg e).trans ih
        · rw [if_neg hp]; exact ih
  rw [this]
  split <;> rfl

theorem mem_insNat (n a : Nat) (l : List Nat) : a ∈ insNat n l ↔ a = n ∨ a ∈ l := by
  induction l with
  | nil => simp [insNat]
  | cons m l ih =>
    unfold insNat
    split
    · simp
    · simp [ih, or_left_comm]

theorem dropTlbs_dropped (s : State) (f : TlbEntry → Bool) (P : TlbEntry → Prop) (h : ∀ e, f e = true ↔ P e) : s.dropped (s.dropTlbs f) P := by
  refine ⟨fun k e => ?_, fun d e => ?_, rfl, rfl, rfl⟩
  · have : (s.dropTlbs f).tile k = match kget s.tiles k with | some T => { T with tlb := T.tlb.filter fun e => !f e } | none => Tile.reset := by
      unfold State.dropTlbs State.tile kgetD
      dsimp only
      rw [kget_kmap]
      cases kget s.tiles k <;> rfl
    rw [this]
    unfold State.tile kgetD
    cases kget s.tiles k with
    | none => show e ∈ [] ↔ e ∈ [] ∧ _; simp
    | some T => show e ∈ T.tlb.filter _ ↔ e ∈ T.tlb ∧ _; rw [List.mem_filter, ← h]; simp
  · have : (s.dropTlbs f).die d = match kget s.dies d with | some D => { D with dtu := D.dtu.filter fun e => !f e } | none => Die.reset := by
      unfold State.dropTlbs State.die kgetD
      dsimp only
      rw [kget_kmap]
      cases kget s.dies d <;> rfl
    rw [this]
    unfold State.die kgetD
    cases kget s.dies d with
    | none => show e ∈ [] ↔ e ∈ [] ∧ _; simp
    | some T => show e ∈ T.dtu.filter _ ↔ e ∈ T.dtu ∧ _; rw [List.mem_filter, ← h]; simp

theorem tlbRange_eq (x : Word) : tlbRange x = rangeOf x := by
  unfold tlbRange rangeOf bits
  have := x.isLt
  have h1 : x.toNat / 2 ^ 16 % 2 ^ (63 + 1 - 16) = x.toNat / 2 ^ 16 := Nat.mod_eq_of_lt (by omega)
  rw [h1]
  all_goals rfl

theorem misaligned_iff (x : Word) : tlbMisaligned x = true ↔ x.getLsbD 0 = false ∧ (rangeOf x).1 % (rangeOf x).2 ≠ 0 := by
  unfold tlbMisaligned
  rw [tlbRange_eq]
  simp

end Sys2Proof.Machine
end

