-- ==== Sys2Proof/Laws/KeepStrand.lean ====
section
/-! SUPPORT. Strands, system instructions and channels keep the canonical form of memory. -/
set_option linter.unusedSimpArgs false
set_option linter.unusedVariables false
namespace Sys2Proof.Machine

theorem readPieces_mem {s : State} {I : Issuer} {k : Nat} {va : Word} {n : Nat} {acc : List Byte} {s' : State} {bs : List Byte}
    (h : readPieces s I k va n acc = .ok s' bs) : s'.mem = s.mem := by
  induction k generalizing s va n acc with
  | zero => cases h; rfl
  | succ k ih =>
    unfold readPieces at h
    split at h
    · cases h; rfl
    · dsimp only at h
      split at h
      · cases h
      · split at h
        · exact ih h
        · split at h
          · cases h
          · split at h
            · simpa using ih h
            · cases h

theorem readSource_mem {s : State} {I : Issuer} {va : Word} {n : Nat} {s' : State} {bs : List Byte}
    (h : readSource s I va n = .ok s' bs) : s'.mem = s.mem := readPieces_mem h

@[simp] theorem strandSend_wf (s : State) (I : Issuer) (seq : Nat) (i : Instr) (a : W32) (args : List Word) (bytes : List Byte)
    (as : List Access) (hw : cellsWf s.mem = true) :
    cellsWf (strandSend s I seq i a args bytes as).1.mem = true := by
  unfold strandSend; (try dsimp only); (repeat' split) <;> ((try have q0 := wf_of_pair ‹State.strandRequest _ _ _ _ = (_, _)› (State.strandRequest_wf _ _ _ _ (by first | assumption | (simp [*]; done)))); first | assumption | (simp [hw]; done) | (simp [*, foldl_wfS, foldl_wfP, foldl_memS, foldl_memP]; done) | ((first | refine foldl_wfS ?_ (fun b a hb => ?_) | refine foldl_wfP ?_ (fun b a hb => ?_)) <;> (try dsimp only) <;> (repeat' split) <;> ((try have q0 := wf_of_pair ‹State.strandRequest _ _ _ _ = (_, _)› (State.strandRequest_wf _ _ _ _ (by first | assumption | (simp [*]; done)))); first | (simp [*]; done) | (simp [*, foldl_wfS, foldl_wfP, foldl_memS, foldl_memP]; done) | ((repeat' (first | assumption | (with_reducible refine foldl_wfS ?_ (fun b a hb => ?_)) | (with_reducible refine foldl_wfP ?_ (fun b a hb => ?_)) | (with_reducible apply State.strandRequest_wf) | (simp [*]; done) | ((try have q0 := wf_of_pair ‹State.strandRequest _ _ _ _ = (_, _)› (State.strandRequest_wf _ _ _ _ (by first | assumption | (simp [*]; done)))); simp [*]; done) | split)); done))) | ((repeat' (first | assumption | (with_reducible refine foldl_wfS ?_ (fun b a hb => ?_)) | (with_reducible refine foldl_wfP ?_ (fun b a hb => ?_)) | (with_reducible apply State.strandRequest_wf) | (simp [*]; done) | ((try have q0 := wf_of_pair ‹State.strandRequest _ _ _ _ = (_, _)› (State.strandRequest_wf _ _ _ _ (by first | assumption | (simp [*]; done)))); simp [*]; done) | split)); done))

theorem finishIssue_wf {s : State} {I : Issuer} {W : Win} {i : Instr} {seq : Nat} {a : W32} {args : List Word} {as : List Access} (hw : cellsWf s.mem = true) {ρ} (he : finishIssue s I W i seq a args as = .next ρ) :
    cellsWf ρ.mem = true := by
  unfold finishIssue at he; (repeat' split at he) <;> first | (cases he; simp [hw])

theorem issueStrand_wf {s : State} {I : Issuer} {W : Win} {i : Instr} {a : W32} {args : List Word} {bytes : List Byte}
    {as : List Access} (hw : cellsWf s.mem = true) {ρ} (he : issueStrand s I W i a args bytes as = .next ρ) :
    cellsWf ρ.mem = true := by
  unfold issueStrand at he; (try dsimp only at he); (repeat' split at he) <;> ((try have q0 := wf_of_pair ‹strandSend _ _ _ _ _ _ _ _ = (_, _)› (strandSend_wf _ _ _ _ _ _ _ _ (by first | assumption | (simp [*]; done)))); first | with_reducible exact finishIssue_wf (by first | assumption | (simp [*]; done)) he | (cases he; done) | (cases he; first | assumption | (simp [hw]; done) | (simp [*, foldl_wfS, foldl_wfP, foldl_memS, foldl_memP]; done) | ((repeat' (first | assumption | (with_reducible refine foldl_wfS ?_ (fun b a hb => ?_)) | (with_reducible refine foldl_wfP ?_ (fun b a hb => ?_)) | (with_reducible apply State.finishIssue_wf) | (with_reducible apply strandSend_wf) | (simp [*]; done) | ((try have q0 := wf_of_pair ‹strandSend _ _ _ _ _ _ _ _ = (_, _)› (strandSend_wf _ _ _ _ _ _ _ _ (by first | assumption | (simp [*]; done)))); simp [*]; done) | split)); done)))

theorem structural_wf {s : State} {i : Instr} {us : List Use} {f : Win → Sub → W32 × List Word} (hw : cellsWf s.mem = true) {ρ} (he : structural s i us f = .next ρ) :
    cellsWf ρ.mem = true := by
  unfold structural at he; refine withOperands_wf hw ?_ he; clear he; intro s I W n ρ hw he; (repeat' split at he) <;> first | with_reducible exact issueStrand_wf hw he | with_reducible exact wait_wf hw he | (with_reducible refine becomeNonRetry_wf hw ?_ he; clear he; intro s I ρ hw he; (repeat' split at he) <;> first | with_reducible exact issueStrand_wf hw he | with_reducible exact wait_wf hw he | (cases he; exact hw)) | (cases he; exact hw)

theorem execSnew_wf {a b : Opnd} {n : BitVec 5} {s : State} (hw : cellsWf s.mem = true) {ρ} (he : execSnew a b n s = .next ρ) :
    cellsWf ρ.mem = true := by
  unfold execSnew at he; exact structural_wf hw he

theorem execSfree_wf {a : Opnd} {s : State} (hw : cellsWf s.mem = true) {ρ} (he : execSfree a s = .next ρ) :
    cellsWf ρ.mem = true := by
  unfold execSfree at he; exact structural_wf hw he

theorem execSlen_wf {a : Opnd} {n : BitVec 5} {s : State} (hw : cellsWf s.mem = true) {ρ} (he : execSlen a n s = .next ρ) :
    cellsWf ρ.mem = true := by
  unfold execSlen at he; exact structural_wf hw he

theorem execSdel_wf {a b : Opnd} {n : BitVec 5} {s : State} (hw : cellsWf s.mem = true) {ρ} (he : execSdel a b n s = .next ρ) :
    cellsWf ρ.mem = true := by
  unfold execSdel at he; exact structural_wf hw he

theorem execSsplit_wf {a b : Opnd} {n : BitVec 5} {s : State} (hw : cellsWf s.mem = true) {ρ} (he : execSsplit a b n s = .next ρ) :
    cellsWf ρ.mem = true := by
  unfold execSsplit at he; exact structural_wf hw he

theorem execScat_wf {a b : Opnd} {share : Bool} {s : State} (hw : cellsWf s.mem = true) {ρ} (he : execScat a b share s = .next ρ) :
    cellsWf ρ.mem = true := by
  unfold execScat at he; exact structural_wf hw he

theorem execSgap_wf {a b : Opnd} {n : BitVec 5} {s : State} (hw : cellsWf s.mem = true) {ρ} (he : execSgap a b n s = .next ρ) :
    cellsWf ρ.mem = true := by
  unfold execSgap at he; exact structural_wf hw he

theorem execSclose_wf {a : Opnd} {s : State} (hw : cellsWf s.mem = true) {ρ} (he : execSclose a s = .next ρ) :
    cellsWf ρ.mem = true := by
  unfold execSclose at he; exact structural_wf hw he

theorem execSanchUniform_wf {a b : Opnd} {n : BitVec 5} {s : State} (hw : cellsWf s.mem = true) {ρ} (he : execSanchUniform a b n s = .next ρ) :
    cellsWf ρ.mem = true := by
  unfold execSanchUniform at he; exact structural_wf hw he

theorem execSrankUniform_wf {a : Opnd} {pm : BitVec 3} {n : BitVec 5} {s : State} (hw : cellsWf s.mem = true) {ρ} (he : execSrankUniform a pm n s = .next ρ) :
    cellsWf ρ.mem = true := by
  unfold execSrankUniform at he; exact structural_wf hw he

theorem execSins_wf {a b : Opnd} {z : Bool} {n : BitVec 5} {s : State} (hw : cellsWf s.mem = true) {ρ} (he : execSins a b z n s = .next ρ) :
    cellsWf ρ.mem = true := by
  unfold execSins at he; repeat' first | split at he | ((try have qs4 := readSource_mem ‹readSource _ _ _ _ = SrcAns.ok _ _›); with_reducible refine becomeNonRetry_wf (by first | assumption | (simp [*]; done)) ?_ he; clear he; intro s I ρ hw he) | ((try have qs4 := readSource_mem ‹readSource _ _ _ _ = SrcAns.ok _ _›); with_reducible refine withOperands_wf (by first | assumption | (simp [*]; done)) ?_ he; clear he; intro s I W n ρ hw he) | dsimp only at he
  all_goals (try have qs4 := readSource_mem ‹readSource _ _ _ _ = SrcAns.ok _ _›); first | with_reducible exact issueStrand_wf (by first | assumption | (simp [*]; done)) he | with_reducible exact trapAt_wf (by first | assumption | (simp [*]; done)) he | with_reducible exact wait_wf (by first | assumption | (simp [*]; done)) he | (cases he; done) | (cases he; first | assumption | (simp [hw]; done) | (simp [*, foldl_wfS, foldl_wfP, foldl_memS, foldl_memP]; done) | ((repeat' (first | assumption | (with_reducible refine foldl_wfS ?_ (fun b a hb => ?_)) | (with_reducible refine foldl_wfP ?_ (fun b a hb => ?_)) | (simp [*]; done) | ((try have qs4 := readSource_mem ‹readSource _ _ _ _ = SrcAns.ok _ _›); simp [*]; done) | split)); done))

theorem execSapnd_wf {a : Opnd} {n : BitVec 5} {s : State} (hw : cellsWf s.mem = true) {ρ} (he : execSapnd a n s = .next ρ) :
    cellsWf ρ.mem = true := by
  unfold execSapnd at he; repeat' first | split at he | ((try have qs4 := readSource_mem ‹readSource _ _ _ _ = SrcAns.ok _ _›); with_reducible refine again_wf (by first | assumption | (simp [*]; done)) ?_ he; clear he; intro s I ρ hw he) | ((try have qs4 := readSource_mem ‹readSource _ _ _ _ = SrcAns.ok _ _›); with_reducible refine becomeNonRetry_wf (by first | assumption | (simp [*]; done)) ?_ he; clear he; intro s I ρ hw he) | ((try have qs4 := readSource_mem ‹readSource _ _ _ _ = SrcAns.ok _ _›); with_reducible refine withOperands_wf (by first | assumption | (simp [*]; done)) ?_ he; clear he; intro s I W n ρ hw he) | dsimp only at he
  all_goals (try have qs4 := readSource_mem ‹readSource _ _ _ _ = SrcAns.ok _ _›); first | with_reducible exact issueStrand_wf (by first | assumption | (simp [*]; done)) he | with_reducible exact retire_wf (by first | assumption | (simp [*]; done)) he | with_reducible exact trapAt_wf (by first | assumption | (simp [*]; done)) he | with_reducible exact wait_wf (by first | assumption | (simp [*]; done)) he | (cases he; done) | (cases he; first | assumption | (simp [hw]; done) | (simp [*, foldl_wfS, foldl_wfP, foldl_memS, foldl_memP]; done) | ((repeat' (first | assumption | (with_reducible refine foldl_wfS ?_ (fun b a hb => ?_)) | (with_reducible refine foldl_wfP ?_ (fun b a hb => ?_)) | (with_reducible apply State.held_wf) | (simp [*]; done) | ((try have qs4 := readSource_mem ‹readSource _ _ _ _ = SrcAns.ok _ _›); simp [*]; done) | split)); done))

theorem element_wf {s : State} {i : Instr} {k : ElemKind} {us : List Use} {sn : Nat}
    {f : Win → Sub → List (Option Nat × Word × BitVec 128)} (hw : cellsWf s.mem = true) {ρ} (he : element s i k us sn f = .next ρ) :
    cellsWf ρ.mem = true := by
  unfold element at he; repeat' first | split at he | (with_reducible refine again_wf (by first | assumption | (simp [*]; done)) ?_ he; clear he; intro s I ρ hw he) | (with_reducible refine becomeNonRetry_wf (by first | assumption | (simp [*]; done)) ?_ he; clear he; intro s I ρ hw he) | (with_reducible refine withOperands_wf (by first | assumption | (simp [*]; done)) ?_ he; clear he; intro s I W n ρ hw he) | dsimp only at he
  all_goals first | with_reducible exact issueStrand_wf (by first | assumption | (simp [*]; done)) he | with_reducible exact retire_wf (by first | assumption | (simp [*]; done)) he | with_reducible exact wait_wf (by first | assumption | (simp [*]; done)) he | (cases he; done) | (cases he; first | assumption | (simp [hw]; done) | (simp [*, foldl_wfS, foldl_wfP, foldl_memS, foldl_memP]; done) | ((repeat' (first | assumption | (with_reducible refine foldl_wfS ?_ (fun b a hb => ?_)) | (with_reducible refine foldl_wfP ?_ (fun b a hb => ?_)) | (with_reducible apply State.held_wf) | (simp [*]; done) | (simp [*]; done) | split)); done))

theorem execSldLane_wf {d : LDst} {addr : BitVec 6} {ty : Ty} {pm sn : BitVec 3} {s : State} (hw : cellsWf s.mem = true) {ρ} (he : execSldLane d addr ty pm sn s = .next ρ) :
    cellsWf ρ.mem = true := by
  unfold execSldLane at he; exact element_wf hw he

theorem execSstLane_wf {data : Opnd} {addr : BitVec 6} {ty : Ty} {sn : BitVec 3} {s : State} (hw : cellsWf s.mem = true) {ρ} (he : execSstLane data addr ty sn s = .next ρ) :
    cellsWf ρ.mem = true := by
  unfold execSstLane at he; exact element_wf hw he

theorem execSldUniform_wf {d : UDst} {addr : BitVec 5} {ty : Ty} {pm sn : BitVec 3} {s : State} (hw : cellsWf s.mem = true) {ρ} (he : execSldUniform d addr ty pm sn s = .next ρ) :
    cellsWf ρ.mem = true := by
  unfold execSldUniform at he; exact element_wf hw he

theorem execSstUniform_wf {data : Opnd} {addr : BitVec 5} {ty : Ty} {sn : BitVec 3} {s : State} (hw : cellsWf s.mem = true) {ρ} (he : execSstUniform data addr ty sn s = .next ρ) :
    cellsWf ρ.mem = true := by
  unfold execSstUniform at he; exact element_wf hw he

theorem elemAtomic_wf {s : State} {i : Instr} {d : Opnd} {addr : BitVec 6} {ty : Ty2} {sn : BitVec 3} {cas : Bool} (hw : cellsWf s.mem = true) {ρ} (he : elemAtomic s i d addr ty sn cas = .next ρ) :
    cellsWf ρ.mem = true := by
  unfold elemAtomic at he; exact element_wf hw he

theorem execSaadd_wf {d : Opnd} {addr : BitVec 6} {ty : Ty2} {sn : BitVec 3} {s : State} (hw : cellsWf s.mem = true) {ρ} (he : execSaadd d addr ty sn s = .next ρ) :
    cellsWf ρ.mem = true := by
  unfold execSaadd at he; exact elemAtomic_wf hw he

theorem execSamin_wf {d : Opnd} {addr : BitVec 6} {ty : Ty2} {sn : BitVec 3} {s : State} (hw : cellsWf s.mem = true) {ρ} (he : execSamin d addr ty sn s = .next ρ) :
    cellsWf ρ.mem = true := by
  unfold execSamin at he; exact elemAtomic_wf hw he

theorem execSamax_wf {d : Opnd} {addr : BitVec 6} {ty : Ty2} {sn : BitVec 3} {s : State} (hw : cellsWf s.mem = true) {ρ} (he : execSamax d addr ty sn s = .next ρ) :
    cellsWf ρ.mem = true := by
  unfold execSamax at he; exact elemAtomic_wf hw he

theorem execSacas_wf {d : Opnd} {addr : BitVec 6} {ty : Ty2} {sn : BitVec 3} {s : State} (hw : cellsWf s.mem = true) {ρ} (he : execSacas d addr ty sn s = .next ρ) :
    cellsWf ρ.mem = true := by
  unfold execSacas at he; exact elemAtomic_wf hw he

theorem execSaxchg_wf {d : Opnd} {addr : BitVec 6} {ty : Ty2} {sn : BitVec 3} {s : State} (hw : cellsWf s.mem = true) {ρ} (he : execSaxchg d addr ty sn s = .next ρ) :
    cellsWf ρ.mem = true := by
  unfold execSaxchg at he; exact elemAtomic_wf hw he

theorem execSanchLane_wf {d : LDst} {addr : BitVec 6} {sn : BitVec 3} {s : State} (hw : cellsWf s.mem = true) {ρ} (he : execSanchLane d addr sn s = .next ρ) :
    cellsWf ρ.mem = true := by
  unfold execSanchLane at he; exact element_wf hw he

theorem execSrankLane_wf {d : LDst} {addr : BitVec 6} {pm : BitVec 3} {s : State} (hw : cellsWf s.mem = true) {ρ} (he : execSrankLane d addr pm s = .next ρ) :
    cellsWf ρ.mem = true := by
  unfold execSrankLane at he; repeat' first | split at he | (with_reducible refine becomeNonRetry_wf (by first | assumption | (simp [*]; done)) ?_ he; clear he; intro s I ρ hw he) | (with_reducible refine withOperands_wf (by first | assumption | (simp [*]; done)) ?_ he; clear he; intro s I W n ρ hw he) | dsimp only at he
  all_goals first | with_reducible exact issueStrand_wf (by first | assumption | (simp [*]; done)) he | with_reducible exact retire_wf (by first | assumption | (simp [*]; done)) he | with_reducible exact wait_wf (by first | assumption | (simp [*]; done)) he | (cases he; done) | (cases he; first | assumption | (simp [hw]; done) | (simp [*, foldl_wfS, foldl_wfP, foldl_memS, foldl_memP]; done) | ((repeat' (first | assumption | (with_reducible refine foldl_wfS ?_ (fun b a hb => ?_)) | (with_reducible refine foldl_wfP ?_ (fun b a hb => ?_)) | (simp [*]; done) | (simp [*]; done) | split)); done))

@[simp] theorem reissue_wf (s : State) (I : Issuer) (e : LogEntry) (hw : cellsWf s.mem = true) :
    cellsWf (reissue s I e).mem = true := by
  unfold reissue; (try dsimp only); (repeat' split) <;> ((try have q0 := wf_of_pair ‹issueAll _ _ _ _ _ _ = (_, _)› (issueAll_wf _ _ _ _ _ _ (by first | assumption | (simp [*]; done)))); (try have q130 := wf_of_pair ‹strandSend _ _ _ _ _ _ _ _ = (_, _)› (strandSend_wf _ _ _ _ _ _ _ _ (by first | assumption | (simp [*]; done)))); (try have qs4 := readSource_mem ‹readSource _ _ _ _ = SrcAns.ok _ _›); first | assumption | (simp [hw]; done) | (simp [*, foldl_wfS, foldl_wfP, foldl_memS, foldl_memP]; done) | ((first | refine foldl_wfS ?_ (fun b a hb => ?_) | refine foldl_wfP ?_ (fun b a hb => ?_)) <;> (try dsimp only) <;> (repeat' split) <;> ((try have q0 := wf_of_pair ‹issueAll _ _ _ _ _ _ = (_, _)› (issueAll_wf _ _ _ _ _ _ (by first | assumption | (simp [*]; done)))); (try have q130 := wf_of_pair ‹strandSend _ _ _ _ _ _ _ _ = (_, _)› (strandSend_wf _ _ _ _ _ _ _ _ (by first | assumption | (simp [*]; done)))); (try have qs4 := readSource_mem ‹readSource _ _ _ _ = SrcAns.ok _ _›); first | (simp [*]; done) | (simp [*, foldl_wfS, foldl_wfP, foldl_memS, foldl_memP]; done) | ((repeat' (first | assumption | (with_reducible refine foldl_wfS ?_ (fun b a hb => ?_)) | (with_reducible refine foldl_wfP ?_ (fun b a hb => ?_)) | (with_reducible apply issueAll_wf) | (with_reducible apply strandSend_wf) | (simp [*]; done) | ((try have q0 := wf_of_pair ‹issueAll _ _ _ _ _ _ = (_, _)› (issueAll_wf _ _ _ _ _ _ (by first | assumption | (simp [*]; done)))); (try have q130 := wf_of_pair ‹strandSend _ _ _ _ _ _ _ _ = (_, _)› (strandSend_wf _ _ _ _ _ _ _ _ (by first | assumption | (simp [*]; done)))); (try have qs4 := readSource_mem ‹readSource _ _ _ _ = SrcAns.ok _ _›); simp [*]; done) | split)); done))) | ((repeat' (first | assumption | (with_reducible refine foldl_wfS ?_ (fun b a hb => ?_)) | (with_reducible refine foldl_wfP ?_ (fun b a hb => ?_)) | (with_reducible apply issueAll_wf) | (with_reducible apply strandSend_wf) | (simp [*]; done) | ((try have q0 := wf_of_pair ‹issueAll _ _ _ _ _ _ = (_, _)› (issueAll_wf _ _ _ _ _ _ (by first | assumption | (simp [*]; done)))); (try have q130 := wf_of_pair ‹strandSend _ _ _ _ _ _ _ _ = (_, _)› (strandSend_wf _ _ _ _ _ _ _ _ (by first | assumption | (simp [*]; done)))); (try have qs4 := readSource_mem ‹readSource _ _ _ _ = SrcAns.ok _ _›); simp [*]; done) | split)); done))

theorem recordAt_mem {s : State} {I : Issuer} {va : Word} {s' : State} {bs : List Byte}
    (h : recordAt s I va = .ok s' bs) : s'.mem = s.mem := readSource_mem h

theorem launchNow_wf {s : State} {I : Issuer} {i : Instr} {va : Word} (hw : cellsWf s.mem = true) {ρ} (he : launchNow s I i va = .next ρ) :
    cellsWf ρ.mem = true := by
  unfold launchNow at he; repeat' first | split at he | ((try have q0 := (mem_of_pair ‹State.submit _ _ _ _ _ _ _ _ _ = (_, _)›).trans (State.submit_mem _ _ _ _ _ _ _ _ _)); (try have qs3 := recordAt_mem ‹recordAt _ _ _ = SrcAns.ok _ _›); with_reducible refine again_wf (by first | assumption | (simp [*]; done)) ?_ he; clear he; intro s I ρ hw he) | ((try have q0 := (mem_of_pair ‹State.submit _ _ _ _ _ _ _ _ _ = (_, _)›).trans (State.submit_mem _ _ _ _ _ _ _ _ _)); (try have qs3 := recordAt_mem ‹recordAt _ _ _ = SrcAns.ok _ _›); with_reducible refine becomeNonRetry_wf (by first | assumption | (simp [*]; done)) ?_ he; clear he; intro s I ρ hw he) | dsimp only at he
  all_goals (try have q0 := (mem_of_pair ‹State.submit _ _ _ _ _ _ _ _ _ = (_, _)›).trans (State.submit_mem _ _ _ _ _ _ _ _ _)); (try have qs3 := recordAt_mem ‹recordAt _ _ _ = SrcAns.ok _ _›); first | with_reducible exact retire_wf (by first | assumption | (simp [*]; done)) he | with_reducible exact trapAt_wf (by first | assumption | (simp [*]; done)) he | with_reducible exact trapWord_wf (by first | assumption | (simp [*]; done)) he | with_reducible exact wait_wf (by first | assumption | (simp [*]; done)) he | (cases he; done) | (cases he; first | assumption | (simp [hw]; done) | (simp [*, foldl_wfS, foldl_wfP, foldl_memS, foldl_memP]; done) | ((repeat' (first | assumption | (with_reducible refine foldl_wfS ?_ (fun b a hb => ?_)) | (with_reducible refine foldl_wfP ?_ (fun b a hb => ?_)) | (simp [*]; done) | ((try have q0 := (mem_of_pair ‹State.submit _ _ _ _ _ _ _ _ _ = (_, _)›).trans (State.submit_mem _ _ _ _ _ _ _ _ _)); (try have qs3 := recordAt_mem ‹recordAt _ _ _ = SrcAns.ok _ _›); simp [*]; done) | split)); done))

theorem execLaunch_wf {a : Opnd} {s : State} (hw : cellsWf s.mem = true) {ρ} (he : execLaunch a s = .next ρ) :
    cellsWf ρ.mem = true := by
  unfold execLaunch at he; refine withIssuer_wf ?_ he; clear he; intro I ρ he; (repeat' split at he) <;> first | with_reducible exact launchNow_wf hw he | with_reducible exact park_wf hw he | with_reducible exact trapNoAddr_wf hw he | (with_reducible refine withOperands_wf hw ?_ he; clear he; intro s I W n ρ hw he; (repeat' split at he) <;> first | with_reducible exact launchNow_wf hw he | with_reducible exact park_wf hw he | with_reducible exact trapNoAddr_wf hw he | (cases he; exact hw)) | (cases he; exact hw)

theorem execSuspend_wf {k : Susp} {s : State} (hw : cellsWf s.mem = true) {ρ} (he : execSuspend k s = .next ρ) :
    cellsWf ρ.mem = true := by
  unfold execSuspend at he; repeat' first | split at he | (with_reducible refine withIssuer_wf  ?_ he; clear he; intro I ρ he) | (with_reducible refine withOperands_wf (by first | assumption | (simp [*]; done)) ?_ he; clear he; intro s I W n ρ hw he) | dsimp only at he
  all_goals first | with_reducible exact park_wf (by first | assumption | (simp [*]; done)) he | with_reducible exact retire_wf (by first | assumption | (simp [*]; done)) he | with_reducible exact trapNoAddr_wf (by first | assumption | (simp [*]; done)) he | (cases he; done) | (cases he; first | assumption | (simp [hw]; done) | (simp [*, foldl_wfS, foldl_wfP, foldl_memS, foldl_memP]; done) | ((repeat' (first | assumption | (with_reducible refine foldl_wfS ?_ (fun b a hb => ?_)) | (with_reducible refine foldl_wfP ?_ (fun b a hb => ?_)) | (simp [*]; done) | (simp [*]; done) | split)); done))

theorem execSpawn_wf {r : Opnd} {base : BitVec 6} {det : Bool} {k : BitVec 4} {s : State} (hw : cellsWf s.mem = true) {ρ} (he : execSpawn r base det k s = .next ρ) :
    cellsWf ρ.mem = true := by
  unfold execSpawn at he; repeat' first | split at he | (with_reducible refine again_wf (by first | assumption | (simp [*]; done)) ?_ he; clear he; intro s I ρ hw he) | (with_reducible refine becomeNonRetry_wf (by first | assumption | (simp [*]; done)) ?_ he; clear he; intro s I ρ hw he) | (with_reducible refine withOperands_wf (by first | assumption | (simp [*]; done)) ?_ he; clear he; intro s I W n ρ hw he) | dsimp only at he
  all_goals first | with_reducible exact retire_wf (by first | assumption | (simp [*]; done)) he | with_reducible exact trapWhole_wf (by first | assumption | (simp [*]; done)) he | with_reducible exact wait_wf (by first | assumption | (simp [*]; done)) he | (cases he; done) | (cases he; first | assumption | (simp [hw]; done) | (simp [*, foldl_wfS, foldl_wfP, foldl_memS, foldl_memP]; done) | ((repeat' (first | assumption | (with_reducible refine foldl_wfS ?_ (fun b a hb => ?_)) | (with_reducible refine foldl_wfP ?_ (fun b a hb => ?_)) | (simp [*]; done) | (simp [*]; done) | split)); done))

theorem execLqry_wf {d : UDst} {a : Opnd} {s : State} (hw : cellsWf s.mem = true) {ρ} (he : execLqry d a s = .next ρ) :
    cellsWf ρ.mem = true := by
  unfold execLqry at he; refine withOperands_wf hw ?_ he; clear he; intro s I W n ρ hw he; dsimp only at he; (repeat' split at he) <;> first | with_reducible exact retire_wf hw he | with_reducible exact trapAt_wf hw he | with_reducible exact wait_wf hw he | (cases he; exact hw)

theorem execSrd_wf {d : BitVec 5} {reg : SysReg} {idx : BitVec 8} {s : State} (hw : cellsWf s.mem = true) {ρ} (he : execSrd d reg idx s = .next ρ) :
    cellsWf ρ.mem = true := by
  unfold execSrd at he; refine withOperands_wf hw ?_ he; clear he; intro s I W n ρ hw he; (repeat' split at he) <;> first | with_reducible exact retire_wf hw he | with_reducible exact trapAt_wf hw he | (cases he; simp [hw])

@[simp] theorem State.sysWrite_mem (s : State) (I : Issuer) (r : SysReg) (k : Nat) (x : Word) :
    (State.sysWrite s I r k x).mem = s.mem := by
  unfold State.sysWrite; (repeat' split) <;> simp

@[simp] theorem State.tlbDrop_mem (s : State) (p : Nat) (x : Word) :
    (State.tlbDrop s p x).mem = s.mem := by
  unfold State.tlbDrop; split <;> rfl

theorem swrTlbinv_wf {s : State} {I : Issuer} {i : Instr} {x : Word} (hw : cellsWf s.mem = true) {ρ} (he : swrTlbinv s I i x = .next ρ) :
    cellsWf ρ.mem = true := by
  unfold swrTlbinv at he; repeat' first | split at he | (with_reducible refine becomeNonRetry_wf (by first | assumption | (simp [*]; done)) ?_ he; clear he; intro s I ρ hw he) | dsimp only at he
  all_goals first | with_reducible exact trapAt_wf (by first | assumption | (simp [*]; done)) he | with_reducible exact wait_wf (by first | assumption | (simp [*]; done)) he | (cases he; done) | (cases he; first | assumption | (simp [hw]; done) | (simp [*, foldl_wfS, foldl_wfP, foldl_memS, foldl_memP]; done) | ((repeat' (first | assumption | (with_reducible refine foldl_wfS ?_ (fun b a hb => ?_)) | (with_reducible refine foldl_wfP ?_ (fun b a hb => ?_)) | (simp [*]; done) | (simp [*]; done) | split)); done))

@[simp] theorem State.tlbinvDone_mem (s : State) (p : Nat) :
    (State.tlbinvDone s p).mem = s.mem := by
  unfold State.tlbinvDone; dsimp only; (repeat' split) <;> rfl

@[simp] theorem State.discardSheaf_wf (s : State) (p slot : Nat) (hw : cellsWf s.mem = true) :
    cellsWf (State.discardSheaf s p slot).mem = true := by
  unfold State.discardSheaf; (try dsimp only); (repeat' split) <;> (first | assumption | (simp [hw]; done) | (simp [*, foldl_wfS, foldl_wfP, foldl_memS, foldl_memP]; done) | ((first | refine foldl_wfS ?_ (fun b a hb => ?_) | refine foldl_wfP ?_ (fun b a hb => ?_)) <;> (try dsimp only) <;> (repeat' split) <;> (first | (simp [*]; done) | (simp [*, foldl_wfS, foldl_wfP, foldl_memS, foldl_memP]; done) | ((repeat' (first | assumption | (with_reducible refine foldl_wfS ?_ (fun b a hb => ?_)) | (with_reducible refine foldl_wfP ?_ (fun b a hb => ?_)) | (with_reducible apply State.failGrid_wf) | (simp [*]; done) | (simp [*]; done) | split)); done))) | ((repeat' (first | assumption | (with_reducible refine foldl_wfS ?_ (fun b a hb => ?_)) | (with_reducible refine foldl_wfP ?_ (fun b a hb => ?_)) | (with_reducible apply State.failGrid_wf) | (simp [*]; done) | (simp [*]; done) | split)); done))

theorem execTrap_wf {imm : BitVec 24} {s : State} (hw : cellsWf s.mem = true) {ρ} (he : execTrap imm s = .next ρ) :
    cellsWf ρ.mem = true := by
  unfold execTrap at he; refine withOperands_wf hw ?_ he; clear he; intro s I W n ρ hw he; cases he; simp [hw]

theorem execBrk_wf {imm : BitVec 24} {s : State} (hw : cellsWf s.mem = true) {ρ} (he : execBrk imm s = .next ρ) :
    cellsWf ρ.mem = true := by
  unfold execBrk at he; refine withOperands_wf hw ?_ he; clear he; intro s I W n ρ hw he; cases he; simp [hw]

theorem execTret_wf {s : State} (hw : cellsWf s.mem = true) {ρ} (he : execTret s = .next ρ) :
    cellsWf ρ.mem = true := by
  unfold execTret at he; repeat' first | split at he | (with_reducible refine withOperands_wf (by first | assumption | (simp [*]; done)) ?_ he; clear he; intro s I W n ρ hw he) | dsimp only at he
  all_goals first | with_reducible exact trapWord_wf (by first | assumption | (simp [*]; done)) he | with_reducible exact wait_wf (by first | assumption | (simp [*]; done)) he | (cases he; done) | (cases he; first | assumption | (simp [hw]; done) | (simp [*, foldl_wfS, foldl_wfP, foldl_memS, foldl_memP]; done) | ((repeat' (first | assumption | (with_reducible refine foldl_wfS ?_ (fun b a hb => ?_)) | (with_reducible refine foldl_wfP ?_ (fun b a hb => ?_)) | (with_reducible apply State.enterLogTrap_wf) | (with_reducible apply reissue_wf) | (simp [*]; done) | (simp [*]; done) | split)); done))

theorem channelOp_wf {s : State} {i : Instr} {lane : Bool} {us : List Use} {c : Nat} {row : Bool} {width : Nat}
    {f : State → Issuer → Win → Chan → Out1} (hw : cellsWf s.mem = true)
    (h : ∀ s I W ch ρ, cellsWf s.mem = true → f s I W ch = .next ρ → cellsWf ρ.mem = true) {ρ}
    (he : channelOp s i lane us c row width f = .next ρ) : cellsWf ρ.mem = true := by
  unfold channelOp at he
  refine withOperands_wf hw ?_ he
  intro s I W n ρ hw he
  dsimp only at he
  split at he
  · exact trapWhole_wf (s := { s with free := s.free + 1 }) hw he
  · split at he
    · exact trapWhole_wf (s := { s with free := s.free + 1 }) hw he
    · split at he
      · exact trapWhole_wf hw he
      · split at he
        · exact trapWhole_wf hw he
        · split at he
          · exact wait_wf hw he
          · exact becomeNonRetry_wf hw (fun s I ρ hw he => h _ _ _ _ _ hw he) he

@[simp] theorem setChan_mem (s : State) (I : Issuer) (c : Nat) (ch : Chan) :
    (setChan s I c ch).mem = s.mem := rfl

theorem pushEntries_wf {s : State} {I : Issuer} {c : Nat} {ch : Chan} {row : Bool} {width : Nat} {es : List (List W32)} (hw : cellsWf s.mem = true) {ρ} (he : pushEntries s I c ch row width es = .next ρ) :
    cellsWf ρ.mem = true := by
  unfold pushEntries at he; (repeat' split at he) <;> first | with_reducible exact retire_wf hw he | with_reducible exact wait_wf hw he | (cases he; exact hw)

theorem execSendLane_wf {r : Opnd} {ch : BitVec 6} {n : BitVec 2} {row : Bool} {s : State} (hw : cellsWf s.mem = true) {ρ} (he : execSendLane r ch n row s = .next ρ) :
    cellsWf ρ.mem = true := by
  unfold execSendLane at he; refine channelOp_wf hw ?_ he; clear he; intro s I W ch ρ hw he; exact pushEntries_wf hw he

/-- What a RECV does with the entries it needs keeps memory. -/
theorem pop_wf {s : State} {I : Issuer} {a n c : Nat} {C : Chan} {U : Sub} (hw : cellsWf s.mem = true) {ρ}
    (he : (if a < n then wait s I else retire ((if n = 0 then s else setChan s I c C).l1Clear I.t) I .other U) = .next ρ) :
    cellsWf ρ.mem = true := by
  split at he
  · exact wait_wf hw he
  · refine retire_wf ?_ he; split <;> exact hw

theorem execRecvLane_wf {d : LDst} {ch : BitVec 6} {n : BitVec 2} {row : Bool} {s : State} (hw : cellsWf s.mem = true) {ρ} (he : execRecvLane d ch n row s = .next ρ) :
    cellsWf ρ.mem = true := by
  unfold execRecvLane at he
  exact channelOp_wf hw (fun _ _ _ _ _ hw he => pop_wf hw he) he

theorem execSendUniform_wf {r : Opnd} {ch : BitVec 6} {n : BitVec 2} {s : State} (hw : cellsWf s.mem = true) {ρ} (he : execSendUniform r ch n s = .next ρ) :
    cellsWf ρ.mem = true := by
  unfold execSendUniform at he; refine channelOp_wf hw ?_ he; clear he; intro s I W ch ρ hw he; exact pushEntries_wf hw he

theorem execRecvUniform_wf {d : UDst} {ch : BitVec 6} {n : BitVec 2} {s : State} (hw : cellsWf s.mem = true) {ρ} (he : execRecvUniform d ch n s = .next ρ) :
    cellsWf ρ.mem = true := by
  unfold execRecvUniform at he; refine channelOp_wf hw ?_ he; clear he; intro s I W ch ρ hw he; (repeat' split at he) <;> first | with_reducible exact retire_wf hw he | with_reducible exact wait_wf hw he | (cases he; exact hw)

end Sys2Proof.Machine
end

