-- ==== Sys2Proof/Laws/KeepSkein.lean ====
section
/-! SUPPORT. The skein instructions keep the canonical form of memory. -/
set_option linter.unusedSimpArgs false
set_option linter.unusedVariables false
namespace Sys2Proof.Machine
@[simp] theorem State.setSkein_mem (s : State) (p k : Nat) (K : Skein) :
    (State.setSkein s p k K).mem = s.mem := by
  unfold State.setSkein; split <;> rfl

@[simp] theorem State.deviceWriteAt_wf (s : State) (t vf fa : Nat) (bs : List Byte) (hw : cellsWf s.mem = true) :
    cellsWf (State.deviceWriteAt s t vf fa bs).mem = true := by
  unfold State.deviceWriteAt; (try dsimp only); (repeat' split) <;> (first | assumption | (simp [hw]; done) | (simp [*, foldl_wfS, foldl_wfP, foldl_memS, foldl_memP]; done) | ((repeat' (first | assumption | (with_reducible refine foldl_wfS ?_ (fun b a hb => ?_)) | (with_reducible refine foldl_wfP ?_ (fun b a hb => ?_)) | ((simp [*]; done)) | split | simp)); done))

@[simp] theorem State.writeForm_wf (s : State) (K : Skein) (form : Nat) (hw : cellsWf s.mem = true) :
    cellsWf (State.writeForm s K form).mem = true := by
  unfold State.writeForm; simp [hw]

@[simp] theorem State.writeState_wf (s : State) (K : Skein) (hw : cellsWf s.mem = true) :
    cellsWf (State.writeState s K).mem = true := by
  unfold State.writeState; simp [hw]

@[simp] theorem State.writeSwitches_wf (s : State) (K : Skein) (hw : cellsWf s.mem = true) :
    cellsWf (State.writeSwitches s K).mem = true := by
  unfold State.writeSwitches; simp [hw]

@[simp] theorem State.updateSkein_wf (s : State) (p k : Nat) (K : Skein) (hw : cellsWf s.mem = true) :
    cellsWf (State.updateSkein s p k K).mem = true := by
  unfold State.updateSkein; simp [hw]

@[simp] theorem State.transferTo_mem (s : State) (t u p k n : Nat) :
    (State.transferTo s t u p k n).mem = s.mem := by
  unfold State.transferTo; (repeat' split) <;> simp

theorem trapSkein_wf {s : State} {I : Issuer} {K : Skein} {code : Byte} (hw : cellsWf s.mem = true) {ρ} (he : trapSkein s I K code = .next ρ) :
    cellsWf ρ.mem = true := by
  unfold trapSkein at he; exact trapAt_wf hw he

theorem inStage_wf {s : State} {I : Issuer} {f : Nat → Nat → Skein → Nat → Stage → Out1} (hw : cellsWf s.mem = true)
    (h : ∀ p k K n st ρ, f p k K n st = .next ρ → cellsWf ρ.mem = true) {ρ} (he : inStage s I f = .next ρ) :
    cellsWf ρ.mem = true := by
  unfold inStage at he
  split at he
  · exact h _ _ _ _ _ _ he
  · exact trapNoAddr_wf hw he

theorem stopAtKnot_wf {s : State} {I : Issuer} {p k : Nat} {K : Skein} {n : Nat} {st : Stage} {kind : Nat} {live : BitVec 16} (hw : cellsWf s.mem = true) {ρ} (he : stopAtKnot s I p k K n st kind live = .next ρ) :
    cellsWf ρ.mem = true := by
  unfold stopAtKnot at he; (try dsimp only at he); (repeat' split at he) <;> (first | with_reducible exact wait_wf (by first | assumption | (simp [*]; done)) he | (cases he; done) | (cases he; first | assumption | (simp [hw]; done) | (simp [*, foldl_wfS, foldl_wfP, foldl_memS, foldl_memP]; done) | ((repeat' (first | assumption | (with_reducible refine foldl_wfS ?_ (fun b a hb => ?_)) | (with_reducible refine foldl_wfP ?_ (fun b a hb => ?_)) | (simp [*]; done) | (simp [*]; done) | split)); done)))

theorem retireSk_wf {s : State} {I : Issuer} {U : Sub} (hw : cellsWf s.mem = true) {ρ} (he : retireSk s I U = .next ρ) :
    cellsWf ρ.mem = true := by
  unfold retireSk at he; (repeat' split at he) <;> first | with_reducible exact retire_wf hw he | (cases he; exact hw)

theorem leaveStage_wf {s : State} {I : Issuer} {p k : Nat} {K : Skein} {n : Nat} {st : Stage} {kind next : Nat} (hw : cellsWf s.mem = true) {ρ} (he : leaveStage s I p k K n st kind next = .next ρ) :
    cellsWf ρ.mem = true := by
  unfold leaveStage at he; (repeat' split at he) <;> first | with_reducible exact wait_wf hw he | (cases he; simp [hw])

theorem linkOp_wf {s : State} {i : Instr} {r : Opnd} {ch : BitVec 6} {n : Nat} {us : Issuer → List Use} {item get : Bool}
    {f : State → Issuer → Win → Nat → Nat → Skein → Nat → Stage → Nat → SkLink → Out1} (hw : cellsWf s.mem = true)
    (h : ∀ s I W p k K m st li l ρ, cellsWf s.mem = true → f s I W p k K m st li l = .next ρ → cellsWf ρ.mem = true) {ρ}
    (he : linkOp s i r ch n us item get f = .next ρ) : cellsWf ρ.mem = true := by
  unfold linkOp at he
  refine withIssuer_wf ?_ he
  intro I0 ρ he
  refine withOperands_wf hw ?_ he
  intro s I W n ρ hw he
  refine inStage_wf hw ?_ he
  intro p k K m st ρ he
  dsimp only at he
  (repeat' split at he) <;> first | exact trapNoAddr_wf hw he | exact trapSkein_wf hw he | exact stopAtKnot_wf hw he | exact h _ _ _ _ _ _ _ _ _ _ _ hw he

theorem execGet_wf {r : Opnd} {ch : BitVec 6} {n : BitVec 2} {pm : BitVec 3} {s : State} (hw : cellsWf s.mem = true) {ρ} (he : execGet r ch n pm s = .next ρ) :
    cellsWf ρ.mem = true := by
  unfold execGet at he; refine linkOp_wf hw ?_ he; clear he; intro s I W p k K m st li l ρ hw he; dsimp only at he; (repeat' split at he) <;> first | with_reducible exact leaveStage_wf hw he | with_reducible exact retireSk_wf hw he | with_reducible exact wait_wf hw he | (cases he; simp [hw])

theorem execPut_wf {r : Opnd} {ch : BitVec 6} {n : BitVec 2} {eos : Bool} {s : State} (hw : cellsWf s.mem = true) {ρ} (he : execPut r ch n eos s = .next ρ) :
    cellsWf ρ.mem = true := by
  unfold execPut at he; refine linkOp_wf hw ?_ he; clear he; intro s I W p k K m st li l ρ hw he; dsimp only at he; (repeat' split at he) <;> first | with_reducible exact leaveStage_wf hw he | with_reducible exact retireSk_wf hw he | with_reducible exact wait_wf hw he | (cases he; simp [hw])

theorem execKnot_wf {g h : BitVec 8} {s : State} (hw : cellsWf s.mem = true) {ρ} (he : execKnot g h s = .next ρ) :
    cellsWf ρ.mem = true := by
  unfold execKnot at he; repeat' first | split at he | (with_reducible refine inStage_wf (by first | assumption | (simp [*]; done)) ?_ he; clear he; intro p k K n st ρ he) | (with_reducible refine withOperands_wf (by first | assumption | (simp [*]; done)) ?_ he; clear he; intro s I W n ρ hw he) | dsimp only at he
  all_goals first | with_reducible exact retireSk_wf (by first | assumption | (simp [*]; done)) he | with_reducible exact stopAtKnot_wf (by first | assumption | (simp [*]; done)) he | with_reducible exact trapSkein_wf (by first | assumption | (simp [*]; done)) he | (cases he; done) | (cases he; first | assumption | (simp [hw]; done) | (simp [*, foldl_wfS, foldl_wfP, foldl_memS, foldl_memP]; done) | ((repeat' (first | assumption | (with_reducible refine foldl_wfS ?_ (fun b a hb => ?_)) | (with_reducible refine foldl_wfP ?_ (fun b a hb => ?_)) | (simp [*]; done) | (simp [*]; done) | split)); done))

@[simp] theorem State.resetCounts_mem (s : State) (t g : Nat) :
    (State.resetCounts s t g).mem = s.mem := rfl

@[simp] theorem State.startReel_wf (s : State) (p k : Nat) (K : Skein) (byDist export_ : Bool) (by_ : Option Nat) (hw : cellsWf s.mem = true) :
    cellsWf (State.startReel s p k K byDist export_ by_).mem = true := by
  unfold State.startReel; (try dsimp only); (repeat' split) <;> (first | assumption | (simp [hw]; done) | (simp [*, foldl_wfS, foldl_wfP, foldl_memS, foldl_memP]; done) | ((first | refine foldl_wfS ?_ (fun b a hb => ?_) | refine foldl_wfP ?_ (fun b a hb => ?_)) <;> (try dsimp only) <;> (repeat' split) <;> (first | (simp [*]; done) | (simp [*, foldl_wfS, foldl_wfP, foldl_memS, foldl_memP]; done) | ((repeat' (first | assumption | (with_reducible refine foldl_wfS ?_ (fun b a hb => ?_)) | (with_reducible refine foldl_wfP ?_ (fun b a hb => ?_)) | (with_reducible apply State.updateSkein_wf) | (simp [*]; done) | (simp [*]; done) | split)); done))) | ((repeat' (first | assumption | (with_reducible refine foldl_wfS ?_ (fun b a hb => ?_)) | (with_reducible refine foldl_wfP ?_ (fun b a hb => ?_)) | (with_reducible apply State.updateSkein_wf) | (simp [*]; done) | (simp [*]; done) | split)); done))

@[simp] theorem State.startUnreel_wf (s : State) (p k : Nat) (K : Skein) (export_ : Bool) (by_ : Option Nat) (hw : cellsWf s.mem = true) :
    cellsWf (State.startUnreel s p k K export_ by_).mem = true := by
  unfold State.startUnreel; dsimp only; (repeat' split) <;> simp [hw]

@[simp] theorem State.skeinAbort_wf (s : State) (p k last : Nat) (hw : cellsWf s.mem = true) :
    cellsWf (State.skeinAbort s p k last).mem = true := by
  unfold State.skeinAbort; (repeat' split) <;> simp [hw]

@[simp] theorem State.countIssue_mem (s : State) (t u : Nat) (kind : GangKind) (n one : Nat) :
    (State.countIssue s t u kind n one).mem = s.mem := by
  unfold State.countIssue; (try dsimp only); (repeat' split) <;> (first | rfl | (simp [*, foldl_memS, foldl_memP]; done) | ((repeat' (first | rfl | ((simp [*]; done)) | (with_reducible refine (foldl_memS (fun b a => ?_)).trans ?_) | (with_reducible refine (foldl_memP (fun b a => ?_)).trans ?_) | split | simp)); done))

@[simp] theorem State.devPut_wf (s : State) (t vf : Nat) (world : Bool) (n : Nat) (va : Word) (bs : List Byte) (hw : cellsWf s.mem = true) :
    cellsWf (State.devPut s t vf world n va bs).mem = true := by
  induction n generalizing s va bs with
  | zero => exact hw
  | succ n ih =>
    unfold State.devPut
    split
    · exact hw
    · dsimp only
      refine ih _ _ _ ?_
      split <;> simp [hw]

@[simp] theorem State.makeFolded_mem (s : State) (p k : Nat) (K : Skein) (n : Nat) :
    (State.makeFolded s p k K n).mem = s.mem := by
  unfold State.makeFolded; (repeat' split) <;> simp

@[simp] theorem State.startSkein_wf (s : State) (p : Nat) (B : Block) (t ctx : Nat) (va : Word) (fa : Nat) (d : SkDesc) (fold : Bool)
    (hw : cellsWf s.mem = true) : cellsWf (State.startSkein s p B t ctx va fa d fold).mem = true := by
  unfold State.startSkein
  extract_lets k restart stage sts links K s1 s2 ringEnd img s3 sts1 s4 B' sts2 nxt live run K' s5 s6 s7 s8
  have h2 : cellsWf s2.mem = true := by simp only [s2, s1]; simp [hw]
  split
  · simp [h2]
  · split
    · have h6 : cellsWf s6.mem = true := by simp only [s6, s5, s4, s3]; simp [h2]
      clear_value s6
      split <;> simp [h6]
    · have h8 : cellsWf s8.mem = true := by simp only [s8, s7]; simp [h2]
      clear_value s8
      split <;> simp [h8]

@[simp] theorem State.skeinAct_wf (s : State) (p : Nat) (P : Part) (B : Block) (t ctx g : Nat) (va : Word) (fa : Nat) (d : SkDesc) (fold : Bool) (hw : cellsWf s.mem = true) :
    cellsWf (State.skeinAct s p P B t ctx g va fa d fold).1.mem = true := by
  unfold State.skeinAct; dsimp only; (repeat' split) <;> simp [hw]

theorem skeinSwitch_wf {s : State} {i : Instr} {d : UDst} {a : Opnd} {fold : Bool} (hw : cellsWf s.mem = true) {ρ} (he : skeinSwitch s i d a fold = .next ρ) :
    cellsWf ρ.mem = true := by
  unfold skeinSwitch at he; repeat' first | split at he | ((try have q0 := wf_of_pair ‹State.skeinAct _ _ _ _ _ _ _ _ _ _ _ = (_, _)› (State.skeinAct_wf _ _ _ _ _ _ _ _ _ _ _ (by first | assumption | (simp [*]; done)))); (try have qs4 := readSource_mem ‹readSource _ _ _ _ = SrcAns.ok _ _›); with_reducible refine again_wf (by first | assumption | (simp [*]; done)) ?_ he; clear he; intro s I ρ hw he) | ((try have q0 := wf_of_pair ‹State.skeinAct _ _ _ _ _ _ _ _ _ _ _ = (_, _)› (State.skeinAct_wf _ _ _ _ _ _ _ _ _ _ _ (by first | assumption | (simp [*]; done)))); (try have qs4 := readSource_mem ‹readSource _ _ _ _ = SrcAns.ok _ _›); with_reducible refine becomeNonRetry_wf (by first | assumption | (simp [*]; done)) ?_ he; clear he; intro s I ρ hw he) | ((try have q0 := wf_of_pair ‹State.skeinAct _ _ _ _ _ _ _ _ _ _ _ = (_, _)› (State.skeinAct_wf _ _ _ _ _ _ _ _ _ _ _ (by first | assumption | (simp [*]; done)))); (try have qs4 := readSource_mem ‹readSource _ _ _ _ = SrcAns.ok _ _›); with_reducible refine withOperands_wf (by first | assumption | (simp [*]; done)) ?_ he; clear he; intro s I W n ρ hw he) | dsimp only at he
  all_goals (try have q0 := wf_of_pair ‹State.skeinAct _ _ _ _ _ _ _ _ _ _ _ = (_, _)› (State.skeinAct_wf _ _ _ _ _ _ _ _ _ _ _ (by first | assumption | (simp [*]; done)))); (try have qs4 := readSource_mem ‹readSource _ _ _ _ = SrcAns.ok _ _›); first | with_reducible exact retire_wf (by first | assumption | (simp [*]; done)) he | with_reducible exact trapAt_wf (by first | assumption | (simp [*]; done)) he | with_reducible exact wait_wf (by first | assumption | (simp [*]; done)) he | (cases he; done) | (cases he; first | assumption | (simp [hw]; done) | (simp [*, foldl_wfS, foldl_wfP, foldl_memS, foldl_memP]; done) | ((repeat' (first | assumption | (with_reducible refine foldl_wfS ?_ (fun b a hb => ?_)) | (with_reducible refine foldl_wfP ?_ (fun b a hb => ?_)) | (with_reducible apply State.skeinAct_wf) | (simp [*]; done) | ((try have q0 := wf_of_pair ‹State.skeinAct _ _ _ _ _ _ _ _ _ _ _ = (_, _)› (State.skeinAct_wf _ _ _ _ _ _ _ _ _ _ _ (by first | assumption | (simp [*]; done)))); (try have qs4 := readSource_mem ‹readSource _ _ _ _ = SrcAns.ok _ _›); simp [*]; done) | split)); done))

theorem execSkfold_wf {d : UDst} {a : Opnd} {s : State} (hw : cellsWf s.mem = true) {ρ} (he : execSkfold d a s = .next ρ) :
    cellsWf ρ.mem = true := by
  unfold execSkfold at he; exact skeinSwitch_wf hw he

theorem execSkspread_wf {d : UDst} {a : Opnd} {s : State} (hw : cellsWf s.mem = true) {ρ} (he : execSkspread d a s = .next ρ) :
    cellsWf ρ.mem = true := by
  unfold execSkspread at he; exact skeinSwitch_wf hw he

theorem execSkqry_wf {d : UDst} {a : Opnd} {s : State} (hw : cellsWf s.mem = true) {ρ} (he : execSkqry d a s = .next ρ) :
    cellsWf ρ.mem = true := by
  unfold execSkqry at he; repeat' first | split at he | ((try have qs4 := readSource_mem ‹readSource _ _ _ _ = SrcAns.ok _ _›); with_reducible refine again_wf (by first | assumption | (simp [*]; done)) ?_ he; clear he; intro s I ρ hw he) | ((try have qs4 := readSource_mem ‹readSource _ _ _ _ = SrcAns.ok _ _›); with_reducible refine withOperands_wf (by first | assumption | (simp [*]; done)) ?_ he; clear he; intro s I W n ρ hw he) | dsimp only at he
  all_goals (try have qs4 := readSource_mem ‹readSource _ _ _ _ = SrcAns.ok _ _›); first | with_reducible exact retire_wf (by first | assumption | (simp [*]; done)) he | with_reducible exact trapAt_wf (by first | assumption | (simp [*]; done)) he | with_reducible exact wait_wf (by first | assumption | (simp [*]; done)) he | (cases he; done) | (cases he; first | assumption | (simp [hw]; done) | (simp [*, foldl_wfS, foldl_wfP, foldl_memS, foldl_memP]; done) | ((repeat' (first | assumption | (with_reducible refine foldl_wfS ?_ (fun b a hb => ?_)) | (with_reducible refine foldl_wfP ?_ (fun b a hb => ?_)) | (simp [*]; done) | ((try have qs4 := readSource_mem ‹readSource _ _ _ _ = SrcAns.ok _ _›); simp [*]; done) | split)); done))

@[simp] theorem State.endSkein_wf (s : State) (p k : Nat) (K : Skein) (form : Nat) (hw : cellsWf s.mem = true) :
    cellsWf (State.endSkein s p k K form).mem = true := by
  unfold State.endSkein; simp [hw]

theorem stageExit_wf {s : State} {I : Issuer} {p k : Nat} {K : Skein} {n : Nat} {st : Stage} (hw : cellsWf s.mem = true) {ρ} (he : stageExit s I p k K n st = .next ρ) :
    cellsWf ρ.mem = true := by
  unfold stageExit at he; dsimp only at he; (repeat' split at he) <;> first | with_reducible exact wait_wf hw he | (cases he; simp [hw])

theorem execExit_wf {s : State} (hw : cellsWf s.mem = true) {ρ} (he : execExit s = .next ρ) :
    cellsWf ρ.mem = true := by
  unfold execExit at he; refine withOperands_wf hw ?_ he; clear he; intro s I W n ρ hw he; (repeat' split at he) <;> first | with_reducible exact stageExit_wf hw he | with_reducible exact wait_wf hw he | (with_reducible refine commitPoint_wf hw ?_ he; clear he; intro s I ρ hw he; (repeat' split at he) <;> first | with_reducible exact stageExit_wf hw he | with_reducible exact wait_wf hw he | (cases he; simp [hw])) | (cases he; simp [hw])

@[simp] theorem State.reelRequest_wf (s : State) (p k : Nat) (byDist export_ : Bool) (hw : cellsWf s.mem = true) :
    cellsWf (State.reelRequest s p k byDist export_).mem = true := by
  unfold State.reelRequest; (repeat' split) <;> simp [hw]

@[simp] theorem State.unreelRequest_wf (s : State) (p k : Nat) (hw : cellsWf s.mem = true) :
    cellsWf (State.unreelRequest s p k).mem = true := by
  unfold State.unreelRequest; (repeat' split) <;> simp [hw]

@[simp] theorem State.exportRequest_wf (s : State) (p k : Nat) (hw : cellsWf s.mem = true) :
    cellsWf (State.exportRequest s p k).mem = true := by
  unfold State.exportRequest; (repeat' split) <;> simp [hw]

@[simp] theorem State.skreq_wf (s : State) (p : Nat) (x : Word) (hw : cellsWf s.mem = true) :
    cellsWf (State.skreq s p x).mem = true := by
  unfold State.skreq; (repeat' split) <;> simp [hw]

theorem execSwr_wf {r : BitVec 5} {reg : SysReg} {idx : BitVec 8} {s : State} (hw : cellsWf s.mem = true) {ρ} (he : execSwr r reg idx s = .next ρ) :
    cellsWf ρ.mem = true := by
  unfold execSwr at he; repeat' first | split at he | (with_reducible refine again_wf (by first | assumption | (simp [*]; done)) ?_ he; clear he; intro s I ρ hw he) | (with_reducible refine withOperands_wf (by first | assumption | (simp [*]; done)) ?_ he; clear he; intro s I W n ρ hw he) | dsimp only at he
  all_goals first | with_reducible exact retire_wf (by first | assumption | (simp [*]; done)) he | with_reducible exact swrTlbinv_wf (by first | assumption | (simp [*]; done)) he | with_reducible exact trapAt_wf (by first | assumption | (simp [*]; done)) he | (cases he; done) | (cases he; first | assumption | (simp [hw]; done) | (simp [*, foldl_wfS, foldl_wfP, foldl_memS, foldl_memP]; done) | ((repeat' (first | assumption | (with_reducible refine foldl_wfS ?_ (fun b a hb => ?_)) | (with_reducible refine foldl_wfP ?_ (fun b a hb => ?_)) | (with_reducible apply State.discardSheaf_wf) | (with_reducible apply State.skreq_wf) | (simp [*]; done) | (simp [*]; done) | split)); done))

end Sys2Proof.Machine
end

