-- ==== Sys2Proof/Laws/KeepEngine.lean ====
section
/-! SUPPORT. The engine instructions and their events keep the canonical form of memory. -/
set_option linter.unusedSimpArgs false
set_option linter.unusedVariables false
namespace Sys2Proof.Machine
@[simp] theorem accept_mem (s : State) (I : Issuer) (i : Instr) (tc : BitVec 4) (par : List Word) (p : EngPlan) :
    (accept s I i tc par p).mem = s.mem := rfl

theorem engineCmd_wf {s : State} {i : Instr} {tc : BitVec 4} {n : Option (BitVec 5)} {top : Nat} {plan : State → Issuer → List Word → EngPlan} (hw : cellsWf s.mem = true) {ρ} (he : engineCmd s i tc n top plan = .next ρ) :
    cellsWf ρ.mem = true := by
  unfold engineCmd at he; repeat' first | split at he | (with_reducible refine again_wf (by first | assumption | (simp [*]; done)) ?_ he; clear he; intro s I ρ hw he) | (with_reducible refine becomeNonRetry_wf (by first | assumption | (simp [*]; done)) ?_ he; clear he; intro s I ρ hw he) | (with_reducible refine withOperands_wf (by first | assumption | (simp [*]; done)) ?_ he; clear he; intro s I W n ρ hw he) | dsimp only at he
  all_goals first | with_reducible exact retire_wf (by first | assumption | (simp [*]; done)) he | with_reducible exact trapAt_wf (by first | assumption | (simp [*]; done)) he | with_reducible exact wait_wf (by first | assumption | (simp [*]; done)) he | (cases he; done) | (cases he; first | assumption | (simp [hw]; done) | (simp [*, foldl_wfS, foldl_wfP, foldl_memS, foldl_memP]; done) | ((repeat' (first | assumption | (with_reducible refine foldl_wfS ?_ (fun b a hb => ?_)) | (with_reducible refine foldl_wfP ?_ (fun b a hb => ?_)) | (simp [*]; done) | (simp [*]; done) | split)); done))

theorem execTdef_wf {h : BitVec 6} {n : BitVec 5} {s : State} (hw : cellsWf s.mem = true) {ρ} (he : execTdef h n s = .next ρ) :
    cellsWf ρ.mem = true := by
  unfold execTdef at he; repeat' first | split at he | (with_reducible refine again_wf (by first | assumption | (simp [*]; done)) ?_ he; clear he; intro s I ρ hw he) | (with_reducible refine becomeNonRetry_wf (by first | assumption | (simp [*]; done)) ?_ he; clear he; intro s I ρ hw he) | (with_reducible refine withOperands_wf (by first | assumption | (simp [*]; done)) ?_ he; clear he; intro s I W n ρ hw he) | dsimp only at he
  all_goals first | with_reducible exact retire_wf (by first | assumption | (simp [*]; done)) he | with_reducible exact trapAt_wf (by first | assumption | (simp [*]; done)) he | (cases he; done) | (cases he; first | assumption | (simp [hw]; done) | (simp [*, foldl_wfS, foldl_wfP, foldl_memS, foldl_memP]; done) | ((repeat' (first | assumption | (with_reducible refine foldl_wfS ?_ (fun b a hb => ?_)) | (with_reducible refine foldl_wfP ?_ (fun b a hb => ?_)) | (simp [*]; done) | (simp [*]; done) | split)); done))

theorem execCopy_wf {tc : BitVec 4} {h1 h2 : BitVec 6} {stamp bar link : Bool} {n : BitVec 5} {s : State} (hw : cellsWf s.mem = true) {ρ} (he : execCopy tc h1 h2 stamp bar link n s = .next ρ) :
    cellsWf ρ.mem = true := by
  unfold execCopy at he; exact engineCmd_wf hw he

theorem execCopym_wf {tc : BitVec 4} {h1 h2 : BitVec 6} {bar link : Bool} {n : BitVec 5} {s : State} (hw : cellsWf s.mem = true) {ρ} (he : execCopym tc h1 h2 bar link n s = .next ρ) :
    cellsWf ρ.mem = true := by
  unfold execCopym at he; exact engineCmd_wf hw he

theorem execCopys_wf {tc : BitVec 4} {h1 h2 : BitVec 6} {n : BitVec 5} {s : State} (hw : cellsWf s.mem = true) {ρ} (he : execCopys tc h1 h2 n s = .next ρ) :
    cellsWf ρ.mem = true := by
  unfold execCopys at he; exact engineCmd_wf hw he

theorem execCopyr_wf {tc : BitVec 4} {h1 h2 : BitVec 6} {n : BitVec 5} {s : State} (hw : cellsWf s.mem = true) {ρ} (he : execCopyr tc h1 h2 n s = .next ρ) :
    cellsWf ρ.mem = true := by
  unfold execCopyr at he; exact engineCmd_wf hw he

theorem execMload_wf {tc : BitVec 4} {h : BitVec 6} {n : BitVec 5} {s : State} (hw : cellsWf s.mem = true) {ρ} (he : execMload tc h n s = .next ρ) :
    cellsWf ρ.mem = true := by
  unfold execMload at he; exact engineCmd_wf hw he

theorem execMswap_wf {tc : BitVec 4} {mask : BitVec 4} {s : State} (hw : cellsWf s.mem = true) {ρ} (he : execMswap tc mask s = .next ρ) :
    cellsWf ρ.mem = true := by
  unfold execMswap at he; exact engineCmd_wf hw he

theorem execMmul_wf {tc : BitVec 4} {h1 h2 : BitVec 6} {n : BitVec 5} {s : State} (hw : cellsWf s.mem = true) {ρ} (he : execMmul tc h1 h2 n s = .next ρ) :
    cellsWf ρ.mem = true := by
  unfold execMmul at he; exact engineCmd_wf hw he

theorem execAccz_wf {tc : BitVec 4} {h : BitVec 6} {s : State} (hw : cellsWf s.mem = true) {ρ} (he : execAccz tc h s = .next ρ) :
    cellsWf ρ.mem = true := by
  unfold execAccz at he; exact engineCmd_wf hw he

theorem execAccdrn_wf {tc : BitVec 4} {h1 h2 : BitVec 6} {z : Bool} {n : BitVec 5} {s : State} (hw : cellsWf s.mem = true) {ρ} (he : execAccdrn tc h1 h2 z n s = .next ρ) :
    cellsWf ρ.mem = true := by
  unfold execAccdrn at he; exact engineCmd_wf hw he

theorem execAccmov_wf {st : Bool} {reg : BitVec 5} {x : Opnd} {s : State} (hw : cellsWf s.mem = true) {ρ} (he : execAccmov st reg x s = .next ρ) :
    cellsWf ρ.mem = true := by
  unfold execAccmov at he; repeat' first | split at he | (with_reducible refine again_wf (by first | assumption | (simp [*]; done)) ?_ he; clear he; intro s I ρ hw he) | (with_reducible refine withOperands_wf (by first | assumption | (simp [*]; done)) ?_ he; clear he; intro s I W n ρ hw he) | dsimp only at he
  all_goals first | with_reducible exact retire_wf (by first | assumption | (simp [*]; done)) he | with_reducible exact trapAt_wf (by first | assumption | (simp [*]; done)) he | with_reducible exact trapNoAddr_wf (by first | assumption | (simp [*]; done)) he | with_reducible exact wait_wf (by first | assumption | (simp [*]; done)) he | (cases he; done) | (cases he; first | assumption | (simp [hw]; done) | (simp [*, foldl_wfS, foldl_wfP, foldl_memS, foldl_memP]; done) | ((repeat' (first | assumption | (with_reducible refine foldl_wfS ?_ (fun b a hb => ?_)) | (with_reducible refine foldl_wfP ?_ (fun b a hb => ?_)) | (simp [*]; done) | (simp [*]; done) | split)); done))

theorem execHistclr_wf {tc : BitVec 4} {h : BitVec 6} {s : State} (hw : cellsWf s.mem = true) {ρ} (he : execHistclr tc h s = .next ρ) :
    cellsWf ρ.mem = true := by
  unfold execHistclr at he; exact engineCmd_wf hw he

theorem execHistrd_wf {h : BitVec 6} {bin : BitVec 5} {d : UDst} {s : State} (hw : cellsWf s.mem = true) {ρ} (he : execHistrd h bin d s = .next ρ) :
    cellsWf ρ.mem = true := by
  unfold execHistrd at he; refine withOperands_wf hw ?_ he; clear he; intro s I W n ρ hw he; (repeat' split at he) <;> first | with_reducible exact retire_wf hw he | with_reducible exact trapNoAddr_wf hw he | (cases he; exact hw)

theorem execAttn_wf {tc : BitVec 4} {h1 h2 : BitVec 6} {n : BitVec 5} {s : State} (hw : cellsWf s.mem = true) {ρ} (he : execAttn tc h1 h2 n s = .next ρ) :
    cellsWf ρ.mem = true := by
  unfold execAttn at he; exact engineCmd_wf hw he

@[simp] theorem State.spadPut_mem (s : State) (p : SpadAt) (bs : List PByte) :
    (State.spadPut s p bs).mem = s.mem := by
  unfold State.spadPut; dsimp only; (repeat' split) <;> first | rfl | simp

@[simp] theorem State.memPut_wf (s : State) (src pa : Nat) (bs : List PByte) (vec : List W32) (hw : cellsWf s.mem = true) :
    cellsWf (State.memPut s src pa bs vec).mem = true := by
  unfold State.memPut; simp [hw]

theorem foldOpt_inv {α β : Type} {f : β → α → Option β} (P : β → Prop) (h : ∀ b a b', P b → f b a = some b' → P b')
    {l : List α} {b : β} (w : P b) {r : β} (he : foldOpt f b l = some r) : P r := by
  induction l generalizing b with
  | nil => cases he; exact w
  | cons a l ih =>
    unfold foldOpt at he
    split at he
    · exact ih (h _ _ _ w ‹_›) he
    · cases he

theorem foldOpt_wfS {α : Type} {f : State → α → Option State}
    (h : ∀ b a b', cellsWf b.mem = true → f b a = some b' → cellsWf b'.mem = true) {l : List α} {b : State}
    (w : cellsWf b.mem = true) {r : State} (he : foldOpt f b l = some r) : cellsWf r.mem = true :=
  foldOpt_inv (fun b : State => cellsWf b.mem = true) h w he

theorem foldOpt_wfP {α β : Type} {f : State × β → α → Option (State × β)}
    (h : ∀ b a b', cellsWf b.1.mem = true → f b a = some b' → cellsWf b'.1.mem = true) {l : List α} {b : State × β}
    (w : cellsWf b.1.mem = true) {r : State × β} (he : foldOpt f b l = some r) : cellsWf r.1.mem = true :=
  foldOpt_inv (fun b : State × β => cellsWf b.1.mem = true) h w he

@[simp] theorem State.reportTo_mem (s : State) (uid : Nat) (r : Report) :
    (State.reportTo s uid r).mem = s.mem := by
  unfold State.reportTo; simp

theorem State.engRead_wf {s : State} {t : Nat} {c : EngCmd} {B : Block} {space a n : Nat} (hw : cellsWf s.mem = true) {ρ}
    (he : s.engRead t c B space a n = some ρ) : cellsWf ρ.1.mem = true := by
  unfold State.engRead at he
  split at he
  · cases he; exact hw
  · split at he
    · split at he
      · split at he <;> cases he; exact hw
      · cases he
    · refine foldOpt_wfP (fun b a b' hb hf => ?_) hw he
      dsimp only at hf
      (repeat' split at hf) <;> cases hf <;> first | exact hb | simpa using hb

theorem State.copyRows_wf {s : State} {t : Nat} {c : EngCmd} {B : Block} (hw : cellsWf s.mem = true) {ρ}
    (he : s.copyRows t c B = some ρ) : cellsWf ρ.1.mem = true := by
  unfold State.copyRows at he
  dsimp only at he
  split at he
  · split at he
    · cases he
    · next s' out hf =>
      have := foldOpt_wfP (b := (s, [])) (r := (s', out)) (fun b a b' hb hf => by
        (repeat' split at hf) <;> cases hf
        exact State.engRead_wf hb ‹_›) hw hf
      cases he
      exact this
  · split at he
    · cases he
    · next s' m hf =>
      have h1 : cellsWf s'.mem = true := State.engRead_wf hw hf
      refine foldOpt_wfP (b := (s', [])) (fun b a b' hb hf => ?_) h1 he
      (repeat' split at hf) <;> cases hf <;> first | exact hb | exact State.engRead_wf hb ‹_›

@[simp] theorem State.engSend_mem (s : State) (t : Nat) (c : EngCmd) (fa : Nat) (b : Body) :
    (State.engSend s t c fa b).1.mem = s.mem := by
  unfold State.engSend; (repeat' split) <;> simp

@[simp] theorem State.engSendAll_mem (s : State) (t : Nat) (c : EngCmd) (l : List (Nat × Body)) :
    (State.engSendAll s t c l).1.mem = s.mem := by
  first
  | rfl
  | (unfold State.engSendAll; (try dsimp only); (repeat' split) <;> ((try have q0 := (mem_of_pair ‹State.engSend _ _ _ _ _ = (_, _)›).trans (State.engSend_mem _ _ _ _ _)); first | rfl | (simp [*, foldl_memS, foldl_memP]; done) | ((first | refine foldl_memS (fun b a => ?_) | refine foldl_memP (fun b a => ?_)); (try dsimp only); (repeat' split) <;> ((try have q0 := (mem_of_pair ‹State.engSend _ _ _ _ _ = (_, _)›).trans (State.engSend_mem _ _ _ _ _)); first | rfl | (simp [*]; done))) | ((repeat' (first | rfl | (simp [*]; done) | (with_reducible refine (foldl_memS (fun b a => ?_)).trans ?_) | (with_reducible refine (foldl_memP (fun b a => ?_)).trans ?_) | split)); done)))

theorem State.putRows_wf {s : State} {t : Nat} {c : EngCmd} {rows : List (Nat × List PByte)} (hw : cellsWf s.mem = true) {ρ}
    (he : s.putRows t c rows = some ρ) : cellsWf ρ.1.mem = true := by
  unfold State.putRows at he
  dsimp only at he
  split at he
  · split at he
    · cases he
    · cases he; simp [hw]
  · split at he
    · cases he
    · next s' hf =>
      have := foldOpt_wfS (fun b a b' hb hf => by
        split at hf <;> cases hf
        simp [hb]) hw hf
      cases he
      rw [State.engSendAll_mem, foldl_memS fun b a => State.reportTo_mem b _ _]
      exact this

theorem State.putSpadRows_wf {s : State} {B : Block} {sels : List Nat} {rows : List (Nat × List PByte)} (hw : cellsWf s.mem = true) {ρ}
    (he : s.putSpadRows B sels rows = some ρ) : cellsWf ρ.mem = true := by
  unfold State.putSpadRows at he
  refine foldOpt_wfS (fun b a b' hb hf => ?_) hw he
  refine foldOpt_wfS (fun b a b' hb hf => ?_) hb hf
  (repeat' split at hf) <;> cases hf
  simp [hb]

@[simp] theorem State.contribute_mem (s : State) (t : Nat) (c : EngCmd) (rows : List (Nat × List PByte)) :
    (State.contribute s t c rows).1.mem = s.mem := by
  first
  | rfl
  | (unfold State.contribute; (try dsimp only); (repeat' split) <;> (first | rfl | (simp [*, foldl_memS, foldl_memP]; done) | ((first | refine foldl_memS (fun b a => ?_) | refine foldl_memP (fun b a => ?_)); (try dsimp only); (repeat' split) <;> (first | rfl | (simp [*]; done))) | ((repeat' (first | rfl | (simp [*]; done) | (with_reducible refine (foldl_memS (fun b a => ?_)).trans ?_) | (with_reducible refine (foldl_memP (fun b a => ?_)).trans ?_) | split)); done)))

theorem State.copyPayload_wf {s : State} {t : Nat} {c : EngCmd} {B : Block} (hw : cellsWf s.mem = true) {ρ}
    (he : s.copyPayload t c B = some ρ) : cellsWf ρ.1.mem = true := by
  unfold State.copyPayload at he
  split at he
  · dsimp only at he
    split at he
    · split at he <;> cases he; exact hw
    · split at he
      · cases he
      · cases he; simp [hw]
  · split at he
    · cases he
    · split at he
      · cases he
      · next s' rows hr =>
        have h1 := State.copyRows_wf hw hr
        dsimp only at h1 he
        split at he
        · cases he; simp [h1]
        · split at he
          · simp only [Option.map_eq_some_iff] at he
            obtain ⟨s2, h2, rfl⟩ := he
            exact State.putSpadRows_wf h1 h2
          · exact State.putRows_wf h1 he

theorem State.copyClose_wf {s : State} {t : Nat} {c : EngCmd} (hw : cellsWf s.mem = true) {ρ} (he : State.copyClose s t c = some ρ) :
    cellsWf ρ.1.mem = true := by
  unfold State.copyClose at he; (try dsimp only at he); (repeat' split at he) <;> ((try have q0 := (mem_of_pair ‹State.engSend _ _ _ _ _ = (_, _)›).trans (State.engSend_mem _ _ _ _ _)); first | (cases he; done) | (cases he; first | assumption | (simp [hw]; done) | (simp [*, foldl_wfS, foldl_wfP, foldl_memS, foldl_memP]; done) | ((repeat' (first | assumption | (with_reducible refine foldl_wfS ?_ (fun b a hb => ?_)) | (with_reducible refine foldl_wfP ?_ (fun b a hb => ?_)) | (with_reducible apply State.writeNow_wf) | (simp [*]; done) | ((try have q0 := (mem_of_pair ‹State.engSend _ _ _ _ _ = (_, _)›).trans (State.engSend_mem _ _ _ _ _)); simp [*]; done) | split)); done)))

theorem State.countBytes_wf {s : State} {c : EngCmd} {B : Block} {n : Nat} (hw : cellsWf s.mem = true) {ρ}
    (he : s.countBytes c B n = some ρ) : cellsWf ρ.mem = true := by
  unfold State.countBytes at he
  refine foldOpt_wfS (fun b a b' hb hf => ?_) hw he
  dsimp only at hf
  (repeat' split at hf) <;> cases hf <;> simp [hb]

theorem State.tileRows_wf {s : State} {t : Nat} {c : EngCmd} {B : Block} {d : TDesc} (hw : cellsWf s.mem = true) {ρ}
    (he : s.tileRows t c B d = some ρ) : cellsWf ρ.1.mem = true := by
  unfold State.tileRows at he
  refine foldOpt_wfP (fun b a b' hb hf => ?_) hw he
  (repeat' split at hf) <;> cases hf
  exact State.engRead_wf hb ‹_›

theorem State.tileScales_wf {s : State} {t : Nat} {c : EngCmd} {B : Block} {d : TDesc} {kb0 P : Nat} (hw : cellsWf s.mem = true) {ρ}
    (he : s.tileScales t c B d kb0 P = some ρ) : cellsWf ρ.1.mem = true := by
  unfold State.tileScales at he
  dsimp only at he
  split at he
  · refine foldOpt_wfP (fun b a b' hb hf => ?_) hw he
    (repeat' split at hf) <;> cases hf
    exact State.engRead_wf hb ‹_›
  · cases he; exact hw

theorem State.mload_wf {s : State} {t : Nat} {c : EngCmd} {B : Block} (hw : cellsWf s.mem = true) {ρ}
    (he : s.mload t c B = some ρ) : cellsWf ρ.mem = true := by
  unfold State.mload at he
  dsimp only at he
  split at he
  · cases he
  · next h1 =>
    have h1 := State.tileRows_wf hw h1
    split at he
    · cases he
    · next h2 =>
      have h2 := State.tileScales_wf h1 h2
      cases he; simpa using h2

theorem State.tileMask_wf {s : State} {t : Nat} {c : EngCmd} {B : Block} {d : TDesc} (hw : cellsWf s.mem = true) {ρ} (he : State.tileMask s t c B d = some ρ) :
    cellsWf ρ.1.mem = true := by
  unfold State.tileMask at he; exact State.engRead_wf hw he

theorem State.mmul_wf {s : State} {t : Nat} {c : EngCmd} {B : Block} (hw : cellsWf s.mem = true) {ρ} (he : State.mmul s t c B = some ρ) :
    cellsWf ρ.mem = true := by
  unfold State.mmul at he; (try dsimp only at he); (repeat' split at he) <;> ((try have q0 := State.tileMask_wf (by first | assumption | (simp [*]; done)) ‹State.tileMask _ _ _ _ _ = some _›); (try have q115 := State.tileRows_wf (by first | assumption | (simp [*]; done)) ‹State.tileRows _ _ _ _ _ = some _›); (try have q232 := State.tileScales_wf (by first | assumption | (simp [*]; done)) ‹State.tileScales _ _ _ _ _ _ _ = some _›); first | with_reducible exact State.tileMask_wf (by first | assumption | (simp [*]; done)) he | with_reducible exact State.tileRows_wf (by first | assumption | (simp [*]; done)) he | with_reducible exact State.tileScales_wf (by first | assumption | (simp [*]; done)) he | (cases he; done) | (cases he; first | assumption | (simp [hw]; done) | (simp [*, foldl_wfS, foldl_wfP, foldl_memS, foldl_memP]; done) | ((repeat' (first | assumption | (with_reducible refine foldl_wfS ?_ (fun b a hb => ?_)) | (with_reducible refine foldl_wfP ?_ (fun b a hb => ?_)) | (simp [*]; done) | ((try have q0 := State.tileMask_wf (by first | assumption | (simp [*]; done)) ‹State.tileMask _ _ _ _ _ = some _›); (try have q115 := State.tileRows_wf (by first | assumption | (simp [*]; done)) ‹State.tileRows _ _ _ _ _ = some _›); (try have q232 := State.tileScales_wf (by first | assumption | (simp [*]; done)) ‹State.tileScales _ _ _ _ _ _ _ = some _›); simp [*]; done) | split)); done)))

@[simp] theorem State.drainEnd_mem (s : State) (t : Nat) (c : EngCmd) (h1 : BitVec 6) (z : Bool) :
    (State.drainEnd s t c h1 z).mem = s.mem := by
  unfold State.drainEnd; (repeat' split) <;> simp

theorem State.kvBlock_wf {s : State} {t : Nat} {c : EngCmd} {B : Block} {a : AttnRec} {i : Nat} (hw : cellsWf s.mem = true) {ρ}
    (he : s.kvBlock t c B a i = some ρ) : cellsWf ρ.1.mem = true := by
  unfold State.kvBlock at he
  dsimp only at he
  split at he
  · cases he
  · next h1 =>
    have h1 := State.engRead_wf hw h1
    split at he
    · cases he
    · next s' kv hf =>
      cases he
      refine foldOpt_wfP (b := (_, [])) (fun b a b' hb hf => ?_) h1 hf
      split at hf
      · cases hf
      · next h2 =>
        have h2 := State.engRead_wf hb h2
        split at hf
        · cases hf
        · next h3 =>
          cases hf
          exact State.engRead_wf h2 h3

theorem State.attn_wf {s : State} {t : Nat} {c : EngCmd} {B : Block} (hw : cellsWf s.mem = true) {ρ}
    (he : s.attn t c B = some ρ) : cellsWf ρ.mem = true := by
  unfold State.attn at he
  extract_lets a O at he
  split at he
  · cases he
  · next h1 =>
    have h1 := State.tileRows_wf hw h1
    split at he
    · cases he
    · next s' bs hf =>
      have h2 := foldOpt_wfP (b := (_, [])) (fun b a b' hb hf => by
        split at hf
        · cases hf
        · next h3 => cases hf; exact State.kvBlock_wf hb h3) h1 hf
      cases he
      exact h2

theorem map_phase_wf {o : Option State} {c : EngCmd} {ρ : State × EngCmd} (he : (o.map fun s => (s, c)) = some ρ)
    (h : ∀ s, o = some s → cellsWf s.mem = true) : cellsWf ρ.1.mem = true := by
  cases o with
  | none => cases he
  | some s => cases he; exact h s rfl

theorem State.arrayAdvance_wf {s : State} {t : Nat} {c : EngCmd} {B : Block} (hw : cellsWf s.mem = true) {ρ}
    (he : s.arrayAdvance t c B = some ρ) : cellsWf ρ.1.mem = true := by
  unfold State.arrayAdvance at he
  dsimp only at he
  split at he
  · cases he
  · split at he
    · split at he
      · cases he; exact hw
      · cases he
    · split at he
      · exact map_phase_wf he fun s h => State.mload_wf hw h
      · cases he; simp [hw]
      · exact map_phase_wf he fun s h => State.mmul_wf hw h
      · cases he; simp [hw]
      · cases he; simp [hw]
      · exact map_phase_wf he fun s h => State.attn_wf hw h
      · split at he
        · refine map_phase_wf he fun s h => ?_
          simp only [Option.map_eq_some_iff] at h
          obtain ⟨s2, h2, rfl⟩ := h
          simpa using State.putSpadRows_wf hw h2
        · split at he
          · cases he
          · next h1 =>
            have h1 := State.putRows_wf hw h1
            cases he
            dsimp only at h1 ⊢
            split <;> simp [h1]
      · cases he; exact hw

theorem State.cmdAdvance_wf {s : State} {t : Nat} {c : EngCmd} {B : Block} (hw : cellsWf s.mem = true) {ρ} (he : State.cmdAdvance s t c B = some ρ) :
    cellsWf ρ.1.mem = true := by
  unfold State.cmdAdvance at he; (try dsimp only at he); (repeat' split at he) <;> ((try have q0 := State.arrayAdvance_wf (by first | assumption | (simp [*]; done)) ‹State.arrayAdvance _ _ _ _ = some _›); (try have q121 := State.copyClose_wf (by first | assumption | (simp [*]; done)) ‹State.copyClose _ _ _ = some _›); (try have q236 := State.copyPayload_wf (by first | assumption | (simp [*]; done)) ‹State.copyPayload _ _ _ _ = some _›); first | with_reducible exact State.arrayAdvance_wf (by first | assumption | (simp [*]; done)) he | with_reducible exact State.copyClose_wf (by first | assumption | (simp [*]; done)) he | with_reducible exact State.copyPayload_wf (by first | assumption | (simp [*]; done)) he | (cases he; done) | (cases he; first | assumption | (simp [hw]; done) | (simp [*, foldl_wfS, foldl_wfP, foldl_memS, foldl_memP]; done) | ((repeat' (first | assumption | (with_reducible refine foldl_wfS ?_ (fun b a hb => ?_)) | (with_reducible refine foldl_wfP ?_ (fun b a hb => ?_)) | (simp [*]; done) | ((try have q0 := State.arrayAdvance_wf (by first | assumption | (simp [*]; done)) ‹State.arrayAdvance _ _ _ _ = some _›); (try have q121 := State.copyClose_wf (by first | assumption | (simp [*]; done)) ‹State.copyClose _ _ _ = some _›); (try have q236 := State.copyPayload_wf (by first | assumption | (simp [*]; done)) ‹State.copyPayload _ _ _ _ = some _›); simp [*]; done) | split)); done)))

theorem State.cmdFinish_wf {s : State} {t : Nat} {c : EngCmd} {B : Block} (hw : cellsWf s.mem = true) {ρ}
    (he : s.cmdFinish t c B = some ρ) : cellsWf ρ.mem = true := by
  unfold State.cmdFinish at he
  split at he
  · cases he
  · next s' h1 =>
    have h1 : cellsWf s'.mem = true := by
      split at h1
      · exact State.countBytes_wf hw h1
      · cases h1; exact hw
    extract_lets T T' s2 s3 at he
    have h3 : cellsWf s3.mem = true := by simp only [s3, s2]; simp [h1]
    clear_value s3
    split at he
    · cases he; exact h3
    · cases he; simp [h3]

theorem State.cmdRun_wf {s : State} {t id n : Nat} (hw : cellsWf s.mem = true) {ρ}
    (he : State.cmdRun t id n s = some ρ) : cellsWf ρ.mem = true := by
  induction n generalizing s ρ with
  | zero => cases he
  | succ n ih =>
    unfold State.cmdRun at he
    split at he
    · cases he
    · split at he
      · cases he
      · split at he
        · split at he
          · exact State.cmdFinish_wf hw he
          · cases he
        · split at he
          · cases he
          · next s' c' h1 =>
            have h1 := State.cmdAdvance_wf hw h1
            dsimp only at h1 he
            split at he
            · next h2 => cases he; exact ih (by simpa using h1) h2
            · cases he; simpa using h1

theorem execEngineCommandComplete_wf {t id : Nat} {s : State} (hw : cellsWf s.mem = true) {ρ}
    (he : execEngineCommandComplete t id s = .next ρ) : cellsWf ρ.mem = true := by
  unfold execEngineCommandComplete at he
  split at he
  · split at he
    · next h => cases he; exact State.cmdRun_wf hw h
    · cases he; exact hw
  · cases he; exact hw

theorem execBarrierByteCount_wf {t id n : Nat} {s : State} (hw : cellsWf s.mem = true) {ρ}
    (he : execBarrierByteCount t id n s = .next ρ) : cellsWf ρ.mem = true := by
  unfold execBarrierByteCount at he
  split at he
  · split at he
    · cases he; exact hw
    · split at he
      · cases he; exact hw
      · split at he
        · cases he; exact hw
        · extract_lets r at he
          have hr : ∀ x, r = some x → cellsWf x.1.mem = true := by
            intro x hx
            simp only [r] at hx
            (repeat' split at hx)
            · next h1 _ => exact State.copyPayload_wf (State.copyPayload_wf hw h1) hx
            · next h1 _ => cases hx; exact State.copyPayload_wf hw h1
            · cases hx
            · exact State.copyPayload_wf hw hx
            · cases hx; exact hw
          clear_value r
          split at he
          · cases he; exact hw
          · next s' c' =>
            have h1 := hr _ rfl
            split at he
            · cases he; simpa using h1
            · split at he
              · cases he; exact hw
              · next h2 => cases he; simpa using State.countBytes_wf h1 h2
  · cases he; exact hw

theorem execLinkedStart_wf {t id : Nat} {s : State} (hw : cellsWf s.mem = true) {ρ} (he : execLinkedStart t id s = .next ρ) :
    cellsWf ρ.mem = true := by
  unfold execLinkedStart at he; dsimp only at he; (repeat' split at he) <;> first | (cases he; exact hw)

end Sys2Proof.Machine
end

