-- ==== Sys2Proof/Laws/KeepRun.lean ====
section
/-! SUPPORT. The remaining instructions and events keep the canonical form of memory. -/
set_option linter.unusedSimpArgs false
set_option linter.unusedVariables false
namespace Sys2Proof.Machine
@[simp] theorem State.putCmd_mem (s : State) (t : Nat) (c : EngCmd) :
    (State.putCmd s t c).mem = s.mem := by
  unfold State.putCmd; split <;> rfl

@[simp] theorem State.engTake_mem (s : State) (t id name : Nat) (got : List (Nat × Byte)) (bad : Option (Nat × Byte × Nat)) :
    (State.engTake s t id name got bad).mem = s.mem := by
  unfold State.engTake; (try dsimp only); (repeat' split) <;> (first | rfl | (simp [*, foldl_memS, foldl_memP]; done) | ((repeat' (first | rfl | ((simp [*]; done)) | (with_reducible refine (foldl_memS (fun b a => ?_)).trans ?_) | (with_reducible refine (foldl_memP (fun b a => ?_)).trans ?_) | split | simp)); done))

@[simp] theorem State.engAnswer_mem (s : State) (t id name : Nat) (got : List (Nat × Byte)) (bad : Option (Nat × Byte × Nat)) :
    (State.engAnswer s t id name got bad).mem = s.mem := by
  unfold State.engAnswer; (try dsimp only); (repeat' split) <;> (first | rfl | (simp [*, foldl_memS, foldl_memP]; done) | ((repeat' (first | rfl | ((simp [*]; done)) | (with_reducible refine (foldl_memS (fun b a => ?_)).trans ?_) | (with_reducible refine (foldl_memP (fun b a => ?_)).trans ?_) | split | simp)); done))

@[simp] theorem State.loseOut_wf (s : State) (o : Out) (hw : cellsWf s.mem = true) :
    cellsWf (State.loseOut s o).mem = true := by
  unfold State.loseOut; (try dsimp only); (repeat' split) <;> (first | assumption | (simp [hw]; done) | (simp [*, foldl_wfS, foldl_wfP, foldl_memS, foldl_memP]; done) | ((first | refine foldl_wfS ?_ (fun b a hb => ?_) | refine foldl_wfP ?_ (fun b a hb => ?_)) <;> (try dsimp only) <;> (repeat' split) <;> (first | (simp [*]; done) | (simp [*, foldl_wfS, foldl_wfP, foldl_memS, foldl_memP]; done) | ((repeat' (first | assumption | (with_reducible refine foldl_wfS ?_ (fun b a hb => ?_)) | (with_reducible refine foldl_wfP ?_ (fun b a hb => ?_)) | (with_reducible apply State.deliver_wf) | (simp [*]; done) | (simp [*]; done) | split)); done))) | ((repeat' (first | assumption | (with_reducible refine foldl_wfS ?_ (fun b a hb => ?_)) | (with_reducible refine foldl_wfP ?_ (fun b a hb => ?_)) | (with_reducible apply State.deliver_wf) | (simp [*]; done) | (simp [*]; done) | split)); done))

@[simp] theorem State.pump_wf (s : State) (hw : cellsWf s.mem = true) :
    cellsWf (State.pump s).mem = true := by
  unfold State.pump; (try dsimp only); (repeat' split) <;> ((try have q0 := (mem_of_pair ‹State.pumpFabric _ = (_, _)›).trans (State.pumpFabric_mem _)); first | assumption | (simp [hw]; done) | (simp [*, foldl_wfS, foldl_wfP, foldl_memS, foldl_memP]; done) | ((first | refine foldl_wfS ?_ (fun b a hb => ?_) | refine foldl_wfP ?_ (fun b a hb => ?_)) <;> (try dsimp only) <;> (repeat' split) <;> ((try have q0 := (mem_of_pair ‹State.pumpFabric _ = (_, _)›).trans (State.pumpFabric_mem _)); first | (simp [*]; done) | (simp [*, foldl_wfS, foldl_wfP, foldl_memS, foldl_memP]; done) | ((repeat' (first | assumption | (with_reducible refine foldl_wfS ?_ (fun b a hb => ?_)) | (with_reducible refine foldl_wfP ?_ (fun b a hb => ?_)) | (with_reducible apply State.loseOut_wf) | (simp [*]; done) | ((try have q0 := (mem_of_pair ‹State.pumpFabric _ = (_, _)›).trans (State.pumpFabric_mem _)); simp [*]; done) | split)); done))) | ((repeat' (first | assumption | (with_reducible refine foldl_wfS ?_ (fun b a hb => ?_)) | (with_reducible refine foldl_wfP ?_ (fun b a hb => ?_)) | (with_reducible apply State.loseOut_wf) | (simp [*]; done) | ((try have q0 := (mem_of_pair ‹State.pumpFabric _ = (_, _)›).trans (State.pumpFabric_mem _)); simp [*]; done) | split)); done))

@[simp] theorem State.flushPorts_mem (s : State) : (State.flushPorts s).mem = s.mem := rfl

theorem leaveNext_wf {d : Nat} {s : State} (hw : cellsWf s.mem = true) {ρ} (he : leaveNext d s = .next ρ) :
    cellsWf ρ.mem = true := by
  unfold leaveNext at he; (try dsimp only at he); (repeat' split at he) <;> first | (cases he; simp [hw]; done) | skip
  cases he
  exact foldl_wfS (f := State.deliver) (by simpa using hw) fun b a hb => State.deliver_wf _ _ hb

@[simp] theorem State.closeOut_mem (s : State) (o : Out) :
    (State.closeOut s o).mem = s.mem := by
  unfold State.closeOut; split <;> rfl

@[simp] theorem State.answerOut_wf (s : State) (o : Out) (data : List Byte) (error : Bool) (hw : cellsWf s.mem = true) :
    cellsWf (State.answerOut s o data error).mem = true := by
  unfold State.answerOut; (try dsimp only); (repeat' split) <;> (first | assumption | (simp [hw]; done) | (simp [*, foldl_wfS, foldl_wfP, foldl_memS, foldl_memP]; done) | ((first | refine foldl_wfS ?_ (fun b a hb => ?_) | refine foldl_wfP ?_ (fun b a hb => ?_)) <;> (try dsimp only) <;> (repeat' split) <;> (first | (simp [*]; done) | (simp [*, foldl_wfS, foldl_wfP, foldl_memS, foldl_memP]; done) | ((repeat' (first | assumption | (with_reducible refine foldl_wfS ?_ (fun b a hb => ?_)) | (with_reducible refine foldl_wfP ?_ (fun b a hb => ?_)) | (with_reducible apply State.deliver_wf) | (simp [*]; done) | (simp [*]; done) | split)); done))) | ((repeat' (first | assumption | (with_reducible refine foldl_wfS ?_ (fun b a hb => ?_)) | (with_reducible refine foldl_wfP ?_ (fun b a hb => ?_)) | (with_reducible apply State.deliver_wf) | (simp [*]; done) | (simp [*]; done) | split)); done))

@[simp] theorem State.startFreeze_wf (s : State) (t : Nat) (kind : FreezeKind) (hw : cellsWf s.mem = true) :
    cellsWf (State.startFreeze s t kind).mem = true := by
  unfold State.startFreeze; (try dsimp only); (repeat' split) <;> (first | assumption | (simp [hw]; done) | (simp [*, foldl_wfS, foldl_wfP, foldl_memS, foldl_memP]; done) | ((repeat' (first | assumption | (with_reducible refine foldl_wfS ?_ (fun b a hb => ?_)) | (with_reducible refine foldl_wfP ?_ (fun b a hb => ?_)) | ((simp [*]; done)) | split | simp)); done))

@[simp] theorem State.freezeTile_wf (s : State) (t : Nat) (kind : FreezeKind) (hw : cellsWf s.mem = true) :
    cellsWf (State.freezeTile s t kind).mem = true := by
  unfold State.freezeTile; (try dsimp only); (repeat' split) <;> (first | assumption | (simp [hw]; done) | (simp [*, foldl_wfS, foldl_wfP, foldl_memS, foldl_memP]; done) | ((repeat' (first | assumption | (with_reducible refine foldl_wfS ?_ (fun b a hb => ?_)) | (with_reducible refine foldl_wfP ?_ (fun b a hb => ?_)) | ((simp [*]; done)) | split | simp)); done))

@[simp] theorem State.deferredFreezes_wf (s : State) (l : List (Nat × FreezeKind)) (hw : cellsWf s.mem = true) :
    cellsWf (State.deferredFreezes s l).mem = true := by
  unfold State.deferredFreezes; (try dsimp only); (repeat' split) <;> (first | assumption | (simp [hw]; done) | (simp [*, foldl_wfS, foldl_wfP, foldl_memS, foldl_memP]; done) | ((repeat' (first | assumption | (with_reducible refine foldl_wfS ?_ (fun b a hb => ?_)) | (with_reducible refine foldl_wfP ?_ (fun b a hb => ?_)) | ((simp [*]; done)) | split | simp)); done))

@[simp] theorem State.timeoutSkein_wf (s : State) (p k : Nat) (hw : cellsWf s.mem = true) :
    cellsWf (State.timeoutSkein s p k).mem = true := by
  unfold State.timeoutSkein; (try dsimp only); (repeat' split) <;> (first | assumption | (simp [hw]; done) | (simp [*, foldl_wfS, foldl_wfP, foldl_memS, foldl_memP]; done) | ((repeat' (first | assumption | (with_reducible refine foldl_wfS ?_ (fun b a hb => ?_)) | (with_reducible refine foldl_wfP ?_ (fun b a hb => ?_)) | ((simp [*]; done)) | split | simp)); done))

theorem execFreezeRequest_wf {t : Nat} {kind : FreezeKind} {s : State} (hw : cellsWf s.mem = true) {ρ} (he : execFreezeRequest t kind s = .next ρ) :
    cellsWf ρ.mem = true := by
  unfold execFreezeRequest at he; (try dsimp only at he); (repeat' split at he) <;> (first | (cases he; done) | (cases he; first | assumption | (simp [hw]; done) | (simp [*, foldl_wfS, foldl_wfP, foldl_memS, foldl_memP]; done) | ((repeat' (first | assumption | (with_reducible refine foldl_wfS ?_ (fun b a hb => ?_)) | (with_reducible refine foldl_wfP ?_ (fun b a hb => ?_)) | ((simp [*]; done)) | split | simp)); done)))

theorem execDrainComplete_wf {t : Nat} {s : State} (hw : cellsWf s.mem = true) {ρ} (he : execDrainComplete t s = .next ρ) :
    cellsWf ρ.mem = true := by
  unfold execDrainComplete at he; dsimp only at he; (repeat' split at he) <;> first | (cases he; exact hw)

@[simp] theorem State.writeHeader_wf (s : State) (P : Part) (slot : Nat) (h : Sheaf) (hw : cellsWf s.mem = true) :
    cellsWf (State.writeHeader s P slot h).mem = true := by
  unfold State.writeHeader
  exact foldl_wfS (f := fun s (x : Nat × List Byte) => s.putBytes (P.ssbase + slot * 2 ^ 22 + x.1) x.2) hw (fun b a hb => by simp [hb])

theorem State.leaveFlows_mem (s : State) (l : List Out) : (l.foldl State.leaveFlow s).mem = s.mem :=
  foldl_memS (f := State.leaveFlow) State.leaveFlow_mem

theorem execSheafSaveDone_wf {t : Nat} {s : State} (hw : cellsWf s.mem = true) {ρ} (he : execSheafSaveDone t s = .next ρ) :
    cellsWf ρ.mem = true := by
  have key : ∀ (l : List Out) P n (h : Sheaf), cellsWf ((l.foldl State.leaveFlow s).writeHeader P n h).mem = true := fun l P n h =>
    State.writeHeader_wf _ _ _ _ (by rw [State.leaveFlows_mem]; exact hw)
  unfold execSheafSaveDone at he
  extract_lets T at he
  split at he
  · injection he with he
    rw [← he, State.setTile_mem, State.setPart_mem]
    exact key _ _ _ _
  · injection he with he; subst he; exact hw

theorem execSheafRestore_wf {p slot t : Nat} {s : State} (hw : cellsWf s.mem = true) {ρ} (he : execSheafRestore p slot t s = .next ρ) :
    cellsWf ρ.mem = true := by
  unfold execSheafRestore at he; (try dsimp only at he); (repeat' split at he) <;> (first | (cases he; done) | (cases he; first | assumption | (simp [hw]; done) | (simp [*, foldl_wfS, foldl_wfP, foldl_memS, foldl_memP]; done) | ((repeat' (first | assumption | (with_reducible refine foldl_wfS ?_ (fun b a hb => ?_)) | (with_reducible refine foldl_wfP ?_ (fun b a hb => ?_)) | (with_reducible apply State.discardSheaf_wf) | (with_reducible apply State.failGrid_wf) | (simp [*]; done) | (simp [*]; done) | split)); done)))

@[simp] theorem State.moveNames_mem (s : State) (im : Tile) (src t : Nat) :
    (State.moveNames s im src t).mem = s.mem := rfl

@[simp] theorem State.mapLink_mem (s : State) (p k n : Nat) (f : SkLink → SkLink) :
    (State.mapLink s p k n f).mem = s.mem := by
  unfold State.mapLink; (try dsimp only); (repeat' split) <;> (first | rfl | (simp [*, foldl_memS, foldl_memP]; done) | ((repeat' (first | rfl | ((simp [*]; done)) | (with_reducible refine (foldl_memS (fun b a => ?_)).trans ?_) | (with_reducible refine (foldl_memP (fun b a => ?_)).trans ?_) | split | simp)); done))

@[simp] theorem State.setCredits_mem (s : State) (t : Nat) (held : List (Nat × Nat × Nat)) :
    (State.setCredits s t held).mem = s.mem := by
  unfold State.setCredits; (try dsimp only); (repeat' split) <;> (first | rfl | (simp [*, foldl_memS, foldl_memP]; done) | ((repeat' (first | rfl | ((simp [*]; done)) | (with_reducible refine (foldl_memS (fun b a => ?_)).trans ?_) | (with_reducible refine (foldl_memP (fun b a => ?_)).trans ?_) | split | simp)); done))

@[simp] theorem State.releaseItems_mem (s : State) (t : Nat) :
    (State.releaseItems s t).mem = s.mem := by
  unfold State.releaseItems; (try dsimp only); (repeat' split) <;> (first | rfl | (simp [*, foldl_memS, foldl_memP]; done) | ((repeat' (first | rfl | ((simp [*]; done)) | (with_reducible refine (foldl_memS (fun b a => ?_)).trans ?_) | (with_reducible refine (foldl_memP (fun b a => ?_)).trans ?_) | split | simp)); done))

@[simp] theorem State.applyRetlog_wf (s : State) (t : Nat) (hw : cellsWf s.mem = true) :
    cellsWf (State.applyRetlog s t).mem = true := by
  unfold State.applyRetlog; (try dsimp only); (repeat' split) <;> (first | assumption | (simp [hw]; done) | (simp [*, foldl_wfS, foldl_wfP, foldl_memS, foldl_memP]; done) | ((repeat' (first | assumption | (with_reducible refine foldl_wfS ?_ (fun b a hb => ?_)) | (with_reducible refine foldl_wfP ?_ (fun b a hb => ?_)) | ((simp [*]; done)) | split | simp)); done))

@[simp] theorem State.loadSheaf_wf (s : State) (p slot t : Nat) (h : Sheaf) (hw : cellsWf s.mem = true) :
    cellsWf (State.loadSheaf s p slot t h).mem = true := by
  unfold State.loadSheaf
  dsimp only
  rw [foldl_memS (f := fun (s : State) (o : Out) => s.enterFlow o.id (dieOf t) (t % 64) o.pk (o.owner.on t)) fun b a => State.enterFlow_mem _ _ _ _ _ _]
  rw [State.releaseItems_mem, State.setCredits_mem]
  refine State.applyRetlog_wf _ _ ?_
  rw [State.setTile_mem, State.moveNames_mem, State.l1Clear_mem]
  split <;> simp [hw]

theorem execSheafRestoreDone_wf {t : Nat} {s : State} (hw : cellsWf s.mem = true) {ρ} (he : execSheafRestoreDone t s = .next ρ) :
    cellsWf ρ.mem = true := by
  unfold execSheafRestoreDone at he; (try dsimp only at he); (repeat' split at he) <;> (first | (cases he; done) | (cases he; first | assumption | (simp [hw]; done) | (simp [*, foldl_wfS, foldl_wfP, foldl_memS, foldl_memP]; done) | ((repeat' (first | assumption | (with_reducible refine foldl_wfS ?_ (fun b a hb => ?_)) | (with_reducible refine foldl_wfP ?_ (fun b a hb => ?_)) | ((simp [*]; done)) | split | simp)); done)))

theorem execDebugResume_wf {t : Nat} {us : List Nat} {s : State} (hw : cellsWf s.mem = true) {ρ} (he : execDebugResume t us s = .next ρ) :
    cellsWf ρ.mem = true := by
  unfold execDebugResume at he; (try dsimp only at he); (repeat' split at he) <;> (first | (cases he; done) | (cases he; first | assumption | (simp [hw]; done) | (simp [*, foldl_wfS, foldl_wfP, foldl_memS, foldl_memP]; done) | ((repeat' (first | assumption | (with_reducible refine foldl_wfS ?_ (fun b a hb => ?_)) | (with_reducible refine foldl_wfP ?_ (fun b a hb => ?_)) | ((simp [*]; done)) | split | simp)); done)))

theorem execDebugSaveRequest_wf {t : Nat} {s : State} (hw : cellsWf s.mem = true) {ρ} (he : execDebugSaveRequest t s = .next ρ) :
    cellsWf ρ.mem = true := by
  unfold execDebugSaveRequest at he; dsimp only at he; (repeat' split at he) <;> first | (cases he; exact hw)

theorem execDebugScanAccess_wf {t : Nat} {a : ScanAccess} {s : State} (hw : cellsWf s.mem = true) {ρ} (he : execDebugScanAccess t a s = .next ρ) :
    cellsWf ρ.mem = true := by
  unfold execDebugScanAccess at he; dsimp only at he; (repeat' split at he) <;> first | (cases he; exact hw)

@[simp] theorem fetch_mem (s : State) (I : Issuer) :
    (fetch s I).1.mem = s.mem := by
  unfold fetch; dsimp only; (repeat' split) <;> first | rfl | simp

@[simp] theorem State.noteBudget_mem (s : State) (I : Issuer) :
    (State.noteBudget s I).mem = s.mem := by
  unfold State.noteBudget; dsimp only; (repeat' split) <;> rfl

@[simp] theorem State.noteCorrected_mem (s : State) (I : Issuer) :
    (State.noteCorrected s I).mem = s.mem := by
  unfold State.noteCorrected; dsimp only; (repeat' split) <;> first | rfl | simp

@[simp] theorem State.noteBreakpoint_mem (s : State) (I : Issuer) :
    (State.noteBreakpoint s I).mem = s.mem := by
  unfold State.noteBreakpoint; (repeat' split) <;> rfl

@[simp] theorem State.takeReport_wf (s : State) (t u : Nat) (r : Report) (imprecise : Bool) (hw : cellsWf s.mem = true) :
    cellsWf (State.takeReport s t u r imprecise).mem = true := by
  unfold State.takeReport; split <;> simp [hw]

@[simp] theorem State.takeImprecise_wf (s : State) (t u : Nat) (I : Issuer) (hw : cellsWf s.mem = true) :
    cellsWf (State.takeImprecise s t u I).mem = true := by
  unfold State.takeImprecise; split <;> simp [hw]

@[simp] theorem fetchNext_mem (s : State) (I : Issuer) :
    (fetchNext s I).1.mem = s.mem := by
  first
  | rfl
  | (unfold fetchNext; (try dsimp only); (repeat' split) <;> ((try have q0 := (mem_of_pair ‹fetch _ _ = (_, _)›).trans (fetch_mem _ _)); first | rfl | (simp [*, foldl_memS, foldl_memP]; done) | ((first | refine foldl_memS (fun b a => ?_) | refine foldl_memP (fun b a => ?_)); (try dsimp only); (repeat' split) <;> ((try have q0 := (mem_of_pair ‹fetch _ _ = (_, _)›).trans (fetch_mem _ _)); first | rfl | (simp [*]; done))) | ((repeat' (first | rfl | (simp [*]; done) | (with_reducible refine (foldl_memS (fun b a => ?_)).trans ?_) | (with_reducible refine (foldl_memP (fun b a => ?_)).trans ?_) | split)); done)))

theorem front_wf {s : State} {I : Issuer} (hw : cellsWf s.mem = true) {F : Front} (he : front s I = F) :
    match F with | .trapped ρ => cellsWf ρ.mem = true | .wait ρ => cellsWf ρ.mem = true | .run ρ _ => cellsWf ρ.mem = true := by
  unfold front at he
  split at he
  · subst he; simp [hw]
  · extract_lets s1 s2 s3 at he
    have h3 : cellsWf s3.mem = true := by
      simp only [s3, s2, s1]
      (repeat' split) <;> simp [hw]
    clear_value s3
    split at he
    · subst he; exact h3
    · next I' _ =>
      have h4 : cellsWf (fetchNext s3 I').1.mem = true := by simp [h3]
      dsimp only at he
      split at he
      · subst he; exact h4
      split at he
      · subst he; exact State.takeReport_wf _ _ _ _ _ h4
      · split at he
        · subst he; exact h4
        · subst he; exact h4
        · split at he
          · next h => subst he; exact trapAt_wf h4 h
          · subst he; exact h4
        · split at he
          · next h => subst he; exact trapWhole_wf h4 h
          · subst he; exact h4

@[simp] theorem State.beginIssue_mem (s : State) (t u : Nat) :
    (State.beginIssue s t u).mem = s.mem := by
  unfold State.beginIssue; (repeat' split) <;> simp

@[simp] theorem State.moveRetry_mem (s : State) (src t g : Nat) (G : Gang) (grid : Nat) :
    (State.moveRetry s src t g G grid).mem = s.mem := by
  unfold State.moveRetry; (try dsimp only); (repeat' split) <;> (first | rfl | (simp [*, foldl_memS, foldl_memP]; done) | ((repeat' (first | rfl | ((simp [*]; done)) | (with_reducible refine (foldl_memS (fun b a => ?_)).trans ?_) | (with_reducible refine (foldl_memP (fun b a => ?_)).trans ?_) | split | simp)); done))

@[simp] theorem State.openRetryBin_mem (s : State) (t g : Nat) (G : Gang) (B : Block) :
    (State.openRetryBin s t g G B).mem = s.mem := by
  unfold State.openRetryBin; (try dsimp only); (repeat' split) <;> (first | rfl | (simp [*, foldl_memS, foldl_memP]; done) | ((repeat' (first | rfl | ((simp [*]; done)) | (with_reducible refine (foldl_memS (fun b a => ?_)).trans ?_) | (with_reducible refine (foldl_memP (fun b a => ?_)).trans ?_) | split | simp)); done))

@[simp] theorem State.binAgain_mem (s : State) (t g : Nat) :
    (State.binAgain s t g).mem = s.mem := by
  unfold State.binAgain; (try dsimp only); (repeat' split) <;> (first | rfl | (simp [*, foldl_memS, foldl_memP]; done) | ((repeat' (first | rfl | ((simp [*]; done)) | (with_reducible refine (foldl_memS (fun b a => ?_)).trans ?_) | (with_reducible refine (foldl_memP (fun b a => ?_)).trans ?_) | split | simp)); done))

@[simp] theorem State.settleBins_mem (s : State) (t : Nat) :
    (State.settleBins s t).mem = s.mem := by
  unfold State.settleBins; (try dsimp only); (repeat' split) <;> (first | rfl | (simp [*, foldl_memS, foldl_memP]; done) | ((repeat' (first | rfl | ((simp [*]; done)) | (with_reducible refine (foldl_memS (fun b a => ?_)).trans ?_) | (with_reducible refine (foldl_memP (fun b a => ?_)).trans ?_) | split | simp)); done))

@[simp] theorem State.endIssue_wf (s : State) (t u : Nat) (hw : cellsWf s.mem = true) :
    cellsWf (State.endIssue s t u).mem = true := by
  unfold State.endIssue; (try dsimp only); (repeat' split) <;> (first | assumption | (simp [hw]; done) | (simp [*, foldl_wfS, foldl_wfP, foldl_memS, foldl_memP]; done) | ((repeat' (first | assumption | (with_reducible refine foldl_wfS ?_ (fun b a hb => ?_)) | (with_reducible refine foldl_wfP ?_ (fun b a hb => ?_)) | ((simp [*]; done)) | split | simp)); done))

@[simp] theorem State.finishIssue_wf (s : State) (t u : Nat) (kind : GangKind) (n : Nat) (asked : Bool) (hw : cellsWf s.mem = true) :
    cellsWf (State.finishIssue s t u kind n asked).mem = true := by
  unfold State.finishIssue; (try dsimp only); (repeat' split) <;> (first | assumption | (simp [hw]; done) | (simp [*, foldl_wfS, foldl_wfP, foldl_memS, foldl_memP]; done) | ((repeat' (first | assumption | (with_reducible refine foldl_wfS ?_ (fun b a hb => ?_)) | (with_reducible refine foldl_wfP ?_ (fun b a hb => ?_)) | ((simp [*]; done)) | split | simp)); done))

@[simp] theorem State.toHost_mem (s : State) (x : HostGot) : (State.toHost s x).mem = s.mem := rfl

@[simp] theorem State.endFunction_mem (s : State) (v : Nat) :
    (State.endFunction s v).mem = s.mem := by
  first
  | rfl
  | (unfold State.endFunction; (try dsimp only); (repeat' split) <;> (first | rfl | (simp [*, foldl_memS, foldl_memP]; done) | ((first | refine foldl_memS (fun b a => ?_) | refine foldl_memP (fun b a => ?_)); (try dsimp only); (repeat' split) <;> (first | rfl | (simp [*]; done))) | ((repeat' (first | rfl | (simp [*]; done) | (with_reducible refine (foldl_memS (fun b a => ?_)).trans ?_) | (with_reducible refine (foldl_memP (fun b a => ?_)).trans ?_) | split)); done)))

@[simp] theorem State.tdError_mem (s : State) (v : Nat) :
    (State.tdError s v).mem = s.mem := by
  unfold State.tdError; simp

theorem tdispError_wf {v : Nat} {s : State} (hw : cellsWf s.mem = true) {ρ} (he : tdispError v s = .next ρ) :
    cellsWf ρ.mem = true := by
  unfold tdispError at he; (try dsimp only at he); (repeat' split at he) <;> (first | (cases he; done) | (cases he; first | assumption | (simp [hw]; done) | (simp [*, foldl_wfS, foldl_wfP, foldl_memS, foldl_memP]; done) | ((repeat' (first | assumption | (with_reducible refine foldl_wfS ?_ (fun b a hb => ?_)) | (with_reducible refine foldl_wfP ?_ (fun b a hb => ?_)) | ((simp [*]; done)) | split | simp)); done)))

theorem tdUnsupported_wf {v : Nat} {s : State} (hw : cellsWf s.mem = true) {ρ} (he : tdUnsupported v s = .next ρ) :
    cellsWf ρ.mem = true := by
  unfold tdUnsupported at he; (try dsimp only at he); (repeat' split at he) <;> (first | (cases he; done) | (cases he; first | assumption | (simp [hw]; done) | (simp [*, foldl_wfS, foldl_wfP, foldl_memS, foldl_memP]; done) | ((repeat' (first | assumption | (with_reducible refine foldl_wfS ?_ (fun b a hb => ?_)) | (with_reducible refine foldl_wfP ?_ (fun b a hb => ?_)) | ((simp [*]; done)) | split | simp)); done)))

theorem execLockInterfaceRequest_wf {v : Nat} {keyed : Bool} {s : State} (hw : cellsWf s.mem = true) {ρ} (he : execLockInterfaceRequest v keyed s = .next ρ) :
    cellsWf ρ.mem = true := by
  unfold execLockInterfaceRequest at he; (try dsimp only at he); (repeat' split at he) <;> (first | (cases he; done) | with_reducible exact tdispError_wf (by first | assumption | (simp [*]; done)) he | with_reducible exact tdUnsupported_wf (by first | assumption | (simp [*]; done)) he | (cases he; first | assumption | (simp [hw]; done) | (simp [*, foldl_wfS, foldl_wfP, foldl_memS, foldl_memP]; done) | ((repeat' (first | assumption | (with_reducible refine foldl_wfS ?_ (fun b a hb => ?_)) | (with_reducible refine foldl_wfP ?_ (fun b a hb => ?_)) | ((simp [*]; done)) | split | simp)); done)))

theorem execGetDeviceInterfaceReport_wf {v : Nat} {s : State} (hw : cellsWf s.mem = true) {ρ} (he : execGetDeviceInterfaceReport v s = .next ρ) :
    cellsWf ρ.mem = true := by
  unfold execGetDeviceInterfaceReport at he; (try dsimp only at he); (repeat' split at he) <;> (first | (cases he; done) | with_reducible exact tdispError_wf (by first | assumption | (simp [*]; done)) he | with_reducible exact tdUnsupported_wf (by first | assumption | (simp [*]; done)) he | (cases he; first | assumption | (simp [hw]; done) | (simp [*, foldl_wfS, foldl_wfP, foldl_memS, foldl_memP]; done) | ((repeat' (first | assumption | (with_reducible refine foldl_wfS ?_ (fun b a hb => ?_)) | (with_reducible refine foldl_wfP ?_ (fun b a hb => ?_)) | ((simp [*]; done)) | split | simp)); done)))

theorem execStartInterfaceRequest_wf {v : Nat} {s : State} (hw : cellsWf s.mem = true) {ρ} (he : execStartInterfaceRequest v s = .next ρ) :
    cellsWf ρ.mem = true := by
  unfold execStartInterfaceRequest at he; (try dsimp only at he); (repeat' split at he) <;> (first | (cases he; done) | with_reducible exact tdispError_wf (by first | assumption | (simp [*]; done)) he | with_reducible exact tdUnsupported_wf (by first | assumption | (simp [*]; done)) he | (cases he; first | assumption | (simp [hw]; done) | (simp [*, foldl_wfS, foldl_wfP, foldl_memS, foldl_memP]; done) | ((repeat' (first | assumption | (with_reducible refine foldl_wfS ?_ (fun b a hb => ?_)) | (with_reducible refine foldl_wfP ?_ (fun b a hb => ?_)) | ((simp [*]; done)) | split | simp)); done)))

theorem execStopInterfaceRequest_wf {v : Nat} {s : State} (hw : cellsWf s.mem = true) {ρ} (he : execStopInterfaceRequest v s = .next ρ) :
    cellsWf ρ.mem = true := by
  unfold execStopInterfaceRequest at he; (repeat' split at he) <;> first | (cases he; simp [hw])

theorem execStopScrubDone_wf {v : Nat} {s : State} (hw : cellsWf s.mem = true) {ρ} (he : execStopScrubDone v s = .next ρ) :
    cellsWf ρ.mem = true := by
  unfold execStopScrubDone at he; dsimp only at he; (repeat' split at he) <;> first | (cases he; exact hw)

theorem execLockedRegisterWrite_wf {v : Nat} {r : LockedReg} {x : BitVec 128} {s : State} (hw : cellsWf s.mem = true) {ρ} (he : execLockedRegisterWrite v r x s = .next ρ) :
    cellsWf ρ.mem = true := by
  unfold execLockedRegisterWrite at he; dsimp only at he; (repeat' split at he) <;> first | (cases he; simp [hw])

theorem execIdeIntegrityFailure_wf {v : Nat} {s : State} (hw : cellsWf s.mem = true) {ρ} (he : execIdeIntegrityFailure v s = .next ρ) :
    cellsWf ρ.mem = true := by
  unfold execIdeIntegrityFailure at he; (repeat' split at he) <;> first | (cases he; simp [hw])

theorem execLaunchRecordWrite_wf {v w off : Nat} {data : List Byte} {ide : Bool} {s : State} (hw : cellsWf s.mem = true) {ρ} (he : execLaunchRecordWrite v w off data ide s = .next ρ) :
    cellsWf ρ.mem = true := by
  unfold execLaunchRecordWrite at he; (try dsimp only at he); (repeat' split at he) <;> (first | (cases he; done) | with_reducible exact tdispError_wf (by first | assumption | (simp [*]; done)) he | with_reducible exact tdUnsupported_wf (by first | assumption | (simp [*]; done)) he | (cases he; first | assumption | (simp [hw]; done) | (simp [*, foldl_wfS, foldl_wfP, foldl_memS, foldl_memP]; done) | ((repeat' (first | assumption | (with_reducible refine foldl_wfS ?_ (fun b a hb => ?_)) | (with_reducible refine foldl_wfP ?_ (fun b a hb => ?_)) | ((simp [*]; done)) | split | simp)); done)))

theorem execLwcfgWrite_wf {v w : Nat} {x : Word} {s : State} (hw : cellsWf s.mem = true) {ρ} (he : execLwcfgWrite v w x s = .next ρ) :
    cellsWf ρ.mem = true := by
  unfold execLwcfgWrite at he; (try dsimp only at he); (repeat' split at he) <;> (first | (cases he; done) | with_reducible exact tdispError_wf (by first | assumption | (simp [*]; done)) he | with_reducible exact tdUnsupported_wf (by first | assumption | (simp [*]; done)) he | (cases he; first | assumption | (simp [hw]; done) | (simp [*, foldl_wfS, foldl_wfP, foldl_memS, foldl_memP]; done) | ((repeat' (first | assumption | (with_reducible refine foldl_wfS ?_ (fun b a hb => ?_)) | (with_reducible refine foldl_wfP ?_ (fun b a hb => ?_)) | ((simp [*]; done)) | split | simp)); done)))

theorem execSystemRegisterWrite_wf {w : RegWrite} {s : State} (hw : cellsWf s.mem = true) {ρ} (he : execSystemRegisterWrite w s = .next ρ) :
    cellsWf ρ.mem = true := by
  unfold execSystemRegisterWrite at he; (repeat' split at he) <;> first | (cases he; simp [hw])

theorem execTepcWrite_wf {t u : Nat} {x : Word} {s : State} (hw : cellsWf s.mem = true) {ρ} (he : execTepcWrite t u x s = .next ρ) :
    cellsWf ρ.mem = true := by
  unfold execTepcWrite at he; (repeat' split at he) <;> first | (cases he; exact hw)

theorem execShdiscWrite_wf {p slot : Nat} {s : State} (hw : cellsWf s.mem = true) {ρ} (he : execShdiscWrite p slot s = .next ρ) :
    cellsWf ρ.mem = true := by
  unfold execShdiscWrite at he; (repeat' split at he) <;> first | (cases he; simp [hw])

theorem execSkreqReel_wf {p : Nat} {desc : Word} {s : State} (hw : cellsWf s.mem = true) {ρ} (he : execSkreqReel p desc s = .next ρ) :
    cellsWf ρ.mem = true := by
  unfold execSkreqReel at he; (repeat' split at he) <;> first | (cases he; simp [hw])

theorem execSkreqUnreel_wf {p : Nat} {desc : Word} {s : State} (hw : cellsWf s.mem = true) {ρ} (he : execSkreqUnreel p desc s = .next ρ) :
    cellsWf ρ.mem = true := by
  unfold execSkreqUnreel at he; (repeat' split at he) <;> first | (cases he; simp [hw])

theorem execSkreqExport_wf {p : Nat} {desc : Word} {s : State} (hw : cellsWf s.mem = true) {ρ} (he : execSkreqExport p desc s = .next ρ) :
    cellsWf ρ.mem = true := by
  unfold execSkreqExport at he; (repeat' split at he) <;> first | (cases he; simp [hw])

theorem execTlbinvWrite_wf {p : Nat} {x : Word} {s : State} (hw : cellsWf s.mem = true) {ρ} (he : execTlbinvWrite p x s = .next ρ) :
    cellsWf ρ.mem = true := by
  unfold execTlbinvWrite at he; (repeat' split at he) <;> first | (cases he; simp [hw])

theorem execHtlbinvWrite_wf {v : Nat} {x : Word} {s : State} (hw : cellsWf s.mem = true) {ρ} (he : execHtlbinvWrite v x s = .next ρ) :
    cellsWf ρ.mem = true := by
  unfold execHtlbinvWrite at he; (repeat' split at he) <;> first | (cases he; exact hw)

theorem execTlbinvComplete_wf {p : Nat} {s : State} (hw : cellsWf s.mem = true) {ρ} (he : execTlbinvComplete p s = .next ρ) :
    cellsWf ρ.mem = true := by
  unfold execTlbinvComplete at he; cases he; simp [hw]

theorem execTranslationWalk_wf {t v : Nat} {va : Word} {s : State} (hw : cellsWf s.mem = true) {ρ} (he : execTranslationWalk t v va s = .next ρ) :
    cellsWf ρ.mem = true := by
  unfold execTranslationWalk at he; (repeat' split at he) <;> first | (cases he; simp [hw])

theorem execWorldMoveRequest_wf {g : Nat} {secure : Bool} {s : State} (hw : cellsWf s.mem = true) {ρ} (he : execWorldMoveRequest g secure s = .next ρ) :
    cellsWf ρ.mem = true := by
  unfold execWorldMoveRequest at he; (repeat' split at he) <;> first | (cases he; exact hw)

@[simp] theorem State.zeroGranule_wf (s : State) (g : Nat) (hw : cellsWf s.mem = true) : cellsWf (s.zeroGranule g).mem = true := by
  unfold State.zeroGranule
  exact filter_wf _ hw

theorem execWorldMoveComplete_wf {g : Nat} {s : State} (hw : cellsWf s.mem = true) {ρ} (he : execWorldMoveComplete g s = .next ρ) :
    cellsWf ρ.mem = true := by
  unfold execWorldMoveComplete at he; (repeat' split at he) <;> first | (cases he; simp [hw])

theorem execBinTimerExpiry_wf {t b : Nat} {s : State} (hw : cellsWf s.mem = true) {ρ} (he : execBinTimerExpiry t b s = .next ρ) :
    cellsWf ρ.mem = true := by
  unfold execBinTimerExpiry at he; dsimp only at he; (repeat' split at he) <;> first | (cases he; exact hw)

theorem execBinFormGang_wf {t b : Nat} {s : State} (hw : cellsWf s.mem = true) {ρ} (he : execBinFormGang t b s = .next ρ) :
    cellsWf ρ.mem = true := by
  unfold execBinFormGang at he; dsimp only at he; (repeat' split at he) <;> first | (cases he; simp [hw])

theorem execBinStoreDeadlock_wf {t : Nat} {s : State} (hw : cellsWf s.mem = true) {ρ} (he : execBinStoreDeadlock t s = .next ρ) :
    cellsWf ρ.mem = true := by
  unfold execBinStoreDeadlock at he; (try dsimp only at he); (repeat' split at he) <;> ((try have q0 := (mem_of_pair ‹fetchNext _ _ = (_, _)›).trans (fetchNext_mem _ _)); first | with_reducible exact trapAt_wf (by first | assumption | (simp [*]; done)) he | with_reducible exact trapWhole_wf (by first | assumption | (simp [*]; done)) he | (cases he; done) | (cases he; first | assumption | (simp [hw]; done) | (simp [*, foldl_wfS, foldl_wfP, foldl_memS, foldl_memP]; done) | ((repeat' (first | assumption | (with_reducible refine foldl_wfS ?_ (fun b a hb => ?_)) | (with_reducible refine foldl_wfP ?_ (fun b a hb => ?_)) | (simp [*]; done) | ((try have q0 := (mem_of_pair ‹fetchNext _ _ = (_, _)›).trans (fetchNext_mem _ _)); simp [*]; done) | split)); done)))

theorem execMonitorWatchFire_wf {t run : Nat} {s : State} (hw : cellsWf s.mem = true) {ρ} (he : execMonitorWatchFire t run s = .next ρ) :
    cellsWf ρ.mem = true := by
  unfold execMonitorWatchFire at he; dsimp only at he; (repeat' split at he) <;> first | (cases he; simp [hw])

theorem execMonitorPoll_wf {t run : Nat} {s : State} (hw : cellsWf s.mem = true) {ρ} (he : execMonitorPoll t run s = .next ρ) :
    cellsWf ρ.mem = true := by
  unfold execMonitorPoll at he; dsimp only at he; (repeat' split at he) <;> first | (cases he; simp [hw])

theorem execSuspendDelayExpiry_wf {t run : Nat} {s : State} (hw : cellsWf s.mem = true) {ρ} (he : execSuspendDelayExpiry t run s = .next ρ) :
    cellsWf ρ.mem = true := by
  unfold execSuspendDelayExpiry at he; dsimp only at he; (repeat' split at he) <;> first | (cases he; simp [hw])

theorem execLogEntryComplete_wf {t u sl slot : Nat} {s : State} (hw : cellsWf s.mem = true) {ρ} (he : execLogEntryComplete t u sl slot s = .next ρ) :
    cellsWf ρ.mem = true := by
  unfold execLogEntryComplete at he; (repeat' split at he) <;> first | (cases he; simp [hw])

theorem execTrapEntry_wf {t u : Nat} {s : State} (hw : cellsWf s.mem = true) {ρ} (he : execTrapEntry t u s = .next ρ) :
    cellsWf ρ.mem = true := by
  unfold execTrapEntry at he
  dsimp only at he
  (repeat' split at he) <;> first | (cases he; exact hw) | skip
  · cases he; simp [hw]
  · next h =>
    cases he
    have := front_wf (by simp [hw]) h
    exact State.endIssue_wf _ _ _ this

theorem execImpreciseReportTaken_wf {t u : Nat} {s : State} (hw : cellsWf s.mem = true) {ρ} (he : execImpreciseReportTaken t u s = .next ρ) :
    cellsWf ρ.mem = true := by
  unfold execImpreciseReportTaken at he; (repeat' split at he) <;> first | (cases he; simp [hw])

theorem execStrandOpApply_wf {home k : Nat} {s : State} (hw : cellsWf s.mem = true) {ρ} (he : execStrandOpApply home k s = .next ρ) :
    cellsWf ρ.mem = true := by
  unfold execStrandOpApply at he; (repeat' split at he) <;> first | (cases he; simp [hw])

theorem execStrandResponse_wf {k : Nat} {s : State} (hw : cellsWf s.mem = true) {ρ} (he : execStrandResponse k s = .next ρ) :
    cellsWf ρ.mem = true := by
  unfold execStrandResponse at he; (try dsimp only at he); (repeat' split at he) <;> (first | (cases he; done) | (cases he; first | assumption | (simp [hw]; done) | (simp [*, foldl_wfS, foldl_wfP, foldl_memS, foldl_memP]; done) | ((repeat' (first | assumption | (with_reducible refine foldl_wfS ?_ (fun b a hb => ?_)) | (with_reducible refine foldl_wfP ?_ (fun b a hb => ?_)) | (with_reducible apply State.deliver_wf) | (simp [*]; done) | (simp [*]; done) | split)); done)))

@[simp] theorem State.rebin_mem (s : State) (t g : Nat) (st : RState) (attempts : Nat) :
    (State.rebin s t g st attempts).mem = s.mem := by
  unfold State.rebin; (try dsimp only); (repeat' split) <;> (first | rfl | (simp [*, foldl_memS, foldl_memP]; done) | ((repeat' (first | rfl | ((simp [*]; done)) | (with_reducible refine (foldl_memS (fun b a => ?_)).trans ?_) | (with_reducible refine (foldl_memP (fun b a => ?_)).trans ?_) | split | simp)); done))

@[simp] theorem State.fence_wf (s : State) (t : Nat) (hw : cellsWf s.mem = true) :
    cellsWf (State.fence s t).mem = true := by
  unfold State.fence; (try dsimp only); (repeat' split) <;> (first | assumption | (simp [hw]; done) | (simp [*, foldl_wfS, foldl_wfP, foldl_memS, foldl_memP]; done) | ((repeat' (first | assumption | (with_reducible refine foldl_wfS ?_ (fun b a hb => ?_)) | (with_reducible refine foldl_wfP ?_ (fun b a hb => ?_)) | ((simp [*]; done)) | split | simp)); done))

@[simp] theorem State.stateTrap_wf (s : State) (t g : Nat) (code : Byte) (hw : cellsWf s.mem = true) :
    cellsWf (State.stateTrap s t g code).mem = true := by
  unfold State.stateTrap; (try dsimp only); (repeat' split) <;> (first | assumption | (simp [hw]; done) | (simp [*, foldl_wfS, foldl_wfP, foldl_memS, foldl_memP]; done) | ((repeat' (first | assumption | (with_reducible refine foldl_wfS ?_ (fun b a hb => ?_)) | (with_reducible refine foldl_wfP ?_ (fun b a hb => ?_)) | ((simp [*]; done)) | split | simp)); done))

theorem execTileStateError_wf {t g : Nat} {code : BitVec 8} {s : State} (hw : cellsWf s.mem = true) {ρ} (he : execTileStateError t g code s = .next ρ) :
    cellsWf ρ.mem = true := by
  unfold execTileStateError at he; (try dsimp only at he); (repeat' split at he) <;> (first | (cases he; done) | (cases he; first | assumption | (simp [hw]; done) | (simp [*, foldl_wfS, foldl_wfP, foldl_memS, foldl_memP]; done) | ((repeat' (first | assumption | (with_reducible refine foldl_wfS ?_ (fun b a hb => ?_)) | (with_reducible refine foldl_wfP ?_ (fun b a hb => ?_)) | ((simp [*]; done)) | split | simp)); done)))

@[simp] theorem State.poisonLineAt_mem (s : State) (pa : Nat) :
    (State.poisonLineAt s pa).mem = s.mem := by
  unfold State.poisonLineAt; dsimp only; (repeat' split) <;> rfl

theorem execDataError_wf {e : DataErr} {s : State} (hw : cellsWf s.mem = true) {ρ} (he : execDataError e s = .next ρ) :
    cellsWf ρ.mem = true := by
  unfold execDataError at he; dsimp only at he; (repeat' split at he) <;> first | (cases he; simp [hw])

theorem execCorrectedError_wf {w : ErrPlace} {s : State} (hw : cellsWf s.mem = true) {ρ} (he : execCorrectedError w s = .next ρ) :
    cellsWf ρ.mem = true := by
  unfold execCorrectedError at he; dsimp only at he; (repeat' split at he) <;> first | (cases he; exact hw)

theorem execPatrolScrub_wf {line : Nat} {found : ScrubFind} {s : State} (hw : cellsWf s.mem = true) {ρ} (he : execPatrolScrub line found s = .next ρ) :
    cellsWf ρ.mem = true := by
  unfold execPatrolScrub at he; (repeat' split at he) <;> first | (cases he; simp [hw])

theorem execShuf_wf {d : LDst} {a b : Opnd} {s : State} (hw : cellsWf s.mem = true) {ρ} (he : execShuf d a b s = .next ρ) :
    cellsWf ρ.mem = true := by
  unfold execShuf at he; exact laneResult_wf hw he

theorem execBcast_wf {d : LDst} {a b : Opnd} {s : State} (hw : cellsWf s.mem = true) {ρ} (he : execBcast d a b s = .next ρ) :
    cellsWf ρ.mem = true := by
  unfold execBcast at he; exact laneResult_wf hw he

theorem execLpush_wf {d : LDst} {a b : Opnd} {s : State} (hw : cellsWf s.mem = true) {ρ} (he : execLpush d a b s = .next ρ) :
    cellsWf ρ.mem = true := by
  unfold execLpush at he; exact laneResult_wf hw he

theorem execLscan_wf {d : LDst} {a : Opnd} {ex : Bool} {op : ScanOp} {s : State} (hw : cellsWf s.mem = true) {ρ} (he : execLscan d a ex op s = .next ρ) :
    cellsWf ρ.mem = true := by
  unfold execLscan at he; exact laneResult_wf hw he

theorem execFscan_wf {d : LDst} {a : Opnd} {ex : Bool} {op : FScanOp} {s : State} (hw : cellsWf s.mem = true) {ρ} (he : execFscan d a ex op s = .next ρ) :
    cellsWf ρ.mem = true := by
  unfold execFscan at he; exact laneResult_wf hw he

theorem execLred_wf {d : LDst} {a : Opnd} {op : RedOp} {s : State} (hw : cellsWf s.mem = true) {ρ} (he : execLred d a op s = .next ρ) :
    cellsWf ρ.mem = true := by
  unfold execLred at he; exact laneResult_wf hw he

theorem execVote_wf {pd : BitVec 3} {m : VoteMode} {px : BitVec 3} {s : State} (hw : cellsWf s.mem = true) {ρ} (he : execVote pd m px s = .next ρ) :
    cellsWf ρ.mem = true := by
  unfold execVote at he; exact lanePred_wf hw he

theorem execPrefpop_wf {d : LDst} {a : Opnd} {inc : Bool} {s : State} (hw : cellsWf s.mem = true) {ρ} (he : execPrefpop d a inc s = .next ρ) :
    cellsWf ρ.mem = true := by
  unfold execPrefpop at he; exact laneResult_wf hw he

theorem execDxpack_wf {d : LDst} {a : Opnd} {half : Bool} {fmt : DxFmt} {s : State} (hw : cellsWf s.mem = true) {ρ} (he : execDxpack d a half fmt s = .next ρ) :
    cellsWf ρ.mem = true := by
  unfold execDxpack at he; exact laneResult_wf hw he

theorem execDxexp_wf {d : LDst} {a : Opnd} {fmt : DxFmt} {s : State} (hw : cellsWf s.mem = true) {ρ} (he : execDxexp d a fmt s = .next ρ) :
    cellsWf ρ.mem = true := by
  unfold execDxexp at he; exact laneResult_wf hw he

theorem execDxunpk_wf {d : LDst} {a : Opnd} {half : Bool} {fmt : DxFmt} {s : State} (hw : cellsWf s.mem = true) {ρ} (he : execDxunpk d a half fmt s = .next ρ) :
    cellsWf ρ.mem = true := by
  unfold execDxunpk at he; exact laneResult_wf hw he

theorem execRng_wf {d : LDst} {a b : Opnd} {s : State} (hw : cellsWf s.mem = true) {ρ} (he : execRng d a b s = .next ρ) :
    cellsWf ρ.mem = true := by
  unfold execRng at he; exact laneResult_wf hw he

theorem execFadd_wf {d : LDst} {a b : Opnd} {s : State} (hw : cellsWf s.mem = true) {ρ} (he : execFadd d a b s = .next ρ) :
    cellsWf ρ.mem = true := by
  unfold execFadd at he; exact laneFlt2_wf hw he

theorem execFsub_wf {d : LDst} {a b : Opnd} {s : State} (hw : cellsWf s.mem = true) {ρ} (he : execFsub d a b s = .next ρ) :
    cellsWf ρ.mem = true := by
  unfold execFsub at he; exact laneFlt2_wf hw he

theorem execFmul_wf {d : LDst} {a b : Opnd} {s : State} (hw : cellsWf s.mem = true) {ρ} (he : execFmul d a b s = .next ρ) :
    cellsWf ρ.mem = true := by
  unfold execFmul at he; exact laneFlt2_wf hw he

theorem execFmin_wf {d : LDst} {a b : Opnd} {s : State} (hw : cellsWf s.mem = true) {ρ} (he : execFmin d a b s = .next ρ) :
    cellsWf ρ.mem = true := by
  unfold execFmin at he; exact laneFlt2_wf hw he

theorem execFmax_wf {d : LDst} {a b : Opnd} {s : State} (hw : cellsWf s.mem = true) {ρ} (he : execFmax d a b s = .next ρ) :
    cellsWf ρ.mem = true := by
  unfold execFmax at he; exact laneFlt2_wf hw he

theorem execFma_wf {d : LDst} {a b : Opnd} {s : State} (hw : cellsWf s.mem = true) {ρ} (he : execFma d a b s = .next ρ) :
    cellsWf ρ.mem = true := by
  unfold execFma at he; exact laneResult_wf hw he

theorem execFscl_wf {d : LDst} {a b : Opnd} {s : State} (hw : cellsWf s.mem = true) {ρ} (he : execFscl d a b s = .next ρ) :
    cellsWf ρ.mem = true := by
  unfold execFscl at he; exact laneResult_wf hw he

theorem execFcmp_wf {pd : BitVec 3} {m : Comb} {c : FCond} {a b : Opnd} {s : State} (hw : cellsWf s.mem = true) {ρ} (he : execFcmp pd m c a b s = .next ρ) :
    cellsWf ρ.mem = true := by
  unfold execFcmp at he; exact lanePred_wf hw he

theorem execFclass_wf {pd : BitVec 3} {m : Comb} {a b : Opnd} {s : State} (hw : cellsWf s.mem = true) {ρ} (he : execFclass pd m a b s = .next ρ) :
    cellsWf ρ.mem = true := by
  unfold execFclass at he; exact lanePred_wf hw he

theorem execFrnd_wf {d : LDst} {a : Opnd} {rm : Rm} {s : State} (hw : cellsWf s.mem = true) {ρ} (he : execFrnd d a rm s = .next ρ) :
    cellsWf ρ.mem = true := by
  unfold execFrnd at he; exact laneFlt1_wf hw he

theorem execCvt_wf {d : LDst} {a : Opnd} {rm : Rm} {src dst : NTy} {s : State} (hw : cellsWf s.mem = true) {ρ} (he : execCvt d a rm src dst s = .next ρ) :
    cellsWf ρ.mem = true := by
  unfold execCvt at he; exact laneResult_wf hw he

theorem execRcp_wf {d : LDst} {a : Opnd} {s : State} (hw : cellsWf s.mem = true) {ρ} (he : execRcp d a s = .next ρ) :
    cellsWf ρ.mem = true := by
  unfold execRcp at he; exact laneFlt1_wf hw he

theorem execRsq_wf {d : LDst} {a : Opnd} {s : State} (hw : cellsWf s.mem = true) {ρ} (he : execRsq d a s = .next ρ) :
    cellsWf ρ.mem = true := by
  unfold execRsq at he; exact laneFlt1_wf hw he

theorem execSqrt_wf {d : LDst} {a : Opnd} {s : State} (hw : cellsWf s.mem = true) {ρ} (he : execSqrt d a s = .next ρ) :
    cellsWf ρ.mem = true := by
  unfold execSqrt at he; exact laneFlt1_wf hw he

theorem execExp2_wf {d : LDst} {a : Opnd} {s : State} (hw : cellsWf s.mem = true) {ρ} (he : execExp2 d a s = .next ρ) :
    cellsWf ρ.mem = true := by
  unfold execExp2 at he; exact laneFlt1_wf hw he

theorem execLog2_wf {d : LDst} {a : Opnd} {s : State} (hw : cellsWf s.mem = true) {ρ} (he : execLog2 d a s = .next ρ) :
    cellsWf ρ.mem = true := by
  unfold execLog2 at he; exact laneFlt1_wf hw he

theorem execSin_wf {d : LDst} {a : Opnd} {s : State} (hw : cellsWf s.mem = true) {ρ} (he : execSin d a s = .next ρ) :
    cellsWf ρ.mem = true := by
  unfold execSin at he; exact laneFlt1_wf hw he

theorem execCos_wf {d : LDst} {a : Opnd} {s : State} (hw : cellsWf s.mem = true) {ρ} (he : execCos d a s = .next ρ) :
    cellsWf ρ.mem = true := by
  unfold execCos at he; exact laneFlt1_wf hw he

theorem execTanh_wf {d : LDst} {a : Opnd} {s : State} (hw : cellsWf s.mem = true) {ρ} (he : execTanh d a s = .next ρ) :
    cellsWf ρ.mem = true := by
  unfold execTanh at he; exact laneFlt1_wf hw he

theorem execPadd_wf {d a b : BitVec 7} {bf : Bool} {s : State} (hw : cellsWf s.mem = true) {ρ} (he : execPadd d a b bf s = .next ρ) :
    cellsWf ρ.mem = true := by
  unfold execPadd at he; exact laneResult_wf hw he

theorem execPmul_wf {d a b : BitVec 7} {bf : Bool} {s : State} (hw : cellsWf s.mem = true) {ρ} (he : execPmul d a b bf s = .next ρ) :
    cellsWf ρ.mem = true := by
  unfold execPmul at he; exact laneResult_wf hw he

theorem execPmax_wf {d a b : BitVec 7} {bf : Bool} {s : State} (hw : cellsWf s.mem = true) {ρ} (he : execPmax d a b bf s = .next ρ) :
    cellsWf ρ.mem = true := by
  unfold execPmax at he; exact laneResult_wf hw he

theorem execPfma_wf {d a b : BitVec 7} {bf : Bool} {s : State} (hw : cellsWf s.mem = true) {ρ} (he : execPfma d a b bf s = .next ρ) :
    cellsWf ρ.mem = true := by
  unfold execPfma at he; exact laneResult_wf hw he

theorem execAddLane_wf {d : LDst} {a b : Opnd} {s : State} (hw : cellsWf s.mem = true) {ρ} (he : execAddLane d a b s = .next ρ) :
    cellsWf ρ.mem = true := by
  unfold execAddLane at he; exact laneInt2_wf hw he

theorem execSubLane_wf {d : LDst} {a b : Opnd} {s : State} (hw : cellsWf s.mem = true) {ρ} (he : execSubLane d a b s = .next ρ) :
    cellsWf ρ.mem = true := by
  unfold execSubLane at he; exact laneInt2_wf hw he

theorem execMulLane_wf {d : LDst} {a b : Opnd} {s : State} (hw : cellsWf s.mem = true) {ρ} (he : execMulLane d a b s = .next ρ) :
    cellsWf ρ.mem = true := by
  unfold execMulLane at he; exact laneInt2_wf hw he

theorem execMulhLane_wf {d : LDst} {a b : Opnd} {s : State} (hw : cellsWf s.mem = true) {ρ} (he : execMulhLane d a b s = .next ρ) :
    cellsWf ρ.mem = true := by
  unfold execMulhLane at he; exact laneInt2_wf hw he

theorem execMulhuLane_wf {d : LDst} {a b : Opnd} {s : State} (hw : cellsWf s.mem = true) {ρ} (he : execMulhuLane d a b s = .next ρ) :
    cellsWf ρ.mem = true := by
  unfold execMulhuLane at he; exact laneInt2_wf hw he

theorem execAndLane_wf {d : LDst} {a b : Opnd} {s : State} (hw : cellsWf s.mem = true) {ρ} (he : execAndLane d a b s = .next ρ) :
    cellsWf ρ.mem = true := by
  unfold execAndLane at he; exact laneInt2_wf hw he

theorem execOrLane_wf {d : LDst} {a b : Opnd} {s : State} (hw : cellsWf s.mem = true) {ρ} (he : execOrLane d a b s = .next ρ) :
    cellsWf ρ.mem = true := by
  unfold execOrLane at he; exact laneInt2_wf hw he

theorem execXorLane_wf {d : LDst} {a b : Opnd} {s : State} (hw : cellsWf s.mem = true) {ρ} (he : execXorLane d a b s = .next ρ) :
    cellsWf ρ.mem = true := by
  unfold execXorLane at he; exact laneInt2_wf hw he

theorem execAndnLane_wf {d : LDst} {a b : Opnd} {s : State} (hw : cellsWf s.mem = true) {ρ} (he : execAndnLane d a b s = .next ρ) :
    cellsWf ρ.mem = true := by
  unfold execAndnLane at he; exact laneInt2_wf hw he

theorem execShlLane_wf {d : LDst} {a b : Opnd} {s : State} (hw : cellsWf s.mem = true) {ρ} (he : execShlLane d a b s = .next ρ) :
    cellsWf ρ.mem = true := by
  unfold execShlLane at he; exact laneInt2_wf hw he

theorem execShrLane_wf {d : LDst} {a b : Opnd} {s : State} (hw : cellsWf s.mem = true) {ρ} (he : execShrLane d a b s = .next ρ) :
    cellsWf ρ.mem = true := by
  unfold execShrLane at he; exact laneInt2_wf hw he

theorem execSarLane_wf {d : LDst} {a b : Opnd} {s : State} (hw : cellsWf s.mem = true) {ρ} (he : execSarLane d a b s = .next ρ) :
    cellsWf ρ.mem = true := by
  unfold execSarLane at he; exact laneInt2_wf hw he

theorem execRolLane_wf {d : LDst} {a b : Opnd} {s : State} (hw : cellsWf s.mem = true) {ρ} (he : execRolLane d a b s = .next ρ) :
    cellsWf ρ.mem = true := by
  unfold execRolLane at he; exact laneInt2_wf hw he

theorem execMinLane_wf {d : LDst} {a b : Opnd} {s : State} (hw : cellsWf s.mem = true) {ρ} (he : execMinLane d a b s = .next ρ) :
    cellsWf ρ.mem = true := by
  unfold execMinLane at he; exact laneInt2_wf hw he

theorem execMaxLane_wf {d : LDst} {a b : Opnd} {s : State} (hw : cellsWf s.mem = true) {ρ} (he : execMaxLane d a b s = .next ρ) :
    cellsWf ρ.mem = true := by
  unfold execMaxLane at he; exact laneInt2_wf hw he

theorem execMinuLane_wf {d : LDst} {a b : Opnd} {s : State} (hw : cellsWf s.mem = true) {ρ} (he : execMinuLane d a b s = .next ρ) :
    cellsWf ρ.mem = true := by
  unfold execMinuLane at he; exact laneInt2_wf hw he

theorem execMaxuLane_wf {d : LDst} {a b : Opnd} {s : State} (hw : cellsWf s.mem = true) {ρ} (he : execMaxuLane d a b s = .next ρ) :
    cellsWf ρ.mem = true := by
  unfold execMaxuLane at he; exact laneInt2_wf hw he

theorem execMad_wf {d : LDst} {a b : Opnd} {s : State} (hw : cellsWf s.mem = true) {ρ} (he : execMad d a b s = .next ρ) :
    cellsWf ρ.mem = true := by
  unfold execMad at he; exact laneInt3_wf hw he

theorem execClzLane_wf {d : LDst} {a : Opnd} {s : State} (hw : cellsWf s.mem = true) {ρ} (he : execClzLane d a s = .next ρ) :
    cellsWf ρ.mem = true := by
  unfold execClzLane at he; exact laneInt1_wf hw he

theorem execPopcLane_wf {d : LDst} {a : Opnd} {s : State} (hw : cellsWf s.mem = true) {ρ} (he : execPopcLane d a s = .next ρ) :
    cellsWf ρ.mem = true := by
  unfold execPopcLane at he; exact laneInt1_wf hw he

theorem execBrev_wf {d : LDst} {a : Opnd} {s : State} (hw : cellsWf s.mem = true) {ρ} (he : execBrev d a s = .next ρ) :
    cellsWf ρ.mem = true := by
  unfold execBrev at he; exact laneInt1_wf hw he

theorem execBfeLane_wf {d : LDst} {a b : Opnd} {s : State} (hw : cellsWf s.mem = true) {ρ} (he : execBfeLane d a b s = .next ρ) :
    cellsWf ρ.mem = true := by
  unfold execBfeLane at he; exact laneInt2_wf hw he

theorem execBfiLane_wf {d : LDst} {a b : Opnd} {s : State} (hw : cellsWf s.mem = true) {ρ} (he : execBfiLane d a b s = .next ρ) :
    cellsWf ρ.mem = true := by
  unfold execBfiLane at he; exact laneInt3_wf hw he

theorem execSelLane_wf {d a b : BitVec 7} {p : BitVec 3} {s : State} (hw : cellsWf s.mem = true) {ρ} (he : execSelLane d a b p s = .next ρ) :
    cellsWf ρ.mem = true := by
  unfold execSelLane at he; exact laneResult_wf hw he

theorem laneCarry_wf {s : State} {i : Instr} {us : List Use} {d : BitVec 7} {p : BitVec 3} {f : Rd → Nat → List W32 × Bool} (hw : cellsWf s.mem = true) {ρ} (he : laneCarry s i us d p f = .next ρ) :
    cellsWf ρ.mem = true := by
  unfold laneCarry at he; refine withOperands_wf hw ?_ he; clear he; intro s I W n ρ hw he; cases he; exact hw

theorem execAddc_wf {d a b : BitVec 7} {p : BitVec 3} {s : State} (hw : cellsWf s.mem = true) {ρ} (he : execAddc d a b p s = .next ρ) :
    cellsWf ρ.mem = true := by
  unfold execAddc at he; exact laneCarry_wf hw he

theorem execSubb_wf {d a b : BitVec 7} {p : BitVec 3} {s : State} (hw : cellsWf s.mem = true) {ρ} (he : execSubb d a b p s = .next ρ) :
    cellsWf ρ.mem = true := by
  unfold execSubb at he; exact laneCarry_wf hw he

theorem execMadc_wf {d a b : BitVec 7} {p : BitVec 3} {s : State} (hw : cellsWf s.mem = true) {ρ} (he : execMadc d a b p s = .next ρ) :
    cellsWf ρ.mem = true := by
  unfold execMadc at he; exact laneCarry_wf hw he

theorem execCmpLane_wf {pd : BitVec 3} {m : Comb} {c : ICond} {a b : Opnd} {s : State} (hw : cellsWf s.mem = true) {ρ} (he : execCmpLane pd m c a b s = .next ρ) :
    cellsWf ρ.mem = true := by
  unfold execCmpLane at he; exact lanePred_wf hw he

theorem execPlog_wf {pd : BitVec 3} {tt : BitVec 4} {px py : BitVec 3} {s : State} (hw : cellsWf s.mem = true) {ρ} (he : execPlog pd tt px py s = .next ρ) :
    cellsWf ρ.mem = true := by
  unfold execPlog at he; exact lanePred_wf hw he

theorem execMoviLane_wf {d : LDst} {imm : BitVec 16} {s : State} (hw : cellsWf s.mem = true) {ρ} (he : execMoviLane d imm s = .next ρ) :
    cellsWf ρ.mem = true := by
  unfold execMoviLane at he; exact laneResult_wf hw he

theorem execMovhiLane_wf {d : LDst} {imm : BitVec 16} {s : State} (hw : cellsWf s.mem = true) {ρ} (he : execMovhiLane d imm s = .next ρ) :
    cellsWf ρ.mem = true := by
  unfold execMovhiLane at he; exact laneResult_wf hw he

theorem execAddiLane_wf {d : LDst} {imm : BitVec 16} {s : State} (hw : cellsWf s.mem = true) {ρ} (he : execAddiLane d imm s = .next ρ) :
    cellsWf ρ.mem = true := by
  unfold execAddiLane at he; exact laneResult_wf hw he

@[simp] theorem State.setLink_mem (s : State) (l : Link) (P : Port) :
    (State.setLink s l P).mem = s.mem := by
  unfold State.setLink; split <;> rfl

theorem execFlitReceive_wf {l : Link} {flit : List Byte} {s : State} (hw : cellsWf s.mem = true) {ρ} (he : execFlitReceive l flit s = .next ρ) :
    cellsWf ρ.mem = true := by
  unfold execFlitReceive at he; dsimp only at he; (repeat' split at he) <;> first | (cases he; simp [hw])

@[simp] theorem State.countReplays_mem (s : State) (l : Link) (n : Nat) :
    (State.countReplays s l n).mem = s.mem := by
  unfold State.countReplays; (try dsimp only); (repeat' split) <;> (first | rfl | (simp [*, foldl_memS, foldl_memP]; done) | ((repeat' (first | rfl | ((simp [*]; done)) | (with_reducible refine (foldl_memS (fun b a => ?_)).trans ?_) | (with_reducible refine (foldl_memP (fun b a => ?_)).trans ?_) | split | simp)); done))

theorem execReplayRequest_wf {l : Link} {fseq : BitVec 12} {s : State} (hw : cellsWf s.mem = true) {ρ} (he : execReplayRequest l fseq s = .next ρ) :
    cellsWf ρ.mem = true := by
  unfold execReplayRequest at he; (try dsimp only at he); (repeat' split at he) <;> (first | (cases he; done) | (cases he; first | assumption | (simp [hw]; done) | (simp [*, foldl_wfS, foldl_wfP, foldl_memS, foldl_memP]; done) | ((repeat' (first | assumption | (with_reducible refine foldl_wfS ?_ (fun b a hb => ?_)) | (with_reducible refine foldl_wfP ?_ (fun b a hb => ?_)) | ((simp [*]; done)) | split | simp)); done)))

theorem execPortRetrain_wf {p : Nat} {s : State} (hw : cellsWf s.mem = true) {ρ} (he : execPortRetrain p s = .next ρ) :
    cellsWf ρ.mem = true := by
  unfold execPortRetrain at he; dsimp only at he; (repeat' split at he) <;> first | (cases he; exact hw)

@[simp] theorem State.portDown_wf (s : State) (p : Nat) (hw : cellsWf s.mem = true) :
    cellsWf (State.portDown s p).mem = true := by
  unfold State.portDown; (try dsimp only); (repeat' split) <;> (first | assumption | (simp [hw]; done) | (simp [*, foldl_wfS, foldl_wfP, foldl_memS, foldl_memP]; done) | ((first | refine foldl_wfS ?_ (fun b a hb => ?_) | refine foldl_wfP ?_ (fun b a hb => ?_)) <;> (try dsimp only) <;> (repeat' split) <;> (first | (simp [*]; done) | (simp [*, foldl_wfS, foldl_wfP, foldl_memS, foldl_memP]; done) | ((repeat' (first | assumption | (with_reducible refine foldl_wfS ?_ (fun b a hb => ?_)) | (with_reducible refine foldl_wfP ?_ (fun b a hb => ?_)) | (with_reducible apply State.loseOut_wf) | (with_reducible apply State.pump_wf) | (simp [*]; done) | (simp [*]; done) | split)); done))) | ((repeat' (first | assumption | (with_reducible refine foldl_wfS ?_ (fun b a hb => ?_)) | (with_reducible refine foldl_wfP ?_ (fun b a hb => ?_)) | (with_reducible apply State.loseOut_wf) | (with_reducible apply State.pump_wf) | (simp [*]; done) | (simp [*]; done) | split)); done))

theorem execPortTrainingDone_wf {p : Nat} {lanes : BitVec 8} {s : State} (hw : cellsWf s.mem = true) {ρ} (he : execPortTrainingDone p lanes s = .next ρ) :
    cellsWf ρ.mem = true := by
  unfold execPortTrainingDone at he; dsimp only at he; (repeat' split at he) <;> first | (cases he; simp [hw])

theorem execBoundaryRetrain_wf {b : Nat} {s : State} (hw : cellsWf s.mem = true) {ρ} (he : execBoundaryRetrain b s = .next ρ) :
    cellsWf ρ.mem = true := by
  unfold execBoundaryRetrain at he; dsimp only at he; (repeat' split at he) <;> first | (cases he; exact hw)

@[simp] theorem State.loseCutOff_wf (s : State) (hw : cellsWf s.mem = true) :
    cellsWf (State.loseCutOff s).mem = true := by
  unfold State.loseCutOff; exact foldl_wfS hw fun b a hb => by simp [hb]

@[simp] theorem State.setBoundaryState_mem (s : State) (b v : Nat) :
    (State.setBoundaryState s b v).mem = s.mem := by
  unfold State.setBoundaryState; (try dsimp only); (repeat' split) <;> (first | rfl | (simp [*, foldl_memS, foldl_memP]; done) | ((repeat' (first | rfl | ((simp [*]; done)) | (with_reducible refine (foldl_memS (fun b a => ?_)).trans ?_) | (with_reducible refine (foldl_memP (fun b a => ?_)).trans ?_) | split | simp)); done))

@[simp] theorem State.boundaryDown_wf (s : State) (b : Nat) (hw : cellsWf s.mem = true) :
    cellsWf (State.boundaryDown s b).mem = true := by
  unfold State.boundaryDown; (try dsimp only); (repeat' split) <;> (first | assumption | (simp [hw]; done) | (simp [*, foldl_wfS, foldl_wfP, foldl_memS, foldl_memP]; done) | ((repeat' (first | assumption | (with_reducible refine foldl_wfS ?_ (fun b a hb => ?_)) | (with_reducible refine foldl_wfP ?_ (fun b a hb => ?_)) | ((simp [*]; done)) | split | simp)); done))

theorem execBoundaryTrainingDone_wf {b : Nat} {ok : Bool} {s : State} (hw : cellsWf s.mem = true) {ρ} (he : execBoundaryTrainingDone b ok s = .next ρ) :
    cellsWf ρ.mem = true := by
  unfold execBoundaryTrainingDone at he; (try dsimp only at he); (repeat' split at he) <;> (first | (cases he; done) | (cases he; first | assumption | (simp [hw]; done) | (simp [*, foldl_wfS, foldl_wfP, foldl_memS, foldl_memP]; done) | ((repeat' (first | assumption | (with_reducible refine foldl_wfS ?_ (fun b a hb => ?_)) | (with_reducible refine foldl_wfP ?_ (fun b a hb => ?_)) | ((simp [*]; done)) | split | simp)); done)))

@[simp] theorem State.acceptMsg_mem (s : State) (m : Msg) :
    (State.acceptMsg s m).mem = s.mem := by
  unfold State.acceptMsg; (try dsimp only); (repeat' split) <;> (first | rfl | (simp [*, foldl_memS, foldl_memP]; done) | ((repeat' (first | rfl | ((simp [*]; done)) | (with_reducible refine (foldl_memS (fun b a => ?_)).trans ?_) | (with_reducible refine (foldl_memP (fun b a => ?_)).trans ?_) | split | simp)); done))

theorem execDiePacketArrival_wf {src dst : Nat} {s : State} (hw : cellsWf s.mem = true) {ρ} (he : execDiePacketArrival src dst s = .next ρ) :
    cellsWf ρ.mem = true := by
  unfold execDiePacketArrival at he; (try dsimp only at he); (repeat' split at he) <;> (first | (cases he; done) | (cases he; first | assumption | (simp [hw]; done) | (simp [*, foldl_wfS, foldl_wfP, foldl_memS, foldl_memP]; done) | ((repeat' (first | assumption | (with_reducible refine foldl_wfS ?_ (fun b a hb => ?_)) | (with_reducible refine foldl_wfP ?_ (fun b a hb => ?_)) | (simp [*]; done) | (simp [*]; done) | split)); done)))

theorem execVectorAnnounce_wf {src : Nat} {s : State} (hw : cellsWf s.mem = true) {ρ} (he : execVectorAnnounce src s = .next ρ) :
    cellsWf ρ.mem = true := by
  unfold execVectorAnnounce at he; (try dsimp only at he); (repeat' split at he) <;> (first | (cases he; done) | (cases he; first | assumption | (simp [hw]; done) | (simp [*, foldl_wfS, foldl_wfP, foldl_memS, foldl_memP]; done) | ((repeat' (first | assumption | (with_reducible refine foldl_wfS ?_ (fun b a hb => ?_)) | (with_reducible refine foldl_wfP ?_ (fun b a hb => ?_)) | (simp [*]; done) | (simp [*]; done) | split)); done)))

@[simp] theorem State.takeWord_wf (home : Nat) (m : Msg) (n : Nat) (s : State) (hw : cellsWf s.mem = true) :
    cellsWf (State.takeWord home m n s).mem = true := by
  induction n generalizing s with
  | zero => exact hw
  | succ n ih =>
    unfold State.takeWord
    split
    · exact hw
    · split
      · exact ih _ (by simp [hw])
      · exact hw

theorem execRemoteWriteApply_wf {home k : Nat} {s : State} (hw : cellsWf s.mem = true) {ρ} (he : execRemoteWriteApply home k s = .next ρ) :
    cellsWf ρ.mem = true := by
  unfold execRemoteWriteApply at he; (repeat' split at he) <;> first | (cases he; simp [hw])

theorem execRemoteReadPerform_wf {home k : Nat} {s : State} (hw : cellsWf s.mem = true) {ρ} (he : execRemoteReadPerform home k s = .next ρ) :
    cellsWf ρ.mem = true := by
  unfold execRemoteReadPerform at he; (repeat' split at he) <;> first | (cases he; simp [hw])

@[simp] theorem State.takeArrival_mem (s : State) (p : Nat) (pk : Packet) :
    (State.takeArrival s p pk).mem = s.mem := rfl

theorem execGpqctlQuiesce_wf {p : Nat} {s : State} (hw : cellsWf s.mem = true) {ρ} (he : execGpqctlQuiesce p s = .next ρ) :
    cellsWf ρ.mem = true := by
  unfold execGpqctlQuiesce at he; (repeat' split at he) <;> first | (cases he; exact hw)

theorem execGpqctlResume_wf {p : Nat} {s : State} (hw : cellsWf s.mem = true) {ρ} (he : execGpqctlResume p s = .next ρ) :
    cellsWf ρ.mem = true := by
  unfold execGpqctlResume at he; (repeat' split at he) <;> first | (cases he; simp [hw])

theorem execPortQuiesceDone_wf {p : Nat} {s : State} (hw : cellsWf s.mem = true) {ρ} (he : execPortQuiesceDone p s = .next ρ) :
    cellsWf ρ.mem = true := by
  unfold execPortQuiesceDone at he; dsimp only at he; (repeat' split at he) <;> first | (cases he; exact hw)

theorem execGrtabWrite_wf {die : Nat} {node : BitVec 10} {v : BitVec 8} {s : State} (hw : cellsWf s.mem = true) {ρ} (he : execGrtabWrite die node v s = .next ρ) :
    cellsWf ρ.mem = true := by
  unfold execGrtabWrite at he; dsimp only at he; (repeat' split at he) <;> first | (cases he; simp [hw])

@[simp] theorem State.enterHome_wf (s : State) (die : Nat) (pk : Packet) (hw : cellsWf s.mem = true) :
    cellsWf (State.enterHome s die pk).mem = true := by
  unfold State.enterHome; dsimp only; (repeat' split) <;> simp [hw]

@[simp] theorem State.refuseAt_mem (s : State) (die : Nat) (pk : Packet) (c : Nat) : (s.refuseAt die pk c).mem = s.mem := by
  unfold State.refuseAt; split <;> simp

@[simp] theorem State.takeRequest_wf (s : State) (p : Nat) (pk : Packet) (hw : cellsWf s.mem = true) :
    cellsWf (State.takeRequest s p pk).mem = true := by
  unfold State.takeRequest; dsimp only; (repeat' split) <;> simp [hw]

theorem execPacketWrite_wf {port : Nat} {pk : Packet} {s : State} (hw : cellsWf s.mem = true) {ρ} (he : execPacketWrite port pk s = .next ρ) :
    cellsWf ρ.mem = true := by
  unfold execPacketWrite at he; (repeat' split at he) <;> first | (cases he; simp [hw])

theorem execPacketRead_wf {port : Nat} {pk : Packet} {s : State} (hw : cellsWf s.mem = true) {ρ} (he : execPacketRead port pk s = .next ρ) :
    cellsWf ρ.mem = true := by
  unfold execPacketRead at he; (repeat' split at he) <;> first | (cases he; simp [hw])

theorem execPacketAtomic_wf {port : Nat} {pk : Packet} {s : State} (hw : cellsWf s.mem = true) {ρ} (he : execPacketAtomic port pk s = .next ρ) :
    cellsWf ρ.mem = true := by
  unfold execPacketAtomic at he; (repeat' split at he) <;> first | (cases he; simp [hw])

theorem execPacketSignal_wf {port : Nat} {pk : Packet} {s : State} (hw : cellsWf s.mem = true) {ρ} (he : execPacketSignal port pk s = .next ρ) :
    cellsWf ρ.mem = true := by
  unfold execPacketSignal at he; dsimp only at he; (repeat' split at he) <;> first | (cases he; simp [hw])

theorem execSignalApply_wf {k : Nat} {s : State} (hw : cellsWf s.mem = true) {ρ} (he : execSignalApply k s = .next ρ) :
    cellsWf ρ.mem = true := by
  unfold execSignalApply at he; (repeat' split at he) <;> first | (cases he; simp [hw])

@[simp] theorem State.switchAnswer_mem (s : State) (pk : Packet) (code : Option Nat) :
    (State.switchAnswer s pk code).mem = s.mem := by
  unfold State.switchAnswer; (repeat' split) <;> simp

@[simp] theorem State.writeResult_wf (s : State) (pk : Packet) (bs : List Byte) (hw : cellsWf s.mem = true) :
    cellsWf (State.writeResult s pk bs).1.mem = true := by
  unfold State.writeResult; (repeat' split) <;> simp [hw]

@[simp] theorem State.contributeSwitch_wf (s : State) (pk : Packet) (hw : cellsWf s.mem = true) :
    cellsWf (State.contributeSwitch s pk).mem = true := by
  unfold State.contributeSwitch; (try dsimp only); (repeat' split) <;> ((try have q0 := wf_of_pair ‹State.writeResult _ _ _ = (_, _)› (State.writeResult_wf _ _ _ (by first | assumption | (simp [*]; done)))); first | assumption | (simp [hw]; done) | (simp [*, foldl_wfS, foldl_wfP, foldl_memS, foldl_memP]; done) | ((first | refine foldl_wfS ?_ (fun b a hb => ?_) | refine foldl_wfP ?_ (fun b a hb => ?_)) <;> (try dsimp only) <;> (repeat' split) <;> ((try have q0 := wf_of_pair ‹State.writeResult _ _ _ = (_, _)› (State.writeResult_wf _ _ _ (by first | assumption | (simp [*]; done)))); first | (simp [*]; done) | (simp [*, foldl_wfS, foldl_wfP, foldl_memS, foldl_memP]; done) | ((repeat' (first | assumption | (with_reducible refine foldl_wfS ?_ (fun b a hb => ?_)) | (with_reducible refine foldl_wfP ?_ (fun b a hb => ?_)) | (with_reducible apply State.writeResult_wf) | (simp [*]; done) | ((try have q0 := wf_of_pair ‹State.writeResult _ _ _ = (_, _)› (State.writeResult_wf _ _ _ (by first | assumption | (simp [*]; done)))); simp [*]; done) | split)); done))) | ((repeat' (first | assumption | (with_reducible refine foldl_wfS ?_ (fun b a hb => ?_)) | (with_reducible refine foldl_wfP ?_ (fun b a hb => ?_)) | (with_reducible apply State.writeResult_wf) | (simp [*]; done) | ((try have q0 := wf_of_pair ‹State.writeResult _ _ _ = (_, _)› (State.writeResult_wf _ _ _ (by first | assumption | (simp [*]; done)))); simp [*]; done) | split)); done))

theorem execReduceContribution_wf {pk : Packet} {s : State} (hw : cellsWf s.mem = true) {ρ} (he : execReduceContribution pk s = .next ρ) :
    cellsWf ρ.mem = true := by
  unfold execReduceContribution at he; dsimp only at he
  (repeat' split at he) <;> cases he <;> (try split) <;> simp [hw]

@[simp] theorem State.sendReduce_wf (s : State) (die : Nat) (pk : Packet) (cs : List LocalContrib) (hw : cellsWf s.mem = true) :
    cellsWf (State.sendReduce s die pk cs).mem = true := by
  unfold State.sendReduce; (try dsimp only); (repeat' split) <;> (first | assumption | (simp [hw]; done) | (simp [*, foldl_wfS, foldl_wfP, foldl_memS, foldl_memP]; done) | ((first | refine foldl_wfS ?_ (fun b a hb => ?_) | refine foldl_wfP ?_ (fun b a hb => ?_)) <;> (try dsimp only) <;> (repeat' split) <;> (first | (simp [*]; done) | (simp [*, foldl_wfS, foldl_wfP, foldl_memS, foldl_memP]; done) | ((repeat' (first | assumption | (with_reducible refine foldl_wfS ?_ (fun b a hb => ?_)) | (with_reducible refine foldl_wfP ?_ (fun b a hb => ?_)) | (with_reducible apply State.pump_wf) | (simp [*]; done) | (simp [*]; done) | split)); done))) | ((repeat' (first | assumption | (with_reducible refine foldl_wfS ?_ (fun b a hb => ?_)) | (with_reducible refine foldl_wfP ?_ (fun b a hb => ?_)) | (with_reducible apply State.pump_wf) | (simp [*]; done) | (simp [*]; done) | split)); done))

@[simp] theorem State.answerLocals_mem (s : State) (cs : List LocalContrib) (bad : Bool) :
    (State.answerLocals s cs bad).mem = s.mem := by
  unfold State.answerLocals; (try dsimp only); (repeat' split) <;> (first | rfl | (simp [*, foldl_memS, foldl_memP]; done) | ((repeat' (first | rfl | ((simp [*]; done)) | (with_reducible refine (foldl_memS (fun b a => ?_)).trans ?_) | (with_reducible refine (foldl_memP (fun b a => ?_)).trans ?_) | split | simp)); done))

theorem execLocalReduceCombine_wf {k : Nat} {s : State} (hw : cellsWf s.mem = true) {ρ} (he : execLocalReduceCombine k s = .next ρ) :
    cellsWf ρ.mem = true := by
  unfold execLocalReduceCombine at he; (try dsimp only at he); (repeat' split at he) <;> (first | (cases he; done) | (cases he; first | assumption | (simp [hw]; done) | (simp [*, foldl_wfS, foldl_wfP, foldl_memS, foldl_memP]; done) | ((repeat' (first | assumption | (with_reducible refine foldl_wfS ?_ (fun b a hb => ?_)) | (with_reducible refine foldl_wfP ?_ (fun b a hb => ?_)) | ((simp [*]; done)) | split | simp)); done)))

@[simp] theorem State.takeResponse_wf (s : State) (pk : Packet) (error : Bool) (hw : cellsWf s.mem = true) :
    cellsWf (State.takeResponse s pk error).mem = true := by
  unfold State.takeResponse; (try dsimp only); (repeat' split) <;> (first | assumption | (simp [hw]; done) | (simp [*, foldl_wfS, foldl_wfP, foldl_memS, foldl_memP]; done) | ((repeat' (first | assumption | (with_reducible refine foldl_wfS ?_ (fun b a hb => ?_)) | (with_reducible refine foldl_wfP ?_ (fun b a hb => ?_)) | ((simp [*]; done)) | split | simp)); done))

theorem execReadResponseArrival_wf {r : ReadResp} {s : State} (hw : cellsWf s.mem = true) {ρ} (he : execReadResponseArrival r s = .next ρ) :
    cellsWf ρ.mem = true := by
  unfold execReadResponseArrival at he; (try dsimp only at he); (repeat' split at he) <;> (first | (cases he; done) | (cases he; first | assumption | (simp [hw]; done) | (simp [*, foldl_wfS, foldl_wfP, foldl_memS, foldl_memP]; done) | ((repeat' (first | assumption | (with_reducible refine foldl_wfS ?_ (fun b a hb => ?_)) | (with_reducible refine foldl_wfP ?_ (fun b a hb => ?_)) | ((simp [*]; done)) | split | simp)); done)))

theorem execAckResponse_wf {pk : Packet} {s : State} (hw : cellsWf s.mem = true) {ρ} (he : execAckResponse pk s = .next ρ) :
    cellsWf ρ.mem = true := by
  unfold execAckResponse at he; (repeat' split at he) <;> first | (cases he; simp [hw])

theorem execAtomresResponse_wf {pk : Packet} {s : State} (hw : cellsWf s.mem = true) {ρ} (he : execAtomresResponse pk s = .next ρ) :
    cellsWf ρ.mem = true := by
  unfold execAtomresResponse at he; (repeat' split at he) <;> first | (cases he; simp [hw])

theorem execErrorResponse_wf {pk : Packet} {s : State} (hw : cellsWf s.mem = true) {ρ} (he : execErrorResponse pk s = .next ρ) :
    cellsWf ρ.mem = true := by
  unfold execErrorResponse at he; (repeat' split at he) <;> first | (cases he; simp [hw])

@[simp] theorem State.refreshQueue_mem (s : State) (p k : Nat) :
    (State.refreshQueue s p k).mem = s.mem := by
  unfold State.refreshQueue; (repeat' split) <;> rfl

@[simp] theorem State.mapQueue_mem (s : State) (p k : Nat) (f : Queue → Queue) :
    (State.mapQueue s p k f).mem = s.mem := by
  unfold State.mapQueue; (repeat' split) <;> rfl

@[simp] theorem State.discardHead_wf (s : State) (p k : Nat) (P : Part) (rc : Rec) (hw : cellsWf s.mem = true) :
    cellsWf (State.discardHead s p k P rc).mem = true := by
  unfold State.discardHead; (try dsimp only); (repeat' split) <;> (first | assumption | (simp [hw]; done) | (simp [*, foldl_wfS, foldl_wfP, foldl_memS, foldl_memP]; done) | ((first | refine foldl_wfS ?_ (fun b a hb => ?_) | refine foldl_wfP ?_ (fun b a hb => ?_)) <;> (try dsimp only) <;> (repeat' split) <;> (first | (simp [*]; done) | (simp [*, foldl_wfS, foldl_wfP, foldl_memS, foldl_memP]; done) | ((repeat' (first | assumption | (with_reducible refine foldl_wfS ?_ (fun b a hb => ?_)) | (with_reducible refine foldl_wfP ?_ (fun b a hb => ?_)) | (with_reducible apply State.complete_wf) | (with_reducible apply State.returnSlot_wf) | (simp [*]; done) | (simp [*]; done) | split)); done))) | ((repeat' (first | assumption | (with_reducible refine foldl_wfS ?_ (fun b a hb => ?_)) | (with_reducible refine foldl_wfP ?_ (fun b a hb => ?_)) | (with_reducible apply State.complete_wf) | (with_reducible apply State.returnSlot_wf) | (simp [*]; done) | (simp [*]; done) | split)); done))

@[simp] theorem State.refreshGrids_mem (s : State) (p k : Nat) (e : Eff) : (State.refreshGrids s p k e).mem = s.mem := rfl

@[simp] theorem State.distributorSend_wf (s : State) (die vf : Nat) (world : Bool) (fa : Nat) (b : Body) (hw : cellsWf s.mem = true) :
    cellsWf (State.distributorSend s die vf world fa b).mem = true := by
  unfold State.distributorSend; (try dsimp only); (repeat' split) <;> (first | assumption | (simp [hw]; done) | (simp [*, foldl_wfS, foldl_wfP, foldl_memS, foldl_memP]; done) | ((repeat' (first | assumption | (with_reducible refine foldl_wfS ?_ (fun b a hb => ?_)) | (with_reducible refine foldl_wfP ?_ (fun b a hb => ?_)) | ((simp [*]; done)) | split | simp)); done))

@[simp] theorem State.writeFree_wf (s : State) (die vf : Nat) (world : Bool) (fa f : Nat) (hw : cellsWf s.mem = true) :
    cellsWf (State.writeFree s die vf world fa f).mem = true := by
  unfold State.writeFree; (try dsimp only); (repeat' split) <;> (first | assumption | (simp [hw]; done) | (simp [*, foldl_wfS, foldl_wfP, foldl_memS, foldl_memP]; done) | ((repeat' (first | assumption | (with_reducible refine foldl_wfS ?_ (fun b a hb => ?_)) | (with_reducible refine foldl_wfP ?_ (fun b a hb => ?_)) | ((simp [*]; done)) | split | simp)); done))

theorem returnFarEdge_wf {p : Nat} {s : State} (hw : cellsWf s.mem = true) {ρ} (he : returnFarEdge p s = .next ρ) :
    cellsWf ρ.mem = true := by
  unfold returnFarEdge at he; (try dsimp only at he); (repeat' split at he) <;> (first | (cases he; done) | (cases he; first | assumption | (simp [hw]; done) | (simp [*, foldl_wfS, foldl_wfP, foldl_memS, foldl_memP]; done) | ((repeat' (first | assumption | (with_reducible refine foldl_wfS ?_ (fun b a hb => ?_)) | (with_reducible refine foldl_wfP ?_ (fun b a hb => ?_)) | ((simp [*]; done)) | split | simp)); done)))

@[simp] theorem State.loading_mem (s : State) (slot t : Nat) :
    (State.loading s slot t).mem = s.mem := by
  unfold State.loading; (try dsimp only); (repeat' split) <;> (first | rfl | (simp [*, foldl_memS, foldl_memP]; done) | ((repeat' (first | rfl | ((simp [*]; done)) | (with_reducible refine (foldl_memS (fun b a => ?_)).trans ?_) | (with_reducible refine (foldl_memP (fun b a => ?_)).trans ?_) | split | simp)); done))

@[simp] theorem State.readNew_mem (s : State) (p : Nat) :
    (State.readNew s p).mem = s.mem := by
  unfold State.readNew; (try dsimp only); (repeat' split) <;> (first | rfl | (simp [*, foldl_memS, foldl_memP]; done) | ((repeat' (first | rfl | ((simp [*]; done)) | (with_reducible refine (foldl_memS (fun b a => ?_)).trans ?_) | (with_reducible refine (foldl_memP (fun b a => ?_)).trans ?_) | split | simp)); done))

@[simp] theorem State.dispatchRead_mem (s : State) (p k : Nat) (rc : Rec) :
    (State.dispatchRead s p k rc).mem = s.mem := by
  unfold State.dispatchRead; (try dsimp only); (repeat' split) <;> (first | rfl | (simp [*, foldl_memS, foldl_memP]; done) | ((repeat' (first | rfl | ((simp [*]; done)) | (with_reducible refine (foldl_memS (fun b a => ?_)).trans ?_) | (with_reducible refine (foldl_memP (fun b a => ?_)).trans ?_) | split | simp)); done))

@[simp] theorem State.placeOne_mem (s : State) (rc : Rec) (p : Nat) (world : Bool) (prio bud index ctx t : Nat) (peers : List (Nat × Nat)) (pos : Nat) (begun : Bool) :
    (State.placeOne s rc p world prio bud index ctx t peers pos begun).mem = s.mem := by
  unfold State.placeOne; (try dsimp only); (repeat' split) <;> (first | rfl | (simp [*, foldl_memS, foldl_memP]; done) | ((repeat' (first | rfl | ((simp [*]; done)) | (with_reducible refine (foldl_memS (fun b a => ?_)).trans ?_) | (with_reducible refine (foldl_memP (fun b a => ?_)).trans ?_) | split | simp)); done))

@[simp] theorem State.placeGroup_mem (s : State) (rc : Rec) (p : Nat) (world : Bool) (prio bud index : Nat) (ts : List Nat) :
    (State.placeGroup s rc p world prio bud index ts).mem = s.mem := by
  unfold State.placeGroup; exact foldl_memS fun b a => by simp

@[simp] theorem State.notePlaced_mem (s : State) (p k : Nat) (rc : Rec) (world : Bool) (prio : Nat) (fdp : Byte) (c : Nat) :
    (State.notePlaced s p k rc world prio fdp c).mem = s.mem := by
  unfold State.notePlaced; split <;> rfl

@[simp] theorem State.placeNext_wf (s : State) (p k : Nat) (P : Part) (q : Queue) (rc : Rec) (e : Eff) (ts : List Nat) (hw : cellsWf s.mem = true) :
    cellsWf (State.placeNext s p k P q rc e ts).mem = true := by
  unfold State.placeNext; (try dsimp only); (repeat' split) <;> (first | assumption | (simp [hw]; done) | (simp [*, foldl_wfS, foldl_wfP, foldl_memS, foldl_memP]; done) | ((repeat' (first | assumption | (with_reducible refine foldl_wfS ?_ (fun b a hb => ?_)) | (with_reducible refine foldl_wfP ?_ (fun b a hb => ?_)) | ((simp [*]; done)) | split | simp)); done))

@[simp] theorem State.serveQueue_wf (s : State) (p k : Nat) (q : Queue) (x : Serve) (ts : List Nat) (hw : cellsWf s.mem = true) :
    cellsWf (State.serveQueue s p k q x ts).mem = true := by
  unfold State.serveQueue; (try dsimp only); (repeat' split) <;> (first | assumption | (simp [hw]; done) | (simp [*, foldl_wfS, foldl_wfP, foldl_memS, foldl_memP]; done) | ((repeat' (first | assumption | (with_reducible refine foldl_wfS ?_ (fun b a hb => ?_)) | (with_reducible refine foldl_wfP ?_ (fun b a hb => ?_)) | ((simp [*]; done)) | split | simp)); done))

theorem execPlaceBlock_wf {p : Nat} {ts : List Nat} {s : State} (hw : cellsWf s.mem = true) {ρ} (he : execPlaceBlock p ts s = .next ρ) :
    cellsWf ρ.mem = true := by
  unfold execPlaceBlock at he; (try dsimp only at he); (repeat' split at he) <;> (first | (cases he; done) | (cases he; first | assumption | (simp [hw]; done) | (simp [*, foldl_wfS, foldl_wfP, foldl_memS, foldl_memP]; done) | ((repeat' (first | assumption | (with_reducible refine foldl_wfS ?_ (fun b a hb => ?_)) | (with_reducible refine foldl_wfP ?_ (fun b a hb => ?_)) | ((simp [*]; done)) | split | simp)); done)))

@[simp] theorem State.beginAt_mem (s : State) (t c grid : Nat) :
    (State.beginAt s t c grid).mem = s.mem := by
  unfold State.beginAt; (try dsimp only); (repeat' split) <;> (first | rfl | (simp [*, foldl_memS, foldl_memP]; done) | ((repeat' (first | rfl | ((simp [*]; done)) | (with_reducible refine (foldl_memS (fun b a => ?_)).trans ?_) | (with_reducible refine (foldl_memP (fun b a => ?_)).trans ?_) | split | simp)); done))

@[simp] theorem State.beginBlocks_mem (s : State) (t : Nat) :
    (State.beginBlocks s t).mem = s.mem := by
  unfold State.beginBlocks; (try dsimp only); (repeat' split) <;> (first | rfl | (simp [*, foldl_memS, foldl_memP]; done) | ((repeat' (first | rfl | ((simp [*]; done)) | (with_reducible refine (foldl_memS (fun b a => ?_)).trans ?_) | (with_reducible refine (foldl_memP (fun b a => ?_)).trans ?_) | split | simp)); done))

theorem execScrubComplete_wf {t : Nat} {s : State} (hw : cellsWf s.mem = true) {ρ} (he : execScrubComplete t s = .next ρ) :
    cellsWf ρ.mem = true := by
  unfold execScrubComplete at he; dsimp only at he; (repeat' split at he) <;> first | (cases he; simp [hw])

theorem execQueueAgeTimer_wf {p k : Nat} {s : State} (hw : cellsWf s.mem = true) {ρ} (he : execQueueAgeTimer p k s = .next ρ) :
    cellsWf ρ.mem = true := by
  unfold execQueueAgeTimer at he; dsimp only at he; (repeat' split at he) <;> first | (cases he; exact hw)

@[simp] theorem State.freezeTogether_wf (s : State) (ts : List Nat) (hw : cellsWf s.mem = true) :
    cellsWf (State.freezeTogether s ts).1.mem = true := by
  unfold State.freezeTogether; (try dsimp only); (repeat' split) <;> (first | assumption | (simp [hw]; done) | (simp [*, foldl_wfS, foldl_wfP, foldl_memS, foldl_memP]; done) | ((repeat' (first | assumption | (with_reducible refine foldl_wfS ?_ (fun b a hb => ?_)) | (with_reducible refine foldl_wfP ?_ (fun b a hb => ?_)) | ((simp [*]; done)) | split | simp)); done))

@[simp] theorem State.freezeEligible_wf (s : State) (p : Nat) (P : Part) (boundary : Bool) (hw : cellsWf s.mem = true) :
    cellsWf (State.freezeEligible s p P boundary).mem = true := by
  unfold State.freezeEligible; (try dsimp only); (repeat' split) <;> ((try have q0 := wf_of_pair ‹State.freezeTogether _ _ = (_, _)› (State.freezeTogether_wf _ _ (by first | assumption | (simp [*]; done)))); first | assumption | (simp [hw]; done) | (simp [*, foldl_wfS, foldl_wfP, foldl_memS, foldl_memP]; done) | ((first | refine foldl_wfS ?_ (fun b a hb => ?_) | refine foldl_wfP ?_ (fun b a hb => ?_)) <;> (try dsimp only) <;> (repeat' split) <;> ((try have q0 := wf_of_pair ‹State.freezeTogether _ _ = (_, _)› (State.freezeTogether_wf _ _ (by first | assumption | (simp [*]; done)))); first | (simp [*]; done) | (simp [*, foldl_wfS, foldl_wfP, foldl_memS, foldl_memP]; done) | ((repeat' (first | assumption | (with_reducible refine foldl_wfS ?_ (fun b a hb => ?_)) | (with_reducible refine foldl_wfP ?_ (fun b a hb => ?_)) | (with_reducible apply State.freezeTogether_wf) | (simp [*]; done) | ((try have q0 := wf_of_pair ‹State.freezeTogether _ _ = (_, _)› (State.freezeTogether_wf _ _ (by first | assumption | (simp [*]; done)))); simp [*]; done) | split)); done))) | ((repeat' (first | assumption | (with_reducible refine foldl_wfS ?_ (fun b a hb => ?_)) | (with_reducible refine foldl_wfP ?_ (fun b a hb => ?_)) | (with_reducible apply State.freezeTogether_wf) | (simp [*]; done) | ((try have q0 := wf_of_pair ‹State.freezeTogether _ _ = (_, _)› (State.freezeTogether_wf _ _ (by first | assumption | (simp [*]; done)))); simp [*]; done) | split)); done))

theorem execTimeSliceBoundary_wf {p : Nat} {s : State} (hw : cellsWf s.mem = true) {ρ} (he : execTimeSliceBoundary p s = .next ρ) :
    cellsWf ρ.mem = true := by
  unfold execTimeSliceBoundary at he; (try dsimp only at he); (repeat' split at he) <;> (first | (cases he; done) | (cases he; first | assumption | (simp [hw]; done) | (simp [*, foldl_wfS, foldl_wfP, foldl_memS, foldl_memP]; done) | ((repeat' (first | assumption | (with_reducible refine foldl_wfS ?_ (fun b a hb => ?_)) | (with_reducible refine foldl_wfP ?_ (fun b a hb => ?_)) | (with_reducible apply State.freezeEligible_wf) | (simp [*]; done) | (simp [*]; done) | split)); done)))

@[simp] theorem State.addUsed_wf (s : State) (die : Nat) (q : Queue) (hw : cellsWf s.mem = true) :
    cellsWf (State.addUsed s die q).mem = true := by
  unfold State.addUsed; (try dsimp only); (repeat' split) <;> (first | assumption | (simp [hw]; done) | (simp [*, foldl_wfS, foldl_wfP, foldl_memS, foldl_memP]; done) | ((repeat' (first | assumption | (with_reducible refine foldl_wfS ?_ (fun b a hb => ?_)) | (with_reducible refine foldl_wfP ?_ (fun b a hb => ?_)) | ((simp [*]; done)) | split | simp)); done))

theorem execUsedUpdate_wf {t : Nat} {s : State} (hw : cellsWf s.mem = true) {ρ} (he : execUsedUpdate t s = .next ρ) :
    cellsWf ρ.mem = true := by
  unfold execUsedUpdate at he; (try dsimp only at he); (repeat' split at he) <;> (first | (cases he; done) | (cases he; first | assumption | (simp [hw]; done) | (simp [*, foldl_wfS, foldl_wfP, foldl_memS, foldl_memP]; done) | ((repeat' (first | assumption | (with_reducible refine foldl_wfS ?_ (fun b a hb => ?_)) | (with_reducible refine foldl_wfP ?_ (fun b a hb => ?_)) | (with_reducible apply State.addUsed_wf) | (simp [*]; done) | (simp [*]; done) | split)); done)))

@[simp] theorem State.gatherVec_mem (s : State) (P : Part) :
    (State.gatherVec s P).mem = s.mem := by
  first
  | rfl
  | (unfold State.gatherVec; (try dsimp only); (repeat' split) <;> (first | rfl | (simp [*, foldl_memS, foldl_memP]; done) | ((first | refine foldl_memS (fun b a => ?_) | refine foldl_memP (fun b a => ?_)); (try dsimp only); (repeat' split) <;> (first | rfl | (simp [*]; done))) | ((repeat' (first | rfl | (simp [*]; done) | (with_reducible refine (foldl_memS (fun b a => ?_)).trans ?_) | (with_reducible refine (foldl_memP (fun b a => ?_)).trans ?_) | split)); done)))

theorem execGridCompletion_wf {g : Nat} {s : State} (hw : cellsWf s.mem = true) {ρ} (he : execGridCompletion g s = .next ρ) :
    cellsWf ρ.mem = true := by
  unfold execGridCompletion at he; (try dsimp only at he); (repeat' split at he) <;> ((try have q0 := (mem_of_pair ‹State.submit _ _ _ _ _ _ _ _ _ = (_, _)›).trans (State.submit_mem _ _ _ _ _ _ _ _ _)); first | (cases he; done) | (cases he; first | assumption | (simp [hw]; done) | (simp [*, foldl_wfS, foldl_wfP, foldl_memS, foldl_memP]; done) | ((repeat' (first | assumption | (with_reducible refine foldl_wfS ?_ (fun b a hb => ?_)) | (with_reducible refine foldl_wfP ?_ (fun b a hb => ?_)) | (with_reducible apply State.complete_wf) | (with_reducible apply State.returnEdge_wf) | (simp [*]; done) | ((try have q0 := (mem_of_pair ‹State.submit _ _ _ _ _ _ _ _ _ = (_, _)›).trans (State.submit_mem _ _ _ _ _ _ _ _ _)); simp [*]; done) | split)); done)))

@[simp] theorem State.held_wf (s : State) (keepMem : Bool) (hw : cellsWf s.mem = true) : cellsWf (s.held keepMem).mem = true := by
  cases keepMem
  · exact filter_wf _ hw
  · exact hw

@[simp] theorem State.release_mem (s : State) :
    (State.release s).mem = s.mem := by
  unfold State.release; (repeat' split) <;> rfl

@[simp] theorem State.boot_mem (s : State) :
    (State.boot s).mem = s.mem := by
  unfold State.boot; (try dsimp only); (repeat' split) <;> (first | rfl | (simp [*, foldl_memS, foldl_memP]; done) | ((repeat' (first | rfl | ((simp [*]; done)) | (with_reducible refine (foldl_memS (fun b a => ?_)).trans ?_) | (with_reducible refine (foldl_memP (fun b a => ?_)).trans ?_) | split | simp)); done))

theorem execRailsGood_wf {s : State} (hw : cellsWf s.mem = true) {ρ} (he : execRailsGood s = .next ρ) :
    cellsWf ρ.mem = true := by
  unfold execRailsGood at he; (try dsimp only at he); (repeat' split at he) <;> (first | (cases he; done) | (cases he; first | assumption | (simp [hw]; done) | (simp [*, foldl_wfS, foldl_wfP, foldl_memS, foldl_memP]; done) | ((repeat' (first | assumption | (with_reducible refine foldl_wfS ?_ (fun b a hb => ?_)) | (with_reducible refine foldl_wfP ?_ (fun b a hb => ?_)) | ((simp [*]; done)) | split | simp)); done)))

theorem execFullReset_wf {cfg : ConfigBlock} {s : State} (hw : cellsWf s.mem = true) {ρ} (he : execFullReset cfg s = .next ρ) :
    cellsWf ρ.mem = true := by
  unfold execFullReset at he; (try dsimp only at he); (repeat' split at he) <;> (first | (cases he; done) | (cases he; first | assumption | (simp [hw]; done) | (simp [*, foldl_wfS, foldl_wfP, foldl_memS, foldl_memP]; done) | ((repeat' (first | assumption | (with_reducible refine foldl_wfS ?_ (fun b a hb => ?_)) | (with_reducible refine foldl_wfP ?_ (fun b a hb => ?_)) | ((simp [*]; done)) | split | simp)); done)))

theorem execRecoveryImage_wf {img : FlashImage} {s : State} (hw : cellsWf s.mem = true) {ρ} (he : execRecoveryImage img s = .next ρ) :
    cellsWf ρ.mem = true := by
  unfold execRecoveryImage at he; (try dsimp only at he); (repeat' split at he) <;> (first | (cases he; done) | (cases he; first | assumption | (simp [hw]; done) | (simp [*, foldl_wfS, foldl_wfP, foldl_memS, foldl_memP]; done) | ((repeat' (first | assumption | (with_reducible refine foldl_wfS ?_ (fun b a hb => ?_)) | (with_reducible refine foldl_wfP ?_ (fun b a hb => ?_)) | ((simp [*]; done)) | split | simp)); done)))

theorem execFirmwareUpdate_wf {img : FlashImage} {powerFails : Bool} {s : State} (hw : cellsWf s.mem = true) {ρ} (he : execFirmwareUpdate img powerFails s = .next ρ) :
    cellsWf ρ.mem = true := by
  unfold execFirmwareUpdate at he; (repeat' split at he) <;> first | (cases he; simp [hw])

theorem execRailsRemoved_wf {s : State} (hw : cellsWf s.mem = true) {ρ} (he : execRailsRemoved s = .next ρ) :
    cellsWf ρ.mem = true := by
  unfold execRailsRemoved at he; cases he; simp [hw]

theorem execThrottleEvaluation_wf {temps : List (BitVec 16)} {current : CoreCurrent} {s : State} (hw : cellsWf s.mem = true) {ρ} (he : execThrottleEvaluation temps current s = .next ρ) :
    cellsWf ρ.mem = true := by
  unfold execThrottleEvaluation at he; (try dsimp only at he); (repeat' split at he) <;> (first | (cases he; done) | (cases he; first | assumption | (simp [hw]; done) | (simp [*, foldl_wfS, foldl_wfP, foldl_memS, foldl_memP]; done) | ((repeat' (first | assumption | (with_reducible refine foldl_wfS ?_ (fun b a hb => ?_)) | (with_reducible refine foldl_wfP ?_ (fun b a hb => ?_)) | ((simp [*]; done)) | split | simp)); done)))

theorem execThermtrip_wf {_die : Nat} {temp : BitVec 16} {s : State} (hw : cellsWf s.mem = true) {ρ} (he : execThermtrip _die temp s = .next ρ) :
    cellsWf ρ.mem = true := by
  unfold execThermtrip at he; (repeat' split at he) <;> first | (cases he; simp [hw])

theorem execThstatTrippedClear_wf {die : Nat} {v : Word} {s : State} (hw : cellsWf s.mem = true) {ρ} (he : execThstatTrippedClear die v s = .next ρ) :
    cellsWf ρ.mem = true := by
  unfold execThstatTrippedClear at he; (repeat' split at he) <;> first | (cases he; exact hw)

theorem execSpdmMeasurements_wf {nonce : Word} {s : State} (hw : cellsWf s.mem = true) {ρ} (he : execSpdmMeasurements nonce s = .next ρ) :
    cellsWf ρ.mem = true := by
  unfold execSpdmMeasurements at he; (repeat' split at he) <;> first | (cases he; exact hw)

theorem execChannelItemArrival_wf {p k n : Nat} {s : State} (hw : cellsWf s.mem = true) {ρ} (he : execChannelItemArrival p k n s = .next ρ) :
    cellsWf ρ.mem = true := by
  unfold execChannelItemArrival at he; (repeat' split at he) <;> first | (cases he; simp [hw])

theorem execFreedSlotNoticeArrival_wf {p k n : Nat} {s : State} (hw : cellsWf s.mem = true) {ρ} (he : execFreedSlotNoticeArrival p k n s = .next ρ) :
    cellsWf ρ.mem = true := by
  unfold execFreedSlotNoticeArrival at he; (repeat' split at he) <;> first | (cases he; simp [hw])

theorem execDistributorReelRequest_wf {p k : Nat} {s : State} (hw : cellsWf s.mem = true) {ρ} (he : execDistributorReelRequest p k s = .next ρ) :
    cellsWf ρ.mem = true := by
  unfold execDistributorReelRequest at he; cases he; simp [hw]

theorem execDistributorUnreelRequest_wf {p k : Nat} {s : State} (hw : cellsWf s.mem = true) {ρ} (he : execDistributorUnreelRequest p k s = .next ρ) :
    cellsWf ρ.mem = true := by
  unfold execDistributorUnreelRequest at he; cases he; simp [hw]

theorem execSkeinSwitchTimeout_wf {p k : Nat} {s : State} (hw : cellsWf s.mem = true) {ρ} (he : execSkeinSwitchTimeout p k s = .next ρ) :
    cellsWf ρ.mem = true := by
  unfold execSkeinSwitchTimeout at he; cases he; simp [hw]

theorem execStageGangPlace_wf {p k n t : Nat} {s : State} (hw : cellsWf s.mem = true) {ρ} (he : execStageGangPlace p k n t s = .next ρ) :
    cellsWf ρ.mem = true := by
  unfold execStageGangPlace at he; (repeat' split at he) <;> first | (cases he; simp [hw])

theorem execSkeinGatherDone_wf {p k : Nat} {s : State} (hw : cellsWf s.mem = true) {ρ} (he : execSkeinGatherDone p k s = .next ρ) :
    cellsWf ρ.mem = true := by
  unfold execSkeinGatherDone at he; (repeat' split at he) <;> first | (cases he; simp [hw])

@[simp] theorem State.switchOver_wf (s : State) (p k : Nat) (defer : List (Nat × FreezeKind)) (hw : cellsWf s.mem = true) :
    cellsWf (State.switchOver s p k defer).mem = true := by
  unfold State.switchOver
  split
  · exact hw
  · refine State.deferredFreezes_wf _ _ ?_
    simp [hw]

@[simp] theorem State.reelCopy_mem (s : State) (p k : Nat) (K : Skein) : (State.reelCopy s p k K).mem = s.mem := by
  unfold State.reelCopy
  dsimp only
  rw [State.makeFolded_mem, State.mapBlock_mem]
  exact foldl_memS fun b a => by split <;> simp

theorem execSkeinCopyDone_wf {p k : Nat} {s : State} (hw : cellsWf s.mem = true) {ρ} (he : execSkeinCopyDone p k s = .next ρ) :
    cellsWf ρ.mem = true := by
  unfold execSkeinCopyDone at he; (try dsimp only at he); (repeat' split at he) <;> (first | (cases he; done) | (cases he; first | assumption | (simp [hw]; done) | (simp [*, foldl_wfS, foldl_wfP, foldl_memS, foldl_memP]; done) | ((repeat' (first | assumption | (with_reducible refine foldl_wfS ?_ (fun b a hb => ?_)) | (with_reducible refine foldl_wfP ?_ (fun b a hb => ?_)) | ((simp [*]; done)) | split | simp)); done)))

@[simp] theorem State.unfold_mem (s : State) (K : Skein) :
    (State.unfold s K).1.mem = s.mem := by
  unfold State.unfold; split <;> rfl

theorem execSkeinUnreelAtKnot_wf {p k : Nat} {s : State} (hw : cellsWf s.mem = true) {ρ} (he : execSkeinUnreelAtKnot p k s = .next ρ) :
    cellsWf ρ.mem = true := by
  unfold execSkeinUnreelAtKnot at he; (try dsimp only at he); (repeat' split at he) <;> (first | (cases he; done) | (cases he; first | assumption | (simp [hw]; done) | (simp [*, foldl_wfS, foldl_wfP, foldl_memS, foldl_memP]; done) | ((repeat' (first | assumption | (with_reducible refine foldl_wfS ?_ (fun b a hb => ?_)) | (with_reducible refine foldl_wfP ?_ (fun b a hb => ?_)) | ((simp [*]; done)) | split | simp)); done)))

theorem execSkeinExportAtKnot_wf {p k : Nat} {s : State} (hw : cellsWf s.mem = true) {ρ} (he : execSkeinExportAtKnot p k s = .next ρ) :
    cellsWf ρ.mem = true := by
  unfold execSkeinExportAtKnot at he
  (repeat' split at he) <;> first | (cases he; exact hw) | skip
  next h =>
  have h1 := (mem_of_pair h).trans (State.unfold_mem _ _)
  cases he
  refine State.deferredFreezes_wf _ _ (State.endSkein_wf _ _ _ _ _ ?_)
  simp only [State.setSkein_mem]
  exact State.devPut_wf _ _ _ _ _ _ _ (by simp [h1, hw])

theorem execAddUniform_wf {d : UDst} {a b : Opnd} {s : State} (hw : cellsWf s.mem = true) {ρ} (he : execAddUniform d a b s = .next ρ) :
    cellsWf ρ.mem = true := by
  unfold execAddUniform at he; exact uni2_wf hw he

theorem execSubUniform_wf {d : UDst} {a b : Opnd} {s : State} (hw : cellsWf s.mem = true) {ρ} (he : execSubUniform d a b s = .next ρ) :
    cellsWf ρ.mem = true := by
  unfold execSubUniform at he; exact uni2_wf hw he

theorem execMulUniform_wf {d : UDst} {a b : Opnd} {s : State} (hw : cellsWf s.mem = true) {ρ} (he : execMulUniform d a b s = .next ρ) :
    cellsWf ρ.mem = true := by
  unfold execMulUniform at he; exact uni2_wf hw he

theorem execMulhUniform_wf {d : UDst} {a b : Opnd} {s : State} (hw : cellsWf s.mem = true) {ρ} (he : execMulhUniform d a b s = .next ρ) :
    cellsWf ρ.mem = true := by
  unfold execMulhUniform at he; exact uni2_wf hw he

theorem execMulhuUniform_wf {d : UDst} {a b : Opnd} {s : State} (hw : cellsWf s.mem = true) {ρ} (he : execMulhuUniform d a b s = .next ρ) :
    cellsWf ρ.mem = true := by
  unfold execMulhuUniform at he; exact uni2_wf hw he

theorem execAndUniform_wf {d : UDst} {a b : Opnd} {s : State} (hw : cellsWf s.mem = true) {ρ} (he : execAndUniform d a b s = .next ρ) :
    cellsWf ρ.mem = true := by
  unfold execAndUniform at he; exact uni2_wf hw he

theorem execOrUniform_wf {d : UDst} {a b : Opnd} {s : State} (hw : cellsWf s.mem = true) {ρ} (he : execOrUniform d a b s = .next ρ) :
    cellsWf ρ.mem = true := by
  unfold execOrUniform at he; exact uni2_wf hw he

theorem execXorUniform_wf {d : UDst} {a b : Opnd} {s : State} (hw : cellsWf s.mem = true) {ρ} (he : execXorUniform d a b s = .next ρ) :
    cellsWf ρ.mem = true := by
  unfold execXorUniform at he; exact uni2_wf hw he

theorem execAndnUniform_wf {d : UDst} {a b : Opnd} {s : State} (hw : cellsWf s.mem = true) {ρ} (he : execAndnUniform d a b s = .next ρ) :
    cellsWf ρ.mem = true := by
  unfold execAndnUniform at he; exact uni2_wf hw he

theorem execShlUniform_wf {d : UDst} {a b : Opnd} {s : State} (hw : cellsWf s.mem = true) {ρ} (he : execShlUniform d a b s = .next ρ) :
    cellsWf ρ.mem = true := by
  unfold execShlUniform at he; exact uni2_wf hw he

theorem execShrUniform_wf {d : UDst} {a b : Opnd} {s : State} (hw : cellsWf s.mem = true) {ρ} (he : execShrUniform d a b s = .next ρ) :
    cellsWf ρ.mem = true := by
  unfold execShrUniform at he; exact uni2_wf hw he

theorem execSarUniform_wf {d : UDst} {a b : Opnd} {s : State} (hw : cellsWf s.mem = true) {ρ} (he : execSarUniform d a b s = .next ρ) :
    cellsWf ρ.mem = true := by
  unfold execSarUniform at he; exact uni2_wf hw he

theorem execMinUniform_wf {d : UDst} {a b : Opnd} {s : State} (hw : cellsWf s.mem = true) {ρ} (he : execMinUniform d a b s = .next ρ) :
    cellsWf ρ.mem = true := by
  unfold execMinUniform at he; exact uni2_wf hw he

theorem execMaxUniform_wf {d : UDst} {a b : Opnd} {s : State} (hw : cellsWf s.mem = true) {ρ} (he : execMaxUniform d a b s = .next ρ) :
    cellsWf ρ.mem = true := by
  unfold execMaxUniform at he; exact uni2_wf hw he

theorem execMinuUniform_wf {d : UDst} {a b : Opnd} {s : State} (hw : cellsWf s.mem = true) {ρ} (he : execMinuUniform d a b s = .next ρ) :
    cellsWf ρ.mem = true := by
  unfold execMinuUniform at he; exact uni2_wf hw he

theorem execMaxuUniform_wf {d : UDst} {a b : Opnd} {s : State} (hw : cellsWf s.mem = true) {ρ} (he : execMaxuUniform d a b s = .next ρ) :
    cellsWf ρ.mem = true := by
  unfold execMaxuUniform at he; exact uni2_wf hw he

theorem execClzUniform_wf {d : UDst} {a : Opnd} {s : State} (hw : cellsWf s.mem = true) {ρ} (he : execClzUniform d a s = .next ρ) :
    cellsWf ρ.mem = true := by
  unfold execClzUniform at he; exact uniResult_wf hw he

theorem execPopcUniform_wf {d : UDst} {a : Opnd} {s : State} (hw : cellsWf s.mem = true) {ρ} (he : execPopcUniform d a s = .next ρ) :
    cellsWf ρ.mem = true := by
  unfold execPopcUniform at he; exact uniResult_wf hw he

theorem execBfeUniform_wf {d : UDst} {a b : Opnd} {s : State} (hw : cellsWf s.mem = true) {ρ} (he : execBfeUniform d a b s = .next ρ) :
    cellsWf ρ.mem = true := by
  unfold execBfeUniform at he; exact uni2_wf hw he

theorem execBfiUniform_wf {d : UDst} {a b : Opnd} {s : State} (hw : cellsWf s.mem = true) {ρ} (he : execBfiUniform d a b s = .next ρ) :
    cellsWf ρ.mem = true := by
  unfold execBfiUniform at he; exact uniResult_wf hw he

theorem execCmpEqUniform_wf {d : UDst} {a b : Opnd} {s : State} (hw : cellsWf s.mem = true) {ρ} (he : execCmpEqUniform d a b s = .next ρ) :
    cellsWf ρ.mem = true := by
  unfold execCmpEqUniform at he; exact uni2_wf hw he

theorem execCmpNeUniform_wf {d : UDst} {a b : Opnd} {s : State} (hw : cellsWf s.mem = true) {ρ} (he : execCmpNeUniform d a b s = .next ρ) :
    cellsWf ρ.mem = true := by
  unfold execCmpNeUniform at he; exact uni2_wf hw he

theorem execCmpLtUniform_wf {d : UDst} {a b : Opnd} {s : State} (hw : cellsWf s.mem = true) {ρ} (he : execCmpLtUniform d a b s = .next ρ) :
    cellsWf ρ.mem = true := by
  unfold execCmpLtUniform at he; exact uni2_wf hw he

theorem execCmpLeUniform_wf {d : UDst} {a b : Opnd} {s : State} (hw : cellsWf s.mem = true) {ρ} (he : execCmpLeUniform d a b s = .next ρ) :
    cellsWf ρ.mem = true := by
  unfold execCmpLeUniform at he; exact uni2_wf hw he

theorem execCmpBloUniform_wf {d : UDst} {a b : Opnd} {s : State} (hw : cellsWf s.mem = true) {ρ} (he : execCmpBloUniform d a b s = .next ρ) :
    cellsWf ρ.mem = true := by
  unfold execCmpBloUniform at he; exact uni2_wf hw he

theorem execCmpBlsUniform_wf {d : UDst} {a b : Opnd} {s : State} (hw : cellsWf s.mem = true) {ρ} (he : execCmpBlsUniform d a b s = .next ρ) :
    cellsWf ρ.mem = true := by
  unfold execCmpBlsUniform at he; exact uni2_wf hw he

theorem execSelUniform_wf {d : UDst} {a b : Opnd} {s : State} (hw : cellsWf s.mem = true) {ρ} (he : execSelUniform d a b s = .next ρ) :
    cellsWf ρ.mem = true := by
  unfold execSelUniform at he; exact uniResult_wf hw he

theorem execMoviUniform_wf {r : BitVec 5} {imm : BitVec 19} {s : State} (hw : cellsWf s.mem = true) {ρ} (he : execMoviUniform r imm s = .next ρ) :
    cellsWf ρ.mem = true := by
  unfold execMoviUniform at he; exact uniResult_wf hw he

theorem execMovhiUniform_wf {r : BitVec 5} {imm : BitVec 19} {s : State} (hw : cellsWf s.mem = true) {ρ} (he : execMovhiUniform r imm s = .next ρ) :
    cellsWf ρ.mem = true := by
  unfold execMovhiUniform at he; exact uniResult_wf hw he

theorem execAddiUniform_wf {r : BitVec 5} {imm : BitVec 19} {s : State} (hw : cellsWf s.mem = true) {ρ} (he : execAddiUniform r imm s = .next ρ) :
    cellsWf ρ.mem = true := by
  unfold execAddiUniform at he; exact uniResult_wf hw he

theorem execRolUniform_wf {d : UDst} {a b : Opnd} {s : State} (hw : cellsWf s.mem = true) {ρ} (he : execRolUniform d a b s = .next ρ) :
    cellsWf ρ.mem = true := by
  unfold execRolUniform at he; exact uni2_wf hw he

end Sys2Proof.Machine
end

