-- ==== Sys2Proof/Laws/KeepExec.lean ====
section
/-! SUPPORT. Every arm of `exec` keeps the canonical form of memory. -/
set_option linter.unusedSimpArgs false
set_option linter.unusedVariables false
namespace Sys2Proof.Machine

theorem exec_wf {i : Instr} {s : State} (hw : cellsWf s.mem = true) {ρ} (he : exec i s = .next ρ) : cellsWf ρ.mem = true := by
  cases i
  case addLane => exact execAddLane_wf hw he
  case subLane => exact execSubLane_wf hw he
  case mulLane => exact execMulLane_wf hw he
  case mulhLane => exact execMulhLane_wf hw he
  case mulhuLane => exact execMulhuLane_wf hw he
  case mad => exact execMad_wf hw he
  case andLane => exact execAndLane_wf hw he
  case orLane => exact execOrLane_wf hw he
  case xorLane => exact execXorLane_wf hw he
  case andnLane => exact execAndnLane_wf hw he
  case shlLane => exact execShlLane_wf hw he
  case shrLane => exact execShrLane_wf hw he
  case sarLane => exact execSarLane_wf hw he
  case rolLane => exact execRolLane_wf hw he
  case minLane => exact execMinLane_wf hw he
  case maxLane => exact execMaxLane_wf hw he
  case minuLane => exact execMinuLane_wf hw he
  case maxuLane => exact execMaxuLane_wf hw he
  case clzLane => exact execClzLane_wf hw he
  case popcLane => exact execPopcLane_wf hw he
  case brev => exact execBrev_wf hw he
  case bfeLane => exact execBfeLane_wf hw he
  case bfiLane => exact execBfiLane_wf hw he
  case selLane => exact execSelLane_wf hw he
  case addc => exact execAddc_wf hw he
  case subb => exact execSubb_wf hw he
  case madc => exact execMadc_wf hw he
  case cmpLane => exact execCmpLane_wf hw he
  case plog => exact execPlog_wf hw he
  case moviLane => exact execMoviLane_wf hw he
  case movhiLane => exact execMovhiLane_wf hw he
  case addiLane => exact execAddiLane_wf hw he
  case fadd => exact execFadd_wf hw he
  case fsub => exact execFsub_wf hw he
  case fmul => exact execFmul_wf hw he
  case fma => exact execFma_wf hw he
  case fmin => exact execFmin_wf hw he
  case fmax => exact execFmax_wf hw he
  case fcmp => exact execFcmp_wf hw he
  case fclass => exact execFclass_wf hw he
  case frnd => exact execFrnd_wf hw he
  case cvt => exact execCvt_wf hw he
  case rcp => exact execRcp_wf hw he
  case rsq => exact execRsq_wf hw he
  case sqrt => exact execSqrt_wf hw he
  case exp2 => exact execExp2_wf hw he
  case log2 => exact execLog2_wf hw he
  case sin => exact execSin_wf hw he
  case cos => exact execCos_wf hw he
  case tanh => exact execTanh_wf hw he
  case padd => exact execPadd_wf hw he
  case pmul => exact execPmul_wf hw he
  case pfma => exact execPfma_wf hw he
  case pmax => exact execPmax_wf hw he
  case fscl => exact execFscl_wf hw he
  case dxpack => exact execDxpack_wf hw he
  case dxunpk => exact execDxunpk_wf hw he
  case dxexp => exact execDxexp_wf hw he
  case shuf => exact execShuf_wf hw he
  case lpush => exact execLpush_wf hw he
  case bcast => exact execBcast_wf hw he
  case lscan => exact execLscan_wf hw he
  case fscan => exact execFscan_wf hw he
  case lred => exact execLred_wf hw he
  case vote => exact execVote_wf hw he
  case rng => exact execRng_wf hw he
  case prefpop => exact execPrefpop_wf hw he
  case ldLane => exact execLdLane_wf hw he
  case stLane => exact execStLane_wf hw he
  case lds => exact execLds_wf hw he
  case sts => exact execSts_wf hw he
  case aaddLane => exact execAaddLane_wf hw he
  case afadd => exact execAfadd_wf hw he
  case amin => exact execAmin_wf hw he
  case amaxLane => exact execAmaxLane_wf hw he
  case aminu => exact execAminu_wf hw he
  case amaxu => exact execAmaxu_wf hw he
  case aand => exact execAand_wf hw he
  case aor => exact execAor_wf hw he
  case axor => exact execAxor_wf hw he
  case axchgLane => exact execAxchgLane_wf hw he
  case acasLane => exact execAcasLane_wf hw he
  case sldLane => exact execSldLane_wf hw he
  case sstLane => exact execSstLane_wf hw he
  case srankLane => exact execSrankLane_wf hw he
  case sanchLane => exact execSanchLane_wf hw he
  case sendLane => exact execSendLane_wf hw he
  case recvLane => exact execRecvLane_wf hw he
  case spawn => exact execSpawn_wf hw he
  case saadd => exact execSaadd_wf hw he
  case samin => exact execSamin_wf hw he
  case samax => exact execSamax_wf hw he
  case sacas => exact execSacas_wf hw he
  case saxchg => exact execSaxchg_wf hw he
  case addUniform => exact execAddUniform_wf hw he
  case subUniform => exact execSubUniform_wf hw he
  case mulUniform => exact execMulUniform_wf hw he
  case mulhUniform => exact execMulhUniform_wf hw he
  case mulhuUniform => exact execMulhuUniform_wf hw he
  case andUniform => exact execAndUniform_wf hw he
  case orUniform => exact execOrUniform_wf hw he
  case xorUniform => exact execXorUniform_wf hw he
  case andnUniform => exact execAndnUniform_wf hw he
  case shlUniform => exact execShlUniform_wf hw he
  case shrUniform => exact execShrUniform_wf hw he
  case sarUniform => exact execSarUniform_wf hw he
  case minUniform => exact execMinUniform_wf hw he
  case maxUniform => exact execMaxUniform_wf hw he
  case minuUniform => exact execMinuUniform_wf hw he
  case maxuUniform => exact execMaxuUniform_wf hw he
  case clzUniform => exact execClzUniform_wf hw he
  case popcUniform => exact execPopcUniform_wf hw he
  case bfeUniform => exact execBfeUniform_wf hw he
  case bfiUniform => exact execBfiUniform_wf hw he
  case cmpEqUniform => exact execCmpEqUniform_wf hw he
  case cmpNeUniform => exact execCmpNeUniform_wf hw he
  case cmpLtUniform => exact execCmpLtUniform_wf hw he
  case cmpLeUniform => exact execCmpLeUniform_wf hw he
  case cmpBloUniform => exact execCmpBloUniform_wf hw he
  case cmpBlsUniform => exact execCmpBlsUniform_wf hw he
  case selUniform => exact execSelUniform_wf hw he
  case moviUniform => exact execMoviUniform_wf hw he
  case movhiUniform => exact execMovhiUniform_wf hw he
  case addiUniform => exact execAddiUniform_wf hw he
  case rolUniform => exact execRolUniform_wf hw he
  case br => exact execBr_wf hw he
  case brz => exact execBrz_wf hw he
  case brnz => exact execBrnz_wf hw he
  case brp => exact execBrp_wf hw he
  case call => exact execCall_wf hw he
  case ret => exact execRet_wf hw he
  case jmpi => exact execJmpi_wf hw he
  case regang => exact execRegang_wf hw he
  case mpush => exact execMpush_wf hw he
  case mpop => exact execMpop_wf hw he
  case msetp => exact execMsetp_wf hw he
  case melse => exact execMelse_wf hw he
  case loop => exact execLoop_wf hw he
  case yield => exact execYield_wf hw he
  case exit => exact execExit_wf hw he
  case nop => exact execNop_wf hw he
  case ldUniform => exact execLdUniform_wf hw he
  case stUniform => exact execStUniform_wf hw he
  case aaddUniform => exact execAaddUniform_wf hw he
  case acasUniform => exact execAcasUniform_wf hw he
  case axchgUniform => exact execAxchgUniform_wf hw he
  case amaxUniform => exact execAmaxUniform_wf hw he
  case fence => exact execFence_wf hw he
  case waitc => exact execWaitc_wf hw he
  case monarm => exact execMonarm_wf hw he
  case monwait => exact execMonwait_wf hw he
  case barinit => exact execBarinit_wf hw he
  case bararv => exact execBararv_wf hw he
  case barexp => exact execBarexp_wf hw he
  case barwait => exact execBarwait_wf hw he
  case tlwait => exact execTlwait_wf hw he
  case tlqry => exact execTlqry_wf hw he
  case tdef => exact execTdef_wf hw he
  case copy => exact execCopy_wf hw he
  case copym => exact execCopym_wf hw he
  case copys => exact execCopys_wf hw he
  case copyr => exact execCopyr_wf hw he
  case mload => exact execMload_wf hw he
  case mswap => exact execMswap_wf hw he
  case mmul => exact execMmul_wf hw he
  case accz => exact execAccz_wf hw he
  case accdrn => exact execAccdrn_wf hw he
  case accmov => exact execAccmov_wf hw he
  case attn => exact execAttn_wf hw he
  case histrd => exact execHistrd_wf hw he
  case histclr => exact execHistclr_wf hw he
  case snew => exact execSnew_wf hw he
  case sfree => exact execSfree_wf hw he
  case slen => exact execSlen_wf hw he
  case sins => exact execSins_wf hw he
  case sdel => exact execSdel_wf hw he
  case ssplit => exact execSsplit_wf hw he
  case scat => exact execScat_wf hw he
  case sgap => exact execSgap_wf hw he
  case sapnd => exact execSapnd_wf hw he
  case sclose => exact execSclose_wf hw he
  case srankUniform => exact execSrankUniform_wf hw he
  case sanchUniform => exact execSanchUniform_wf hw he
  case sldUniform => exact execSldUniform_wf hw he
  case sstUniform => exact execSstUniform_wf hw he
  case sendUniform => exact execSendUniform_wf hw he
  case recvUniform => exact execRecvUniform_wf hw he
  case get => exact execGet_wf hw he
  case put => exact execPut_wf hw he
  case knot => exact execKnot_wf hw he
  case skfold => exact execSkfold_wf hw he
  case skspread => exact execSkspread_wf hw he
  case skqry => exact execSkqry_wf hw he
  case launch => exact execLaunch_wf hw he
  case suspend => exact execSuspend_wf hw he
  case lqry => exact execLqry_wf hw he
  case srd => exact execSrd_wf hw he
  case swr => exact execSwr_wf hw he
  case trap => exact execTrap_wf hw he
  case tret => exact execTret_wf hw he
  case brk => exact execBrk_wf hw he
  case railsGood => exact execRailsGood_wf hw he
  case fullReset => exact execFullReset_wf hw he
  case recoveryImage => exact execRecoveryImage_wf hw he
  case firmwareUpdate => exact execFirmwareUpdate_wf hw he
  case throttleEvaluation => exact execThrottleEvaluation_wf hw he
  case thermtrip => exact execThermtrip_wf (_die := 0) hw he
  case thstatTrippedClear => exact execThstatTrippedClear_wf hw he
  case flitReceive => exact execFlitReceive_wf hw he
  case replayRequest => exact execReplayRequest_wf hw he
  case portRetrain => exact execPortRetrain_wf hw he
  case portTrainingDone => exact execPortTrainingDone_wf hw he
  case boundaryRetrain => exact execBoundaryRetrain_wf hw he
  case boundaryTrainingDone => exact execBoundaryTrainingDone_wf hw he
  case diePacketArrival => exact execDiePacketArrival_wf hw he
  case vectorAnnounce => exact execVectorAnnounce_wf hw he
  case remoteWriteApply => exact execRemoteWriteApply_wf hw he
  case remoteReadPerform => exact execRemoteReadPerform_wf hw he
  case readResponseArrival => exact execReadResponseArrival_wf hw he
  case gpqctlQuiesce => exact execGpqctlQuiesce_wf hw he
  case gpqctlResume => exact execGpqctlResume_wf hw he
  case portQuiesceDone => exact execPortQuiesceDone_wf hw he
  case grtabWrite => exact execGrtabWrite_wf hw he
  case packetWrite => exact execPacketWrite_wf hw he
  case packetRead => exact execPacketRead_wf hw he
  case packetAtomic => exact execPacketAtomic_wf hw he
  case packetSignal => exact execPacketSignal_wf hw he
  case signalApply => exact execSignalApply_wf hw he
  case reduceContribution => exact execReduceContribution_wf hw he
  case localReduceCombine => exact execLocalReduceCombine_wf hw he
  case ackResponse => exact execAckResponse_wf hw he
  case atomresResponse => exact execAtomresResponse_wf hw he
  case errorResponse => exact execErrorResponse_wf hw he
  case lockInterfaceRequest => exact execLockInterfaceRequest_wf hw he
  case getDeviceInterfaceReport => exact execGetDeviceInterfaceReport_wf hw he
  case startInterfaceRequest => exact execStartInterfaceRequest_wf hw he
  case stopInterfaceRequest => exact execStopInterfaceRequest_wf hw he
  case stopScrubDone => exact execStopScrubDone_wf hw he
  case lockedRegisterWrite => exact execLockedRegisterWrite_wf hw he
  case ideIntegrityFailure => exact execIdeIntegrityFailure_wf hw he
  case spdmMeasurements => exact execSpdmMeasurements_wf hw he
  case launchRecordWrite => exact execLaunchRecordWrite_wf hw he
  case lwcfgWrite => exact execLwcfgWrite_wf hw he
  case systemRegisterWrite => exact execSystemRegisterWrite_wf hw he
  case tepcWrite => exact execTepcWrite_wf hw he
  case tlbinvWrite => exact execTlbinvWrite_wf hw he
  case htlbinvWrite => exact execHtlbinvWrite_wf hw he
  case tlbinvComplete => exact execTlbinvComplete_wf hw he
  case translationWalk => exact execTranslationWalk_wf hw he
  case shdiscWrite => exact execShdiscWrite_wf hw he
  case skreqReel => exact execSkreqReel_wf hw he
  case skreqUnreel => exact execSkreqUnreel_wf hw he
  case skreqExport => exact execSkreqExport_wf hw he
  case worldMoveRequest => exact execWorldMoveRequest_wf hw he
  case worldMoveComplete => exact execWorldMoveComplete_wf hw he
  case queueAgeTimer => exact execQueueAgeTimer_wf hw he
  case placeBlock => exact execPlaceBlock_wf hw he
  case timeSliceBoundary => exact execTimeSliceBoundary_wf hw he
  case usedUpdate => exact execUsedUpdate_wf hw he
  case gridCompletion => exact execGridCompletion_wf hw he
  case scrubComplete => exact execScrubComplete_wf hw he
  case freezeRequest => exact execFreezeRequest_wf hw he
  case drainComplete => exact execDrainComplete_wf hw he
  case sheafSaveDone => exact execSheafSaveDone_wf hw he
  case sheafRestore => exact execSheafRestore_wf hw he
  case sheafRestoreDone => exact execSheafRestoreDone_wf hw he
  case debugResume => exact execDebugResume_wf hw he
  case debugSaveRequest => exact execDebugSaveRequest_wf hw he
  case debugScanAccess => exact execDebugScanAccess_wf hw he
  case binTimerExpiry => exact execBinTimerExpiry_wf hw he
  case binFormGang => exact execBinFormGang_wf hw he
  case binStoreDeadlock => exact execBinStoreDeadlock_wf hw he
  case monitorWatchFire => exact execMonitorWatchFire_wf hw he
  case monitorPoll => exact execMonitorPoll_wf hw he
  case suspendDelayExpiry => exact execSuspendDelayExpiry_wf hw he
  case logEntryComplete => exact execLogEntryComplete_wf hw he
  case trapEntry => exact execTrapEntry_wf hw he
  case impreciseReportTaken => exact execImpreciseReportTaken_wf hw he
  case tileStateError => exact execTileStateError_wf hw he
  case dataError => exact execDataError_wf hw he
  case correctedError => exact execCorrectedError_wf hw he
  case patrolScrub => exact execPatrolScrub_wf hw he
  case engineCommandComplete => exact execEngineCommandComplete_wf hw he
  case barrierByteCount => exact execBarrierByteCount_wf hw he
  case linkedStart => exact execLinkedStart_wf hw he
  case strandOpApply => exact execStrandOpApply_wf hw he
  case strandResponse => exact execStrandResponse_wf hw he
  case channelItemArrival => exact execChannelItemArrival_wf hw he
  case distributorReelRequest => exact execDistributorReelRequest_wf hw he
  case stageGangPlace => exact execStageGangPlace_wf hw he
  case skeinGatherDone => exact execSkeinGatherDone_wf hw he
  case skeinCopyDone => exact execSkeinCopyDone_wf hw he
  case skeinUnreelAtKnot => exact execSkeinUnreelAtKnot_wf hw he
  case skeinExportAtKnot => exact execSkeinExportAtKnot_wf hw he
  case skeinSwitchTimeout => exact execSkeinSwitchTimeout_wf hw he
  case railsRemoved => exact execRailsRemoved_wf hw he
  case freedSlotNoticeArrival => exact execFreedSlotNoticeArrival_wf hw he
  case distributorUnreelRequest => exact execDistributorUnreelRequest_wf hw he

end Sys2Proof.Machine
end

