-- ==== Sys2Proof/Laws/KeepTurn.lean ====
section
/-! SUPPORT. Every event of the agenda and every turn keeps the canonical form of memory. -/
set_option linter.unusedSimpArgs false
set_option linter.unusedVariables false
namespace Sys2Proof.Machine

/-- An event keeps the canonical form of memory. -/
def KeepsMem (e : Due) : Prop := ∀ s ρ, cellsWf s.mem = true → e s = .next ρ → cellsWf ρ.mem = true

theorem mem_if {α : Type} {c : Prop} [Decidable c] {l m : List α} {x : α} (h : x ∈ (if c then l else m)) : x ∈ l ∨ x ∈ m := by
  split at h
  · exact .inl h
  · exact .inr h

theorem arrivalEvent_keeps (p : Nat) (pk : Packet) : KeepsMem (arrivalEvent p pk) := by
  unfold arrivalEvent
  intro s ρ hw he
  (repeat' split at he)
  · exact execPacketRead_wf hw he
  · exact execPacketAtomic_wf hw he
  · exact execPacketSignal_wf hw he
  · exact execReduceContribution_wf hw he
  · exact execReadResponseArrival_wf hw he
  · exact execAckResponse_wf hw he
  · exact execAtomresResponse_wf hw he
  · exact execErrorResponse_wf hw he
  · exact execPacketWrite_wf hw he

theorem dueAnswers_keeps {s : State} {e : Due} (h : e ∈ s.dueAnswers) : KeepsMem e := by
  simp only [State.dueAnswers, List.mem_map] at h
  obtain ⟨⟨r, k⟩, -, rfl⟩ := h
  dsimp only
  split
  · exact fun s ρ hw he => execStrandResponse_wf hw he
  · exact fun s ρ hw he => execReadResponseArrival_wf hw he

theorem dueAtHomes_keeps {s : State} {e : Due} (h : e ∈ s.dueAtHomes) : KeepsMem e := by
  simp only [State.dueAtHomes, List.mem_flatMap, List.mem_filterMap] at h
  obtain ⟨⟨hd, D⟩, -, k, -, h⟩ := h
  dsimp only at h
  (repeat' split at h) <;> cases h
  · exact fun s ρ hw he => execRemoteWriteApply_wf hw he
  · exact fun s ρ hw he => execRemoteWriteApply_wf hw he
  · exact fun s ρ hw he => execRemoteWriteApply_wf hw he
  · exact fun s ρ hw he => execRemoteReadPerform_wf hw he
  · exact fun s ρ hw he => execStrandOpApply_wf hw he

theorem dueLeaving_keeps {s : State} {e : Due} (h : e ∈ s.dueLeaving) : KeepsMem e := by
  simp only [State.dueLeaving, List.mem_filterMap] at h
  obtain ⟨⟨d, D⟩, -, h⟩ := h
  dsimp only at h
  split at h <;> cases h
  exact fun s ρ hw he => leaveNext_wf hw he

theorem dueRetrains_keeps {s : State} {e : Due} (h : e ∈ s.dueRetrains) : KeepsMem e := by
  simp only [State.dueRetrains, List.mem_append, List.mem_filterMap] at h
  rcases h with ⟨⟨p, P⟩, -, h⟩ | ⟨⟨p, P⟩, -, h⟩ <;> dsimp only at h <;> split at h <;> cases h
  · exact fun s ρ hw he => execPortRetrain_wf hw he
  · exact fun s ρ hw he => execBoundaryRetrain_wf hw he

theorem dueFabric_keeps {s : State} {e : Due} (h : e ∈ s.dueFabric) : KeepsMem e := by
  simp only [State.dueFabric, List.mem_append, List.mem_map, List.mem_filterMap] at h
  rcases h with ((((⟨a, -, rfl⟩ | ⟨k, -, rfl⟩) | ⟨pk, -, rfl⟩) | ⟨k, -, rfl⟩) | h) | ⟨⟨p, P⟩, -, h⟩
  · exact arrivalEvent_keeps _ _
  · exact fun s ρ hw he => execSignalApply_wf hw he
  · exact fun s ρ hw he => execReduceContribution_wf hw he
  · exact fun s ρ hw he => execLocalReduceCombine_wf hw he
  · split at h <;> simp only [List.mem_singleton, List.not_mem_nil] at h
    subst h; intro s ρ hw he; unfold pumpNext at he; cases he; exact State.pump_wf _ hw
  · dsimp only at h
    split at h <;> cases h
    exact fun s ρ hw he => execPortQuiesceDone_wf hw he

theorem dueParked_keeps {s : State} {t : Nat} {T : Tile} {e : Due} (h : e ∈ dueParked s t T) : KeepsMem e := by
  simp only [dueParked, List.mem_filterMap] at h
  obtain ⟨⟨k, c⟩, -, h⟩ := h
  dsimp only at h
  (repeat' split at h) <;> cases h
  · exact fun s ρ hw he => execMonitorWatchFire_wf hw he
  · exact fun s ρ hw he => execMonitorPoll_wf hw he
  · exact fun s ρ hw he => execSuspendDelayExpiry_wf hw he

theorem dueRunning_keeps {s : State} {t : Nat} {T : Tile} {e : Due} (h : e ∈ s.dueRunning t T) : KeepsMem e := by
  simp only [State.dueRunning, List.mem_append, List.mem_flatMap, List.mem_map, List.mem_filterMap] at h
  rcases h with ((((⟨⟨u, U⟩, -, (h | h) | h⟩ | ⟨c, -, rfl⟩) | h) | ⟨⟨b, x⟩, -, h⟩) | h) | h
  · dsimp only at h
    split at h <;> simp only [List.mem_singleton, List.not_mem_nil] at h
    subst h; exact fun s ρ hw he => execTileStateError_wf hw he
  · simp only [dueEntries, List.mem_flatMap, List.mem_map] at h
    obtain ⟨⟨k, S⟩, -, x, -, rfl⟩ := h
    exact fun s ρ hw he => execLogEntryComplete_wf hw he
  · dsimp only at h
    split at h <;> simp only [List.mem_singleton, List.not_mem_nil] at h
    subst h; exact fun s ρ hw he => execTrapEntry_wf hw he
  · exact fun s ρ hw he => execEngineCommandComplete_wf hw he
  · split at h
    · simp only [List.mem_cons, List.not_mem_nil, or_false] at h
      rcases h with rfl | rfl
      · exact fun s ρ hw he => execLinkedStart_wf hw he
      · exact fun s ρ hw he => execEngineCommandComplete_wf hw he
    · simp at h
  · dsimp only at h
    (repeat' split at h) <;> cases h
    exact fun s ρ hw he => execBinTimerExpiry_wf hw he
  · split at h <;> simp only [List.mem_singleton, List.not_mem_nil] at h
    subst h; exact fun s ρ hw he => execBinFormGang_wf hw he
  · exact dueParked_keeps h

theorem dueTile_keeps {s : State} {t : Nat} {T : Tile} {e : Due} (h : e ∈ s.dueTile t T) : KeepsMem e := by
  simp only [State.dueTile, List.mem_append] at h
  rcases h with h | h
  · split at h <;> simp only [List.mem_singleton, List.not_mem_nil] at h
    subst h; exact fun s ρ hw he => execScrubComplete_wf hw he
  · (split at h) <;> first | exact dueRunning_keeps h | simp only [List.mem_singleton, List.not_mem_nil] at h
    · subst h; exact fun s ρ hw he => execDrainComplete_wf hw he
    · subst h; exact fun s ρ hw he => execDrainComplete_wf hw he
    · subst h; exact fun s ρ hw he => execSheafSaveDone_wf hw he
    · subst h; exact fun s ρ hw he => execSheafRestoreDone_wf hw he

theorem dueSkein_keeps {s : State} {p : Nat} {P : Part} {k : Nat} {K : Skein} {e : Due} (h : e ∈ s.dueSkein p P k K) : KeepsMem e := by
  simp only [State.dueSkein, List.mem_append, List.mem_flatMap] at h
  rcases h with ((h | ⟨n, -, h⟩) | h) | ⟨⟨st, n⟩, -, h⟩
  · split at h <;> simp only [List.mem_singleton, List.not_mem_nil] at h
    subst h; exact fun s ρ hw he => execSkeinSwitchTimeout_wf hw he
  · simp only [List.mem_cons, List.not_mem_nil, or_false] at h
    rcases h with rfl | rfl
    · exact fun s ρ hw he => execChannelItemArrival_wf hw he
    · exact fun s ρ hw he => execFreedSlotNoticeArrival_wf hw he
  · split at h <;> simp only [List.mem_singleton, List.not_mem_nil] at h
    · subst h; exact fun s ρ hw he => execSkeinGatherDone_wf hw he
    · subst h; exact fun s ρ hw he => execSkeinCopyDone_wf hw he
    · subst h; exact fun s ρ hw he => execSkeinUnreelAtKnot_wf hw he
    · subst h; exact fun s ρ hw he => execSkeinExportAtKnot_wf hw he
  · dsimp only at h
    split at h
    · simp only [List.mem_map] at h
      obtain ⟨t, -, rfl⟩ := h
      exact fun s ρ hw he => execStageGangPlace_wf hw he
    · simp at h

theorem restores_keep {l : List (Nat × Nat)} {p : Nat} {e : Due} (h : e ∈ l.map fun x => execSheafRestore p x.1 x.2) : KeepsMem e := by
  simp only [List.mem_map] at h
  obtain ⟨x, -, rfl⟩ := h
  exact fun s ρ hw he => execSheafRestore_wf hw he

theorem placeBlock_keeps (p : Nat) (ts : List Nat) : KeepsMem (execPlaceBlock p ts) := fun _ _ hw he => execPlaceBlock_wf hw he

theorem dueServe_keeps {s : State} {p : Nat} {P : Part} {e : Due} (h : e ∈ s.dueServe p P) : KeepsMem e := by
  simp only [State.dueServe] at h
  split at h
  · simp at h
  · split at h
    · exact restores_keep h
    · rw [List.mem_append] at h
      rcases h with h | h
      · exact restores_keep h
      · split at h
        · split at h <;> simp only [List.mem_singleton, List.not_mem_nil] at h
          subst h; exact placeBlock_keeps _ _
        · exact restores_keep h
        · simp only [List.mem_singleton] at h
          subst h; exact placeBlock_keeps _ _
        · simp only [List.mem_singleton] at h
          subst h; exact placeBlock_keeps _ _

theorem dueFreezes_keeps {s : State} {p : Nat} {P : Part} {e : Due} (h : e ∈ s.dueFreezes p P) : KeepsMem e := by
  simp only [State.dueFreezes, List.mem_flatMap] at h
  obtain ⟨t, -, h⟩ := h
  (repeat' split at h) <;> first
    | simp only [List.not_mem_nil] at h
    | (simp only [List.mem_singleton] at h
       subst h; exact fun s ρ hw he => execFreezeRequest_wf hw he)
    | (simp only [List.mem_map] at h
       obtain ⟨x, -, rfl⟩ := h
       exact fun s ρ hw he => execDistributorReelRequest_wf hw he)

theorem dueQueues_keeps {s : State} {p : Nat} {P : Part} {e : Due} (h : e ∈ s.dueQueues p P) : KeepsMem e := by
  simp only [State.dueQueues] at h
  rw [List.mem_append] at h
  rcases h with h | h
  · split at h <;> simp only [List.mem_singleton, List.not_mem_nil] at h
    subst h; exact fun s ρ hw he => execTimeSliceBoundary_wf hw he
  · split at h
    · exact dueServe_keeps h
    · simp only [List.mem_append, List.mem_filterMap] at h
      rcases h with ((h | ⟨⟨k, q⟩, -, h⟩) | h) | h
      · split at h
        · simp only [List.mem_map] at h
          obtain ⟨t, -, rfl⟩ := h
          exact fun s ρ hw he => execUsedUpdate_wf hw he
        · simp at h
      · dsimp only at h
        split at h <;> cases h
        exact fun s ρ hw he => execQueueAgeTimer_wf hw he
      · exact dueServe_keeps h
      · exact dueFreezes_keeps h

theorem duePart_keeps {s : State} {p : Nat} {P : Part} {e : Due} (h : e ∈ s.duePart p P) : KeepsMem e := by
  simp only [State.duePart, List.mem_append, List.mem_flatMap] at h
  rcases h with ((⟨⟨k, K⟩, -, h⟩ | h) | h) | h
  · exact dueSkein_keeps h
  · exact dueQueues_keeps h
  · split at h <;> simp only [List.mem_singleton, List.not_mem_nil] at h
    subst h; exact fun s ρ hw he => returnFarEdge_wf hw he
  · split at h <;> simp only [List.mem_singleton, List.not_mem_nil] at h
    subst h; exact fun s ρ hw he => execTlbinvComplete_wf hw he

theorem dueRest_keeps {s : State} {e : Due} (h : e ∈ s.dueRest) : KeepsMem e := by
  simp only [State.dueRest, List.mem_append, List.mem_filterMap, List.mem_map] at h
  rcases h with ((⟨⟨g, G⟩, -, h⟩ | ⟨m, -, rfl⟩) | ⟨⟨v, V⟩, -, h⟩) | ⟨⟨t, T⟩, -, h⟩
  · dsimp only at h
    split at h <;> cases h
    exact fun s ρ hw he => execGridCompletion_wf hw he
  · exact fun s ρ hw he => execWorldMoveComplete_wf hw he
  · dsimp only at h
    split at h <;> cases h
    exact fun s ρ hw he => execStopScrubDone_wf hw he
  · dsimp only at h
    split at h <;> cases h
    exact fun s ρ hw he => execBinStoreDeadlock_wf hw he

/-- Every event that may be due keeps the canonical form of memory. -/
theorem due_keeps {s : State} {e : Due} (h : e ∈ s.due) : KeepsMem e := by
  simp only [State.due, List.mem_append, List.mem_flatMap] at h
  rcases h with ((((((((h | h) | h) | h) | h) | h) | h) | ⟨⟨t, T⟩, -, h⟩) | ⟨⟨p, P⟩, -, h⟩) | h
  · exact dueAnswers_keeps h
  · exact dueRetrains_keeps h
  · simp only [State.duePackets, List.mem_map] at h
    obtain ⟨m, -, rfl⟩ := h
    exact fun s ρ hw he => execDiePacketArrival_wf hw he
  · exact dueLeaving_keeps h
  · exact dueAtHomes_keeps h
  · simp only [State.dueAnnounces, List.mem_filterMap] at h
    obtain ⟨⟨d, D⟩, -, h⟩ := h
    dsimp only at h
    split at h <;> cases h
    exact fun s ρ hw he => execVectorAnnounce_wf hw he
  · exact dueFabric_keeps h
  · exact dueTile_keeps h
  · exact duePart_keeps h
  · exact dueRest_keeps h

theorem nextEvent_keeps {s : State} {e : Due} (h : s.nextEvent = some e) : KeepsMem e :=
  due_keeps (List.mem_of_find?_eq_some h)


@[simp] theorem State.afterEvent_wf (s : State) (hw : cellsWf s.mem = true) : cellsWf s.afterEvent.mem = true := by
  unfold State.afterEvent
  dsimp only
  rw [State.flushPorts_mem, foldl_memS (f := fun (s : State) t => s.settleBins t) fun b a => State.settleBins_mem _ _]
  exact foldl_wfS (f := fun (s : State) t => s.settleTile t) hw fun b a hb => State.settleTile_wf _ _ hb

theorem dueTurn_wf {e : Due} {s : State} (k : KeepsMem e) (hw : cellsWf s.mem = true) {ρ} (he : dueTurn e s = .next ρ) :
    cellsWf ρ.mem = true := by
  unfold dueTurn at he
  split at he
  · next h => cases he; exact State.afterEvent_wf _ (k { s with cur := none } _ hw h)
  · next h => exact absurd he (h _)

theorem issueTurn_wf {t u : Nat} {s : State} (hw : cellsWf s.mem = true) {ρ} (he : issueTurn t u s = .next ρ) :
    cellsWf ρ.mem = true := by
  unfold issueTurn at he
  have h1 : cellsWf (s.beginIssue t u).mem = true := by simp [hw]
  dsimp only at he
  split at he
  · cases he; exact h1
  · split at he
    · next h => cases he; exact State.endIssue_wf _ _ _ (front_wf h1 h)
    · next h =>
      split at he
      · next h2 => 
        injection he with he
        have h3 := wait_wf (front_wf h1 h) h2
        rw [← he]
        exact h3
      · next h => exact absurd he (h _)
    · next h =>
      split at he
      · next h2 => cases he; exact State.finishIssue_wf _ _ _ _ _ _ (exec_wf (front_wf h1 h) h2)
      · next h => exact absurd he (h _)

@[simp] theorem State.tickDie_mem (s : State) (d n : Nat) : (s.tickDie d n).mem = s.mem := rfl

theorem hostTurn_wf {pa : Nat} {bs : List Byte} {s : State} (hw : cellsWf s.mem = true) {ρ} (he : hostTurn pa bs s = .next ρ) :
    cellsWf ρ.mem = true := by
  unfold hostTurn at he
  dsimp only at he
  split at he
  · cases he
  · split at he
    · cases he; split <;> simp [hw]
    · split at he
      · cases he; exact hw
      · cases he
        refine foldl_wfS hw fun b a hb => ?_
        split <;> simp [hb]

theorem hostReadTurn_wf {pa n : Nat} {s : State} (hw : cellsWf s.mem = true) {ρ} (he : hostReadTurn pa n s = .next ρ) :
    cellsWf ρ.mem = true := by
  unfold hostReadTurn at he
  dsimp only at he
  (repeat' split at he) <;> first | (cases he; done) | (cases he; exact hw) | skip
  cases he
  refine foldl_wfS hw fun b a hb => ?_
  (repeat' split) <;> simp [hb]

theorem turn_wf {x : Turn} {s : State} (hw : cellsWf s.mem = true) {ρ} (he : turn x s = .next ρ) : cellsWf ρ.mem = true := by
  unfold turn at he
  split at he
  · unfold eventTurn at he
    split at he
    · cases he; exact hw
    · exact dueTurn_wf (fun s ρ hw he => exec_wf hw he) hw he
  · split at he
    · exact issueTurn_wf hw he
    · cases he; exact hw
  · cases he; simp [hw]
  · cases he; simp [hw]
  · cases he; simp [hw]
  · unfold tickTurn at he
    split at he <;> cases he <;> simp [hw]
  · exact hostTurn_wf hw he
  · exact hostReadTurn_wf hw he
  · unfold hostWindowTurn at he
    dsimp only at he
    split at he <;> cases he <;> simp [hw]

theorem ownTurn_wf {s : State} (hw : cellsWf s.mem = true) {ρ} (he : ownTurn s = .next ρ) : cellsWf ρ.mem = true := by
  unfold ownTurn at he
  split at he
  · next h => exact dueTurn_wf (nextEvent_keeps h) hw he
  · split at he
    · exact issueTurn_wf hw he
    · unfold idleTurn at he
      split at he
      · cases he; exact hw
      · cases he; exact hw
      · cases he
        exact foldl_wfS hw fun b a hb => by simp [hb]

end Sys2Proof.Machine
end

