-- ==== Sys2Proof/Laws/LaneOps.lean ====
section
/-!
SUPPORT. The values of the lane instructions.
-/
set_option linter.unusedSimpArgs false
set_option linter.unusedVariables false
namespace Sys2Proof.Machine.Lane32

theorem minS_eq (x y : W32) : minS x y = if x.toInt ≤ y.toInt then x else y := by
  simp only [minS, BitVec.slt_eq_decide, decide_eq_true_eq]; split <;> split <;> first | rfl | omega

theorem maxS_eq (x y : W32) : maxS x y = if x.toInt ≤ y.toInt then y else x := by
  simp only [maxS, BitVec.slt_eq_decide, decide_eq_true_eq]
  split <;> split <;> first | rfl | omega | (apply BitVec.eq_of_toInt_eq; omega)

theorem minU_eq (x y : W32) : minU x y = if x.toNat ≤ y.toNat then x else y := by
  simp only [minU, BitVec.ult_eq_decide, decide_eq_true_eq]; split <;> split <;> first | rfl | omega

theorem maxU_eq (x y : W32) : maxU x y = if x.toNat ≤ y.toNat then y else x := by
  simp only [maxU, BitVec.ult_eq_decide, decide_eq_true_eq]
  split <;> split <;> first | rfl | omega | (apply BitVec.eq_of_toNat_eq; omega)

theorem cnt_eq (y : W32) : (y.extractLsb' 0 5).toNat = low5 y := by
  simp [low5, BitVec.extractLsb'_toNat]

theorem low5_lt (y : W32) : low5 y < 32 := Nat.mod_lt _ (by decide)

theorem add_eq (x y : W32) : x + y = BitVec.ofNat 32 (x.toNat + y.toNat) := by
  apply BitVec.eq_of_toNat_eq; simp

theorem mul_eq (x y : W32) : x * y = BitVec.ofNat 32 (x.toNat * y.toNat) := by
  apply BitVec.eq_of_toNat_eq; simp

theorem mad_eq (x y z : W32) : x * y + z = BitVec.ofNat 32 (x.toNat * y.toNat + z.toNat) := by
  apply BitVec.eq_of_toNat_eq; simp

theorem sub_eq (x y : W32) : x - y = BitVec.ofInt 32 (x.toNat - y.toNat) := by
  apply BitVec.eq_of_toNat_eq
  simp only [BitVec.toNat_sub, BitVec.toNat_ofInt]; have := x.isLt; have := y.isLt; omega

theorem shl_eq (x y : W32) : x <<< low5 y = BitVec.ofNat 32 (x.toNat * 2 ^ low5 y) := by
  apply BitVec.eq_of_toNat_eq; simp [Nat.shiftLeft_eq]

theorem shr_eq (x y : W32) : x >>> low5 y = BitVec.ofNat 32 (x.toNat / 2 ^ low5 y) := by
  apply BitVec.eq_of_toNat_eq
  simp only [BitVec.toNat_ushiftRight, Nat.shiftRight_eq_div_pow, BitVec.toNat_ofNat]
  rw [Nat.mod_eq_of_lt (Nat.lt_of_le_of_lt (Nat.div_le_self _ _) x.isLt)]

theorem sar_eq (x y : W32) : x.sshiftRight (low5 y) = BitVec.ofInt 32 (x.toInt / 2 ^ low5 y) := by
  rw [BitVec.sshiftRight, Int.shiftRight_eq_div_pow]; norm_cast

theorem rol_eq (x y : W32) : x.rotateLeft (low5 y) = (x <<< low5 y) ||| (x >>> (32 - low5 y)) := by
  rw [BitVec.rotateLeft_def, Nat.mod_eq_of_lt (low5_lt y)]

theorem movi_eq (m : BitVec 16) : m.signExtend 32 = BitVec.ofInt 32 m.toInt := rfl

theorem movhi_eq (m : BitVec 16) (z : W32) : m ++ z.setWidth 16 = BitVec.ofNat 32 (m.toNat * 2 ^ 16 + z.toNat % 2 ^ 16) := by
  apply BitVec.eq_of_toNat_eq
  have := m.isLt
  have e : (z.setWidth 16).toNat = z.toNat % 2 ^ 16 := BitVec.toNat_setWidth ..
  have l := (z.setWidth 16).isLt
  rw [BitVec.toNat_append, ← Nat.shiftLeft_add_eq_or_of_lt l, Nat.shiftLeft_eq, e, BitVec.toNat_ofNat]
  omega

theorem addi_eq (m : BitVec 16) (z : W32) : z + m.signExtend 32 = BitVec.ofInt 32 (z.toNat + m.toInt) := by
  rw [BitVec.ofInt_add, ← movi_eq]; congr 1; simp

theorem low5_mod (y : W32) : y.toNat % 32 = low5 y := rfl

theorem across_eq (R : Rd) (o : Opnd) (k : Nat) : spanInt R o k = R.across o k := by
  simp [spanInt, Rd.across]

theorem fold_ident (op : ScanOp) (x : W32) : op.apply op.ident x = x := by
  cases op <;> simp only [ScanOp.apply, ScanOp.ident, minS_eq, maxS_eq, minU_eq, maxU_eq] 
  · simp
  · have := x.toInt_lt; split
    · next h => apply BitVec.eq_of_toInt_eq; simp at *; omega
    · rfl
  · have := x.le_toInt; split
    · rfl
    · next h => exfalso; simp at *; omega
  · split
    · next h => apply BitVec.eq_of_toNat_eq; have := x.isLt; simp at *; omega
    · rfl
  · simp
  · have : (0xFFFFFFFF : W32) = BitVec.allOnes 32 := rfl
    rw [this, BitVec.allOnes_and]
  · simp
  · simp

theorem fold1_map (op : ScanOp) (f : Nat → W32) (l : List Nat) :
    (fold1 op.apply (l.map f)).getD op.ident = l.foldl (fun x k => op.apply x (f k)) op.ident := by
  cases l with
  | nil => rfl
  | cons a l => simp only [List.map_cons, fold1, Option.getD_some, List.foldl_cons, fold_ident, List.foldl_map]

theorem foldl_add_sum (l : List Nat) (f : Nat → Nat) (n : Nat) : l.foldl (fun n k => n + f k) n = n + (l.map f).sum := by
  induction l generalizing n with
  | nil => simp
  | cons a l ih => simp [ih]; omega

theorem any_eq (ps : List Bool) : ps.any id = decide (true ∈ ps) := by
  induction ps with
  | nil => rfl
  | cons x l ih => cases x <;> simp_all

theorem all_eq (ps : List Bool) : ps.all id = decide (false ∉ ps) := by
  induction ps with
  | nil => rfl
  | cons x l ih => cases x <;> simp_all

theorem vote_eq (m : VoteMode) (ps : List Bool) : m.result ps = (match m with
      | .any => decide (true ∈ ps)
      | .all => decide (false ∉ ps)
      | .uni => decide (¬ (true ∈ ps ∧ false ∈ ps))) := by
  cases m <;> simp only [VoteMode.result, any_eq, all_eq]
  by_cases h : true ∈ ps <;> by_cases k : false ∈ ps <;> simp [h, k]

theorem madc_eq (a b l h : W32) (p : Bool) : madCarry a b (h ++ l) p = 
    (BitVec.ofNat 64 (a.toNat * b.toNat + (h.toNat * 2 ^ 32 + l.toNat) + bit p), decide (2 ^ 64 ≤ a.toNat * b.toNat + (h.toNat * 2 ^ 32 + l.toNat) + bit p)) := by
  have e : (h ++ l).toNat = h.toNat * 2 ^ 32 + l.toNat := by
    rw [BitVec.toNat_append, ← Nat.shiftLeft_add_eq_or_of_lt l.isLt, Nat.shiftLeft_eq]
  have b : p.toNat = bit p := by cases p <;> rfl
  simp only [madCarry, e, b]

theorem carry_next {s : State} {i : Instr} {F : CarryForm} {f : Rd → Nat → List W32 × Bool} {I : Issuer}
    (h : Issues s i true F.uses I) (x : exec i s = laneCarry s i F.uses F.dst F.p f) (n : readsLatch F.uses = false)
    (e : ∀ R j, f R j = F.val R j) :
    ∃ t, exec i s = .next t ∧ LaneStep s I .ring
      (fun j L => if I.sub.active j then
          (L.took (s.window I) I.sub.depth ⟨false, F.dst⟩ (F.val (s.reads I F.uses) j).1).setPred F.p.toNat
            (F.val (s.reads I F.uses) j).2
        else L.missed I.sub.depth) t := by
  obtain rfl : f = F.val := funext fun R => funext fun j => e R j
  rw [x]
  unfold laneCarry
  rw [h.run]
  simp only [State.afterOperands, State.latchSeed, State.reads, n, List.map_map, List.foldl_map]
  obtain ⟨t, ht, hl⟩ := retire_lanes s I .ring
    ((writeResults_lanes (s.window I) I.sub ⟨false, F.dst⟩ fun j => (F.val (s.reads I F.uses) j).1).trans
      (Sub.LanesBy.fold I.sub.actives (fun j => j) (fun j L => L.setPred F.p.toNat (F.val (s.reads I F.uses) j).2) _
        (fun U j => Sub.LanesBy.mapLane U j _) _))
  refine ⟨t, ?_, LaneStep.congr hl fun j L hj => ?_⟩
  · rw [← ht]
    simp [dstOf, State.reads, State.latchSeed, n]; rfl
  · rw [foldl_lane_mem _ I.sub.actives_nodup]
    by_cases a : I.sub.active j <;> simp [Sub.mem_actives, hj, a, State.reads, State.latchSeed, n]

end Sys2Proof.Machine.Lane32
end

