-- ==== Sys2Proof/Laws/OperandUse.lean ====
section
/-!
SUPPORT. Every instruction whose operands a form gives is the shared operand check over those operands (R238).
-/
namespace Sys2Proof.Machine

theorem int_operands {i : Instr} {F} (h : laneIntForm i = some F) (s : State) : ∃ f, exec i s = withOperands s i true F.uses f := by
  cases i <;> first | (cases h; done) | skip
  all_goals
    cases h
    simp only [
      exec_addLane, exec_subLane, exec_mulLane, exec_mulhLane, exec_mulhuLane, exec_mad, exec_andLane, exec_orLane, exec_xorLane,
      exec_andnLane, exec_shlLane, exec_shrLane, exec_sarLane, exec_rolLane, exec_minLane, exec_maxLane, exec_minuLane,
      exec_maxuLane, exec_clzLane, exec_popcLane, exec_brev, exec_bfeLane, exec_bfiLane, exec_selLane, exec_moviLane,
      exec_movhiLane, exec_addiLane, execAddLane, execSubLane, execMulLane, execMulhLane, execMulhuLane, execMad, execAndLane,
      execOrLane, execXorLane, execAndnLane, execShlLane, execShrLane, execSarLane, execRolLane, execMinLane, execMaxLane,
      execMinuLane, execMaxuLane, execClzLane, execPopcLane, execBrev, execBfeLane, execBfiLane, execSelLane, execMoviLane,
      execMovhiLane, execAddiLane, laneInt1, laneInt2, laneInt3, laneFlt1, laneFlt2, laneResult, lanePred, laneCarry, uni2,
      uniResult, maskOp]
    exact ⟨_, rfl⟩

theorem float_operands {i : Instr} {F} (h : laneFloatForm i = some F) (s : State) : ∃ f, exec i s = withOperands s i true F.uses f := by
  cases i <;> first | (cases h; done) | skip
  all_goals
    cases h
    simp only [
      exec_fadd, exec_fsub, exec_fmul, exec_fma, exec_fmin, exec_fmax, exec_fscl, exec_frnd, exec_cvt, exec_rcp, exec_rsq,
      exec_sqrt, exec_exp2, exec_log2, exec_sin, exec_cos, exec_tanh, exec_padd, exec_pmul, exec_pmax, exec_pfma, execFadd,
      execFsub, execFmul, execFma, execFmin, execFmax, execFscl, execFrnd, execCvt, execRcp, execRsq, execSqrt, execExp2,
      execLog2, execSin, execCos, execTanh, execPadd, execPmul, execPmax, execPfma, laneInt1, laneInt2, laneInt3, laneFlt1,
      laneFlt2, laneResult, lanePred, laneCarry, uni2, uniResult, maskOp]
    exact ⟨_, rfl⟩

theorem cross_operands {i : Instr} {F} (h : laneCrossForm i = some F) (s : State) : ∃ f, exec i s = withOperands s i true F.uses f := by
  cases i <;> first | (cases h; done) | skip
  all_goals
    cases h
    simp only [
      exec_shuf, exec_bcast, exec_lpush, exec_lscan, exec_fscan, exec_lred, exec_prefpop, exec_dxpack, exec_dxexp, exec_dxunpk,
      exec_rng, execShuf, execBcast, execLpush, execLscan, execFscan, execLred, execPrefpop, execDxpack, execDxexp, execDxunpk,
      execRng, laneInt1, laneInt2, laneInt3, laneFlt1, laneFlt2, laneResult, lanePred, laneCarry, uni2, uniResult, maskOp]
    exact ⟨_, rfl⟩

theorem pred_operands {i : Instr} {F} (h : lanePredForm i = some F) (s : State) : ∃ f, exec i s = withOperands s i true (.prd F.dst :: F.uses) f := by
  cases i <;> first | (cases h; done) | skip
  all_goals
    cases h
    simp only [
      exec_cmpLane, exec_fcmp, exec_fclass, exec_plog, exec_vote, execCmpLane, execFcmp, execFclass, execPlog, execVote,
      laneInt1, laneInt2, laneInt3, laneFlt1, laneFlt2, laneResult, lanePred, laneCarry, uni2, uniResult, maskOp]
    exact ⟨_, rfl⟩

theorem carry_operands {i : Instr} {F} (h : laneCarryForm i = some F) (s : State) : ∃ f, exec i s = withOperands s i true F.uses f := by
  cases i <;> first | (cases h; done) | skip
  all_goals
    cases h
    simp only [
      exec_addc, exec_subb, exec_madc, execAddc, execSubb, execMadc, laneInt1, laneInt2, laneInt3, laneFlt1, laneFlt2,
      laneResult, lanePred, laneCarry, uni2, uniResult, maskOp]
    exact ⟨_, rfl⟩

theorem uni_operands {i : Instr} {F} (h : uniForm i = some F) (s : State) : ∃ f, exec i s = withOperands s i true F.uses f := by
  cases i <;> first | (cases h; done) | skip
  all_goals
    cases h
    simp only [
      exec_addUniform, exec_subUniform, exec_mulUniform, exec_mulhUniform, exec_mulhuUniform, exec_andUniform, exec_orUniform,
      exec_xorUniform, exec_andnUniform, exec_shlUniform, exec_shrUniform, exec_sarUniform, exec_rolUniform, exec_minUniform,
      exec_maxUniform, exec_minuUniform, exec_maxuUniform, exec_clzUniform, exec_popcUniform, exec_bfeUniform, exec_bfiUniform,
      exec_cmpEqUniform, exec_cmpNeUniform, exec_cmpLtUniform, exec_cmpLeUniform, exec_cmpBloUniform, exec_cmpBlsUniform,
      exec_selUniform, exec_moviUniform, exec_movhiUniform, exec_addiUniform, execAddUniform, execSubUniform, execMulUniform,
      execMulhUniform, execMulhuUniform, execAndUniform, execOrUniform, execXorUniform, execAndnUniform, execShlUniform,
      execShrUniform, execSarUniform, execRolUniform, execMinUniform, execMaxUniform, execMinuUniform, execMaxuUniform,
      execClzUniform, execPopcUniform, execBfeUniform, execBfiUniform, execCmpEqUniform, execCmpNeUniform, execCmpLtUniform,
      execCmpLeUniform, execCmpBloUniform, execCmpBlsUniform, execSelUniform, execMoviUniform, execMovhiUniform, execAddiUniform,
      laneInt1, laneInt2, laneInt3, laneFlt1, laneFlt2, laneResult, lanePred, laneCarry, uni2, uniResult, maskOp]
    exact ⟨_, rfl⟩

theorem branch_operands {i : Instr} {F} (h : branchForm i = some F) (s : State) : ∃ f, exec i s = withOperands s i false F.uses f := by
  cases i <;> first | (cases h; done) | skip
  case loop c off => cases c <;> first | (cases h; done) | (cases h; simp only [exec_loop, execLoop]; exact ⟨_, rfl⟩)
  all_goals
    cases h
    simp only [
      exec_br, exec_brz, exec_brnz, exec_brp, exec_loop, exec_call, exec_ret, execBr, execBrz, execBrnz, execBrp, execLoop,
      execCall, execRet, laneInt1, laneInt2, laneInt3, laneFlt1, laneFlt2, laneResult, lanePred, laneCarry, uni2, uniResult,
      maskOp]
    exact ⟨_, rfl⟩

theorem mask_operands {i : Instr} {F} (h : maskForm i = some F) (s : State) : ∃ f, exec i s = withOperands s i true F.uses f := by
  cases i <;> first | (cases h; done) | skip
  case msetp op inv p => cases op <;> (cases h; simp only [exec_msetp, execMsetp, maskOp]; exact ⟨_, rfl⟩)
  all_goals
    cases h
    simp only [
      exec_mpush, exec_mpop, exec_msetp, exec_melse, execMpush, execMpop, execMsetp, execMelse, laneInt1, laneInt2, laneInt3,
      laneFlt1, laneFlt2, laneResult, lanePred, laneCarry, uni2, uniResult, maskOp]
    exact ⟨_, rfl⟩

theorem memory_operands {i : Instr} {F} (h : memForm i = some F) (s : State) : ∃ f, exec i s = withOperands s i false F.uses f := by
  rw [(mem_form h).1, memory]
  exact ⟨_, rfl⟩

theorem orElse_cases {α : Type} {x y : Option α} {a : α} (h : (x <|> y) = some a) : x = some a ∨ y = some a := by
  cases x with
  | none => exact .inr (by simpa using h)
  | some b => exact .inl (by simpa using h)

theorem map_cases {α β : Type} {x : Option α} {f : α → β} {b : β} (h : x.map f = some b) : ∃ a, x = some a ∧ f a = b := by
  cases x with
  | none => cases h
  | some a => exact ⟨a, rfl, by simpa using h⟩

/-- An instruction whose operands `usesOf` gives is the shared operand check over them. -/
theorem uses_operands {i : Instr} {us : List Use} {b : Bool} (h : usesOf i = some (us, b)) (s : State) :
    ∃ f, exec i s = withOperands s i b us f := by
  unfold usesOf at h
  rcases orElse_cases h with h | h
  · split at h
    · cases h
      simp only [exec_loop, execLoop]
      exact ⟨_, rfl⟩
    · cases h
  rcases orElse_cases h with h | h
  · obtain ⟨F, hF, e⟩ := map_cases h
    cases e
    exact int_operands hF s
  rcases orElse_cases h with h | h
  · obtain ⟨F, hF, e⟩ := map_cases h
    cases e
    exact float_operands hF s
  rcases orElse_cases h with h | h
  · obtain ⟨F, hF, e⟩ := map_cases h
    cases e
    exact cross_operands hF s
  rcases orElse_cases h with h | h
  · obtain ⟨F, hF, e⟩ := map_cases h
    cases e
    exact pred_operands hF s
  rcases orElse_cases h with h | h
  · obtain ⟨F, hF, e⟩ := map_cases h
    cases e
    exact carry_operands hF s
  rcases orElse_cases h with h | h
  · obtain ⟨F, hF, e⟩ := map_cases h
    cases e
    exact uni_operands hF s
  rcases orElse_cases h with h | h
  · obtain ⟨F, hF, e⟩ := map_cases h
    cases e
    exact branch_operands hF s
  rcases orElse_cases h with h | h
  · obtain ⟨F, hF, e⟩ := map_cases h
    cases e
    exact mask_operands hF s
  obtain ⟨F, hF, e⟩ := map_cases h
  cases e
  exact memory_operands hF s

/-- The first row of R238 that applies, from the first operand each row applies to. -/
theorem useFault_of {W : Win} {depth : Nat} {st : Bool} {us : List Use} {r l o d c : Option Use} (hr : us.find? (·.res) = r)
    (hl : us.find? (fun u => match u.lat with | some k => !st || decide (depth ≤ k) | none => false) = l)
    (ho : us.find? (fun u => u.cnt != 0 && decide (W.limit < u.reg + u.cnt)) = o) (hd : us.find? (·.odd) = d) (hc : us.find? (·.cls) = c) :
    useFault W depth st us = match (generalizing := false) r with
      | some u => some (2, 1, u.code)
      | none => match (generalizing := false) l with
        | some u => some (2, 2, u.code)
        | none => match (generalizing := false) if W.skein.isSome then none else o with
          | some u => some (2, 5, u.code)
          | none => match (generalizing := false) d with
            | some u => some (2, 6, u.code)
            | none => match (generalizing := false) c with
              | some u => some (2, 7, u.code)
              | none => o.map fun u => (16, 3, u.code) := by
  subst hr hl ho hd hc; rfl

end Sys2Proof.Machine
end

