-- ==== Sys2Proof/Laws/PerInstr.lean ====
section
/-!
SUPPORT. The decoder reads back what the encoder writes: one lemma for each instruction (14_encoding.md R220 to R238).
-/
set_option linter.unusedSimpArgs false
set_option linter.unusedVariables false
namespace Sys2Proof.Laws

theorem top_bit (u : BitVec 1) (op : BitVec 7) (x : BitVec 24) :
    BitVec.getLsbD (w := 32) (u ++ (op ++ x)) 31 = u.getLsbD 0 := BitVec.getLsbD_append

theorem op_bits (u : BitVec 1) (op : BitVec 7) (x : BitVec 24) :
    BitVec.extractLsb' (n := 32) 24 7 (u ++ (op ++ x)) = op :=
  (BitVec.extractLsb'_append_eq_of_add_le (by decide)).trans
    ((BitVec.extractLsb'_append_eq_of_le (by decide)).trans BitVec.extractLsb'_eq_self)

theorem field_bits (u : BitVec 1) (op : BitVec 7) (x : BitVec 24) :
    BitVec.setWidth (w := 32) 24 (u ++ (op ++ x)) = x := by
  apply BitVec.eq_of_getLsbD_eq
  intro i hi
  refine (BitVec.getLsbD_setWidth ..).trans ?_
  simp only [hi, decide_true, Bool.true_and]
  refine (BitVec.getLsbD_append).trans ?_
  rw [if_pos (by omega)]
  refine (BitVec.getLsbD_append).trans ?_
  rw [if_pos (by omega)]

/-- Words with bit 31 clear are the lane set's (R220). -/
theorem decode_lane (op : BitVec 7) (x : BitVec 24) : decode (0#1 ++ (op ++ x)) = decodeLane op.toNat x := by
  unfold decode
  rw [top_bit, op_bits, field_bits]
  rfl

/-- Words with bit 31 set are the uniform set's (R220). -/
theorem decode_uniform (op : BitVec 7) (x : BitVec 24) : decode (1#1 ++ (op ++ x)) = decodeUniform op.toNat x := by
  unfold decode
  rw [top_bit, op_bits, field_bits]
  rfl

/-! ### The fields read back -/

@[simp] theorem LDst.ofCode_code (d : LDst) : LDst.ofCode d.code = d := by
  obtain ⟨n, r⟩ := d
  revert n r
  decide

@[simp] theorem UDst.ofCode?_code (d : UDst) : UDst.ofCode? d.code = some d := by
  obtain ⟨n, r⟩ := d
  revert n r
  decide

theorem Opnd.ofCode_code (o : Opnd) (h : o.ok = true) : Opnd.ofCode o.code = o := by
  cases o with
  | res c => revert c; decide
  | v r => revert r; decide
  | s r => revert r; decide
  | b r => revert r; decide
  | pos r => revert r; decide
  | neg r => revert r; decide
  | flt r => revert r; decide
  | _ => rfl

@[simp] theorem Ty.ofCode?_code (t : Ty) : Ty.ofCode? t.code = some t := by cases t <;> rfl
theorem Ty.ofStore?_code (t : Ty) (h : t.storable = true) : Ty.ofStore? t.code = some t := by
  simp [Ty.ofStore?, h]
@[simp] theorem Ty2.ofCode?_code (t : Ty2) : Ty2.ofCode? t.code = some t := by cases t <;> rfl
@[simp] theorem Scope.ofCode?_code (s : Scope) : Scope.ofCode? s.code = some s := by cases s <;> rfl
@[simp] theorem MOrd.ofCode?_code (o : MOrd) : MOrd.ofCode? o.code = some o := by
  cases o with
  | sync s => cases s <;> rfl
  | _ => rfl
@[simp] theorem AOrd.ofCode?_code (o : AOrd) : AOrd.ofCode? o.code = some o := by
  cases o with
  | sync s => cases s <;> rfl
  | _ => rfl
@[simp] theorem Os.ofCode_code (o : Os) : Os.ofCode o.code = o := by cases o <;> rfl
@[simp] theorem LaAddr.ofCode_code (a : LaAddr) : LaAddr.ofCode a.code = a := by
  cases a with
  | glob n => revert n; decide
  | spad n => revert n; decide
@[simp] theorem ICond.ofCode?_code (c : ICond) : ICond.ofCode? c.code = some c := by cases c <;> rfl
@[simp] theorem FCond.ofCode_code (c : FCond) : FCond.ofCode c.code = c := by cases c <;> rfl
@[simp] theorem Comb.ofCode?_code (c : Comb) : Comb.ofCode? c.code = some c := by cases c <;> rfl
@[simp] theorem Rm.ofCode_code (c : Rm) : Rm.ofCode c.code = c := by cases c <;> rfl
@[simp] theorem NTy.ofCode?_code (c : NTy) : NTy.ofCode? c.code = some c := by cases c <;> rfl
@[simp] theorem DxFmt.ofCode?_code (c : DxFmt) : DxFmt.ofCode? c.code = some c := by cases c <;> rfl
@[simp] theorem ScanOp.ofCode_code (c : ScanOp) : ScanOp.ofCode c.code = c := by cases c <;> rfl
@[simp] theorem FScanOp.ofCode?_code (c : FScanOp) : FScanOp.ofCode? c.code = some c := by cases c <;> rfl
@[simp] theorem RedOp.ofCode?_code (c : RedOp) : RedOp.ofCode? c.code = some c := by
  cases c with
  | int o => cases o <;> rfl
  | flt o => cases o <;> rfl
  | ballot => rfl
@[simp] theorem VoteMode.ofCode?_code (c : VoteMode) : VoteMode.ofCode? c.code = some c := by cases c <;> rfl
@[simp] theorem BrpMode.ofCode_code (c : BrpMode) : BrpMode.ofCode c.code = c := by cases c <;> rfl
@[simp] theorem MsetOp.ofCode?_code (c : MsetOp) : MsetOp.ofCode? c.code = some c := by cases c <;> rfl
@[simp] theorem FenceKind.ofCode_code (c : FenceKind) : FenceKind.ofCode c.code = c := by cases c <;> rfl
theorem SysReg.ofCode_code (r : SysReg) (h : r.ok = true) : SysReg.ofCode r.code = r := by
  cases r with
  | unlisted c => exact eq_of_beq h
  | _ => rfl
theorem Susp.ofCode?_code (k : Susp) (h : k.ok = true) : Susp.ofCode? k.code = some k := by
  cases k with
  | now => rfl
  | delay a =>
    cases a with
    | res c => revert c; decide
    | v r => revert r; decide
    | s r => revert r; decide
    | b r => revert r; decide
    | pos r => revert r; decide
    | neg r => revert r; decide
    | flt r => revert r; decide
    | _ => rfl
@[simp] theorem ofBool_bit (b : Bool) : (BitVec.ofBool b == 1#1) = b := by cases b <;> rfl

end Sys2Proof.Laws

namespace Sys2Proof.Laws.RoundTrip

/-- A well-formed instruction that has a word decodes from it. -/
def Statement (i : Instr) : Prop := i.wf = true → ∀ w, encode i = some w → decode w = .ok i

theorem wordEq {u : BitVec 1} {op : BitVec 7} {x : BitVec 24} {w : W32} (h : word u op x = some w) : w = u ++ (op ++ x) := by
  simp only [word, Option.some.injEq] at h
  exact h.symm

theorem addLane d a b : Statement (.addLane d a b) := by
  intro hwf w0 hen
  obtain rfl := wordEq hen
  change (a.ok && b.ok) = true at hwf
  simp only [Bool.and_eq_true] at hwf
  have e0 : BitVec.extractLsb' (n := 24) 16 8 ((LDst.code d) ++ (Opnd.code a) ++ (Opnd.code b)) = (LDst.code d) :=
    (BitVec.extractLsb'_append_eq_of_le (by decide)).trans ((BitVec.extractLsb'_append_eq_of_le (by decide)).trans BitVec.extractLsb'_eq_self)
  have e1 : BitVec.extractLsb' (n := 24) 8 8 ((LDst.code d) ++ (Opnd.code a) ++ (Opnd.code b)) = (Opnd.code a) :=
    (BitVec.extractLsb'_append_eq_of_le (by decide)).trans ((BitVec.extractLsb'_append_eq_of_add_le (by decide)).trans BitVec.extractLsb'_eq_self)
  have e2 : BitVec.extractLsb' (n := 24) 0 8 ((LDst.code d) ++ (Opnd.code a) ++ (Opnd.code b)) = (Opnd.code b) :=
    (BitVec.extractLsb'_append_eq_of_add_le (by decide)).trans BitVec.extractLsb'_eq_self
  refine (decode_lane ..).trans ?_
  change fields (some (.addLane (LDst.ofCode (BitVec.extractLsb' (n := 24) 16 8 _)) (Opnd.ofCode (BitVec.extractLsb' (n := 24) 8 8 _)) (Opnd.ofCode (BitVec.extractLsb' (n := 24) 0 8 _)))) = _
  rw [e0, e1, e2]
  simp [fields, Opnd.ofCode_code, hwf]

theorem subLane d a b : Statement (.subLane d a b) := by
  intro hwf w0 hen
  obtain rfl := wordEq hen
  change (a.ok && b.ok) = true at hwf
  simp only [Bool.and_eq_true] at hwf
  have e0 : BitVec.extractLsb' (n := 24) 16 8 ((LDst.code d) ++ (Opnd.code a) ++ (Opnd.code b)) = (LDst.code d) :=
    (BitVec.extractLsb'_append_eq_of_le (by decide)).trans ((BitVec.extractLsb'_append_eq_of_le (by decide)).trans BitVec.extractLsb'_eq_self)
  have e1 : BitVec.extractLsb' (n := 24) 8 8 ((LDst.code d) ++ (Opnd.code a) ++ (Opnd.code b)) = (Opnd.code a) :=
    (BitVec.extractLsb'_append_eq_of_le (by decide)).trans ((BitVec.extractLsb'_append_eq_of_add_le (by decide)).trans BitVec.extractLsb'_eq_self)
  have e2 : BitVec.extractLsb' (n := 24) 0 8 ((LDst.code d) ++ (Opnd.code a) ++ (Opnd.code b)) = (Opnd.code b) :=
    (BitVec.extractLsb'_append_eq_of_add_le (by decide)).trans BitVec.extractLsb'_eq_self
  refine (decode_lane ..).trans ?_
  change fields (some (.subLane (LDst.ofCode (BitVec.extractLsb' (n := 24) 16 8 _)) (Opnd.ofCode (BitVec.extractLsb' (n := 24) 8 8 _)) (Opnd.ofCode (BitVec.extractLsb' (n := 24) 0 8 _)))) = _
  rw [e0, e1, e2]
  simp [fields, Opnd.ofCode_code, hwf]

theorem mulLane d a b : Statement (.mulLane d a b) := by
  intro hwf w0 hen
  obtain rfl := wordEq hen
  change (a.ok && b.ok) = true at hwf
  simp only [Bool.and_eq_true] at hwf
  have e0 : BitVec.extractLsb' (n := 24) 16 8 ((LDst.code d) ++ (Opnd.code a) ++ (Opnd.code b)) = (LDst.code d) :=
    (BitVec.extractLsb'_append_eq_of_le (by decide)).trans ((BitVec.extractLsb'_append_eq_of_le (by decide)).trans BitVec.extractLsb'_eq_self)
  have e1 : BitVec.extractLsb' (n := 24) 8 8 ((LDst.code d) ++ (Opnd.code a) ++ (Opnd.code b)) = (Opnd.code a) :=
    (BitVec.extractLsb'_append_eq_of_le (by decide)).trans ((BitVec.extractLsb'_append_eq_of_add_le (by decide)).trans BitVec.extractLsb'_eq_self)
  have e2 : BitVec.extractLsb' (n := 24) 0 8 ((LDst.code d) ++ (Opnd.code a) ++ (Opnd.code b)) = (Opnd.code b) :=
    (BitVec.extractLsb'_append_eq_of_add_le (by decide)).trans BitVec.extractLsb'_eq_self
  refine (decode_lane ..).trans ?_
  change fields (some (.mulLane (LDst.ofCode (BitVec.extractLsb' (n := 24) 16 8 _)) (Opnd.ofCode (BitVec.extractLsb' (n := 24) 8 8 _)) (Opnd.ofCode (BitVec.extractLsb' (n := 24) 0 8 _)))) = _
  rw [e0, e1, e2]
  simp [fields, Opnd.ofCode_code, hwf]

theorem mulhLane d a b : Statement (.mulhLane d a b) := by
  intro hwf w0 hen
  obtain rfl := wordEq hen
  change (a.ok && b.ok) = true at hwf
  simp only [Bool.and_eq_true] at hwf
  have e0 : BitVec.extractLsb' (n := 24) 16 8 ((LDst.code d) ++ (Opnd.code a) ++ (Opnd.code b)) = (LDst.code d) :=
    (BitVec.extractLsb'_append_eq_of_le (by decide)).trans ((BitVec.extractLsb'_append_eq_of_le (by decide)).trans BitVec.extractLsb'_eq_self)
  have e1 : BitVec.extractLsb' (n := 24) 8 8 ((LDst.code d) ++ (Opnd.code a) ++ (Opnd.code b)) = (Opnd.code a) :=
    (BitVec.extractLsb'_append_eq_of_le (by decide)).trans ((BitVec.extractLsb'_append_eq_of_add_le (by decide)).trans BitVec.extractLsb'_eq_self)
  have e2 : BitVec.extractLsb' (n := 24) 0 8 ((LDst.code d) ++ (Opnd.code a) ++ (Opnd.code b)) = (Opnd.code b) :=
    (BitVec.extractLsb'_append_eq_of_add_le (by decide)).trans BitVec.extractLsb'_eq_self
  refine (decode_lane ..).trans ?_
  change fields (some (.mulhLane (LDst.ofCode (BitVec.extractLsb' (n := 24) 16 8 _)) (Opnd.ofCode (BitVec.extractLsb' (n := 24) 8 8 _)) (Opnd.ofCode (BitVec.extractLsb' (n := 24) 0 8 _)))) = _
  rw [e0, e1, e2]
  simp [fields, Opnd.ofCode_code, hwf]

theorem mulhuLane d a b : Statement (.mulhuLane d a b) := by
  intro hwf w0 hen
  obtain rfl := wordEq hen
  change (a.ok && b.ok) = true at hwf
  simp only [Bool.and_eq_true] at hwf
  have e0 : BitVec.extractLsb' (n := 24) 16 8 ((LDst.code d) ++ (Opnd.code a) ++ (Opnd.code b)) = (LDst.code d) :=
    (BitVec.extractLsb'_append_eq_of_le (by decide)).trans ((BitVec.extractLsb'_append_eq_of_le (by decide)).trans BitVec.extractLsb'_eq_self)
  have e1 : BitVec.extractLsb' (n := 24) 8 8 ((LDst.code d) ++ (Opnd.code a) ++ (Opnd.code b)) = (Opnd.code a) :=
    (BitVec.extractLsb'_append_eq_of_le (by decide)).trans ((BitVec.extractLsb'_append_eq_of_add_le (by decide)).trans BitVec.extractLsb'_eq_self)
  have e2 : BitVec.extractLsb' (n := 24) 0 8 ((LDst.code d) ++ (Opnd.code a) ++ (Opnd.code b)) = (Opnd.code b) :=
    (BitVec.extractLsb'_append_eq_of_add_le (by decide)).trans BitVec.extractLsb'_eq_self
  refine (decode_lane ..).trans ?_
  change fields (some (.mulhuLane (LDst.ofCode (BitVec.extractLsb' (n := 24) 16 8 _)) (Opnd.ofCode (BitVec.extractLsb' (n := 24) 8 8 _)) (Opnd.ofCode (BitVec.extractLsb' (n := 24) 0 8 _)))) = _
  rw [e0, e1, e2]
  simp [fields, Opnd.ofCode_code, hwf]

theorem mad d a b : Statement (.mad d a b) := by
  intro hwf w0 hen
  obtain rfl := wordEq hen
  change (a.ok && b.ok) = true at hwf
  simp only [Bool.and_eq_true] at hwf
  have e0 : BitVec.extractLsb' (n := 24) 16 8 ((LDst.code d) ++ (Opnd.code a) ++ (Opnd.code b)) = (LDst.code d) :=
    (BitVec.extractLsb'_append_eq_of_le (by decide)).trans ((BitVec.extractLsb'_append_eq_of_le (by decide)).trans BitVec.extractLsb'_eq_self)
  have e1 : BitVec.extractLsb' (n := 24) 8 8 ((LDst.code d) ++ (Opnd.code a) ++ (Opnd.code b)) = (Opnd.code a) :=
    (BitVec.extractLsb'_append_eq_of_le (by decide)).trans ((BitVec.extractLsb'_append_eq_of_add_le (by decide)).trans BitVec.extractLsb'_eq_self)
  have e2 : BitVec.extractLsb' (n := 24) 0 8 ((LDst.code d) ++ (Opnd.code a) ++ (Opnd.code b)) = (Opnd.code b) :=
    (BitVec.extractLsb'_append_eq_of_add_le (by decide)).trans BitVec.extractLsb'_eq_self
  refine (decode_lane ..).trans ?_
  change fields (some (.mad (LDst.ofCode (BitVec.extractLsb' (n := 24) 16 8 _)) (Opnd.ofCode (BitVec.extractLsb' (n := 24) 8 8 _)) (Opnd.ofCode (BitVec.extractLsb' (n := 24) 0 8 _)))) = _
  rw [e0, e1, e2]
  simp [fields, Opnd.ofCode_code, hwf]

theorem andLane d a b : Statement (.andLane d a b) := by
  intro hwf w0 hen
  obtain rfl := wordEq hen
  change (a.ok && b.ok) = true at hwf
  simp only [Bool.and_eq_true] at hwf
  have e0 : BitVec.extractLsb' (n := 24) 16 8 ((LDst.code d) ++ (Opnd.code a) ++ (Opnd.code b)) = (LDst.code d) :=
    (BitVec.extractLsb'_append_eq_of_le (by decide)).trans ((BitVec.extractLsb'_append_eq_of_le (by decide)).trans BitVec.extractLsb'_eq_self)
  have e1 : BitVec.extractLsb' (n := 24) 8 8 ((LDst.code d) ++ (Opnd.code a) ++ (Opnd.code b)) = (Opnd.code a) :=
    (BitVec.extractLsb'_append_eq_of_le (by decide)).trans ((BitVec.extractLsb'_append_eq_of_add_le (by decide)).trans BitVec.extractLsb'_eq_self)
  have e2 : BitVec.extractLsb' (n := 24) 0 8 ((LDst.code d) ++ (Opnd.code a) ++ (Opnd.code b)) = (Opnd.code b) :=
    (BitVec.extractLsb'_append_eq_of_add_le (by decide)).trans BitVec.extractLsb'_eq_self
  refine (decode_lane ..).trans ?_
  change fields (some (.andLane (LDst.ofCode (BitVec.extractLsb' (n := 24) 16 8 _)) (Opnd.ofCode (BitVec.extractLsb' (n := 24) 8 8 _)) (Opnd.ofCode (BitVec.extractLsb' (n := 24) 0 8 _)))) = _
  rw [e0, e1, e2]
  simp [fields, Opnd.ofCode_code, hwf]

theorem orLane d a b : Statement (.orLane d a b) := by
  intro hwf w0 hen
  obtain rfl := wordEq hen
  change (a.ok && b.ok) = true at hwf
  simp only [Bool.and_eq_true] at hwf
  have e0 : BitVec.extractLsb' (n := 24) 16 8 ((LDst.code d) ++ (Opnd.code a) ++ (Opnd.code b)) = (LDst.code d) :=
    (BitVec.extractLsb'_append_eq_of_le (by decide)).trans ((BitVec.extractLsb'_append_eq_of_le (by decide)).trans BitVec.extractLsb'_eq_self)
  have e1 : BitVec.extractLsb' (n := 24) 8 8 ((LDst.code d) ++ (Opnd.code a) ++ (Opnd.code b)) = (Opnd.code a) :=
    (BitVec.extractLsb'_append_eq_of_le (by decide)).trans ((BitVec.extractLsb'_append_eq_of_add_le (by decide)).trans BitVec.extractLsb'_eq_self)
  have e2 : BitVec.extractLsb' (n := 24) 0 8 ((LDst.code d) ++ (Opnd.code a) ++ (Opnd.code b)) = (Opnd.code b) :=
    (BitVec.extractLsb'_append_eq_of_add_le (by decide)).trans BitVec.extractLsb'_eq_self
  refine (decode_lane ..).trans ?_
  change fields (some (.orLane (LDst.ofCode (BitVec.extractLsb' (n := 24) 16 8 _)) (Opnd.ofCode (BitVec.extractLsb' (n := 24) 8 8 _)) (Opnd.ofCode (BitVec.extractLsb' (n := 24) 0 8 _)))) = _
  rw [e0, e1, e2]
  simp [fields, Opnd.ofCode_code, hwf]

theorem xorLane d a b : Statement (.xorLane d a b) := by
  intro hwf w0 hen
  obtain rfl := wordEq hen
  change (a.ok && b.ok) = true at hwf
  simp only [Bool.and_eq_true] at hwf
  have e0 : BitVec.extractLsb' (n := 24) 16 8 ((LDst.code d) ++ (Opnd.code a) ++ (Opnd.code b)) = (LDst.code d) :=
    (BitVec.extractLsb'_append_eq_of_le (by decide)).trans ((BitVec.extractLsb'_append_eq_of_le (by decide)).trans BitVec.extractLsb'_eq_self)
  have e1 : BitVec.extractLsb' (n := 24) 8 8 ((LDst.code d) ++ (Opnd.code a) ++ (Opnd.code b)) = (Opnd.code a) :=
    (BitVec.extractLsb'_append_eq_of_le (by decide)).trans ((BitVec.extractLsb'_append_eq_of_add_le (by decide)).trans BitVec.extractLsb'_eq_self)
  have e2 : BitVec.extractLsb' (n := 24) 0 8 ((LDst.code d) ++ (Opnd.code a) ++ (Opnd.code b)) = (Opnd.code b) :=
    (BitVec.extractLsb'_append_eq_of_add_le (by decide)).trans BitVec.extractLsb'_eq_self
  refine (decode_lane ..).trans ?_
  change fields (some (.xorLane (LDst.ofCode (BitVec.extractLsb' (n := 24) 16 8 _)) (Opnd.ofCode (BitVec.extractLsb' (n := 24) 8 8 _)) (Opnd.ofCode (BitVec.extractLsb' (n := 24) 0 8 _)))) = _
  rw [e0, e1, e2]
  simp [fields, Opnd.ofCode_code, hwf]

theorem andnLane d a b : Statement (.andnLane d a b) := by
  intro hwf w0 hen
  obtain rfl := wordEq hen
  change (a.ok && b.ok) = true at hwf
  simp only [Bool.and_eq_true] at hwf
  have e0 : BitVec.extractLsb' (n := 24) 16 8 ((LDst.code d) ++ (Opnd.code a) ++ (Opnd.code b)) = (LDst.code d) :=
    (BitVec.extractLsb'_append_eq_of_le (by decide)).trans ((BitVec.extractLsb'_append_eq_of_le (by decide)).trans BitVec.extractLsb'_eq_self)
  have e1 : BitVec.extractLsb' (n := 24) 8 8 ((LDst.code d) ++ (Opnd.code a) ++ (Opnd.code b)) = (Opnd.code a) :=
    (BitVec.extractLsb'_append_eq_of_le (by decide)).trans ((BitVec.extractLsb'_append_eq_of_add_le (by decide)).trans BitVec.extractLsb'_eq_self)
  have e2 : BitVec.extractLsb' (n := 24) 0 8 ((LDst.code d) ++ (Opnd.code a) ++ (Opnd.code b)) = (Opnd.code b) :=
    (BitVec.extractLsb'_append_eq_of_add_le (by decide)).trans BitVec.extractLsb'_eq_self
  refine (decode_lane ..).trans ?_
  change fields (some (.andnLane (LDst.ofCode (BitVec.extractLsb' (n := 24) 16 8 _)) (Opnd.ofCode (BitVec.extractLsb' (n := 24) 8 8 _)) (Opnd.ofCode (BitVec.extractLsb' (n := 24) 0 8 _)))) = _
  rw [e0, e1, e2]
  simp [fields, Opnd.ofCode_code, hwf]

theorem shlLane d a b : Statement (.shlLane d a b) := by
  intro hwf w0 hen
  obtain rfl := wordEq hen
  change (a.ok && b.ok) = true at hwf
  simp only [Bool.and_eq_true] at hwf
  have e0 : BitVec.extractLsb' (n := 24) 16 8 ((LDst.code d) ++ (Opnd.code a) ++ (Opnd.code b)) = (LDst.code d) :=
    (BitVec.extractLsb'_append_eq_of_le (by decide)).trans ((BitVec.extractLsb'_append_eq_of_le (by decide)).trans BitVec.extractLsb'_eq_self)
  have e1 : BitVec.extractLsb' (n := 24) 8 8 ((LDst.code d) ++ (Opnd.code a) ++ (Opnd.code b)) = (Opnd.code a) :=
    (BitVec.extractLsb'_append_eq_of_le (by decide)).trans ((BitVec.extractLsb'_append_eq_of_add_le (by decide)).trans BitVec.extractLsb'_eq_self)
  have e2 : BitVec.extractLsb' (n := 24) 0 8 ((LDst.code d) ++ (Opnd.code a) ++ (Opnd.code b)) = (Opnd.code b) :=
    (BitVec.extractLsb'_append_eq_of_add_le (by decide)).trans BitVec.extractLsb'_eq_self
  refine (decode_lane ..).trans ?_
  change fields (some (.shlLane (LDst.ofCode (BitVec.extractLsb' (n := 24) 16 8 _)) (Opnd.ofCode (BitVec.extractLsb' (n := 24) 8 8 _)) (Opnd.ofCode (BitVec.extractLsb' (n := 24) 0 8 _)))) = _
  rw [e0, e1, e2]
  simp [fields, Opnd.ofCode_code, hwf]

theorem shrLane d a b : Statement (.shrLane d a b) := by
  intro hwf w0 hen
  obtain rfl := wordEq hen
  change (a.ok && b.ok) = true at hwf
  simp only [Bool.and_eq_true] at hwf
  have e0 : BitVec.extractLsb' (n := 24) 16 8 ((LDst.code d) ++ (Opnd.code a) ++ (Opnd.code b)) = (LDst.code d) :=
    (BitVec.extractLsb'_append_eq_of_le (by decide)).trans ((BitVec.extractLsb'_append_eq_of_le (by decide)).trans BitVec.extractLsb'_eq_self)
  have e1 : BitVec.extractLsb' (n := 24) 8 8 ((LDst.code d) ++ (Opnd.code a) ++ (Opnd.code b)) = (Opnd.code a) :=
    (BitVec.extractLsb'_append_eq_of_le (by decide)).trans ((BitVec.extractLsb'_append_eq_of_add_le (by decide)).trans BitVec.extractLsb'_eq_self)
  have e2 : BitVec.extractLsb' (n := 24) 0 8 ((LDst.code d) ++ (Opnd.code a) ++ (Opnd.code b)) = (Opnd.code b) :=
    (BitVec.extractLsb'_append_eq_of_add_le (by decide)).trans BitVec.extractLsb'_eq_self
  refine (decode_lane ..).trans ?_
  change fields (some (.shrLane (LDst.ofCode (BitVec.extractLsb' (n := 24) 16 8 _)) (Opnd.ofCode (BitVec.extractLsb' (n := 24) 8 8 _)) (Opnd.ofCode (BitVec.extractLsb' (n := 24) 0 8 _)))) = _
  rw [e0, e1, e2]
  simp [fields, Opnd.ofCode_code, hwf]

theorem sarLane d a b : Statement (.sarLane d a b) := by
  intro hwf w0 hen
  obtain rfl := wordEq hen
  change (a.ok && b.ok) = true at hwf
  simp only [Bool.and_eq_true] at hwf
  have e0 : BitVec.extractLsb' (n := 24) 16 8 ((LDst.code d) ++ (Opnd.code a) ++ (Opnd.code b)) = (LDst.code d) :=
    (BitVec.extractLsb'_append_eq_of_le (by decide)).trans ((BitVec.extractLsb'_append_eq_of_le (by decide)).trans BitVec.extractLsb'_eq_self)
  have e1 : BitVec.extractLsb' (n := 24) 8 8 ((LDst.code d) ++ (Opnd.code a) ++ (Opnd.code b)) = (Opnd.code a) :=
    (BitVec.extractLsb'_append_eq_of_le (by decide)).trans ((BitVec.extractLsb'_append_eq_of_add_le (by decide)).trans BitVec.extractLsb'_eq_self)
  have e2 : BitVec.extractLsb' (n := 24) 0 8 ((LDst.code d) ++ (Opnd.code a) ++ (Opnd.code b)) = (Opnd.code b) :=
    (BitVec.extractLsb'_append_eq_of_add_le (by decide)).trans BitVec.extractLsb'_eq_self
  refine (decode_lane ..).trans ?_
  change fields (some (.sarLane (LDst.ofCode (BitVec.extractLsb' (n := 24) 16 8 _)) (Opnd.ofCode (BitVec.extractLsb' (n := 24) 8 8 _)) (Opnd.ofCode (BitVec.extractLsb' (n := 24) 0 8 _)))) = _
  rw [e0, e1, e2]
  simp [fields, Opnd.ofCode_code, hwf]

theorem rolLane d a b : Statement (.rolLane d a b) := by
  intro hwf w0 hen
  obtain rfl := wordEq hen
  change (a.ok && b.ok) = true at hwf
  simp only [Bool.and_eq_true] at hwf
  have e0 : BitVec.extractLsb' (n := 24) 16 8 ((LDst.code d) ++ (Opnd.code a) ++ (Opnd.code b)) = (LDst.code d) :=
    (BitVec.extractLsb'_append_eq_of_le (by decide)).trans ((BitVec.extractLsb'_append_eq_of_le (by decide)).trans BitVec.extractLsb'_eq_self)
  have e1 : BitVec.extractLsb' (n := 24) 8 8 ((LDst.code d) ++ (Opnd.code a) ++ (Opnd.code b)) = (Opnd.code a) :=
    (BitVec.extractLsb'_append_eq_of_le (by decide)).trans ((BitVec.extractLsb'_append_eq_of_add_le (by decide)).trans BitVec.extractLsb'_eq_self)
  have e2 : BitVec.extractLsb' (n := 24) 0 8 ((LDst.code d) ++ (Opnd.code a) ++ (Opnd.code b)) = (Opnd.code b) :=
    (BitVec.extractLsb'_append_eq_of_add_le (by decide)).trans BitVec.extractLsb'_eq_self
  refine (decode_lane ..).trans ?_
  change fields (some (.rolLane (LDst.ofCode (BitVec.extractLsb' (n := 24) 16 8 _)) (Opnd.ofCode (BitVec.extractLsb' (n := 24) 8 8 _)) (Opnd.ofCode (BitVec.extractLsb' (n := 24) 0 8 _)))) = _
  rw [e0, e1, e2]
  simp [fields, Opnd.ofCode_code, hwf]

theorem minLane d a b : Statement (.minLane d a b) := by
  intro hwf w0 hen
  obtain rfl := wordEq hen
  change (a.ok && b.ok) = true at hwf
  simp only [Bool.and_eq_true] at hwf
  have e0 : BitVec.extractLsb' (n := 24) 16 8 ((LDst.code d) ++ (Opnd.code a) ++ (Opnd.code b)) = (LDst.code d) :=
    (BitVec.extractLsb'_append_eq_of_le (by decide)).trans ((BitVec.extractLsb'_append_eq_of_le (by decide)).trans BitVec.extractLsb'_eq_self)
  have e1 : BitVec.extractLsb' (n := 24) 8 8 ((LDst.code d) ++ (Opnd.code a) ++ (Opnd.code b)) = (Opnd.code a) :=
    (BitVec.extractLsb'_append_eq_of_le (by decide)).trans ((BitVec.extractLsb'_append_eq_of_add_le (by decide)).trans BitVec.extractLsb'_eq_self)
  have e2 : BitVec.extractLsb' (n := 24) 0 8 ((LDst.code d) ++ (Opnd.code a) ++ (Opnd.code b)) = (Opnd.code b) :=
    (BitVec.extractLsb'_append_eq_of_add_le (by decide)).trans BitVec.extractLsb'_eq_self
  refine (decode_lane ..).trans ?_
  change fields (some (.minLane (LDst.ofCode (BitVec.extractLsb' (n := 24) 16 8 _)) (Opnd.ofCode (BitVec.extractLsb' (n := 24) 8 8 _)) (Opnd.ofCode (BitVec.extractLsb' (n := 24) 0 8 _)))) = _
  rw [e0, e1, e2]
  simp [fields, Opnd.ofCode_code, hwf]

theorem maxLane d a b : Statement (.maxLane d a b) := by
  intro hwf w0 hen
  obtain rfl := wordEq hen
  change (a.ok && b.ok) = true at hwf
  simp only [Bool.and_eq_true] at hwf
  have e0 : BitVec.extractLsb' (n := 24) 16 8 ((LDst.code d) ++ (Opnd.code a) ++ (Opnd.code b)) = (LDst.code d) :=
    (BitVec.extractLsb'_append_eq_of_le (by decide)).trans ((BitVec.extractLsb'_append_eq_of_le (by decide)).trans BitVec.extractLsb'_eq_self)
  have e1 : BitVec.extractLsb' (n := 24) 8 8 ((LDst.code d) ++ (Opnd.code a) ++ (Opnd.code b)) = (Opnd.code a) :=
    (BitVec.extractLsb'_append_eq_of_le (by decide)).trans ((BitVec.extractLsb'_append_eq_of_add_le (by decide)).trans BitVec.extractLsb'_eq_self)
  have e2 : BitVec.extractLsb' (n := 24) 0 8 ((LDst.code d) ++ (Opnd.code a) ++ (Opnd.code b)) = (Opnd.code b) :=
    (BitVec.extractLsb'_append_eq_of_add_le (by decide)).trans BitVec.extractLsb'_eq_self
  refine (decode_lane ..).trans ?_
  change fields (some (.maxLane (LDst.ofCode (BitVec.extractLsb' (n := 24) 16 8 _)) (Opnd.ofCode (BitVec.extractLsb' (n := 24) 8 8 _)) (Opnd.ofCode (BitVec.extractLsb' (n := 24) 0 8 _)))) = _
  rw [e0, e1, e2]
  simp [fields, Opnd.ofCode_code, hwf]

theorem minuLane d a b : Statement (.minuLane d a b) := by
  intro hwf w0 hen
  obtain rfl := wordEq hen
  change (a.ok && b.ok) = true at hwf
  simp only [Bool.and_eq_true] at hwf
  have e0 : BitVec.extractLsb' (n := 24) 16 8 ((LDst.code d) ++ (Opnd.code a) ++ (Opnd.code b)) = (LDst.code d) :=
    (BitVec.extractLsb'_append_eq_of_le (by decide)).trans ((BitVec.extractLsb'_append_eq_of_le (by decide)).trans BitVec.extractLsb'_eq_self)
  have e1 : BitVec.extractLsb' (n := 24) 8 8 ((LDst.code d) ++ (Opnd.code a) ++ (Opnd.code b)) = (Opnd.code a) :=
    (BitVec.extractLsb'_append_eq_of_le (by decide)).trans ((BitVec.extractLsb'_append_eq_of_add_le (by decide)).trans BitVec.extractLsb'_eq_self)
  have e2 : BitVec.extractLsb' (n := 24) 0 8 ((LDst.code d) ++ (Opnd.code a) ++ (Opnd.code b)) = (Opnd.code b) :=
    (BitVec.extractLsb'_append_eq_of_add_le (by decide)).trans BitVec.extractLsb'_eq_self
  refine (decode_lane ..).trans ?_
  change fields (some (.minuLane (LDst.ofCode (BitVec.extractLsb' (n := 24) 16 8 _)) (Opnd.ofCode (BitVec.extractLsb' (n := 24) 8 8 _)) (Opnd.ofCode (BitVec.extractLsb' (n := 24) 0 8 _)))) = _
  rw [e0, e1, e2]
  simp [fields, Opnd.ofCode_code, hwf]

theorem maxuLane d a b : Statement (.maxuLane d a b) := by
  intro hwf w0 hen
  obtain rfl := wordEq hen
  change (a.ok && b.ok) = true at hwf
  simp only [Bool.and_eq_true] at hwf
  have e0 : BitVec.extractLsb' (n := 24) 16 8 ((LDst.code d) ++ (Opnd.code a) ++ (Opnd.code b)) = (LDst.code d) :=
    (BitVec.extractLsb'_append_eq_of_le (by decide)).trans ((BitVec.extractLsb'_append_eq_of_le (by decide)).trans BitVec.extractLsb'_eq_self)
  have e1 : BitVec.extractLsb' (n := 24) 8 8 ((LDst.code d) ++ (Opnd.code a) ++ (Opnd.code b)) = (Opnd.code a) :=
    (BitVec.extractLsb'_append_eq_of_le (by decide)).trans ((BitVec.extractLsb'_append_eq_of_add_le (by decide)).trans BitVec.extractLsb'_eq_self)
  have e2 : BitVec.extractLsb' (n := 24) 0 8 ((LDst.code d) ++ (Opnd.code a) ++ (Opnd.code b)) = (Opnd.code b) :=
    (BitVec.extractLsb'_append_eq_of_add_le (by decide)).trans BitVec.extractLsb'_eq_self
  refine (decode_lane ..).trans ?_
  change fields (some (.maxuLane (LDst.ofCode (BitVec.extractLsb' (n := 24) 16 8 _)) (Opnd.ofCode (BitVec.extractLsb' (n := 24) 8 8 _)) (Opnd.ofCode (BitVec.extractLsb' (n := 24) 0 8 _)))) = _
  rw [e0, e1, e2]
  simp [fields, Opnd.ofCode_code, hwf]

theorem clzLane d a : Statement (.clzLane d a) := by
  intro hwf w0 hen
  obtain rfl := wordEq hen
  change (a.ok) = true at hwf
  have e0 : BitVec.extractLsb' (n := 24) 16 8 ((LDst.code d) ++ (Opnd.code a) ++ 164#8) = (LDst.code d) :=
    (BitVec.extractLsb'_append_eq_of_le (by decide)).trans ((BitVec.extractLsb'_append_eq_of_le (by decide)).trans BitVec.extractLsb'_eq_self)
  have e1 : BitVec.extractLsb' (n := 24) 8 8 ((LDst.code d) ++ (Opnd.code a) ++ 164#8) = (Opnd.code a) :=
    (BitVec.extractLsb'_append_eq_of_le (by decide)).trans ((BitVec.extractLsb'_append_eq_of_add_le (by decide)).trans BitVec.extractLsb'_eq_self)
  have e2 : BitVec.extractLsb' (n := 24) 0 8 ((LDst.code d) ++ (Opnd.code a) ++ 164#8) = 164#8 :=
    (BitVec.extractLsb'_append_eq_of_add_le (by decide)).trans BitVec.extractLsb'_eq_self
  refine (decode_lane ..).trans ?_
  change fields (chk ((BitVec.extractLsb' (n := 24) 0 8 _) == 164#8) (some (.clzLane (LDst.ofCode (BitVec.extractLsb' (n := 24) 16 8 _)) (Opnd.ofCode (BitVec.extractLsb' (n := 24) 8 8 _))))) = _
  rw [e0, e1, e2]
  simp [fields, chk, Opnd.ofCode_code, hwf]

theorem popcLane d a : Statement (.popcLane d a) := by
  intro hwf w0 hen
  obtain rfl := wordEq hen
  change (a.ok) = true at hwf
  have e0 : BitVec.extractLsb' (n := 24) 16 8 ((LDst.code d) ++ (Opnd.code a) ++ 164#8) = (LDst.code d) :=
    (BitVec.extractLsb'_append_eq_of_le (by decide)).trans ((BitVec.extractLsb'_append_eq_of_le (by decide)).trans BitVec.extractLsb'_eq_self)
  have e1 : BitVec.extractLsb' (n := 24) 8 8 ((LDst.code d) ++ (Opnd.code a) ++ 164#8) = (Opnd.code a) :=
    (BitVec.extractLsb'_append_eq_of_le (by decide)).trans ((BitVec.extractLsb'_append_eq_of_add_le (by decide)).trans BitVec.extractLsb'_eq_self)
  have e2 : BitVec.extractLsb' (n := 24) 0 8 ((LDst.code d) ++ (Opnd.code a) ++ 164#8) = 164#8 :=
    (BitVec.extractLsb'_append_eq_of_add_le (by decide)).trans BitVec.extractLsb'_eq_self
  refine (decode_lane ..).trans ?_
  change fields (chk ((BitVec.extractLsb' (n := 24) 0 8 _) == 164#8) (some (.popcLane (LDst.ofCode (BitVec.extractLsb' (n := 24) 16 8 _)) (Opnd.ofCode (BitVec.extractLsb' (n := 24) 8 8 _))))) = _
  rw [e0, e1, e2]
  simp [fields, chk, Opnd.ofCode_code, hwf]

theorem brev d a : Statement (.brev d a) := by
  intro hwf w0 hen
  obtain rfl := wordEq hen
  change (a.ok) = true at hwf
  have e0 : BitVec.extractLsb' (n := 24) 16 8 ((LDst.code d) ++ (Opnd.code a) ++ 164#8) = (LDst.code d) :=
    (BitVec.extractLsb'_append_eq_of_le (by decide)).trans ((BitVec.extractLsb'_append_eq_of_le (by decide)).trans BitVec.extractLsb'_eq_self)
  have e1 : BitVec.extractLsb' (n := 24) 8 8 ((LDst.code d) ++ (Opnd.code a) ++ 164#8) = (Opnd.code a) :=
    (BitVec.extractLsb'_append_eq_of_le (by decide)).trans ((BitVec.extractLsb'_append_eq_of_add_le (by decide)).trans BitVec.extractLsb'_eq_self)
  have e2 : BitVec.extractLsb' (n := 24) 0 8 ((LDst.code d) ++ (Opnd.code a) ++ 164#8) = 164#8 :=
    (BitVec.extractLsb'_append_eq_of_add_le (by decide)).trans BitVec.extractLsb'_eq_self
  refine (decode_lane ..).trans ?_
  change fields (chk ((BitVec.extractLsb' (n := 24) 0 8 _) == 164#8) (some (.brev (LDst.ofCode (BitVec.extractLsb' (n := 24) 16 8 _)) (Opnd.ofCode (BitVec.extractLsb' (n := 24) 8 8 _))))) = _
  rw [e0, e1, e2]
  simp [fields, chk, Opnd.ofCode_code, hwf]

theorem bfeLane d a b : Statement (.bfeLane d a b) := by
  intro hwf w0 hen
  obtain rfl := wordEq hen
  change (a.ok && b.ok) = true at hwf
  simp only [Bool.and_eq_true] at hwf
  have e0 : BitVec.extractLsb' (n := 24) 16 8 ((LDst.code d) ++ (Opnd.code a) ++ (Opnd.code b)) = (LDst.code d) :=
    (BitVec.extractLsb'_append_eq_of_le (by decide)).trans ((BitVec.extractLsb'_append_eq_of_le (by decide)).trans BitVec.extractLsb'_eq_self)
  have e1 : BitVec.extractLsb' (n := 24) 8 8 ((LDst.code d) ++ (Opnd.code a) ++ (Opnd.code b)) = (Opnd.code a) :=
    (BitVec.extractLsb'_append_eq_of_le (by decide)).trans ((BitVec.extractLsb'_append_eq_of_add_le (by decide)).trans BitVec.extractLsb'_eq_self)
  have e2 : BitVec.extractLsb' (n := 24) 0 8 ((LDst.code d) ++ (Opnd.code a) ++ (Opnd.code b)) = (Opnd.code b) :=
    (BitVec.extractLsb'_append_eq_of_add_le (by decide)).trans BitVec.extractLsb'_eq_self
  refine (decode_lane ..).trans ?_
  change fields (some (.bfeLane (LDst.ofCode (BitVec.extractLsb' (n := 24) 16 8 _)) (Opnd.ofCode (BitVec.extractLsb' (n := 24) 8 8 _)) (Opnd.ofCode (BitVec.extractLsb' (n := 24) 0 8 _)))) = _
  rw [e0, e1, e2]
  simp [fields, Opnd.ofCode_code, hwf]

theorem bfiLane d a b : Statement (.bfiLane d a b) := by
  intro hwf w0 hen
  obtain rfl := wordEq hen
  change (a.ok && b.ok) = true at hwf
  simp only [Bool.and_eq_true] at hwf
  have e0 : BitVec.extractLsb' (n := 24) 16 8 ((LDst.code d) ++ (Opnd.code a) ++ (Opnd.code b)) = (LDst.code d) :=
    (BitVec.extractLsb'_append_eq_of_le (by decide)).trans ((BitVec.extractLsb'_append_eq_of_le (by decide)).trans BitVec.extractLsb'_eq_self)
  have e1 : BitVec.extractLsb' (n := 24) 8 8 ((LDst.code d) ++ (Opnd.code a) ++ (Opnd.code b)) = (Opnd.code a) :=
    (BitVec.extractLsb'_append_eq_of_le (by decide)).trans ((BitVec.extractLsb'_append_eq_of_add_le (by decide)).trans BitVec.extractLsb'_eq_self)
  have e2 : BitVec.extractLsb' (n := 24) 0 8 ((LDst.code d) ++ (Opnd.code a) ++ (Opnd.code b)) = (Opnd.code b) :=
    (BitVec.extractLsb'_append_eq_of_add_le (by decide)).trans BitVec.extractLsb'_eq_self
  refine (decode_lane ..).trans ?_
  change fields (some (.bfiLane (LDst.ofCode (BitVec.extractLsb' (n := 24) 16 8 _)) (Opnd.ofCode (BitVec.extractLsb' (n := 24) 8 8 _)) (Opnd.ofCode (BitVec.extractLsb' (n := 24) 0 8 _)))) = _
  rw [e0, e1, e2]
  simp [fields, Opnd.ofCode_code, hwf]

theorem selLane d a b p : Statement (.selLane d a b p) := by
  intro hwf w0 hen
  obtain rfl := wordEq hen
  have e0 : BitVec.extractLsb' (n := 24) 17 7 (d ++ a ++ b ++ p) = d :=
    (BitVec.extractLsb'_append_eq_of_le (by decide)).trans ((BitVec.extractLsb'_append_eq_of_le (by decide)).trans ((BitVec.extractLsb'_append_eq_of_le (by decide)).trans BitVec.extractLsb'_eq_self))
  have e1 : BitVec.extractLsb' (n := 24) 10 7 (d ++ a ++ b ++ p) = a :=
    (BitVec.extractLsb'_append_eq_of_le (by decide)).trans ((BitVec.extractLsb'_append_eq_of_le (by decide)).trans ((BitVec.extractLsb'_append_eq_of_add_le (by decide)).trans BitVec.extractLsb'_eq_self))
  have e2 : BitVec.extractLsb' (n := 24) 3 7 (d ++ a ++ b ++ p) = b :=
    (BitVec.extractLsb'_append_eq_of_le (by decide)).trans ((BitVec.extractLsb'_append_eq_of_add_le (by decide)).trans BitVec.extractLsb'_eq_self)
  have e3 : BitVec.extractLsb' (n := 24) 0 3 (d ++ a ++ b ++ p) = p :=
    (BitVec.extractLsb'_append_eq_of_add_le (by decide)).trans BitVec.extractLsb'_eq_self
  refine (decode_lane ..).trans ?_
  change fields (some (.selLane ((BitVec.extractLsb' (n := 24) 17 7 _)) ((BitVec.extractLsb' (n := 24) 10 7 _)) ((BitVec.extractLsb' (n := 24) 3 7 _)) ((BitVec.extractLsb' (n := 24) 0 3 _)))) = _
  rw [e0, e1, e2, e3]
  simp [fields]

theorem addc d a b p : Statement (.addc d a b p) := by
  intro hwf w0 hen
  obtain rfl := wordEq hen
  have e0 : BitVec.extractLsb' (n := 24) 17 7 (d ++ a ++ b ++ p) = d :=
    (BitVec.extractLsb'_append_eq_of_le (by decide)).trans ((BitVec.extractLsb'_append_eq_of_le (by decide)).trans ((BitVec.extractLsb'_append_eq_of_le (by decide)).trans BitVec.extractLsb'_eq_self))
  have e1 : BitVec.extractLsb' (n := 24) 10 7 (d ++ a ++ b ++ p) = a :=
    (BitVec.extractLsb'_append_eq_of_le (by decide)).trans ((BitVec.extractLsb'_append_eq_of_le (by decide)).trans ((BitVec.extractLsb'_append_eq_of_add_le (by decide)).trans BitVec.extractLsb'_eq_self))
  have e2 : BitVec.extractLsb' (n := 24) 3 7 (d ++ a ++ b ++ p) = b :=
    (BitVec.extractLsb'_append_eq_of_le (by decide)).trans ((BitVec.extractLsb'_append_eq_of_add_le (by decide)).trans BitVec.extractLsb'_eq_self)
  have e3 : BitVec.extractLsb' (n := 24) 0 3 (d ++ a ++ b ++ p) = p :=
    (BitVec.extractLsb'_append_eq_of_add_le (by decide)).trans BitVec.extractLsb'_eq_self
  refine (decode_lane ..).trans ?_
  change fields (some (.addc ((BitVec.extractLsb' (n := 24) 17 7 _)) ((BitVec.extractLsb' (n := 24) 10 7 _)) ((BitVec.extractLsb' (n := 24) 3 7 _)) ((BitVec.extractLsb' (n := 24) 0 3 _)))) = _
  rw [e0, e1, e2, e3]
  simp [fields]

theorem subb d a b p : Statement (.subb d a b p) := by
  intro hwf w0 hen
  obtain rfl := wordEq hen
  have e0 : BitVec.extractLsb' (n := 24) 17 7 (d ++ a ++ b ++ p) = d :=
    (BitVec.extractLsb'_append_eq_of_le (by decide)).trans ((BitVec.extractLsb'_append_eq_of_le (by decide)).trans ((BitVec.extractLsb'_append_eq_of_le (by decide)).trans BitVec.extractLsb'_eq_self))
  have e1 : BitVec.extractLsb' (n := 24) 10 7 (d ++ a ++ b ++ p) = a :=
    (BitVec.extractLsb'_append_eq_of_le (by decide)).trans ((BitVec.extractLsb'_append_eq_of_le (by decide)).trans ((BitVec.extractLsb'_append_eq_of_add_le (by decide)).trans BitVec.extractLsb'_eq_self))
  have e2 : BitVec.extractLsb' (n := 24) 3 7 (d ++ a ++ b ++ p) = b :=
    (BitVec.extractLsb'_append_eq_of_le (by decide)).trans ((BitVec.extractLsb'_append_eq_of_add_le (by decide)).trans BitVec.extractLsb'_eq_self)
  have e3 : BitVec.extractLsb' (n := 24) 0 3 (d ++ a ++ b ++ p) = p :=
    (BitVec.extractLsb'_append_eq_of_add_le (by decide)).trans BitVec.extractLsb'_eq_self
  refine (decode_lane ..).trans ?_
  change fields (some (.subb ((BitVec.extractLsb' (n := 24) 17 7 _)) ((BitVec.extractLsb' (n := 24) 10 7 _)) ((BitVec.extractLsb' (n := 24) 3 7 _)) ((BitVec.extractLsb' (n := 24) 0 3 _)))) = _
  rw [e0, e1, e2, e3]
  simp [fields]

theorem madc d a b p : Statement (.madc d a b p) := by
  intro hwf w0 hen
  obtain rfl := wordEq hen
  have e0 : BitVec.extractLsb' (n := 24) 17 7 (d ++ a ++ b ++ p) = d :=
    (BitVec.extractLsb'_append_eq_of_le (by decide)).trans ((BitVec.extractLsb'_append_eq_of_le (by decide)).trans ((BitVec.extractLsb'_append_eq_of_le (by decide)).trans BitVec.extractLsb'_eq_self))
  have e1 : BitVec.extractLsb' (n := 24) 10 7 (d ++ a ++ b ++ p) = a :=
    (BitVec.extractLsb'_append_eq_of_le (by decide)).trans ((BitVec.extractLsb'_append_eq_of_le (by decide)).trans ((BitVec.extractLsb'_append_eq_of_add_le (by decide)).trans BitVec.extractLsb'_eq_self))
  have e2 : BitVec.extractLsb' (n := 24) 3 7 (d ++ a ++ b ++ p) = b :=
    (BitVec.extractLsb'_append_eq_of_le (by decide)).trans ((BitVec.extractLsb'_append_eq_of_add_le (by decide)).trans BitVec.extractLsb'_eq_self)
  have e3 : BitVec.extractLsb' (n := 24) 0 3 (d ++ a ++ b ++ p) = p :=
    (BitVec.extractLsb'_append_eq_of_add_le (by decide)).trans BitVec.extractLsb'_eq_self
  refine (decode_lane ..).trans ?_
  change fields (some (.madc ((BitVec.extractLsb' (n := 24) 17 7 _)) ((BitVec.extractLsb' (n := 24) 10 7 _)) ((BitVec.extractLsb' (n := 24) 3 7 _)) ((BitVec.extractLsb' (n := 24) 0 3 _)))) = _
  rw [e0, e1, e2, e3]
  simp [fields]

theorem cmpLane pd m c a b : Statement (.cmpLane pd m c a b) := by
  intro hwf w0 hen
  obtain rfl := wordEq hen
  change (a.ok && b.ok) = true at hwf
  simp only [Bool.and_eq_true] at hwf
  have e0 : BitVec.extractLsb' (n := 24) 21 3 (pd ++ (Comb.code m) ++ (ICond.code c) ++ (Opnd.code a) ++ (Opnd.code b)) = pd :=
    (BitVec.extractLsb'_append_eq_of_le (by decide)).trans ((BitVec.extractLsb'_append_eq_of_le (by decide)).trans ((BitVec.extractLsb'_append_eq_of_le (by decide)).trans ((BitVec.extractLsb'_append_eq_of_le (by decide)).trans BitVec.extractLsb'_eq_self)))
  have e1 : BitVec.extractLsb' (n := 24) 19 2 (pd ++ (Comb.code m) ++ (ICond.code c) ++ (Opnd.code a) ++ (Opnd.code b)) = (Comb.code m) :=
    (BitVec.extractLsb'_append_eq_of_le (by decide)).trans ((BitVec.extractLsb'_append_eq_of_le (by decide)).trans ((BitVec.extractLsb'_append_eq_of_le (by decide)).trans ((BitVec.extractLsb'_append_eq_of_add_le (by decide)).trans BitVec.extractLsb'_eq_self)))
  have e2 : BitVec.extractLsb' (n := 24) 16 3 (pd ++ (Comb.code m) ++ (ICond.code c) ++ (Opnd.code a) ++ (Opnd.code b)) = (ICond.code c) :=
    (BitVec.extractLsb'_append_eq_of_le (by decide)).trans ((BitVec.extractLsb'_append_eq_of_le (by decide)).trans ((BitVec.extractLsb'_append_eq_of_add_le (by decide)).trans BitVec.extractLsb'_eq_self))
  have e3 : BitVec.extractLsb' (n := 24) 8 8 (pd ++ (Comb.code m) ++ (ICond.code c) ++ (Opnd.code a) ++ (Opnd.code b)) = (Opnd.code a) :=
    (BitVec.extractLsb'_append_eq_of_le (by decide)).trans ((BitVec.extractLsb'_append_eq_of_add_le (by decide)).trans BitVec.extractLsb'_eq_self)
  have e4 : BitVec.extractLsb' (n := 24) 0 8 (pd ++ (Comb.code m) ++ (ICond.code c) ++ (Opnd.code a) ++ (Opnd.code b)) = (Opnd.code b) :=
    (BitVec.extractLsb'_append_eq_of_add_le (by decide)).trans BitVec.extractLsb'_eq_self
  refine (decode_lane ..).trans ?_
  change fields ((Comb.ofCode? (BitVec.extractLsb' (n := 24) 19 2 _)).bind (fun m => (ICond.ofCode? (BitVec.extractLsb' (n := 24) 16 3 _)).bind (fun c => some (.cmpLane ((BitVec.extractLsb' (n := 24) 21 3 _)) m c (Opnd.ofCode (BitVec.extractLsb' (n := 24) 8 8 _)) (Opnd.ofCode (BitVec.extractLsb' (n := 24) 0 8 _)))))) = _
  rw [e0, e1, e2, e3, e4]
  simp [fields, Opnd.ofCode_code, hwf]

theorem plog pd tt px py : Statement (.plog pd tt px py) := by
  intro hwf w0 hen
  obtain rfl := wordEq hen
  have e0 : BitVec.extractLsb' (n := 24) 21 3 (pd ++ 0#1 ++ tt ++ 0#5 ++ px ++ 0#5 ++ py) = pd :=
    (BitVec.extractLsb'_append_eq_of_le (by decide)).trans ((BitVec.extractLsb'_append_eq_of_le (by decide)).trans ((BitVec.extractLsb'_append_eq_of_le (by decide)).trans ((BitVec.extractLsb'_append_eq_of_le (by decide)).trans ((BitVec.extractLsb'_append_eq_of_le (by decide)).trans ((BitVec.extractLsb'_append_eq_of_le (by decide)).trans BitVec.extractLsb'_eq_self)))))
  have e1 : BitVec.extractLsb' (n := 24) 20 1 (pd ++ 0#1 ++ tt ++ 0#5 ++ px ++ 0#5 ++ py) = 0#1 :=
    (BitVec.extractLsb'_append_eq_of_le (by decide)).trans ((BitVec.extractLsb'_append_eq_of_le (by decide)).trans ((BitVec.extractLsb'_append_eq_of_le (by decide)).trans ((BitVec.extractLsb'_append_eq_of_le (by decide)).trans ((BitVec.extractLsb'_append_eq_of_le (by decide)).trans ((BitVec.extractLsb'_append_eq_of_add_le (by decide)).trans BitVec.extractLsb'_eq_self)))))
  have e2 : BitVec.extractLsb' (n := 24) 16 4 (pd ++ 0#1 ++ tt ++ 0#5 ++ px ++ 0#5 ++ py) = tt :=
    (BitVec.extractLsb'_append_eq_of_le (by decide)).trans ((BitVec.extractLsb'_append_eq_of_le (by decide)).trans ((BitVec.extractLsb'_append_eq_of_le (by decide)).trans ((BitVec.extractLsb'_append_eq_of_le (by decide)).trans ((BitVec.extractLsb'_append_eq_of_add_le (by decide)).trans BitVec.extractLsb'_eq_self))))
  have e3 : BitVec.extractLsb' (n := 24) 11 5 (pd ++ 0#1 ++ tt ++ 0#5 ++ px ++ 0#5 ++ py) = 0#5 :=
    (BitVec.extractLsb'_append_eq_of_le (by decide)).trans ((BitVec.extractLsb'_append_eq_of_le (by decide)).trans ((BitVec.extractLsb'_append_eq_of_le (by decide)).trans ((BitVec.extractLsb'_append_eq_of_add_le (by decide)).trans BitVec.extractLsb'_eq_self)))
  have e4 : BitVec.extractLsb' (n := 24) 8 3 (pd ++ 0#1 ++ tt ++ 0#5 ++ px ++ 0#5 ++ py) = px :=
    (BitVec.extractLsb'_append_eq_of_le (by decide)).trans ((BitVec.extractLsb'_append_eq_of_le (by decide)).trans ((BitVec.extractLsb'_append_eq_of_add_le (by decide)).trans BitVec.extractLsb'_eq_self))
  have e5 : BitVec.extractLsb' (n := 24) 3 5 (pd ++ 0#1 ++ tt ++ 0#5 ++ px ++ 0#5 ++ py) = 0#5 :=
    (BitVec.extractLsb'_append_eq_of_le (by decide)).trans ((BitVec.extractLsb'_append_eq_of_add_le (by decide)).trans BitVec.extractLsb'_eq_self)
  have e6 : BitVec.extractLsb' (n := 24) 0 3 (pd ++ 0#1 ++ tt ++ 0#5 ++ px ++ 0#5 ++ py) = py :=
    (BitVec.extractLsb'_append_eq_of_add_le (by decide)).trans BitVec.extractLsb'_eq_self
  refine (decode_lane ..).trans ?_
  change fields (chk ((BitVec.extractLsb' (n := 24) 20 1 _) == 0#1) (chk ((BitVec.extractLsb' (n := 24) 11 5 _) == 0#5) (chk ((BitVec.extractLsb' (n := 24) 3 5 _) == 0#5) (some (.plog ((BitVec.extractLsb' (n := 24) 21 3 _)) ((BitVec.extractLsb' (n := 24) 16 4 _)) ((BitVec.extractLsb' (n := 24) 8 3 _)) ((BitVec.extractLsb' (n := 24) 0 3 _))))))) = _
  rw [e0, e1, e2, e3, e4, e5, e6]
  simp [fields, chk]

theorem moviLane d imm : Statement (.moviLane d imm) := by
  intro hwf w0 hen
  obtain rfl := wordEq hen
  have e0 : BitVec.extractLsb' (n := 24) 16 8 ((LDst.code d) ++ imm) = (LDst.code d) :=
    (BitVec.extractLsb'_append_eq_of_le (by decide)).trans BitVec.extractLsb'_eq_self
  have e1 : BitVec.extractLsb' (n := 24) 0 16 ((LDst.code d) ++ imm) = imm :=
    (BitVec.extractLsb'_append_eq_of_add_le (by decide)).trans BitVec.extractLsb'_eq_self
  refine (decode_lane ..).trans ?_
  change fields (some (.moviLane (LDst.ofCode (BitVec.extractLsb' (n := 24) 16 8 _)) ((BitVec.extractLsb' (n := 24) 0 16 _)))) = _
  rw [e0, e1]
  simp [fields]

theorem movhiLane d imm : Statement (.movhiLane d imm) := by
  intro hwf w0 hen
  obtain rfl := wordEq hen
  have e0 : BitVec.extractLsb' (n := 24) 16 8 ((LDst.code d) ++ imm) = (LDst.code d) :=
    (BitVec.extractLsb'_append_eq_of_le (by decide)).trans BitVec.extractLsb'_eq_self
  have e1 : BitVec.extractLsb' (n := 24) 0 16 ((LDst.code d) ++ imm) = imm :=
    (BitVec.extractLsb'_append_eq_of_add_le (by decide)).trans BitVec.extractLsb'_eq_self
  refine (decode_lane ..).trans ?_
  change fields (some (.movhiLane (LDst.ofCode (BitVec.extractLsb' (n := 24) 16 8 _)) ((BitVec.extractLsb' (n := 24) 0 16 _)))) = _
  rw [e0, e1]
  simp [fields]

theorem addiLane d imm : Statement (.addiLane d imm) := by
  intro hwf w0 hen
  obtain rfl := wordEq hen
  have e0 : BitVec.extractLsb' (n := 24) 16 8 ((LDst.code d) ++ imm) = (LDst.code d) :=
    (BitVec.extractLsb'_append_eq_of_le (by decide)).trans BitVec.extractLsb'_eq_self
  have e1 : BitVec.extractLsb' (n := 24) 0 16 ((LDst.code d) ++ imm) = imm :=
    (BitVec.extractLsb'_append_eq_of_add_le (by decide)).trans BitVec.extractLsb'_eq_self
  refine (decode_lane ..).trans ?_
  change fields (some (.addiLane (LDst.ofCode (BitVec.extractLsb' (n := 24) 16 8 _)) ((BitVec.extractLsb' (n := 24) 0 16 _)))) = _
  rw [e0, e1]
  simp [fields]

theorem fadd d a b : Statement (.fadd d a b) := by
  intro hwf w0 hen
  obtain rfl := wordEq hen
  change (a.ok && b.ok) = true at hwf
  simp only [Bool.and_eq_true] at hwf
  have e0 : BitVec.extractLsb' (n := 24) 16 8 ((LDst.code d) ++ (Opnd.code a) ++ (Opnd.code b)) = (LDst.code d) :=
    (BitVec.extractLsb'_append_eq_of_le (by decide)).trans ((BitVec.extractLsb'_append_eq_of_le (by decide)).trans BitVec.extractLsb'_eq_self)
  have e1 : BitVec.extractLsb' (n := 24) 8 8 ((LDst.code d) ++ (Opnd.code a) ++ (Opnd.code b)) = (Opnd.code a) :=
    (BitVec.extractLsb'_append_eq_of_le (by decide)).trans ((BitVec.extractLsb'_append_eq_of_add_le (by decide)).trans BitVec.extractLsb'_eq_self)
  have e2 : BitVec.extractLsb' (n := 24) 0 8 ((LDst.code d) ++ (Opnd.code a) ++ (Opnd.code b)) = (Opnd.code b) :=
    (BitVec.extractLsb'_append_eq_of_add_le (by decide)).trans BitVec.extractLsb'_eq_self
  refine (decode_lane ..).trans ?_
  change fields (some (.fadd (LDst.ofCode (BitVec.extractLsb' (n := 24) 16 8 _)) (Opnd.ofCode (BitVec.extractLsb' (n := 24) 8 8 _)) (Opnd.ofCode (BitVec.extractLsb' (n := 24) 0 8 _)))) = _
  rw [e0, e1, e2]
  simp [fields, Opnd.ofCode_code, hwf]

theorem fsub d a b : Statement (.fsub d a b) := by
  intro hwf w0 hen
  obtain rfl := wordEq hen
  change (a.ok && b.ok) = true at hwf
  simp only [Bool.and_eq_true] at hwf
  have e0 : BitVec.extractLsb' (n := 24) 16 8 ((LDst.code d) ++ (Opnd.code a) ++ (Opnd.code b)) = (LDst.code d) :=
    (BitVec.extractLsb'_append_eq_of_le (by decide)).trans ((BitVec.extractLsb'_append_eq_of_le (by decide)).trans BitVec.extractLsb'_eq_self)
  have e1 : BitVec.extractLsb' (n := 24) 8 8 ((LDst.code d) ++ (Opnd.code a) ++ (Opnd.code b)) = (Opnd.code a) :=
    (BitVec.extractLsb'_append_eq_of_le (by decide)).trans ((BitVec.extractLsb'_append_eq_of_add_le (by decide)).trans BitVec.extractLsb'_eq_self)
  have e2 : BitVec.extractLsb' (n := 24) 0 8 ((LDst.code d) ++ (Opnd.code a) ++ (Opnd.code b)) = (Opnd.code b) :=
    (BitVec.extractLsb'_append_eq_of_add_le (by decide)).trans BitVec.extractLsb'_eq_self
  refine (decode_lane ..).trans ?_
  change fields (some (.fsub (LDst.ofCode (BitVec.extractLsb' (n := 24) 16 8 _)) (Opnd.ofCode (BitVec.extractLsb' (n := 24) 8 8 _)) (Opnd.ofCode (BitVec.extractLsb' (n := 24) 0 8 _)))) = _
  rw [e0, e1, e2]
  simp [fields, Opnd.ofCode_code, hwf]

theorem fmul d a b : Statement (.fmul d a b) := by
  intro hwf w0 hen
  obtain rfl := wordEq hen
  change (a.ok && b.ok) = true at hwf
  simp only [Bool.and_eq_true] at hwf
  have e0 : BitVec.extractLsb' (n := 24) 16 8 ((LDst.code d) ++ (Opnd.code a) ++ (Opnd.code b)) = (LDst.code d) :=
    (BitVec.extractLsb'_append_eq_of_le (by decide)).trans ((BitVec.extractLsb'_append_eq_of_le (by decide)).trans BitVec.extractLsb'_eq_self)
  have e1 : BitVec.extractLsb' (n := 24) 8 8 ((LDst.code d) ++ (Opnd.code a) ++ (Opnd.code b)) = (Opnd.code a) :=
    (BitVec.extractLsb'_append_eq_of_le (by decide)).trans ((BitVec.extractLsb'_append_eq_of_add_le (by decide)).trans BitVec.extractLsb'_eq_self)
  have e2 : BitVec.extractLsb' (n := 24) 0 8 ((LDst.code d) ++ (Opnd.code a) ++ (Opnd.code b)) = (Opnd.code b) :=
    (BitVec.extractLsb'_append_eq_of_add_le (by decide)).trans BitVec.extractLsb'_eq_self
  refine (decode_lane ..).trans ?_
  change fields (some (.fmul (LDst.ofCode (BitVec.extractLsb' (n := 24) 16 8 _)) (Opnd.ofCode (BitVec.extractLsb' (n := 24) 8 8 _)) (Opnd.ofCode (BitVec.extractLsb' (n := 24) 0 8 _)))) = _
  rw [e0, e1, e2]
  simp [fields, Opnd.ofCode_code, hwf]

theorem fma d a b : Statement (.fma d a b) := by
  intro hwf w0 hen
  obtain rfl := wordEq hen
  change (a.ok && b.ok) = true at hwf
  simp only [Bool.and_eq_true] at hwf
  have e0 : BitVec.extractLsb' (n := 24) 16 8 ((LDst.code d) ++ (Opnd.code a) ++ (Opnd.code b)) = (LDst.code d) :=
    (BitVec.extractLsb'_append_eq_of_le (by decide)).trans ((BitVec.extractLsb'_append_eq_of_le (by decide)).trans BitVec.extractLsb'_eq_self)
  have e1 : BitVec.extractLsb' (n := 24) 8 8 ((LDst.code d) ++ (Opnd.code a) ++ (Opnd.code b)) = (Opnd.code a) :=
    (BitVec.extractLsb'_append_eq_of_le (by decide)).trans ((BitVec.extractLsb'_append_eq_of_add_le (by decide)).trans BitVec.extractLsb'_eq_self)
  have e2 : BitVec.extractLsb' (n := 24) 0 8 ((LDst.code d) ++ (Opnd.code a) ++ (Opnd.code b)) = (Opnd.code b) :=
    (BitVec.extractLsb'_append_eq_of_add_le (by decide)).trans BitVec.extractLsb'_eq_self
  refine (decode_lane ..).trans ?_
  change fields (some (.fma (LDst.ofCode (BitVec.extractLsb' (n := 24) 16 8 _)) (Opnd.ofCode (BitVec.extractLsb' (n := 24) 8 8 _)) (Opnd.ofCode (BitVec.extractLsb' (n := 24) 0 8 _)))) = _
  rw [e0, e1, e2]
  simp [fields, Opnd.ofCode_code, hwf]

theorem fmin d a b : Statement (.fmin d a b) := by
  intro hwf w0 hen
  obtain rfl := wordEq hen
  change (a.ok && b.ok) = true at hwf
  simp only [Bool.and_eq_true] at hwf
  have e0 : BitVec.extractLsb' (n := 24) 16 8 ((LDst.code d) ++ (Opnd.code a) ++ (Opnd.code b)) = (LDst.code d) :=
    (BitVec.extractLsb'_append_eq_of_le (by decide)).trans ((BitVec.extractLsb'_append_eq_of_le (by decide)).trans BitVec.extractLsb'_eq_self)
  have e1 : BitVec.extractLsb' (n := 24) 8 8 ((LDst.code d) ++ (Opnd.code a) ++ (Opnd.code b)) = (Opnd.code a) :=
    (BitVec.extractLsb'_append_eq_of_le (by decide)).trans ((BitVec.extractLsb'_append_eq_of_add_le (by decide)).trans BitVec.extractLsb'_eq_self)
  have e2 : BitVec.extractLsb' (n := 24) 0 8 ((LDst.code d) ++ (Opnd.code a) ++ (Opnd.code b)) = (Opnd.code b) :=
    (BitVec.extractLsb'_append_eq_of_add_le (by decide)).trans BitVec.extractLsb'_eq_self
  refine (decode_lane ..).trans ?_
  change fields (some (.fmin (LDst.ofCode (BitVec.extractLsb' (n := 24) 16 8 _)) (Opnd.ofCode (BitVec.extractLsb' (n := 24) 8 8 _)) (Opnd.ofCode (BitVec.extractLsb' (n := 24) 0 8 _)))) = _
  rw [e0, e1, e2]
  simp [fields, Opnd.ofCode_code, hwf]

theorem fmax d a b : Statement (.fmax d a b) := by
  intro hwf w0 hen
  obtain rfl := wordEq hen
  change (a.ok && b.ok) = true at hwf
  simp only [Bool.and_eq_true] at hwf
  have e0 : BitVec.extractLsb' (n := 24) 16 8 ((LDst.code d) ++ (Opnd.code a) ++ (Opnd.code b)) = (LDst.code d) :=
    (BitVec.extractLsb'_append_eq_of_le (by decide)).trans ((BitVec.extractLsb'_append_eq_of_le (by decide)).trans BitVec.extractLsb'_eq_self)
  have e1 : BitVec.extractLsb' (n := 24) 8 8 ((LDst.code d) ++ (Opnd.code a) ++ (Opnd.code b)) = (Opnd.code a) :=
    (BitVec.extractLsb'_append_eq_of_le (by decide)).trans ((BitVec.extractLsb'_append_eq_of_add_le (by decide)).trans BitVec.extractLsb'_eq_self)
  have e2 : BitVec.extractLsb' (n := 24) 0 8 ((LDst.code d) ++ (Opnd.code a) ++ (Opnd.code b)) = (Opnd.code b) :=
    (BitVec.extractLsb'_append_eq_of_add_le (by decide)).trans BitVec.extractLsb'_eq_self
  refine (decode_lane ..).trans ?_
  change fields (some (.fmax (LDst.ofCode (BitVec.extractLsb' (n := 24) 16 8 _)) (Opnd.ofCode (BitVec.extractLsb' (n := 24) 8 8 _)) (Opnd.ofCode (BitVec.extractLsb' (n := 24) 0 8 _)))) = _
  rw [e0, e1, e2]
  simp [fields, Opnd.ofCode_code, hwf]

theorem fcmp pd m c a b : Statement (.fcmp pd m c a b) := by
  intro hwf w0 hen
  obtain rfl := wordEq hen
  change (a.ok && b.ok) = true at hwf
  simp only [Bool.and_eq_true] at hwf
  have e0 : BitVec.extractLsb' (n := 24) 21 3 (pd ++ (Comb.code m) ++ (FCond.code c) ++ (Opnd.code a) ++ (Opnd.code b)) = pd :=
    (BitVec.extractLsb'_append_eq_of_le (by decide)).trans ((BitVec.extractLsb'_append_eq_of_le (by decide)).trans ((BitVec.extractLsb'_append_eq_of_le (by decide)).trans ((BitVec.extractLsb'_append_eq_of_le (by decide)).trans BitVec.extractLsb'_eq_self)))
  have e1 : BitVec.extractLsb' (n := 24) 19 2 (pd ++ (Comb.code m) ++ (FCond.code c) ++ (Opnd.code a) ++ (Opnd.code b)) = (Comb.code m) :=
    (BitVec.extractLsb'_append_eq_of_le (by decide)).trans ((BitVec.extractLsb'_append_eq_of_le (by decide)).trans ((BitVec.extractLsb'_append_eq_of_le (by decide)).trans ((BitVec.extractLsb'_append_eq_of_add_le (by decide)).trans BitVec.extractLsb'_eq_self)))
  have e2 : BitVec.extractLsb' (n := 24) 16 3 (pd ++ (Comb.code m) ++ (FCond.code c) ++ (Opnd.code a) ++ (Opnd.code b)) = (FCond.code c) :=
    (BitVec.extractLsb'_append_eq_of_le (by decide)).trans ((BitVec.extractLsb'_append_eq_of_le (by decide)).trans ((BitVec.extractLsb'_append_eq_of_add_le (by decide)).trans BitVec.extractLsb'_eq_self))
  have e3 : BitVec.extractLsb' (n := 24) 8 8 (pd ++ (Comb.code m) ++ (FCond.code c) ++ (Opnd.code a) ++ (Opnd.code b)) = (Opnd.code a) :=
    (BitVec.extractLsb'_append_eq_of_le (by decide)).trans ((BitVec.extractLsb'_append_eq_of_add_le (by decide)).trans BitVec.extractLsb'_eq_self)
  have e4 : BitVec.extractLsb' (n := 24) 0 8 (pd ++ (Comb.code m) ++ (FCond.code c) ++ (Opnd.code a) ++ (Opnd.code b)) = (Opnd.code b) :=
    (BitVec.extractLsb'_append_eq_of_add_le (by decide)).trans BitVec.extractLsb'_eq_self
  refine (decode_lane ..).trans ?_
  change fields ((Comb.ofCode? (BitVec.extractLsb' (n := 24) 19 2 _)).bind (fun m => some (.fcmp ((BitVec.extractLsb' (n := 24) 21 3 _)) m (FCond.ofCode (BitVec.extractLsb' (n := 24) 16 3 _)) (Opnd.ofCode (BitVec.extractLsb' (n := 24) 8 8 _)) (Opnd.ofCode (BitVec.extractLsb' (n := 24) 0 8 _))))) = _
  rw [e0, e1, e2, e3, e4]
  simp [fields, Opnd.ofCode_code, hwf]

theorem fclass pd m a b : Statement (.fclass pd m a b) := by
  intro hwf w0 hen
  obtain rfl := wordEq hen
  change (a.ok && b.ok) = true at hwf
  simp only [Bool.and_eq_true] at hwf
  have e0 : BitVec.extractLsb' (n := 24) 21 3 (pd ++ (Comb.code m) ++ 0#3 ++ (Opnd.code a) ++ (Opnd.code b)) = pd :=
    (BitVec.extractLsb'_append_eq_of_le (by decide)).trans ((BitVec.extractLsb'_append_eq_of_le (by decide)).trans ((BitVec.extractLsb'_append_eq_of_le (by decide)).trans ((BitVec.extractLsb'_append_eq_of_le (by decide)).trans BitVec.extractLsb'_eq_self)))
  have e1 : BitVec.extractLsb' (n := 24) 19 2 (pd ++ (Comb.code m) ++ 0#3 ++ (Opnd.code a) ++ (Opnd.code b)) = (Comb.code m) :=
    (BitVec.extractLsb'_append_eq_of_le (by decide)).trans ((BitVec.extractLsb'_append_eq_of_le (by decide)).trans ((BitVec.extractLsb'_append_eq_of_le (by decide)).trans ((BitVec.extractLsb'_append_eq_of_add_le (by decide)).trans BitVec.extractLsb'_eq_self)))
  have e2 : BitVec.extractLsb' (n := 24) 16 3 (pd ++ (Comb.code m) ++ 0#3 ++ (Opnd.code a) ++ (Opnd.code b)) = 0#3 :=
    (BitVec.extractLsb'_append_eq_of_le (by decide)).trans ((BitVec.extractLsb'_append_eq_of_le (by decide)).trans ((BitVec.extractLsb'_append_eq_of_add_le (by decide)).trans BitVec.extractLsb'_eq_self))
  have e3 : BitVec.extractLsb' (n := 24) 8 8 (pd ++ (Comb.code m) ++ 0#3 ++ (Opnd.code a) ++ (Opnd.code b)) = (Opnd.code a) :=
    (BitVec.extractLsb'_append_eq_of_le (by decide)).trans ((BitVec.extractLsb'_append_eq_of_add_le (by decide)).trans BitVec.extractLsb'_eq_self)
  have e4 : BitVec.extractLsb' (n := 24) 0 8 (pd ++ (Comb.code m) ++ 0#3 ++ (Opnd.code a) ++ (Opnd.code b)) = (Opnd.code b) :=
    (BitVec.extractLsb'_append_eq_of_add_le (by decide)).trans BitVec.extractLsb'_eq_self
  refine (decode_lane ..).trans ?_
  change fields ((Comb.ofCode? (BitVec.extractLsb' (n := 24) 19 2 _)).bind (fun m => chk ((BitVec.extractLsb' (n := 24) 16 3 _) == 0#3) (some (.fclass ((BitVec.extractLsb' (n := 24) 21 3 _)) m (Opnd.ofCode (BitVec.extractLsb' (n := 24) 8 8 _)) (Opnd.ofCode (BitVec.extractLsb' (n := 24) 0 8 _)))))) = _
  rw [e0, e1, e2, e3, e4]
  simp [fields, chk, Opnd.ofCode_code, hwf]

theorem frnd d a rm : Statement (.frnd d a rm) := by
  intro hwf w0 hen
  obtain rfl := wordEq hen
  change (a.ok) = true at hwf
  have e0 : BitVec.extractLsb' (n := 24) 16 8 ((LDst.code d) ++ (Opnd.code a) ++ 0#6 ++ (Rm.code rm)) = (LDst.code d) :=
    (BitVec.extractLsb'_append_eq_of_le (by decide)).trans ((BitVec.extractLsb'_append_eq_of_le (by decide)).trans ((BitVec.extractLsb'_append_eq_of_le (by decide)).trans BitVec.extractLsb'_eq_self))
  have e1 : BitVec.extractLsb' (n := 24) 8 8 ((LDst.code d) ++ (Opnd.code a) ++ 0#6 ++ (Rm.code rm)) = (Opnd.code a) :=
    (BitVec.extractLsb'_append_eq_of_le (by decide)).trans ((BitVec.extractLsb'_append_eq_of_le (by decide)).trans ((BitVec.extractLsb'_append_eq_of_add_le (by decide)).trans BitVec.extractLsb'_eq_self))
  have e2 : BitVec.extractLsb' (n := 24) 2 6 ((LDst.code d) ++ (Opnd.code a) ++ 0#6 ++ (Rm.code rm)) = 0#6 :=
    (BitVec.extractLsb'_append_eq_of_le (by decide)).trans ((BitVec.extractLsb'_append_eq_of_add_le (by decide)).trans BitVec.extractLsb'_eq_self)
  have e3 : BitVec.extractLsb' (n := 24) 0 2 ((LDst.code d) ++ (Opnd.code a) ++ 0#6 ++ (Rm.code rm)) = (Rm.code rm) :=
    (BitVec.extractLsb'_append_eq_of_add_le (by decide)).trans BitVec.extractLsb'_eq_self
  refine (decode_lane ..).trans ?_
  change fields (chk ((BitVec.extractLsb' (n := 24) 2 6 _) == 0#6) (some (.frnd (LDst.ofCode (BitVec.extractLsb' (n := 24) 16 8 _)) (Opnd.ofCode (BitVec.extractLsb' (n := 24) 8 8 _)) (Rm.ofCode (BitVec.extractLsb' (n := 24) 0 2 _))))) = _
  rw [e0, e1, e2, e3]
  simp [fields, chk, Opnd.ofCode_code, hwf]

theorem cvt d a rm src dst : Statement (.cvt d a rm src dst) := by
  intro hwf w0 hen
  obtain rfl := wordEq hen
  change (a.ok && cvtOk rm src dst) = true at hwf
  simp only [Bool.and_eq_true] at hwf
  have e0 : BitVec.extractLsb' (n := 24) 16 8 ((LDst.code d) ++ (Opnd.code a) ++ (Rm.code rm) ++ (NTy.code src) ++ (NTy.code dst)) = (LDst.code d) :=
    (BitVec.extractLsb'_append_eq_of_le (by decide)).trans ((BitVec.extractLsb'_append_eq_of_le (by decide)).trans ((BitVec.extractLsb'_append_eq_of_le (by decide)).trans ((BitVec.extractLsb'_append_eq_of_le (by decide)).trans BitVec.extractLsb'_eq_self)))
  have e1 : BitVec.extractLsb' (n := 24) 8 8 ((LDst.code d) ++ (Opnd.code a) ++ (Rm.code rm) ++ (NTy.code src) ++ (NTy.code dst)) = (Opnd.code a) :=
    (BitVec.extractLsb'_append_eq_of_le (by decide)).trans ((BitVec.extractLsb'_append_eq_of_le (by decide)).trans ((BitVec.extractLsb'_append_eq_of_le (by decide)).trans ((BitVec.extractLsb'_append_eq_of_add_le (by decide)).trans BitVec.extractLsb'_eq_self)))
  have e2 : BitVec.extractLsb' (n := 24) 6 2 ((LDst.code d) ++ (Opnd.code a) ++ (Rm.code rm) ++ (NTy.code src) ++ (NTy.code dst)) = (Rm.code rm) :=
    (BitVec.extractLsb'_append_eq_of_le (by decide)).trans ((BitVec.extractLsb'_append_eq_of_le (by decide)).trans ((BitVec.extractLsb'_append_eq_of_add_le (by decide)).trans BitVec.extractLsb'_eq_self))
  have e3 : BitVec.extractLsb' (n := 24) 3 3 ((LDst.code d) ++ (Opnd.code a) ++ (Rm.code rm) ++ (NTy.code src) ++ (NTy.code dst)) = (NTy.code src) :=
    (BitVec.extractLsb'_append_eq_of_le (by decide)).trans ((BitVec.extractLsb'_append_eq_of_add_le (by decide)).trans BitVec.extractLsb'_eq_self)
  have e4 : BitVec.extractLsb' (n := 24) 0 3 ((LDst.code d) ++ (Opnd.code a) ++ (Rm.code rm) ++ (NTy.code src) ++ (NTy.code dst)) = (NTy.code dst) :=
    (BitVec.extractLsb'_append_eq_of_add_le (by decide)).trans BitVec.extractLsb'_eq_self
  refine (decode_lane ..).trans ?_
  change fields ((NTy.ofCode? (BitVec.extractLsb' (n := 24) 3 3 _)).bind (fun src => (NTy.ofCode? (BitVec.extractLsb' (n := 24) 0 3 _)).bind (fun dst => chkCvt (Rm.ofCode (BitVec.extractLsb' (n := 24) 6 2 _)) src dst (some (.cvt (LDst.ofCode (BitVec.extractLsb' (n := 24) 16 8 _)) (Opnd.ofCode (BitVec.extractLsb' (n := 24) 8 8 _)) (Rm.ofCode (BitVec.extractLsb' (n := 24) 6 2 _)) src dst))))) = _
  rw [e0, e1, e2, e3, e4]
  simp [fields, chk, chkCvt, Opnd.ofCode_code, hwf]

theorem rcp d a : Statement (.rcp d a) := by
  intro hwf w0 hen
  obtain rfl := wordEq hen
  change (a.ok) = true at hwf
  have e0 : BitVec.extractLsb' (n := 24) 16 8 ((LDst.code d) ++ (Opnd.code a) ++ 164#8) = (LDst.code d) :=
    (BitVec.extractLsb'_append_eq_of_le (by decide)).trans ((BitVec.extractLsb'_append_eq_of_le (by decide)).trans BitVec.extractLsb'_eq_self)
  have e1 : BitVec.extractLsb' (n := 24) 8 8 ((LDst.code d) ++ (Opnd.code a) ++ 164#8) = (Opnd.code a) :=
    (BitVec.extractLsb'_append_eq_of_le (by decide)).trans ((BitVec.extractLsb'_append_eq_of_add_le (by decide)).trans BitVec.extractLsb'_eq_self)
  have e2 : BitVec.extractLsb' (n := 24) 0 8 ((LDst.code d) ++ (Opnd.code a) ++ 164#8) = 164#8 :=
    (BitVec.extractLsb'_append_eq_of_add_le (by decide)).trans BitVec.extractLsb'_eq_self
  refine (decode_lane ..).trans ?_
  change fields (chk ((BitVec.extractLsb' (n := 24) 0 8 _) == 164#8) (some (.rcp (LDst.ofCode (BitVec.extractLsb' (n := 24) 16 8 _)) (Opnd.ofCode (BitVec.extractLsb' (n := 24) 8 8 _))))) = _
  rw [e0, e1, e2]
  simp [fields, chk, Opnd.ofCode_code, hwf]

theorem rsq d a : Statement (.rsq d a) := by
  intro hwf w0 hen
  obtain rfl := wordEq hen
  change (a.ok) = true at hwf
  have e0 : BitVec.extractLsb' (n := 24) 16 8 ((LDst.code d) ++ (Opnd.code a) ++ 164#8) = (LDst.code d) :=
    (BitVec.extractLsb'_append_eq_of_le (by decide)).trans ((BitVec.extractLsb'_append_eq_of_le (by decide)).trans BitVec.extractLsb'_eq_self)
  have e1 : BitVec.extractLsb' (n := 24) 8 8 ((LDst.code d) ++ (Opnd.code a) ++ 164#8) = (Opnd.code a) :=
    (BitVec.extractLsb'_append_eq_of_le (by decide)).trans ((BitVec.extractLsb'_append_eq_of_add_le (by decide)).trans BitVec.extractLsb'_eq_self)
  have e2 : BitVec.extractLsb' (n := 24) 0 8 ((LDst.code d) ++ (Opnd.code a) ++ 164#8) = 164#8 :=
    (BitVec.extractLsb'_append_eq_of_add_le (by decide)).trans BitVec.extractLsb'_eq_self
  refine (decode_lane ..).trans ?_
  change fields (chk ((BitVec.extractLsb' (n := 24) 0 8 _) == 164#8) (some (.rsq (LDst.ofCode (BitVec.extractLsb' (n := 24) 16 8 _)) (Opnd.ofCode (BitVec.extractLsb' (n := 24) 8 8 _))))) = _
  rw [e0, e1, e2]
  simp [fields, chk, Opnd.ofCode_code, hwf]

theorem sqrt d a : Statement (.sqrt d a) := by
  intro hwf w0 hen
  obtain rfl := wordEq hen
  change (a.ok) = true at hwf
  have e0 : BitVec.extractLsb' (n := 24) 16 8 ((LDst.code d) ++ (Opnd.code a) ++ 164#8) = (LDst.code d) :=
    (BitVec.extractLsb'_append_eq_of_le (by decide)).trans ((BitVec.extractLsb'_append_eq_of_le (by decide)).trans BitVec.extractLsb'_eq_self)
  have e1 : BitVec.extractLsb' (n := 24) 8 8 ((LDst.code d) ++ (Opnd.code a) ++ 164#8) = (Opnd.code a) :=
    (BitVec.extractLsb'_append_eq_of_le (by decide)).trans ((BitVec.extractLsb'_append_eq_of_add_le (by decide)).trans BitVec.extractLsb'_eq_self)
  have e2 : BitVec.extractLsb' (n := 24) 0 8 ((LDst.code d) ++ (Opnd.code a) ++ 164#8) = 164#8 :=
    (BitVec.extractLsb'_append_eq_of_add_le (by decide)).trans BitVec.extractLsb'_eq_self
  refine (decode_lane ..).trans ?_
  change fields (chk ((BitVec.extractLsb' (n := 24) 0 8 _) == 164#8) (some (.sqrt (LDst.ofCode (BitVec.extractLsb' (n := 24) 16 8 _)) (Opnd.ofCode (BitVec.extractLsb' (n := 24) 8 8 _))))) = _
  rw [e0, e1, e2]
  simp [fields, chk, Opnd.ofCode_code, hwf]

theorem exp2 d a : Statement (.exp2 d a) := by
  intro hwf w0 hen
  obtain rfl := wordEq hen
  change (a.ok) = true at hwf
  have e0 : BitVec.extractLsb' (n := 24) 16 8 ((LDst.code d) ++ (Opnd.code a) ++ 164#8) = (LDst.code d) :=
    (BitVec.extractLsb'_append_eq_of_le (by decide)).trans ((BitVec.extractLsb'_append_eq_of_le (by decide)).trans BitVec.extractLsb'_eq_self)
  have e1 : BitVec.extractLsb' (n := 24) 8 8 ((LDst.code d) ++ (Opnd.code a) ++ 164#8) = (Opnd.code a) :=
    (BitVec.extractLsb'_append_eq_of_le (by decide)).trans ((BitVec.extractLsb'_append_eq_of_add_le (by decide)).trans BitVec.extractLsb'_eq_self)
  have e2 : BitVec.extractLsb' (n := 24) 0 8 ((LDst.code d) ++ (Opnd.code a) ++ 164#8) = 164#8 :=
    (BitVec.extractLsb'_append_eq_of_add_le (by decide)).trans BitVec.extractLsb'_eq_self
  refine (decode_lane ..).trans ?_
  change fields (chk ((BitVec.extractLsb' (n := 24) 0 8 _) == 164#8) (some (.exp2 (LDst.ofCode (BitVec.extractLsb' (n := 24) 16 8 _)) (Opnd.ofCode (BitVec.extractLsb' (n := 24) 8 8 _))))) = _
  rw [e0, e1, e2]
  simp [fields, chk, Opnd.ofCode_code, hwf]

theorem log2 d a : Statement (.log2 d a) := by
  intro hwf w0 hen
  obtain rfl := wordEq hen
  change (a.ok) = true at hwf
  have e0 : BitVec.extractLsb' (n := 24) 16 8 ((LDst.code d) ++ (Opnd.code a) ++ 164#8) = (LDst.code d) :=
    (BitVec.extractLsb'_append_eq_of_le (by decide)).trans ((BitVec.extractLsb'_append_eq_of_le (by decide)).trans BitVec.extractLsb'_eq_self)
  have e1 : BitVec.extractLsb' (n := 24) 8 8 ((LDst.code d) ++ (Opnd.code a) ++ 164#8) = (Opnd.code a) :=
    (BitVec.extractLsb'_append_eq_of_le (by decide)).trans ((BitVec.extractLsb'_append_eq_of_add_le (by decide)).trans BitVec.extractLsb'_eq_self)
  have e2 : BitVec.extractLsb' (n := 24) 0 8 ((LDst.code d) ++ (Opnd.code a) ++ 164#8) = 164#8 :=
    (BitVec.extractLsb'_append_eq_of_add_le (by decide)).trans BitVec.extractLsb'_eq_self
  refine (decode_lane ..).trans ?_
  change fields (chk ((BitVec.extractLsb' (n := 24) 0 8 _) == 164#8) (some (.log2 (LDst.ofCode (BitVec.extractLsb' (n := 24) 16 8 _)) (Opnd.ofCode (BitVec.extractLsb' (n := 24) 8 8 _))))) = _
  rw [e0, e1, e2]
  simp [fields, chk, Opnd.ofCode_code, hwf]

theorem sin d a : Statement (.sin d a) := by
  intro hwf w0 hen
  obtain rfl := wordEq hen
  change (a.ok) = true at hwf
  have e0 : BitVec.extractLsb' (n := 24) 16 8 ((LDst.code d) ++ (Opnd.code a) ++ 164#8) = (LDst.code d) :=
    (BitVec.extractLsb'_append_eq_of_le (by decide)).trans ((BitVec.extractLsb'_append_eq_of_le (by decide)).trans BitVec.extractLsb'_eq_self)
  have e1 : BitVec.extractLsb' (n := 24) 8 8 ((LDst.code d) ++ (Opnd.code a) ++ 164#8) = (Opnd.code a) :=
    (BitVec.extractLsb'_append_eq_of_le (by decide)).trans ((BitVec.extractLsb'_append_eq_of_add_le (by decide)).trans BitVec.extractLsb'_eq_self)
  have e2 : BitVec.extractLsb' (n := 24) 0 8 ((LDst.code d) ++ (Opnd.code a) ++ 164#8) = 164#8 :=
    (BitVec.extractLsb'_append_eq_of_add_le (by decide)).trans BitVec.extractLsb'_eq_self
  refine (decode_lane ..).trans ?_
  change fields (chk ((BitVec.extractLsb' (n := 24) 0 8 _) == 164#8) (some (.sin (LDst.ofCode (BitVec.extractLsb' (n := 24) 16 8 _)) (Opnd.ofCode (BitVec.extractLsb' (n := 24) 8 8 _))))) = _
  rw [e0, e1, e2]
  simp [fields, chk, Opnd.ofCode_code, hwf]

theorem cos d a : Statement (.cos d a) := by
  intro hwf w0 hen
  obtain rfl := wordEq hen
  change (a.ok) = true at hwf
  have e0 : BitVec.extractLsb' (n := 24) 16 8 ((LDst.code d) ++ (Opnd.code a) ++ 164#8) = (LDst.code d) :=
    (BitVec.extractLsb'_append_eq_of_le (by decide)).trans ((BitVec.extractLsb'_append_eq_of_le (by decide)).trans BitVec.extractLsb'_eq_self)
  have e1 : BitVec.extractLsb' (n := 24) 8 8 ((LDst.code d) ++ (Opnd.code a) ++ 164#8) = (Opnd.code a) :=
    (BitVec.extractLsb'_append_eq_of_le (by decide)).trans ((BitVec.extractLsb'_append_eq_of_add_le (by decide)).trans BitVec.extractLsb'_eq_self)
  have e2 : BitVec.extractLsb' (n := 24) 0 8 ((LDst.code d) ++ (Opnd.code a) ++ 164#8) = 164#8 :=
    (BitVec.extractLsb'_append_eq_of_add_le (by decide)).trans BitVec.extractLsb'_eq_self
  refine (decode_lane ..).trans ?_
  change fields (chk ((BitVec.extractLsb' (n := 24) 0 8 _) == 164#8) (some (.cos (LDst.ofCode (BitVec.extractLsb' (n := 24) 16 8 _)) (Opnd.ofCode (BitVec.extractLsb' (n := 24) 8 8 _))))) = _
  rw [e0, e1, e2]
  simp [fields, chk, Opnd.ofCode_code, hwf]

theorem tanh d a : Statement (.tanh d a) := by
  intro hwf w0 hen
  obtain rfl := wordEq hen
  change (a.ok) = true at hwf
  have e0 : BitVec.extractLsb' (n := 24) 16 8 ((LDst.code d) ++ (Opnd.code a) ++ 164#8) = (LDst.code d) :=
    (BitVec.extractLsb'_append_eq_of_le (by decide)).trans ((BitVec.extractLsb'_append_eq_of_le (by decide)).trans BitVec.extractLsb'_eq_self)
  have e1 : BitVec.extractLsb' (n := 24) 8 8 ((LDst.code d) ++ (Opnd.code a) ++ 164#8) = (Opnd.code a) :=
    (BitVec.extractLsb'_append_eq_of_le (by decide)).trans ((BitVec.extractLsb'_append_eq_of_add_le (by decide)).trans BitVec.extractLsb'_eq_self)
  have e2 : BitVec.extractLsb' (n := 24) 0 8 ((LDst.code d) ++ (Opnd.code a) ++ 164#8) = 164#8 :=
    (BitVec.extractLsb'_append_eq_of_add_le (by decide)).trans BitVec.extractLsb'_eq_self
  refine (decode_lane ..).trans ?_
  change fields (chk ((BitVec.extractLsb' (n := 24) 0 8 _) == 164#8) (some (.tanh (LDst.ofCode (BitVec.extractLsb' (n := 24) 16 8 _)) (Opnd.ofCode (BitVec.extractLsb' (n := 24) 8 8 _))))) = _
  rw [e0, e1, e2]
  simp [fields, chk, Opnd.ofCode_code, hwf]

theorem padd d a b bf : Statement (.padd d a b bf) := by
  intro hwf w0 hen
  obtain rfl := wordEq hen
  have e0 : BitVec.extractLsb' (n := 24) 17 7 (d ++ a ++ b ++ 0#2 ++ (BitVec.ofBool bf)) = d :=
    (BitVec.extractLsb'_append_eq_of_le (by decide)).trans ((BitVec.extractLsb'_append_eq_of_le (by decide)).trans ((BitVec.extractLsb'_append_eq_of_le (by decide)).trans ((BitVec.extractLsb'_append_eq_of_le (by decide)).trans BitVec.extractLsb'_eq_self)))
  have e1 : BitVec.extractLsb' (n := 24) 10 7 (d ++ a ++ b ++ 0#2 ++ (BitVec.ofBool bf)) = a :=
    (BitVec.extractLsb'_append_eq_of_le (by decide)).trans ((BitVec.extractLsb'_append_eq_of_le (by decide)).trans ((BitVec.extractLsb'_append_eq_of_le (by decide)).trans ((BitVec.extractLsb'_append_eq_of_add_le (by decide)).trans BitVec.extractLsb'_eq_self)))
  have e2 : BitVec.extractLsb' (n := 24) 3 7 (d ++ a ++ b ++ 0#2 ++ (BitVec.ofBool bf)) = b :=
    (BitVec.extractLsb'_append_eq_of_le (by decide)).trans ((BitVec.extractLsb'_append_eq_of_le (by decide)).trans ((BitVec.extractLsb'_append_eq_of_add_le (by decide)).trans BitVec.extractLsb'_eq_self))
  have e3 : BitVec.extractLsb' (n := 24) 1 2 (d ++ a ++ b ++ 0#2 ++ (BitVec.ofBool bf)) = 0#2 :=
    (BitVec.extractLsb'_append_eq_of_le (by decide)).trans ((BitVec.extractLsb'_append_eq_of_add_le (by decide)).trans BitVec.extractLsb'_eq_self)
  have e4 : BitVec.extractLsb' (n := 24) 0 1 (d ++ a ++ b ++ 0#2 ++ (BitVec.ofBool bf)) = (BitVec.ofBool bf) :=
    (BitVec.extractLsb'_append_eq_of_add_le (by decide)).trans BitVec.extractLsb'_eq_self
  refine (decode_lane ..).trans ?_
  change fields (chk ((BitVec.extractLsb' (n := 24) 1 2 _) == 0#2) (some (.padd ((BitVec.extractLsb' (n := 24) 17 7 _)) ((BitVec.extractLsb' (n := 24) 10 7 _)) ((BitVec.extractLsb' (n := 24) 3 7 _)) ((BitVec.extractLsb' (n := 24) 0 1 _) == 1#1)))) = _
  rw [e0, e1, e2, e3, e4]
  simp [fields, chk]

theorem pmul d a b bf : Statement (.pmul d a b bf) := by
  intro hwf w0 hen
  obtain rfl := wordEq hen
  have e0 : BitVec.extractLsb' (n := 24) 17 7 (d ++ a ++ b ++ 0#2 ++ (BitVec.ofBool bf)) = d :=
    (BitVec.extractLsb'_append_eq_of_le (by decide)).trans ((BitVec.extractLsb'_append_eq_of_le (by decide)).trans ((BitVec.extractLsb'_append_eq_of_le (by decide)).trans ((BitVec.extractLsb'_append_eq_of_le (by decide)).trans BitVec.extractLsb'_eq_self)))
  have e1 : BitVec.extractLsb' (n := 24) 10 7 (d ++ a ++ b ++ 0#2 ++ (BitVec.ofBool bf)) = a :=
    (BitVec.extractLsb'_append_eq_of_le (by decide)).trans ((BitVec.extractLsb'_append_eq_of_le (by decide)).trans ((BitVec.extractLsb'_append_eq_of_le (by decide)).trans ((BitVec.extractLsb'_append_eq_of_add_le (by decide)).trans BitVec.extractLsb'_eq_self)))
  have e2 : BitVec.extractLsb' (n := 24) 3 7 (d ++ a ++ b ++ 0#2 ++ (BitVec.ofBool bf)) = b :=
    (BitVec.extractLsb'_append_eq_of_le (by decide)).trans ((BitVec.extractLsb'_append_eq_of_le (by decide)).trans ((BitVec.extractLsb'_append_eq_of_add_le (by decide)).trans BitVec.extractLsb'_eq_self))
  have e3 : BitVec.extractLsb' (n := 24) 1 2 (d ++ a ++ b ++ 0#2 ++ (BitVec.ofBool bf)) = 0#2 :=
    (BitVec.extractLsb'_append_eq_of_le (by decide)).trans ((BitVec.extractLsb'_append_eq_of_add_le (by decide)).trans BitVec.extractLsb'_eq_self)
  have e4 : BitVec.extractLsb' (n := 24) 0 1 (d ++ a ++ b ++ 0#2 ++ (BitVec.ofBool bf)) = (BitVec.ofBool bf) :=
    (BitVec.extractLsb'_append_eq_of_add_le (by decide)).trans BitVec.extractLsb'_eq_self
  refine (decode_lane ..).trans ?_
  change fields (chk ((BitVec.extractLsb' (n := 24) 1 2 _) == 0#2) (some (.pmul ((BitVec.extractLsb' (n := 24) 17 7 _)) ((BitVec.extractLsb' (n := 24) 10 7 _)) ((BitVec.extractLsb' (n := 24) 3 7 _)) ((BitVec.extractLsb' (n := 24) 0 1 _) == 1#1)))) = _
  rw [e0, e1, e2, e3, e4]
  simp [fields, chk]

theorem pfma d a b bf : Statement (.pfma d a b bf) := by
  intro hwf w0 hen
  obtain rfl := wordEq hen
  have e0 : BitVec.extractLsb' (n := 24) 17 7 (d ++ a ++ b ++ 0#2 ++ (BitVec.ofBool bf)) = d :=
    (BitVec.extractLsb'_append_eq_of_le (by decide)).trans ((BitVec.extractLsb'_append_eq_of_le (by decide)).trans ((BitVec.extractLsb'_append_eq_of_le (by decide)).trans ((BitVec.extractLsb'_append_eq_of_le (by decide)).trans BitVec.extractLsb'_eq_self)))
  have e1 : BitVec.extractLsb' (n := 24) 10 7 (d ++ a ++ b ++ 0#2 ++ (BitVec.ofBool bf)) = a :=
    (BitVec.extractLsb'_append_eq_of_le (by decide)).trans ((BitVec.extractLsb'_append_eq_of_le (by decide)).trans ((BitVec.extractLsb'_append_eq_of_le (by decide)).trans ((BitVec.extractLsb'_append_eq_of_add_le (by decide)).trans BitVec.extractLsb'_eq_self)))
  have e2 : BitVec.extractLsb' (n := 24) 3 7 (d ++ a ++ b ++ 0#2 ++ (BitVec.ofBool bf)) = b :=
    (BitVec.extractLsb'_append_eq_of_le (by decide)).trans ((BitVec.extractLsb'_append_eq_of_le (by decide)).trans ((BitVec.extractLsb'_append_eq_of_add_le (by decide)).trans BitVec.extractLsb'_eq_self))
  have e3 : BitVec.extractLsb' (n := 24) 1 2 (d ++ a ++ b ++ 0#2 ++ (BitVec.ofBool bf)) = 0#2 :=
    (BitVec.extractLsb'_append_eq_of_le (by decide)).trans ((BitVec.extractLsb'_append_eq_of_add_le (by decide)).trans BitVec.extractLsb'_eq_self)
  have e4 : BitVec.extractLsb' (n := 24) 0 1 (d ++ a ++ b ++ 0#2 ++ (BitVec.ofBool bf)) = (BitVec.ofBool bf) :=
    (BitVec.extractLsb'_append_eq_of_add_le (by decide)).trans BitVec.extractLsb'_eq_self
  refine (decode_lane ..).trans ?_
  change fields (chk ((BitVec.extractLsb' (n := 24) 1 2 _) == 0#2) (some (.pfma ((BitVec.extractLsb' (n := 24) 17 7 _)) ((BitVec.extractLsb' (n := 24) 10 7 _)) ((BitVec.extractLsb' (n := 24) 3 7 _)) ((BitVec.extractLsb' (n := 24) 0 1 _) == 1#1)))) = _
  rw [e0, e1, e2, e3, e4]
  simp [fields, chk]

theorem pmax d a b bf : Statement (.pmax d a b bf) := by
  intro hwf w0 hen
  obtain rfl := wordEq hen
  have e0 : BitVec.extractLsb' (n := 24) 17 7 (d ++ a ++ b ++ 0#2 ++ (BitVec.ofBool bf)) = d :=
    (BitVec.extractLsb'_append_eq_of_le (by decide)).trans ((BitVec.extractLsb'_append_eq_of_le (by decide)).trans ((BitVec.extractLsb'_append_eq_of_le (by decide)).trans ((BitVec.extractLsb'_append_eq_of_le (by decide)).trans BitVec.extractLsb'_eq_self)))
  have e1 : BitVec.extractLsb' (n := 24) 10 7 (d ++ a ++ b ++ 0#2 ++ (BitVec.ofBool bf)) = a :=
    (BitVec.extractLsb'_append_eq_of_le (by decide)).trans ((BitVec.extractLsb'_append_eq_of_le (by decide)).trans ((BitVec.extractLsb'_append_eq_of_le (by decide)).trans ((BitVec.extractLsb'_append_eq_of_add_le (by decide)).trans BitVec.extractLsb'_eq_self)))
  have e2 : BitVec.extractLsb' (n := 24) 3 7 (d ++ a ++ b ++ 0#2 ++ (BitVec.ofBool bf)) = b :=
    (BitVec.extractLsb'_append_eq_of_le (by decide)).trans ((BitVec.extractLsb'_append_eq_of_le (by decide)).trans ((BitVec.extractLsb'_append_eq_of_add_le (by decide)).trans BitVec.extractLsb'_eq_self))
  have e3 : BitVec.extractLsb' (n := 24) 1 2 (d ++ a ++ b ++ 0#2 ++ (BitVec.ofBool bf)) = 0#2 :=
    (BitVec.extractLsb'_append_eq_of_le (by decide)).trans ((BitVec.extractLsb'_append_eq_of_add_le (by decide)).trans BitVec.extractLsb'_eq_self)
  have e4 : BitVec.extractLsb' (n := 24) 0 1 (d ++ a ++ b ++ 0#2 ++ (BitVec.ofBool bf)) = (BitVec.ofBool bf) :=
    (BitVec.extractLsb'_append_eq_of_add_le (by decide)).trans BitVec.extractLsb'_eq_self
  refine (decode_lane ..).trans ?_
  change fields (chk ((BitVec.extractLsb' (n := 24) 1 2 _) == 0#2) (some (.pmax ((BitVec.extractLsb' (n := 24) 17 7 _)) ((BitVec.extractLsb' (n := 24) 10 7 _)) ((BitVec.extractLsb' (n := 24) 3 7 _)) ((BitVec.extractLsb' (n := 24) 0 1 _) == 1#1)))) = _
  rw [e0, e1, e2, e3, e4]
  simp [fields, chk]

theorem fscl d a b : Statement (.fscl d a b) := by
  intro hwf w0 hen
  obtain rfl := wordEq hen
  change (a.ok && b.ok) = true at hwf
  simp only [Bool.and_eq_true] at hwf
  have e0 : BitVec.extractLsb' (n := 24) 16 8 ((LDst.code d) ++ (Opnd.code a) ++ (Opnd.code b)) = (LDst.code d) :=
    (BitVec.extractLsb'_append_eq_of_le (by decide)).trans ((BitVec.extractLsb'_append_eq_of_le (by decide)).trans BitVec.extractLsb'_eq_self)
  have e1 : BitVec.extractLsb' (n := 24) 8 8 ((LDst.code d) ++ (Opnd.code a) ++ (Opnd.code b)) = (Opnd.code a) :=
    (BitVec.extractLsb'_append_eq_of_le (by decide)).trans ((BitVec.extractLsb'_append_eq_of_add_le (by decide)).trans BitVec.extractLsb'_eq_self)
  have e2 : BitVec.extractLsb' (n := 24) 0 8 ((LDst.code d) ++ (Opnd.code a) ++ (Opnd.code b)) = (Opnd.code b) :=
    (BitVec.extractLsb'_append_eq_of_add_le (by decide)).trans BitVec.extractLsb'_eq_self
  refine (decode_lane ..).trans ?_
  change fields (some (.fscl (LDst.ofCode (BitVec.extractLsb' (n := 24) 16 8 _)) (Opnd.ofCode (BitVec.extractLsb' (n := 24) 8 8 _)) (Opnd.ofCode (BitVec.extractLsb' (n := 24) 0 8 _)))) = _
  rw [e0, e1, e2]
  simp [fields, Opnd.ofCode_code, hwf]

theorem dxpack d a half fmt : Statement (.dxpack d a half fmt) := by
  intro hwf w0 hen
  obtain rfl := wordEq hen
  change (a.ok) = true at hwf
  have e0 : BitVec.extractLsb' (n := 24) 16 8 ((LDst.code d) ++ (Opnd.code a) ++ 0#5 ++ (BitVec.ofBool half) ++ (DxFmt.code fmt)) = (LDst.code d) :=
    (BitVec.extractLsb'_append_eq_of_le (by decide)).trans ((BitVec.extractLsb'_append_eq_of_le (by decide)).trans ((BitVec.extractLsb'_append_eq_of_le (by decide)).trans ((BitVec.extractLsb'_append_eq_of_le (by decide)).trans BitVec.extractLsb'_eq_self)))
  have e1 : BitVec.extractLsb' (n := 24) 8 8 ((LDst.code d) ++ (Opnd.code a) ++ 0#5 ++ (BitVec.ofBool half) ++ (DxFmt.code fmt)) = (Opnd.code a) :=
    (BitVec.extractLsb'_append_eq_of_le (by decide)).trans ((BitVec.extractLsb'_append_eq_of_le (by decide)).trans ((BitVec.extractLsb'_append_eq_of_le (by decide)).trans ((BitVec.extractLsb'_append_eq_of_add_le (by decide)).trans BitVec.extractLsb'_eq_self)))
  have e2 : BitVec.extractLsb' (n := 24) 3 5 ((LDst.code d) ++ (Opnd.code a) ++ 0#5 ++ (BitVec.ofBool half) ++ (DxFmt.code fmt)) = 0#5 :=
    (BitVec.extractLsb'_append_eq_of_le (by decide)).trans ((BitVec.extractLsb'_append_eq_of_le (by decide)).trans ((BitVec.extractLsb'_append_eq_of_add_le (by decide)).trans BitVec.extractLsb'_eq_self))
  have e3 : BitVec.extractLsb' (n := 24) 2 1 ((LDst.code d) ++ (Opnd.code a) ++ 0#5 ++ (BitVec.ofBool half) ++ (DxFmt.code fmt)) = (BitVec.ofBool half) :=
    (BitVec.extractLsb'_append_eq_of_le (by decide)).trans ((BitVec.extractLsb'_append_eq_of_add_le (by decide)).trans BitVec.extractLsb'_eq_self)
  have e4 : BitVec.extractLsb' (n := 24) 0 2 ((LDst.code d) ++ (Opnd.code a) ++ 0#5 ++ (BitVec.ofBool half) ++ (DxFmt.code fmt)) = (DxFmt.code fmt) :=
    (BitVec.extractLsb'_append_eq_of_add_le (by decide)).trans BitVec.extractLsb'_eq_self
  refine (decode_lane ..).trans ?_
  change fields (chk ((BitVec.extractLsb' (n := 24) 3 5 _) == 0#5) ((DxFmt.ofCode? (BitVec.extractLsb' (n := 24) 0 2 _)).bind (fun fmt => some (.dxpack (LDst.ofCode (BitVec.extractLsb' (n := 24) 16 8 _)) (Opnd.ofCode (BitVec.extractLsb' (n := 24) 8 8 _)) ((BitVec.extractLsb' (n := 24) 2 1 _) == 1#1) fmt)))) = _
  rw [e0, e1, e2, e3, e4]
  simp [fields, chk, Opnd.ofCode_code, hwf]

theorem dxunpk d a half fmt : Statement (.dxunpk d a half fmt) := by
  intro hwf w0 hen
  obtain rfl := wordEq hen
  change (a.ok) = true at hwf
  have e0 : BitVec.extractLsb' (n := 24) 16 8 ((LDst.code d) ++ (Opnd.code a) ++ 0#5 ++ (BitVec.ofBool half) ++ (DxFmt.code fmt)) = (LDst.code d) :=
    (BitVec.extractLsb'_append_eq_of_le (by decide)).trans ((BitVec.extractLsb'_append_eq_of_le (by decide)).trans ((BitVec.extractLsb'_append_eq_of_le (by decide)).trans ((BitVec.extractLsb'_append_eq_of_le (by decide)).trans BitVec.extractLsb'_eq_self)))
  have e1 : BitVec.extractLsb' (n := 24) 8 8 ((LDst.code d) ++ (Opnd.code a) ++ 0#5 ++ (BitVec.ofBool half) ++ (DxFmt.code fmt)) = (Opnd.code a) :=
    (BitVec.extractLsb'_append_eq_of_le (by decide)).trans ((BitVec.extractLsb'_append_eq_of_le (by decide)).trans ((BitVec.extractLsb'_append_eq_of_le (by decide)).trans ((BitVec.extractLsb'_append_eq_of_add_le (by decide)).trans BitVec.extractLsb'_eq_self)))
  have e2 : BitVec.extractLsb' (n := 24) 3 5 ((LDst.code d) ++ (Opnd.code a) ++ 0#5 ++ (BitVec.ofBool half) ++ (DxFmt.code fmt)) = 0#5 :=
    (BitVec.extractLsb'_append_eq_of_le (by decide)).trans ((BitVec.extractLsb'_append_eq_of_le (by decide)).trans ((BitVec.extractLsb'_append_eq_of_add_le (by decide)).trans BitVec.extractLsb'_eq_self))
  have e3 : BitVec.extractLsb' (n := 24) 2 1 ((LDst.code d) ++ (Opnd.code a) ++ 0#5 ++ (BitVec.ofBool half) ++ (DxFmt.code fmt)) = (BitVec.ofBool half) :=
    (BitVec.extractLsb'_append_eq_of_le (by decide)).trans ((BitVec.extractLsb'_append_eq_of_add_le (by decide)).trans BitVec.extractLsb'_eq_self)
  have e4 : BitVec.extractLsb' (n := 24) 0 2 ((LDst.code d) ++ (Opnd.code a) ++ 0#5 ++ (BitVec.ofBool half) ++ (DxFmt.code fmt)) = (DxFmt.code fmt) :=
    (BitVec.extractLsb'_append_eq_of_add_le (by decide)).trans BitVec.extractLsb'_eq_self
  refine (decode_lane ..).trans ?_
  change fields (chk ((BitVec.extractLsb' (n := 24) 3 5 _) == 0#5) ((DxFmt.ofCode? (BitVec.extractLsb' (n := 24) 0 2 _)).bind (fun fmt => some (.dxunpk (LDst.ofCode (BitVec.extractLsb' (n := 24) 16 8 _)) (Opnd.ofCode (BitVec.extractLsb' (n := 24) 8 8 _)) ((BitVec.extractLsb' (n := 24) 2 1 _) == 1#1) fmt)))) = _
  rw [e0, e1, e2, e3, e4]
  simp [fields, chk, Opnd.ofCode_code, hwf]

theorem dxexp d a fmt : Statement (.dxexp d a fmt) := by
  intro hwf w0 hen
  obtain rfl := wordEq hen
  change (a.ok) = true at hwf
  have e0 : BitVec.extractLsb' (n := 24) 16 8 ((LDst.code d) ++ (Opnd.code a) ++ 0#6 ++ (DxFmt.code fmt)) = (LDst.code d) :=
    (BitVec.extractLsb'_append_eq_of_le (by decide)).trans ((BitVec.extractLsb'_append_eq_of_le (by decide)).trans ((BitVec.extractLsb'_append_eq_of_le (by decide)).trans BitVec.extractLsb'_eq_self))
  have e1 : BitVec.extractLsb' (n := 24) 8 8 ((LDst.code d) ++ (Opnd.code a) ++ 0#6 ++ (DxFmt.code fmt)) = (Opnd.code a) :=
    (BitVec.extractLsb'_append_eq_of_le (by decide)).trans ((BitVec.extractLsb'_append_eq_of_le (by decide)).trans ((BitVec.extractLsb'_append_eq_of_add_le (by decide)).trans BitVec.extractLsb'_eq_self))
  have e2 : BitVec.extractLsb' (n := 24) 2 6 ((LDst.code d) ++ (Opnd.code a) ++ 0#6 ++ (DxFmt.code fmt)) = 0#6 :=
    (BitVec.extractLsb'_append_eq_of_le (by decide)).trans ((BitVec.extractLsb'_append_eq_of_add_le (by decide)).trans BitVec.extractLsb'_eq_self)
  have e3 : BitVec.extractLsb' (n := 24) 0 2 ((LDst.code d) ++ (Opnd.code a) ++ 0#6 ++ (DxFmt.code fmt)) = (DxFmt.code fmt) :=
    (BitVec.extractLsb'_append_eq_of_add_le (by decide)).trans BitVec.extractLsb'_eq_self
  refine (decode_lane ..).trans ?_
  change fields (chk ((BitVec.extractLsb' (n := 24) 2 6 _) == 0#6) ((DxFmt.ofCode? (BitVec.extractLsb' (n := 24) 0 2 _)).bind (fun fmt => some (.dxexp (LDst.ofCode (BitVec.extractLsb' (n := 24) 16 8 _)) (Opnd.ofCode (BitVec.extractLsb' (n := 24) 8 8 _)) fmt)))) = _
  rw [e0, e1, e2, e3]
  simp [fields, chk, Opnd.ofCode_code, hwf]

theorem shuf d a b : Statement (.shuf d a b) := by
  intro hwf w0 hen
  obtain rfl := wordEq hen
  change (a.ok && b.ok) = true at hwf
  simp only [Bool.and_eq_true] at hwf
  have e0 : BitVec.extractLsb' (n := 24) 16 8 ((LDst.code d) ++ (Opnd.code a) ++ (Opnd.code b)) = (LDst.code d) :=
    (BitVec.extractLsb'_append_eq_of_le (by decide)).trans ((BitVec.extractLsb'_append_eq_of_le (by decide)).trans BitVec.extractLsb'_eq_self)
  have e1 : BitVec.extractLsb' (n := 24) 8 8 ((LDst.code d) ++ (Opnd.code a) ++ (Opnd.code b)) = (Opnd.code a) :=
    (BitVec.extractLsb'_append_eq_of_le (by decide)).trans ((BitVec.extractLsb'_append_eq_of_add_le (by decide)).trans BitVec.extractLsb'_eq_self)
  have e2 : BitVec.extractLsb' (n := 24) 0 8 ((LDst.code d) ++ (Opnd.code a) ++ (Opnd.code b)) = (Opnd.code b) :=
    (BitVec.extractLsb'_append_eq_of_add_le (by decide)).trans BitVec.extractLsb'_eq_self
  refine (decode_lane ..).trans ?_
  change fields (some (.shuf (LDst.ofCode (BitVec.extractLsb' (n := 24) 16 8 _)) (Opnd.ofCode (BitVec.extractLsb' (n := 24) 8 8 _)) (Opnd.ofCode (BitVec.extractLsb' (n := 24) 0 8 _)))) = _
  rw [e0, e1, e2]
  simp [fields, Opnd.ofCode_code, hwf]

theorem lpush d a b : Statement (.lpush d a b) := by
  intro hwf w0 hen
  obtain rfl := wordEq hen
  change (a.ok && b.ok) = true at hwf
  simp only [Bool.and_eq_true] at hwf
  have e0 : BitVec.extractLsb' (n := 24) 16 8 ((LDst.code d) ++ (Opnd.code a) ++ (Opnd.code b)) = (LDst.code d) :=
    (BitVec.extractLsb'_append_eq_of_le (by decide)).trans ((BitVec.extractLsb'_append_eq_of_le (by decide)).trans BitVec.extractLsb'_eq_self)
  have e1 : BitVec.extractLsb' (n := 24) 8 8 ((LDst.code d) ++ (Opnd.code a) ++ (Opnd.code b)) = (Opnd.code a) :=
    (BitVec.extractLsb'_append_eq_of_le (by decide)).trans ((BitVec.extractLsb'_append_eq_of_add_le (by decide)).trans BitVec.extractLsb'_eq_self)
  have e2 : BitVec.extractLsb' (n := 24) 0 8 ((LDst.code d) ++ (Opnd.code a) ++ (Opnd.code b)) = (Opnd.code b) :=
    (BitVec.extractLsb'_append_eq_of_add_le (by decide)).trans BitVec.extractLsb'_eq_self
  refine (decode_lane ..).trans ?_
  change fields (some (.lpush (LDst.ofCode (BitVec.extractLsb' (n := 24) 16 8 _)) (Opnd.ofCode (BitVec.extractLsb' (n := 24) 8 8 _)) (Opnd.ofCode (BitVec.extractLsb' (n := 24) 0 8 _)))) = _
  rw [e0, e1, e2]
  simp [fields, Opnd.ofCode_code, hwf]

theorem bcast d a b : Statement (.bcast d a b) := by
  intro hwf w0 hen
  obtain rfl := wordEq hen
  change (a.ok && b.ok) = true at hwf
  simp only [Bool.and_eq_true] at hwf
  have e0 : BitVec.extractLsb' (n := 24) 16 8 ((LDst.code d) ++ (Opnd.code a) ++ (Opnd.code b)) = (LDst.code d) :=
    (BitVec.extractLsb'_append_eq_of_le (by decide)).trans ((BitVec.extractLsb'_append_eq_of_le (by decide)).trans BitVec.extractLsb'_eq_self)
  have e1 : BitVec.extractLsb' (n := 24) 8 8 ((LDst.code d) ++ (Opnd.code a) ++ (Opnd.code b)) = (Opnd.code a) :=
    (BitVec.extractLsb'_append_eq_of_le (by decide)).trans ((BitVec.extractLsb'_append_eq_of_add_le (by decide)).trans BitVec.extractLsb'_eq_self)
  have e2 : BitVec.extractLsb' (n := 24) 0 8 ((LDst.code d) ++ (Opnd.code a) ++ (Opnd.code b)) = (Opnd.code b) :=
    (BitVec.extractLsb'_append_eq_of_add_le (by decide)).trans BitVec.extractLsb'_eq_self
  refine (decode_lane ..).trans ?_
  change fields (some (.bcast (LDst.ofCode (BitVec.extractLsb' (n := 24) 16 8 _)) (Opnd.ofCode (BitVec.extractLsb' (n := 24) 8 8 _)) (Opnd.ofCode (BitVec.extractLsb' (n := 24) 0 8 _)))) = _
  rw [e0, e1, e2]
  simp [fields, Opnd.ofCode_code, hwf]

theorem lscan d a ex op : Statement (.lscan d a ex op) := by
  intro hwf w0 hen
  obtain rfl := wordEq hen
  change (a.ok) = true at hwf
  have e0 : BitVec.extractLsb' (n := 24) 16 8 ((LDst.code d) ++ (Opnd.code a) ++ 0#4 ++ (BitVec.ofBool ex) ++ (ScanOp.code op)) = (LDst.code d) :=
    (BitVec.extractLsb'_append_eq_of_le (by decide)).trans ((BitVec.extractLsb'_append_eq_of_le (by decide)).trans ((BitVec.extractLsb'_append_eq_of_le (by decide)).trans ((BitVec.extractLsb'_append_eq_of_le (by decide)).trans BitVec.extractLsb'_eq_self)))
  have e1 : BitVec.extractLsb' (n := 24) 8 8 ((LDst.code d) ++ (Opnd.code a) ++ 0#4 ++ (BitVec.ofBool ex) ++ (ScanOp.code op)) = (Opnd.code a) :=
    (BitVec.extractLsb'_append_eq_of_le (by decide)).trans ((BitVec.extractLsb'_append_eq_of_le (by decide)).trans ((BitVec.extractLsb'_append_eq_of_le (by decide)).trans ((BitVec.extractLsb'_append_eq_of_add_le (by decide)).trans BitVec.extractLsb'_eq_self)))
  have e2 : BitVec.extractLsb' (n := 24) 4 4 ((LDst.code d) ++ (Opnd.code a) ++ 0#4 ++ (BitVec.ofBool ex) ++ (ScanOp.code op)) = 0#4 :=
    (BitVec.extractLsb'_append_eq_of_le (by decide)).trans ((BitVec.extractLsb'_append_eq_of_le (by decide)).trans ((BitVec.extractLsb'_append_eq_of_add_le (by decide)).trans BitVec.extractLsb'_eq_self))
  have e3 : BitVec.extractLsb' (n := 24) 3 1 ((LDst.code d) ++ (Opnd.code a) ++ 0#4 ++ (BitVec.ofBool ex) ++ (ScanOp.code op)) = (BitVec.ofBool ex) :=
    (BitVec.extractLsb'_append_eq_of_le (by decide)).trans ((BitVec.extractLsb'_append_eq_of_add_le (by decide)).trans BitVec.extractLsb'_eq_self)
  have e4 : BitVec.extractLsb' (n := 24) 0 3 ((LDst.code d) ++ (Opnd.code a) ++ 0#4 ++ (BitVec.ofBool ex) ++ (ScanOp.code op)) = (ScanOp.code op) :=
    (BitVec.extractLsb'_append_eq_of_add_le (by decide)).trans BitVec.extractLsb'_eq_self
  refine (decode_lane ..).trans ?_
  change fields (chk ((BitVec.extractLsb' (n := 24) 4 4 _) == 0#4) (some (.lscan (LDst.ofCode (BitVec.extractLsb' (n := 24) 16 8 _)) (Opnd.ofCode (BitVec.extractLsb' (n := 24) 8 8 _)) ((BitVec.extractLsb' (n := 24) 3 1 _) == 1#1) (ScanOp.ofCode (BitVec.extractLsb' (n := 24) 0 3 _))))) = _
  rw [e0, e1, e2, e3, e4]
  simp [fields, chk, Opnd.ofCode_code, hwf]

theorem fscan d a ex op : Statement (.fscan d a ex op) := by
  intro hwf w0 hen
  obtain rfl := wordEq hen
  change (a.ok) = true at hwf
  have e0 : BitVec.extractLsb' (n := 24) 16 8 ((LDst.code d) ++ (Opnd.code a) ++ 0#5 ++ (BitVec.ofBool ex) ++ (FScanOp.code op)) = (LDst.code d) :=
    (BitVec.extractLsb'_append_eq_of_le (by decide)).trans ((BitVec.extractLsb'_append_eq_of_le (by decide)).trans ((BitVec.extractLsb'_append_eq_of_le (by decide)).trans ((BitVec.extractLsb'_append_eq_of_le (by decide)).trans BitVec.extractLsb'_eq_self)))
  have e1 : BitVec.extractLsb' (n := 24) 8 8 ((LDst.code d) ++ (Opnd.code a) ++ 0#5 ++ (BitVec.ofBool ex) ++ (FScanOp.code op)) = (Opnd.code a) :=
    (BitVec.extractLsb'_append_eq_of_le (by decide)).trans ((BitVec.extractLsb'_append_eq_of_le (by decide)).trans ((BitVec.extractLsb'_append_eq_of_le (by decide)).trans ((BitVec.extractLsb'_append_eq_of_add_le (by decide)).trans BitVec.extractLsb'_eq_self)))
  have e2 : BitVec.extractLsb' (n := 24) 3 5 ((LDst.code d) ++ (Opnd.code a) ++ 0#5 ++ (BitVec.ofBool ex) ++ (FScanOp.code op)) = 0#5 :=
    (BitVec.extractLsb'_append_eq_of_le (by decide)).trans ((BitVec.extractLsb'_append_eq_of_le (by decide)).trans ((BitVec.extractLsb'_append_eq_of_add_le (by decide)).trans BitVec.extractLsb'_eq_self))
  have e3 : BitVec.extractLsb' (n := 24) 2 1 ((LDst.code d) ++ (Opnd.code a) ++ 0#5 ++ (BitVec.ofBool ex) ++ (FScanOp.code op)) = (BitVec.ofBool ex) :=
    (BitVec.extractLsb'_append_eq_of_le (by decide)).trans ((BitVec.extractLsb'_append_eq_of_add_le (by decide)).trans BitVec.extractLsb'_eq_self)
  have e4 : BitVec.extractLsb' (n := 24) 0 2 ((LDst.code d) ++ (Opnd.code a) ++ 0#5 ++ (BitVec.ofBool ex) ++ (FScanOp.code op)) = (FScanOp.code op) :=
    (BitVec.extractLsb'_append_eq_of_add_le (by decide)).trans BitVec.extractLsb'_eq_self
  refine (decode_lane ..).trans ?_
  change fields (chk ((BitVec.extractLsb' (n := 24) 3 5 _) == 0#5) ((FScanOp.ofCode? (BitVec.extractLsb' (n := 24) 0 2 _)).bind (fun op => some (.fscan (LDst.ofCode (BitVec.extractLsb' (n := 24) 16 8 _)) (Opnd.ofCode (BitVec.extractLsb' (n := 24) 8 8 _)) ((BitVec.extractLsb' (n := 24) 2 1 _) == 1#1) op)))) = _
  rw [e0, e1, e2, e3, e4]
  simp [fields, chk, Opnd.ofCode_code, hwf]

theorem lred d a op : Statement (.lred d a op) := by
  intro hwf w0 hen
  obtain rfl := wordEq hen
  change (a.ok) = true at hwf
  have e0 : BitVec.extractLsb' (n := 24) 16 8 ((LDst.code d) ++ (Opnd.code a) ++ 0#4 ++ (RedOp.code op)) = (LDst.code d) :=
    (BitVec.extractLsb'_append_eq_of_le (by decide)).trans ((BitVec.extractLsb'_append_eq_of_le (by decide)).trans ((BitVec.extractLsb'_append_eq_of_le (by decide)).trans BitVec.extractLsb'_eq_self))
  have e1 : BitVec.extractLsb' (n := 24) 8 8 ((LDst.code d) ++ (Opnd.code a) ++ 0#4 ++ (RedOp.code op)) = (Opnd.code a) :=
    (BitVec.extractLsb'_append_eq_of_le (by decide)).trans ((BitVec.extractLsb'_append_eq_of_le (by decide)).trans ((BitVec.extractLsb'_append_eq_of_add_le (by decide)).trans BitVec.extractLsb'_eq_self))
  have e2 : BitVec.extractLsb' (n := 24) 4 4 ((LDst.code d) ++ (Opnd.code a) ++ 0#4 ++ (RedOp.code op)) = 0#4 :=
    (BitVec.extractLsb'_append_eq_of_le (by decide)).trans ((BitVec.extractLsb'_append_eq_of_add_le (by decide)).trans BitVec.extractLsb'_eq_self)
  have e3 : BitVec.extractLsb' (n := 24) 0 4 ((LDst.code d) ++ (Opnd.code a) ++ 0#4 ++ (RedOp.code op)) = (RedOp.code op) :=
    (BitVec.extractLsb'_append_eq_of_add_le (by decide)).trans BitVec.extractLsb'_eq_self
  refine (decode_lane ..).trans ?_
  change fields (chk ((BitVec.extractLsb' (n := 24) 4 4 _) == 0#4) ((RedOp.ofCode? (BitVec.extractLsb' (n := 24) 0 4 _)).bind (fun op => some (.lred (LDst.ofCode (BitVec.extractLsb' (n := 24) 16 8 _)) (Opnd.ofCode (BitVec.extractLsb' (n := 24) 8 8 _)) op)))) = _
  rw [e0, e1, e2, e3]
  simp [fields, chk, Opnd.ofCode_code, hwf]

theorem vote pd m px : Statement (.vote pd m px) := by
  intro hwf w0 hen
  obtain rfl := wordEq hen
  have e0 : BitVec.extractLsb' (n := 24) 21 3 (pd ++ 0#3 ++ (VoteMode.code m) ++ 0#5 ++ px ++ 0#8) = pd :=
    (BitVec.extractLsb'_append_eq_of_le (by decide)).trans ((BitVec.extractLsb'_append_eq_of_le (by decide)).trans ((BitVec.extractLsb'_append_eq_of_le (by decide)).trans ((BitVec.extractLsb'_append_eq_of_le (by decide)).trans ((BitVec.extractLsb'_append_eq_of_le (by decide)).trans BitVec.extractLsb'_eq_self))))
  have e1 : BitVec.extractLsb' (n := 24) 18 3 (pd ++ 0#3 ++ (VoteMode.code m) ++ 0#5 ++ px ++ 0#8) = 0#3 :=
    (BitVec.extractLsb'_append_eq_of_le (by decide)).trans ((BitVec.extractLsb'_append_eq_of_le (by decide)).trans ((BitVec.extractLsb'_append_eq_of_le (by decide)).trans ((BitVec.extractLsb'_append_eq_of_le (by decide)).trans ((BitVec.extractLsb'_append_eq_of_add_le (by decide)).trans BitVec.extractLsb'_eq_self))))
  have e2 : BitVec.extractLsb' (n := 24) 16 2 (pd ++ 0#3 ++ (VoteMode.code m) ++ 0#5 ++ px ++ 0#8) = (VoteMode.code m) :=
    (BitVec.extractLsb'_append_eq_of_le (by decide)).trans ((BitVec.extractLsb'_append_eq_of_le (by decide)).trans ((BitVec.extractLsb'_append_eq_of_le (by decide)).trans ((BitVec.extractLsb'_append_eq_of_add_le (by decide)).trans BitVec.extractLsb'_eq_self)))
  have e3 : BitVec.extractLsb' (n := 24) 11 5 (pd ++ 0#3 ++ (VoteMode.code m) ++ 0#5 ++ px ++ 0#8) = 0#5 :=
    (BitVec.extractLsb'_append_eq_of_le (by decide)).trans ((BitVec.extractLsb'_append_eq_of_le (by decide)).trans ((BitVec.extractLsb'_append_eq_of_add_le (by decide)).trans BitVec.extractLsb'_eq_self))
  have e4 : BitVec.extractLsb' (n := 24) 8 3 (pd ++ 0#3 ++ (VoteMode.code m) ++ 0#5 ++ px ++ 0#8) = px :=
    (BitVec.extractLsb'_append_eq_of_le (by decide)).trans ((BitVec.extractLsb'_append_eq_of_add_le (by decide)).trans BitVec.extractLsb'_eq_self)
  have e5 : BitVec.extractLsb' (n := 24) 0 8 (pd ++ 0#3 ++ (VoteMode.code m) ++ 0#5 ++ px ++ 0#8) = 0#8 :=
    (BitVec.extractLsb'_append_eq_of_add_le (by decide)).trans BitVec.extractLsb'_eq_self
  refine (decode_lane ..).trans ?_
  change fields (chk ((BitVec.extractLsb' (n := 24) 18 3 _) == 0#3) ((VoteMode.ofCode? (BitVec.extractLsb' (n := 24) 16 2 _)).bind (fun m => chk ((BitVec.extractLsb' (n := 24) 11 5 _) == 0#5) (chk ((BitVec.extractLsb' (n := 24) 0 8 _) == 0#8) (some (.vote ((BitVec.extractLsb' (n := 24) 21 3 _)) m ((BitVec.extractLsb' (n := 24) 8 3 _)))))))) = _
  rw [e0, e1, e2, e3, e4, e5]
  simp [fields, chk]

theorem rng d a b : Statement (.rng d a b) := by
  intro hwf w0 hen
  obtain rfl := wordEq hen
  change (a.ok && b.ok) = true at hwf
  simp only [Bool.and_eq_true] at hwf
  have e0 : BitVec.extractLsb' (n := 24) 16 8 ((LDst.code d) ++ (Opnd.code a) ++ (Opnd.code b)) = (LDst.code d) :=
    (BitVec.extractLsb'_append_eq_of_le (by decide)).trans ((BitVec.extractLsb'_append_eq_of_le (by decide)).trans BitVec.extractLsb'_eq_self)
  have e1 : BitVec.extractLsb' (n := 24) 8 8 ((LDst.code d) ++ (Opnd.code a) ++ (Opnd.code b)) = (Opnd.code a) :=
    (BitVec.extractLsb'_append_eq_of_le (by decide)).trans ((BitVec.extractLsb'_append_eq_of_add_le (by decide)).trans BitVec.extractLsb'_eq_self)
  have e2 : BitVec.extractLsb' (n := 24) 0 8 ((LDst.code d) ++ (Opnd.code a) ++ (Opnd.code b)) = (Opnd.code b) :=
    (BitVec.extractLsb'_append_eq_of_add_le (by decide)).trans BitVec.extractLsb'_eq_self
  refine (decode_lane ..).trans ?_
  change fields (some (.rng (LDst.ofCode (BitVec.extractLsb' (n := 24) 16 8 _)) (Opnd.ofCode (BitVec.extractLsb' (n := 24) 8 8 _)) (Opnd.ofCode (BitVec.extractLsb' (n := 24) 0 8 _)))) = _
  rw [e0, e1, e2]
  simp [fields, Opnd.ofCode_code, hwf]

theorem prefpop d a inc : Statement (.prefpop d a inc) := by
  intro hwf w0 hen
  obtain rfl := wordEq hen
  change (a.ok) = true at hwf
  have e0 : BitVec.extractLsb' (n := 24) 16 8 ((LDst.code d) ++ (Opnd.code a) ++ 0#7 ++ (BitVec.ofBool inc)) = (LDst.code d) :=
    (BitVec.extractLsb'_append_eq_of_le (by decide)).trans ((BitVec.extractLsb'_append_eq_of_le (by decide)).trans ((BitVec.extractLsb'_append_eq_of_le (by decide)).trans BitVec.extractLsb'_eq_self))
  have e1 : BitVec.extractLsb' (n := 24) 8 8 ((LDst.code d) ++ (Opnd.code a) ++ 0#7 ++ (BitVec.ofBool inc)) = (Opnd.code a) :=
    (BitVec.extractLsb'_append_eq_of_le (by decide)).trans ((BitVec.extractLsb'_append_eq_of_le (by decide)).trans ((BitVec.extractLsb'_append_eq_of_add_le (by decide)).trans BitVec.extractLsb'_eq_self))
  have e2 : BitVec.extractLsb' (n := 24) 1 7 ((LDst.code d) ++ (Opnd.code a) ++ 0#7 ++ (BitVec.ofBool inc)) = 0#7 :=
    (BitVec.extractLsb'_append_eq_of_le (by decide)).trans ((BitVec.extractLsb'_append_eq_of_add_le (by decide)).trans BitVec.extractLsb'_eq_self)
  have e3 : BitVec.extractLsb' (n := 24) 0 1 ((LDst.code d) ++ (Opnd.code a) ++ 0#7 ++ (BitVec.ofBool inc)) = (BitVec.ofBool inc) :=
    (BitVec.extractLsb'_append_eq_of_add_le (by decide)).trans BitVec.extractLsb'_eq_self
  refine (decode_lane ..).trans ?_
  change fields (chk ((BitVec.extractLsb' (n := 24) 1 7 _) == 0#7) (some (.prefpop (LDst.ofCode (BitVec.extractLsb' (n := 24) 16 8 _)) (Opnd.ofCode (BitVec.extractLsb' (n := 24) 8 8 _)) ((BitVec.extractLsb' (n := 24) 0 1 _) == 1#1)))) = _
  rw [e0, e1, e2, e3]
  simp [fields, chk, Opnd.ofCode_code, hwf]

theorem ldLane d addr ty o : Statement (.ldLane d addr ty o) := by
  intro hwf w0 hen
  obtain rfl := wordEq hen
  have e0 : BitVec.extractLsb' (n := 24) 16 8 ((LDst.code d) ++ 0#1 ++ addr ++ (Ty.code ty) ++ (MOrd.code o)) = (LDst.code d) :=
    (BitVec.extractLsb'_append_eq_of_le (by decide)).trans ((BitVec.extractLsb'_append_eq_of_le (by decide)).trans ((BitVec.extractLsb'_append_eq_of_le (by decide)).trans ((BitVec.extractLsb'_append_eq_of_le (by decide)).trans BitVec.extractLsb'_eq_self)))
  have e1 : BitVec.extractLsb' (n := 24) 15 1 ((LDst.code d) ++ 0#1 ++ addr ++ (Ty.code ty) ++ (MOrd.code o)) = 0#1 :=
    (BitVec.extractLsb'_append_eq_of_le (by decide)).trans ((BitVec.extractLsb'_append_eq_of_le (by decide)).trans ((BitVec.extractLsb'_append_eq_of_le (by decide)).trans ((BitVec.extractLsb'_append_eq_of_add_le (by decide)).trans BitVec.extractLsb'_eq_self)))
  have e2 : BitVec.extractLsb' (n := 24) 9 6 ((LDst.code d) ++ 0#1 ++ addr ++ (Ty.code ty) ++ (MOrd.code o)) = addr :=
    (BitVec.extractLsb'_append_eq_of_le (by decide)).trans ((BitVec.extractLsb'_append_eq_of_le (by decide)).trans ((BitVec.extractLsb'_append_eq_of_add_le (by decide)).trans BitVec.extractLsb'_eq_self))
  have e3 : BitVec.extractLsb' (n := 24) 6 3 ((LDst.code d) ++ 0#1 ++ addr ++ (Ty.code ty) ++ (MOrd.code o)) = (Ty.code ty) :=
    (BitVec.extractLsb'_append_eq_of_le (by decide)).trans ((BitVec.extractLsb'_append_eq_of_add_le (by decide)).trans BitVec.extractLsb'_eq_self)
  have e4 : BitVec.extractLsb' (n := 24) 0 6 ((LDst.code d) ++ 0#1 ++ addr ++ (Ty.code ty) ++ (MOrd.code o)) = (MOrd.code o) :=
    (BitVec.extractLsb'_append_eq_of_add_le (by decide)).trans BitVec.extractLsb'_eq_self
  refine (decode_lane ..).trans ?_
  change fields (chk ((BitVec.extractLsb' (n := 24) 15 1 _) == 0#1) ((Ty.ofCode? (BitVec.extractLsb' (n := 24) 6 3 _)).bind (fun ty => (MOrd.ofCode? (BitVec.extractLsb' (n := 24) 0 6 _)).bind (fun o => some (.ldLane (LDst.ofCode (BitVec.extractLsb' (n := 24) 16 8 _)) ((BitVec.extractLsb' (n := 24) 9 6 _)) ty o))))) = _
  rw [e0, e1, e2, e3, e4]
  simp [fields, chk]

theorem stLane data addr ty o : Statement (.stLane data addr ty o) := by
  intro hwf w0 hen
  obtain rfl := wordEq hen
  change (data.ok && ty.storable) = true at hwf
  simp only [Bool.and_eq_true] at hwf
  have e0 : BitVec.extractLsb' (n := 24) 16 8 ((Opnd.code data) ++ 0#1 ++ addr ++ (Ty.code ty) ++ (MOrd.code o)) = (Opnd.code data) :=
    (BitVec.extractLsb'_append_eq_of_le (by decide)).trans ((BitVec.extractLsb'_append_eq_of_le (by decide)).trans ((BitVec.extractLsb'_append_eq_of_le (by decide)).trans ((BitVec.extractLsb'_append_eq_of_le (by decide)).trans BitVec.extractLsb'_eq_self)))
  have e1 : BitVec.extractLsb' (n := 24) 15 1 ((Opnd.code data) ++ 0#1 ++ addr ++ (Ty.code ty) ++ (MOrd.code o)) = 0#1 :=
    (BitVec.extractLsb'_append_eq_of_le (by decide)).trans ((BitVec.extractLsb'_append_eq_of_le (by decide)).trans ((BitVec.extractLsb'_append_eq_of_le (by decide)).trans ((BitVec.extractLsb'_append_eq_of_add_le (by decide)).trans BitVec.extractLsb'_eq_self)))
  have e2 : BitVec.extractLsb' (n := 24) 9 6 ((Opnd.code data) ++ 0#1 ++ addr ++ (Ty.code ty) ++ (MOrd.code o)) = addr :=
    (BitVec.extractLsb'_append_eq_of_le (by decide)).trans ((BitVec.extractLsb'_append_eq_of_le (by decide)).trans ((BitVec.extractLsb'_append_eq_of_add_le (by decide)).trans BitVec.extractLsb'_eq_self))
  have e3 : BitVec.extractLsb' (n := 24) 6 3 ((Opnd.code data) ++ 0#1 ++ addr ++ (Ty.code ty) ++ (MOrd.code o)) = (Ty.code ty) :=
    (BitVec.extractLsb'_append_eq_of_le (by decide)).trans ((BitVec.extractLsb'_append_eq_of_add_le (by decide)).trans BitVec.extractLsb'_eq_self)
  have e4 : BitVec.extractLsb' (n := 24) 0 6 ((Opnd.code data) ++ 0#1 ++ addr ++ (Ty.code ty) ++ (MOrd.code o)) = (MOrd.code o) :=
    (BitVec.extractLsb'_append_eq_of_add_le (by decide)).trans BitVec.extractLsb'_eq_self
  refine (decode_lane ..).trans ?_
  change fields (chk ((BitVec.extractLsb' (n := 24) 15 1 _) == 0#1) ((Ty.ofStore? (BitVec.extractLsb' (n := 24) 6 3 _)).bind (fun ty => (MOrd.ofCode? (BitVec.extractLsb' (n := 24) 0 6 _)).bind (fun o => some (.stLane (Opnd.ofCode (BitVec.extractLsb' (n := 24) 16 8 _)) ((BitVec.extractLsb' (n := 24) 9 6 _)) ty o))))) = _
  rw [e0, e1, e2, e3, e4]
  simp [fields, chk, Opnd.ofCode_code, Ty.ofStore?_code, hwf]

theorem lds d addr ty o : Statement (.lds d addr ty o) := by
  intro hwf w0 hen
  obtain rfl := wordEq hen
  have e0 : BitVec.extractLsb' (n := 24) 16 8 ((LDst.code d) ++ addr ++ (Ty.code ty) ++ (MOrd.code o)) = (LDst.code d) :=
    (BitVec.extractLsb'_append_eq_of_le (by decide)).trans ((BitVec.extractLsb'_append_eq_of_le (by decide)).trans ((BitVec.extractLsb'_append_eq_of_le (by decide)).trans BitVec.extractLsb'_eq_self))
  have e1 : BitVec.extractLsb' (n := 24) 9 7 ((LDst.code d) ++ addr ++ (Ty.code ty) ++ (MOrd.code o)) = addr :=
    (BitVec.extractLsb'_append_eq_of_le (by decide)).trans ((BitVec.extractLsb'_append_eq_of_le (by decide)).trans ((BitVec.extractLsb'_append_eq_of_add_le (by decide)).trans BitVec.extractLsb'_eq_self))
  have e2 : BitVec.extractLsb' (n := 24) 6 3 ((LDst.code d) ++ addr ++ (Ty.code ty) ++ (MOrd.code o)) = (Ty.code ty) :=
    (BitVec.extractLsb'_append_eq_of_le (by decide)).trans ((BitVec.extractLsb'_append_eq_of_add_le (by decide)).trans BitVec.extractLsb'_eq_self)
  have e3 : BitVec.extractLsb' (n := 24) 0 6 ((LDst.code d) ++ addr ++ (Ty.code ty) ++ (MOrd.code o)) = (MOrd.code o) :=
    (BitVec.extractLsb'_append_eq_of_add_le (by decide)).trans BitVec.extractLsb'_eq_self
  refine (decode_lane ..).trans ?_
  change fields ((Ty.ofCode? (BitVec.extractLsb' (n := 24) 6 3 _)).bind (fun ty => (MOrd.ofCode? (BitVec.extractLsb' (n := 24) 0 6 _)).bind (fun o => some (.lds (LDst.ofCode (BitVec.extractLsb' (n := 24) 16 8 _)) ((BitVec.extractLsb' (n := 24) 9 7 _)) ty o)))) = _
  rw [e0, e1, e2, e3]
  simp [fields]

theorem sts data addr ty o : Statement (.sts data addr ty o) := by
  intro hwf w0 hen
  obtain rfl := wordEq hen
  change (data.ok && ty.storable) = true at hwf
  simp only [Bool.and_eq_true] at hwf
  have e0 : BitVec.extractLsb' (n := 24) 16 8 ((Opnd.code data) ++ addr ++ (Ty.code ty) ++ (MOrd.code o)) = (Opnd.code data) :=
    (BitVec.extractLsb'_append_eq_of_le (by decide)).trans ((BitVec.extractLsb'_append_eq_of_le (by decide)).trans ((BitVec.extractLsb'_append_eq_of_le (by decide)).trans BitVec.extractLsb'_eq_self))
  have e1 : BitVec.extractLsb' (n := 24) 9 7 ((Opnd.code data) ++ addr ++ (Ty.code ty) ++ (MOrd.code o)) = addr :=
    (BitVec.extractLsb'_append_eq_of_le (by decide)).trans ((BitVec.extractLsb'_append_eq_of_le (by decide)).trans ((BitVec.extractLsb'_append_eq_of_add_le (by decide)).trans BitVec.extractLsb'_eq_self))
  have e2 : BitVec.extractLsb' (n := 24) 6 3 ((Opnd.code data) ++ addr ++ (Ty.code ty) ++ (MOrd.code o)) = (Ty.code ty) :=
    (BitVec.extractLsb'_append_eq_of_le (by decide)).trans ((BitVec.extractLsb'_append_eq_of_add_le (by decide)).trans BitVec.extractLsb'_eq_self)
  have e3 : BitVec.extractLsb' (n := 24) 0 6 ((Opnd.code data) ++ addr ++ (Ty.code ty) ++ (MOrd.code o)) = (MOrd.code o) :=
    (BitVec.extractLsb'_append_eq_of_add_le (by decide)).trans BitVec.extractLsb'_eq_self
  refine (decode_lane ..).trans ?_
  change fields ((Ty.ofStore? (BitVec.extractLsb' (n := 24) 6 3 _)).bind (fun ty => (MOrd.ofCode? (BitVec.extractLsb' (n := 24) 0 6 _)).bind (fun o => some (.sts (Opnd.ofCode (BitVec.extractLsb' (n := 24) 16 8 _)) ((BitVec.extractLsb' (n := 24) 9 7 _)) ty o)))) = _
  rw [e0, e1, e2, e3]
  simp [fields, Opnd.ofCode_code, Ty.ofStore?_code, hwf]

theorem aaddLane d addr v os : Statement (.aaddLane d addr v os) := by
  intro hwf w0 hen
  obtain rfl := wordEq hen
  have e0 : BitVec.extractLsb' (n := 24) 17 7 (d ++ (LaAddr.code addr) ++ v ++ (Os.code os)) = d :=
    (BitVec.extractLsb'_append_eq_of_le (by decide)).trans ((BitVec.extractLsb'_append_eq_of_le (by decide)).trans ((BitVec.extractLsb'_append_eq_of_le (by decide)).trans BitVec.extractLsb'_eq_self))
  have e1 : BitVec.extractLsb' (n := 24) 10 7 (d ++ (LaAddr.code addr) ++ v ++ (Os.code os)) = (LaAddr.code addr) :=
    (BitVec.extractLsb'_append_eq_of_le (by decide)).trans ((BitVec.extractLsb'_append_eq_of_le (by decide)).trans ((BitVec.extractLsb'_append_eq_of_add_le (by decide)).trans BitVec.extractLsb'_eq_self))
  have e2 : BitVec.extractLsb' (n := 24) 3 7 (d ++ (LaAddr.code addr) ++ v ++ (Os.code os)) = v :=
    (BitVec.extractLsb'_append_eq_of_le (by decide)).trans ((BitVec.extractLsb'_append_eq_of_add_le (by decide)).trans BitVec.extractLsb'_eq_self)
  have e3 : BitVec.extractLsb' (n := 24) 0 3 (d ++ (LaAddr.code addr) ++ v ++ (Os.code os)) = (Os.code os) :=
    (BitVec.extractLsb'_append_eq_of_add_le (by decide)).trans BitVec.extractLsb'_eq_self
  refine (decode_lane ..).trans ?_
  change fields (some (.aaddLane ((BitVec.extractLsb' (n := 24) 17 7 _)) (LaAddr.ofCode (BitVec.extractLsb' (n := 24) 10 7 _)) ((BitVec.extractLsb' (n := 24) 3 7 _)) (Os.ofCode (BitVec.extractLsb' (n := 24) 0 3 _)))) = _
  rw [e0, e1, e2, e3]
  simp [fields]

theorem afadd d addr v os : Statement (.afadd d addr v os) := by
  intro hwf w0 hen
  obtain rfl := wordEq hen
  have e0 : BitVec.extractLsb' (n := 24) 17 7 (d ++ (LaAddr.code addr) ++ v ++ (Os.code os)) = d :=
    (BitVec.extractLsb'_append_eq_of_le (by decide)).trans ((BitVec.extractLsb'_append_eq_of_le (by decide)).trans ((BitVec.extractLsb'_append_eq_of_le (by decide)).trans BitVec.extractLsb'_eq_self))
  have e1 : BitVec.extractLsb' (n := 24) 10 7 (d ++ (LaAddr.code addr) ++ v ++ (Os.code os)) = (LaAddr.code addr) :=
    (BitVec.extractLsb'_append_eq_of_le (by decide)).trans ((BitVec.extractLsb'_append_eq_of_le (by decide)).trans ((BitVec.extractLsb'_append_eq_of_add_le (by decide)).trans BitVec.extractLsb'_eq_self))
  have e2 : BitVec.extractLsb' (n := 24) 3 7 (d ++ (LaAddr.code addr) ++ v ++ (Os.code os)) = v :=
    (BitVec.extractLsb'_append_eq_of_le (by decide)).trans ((BitVec.extractLsb'_append_eq_of_add_le (by decide)).trans BitVec.extractLsb'_eq_self)
  have e3 : BitVec.extractLsb' (n := 24) 0 3 (d ++ (LaAddr.code addr) ++ v ++ (Os.code os)) = (Os.code os) :=
    (BitVec.extractLsb'_append_eq_of_add_le (by decide)).trans BitVec.extractLsb'_eq_self
  refine (decode_lane ..).trans ?_
  change fields (some (.afadd ((BitVec.extractLsb' (n := 24) 17 7 _)) (LaAddr.ofCode (BitVec.extractLsb' (n := 24) 10 7 _)) ((BitVec.extractLsb' (n := 24) 3 7 _)) (Os.ofCode (BitVec.extractLsb' (n := 24) 0 3 _)))) = _
  rw [e0, e1, e2, e3]
  simp [fields]

theorem amin d addr v os : Statement (.amin d addr v os) := by
  intro hwf w0 hen
  obtain rfl := wordEq hen
  have e0 : BitVec.extractLsb' (n := 24) 17 7 (d ++ (LaAddr.code addr) ++ v ++ (Os.code os)) = d :=
    (BitVec.extractLsb'_append_eq_of_le (by decide)).trans ((BitVec.extractLsb'_append_eq_of_le (by decide)).trans ((BitVec.extractLsb'_append_eq_of_le (by decide)).trans BitVec.extractLsb'_eq_self))
  have e1 : BitVec.extractLsb' (n := 24) 10 7 (d ++ (LaAddr.code addr) ++ v ++ (Os.code os)) = (LaAddr.code addr) :=
    (BitVec.extractLsb'_append_eq_of_le (by decide)).trans ((BitVec.extractLsb'_append_eq_of_le (by decide)).trans ((BitVec.extractLsb'_append_eq_of_add_le (by decide)).trans BitVec.extractLsb'_eq_self))
  have e2 : BitVec.extractLsb' (n := 24) 3 7 (d ++ (LaAddr.code addr) ++ v ++ (Os.code os)) = v :=
    (BitVec.extractLsb'_append_eq_of_le (by decide)).trans ((BitVec.extractLsb'_append_eq_of_add_le (by decide)).trans BitVec.extractLsb'_eq_self)
  have e3 : BitVec.extractLsb' (n := 24) 0 3 (d ++ (LaAddr.code addr) ++ v ++ (Os.code os)) = (Os.code os) :=
    (BitVec.extractLsb'_append_eq_of_add_le (by decide)).trans BitVec.extractLsb'_eq_self
  refine (decode_lane ..).trans ?_
  change fields (some (.amin ((BitVec.extractLsb' (n := 24) 17 7 _)) (LaAddr.ofCode (BitVec.extractLsb' (n := 24) 10 7 _)) ((BitVec.extractLsb' (n := 24) 3 7 _)) (Os.ofCode (BitVec.extractLsb' (n := 24) 0 3 _)))) = _
  rw [e0, e1, e2, e3]
  simp [fields]

theorem amaxLane d addr v os : Statement (.amaxLane d addr v os) := by
  intro hwf w0 hen
  obtain rfl := wordEq hen
  have e0 : BitVec.extractLsb' (n := 24) 17 7 (d ++ (LaAddr.code addr) ++ v ++ (Os.code os)) = d :=
    (BitVec.extractLsb'_append_eq_of_le (by decide)).trans ((BitVec.extractLsb'_append_eq_of_le (by decide)).trans ((BitVec.extractLsb'_append_eq_of_le (by decide)).trans BitVec.extractLsb'_eq_self))
  have e1 : BitVec.extractLsb' (n := 24) 10 7 (d ++ (LaAddr.code addr) ++ v ++ (Os.code os)) = (LaAddr.code addr) :=
    (BitVec.extractLsb'_append_eq_of_le (by decide)).trans ((BitVec.extractLsb'_append_eq_of_le (by decide)).trans ((BitVec.extractLsb'_append_eq_of_add_le (by decide)).trans BitVec.extractLsb'_eq_self))
  have e2 : BitVec.extractLsb' (n := 24) 3 7 (d ++ (LaAddr.code addr) ++ v ++ (Os.code os)) = v :=
    (BitVec.extractLsb'_append_eq_of_le (by decide)).trans ((BitVec.extractLsb'_append_eq_of_add_le (by decide)).trans BitVec.extractLsb'_eq_self)
  have e3 : BitVec.extractLsb' (n := 24) 0 3 (d ++ (LaAddr.code addr) ++ v ++ (Os.code os)) = (Os.code os) :=
    (BitVec.extractLsb'_append_eq_of_add_le (by decide)).trans BitVec.extractLsb'_eq_self
  refine (decode_lane ..).trans ?_
  change fields (some (.amaxLane ((BitVec.extractLsb' (n := 24) 17 7 _)) (LaAddr.ofCode (BitVec.extractLsb' (n := 24) 10 7 _)) ((BitVec.extractLsb' (n := 24) 3 7 _)) (Os.ofCode (BitVec.extractLsb' (n := 24) 0 3 _)))) = _
  rw [e0, e1, e2, e3]
  simp [fields]

theorem aminu d addr v os : Statement (.aminu d addr v os) := by
  intro hwf w0 hen
  obtain rfl := wordEq hen
  have e0 : BitVec.extractLsb' (n := 24) 17 7 (d ++ (LaAddr.code addr) ++ v ++ (Os.code os)) = d :=
    (BitVec.extractLsb'_append_eq_of_le (by decide)).trans ((BitVec.extractLsb'_append_eq_of_le (by decide)).trans ((BitVec.extractLsb'_append_eq_of_le (by decide)).trans BitVec.extractLsb'_eq_self))
  have e1 : BitVec.extractLsb' (n := 24) 10 7 (d ++ (LaAddr.code addr) ++ v ++ (Os.code os)) = (LaAddr.code addr) :=
    (BitVec.extractLsb'_append_eq_of_le (by decide)).trans ((BitVec.extractLsb'_append_eq_of_le (by decide)).trans ((BitVec.extractLsb'_append_eq_of_add_le (by decide)).trans BitVec.extractLsb'_eq_self))
  have e2 : BitVec.extractLsb' (n := 24) 3 7 (d ++ (LaAddr.code addr) ++ v ++ (Os.code os)) = v :=
    (BitVec.extractLsb'_append_eq_of_le (by decide)).trans ((BitVec.extractLsb'_append_eq_of_add_le (by decide)).trans BitVec.extractLsb'_eq_self)
  have e3 : BitVec.extractLsb' (n := 24) 0 3 (d ++ (LaAddr.code addr) ++ v ++ (Os.code os)) = (Os.code os) :=
    (BitVec.extractLsb'_append_eq_of_add_le (by decide)).trans BitVec.extractLsb'_eq_self
  refine (decode_lane ..).trans ?_
  change fields (some (.aminu ((BitVec.extractLsb' (n := 24) 17 7 _)) (LaAddr.ofCode (BitVec.extractLsb' (n := 24) 10 7 _)) ((BitVec.extractLsb' (n := 24) 3 7 _)) (Os.ofCode (BitVec.extractLsb' (n := 24) 0 3 _)))) = _
  rw [e0, e1, e2, e3]
  simp [fields]

theorem amaxu d addr v os : Statement (.amaxu d addr v os) := by
  intro hwf w0 hen
  obtain rfl := wordEq hen
  have e0 : BitVec.extractLsb' (n := 24) 17 7 (d ++ (LaAddr.code addr) ++ v ++ (Os.code os)) = d :=
    (BitVec.extractLsb'_append_eq_of_le (by decide)).trans ((BitVec.extractLsb'_append_eq_of_le (by decide)).trans ((BitVec.extractLsb'_append_eq_of_le (by decide)).trans BitVec.extractLsb'_eq_self))
  have e1 : BitVec.extractLsb' (n := 24) 10 7 (d ++ (LaAddr.code addr) ++ v ++ (Os.code os)) = (LaAddr.code addr) :=
    (BitVec.extractLsb'_append_eq_of_le (by decide)).trans ((BitVec.extractLsb'_append_eq_of_le (by decide)).trans ((BitVec.extractLsb'_append_eq_of_add_le (by decide)).trans BitVec.extractLsb'_eq_self))
  have e2 : BitVec.extractLsb' (n := 24) 3 7 (d ++ (LaAddr.code addr) ++ v ++ (Os.code os)) = v :=
    (BitVec.extractLsb'_append_eq_of_le (by decide)).trans ((BitVec.extractLsb'_append_eq_of_add_le (by decide)).trans BitVec.extractLsb'_eq_self)
  have e3 : BitVec.extractLsb' (n := 24) 0 3 (d ++ (LaAddr.code addr) ++ v ++ (Os.code os)) = (Os.code os) :=
    (BitVec.extractLsb'_append_eq_of_add_le (by decide)).trans BitVec.extractLsb'_eq_self
  refine (decode_lane ..).trans ?_
  change fields (some (.amaxu ((BitVec.extractLsb' (n := 24) 17 7 _)) (LaAddr.ofCode (BitVec.extractLsb' (n := 24) 10 7 _)) ((BitVec.extractLsb' (n := 24) 3 7 _)) (Os.ofCode (BitVec.extractLsb' (n := 24) 0 3 _)))) = _
  rw [e0, e1, e2, e3]
  simp [fields]

theorem aand d addr v os : Statement (.aand d addr v os) := by
  intro hwf w0 hen
  obtain rfl := wordEq hen
  have e0 : BitVec.extractLsb' (n := 24) 17 7 (d ++ (LaAddr.code addr) ++ v ++ (Os.code os)) = d :=
    (BitVec.extractLsb'_append_eq_of_le (by decide)).trans ((BitVec.extractLsb'_append_eq_of_le (by decide)).trans ((BitVec.extractLsb'_append_eq_of_le (by decide)).trans BitVec.extractLsb'_eq_self))
  have e1 : BitVec.extractLsb' (n := 24) 10 7 (d ++ (LaAddr.code addr) ++ v ++ (Os.code os)) = (LaAddr.code addr) :=
    (BitVec.extractLsb'_append_eq_of_le (by decide)).trans ((BitVec.extractLsb'_append_eq_of_le (by decide)).trans ((BitVec.extractLsb'_append_eq_of_add_le (by decide)).trans BitVec.extractLsb'_eq_self))
  have e2 : BitVec.extractLsb' (n := 24) 3 7 (d ++ (LaAddr.code addr) ++ v ++ (Os.code os)) = v :=
    (BitVec.extractLsb'_append_eq_of_le (by decide)).trans ((BitVec.extractLsb'_append_eq_of_add_le (by decide)).trans BitVec.extractLsb'_eq_self)
  have e3 : BitVec.extractLsb' (n := 24) 0 3 (d ++ (LaAddr.code addr) ++ v ++ (Os.code os)) = (Os.code os) :=
    (BitVec.extractLsb'_append_eq_of_add_le (by decide)).trans BitVec.extractLsb'_eq_self
  refine (decode_lane ..).trans ?_
  change fields (some (.aand ((BitVec.extractLsb' (n := 24) 17 7 _)) (LaAddr.ofCode (BitVec.extractLsb' (n := 24) 10 7 _)) ((BitVec.extractLsb' (n := 24) 3 7 _)) (Os.ofCode (BitVec.extractLsb' (n := 24) 0 3 _)))) = _
  rw [e0, e1, e2, e3]
  simp [fields]

theorem aor d addr v os : Statement (.aor d addr v os) := by
  intro hwf w0 hen
  obtain rfl := wordEq hen
  have e0 : BitVec.extractLsb' (n := 24) 17 7 (d ++ (LaAddr.code addr) ++ v ++ (Os.code os)) = d :=
    (BitVec.extractLsb'_append_eq_of_le (by decide)).trans ((BitVec.extractLsb'_append_eq_of_le (by decide)).trans ((BitVec.extractLsb'_append_eq_of_le (by decide)).trans BitVec.extractLsb'_eq_self))
  have e1 : BitVec.extractLsb' (n := 24) 10 7 (d ++ (LaAddr.code addr) ++ v ++ (Os.code os)) = (LaAddr.code addr) :=
    (BitVec.extractLsb'_append_eq_of_le (by decide)).trans ((BitVec.extractLsb'_append_eq_of_le (by decide)).trans ((BitVec.extractLsb'_append_eq_of_add_le (by decide)).trans BitVec.extractLsb'_eq_self))
  have e2 : BitVec.extractLsb' (n := 24) 3 7 (d ++ (LaAddr.code addr) ++ v ++ (Os.code os)) = v :=
    (BitVec.extractLsb'_append_eq_of_le (by decide)).trans ((BitVec.extractLsb'_append_eq_of_add_le (by decide)).trans BitVec.extractLsb'_eq_self)
  have e3 : BitVec.extractLsb' (n := 24) 0 3 (d ++ (LaAddr.code addr) ++ v ++ (Os.code os)) = (Os.code os) :=
    (BitVec.extractLsb'_append_eq_of_add_le (by decide)).trans BitVec.extractLsb'_eq_self
  refine (decode_lane ..).trans ?_
  change fields (some (.aor ((BitVec.extractLsb' (n := 24) 17 7 _)) (LaAddr.ofCode (BitVec.extractLsb' (n := 24) 10 7 _)) ((BitVec.extractLsb' (n := 24) 3 7 _)) (Os.ofCode (BitVec.extractLsb' (n := 24) 0 3 _)))) = _
  rw [e0, e1, e2, e3]
  simp [fields]

theorem axor d addr v os : Statement (.axor d addr v os) := by
  intro hwf w0 hen
  obtain rfl := wordEq hen
  have e0 : BitVec.extractLsb' (n := 24) 17 7 (d ++ (LaAddr.code addr) ++ v ++ (Os.code os)) = d :=
    (BitVec.extractLsb'_append_eq_of_le (by decide)).trans ((BitVec.extractLsb'_append_eq_of_le (by decide)).trans ((BitVec.extractLsb'_append_eq_of_le (by decide)).trans BitVec.extractLsb'_eq_self))
  have e1 : BitVec.extractLsb' (n := 24) 10 7 (d ++ (LaAddr.code addr) ++ v ++ (Os.code os)) = (LaAddr.code addr) :=
    (BitVec.extractLsb'_append_eq_of_le (by decide)).trans ((BitVec.extractLsb'_append_eq_of_le (by decide)).trans ((BitVec.extractLsb'_append_eq_of_add_le (by decide)).trans BitVec.extractLsb'_eq_self))
  have e2 : BitVec.extractLsb' (n := 24) 3 7 (d ++ (LaAddr.code addr) ++ v ++ (Os.code os)) = v :=
    (BitVec.extractLsb'_append_eq_of_le (by decide)).trans ((BitVec.extractLsb'_append_eq_of_add_le (by decide)).trans BitVec.extractLsb'_eq_self)
  have e3 : BitVec.extractLsb' (n := 24) 0 3 (d ++ (LaAddr.code addr) ++ v ++ (Os.code os)) = (Os.code os) :=
    (BitVec.extractLsb'_append_eq_of_add_le (by decide)).trans BitVec.extractLsb'_eq_self
  refine (decode_lane ..).trans ?_
  change fields (some (.axor ((BitVec.extractLsb' (n := 24) 17 7 _)) (LaAddr.ofCode (BitVec.extractLsb' (n := 24) 10 7 _)) ((BitVec.extractLsb' (n := 24) 3 7 _)) (Os.ofCode (BitVec.extractLsb' (n := 24) 0 3 _)))) = _
  rw [e0, e1, e2, e3]
  simp [fields]

theorem axchgLane d addr v os : Statement (.axchgLane d addr v os) := by
  intro hwf w0 hen
  obtain rfl := wordEq hen
  have e0 : BitVec.extractLsb' (n := 24) 17 7 (d ++ (LaAddr.code addr) ++ v ++ (Os.code os)) = d :=
    (BitVec.extractLsb'_append_eq_of_le (by decide)).trans ((BitVec.extractLsb'_append_eq_of_le (by decide)).trans ((BitVec.extractLsb'_append_eq_of_le (by decide)).trans BitVec.extractLsb'_eq_self))
  have e1 : BitVec.extractLsb' (n := 24) 10 7 (d ++ (LaAddr.code addr) ++ v ++ (Os.code os)) = (LaAddr.code addr) :=
    (BitVec.extractLsb'_append_eq_of_le (by decide)).trans ((BitVec.extractLsb'_append_eq_of_le (by decide)).trans ((BitVec.extractLsb'_append_eq_of_add_le (by decide)).trans BitVec.extractLsb'_eq_self))
  have e2 : BitVec.extractLsb' (n := 24) 3 7 (d ++ (LaAddr.code addr) ++ v ++ (Os.code os)) = v :=
    (BitVec.extractLsb'_append_eq_of_le (by decide)).trans ((BitVec.extractLsb'_append_eq_of_add_le (by decide)).trans BitVec.extractLsb'_eq_self)
  have e3 : BitVec.extractLsb' (n := 24) 0 3 (d ++ (LaAddr.code addr) ++ v ++ (Os.code os)) = (Os.code os) :=
    (BitVec.extractLsb'_append_eq_of_add_le (by decide)).trans BitVec.extractLsb'_eq_self
  refine (decode_lane ..).trans ?_
  change fields (some (.axchgLane ((BitVec.extractLsb' (n := 24) 17 7 _)) (LaAddr.ofCode (BitVec.extractLsb' (n := 24) 10 7 _)) ((BitVec.extractLsb' (n := 24) 3 7 _)) (Os.ofCode (BitVec.extractLsb' (n := 24) 0 3 _)))) = _
  rw [e0, e1, e2, e3]
  simp [fields]

theorem acasLane d addr v os : Statement (.acasLane d addr v os) := by
  intro hwf w0 hen
  obtain rfl := wordEq hen
  have e0 : BitVec.extractLsb' (n := 24) 17 7 (d ++ (LaAddr.code addr) ++ v ++ (Os.code os)) = d :=
    (BitVec.extractLsb'_append_eq_of_le (by decide)).trans ((BitVec.extractLsb'_append_eq_of_le (by decide)).trans ((BitVec.extractLsb'_append_eq_of_le (by decide)).trans BitVec.extractLsb'_eq_self))
  have e1 : BitVec.extractLsb' (n := 24) 10 7 (d ++ (LaAddr.code addr) ++ v ++ (Os.code os)) = (LaAddr.code addr) :=
    (BitVec.extractLsb'_append_eq_of_le (by decide)).trans ((BitVec.extractLsb'_append_eq_of_le (by decide)).trans ((BitVec.extractLsb'_append_eq_of_add_le (by decide)).trans BitVec.extractLsb'_eq_self))
  have e2 : BitVec.extractLsb' (n := 24) 3 7 (d ++ (LaAddr.code addr) ++ v ++ (Os.code os)) = v :=
    (BitVec.extractLsb'_append_eq_of_le (by decide)).trans ((BitVec.extractLsb'_append_eq_of_add_le (by decide)).trans BitVec.extractLsb'_eq_self)
  have e3 : BitVec.extractLsb' (n := 24) 0 3 (d ++ (LaAddr.code addr) ++ v ++ (Os.code os)) = (Os.code os) :=
    (BitVec.extractLsb'_append_eq_of_add_le (by decide)).trans BitVec.extractLsb'_eq_self
  refine (decode_lane ..).trans ?_
  change fields (some (.acasLane ((BitVec.extractLsb' (n := 24) 17 7 _)) (LaAddr.ofCode (BitVec.extractLsb' (n := 24) 10 7 _)) ((BitVec.extractLsb' (n := 24) 3 7 _)) (Os.ofCode (BitVec.extractLsb' (n := 24) 0 3 _)))) = _
  rw [e0, e1, e2, e3]
  simp [fields]

theorem sldLane d addr ty pm sn : Statement (.sldLane d addr ty pm sn) := by
  intro hwf w0 hen
  obtain rfl := wordEq hen
  have e0 : BitVec.extractLsb' (n := 24) 16 8 ((LDst.code d) ++ 0#1 ++ addr ++ (Ty.code ty) ++ pm ++ sn) = (LDst.code d) :=
    (BitVec.extractLsb'_append_eq_of_le (by decide)).trans ((BitVec.extractLsb'_append_eq_of_le (by decide)).trans ((BitVec.extractLsb'_append_eq_of_le (by decide)).trans ((BitVec.extractLsb'_append_eq_of_le (by decide)).trans ((BitVec.extractLsb'_append_eq_of_le (by decide)).trans BitVec.extractLsb'_eq_self))))
  have e1 : BitVec.extractLsb' (n := 24) 15 1 ((LDst.code d) ++ 0#1 ++ addr ++ (Ty.code ty) ++ pm ++ sn) = 0#1 :=
    (BitVec.extractLsb'_append_eq_of_le (by decide)).trans ((BitVec.extractLsb'_append_eq_of_le (by decide)).trans ((BitVec.extractLsb'_append_eq_of_le (by decide)).trans ((BitVec.extractLsb'_append_eq_of_le (by decide)).trans ((BitVec.extractLsb'_append_eq_of_add_le (by decide)).trans BitVec.extractLsb'_eq_self))))
  have e2 : BitVec.extractLsb' (n := 24) 9 6 ((LDst.code d) ++ 0#1 ++ addr ++ (Ty.code ty) ++ pm ++ sn) = addr :=
    (BitVec.extractLsb'_append_eq_of_le (by decide)).trans ((BitVec.extractLsb'_append_eq_of_le (by decide)).trans ((BitVec.extractLsb'_append_eq_of_le (by decide)).trans ((BitVec.extractLsb'_append_eq_of_add_le (by decide)).trans BitVec.extractLsb'_eq_self)))
  have e3 : BitVec.extractLsb' (n := 24) 6 3 ((LDst.code d) ++ 0#1 ++ addr ++ (Ty.code ty) ++ pm ++ sn) = (Ty.code ty) :=
    (BitVec.extractLsb'_append_eq_of_le (by decide)).trans ((BitVec.extractLsb'_append_eq_of_le (by decide)).trans ((BitVec.extractLsb'_append_eq_of_add_le (by decide)).trans BitVec.extractLsb'_eq_self))
  have e4 : BitVec.extractLsb' (n := 24) 3 3 ((LDst.code d) ++ 0#1 ++ addr ++ (Ty.code ty) ++ pm ++ sn) = pm :=
    (BitVec.extractLsb'_append_eq_of_le (by decide)).trans ((BitVec.extractLsb'_append_eq_of_add_le (by decide)).trans BitVec.extractLsb'_eq_self)
  have e5 : BitVec.extractLsb' (n := 24) 0 3 ((LDst.code d) ++ 0#1 ++ addr ++ (Ty.code ty) ++ pm ++ sn) = sn :=
    (BitVec.extractLsb'_append_eq_of_add_le (by decide)).trans BitVec.extractLsb'_eq_self
  refine (decode_lane ..).trans ?_
  change fields (chk ((BitVec.extractLsb' (n := 24) 15 1 _) == 0#1) ((Ty.ofCode? (BitVec.extractLsb' (n := 24) 6 3 _)).bind (fun ty => some (.sldLane (LDst.ofCode (BitVec.extractLsb' (n := 24) 16 8 _)) ((BitVec.extractLsb' (n := 24) 9 6 _)) ty ((BitVec.extractLsb' (n := 24) 3 3 _)) ((BitVec.extractLsb' (n := 24) 0 3 _)))))) = _
  rw [e0, e1, e2, e3, e4, e5]
  simp [fields, chk]

theorem sstLane data addr ty sn : Statement (.sstLane data addr ty sn) := by
  intro hwf w0 hen
  obtain rfl := wordEq hen
  change (data.ok && ty.storable) = true at hwf
  simp only [Bool.and_eq_true] at hwf
  have e0 : BitVec.extractLsb' (n := 24) 16 8 ((Opnd.code data) ++ 0#1 ++ addr ++ (Ty.code ty) ++ 0#3 ++ sn) = (Opnd.code data) :=
    (BitVec.extractLsb'_append_eq_of_le (by decide)).trans ((BitVec.extractLsb'_append_eq_of_le (by decide)).trans ((BitVec.extractLsb'_append_eq_of_le (by decide)).trans ((BitVec.extractLsb'_append_eq_of_le (by decide)).trans ((BitVec.extractLsb'_append_eq_of_le (by decide)).trans BitVec.extractLsb'_eq_self))))
  have e1 : BitVec.extractLsb' (n := 24) 15 1 ((Opnd.code data) ++ 0#1 ++ addr ++ (Ty.code ty) ++ 0#3 ++ sn) = 0#1 :=
    (BitVec.extractLsb'_append_eq_of_le (by decide)).trans ((BitVec.extractLsb'_append_eq_of_le (by decide)).trans ((BitVec.extractLsb'_append_eq_of_le (by decide)).trans ((BitVec.extractLsb'_append_eq_of_le (by decide)).trans ((BitVec.extractLsb'_append_eq_of_add_le (by decide)).trans BitVec.extractLsb'_eq_self))))
  have e2 : BitVec.extractLsb' (n := 24) 9 6 ((Opnd.code data) ++ 0#1 ++ addr ++ (Ty.code ty) ++ 0#3 ++ sn) = addr :=
    (BitVec.extractLsb'_append_eq_of_le (by decide)).trans ((BitVec.extractLsb'_append_eq_of_le (by decide)).trans ((BitVec.extractLsb'_append_eq_of_le (by decide)).trans ((BitVec.extractLsb'_append_eq_of_add_le (by decide)).trans BitVec.extractLsb'_eq_self)))
  have e3 : BitVec.extractLsb' (n := 24) 6 3 ((Opnd.code data) ++ 0#1 ++ addr ++ (Ty.code ty) ++ 0#3 ++ sn) = (Ty.code ty) :=
    (BitVec.extractLsb'_append_eq_of_le (by decide)).trans ((BitVec.extractLsb'_append_eq_of_le (by decide)).trans ((BitVec.extractLsb'_append_eq_of_add_le (by decide)).trans BitVec.extractLsb'_eq_self))
  have e4 : BitVec.extractLsb' (n := 24) 3 3 ((Opnd.code data) ++ 0#1 ++ addr ++ (Ty.code ty) ++ 0#3 ++ sn) = 0#3 :=
    (BitVec.extractLsb'_append_eq_of_le (by decide)).trans ((BitVec.extractLsb'_append_eq_of_add_le (by decide)).trans BitVec.extractLsb'_eq_self)
  have e5 : BitVec.extractLsb' (n := 24) 0 3 ((Opnd.code data) ++ 0#1 ++ addr ++ (Ty.code ty) ++ 0#3 ++ sn) = sn :=
    (BitVec.extractLsb'_append_eq_of_add_le (by decide)).trans BitVec.extractLsb'_eq_self
  refine (decode_lane ..).trans ?_
  change fields (chk ((BitVec.extractLsb' (n := 24) 15 1 _) == 0#1) ((Ty.ofStore? (BitVec.extractLsb' (n := 24) 6 3 _)).bind (fun ty => chk ((BitVec.extractLsb' (n := 24) 3 3 _) == 0#3) (some (.sstLane (Opnd.ofCode (BitVec.extractLsb' (n := 24) 16 8 _)) ((BitVec.extractLsb' (n := 24) 9 6 _)) ty ((BitVec.extractLsb' (n := 24) 0 3 _))))))) = _
  rw [e0, e1, e2, e3, e4, e5]
  simp [fields, chk, Opnd.ofCode_code, Ty.ofStore?_code, hwf]

theorem srankLane d addr pm : Statement (.srankLane d addr pm) := by
  intro hwf w0 hen
  obtain rfl := wordEq hen
  have e0 : BitVec.extractLsb' (n := 24) 16 8 ((LDst.code d) ++ 0#1 ++ addr ++ 0#3 ++ pm ++ 0#3) = (LDst.code d) :=
    (BitVec.extractLsb'_append_eq_of_le (by decide)).trans ((BitVec.extractLsb'_append_eq_of_le (by decide)).trans ((BitVec.extractLsb'_append_eq_of_le (by decide)).trans ((BitVec.extractLsb'_append_eq_of_le (by decide)).trans ((BitVec.extractLsb'_append_eq_of_le (by decide)).trans BitVec.extractLsb'_eq_self))))
  have e1 : BitVec.extractLsb' (n := 24) 15 1 ((LDst.code d) ++ 0#1 ++ addr ++ 0#3 ++ pm ++ 0#3) = 0#1 :=
    (BitVec.extractLsb'_append_eq_of_le (by decide)).trans ((BitVec.extractLsb'_append_eq_of_le (by decide)).trans ((BitVec.extractLsb'_append_eq_of_le (by decide)).trans ((BitVec.extractLsb'_append_eq_of_le (by decide)).trans ((BitVec.extractLsb'_append_eq_of_add_le (by decide)).trans BitVec.extractLsb'_eq_self))))
  have e2 : BitVec.extractLsb' (n := 24) 9 6 ((LDst.code d) ++ 0#1 ++ addr ++ 0#3 ++ pm ++ 0#3) = addr :=
    (BitVec.extractLsb'_append_eq_of_le (by decide)).trans ((BitVec.extractLsb'_append_eq_of_le (by decide)).trans ((BitVec.extractLsb'_append_eq_of_le (by decide)).trans ((BitVec.extractLsb'_append_eq_of_add_le (by decide)).trans BitVec.extractLsb'_eq_self)))
  have e3 : BitVec.extractLsb' (n := 24) 6 3 ((LDst.code d) ++ 0#1 ++ addr ++ 0#3 ++ pm ++ 0#3) = 0#3 :=
    (BitVec.extractLsb'_append_eq_of_le (by decide)).trans ((BitVec.extractLsb'_append_eq_of_le (by decide)).trans ((BitVec.extractLsb'_append_eq_of_add_le (by decide)).trans BitVec.extractLsb'_eq_self))
  have e4 : BitVec.extractLsb' (n := 24) 3 3 ((LDst.code d) ++ 0#1 ++ addr ++ 0#3 ++ pm ++ 0#3) = pm :=
    (BitVec.extractLsb'_append_eq_of_le (by decide)).trans ((BitVec.extractLsb'_append_eq_of_add_le (by decide)).trans BitVec.extractLsb'_eq_self)
  have e5 : BitVec.extractLsb' (n := 24) 0 3 ((LDst.code d) ++ 0#1 ++ addr ++ 0#3 ++ pm ++ 0#3) = 0#3 :=
    (BitVec.extractLsb'_append_eq_of_add_le (by decide)).trans BitVec.extractLsb'_eq_self
  refine (decode_lane ..).trans ?_
  change fields (chk ((BitVec.extractLsb' (n := 24) 15 1 _) == 0#1) (chk ((BitVec.extractLsb' (n := 24) 6 3 _) == 0#3) (chk ((BitVec.extractLsb' (n := 24) 0 3 _) == 0#3) (some (.srankLane (LDst.ofCode (BitVec.extractLsb' (n := 24) 16 8 _)) ((BitVec.extractLsb' (n := 24) 9 6 _)) ((BitVec.extractLsb' (n := 24) 3 3 _))))))) = _
  rw [e0, e1, e2, e3, e4, e5]
  simp [fields, chk]

theorem sanchLane d addr sn : Statement (.sanchLane d addr sn) := by
  intro hwf w0 hen
  obtain rfl := wordEq hen
  have e0 : BitVec.extractLsb' (n := 24) 16 8 ((LDst.code d) ++ 0#1 ++ addr ++ 0#3 ++ 0#3 ++ sn) = (LDst.code d) :=
    (BitVec.extractLsb'_append_eq_of_le (by decide)).trans ((BitVec.extractLsb'_append_eq_of_le (by decide)).trans ((BitVec.extractLsb'_append_eq_of_le (by decide)).trans ((BitVec.extractLsb'_append_eq_of_le (by decide)).trans ((BitVec.extractLsb'_append_eq_of_le (by decide)).trans BitVec.extractLsb'_eq_self))))
  have e1 : BitVec.extractLsb' (n := 24) 15 1 ((LDst.code d) ++ 0#1 ++ addr ++ 0#3 ++ 0#3 ++ sn) = 0#1 :=
    (BitVec.extractLsb'_append_eq_of_le (by decide)).trans ((BitVec.extractLsb'_append_eq_of_le (by decide)).trans ((BitVec.extractLsb'_append_eq_of_le (by decide)).trans ((BitVec.extractLsb'_append_eq_of_le (by decide)).trans ((BitVec.extractLsb'_append_eq_of_add_le (by decide)).trans BitVec.extractLsb'_eq_self))))
  have e2 : BitVec.extractLsb' (n := 24) 9 6 ((LDst.code d) ++ 0#1 ++ addr ++ 0#3 ++ 0#3 ++ sn) = addr :=
    (BitVec.extractLsb'_append_eq_of_le (by decide)).trans ((BitVec.extractLsb'_append_eq_of_le (by decide)).trans ((BitVec.extractLsb'_append_eq_of_le (by decide)).trans ((BitVec.extractLsb'_append_eq_of_add_le (by decide)).trans BitVec.extractLsb'_eq_self)))
  have e3 : BitVec.extractLsb' (n := 24) 6 3 ((LDst.code d) ++ 0#1 ++ addr ++ 0#3 ++ 0#3 ++ sn) = 0#3 :=
    (BitVec.extractLsb'_append_eq_of_le (by decide)).trans ((BitVec.extractLsb'_append_eq_of_le (by decide)).trans ((BitVec.extractLsb'_append_eq_of_add_le (by decide)).trans BitVec.extractLsb'_eq_self))
  have e4 : BitVec.extractLsb' (n := 24) 3 3 ((LDst.code d) ++ 0#1 ++ addr ++ 0#3 ++ 0#3 ++ sn) = 0#3 :=
    (BitVec.extractLsb'_append_eq_of_le (by decide)).trans ((BitVec.extractLsb'_append_eq_of_add_le (by decide)).trans BitVec.extractLsb'_eq_self)
  have e5 : BitVec.extractLsb' (n := 24) 0 3 ((LDst.code d) ++ 0#1 ++ addr ++ 0#3 ++ 0#3 ++ sn) = sn :=
    (BitVec.extractLsb'_append_eq_of_add_le (by decide)).trans BitVec.extractLsb'_eq_self
  refine (decode_lane ..).trans ?_
  change fields (chk ((BitVec.extractLsb' (n := 24) 15 1 _) == 0#1) (chk ((BitVec.extractLsb' (n := 24) 6 3 _) == 0#3) (chk ((BitVec.extractLsb' (n := 24) 3 3 _) == 0#3) (some (.sanchLane (LDst.ofCode (BitVec.extractLsb' (n := 24) 16 8 _)) ((BitVec.extractLsb' (n := 24) 9 6 _)) ((BitVec.extractLsb' (n := 24) 0 3 _))))))) = _
  rw [e0, e1, e2, e3, e4, e5]
  simp [fields, chk]

theorem sendLane r ch n row : Statement (.sendLane r ch n row) := by
  intro hwf w0 hen
  obtain rfl := wordEq hen
  change (r.ok) = true at hwf
  have e0 : BitVec.extractLsb' (n := 24) 16 8 ((Opnd.code r) ++ ch ++ n ++ (BitVec.ofBool row) ++ 0#7) = (Opnd.code r) :=
    (BitVec.extractLsb'_append_eq_of_le (by decide)).trans ((BitVec.extractLsb'_append_eq_of_le (by decide)).trans ((BitVec.extractLsb'_append_eq_of_le (by decide)).trans ((BitVec.extractLsb'_append_eq_of_le (by decide)).trans BitVec.extractLsb'_eq_self)))
  have e1 : BitVec.extractLsb' (n := 24) 10 6 ((Opnd.code r) ++ ch ++ n ++ (BitVec.ofBool row) ++ 0#7) = ch :=
    (BitVec.extractLsb'_append_eq_of_le (by decide)).trans ((BitVec.extractLsb'_append_eq_of_le (by decide)).trans ((BitVec.extractLsb'_append_eq_of_le (by decide)).trans ((BitVec.extractLsb'_append_eq_of_add_le (by decide)).trans BitVec.extractLsb'_eq_self)))
  have e2 : BitVec.extractLsb' (n := 24) 8 2 ((Opnd.code r) ++ ch ++ n ++ (BitVec.ofBool row) ++ 0#7) = n :=
    (BitVec.extractLsb'_append_eq_of_le (by decide)).trans ((BitVec.extractLsb'_append_eq_of_le (by decide)).trans ((BitVec.extractLsb'_append_eq_of_add_le (by decide)).trans BitVec.extractLsb'_eq_self))
  have e3 : BitVec.extractLsb' (n := 24) 7 1 ((Opnd.code r) ++ ch ++ n ++ (BitVec.ofBool row) ++ 0#7) = (BitVec.ofBool row) :=
    (BitVec.extractLsb'_append_eq_of_le (by decide)).trans ((BitVec.extractLsb'_append_eq_of_add_le (by decide)).trans BitVec.extractLsb'_eq_self)
  have e4 : BitVec.extractLsb' (n := 24) 0 7 ((Opnd.code r) ++ ch ++ n ++ (BitVec.ofBool row) ++ 0#7) = 0#7 :=
    (BitVec.extractLsb'_append_eq_of_add_le (by decide)).trans BitVec.extractLsb'_eq_self
  refine (decode_lane ..).trans ?_
  change fields (chk ((BitVec.extractLsb' (n := 24) 0 7 _) == 0#7) (some (.sendLane (Opnd.ofCode (BitVec.extractLsb' (n := 24) 16 8 _)) ((BitVec.extractLsb' (n := 24) 10 6 _)) ((BitVec.extractLsb' (n := 24) 8 2 _)) ((BitVec.extractLsb' (n := 24) 7 1 _) == 1#1)))) = _
  rw [e0, e1, e2, e3, e4]
  simp [fields, chk, Opnd.ofCode_code, hwf]

theorem recvLane d ch n row : Statement (.recvLane d ch n row) := by
  intro hwf w0 hen
  obtain rfl := wordEq hen
  have e0 : BitVec.extractLsb' (n := 24) 16 8 ((LDst.code d) ++ ch ++ n ++ (BitVec.ofBool row) ++ 0#7) = (LDst.code d) :=
    (BitVec.extractLsb'_append_eq_of_le (by decide)).trans ((BitVec.extractLsb'_append_eq_of_le (by decide)).trans ((BitVec.extractLsb'_append_eq_of_le (by decide)).trans ((BitVec.extractLsb'_append_eq_of_le (by decide)).trans BitVec.extractLsb'_eq_self)))
  have e1 : BitVec.extractLsb' (n := 24) 10 6 ((LDst.code d) ++ ch ++ n ++ (BitVec.ofBool row) ++ 0#7) = ch :=
    (BitVec.extractLsb'_append_eq_of_le (by decide)).trans ((BitVec.extractLsb'_append_eq_of_le (by decide)).trans ((BitVec.extractLsb'_append_eq_of_le (by decide)).trans ((BitVec.extractLsb'_append_eq_of_add_le (by decide)).trans BitVec.extractLsb'_eq_self)))
  have e2 : BitVec.extractLsb' (n := 24) 8 2 ((LDst.code d) ++ ch ++ n ++ (BitVec.ofBool row) ++ 0#7) = n :=
    (BitVec.extractLsb'_append_eq_of_le (by decide)).trans ((BitVec.extractLsb'_append_eq_of_le (by decide)).trans ((BitVec.extractLsb'_append_eq_of_add_le (by decide)).trans BitVec.extractLsb'_eq_self))
  have e3 : BitVec.extractLsb' (n := 24) 7 1 ((LDst.code d) ++ ch ++ n ++ (BitVec.ofBool row) ++ 0#7) = (BitVec.ofBool row) :=
    (BitVec.extractLsb'_append_eq_of_le (by decide)).trans ((BitVec.extractLsb'_append_eq_of_add_le (by decide)).trans BitVec.extractLsb'_eq_self)
  have e4 : BitVec.extractLsb' (n := 24) 0 7 ((LDst.code d) ++ ch ++ n ++ (BitVec.ofBool row) ++ 0#7) = 0#7 :=
    (BitVec.extractLsb'_append_eq_of_add_le (by decide)).trans BitVec.extractLsb'_eq_self
  refine (decode_lane ..).trans ?_
  change fields (chk ((BitVec.extractLsb' (n := 24) 0 7 _) == 0#7) (some (.recvLane (LDst.ofCode (BitVec.extractLsb' (n := 24) 16 8 _)) ((BitVec.extractLsb' (n := 24) 10 6 _)) ((BitVec.extractLsb' (n := 24) 8 2 _)) ((BitVec.extractLsb' (n := 24) 7 1 _) == 1#1)))) = _
  rw [e0, e1, e2, e3, e4]
  simp [fields, chk]

theorem spawn r base det k : Statement (.spawn r base det k) := by
  intro hwf w0 hen
  obtain rfl := wordEq hen
  change (r.ok) = true at hwf
  have e0 : BitVec.extractLsb' (n := 24) 16 8 ((Opnd.code r) ++ base ++ 0#2 ++ 0#3 ++ (BitVec.ofBool det) ++ k) = (Opnd.code r) :=
    (BitVec.extractLsb'_append_eq_of_le (by decide)).trans ((BitVec.extractLsb'_append_eq_of_le (by decide)).trans ((BitVec.extractLsb'_append_eq_of_le (by decide)).trans ((BitVec.extractLsb'_append_eq_of_le (by decide)).trans ((BitVec.extractLsb'_append_eq_of_le (by decide)).trans BitVec.extractLsb'_eq_self))))
  have e1 : BitVec.extractLsb' (n := 24) 10 6 ((Opnd.code r) ++ base ++ 0#2 ++ 0#3 ++ (BitVec.ofBool det) ++ k) = base :=
    (BitVec.extractLsb'_append_eq_of_le (by decide)).trans ((BitVec.extractLsb'_append_eq_of_le (by decide)).trans ((BitVec.extractLsb'_append_eq_of_le (by decide)).trans ((BitVec.extractLsb'_append_eq_of_le (by decide)).trans ((BitVec.extractLsb'_append_eq_of_add_le (by decide)).trans BitVec.extractLsb'_eq_self))))
  have e2 : BitVec.extractLsb' (n := 24) 8 2 ((Opnd.code r) ++ base ++ 0#2 ++ 0#3 ++ (BitVec.ofBool det) ++ k) = 0#2 :=
    (BitVec.extractLsb'_append_eq_of_le (by decide)).trans ((BitVec.extractLsb'_append_eq_of_le (by decide)).trans ((BitVec.extractLsb'_append_eq_of_le (by decide)).trans ((BitVec.extractLsb'_append_eq_of_add_le (by decide)).trans BitVec.extractLsb'_eq_self)))
  have e3 : BitVec.extractLsb' (n := 24) 5 3 ((Opnd.code r) ++ base ++ 0#2 ++ 0#3 ++ (BitVec.ofBool det) ++ k) = 0#3 :=
    (BitVec.extractLsb'_append_eq_of_le (by decide)).trans ((BitVec.extractLsb'_append_eq_of_le (by decide)).trans ((BitVec.extractLsb'_append_eq_of_add_le (by decide)).trans BitVec.extractLsb'_eq_self))
  have e4 : BitVec.extractLsb' (n := 24) 4 1 ((Opnd.code r) ++ base ++ 0#2 ++ 0#3 ++ (BitVec.ofBool det) ++ k) = (BitVec.ofBool det) :=
    (BitVec.extractLsb'_append_eq_of_le (by decide)).trans ((BitVec.extractLsb'_append_eq_of_add_le (by decide)).trans BitVec.extractLsb'_eq_self)
  have e5 : BitVec.extractLsb' (n := 24) 0 4 ((Opnd.code r) ++ base ++ 0#2 ++ 0#3 ++ (BitVec.ofBool det) ++ k) = k :=
    (BitVec.extractLsb'_append_eq_of_add_le (by decide)).trans BitVec.extractLsb'_eq_self
  refine (decode_lane ..).trans ?_
  change fields (chk ((BitVec.extractLsb' (n := 24) 8 2 _) == 0#2) (chk ((BitVec.extractLsb' (n := 24) 5 3 _) == 0#3) (some (.spawn (Opnd.ofCode (BitVec.extractLsb' (n := 24) 16 8 _)) ((BitVec.extractLsb' (n := 24) 10 6 _)) ((BitVec.extractLsb' (n := 24) 4 1 _) == 1#1) ((BitVec.extractLsb' (n := 24) 0 4 _)))))) = _
  rw [e0, e1, e2, e3, e4, e5]
  simp [fields, chk, Opnd.ofCode_code, hwf]

theorem saadd d addr ty sn : Statement (.saadd d addr ty sn) := by
  intro hwf w0 hen
  obtain rfl := wordEq hen
  change (d.ok) = true at hwf
  have e0 : BitVec.extractLsb' (n := 24) 16 8 ((Opnd.code d) ++ 0#1 ++ addr ++ (Ty2.code ty) ++ 0#3 ++ sn) = (Opnd.code d) :=
    (BitVec.extractLsb'_append_eq_of_le (by decide)).trans ((BitVec.extractLsb'_append_eq_of_le (by decide)).trans ((BitVec.extractLsb'_append_eq_of_le (by decide)).trans ((BitVec.extractLsb'_append_eq_of_le (by decide)).trans ((BitVec.extractLsb'_append_eq_of_le (by decide)).trans BitVec.extractLsb'_eq_self))))
  have e1 : BitVec.extractLsb' (n := 24) 15 1 ((Opnd.code d) ++ 0#1 ++ addr ++ (Ty2.code ty) ++ 0#3 ++ sn) = 0#1 :=
    (BitVec.extractLsb'_append_eq_of_le (by decide)).trans ((BitVec.extractLsb'_append_eq_of_le (by decide)).trans ((BitVec.extractLsb'_append_eq_of_le (by decide)).trans ((BitVec.extractLsb'_append_eq_of_le (by decide)).trans ((BitVec.extractLsb'_append_eq_of_add_le (by decide)).trans BitVec.extractLsb'_eq_self))))
  have e2 : BitVec.extractLsb' (n := 24) 9 6 ((Opnd.code d) ++ 0#1 ++ addr ++ (Ty2.code ty) ++ 0#3 ++ sn) = addr :=
    (BitVec.extractLsb'_append_eq_of_le (by decide)).trans ((BitVec.extractLsb'_append_eq_of_le (by decide)).trans ((BitVec.extractLsb'_append_eq_of_le (by decide)).trans ((BitVec.extractLsb'_append_eq_of_add_le (by decide)).trans BitVec.extractLsb'_eq_self)))
  have e3 : BitVec.extractLsb' (n := 24) 6 3 ((Opnd.code d) ++ 0#1 ++ addr ++ (Ty2.code ty) ++ 0#3 ++ sn) = (Ty2.code ty) :=
    (BitVec.extractLsb'_append_eq_of_le (by decide)).trans ((BitVec.extractLsb'_append_eq_of_le (by decide)).trans ((BitVec.extractLsb'_append_eq_of_add_le (by decide)).trans BitVec.extractLsb'_eq_self))
  have e4 : BitVec.extractLsb' (n := 24) 3 3 ((Opnd.code d) ++ 0#1 ++ addr ++ (Ty2.code ty) ++ 0#3 ++ sn) = 0#3 :=
    (BitVec.extractLsb'_append_eq_of_le (by decide)).trans ((BitVec.extractLsb'_append_eq_of_add_le (by decide)).trans BitVec.extractLsb'_eq_self)
  have e5 : BitVec.extractLsb' (n := 24) 0 3 ((Opnd.code d) ++ 0#1 ++ addr ++ (Ty2.code ty) ++ 0#3 ++ sn) = sn :=
    (BitVec.extractLsb'_append_eq_of_add_le (by decide)).trans BitVec.extractLsb'_eq_self
  refine (decode_lane ..).trans ?_
  change fields (chk ((BitVec.extractLsb' (n := 24) 15 1 _) == 0#1) ((Ty2.ofCode? (BitVec.extractLsb' (n := 24) 6 3 _)).bind (fun ty => chk ((BitVec.extractLsb' (n := 24) 3 3 _) == 0#3) (some (.saadd (Opnd.ofCode (BitVec.extractLsb' (n := 24) 16 8 _)) ((BitVec.extractLsb' (n := 24) 9 6 _)) ty ((BitVec.extractLsb' (n := 24) 0 3 _))))))) = _
  rw [e0, e1, e2, e3, e4, e5]
  simp [fields, chk, Opnd.ofCode_code, hwf]

theorem samin d addr ty sn : Statement (.samin d addr ty sn) := by
  intro hwf w0 hen
  obtain rfl := wordEq hen
  change (d.ok) = true at hwf
  have e0 : BitVec.extractLsb' (n := 24) 16 8 ((Opnd.code d) ++ 0#1 ++ addr ++ (Ty2.code ty) ++ 0#3 ++ sn) = (Opnd.code d) :=
    (BitVec.extractLsb'_append_eq_of_le (by decide)).trans ((BitVec.extractLsb'_append_eq_of_le (by decide)).trans ((BitVec.extractLsb'_append_eq_of_le (by decide)).trans ((BitVec.extractLsb'_append_eq_of_le (by decide)).trans ((BitVec.extractLsb'_append_eq_of_le (by decide)).trans BitVec.extractLsb'_eq_self))))
  have e1 : BitVec.extractLsb' (n := 24) 15 1 ((Opnd.code d) ++ 0#1 ++ addr ++ (Ty2.code ty) ++ 0#3 ++ sn) = 0#1 :=
    (BitVec.extractLsb'_append_eq_of_le (by decide)).trans ((BitVec.extractLsb'_append_eq_of_le (by decide)).trans ((BitVec.extractLsb'_append_eq_of_le (by decide)).trans ((BitVec.extractLsb'_append_eq_of_le (by decide)).trans ((BitVec.extractLsb'_append_eq_of_add_le (by decide)).trans BitVec.extractLsb'_eq_self))))
  have e2 : BitVec.extractLsb' (n := 24) 9 6 ((Opnd.code d) ++ 0#1 ++ addr ++ (Ty2.code ty) ++ 0#3 ++ sn) = addr :=
    (BitVec.extractLsb'_append_eq_of_le (by decide)).trans ((BitVec.extractLsb'_append_eq_of_le (by decide)).trans ((BitVec.extractLsb'_append_eq_of_le (by decide)).trans ((BitVec.extractLsb'_append_eq_of_add_le (by decide)).trans BitVec.extractLsb'_eq_self)))
  have e3 : BitVec.extractLsb' (n := 24) 6 3 ((Opnd.code d) ++ 0#1 ++ addr ++ (Ty2.code ty) ++ 0#3 ++ sn) = (Ty2.code ty) :=
    (BitVec.extractLsb'_append_eq_of_le (by decide)).trans ((BitVec.extractLsb'_append_eq_of_le (by decide)).trans ((BitVec.extractLsb'_append_eq_of_add_le (by decide)).trans BitVec.extractLsb'_eq_self))
  have e4 : BitVec.extractLsb' (n := 24) 3 3 ((Opnd.code d) ++ 0#1 ++ addr ++ (Ty2.code ty) ++ 0#3 ++ sn) = 0#3 :=
    (BitVec.extractLsb'_append_eq_of_le (by decide)).trans ((BitVec.extractLsb'_append_eq_of_add_le (by decide)).trans BitVec.extractLsb'_eq_self)
  have e5 : BitVec.extractLsb' (n := 24) 0 3 ((Opnd.code d) ++ 0#1 ++ addr ++ (Ty2.code ty) ++ 0#3 ++ sn) = sn :=
    (BitVec.extractLsb'_append_eq_of_add_le (by decide)).trans BitVec.extractLsb'_eq_self
  refine (decode_lane ..).trans ?_
  change fields (chk ((BitVec.extractLsb' (n := 24) 15 1 _) == 0#1) ((Ty2.ofCode? (BitVec.extractLsb' (n := 24) 6 3 _)).bind (fun ty => chk ((BitVec.extractLsb' (n := 24) 3 3 _) == 0#3) (some (.samin (Opnd.ofCode (BitVec.extractLsb' (n := 24) 16 8 _)) ((BitVec.extractLsb' (n := 24) 9 6 _)) ty ((BitVec.extractLsb' (n := 24) 0 3 _))))))) = _
  rw [e0, e1, e2, e3, e4, e5]
  simp [fields, chk, Opnd.ofCode_code, hwf]

theorem samax d addr ty sn : Statement (.samax d addr ty sn) := by
  intro hwf w0 hen
  obtain rfl := wordEq hen
  change (d.ok) = true at hwf
  have e0 : BitVec.extractLsb' (n := 24) 16 8 ((Opnd.code d) ++ 0#1 ++ addr ++ (Ty2.code ty) ++ 0#3 ++ sn) = (Opnd.code d) :=
    (BitVec.extractLsb'_append_eq_of_le (by decide)).trans ((BitVec.extractLsb'_append_eq_of_le (by decide)).trans ((BitVec.extractLsb'_append_eq_of_le (by decide)).trans ((BitVec.extractLsb'_append_eq_of_le (by decide)).trans ((BitVec.extractLsb'_append_eq_of_le (by decide)).trans BitVec.extractLsb'_eq_self))))
  have e1 : BitVec.extractLsb' (n := 24) 15 1 ((Opnd.code d) ++ 0#1 ++ addr ++ (Ty2.code ty) ++ 0#3 ++ sn) = 0#1 :=
    (BitVec.extractLsb'_append_eq_of_le (by decide)).trans ((BitVec.extractLsb'_append_eq_of_le (by decide)).trans ((BitVec.extractLsb'_append_eq_of_le (by decide)).trans ((BitVec.extractLsb'_append_eq_of_le (by decide)).trans ((BitVec.extractLsb'_append_eq_of_add_le (by decide)).trans BitVec.extractLsb'_eq_self))))
  have e2 : BitVec.extractLsb' (n := 24) 9 6 ((Opnd.code d) ++ 0#1 ++ addr ++ (Ty2.code ty) ++ 0#3 ++ sn) = addr :=
    (BitVec.extractLsb'_append_eq_of_le (by decide)).trans ((BitVec.extractLsb'_append_eq_of_le (by decide)).trans ((BitVec.extractLsb'_append_eq_of_le (by decide)).trans ((BitVec.extractLsb'_append_eq_of_add_le (by decide)).trans BitVec.extractLsb'_eq_self)))
  have e3 : BitVec.extractLsb' (n := 24) 6 3 ((Opnd.code d) ++ 0#1 ++ addr ++ (Ty2.code ty) ++ 0#3 ++ sn) = (Ty2.code ty) :=
    (BitVec.extractLsb'_append_eq_of_le (by decide)).trans ((BitVec.extractLsb'_append_eq_of_le (by decide)).trans ((BitVec.extractLsb'_append_eq_of_add_le (by decide)).trans BitVec.extractLsb'_eq_self))
  have e4 : BitVec.extractLsb' (n := 24) 3 3 ((Opnd.code d) ++ 0#1 ++ addr ++ (Ty2.code ty) ++ 0#3 ++ sn) = 0#3 :=
    (BitVec.extractLsb'_append_eq_of_le (by decide)).trans ((BitVec.extractLsb'_append_eq_of_add_le (by decide)).trans BitVec.extractLsb'_eq_self)
  have e5 : BitVec.extractLsb' (n := 24) 0 3 ((Opnd.code d) ++ 0#1 ++ addr ++ (Ty2.code ty) ++ 0#3 ++ sn) = sn :=
    (BitVec.extractLsb'_append_eq_of_add_le (by decide)).trans BitVec.extractLsb'_eq_self
  refine (decode_lane ..).trans ?_
  change fields (chk ((BitVec.extractLsb' (n := 24) 15 1 _) == 0#1) ((Ty2.ofCode? (BitVec.extractLsb' (n := 24) 6 3 _)).bind (fun ty => chk ((BitVec.extractLsb' (n := 24) 3 3 _) == 0#3) (some (.samax (Opnd.ofCode (BitVec.extractLsb' (n := 24) 16 8 _)) ((BitVec.extractLsb' (n := 24) 9 6 _)) ty ((BitVec.extractLsb' (n := 24) 0 3 _))))))) = _
  rw [e0, e1, e2, e3, e4, e5]
  simp [fields, chk, Opnd.ofCode_code, hwf]

theorem sacas d addr ty sn : Statement (.sacas d addr ty sn) := by
  intro hwf w0 hen
  obtain rfl := wordEq hen
  change (d.ok) = true at hwf
  have e0 : BitVec.extractLsb' (n := 24) 16 8 ((Opnd.code d) ++ 0#1 ++ addr ++ (Ty2.code ty) ++ 0#3 ++ sn) = (Opnd.code d) :=
    (BitVec.extractLsb'_append_eq_of_le (by decide)).trans ((BitVec.extractLsb'_append_eq_of_le (by decide)).trans ((BitVec.extractLsb'_append_eq_of_le (by decide)).trans ((BitVec.extractLsb'_append_eq_of_le (by decide)).trans ((BitVec.extractLsb'_append_eq_of_le (by decide)).trans BitVec.extractLsb'_eq_self))))
  have e1 : BitVec.extractLsb' (n := 24) 15 1 ((Opnd.code d) ++ 0#1 ++ addr ++ (Ty2.code ty) ++ 0#3 ++ sn) = 0#1 :=
    (BitVec.extractLsb'_append_eq_of_le (by decide)).trans ((BitVec.extractLsb'_append_eq_of_le (by decide)).trans ((BitVec.extractLsb'_append_eq_of_le (by decide)).trans ((BitVec.extractLsb'_append_eq_of_le (by decide)).trans ((BitVec.extractLsb'_append_eq_of_add_le (by decide)).trans BitVec.extractLsb'_eq_self))))
  have e2 : BitVec.extractLsb' (n := 24) 9 6 ((Opnd.code d) ++ 0#1 ++ addr ++ (Ty2.code ty) ++ 0#3 ++ sn) = addr :=
    (BitVec.extractLsb'_append_eq_of_le (by decide)).trans ((BitVec.extractLsb'_append_eq_of_le (by decide)).trans ((BitVec.extractLsb'_append_eq_of_le (by decide)).trans ((BitVec.extractLsb'_append_eq_of_add_le (by decide)).trans BitVec.extractLsb'_eq_self)))
  have e3 : BitVec.extractLsb' (n := 24) 6 3 ((Opnd.code d) ++ 0#1 ++ addr ++ (Ty2.code ty) ++ 0#3 ++ sn) = (Ty2.code ty) :=
    (BitVec.extractLsb'_append_eq_of_le (by decide)).trans ((BitVec.extractLsb'_append_eq_of_le (by decide)).trans ((BitVec.extractLsb'_append_eq_of_add_le (by decide)).trans BitVec.extractLsb'_eq_self))
  have e4 : BitVec.extractLsb' (n := 24) 3 3 ((Opnd.code d) ++ 0#1 ++ addr ++ (Ty2.code ty) ++ 0#3 ++ sn) = 0#3 :=
    (BitVec.extractLsb'_append_eq_of_le (by decide)).trans ((BitVec.extractLsb'_append_eq_of_add_le (by decide)).trans BitVec.extractLsb'_eq_self)
  have e5 : BitVec.extractLsb' (n := 24) 0 3 ((Opnd.code d) ++ 0#1 ++ addr ++ (Ty2.code ty) ++ 0#3 ++ sn) = sn :=
    (BitVec.extractLsb'_append_eq_of_add_le (by decide)).trans BitVec.extractLsb'_eq_self
  refine (decode_lane ..).trans ?_
  change fields (chk ((BitVec.extractLsb' (n := 24) 15 1 _) == 0#1) ((Ty2.ofCode? (BitVec.extractLsb' (n := 24) 6 3 _)).bind (fun ty => chk ((BitVec.extractLsb' (n := 24) 3 3 _) == 0#3) (some (.sacas (Opnd.ofCode (BitVec.extractLsb' (n := 24) 16 8 _)) ((BitVec.extractLsb' (n := 24) 9 6 _)) ty ((BitVec.extractLsb' (n := 24) 0 3 _))))))) = _
  rw [e0, e1, e2, e3, e4, e5]
  simp [fields, chk, Opnd.ofCode_code, hwf]

theorem saxchg d addr ty sn : Statement (.saxchg d addr ty sn) := by
  intro hwf w0 hen
  obtain rfl := wordEq hen
  change (d.ok) = true at hwf
  have e0 : BitVec.extractLsb' (n := 24) 16 8 ((Opnd.code d) ++ 0#1 ++ addr ++ (Ty2.code ty) ++ 0#3 ++ sn) = (Opnd.code d) :=
    (BitVec.extractLsb'_append_eq_of_le (by decide)).trans ((BitVec.extractLsb'_append_eq_of_le (by decide)).trans ((BitVec.extractLsb'_append_eq_of_le (by decide)).trans ((BitVec.extractLsb'_append_eq_of_le (by decide)).trans ((BitVec.extractLsb'_append_eq_of_le (by decide)).trans BitVec.extractLsb'_eq_self))))
  have e1 : BitVec.extractLsb' (n := 24) 15 1 ((Opnd.code d) ++ 0#1 ++ addr ++ (Ty2.code ty) ++ 0#3 ++ sn) = 0#1 :=
    (BitVec.extractLsb'_append_eq_of_le (by decide)).trans ((BitVec.extractLsb'_append_eq_of_le (by decide)).trans ((BitVec.extractLsb'_append_eq_of_le (by decide)).trans ((BitVec.extractLsb'_append_eq_of_le (by decide)).trans ((BitVec.extractLsb'_append_eq_of_add_le (by decide)).trans BitVec.extractLsb'_eq_self))))
  have e2 : BitVec.extractLsb' (n := 24) 9 6 ((Opnd.code d) ++ 0#1 ++ addr ++ (Ty2.code ty) ++ 0#3 ++ sn) = addr :=
    (BitVec.extractLsb'_append_eq_of_le (by decide)).trans ((BitVec.extractLsb'_append_eq_of_le (by decide)).trans ((BitVec.extractLsb'_append_eq_of_le (by decide)).trans ((BitVec.extractLsb'_append_eq_of_add_le (by decide)).trans BitVec.extractLsb'_eq_self)))
  have e3 : BitVec.extractLsb' (n := 24) 6 3 ((Opnd.code d) ++ 0#1 ++ addr ++ (Ty2.code ty) ++ 0#3 ++ sn) = (Ty2.code ty) :=
    (BitVec.extractLsb'_append_eq_of_le (by decide)).trans ((BitVec.extractLsb'_append_eq_of_le (by decide)).trans ((BitVec.extractLsb'_append_eq_of_add_le (by decide)).trans BitVec.extractLsb'_eq_self))
  have e4 : BitVec.extractLsb' (n := 24) 3 3 ((Opnd.code d) ++ 0#1 ++ addr ++ (Ty2.code ty) ++ 0#3 ++ sn) = 0#3 :=
    (BitVec.extractLsb'_append_eq_of_le (by decide)).trans ((BitVec.extractLsb'_append_eq_of_add_le (by decide)).trans BitVec.extractLsb'_eq_self)
  have e5 : BitVec.extractLsb' (n := 24) 0 3 ((Opnd.code d) ++ 0#1 ++ addr ++ (Ty2.code ty) ++ 0#3 ++ sn) = sn :=
    (BitVec.extractLsb'_append_eq_of_add_le (by decide)).trans BitVec.extractLsb'_eq_self
  refine (decode_lane ..).trans ?_
  change fields (chk ((BitVec.extractLsb' (n := 24) 15 1 _) == 0#1) ((Ty2.ofCode? (BitVec.extractLsb' (n := 24) 6 3 _)).bind (fun ty => chk ((BitVec.extractLsb' (n := 24) 3 3 _) == 0#3) (some (.saxchg (Opnd.ofCode (BitVec.extractLsb' (n := 24) 16 8 _)) ((BitVec.extractLsb' (n := 24) 9 6 _)) ty ((BitVec.extractLsb' (n := 24) 0 3 _))))))) = _
  rw [e0, e1, e2, e3, e4, e5]
  simp [fields, chk, Opnd.ofCode_code, hwf]

theorem addUniform d a b : Statement (.addUniform d a b) := by
  intro hwf w0 hen
  obtain rfl := wordEq hen
  change (a.ok && b.ok) = true at hwf
  simp only [Bool.and_eq_true] at hwf
  have e0 : BitVec.extractLsb' (n := 24) 16 8 ((UDst.code d) ++ (Opnd.code a) ++ (Opnd.code b)) = (UDst.code d) :=
    (BitVec.extractLsb'_append_eq_of_le (by decide)).trans ((BitVec.extractLsb'_append_eq_of_le (by decide)).trans BitVec.extractLsb'_eq_self)
  have e1 : BitVec.extractLsb' (n := 24) 8 8 ((UDst.code d) ++ (Opnd.code a) ++ (Opnd.code b)) = (Opnd.code a) :=
    (BitVec.extractLsb'_append_eq_of_le (by decide)).trans ((BitVec.extractLsb'_append_eq_of_add_le (by decide)).trans BitVec.extractLsb'_eq_self)
  have e2 : BitVec.extractLsb' (n := 24) 0 8 ((UDst.code d) ++ (Opnd.code a) ++ (Opnd.code b)) = (Opnd.code b) :=
    (BitVec.extractLsb'_append_eq_of_add_le (by decide)).trans BitVec.extractLsb'_eq_self
  refine (decode_uniform ..).trans ?_
  change fields ((UDst.ofCode? (BitVec.extractLsb' (n := 24) 16 8 _)).bind (fun d => some (.addUniform d (Opnd.ofCode (BitVec.extractLsb' (n := 24) 8 8 _)) (Opnd.ofCode (BitVec.extractLsb' (n := 24) 0 8 _))))) = _
  rw [e0, e1, e2]
  simp [fields, Opnd.ofCode_code, hwf]

theorem subUniform d a b : Statement (.subUniform d a b) := by
  intro hwf w0 hen
  obtain rfl := wordEq hen
  change (a.ok && b.ok) = true at hwf
  simp only [Bool.and_eq_true] at hwf
  have e0 : BitVec.extractLsb' (n := 24) 16 8 ((UDst.code d) ++ (Opnd.code a) ++ (Opnd.code b)) = (UDst.code d) :=
    (BitVec.extractLsb'_append_eq_of_le (by decide)).trans ((BitVec.extractLsb'_append_eq_of_le (by decide)).trans BitVec.extractLsb'_eq_self)
  have e1 : BitVec.extractLsb' (n := 24) 8 8 ((UDst.code d) ++ (Opnd.code a) ++ (Opnd.code b)) = (Opnd.code a) :=
    (BitVec.extractLsb'_append_eq_of_le (by decide)).trans ((BitVec.extractLsb'_append_eq_of_add_le (by decide)).trans BitVec.extractLsb'_eq_self)
  have e2 : BitVec.extractLsb' (n := 24) 0 8 ((UDst.code d) ++ (Opnd.code a) ++ (Opnd.code b)) = (Opnd.code b) :=
    (BitVec.extractLsb'_append_eq_of_add_le (by decide)).trans BitVec.extractLsb'_eq_self
  refine (decode_uniform ..).trans ?_
  change fields ((UDst.ofCode? (BitVec.extractLsb' (n := 24) 16 8 _)).bind (fun d => some (.subUniform d (Opnd.ofCode (BitVec.extractLsb' (n := 24) 8 8 _)) (Opnd.ofCode (BitVec.extractLsb' (n := 24) 0 8 _))))) = _
  rw [e0, e1, e2]
  simp [fields, Opnd.ofCode_code, hwf]

theorem mulUniform d a b : Statement (.mulUniform d a b) := by
  intro hwf w0 hen
  obtain rfl := wordEq hen
  change (a.ok && b.ok) = true at hwf
  simp only [Bool.and_eq_true] at hwf
  have e0 : BitVec.extractLsb' (n := 24) 16 8 ((UDst.code d) ++ (Opnd.code a) ++ (Opnd.code b)) = (UDst.code d) :=
    (BitVec.extractLsb'_append_eq_of_le (by decide)).trans ((BitVec.extractLsb'_append_eq_of_le (by decide)).trans BitVec.extractLsb'_eq_self)
  have e1 : BitVec.extractLsb' (n := 24) 8 8 ((UDst.code d) ++ (Opnd.code a) ++ (Opnd.code b)) = (Opnd.code a) :=
    (BitVec.extractLsb'_append_eq_of_le (by decide)).trans ((BitVec.extractLsb'_append_eq_of_add_le (by decide)).trans BitVec.extractLsb'_eq_self)
  have e2 : BitVec.extractLsb' (n := 24) 0 8 ((UDst.code d) ++ (Opnd.code a) ++ (Opnd.code b)) = (Opnd.code b) :=
    (BitVec.extractLsb'_append_eq_of_add_le (by decide)).trans BitVec.extractLsb'_eq_self
  refine (decode_uniform ..).trans ?_
  change fields ((UDst.ofCode? (BitVec.extractLsb' (n := 24) 16 8 _)).bind (fun d => some (.mulUniform d (Opnd.ofCode (BitVec.extractLsb' (n := 24) 8 8 _)) (Opnd.ofCode (BitVec.extractLsb' (n := 24) 0 8 _))))) = _
  rw [e0, e1, e2]
  simp [fields, Opnd.ofCode_code, hwf]

theorem mulhUniform d a b : Statement (.mulhUniform d a b) := by
  intro hwf w0 hen
  obtain rfl := wordEq hen
  change (a.ok && b.ok) = true at hwf
  simp only [Bool.and_eq_true] at hwf
  have e0 : BitVec.extractLsb' (n := 24) 16 8 ((UDst.code d) ++ (Opnd.code a) ++ (Opnd.code b)) = (UDst.code d) :=
    (BitVec.extractLsb'_append_eq_of_le (by decide)).trans ((BitVec.extractLsb'_append_eq_of_le (by decide)).trans BitVec.extractLsb'_eq_self)
  have e1 : BitVec.extractLsb' (n := 24) 8 8 ((UDst.code d) ++ (Opnd.code a) ++ (Opnd.code b)) = (Opnd.code a) :=
    (BitVec.extractLsb'_append_eq_of_le (by decide)).trans ((BitVec.extractLsb'_append_eq_of_add_le (by decide)).trans BitVec.extractLsb'_eq_self)
  have e2 : BitVec.extractLsb' (n := 24) 0 8 ((UDst.code d) ++ (Opnd.code a) ++ (Opnd.code b)) = (Opnd.code b) :=
    (BitVec.extractLsb'_append_eq_of_add_le (by decide)).trans BitVec.extractLsb'_eq_self
  refine (decode_uniform ..).trans ?_
  change fields ((UDst.ofCode? (BitVec.extractLsb' (n := 24) 16 8 _)).bind (fun d => some (.mulhUniform d (Opnd.ofCode (BitVec.extractLsb' (n := 24) 8 8 _)) (Opnd.ofCode (BitVec.extractLsb' (n := 24) 0 8 _))))) = _
  rw [e0, e1, e2]
  simp [fields, Opnd.ofCode_code, hwf]

theorem mulhuUniform d a b : Statement (.mulhuUniform d a b) := by
  intro hwf w0 hen
  obtain rfl := wordEq hen
  change (a.ok && b.ok) = true at hwf
  simp only [Bool.and_eq_true] at hwf
  have e0 : BitVec.extractLsb' (n := 24) 16 8 ((UDst.code d) ++ (Opnd.code a) ++ (Opnd.code b)) = (UDst.code d) :=
    (BitVec.extractLsb'_append_eq_of_le (by decide)).trans ((BitVec.extractLsb'_append_eq_of_le (by decide)).trans BitVec.extractLsb'_eq_self)
  have e1 : BitVec.extractLsb' (n := 24) 8 8 ((UDst.code d) ++ (Opnd.code a) ++ (Opnd.code b)) = (Opnd.code a) :=
    (BitVec.extractLsb'_append_eq_of_le (by decide)).trans ((BitVec.extractLsb'_append_eq_of_add_le (by decide)).trans BitVec.extractLsb'_eq_self)
  have e2 : BitVec.extractLsb' (n := 24) 0 8 ((UDst.code d) ++ (Opnd.code a) ++ (Opnd.code b)) = (Opnd.code b) :=
    (BitVec.extractLsb'_append_eq_of_add_le (by decide)).trans BitVec.extractLsb'_eq_self
  refine (decode_uniform ..).trans ?_
  change fields ((UDst.ofCode? (BitVec.extractLsb' (n := 24) 16 8 _)).bind (fun d => some (.mulhuUniform d (Opnd.ofCode (BitVec.extractLsb' (n := 24) 8 8 _)) (Opnd.ofCode (BitVec.extractLsb' (n := 24) 0 8 _))))) = _
  rw [e0, e1, e2]
  simp [fields, Opnd.ofCode_code, hwf]

theorem andUniform d a b : Statement (.andUniform d a b) := by
  intro hwf w0 hen
  obtain rfl := wordEq hen
  change (a.ok && b.ok) = true at hwf
  simp only [Bool.and_eq_true] at hwf
  have e0 : BitVec.extractLsb' (n := 24) 16 8 ((UDst.code d) ++ (Opnd.code a) ++ (Opnd.code b)) = (UDst.code d) :=
    (BitVec.extractLsb'_append_eq_of_le (by decide)).trans ((BitVec.extractLsb'_append_eq_of_le (by decide)).trans BitVec.extractLsb'_eq_self)
  have e1 : BitVec.extractLsb' (n := 24) 8 8 ((UDst.code d) ++ (Opnd.code a) ++ (Opnd.code b)) = (Opnd.code a) :=
    (BitVec.extractLsb'_append_eq_of_le (by decide)).trans ((BitVec.extractLsb'_append_eq_of_add_le (by decide)).trans BitVec.extractLsb'_eq_self)
  have e2 : BitVec.extractLsb' (n := 24) 0 8 ((UDst.code d) ++ (Opnd.code a) ++ (Opnd.code b)) = (Opnd.code b) :=
    (BitVec.extractLsb'_append_eq_of_add_le (by decide)).trans BitVec.extractLsb'_eq_self
  refine (decode_uniform ..).trans ?_
  change fields ((UDst.ofCode? (BitVec.extractLsb' (n := 24) 16 8 _)).bind (fun d => some (.andUniform d (Opnd.ofCode (BitVec.extractLsb' (n := 24) 8 8 _)) (Opnd.ofCode (BitVec.extractLsb' (n := 24) 0 8 _))))) = _
  rw [e0, e1, e2]
  simp [fields, Opnd.ofCode_code, hwf]

theorem orUniform d a b : Statement (.orUniform d a b) := by
  intro hwf w0 hen
  obtain rfl := wordEq hen
  change (a.ok && b.ok) = true at hwf
  simp only [Bool.and_eq_true] at hwf
  have e0 : BitVec.extractLsb' (n := 24) 16 8 ((UDst.code d) ++ (Opnd.code a) ++ (Opnd.code b)) = (UDst.code d) :=
    (BitVec.extractLsb'_append_eq_of_le (by decide)).trans ((BitVec.extractLsb'_append_eq_of_le (by decide)).trans BitVec.extractLsb'_eq_self)
  have e1 : BitVec.extractLsb' (n := 24) 8 8 ((UDst.code d) ++ (Opnd.code a) ++ (Opnd.code b)) = (Opnd.code a) :=
    (BitVec.extractLsb'_append_eq_of_le (by decide)).trans ((BitVec.extractLsb'_append_eq_of_add_le (by decide)).trans BitVec.extractLsb'_eq_self)
  have e2 : BitVec.extractLsb' (n := 24) 0 8 ((UDst.code d) ++ (Opnd.code a) ++ (Opnd.code b)) = (Opnd.code b) :=
    (BitVec.extractLsb'_append_eq_of_add_le (by decide)).trans BitVec.extractLsb'_eq_self
  refine (decode_uniform ..).trans ?_
  change fields ((UDst.ofCode? (BitVec.extractLsb' (n := 24) 16 8 _)).bind (fun d => some (.orUniform d (Opnd.ofCode (BitVec.extractLsb' (n := 24) 8 8 _)) (Opnd.ofCode (BitVec.extractLsb' (n := 24) 0 8 _))))) = _
  rw [e0, e1, e2]
  simp [fields, Opnd.ofCode_code, hwf]

theorem xorUniform d a b : Statement (.xorUniform d a b) := by
  intro hwf w0 hen
  obtain rfl := wordEq hen
  change (a.ok && b.ok) = true at hwf
  simp only [Bool.and_eq_true] at hwf
  have e0 : BitVec.extractLsb' (n := 24) 16 8 ((UDst.code d) ++ (Opnd.code a) ++ (Opnd.code b)) = (UDst.code d) :=
    (BitVec.extractLsb'_append_eq_of_le (by decide)).trans ((BitVec.extractLsb'_append_eq_of_le (by decide)).trans BitVec.extractLsb'_eq_self)
  have e1 : BitVec.extractLsb' (n := 24) 8 8 ((UDst.code d) ++ (Opnd.code a) ++ (Opnd.code b)) = (Opnd.code a) :=
    (BitVec.extractLsb'_append_eq_of_le (by decide)).trans ((BitVec.extractLsb'_append_eq_of_add_le (by decide)).trans BitVec.extractLsb'_eq_self)
  have e2 : BitVec.extractLsb' (n := 24) 0 8 ((UDst.code d) ++ (Opnd.code a) ++ (Opnd.code b)) = (Opnd.code b) :=
    (BitVec.extractLsb'_append_eq_of_add_le (by decide)).trans BitVec.extractLsb'_eq_self
  refine (decode_uniform ..).trans ?_
  change fields ((UDst.ofCode? (BitVec.extractLsb' (n := 24) 16 8 _)).bind (fun d => some (.xorUniform d (Opnd.ofCode (BitVec.extractLsb' (n := 24) 8 8 _)) (Opnd.ofCode (BitVec.extractLsb' (n := 24) 0 8 _))))) = _
  rw [e0, e1, e2]
  simp [fields, Opnd.ofCode_code, hwf]

theorem andnUniform d a b : Statement (.andnUniform d a b) := by
  intro hwf w0 hen
  obtain rfl := wordEq hen
  change (a.ok && b.ok) = true at hwf
  simp only [Bool.and_eq_true] at hwf
  have e0 : BitVec.extractLsb' (n := 24) 16 8 ((UDst.code d) ++ (Opnd.code a) ++ (Opnd.code b)) = (UDst.code d) :=
    (BitVec.extractLsb'_append_eq_of_le (by decide)).trans ((BitVec.extractLsb'_append_eq_of_le (by decide)).trans BitVec.extractLsb'_eq_self)
  have e1 : BitVec.extractLsb' (n := 24) 8 8 ((UDst.code d) ++ (Opnd.code a) ++ (Opnd.code b)) = (Opnd.code a) :=
    (BitVec.extractLsb'_append_eq_of_le (by decide)).trans ((BitVec.extractLsb'_append_eq_of_add_le (by decide)).trans BitVec.extractLsb'_eq_self)
  have e2 : BitVec.extractLsb' (n := 24) 0 8 ((UDst.code d) ++ (Opnd.code a) ++ (Opnd.code b)) = (Opnd.code b) :=
    (BitVec.extractLsb'_append_eq_of_add_le (by decide)).trans BitVec.extractLsb'_eq_self
  refine (decode_uniform ..).trans ?_
  change fields ((UDst.ofCode? (BitVec.extractLsb' (n := 24) 16 8 _)).bind (fun d => some (.andnUniform d (Opnd.ofCode (BitVec.extractLsb' (n := 24) 8 8 _)) (Opnd.ofCode (BitVec.extractLsb' (n := 24) 0 8 _))))) = _
  rw [e0, e1, e2]
  simp [fields, Opnd.ofCode_code, hwf]

theorem shlUniform d a b : Statement (.shlUniform d a b) := by
  intro hwf w0 hen
  obtain rfl := wordEq hen
  change (a.ok && b.ok) = true at hwf
  simp only [Bool.and_eq_true] at hwf
  have e0 : BitVec.extractLsb' (n := 24) 16 8 ((UDst.code d) ++ (Opnd.code a) ++ (Opnd.code b)) = (UDst.code d) :=
    (BitVec.extractLsb'_append_eq_of_le (by decide)).trans ((BitVec.extractLsb'_append_eq_of_le (by decide)).trans BitVec.extractLsb'_eq_self)
  have e1 : BitVec.extractLsb' (n := 24) 8 8 ((UDst.code d) ++ (Opnd.code a) ++ (Opnd.code b)) = (Opnd.code a) :=
    (BitVec.extractLsb'_append_eq_of_le (by decide)).trans ((BitVec.extractLsb'_append_eq_of_add_le (by decide)).trans BitVec.extractLsb'_eq_self)
  have e2 : BitVec.extractLsb' (n := 24) 0 8 ((UDst.code d) ++ (Opnd.code a) ++ (Opnd.code b)) = (Opnd.code b) :=
    (BitVec.extractLsb'_append_eq_of_add_le (by decide)).trans BitVec.extractLsb'_eq_self
  refine (decode_uniform ..).trans ?_
  change fields ((UDst.ofCode? (BitVec.extractLsb' (n := 24) 16 8 _)).bind (fun d => some (.shlUniform d (Opnd.ofCode (BitVec.extractLsb' (n := 24) 8 8 _)) (Opnd.ofCode (BitVec.extractLsb' (n := 24) 0 8 _))))) = _
  rw [e0, e1, e2]
  simp [fields, Opnd.ofCode_code, hwf]

theorem shrUniform d a b : Statement (.shrUniform d a b) := by
  intro hwf w0 hen
  obtain rfl := wordEq hen
  change (a.ok && b.ok) = true at hwf
  simp only [Bool.and_eq_true] at hwf
  have e0 : BitVec.extractLsb' (n := 24) 16 8 ((UDst.code d) ++ (Opnd.code a) ++ (Opnd.code b)) = (UDst.code d) :=
    (BitVec.extractLsb'_append_eq_of_le (by decide)).trans ((BitVec.extractLsb'_append_eq_of_le (by decide)).trans BitVec.extractLsb'_eq_self)
  have e1 : BitVec.extractLsb' (n := 24) 8 8 ((UDst.code d) ++ (Opnd.code a) ++ (Opnd.code b)) = (Opnd.code a) :=
    (BitVec.extractLsb'_append_eq_of_le (by decide)).trans ((BitVec.extractLsb'_append_eq_of_add_le (by decide)).trans BitVec.extractLsb'_eq_self)
  have e2 : BitVec.extractLsb' (n := 24) 0 8 ((UDst.code d) ++ (Opnd.code a) ++ (Opnd.code b)) = (Opnd.code b) :=
    (BitVec.extractLsb'_append_eq_of_add_le (by decide)).trans BitVec.extractLsb'_eq_self
  refine (decode_uniform ..).trans ?_
  change fields ((UDst.ofCode? (BitVec.extractLsb' (n := 24) 16 8 _)).bind (fun d => some (.shrUniform d (Opnd.ofCode (BitVec.extractLsb' (n := 24) 8 8 _)) (Opnd.ofCode (BitVec.extractLsb' (n := 24) 0 8 _))))) = _
  rw [e0, e1, e2]
  simp [fields, Opnd.ofCode_code, hwf]

theorem sarUniform d a b : Statement (.sarUniform d a b) := by
  intro hwf w0 hen
  obtain rfl := wordEq hen
  change (a.ok && b.ok) = true at hwf
  simp only [Bool.and_eq_true] at hwf
  have e0 : BitVec.extractLsb' (n := 24) 16 8 ((UDst.code d) ++ (Opnd.code a) ++ (Opnd.code b)) = (UDst.code d) :=
    (BitVec.extractLsb'_append_eq_of_le (by decide)).trans ((BitVec.extractLsb'_append_eq_of_le (by decide)).trans BitVec.extractLsb'_eq_self)
  have e1 : BitVec.extractLsb' (n := 24) 8 8 ((UDst.code d) ++ (Opnd.code a) ++ (Opnd.code b)) = (Opnd.code a) :=
    (BitVec.extractLsb'_append_eq_of_le (by decide)).trans ((BitVec.extractLsb'_append_eq_of_add_le (by decide)).trans BitVec.extractLsb'_eq_self)
  have e2 : BitVec.extractLsb' (n := 24) 0 8 ((UDst.code d) ++ (Opnd.code a) ++ (Opnd.code b)) = (Opnd.code b) :=
    (BitVec.extractLsb'_append_eq_of_add_le (by decide)).trans BitVec.extractLsb'_eq_self
  refine (decode_uniform ..).trans ?_
  change fields ((UDst.ofCode? (BitVec.extractLsb' (n := 24) 16 8 _)).bind (fun d => some (.sarUniform d (Opnd.ofCode (BitVec.extractLsb' (n := 24) 8 8 _)) (Opnd.ofCode (BitVec.extractLsb' (n := 24) 0 8 _))))) = _
  rw [e0, e1, e2]
  simp [fields, Opnd.ofCode_code, hwf]

theorem minUniform d a b : Statement (.minUniform d a b) := by
  intro hwf w0 hen
  obtain rfl := wordEq hen
  change (a.ok && b.ok) = true at hwf
  simp only [Bool.and_eq_true] at hwf
  have e0 : BitVec.extractLsb' (n := 24) 16 8 ((UDst.code d) ++ (Opnd.code a) ++ (Opnd.code b)) = (UDst.code d) :=
    (BitVec.extractLsb'_append_eq_of_le (by decide)).trans ((BitVec.extractLsb'_append_eq_of_le (by decide)).trans BitVec.extractLsb'_eq_self)
  have e1 : BitVec.extractLsb' (n := 24) 8 8 ((UDst.code d) ++ (Opnd.code a) ++ (Opnd.code b)) = (Opnd.code a) :=
    (BitVec.extractLsb'_append_eq_of_le (by decide)).trans ((BitVec.extractLsb'_append_eq_of_add_le (by decide)).trans BitVec.extractLsb'_eq_self)
  have e2 : BitVec.extractLsb' (n := 24) 0 8 ((UDst.code d) ++ (Opnd.code a) ++ (Opnd.code b)) = (Opnd.code b) :=
    (BitVec.extractLsb'_append_eq_of_add_le (by decide)).trans BitVec.extractLsb'_eq_self
  refine (decode_uniform ..).trans ?_
  change fields ((UDst.ofCode? (BitVec.extractLsb' (n := 24) 16 8 _)).bind (fun d => some (.minUniform d (Opnd.ofCode (BitVec.extractLsb' (n := 24) 8 8 _)) (Opnd.ofCode (BitVec.extractLsb' (n := 24) 0 8 _))))) = _
  rw [e0, e1, e2]
  simp [fields, Opnd.ofCode_code, hwf]

theorem maxUniform d a b : Statement (.maxUniform d a b) := by
  intro hwf w0 hen
  obtain rfl := wordEq hen
  change (a.ok && b.ok) = true at hwf
  simp only [Bool.and_eq_true] at hwf
  have e0 : BitVec.extractLsb' (n := 24) 16 8 ((UDst.code d) ++ (Opnd.code a) ++ (Opnd.code b)) = (UDst.code d) :=
    (BitVec.extractLsb'_append_eq_of_le (by decide)).trans ((BitVec.extractLsb'_append_eq_of_le (by decide)).trans BitVec.extractLsb'_eq_self)
  have e1 : BitVec.extractLsb' (n := 24) 8 8 ((UDst.code d) ++ (Opnd.code a) ++ (Opnd.code b)) = (Opnd.code a) :=
    (BitVec.extractLsb'_append_eq_of_le (by decide)).trans ((BitVec.extractLsb'_append_eq_of_add_le (by decide)).trans BitVec.extractLsb'_eq_self)
  have e2 : BitVec.extractLsb' (n := 24) 0 8 ((UDst.code d) ++ (Opnd.code a) ++ (Opnd.code b)) = (Opnd.code b) :=
    (BitVec.extractLsb'_append_eq_of_add_le (by decide)).trans BitVec.extractLsb'_eq_self
  refine (decode_uniform ..).trans ?_
  change fields ((UDst.ofCode? (BitVec.extractLsb' (n := 24) 16 8 _)).bind (fun d => some (.maxUniform d (Opnd.ofCode (BitVec.extractLsb' (n := 24) 8 8 _)) (Opnd.ofCode (BitVec.extractLsb' (n := 24) 0 8 _))))) = _
  rw [e0, e1, e2]
  simp [fields, Opnd.ofCode_code, hwf]

theorem minuUniform d a b : Statement (.minuUniform d a b) := by
  intro hwf w0 hen
  obtain rfl := wordEq hen
  change (a.ok && b.ok) = true at hwf
  simp only [Bool.and_eq_true] at hwf
  have e0 : BitVec.extractLsb' (n := 24) 16 8 ((UDst.code d) ++ (Opnd.code a) ++ (Opnd.code b)) = (UDst.code d) :=
    (BitVec.extractLsb'_append_eq_of_le (by decide)).trans ((BitVec.extractLsb'_append_eq_of_le (by decide)).trans BitVec.extractLsb'_eq_self)
  have e1 : BitVec.extractLsb' (n := 24) 8 8 ((UDst.code d) ++ (Opnd.code a) ++ (Opnd.code b)) = (Opnd.code a) :=
    (BitVec.extractLsb'_append_eq_of_le (by decide)).trans ((BitVec.extractLsb'_append_eq_of_add_le (by decide)).trans BitVec.extractLsb'_eq_self)
  have e2 : BitVec.extractLsb' (n := 24) 0 8 ((UDst.code d) ++ (Opnd.code a) ++ (Opnd.code b)) = (Opnd.code b) :=
    (BitVec.extractLsb'_append_eq_of_add_le (by decide)).trans BitVec.extractLsb'_eq_self
  refine (decode_uniform ..).trans ?_
  change fields ((UDst.ofCode? (BitVec.extractLsb' (n := 24) 16 8 _)).bind (fun d => some (.minuUniform d (Opnd.ofCode (BitVec.extractLsb' (n := 24) 8 8 _)) (Opnd.ofCode (BitVec.extractLsb' (n := 24) 0 8 _))))) = _
  rw [e0, e1, e2]
  simp [fields, Opnd.ofCode_code, hwf]

theorem maxuUniform d a b : Statement (.maxuUniform d a b) := by
  intro hwf w0 hen
  obtain rfl := wordEq hen
  change (a.ok && b.ok) = true at hwf
  simp only [Bool.and_eq_true] at hwf
  have e0 : BitVec.extractLsb' (n := 24) 16 8 ((UDst.code d) ++ (Opnd.code a) ++ (Opnd.code b)) = (UDst.code d) :=
    (BitVec.extractLsb'_append_eq_of_le (by decide)).trans ((BitVec.extractLsb'_append_eq_of_le (by decide)).trans BitVec.extractLsb'_eq_self)
  have e1 : BitVec.extractLsb' (n := 24) 8 8 ((UDst.code d) ++ (Opnd.code a) ++ (Opnd.code b)) = (Opnd.code a) :=
    (BitVec.extractLsb'_append_eq_of_le (by decide)).trans ((BitVec.extractLsb'_append_eq_of_add_le (by decide)).trans BitVec.extractLsb'_eq_self)
  have e2 : BitVec.extractLsb' (n := 24) 0 8 ((UDst.code d) ++ (Opnd.code a) ++ (Opnd.code b)) = (Opnd.code b) :=
    (BitVec.extractLsb'_append_eq_of_add_le (by decide)).trans BitVec.extractLsb'_eq_self
  refine (decode_uniform ..).trans ?_
  change fields ((UDst.ofCode? (BitVec.extractLsb' (n := 24) 16 8 _)).bind (fun d => some (.maxuUniform d (Opnd.ofCode (BitVec.extractLsb' (n := 24) 8 8 _)) (Opnd.ofCode (BitVec.extractLsb' (n := 24) 0 8 _))))) = _
  rw [e0, e1, e2]
  simp [fields, Opnd.ofCode_code, hwf]

theorem clzUniform d a : Statement (.clzUniform d a) := by
  intro hwf w0 hen
  obtain rfl := wordEq hen
  change (a.ok) = true at hwf
  have e0 : BitVec.extractLsb' (n := 24) 16 8 ((UDst.code d) ++ (Opnd.code a) ++ 164#8) = (UDst.code d) :=
    (BitVec.extractLsb'_append_eq_of_le (by decide)).trans ((BitVec.extractLsb'_append_eq_of_le (by decide)).trans BitVec.extractLsb'_eq_self)
  have e1 : BitVec.extractLsb' (n := 24) 8 8 ((UDst.code d) ++ (Opnd.code a) ++ 164#8) = (Opnd.code a) :=
    (BitVec.extractLsb'_append_eq_of_le (by decide)).trans ((BitVec.extractLsb'_append_eq_of_add_le (by decide)).trans BitVec.extractLsb'_eq_self)
  have e2 : BitVec.extractLsb' (n := 24) 0 8 ((UDst.code d) ++ (Opnd.code a) ++ 164#8) = 164#8 :=
    (BitVec.extractLsb'_append_eq_of_add_le (by decide)).trans BitVec.extractLsb'_eq_self
  refine (decode_uniform ..).trans ?_
  change fields ((UDst.ofCode? (BitVec.extractLsb' (n := 24) 16 8 _)).bind (fun d => chk ((BitVec.extractLsb' (n := 24) 0 8 _) == 164#8) (some (.clzUniform d (Opnd.ofCode (BitVec.extractLsb' (n := 24) 8 8 _)))))) = _
  rw [e0, e1, e2]
  simp [fields, chk, Opnd.ofCode_code, hwf]

theorem popcUniform d a : Statement (.popcUniform d a) := by
  intro hwf w0 hen
  obtain rfl := wordEq hen
  change (a.ok) = true at hwf
  have e0 : BitVec.extractLsb' (n := 24) 16 8 ((UDst.code d) ++ (Opnd.code a) ++ 164#8) = (UDst.code d) :=
    (BitVec.extractLsb'_append_eq_of_le (by decide)).trans ((BitVec.extractLsb'_append_eq_of_le (by decide)).trans BitVec.extractLsb'_eq_self)
  have e1 : BitVec.extractLsb' (n := 24) 8 8 ((UDst.code d) ++ (Opnd.code a) ++ 164#8) = (Opnd.code a) :=
    (BitVec.extractLsb'_append_eq_of_le (by decide)).trans ((BitVec.extractLsb'_append_eq_of_add_le (by decide)).trans BitVec.extractLsb'_eq_self)
  have e2 : BitVec.extractLsb' (n := 24) 0 8 ((UDst.code d) ++ (Opnd.code a) ++ 164#8) = 164#8 :=
    (BitVec.extractLsb'_append_eq_of_add_le (by decide)).trans BitVec.extractLsb'_eq_self
  refine (decode_uniform ..).trans ?_
  change fields ((UDst.ofCode? (BitVec.extractLsb' (n := 24) 16 8 _)).bind (fun d => chk ((BitVec.extractLsb' (n := 24) 0 8 _) == 164#8) (some (.popcUniform d (Opnd.ofCode (BitVec.extractLsb' (n := 24) 8 8 _)))))) = _
  rw [e0, e1, e2]
  simp [fields, chk, Opnd.ofCode_code, hwf]

theorem bfeUniform d a b : Statement (.bfeUniform d a b) := by
  intro hwf w0 hen
  obtain rfl := wordEq hen
  change (a.ok && b.ok) = true at hwf
  simp only [Bool.and_eq_true] at hwf
  have e0 : BitVec.extractLsb' (n := 24) 16 8 ((UDst.code d) ++ (Opnd.code a) ++ (Opnd.code b)) = (UDst.code d) :=
    (BitVec.extractLsb'_append_eq_of_le (by decide)).trans ((BitVec.extractLsb'_append_eq_of_le (by decide)).trans BitVec.extractLsb'_eq_self)
  have e1 : BitVec.extractLsb' (n := 24) 8 8 ((UDst.code d) ++ (Opnd.code a) ++ (Opnd.code b)) = (Opnd.code a) :=
    (BitVec.extractLsb'_append_eq_of_le (by decide)).trans ((BitVec.extractLsb'_append_eq_of_add_le (by decide)).trans BitVec.extractLsb'_eq_self)
  have e2 : BitVec.extractLsb' (n := 24) 0 8 ((UDst.code d) ++ (Opnd.code a) ++ (Opnd.code b)) = (Opnd.code b) :=
    (BitVec.extractLsb'_append_eq_of_add_le (by decide)).trans BitVec.extractLsb'_eq_self
  refine (decode_uniform ..).trans ?_
  change fields ((UDst.ofCode? (BitVec.extractLsb' (n := 24) 16 8 _)).bind (fun d => some (.bfeUniform d (Opnd.ofCode (BitVec.extractLsb' (n := 24) 8 8 _)) (Opnd.ofCode (BitVec.extractLsb' (n := 24) 0 8 _))))) = _
  rw [e0, e1, e2]
  simp [fields, Opnd.ofCode_code, hwf]

theorem bfiUniform d a b : Statement (.bfiUniform d a b) := by
  intro hwf w0 hen
  obtain rfl := wordEq hen
  change (a.ok && b.ok) = true at hwf
  simp only [Bool.and_eq_true] at hwf
  have e0 : BitVec.extractLsb' (n := 24) 16 8 ((UDst.code d) ++ (Opnd.code a) ++ (Opnd.code b)) = (UDst.code d) :=
    (BitVec.extractLsb'_append_eq_of_le (by decide)).trans ((BitVec.extractLsb'_append_eq_of_le (by decide)).trans BitVec.extractLsb'_eq_self)
  have e1 : BitVec.extractLsb' (n := 24) 8 8 ((UDst.code d) ++ (Opnd.code a) ++ (Opnd.code b)) = (Opnd.code a) :=
    (BitVec.extractLsb'_append_eq_of_le (by decide)).trans ((BitVec.extractLsb'_append_eq_of_add_le (by decide)).trans BitVec.extractLsb'_eq_self)
  have e2 : BitVec.extractLsb' (n := 24) 0 8 ((UDst.code d) ++ (Opnd.code a) ++ (Opnd.code b)) = (Opnd.code b) :=
    (BitVec.extractLsb'_append_eq_of_add_le (by decide)).trans BitVec.extractLsb'_eq_self
  refine (decode_uniform ..).trans ?_
  change fields ((UDst.ofCode? (BitVec.extractLsb' (n := 24) 16 8 _)).bind (fun d => some (.bfiUniform d (Opnd.ofCode (BitVec.extractLsb' (n := 24) 8 8 _)) (Opnd.ofCode (BitVec.extractLsb' (n := 24) 0 8 _))))) = _
  rw [e0, e1, e2]
  simp [fields, Opnd.ofCode_code, hwf]

theorem cmpEqUniform d a b : Statement (.cmpEqUniform d a b) := by
  intro hwf w0 hen
  obtain rfl := wordEq hen
  change (a.ok && b.ok) = true at hwf
  simp only [Bool.and_eq_true] at hwf
  have e0 : BitVec.extractLsb' (n := 24) 16 8 ((UDst.code d) ++ (Opnd.code a) ++ (Opnd.code b)) = (UDst.code d) :=
    (BitVec.extractLsb'_append_eq_of_le (by decide)).trans ((BitVec.extractLsb'_append_eq_of_le (by decide)).trans BitVec.extractLsb'_eq_self)
  have e1 : BitVec.extractLsb' (n := 24) 8 8 ((UDst.code d) ++ (Opnd.code a) ++ (Opnd.code b)) = (Opnd.code a) :=
    (BitVec.extractLsb'_append_eq_of_le (by decide)).trans ((BitVec.extractLsb'_append_eq_of_add_le (by decide)).trans BitVec.extractLsb'_eq_self)
  have e2 : BitVec.extractLsb' (n := 24) 0 8 ((UDst.code d) ++ (Opnd.code a) ++ (Opnd.code b)) = (Opnd.code b) :=
    (BitVec.extractLsb'_append_eq_of_add_le (by decide)).trans BitVec.extractLsb'_eq_self
  refine (decode_uniform ..).trans ?_
  change fields ((UDst.ofCode? (BitVec.extractLsb' (n := 24) 16 8 _)).bind (fun d => some (.cmpEqUniform d (Opnd.ofCode (BitVec.extractLsb' (n := 24) 8 8 _)) (Opnd.ofCode (BitVec.extractLsb' (n := 24) 0 8 _))))) = _
  rw [e0, e1, e2]
  simp [fields, Opnd.ofCode_code, hwf]

theorem cmpNeUniform d a b : Statement (.cmpNeUniform d a b) := by
  intro hwf w0 hen
  obtain rfl := wordEq hen
  change (a.ok && b.ok) = true at hwf
  simp only [Bool.and_eq_true] at hwf
  have e0 : BitVec.extractLsb' (n := 24) 16 8 ((UDst.code d) ++ (Opnd.code a) ++ (Opnd.code b)) = (UDst.code d) :=
    (BitVec.extractLsb'_append_eq_of_le (by decide)).trans ((BitVec.extractLsb'_append_eq_of_le (by decide)).trans BitVec.extractLsb'_eq_self)
  have e1 : BitVec.extractLsb' (n := 24) 8 8 ((UDst.code d) ++ (Opnd.code a) ++ (Opnd.code b)) = (Opnd.code a) :=
    (BitVec.extractLsb'_append_eq_of_le (by decide)).trans ((BitVec.extractLsb'_append_eq_of_add_le (by decide)).trans BitVec.extractLsb'_eq_self)
  have e2 : BitVec.extractLsb' (n := 24) 0 8 ((UDst.code d) ++ (Opnd.code a) ++ (Opnd.code b)) = (Opnd.code b) :=
    (BitVec.extractLsb'_append_eq_of_add_le (by decide)).trans BitVec.extractLsb'_eq_self
  refine (decode_uniform ..).trans ?_
  change fields ((UDst.ofCode? (BitVec.extractLsb' (n := 24) 16 8 _)).bind (fun d => some (.cmpNeUniform d (Opnd.ofCode (BitVec.extractLsb' (n := 24) 8 8 _)) (Opnd.ofCode (BitVec.extractLsb' (n := 24) 0 8 _))))) = _
  rw [e0, e1, e2]
  simp [fields, Opnd.ofCode_code, hwf]

theorem cmpLtUniform d a b : Statement (.cmpLtUniform d a b) := by
  intro hwf w0 hen
  obtain rfl := wordEq hen
  change (a.ok && b.ok) = true at hwf
  simp only [Bool.and_eq_true] at hwf
  have e0 : BitVec.extractLsb' (n := 24) 16 8 ((UDst.code d) ++ (Opnd.code a) ++ (Opnd.code b)) = (UDst.code d) :=
    (BitVec.extractLsb'_append_eq_of_le (by decide)).trans ((BitVec.extractLsb'_append_eq_of_le (by decide)).trans BitVec.extractLsb'_eq_self)
  have e1 : BitVec.extractLsb' (n := 24) 8 8 ((UDst.code d) ++ (Opnd.code a) ++ (Opnd.code b)) = (Opnd.code a) :=
    (BitVec.extractLsb'_append_eq_of_le (by decide)).trans ((BitVec.extractLsb'_append_eq_of_add_le (by decide)).trans BitVec.extractLsb'_eq_self)
  have e2 : BitVec.extractLsb' (n := 24) 0 8 ((UDst.code d) ++ (Opnd.code a) ++ (Opnd.code b)) = (Opnd.code b) :=
    (BitVec.extractLsb'_append_eq_of_add_le (by decide)).trans BitVec.extractLsb'_eq_self
  refine (decode_uniform ..).trans ?_
  change fields ((UDst.ofCode? (BitVec.extractLsb' (n := 24) 16 8 _)).bind (fun d => some (.cmpLtUniform d (Opnd.ofCode (BitVec.extractLsb' (n := 24) 8 8 _)) (Opnd.ofCode (BitVec.extractLsb' (n := 24) 0 8 _))))) = _
  rw [e0, e1, e2]
  simp [fields, Opnd.ofCode_code, hwf]

theorem cmpLeUniform d a b : Statement (.cmpLeUniform d a b) := by
  intro hwf w0 hen
  obtain rfl := wordEq hen
  change (a.ok && b.ok) = true at hwf
  simp only [Bool.and_eq_true] at hwf
  have e0 : BitVec.extractLsb' (n := 24) 16 8 ((UDst.code d) ++ (Opnd.code a) ++ (Opnd.code b)) = (UDst.code d) :=
    (BitVec.extractLsb'_append_eq_of_le (by decide)).trans ((BitVec.extractLsb'_append_eq_of_le (by decide)).trans BitVec.extractLsb'_eq_self)
  have e1 : BitVec.extractLsb' (n := 24) 8 8 ((UDst.code d) ++ (Opnd.code a) ++ (Opnd.code b)) = (Opnd.code a) :=
    (BitVec.extractLsb'_append_eq_of_le (by decide)).trans ((BitVec.extractLsb'_append_eq_of_add_le (by decide)).trans BitVec.extractLsb'_eq_self)
  have e2 : BitVec.extractLsb' (n := 24) 0 8 ((UDst.code d) ++ (Opnd.code a) ++ (Opnd.code b)) = (Opnd.code b) :=
    (BitVec.extractLsb'_append_eq_of_add_le (by decide)).trans BitVec.extractLsb'_eq_self
  refine (decode_uniform ..).trans ?_
  change fields ((UDst.ofCode? (BitVec.extractLsb' (n := 24) 16 8 _)).bind (fun d => some (.cmpLeUniform d (Opnd.ofCode (BitVec.extractLsb' (n := 24) 8 8 _)) (Opnd.ofCode (BitVec.extractLsb' (n := 24) 0 8 _))))) = _
  rw [e0, e1, e2]
  simp [fields, Opnd.ofCode_code, hwf]

theorem cmpBloUniform d a b : Statement (.cmpBloUniform d a b) := by
  intro hwf w0 hen
  obtain rfl := wordEq hen
  change (a.ok && b.ok) = true at hwf
  simp only [Bool.and_eq_true] at hwf
  have e0 : BitVec.extractLsb' (n := 24) 16 8 ((UDst.code d) ++ (Opnd.code a) ++ (Opnd.code b)) = (UDst.code d) :=
    (BitVec.extractLsb'_append_eq_of_le (by decide)).trans ((BitVec.extractLsb'_append_eq_of_le (by decide)).trans BitVec.extractLsb'_eq_self)
  have e1 : BitVec.extractLsb' (n := 24) 8 8 ((UDst.code d) ++ (Opnd.code a) ++ (Opnd.code b)) = (Opnd.code a) :=
    (BitVec.extractLsb'_append_eq_of_le (by decide)).trans ((BitVec.extractLsb'_append_eq_of_add_le (by decide)).trans BitVec.extractLsb'_eq_self)
  have e2 : BitVec.extractLsb' (n := 24) 0 8 ((UDst.code d) ++ (Opnd.code a) ++ (Opnd.code b)) = (Opnd.code b) :=
    (BitVec.extractLsb'_append_eq_of_add_le (by decide)).trans BitVec.extractLsb'_eq_self
  refine (decode_uniform ..).trans ?_
  change fields ((UDst.ofCode? (BitVec.extractLsb' (n := 24) 16 8 _)).bind (fun d => some (.cmpBloUniform d (Opnd.ofCode (BitVec.extractLsb' (n := 24) 8 8 _)) (Opnd.ofCode (BitVec.extractLsb' (n := 24) 0 8 _))))) = _
  rw [e0, e1, e2]
  simp [fields, Opnd.ofCode_code, hwf]

theorem cmpBlsUniform d a b : Statement (.cmpBlsUniform d a b) := by
  intro hwf w0 hen
  obtain rfl := wordEq hen
  change (a.ok && b.ok) = true at hwf
  simp only [Bool.and_eq_true] at hwf
  have e0 : BitVec.extractLsb' (n := 24) 16 8 ((UDst.code d) ++ (Opnd.code a) ++ (Opnd.code b)) = (UDst.code d) :=
    (BitVec.extractLsb'_append_eq_of_le (by decide)).trans ((BitVec.extractLsb'_append_eq_of_le (by decide)).trans BitVec.extractLsb'_eq_self)
  have e1 : BitVec.extractLsb' (n := 24) 8 8 ((UDst.code d) ++ (Opnd.code a) ++ (Opnd.code b)) = (Opnd.code a) :=
    (BitVec.extractLsb'_append_eq_of_le (by decide)).trans ((BitVec.extractLsb'_append_eq_of_add_le (by decide)).trans BitVec.extractLsb'_eq_self)
  have e2 : BitVec.extractLsb' (n := 24) 0 8 ((UDst.code d) ++ (Opnd.code a) ++ (Opnd.code b)) = (Opnd.code b) :=
    (BitVec.extractLsb'_append_eq_of_add_le (by decide)).trans BitVec.extractLsb'_eq_self
  refine (decode_uniform ..).trans ?_
  change fields ((UDst.ofCode? (BitVec.extractLsb' (n := 24) 16 8 _)).bind (fun d => some (.cmpBlsUniform d (Opnd.ofCode (BitVec.extractLsb' (n := 24) 8 8 _)) (Opnd.ofCode (BitVec.extractLsb' (n := 24) 0 8 _))))) = _
  rw [e0, e1, e2]
  simp [fields, Opnd.ofCode_code, hwf]

theorem selUniform d a b : Statement (.selUniform d a b) := by
  intro hwf w0 hen
  obtain rfl := wordEq hen
  change (a.ok && b.ok) = true at hwf
  simp only [Bool.and_eq_true] at hwf
  have e0 : BitVec.extractLsb' (n := 24) 16 8 ((UDst.code d) ++ (Opnd.code a) ++ (Opnd.code b)) = (UDst.code d) :=
    (BitVec.extractLsb'_append_eq_of_le (by decide)).trans ((BitVec.extractLsb'_append_eq_of_le (by decide)).trans BitVec.extractLsb'_eq_self)
  have e1 : BitVec.extractLsb' (n := 24) 8 8 ((UDst.code d) ++ (Opnd.code a) ++ (Opnd.code b)) = (Opnd.code a) :=
    (BitVec.extractLsb'_append_eq_of_le (by decide)).trans ((BitVec.extractLsb'_append_eq_of_add_le (by decide)).trans BitVec.extractLsb'_eq_self)
  have e2 : BitVec.extractLsb' (n := 24) 0 8 ((UDst.code d) ++ (Opnd.code a) ++ (Opnd.code b)) = (Opnd.code b) :=
    (BitVec.extractLsb'_append_eq_of_add_le (by decide)).trans BitVec.extractLsb'_eq_self
  refine (decode_uniform ..).trans ?_
  change fields ((UDst.ofCode? (BitVec.extractLsb' (n := 24) 16 8 _)).bind (fun d => some (.selUniform d (Opnd.ofCode (BitVec.extractLsb' (n := 24) 8 8 _)) (Opnd.ofCode (BitVec.extractLsb' (n := 24) 0 8 _))))) = _
  rw [e0, e1, e2]
  simp [fields, Opnd.ofCode_code, hwf]

theorem moviUniform s imm : Statement (.moviUniform s imm) := by
  intro hwf w0 hen
  obtain rfl := wordEq hen
  have e0 : BitVec.extractLsb' (n := 24) 19 5 (s ++ imm) = s :=
    (BitVec.extractLsb'_append_eq_of_le (by decide)).trans BitVec.extractLsb'_eq_self
  have e1 : BitVec.extractLsb' (n := 24) 0 19 (s ++ imm) = imm :=
    (BitVec.extractLsb'_append_eq_of_add_le (by decide)).trans BitVec.extractLsb'_eq_self
  refine (decode_uniform ..).trans ?_
  change fields (some (.moviUniform ((BitVec.extractLsb' (n := 24) 19 5 _)) ((BitVec.extractLsb' (n := 24) 0 19 _)))) = _
  rw [e0, e1]
  simp [fields]

theorem movhiUniform s imm : Statement (.movhiUniform s imm) := by
  intro hwf w0 hen
  obtain rfl := wordEq hen
  have e0 : BitVec.extractLsb' (n := 24) 19 5 (s ++ imm) = s :=
    (BitVec.extractLsb'_append_eq_of_le (by decide)).trans BitVec.extractLsb'_eq_self
  have e1 : BitVec.extractLsb' (n := 24) 0 19 (s ++ imm) = imm :=
    (BitVec.extractLsb'_append_eq_of_add_le (by decide)).trans BitVec.extractLsb'_eq_self
  refine (decode_uniform ..).trans ?_
  change fields (some (.movhiUniform ((BitVec.extractLsb' (n := 24) 19 5 _)) ((BitVec.extractLsb' (n := 24) 0 19 _)))) = _
  rw [e0, e1]
  simp [fields]

theorem addiUniform s imm : Statement (.addiUniform s imm) := by
  intro hwf w0 hen
  obtain rfl := wordEq hen
  have e0 : BitVec.extractLsb' (n := 24) 19 5 (s ++ imm) = s :=
    (BitVec.extractLsb'_append_eq_of_le (by decide)).trans BitVec.extractLsb'_eq_self
  have e1 : BitVec.extractLsb' (n := 24) 0 19 (s ++ imm) = imm :=
    (BitVec.extractLsb'_append_eq_of_add_le (by decide)).trans BitVec.extractLsb'_eq_self
  refine (decode_uniform ..).trans ?_
  change fields (some (.addiUniform ((BitVec.extractLsb' (n := 24) 19 5 _)) ((BitVec.extractLsb' (n := 24) 0 19 _)))) = _
  rw [e0, e1]
  simp [fields]

theorem rolUniform d a b : Statement (.rolUniform d a b) := by
  intro hwf w0 hen
  obtain rfl := wordEq hen
  change (a.ok && b.ok) = true at hwf
  simp only [Bool.and_eq_true] at hwf
  have e0 : BitVec.extractLsb' (n := 24) 16 8 ((UDst.code d) ++ (Opnd.code a) ++ (Opnd.code b)) = (UDst.code d) :=
    (BitVec.extractLsb'_append_eq_of_le (by decide)).trans ((BitVec.extractLsb'_append_eq_of_le (by decide)).trans BitVec.extractLsb'_eq_self)
  have e1 : BitVec.extractLsb' (n := 24) 8 8 ((UDst.code d) ++ (Opnd.code a) ++ (Opnd.code b)) = (Opnd.code a) :=
    (BitVec.extractLsb'_append_eq_of_le (by decide)).trans ((BitVec.extractLsb'_append_eq_of_add_le (by decide)).trans BitVec.extractLsb'_eq_self)
  have e2 : BitVec.extractLsb' (n := 24) 0 8 ((UDst.code d) ++ (Opnd.code a) ++ (Opnd.code b)) = (Opnd.code b) :=
    (BitVec.extractLsb'_append_eq_of_add_le (by decide)).trans BitVec.extractLsb'_eq_self
  refine (decode_uniform ..).trans ?_
  change fields ((UDst.ofCode? (BitVec.extractLsb' (n := 24) 16 8 _)).bind (fun d => some (.rolUniform d (Opnd.ofCode (BitVec.extractLsb' (n := 24) 8 8 _)) (Opnd.ofCode (BitVec.extractLsb' (n := 24) 0 8 _))))) = _
  rw [e0, e1, e2]
  simp [fields, Opnd.ofCode_code, hwf]

theorem br off : Statement (.br off) := by
  intro hwf w0 hen
  obtain rfl := wordEq hen
  refine (decode_uniform ..).trans ?_
  change fields (some (.br ((BitVec.extractLsb' (n := 24) 0 24 (off))))) = _
  simp [fields]

theorem brz c off : Statement (.brz c off) := by
  intro hwf w0 hen
  obtain rfl := wordEq hen
  change (c.ok) = true at hwf
  have e0 : BitVec.extractLsb' (n := 24) 16 8 ((Opnd.code c) ++ off) = (Opnd.code c) :=
    (BitVec.extractLsb'_append_eq_of_le (by decide)).trans BitVec.extractLsb'_eq_self
  have e1 : BitVec.extractLsb' (n := 24) 0 16 ((Opnd.code c) ++ off) = off :=
    (BitVec.extractLsb'_append_eq_of_add_le (by decide)).trans BitVec.extractLsb'_eq_self
  refine (decode_uniform ..).trans ?_
  change fields (some (.brz (Opnd.ofCode (BitVec.extractLsb' (n := 24) 16 8 _)) ((BitVec.extractLsb' (n := 24) 0 16 _)))) = _
  rw [e0, e1]
  simp [fields, Opnd.ofCode_code, hwf]

theorem brnz c off : Statement (.brnz c off) := by
  intro hwf w0 hen
  obtain rfl := wordEq hen
  change (c.ok) = true at hwf
  have e0 : BitVec.extractLsb' (n := 24) 16 8 ((Opnd.code c) ++ off) = (Opnd.code c) :=
    (BitVec.extractLsb'_append_eq_of_le (by decide)).trans BitVec.extractLsb'_eq_self
  have e1 : BitVec.extractLsb' (n := 24) 0 16 ((Opnd.code c) ++ off) = off :=
    (BitVec.extractLsb'_append_eq_of_add_le (by decide)).trans BitVec.extractLsb'_eq_self
  refine (decode_uniform ..).trans ?_
  change fields (some (.brnz (Opnd.ofCode (BitVec.extractLsb' (n := 24) 16 8 _)) ((BitVec.extractLsb' (n := 24) 0 16 _)))) = _
  rw [e0, e1]
  simp [fields, Opnd.ofCode_code, hwf]

theorem brp m p off : Statement (.brp m p off) := by
  intro hwf w0 hen
  obtain rfl := wordEq hen
  have e0 : BitVec.extractLsb' (n := 24) 21 3 (0#3 ++ (BrpMode.code m) ++ p ++ off) = 0#3 :=
    (BitVec.extractLsb'_append_eq_of_le (by decide)).trans ((BitVec.extractLsb'_append_eq_of_le (by decide)).trans ((BitVec.extractLsb'_append_eq_of_le (by decide)).trans BitVec.extractLsb'_eq_self))
  have e1 : BitVec.extractLsb' (n := 24) 19 2 (0#3 ++ (BrpMode.code m) ++ p ++ off) = (BrpMode.code m) :=
    (BitVec.extractLsb'_append_eq_of_le (by decide)).trans ((BitVec.extractLsb'_append_eq_of_le (by decide)).trans ((BitVec.extractLsb'_append_eq_of_add_le (by decide)).trans BitVec.extractLsb'_eq_self))
  have e2 : BitVec.extractLsb' (n := 24) 16 3 (0#3 ++ (BrpMode.code m) ++ p ++ off) = p :=
    (BitVec.extractLsb'_append_eq_of_le (by decide)).trans ((BitVec.extractLsb'_append_eq_of_add_le (by decide)).trans BitVec.extractLsb'_eq_self)
  have e3 : BitVec.extractLsb' (n := 24) 0 16 (0#3 ++ (BrpMode.code m) ++ p ++ off) = off :=
    (BitVec.extractLsb'_append_eq_of_add_le (by decide)).trans BitVec.extractLsb'_eq_self
  refine (decode_uniform ..).trans ?_
  change fields (chk ((BitVec.extractLsb' (n := 24) 21 3 _) == 0#3) (some (.brp (BrpMode.ofCode (BitVec.extractLsb' (n := 24) 19 2 _)) ((BitVec.extractLsb' (n := 24) 16 3 _)) ((BitVec.extractLsb' (n := 24) 0 16 _))))) = _
  rw [e0, e1, e2, e3]
  simp [fields, chk]

theorem call off : Statement (.call off) := by
  intro hwf w0 hen
  obtain rfl := wordEq hen
  refine (decode_uniform ..).trans ?_
  change fields (some (.call ((BitVec.extractLsb' (n := 24) 0 24 (off))))) = _
  simp [fields]

theorem ret : Statement (.ret) := by
  intro hwf w0 hen
  obtain rfl := wordEq hen
  refine (decode_uniform ..).trans ?_
  change fields (chk ((BitVec.extractLsb' (n := 24) 0 24 (0#24)) == 0#24) (some (.ret))) = _
  simp [fields, chk]

theorem jmpi d a b : Statement (.jmpi d a b) := by
  intro hwf w0 hen
  obtain rfl := wordEq hen
  change (a.ok && b.ok) = true at hwf
  simp only [Bool.and_eq_true] at hwf
  have e0 : BitVec.extractLsb' (n := 24) 16 8 ((UDst.code d) ++ (Opnd.code a) ++ (Opnd.code b)) = (UDst.code d) :=
    (BitVec.extractLsb'_append_eq_of_le (by decide)).trans ((BitVec.extractLsb'_append_eq_of_le (by decide)).trans BitVec.extractLsb'_eq_self)
  have e1 : BitVec.extractLsb' (n := 24) 8 8 ((UDst.code d) ++ (Opnd.code a) ++ (Opnd.code b)) = (Opnd.code a) :=
    (BitVec.extractLsb'_append_eq_of_le (by decide)).trans ((BitVec.extractLsb'_append_eq_of_add_le (by decide)).trans BitVec.extractLsb'_eq_self)
  have e2 : BitVec.extractLsb' (n := 24) 0 8 ((UDst.code d) ++ (Opnd.code a) ++ (Opnd.code b)) = (Opnd.code b) :=
    (BitVec.extractLsb'_append_eq_of_add_le (by decide)).trans BitVec.extractLsb'_eq_self
  refine (decode_uniform ..).trans ?_
  change fields ((UDst.ofCode? (BitVec.extractLsb' (n := 24) 16 8 _)).bind (fun d => some (.jmpi d (Opnd.ofCode (BitVec.extractLsb' (n := 24) 8 8 _)) (Opnd.ofCode (BitVec.extractLsb' (n := 24) 0 8 _))))) = _
  rw [e0, e1, e2]
  simp [fields, Opnd.ofCode_code, hwf]

theorem regang : Statement (.regang) := by
  intro hwf w0 hen
  obtain rfl := wordEq hen
  refine (decode_uniform ..).trans ?_
  change fields (chk ((BitVec.extractLsb' (n := 24) 0 24 (0#24)) == 0#24) (some (.regang))) = _
  simp [fields, chk]

theorem mpush inv p : Statement (.mpush inv p) := by
  intro hwf w0 hen
  obtain rfl := wordEq hen
  have e0 : BitVec.extractLsb' (n := 24) 16 8 (0#8 ++ 0#8 ++ 0#4 ++ (BitVec.ofBool inv) ++ p) = 0#8 :=
    (BitVec.extractLsb'_append_eq_of_le (by decide)).trans ((BitVec.extractLsb'_append_eq_of_le (by decide)).trans ((BitVec.extractLsb'_append_eq_of_le (by decide)).trans ((BitVec.extractLsb'_append_eq_of_le (by decide)).trans BitVec.extractLsb'_eq_self)))
  have e1 : BitVec.extractLsb' (n := 24) 8 8 (0#8 ++ 0#8 ++ 0#4 ++ (BitVec.ofBool inv) ++ p) = 0#8 :=
    (BitVec.extractLsb'_append_eq_of_le (by decide)).trans ((BitVec.extractLsb'_append_eq_of_le (by decide)).trans ((BitVec.extractLsb'_append_eq_of_le (by decide)).trans ((BitVec.extractLsb'_append_eq_of_add_le (by decide)).trans BitVec.extractLsb'_eq_self)))
  have e2 : BitVec.extractLsb' (n := 24) 4 4 (0#8 ++ 0#8 ++ 0#4 ++ (BitVec.ofBool inv) ++ p) = 0#4 :=
    (BitVec.extractLsb'_append_eq_of_le (by decide)).trans ((BitVec.extractLsb'_append_eq_of_le (by decide)).trans ((BitVec.extractLsb'_append_eq_of_add_le (by decide)).trans BitVec.extractLsb'_eq_self))
  have e3 : BitVec.extractLsb' (n := 24) 3 1 (0#8 ++ 0#8 ++ 0#4 ++ (BitVec.ofBool inv) ++ p) = (BitVec.ofBool inv) :=
    (BitVec.extractLsb'_append_eq_of_le (by decide)).trans ((BitVec.extractLsb'_append_eq_of_add_le (by decide)).trans BitVec.extractLsb'_eq_self)
  have e4 : BitVec.extractLsb' (n := 24) 0 3 (0#8 ++ 0#8 ++ 0#4 ++ (BitVec.ofBool inv) ++ p) = p :=
    (BitVec.extractLsb'_append_eq_of_add_le (by decide)).trans BitVec.extractLsb'_eq_self
  refine (decode_uniform ..).trans ?_
  change fields (chk ((BitVec.extractLsb' (n := 24) 16 8 _) == 0#8) (chk ((BitVec.extractLsb' (n := 24) 8 8 _) == 0#8) (chk ((BitVec.extractLsb' (n := 24) 4 4 _) == 0#4) (some (.mpush ((BitVec.extractLsb' (n := 24) 3 1 _) == 1#1) ((BitVec.extractLsb' (n := 24) 0 3 _))))))) = _
  rw [e0, e1, e2, e3, e4]
  simp [fields, chk]

theorem mpop : Statement (.mpop) := by
  intro hwf w0 hen
  obtain rfl := wordEq hen
  refine (decode_uniform ..).trans ?_
  change fields (chk ((BitVec.extractLsb' (n := 24) 0 24 (0#24)) == 0#24) (some (.mpop))) = _
  simp [fields, chk]

theorem msetp op inv p : Statement (.msetp op inv p) := by
  intro hwf w0 hen
  obtain rfl := wordEq hen
  have e0 : BitVec.extractLsb' (n := 24) 16 8 (0#8 ++ 0#8 ++ 0#2 ++ (MsetOp.code op) ++ (BitVec.ofBool inv) ++ p) = 0#8 :=
    (BitVec.extractLsb'_append_eq_of_le (by decide)).trans ((BitVec.extractLsb'_append_eq_of_le (by decide)).trans ((BitVec.extractLsb'_append_eq_of_le (by decide)).trans ((BitVec.extractLsb'_append_eq_of_le (by decide)).trans ((BitVec.extractLsb'_append_eq_of_le (by decide)).trans BitVec.extractLsb'_eq_self))))
  have e1 : BitVec.extractLsb' (n := 24) 8 8 (0#8 ++ 0#8 ++ 0#2 ++ (MsetOp.code op) ++ (BitVec.ofBool inv) ++ p) = 0#8 :=
    (BitVec.extractLsb'_append_eq_of_le (by decide)).trans ((BitVec.extractLsb'_append_eq_of_le (by decide)).trans ((BitVec.extractLsb'_append_eq_of_le (by decide)).trans ((BitVec.extractLsb'_append_eq_of_le (by decide)).trans ((BitVec.extractLsb'_append_eq_of_add_le (by decide)).trans BitVec.extractLsb'_eq_self))))
  have e2 : BitVec.extractLsb' (n := 24) 6 2 (0#8 ++ 0#8 ++ 0#2 ++ (MsetOp.code op) ++ (BitVec.ofBool inv) ++ p) = 0#2 :=
    (BitVec.extractLsb'_append_eq_of_le (by decide)).trans ((BitVec.extractLsb'_append_eq_of_le (by decide)).trans ((BitVec.extractLsb'_append_eq_of_le (by decide)).trans ((BitVec.extractLsb'_append_eq_of_add_le (by decide)).trans BitVec.extractLsb'_eq_self)))
  have e3 : BitVec.extractLsb' (n := 24) 4 2 (0#8 ++ 0#8 ++ 0#2 ++ (MsetOp.code op) ++ (BitVec.ofBool inv) ++ p) = (MsetOp.code op) :=
    (BitVec.extractLsb'_append_eq_of_le (by decide)).trans ((BitVec.extractLsb'_append_eq_of_le (by decide)).trans ((BitVec.extractLsb'_append_eq_of_add_le (by decide)).trans BitVec.extractLsb'_eq_self))
  have e4 : BitVec.extractLsb' (n := 24) 3 1 (0#8 ++ 0#8 ++ 0#2 ++ (MsetOp.code op) ++ (BitVec.ofBool inv) ++ p) = (BitVec.ofBool inv) :=
    (BitVec.extractLsb'_append_eq_of_le (by decide)).trans ((BitVec.extractLsb'_append_eq_of_add_le (by decide)).trans BitVec.extractLsb'_eq_self)
  have e5 : BitVec.extractLsb' (n := 24) 0 3 (0#8 ++ 0#8 ++ 0#2 ++ (MsetOp.code op) ++ (BitVec.ofBool inv) ++ p) = p :=
    (BitVec.extractLsb'_append_eq_of_add_le (by decide)).trans BitVec.extractLsb'_eq_self
  refine (decode_uniform ..).trans ?_
  change fields (chk ((BitVec.extractLsb' (n := 24) 16 8 _) == 0#8) (chk ((BitVec.extractLsb' (n := 24) 8 8 _) == 0#8) (chk ((BitVec.extractLsb' (n := 24) 6 2 _) == 0#2) ((MsetOp.ofCode? (BitVec.extractLsb' (n := 24) 4 2 _)).bind (fun op => some (.msetp op ((BitVec.extractLsb' (n := 24) 3 1 _) == 1#1) ((BitVec.extractLsb' (n := 24) 0 3 _)))))))) = _
  rw [e0, e1, e2, e3, e4, e5]
  simp [fields, chk]

theorem melse : Statement (.melse) := by
  intro hwf w0 hen
  obtain rfl := wordEq hen
  refine (decode_uniform ..).trans ?_
  change fields (chk ((BitVec.extractLsb' (n := 24) 0 24 (0#24)) == 0#24) (some (.melse))) = _
  simp [fields, chk]

theorem loop c off : Statement (.loop c off) := by
  intro hwf w0 hen
  obtain rfl := wordEq hen
  change (c.ok) = true at hwf
  have e0 : BitVec.extractLsb' (n := 24) 16 8 ((Opnd.code c) ++ off) = (Opnd.code c) :=
    (BitVec.extractLsb'_append_eq_of_le (by decide)).trans BitVec.extractLsb'_eq_self
  have e1 : BitVec.extractLsb' (n := 24) 0 16 ((Opnd.code c) ++ off) = off :=
    (BitVec.extractLsb'_append_eq_of_add_le (by decide)).trans BitVec.extractLsb'_eq_self
  refine (decode_uniform ..).trans ?_
  change fields (some (.loop (Opnd.ofCode (BitVec.extractLsb' (n := 24) 16 8 _)) ((BitVec.extractLsb' (n := 24) 0 16 _)))) = _
  rw [e0, e1]
  simp [fields, Opnd.ofCode_code, hwf]

theorem yield : Statement (.yield) := by
  intro hwf w0 hen
  obtain rfl := wordEq hen
  refine (decode_uniform ..).trans ?_
  change fields (chk ((BitVec.extractLsb' (n := 24) 0 24 (0#24)) == 0#24) (some (.yield))) = _
  simp [fields, chk]

theorem exit : Statement (.exit) := by
  intro hwf w0 hen
  obtain rfl := wordEq hen
  refine (decode_uniform ..).trans ?_
  change fields (chk ((BitVec.extractLsb' (n := 24) 0 24 (0#24)) == 0#24) (some (.exit))) = _
  simp [fields, chk]

theorem nop : Statement (.nop) := by
  intro hwf w0 hen
  obtain rfl := wordEq hen
  refine (decode_uniform ..).trans ?_
  change fields (chk ((BitVec.extractLsb' (n := 24) 0 24 (0#24)) == 0#24) (some (.nop))) = _
  simp [fields, chk]

theorem ldUniform d addr ty o : Statement (.ldUniform d addr ty o) := by
  intro hwf w0 hen
  obtain rfl := wordEq hen
  have e0 : BitVec.extractLsb' (n := 24) 16 8 ((UDst.code d) ++ addr ++ (Ty.code ty) ++ (MOrd.code o) ++ 0#2) = (UDst.code d) :=
    (BitVec.extractLsb'_append_eq_of_le (by decide)).trans ((BitVec.extractLsb'_append_eq_of_le (by decide)).trans ((BitVec.extractLsb'_append_eq_of_le (by decide)).trans ((BitVec.extractLsb'_append_eq_of_le (by decide)).trans BitVec.extractLsb'_eq_self)))
  have e1 : BitVec.extractLsb' (n := 24) 11 5 ((UDst.code d) ++ addr ++ (Ty.code ty) ++ (MOrd.code o) ++ 0#2) = addr :=
    (BitVec.extractLsb'_append_eq_of_le (by decide)).trans ((BitVec.extractLsb'_append_eq_of_le (by decide)).trans ((BitVec.extractLsb'_append_eq_of_le (by decide)).trans ((BitVec.extractLsb'_append_eq_of_add_le (by decide)).trans BitVec.extractLsb'_eq_self)))
  have e2 : BitVec.extractLsb' (n := 24) 8 3 ((UDst.code d) ++ addr ++ (Ty.code ty) ++ (MOrd.code o) ++ 0#2) = (Ty.code ty) :=
    (BitVec.extractLsb'_append_eq_of_le (by decide)).trans ((BitVec.extractLsb'_append_eq_of_le (by decide)).trans ((BitVec.extractLsb'_append_eq_of_add_le (by decide)).trans BitVec.extractLsb'_eq_self))
  have e3 : BitVec.extractLsb' (n := 24) 2 6 ((UDst.code d) ++ addr ++ (Ty.code ty) ++ (MOrd.code o) ++ 0#2) = (MOrd.code o) :=
    (BitVec.extractLsb'_append_eq_of_le (by decide)).trans ((BitVec.extractLsb'_append_eq_of_add_le (by decide)).trans BitVec.extractLsb'_eq_self)
  have e4 : BitVec.extractLsb' (n := 24) 0 2 ((UDst.code d) ++ addr ++ (Ty.code ty) ++ (MOrd.code o) ++ 0#2) = 0#2 :=
    (BitVec.extractLsb'_append_eq_of_add_le (by decide)).trans BitVec.extractLsb'_eq_self
  refine (decode_uniform ..).trans ?_
  change fields ((UDst.ofCode? (BitVec.extractLsb' (n := 24) 16 8 _)).bind (fun d => (Ty.ofCode? (BitVec.extractLsb' (n := 24) 8 3 _)).bind (fun ty => (MOrd.ofCode? (BitVec.extractLsb' (n := 24) 2 6 _)).bind (fun o => chk ((BitVec.extractLsb' (n := 24) 0 2 _) == 0#2) (some (.ldUniform d ((BitVec.extractLsb' (n := 24) 11 5 _)) ty o)))))) = _
  rw [e0, e1, e2, e3, e4]
  simp [fields, chk]

theorem stUniform data addr ty o : Statement (.stUniform data addr ty o) := by
  intro hwf w0 hen
  obtain rfl := wordEq hen
  change (data.ok && ty.storable) = true at hwf
  simp only [Bool.and_eq_true] at hwf
  have e0 : BitVec.extractLsb' (n := 24) 16 8 ((Opnd.code data) ++ addr ++ (Ty.code ty) ++ (MOrd.code o) ++ 0#2) = (Opnd.code data) :=
    (BitVec.extractLsb'_append_eq_of_le (by decide)).trans ((BitVec.extractLsb'_append_eq_of_le (by decide)).trans ((BitVec.extractLsb'_append_eq_of_le (by decide)).trans ((BitVec.extractLsb'_append_eq_of_le (by decide)).trans BitVec.extractLsb'_eq_self)))
  have e1 : BitVec.extractLsb' (n := 24) 11 5 ((Opnd.code data) ++ addr ++ (Ty.code ty) ++ (MOrd.code o) ++ 0#2) = addr :=
    (BitVec.extractLsb'_append_eq_of_le (by decide)).trans ((BitVec.extractLsb'_append_eq_of_le (by decide)).trans ((BitVec.extractLsb'_append_eq_of_le (by decide)).trans ((BitVec.extractLsb'_append_eq_of_add_le (by decide)).trans BitVec.extractLsb'_eq_self)))
  have e2 : BitVec.extractLsb' (n := 24) 8 3 ((Opnd.code data) ++ addr ++ (Ty.code ty) ++ (MOrd.code o) ++ 0#2) = (Ty.code ty) :=
    (BitVec.extractLsb'_append_eq_of_le (by decide)).trans ((BitVec.extractLsb'_append_eq_of_le (by decide)).trans ((BitVec.extractLsb'_append_eq_of_add_le (by decide)).trans BitVec.extractLsb'_eq_self))
  have e3 : BitVec.extractLsb' (n := 24) 2 6 ((Opnd.code data) ++ addr ++ (Ty.code ty) ++ (MOrd.code o) ++ 0#2) = (MOrd.code o) :=
    (BitVec.extractLsb'_append_eq_of_le (by decide)).trans ((BitVec.extractLsb'_append_eq_of_add_le (by decide)).trans BitVec.extractLsb'_eq_self)
  have e4 : BitVec.extractLsb' (n := 24) 0 2 ((Opnd.code data) ++ addr ++ (Ty.code ty) ++ (MOrd.code o) ++ 0#2) = 0#2 :=
    (BitVec.extractLsb'_append_eq_of_add_le (by decide)).trans BitVec.extractLsb'_eq_self
  refine (decode_uniform ..).trans ?_
  change fields ((Ty.ofStore? (BitVec.extractLsb' (n := 24) 8 3 _)).bind (fun ty => (MOrd.ofCode? (BitVec.extractLsb' (n := 24) 2 6 _)).bind (fun o => chk ((BitVec.extractLsb' (n := 24) 0 2 _) == 0#2) (some (.stUniform (Opnd.ofCode (BitVec.extractLsb' (n := 24) 16 8 _)) ((BitVec.extractLsb' (n := 24) 11 5 _)) ty o))))) = _
  rw [e0, e1, e2, e3, e4]
  simp [fields, chk, Opnd.ofCode_code, Ty.ofStore?_code, hwf]

theorem aaddUniform d addr ty o : Statement (.aaddUniform d addr ty o) := by
  intro hwf w0 hen
  obtain rfl := wordEq hen
  have e0 : BitVec.extractLsb' (n := 24) 16 8 ((UDst.code d) ++ addr ++ (Ty2.code ty) ++ (AOrd.code o) ++ 0#2) = (UDst.code d) :=
    (BitVec.extractLsb'_append_eq_of_le (by decide)).trans ((BitVec.extractLsb'_append_eq_of_le (by decide)).trans ((BitVec.extractLsb'_append_eq_of_le (by decide)).trans ((BitVec.extractLsb'_append_eq_of_le (by decide)).trans BitVec.extractLsb'_eq_self)))
  have e1 : BitVec.extractLsb' (n := 24) 11 5 ((UDst.code d) ++ addr ++ (Ty2.code ty) ++ (AOrd.code o) ++ 0#2) = addr :=
    (BitVec.extractLsb'_append_eq_of_le (by decide)).trans ((BitVec.extractLsb'_append_eq_of_le (by decide)).trans ((BitVec.extractLsb'_append_eq_of_le (by decide)).trans ((BitVec.extractLsb'_append_eq_of_add_le (by decide)).trans BitVec.extractLsb'_eq_self)))
  have e2 : BitVec.extractLsb' (n := 24) 8 3 ((UDst.code d) ++ addr ++ (Ty2.code ty) ++ (AOrd.code o) ++ 0#2) = (Ty2.code ty) :=
    (BitVec.extractLsb'_append_eq_of_le (by decide)).trans ((BitVec.extractLsb'_append_eq_of_le (by decide)).trans ((BitVec.extractLsb'_append_eq_of_add_le (by decide)).trans BitVec.extractLsb'_eq_self))
  have e3 : BitVec.extractLsb' (n := 24) 2 6 ((UDst.code d) ++ addr ++ (Ty2.code ty) ++ (AOrd.code o) ++ 0#2) = (AOrd.code o) :=
    (BitVec.extractLsb'_append_eq_of_le (by decide)).trans ((BitVec.extractLsb'_append_eq_of_add_le (by decide)).trans BitVec.extractLsb'_eq_self)
  have e4 : BitVec.extractLsb' (n := 24) 0 2 ((UDst.code d) ++ addr ++ (Ty2.code ty) ++ (AOrd.code o) ++ 0#2) = 0#2 :=
    (BitVec.extractLsb'_append_eq_of_add_le (by decide)).trans BitVec.extractLsb'_eq_self
  refine (decode_uniform ..).trans ?_
  change fields ((UDst.ofCode? (BitVec.extractLsb' (n := 24) 16 8 _)).bind (fun d => (Ty2.ofCode? (BitVec.extractLsb' (n := 24) 8 3 _)).bind (fun ty => (AOrd.ofCode? (BitVec.extractLsb' (n := 24) 2 6 _)).bind (fun o => chk ((BitVec.extractLsb' (n := 24) 0 2 _) == 0#2) (some (.aaddUniform d ((BitVec.extractLsb' (n := 24) 11 5 _)) ty o)))))) = _
  rw [e0, e1, e2, e3, e4]
  simp [fields, chk]

theorem acasUniform d addr ty o : Statement (.acasUniform d addr ty o) := by
  intro hwf w0 hen
  obtain rfl := wordEq hen
  have e0 : BitVec.extractLsb' (n := 24) 16 8 ((UDst.code d) ++ addr ++ (Ty2.code ty) ++ (AOrd.code o) ++ 0#2) = (UDst.code d) :=
    (BitVec.extractLsb'_append_eq_of_le (by decide)).trans ((BitVec.extractLsb'_append_eq_of_le (by decide)).trans ((BitVec.extractLsb'_append_eq_of_le (by decide)).trans ((BitVec.extractLsb'_append_eq_of_le (by decide)).trans BitVec.extractLsb'_eq_self)))
  have e1 : BitVec.extractLsb' (n := 24) 11 5 ((UDst.code d) ++ addr ++ (Ty2.code ty) ++ (AOrd.code o) ++ 0#2) = addr :=
    (BitVec.extractLsb'_append_eq_of_le (by decide)).trans ((BitVec.extractLsb'_append_eq_of_le (by decide)).trans ((BitVec.extractLsb'_append_eq_of_le (by decide)).trans ((BitVec.extractLsb'_append_eq_of_add_le (by decide)).trans BitVec.extractLsb'_eq_self)))
  have e2 : BitVec.extractLsb' (n := 24) 8 3 ((UDst.code d) ++ addr ++ (Ty2.code ty) ++ (AOrd.code o) ++ 0#2) = (Ty2.code ty) :=
    (BitVec.extractLsb'_append_eq_of_le (by decide)).trans ((BitVec.extractLsb'_append_eq_of_le (by decide)).trans ((BitVec.extractLsb'_append_eq_of_add_le (by decide)).trans BitVec.extractLsb'_eq_self))
  have e3 : BitVec.extractLsb' (n := 24) 2 6 ((UDst.code d) ++ addr ++ (Ty2.code ty) ++ (AOrd.code o) ++ 0#2) = (AOrd.code o) :=
    (BitVec.extractLsb'_append_eq_of_le (by decide)).trans ((BitVec.extractLsb'_append_eq_of_add_le (by decide)).trans BitVec.extractLsb'_eq_self)
  have e4 : BitVec.extractLsb' (n := 24) 0 2 ((UDst.code d) ++ addr ++ (Ty2.code ty) ++ (AOrd.code o) ++ 0#2) = 0#2 :=
    (BitVec.extractLsb'_append_eq_of_add_le (by decide)).trans BitVec.extractLsb'_eq_self
  refine (decode_uniform ..).trans ?_
  change fields ((UDst.ofCode? (BitVec.extractLsb' (n := 24) 16 8 _)).bind (fun d => (Ty2.ofCode? (BitVec.extractLsb' (n := 24) 8 3 _)).bind (fun ty => (AOrd.ofCode? (BitVec.extractLsb' (n := 24) 2 6 _)).bind (fun o => chk ((BitVec.extractLsb' (n := 24) 0 2 _) == 0#2) (some (.acasUniform d ((BitVec.extractLsb' (n := 24) 11 5 _)) ty o)))))) = _
  rw [e0, e1, e2, e3, e4]
  simp [fields, chk]

theorem axchgUniform d addr ty o : Statement (.axchgUniform d addr ty o) := by
  intro hwf w0 hen
  obtain rfl := wordEq hen
  have e0 : BitVec.extractLsb' (n := 24) 16 8 ((UDst.code d) ++ addr ++ (Ty2.code ty) ++ (AOrd.code o) ++ 0#2) = (UDst.code d) :=
    (BitVec.extractLsb'_append_eq_of_le (by decide)).trans ((BitVec.extractLsb'_append_eq_of_le (by decide)).trans ((BitVec.extractLsb'_append_eq_of_le (by decide)).trans ((BitVec.extractLsb'_append_eq_of_le (by decide)).trans BitVec.extractLsb'_eq_self)))
  have e1 : BitVec.extractLsb' (n := 24) 11 5 ((UDst.code d) ++ addr ++ (Ty2.code ty) ++ (AOrd.code o) ++ 0#2) = addr :=
    (BitVec.extractLsb'_append_eq_of_le (by decide)).trans ((BitVec.extractLsb'_append_eq_of_le (by decide)).trans ((BitVec.extractLsb'_append_eq_of_le (by decide)).trans ((BitVec.extractLsb'_append_eq_of_add_le (by decide)).trans BitVec.extractLsb'_eq_self)))
  have e2 : BitVec.extractLsb' (n := 24) 8 3 ((UDst.code d) ++ addr ++ (Ty2.code ty) ++ (AOrd.code o) ++ 0#2) = (Ty2.code ty) :=
    (BitVec.extractLsb'_append_eq_of_le (by decide)).trans ((BitVec.extractLsb'_append_eq_of_le (by decide)).trans ((BitVec.extractLsb'_append_eq_of_add_le (by decide)).trans BitVec.extractLsb'_eq_self))
  have e3 : BitVec.extractLsb' (n := 24) 2 6 ((UDst.code d) ++ addr ++ (Ty2.code ty) ++ (AOrd.code o) ++ 0#2) = (AOrd.code o) :=
    (BitVec.extractLsb'_append_eq_of_le (by decide)).trans ((BitVec.extractLsb'_append_eq_of_add_le (by decide)).trans BitVec.extractLsb'_eq_self)
  have e4 : BitVec.extractLsb' (n := 24) 0 2 ((UDst.code d) ++ addr ++ (Ty2.code ty) ++ (AOrd.code o) ++ 0#2) = 0#2 :=
    (BitVec.extractLsb'_append_eq_of_add_le (by decide)).trans BitVec.extractLsb'_eq_self
  refine (decode_uniform ..).trans ?_
  change fields ((UDst.ofCode? (BitVec.extractLsb' (n := 24) 16 8 _)).bind (fun d => (Ty2.ofCode? (BitVec.extractLsb' (n := 24) 8 3 _)).bind (fun ty => (AOrd.ofCode? (BitVec.extractLsb' (n := 24) 2 6 _)).bind (fun o => chk ((BitVec.extractLsb' (n := 24) 0 2 _) == 0#2) (some (.axchgUniform d ((BitVec.extractLsb' (n := 24) 11 5 _)) ty o)))))) = _
  rw [e0, e1, e2, e3, e4]
  simp [fields, chk]

theorem amaxUniform d addr ty o : Statement (.amaxUniform d addr ty o) := by
  intro hwf w0 hen
  obtain rfl := wordEq hen
  have e0 : BitVec.extractLsb' (n := 24) 16 8 ((UDst.code d) ++ addr ++ (Ty2.code ty) ++ (AOrd.code o) ++ 0#2) = (UDst.code d) :=
    (BitVec.extractLsb'_append_eq_of_le (by decide)).trans ((BitVec.extractLsb'_append_eq_of_le (by decide)).trans ((BitVec.extractLsb'_append_eq_of_le (by decide)).trans ((BitVec.extractLsb'_append_eq_of_le (by decide)).trans BitVec.extractLsb'_eq_self)))
  have e1 : BitVec.extractLsb' (n := 24) 11 5 ((UDst.code d) ++ addr ++ (Ty2.code ty) ++ (AOrd.code o) ++ 0#2) = addr :=
    (BitVec.extractLsb'_append_eq_of_le (by decide)).trans ((BitVec.extractLsb'_append_eq_of_le (by decide)).trans ((BitVec.extractLsb'_append_eq_of_le (by decide)).trans ((BitVec.extractLsb'_append_eq_of_add_le (by decide)).trans BitVec.extractLsb'_eq_self)))
  have e2 : BitVec.extractLsb' (n := 24) 8 3 ((UDst.code d) ++ addr ++ (Ty2.code ty) ++ (AOrd.code o) ++ 0#2) = (Ty2.code ty) :=
    (BitVec.extractLsb'_append_eq_of_le (by decide)).trans ((BitVec.extractLsb'_append_eq_of_le (by decide)).trans ((BitVec.extractLsb'_append_eq_of_add_le (by decide)).trans BitVec.extractLsb'_eq_self))
  have e3 : BitVec.extractLsb' (n := 24) 2 6 ((UDst.code d) ++ addr ++ (Ty2.code ty) ++ (AOrd.code o) ++ 0#2) = (AOrd.code o) :=
    (BitVec.extractLsb'_append_eq_of_le (by decide)).trans ((BitVec.extractLsb'_append_eq_of_add_le (by decide)).trans BitVec.extractLsb'_eq_self)
  have e4 : BitVec.extractLsb' (n := 24) 0 2 ((UDst.code d) ++ addr ++ (Ty2.code ty) ++ (AOrd.code o) ++ 0#2) = 0#2 :=
    (BitVec.extractLsb'_append_eq_of_add_le (by decide)).trans BitVec.extractLsb'_eq_self
  refine (decode_uniform ..).trans ?_
  change fields ((UDst.ofCode? (BitVec.extractLsb' (n := 24) 16 8 _)).bind (fun d => (Ty2.ofCode? (BitVec.extractLsb' (n := 24) 8 3 _)).bind (fun ty => (AOrd.ofCode? (BitVec.extractLsb' (n := 24) 2 6 _)).bind (fun o => chk ((BitVec.extractLsb' (n := 24) 0 2 _) == 0#2) (some (.amaxUniform d ((BitVec.extractLsb' (n := 24) 11 5 _)) ty o)))))) = _
  rw [e0, e1, e2, e3, e4]
  simp [fields, chk]

theorem fence sc k : Statement (.fence sc k) := by
  intro hwf w0 hen
  obtain rfl := wordEq hen
  have e0 : BitVec.extractLsb' (n := 24) 16 8 (0#8 ++ 0#8 ++ 0#3 ++ (Scope.code sc) ++ (FenceKind.code k)) = 0#8 :=
    (BitVec.extractLsb'_append_eq_of_le (by decide)).trans ((BitVec.extractLsb'_append_eq_of_le (by decide)).trans ((BitVec.extractLsb'_append_eq_of_le (by decide)).trans ((BitVec.extractLsb'_append_eq_of_le (by decide)).trans BitVec.extractLsb'_eq_self)))
  have e1 : BitVec.extractLsb' (n := 24) 8 8 (0#8 ++ 0#8 ++ 0#3 ++ (Scope.code sc) ++ (FenceKind.code k)) = 0#8 :=
    (BitVec.extractLsb'_append_eq_of_le (by decide)).trans ((BitVec.extractLsb'_append_eq_of_le (by decide)).trans ((BitVec.extractLsb'_append_eq_of_le (by decide)).trans ((BitVec.extractLsb'_append_eq_of_add_le (by decide)).trans BitVec.extractLsb'_eq_self)))
  have e2 : BitVec.extractLsb' (n := 24) 5 3 (0#8 ++ 0#8 ++ 0#3 ++ (Scope.code sc) ++ (FenceKind.code k)) = 0#3 :=
    (BitVec.extractLsb'_append_eq_of_le (by decide)).trans ((BitVec.extractLsb'_append_eq_of_le (by decide)).trans ((BitVec.extractLsb'_append_eq_of_add_le (by decide)).trans BitVec.extractLsb'_eq_self))
  have e3 : BitVec.extractLsb' (n := 24) 2 3 (0#8 ++ 0#8 ++ 0#3 ++ (Scope.code sc) ++ (FenceKind.code k)) = (Scope.code sc) :=
    (BitVec.extractLsb'_append_eq_of_le (by decide)).trans ((BitVec.extractLsb'_append_eq_of_add_le (by decide)).trans BitVec.extractLsb'_eq_self)
  have e4 : BitVec.extractLsb' (n := 24) 0 2 (0#8 ++ 0#8 ++ 0#3 ++ (Scope.code sc) ++ (FenceKind.code k)) = (FenceKind.code k) :=
    (BitVec.extractLsb'_append_eq_of_add_le (by decide)).trans BitVec.extractLsb'_eq_self
  refine (decode_uniform ..).trans ?_
  change fields (chk ((BitVec.extractLsb' (n := 24) 16 8 _) == 0#8) (chk ((BitVec.extractLsb' (n := 24) 8 8 _) == 0#8) (chk ((BitVec.extractLsb' (n := 24) 5 3 _) == 0#3) ((Scope.ofCode? (BitVec.extractLsb' (n := 24) 2 3 _)).bind (fun sc => some (.fence sc (FenceKind.ofCode (BitVec.extractLsb' (n := 24) 0 2 _)))))))) = _
  rw [e0, e1, e2, e3, e4]
  simp [fields, chk]

theorem waitc a sel : Statement (.waitc a sel) := by
  intro hwf w0 hen
  obtain rfl := wordEq hen
  change (a.ok) = true at hwf
  have e0 : BitVec.extractLsb' (n := 24) 16 8 ((Opnd.code a) ++ 0#8 ++ 0#3 ++ sel) = (Opnd.code a) :=
    (BitVec.extractLsb'_append_eq_of_le (by decide)).trans ((BitVec.extractLsb'_append_eq_of_le (by decide)).trans ((BitVec.extractLsb'_append_eq_of_le (by decide)).trans BitVec.extractLsb'_eq_self))
  have e1 : BitVec.extractLsb' (n := 24) 8 8 ((Opnd.code a) ++ 0#8 ++ 0#3 ++ sel) = 0#8 :=
    (BitVec.extractLsb'_append_eq_of_le (by decide)).trans ((BitVec.extractLsb'_append_eq_of_le (by decide)).trans ((BitVec.extractLsb'_append_eq_of_add_le (by decide)).trans BitVec.extractLsb'_eq_self))
  have e2 : BitVec.extractLsb' (n := 24) 5 3 ((Opnd.code a) ++ 0#8 ++ 0#3 ++ sel) = 0#3 :=
    (BitVec.extractLsb'_append_eq_of_le (by decide)).trans ((BitVec.extractLsb'_append_eq_of_add_le (by decide)).trans BitVec.extractLsb'_eq_self)
  have e3 : BitVec.extractLsb' (n := 24) 0 5 ((Opnd.code a) ++ 0#8 ++ 0#3 ++ sel) = sel :=
    (BitVec.extractLsb'_append_eq_of_add_le (by decide)).trans BitVec.extractLsb'_eq_self
  refine (decode_uniform ..).trans ?_
  change fields (chk ((BitVec.extractLsb' (n := 24) 8 8 _) == 0#8) (chk ((BitVec.extractLsb' (n := 24) 5 3 _) == 0#3) (some (.waitc (Opnd.ofCode (BitVec.extractLsb' (n := 24) 16 8 _)) ((BitVec.extractLsb' (n := 24) 0 5 _)))))) = _
  rw [e0, e1, e2, e3]
  simp [fields, chk, Opnd.ofCode_code, hwf]

theorem monarm data addr ty : Statement (.monarm data addr ty) := by
  intro hwf w0 hen
  obtain rfl := wordEq hen
  change (data.ok) = true at hwf
  have e0 : BitVec.extractLsb' (n := 24) 16 8 ((Opnd.code data) ++ addr ++ (Ty2.code ty) ++ 0#6 ++ 0#2) = (Opnd.code data) :=
    (BitVec.extractLsb'_append_eq_of_le (by decide)).trans ((BitVec.extractLsb'_append_eq_of_le (by decide)).trans ((BitVec.extractLsb'_append_eq_of_le (by decide)).trans ((BitVec.extractLsb'_append_eq_of_le (by decide)).trans BitVec.extractLsb'_eq_self)))
  have e1 : BitVec.extractLsb' (n := 24) 11 5 ((Opnd.code data) ++ addr ++ (Ty2.code ty) ++ 0#6 ++ 0#2) = addr :=
    (BitVec.extractLsb'_append_eq_of_le (by decide)).trans ((BitVec.extractLsb'_append_eq_of_le (by decide)).trans ((BitVec.extractLsb'_append_eq_of_le (by decide)).trans ((BitVec.extractLsb'_append_eq_of_add_le (by decide)).trans BitVec.extractLsb'_eq_self)))
  have e2 : BitVec.extractLsb' (n := 24) 8 3 ((Opnd.code data) ++ addr ++ (Ty2.code ty) ++ 0#6 ++ 0#2) = (Ty2.code ty) :=
    (BitVec.extractLsb'_append_eq_of_le (by decide)).trans ((BitVec.extractLsb'_append_eq_of_le (by decide)).trans ((BitVec.extractLsb'_append_eq_of_add_le (by decide)).trans BitVec.extractLsb'_eq_self))
  have e3 : BitVec.extractLsb' (n := 24) 2 6 ((Opnd.code data) ++ addr ++ (Ty2.code ty) ++ 0#6 ++ 0#2) = 0#6 :=
    (BitVec.extractLsb'_append_eq_of_le (by decide)).trans ((BitVec.extractLsb'_append_eq_of_add_le (by decide)).trans BitVec.extractLsb'_eq_self)
  have e4 : BitVec.extractLsb' (n := 24) 0 2 ((Opnd.code data) ++ addr ++ (Ty2.code ty) ++ 0#6 ++ 0#2) = 0#2 :=
    (BitVec.extractLsb'_append_eq_of_add_le (by decide)).trans BitVec.extractLsb'_eq_self
  refine (decode_uniform ..).trans ?_
  change fields ((Ty2.ofCode? (BitVec.extractLsb' (n := 24) 8 3 _)).bind (fun ty => chk ((BitVec.extractLsb' (n := 24) 2 6 _) == 0#6) (chk ((BitVec.extractLsb' (n := 24) 0 2 _) == 0#2) (some (.monarm (Opnd.ofCode (BitVec.extractLsb' (n := 24) 16 8 _)) ((BitVec.extractLsb' (n := 24) 11 5 _)) ty))))) = _
  rw [e0, e1, e2, e3, e4]
  simp [fields, chk, Opnd.ofCode_code, hwf]

theorem monwait d ty o : Statement (.monwait d ty o) := by
  intro hwf w0 hen
  obtain rfl := wordEq hen
  have e0 : BitVec.extractLsb' (n := 24) 16 8 ((UDst.code d) ++ 0#5 ++ (Ty2.code ty) ++ (AOrd.code o) ++ 0#2) = (UDst.code d) :=
    (BitVec.extractLsb'_append_eq_of_le (by decide)).trans ((BitVec.extractLsb'_append_eq_of_le (by decide)).trans ((BitVec.extractLsb'_append_eq_of_le (by decide)).trans ((BitVec.extractLsb'_append_eq_of_le (by decide)).trans BitVec.extractLsb'_eq_self)))
  have e1 : BitVec.extractLsb' (n := 24) 11 5 ((UDst.code d) ++ 0#5 ++ (Ty2.code ty) ++ (AOrd.code o) ++ 0#2) = 0#5 :=
    (BitVec.extractLsb'_append_eq_of_le (by decide)).trans ((BitVec.extractLsb'_append_eq_of_le (by decide)).trans ((BitVec.extractLsb'_append_eq_of_le (by decide)).trans ((BitVec.extractLsb'_append_eq_of_add_le (by decide)).trans BitVec.extractLsb'_eq_self)))
  have e2 : BitVec.extractLsb' (n := 24) 8 3 ((UDst.code d) ++ 0#5 ++ (Ty2.code ty) ++ (AOrd.code o) ++ 0#2) = (Ty2.code ty) :=
    (BitVec.extractLsb'_append_eq_of_le (by decide)).trans ((BitVec.extractLsb'_append_eq_of_le (by decide)).trans ((BitVec.extractLsb'_append_eq_of_add_le (by decide)).trans BitVec.extractLsb'_eq_self))
  have e3 : BitVec.extractLsb' (n := 24) 2 6 ((UDst.code d) ++ 0#5 ++ (Ty2.code ty) ++ (AOrd.code o) ++ 0#2) = (AOrd.code o) :=
    (BitVec.extractLsb'_append_eq_of_le (by decide)).trans ((BitVec.extractLsb'_append_eq_of_add_le (by decide)).trans BitVec.extractLsb'_eq_self)
  have e4 : BitVec.extractLsb' (n := 24) 0 2 ((UDst.code d) ++ 0#5 ++ (Ty2.code ty) ++ (AOrd.code o) ++ 0#2) = 0#2 :=
    (BitVec.extractLsb'_append_eq_of_add_le (by decide)).trans BitVec.extractLsb'_eq_self
  refine (decode_uniform ..).trans ?_
  change fields ((UDst.ofCode? (BitVec.extractLsb' (n := 24) 16 8 _)).bind (fun d => chk ((BitVec.extractLsb' (n := 24) 11 5 _) == 0#5) ((Ty2.ofCode? (BitVec.extractLsb' (n := 24) 8 3 _)).bind (fun ty => (AOrd.ofCode? (BitVec.extractLsb' (n := 24) 2 6 _)).bind (fun o => chk ((BitVec.extractLsb' (n := 24) 0 2 _) == 0#2) (some (.monwait d ty o))))))) = _
  rw [e0, e1, e2, e3, e4]
  simp [fields, chk]

theorem barinit a b : Statement (.barinit a b) := by
  intro hwf w0 hen
  obtain rfl := wordEq hen
  change (a.ok && b.ok) = true at hwf
  simp only [Bool.and_eq_true] at hwf
  have e0 : BitVec.extractLsb' (n := 24) 16 8 ((Opnd.code a) ++ (Opnd.code b) ++ 0#8) = (Opnd.code a) :=
    (BitVec.extractLsb'_append_eq_of_le (by decide)).trans ((BitVec.extractLsb'_append_eq_of_le (by decide)).trans BitVec.extractLsb'_eq_self)
  have e1 : BitVec.extractLsb' (n := 24) 8 8 ((Opnd.code a) ++ (Opnd.code b) ++ 0#8) = (Opnd.code b) :=
    (BitVec.extractLsb'_append_eq_of_le (by decide)).trans ((BitVec.extractLsb'_append_eq_of_add_le (by decide)).trans BitVec.extractLsb'_eq_self)
  have e2 : BitVec.extractLsb' (n := 24) 0 8 ((Opnd.code a) ++ (Opnd.code b) ++ 0#8) = 0#8 :=
    (BitVec.extractLsb'_append_eq_of_add_le (by decide)).trans BitVec.extractLsb'_eq_self
  refine (decode_uniform ..).trans ?_
  change fields (chk ((BitVec.extractLsb' (n := 24) 0 8 _) == 0#8) (some (.barinit (Opnd.ofCode (BitVec.extractLsb' (n := 24) 16 8 _)) (Opnd.ofCode (BitVec.extractLsb' (n := 24) 8 8 _))))) = _
  rw [e0, e1, e2]
  simp [fields, chk, Opnd.ofCode_code, hwf]

theorem bararv a b : Statement (.bararv a b) := by
  intro hwf w0 hen
  obtain rfl := wordEq hen
  change (a.ok && b.ok) = true at hwf
  simp only [Bool.and_eq_true] at hwf
  have e0 : BitVec.extractLsb' (n := 24) 16 8 ((Opnd.code a) ++ (Opnd.code b) ++ 0#8) = (Opnd.code a) :=
    (BitVec.extractLsb'_append_eq_of_le (by decide)).trans ((BitVec.extractLsb'_append_eq_of_le (by decide)).trans BitVec.extractLsb'_eq_self)
  have e1 : BitVec.extractLsb' (n := 24) 8 8 ((Opnd.code a) ++ (Opnd.code b) ++ 0#8) = (Opnd.code b) :=
    (BitVec.extractLsb'_append_eq_of_le (by decide)).trans ((BitVec.extractLsb'_append_eq_of_add_le (by decide)).trans BitVec.extractLsb'_eq_self)
  have e2 : BitVec.extractLsb' (n := 24) 0 8 ((Opnd.code a) ++ (Opnd.code b) ++ 0#8) = 0#8 :=
    (BitVec.extractLsb'_append_eq_of_add_le (by decide)).trans BitVec.extractLsb'_eq_self
  refine (decode_uniform ..).trans ?_
  change fields (chk ((BitVec.extractLsb' (n := 24) 0 8 _) == 0#8) (some (.bararv (Opnd.ofCode (BitVec.extractLsb' (n := 24) 16 8 _)) (Opnd.ofCode (BitVec.extractLsb' (n := 24) 8 8 _))))) = _
  rw [e0, e1, e2]
  simp [fields, chk, Opnd.ofCode_code, hwf]

theorem barexp a b : Statement (.barexp a b) := by
  intro hwf w0 hen
  obtain rfl := wordEq hen
  change (a.ok && b.ok) = true at hwf
  simp only [Bool.and_eq_true] at hwf
  have e0 : BitVec.extractLsb' (n := 24) 16 8 ((Opnd.code a) ++ (Opnd.code b) ++ 0#8) = (Opnd.code a) :=
    (BitVec.extractLsb'_append_eq_of_le (by decide)).trans ((BitVec.extractLsb'_append_eq_of_le (by decide)).trans BitVec.extractLsb'_eq_self)
  have e1 : BitVec.extractLsb' (n := 24) 8 8 ((Opnd.code a) ++ (Opnd.code b) ++ 0#8) = (Opnd.code b) :=
    (BitVec.extractLsb'_append_eq_of_le (by decide)).trans ((BitVec.extractLsb'_append_eq_of_add_le (by decide)).trans BitVec.extractLsb'_eq_self)
  have e2 : BitVec.extractLsb' (n := 24) 0 8 ((Opnd.code a) ++ (Opnd.code b) ++ 0#8) = 0#8 :=
    (BitVec.extractLsb'_append_eq_of_add_le (by decide)).trans BitVec.extractLsb'_eq_self
  refine (decode_uniform ..).trans ?_
  change fields (chk ((BitVec.extractLsb' (n := 24) 0 8 _) == 0#8) (some (.barexp (Opnd.ofCode (BitVec.extractLsb' (n := 24) 16 8 _)) (Opnd.ofCode (BitVec.extractLsb' (n := 24) 8 8 _))))) = _
  rw [e0, e1, e2]
  simp [fields, chk, Opnd.ofCode_code, hwf]

theorem barwait a b : Statement (.barwait a b) := by
  intro hwf w0 hen
  obtain rfl := wordEq hen
  change (a.ok && b.ok) = true at hwf
  simp only [Bool.and_eq_true] at hwf
  have e0 : BitVec.extractLsb' (n := 24) 16 8 ((Opnd.code a) ++ (Opnd.code b) ++ 0#8) = (Opnd.code a) :=
    (BitVec.extractLsb'_append_eq_of_le (by decide)).trans ((BitVec.extractLsb'_append_eq_of_le (by decide)).trans BitVec.extractLsb'_eq_self)
  have e1 : BitVec.extractLsb' (n := 24) 8 8 ((Opnd.code a) ++ (Opnd.code b) ++ 0#8) = (Opnd.code b) :=
    (BitVec.extractLsb'_append_eq_of_le (by decide)).trans ((BitVec.extractLsb'_append_eq_of_add_le (by decide)).trans BitVec.extractLsb'_eq_self)
  have e2 : BitVec.extractLsb' (n := 24) 0 8 ((Opnd.code a) ++ (Opnd.code b) ++ 0#8) = 0#8 :=
    (BitVec.extractLsb'_append_eq_of_add_le (by decide)).trans BitVec.extractLsb'_eq_self
  refine (decode_uniform ..).trans ?_
  change fields (chk ((BitVec.extractLsb' (n := 24) 0 8 _) == 0#8) (some (.barwait (Opnd.ofCode (BitVec.extractLsb' (n := 24) 16 8 _)) (Opnd.ofCode (BitVec.extractLsb' (n := 24) 8 8 _))))) = _
  rw [e0, e1, e2]
  simp [fields, chk, Opnd.ofCode_code, hwf]

theorem tlwait tc x : Statement (.tlwait tc x) := by
  intro hwf w0 hen
  obtain rfl := wordEq hen
  change (x.ok) = true at hwf
  have e0 : BitVec.extractLsb' (n := 24) 20 4 (tc ++ 0#6 ++ 0#6 ++ (Opnd.code x)) = tc :=
    (BitVec.extractLsb'_append_eq_of_le (by decide)).trans ((BitVec.extractLsb'_append_eq_of_le (by decide)).trans ((BitVec.extractLsb'_append_eq_of_le (by decide)).trans BitVec.extractLsb'_eq_self))
  have e1 : BitVec.extractLsb' (n := 24) 14 6 (tc ++ 0#6 ++ 0#6 ++ (Opnd.code x)) = 0#6 :=
    (BitVec.extractLsb'_append_eq_of_le (by decide)).trans ((BitVec.extractLsb'_append_eq_of_le (by decide)).trans ((BitVec.extractLsb'_append_eq_of_add_le (by decide)).trans BitVec.extractLsb'_eq_self))
  have e2 : BitVec.extractLsb' (n := 24) 8 6 (tc ++ 0#6 ++ 0#6 ++ (Opnd.code x)) = 0#6 :=
    (BitVec.extractLsb'_append_eq_of_le (by decide)).trans ((BitVec.extractLsb'_append_eq_of_add_le (by decide)).trans BitVec.extractLsb'_eq_self)
  have e3 : BitVec.extractLsb' (n := 24) 0 8 (tc ++ 0#6 ++ 0#6 ++ (Opnd.code x)) = (Opnd.code x) :=
    (BitVec.extractLsb'_append_eq_of_add_le (by decide)).trans BitVec.extractLsb'_eq_self
  refine (decode_uniform ..).trans ?_
  change fields (chk ((BitVec.extractLsb' (n := 24) 14 6 _) == 0#6) (chk ((BitVec.extractLsb' (n := 24) 8 6 _) == 0#6) (some (.tlwait ((BitVec.extractLsb' (n := 24) 20 4 _)) (Opnd.ofCode (BitVec.extractLsb' (n := 24) 0 8 _)))))) = _
  rw [e0, e1, e2, e3]
  simp [fields, chk, Opnd.ofCode_code, hwf]

theorem tlqry tc d : Statement (.tlqry tc d) := by
  intro hwf w0 hen
  obtain rfl := wordEq hen
  have e0 : BitVec.extractLsb' (n := 24) 20 4 (tc ++ 0#6 ++ 0#6 ++ (UDst.code d)) = tc :=
    (BitVec.extractLsb'_append_eq_of_le (by decide)).trans ((BitVec.extractLsb'_append_eq_of_le (by decide)).trans ((BitVec.extractLsb'_append_eq_of_le (by decide)).trans BitVec.extractLsb'_eq_self))
  have e1 : BitVec.extractLsb' (n := 24) 14 6 (tc ++ 0#6 ++ 0#6 ++ (UDst.code d)) = 0#6 :=
    (BitVec.extractLsb'_append_eq_of_le (by decide)).trans ((BitVec.extractLsb'_append_eq_of_le (by decide)).trans ((BitVec.extractLsb'_append_eq_of_add_le (by decide)).trans BitVec.extractLsb'_eq_self))
  have e2 : BitVec.extractLsb' (n := 24) 8 6 (tc ++ 0#6 ++ 0#6 ++ (UDst.code d)) = 0#6 :=
    (BitVec.extractLsb'_append_eq_of_le (by decide)).trans ((BitVec.extractLsb'_append_eq_of_add_le (by decide)).trans BitVec.extractLsb'_eq_self)
  have e3 : BitVec.extractLsb' (n := 24) 0 8 (tc ++ 0#6 ++ 0#6 ++ (UDst.code d)) = (UDst.code d) :=
    (BitVec.extractLsb'_append_eq_of_add_le (by decide)).trans BitVec.extractLsb'_eq_self
  refine (decode_uniform ..).trans ?_
  change fields (chk ((BitVec.extractLsb' (n := 24) 14 6 _) == 0#6) (chk ((BitVec.extractLsb' (n := 24) 8 6 _) == 0#6) ((UDst.ofCode? (BitVec.extractLsb' (n := 24) 0 8 _)).bind (fun d => some (.tlqry ((BitVec.extractLsb' (n := 24) 20 4 _)) d))))) = _
  rw [e0, e1, e2, e3]
  simp [fields, chk]

theorem tdef h n : Statement (.tdef h n) := by
  intro hwf w0 hen
  obtain rfl := wordEq hen
  have e0 : BitVec.extractLsb' (n := 24) 20 4 (0#4 ++ h ++ 0#6 ++ 0#3 ++ n) = 0#4 :=
    (BitVec.extractLsb'_append_eq_of_le (by decide)).trans ((BitVec.extractLsb'_append_eq_of_le (by decide)).trans ((BitVec.extractLsb'_append_eq_of_le (by decide)).trans ((BitVec.extractLsb'_append_eq_of_le (by decide)).trans BitVec.extractLsb'_eq_self)))
  have e1 : BitVec.extractLsb' (n := 24) 14 6 (0#4 ++ h ++ 0#6 ++ 0#3 ++ n) = h :=
    (BitVec.extractLsb'_append_eq_of_le (by decide)).trans ((BitVec.extractLsb'_append_eq_of_le (by decide)).trans ((BitVec.extractLsb'_append_eq_of_le (by decide)).trans ((BitVec.extractLsb'_append_eq_of_add_le (by decide)).trans BitVec.extractLsb'_eq_self)))
  have e2 : BitVec.extractLsb' (n := 24) 8 6 (0#4 ++ h ++ 0#6 ++ 0#3 ++ n) = 0#6 :=
    (BitVec.extractLsb'_append_eq_of_le (by decide)).trans ((BitVec.extractLsb'_append_eq_of_le (by decide)).trans ((BitVec.extractLsb'_append_eq_of_add_le (by decide)).trans BitVec.extractLsb'_eq_self))
  have e3 : BitVec.extractLsb' (n := 24) 5 3 (0#4 ++ h ++ 0#6 ++ 0#3 ++ n) = 0#3 :=
    (BitVec.extractLsb'_append_eq_of_le (by decide)).trans ((BitVec.extractLsb'_append_eq_of_add_le (by decide)).trans BitVec.extractLsb'_eq_self)
  have e4 : BitVec.extractLsb' (n := 24) 0 5 (0#4 ++ h ++ 0#6 ++ 0#3 ++ n) = n :=
    (BitVec.extractLsb'_append_eq_of_add_le (by decide)).trans BitVec.extractLsb'_eq_self
  refine (decode_uniform ..).trans ?_
  change fields (chk ((BitVec.extractLsb' (n := 24) 20 4 _) == 0#4) (chk ((BitVec.extractLsb' (n := 24) 8 6 _) == 0#6) (chk ((BitVec.extractLsb' (n := 24) 5 3 _) == 0#3) (some (.tdef ((BitVec.extractLsb' (n := 24) 14 6 _)) ((BitVec.extractLsb' (n := 24) 0 5 _))))))) = _
  rw [e0, e1, e2, e3, e4]
  simp [fields, chk]

theorem copy tc hd hs stamp bar link n : Statement (.copy tc hd hs stamp bar link n) := by
  intro hwf w0 hen
  obtain rfl := wordEq hen
  have e0 : BitVec.extractLsb' (n := 24) 20 4 (tc ++ hd ++ hs ++ (BitVec.ofBool stamp) ++ (BitVec.ofBool bar) ++ (BitVec.ofBool link) ++ n) = tc :=
    (BitVec.extractLsb'_append_eq_of_le (by decide)).trans ((BitVec.extractLsb'_append_eq_of_le (by decide)).trans ((BitVec.extractLsb'_append_eq_of_le (by decide)).trans ((BitVec.extractLsb'_append_eq_of_le (by decide)).trans ((BitVec.extractLsb'_append_eq_of_le (by decide)).trans ((BitVec.extractLsb'_append_eq_of_le (by decide)).trans BitVec.extractLsb'_eq_self)))))
  have e1 : BitVec.extractLsb' (n := 24) 14 6 (tc ++ hd ++ hs ++ (BitVec.ofBool stamp) ++ (BitVec.ofBool bar) ++ (BitVec.ofBool link) ++ n) = hd :=
    (BitVec.extractLsb'_append_eq_of_le (by decide)).trans ((BitVec.extractLsb'_append_eq_of_le (by decide)).trans ((BitVec.extractLsb'_append_eq_of_le (by decide)).trans ((BitVec.extractLsb'_append_eq_of_le (by decide)).trans ((BitVec.extractLsb'_append_eq_of_le (by decide)).trans ((BitVec.extractLsb'_append_eq_of_add_le (by decide)).trans BitVec.extractLsb'_eq_self)))))
  have e2 : BitVec.extractLsb' (n := 24) 8 6 (tc ++ hd ++ hs ++ (BitVec.ofBool stamp) ++ (BitVec.ofBool bar) ++ (BitVec.ofBool link) ++ n) = hs :=
    (BitVec.extractLsb'_append_eq_of_le (by decide)).trans ((BitVec.extractLsb'_append_eq_of_le (by decide)).trans ((BitVec.extractLsb'_append_eq_of_le (by decide)).trans ((BitVec.extractLsb'_append_eq_of_le (by decide)).trans ((BitVec.extractLsb'_append_eq_of_add_le (by decide)).trans BitVec.extractLsb'_eq_self))))
  have e3 : BitVec.extractLsb' (n := 24) 7 1 (tc ++ hd ++ hs ++ (BitVec.ofBool stamp) ++ (BitVec.ofBool bar) ++ (BitVec.ofBool link) ++ n) = (BitVec.ofBool stamp) :=
    (BitVec.extractLsb'_append_eq_of_le (by decide)).trans ((BitVec.extractLsb'_append_eq_of_le (by decide)).trans ((BitVec.extractLsb'_append_eq_of_le (by decide)).trans ((BitVec.extractLsb'_append_eq_of_add_le (by decide)).trans BitVec.extractLsb'_eq_self)))
  have e4 : BitVec.extractLsb' (n := 24) 6 1 (tc ++ hd ++ hs ++ (BitVec.ofBool stamp) ++ (BitVec.ofBool bar) ++ (BitVec.ofBool link) ++ n) = (BitVec.ofBool bar) :=
    (BitVec.extractLsb'_append_eq_of_le (by decide)).trans ((BitVec.extractLsb'_append_eq_of_le (by decide)).trans ((BitVec.extractLsb'_append_eq_of_add_le (by decide)).trans BitVec.extractLsb'_eq_self))
  have e5 : BitVec.extractLsb' (n := 24) 5 1 (tc ++ hd ++ hs ++ (BitVec.ofBool stamp) ++ (BitVec.ofBool bar) ++ (BitVec.ofBool link) ++ n) = (BitVec.ofBool link) :=
    (BitVec.extractLsb'_append_eq_of_le (by decide)).trans ((BitVec.extractLsb'_append_eq_of_add_le (by decide)).trans BitVec.extractLsb'_eq_self)
  have e6 : BitVec.extractLsb' (n := 24) 0 5 (tc ++ hd ++ hs ++ (BitVec.ofBool stamp) ++ (BitVec.ofBool bar) ++ (BitVec.ofBool link) ++ n) = n :=
    (BitVec.extractLsb'_append_eq_of_add_le (by decide)).trans BitVec.extractLsb'_eq_self
  refine (decode_uniform ..).trans ?_
  change fields (some (.copy ((BitVec.extractLsb' (n := 24) 20 4 _)) ((BitVec.extractLsb' (n := 24) 14 6 _)) ((BitVec.extractLsb' (n := 24) 8 6 _)) ((BitVec.extractLsb' (n := 24) 7 1 _) == 1#1) ((BitVec.extractLsb' (n := 24) 6 1 _) == 1#1) ((BitVec.extractLsb' (n := 24) 5 1 _) == 1#1) ((BitVec.extractLsb' (n := 24) 0 5 _)))) = _
  rw [e0, e1, e2, e3, e4, e5, e6]
  simp [fields]

theorem copym tc hd hs bar link n : Statement (.copym tc hd hs bar link n) := by
  intro hwf w0 hen
  obtain rfl := wordEq hen
  have e0 : BitVec.extractLsb' (n := 24) 20 4 (tc ++ hd ++ hs ++ 0#1 ++ (BitVec.ofBool bar) ++ (BitVec.ofBool link) ++ n) = tc :=
    (BitVec.extractLsb'_append_eq_of_le (by decide)).trans ((BitVec.extractLsb'_append_eq_of_le (by decide)).trans ((BitVec.extractLsb'_append_eq_of_le (by decide)).trans ((BitVec.extractLsb'_append_eq_of_le (by decide)).trans ((BitVec.extractLsb'_append_eq_of_le (by decide)).trans ((BitVec.extractLsb'_append_eq_of_le (by decide)).trans BitVec.extractLsb'_eq_self)))))
  have e1 : BitVec.extractLsb' (n := 24) 14 6 (tc ++ hd ++ hs ++ 0#1 ++ (BitVec.ofBool bar) ++ (BitVec.ofBool link) ++ n) = hd :=
    (BitVec.extractLsb'_append_eq_of_le (by decide)).trans ((BitVec.extractLsb'_append_eq_of_le (by decide)).trans ((BitVec.extractLsb'_append_eq_of_le (by decide)).trans ((BitVec.extractLsb'_append_eq_of_le (by decide)).trans ((BitVec.extractLsb'_append_eq_of_le (by decide)).trans ((BitVec.extractLsb'_append_eq_of_add_le (by decide)).trans BitVec.extractLsb'_eq_self)))))
  have e2 : BitVec.extractLsb' (n := 24) 8 6 (tc ++ hd ++ hs ++ 0#1 ++ (BitVec.ofBool bar) ++ (BitVec.ofBool link) ++ n) = hs :=
    (BitVec.extractLsb'_append_eq_of_le (by decide)).trans ((BitVec.extractLsb'_append_eq_of_le (by decide)).trans ((BitVec.extractLsb'_append_eq_of_le (by decide)).trans ((BitVec.extractLsb'_append_eq_of_le (by decide)).trans ((BitVec.extractLsb'_append_eq_of_add_le (by decide)).trans BitVec.extractLsb'_eq_self))))
  have e3 : BitVec.extractLsb' (n := 24) 7 1 (tc ++ hd ++ hs ++ 0#1 ++ (BitVec.ofBool bar) ++ (BitVec.ofBool link) ++ n) = 0#1 :=
    (BitVec.extractLsb'_append_eq_of_le (by decide)).trans ((BitVec.extractLsb'_append_eq_of_le (by decide)).trans ((BitVec.extractLsb'_append_eq_of_le (by decide)).trans ((BitVec.extractLsb'_append_eq_of_add_le (by decide)).trans BitVec.extractLsb'_eq_self)))
  have e4 : BitVec.extractLsb' (n := 24) 6 1 (tc ++ hd ++ hs ++ 0#1 ++ (BitVec.ofBool bar) ++ (BitVec.ofBool link) ++ n) = (BitVec.ofBool bar) :=
    (BitVec.extractLsb'_append_eq_of_le (by decide)).trans ((BitVec.extractLsb'_append_eq_of_le (by decide)).trans ((BitVec.extractLsb'_append_eq_of_add_le (by decide)).trans BitVec.extractLsb'_eq_self))
  have e5 : BitVec.extractLsb' (n := 24) 5 1 (tc ++ hd ++ hs ++ 0#1 ++ (BitVec.ofBool bar) ++ (BitVec.ofBool link) ++ n) = (BitVec.ofBool link) :=
    (BitVec.extractLsb'_append_eq_of_le (by decide)).trans ((BitVec.extractLsb'_append_eq_of_add_le (by decide)).trans BitVec.extractLsb'_eq_self)
  have e6 : BitVec.extractLsb' (n := 24) 0 5 (tc ++ hd ++ hs ++ 0#1 ++ (BitVec.ofBool bar) ++ (BitVec.ofBool link) ++ n) = n :=
    (BitVec.extractLsb'_append_eq_of_add_le (by decide)).trans BitVec.extractLsb'_eq_self
  refine (decode_uniform ..).trans ?_
  change fields (chk ((BitVec.extractLsb' (n := 24) 7 1 _) == 0#1) (some (.copym ((BitVec.extractLsb' (n := 24) 20 4 _)) ((BitVec.extractLsb' (n := 24) 14 6 _)) ((BitVec.extractLsb' (n := 24) 8 6 _)) ((BitVec.extractLsb' (n := 24) 6 1 _) == 1#1) ((BitVec.extractLsb' (n := 24) 5 1 _) == 1#1) ((BitVec.extractLsb' (n := 24) 0 5 _))))) = _
  rw [e0, e1, e2, e3, e4, e5, e6]
  simp [fields, chk]

theorem copys tc hd hs n : Statement (.copys tc hd hs n) := by
  intro hwf w0 hen
  obtain rfl := wordEq hen
  have e0 : BitVec.extractLsb' (n := 24) 20 4 (tc ++ hd ++ hs ++ 0#3 ++ n) = tc :=
    (BitVec.extractLsb'_append_eq_of_le (by decide)).trans ((BitVec.extractLsb'_append_eq_of_le (by decide)).trans ((BitVec.extractLsb'_append_eq_of_le (by decide)).trans ((BitVec.extractLsb'_append_eq_of_le (by decide)).trans BitVec.extractLsb'_eq_self)))
  have e1 : BitVec.extractLsb' (n := 24) 14 6 (tc ++ hd ++ hs ++ 0#3 ++ n) = hd :=
    (BitVec.extractLsb'_append_eq_of_le (by decide)).trans ((BitVec.extractLsb'_append_eq_of_le (by decide)).trans ((BitVec.extractLsb'_append_eq_of_le (by decide)).trans ((BitVec.extractLsb'_append_eq_of_add_le (by decide)).trans BitVec.extractLsb'_eq_self)))
  have e2 : BitVec.extractLsb' (n := 24) 8 6 (tc ++ hd ++ hs ++ 0#3 ++ n) = hs :=
    (BitVec.extractLsb'_append_eq_of_le (by decide)).trans ((BitVec.extractLsb'_append_eq_of_le (by decide)).trans ((BitVec.extractLsb'_append_eq_of_add_le (by decide)).trans BitVec.extractLsb'_eq_self))
  have e3 : BitVec.extractLsb' (n := 24) 5 3 (tc ++ hd ++ hs ++ 0#3 ++ n) = 0#3 :=
    (BitVec.extractLsb'_append_eq_of_le (by decide)).trans ((BitVec.extractLsb'_append_eq_of_add_le (by decide)).trans BitVec.extractLsb'_eq_self)
  have e4 : BitVec.extractLsb' (n := 24) 0 5 (tc ++ hd ++ hs ++ 0#3 ++ n) = n :=
    (BitVec.extractLsb'_append_eq_of_add_le (by decide)).trans BitVec.extractLsb'_eq_self
  refine (decode_uniform ..).trans ?_
  change fields (chk ((BitVec.extractLsb' (n := 24) 5 3 _) == 0#3) (some (.copys ((BitVec.extractLsb' (n := 24) 20 4 _)) ((BitVec.extractLsb' (n := 24) 14 6 _)) ((BitVec.extractLsb' (n := 24) 8 6 _)) ((BitVec.extractLsb' (n := 24) 0 5 _))))) = _
  rw [e0, e1, e2, e3, e4]
  simp [fields, chk]

theorem copyr tc hd hs n : Statement (.copyr tc hd hs n) := by
  intro hwf w0 hen
  obtain rfl := wordEq hen
  have e0 : BitVec.extractLsb' (n := 24) 20 4 (tc ++ hd ++ hs ++ 0#3 ++ n) = tc :=
    (BitVec.extractLsb'_append_eq_of_le (by decide)).trans ((BitVec.extractLsb'_append_eq_of_le (by decide)).trans ((BitVec.extractLsb'_append_eq_of_le (by decide)).trans ((BitVec.extractLsb'_append_eq_of_le (by decide)).trans BitVec.extractLsb'_eq_self)))
  have e1 : BitVec.extractLsb' (n := 24) 14 6 (tc ++ hd ++ hs ++ 0#3 ++ n) = hd :=
    (BitVec.extractLsb'_append_eq_of_le (by decide)).trans ((BitVec.extractLsb'_append_eq_of_le (by decide)).trans ((BitVec.extractLsb'_append_eq_of_le (by decide)).trans ((BitVec.extractLsb'_append_eq_of_add_le (by decide)).trans BitVec.extractLsb'_eq_self)))
  have e2 : BitVec.extractLsb' (n := 24) 8 6 (tc ++ hd ++ hs ++ 0#3 ++ n) = hs :=
    (BitVec.extractLsb'_append_eq_of_le (by decide)).trans ((BitVec.extractLsb'_append_eq_of_le (by decide)).trans ((BitVec.extractLsb'_append_eq_of_add_le (by decide)).trans BitVec.extractLsb'_eq_self))
  have e3 : BitVec.extractLsb' (n := 24) 5 3 (tc ++ hd ++ hs ++ 0#3 ++ n) = 0#3 :=
    (BitVec.extractLsb'_append_eq_of_le (by decide)).trans ((BitVec.extractLsb'_append_eq_of_add_le (by decide)).trans BitVec.extractLsb'_eq_self)
  have e4 : BitVec.extractLsb' (n := 24) 0 5 (tc ++ hd ++ hs ++ 0#3 ++ n) = n :=
    (BitVec.extractLsb'_append_eq_of_add_le (by decide)).trans BitVec.extractLsb'_eq_self
  refine (decode_uniform ..).trans ?_
  change fields (chk ((BitVec.extractLsb' (n := 24) 5 3 _) == 0#3) (some (.copyr ((BitVec.extractLsb' (n := 24) 20 4 _)) ((BitVec.extractLsb' (n := 24) 14 6 _)) ((BitVec.extractLsb' (n := 24) 8 6 _)) ((BitVec.extractLsb' (n := 24) 0 5 _))))) = _
  rw [e0, e1, e2, e3, e4]
  simp [fields, chk]

theorem mload tc h n : Statement (.mload tc h n) := by
  intro hwf w0 hen
  obtain rfl := wordEq hen
  have e0 : BitVec.extractLsb' (n := 24) 20 4 (tc ++ h ++ 0#6 ++ 0#3 ++ n) = tc :=
    (BitVec.extractLsb'_append_eq_of_le (by decide)).trans ((BitVec.extractLsb'_append_eq_of_le (by decide)).trans ((BitVec.extractLsb'_append_eq_of_le (by decide)).trans ((BitVec.extractLsb'_append_eq_of_le (by decide)).trans BitVec.extractLsb'_eq_self)))
  have e1 : BitVec.extractLsb' (n := 24) 14 6 (tc ++ h ++ 0#6 ++ 0#3 ++ n) = h :=
    (BitVec.extractLsb'_append_eq_of_le (by decide)).trans ((BitVec.extractLsb'_append_eq_of_le (by decide)).trans ((BitVec.extractLsb'_append_eq_of_le (by decide)).trans ((BitVec.extractLsb'_append_eq_of_add_le (by decide)).trans BitVec.extractLsb'_eq_self)))
  have e2 : BitVec.extractLsb' (n := 24) 8 6 (tc ++ h ++ 0#6 ++ 0#3 ++ n) = 0#6 :=
    (BitVec.extractLsb'_append_eq_of_le (by decide)).trans ((BitVec.extractLsb'_append_eq_of_le (by decide)).trans ((BitVec.extractLsb'_append_eq_of_add_le (by decide)).trans BitVec.extractLsb'_eq_self))
  have e3 : BitVec.extractLsb' (n := 24) 5 3 (tc ++ h ++ 0#6 ++ 0#3 ++ n) = 0#3 :=
    (BitVec.extractLsb'_append_eq_of_le (by decide)).trans ((BitVec.extractLsb'_append_eq_of_add_le (by decide)).trans BitVec.extractLsb'_eq_self)
  have e4 : BitVec.extractLsb' (n := 24) 0 5 (tc ++ h ++ 0#6 ++ 0#3 ++ n) = n :=
    (BitVec.extractLsb'_append_eq_of_add_le (by decide)).trans BitVec.extractLsb'_eq_self
  refine (decode_uniform ..).trans ?_
  change fields (chk ((BitVec.extractLsb' (n := 24) 8 6 _) == 0#6) (chk ((BitVec.extractLsb' (n := 24) 5 3 _) == 0#3) (some (.mload ((BitVec.extractLsb' (n := 24) 20 4 _)) ((BitVec.extractLsb' (n := 24) 14 6 _)) ((BitVec.extractLsb' (n := 24) 0 5 _)))))) = _
  rw [e0, e1, e2, e3, e4]
  simp [fields, chk]

theorem mswap tc mask : Statement (.mswap tc mask) := by
  intro hwf w0 hen
  obtain rfl := wordEq hen
  have e0 : BitVec.extractLsb' (n := 24) 20 4 (tc ++ 0#6 ++ 0#6 ++ 0#4 ++ mask) = tc :=
    (BitVec.extractLsb'_append_eq_of_le (by decide)).trans ((BitVec.extractLsb'_append_eq_of_le (by decide)).trans ((BitVec.extractLsb'_append_eq_of_le (by decide)).trans ((BitVec.extractLsb'_append_eq_of_le (by decide)).trans BitVec.extractLsb'_eq_self)))
  have e1 : BitVec.extractLsb' (n := 24) 14 6 (tc ++ 0#6 ++ 0#6 ++ 0#4 ++ mask) = 0#6 :=
    (BitVec.extractLsb'_append_eq_of_le (by decide)).trans ((BitVec.extractLsb'_append_eq_of_le (by decide)).trans ((BitVec.extractLsb'_append_eq_of_le (by decide)).trans ((BitVec.extractLsb'_append_eq_of_add_le (by decide)).trans BitVec.extractLsb'_eq_self)))
  have e2 : BitVec.extractLsb' (n := 24) 8 6 (tc ++ 0#6 ++ 0#6 ++ 0#4 ++ mask) = 0#6 :=
    (BitVec.extractLsb'_append_eq_of_le (by decide)).trans ((BitVec.extractLsb'_append_eq_of_le (by decide)).trans ((BitVec.extractLsb'_append_eq_of_add_le (by decide)).trans BitVec.extractLsb'_eq_self))
  have e3 : BitVec.extractLsb' (n := 24) 4 4 (tc ++ 0#6 ++ 0#6 ++ 0#4 ++ mask) = 0#4 :=
    (BitVec.extractLsb'_append_eq_of_le (by decide)).trans ((BitVec.extractLsb'_append_eq_of_add_le (by decide)).trans BitVec.extractLsb'_eq_self)
  have e4 : BitVec.extractLsb' (n := 24) 0 4 (tc ++ 0#6 ++ 0#6 ++ 0#4 ++ mask) = mask :=
    (BitVec.extractLsb'_append_eq_of_add_le (by decide)).trans BitVec.extractLsb'_eq_self
  refine (decode_uniform ..).trans ?_
  change fields (chk ((BitVec.extractLsb' (n := 24) 14 6 _) == 0#6) (chk ((BitVec.extractLsb' (n := 24) 8 6 _) == 0#6) (chk ((BitVec.extractLsb' (n := 24) 4 4 _) == 0#4) (some (.mswap ((BitVec.extractLsb' (n := 24) 20 4 _)) ((BitVec.extractLsb' (n := 24) 0 4 _))))))) = _
  rw [e0, e1, e2, e3, e4]
  simp [fields, chk]

theorem mmul tc hd hs n : Statement (.mmul tc hd hs n) := by
  intro hwf w0 hen
  obtain rfl := wordEq hen
  have e0 : BitVec.extractLsb' (n := 24) 20 4 (tc ++ hd ++ hs ++ 0#3 ++ n) = tc :=
    (BitVec.extractLsb'_append_eq_of_le (by decide)).trans ((BitVec.extractLsb'_append_eq_of_le (by decide)).trans ((BitVec.extractLsb'_append_eq_of_le (by decide)).trans ((BitVec.extractLsb'_append_eq_of_le (by decide)).trans BitVec.extractLsb'_eq_self)))
  have e1 : BitVec.extractLsb' (n := 24) 14 6 (tc ++ hd ++ hs ++ 0#3 ++ n) = hd :=
    (BitVec.extractLsb'_append_eq_of_le (by decide)).trans ((BitVec.extractLsb'_append_eq_of_le (by decide)).trans ((BitVec.extractLsb'_append_eq_of_le (by decide)).trans ((BitVec.extractLsb'_append_eq_of_add_le (by decide)).trans BitVec.extractLsb'_eq_self)))
  have e2 : BitVec.extractLsb' (n := 24) 8 6 (tc ++ hd ++ hs ++ 0#3 ++ n) = hs :=
    (BitVec.extractLsb'_append_eq_of_le (by decide)).trans ((BitVec.extractLsb'_append_eq_of_le (by decide)).trans ((BitVec.extractLsb'_append_eq_of_add_le (by decide)).trans BitVec.extractLsb'_eq_self))
  have e3 : BitVec.extractLsb' (n := 24) 5 3 (tc ++ hd ++ hs ++ 0#3 ++ n) = 0#3 :=
    (BitVec.extractLsb'_append_eq_of_le (by decide)).trans ((BitVec.extractLsb'_append_eq_of_add_le (by decide)).trans BitVec.extractLsb'_eq_self)
  have e4 : BitVec.extractLsb' (n := 24) 0 5 (tc ++ hd ++ hs ++ 0#3 ++ n) = n :=
    (BitVec.extractLsb'_append_eq_of_add_le (by decide)).trans BitVec.extractLsb'_eq_self
  refine (decode_uniform ..).trans ?_
  change fields (chk ((BitVec.extractLsb' (n := 24) 5 3 _) == 0#3) (some (.mmul ((BitVec.extractLsb' (n := 24) 20 4 _)) ((BitVec.extractLsb' (n := 24) 14 6 _)) ((BitVec.extractLsb' (n := 24) 8 6 _)) ((BitVec.extractLsb' (n := 24) 0 5 _))))) = _
  rw [e0, e1, e2, e3, e4]
  simp [fields, chk]

theorem accz tc h : Statement (.accz tc h) := by
  intro hwf w0 hen
  obtain rfl := wordEq hen
  have e0 : BitVec.extractLsb' (n := 24) 20 4 (tc ++ h ++ 0#6 ++ 0#8) = tc :=
    (BitVec.extractLsb'_append_eq_of_le (by decide)).trans ((BitVec.extractLsb'_append_eq_of_le (by decide)).trans ((BitVec.extractLsb'_append_eq_of_le (by decide)).trans BitVec.extractLsb'_eq_self))
  have e1 : BitVec.extractLsb' (n := 24) 14 6 (tc ++ h ++ 0#6 ++ 0#8) = h :=
    (BitVec.extractLsb'_append_eq_of_le (by decide)).trans ((BitVec.extractLsb'_append_eq_of_le (by decide)).trans ((BitVec.extractLsb'_append_eq_of_add_le (by decide)).trans BitVec.extractLsb'_eq_self))
  have e2 : BitVec.extractLsb' (n := 24) 8 6 (tc ++ h ++ 0#6 ++ 0#8) = 0#6 :=
    (BitVec.extractLsb'_append_eq_of_le (by decide)).trans ((BitVec.extractLsb'_append_eq_of_add_le (by decide)).trans BitVec.extractLsb'_eq_self)
  have e3 : BitVec.extractLsb' (n := 24) 0 8 (tc ++ h ++ 0#6 ++ 0#8) = 0#8 :=
    (BitVec.extractLsb'_append_eq_of_add_le (by decide)).trans BitVec.extractLsb'_eq_self
  refine (decode_uniform ..).trans ?_
  change fields (chk ((BitVec.extractLsb' (n := 24) 8 6 _) == 0#6) (chk ((BitVec.extractLsb' (n := 24) 0 8 _) == 0#8) (some (.accz ((BitVec.extractLsb' (n := 24) 20 4 _)) ((BitVec.extractLsb' (n := 24) 14 6 _)))))) = _
  rw [e0, e1, e2, e3]
  simp [fields, chk]

theorem accdrn tc hd hs z n : Statement (.accdrn tc hd hs z n) := by
  intro hwf w0 hen
  obtain rfl := wordEq hen
  have e0 : BitVec.extractLsb' (n := 24) 20 4 (tc ++ hd ++ hs ++ 0#2 ++ (BitVec.ofBool z) ++ n) = tc :=
    (BitVec.extractLsb'_append_eq_of_le (by decide)).trans ((BitVec.extractLsb'_append_eq_of_le (by decide)).trans ((BitVec.extractLsb'_append_eq_of_le (by decide)).trans ((BitVec.extractLsb'_append_eq_of_le (by decide)).trans ((BitVec.extractLsb'_append_eq_of_le (by decide)).trans BitVec.extractLsb'_eq_self))))
  have e1 : BitVec.extractLsb' (n := 24) 14 6 (tc ++ hd ++ hs ++ 0#2 ++ (BitVec.ofBool z) ++ n) = hd :=
    (BitVec.extractLsb'_append_eq_of_le (by decide)).trans ((BitVec.extractLsb'_append_eq_of_le (by decide)).trans ((BitVec.extractLsb'_append_eq_of_le (by decide)).trans ((BitVec.extractLsb'_append_eq_of_le (by decide)).trans ((BitVec.extractLsb'_append_eq_of_add_le (by decide)).trans BitVec.extractLsb'_eq_self))))
  have e2 : BitVec.extractLsb' (n := 24) 8 6 (tc ++ hd ++ hs ++ 0#2 ++ (BitVec.ofBool z) ++ n) = hs :=
    (BitVec.extractLsb'_append_eq_of_le (by decide)).trans ((BitVec.extractLsb'_append_eq_of_le (by decide)).trans ((BitVec.extractLsb'_append_eq_of_le (by decide)).trans ((BitVec.extractLsb'_append_eq_of_add_le (by decide)).trans BitVec.extractLsb'_eq_self)))
  have e3 : BitVec.extractLsb' (n := 24) 6 2 (tc ++ hd ++ hs ++ 0#2 ++ (BitVec.ofBool z) ++ n) = 0#2 :=
    (BitVec.extractLsb'_append_eq_of_le (by decide)).trans ((BitVec.extractLsb'_append_eq_of_le (by decide)).trans ((BitVec.extractLsb'_append_eq_of_add_le (by decide)).trans BitVec.extractLsb'_eq_self))
  have e4 : BitVec.extractLsb' (n := 24) 5 1 (tc ++ hd ++ hs ++ 0#2 ++ (BitVec.ofBool z) ++ n) = (BitVec.ofBool z) :=
    (BitVec.extractLsb'_append_eq_of_le (by decide)).trans ((BitVec.extractLsb'_append_eq_of_add_le (by decide)).trans BitVec.extractLsb'_eq_self)
  have e5 : BitVec.extractLsb' (n := 24) 0 5 (tc ++ hd ++ hs ++ 0#2 ++ (BitVec.ofBool z) ++ n) = n :=
    (BitVec.extractLsb'_append_eq_of_add_le (by decide)).trans BitVec.extractLsb'_eq_self
  refine (decode_uniform ..).trans ?_
  change fields (chk ((BitVec.extractLsb' (n := 24) 6 2 _) == 0#2) (some (.accdrn ((BitVec.extractLsb' (n := 24) 20 4 _)) ((BitVec.extractLsb' (n := 24) 14 6 _)) ((BitVec.extractLsb' (n := 24) 8 6 _)) ((BitVec.extractLsb' (n := 24) 5 1 _) == 1#1) ((BitVec.extractLsb' (n := 24) 0 5 _))))) = _
  rw [e0, e1, e2, e3, e4, e5]
  simp [fields, chk]

theorem accmov st reg x : Statement (.accmov st reg x) := by
  intro hwf w0 hen
  obtain rfl := wordEq hen
  change (x.ok) = true at hwf
  have e0 : BitVec.extractLsb' (n := 24) 20 4 (0#4 ++ (BitVec.ofBool st) ++ reg ++ 0#6 ++ (Opnd.code x)) = 0#4 :=
    (BitVec.extractLsb'_append_eq_of_le (by decide)).trans ((BitVec.extractLsb'_append_eq_of_le (by decide)).trans ((BitVec.extractLsb'_append_eq_of_le (by decide)).trans ((BitVec.extractLsb'_append_eq_of_le (by decide)).trans BitVec.extractLsb'_eq_self)))
  have e1 : BitVec.extractLsb' (n := 24) 19 1 (0#4 ++ (BitVec.ofBool st) ++ reg ++ 0#6 ++ (Opnd.code x)) = (BitVec.ofBool st) :=
    (BitVec.extractLsb'_append_eq_of_le (by decide)).trans ((BitVec.extractLsb'_append_eq_of_le (by decide)).trans ((BitVec.extractLsb'_append_eq_of_le (by decide)).trans ((BitVec.extractLsb'_append_eq_of_add_le (by decide)).trans BitVec.extractLsb'_eq_self)))
  have e2 : BitVec.extractLsb' (n := 24) 14 5 (0#4 ++ (BitVec.ofBool st) ++ reg ++ 0#6 ++ (Opnd.code x)) = reg :=
    (BitVec.extractLsb'_append_eq_of_le (by decide)).trans ((BitVec.extractLsb'_append_eq_of_le (by decide)).trans ((BitVec.extractLsb'_append_eq_of_add_le (by decide)).trans BitVec.extractLsb'_eq_self))
  have e3 : BitVec.extractLsb' (n := 24) 8 6 (0#4 ++ (BitVec.ofBool st) ++ reg ++ 0#6 ++ (Opnd.code x)) = 0#6 :=
    (BitVec.extractLsb'_append_eq_of_le (by decide)).trans ((BitVec.extractLsb'_append_eq_of_add_le (by decide)).trans BitVec.extractLsb'_eq_self)
  have e4 : BitVec.extractLsb' (n := 24) 0 8 (0#4 ++ (BitVec.ofBool st) ++ reg ++ 0#6 ++ (Opnd.code x)) = (Opnd.code x) :=
    (BitVec.extractLsb'_append_eq_of_add_le (by decide)).trans BitVec.extractLsb'_eq_self
  refine (decode_uniform ..).trans ?_
  change fields (chk ((BitVec.extractLsb' (n := 24) 20 4 _) == 0#4) (chk ((BitVec.extractLsb' (n := 24) 8 6 _) == 0#6) (some (.accmov ((BitVec.extractLsb' (n := 24) 19 1 _) == 1#1) ((BitVec.extractLsb' (n := 24) 14 5 _)) (Opnd.ofCode (BitVec.extractLsb' (n := 24) 0 8 _)))))) = _
  rw [e0, e1, e2, e3, e4]
  simp [fields, chk, Opnd.ofCode_code, hwf]

theorem attn tc hd hs n : Statement (.attn tc hd hs n) := by
  intro hwf w0 hen
  obtain rfl := wordEq hen
  have e0 : BitVec.extractLsb' (n := 24) 20 4 (tc ++ hd ++ hs ++ 0#3 ++ n) = tc :=
    (BitVec.extractLsb'_append_eq_of_le (by decide)).trans ((BitVec.extractLsb'_append_eq_of_le (by decide)).trans ((BitVec.extractLsb'_append_eq_of_le (by decide)).trans ((BitVec.extractLsb'_append_eq_of_le (by decide)).trans BitVec.extractLsb'_eq_self)))
  have e1 : BitVec.extractLsb' (n := 24) 14 6 (tc ++ hd ++ hs ++ 0#3 ++ n) = hd :=
    (BitVec.extractLsb'_append_eq_of_le (by decide)).trans ((BitVec.extractLsb'_append_eq_of_le (by decide)).trans ((BitVec.extractLsb'_append_eq_of_le (by decide)).trans ((BitVec.extractLsb'_append_eq_of_add_le (by decide)).trans BitVec.extractLsb'_eq_self)))
  have e2 : BitVec.extractLsb' (n := 24) 8 6 (tc ++ hd ++ hs ++ 0#3 ++ n) = hs :=
    (BitVec.extractLsb'_append_eq_of_le (by decide)).trans ((BitVec.extractLsb'_append_eq_of_le (by decide)).trans ((BitVec.extractLsb'_append_eq_of_add_le (by decide)).trans BitVec.extractLsb'_eq_self))
  have e3 : BitVec.extractLsb' (n := 24) 5 3 (tc ++ hd ++ hs ++ 0#3 ++ n) = 0#3 :=
    (BitVec.extractLsb'_append_eq_of_le (by decide)).trans ((BitVec.extractLsb'_append_eq_of_add_le (by decide)).trans BitVec.extractLsb'_eq_self)
  have e4 : BitVec.extractLsb' (n := 24) 0 5 (tc ++ hd ++ hs ++ 0#3 ++ n) = n :=
    (BitVec.extractLsb'_append_eq_of_add_le (by decide)).trans BitVec.extractLsb'_eq_self
  refine (decode_uniform ..).trans ?_
  change fields (chk ((BitVec.extractLsb' (n := 24) 5 3 _) == 0#3) (some (.attn ((BitVec.extractLsb' (n := 24) 20 4 _)) ((BitVec.extractLsb' (n := 24) 14 6 _)) ((BitVec.extractLsb' (n := 24) 8 6 _)) ((BitVec.extractLsb' (n := 24) 0 5 _))))) = _
  rw [e0, e1, e2, e3, e4]
  simp [fields, chk]

theorem histrd h bin d : Statement (.histrd h bin d) := by
  intro hwf w0 hen
  obtain rfl := wordEq hen
  have e0 : BitVec.extractLsb' (n := 24) 20 4 (0#4 ++ h ++ 0#1 ++ bin ++ (UDst.code d)) = 0#4 :=
    (BitVec.extractLsb'_append_eq_of_le (by decide)).trans ((BitVec.extractLsb'_append_eq_of_le (by decide)).trans ((BitVec.extractLsb'_append_eq_of_le (by decide)).trans ((BitVec.extractLsb'_append_eq_of_le (by decide)).trans BitVec.extractLsb'_eq_self)))
  have e1 : BitVec.extractLsb' (n := 24) 14 6 (0#4 ++ h ++ 0#1 ++ bin ++ (UDst.code d)) = h :=
    (BitVec.extractLsb'_append_eq_of_le (by decide)).trans ((BitVec.extractLsb'_append_eq_of_le (by decide)).trans ((BitVec.extractLsb'_append_eq_of_le (by decide)).trans ((BitVec.extractLsb'_append_eq_of_add_le (by decide)).trans BitVec.extractLsb'_eq_self)))
  have e2 : BitVec.extractLsb' (n := 24) 13 1 (0#4 ++ h ++ 0#1 ++ bin ++ (UDst.code d)) = 0#1 :=
    (BitVec.extractLsb'_append_eq_of_le (by decide)).trans ((BitVec.extractLsb'_append_eq_of_le (by decide)).trans ((BitVec.extractLsb'_append_eq_of_add_le (by decide)).trans BitVec.extractLsb'_eq_self))
  have e3 : BitVec.extractLsb' (n := 24) 8 5 (0#4 ++ h ++ 0#1 ++ bin ++ (UDst.code d)) = bin :=
    (BitVec.extractLsb'_append_eq_of_le (by decide)).trans ((BitVec.extractLsb'_append_eq_of_add_le (by decide)).trans BitVec.extractLsb'_eq_self)
  have e4 : BitVec.extractLsb' (n := 24) 0 8 (0#4 ++ h ++ 0#1 ++ bin ++ (UDst.code d)) = (UDst.code d) :=
    (BitVec.extractLsb'_append_eq_of_add_le (by decide)).trans BitVec.extractLsb'_eq_self
  refine (decode_uniform ..).trans ?_
  change fields (chk ((BitVec.extractLsb' (n := 24) 20 4 _) == 0#4) (chk ((BitVec.extractLsb' (n := 24) 13 1 _) == 0#1) ((UDst.ofCode? (BitVec.extractLsb' (n := 24) 0 8 _)).bind (fun d => some (.histrd ((BitVec.extractLsb' (n := 24) 14 6 _)) ((BitVec.extractLsb' (n := 24) 8 5 _)) d))))) = _
  rw [e0, e1, e2, e3, e4]
  simp [fields, chk]

theorem histclr tc h : Statement (.histclr tc h) := by
  intro hwf w0 hen
  obtain rfl := wordEq hen
  have e0 : BitVec.extractLsb' (n := 24) 20 4 (tc ++ h ++ 0#6 ++ 0#8) = tc :=
    (BitVec.extractLsb'_append_eq_of_le (by decide)).trans ((BitVec.extractLsb'_append_eq_of_le (by decide)).trans ((BitVec.extractLsb'_append_eq_of_le (by decide)).trans BitVec.extractLsb'_eq_self))
  have e1 : BitVec.extractLsb' (n := 24) 14 6 (tc ++ h ++ 0#6 ++ 0#8) = h :=
    (BitVec.extractLsb'_append_eq_of_le (by decide)).trans ((BitVec.extractLsb'_append_eq_of_le (by decide)).trans ((BitVec.extractLsb'_append_eq_of_add_le (by decide)).trans BitVec.extractLsb'_eq_self))
  have e2 : BitVec.extractLsb' (n := 24) 8 6 (tc ++ h ++ 0#6 ++ 0#8) = 0#6 :=
    (BitVec.extractLsb'_append_eq_of_le (by decide)).trans ((BitVec.extractLsb'_append_eq_of_add_le (by decide)).trans BitVec.extractLsb'_eq_self)
  have e3 : BitVec.extractLsb' (n := 24) 0 8 (tc ++ h ++ 0#6 ++ 0#8) = 0#8 :=
    (BitVec.extractLsb'_append_eq_of_add_le (by decide)).trans BitVec.extractLsb'_eq_self
  refine (decode_uniform ..).trans ?_
  change fields (chk ((BitVec.extractLsb' (n := 24) 8 6 _) == 0#6) (chk ((BitVec.extractLsb' (n := 24) 0 8 _) == 0#8) (some (.histclr ((BitVec.extractLsb' (n := 24) 20 4 _)) ((BitVec.extractLsb' (n := 24) 14 6 _)))))) = _
  rw [e0, e1, e2, e3]
  simp [fields, chk]

theorem snew a b n : Statement (.snew a b n) := by
  intro hwf w0 hen
  obtain rfl := wordEq hen
  change (a.ok && b.ok) = true at hwf
  simp only [Bool.and_eq_true] at hwf
  have e0 : BitVec.extractLsb' (n := 24) 16 8 ((Opnd.code a) ++ (Opnd.code b) ++ 0#3 ++ n) = (Opnd.code a) :=
    (BitVec.extractLsb'_append_eq_of_le (by decide)).trans ((BitVec.extractLsb'_append_eq_of_le (by decide)).trans ((BitVec.extractLsb'_append_eq_of_le (by decide)).trans BitVec.extractLsb'_eq_self))
  have e1 : BitVec.extractLsb' (n := 24) 8 8 ((Opnd.code a) ++ (Opnd.code b) ++ 0#3 ++ n) = (Opnd.code b) :=
    (BitVec.extractLsb'_append_eq_of_le (by decide)).trans ((BitVec.extractLsb'_append_eq_of_le (by decide)).trans ((BitVec.extractLsb'_append_eq_of_add_le (by decide)).trans BitVec.extractLsb'_eq_self))
  have e2 : BitVec.extractLsb' (n := 24) 5 3 ((Opnd.code a) ++ (Opnd.code b) ++ 0#3 ++ n) = 0#3 :=
    (BitVec.extractLsb'_append_eq_of_le (by decide)).trans ((BitVec.extractLsb'_append_eq_of_add_le (by decide)).trans BitVec.extractLsb'_eq_self)
  have e3 : BitVec.extractLsb' (n := 24) 0 5 ((Opnd.code a) ++ (Opnd.code b) ++ 0#3 ++ n) = n :=
    (BitVec.extractLsb'_append_eq_of_add_le (by decide)).trans BitVec.extractLsb'_eq_self
  refine (decode_uniform ..).trans ?_
  change fields (chk ((BitVec.extractLsb' (n := 24) 5 3 _) == 0#3) (some (.snew (Opnd.ofCode (BitVec.extractLsb' (n := 24) 16 8 _)) (Opnd.ofCode (BitVec.extractLsb' (n := 24) 8 8 _)) ((BitVec.extractLsb' (n := 24) 0 5 _))))) = _
  rw [e0, e1, e2, e3]
  simp [fields, chk, Opnd.ofCode_code, hwf]

theorem sfree a : Statement (.sfree a) := by
  intro hwf w0 hen
  obtain rfl := wordEq hen
  change (a.ok) = true at hwf
  have e0 : BitVec.extractLsb' (n := 24) 16 8 ((Opnd.code a) ++ 0#8 ++ 0#8) = (Opnd.code a) :=
    (BitVec.extractLsb'_append_eq_of_le (by decide)).trans ((BitVec.extractLsb'_append_eq_of_le (by decide)).trans BitVec.extractLsb'_eq_self)
  have e1 : BitVec.extractLsb' (n := 24) 8 8 ((Opnd.code a) ++ 0#8 ++ 0#8) = 0#8 :=
    (BitVec.extractLsb'_append_eq_of_le (by decide)).trans ((BitVec.extractLsb'_append_eq_of_add_le (by decide)).trans BitVec.extractLsb'_eq_self)
  have e2 : BitVec.extractLsb' (n := 24) 0 8 ((Opnd.code a) ++ 0#8 ++ 0#8) = 0#8 :=
    (BitVec.extractLsb'_append_eq_of_add_le (by decide)).trans BitVec.extractLsb'_eq_self
  refine (decode_uniform ..).trans ?_
  change fields (chk ((BitVec.extractLsb' (n := 24) 8 8 _) == 0#8) (chk ((BitVec.extractLsb' (n := 24) 0 8 _) == 0#8) (some (.sfree (Opnd.ofCode (BitVec.extractLsb' (n := 24) 16 8 _)))))) = _
  rw [e0, e1, e2]
  simp [fields, chk, Opnd.ofCode_code, hwf]

theorem slen a n : Statement (.slen a n) := by
  intro hwf w0 hen
  obtain rfl := wordEq hen
  change (a.ok) = true at hwf
  have e0 : BitVec.extractLsb' (n := 24) 16 8 ((Opnd.code a) ++ 0#8 ++ 0#3 ++ n) = (Opnd.code a) :=
    (BitVec.extractLsb'_append_eq_of_le (by decide)).trans ((BitVec.extractLsb'_append_eq_of_le (by decide)).trans ((BitVec.extractLsb'_append_eq_of_le (by decide)).trans BitVec.extractLsb'_eq_self))
  have e1 : BitVec.extractLsb' (n := 24) 8 8 ((Opnd.code a) ++ 0#8 ++ 0#3 ++ n) = 0#8 :=
    (BitVec.extractLsb'_append_eq_of_le (by decide)).trans ((BitVec.extractLsb'_append_eq_of_le (by decide)).trans ((BitVec.extractLsb'_append_eq_of_add_le (by decide)).trans BitVec.extractLsb'_eq_self))
  have e2 : BitVec.extractLsb' (n := 24) 5 3 ((Opnd.code a) ++ 0#8 ++ 0#3 ++ n) = 0#3 :=
    (BitVec.extractLsb'_append_eq_of_le (by decide)).trans ((BitVec.extractLsb'_append_eq_of_add_le (by decide)).trans BitVec.extractLsb'_eq_self)
  have e3 : BitVec.extractLsb' (n := 24) 0 5 ((Opnd.code a) ++ 0#8 ++ 0#3 ++ n) = n :=
    (BitVec.extractLsb'_append_eq_of_add_le (by decide)).trans BitVec.extractLsb'_eq_self
  refine (decode_uniform ..).trans ?_
  change fields (chk ((BitVec.extractLsb' (n := 24) 8 8 _) == 0#8) (chk ((BitVec.extractLsb' (n := 24) 5 3 _) == 0#3) (some (.slen (Opnd.ofCode (BitVec.extractLsb' (n := 24) 16 8 _)) ((BitVec.extractLsb' (n := 24) 0 5 _)))))) = _
  rw [e0, e1, e2, e3]
  simp [fields, chk, Opnd.ofCode_code, hwf]

theorem sins a b z n : Statement (.sins a b z n) := by
  intro hwf w0 hen
  obtain rfl := wordEq hen
  change (a.ok && b.ok) = true at hwf
  simp only [Bool.and_eq_true] at hwf
  have e0 : BitVec.extractLsb' (n := 24) 16 8 ((Opnd.code a) ++ (Opnd.code b) ++ 0#2 ++ (BitVec.ofBool z) ++ n) = (Opnd.code a) :=
    (BitVec.extractLsb'_append_eq_of_le (by decide)).trans ((BitVec.extractLsb'_append_eq_of_le (by decide)).trans ((BitVec.extractLsb'_append_eq_of_le (by decide)).trans ((BitVec.extractLsb'_append_eq_of_le (by decide)).trans BitVec.extractLsb'_eq_self)))
  have e1 : BitVec.extractLsb' (n := 24) 8 8 ((Opnd.code a) ++ (Opnd.code b) ++ 0#2 ++ (BitVec.ofBool z) ++ n) = (Opnd.code b) :=
    (BitVec.extractLsb'_append_eq_of_le (by decide)).trans ((BitVec.extractLsb'_append_eq_of_le (by decide)).trans ((BitVec.extractLsb'_append_eq_of_le (by decide)).trans ((BitVec.extractLsb'_append_eq_of_add_le (by decide)).trans BitVec.extractLsb'_eq_self)))
  have e2 : BitVec.extractLsb' (n := 24) 6 2 ((Opnd.code a) ++ (Opnd.code b) ++ 0#2 ++ (BitVec.ofBool z) ++ n) = 0#2 :=
    (BitVec.extractLsb'_append_eq_of_le (by decide)).trans ((BitVec.extractLsb'_append_eq_of_le (by decide)).trans ((BitVec.extractLsb'_append_eq_of_add_le (by decide)).trans BitVec.extractLsb'_eq_self))
  have e3 : BitVec.extractLsb' (n := 24) 5 1 ((Opnd.code a) ++ (Opnd.code b) ++ 0#2 ++ (BitVec.ofBool z) ++ n) = (BitVec.ofBool z) :=
    (BitVec.extractLsb'_append_eq_of_le (by decide)).trans ((BitVec.extractLsb'_append_eq_of_add_le (by decide)).trans BitVec.extractLsb'_eq_self)
  have e4 : BitVec.extractLsb' (n := 24) 0 5 ((Opnd.code a) ++ (Opnd.code b) ++ 0#2 ++ (BitVec.ofBool z) ++ n) = n :=
    (BitVec.extractLsb'_append_eq_of_add_le (by decide)).trans BitVec.extractLsb'_eq_self
  refine (decode_uniform ..).trans ?_
  change fields (chk ((BitVec.extractLsb' (n := 24) 6 2 _) == 0#2) (some (.sins (Opnd.ofCode (BitVec.extractLsb' (n := 24) 16 8 _)) (Opnd.ofCode (BitVec.extractLsb' (n := 24) 8 8 _)) ((BitVec.extractLsb' (n := 24) 5 1 _) == 1#1) ((BitVec.extractLsb' (n := 24) 0 5 _))))) = _
  rw [e0, e1, e2, e3, e4]
  simp [fields, chk, Opnd.ofCode_code, hwf]

theorem sdel a b n : Statement (.sdel a b n) := by
  intro hwf w0 hen
  obtain rfl := wordEq hen
  change (a.ok && b.ok) = true at hwf
  simp only [Bool.and_eq_true] at hwf
  have e0 : BitVec.extractLsb' (n := 24) 16 8 ((Opnd.code a) ++ (Opnd.code b) ++ 0#3 ++ n) = (Opnd.code a) :=
    (BitVec.extractLsb'_append_eq_of_le (by decide)).trans ((BitVec.extractLsb'_append_eq_of_le (by decide)).trans ((BitVec.extractLsb'_append_eq_of_le (by decide)).trans BitVec.extractLsb'_eq_self))
  have e1 : BitVec.extractLsb' (n := 24) 8 8 ((Opnd.code a) ++ (Opnd.code b) ++ 0#3 ++ n) = (Opnd.code b) :=
    (BitVec.extractLsb'_append_eq_of_le (by decide)).trans ((BitVec.extractLsb'_append_eq_of_le (by decide)).trans ((BitVec.extractLsb'_append_eq_of_add_le (by decide)).trans BitVec.extractLsb'_eq_self))
  have e2 : BitVec.extractLsb' (n := 24) 5 3 ((Opnd.code a) ++ (Opnd.code b) ++ 0#3 ++ n) = 0#3 :=
    (BitVec.extractLsb'_append_eq_of_le (by decide)).trans ((BitVec.extractLsb'_append_eq_of_add_le (by decide)).trans BitVec.extractLsb'_eq_self)
  have e3 : BitVec.extractLsb' (n := 24) 0 5 ((Opnd.code a) ++ (Opnd.code b) ++ 0#3 ++ n) = n :=
    (BitVec.extractLsb'_append_eq_of_add_le (by decide)).trans BitVec.extractLsb'_eq_self
  refine (decode_uniform ..).trans ?_
  change fields (chk ((BitVec.extractLsb' (n := 24) 5 3 _) == 0#3) (some (.sdel (Opnd.ofCode (BitVec.extractLsb' (n := 24) 16 8 _)) (Opnd.ofCode (BitVec.extractLsb' (n := 24) 8 8 _)) ((BitVec.extractLsb' (n := 24) 0 5 _))))) = _
  rw [e0, e1, e2, e3]
  simp [fields, chk, Opnd.ofCode_code, hwf]

theorem ssplit a b n : Statement (.ssplit a b n) := by
  intro hwf w0 hen
  obtain rfl := wordEq hen
  change (a.ok && b.ok) = true at hwf
  simp only [Bool.and_eq_true] at hwf
  have e0 : BitVec.extractLsb' (n := 24) 16 8 ((Opnd.code a) ++ (Opnd.code b) ++ 0#3 ++ n) = (Opnd.code a) :=
    (BitVec.extractLsb'_append_eq_of_le (by decide)).trans ((BitVec.extractLsb'_append_eq_of_le (by decide)).trans ((BitVec.extractLsb'_append_eq_of_le (by decide)).trans BitVec.extractLsb'_eq_self))
  have e1 : BitVec.extractLsb' (n := 24) 8 8 ((Opnd.code a) ++ (Opnd.code b) ++ 0#3 ++ n) = (Opnd.code b) :=
    (BitVec.extractLsb'_append_eq_of_le (by decide)).trans ((BitVec.extractLsb'_append_eq_of_le (by decide)).trans ((BitVec.extractLsb'_append_eq_of_add_le (by decide)).trans BitVec.extractLsb'_eq_self))
  have e2 : BitVec.extractLsb' (n := 24) 5 3 ((Opnd.code a) ++ (Opnd.code b) ++ 0#3 ++ n) = 0#3 :=
    (BitVec.extractLsb'_append_eq_of_le (by decide)).trans ((BitVec.extractLsb'_append_eq_of_add_le (by decide)).trans BitVec.extractLsb'_eq_self)
  have e3 : BitVec.extractLsb' (n := 24) 0 5 ((Opnd.code a) ++ (Opnd.code b) ++ 0#3 ++ n) = n :=
    (BitVec.extractLsb'_append_eq_of_add_le (by decide)).trans BitVec.extractLsb'_eq_self
  refine (decode_uniform ..).trans ?_
  change fields (chk ((BitVec.extractLsb' (n := 24) 5 3 _) == 0#3) (some (.ssplit (Opnd.ofCode (BitVec.extractLsb' (n := 24) 16 8 _)) (Opnd.ofCode (BitVec.extractLsb' (n := 24) 8 8 _)) ((BitVec.extractLsb' (n := 24) 0 5 _))))) = _
  rw [e0, e1, e2, e3]
  simp [fields, chk, Opnd.ofCode_code, hwf]

theorem scat a b share : Statement (.scat a b share) := by
  intro hwf w0 hen
  obtain rfl := wordEq hen
  change (a.ok && b.ok) = true at hwf
  simp only [Bool.and_eq_true] at hwf
  have e0 : BitVec.extractLsb' (n := 24) 16 8 ((Opnd.code a) ++ (Opnd.code b) ++ 0#2 ++ (BitVec.ofBool share) ++ 0#5) = (Opnd.code a) :=
    (BitVec.extractLsb'_append_eq_of_le (by decide)).trans ((BitVec.extractLsb'_append_eq_of_le (by decide)).trans ((BitVec.extractLsb'_append_eq_of_le (by decide)).trans ((BitVec.extractLsb'_append_eq_of_le (by decide)).trans BitVec.extractLsb'_eq_self)))
  have e1 : BitVec.extractLsb' (n := 24) 8 8 ((Opnd.code a) ++ (Opnd.code b) ++ 0#2 ++ (BitVec.ofBool share) ++ 0#5) = (Opnd.code b) :=
    (BitVec.extractLsb'_append_eq_of_le (by decide)).trans ((BitVec.extractLsb'_append_eq_of_le (by decide)).trans ((BitVec.extractLsb'_append_eq_of_le (by decide)).trans ((BitVec.extractLsb'_append_eq_of_add_le (by decide)).trans BitVec.extractLsb'_eq_self)))
  have e2 : BitVec.extractLsb' (n := 24) 6 2 ((Opnd.code a) ++ (Opnd.code b) ++ 0#2 ++ (BitVec.ofBool share) ++ 0#5) = 0#2 :=
    (BitVec.extractLsb'_append_eq_of_le (by decide)).trans ((BitVec.extractLsb'_append_eq_of_le (by decide)).trans ((BitVec.extractLsb'_append_eq_of_add_le (by decide)).trans BitVec.extractLsb'_eq_self))
  have e3 : BitVec.extractLsb' (n := 24) 5 1 ((Opnd.code a) ++ (Opnd.code b) ++ 0#2 ++ (BitVec.ofBool share) ++ 0#5) = (BitVec.ofBool share) :=
    (BitVec.extractLsb'_append_eq_of_le (by decide)).trans ((BitVec.extractLsb'_append_eq_of_add_le (by decide)).trans BitVec.extractLsb'_eq_self)
  have e4 : BitVec.extractLsb' (n := 24) 0 5 ((Opnd.code a) ++ (Opnd.code b) ++ 0#2 ++ (BitVec.ofBool share) ++ 0#5) = 0#5 :=
    (BitVec.extractLsb'_append_eq_of_add_le (by decide)).trans BitVec.extractLsb'_eq_self
  refine (decode_uniform ..).trans ?_
  change fields (chk ((BitVec.extractLsb' (n := 24) 6 2 _) == 0#2) (chk ((BitVec.extractLsb' (n := 24) 0 5 _) == 0#5) (some (.scat (Opnd.ofCode (BitVec.extractLsb' (n := 24) 16 8 _)) (Opnd.ofCode (BitVec.extractLsb' (n := 24) 8 8 _)) ((BitVec.extractLsb' (n := 24) 5 1 _) == 1#1))))) = _
  rw [e0, e1, e2, e3, e4]
  simp [fields, chk, Opnd.ofCode_code, hwf]

theorem sgap a b n : Statement (.sgap a b n) := by
  intro hwf w0 hen
  obtain rfl := wordEq hen
  change (a.ok && b.ok) = true at hwf
  simp only [Bool.and_eq_true] at hwf
  have e0 : BitVec.extractLsb' (n := 24) 16 8 ((Opnd.code a) ++ (Opnd.code b) ++ 0#3 ++ n) = (Opnd.code a) :=
    (BitVec.extractLsb'_append_eq_of_le (by decide)).trans ((BitVec.extractLsb'_append_eq_of_le (by decide)).trans ((BitVec.extractLsb'_append_eq_of_le (by decide)).trans BitVec.extractLsb'_eq_self))
  have e1 : BitVec.extractLsb' (n := 24) 8 8 ((Opnd.code a) ++ (Opnd.code b) ++ 0#3 ++ n) = (Opnd.code b) :=
    (BitVec.extractLsb'_append_eq_of_le (by decide)).trans ((BitVec.extractLsb'_append_eq_of_le (by decide)).trans ((BitVec.extractLsb'_append_eq_of_add_le (by decide)).trans BitVec.extractLsb'_eq_self))
  have e2 : BitVec.extractLsb' (n := 24) 5 3 ((Opnd.code a) ++ (Opnd.code b) ++ 0#3 ++ n) = 0#3 :=
    (BitVec.extractLsb'_append_eq_of_le (by decide)).trans ((BitVec.extractLsb'_append_eq_of_add_le (by decide)).trans BitVec.extractLsb'_eq_self)
  have e3 : BitVec.extractLsb' (n := 24) 0 5 ((Opnd.code a) ++ (Opnd.code b) ++ 0#3 ++ n) = n :=
    (BitVec.extractLsb'_append_eq_of_add_le (by decide)).trans BitVec.extractLsb'_eq_self
  refine (decode_uniform ..).trans ?_
  change fields (chk ((BitVec.extractLsb' (n := 24) 5 3 _) == 0#3) (some (.sgap (Opnd.ofCode (BitVec.extractLsb' (n := 24) 16 8 _)) (Opnd.ofCode (BitVec.extractLsb' (n := 24) 8 8 _)) ((BitVec.extractLsb' (n := 24) 0 5 _))))) = _
  rw [e0, e1, e2, e3]
  simp [fields, chk, Opnd.ofCode_code, hwf]

theorem sapnd a n : Statement (.sapnd a n) := by
  intro hwf w0 hen
  obtain rfl := wordEq hen
  change (a.ok) = true at hwf
  have e0 : BitVec.extractLsb' (n := 24) 16 8 ((Opnd.code a) ++ 0#8 ++ 0#3 ++ n) = (Opnd.code a) :=
    (BitVec.extractLsb'_append_eq_of_le (by decide)).trans ((BitVec.extractLsb'_append_eq_of_le (by decide)).trans ((BitVec.extractLsb'_append_eq_of_le (by decide)).trans BitVec.extractLsb'_eq_self))
  have e1 : BitVec.extractLsb' (n := 24) 8 8 ((Opnd.code a) ++ 0#8 ++ 0#3 ++ n) = 0#8 :=
    (BitVec.extractLsb'_append_eq_of_le (by decide)).trans ((BitVec.extractLsb'_append_eq_of_le (by decide)).trans ((BitVec.extractLsb'_append_eq_of_add_le (by decide)).trans BitVec.extractLsb'_eq_self))
  have e2 : BitVec.extractLsb' (n := 24) 5 3 ((Opnd.code a) ++ 0#8 ++ 0#3 ++ n) = 0#3 :=
    (BitVec.extractLsb'_append_eq_of_le (by decide)).trans ((BitVec.extractLsb'_append_eq_of_add_le (by decide)).trans BitVec.extractLsb'_eq_self)
  have e3 : BitVec.extractLsb' (n := 24) 0 5 ((Opnd.code a) ++ 0#8 ++ 0#3 ++ n) = n :=
    (BitVec.extractLsb'_append_eq_of_add_le (by decide)).trans BitVec.extractLsb'_eq_self
  refine (decode_uniform ..).trans ?_
  change fields (chk ((BitVec.extractLsb' (n := 24) 8 8 _) == 0#8) (chk ((BitVec.extractLsb' (n := 24) 5 3 _) == 0#3) (some (.sapnd (Opnd.ofCode (BitVec.extractLsb' (n := 24) 16 8 _)) ((BitVec.extractLsb' (n := 24) 0 5 _)))))) = _
  rw [e0, e1, e2, e3]
  simp [fields, chk, Opnd.ofCode_code, hwf]

theorem sclose a : Statement (.sclose a) := by
  intro hwf w0 hen
  obtain rfl := wordEq hen
  change (a.ok) = true at hwf
  have e0 : BitVec.extractLsb' (n := 24) 16 8 ((Opnd.code a) ++ 0#8 ++ 0#8) = (Opnd.code a) :=
    (BitVec.extractLsb'_append_eq_of_le (by decide)).trans ((BitVec.extractLsb'_append_eq_of_le (by decide)).trans BitVec.extractLsb'_eq_self)
  have e1 : BitVec.extractLsb' (n := 24) 8 8 ((Opnd.code a) ++ 0#8 ++ 0#8) = 0#8 :=
    (BitVec.extractLsb'_append_eq_of_le (by decide)).trans ((BitVec.extractLsb'_append_eq_of_add_le (by decide)).trans BitVec.extractLsb'_eq_self)
  have e2 : BitVec.extractLsb' (n := 24) 0 8 ((Opnd.code a) ++ 0#8 ++ 0#8) = 0#8 :=
    (BitVec.extractLsb'_append_eq_of_add_le (by decide)).trans BitVec.extractLsb'_eq_self
  refine (decode_uniform ..).trans ?_
  change fields (chk ((BitVec.extractLsb' (n := 24) 8 8 _) == 0#8) (chk ((BitVec.extractLsb' (n := 24) 0 8 _) == 0#8) (some (.sclose (Opnd.ofCode (BitVec.extractLsb' (n := 24) 16 8 _)))))) = _
  rw [e0, e1, e2]
  simp [fields, chk, Opnd.ofCode_code, hwf]

theorem srankUniform a pm n : Statement (.srankUniform a pm n) := by
  intro hwf w0 hen
  obtain rfl := wordEq hen
  change (a.ok) = true at hwf
  have e0 : BitVec.extractLsb' (n := 24) 16 8 ((Opnd.code a) ++ 0#8 ++ pm ++ n) = (Opnd.code a) :=
    (BitVec.extractLsb'_append_eq_of_le (by decide)).trans ((BitVec.extractLsb'_append_eq_of_le (by decide)).trans ((BitVec.extractLsb'_append_eq_of_le (by decide)).trans BitVec.extractLsb'_eq_self))
  have e1 : BitVec.extractLsb' (n := 24) 8 8 ((Opnd.code a) ++ 0#8 ++ pm ++ n) = 0#8 :=
    (BitVec.extractLsb'_append_eq_of_le (by decide)).trans ((BitVec.extractLsb'_append_eq_of_le (by decide)).trans ((BitVec.extractLsb'_append_eq_of_add_le (by decide)).trans BitVec.extractLsb'_eq_self))
  have e2 : BitVec.extractLsb' (n := 24) 5 3 ((Opnd.code a) ++ 0#8 ++ pm ++ n) = pm :=
    (BitVec.extractLsb'_append_eq_of_le (by decide)).trans ((BitVec.extractLsb'_append_eq_of_add_le (by decide)).trans BitVec.extractLsb'_eq_self)
  have e3 : BitVec.extractLsb' (n := 24) 0 5 ((Opnd.code a) ++ 0#8 ++ pm ++ n) = n :=
    (BitVec.extractLsb'_append_eq_of_add_le (by decide)).trans BitVec.extractLsb'_eq_self
  refine (decode_uniform ..).trans ?_
  change fields (chk ((BitVec.extractLsb' (n := 24) 8 8 _) == 0#8) (some (.srankUniform (Opnd.ofCode (BitVec.extractLsb' (n := 24) 16 8 _)) ((BitVec.extractLsb' (n := 24) 5 3 _)) ((BitVec.extractLsb' (n := 24) 0 5 _))))) = _
  rw [e0, e1, e2, e3]
  simp [fields, chk, Opnd.ofCode_code, hwf]

theorem sanchUniform a b n : Statement (.sanchUniform a b n) := by
  intro hwf w0 hen
  obtain rfl := wordEq hen
  change (a.ok && b.ok) = true at hwf
  simp only [Bool.and_eq_true] at hwf
  have e0 : BitVec.extractLsb' (n := 24) 16 8 ((Opnd.code a) ++ (Opnd.code b) ++ 0#3 ++ n) = (Opnd.code a) :=
    (BitVec.extractLsb'_append_eq_of_le (by decide)).trans ((BitVec.extractLsb'_append_eq_of_le (by decide)).trans ((BitVec.extractLsb'_append_eq_of_le (by decide)).trans BitVec.extractLsb'_eq_self))
  have e1 : BitVec.extractLsb' (n := 24) 8 8 ((Opnd.code a) ++ (Opnd.code b) ++ 0#3 ++ n) = (Opnd.code b) :=
    (BitVec.extractLsb'_append_eq_of_le (by decide)).trans ((BitVec.extractLsb'_append_eq_of_le (by decide)).trans ((BitVec.extractLsb'_append_eq_of_add_le (by decide)).trans BitVec.extractLsb'_eq_self))
  have e2 : BitVec.extractLsb' (n := 24) 5 3 ((Opnd.code a) ++ (Opnd.code b) ++ 0#3 ++ n) = 0#3 :=
    (BitVec.extractLsb'_append_eq_of_le (by decide)).trans ((BitVec.extractLsb'_append_eq_of_add_le (by decide)).trans BitVec.extractLsb'_eq_self)
  have e3 : BitVec.extractLsb' (n := 24) 0 5 ((Opnd.code a) ++ (Opnd.code b) ++ 0#3 ++ n) = n :=
    (BitVec.extractLsb'_append_eq_of_add_le (by decide)).trans BitVec.extractLsb'_eq_self
  refine (decode_uniform ..).trans ?_
  change fields (chk ((BitVec.extractLsb' (n := 24) 5 3 _) == 0#3) (some (.sanchUniform (Opnd.ofCode (BitVec.extractLsb' (n := 24) 16 8 _)) (Opnd.ofCode (BitVec.extractLsb' (n := 24) 8 8 _)) ((BitVec.extractLsb' (n := 24) 0 5 _))))) = _
  rw [e0, e1, e2, e3]
  simp [fields, chk, Opnd.ofCode_code, hwf]

theorem sldUniform d addr ty pm sn : Statement (.sldUniform d addr ty pm sn) := by
  intro hwf w0 hen
  obtain rfl := wordEq hen
  have e0 : BitVec.extractLsb' (n := 24) 16 8 ((UDst.code d) ++ addr ++ (Ty.code ty) ++ pm ++ sn ++ 0#2) = (UDst.code d) :=
    (BitVec.extractLsb'_append_eq_of_le (by decide)).trans ((BitVec.extractLsb'_append_eq_of_le (by decide)).trans ((BitVec.extractLsb'_append_eq_of_le (by decide)).trans ((BitVec.extractLsb'_append_eq_of_le (by decide)).trans ((BitVec.extractLsb'_append_eq_of_le (by decide)).trans BitVec.extractLsb'_eq_self))))
  have e1 : BitVec.extractLsb' (n := 24) 11 5 ((UDst.code d) ++ addr ++ (Ty.code ty) ++ pm ++ sn ++ 0#2) = addr :=
    (BitVec.extractLsb'_append_eq_of_le (by decide)).trans ((BitVec.extractLsb'_append_eq_of_le (by decide)).trans ((BitVec.extractLsb'_append_eq_of_le (by decide)).trans ((BitVec.extractLsb'_append_eq_of_le (by decide)).trans ((BitVec.extractLsb'_append_eq_of_add_le (by decide)).trans BitVec.extractLsb'_eq_self))))
  have e2 : BitVec.extractLsb' (n := 24) 8 3 ((UDst.code d) ++ addr ++ (Ty.code ty) ++ pm ++ sn ++ 0#2) = (Ty.code ty) :=
    (BitVec.extractLsb'_append_eq_of_le (by decide)).trans ((BitVec.extractLsb'_append_eq_of_le (by decide)).trans ((BitVec.extractLsb'_append_eq_of_le (by decide)).trans ((BitVec.extractLsb'_append_eq_of_add_le (by decide)).trans BitVec.extractLsb'_eq_self)))
  have e3 : BitVec.extractLsb' (n := 24) 5 3 ((UDst.code d) ++ addr ++ (Ty.code ty) ++ pm ++ sn ++ 0#2) = pm :=
    (BitVec.extractLsb'_append_eq_of_le (by decide)).trans ((BitVec.extractLsb'_append_eq_of_le (by decide)).trans ((BitVec.extractLsb'_append_eq_of_add_le (by decide)).trans BitVec.extractLsb'_eq_self))
  have e4 : BitVec.extractLsb' (n := 24) 2 3 ((UDst.code d) ++ addr ++ (Ty.code ty) ++ pm ++ sn ++ 0#2) = sn :=
    (BitVec.extractLsb'_append_eq_of_le (by decide)).trans ((BitVec.extractLsb'_append_eq_of_add_le (by decide)).trans BitVec.extractLsb'_eq_self)
  have e5 : BitVec.extractLsb' (n := 24) 0 2 ((UDst.code d) ++ addr ++ (Ty.code ty) ++ pm ++ sn ++ 0#2) = 0#2 :=
    (BitVec.extractLsb'_append_eq_of_add_le (by decide)).trans BitVec.extractLsb'_eq_self
  refine (decode_uniform ..).trans ?_
  change fields ((UDst.ofCode? (BitVec.extractLsb' (n := 24) 16 8 _)).bind (fun d => (Ty.ofCode? (BitVec.extractLsb' (n := 24) 8 3 _)).bind (fun ty => chk ((BitVec.extractLsb' (n := 24) 0 2 _) == 0#2) (some (.sldUniform d ((BitVec.extractLsb' (n := 24) 11 5 _)) ty ((BitVec.extractLsb' (n := 24) 5 3 _)) ((BitVec.extractLsb' (n := 24) 2 3 _))))))) = _
  rw [e0, e1, e2, e3, e4, e5]
  simp [fields, chk]

theorem sstUniform data addr ty sn : Statement (.sstUniform data addr ty sn) := by
  intro hwf w0 hen
  obtain rfl := wordEq hen
  change (data.ok && ty.storable) = true at hwf
  simp only [Bool.and_eq_true] at hwf
  have e0 : BitVec.extractLsb' (n := 24) 16 8 ((Opnd.code data) ++ addr ++ (Ty.code ty) ++ 0#3 ++ sn ++ 0#2) = (Opnd.code data) :=
    (BitVec.extractLsb'_append_eq_of_le (by decide)).trans ((BitVec.extractLsb'_append_eq_of_le (by decide)).trans ((BitVec.extractLsb'_append_eq_of_le (by decide)).trans ((BitVec.extractLsb'_append_eq_of_le (by decide)).trans ((BitVec.extractLsb'_append_eq_of_le (by decide)).trans BitVec.extractLsb'_eq_self))))
  have e1 : BitVec.extractLsb' (n := 24) 11 5 ((Opnd.code data) ++ addr ++ (Ty.code ty) ++ 0#3 ++ sn ++ 0#2) = addr :=
    (BitVec.extractLsb'_append_eq_of_le (by decide)).trans ((BitVec.extractLsb'_append_eq_of_le (by decide)).trans ((BitVec.extractLsb'_append_eq_of_le (by decide)).trans ((BitVec.extractLsb'_append_eq_of_le (by decide)).trans ((BitVec.extractLsb'_append_eq_of_add_le (by decide)).trans BitVec.extractLsb'_eq_self))))
  have e2 : BitVec.extractLsb' (n := 24) 8 3 ((Opnd.code data) ++ addr ++ (Ty.code ty) ++ 0#3 ++ sn ++ 0#2) = (Ty.code ty) :=
    (BitVec.extractLsb'_append_eq_of_le (by decide)).trans ((BitVec.extractLsb'_append_eq_of_le (by decide)).trans ((BitVec.extractLsb'_append_eq_of_le (by decide)).trans ((BitVec.extractLsb'_append_eq_of_add_le (by decide)).trans BitVec.extractLsb'_eq_self)))
  have e3 : BitVec.extractLsb' (n := 24) 5 3 ((Opnd.code data) ++ addr ++ (Ty.code ty) ++ 0#3 ++ sn ++ 0#2) = 0#3 :=
    (BitVec.extractLsb'_append_eq_of_le (by decide)).trans ((BitVec.extractLsb'_append_eq_of_le (by decide)).trans ((BitVec.extractLsb'_append_eq_of_add_le (by decide)).trans BitVec.extractLsb'_eq_self))
  have e4 : BitVec.extractLsb' (n := 24) 2 3 ((Opnd.code data) ++ addr ++ (Ty.code ty) ++ 0#3 ++ sn ++ 0#2) = sn :=
    (BitVec.extractLsb'_append_eq_of_le (by decide)).trans ((BitVec.extractLsb'_append_eq_of_add_le (by decide)).trans BitVec.extractLsb'_eq_self)
  have e5 : BitVec.extractLsb' (n := 24) 0 2 ((Opnd.code data) ++ addr ++ (Ty.code ty) ++ 0#3 ++ sn ++ 0#2) = 0#2 :=
    (BitVec.extractLsb'_append_eq_of_add_le (by decide)).trans BitVec.extractLsb'_eq_self
  refine (decode_uniform ..).trans ?_
  change fields ((Ty.ofStore? (BitVec.extractLsb' (n := 24) 8 3 _)).bind (fun ty => chk ((BitVec.extractLsb' (n := 24) 5 3 _) == 0#3) (chk ((BitVec.extractLsb' (n := 24) 0 2 _) == 0#2) (some (.sstUniform (Opnd.ofCode (BitVec.extractLsb' (n := 24) 16 8 _)) ((BitVec.extractLsb' (n := 24) 11 5 _)) ty ((BitVec.extractLsb' (n := 24) 2 3 _))))))) = _
  rw [e0, e1, e2, e3, e4, e5]
  simp [fields, chk, Opnd.ofCode_code, Ty.ofStore?_code, hwf]

theorem sendUniform r ch n : Statement (.sendUniform r ch n) := by
  intro hwf w0 hen
  obtain rfl := wordEq hen
  change (r.ok) = true at hwf
  have e0 : BitVec.extractLsb' (n := 24) 16 8 ((Opnd.code r) ++ ch ++ n ++ 0#8) = (Opnd.code r) :=
    (BitVec.extractLsb'_append_eq_of_le (by decide)).trans ((BitVec.extractLsb'_append_eq_of_le (by decide)).trans ((BitVec.extractLsb'_append_eq_of_le (by decide)).trans BitVec.extractLsb'_eq_self))
  have e1 : BitVec.extractLsb' (n := 24) 10 6 ((Opnd.code r) ++ ch ++ n ++ 0#8) = ch :=
    (BitVec.extractLsb'_append_eq_of_le (by decide)).trans ((BitVec.extractLsb'_append_eq_of_le (by decide)).trans ((BitVec.extractLsb'_append_eq_of_add_le (by decide)).trans BitVec.extractLsb'_eq_self))
  have e2 : BitVec.extractLsb' (n := 24) 8 2 ((Opnd.code r) ++ ch ++ n ++ 0#8) = n :=
    (BitVec.extractLsb'_append_eq_of_le (by decide)).trans ((BitVec.extractLsb'_append_eq_of_add_le (by decide)).trans BitVec.extractLsb'_eq_self)
  have e3 : BitVec.extractLsb' (n := 24) 0 8 ((Opnd.code r) ++ ch ++ n ++ 0#8) = 0#8 :=
    (BitVec.extractLsb'_append_eq_of_add_le (by decide)).trans BitVec.extractLsb'_eq_self
  refine (decode_uniform ..).trans ?_
  change fields (chk ((BitVec.extractLsb' (n := 24) 0 8 _) == 0#8) (some (.sendUniform (Opnd.ofCode (BitVec.extractLsb' (n := 24) 16 8 _)) ((BitVec.extractLsb' (n := 24) 10 6 _)) ((BitVec.extractLsb' (n := 24) 8 2 _))))) = _
  rw [e0, e1, e2, e3]
  simp [fields, chk, Opnd.ofCode_code, hwf]

theorem recvUniform d ch n : Statement (.recvUniform d ch n) := by
  intro hwf w0 hen
  obtain rfl := wordEq hen
  have e0 : BitVec.extractLsb' (n := 24) 16 8 ((UDst.code d) ++ ch ++ n ++ 0#8) = (UDst.code d) :=
    (BitVec.extractLsb'_append_eq_of_le (by decide)).trans ((BitVec.extractLsb'_append_eq_of_le (by decide)).trans ((BitVec.extractLsb'_append_eq_of_le (by decide)).trans BitVec.extractLsb'_eq_self))
  have e1 : BitVec.extractLsb' (n := 24) 10 6 ((UDst.code d) ++ ch ++ n ++ 0#8) = ch :=
    (BitVec.extractLsb'_append_eq_of_le (by decide)).trans ((BitVec.extractLsb'_append_eq_of_le (by decide)).trans ((BitVec.extractLsb'_append_eq_of_add_le (by decide)).trans BitVec.extractLsb'_eq_self))
  have e2 : BitVec.extractLsb' (n := 24) 8 2 ((UDst.code d) ++ ch ++ n ++ 0#8) = n :=
    (BitVec.extractLsb'_append_eq_of_le (by decide)).trans ((BitVec.extractLsb'_append_eq_of_add_le (by decide)).trans BitVec.extractLsb'_eq_self)
  have e3 : BitVec.extractLsb' (n := 24) 0 8 ((UDst.code d) ++ ch ++ n ++ 0#8) = 0#8 :=
    (BitVec.extractLsb'_append_eq_of_add_le (by decide)).trans BitVec.extractLsb'_eq_self
  refine (decode_uniform ..).trans ?_
  change fields ((UDst.ofCode? (BitVec.extractLsb' (n := 24) 16 8 _)).bind (fun d => chk ((BitVec.extractLsb' (n := 24) 0 8 _) == 0#8) (some (.recvUniform d ((BitVec.extractLsb' (n := 24) 10 6 _)) ((BitVec.extractLsb' (n := 24) 8 2 _)))))) = _
  rw [e0, e1, e2, e3]
  simp [fields, chk]

theorem get r ch n p : Statement (.get r ch n p) := by
  intro hwf w0 hen
  obtain rfl := wordEq hen
  change (r.ok) = true at hwf
  have e0 : BitVec.extractLsb' (n := 24) 16 8 ((Opnd.code r) ++ ch ++ n ++ 0#5 ++ p) = (Opnd.code r) :=
    (BitVec.extractLsb'_append_eq_of_le (by decide)).trans ((BitVec.extractLsb'_append_eq_of_le (by decide)).trans ((BitVec.extractLsb'_append_eq_of_le (by decide)).trans ((BitVec.extractLsb'_append_eq_of_le (by decide)).trans BitVec.extractLsb'_eq_self)))
  have e1 : BitVec.extractLsb' (n := 24) 10 6 ((Opnd.code r) ++ ch ++ n ++ 0#5 ++ p) = ch :=
    (BitVec.extractLsb'_append_eq_of_le (by decide)).trans ((BitVec.extractLsb'_append_eq_of_le (by decide)).trans ((BitVec.extractLsb'_append_eq_of_le (by decide)).trans ((BitVec.extractLsb'_append_eq_of_add_le (by decide)).trans BitVec.extractLsb'_eq_self)))
  have e2 : BitVec.extractLsb' (n := 24) 8 2 ((Opnd.code r) ++ ch ++ n ++ 0#5 ++ p) = n :=
    (BitVec.extractLsb'_append_eq_of_le (by decide)).trans ((BitVec.extractLsb'_append_eq_of_le (by decide)).trans ((BitVec.extractLsb'_append_eq_of_add_le (by decide)).trans BitVec.extractLsb'_eq_self))
  have e3 : BitVec.extractLsb' (n := 24) 3 5 ((Opnd.code r) ++ ch ++ n ++ 0#5 ++ p) = 0#5 :=
    (BitVec.extractLsb'_append_eq_of_le (by decide)).trans ((BitVec.extractLsb'_append_eq_of_add_le (by decide)).trans BitVec.extractLsb'_eq_self)
  have e4 : BitVec.extractLsb' (n := 24) 0 3 ((Opnd.code r) ++ ch ++ n ++ 0#5 ++ p) = p :=
    (BitVec.extractLsb'_append_eq_of_add_le (by decide)).trans BitVec.extractLsb'_eq_self
  refine (decode_uniform ..).trans ?_
  change fields (chk ((BitVec.extractLsb' (n := 24) 3 5 _) == 0#5) (some (.get (Opnd.ofCode (BitVec.extractLsb' (n := 24) 16 8 _)) ((BitVec.extractLsb' (n := 24) 10 6 _)) ((BitVec.extractLsb' (n := 24) 8 2 _)) ((BitVec.extractLsb' (n := 24) 0 3 _))))) = _
  rw [e0, e1, e2, e3, e4]
  simp [fields, chk, Opnd.ofCode_code, hwf]

theorem put r ch n eos : Statement (.put r ch n eos) := by
  intro hwf w0 hen
  obtain rfl := wordEq hen
  change (r.ok && putOk r n eos) = true at hwf
  simp only [Bool.and_eq_true] at hwf
  have e0 : BitVec.extractLsb' (n := 24) 16 8 ((Opnd.code r) ++ ch ++ n ++ 0#7 ++ (BitVec.ofBool eos)) = (Opnd.code r) :=
    (BitVec.extractLsb'_append_eq_of_le (by decide)).trans ((BitVec.extractLsb'_append_eq_of_le (by decide)).trans ((BitVec.extractLsb'_append_eq_of_le (by decide)).trans ((BitVec.extractLsb'_append_eq_of_le (by decide)).trans BitVec.extractLsb'_eq_self)))
  have e1 : BitVec.extractLsb' (n := 24) 10 6 ((Opnd.code r) ++ ch ++ n ++ 0#7 ++ (BitVec.ofBool eos)) = ch :=
    (BitVec.extractLsb'_append_eq_of_le (by decide)).trans ((BitVec.extractLsb'_append_eq_of_le (by decide)).trans ((BitVec.extractLsb'_append_eq_of_le (by decide)).trans ((BitVec.extractLsb'_append_eq_of_add_le (by decide)).trans BitVec.extractLsb'_eq_self)))
  have e2 : BitVec.extractLsb' (n := 24) 8 2 ((Opnd.code r) ++ ch ++ n ++ 0#7 ++ (BitVec.ofBool eos)) = n :=
    (BitVec.extractLsb'_append_eq_of_le (by decide)).trans ((BitVec.extractLsb'_append_eq_of_le (by decide)).trans ((BitVec.extractLsb'_append_eq_of_add_le (by decide)).trans BitVec.extractLsb'_eq_self))
  have e3 : BitVec.extractLsb' (n := 24) 1 7 ((Opnd.code r) ++ ch ++ n ++ 0#7 ++ (BitVec.ofBool eos)) = 0#7 :=
    (BitVec.extractLsb'_append_eq_of_le (by decide)).trans ((BitVec.extractLsb'_append_eq_of_add_le (by decide)).trans BitVec.extractLsb'_eq_self)
  have e4 : BitVec.extractLsb' (n := 24) 0 1 ((Opnd.code r) ++ ch ++ n ++ 0#7 ++ (BitVec.ofBool eos)) = (BitVec.ofBool eos) :=
    (BitVec.extractLsb'_append_eq_of_add_le (by decide)).trans BitVec.extractLsb'_eq_self
  refine (decode_uniform ..).trans ?_
  change fields (chk ((BitVec.extractLsb' (n := 24) 1 7 _) == 0#7) (chkPut _ (some (.put (Opnd.ofCode (BitVec.extractLsb' (n := 24) 16 8 _)) ((BitVec.extractLsb' (n := 24) 10 6 _)) ((BitVec.extractLsb' (n := 24) 8 2 _)) ((BitVec.extractLsb' (n := 24) 0 1 _) == 1#1))))) = _
  simp [fields, chk, chkPut, Opnd.ofCode_code, hwf, e0, e1, e2, e3, e4]

theorem knot g h : Statement (.knot g h) := by
  intro hwf w0 hen
  obtain rfl := wordEq hen
  have e0 : BitVec.extractLsb' (n := 24) 16 8 (g ++ h ++ 0#8) = g :=
    (BitVec.extractLsb'_append_eq_of_le (by decide)).trans ((BitVec.extractLsb'_append_eq_of_le (by decide)).trans BitVec.extractLsb'_eq_self)
  have e1 : BitVec.extractLsb' (n := 24) 8 8 (g ++ h ++ 0#8) = h :=
    (BitVec.extractLsb'_append_eq_of_le (by decide)).trans ((BitVec.extractLsb'_append_eq_of_add_le (by decide)).trans BitVec.extractLsb'_eq_self)
  have e2 : BitVec.extractLsb' (n := 24) 0 8 (g ++ h ++ 0#8) = 0#8 :=
    (BitVec.extractLsb'_append_eq_of_add_le (by decide)).trans BitVec.extractLsb'_eq_self
  refine (decode_uniform ..).trans ?_
  change fields (chk ((BitVec.extractLsb' (n := 24) 0 8 _) == 0#8) (some (.knot ((BitVec.extractLsb' (n := 24) 16 8 _)) ((BitVec.extractLsb' (n := 24) 8 8 _))))) = _
  rw [e0, e1, e2]
  simp [fields, chk]

theorem skfold d a : Statement (.skfold d a) := by
  intro hwf w0 hen
  obtain rfl := wordEq hen
  change (a.ok) = true at hwf
  have e0 : BitVec.extractLsb' (n := 24) 16 8 ((UDst.code d) ++ (Opnd.code a) ++ 0#8) = (UDst.code d) :=
    (BitVec.extractLsb'_append_eq_of_le (by decide)).trans ((BitVec.extractLsb'_append_eq_of_le (by decide)).trans BitVec.extractLsb'_eq_self)
  have e1 : BitVec.extractLsb' (n := 24) 8 8 ((UDst.code d) ++ (Opnd.code a) ++ 0#8) = (Opnd.code a) :=
    (BitVec.extractLsb'_append_eq_of_le (by decide)).trans ((BitVec.extractLsb'_append_eq_of_add_le (by decide)).trans BitVec.extractLsb'_eq_self)
  have e2 : BitVec.extractLsb' (n := 24) 0 8 ((UDst.code d) ++ (Opnd.code a) ++ 0#8) = 0#8 :=
    (BitVec.extractLsb'_append_eq_of_add_le (by decide)).trans BitVec.extractLsb'_eq_self
  refine (decode_uniform ..).trans ?_
  change fields ((UDst.ofCode? (BitVec.extractLsb' (n := 24) 16 8 _)).bind (fun d => chk ((BitVec.extractLsb' (n := 24) 0 8 _) == 0#8) (some (.skfold d (Opnd.ofCode (BitVec.extractLsb' (n := 24) 8 8 _)))))) = _
  rw [e0, e1, e2]
  simp [fields, chk, Opnd.ofCode_code, hwf]

theorem skspread d a : Statement (.skspread d a) := by
  intro hwf w0 hen
  obtain rfl := wordEq hen
  change (a.ok) = true at hwf
  have e0 : BitVec.extractLsb' (n := 24) 16 8 ((UDst.code d) ++ (Opnd.code a) ++ 0#8) = (UDst.code d) :=
    (BitVec.extractLsb'_append_eq_of_le (by decide)).trans ((BitVec.extractLsb'_append_eq_of_le (by decide)).trans BitVec.extractLsb'_eq_self)
  have e1 : BitVec.extractLsb' (n := 24) 8 8 ((UDst.code d) ++ (Opnd.code a) ++ 0#8) = (Opnd.code a) :=
    (BitVec.extractLsb'_append_eq_of_le (by decide)).trans ((BitVec.extractLsb'_append_eq_of_add_le (by decide)).trans BitVec.extractLsb'_eq_self)
  have e2 : BitVec.extractLsb' (n := 24) 0 8 ((UDst.code d) ++ (Opnd.code a) ++ 0#8) = 0#8 :=
    (BitVec.extractLsb'_append_eq_of_add_le (by decide)).trans BitVec.extractLsb'_eq_self
  refine (decode_uniform ..).trans ?_
  change fields ((UDst.ofCode? (BitVec.extractLsb' (n := 24) 16 8 _)).bind (fun d => chk ((BitVec.extractLsb' (n := 24) 0 8 _) == 0#8) (some (.skspread d (Opnd.ofCode (BitVec.extractLsb' (n := 24) 8 8 _)))))) = _
  rw [e0, e1, e2]
  simp [fields, chk, Opnd.ofCode_code, hwf]

theorem skqry d a : Statement (.skqry d a) := by
  intro hwf w0 hen
  obtain rfl := wordEq hen
  change (a.ok) = true at hwf
  have e0 : BitVec.extractLsb' (n := 24) 16 8 ((UDst.code d) ++ (Opnd.code a) ++ 0#8) = (UDst.code d) :=
    (BitVec.extractLsb'_append_eq_of_le (by decide)).trans ((BitVec.extractLsb'_append_eq_of_le (by decide)).trans BitVec.extractLsb'_eq_self)
  have e1 : BitVec.extractLsb' (n := 24) 8 8 ((UDst.code d) ++ (Opnd.code a) ++ 0#8) = (Opnd.code a) :=
    (BitVec.extractLsb'_append_eq_of_le (by decide)).trans ((BitVec.extractLsb'_append_eq_of_add_le (by decide)).trans BitVec.extractLsb'_eq_self)
  have e2 : BitVec.extractLsb' (n := 24) 0 8 ((UDst.code d) ++ (Opnd.code a) ++ 0#8) = 0#8 :=
    (BitVec.extractLsb'_append_eq_of_add_le (by decide)).trans BitVec.extractLsb'_eq_self
  refine (decode_uniform ..).trans ?_
  change fields ((UDst.ofCode? (BitVec.extractLsb' (n := 24) 16 8 _)).bind (fun d => chk ((BitVec.extractLsb' (n := 24) 0 8 _) == 0#8) (some (.skqry d (Opnd.ofCode (BitVec.extractLsb' (n := 24) 8 8 _)))))) = _
  rw [e0, e1, e2]
  simp [fields, chk, Opnd.ofCode_code, hwf]

theorem launch a : Statement (.launch a) := by
  intro hwf w0 hen
  obtain rfl := wordEq hen
  change (a.ok) = true at hwf
  have e0 : BitVec.extractLsb' (n := 24) 16 8 ((Opnd.code a) ++ 0#8 ++ 0#8) = (Opnd.code a) :=
    (BitVec.extractLsb'_append_eq_of_le (by decide)).trans ((BitVec.extractLsb'_append_eq_of_le (by decide)).trans BitVec.extractLsb'_eq_self)
  have e1 : BitVec.extractLsb' (n := 24) 8 8 ((Opnd.code a) ++ 0#8 ++ 0#8) = 0#8 :=
    (BitVec.extractLsb'_append_eq_of_le (by decide)).trans ((BitVec.extractLsb'_append_eq_of_add_le (by decide)).trans BitVec.extractLsb'_eq_self)
  have e2 : BitVec.extractLsb' (n := 24) 0 8 ((Opnd.code a) ++ 0#8 ++ 0#8) = 0#8 :=
    (BitVec.extractLsb'_append_eq_of_add_le (by decide)).trans BitVec.extractLsb'_eq_self
  refine (decode_uniform ..).trans ?_
  change fields (chk ((BitVec.extractLsb' (n := 24) 8 8 _) == 0#8) (chk ((BitVec.extractLsb' (n := 24) 0 8 _) == 0#8) (some (.launch (Opnd.ofCode (BitVec.extractLsb' (n := 24) 16 8 _)))))) = _
  rw [e0, e1, e2]
  simp [fields, chk, Opnd.ofCode_code, hwf]

theorem suspend k : Statement (.suspend k) := by
  intro hwf w0 hen
  obtain rfl := wordEq hen
  change (k.ok) = true at hwf
  refine (decode_uniform ..).trans ?_
  change fields ((Susp.ofCode? _).bind (fun k => some (.suspend k))) = _
  simp [fields, Susp.ofCode?_code, hwf]

theorem lqry d a : Statement (.lqry d a) := by
  intro hwf w0 hen
  obtain rfl := wordEq hen
  change (a.ok) = true at hwf
  have e0 : BitVec.extractLsb' (n := 24) 16 8 ((UDst.code d) ++ (Opnd.code a) ++ 0#8) = (UDst.code d) :=
    (BitVec.extractLsb'_append_eq_of_le (by decide)).trans ((BitVec.extractLsb'_append_eq_of_le (by decide)).trans BitVec.extractLsb'_eq_self)
  have e1 : BitVec.extractLsb' (n := 24) 8 8 ((UDst.code d) ++ (Opnd.code a) ++ 0#8) = (Opnd.code a) :=
    (BitVec.extractLsb'_append_eq_of_le (by decide)).trans ((BitVec.extractLsb'_append_eq_of_add_le (by decide)).trans BitVec.extractLsb'_eq_self)
  have e2 : BitVec.extractLsb' (n := 24) 0 8 ((UDst.code d) ++ (Opnd.code a) ++ 0#8) = 0#8 :=
    (BitVec.extractLsb'_append_eq_of_add_le (by decide)).trans BitVec.extractLsb'_eq_self
  refine (decode_uniform ..).trans ?_
  change fields ((UDst.ofCode? (BitVec.extractLsb' (n := 24) 16 8 _)).bind (fun d => chk ((BitVec.extractLsb' (n := 24) 0 8 _) == 0#8) (some (.lqry d (Opnd.ofCode (BitVec.extractLsb' (n := 24) 8 8 _)))))) = _
  rw [e0, e1, e2]
  simp [fields, chk, Opnd.ofCode_code, hwf]

theorem srd s reg idx : Statement (.srd s reg idx) := by
  intro hwf w0 hen
  obtain rfl := wordEq hen
  change (reg.ok) = true at hwf
  have e0 : BitVec.extractLsb' (n := 24) 19 5 (s ++ (SysReg.code reg) ++ idx) = s :=
    (BitVec.extractLsb'_append_eq_of_le (by decide)).trans ((BitVec.extractLsb'_append_eq_of_le (by decide)).trans BitVec.extractLsb'_eq_self)
  have e1 : BitVec.extractLsb' (n := 24) 8 11 (s ++ (SysReg.code reg) ++ idx) = (SysReg.code reg) :=
    (BitVec.extractLsb'_append_eq_of_le (by decide)).trans ((BitVec.extractLsb'_append_eq_of_add_le (by decide)).trans BitVec.extractLsb'_eq_self)
  have e2 : BitVec.extractLsb' (n := 24) 0 8 (s ++ (SysReg.code reg) ++ idx) = idx :=
    (BitVec.extractLsb'_append_eq_of_add_le (by decide)).trans BitVec.extractLsb'_eq_self
  refine (decode_uniform ..).trans ?_
  change fields (some (.srd ((BitVec.extractLsb' (n := 24) 19 5 _)) (SysReg.ofCode (BitVec.extractLsb' (n := 24) 8 11 _)) ((BitVec.extractLsb' (n := 24) 0 8 _)))) = _
  rw [e0, e1, e2]
  simp [fields, SysReg.ofCode_code, hwf]

theorem swr s reg idx : Statement (.swr s reg idx) := by
  intro hwf w0 hen
  obtain rfl := wordEq hen
  change (reg.ok) = true at hwf
  have e0 : BitVec.extractLsb' (n := 24) 19 5 (s ++ (SysReg.code reg) ++ idx) = s :=
    (BitVec.extractLsb'_append_eq_of_le (by decide)).trans ((BitVec.extractLsb'_append_eq_of_le (by decide)).trans BitVec.extractLsb'_eq_self)
  have e1 : BitVec.extractLsb' (n := 24) 8 11 (s ++ (SysReg.code reg) ++ idx) = (SysReg.code reg) :=
    (BitVec.extractLsb'_append_eq_of_le (by decide)).trans ((BitVec.extractLsb'_append_eq_of_add_le (by decide)).trans BitVec.extractLsb'_eq_self)
  have e2 : BitVec.extractLsb' (n := 24) 0 8 (s ++ (SysReg.code reg) ++ idx) = idx :=
    (BitVec.extractLsb'_append_eq_of_add_le (by decide)).trans BitVec.extractLsb'_eq_self
  refine (decode_uniform ..).trans ?_
  change fields (some (.swr ((BitVec.extractLsb' (n := 24) 19 5 _)) (SysReg.ofCode (BitVec.extractLsb' (n := 24) 8 11 _)) ((BitVec.extractLsb' (n := 24) 0 8 _)))) = _
  rw [e0, e1, e2]
  simp [fields, SysReg.ofCode_code, hwf]

theorem trap imm : Statement (.trap imm) := by
  intro hwf w0 hen
  obtain rfl := wordEq hen
  refine (decode_uniform ..).trans ?_
  change fields (some (.trap ((BitVec.extractLsb' (n := 24) 0 24 (imm))))) = _
  simp [fields]

theorem tret : Statement (.tret) := by
  intro hwf w0 hen
  obtain rfl := wordEq hen
  refine (decode_uniform ..).trans ?_
  change fields (chk ((BitVec.extractLsb' (n := 24) 0 24 (0#24)) == 0#24) (some (.tret))) = _
  simp [fields, chk]

theorem brk imm : Statement (.brk imm) := by
  intro hwf w0 hen
  obtain rfl := wordEq hen
  refine (decode_uniform ..).trans ?_
  change fields (some (.brk ((BitVec.extractLsb' (n := 24) 0 24 (imm))))) = _
  simp [fields]

theorem railsGood : Statement (.railsGood) := by intro _ w h; cases h

theorem fullReset cfg : Statement (.fullReset cfg) := by intro _ w h; cases h

theorem recoveryImage img : Statement (.recoveryImage img) := by intro _ w h; cases h

theorem firmwareUpdate img powerFails : Statement (.firmwareUpdate img powerFails) := by intro _ w h; cases h

theorem throttleEvaluation temps above : Statement (.throttleEvaluation temps above) := by intro _ w h; cases h

theorem thermtrip die temp : Statement (.thermtrip die temp) := by intro _ w h; cases h

theorem thstatTrippedClear die v : Statement (.thstatTrippedClear die v) := by intro _ w h; cases h

theorem flitReceive l flit : Statement (.flitReceive l flit) := by intro _ w h; cases h

theorem replayRequest l fseq : Statement (.replayRequest l fseq) := by intro _ w h; cases h

theorem portRetrain p : Statement (.portRetrain p) := by intro _ w h; cases h

theorem portTrainingDone p lanes : Statement (.portTrainingDone p lanes) := by intro _ w h; cases h

theorem boundaryRetrain b : Statement (.boundaryRetrain b) := by intro _ w h; cases h

theorem boundaryTrainingDone b ok : Statement (.boundaryTrainingDone b ok) := by intro _ w h; cases h

theorem diePacketArrival src dst : Statement (.diePacketArrival src dst) := by intro _ w h; cases h

theorem vectorAnnounce src : Statement (.vectorAnnounce src) := by intro _ w h; cases h

theorem remoteWriteApply home k : Statement (.remoteWriteApply home k) := by intro _ w h; cases h

theorem remoteReadPerform home k : Statement (.remoteReadPerform home k) := by intro _ w h; cases h

theorem readResponseArrival r : Statement (.readResponseArrival r) := by intro _ w h; cases h

theorem gpqctlQuiesce p : Statement (.gpqctlQuiesce p) := by intro _ w h; cases h

theorem gpqctlResume p : Statement (.gpqctlResume p) := by intro _ w h; cases h

theorem portQuiesceDone p : Statement (.portQuiesceDone p) := by intro _ w h; cases h

theorem grtabWrite die node v : Statement (.grtabWrite die node v) := by intro _ w h; cases h

theorem packetWrite port pk : Statement (.packetWrite port pk) := by intro _ w h; cases h

theorem packetRead port pk : Statement (.packetRead port pk) := by intro _ w h; cases h

theorem packetAtomic port pk : Statement (.packetAtomic port pk) := by intro _ w h; cases h

theorem packetSignal port pk : Statement (.packetSignal port pk) := by intro _ w h; cases h

theorem signalApply k : Statement (.signalApply k) := by intro _ w h; cases h

theorem reduceContribution pk : Statement (.reduceContribution pk) := by intro _ w h; cases h

theorem localReduceCombine k : Statement (.localReduceCombine k) := by intro _ w h; cases h

theorem ackResponse pk : Statement (.ackResponse pk) := by intro _ w h; cases h

theorem atomresResponse pk : Statement (.atomresResponse pk) := by intro _ w h; cases h

theorem errorResponse pk : Statement (.errorResponse pk) := by intro _ w h; cases h

theorem lockInterfaceRequest vf keyed : Statement (.lockInterfaceRequest vf keyed) := by intro _ w h; cases h

theorem getDeviceInterfaceReport vf : Statement (.getDeviceInterfaceReport vf) := by intro _ w h; cases h

theorem startInterfaceRequest vf : Statement (.startInterfaceRequest vf) := by intro _ w h; cases h

theorem stopInterfaceRequest vf : Statement (.stopInterfaceRequest vf) := by intro _ w h; cases h

theorem stopScrubDone vf : Statement (.stopScrubDone vf) := by intro _ w h; cases h

theorem lockedRegisterWrite vf reg v : Statement (.lockedRegisterWrite vf reg v) := by intro _ w h; cases h

theorem ideIntegrityFailure vf : Statement (.ideIntegrityFailure vf) := by intro _ w h; cases h

theorem spdmMeasurements nonce : Statement (.spdmMeasurements nonce) := by intro _ w h; cases h

theorem launchRecordWrite vf win off data ide : Statement (.launchRecordWrite vf win off data ide) := by intro _ w h; cases h

theorem lwcfgWrite vf win v : Statement (.lwcfgWrite vf win v) := by intro _ w h; cases h

theorem systemRegisterWrite w : Statement (.systemRegisterWrite w) := by intro _ w h; cases h

theorem tepcWrite t u v : Statement (.tepcWrite t u v) := by intro _ w h; cases h

theorem tlbinvWrite part v : Statement (.tlbinvWrite part v) := by intro _ w h; cases h

theorem htlbinvWrite vf v : Statement (.htlbinvWrite vf v) := by intro _ w h; cases h

theorem tlbinvComplete part : Statement (.tlbinvComplete part) := by intro _ w h; cases h

theorem translationWalk t vf va : Statement (.translationWalk t vf va) := by intro _ w h; cases h

theorem shdiscWrite part slot : Statement (.shdiscWrite part slot) := by intro _ w h; cases h

theorem skreqReel part desc : Statement (.skreqReel part desc) := by intro _ w h; cases h

theorem skreqUnreel part desc : Statement (.skreqUnreel part desc) := by intro _ w h; cases h

theorem skreqExport part desc : Statement (.skreqExport part desc) := by intro _ w h; cases h

theorem worldMoveRequest granule secure : Statement (.worldMoveRequest granule secure) := by intro _ w h; cases h

theorem worldMoveComplete granule : Statement (.worldMoveComplete granule) := by intro _ w h; cases h

theorem queueAgeTimer part q : Statement (.queueAgeTimer part q) := by intro _ w h; cases h

theorem placeBlock part tiles : Statement (.placeBlock part tiles) := by intro _ w h; cases h

theorem timeSliceBoundary part : Statement (.timeSliceBoundary part) := by intro _ w h; cases h

theorem usedUpdate t : Statement (.usedUpdate t) := by intro _ w h; cases h

theorem gridCompletion grid : Statement (.gridCompletion grid) := by intro _ w h; cases h

theorem scrubComplete t : Statement (.scrubComplete t) := by intro _ w h; cases h

theorem freezeRequest t debug : Statement (.freezeRequest t debug) := by intro _ w h; cases h

theorem drainComplete t : Statement (.drainComplete t) := by intro _ w h; cases h

theorem sheafSaveDone t : Statement (.sheafSaveDone t) := by intro _ w h; cases h

theorem sheafRestore part slot t : Statement (.sheafRestore part slot t) := by intro _ w h; cases h

theorem sheafRestoreDone t : Statement (.sheafRestoreDone t) := by intro _ w h; cases h

theorem debugResume t subs : Statement (.debugResume t subs) := by intro _ w h; cases h

theorem debugSaveRequest t : Statement (.debugSaveRequest t) := by intro _ w h; cases h

theorem debugScanAccess t acc : Statement (.debugScanAccess t acc) := by intro _ w h; cases h

theorem binTimerExpiry t bin : Statement (.binTimerExpiry t bin) := by intro _ w h; cases h

theorem binFormGang t bin : Statement (.binFormGang t bin) := by intro _ w h; cases h

theorem binStoreDeadlock t : Statement (.binStoreDeadlock t) := by intro _ w h; cases h

theorem monitorWatchFire t run : Statement (.monitorWatchFire t run) := by intro _ w h; cases h

theorem monitorPoll t run : Statement (.monitorPoll t run) := by intro _ w h; cases h

theorem suspendDelayExpiry t run : Statement (.suspendDelayExpiry t run) := by intro _ w h; cases h

theorem logEntryComplete t u sl slot : Statement (.logEntryComplete t u sl slot) := by intro _ w h; cases h

theorem trapEntry t u : Statement (.trapEntry t u) := by intro _ w h; cases h

theorem impreciseReportTaken t u : Statement (.impreciseReportTaken t u) := by intro _ w h; cases h

theorem tileStateError t gang code : Statement (.tileStateError t gang code) := by intro _ w h; cases h

theorem dataError e : Statement (.dataError e) := by intro _ w h; cases h

theorem correctedError w : Statement (.correctedError w) := by intro _ w h; cases h

theorem patrolScrub line found : Statement (.patrolScrub line found) := by intro _ w h; cases h

theorem engineCommandComplete t id : Statement (.engineCommandComplete t id) := by intro _ w h; cases h

theorem barrierByteCount t id n : Statement (.barrierByteCount t id n) := by intro _ w h; cases h

theorem linkedStart t id : Statement (.linkedStart t id) := by intro _ w h; cases h

theorem strandOpApply home k : Statement (.strandOpApply home k) := by intro _ w h; cases h

theorem strandResponse k : Statement (.strandResponse k) := by intro _ w h; cases h

theorem channelItemArrival part sk link : Statement (.channelItemArrival part sk link) := by intro _ w h; cases h

theorem distributorReelRequest part sk : Statement (.distributorReelRequest part sk) := by intro _ w h; cases h

theorem stageGangPlace part sk stage t : Statement (.stageGangPlace part sk stage t) := by intro _ w h; cases h

theorem skeinGatherDone part sk : Statement (.skeinGatherDone part sk) := by intro _ w h; cases h

theorem skeinCopyDone part sk : Statement (.skeinCopyDone part sk) := by intro _ w h; cases h

theorem skeinUnreelAtKnot part sk : Statement (.skeinUnreelAtKnot part sk) := by intro _ w h; cases h

theorem skeinExportAtKnot part sk : Statement (.skeinExportAtKnot part sk) := by intro _ w h; cases h

theorem skeinSwitchTimeout part sk : Statement (.skeinSwitchTimeout part sk) := by intro _ w h; cases h

theorem railsRemoved : Statement (.railsRemoved) := by intro _ w h; cases h

theorem freedSlotNoticeArrival part sk link : Statement (.freedSlotNoticeArrival part sk link) := by intro _ w h; cases h

theorem distributorUnreelRequest part sk : Statement (.distributorUnreelRequest part sk) := by intro _ w h; cases h

end Sys2Proof.Laws.RoundTrip
end

