-- ==== Sys2Proof/Laws/Skeins.lean ====
section
/-!
SUPPORT. What channel and skein instructions do once their operands pass.
-/
set_option linter.unusedSimpArgs false
set_option linter.unusedVariables false
namespace Sys2Proof.Machine

theorem retire_eq (s : State) (I : Issuer) (k : RunKind) (U : Sub) : retire s I k U = .next (s.setSub I.t I.u (U.retire k)) := rfl

theorem channelOp_runs {i : Instr} {lane : Bool} {u : Use} {c : Nat} {row : Bool} {width : Nat} {f : State → Issuer → Win → Chan → Out1} {s : State} {I : Issuer}
    (h : Issues s i false [u] I) (hx : exec i s = channelOp s i lane [u] c row width f) : 
    exec i s = if I.gang.isStage then trapWhole { s with free := s.free + 1 } I lane 4 7 (Config.freeWord s.free 0)
      else if I.gang.detached then trapWhole { s with free := s.free + 1 } I lane 4 6 (Config.freeWord s.free 0)
      else if s.isLink I.block c then trapWhole s I lane 8 2 (wordOf i ||| (BitVec.ofNat 64 c <<< 32))
      else if !(lane && !row && I.sub.actives.isEmpty) && !(I.block.chan c).entries.isEmpty && ((I.block.chan c).row != row || (I.block.chan c).width != width) then
        trapWhole s I lane 8 1 (wordOf i ||| (BitVec.ofNat 64 c <<< 32))
      else if !(lane && !row && I.sub.actives.isEmpty) && !I.sub.quiet then wait s I
      else becomeNonRetry s I fun s' I' => f s' I' (s.window I) (I'.block.chan c) := by
  rw [hx]
  unfold channelOp
  rw [h.plain]
  rfl

theorem inStage_of {s : State} {I : Issuer} {p k : Nat} {K : Skein} {m : Nat} {st : Stage} (h : InStage s I p k K m st) (f : Nat → Nat → Skein → Nat → Stage → Out1) :
    inStage s I f = f p k K m st := by
  obtain ⟨h1, h2, h3⟩ := h
  unfold inStage
  rw [h1, h2, h3]

theorem inStage_not {s : State} {I : Issuer} (h : ∀ p k K m st, ¬ InStage s I p k K m st) (f : Nat → Nat → Skein → Nat → Stage → Out1) :
    inStage s I f = trapNoAddr s I 16 6 := by
  unfold inStage
  split
  · next p k K m st h1 h2 h3 => exact absurd ⟨h1, h2, h3⟩ (h p k K m st)
  · rfl

/-- GET and PUT up to what they do on their link. -/
def linkRuns (F : LinkForm) (s : State) (I : Issuer) (f : Nat → Nat → Skein → Nat → Stage → Nat → SkLink → Out1) : Out1 :=
  inStage s I fun p k K m st =>
    if !(K.links.any fun l => l.ch == F.ch) then trapNoAddr s I 4 7
    else
      match F.cause I K m st with
      | some c => trapSkein s I K c
      | none =>
        if K.stopping then stopAtKnot s I p k K m st (if F.get then 1 else 2) st.all
        else
          match (F.link m).bind fun q => (K.links[q]?).map fun l => (q, l) with
          | some (q, l) => f p k K m st q l
          | none => trapSkein s I K 2

theorem linkOp_runs {F : LinkForm} {i : Instr} {r : Opnd} {ch : BitVec 6} {us : Issuer → List Use} {s : State} {I : Issuer}
    {f : State → Issuer → Win → Nat → Nat → Skein → Nat → Stage → Nat → SkLink → Out1} (h : Issues s i false (us I) I)
    (hc : F.ch = ch.toNat) (hx : F.item = true → F.first = itemReg r) :
    linkOp s i r ch F.width us F.item F.get f = linkRuns F s I (f s I (s.window I)) := by
  unfold linkOp
  rw [withIssuer_of h.issuer]
  dsimp only
  rw [h.plain]
  unfold linkRuns
  refine congrArg (inStage s I) ?_
  funext p k K m st
  rw [hc]
  split
  · rfl
  · unfold LinkForm.cause LinkForm.link
    have hm : (if F.get && m == 0 then (none : Option SkLink) else K.links[if F.get then m - 1 else m]?) = (if F.get then (if m = 0 then none else some (m - 1)) else some m : Option Nat).bind fun q => K.links[q]? := by
      cases F.get with
      | false => rfl
      | true => cases m <;> rfl
    rw [hm]
    generalize hl : (if F.get then m - 1 else m) = li
    have hq : ∀ q, (if F.get then (if m = 0 then none else some (m - 1)) else some m : Option Nat) = some q → q = li := by
      intro q hq
      cases hg : F.get with
      | false => rw [hg] at hq hl; rw [← hl]; exact (Option.some.inj hq).symm
      | true =>
        rw [hg] at hq hl; rw [← hl]
        cases m with
        | zero => cases hq
        | succ m => exact (Option.some.inj hq).symm
    generalize (if F.get then (if m = 0 then none else some (m - 1)) else some m : Option Nat) = oq at hq ⊢
    cases oq with
    | none => rfl
    | some q =>
      cases hq q rfl
      simp only [Option.bind_some]
      cases hk : K.links[li]? with
      | none => rfl
      | some l =>
        simp only [Option.map_some]
        rw [hc]
        by_cases h1 : l.ch = ch.toNat
        · have n1 : ¬ l.ch ≠ ch.toNat := fun e => e h1
          rw [if_neg n1, if_neg n1]
          have b2 : (F.item && decide (8 * st.win < itemReg r + F.width)) = true ↔ F.item = true ∧ 8 * st.win < F.first + F.width := by
            rw [Bool.and_eq_true, decide_eq_true_eq]
            exact ⟨fun ⟨a, b⟩ => ⟨a, by rw [hx a]; exact b⟩, fun ⟨a, b⟩ => ⟨a, by rw [← hx a]; exact b⟩⟩
          have b3 : (!F.get && st.eos) = true ↔ F.get = false ∧ st.eos = true := by simp
          have b4 : (!wholeGang I) = true ↔ wholeGang I = false := by simp
          have b5 : (F.item && F.width != l.item) = true ↔ F.item = true ∧ F.width ≠ l.item := by simp
          by_cases h2 : F.item = true ∧ 8 * st.win < F.first + F.width
          · rw [if_pos h2]; exact if_pos (b2.mpr h2)
          · rw [if_neg h2]; refine (if_neg (fun e => h2 (b2.mp e))).trans ?_
            by_cases h3 : F.get = false ∧ st.eos = true
            · rw [if_pos h3]; exact if_pos (b3.mpr h3)
            · rw [if_neg h3]; refine (if_neg (fun e => h3 (b3.mp e))).trans ?_
              by_cases h4 : wholeGang I = false
              · rw [if_pos h4]; exact if_pos (b4.mpr h4)
              · rw [if_neg h4]; refine (if_neg (fun e => h4 (b4.mp e))).trans ?_
                by_cases h5 : F.item = true ∧ F.width ≠ l.item
                · rw [if_pos h5]; exact if_pos (b5.mpr h5)
                · rw [if_neg h5]; exact if_neg (fun e => h5 (b5.mp e))
        · rw [if_pos h1, if_pos h1]

/-- What GET does on its link. -/
def getDoes (r : Opnd) (n : BitVec 2) (pm : BitVec 3) (s : State) (I : Issuer) (W : Win) (p k : Nat) (K : Skein) (m : Nat) (st : Stage) (li : Nat) (l : SkLink) : Out1 :=
  let width := n.toNat + 1
  let lanes := 4 * K.slices
  let dst := itemReg r
  let done := fun (s : State) (row : Option (List W32)) => retireSk s I (takeRow W I.sub lanes dst width pm row)
  if K.folded then
    let off := K.ringAt li
    let row := rowBytes K.slices l.item
    let (h, t, eos) := I.block.ring off
    if h ≠ t then
      let B := I.block.setWord off (h + 1)
      done (s.setBlock I.t I.gang.ctx B) (some (I.block.ringRow off row (h % l.depth)))
    else if eos ≠ 0 then done s none
    else leaveStage s I p k K m st 1 (m - 1)
  else
    match l.rows with
    | [] => wait s I
    | none :: _ => done s none
    | some ws :: rest => done (s.setSkein p k (K.setLink li { l with rows := rest, notices := l.notices + 1 })) (some ws)

/-- What PUT does on its link. -/
def putDoes (r : Opnd) (n : BitVec 2) (eos : Bool) (s : State) (I : Issuer) (W : Win) (p k : Nat) (K : Skein) (m : Nat) (st : Stage) (li : Nat) (l : SkLink) : Out1 :=
  let width := n.toNat + 1
  let row := buildRow W I.sub (4 * K.slices) (itemReg r) width
  let K1 := if eos then K.setStage m { st with eos := true } else K
  let gone := match K.stages[m + 1]? with | some c => c.gone | none => true
  if gone then retireSk (s.setSkein p k K1) I I.sub
  else if K.folded then
    let off := K.ringAt li
    let (h, t, _) := I.block.ring off
    if eos then retireSk ((s.setSkein p k K1).setBlock I.t I.gang.ctx (I.block.setWord (off + 8) 1)) I I.sub
    else if (t + 2 ^ 32 - h) % 2 ^ 32 < l.depth then
      let B := (I.block.putRow off (rowBytes K.slices l.item) (t % l.depth) row).setWord (off + 4) (t + 1)
      retireSk (s.setBlock I.t I.gang.ctx B) I I.sub
    else leaveStage s I p k K m st 2 (m + 1)
  else
    let x := if eos then none else some row
    let credit := if eos then 0 else 1
    let held := !l.waiting.isEmpty || !(match K.stages[m + 1]? with | some c => s.stageOpen c | none => true)
    if !eos && decide (l.credits ≤ (l.waiting.filter Option.isSome).length) then wait s I
    else if held then retireSk (s.setSkein p k (K1.setLink li { l with waiting := l.waiting ++ [x] })) I I.sub
    else retireSk (s.setSkein p k (K1.setLink li { l with credits := l.credits - credit, flight := l.flight ++ [x] })) I I.sub

theorem get_runs {x : BitVec 7} {ch : BitVec 6} {n : BitVec 2} {pm : BitVec 3} {s : State} {I : Issuer} {F : LinkForm} (hF : linkForm (.get (.v x) ch n pm) = some F)
    (h : Issues s (.get (.v x) ch n pm) false (F.uses I) I) : exec (.get (.v x) ch n pm) s = linkRuns F s I (getDoes (.v x) n pm s I (s.window I)) := by
  cases hF
  show execGet (.v x) ch n pm s = _
  unfold execGet
  exact linkOp_runs (F := ⟨fun I => [itemOf I x (n.toNat + 1) true, .prd pm], ch.toNat, x.toNat, n.toNat + 1, true, true⟩) h rfl (fun _ => rfl)

theorem put_runs {r : Opnd} {ch : BitVec 6} {n : BitVec 2} {eos : Bool} {s : State} {I : Issuer} {F : LinkForm} (hF : linkForm (.put r ch n eos) = some F)
    (h : Issues s (.put r ch n eos) false (F.uses I) I) : exec (.put r ch n eos) s = linkRuns F s I (putDoes r n eos s I (s.window I)) ∧ (eos = false → F.first = itemReg r ∧ F.width = n.toNat + 1) := by
  cases eos with
  | false =>
    cases r with
    | v x =>
      cases hF
      refine ⟨?_, fun _ => ⟨rfl, rfl⟩⟩
      show execPut (.v x) ch n false s = _
      unfold execPut
      exact linkOp_runs (F := ⟨fun I => [itemOf I x (n.toNat + 1) false], ch.toNat, x.toNat, n.toNat + 1, true, false⟩) h rfl (fun _ => rfl)
    | _ => cases hF
  | true =>
    have hF' : F = ⟨fun _ => [], ch.toNat, 0, n.toNat + 1, false, false⟩ := by
      cases r <;> exact (Option.some.inj hF).symm
    subst hF'
    refine ⟨?_, fun h => by cases h⟩
    show execPut r ch n true s = _
    unfold execPut
    exact linkOp_runs (F := ⟨fun _ => [], ch.toNat, 0, n.toNat + 1, false, false⟩) h rfl (fun e => by cases e)

theorem stopAtKnot_does {s : State} {i : Instr} {I : Issuer} {p k : Nat} {K : Skein} {m : Nat} {st : Stage} {kind : Nat} {live : BitVec 16} (hi : s.issuer = some I)
    (h : exec i s = stopAtKnot s I p k K m st kind live) : StopsAtKnot s i I p k K m st kind live := by
  unfold stopAtKnot at h
  refine ⟨fun q => (h.trans (if_pos (by rw [q]; rfl))).trans (wait_eq hi), fun q => (h.trans (if_neg (by rw [q]; simp))).trans ?_⟩
  have hi' : (s.setSkein p k (K.stopped I m st kind live)).issuer = some I := by
    unfold State.setSkein; split <;> exact hi
  have := wait_eq hi'
  refine Eq.trans (b := wait (s.setSkein p k (K.stopped I m st kind live)) I) ?_ (this.trans ?_)
  · unfold Skein.stopped; cases K.sw <;> rfl
  · unfold State.setSkein; cases s.part p <;> rfl

theorem link_runs {i : Instr} {F : LinkForm} {s : State} {I : Issuer} {f} (hi : s.issuer = some I) (hx : exec i s = linkRuns F s I f) :
    ((∀ p k K m st, ¬ InStage s I p k K m st) → TrapsFree s i I 16 6) ∧
    ∀ p k K m st, InStage s I p k K m st →
      ((∀ l ∈ K.links, l.ch ≠ F.ch) → TrapsFree s i I 4 7) ∧
      ((∃ l ∈ K.links, l.ch = F.ch) →
        (∀ c, F.cause I K m st = some c → Traps s i I 16 c K.desc) ∧
        (F.cause I K m st = none → K.stopping = true → StopsAtKnot s i I p k K m st (if F.get then 1 else 2) st.all) ∧
        (F.cause I K m st = none → K.stopping = false → ∀ q l, F.link m = some q → K.links[q]? = some l → exec i s = f p k K m st q l)) := by
  unfold linkRuns at hx
  refine ⟨fun hn => ?_, fun p k K m st hs => ?_⟩
  · rw [inStage_not hn] at hx; exact ⟨_, hx⟩
  · rw [inStage_of hs] at hx
    refine ⟨fun hl => ?_, fun ⟨l, hl, hlc⟩ => ?_⟩
    · rw [if_pos (by simpa using hl)] at hx; exact ⟨_, hx⟩
    · rw [if_neg (by simp; exact ⟨l, hl, hlc⟩)] at hx
      refine ⟨fun c hc => ?_, fun hc hst => ?_, fun hc hst q l hq hk => ?_⟩
      · rw [hc] at hx; exact hx
      · rw [hc] at hx; dsimp only at hx; rw [if_pos hst] at hx; exact stopAtKnot_does hi hx
      · rw [hc] at hx; dsimp only at hx; rw [if_neg (by rw [hst]; simp), hq] at hx
        simp only [Option.bind_some, hk, Option.map_some] at hx
        exact hx

theorem exec_knot_runs {g h : BitVec 8} {s : State} {I : Issuer} (hi : s.issuer = some I) : exec (.knot g h) s = inStage s I fun p k K m st =>
      let live : BitVec 16 := h ++ g
      if 2 ^ st.win ≤ live.toNat then trapSkein s I K 3
      else if !wholeGang I then trapSkein s I K 5
      else if K.stopping then stopAtKnot s I p k K m st 3 live
      else retireSk s I I.sub := by
  show execKnot g h s = _
  unfold execKnot
  rw [(issues_nil hi _).plain]

theorem form_runs {i : Instr} {F : LinkForm} {s : State} {I : Issuer} (hF : linkForm i = some F) (h : Issues s i false (F.uses I) I) : ∃ f, exec i s = linkRuns F s I f := by
  cases i <;> try cases hF
  case get r ch n pm =>
    cases r with
    | v x => exact ⟨_, get_runs hF h⟩
    | _ => cases hF
  case put r ch n eos => exact ⟨_, (put_runs hF h).1⟩

theorem leaveStage_does {s : State} {i : Instr} {I : Issuer} {p k : Nat} {K : Skein} {m : Nat} {st : Stage} {kind n : Nat} (hi : s.issuer = some I)
    (h : exec i s = leaveStage s I p k K m st kind n) : LeavesStage s i I p k K m st kind n := by
  unfold leaveStage at h
  exact ⟨fun q => (h.trans (if_pos (by rw [q]; rfl))).trans (wait_eq hi), fun q => h.trans (if_neg (by rw [q]; simp))⟩

theorem retire_with {s s' : State} {I : Issuer} (h : s.issuer = some I) (k : SameIssuer s s' I) (g : Sub → Sub) :
    (again s' fun s I => Machine.retire s I .other (g I.sub)) = .next (s'.setSub I.t I.u ((g I.sub).retire .other)) := by
  obtain ⟨B, hi, _⟩ := issuer_keep h k.cur k.subs k.gangs k.blocks
  rw [again_of hi]
  rfl

theorem cancelFills_same (s : State) (t : Nat) (p : Nat → Bool) (I : Issuer) : SameIssuer s (Machine.cancelFills s t p) I := by
  apply SameIssuer.of_tiles <;> rfl

theorem SameIssuer.l1Clear (s : State) (t : Nat) (I : Issuer) : SameIssuer s (s.l1Clear t) I := by
  unfold State.l1Clear State.l1Drop
  refine SameIssuer.trans ?_ (cancelFills_same ..)
  exact SameIssuer.setTile s t _ I rfl rfl (fun _ h => h)

theorem skeinAct_same {s : State} {p : Nat} {P : Part} {B : Block} {t ctx g : Nat} {va : Word} {fa : Nat} {d : SkDesc} {fold : Bool}
    (h : (s.skeinAct p P B t ctx g va fa d fold).2 ≠ 0) : (s.skeinAct p P B t ctx g va fa d fold).1 = s := by
  revert h
  unfold State.skeinAct
  have key : ∀ (x : State × Nat), (x.1 = s ∨ x.2 = 0) → x.2 ≠ 0 → x.1 = s := fun x h h' => h.elim id fun e => absurd e h'
  apply key
  dsimp only
  repeat' split
  all_goals first | exact .inl rfl | exact .inr rfl

end Sys2Proof.Machine
end

