-- ==== Sys2Proof/Laws/Strands.lean ====
section
/-!
SUPPORT. What the home strand unit leaves of a partition.
-/
set_option linter.unusedSimpArgs false
set_option linter.unusedVariables false
namespace Sys2Proof.Machine

theorem strandAt_key {P : Part} {a : W32} {t : Strand} (h : P.strandAt a = some t) : a.setWidth 30 ≠ (0 : BitVec 30) ∧ kget P.strands a.toNat = some t := by
  unfold Part.strandAt at h
  split at h
  · cases h
  · next hz => exact ⟨hz, h⟩

theorem strandAt_of {P : Part} {a : W32} {t : Strand} (hz : a.setWidth 30 ≠ (0 : BitVec 30)) (h : kget P.strands a.toNat = some t) : P.strandAt a = some t := by
  unfold Part.strandAt
  rw [if_neg hz, h]

theorem place_eq {P P' : Part} {seed a : Nat} {t : Strand} {old spare : List Nat} {st : List Stretch} {fit : Bool}
    (h : P.place seed a t old spare st fit = some P') : ∃ segs nodes tn rt, P' = { P with
      strands := kset P.strands a { t with segs := segs, nodes := nodes, editGen := t.editGen + 1 }, tainted := tn, retired := rt } := by
  unfold Part.place at h
  extract_lets at h
  split at h
  · cases h
  · extract_lets at h
    exact ⟨_, _, _, _, (Option.some.inj h).symm⟩

theorem ownCopies_eq {P P' : Part} {seed a : Nat} {t : Strand} {ranks : List Nat} (h : P.ownCopies seed a t ranks = some P') :
    ∃ segs tn rt, P' = { P with
      strands := kset P.strands a { t with segs := segs, editGen := t.editGen + 1 }, tainted := tn, retired := rt } := by
  unfold Part.ownCopies at h
  extract_lets at h
  split at h
  · cases h
  · extract_lets at h
    exact ⟨_, _, _, (Option.some.inj h).symm⟩

theorem holds_put {P P' : Part} {seed : Nat} {a : W32} {t : Strand} {es : List Elem} {gone : List Nat} {old spare : List Nat}
    {st : List Stretch} {fit : Bool} (ht : P.strandAt a = some t)
    (h : P.place seed a.toNat { t with elems := es, gone := gone } old spare st fit = some P') :
    P.Holds P' a es ∧ P.Rest P' [a.toNat] ∧ P'.cursors = P.cursors := by
  obtain ⟨_, _, _, _, rfl⟩ := place_eq h
  obtain ⟨hz, hk⟩ := strandAt_key ht
  refine ⟨⟨t, _, ht, strandAt_of hz (kget_kset_same ..), rfl, rfl, rfl, rfl⟩, ⟨?_, rfl, rfl⟩, rfl⟩
  intro b hb
  exact kget_kset_ne _ _ (by simpa using hb)

theorem newElems_spec (id e n : Nat) (bytes : List Byte) : NewElems id e n bytes (newElems id e n bytes) := by
  refine ⟨by simp [newElems], ?_⟩
  intro k x hx
  unfold newElems at hx
  have hkn : k < n := by
    obtain ⟨h, _⟩ := List.getElem?_eq_some_iff.mp hx
    simpa using h
  rw [List.getElem?_map, List.getElem?_range hkn] at hx
  simp only [Option.map_some, Option.some.injEq] at hx
  subst hx
  refine ⟨rfl, rfl, ?_, ?_⟩
  · simp <;> omega
  · intro j hj
    dsimp only
    rw [List.getD_eq_getElem?_getD, List.getElem?_append]
    split
    · next h1 => rw [List.getElem?_take_of_lt hj, List.getElem?_drop, ← List.getD_eq_getElem?_getD]
    · next h1 =>
      have h1 : (List.take e (List.drop (e * k) bytes)).length ≤ j := Nat.not_lt.mp h1
      have : bytes.length ≤ e * k + j := by simp at h1; omega
      rw [List.getD_eq_getElem?_getD, List.getElem?_eq_none (l := bytes) this, List.getElem?_replicate]
      split <;> rfl

theorem res_does {P : Part} {seed id : Nat} {r : StrandReq} {x P' id'} (h : strandStep P seed id r = (P', id', .res x)) : StrandDoes P seed id r x P' := ⟨id', h⟩

theorem freeIndex_spec {P : Part} {home i : Nat} (h : P.freeIndex home = some i) : kget P.strands (strandId home i) = none ∧ strandId home i / 2 ^ 30 = home := by
  unfold Part.freeIndex at h
  dsimp only at h
  have hp := List.find?_some h
  simp only [Bool.and_eq_true, decide_eq_true_eq, Bool.not_eq_true', List.contains_eq_mem, decide_eq_false_iff_not] at hp
  have hd : strandId home i / 2 ^ 30 = home := by unfold strandId; omega
  refine ⟨?_, hd⟩
  cases hk : kget P.strands (strandId home i) with
  | none => rfl
  | some t =>
    refine absurd ?_ hp.2
    refine List.mem_map.mpr ⟨(strandId home i, t), List.mem_filter.mpr ⟨mem_of_kget hk, by simp [hd, -Nat.reducePow]⟩, ?_⟩
    show strandId home i % 2 ^ 30 = i
    unfold strandId; omega

theorem kget_fold_kset {α : Type} (f : Nat → α) (h : Nat) : ∀ (n : Nat) (m : KMap α),
    (∀ k, k < n → kget ((List.range n).foldl (fun m i => kset m (h + i) (f i)) m) (h + k) = some (f k)) ∧
    (∀ c, (c < h ∨ h + n ≤ c) → kget ((List.range n).foldl (fun m i => kset m (h + i) (f i)) m) c = kget m c) := by
  intro n
  induction n with
  | zero => intro m; exact ⟨fun k hk => absurd hk (by omega), fun c _ => rfl⟩
  | succ n ih =>
    intro m
    rw [List.range_succ, List.foldl_append]
    obtain ⟨a, b⟩ := ih m
    refine ⟨?_, ?_⟩
    · intro k hk
      show kget (kset _ (h + n) (f n)) _ = _
      by_cases e : k = n
      · subst e; exact kget_kset_same ..
      · rw [kget_kset_ne _ _ (by omega)]; exact a k (by omega)
    · intro c hc
      show kget (kset _ (h + n) (f n)) _ = _
      rw [kget_kset_ne _ _ (by omega)]; exact b c (by omega)

theorem freeAnchors_get (P : Part) (f : Nat → Bool) (k : Nat) : kget (P.freeAnchors f).anchors k = (kget P.anchors k).map fun a =>
    match a.elem with
    | some e => if f e then { gen := a.gen + 1, elem := none } else a
    | none => a := by
  unfold Part.freeAnchors
  dsimp only
  rw [kget_kmap]
  all_goals
    cases kget P.anchors k with
    | none => rfl
    | some a => cases a with | mk g e => cases e <;> rfl

theorem tidy_none {P : Part} {k : Nat} (h : kget P.cursors k = none) : kget P.tidyCursors.cursors k = none :=
  kget_kfilter_self P.cursors (fun h c => decide (h < 2 ^ 32) || P.cursors.any fun (h', k) => decide (h' < 2 ^ 32) && k.gap == c.gap) k h

theorem anchorOn_spec {P P' : Part} {home uid : Nat} {tok : Word} (h : P.anchorOn home uid = some (P', tok)) :
    ∃ key gen, P' = { P with anchors := kset P.anchors key ⟨gen, some uid⟩ } ∧ tok.toNat = gen.toNat * 2 ^ 32 + key % 2 ^ 32 ∧
      ∀ A, kget P.anchors key = some A → A.elem = none := by
  unfold Part.anchorOn at h
  cases hfa : P.freeAnchor home with
  | none => rw [hfa] at h; cases h
  | some i =>
    rw [hfa] at h
    dsimp only at h
    have h := Option.some.inj h
    have h1 := congrArg Prod.fst h
    have h2 := congrArg Prod.snd h
    dsimp only at h1 h2
    refine ⟨home * 65536 + i, _, h1.symm, ?_, ?_⟩
    · rw [← h2, BitVec.toNat_append, BitVec.toNat_ofNat, Nat.shiftLeft_eq, Nat.mul_comm, ← Nat.two_pow_add_eq_or_of_lt (Nat.mod_lt _ (by decide))]
    · intro A hA
      cases hAe : A.elem with
      | none => rfl
      | some u =>
        unfold Part.freeAnchor at hfa
        dsimp only at hfa
        split at hfa
        · next hlt =>
          have hp := List.find?_some hfa
          simp only [Bool.not_eq_true', List.contains_eq_mem, decide_eq_false_iff_not] at hp
          have hi : i < 65536 := by
            have := List.mem_range.mp (List.mem_of_find?_eq_some hfa)
            omega
          refine absurd ?_ hp
          refine List.mem_map.mpr ⟨(home * 65536 + i, A), List.mem_filter.mpr ⟨mem_of_kget hA, ?_⟩, ?_⟩
          · simp [hAe]; omega
          · show (home * 65536 + i) % 65536 = i; omega
        · cases hfa

end Sys2Proof.Machine
end

