-- ==== Sys2Proof/Laws/StrandUse.lean ====
section
/-!
SUPPORT. What strand instructions do at issue, and what element accesses leave of a strand.
-/
set_option linter.unusedSimpArgs false
set_option linter.unusedVariables false
namespace Sys2Proof.Machine

theorem rankPart_eq (w : Word) : (rankPart w).1 = wordRank w ∧ (rankPart w).2.1 = wordOff w ∧ ((rankPart w).2.2 = true ↔ w.toNat / 2 ^ 42 = 0) := by
  refine ⟨?_, ?_, ?_⟩
  · show (w.extractLsb' 0 40).toNat = _; rw [BitVec.extractLsb'_toNat]; rfl
  · show 16 * (w.extractLsb' 40 2).toNat = _; rw [BitVec.extractLsb'_toNat, Nat.shiftRight_eq_div_pow]; rfl
  · show (w.extractLsb' 42 22 == 0#22) = true ↔ _
    rw [beq_iff_eq, ← BitVec.toNat_inj, BitVec.extractLsb'_toNat, Nat.shiftRight_eq_div_pow]
    show w.toNat / 2 ^ 42 % 2 ^ 22 = 0 ↔ _
    rw [Nat.mod_eq_of_lt (by have := w.isLt; omega)]

theorem rank_word (w : Word) : (w.extractLsb' 0 40).setWidth 64 = BitVec.ofNat 64 (wordRank w) := by
  apply BitVec.eq_of_toNat_eq
  rw [BitVec.toNat_setWidth, BitVec.extractLsb'_toNat, BitVec.toNat_ofNat]; rfl

theorem reaches_eq (t : Strand) (op : ElemOp) (n : Nat) (w : Word) :
    reaches t w n op.whole = true ↔ Reaches t op n w := by
  obtain ⟨h1, h2, h3⟩ := rankPart_eq w
  unfold reaches Reaches
  rw [← h3, ← h2, ← h1]
  generalize rankPart w = p
  obtain ⟨a, b, c⟩ := p
  cases op <;> simp [and_assoc, ElemOp.whole]

theorem step_elem {P : Part} {seed id : Nat} {r : StrandReq} {op : ElemOp} {n : Nat} (h : elementOp r.i = some (op, n)) :
    strandStep P seed id r = opElem P seed id r.strand op n r.lanes := by
  unfold elementOp at h
  unfold strandStep
  cases hi : r.i <;> rw [hi] at h <;> first | (simp only [Option.some.injEq, Prod.mk.injEq] at h; obtain ⟨rfl, rfl⟩ := h; rfl) | cases h

/-- One lane of an element access that proceeds. -/
theorem elem_one {P : Part} {seed id : Nat} {a : W32} {t : Strand} {op : ElemOp} {n : Nat} {l : Option Nat} {w : Word} {x : BitVec 128}
    (ht : P.strandAt a = some t) (h : Reaches t op n w ∨ op.nf = true) :
    (op.writes = true ∧ opElem P seed id a op n [(l, w, x)] = (P, id, .fail [(l, 6, 3, BitVec.ofNat 64 (wordRank w))])) ∨
    ∃ (P0 : Part) (t0 : Strand), P0.strandAt a = some t0 ∧ P.Rest P0 [a.toNat] ∧ t0.esize = t.esize ∧ t0.elems = t.elems ∧
      (op.writes = false → P0 = P ∧ t0 = t) ∧
      let u := if !reaches t w n op.whole then (t0, (l, (0 : BitVec 128), false, none)) else elemLane P0 t0 op n l w x
      opElem P seed id a op n [(l, w, x)] = ({ P0 with strands := kset P0.strands a.toNat u.1 }, id, .ok [u.2]) := by
  unfold opElem
  rw [ht]
  dsimp only
  rw [if_neg]
  · simp only [List.map_cons, List.map_nil]
    cases hsh : (op.writes && !(P.sharedAt t [(rankPart w).1]).isEmpty) with
    | false =>
      refine .inr ⟨P, t, ht, ⟨fun b _ => rfl, rfl, rfl⟩, rfl, rfl, fun _ => ⟨rfl, rfl⟩, ?_⟩
      simp only [Bool.false_eq_true, if_false, List.foldl_cons, List.foldl_nil, List.nil_append, ht, Option.getD_some]
      cases hr : reaches t w n op.whole <;> simp
    | true =>
      have hw : op.writes = true := by cases ho : op.writes with | true => rfl | false => rw [ho] at hsh; simp at hsh
      simp only [if_true, List.foldl_cons, List.foldl_nil, List.nil_append]
      cases hp : P.ownCopies seed a.toNat t [(rankPart w).1] with
      | none => exact .inl ⟨hw, by rw [rank_word]⟩
      | some P0 =>
        obtain ⟨segs, tn, rt, rfl⟩ := ownCopies_eq hp
        obtain ⟨hz, hk⟩ := strandAt_key ht
        have hs0 := strandAt_of (P := { P with strands := kset P.strands a.toNat { t with segs := segs, editGen := t.editGen + 1 }, tainted := tn, retired := rt })
          hz (kget_kset_same ..)
        refine .inr ⟨_, { t with segs := segs, editGen := t.editGen + 1 }, hs0, ⟨fun b hb => kget_kset_ne _ _ (by simpa using hb), rfl, rfl⟩,
          rfl, rfl, fun h => absurd hw (by rw [h]; simp), ?_⟩
        dsimp only at hs0 ⊢
        rw [hs0]
        simp only [Option.getD_some]
        cases hr : reaches t w n op.whole <;> simp
  · simp only [List.any_cons, List.any_nil, Bool.or_false, Bool.and_eq_true, Bool.not_eq_true', not_and, Bool.not_eq_false]
    intro hnf
    rcases h with h | h
    · exact (reaches_eq ..).mpr h
    · rw [h] at hnf; cases hnf

theorem rest_put {P P0 : Part} {a : W32} (h : P.Rest P0 [a.toNat]) (t : Strand) : P.Rest { P0 with strands := kset P0.strands a.toNat t } [a.toNat] := by
  obtain ⟨h1, h2, h3⟩ := h
  exact ⟨fun b hb => (kget_kset_ne _ _ (by simpa using hb)).trans (h1 b hb), h2, h3⟩

theorem value_eq (e : Elem) (off n : Nat) : leNat (elemBytes e off n) = e.value off n := rfl

theorem natLe_len (n v : Nat) : (natLe n v).length = n := by
  induction n generalizing v with
  | zero => rfl
  | succ n ih => simp [natLe, ih]

theorem natLe_get {n v k : Nat} (h : k < n) : (natLe n v)[k]? = some (BitVec.ofNat 8 (v / 256 ^ k)) := by
  induction n generalizing v k with
  | zero => omega
  | succ n ih =>
    cases k with
    | zero => simp [natLe]
    | succ k =>
      show (natLe n (v / 256))[k]? = _
      rw [ih (by omega), Nat.div_div_eq_div_mul, Nat.pow_succ, Nat.mul_comm]

theorem setElemBytes_spec (e : Elem) (off n v : Nat) : (setElemBytes e off (natLe n v)).bytes.length = e.bytes.length ∧
    (setElemBytes e off (natLe n v)).poison = e.poison ∧ (setElemBytes e off (natLe n v)).uid = e.uid ∧
    ∀ j, j < e.bytes.length → (setElemBytes e off (natLe n v)).bytes.getD j 0 =
      if off ≤ j ∧ j < off + n then BitVec.ofNat 8 (v / 256 ^ (j - off)) else e.bytes.getD j 0 := by
  refine ⟨by simp [setElemBytes], rfl, rfl, ?_⟩
  intro j hj
  unfold setElemBytes
  dsimp only
  rw [List.getD_eq_getElem?_getD, List.getElem?_map, List.getElem?_zipIdx, List.getElem?_eq_getElem hj]
  simp only [Option.map_some, Option.getD_some, Nat.zero_add]
  rw [List.getD_eq_getElem?_getD, List.getElem?_eq_getElem hj, Option.getD_some]
  by_cases h1 : off ≤ j
  · rw [if_pos h1]
    by_cases h2 : j < off + n
    · rw [if_pos ⟨h1, h2⟩, natLe_get (by omega)]; rfl
    · rw [if_neg (fun h => h2 h.2), List.getElem?_eq_none (by rw [natLe_len]; omega)]; rfl
  · rw [if_neg h1, if_neg (fun h => h1 h.1)]

theorem wrote_put {P0 : Part} {a : W32} {t t0 : Strand} {r off n v : Nat} {e : Elem} (hz : a.setWidth 30 ≠ (0 : BitVec 30)) (he : t.elems[r]? = some e)
    (h1 : t0.esize = t.esize) (h2 : t0.elems = t.elems) :
    ({ P0 with strands := kset P0.strands a.toNat { t0 with elems := t0.elems.set r (setElemBytes e off (natLe n v)) } } : Part).Wrote a t r off n v := by
  obtain ⟨s1, s2, s3, s4⟩ := setElemBytes_spec e off n v
  have hlt : r < t0.elems.length := by rw [h2]; exact (List.getElem?_eq_some_iff.mp he).1
  refine ⟨_, strandAt_of hz (kget_kset_same ..), h1, ?_, ?_⟩
  · show (t0.elems.set r _).map _ = _
    rw [← h2]
    apply List.ext_getElem?
    intro k
    rw [List.getElem?_map, List.getElem?_map, List.getElem?_set]
    split
    · next hk =>
      subst hk
      rw [h2, he]
      exact congrArg some s3
    · rfl
  · intro k e1 hk1
    show ∃ e', (t0.elems.set r _)[k]? = some e' ∧ _
    rw [List.getElem?_set]
    split
    · next hk =>
      subst hk
      rw [he] at hk1
      cases hk1
      refine ⟨_, rfl, s1, s2, ?_⟩
      intro j hj
      rw [s4 j hj]
      simp
    · next hk =>
      refine ⟨e1, by rw [h2]; exact hk1, rfl, rfl, ?_⟩
      intro j hj
      rw [if_neg (fun h => hk h.1.symm)]

/-- What a strand instruction that reads no memory does once its operands pass. -/
def StrandRuns (uni : Bool) (i : Instr) (s : State) (I : Issuer) (a : W32) (args : List Word) (as : List Access) : Prop :=
  (as = [] → exec i s = retire s I .other I.sub) ∧
  (as ≠ [] → strandWaits s I uni i a args as = true → exec i s = wait s I) ∧
  (as ≠ [] → strandWaits s I uni i a args as = false → I.gang.free → exec i s = issueStrand s I (s.window I) i a args [] as)

theorem structural_runs {i : Instr} {us : List Use} {f : Win → Sub → W32 × List Word} {s : State} {I : Issuer} (h : Issues s i false us I)
    (hx : exec i s = structural s i us f) {a : W32} {args : List Word} (hf : f (s.window I) I.sub = (a, args)) : StrandRuns true i s I a args [wholeAccess] := by
  have hex : exec i s = if strandWaits s I true i a args [wholeAccess] then wait s I
      else becomeNonRetry s I fun s' I' => issueStrand s' I' (s.window I) i a args [] [wholeAccess] := by
    rw [hx]
    unfold structural
    rw [h.plain, hf]
  refine ⟨fun h => (by cases h), fun _ hw => ?_, fun _ hw hfr => ?_⟩
  · exact hex.trans (if_pos hw)
  · rw [hex, if_neg (by rw [show strandWaits s I true i a args [wholeAccess] = false from hw]; simp), hfr.again]

theorem element_runs {i : Instr} {k : ElemKind} {us : List Use} {sn : Nat} {f : Win → Sub → List (Option Nat × Word × BitVec 128)} {s : State} {I : Issuer}
    (h : Issues s i false us I) (hx : exec i s = element s i k us sn f) (hz : k = .load → ∀ x ∈ f (s.window I) I.sub, x.2.2 = 0) :
    StrandRuns (!isLane i) i s I ((I.sub.sreg sn).setWidth 32) [] ((f (s.window I) I.sub).map fun (l, w, x) => ⟨l, w, x, 0, false, .pending⟩) := by
  unfold element at hx
  rw [h.plain] at hx
  dsimp only [lo32] at hx
  refine ⟨fun ha => ?_, fun ha hw => ?_, fun ha hw hfr => ?_⟩
  · rw [hx, if_pos (by rw [ha]; rfl)]
  · rw [hx, if_neg (by simpa using ha), if_pos hw]
  · rw [if_neg (by simpa using ha), if_neg (by rw [hw]; simp)] at hx
    rw [hx]
    obtain ⟨f1, f2, f3⟩ := hfr
    cases k with
    | load =>
      dsimp only
      rw [f2]
      refine congrArg (issueStrand s I (s.window I) i ((I.sub.sreg sn).setWidth 32) [] []) ?_
      rw [List.map_map]
      refine List.map_congr_left fun x hm => ?_
      obtain ⟨l, w, d⟩ := x
      have := hz rfl _ hm
      dsimp only at this
      subst this
      rfl
    | store => dsimp only; rw [f1]; rfl
    | atomic => exact Gang.free.again ⟨f1, f2, f3⟩ _

theorem perLane_zero {U : Sub} {f : Nat → Word} {x : Option Nat × Word × BitVec 128} (h : x ∈ perLane U f fun _ => 0) : x.2.2 = 0 := by
  unfold perLane at h
  obtain ⟨j, -, rfl⟩ := List.mem_map.mp h
  rfl

theorem strand_runs {i : Instr} {F : StrandForm} {s : State} {I : Issuer} (hF : strandForm i = some F) (h : Issues s i false F.uses I) :
    StrandRuns F.uniform i s I (F.strand I.sub (s.window I)) (F.args I.sub (s.window I)) (F.accesses s I) := by
  cases i <;> simp only [strandForm, whole, onStrand, onAtomic, Option.some.injEq, reduceCtorEq] at hF
  all_goals subst hF
  case snew => exact structural_runs h (exec_snew.trans (by unfold execSnew; rfl)) rfl
  case sfree => exact structural_runs h (exec_sfree.trans (by unfold execSfree; rfl)) rfl
  case slen => exact structural_runs h (exec_slen.trans (by unfold execSlen; rfl)) rfl
  case sdel => exact structural_runs h (exec_sdel.trans (by unfold execSdel; rfl)) rfl
  case ssplit => exact structural_runs h (exec_ssplit.trans (by unfold execSsplit; rfl)) rfl
  case scat => exact structural_runs h (exec_scat.trans (by unfold execScat; rfl)) rfl
  case sgap => exact structural_runs h (exec_sgap.trans (by unfold execSgap; rfl)) rfl
  case sclose => exact structural_runs h (exec_sclose.trans (by unfold execSclose; rfl)) rfl
  case sanchUniform => exact structural_runs h (exec_sanchUniform.trans (by unfold execSanchUniform; rfl)) rfl
  case srankUniform => exact structural_runs h (exec_srankUniform.trans (by unfold execSrankUniform; rfl)) rfl
  case sldLane => exact element_runs h (exec_sldLane.trans (by unfold execSldLane; rfl)) (fun _ x hx => perLane_zero hx)
  case sldUniform => exact element_runs h (exec_sldUniform.trans (by unfold execSldUniform; rfl)) (fun _ x hx => by cases List.mem_singleton.mp hx; rfl)
  case sstLane => exact element_runs h (exec_sstLane.trans (by unfold execSstLane; rfl)) (fun hk => by cases hk)
  case sstUniform => exact element_runs h (exec_sstUniform.trans (by unfold execSstUniform; rfl)) (fun hk => by cases hk)
  case saadd => exact element_runs h (exec_saadd.trans (by unfold execSaadd elemAtomic; rfl)) (fun hk => by cases hk)
  case samin => exact element_runs h (exec_samin.trans (by unfold execSamin elemAtomic; rfl)) (fun hk => by cases hk)
  case samax => exact element_runs h (exec_samax.trans (by unfold execSamax elemAtomic; rfl)) (fun hk => by cases hk)
  case sacas => exact element_runs h (exec_sacas.trans (by unfold execSacas elemAtomic; rfl)) (fun hk => by cases hk)
  case saxchg => exact element_runs h (exec_saxchg.trans (by unfold execSaxchg elemAtomic; rfl)) (fun hk => by cases hk)
  case sanchLane => exact element_runs h (exec_sanchLane.trans (by unfold execSanchLane; rfl)) (fun hk => by cases hk)
  case srankLane d addr pm =>
    have hex : exec (.srankLane d addr pm) s = if (((perLane I.sub (lanePair (s.window I) I.sub addr) fun _ => 0).map fun (l, w, x) => (⟨l, w, x, 0, false, .pending⟩ : Access)).isEmpty) then retire s I .other I.sub
        else if strandWaits s I false (.srankLane d addr pm) 0 [] ((perLane I.sub (lanePair (s.window I) I.sub addr) fun _ => 0).map fun (l, w, x) => (⟨l, w, x, 0, false, .pending⟩ : Access)) then wait s I
        else becomeNonRetry s I fun s' I' => issueStrand s' I' (s.window I) (.srankLane d addr pm) 0 [] [] ((perLane I.sub (lanePair (s.window I) I.sub addr) fun _ => 0).map fun (l, w, x) => (⟨l, w, x, 0, false, .pending⟩ : Access)) := by
      show execSrankLane d addr pm s = _
      unfold execSrankLane
      rw [h.plain]
    refine ⟨fun ha => ?_, fun ha hw => ?_, fun ha hw hfr => ?_⟩
    · exact hex.trans (if_pos (by rw [List.isEmpty_iff]; exact ha))
    · exact hex.trans ((if_neg (by rw [List.isEmpty_iff]; exact ha)).trans (if_pos hw))
    · exact hex.trans ((if_neg (by rw [List.isEmpty_iff]; exact ha)).trans ((if_neg (Bool.eq_false_iff.mp hw)).trans (hfr.again _)))

theorem issueStrand_next (s : State) (I : Issuer) (W : Win) (i : Instr) (a : W32) (args : List Word) (bs : List Byte) (as : List Access) :
    ∃ t, issueStrand s I W i a args bs as = .next t := by
  unfold issueStrand finishIssue
  split
  split
  split <;> exact ⟨_, rfl⟩

end Sys2Proof.Machine
end

