-- ==== Sys2Proof/Tests/Slice0.lean ====
section
/-!
SUPPORT. Tests: terms that are not well-formed, words written out from the spec's encodings, single steps on a small state,
and for every statement of the obligations a state and operands that meet its hypotheses.
-/
namespace Sys2Proof.Tests
open Sys2Proof Sys2Proof.Machine

/-! ### Ill-formed terms -/

/-- A packet with a payload that its LEN does not give. -/
def badPacket : Packet :=
  { vc := 0, op := 0x01, vf := 0, world := false, snode := 0, sep := 0, dnode := 0, fseq := 0, cseq := 0, tag := 0, addr := 0, len := 4,
    aop := 0, dtype := 0, rgroup := 0, ncontrib := 0, payload := [] }

theorem test_illformed_operands : (Instr.addLane ⟨false, 0⟩ (.res 0x10) (.v 0)).wf = false ∧
    (Instr.addUniform ⟨false, 0⟩ (.s 0) (.res 0xC2)).wf = false ∧ (Instr.launch (.res 0)).wf = false ∧
    (Instr.suspend (.delay (.res 0))).wf = false ∧ (Instr.addLane ⟨false, 0⟩ (.res 0xC3) (.v 0)).wf = true := by decide
theorem test_illformed_fields : (Instr.stLane (.v 0) 0 .bs .plain).wf = false ∧ (Instr.stUniform (.s 0) 0 .hs .plain).wf = false ∧
    (Instr.cvt ⟨false, 0⟩ (.v 0) .rz .f32 .f16).wf = false ∧ (Instr.cvt ⟨false, 0⟩ (.v 0) .rz .f32 .s32).wf = true ∧
    (Instr.put (.v 1) 0 0 true).wf = false ∧ (Instr.put (.v 0) 0 1 true).wf = false ∧
    (Instr.srd 0 (.unlisted 1) 0).wf = false ∧ (Instr.srd 0 (.unlisted 0x7FF) 0).wf = true := by decide
theorem test_illformed_events : (Instr.portRetrain 24).wf = false ∧ (Instr.boundaryRetrain 4).wf = false ∧ (Instr.thermtrip 4 0).wf = false ∧
    (Instr.vectorAnnounce 5).wf = false ∧ (Instr.drainComplete 256).wf = false ∧ (Instr.timeSliceBoundary 16).wf = false ∧
    (Instr.startInterfaceRequest 0).wf = false ∧ (Instr.startInterfaceRequest 385).wf = false ∧ (Instr.lwcfgWrite 1 16 0).wf = false ∧
    (Instr.worldMoveRequest 16384 false).wf = false ∧ (Instr.flitReceive (.port 0) []).wf = false ∧
    (Instr.throttleEvaluation [] .within).wf = false ∧ (Instr.packetWrite 0 badPacket).wf = false := by decide

/-! ### Words (R221 to R234 and the encoding examples of chapters 14 to 25) -/

-- LR: set, opcode, d, a, b
theorem test_decode_lr : decode (0#1 ++ 0x22#7 ++ 0x80#8 ++ 0x04#8 ++ 0x05#8) = .ok (.fmul ⟨true, 0⟩ (.v 4) (.v 5)) ∧
    decode 0x2006A007 = .ok (.fadd ⟨false, 6⟩ (.b 0) (.v 7)) ∧ decode 0x220806BE = .ok (.fmul ⟨false, 8⟩ (.v 6) (.flt 2)) ∧
    decode 0x0A06C0A6 = .ok (.shlLane ⟨false, 6⟩ .lane (.pos 2)) := ⟨rfl, rfl, rfl, rfl⟩
theorem test_decode_numeric : decode 0x23040506 = .ok (.fma ⟨false, 4⟩ (.v 5) (.v 6)) ∧
    decode 0x29010201 = .ok (.cvt ⟨false, 1⟩ (.v 2) .rn .f32 .f16) ∧ decode 0x370C1404 = .ok (.dxpack ⟨false, 12⟩ (.v 20) true .dx8) ∧
    decode 0x43050608 = .ok (.lscan ⟨false, 5⟩ (.v 6) true .add) ∧ decode 0x47080286 = .ok (.rng ⟨false, 8⟩ (.v 2) (.s 6)) ∧
    decode 0x48010400 = .ok (.prefpop ⟨false, 1⟩ (.v 4) false) := ⟨rfl, rfl, rfl, rfl, rfl, rfl⟩
-- LC: d, a, b of seven bits, p of three
theorem test_decode_lc : decode (0#1 ++ 0x18#7 ++ 8#7 ++ 4#7 ++ 6#7 ++ 1#3) = .ok (.addc 8 4 6 1) ∧
    decode 0x1A14081A = .ok (.madc 10 2 3 2) ∧ decode 0x340E2049 = .ok (.pfma 7 8 9 true) := ⟨rfl, rfl, rfl⟩
-- LP: pd, cc, a, b
theorem test_decode_lp : decode (0#1 ++ 0x1B#7 ++ 2#3 ++ 2#5 ++ 0x01#8 ++ 0x03#8) = .ok (.cmpLane 2 .set .lt (.v 1) (.v 3)) ∧
    decode 0x1C200000 = .ok (.plog 1 0 0 0) ∧ decode 0x46610100 = .ok (.vote 3 .all 1) := ⟨rfl, rfl, rfl⟩
-- LI: d, imm16
theorem test_decode_li : decode (0#1 ++ 0x1D#7 ++ 0x03#8 ++ 0xCDEF#16) = .ok (.moviLane ⟨false, 3⟩ 0xCDEF) ∧
    decode 0x1E0389AB = .ok (.movhiLane ⟨false, 3⟩ 0x89AB) := ⟨rfl, rfl⟩
-- LM: data, addr, ty, ord, sc; LA: d, addr, v, os
theorem test_decode_memory : decode (0#1 ++ 0x50#7 ++ 9#8 ++ 3#7 ++ 4#3 ++ 1#3 ++ 4#3) = .ok (.ldLane ⟨false, 9⟩ 3 .w (.sync .package)) ∧
    decode 0x5103070C = .ok (.stLane (.v 3) 3 .w (.sync .package)) ∧ decode 0x5202150A = .ok (.lds ⟨false, 2⟩ 10 .w (.sync .cluster)) ∧
    decode 0x53AB1500 = .ok (.sts (.pos 7) 10 .w .plain) ∧ decode 0x54031424 = .ok (.aaddLane 1 (.spad 5) 4 .relP) ∧
    decode 0x55061061 = .ok (.afadd 3 (.glob 4) 12 .rlxD) ∧ decode 0x5E040C55 = .ok (.acasLane 2 (.glob 3) 10 .arP) :=
  ⟨rfl, rfl, rfl, rfl, rfl, rfl, rfl⟩
-- UR, UI, UB, UJ
theorem test_decode_uniform : decode (1#1 ++ 0x16#7 ++ 0x02#8 ++ 0x81#8 ++ 0x83#8) = .ok (.cmpLtUniform ⟨false, 2⟩ (.s 1) (.s 3)) ∧
    decode 0x900789A4 = .ok (.clzUniform ⟨false, 7⟩ (.s 9)) ∧ decode (1#1 ++ 0x1C#7 ++ 4#5 ++ 0x48D15#19) = .ok (.movhiUniform 4 0x48D15) ∧
    decode 0x9B200000 = .ok (.moviUniform 4 0) ∧ decode 0x980EC28B = .ok (.cmpBloUniform ⟨false, 14⟩ .gang (.s 11)) :=
  ⟨rfl, rfl, rfl, rfl, rfl⟩
theorem test_decode_control : decode (1#1 ++ 0x23#7 ++ 0x03#8 ++ 6#16) = .ok (.brp .any 3 6) ∧ decode 0xA3100003 = .ok (.brp .none 0 3) ∧
    decode 0xAC86FFFC = .ok (.loop (.s 6) 0xFFFC) ∧ decode 0xA4000064 = .ok (.call 100) ∧ decode 0xA68084A4 = .ok (.jmpi ⟨true, 0⟩ (.s 4) (.pos 0)) ∧
    decode 0xA7000000 = .ok .regang ∧ decode 0xA8000002 = .ok (.mpush false 2) ∧ decode 0xAA00000A = .ok (.msetp .and true 2) ∧
    decode 0xAB000000 = .ok .melse ∧ decode 0xB7A40002 = .ok (.waitc (.pos 0) 2) ∧ decode 0xAE000000 = .ok .exit :=
  ⟨rfl, rfl, rfl, rfl, rfl, rfl, rfl, rfl, rfl, rfl, rfl⟩
-- UM: data, addr, ty, ord, sc, two zero bits
theorem test_decode_um : decode (1#1 ++ 0x30#7 ++ 5#8 ++ 4#5 ++ 5#3 ++ 1#3 ++ 3#3 ++ 0#2) = .ok (.ldUniform ⟨false, 5⟩ 4 .d (.sync .die)) ∧
    decode 0xB1907D30 = .ok (.stUniform (.s 16) 15 .d (.sync .package)) ∧ decode 0xB2062500 = .ok (.aaddUniform ⟨false, 6⟩ 4 .d .plain) ∧
    decode 0xB8882500 = .ok (.monarm (.s 8) 4 .d) ∧ decode 0xB909052C = .ok (.monwait ⟨false, 9⟩ .d (.sync .die)) := ⟨rfl, rfl, rfl, rfl, rfl⟩
theorem test_decode_sync : decode 0xB6000015 = .ok (.fence .domain .rel) ∧ decode 0xBB83A500 = .ok (.bararv (.s 3) (.pos 1)) ∧
    decode 0xBA94A600 = .ok (.barinit (.s 20) (.pos 2)) ∧ decode 0xBD838700 = .ok (.barwait (.s 3) (.s 7)) ∧
    decode 0xBE2000AB = .ok (.tlwait 2 (.pos 7)) ∧ decode 0xBF200005 = .ok (.tlqry 2 ⟨false, 5⟩) := ⟨rfl, rfl, rfl, rfl, rfl, rfl⟩
-- UE: tc, h1, h2, x
theorem test_decode_engine : decode (1#1 ++ 0x41#7 ++ 1#4 ++ 4#6 ++ 3#6 ++ 0x2C#8) = .ok (.copy 1 4 3 false false true 12) ∧
    decode 0xC000C008 = .ok (.tdef 3 8) ∧ decode 0xC211034C = .ok (.copym 1 4 3 true false 12) ∧ decode 0xC521400E = .ok (.mload 2 5 14) ∧
    decode 0xC6200003 = .ok (.mswap 2 3) ∧ decode 0xC7118410 = .ok (.mmul 1 6 4 16) ∧ decode 0xC911C632 = .ok (.accdrn 1 7 6 true 18) ∧
    decode 0xCA018087 = .ok (.accmov false 6 (.s 7)) ∧ decode 0xCB420914 = .ok (.attn 4 8 9 20) ∧
    decode 0xCC01DE05 = .ok (.histrd 7 30 ⟨false, 5⟩) := ⟨rfl, rfl, rfl, rfl, rfl, rfl, rfl, rfl, rfl, rfl⟩
theorem test_decode_strand : decode 0x60080303 = .ok (.sldLane ⟨false, 8⟩ 1 .w 0 3) ∧ decode 0x60080313 = .ok (.sldLane ⟨false, 8⟩ 1 .w 2 3) ∧
    decode 0x61060545 = .ok (.sstLane (.v 6) 2 .d 5) ∧ decode 0x67090304 = .ok (.saadd (.v 9) 1 .w 4) ∧
    decode 0x620C0A08 = .ok (.srankLane ⟨false, 12⟩ 5 1) ∧ decode 0xD383A82A = .ok (.sins (.s 3) (.pos 4) true 10) ∧
    decode 0xD783840C = .ok (.sgap (.s 3) (.s 4) 12) ∧ decode 0xD894000A = .ok (.sapnd (.s 20) 10) ∧
    decode 0xD6838520 = .ok (.scat (.s 3) (.s 5) true) ∧ decode 0xDC09350C = .ok (.sldUniform ⟨false, 9⟩ 6 .d 0 3) ∧
    decode 0xD0A88E03 = .ok (.snew (.pos 4) (.s 14) 3) ∧ decode 0xDA850032 = .ok (.srankUniform (.s 5) 1 18) :=
  ⟨rfl, rfl, rfl, rfl, rfl, rfl, rfl, rfl, rfl, rfl, rfl, rfl⟩
theorem test_decode_channel : decode 0x64031400 = .ok (.sendLane (.v 3) 5 0 false) ∧ decode 0x65071480 = .ok (.recvLane ⟨false, 7⟩ 5 0 true) ∧
    decode 0xE0830000 = .ok (.sendUniform (.s 3) 0 0) ∧ decode 0xE1030000 = .ok (.recvUniform ⟨false, 3⟩ 0 0) ∧
    decode 0xE2040801 = .ok (.get (.v 4) 2 0 1) ∧ decode 0xE3080D00 = .ok (.put (.v 8) 3 1 false) ∧ decode 0xE3000C01 = .ok (.put (.v 0) 3 0 true) ∧
    decode 0xE4030000 = .ok (.knot 3 0) ∧ decode 0xE5058800 = .ok (.skfold ⟨false, 5⟩ (.s 8)) ∧
    decode 0xE6068400 = .ok (.skspread ⟨false, 6⟩ (.s 4)) := ⟨rfl, rfl, rfl, rfl, rfl, rfl, rfl, rfl, rfl, rfl⟩
theorem test_decode_system : decode 0xE8840000 = .ok (.launch (.s 4)) ∧ decode 0xE9000000 = .ok (.suspend .now) ∧
    decode 0xE9850001 = .ok (.suspend (.delay (.s 5))) ∧ decode 0xEA07A500 = .ok (.lqry ⟨false, 7⟩ (.pos 1)) ∧
    decode 0x66881012 = .ok (.spawn (.s 8) 4 true 2) ∧ decode 0xF0302100 = .ok (.srd 6 .dusec 0) ∧ decode 0xF020240D = .ok (.srd 4 .gpstat 13) ∧
    decode 0xF1480200 = .ok (.swr 9 .tepc 0) ∧ decode 0xF2001234 = .ok (.trap 0x1234) ∧ decode 0xF3000000 = .ok .tret ∧
    decode 0xF4000007 = .ok (.brk 7) := ⟨rfl, rfl, rfl, rfl, rfl, rfl, rfl, rfl, rfl, rfl, rfl⟩

/-! ### Single steps -/

/-- The placed block about to issue the word w stands for, its one slice changed by f. -/
def readyAt (w : W32) (f : Slice → Slice) : State :=
  let s := (State.reset.placedOn w).beginIssue 0 3
  match kget (s.tile 0).subs 3 with
  | some U => s.setSub 0 3 (U.mapSlices f)
  | none => s

/-- The same, whatever the word. -/
def ready (f : Slice → Slice) : State := readyAt 0 f

/-- Uniform register r of a slice. -/
def us (r : Nat) (x : Word) (S : Slice) : Slice := S.setSreg r x
/-- Register r of lane j. -/
def vs (j r : Nat) (x : W32) (S : Slice) : Slice := { S with lanes := S.lanes.modify j fun L => L.setReg r x }
/-- Predicate p of lane j. -/
def ps (j p : Nat) (x : Bool) (S : Slice) : Slice := { S with lanes := S.lanes.modify j fun L => L.setPred p x }

/-- What an answer shows of the placed sub-gang's slice. -/
def after {α : Type} (o : Host.Outcome State Fault Refusal) (f : Slice → α) : Option α :=
  match o with
  | .next t => ((kget (t.tile 0).subs 3).bind fun U => kget U.slices 0).map f
  | _ => none
/-- What it shows of the sub-gang. -/
def afterSub {α : Type} (o : Host.Outcome State Fault Refusal) (f : Sub → α) : Option α :=
  match o with
  | .next t => (kget (t.tile 0).subs 3).map f
  | _ => none
/-- What it shows of the state. -/
def afterState {α : Type} (o : Host.Outcome State Fault Refusal) (f : State → α) : Option α :=
  match o with
  | .next t => some (f t)
  | _ => none

/-- A uniform register after an instruction. -/
def sAfter (i : Instr) (f : Slice → Slice) (r : Nat) : Option Word := after (exec i (ready f)) fun S => S.sreg r
/-- A register of a lane after an instruction. -/
def vAfter (i : Instr) (f : Slice → Slice) (j r : Nat) : Option W32 :=
  (after (exec i (ready f)) fun S => (S.lanes[j]?).map fun L => L.reg r).bind id
/-- A predicate of a lane after an instruction. -/
def pAfter (i : Instr) (f : Slice → Slice) (j p : Nat) : Option Bool :=
  (after (exec i (ready f)) fun S => (S.lanes[j]?).map fun L => L.pred p).bind id

-- R244 to R248: 64-bit arithmetic, two's complement
theorem test_add_wraps : sAfter (.addUniform ⟨false, 3⟩ (.s 1) (.pos 1)) (us 1 (-1)) 3 = some 0 := by decide
theorem test_sub_borrows : sAfter (.subUniform ⟨false, 1⟩ (.s 1) (.pos 1)) id 1 = some 0xFFFFFFFFFFFFFFFF := by decide
theorem test_mulh_signed : sAfter (.mulhUniform ⟨false, 3⟩ (.s 1) (.pos 1)) (us 1 (-1)) 3 = some 0xFFFFFFFFFFFFFFFF ∧
    sAfter (.mulhuUniform ⟨false, 3⟩ (.s 1) (.pos 2)) (us 1 (-1)) 3 = some 1 := by decide
theorem test_sar_sign : sAfter (.sarUniform ⟨false, 3⟩ (.s 1) (.pos 4)) (us 1 0x8000000000000000) 3 = some 0xF800000000000000 ∧
    sAfter (.shrUniform ⟨false, 3⟩ (.s 1) (.pos 4)) (us 1 0x8000000000000000) 3 = some 0x0800000000000000 := by decide
theorem test_shift_count : sAfter (.shlUniform ⟨false, 3⟩ (.pos 1) (.s 1)) (us 1 65) 3 = some 2 := by decide
theorem test_min_max : sAfter (.minUniform ⟨false, 3⟩ (.s 1) (.pos 1)) (us 1 (-1)) 3 = some 0xFFFFFFFFFFFFFFFF ∧
    sAfter (.minuUniform ⟨false, 3⟩ (.s 1) (.pos 1)) (us 1 (-1)) 3 = some 1 ∧
    sAfter (.maxUniform ⟨false, 3⟩ (.s 1) (.pos 1)) (us 1 (-1)) 3 = some 1 := by decide
theorem test_count_bits : sAfter (.clzUniform ⟨false, 3⟩ (.pos 1)) id 3 = some 63 ∧ sAfter (.popcUniform ⟨false, 3⟩ (.neg 0)) id 3 = some 64 := by
  decide
theorem test_compare : sAfter (.cmpLtUniform ⟨false, 3⟩ (.s 1) (.pos 1)) (us 1 (-1)) 3 = some 1 ∧
    sAfter (.cmpBloUniform ⟨false, 3⟩ (.s 1) (.pos 1)) (us 1 (-1)) 3 = some 0 := by decide
theorem test_sel_uniform : sAfter (.selUniform ⟨false, 3⟩ (.pos 1) (.pos 2)) (us 3 8) 3 = some 1 ∧
    sAfter (.selUniform ⟨false, 3⟩ (.pos 1) (.pos 2)) id 3 = some 2 := by decide
theorem test_immediates : sAfter (.moviUniform 4 0x7FFFF) id 4 = some 0xFFFFFFFFFFFFFFFF ∧
    sAfter (.movhiUniform 4 0x48D15) (us 4 1) 4 = some 0xC8D15 ∧ sAfter (.addiUniform 4 0x7FFFF) (us 4 5) 4 = some 4 := by decide
theorem test_no_write : sAfter (.addUniform ⟨true, 3⟩ (.pos 1) (.pos 1)) id 3 = some 0 := by decide
-- R249 to R253
theorem test_branch : afterSub (exec (.br (-5)) (ready id)) (fun U => U.pc) = some 0xFFEC ∧
    afterSub (exec (.brz (.s 1) 4) (ready (us 1 1))) (fun U => U.pc) = some 0x10004 := by decide
theorem test_call_ret : sAfter (.call 100) id 31 = some 0x10004 ∧ afterSub (exec .ret (ready (us 31 0x10040))) (fun U => U.pc) = some 0x10040 := by
  decide
theorem test_loop : sAfter (.loop (.s 6) 0xFFFC) (us 6 2) 6 = some 1 ∧
    afterSub (exec (.loop (.s 6) 0xFFFC) (ready (us 6 2))) (fun U => U.pc) = some 0xFFF0 ∧
    afterSub (exec (.loop (.s 6) 0xFFFC) (ready (us 6 1))) (fun U => U.pc) = some 0x10004 := by decide
-- R257, R258
theorem test_mask : after (exec (.mpush false 2) (ready (ps 1 2 true))) (fun S => (S.mask, S.stack)) = some (2, [15]) ∧
    after (exec .melse (ready fun S => { S with mask := 2, stack := [15] })) (fun S => (S.mask, S.stack)) = some (13, [15]) ∧
    after (exec .mpop (ready fun S => { S with mask := 2, stack := [7] })) (fun S => (S.mask, S.stack)) = some (7, []) := by decide
theorem test_mpop_empty : after (exec .mpop (ready id)) (fun S => S.tcause) = some 0x02FF8009 := by decide
-- R261 to R267
theorem test_lane_mad : vAfter (.mad ⟨false, 1⟩ (.v 1) (.v 1)) (vs 2 1 0x10001) 2 1 = some 0x00030002 := by decide
theorem test_lane_shift : vAfter (.shlLane ⟨false, 1⟩ (.v 1) (.v 2)) (fun S => vs 0 2 33 (vs 0 1 3 S)) 0 1 = some 6 ∧
    vAfter (.sarLane ⟨false, 1⟩ (.v 1) (.pos 4)) (vs 0 1 0x80000000) 0 1 = some 0xF8000000 := by decide
theorem test_lane_carry : vAfter (.addc 8 4 6 1) (fun S => ps 0 1 true (vs 0 4 0xFFFFFFFF S)) 0 8 = some 0 ∧
    pAfter (.addc 8 4 6 1) (fun S => ps 0 1 true (vs 0 4 0xFFFFFFFF S)) 0 1 = some true ∧
    pAfter (.subb 8 4 6 1) (ps 0 1 true) 0 1 = some true ∧ vAfter (.subb 8 4 6 1) (ps 0 1 true) 0 8 = some 0xFFFFFFFF := by decide
theorem test_lane_madc : vAfter (.madc 10 2 3 2) (fun S => vs 0 2 0xFFFFFFFF (vs 0 3 0xFFFFFFFF (vs 0 10 1 S))) 0 11 = some 0xFFFFFFFE ∧
    vAfter (.madc 10 2 3 2) (fun S => vs 0 2 0xFFFFFFFF (vs 0 3 0xFFFFFFFF (vs 0 10 1 S))) 0 10 = some 2 := by decide
theorem test_lane_compare : pAfter (.cmpLane 2 .set .lt (.v 1) (.v 3)) (vs 3 1 0xFFFFFFFF) 3 2 = some true ∧
    pAfter (.cmpLane 2 .set .blo (.v 1) (.v 3)) (vs 3 1 0xFFFFFFFF) 3 2 = some false := by decide
theorem test_lane_immediates : vAfter (.moviLane ⟨false, 3⟩ 0xCDEF) id 0 3 = some 0xFFFFCDEF ∧
    vAfter (.movhiLane ⟨false, 3⟩ 0x89AB) (vs 0 3 0xFFFFCDEF) 0 3 = some 0x89ABCDEF := by decide
theorem test_lane_sel : vAfter (.selLane 1 2 3 4) (fun S => vs 1 2 7 (vs 1 3 9 S)) 1 1 = some 9 := by decide
-- R268 to R272: binary32
theorem test_fadd : vAfter (.fadd ⟨false, 1⟩ (.v 2) (.flt 2)) (vs 0 2 0x3F800000) 0 1 = some 0x40400000 := by decide
theorem test_fma_single_rounding : vAfter (.fma ⟨false, 1⟩ (.v 2) (.v 2)) (fun S => vs 0 2 0x3F800001 (vs 0 1 0xBF800002 S)) 0 1 =
    some 0x28800000 := by decide
theorem test_fmul_overflow : vAfter (.fmul ⟨false, 1⟩ (.v 2) (.flt 2)) (vs 0 2 0x7F7FFFFF) 0 1 = some 0x7F800000 := by decide
theorem test_cvt : vAfter (.cvt ⟨false, 1⟩ (.v 2) .rz .f32 .s32) (vs 0 2 0xC0200000) 0 1 = some 0xFFFFFFFE ∧
    vAfter (.cvt ⟨false, 1⟩ (.v 2) .rn .f32 .f16) (vs 0 2 0x3F800000) 0 1 = some 0x00003C00 := by decide
-- R273 to R282
theorem test_shuf : vAfter (.shuf ⟨false, 1⟩ (.v 2) (.v 3)) (fun S => vs 3 2 77 (vs 0 3 3 S)) 0 1 = some 77 ∧
    vAfter (.shuf ⟨false, 1⟩ (.lane) (.pos 4)) id 0 1 = some 0 := by decide
theorem test_scan : vAfter (.lscan ⟨false, 5⟩ (.v 6) true .add) (fun S => vs 0 6 1 (vs 1 6 2 (vs 2 6 4 S))) 2 5 = some 3 ∧
    vAfter (.lscan ⟨false, 5⟩ (.v 6) false .add) (fun S => vs 0 6 1 (vs 1 6 2 (vs 2 6 4 S))) 2 5 = some 7 := by decide
theorem test_vote : pAfter (.vote 3 .all 1) (ps 0 1 true) 2 3 = some false ∧ pAfter (.vote 3 .any 1) (ps 0 1 true) 2 3 = some true := by decide
-- R285 to R292: the word that is placed, read and added to
theorem test_load : (after (exec (.ldUniform ⟨false, 5⟩ 4 .w .plain) (readyAt 0xF3001234 (us 4 0x10000))) fun S => S.sreg 5) = some 0xF3001234 ∧
    (after (exec (.ldUniform ⟨false, 5⟩ 4 .hs .plain) (readyAt 0xF3008234 (us 4 0x10000))) fun S => S.sreg 5) = some 0xFFFFFFFFFFFF8234 := by decide
theorem test_store : afterState (exec (.stUniform (.s 5) 4 .h .plain) (ready fun S => us 4 0x10020 (us 5 0x12345 S))) (fun t =>
    (cellGet t.mem 0x10020, cellGet t.mem 0x10021, cellGet t.mem 0x10022)) = some (0x45, 0x23, 0) := by decide
theorem test_atomic : (after (exec (.aaddUniform ⟨false, 6⟩ 4 .d .plain) (readyAt 0xF3001234 fun S => us 4 0x10000 (us 6 1 S))) fun S => S.sreg 6) =
    some 0xF3001234 ∧ afterState (exec (.aaddUniform ⟨false, 6⟩ 4 .d .plain) (readyAt 0xF3001234 fun S => us 4 0x10000 (us 6 1 S)))
      (fun t => cellGet t.mem 0x10000) = some 0x35 := by decide
theorem test_misaligned : (after (exec (.ldUniform ⟨false, 5⟩ 4 .d .plain) (ready (us 4 0x10004))) fun S => S.log.map fun e => e.faulted) =
    some [true] := by decide
theorem test_scratchpad : afterState (exec (.sts (.pos 7) 10 .w .plain) (ready (vs 1 10 8))) (fun t =>
    (kget (t.tile 0).blocks 0).map fun B => (B.spadByte 8, B.spadByte 9)) = some (some (7, 0)) := by decide
-- R204, R207, R208, R366
theorem test_trap : after (exec (.trap 0x1234) (ready id)) (fun S => (S.tcause, S.tepc, S.tdet1)) = some (0x00FF8014, 0x10004, 0x1234) ∧
    afterSub (exec (.trap 0x1234) (ready id)) (fun U => U.pc) = some 0x10100 := by decide
theorem test_tret : afterSub (exec .tret (ready fun S => { S with tcause := 0x00FF8014, tepc := 0x10004 })) (fun U => U.pc) = some 0x10004 ∧
    after (exec .tret (ready id)) (fun S => S.tcause) = some 0x03FF8001 := by decide
-- R363, R364
theorem test_system : sAfter (.srd 6 .gnode 0) id 6 = some 0 ∧ after (exec (.swr 9 .tscr1 0) (ready (us 9 42))) (fun S => S.tscr1) = some 42 ∧
    after (exec (.srd 6 .bpc 4) (ready id)) (fun S => S.tcause) = some 0x08FF8002 := by decide
-- R298, R299
theorem test_barrier : afterState (exec (.bararv (.pos 0) (.pos 1)) (ready id)) (fun t => (kget (t.tile 0).subs 3).map fun U => U.pc) =
    some (some 0x10100) ∧ afterState (exec (.barinit (.pos 0) (.pos 2)) (ready id)) (fun t =>
      (kget (t.tile 0).blocks 0).map fun B => B.barrier 0) = some (some (2, 0, 2, 0)) := by decide
-- R220, R221, R238: the word that stands at the program counter is the instruction that runs
theorem test_step : after (step (State.reset.withFetchWord 32 0x9B200005)) (fun S => S.sreg 4) = some 5 ∧
    after (step (State.reset.withFetchWord 32 0xFF000000)) (fun S => S.tcause) = some 0x01FF8001 := by decide

/-! ### States and operands that meet the hypotheses of the statements -/

/-- Whether the running sub-gang is there and satisfies P. -/
def met (s : State) (P : Issuer → Prop) [DecidablePred P] : Bool :=
  match s.issuer with
  | some I => decide (P I)
  | none => false

theorem issuer_of {s : State} {P : Issuer → Prop} [DecidablePred P] (h : met s P = true) : ∃ I, s.issuer = some I ∧ P I := by
  unfold met at h
  split at h
  · exact ⟨_, ‹_›, of_decide_eq_true h⟩
  · cases h

/-- Whether instruction i executes normally for the running sub-gang, and it satisfies P. -/
def executes (s : State) (i : Instr) (b : Bool) (us : List Use) (P : Issuer → Prop) [DecidablePred P] : Bool :=
  met s fun I => useFault (s.window I) I.sub.depth b us = none ∧ I.sub.hazard (touches us) = false ∧
    I.sub.readsBad (s.window I) (isLane i) us = false ∧ P I

theorem issues_of {s : State} {i : Instr} {b : Bool} {us : List Use} (P : Issuer → Prop) [DecidablePred P]
    (h : executes s i b us P = true) : ∃ I, Issues s i b us I ∧ P I :=
  have ⟨I, h1, h2, h3, h4, h5⟩ := issuer_of h
  ⟨I, ⟨h1, h2, h3, h4⟩, h5⟩

theorem form_of {α : Type} (g : Instr → Option α) {s : State} {i : Instr} {b : Bool} (uses : α → List Use)
    (P : α → Issuer → Prop) [∀ F, DecidablePred (P F)]
    (h : (match g i with | some F => executes s i b (uses F) (P F) | none => false) = true) :
    ∃ F I, g i = some F ∧ Issues s i b (uses F) I ∧ P F I := by
  split at h
  · have ⟨I, h1, h2⟩ := issues_of (P _) h
    exact ⟨_, I, ‹_›, h1, h2⟩
  · cases h

/-- A gang that keeps no writes back, said of its fields. -/
abbrev Free (I : Issuer) : Prop :=
  I.gang.retry.holding = false ∧ I.gang.retry.held = [] ∧ I.gang.retry.late = none ∧ I.gang.retry.share = false
theorem free_iff (I : Issuer) : Free I ↔ I.gang.free := Iff.rfl

/-- Nothing an access waits for, said as a test. -/
abbrev CanGo (s : State) (i : Instr) (F : MemForm) (I : Issuer) : Prop :=
  I.sub.logFull (!isLane i) = false ∧ I.sub.acquirePending = false ∧ ((releases i).all fun sc => !releaseWaits s.node I sc) = true ∧
  (∀ a ∈ F.accesses s I, I.sub.overlapsPending F.spad F.kind.size a = false) ∧ pathWaits s I F.spad F.kind (F.accesses s I) = false
theorem goes_of {s : State} {i : Instr} {F : MemForm} {I : Issuer} (h : CanGo s i F I) : Goes s i F I :=
  ⟨h.1, h.2.1, fun sc e => by have := h.2.2.1; rw [e] at this; simpa using this, h.2.2.2.1, h.2.2.2.2⟩
theorem goes_iff {s : State} {i : Instr} {F : MemForm} {I : Issuer} : CanGo s i F I ↔ Goes s i F I :=
  ⟨goes_of, fun h => ⟨h.room, h.acquired, by cases e : releases i with
    | none => rfl
    | some sc => simp [h.released sc e], h.apart, h.path⟩⟩

/-- The fabric address of an access whose checks pass. -/
def passes (s : State) (I : Issuer) (va : Word) (need : Need) (n : Nat) : Option (Nat × TlbEntry) :=
  match check s I.t I.block.vf I.block.world va need n with
  | .ok x => some x
  | .error _ => none
theorem passes_iff {s : State} {I : Issuer} {va : Word} {need : Need} {n : Nat} {x : Nat × TlbEntry} :
    passes s I va need n = some x ↔ check s I.t I.block.vf I.block.world va need n = .ok x := by
  unfold passes; split <;> simp_all
/-- The cause of one whose checks fail. -/
def failsWith (s : State) (I : Issuer) (va : Word) (need : Need) (n : Nat) : Option Cause :=
  match check s I.t I.block.vf I.block.world va need n with
  | .ok _ => none
  | .error c => some c

/-- A slice with a load of s5 on its way. -/
def loading (S : Slice) : Slice :=
  { S with log := [⟨0, 9, .ldUniform ⟨false, 5⟩ 4 .w .plain, 0, [], 15, [⟨none, 0x10000, 0, 0, false, .pending⟩]⟩] }
/-- A state with its placed tile changed by f. -/
def onTile (s : State) (f : Tile → Tile) : State := s.setTile 0 (f (s.tile 0))
/-- With the placed block changed. -/
def onBlock (s : State) (f : Block → Block) : State := onTile s fun T => { T with blocks := T.blocks.map fun x => (x.1, f x.2) }
/-- With the placed gang changed. -/
def onGang (s : State) (f : Gang → Gang) : State := onTile s fun T => { T with gangs := T.gangs.map fun x => (x.1, f x.2) }
/-- With the placed partition changed. -/
def onPart (s : State) (f : Part → Part) : State := s.setPart 0 (f ((s.part 0).getD placedPart))
/-- With the placed sub-gang changed. -/
def onSub (s : State) (f : Sub → Sub) : State := onTile s fun T => { T with subs := T.subs.map fun x => (x.1, f x.2) }
/-- With a page of another die's memory at 0x20000. -/
def withFar (s : State) : State :=
  onTile { s with boundaries := (List.range 8).map fun b => (b, { Port.reset with stat := 2 }) } fun T => { T with tlb := ⟨1, 0x20000, 0x20000, 65536, 2 ^ 38, true, true, true⟩ :: T.tlb }

/-- The placed block with such a page. -/
def far : State := withFar (ready id)

theorem witness_EncodeDecode : (Instr.put (.v 0) 63 0 true).wf = true ∧ encode (.put (.v 0) 63 0 true) = some 0xE300FC01 := ⟨rfl, rfl⟩
theorem witness_DecodeEncode : decode 0xE300FC01 = .ok (.put (.v 0) 63 0 true) := rfl
theorem witness_StepKeepsMemory : Memory.wf (State.reset.placedOn 0xF3001234).mem ∧
    afterState (step (State.reset.placedOn 0xF3001234)) (fun _ => true) = some true := by decide

/-- The placed block about to issue word w is next, and nothing comes before its instruction. -/
def issuesNext (s : State) (P : Issuer → Prop) [DecidablePred P] : Bool :=
  s.agenda.isEmpty && s.nextEvent.isNone && (s.pickIssue == some (0, 3)) && met (s.beginIssue 0 3) fun I =>
    I.block.reports = [] ∧ I.sub.reports = [] ∧ breakpointAt I = none ∧ (s.beginIssue 0 3).regionQueue I.block.grid = none ∧ P I
theorem next_of {s : State} {P : Issuer → Prop} [DecidablePred P] (h : issuesNext s P = true) :
    s.nextIssuer s 0 3 ∧ ∃ I, (s.beginIssue 0 3).issuer = some I ∧ Undisturbed (s.beginIssue 0 3) I ∧ P I := by
  unfold issuesNext at h
  simp only [Bool.and_eq_true, beq_iff_eq, List.isEmpty_iff] at h
  obtain ⟨⟨⟨h1, h2⟩, h3⟩, h4⟩ := h
  obtain ⟨I, h5, h6, h7, h8, h9, h10⟩ := issuer_of h4
  exact ⟨.inr ⟨h1, rfl, h2, h3⟩, I, h5, ⟨.inr (by rw [h6]; rfl), (by rw [h9]; intro q h; cases h), by rw [h6]; rfl, h8, h7⟩, h10⟩

/-- The word at the issuer's program counter. -/
abbrev Stands (s : State) (I : Issuer) (w : W32) : Prop := I.sub.pc.toNat % 4 = 0 ∧ passes s I I.sub.pc .fetch 4 = some (0x10000, placedPage 0) ∧
  kget (s.tile I.t).icache 0x10000 = none ∧ s.node = 0 ∧ s.poison = [] ∧ s.poisonWords = [] ∧
  s.cutOffDies (dieOf I.t) 0 = false ∧ s.fetchOpen I.t 0x10000 = true ∧
  bytesWord ((List.range 4).map fun k => cellGet s.mem (0x10000 + k)) = some w
theorem wordAt_of {s : State} {I : Issuer} {w : W32} (h : Stands s I w) : WordAt s I 0x10000 (placedPage 0) w :=
  ⟨h.1, passes_iff.mp h.2.1, .inr ⟨h.2.2.1, (by rw [h.2.2.2.1]; all_goals rfl), (fun ⟨k, _, hk⟩ => by rw [h.2.2.2.2.1, h.2.2.2.2.2.1] at hk; simp at hk), h.2.2.2.2.2.2⟩⟩

theorem witness_StepRunsDecoded : (State.reset.placedOn 0xF2000001).nextIssuer (State.reset.placedOn 0xF2000001) 0 3 ∧
    ∃ I, ((State.reset.placedOn 0xF2000001).beginIssue 0 3).issuer = some I ∧ Undisturbed ((State.reset.placedOn 0xF2000001).beginIssue 0 3) I ∧
      Stands ((State.reset.placedOn 0xF2000001).beginIssue 0 3) I 0xF2000001 ∧ decode 0xF2000001 = .ok (.trap 1) :=
  have ⟨h, I, h1, h2, h3⟩ := next_of (s := State.reset.placedOn 0xF2000001) (P := fun I => Stands _ I 0xF2000001) (by decide)
  ⟨h, I, h1, h2, h3, rfl⟩
/-- With a page of a die that is cut off at 0x20000. -/
def cutPage : State := onTile (State.reset.placedOn 0) fun T => { T with tlb := ⟨1, 0x20000, 0x20000, 65536, 2 ^ 38, true, true, true⟩ :: T.tlb }
theorem witness_FetchAndOperandTraps : issuesNext (onSub (State.reset.placedOn 0) fun U => { U with pc := 0x10002 }) (fun I => I.sub.pc.toNat % 4 = 2) ∧
    issuesNext (onSub (State.reset.placedOn 0) fun U => { U with pc := 0x30000 }) (fun I => (failsWith
      (onSub (State.reset.placedOn 0) fun U => { U with pc := 0x30000 }) I 0x30000 .fetch 4).isSome = true) ∧
    issuesNext { State.reset.placedOn 0 with poison := [512] } (fun I => passes (State.reset.placedOn 0) I I.sub.pc .fetch 4 =
      some (0x10000, placedPage 0) ∧ (0x10000 + 3) / 128 = 512) ∧
    issuesNext (State.reset.placedOn 0xFF000000) (fun I => Stands ((State.reset.placedOn 0xFF000000).beginIssue 0 3) I 0xFF000000) ∧
    decode 0xFF000000 = .error .reservedOpcode ∧
    issuesNext (onSub cutPage fun U => { U with pc := 0x20000 }) (fun I => (passes cutPage I 0x20000 .fetch 4).map (·.1) = some (2 ^ 38) ∧
      kget (cutPage.tile I.t).icache (2 ^ 38) = none ∧ cutPage.cutOffDies (dieOf I.t) (homeOf (2 ^ 38)) = true) :=
  ⟨by decide, by decide, by decide, by decide, rfl, by decide⟩

theorem witness_LaneResult :
    (∃ F I, laneIntForm (.mad ⟨false, 127⟩ (.v 0) .lane) = some F ∧ Issues (ready id) (.mad ⟨false, 127⟩ (.v 0) .lane) true F.uses I ∧ True) ∧
    (∃ F I, laneFloatForm (.fma ⟨true, 127⟩ (.v 0) (.flt 3)) = some F ∧ Issues (ready id) (.fma ⟨true, 127⟩ (.v 0) (.flt 3)) true F.uses I ∧ True) ∧
    (∃ F I, laneCrossForm (.rng ⟨false, 124⟩ (.v 126) (.s 31)) = some F ∧ Issues (ready id) (.rng ⟨false, 124⟩ (.v 126) (.s 31)) true F.uses I ∧ True) :=
  ⟨form_of laneIntForm LaneForm.uses (fun _ _ => True) (by decide), form_of laneFloatForm LaneForm.uses (fun _ _ => True) (by decide),
    form_of laneCrossForm LaneForm.uses (fun _ _ => True) (by decide)⟩
theorem witness_LanePredicates :
    (∃ F I, lanePredForm (.vote 7 .uni 0) = some F ∧ Issues (ready id) (.vote 7 .uni 0) true (.prd F.dst :: F.uses) I ∧ True) ∧
    (∃ F I, laneCarryForm (.madc 126 0 127 7) = some F ∧ Issues (ready id) (.madc 126 0 127 7) true F.uses I ∧ True) :=
  ⟨form_of lanePredForm (fun F => .prd F.dst :: F.uses) (fun _ _ => True) (by decide), form_of laneCarryForm CarryForm.uses (fun _ _ => True) (by decide)⟩
theorem witness_UniformResult :
    ∃ F I, uniForm (.bfiUniform ⟨false, 31⟩ (.s 0) (.v 127)) = some F ∧ Issues (ready id) (.bfiUniform ⟨false, 31⟩ (.s 0) (.v 127)) true F.uses I ∧ True :=
  form_of uniForm UniForm.uses (fun _ _ => True) (by decide)

/-- The placed sub-gang with a second slice that holds 1 in v1. -/
def twoSlices : State := onTile (ready id) fun T => { T with subs := T.subs.map fun x => (x.1,
  { x.2 with slices := x.2.slices ++ [(1, vs 0 1 1 (Slice.zero 1 0 0 0 1))] }) }
theorem witness_ControlResult :
    (∃ F I, branchForm (.br 0) = some F ∧ Issues (ready id) (.br 0) false F.uses I ∧ I.sub.slices.all (fun x => F.taken ((ready id).window I) I.sub x.1 x.2) = true) ∧
    (∃ F I, branchForm (.brnz (.s 1) 4) = some F ∧ Issues (ready id) (.brnz (.s 1) 4) false F.uses I ∧
      I.sub.slices.all (fun x => !F.taken ((ready id).window I) I.sub x.1 x.2) = true) ∧
    (∃ F I, branchForm (.brnz (.v 1) 4) = some F ∧ Issues twoSlices (.brnz (.v 1) 4) false F.uses I ∧
      I.sub.slices.map (fun x => F.taken (twoSlices.window I) I.sub x.1 x.2) = [false, true]) ∧
    (∃ I, Issues twoSlices (.jmpi ⟨false, 31⟩ (.s 1) (.pos 15)) false [.src (.s 1), .src (.pos 15), .udst ⟨false, 31⟩ 1 false] I ∧ True) :=
  ⟨form_of branchForm BranchForm.uses (fun F I => I.sub.slices.all (fun x => F.taken ((ready id).window I) I.sub x.1 x.2) = true) (by decide),
    form_of branchForm BranchForm.uses (fun F I => I.sub.slices.all (fun x => !F.taken ((ready id).window I) I.sub x.1 x.2) = true) (by decide),
    form_of branchForm BranchForm.uses (fun F I => I.sub.slices.map (fun x => F.taken (twoSlices.window I) I.sub x.1 x.2) = [false, true]) (by decide),
    issues_of (fun _ => True) (by decide)⟩
theorem witness_MaskResult :
    (∃ F I, maskForm (.mpush false 7) = some F ∧ Issues (ready fun S => { S with stack := List.replicate 15 1 }) (.mpush false 7) true F.uses I ∧
      ∀ x ∈ I.sub.slices, F.bad x.2 = false) ∧
    (∃ F I, maskForm (.mpush false 7) = some F ∧ Issues (ready fun S => { S with stack := List.replicate 16 1 }) (.mpush false 7) true F.uses I ∧
      ∃ x ∈ I.sub.slices, F.bad x.2 = true) :=
  ⟨form_of maskForm MaskForm.uses (fun F I => ∀ x ∈ I.sub.slices, F.bad x.2 = false) (by decide),
    form_of maskForm MaskForm.uses (fun F I => ∃ x ∈ I.sub.slices, F.bad x.2 = true) (by decide)⟩

/-- The placed gang in two sub-gangs. -/
def twoSubs : State := onTile (ready id) fun T => { T with subs := T.subs ++ [(4, Sub.start 2 0x10000 [(1, Slice.zero 1 0 0 0 1)] 0)] }
theorem witness_NoEffectOrWait :
    (∃ I, (ready id).issuer = some I ∧ (I.tile.subsOf I.sub.gang).length ≤ 1) ∧
    (∃ I, twoSubs.issuer = some I ∧ I.u ≠ 4 ∧ ((kget I.tile.subs 4).map fun V => (V.gang, V.regang)) = some (I.sub.gang, none)) ∧
    (∃ I, Issues (ready id) (.waitc (.pos 0) 31) false [.src (.pos 0)] I ∧ ∀ x ∈ I.sub.slices, ∀ k, k < 5 → x.2.outstanding k ≤ 0) ∧
    (∃ I, Issues (ready loading) (.waitc (.pos 0) 31) false [.src (.pos 0)] I ∧ ∃ x ∈ I.sub.slices, 0 < x.2.outstanding 0) :=
  ⟨issuer_of (by decide), issuer_of (by decide), issues_of _ (by decide), issues_of _ (by decide)⟩

theorem witness_MemoryIssues :
    (∃ F I, memForm (.ldLane ⟨false, 0⟩ 3 .w .plain) = some F ∧ Issues (ready fun S => { S with mask := 0 }) (.ldLane ⟨false, 0⟩ 3 .w .plain) false F.uses I ∧
      Free I ∧ F.lanes ((ready fun S => { S with mask := 0 }).window I) I.sub = []) ∧
    (∃ F I, memForm (.stUniform (.s 6) 4 .q .plain) = some F ∧ Issues (ready (us 4 0x1FFF0)) (.stUniform (.s 6) 4 .q .plain) false F.uses I ∧ Free I ∧
      F.lanes ((ready (us 4 0x1FFF0)).window I) I.sub ≠ [] ∧ CanGo (ready (us 4 0x1FFF0)) (.stUniform (.s 6) 4 .q .plain) F I) ∧
    (∃ F I, memForm (.stUniform (.s 6) 4 .w .plain) = some F ∧ Issues (ready (loading ∘ us 4 0x10000)) (.stUniform (.s 6) 4 .w .plain) false F.uses I ∧ Free I ∧
      F.lanes ((ready (loading ∘ us 4 0x10000)).window I) I.sub ≠ [] ∧ ¬ CanGo (ready (loading ∘ us 4 0x10000)) (.stUniform (.s 6) 4 .w .plain) F I) :=
  ⟨form_of memForm MemForm.uses (fun F I => Free I ∧ F.lanes ((ready fun S => { S with mask := 0 }).window I) I.sub = []) (by decide),
    form_of memForm MemForm.uses (fun F I => Free I ∧ F.lanes ((ready (us 4 0x1FFF0)).window I) I.sub ≠ [] ∧
      CanGo (ready (us 4 0x1FFF0)) (.stUniform (.s 6) 4 .q .plain) F I) (by decide),
    form_of memForm MemForm.uses (fun F I => Free I ∧ F.lanes ((ready (loading ∘ us 4 0x10000)).window I) I.sub ≠ [] ∧
      ¬ CanGo (ready (loading ∘ us 4 0x10000)) (.stUniform (.s 6) 4 .w .plain) F I) (by decide)⟩
/-- A lane load by two lanes of the placed block. -/
def laneLoads : State := ready fun S => { vs 0 6 0x10000 (vs 1 6 0x10004 S) with mask := 3 }
theorem witness_MemoryResult : ∃ F I, memForm (.ldLane ⟨false, 0⟩ 3 .w .plain) = some F ∧
    Issues laneLoads (.ldLane ⟨false, 0⟩ 3 .w .plain) false F.uses I ∧ Free I ∧ F.lanes (laneLoads.window I) I.sub ≠ [] ∧
    CanGo laneLoads (.ldLane ⟨false, 0⟩ 3 .w .plain) F I ∧ (∀ x ∈ I.sub.slices, x.2.log = []) ∧
    ∀ a ∈ (F.made laneLoads I (F.accesses laneLoads I).length).2, a.st = .done :=
  form_of memForm MemForm.uses (fun F I => Free I ∧ F.lanes (laneLoads.window I) I.sub ≠ [] ∧
    CanGo laneLoads (.ldLane ⟨false, 0⟩ 3 .w .plain) F I ∧ (∀ x ∈ I.sub.slices, x.2.log = []) ∧
    ∀ a ∈ (F.made laneLoads I (F.accesses laneLoads I).length).2, a.st = .done) (by decide)
theorem witness_MemoryFrame : ∃ F I, memForm (.stUniform (.s 5) 4 .w .plain) = some F ∧
    Issues (ready (us 4 0x10020)) (.stUniform (.s 5) 4 .w .plain) false F.uses I ∧ Free I ∧ I.sub.inh = false ∧ I.block.rcd.handler ≠ 0 ∧
    afterState (exec (.stUniform (.s 5) 4 .w .plain) (ready (us 4 0x10020))) (fun _ => true) = some true ∧
    (F.accesses (ready (us 4 0x10020)) I).map (F.storesAt (F.made (ready (us 4 0x10020)) I 0).1 I) = [some 0x10020] :=
  form_of memForm MemForm.uses (fun F I => Free I ∧ I.sub.inh = false ∧ I.block.rcd.handler ≠ 0 ∧
    afterState (exec (.stUniform (.s 5) 4 .w .plain) (ready (us 4 0x10020))) (fun _ => true) = some true ∧
    (F.accesses (ready (us 4 0x10020)) I).map (F.storesAt (F.made (ready (us 4 0x10020)) I 0).1 I) = [some 0x10020]) (by decide)

/-- An access of k at va, at home on its own die. -/
abbrev IsNear (s : State) (I : Issuer) (k : MemKind) (va : Word) : Prop :=
  passes s I va k.need k.size = some (va.toNat, placedPage 0) ∧ va.toNat / 2 ^ 42 = s.node ∧ homeOf (va.toNat % 2 ^ 42) = dieOf I.t ∧
  va.toNat % 2 ^ 42 < 2 ^ 40 ∧ (s.tile I.t).carry = none
theorem near_of {s : State} {I : Issuer} {k : MemKind} {a : Access} (h : IsNear s I k a.addr) : Near s I k a a.addr.toNat (placedPage 0) :=
  ⟨passes_iff.mp h.1, h.2.1, h.2.2.1, h.2.2.2.1, h.2.2.2.2⟩
/-- A poisoned first line of the placed page. -/
def spoiled : State := { ready id with poison := [512] }
/-- The line at 0x10000 in the L1 read cache. -/
def cached : State := onTile (ready id) fun T => { T with l1 := [(512, List.replicate 128 7)] }
theorem witness_OwnAccess :
    (∃ I, (ready id).issuer = some I ∧ IsNear (ready id) I (.load 16 .plain) 0x10070 ∧ l1Line (ready id) I.t 0x10070 .plain = none ∧ (ready id).poison = []) ∧
    (∃ I, cached.issuer = some I ∧ IsNear cached I (.load 16 .plain) 0x10070 ∧ (l1Line cached I.t 0x10070 .plain).map (·.length) = some 128) ∧
    (∃ I, spoiled.issuer = some I ∧ IsNear spoiled I (.load 16 .plain) 0x10070 ∧ l1Line spoiled I.t 0x10070 .plain = none ∧ 0x10070 / 128 ∈ spoiled.poison) ∧
    (∃ I, (ready id).issuer = some I ∧ IsNear (ready id) I (.store 8) 0x1FFF8 ∧ Free I) ∧
    (∃ I, (ready id).issuer = some I ∧ IsNear (ready id) I (.atomic 10 64) 0x10000) ∧
    (∃ I, spoiled.issuer = some I ∧ IsNear spoiled I (.atomic 0 32) 0x1007C ∧ 0x1007C / 128 ∈ spoiled.poison) :=
  ⟨issuer_of (by decide), issuer_of (by decide +kernel), issuer_of (by decide), issuer_of (by decide), issuer_of (by decide), issuer_of (by decide)⟩
/-- The placed gang holds its writes. -/
def holding : State := onGang (ready id) fun G => { G with retry := { G.retry with st := .run, share := true } }
theorem witness_HeldStore : ∃ I, holding.issuer = some I ∧ passes holding I 0x10010 .write 4 = some (0x10010, placedPage 0) ∧
    I.gang.retry.holding = true ∧ kget (holding.tile I.t).gangs I.sub.gang = some I.gang := issuer_of (by decide)
theorem witness_FarAccess :
    (∃ I, (ready id).issuer = some I ∧ failsWith (ready id) I 0x10001 .read 4 = some ⟨5, 2, 0x10001⟩) ∧
    (∃ I, far.issuer = some I ∧ ((passes far I 0x20000 .write 8).map fun x => x.1) = some (2 ^ 38) ∧
      (2 ^ 38) / 2 ^ 42 = far.node ∧ homeOf (2 ^ 38) = 1 ∧ dieOf I.t = 0 ∧ far.cutOffDies 0 1 = false ∧
      Free I ∧ l1Line far I.t (2 ^ 38) .plain = none ∧ (far.die 0).vec.length = 5) ∧
    (far.firstEnd 0 1).map (fun b => (far.boundary b).kept.length) = some 0 ∧ far.writeStalled 0 = false ∧ (far.die 0).outq = [] ∧
    ({ far.die 0 with outq := [⟨0, 1, 0, zeroVec, 0, .read (2 ^ 38) 4 false, 0, 1, none, none, false, false⟩] } : Die).outq ≠ [] :=
  ⟨issuer_of (by decide), issuer_of (by decide), by decide, by decide, by decide, by simp⟩

/-- The value of an answer. -/
def okOf {ε α : Type} (x : Except ε α) : Option α := match x with | .ok a => some a | .error _ => none
theorem okOf_iff {ε α : Type} {x : Except ε α} {a : α} : okOf x = some a ↔ x = .ok a := by cases x <;> simp [okOf]
/-- The placed gang, detached. -/
def detached : State := onGang (ready id) fun G => { G with detached := true }
theorem witness_ScratchAccess :
    (∃ I, (ready id).issuer = some I ∧ okOf ((ready id).spadFind I 4080 16) = some (some ⟨0, 0, 4080⟩) ∧
      kget ((ready id).tile 0).blocks 0 = some I.block ∧ (ready id).spadMark ⟨0, 0, 4080⟩ 16 = none) ∧
    (∃ I, (ready id).issuer = some I ∧ I.gang.detached = false ∧ I.block.proxy = none ∧ I.block.rcd.cgsize = 1 ∧ I.block.rcd.spad = 1 ∧
      ¬ (4095 + 2 ≤ I.block.rcd.spad * 4096) ∧ 4094 + 2 ≤ I.block.rcd.spad * 4096 ∧ 4081 % 16 ≠ 0 ∧
      I.block.peers[0]? = some (0, 0) ∧ ((ready id).tile 0).mode = .run) ∧
    (∃ I, detached.issuer = some I ∧ I.gang.detached = true) :=
  ⟨issuer_of (by decide), issuer_of (by decide), issuer_of (by decide)⟩
/-- The placed page's granule closed to accesses. -/
def shut : State := { ready id with closed := [⟨0, true⟩] }
theorem witness_AccessChecks : okOf (lookup (ready id) 0 1 0x1FFFF) = some (placedPage 0) ∧ security shut false 0x1FFFF = some 1 ∧
    security (ready id) false 0x1FFFF = none ∧ (placedPage 0).permits .write = true ∧ ({ placedPage 0 with w := false }).permits .write = false ∧
    0x1FFFF % 2 ≠ 0 ∧ 0x1FFFE % 2 = 0 := by decide
theorem witness_AtomicOperations : (2 ^ 32 - 1 < 2 ^ 32) ∧ (2 ^ 64 - 1 < 2 ^ 64) := by decide

/-- A handler's slice: INH set by a software trap. -/
def inHandler (S : Slice) : Slice := { S with tcause := 0x00FF8014, tepc := 0x10004 }
theorem witness_TrapEntry :
    (∃ I, (ready id).issuer = some I ∧ kget ((ready id).tile 0).subs 3 = some I.sub ∧ kget ((ready id).tile 0).gangs I.sub.gang = some I.gang ∧
      kget ((ready id).tile 0).blocks I.gang.ctx = some I.block ∧ I.sub.inh = false ∧ I.block.rcd.handler ≠ 0) ∧
    (∃ I, (ready inHandler).issuer = some I ∧ I.sub.inh = true ∧ I.block.proxy = none ∧
      (kget (ready inHandler).grids I.block.grid).map (fun G => G.fdp.getLsbD 2) = some false) ∧
    (∃ I, (onBlock (ready id) fun B => { B with rcd := { B.rcd with handler := 0 } }).issuer = some I ∧ I.sub.inh = false ∧ I.block.rcd.handler = 0) :=
  ⟨issuer_of (by decide), issuer_of (by decide), issuer_of (by decide)⟩
theorem witness_TrapInstructions : ∃ I, (ready id).issuer = some I ∧ True := issuer_of (by decide)
theorem witness_TrapReturn : (∃ I, (ready id).issuer = some I ∧ I.sub.inh = false) ∧
    (∃ I, (ready inHandler).issuer = some I ∧ (I.sub.low.map fun x => x.2.tcause.getLsbD 15) = some true ∧
      ∀ x ∈ I.sub.slices, ∀ e ∈ x.2.log, e.faulted = false) := ⟨issuer_of (by decide), issuer_of (by decide)⟩

/-- The placed block has the rights of its partition's runtime. -/
theorem placed_runtime {s : State} {I : Issuer} (h : s.part 0 = some placedPart ∧ I.block.part = 0 ∧ I.block.vf = 1) : s.holdsRights I .runtime :=
  ⟨placedPart, by rw [h.2.1]; exact h.1, h.2.2⟩
theorem witness_SystemRead :
    (∃ I, Issues (ready id) (.srd 31 .gpstat 23) false [.sreg 31 1] I ∧ True) ∧ (∀ s I, SysOk s I .gpstat 23 false) ∧
    (∃ I, Issues (ready id) (.srd 31 .tfence 3) false [.sreg 31 1] I ∧ (ready id).part 0 = some placedPart ∧ I.block.part = 0 ∧ I.block.vf = 1) ∧
    (∃ I, (ready id).issuer = some I ∧ I.sub.low.isSome = true ∧ ((ready id).part I.block.part).isSome = true ∧ I.block.proxy = none) :=
  ⟨issues_of (fun _ => True) (by decide), fun _ _ => ⟨24, .any, false, rfl, by decide, trivial, by simp⟩, issues_of _ (by decide), issuer_of (by decide)⟩
theorem witness_SystemWrite :
    (∃ I, Issues (ready id) (.swr 0 .tepc 0) false [.sreg 0 1] I ∧ True) ∧ (sliceWrite .tepc 1).isSome = true ∧
    (∀ s I, SysOk s I .tctl 0 true) ∧ (∀ s I, SysOk s I .thstat 3 true) ∧
    (∃ I, Issues (ready id) (.swr 0 .bpc 3) false [.sreg 0 1] I ∧ SysOk (ready id) I .bpc 3 true ∧ SysOk (ready id) I .psroot 0 true) :=
  ⟨issues_of (fun _ => True) (by decide), rfl, fun _ _ => ⟨1, .any, true, rfl, by decide, trivial, fun _ => rfl⟩,
    fun _ _ => ⟨4, .any, true, rfl, by decide, trivial, fun _ => rfl⟩,
    have ⟨I, h, p⟩ := issues_of (s := ready id) (i := .swr 0 .bpc 3) (b := false) (us := [.sreg 0 1])
      (fun I => (ready id).part 0 = some placedPart ∧ I.block.part = 0 ∧ I.block.vf = 1) (by decide)
    ⟨I, h, ⟨4, .runtime, true, rfl, by decide, placed_runtime p, fun _ => rfl⟩, ⟨1, .runtime, true, rfl, by decide, placed_runtime p, fun _ => rfl⟩⟩⟩
/-- The placed block with another function than its runtime's. -/
def guest : State := onBlock (ready id) fun B => { B with vf := 2 }
theorem witness_SystemTraps :
    (∃ I, Issues (ready id) (.srd 6 (.unlisted 0x7FF) 0) false [.out 6 1] I ∧ True) ∧ sysRow (.unlisted 0x7FF) = none ∧
    (∃ I, Issues (ready id) (.srd 6 .bpc 4) false [.out 6 1] I ∧ sysRow .bpc = some (4, .runtime, true)) ∧
    (∃ I, Issues guest (.srd 6 .bpc 3) false [.out 6 1] I ∧ guest.part 0 = some placedPart ∧ I.block.part = 0 ∧ I.block.vf ≠ placedPart.vflo) ∧
    (∃ I, Issues (ready id) (.swr 6 .gnode 0) false [.sreg 6 1] I ∧ sysRow .gnode = some (1, .any, false)) :=
  ⟨issues_of (fun _ => True) (by decide), rfl, issues_of _ (by decide), issues_of _ (by decide), issues_of _ (by decide)⟩
/-- A sheaf of tile 1. -/
def aSheaf : Sheaf :=
  { complete := true, restoring := false, crcOk := true, magicOk := true, part := 0, src := 1, rev := trevOf 0, fusec := 0,
    vsnap := zeroVec, poison := false, held := [], outs := [], image := Tile.reset }
/-- The placed partition with sheaves in slots 0, 1 and 2: complete, in writing, and being restored. -/
def sheaves : State := onPart (ready id) fun P => { P with sheaves := [(0, aSheaf), (1, { aSheaf with complete := false }), (2, { aSheaf with restoring := true })] }
theorem witness_SheafDiscard : (∃ I, Issues sheaves (.swr 0 .shdisc 0) false [.sreg 0 1] I ∧ I.block.part = 0 ∧ I.block.vf = 1 ∧
      (sheaves.part 0).map (fun P => (P.vflo, (kget P.sheaves 0).map fun h => (h.complete, h.restoring))) = some (1, some (true, false))) ∧
    (sheaves.part 0).map (fun P => ((kget P.sheaves 1).map (·.complete), (kget P.sheaves 2).map fun h => (h.complete, h.restoring), kget P.sheaves 255)) =
      some (some false, some (true, true), none) := ⟨issues_of _ (by decide), by decide⟩

theorem witness_FenceResult : (∃ I, (ready loading).issuer = some I ∧ I.sub.quiet = false) ∧
    (∃ I, (ready id).issuer = some I ∧ I.sub.quiet = true ∧ fabricBusy (ready id).node I = false ∧ Free I) := ⟨issuer_of (by decide), issuer_of (by decide)⟩

/-- The placed block with a page of another node's memory at 0x20000. -/
def abroad : State := onTile (ready id) fun T => { T with tlb := ⟨1, 0x20000, 0x20000, 65536, 2 ^ 42, true, true, true⟩ :: T.tlb }
/-- Operands of a monitor: its address in s4, its comparand in s8, its condition in s9. -/
def mon (va c : Word) : Slice → Slice := us 4 va ∘ us 9 c
/-- A slice that holds a monitor of a doubleword of the placed page, for a value other than x where cond is 1. -/
def watching (x : Word) (cond : BitVec 2) (S : Slice) : Slice := { S with monitor := some ⟨0x10020, 0x10020, .d, x, cond⟩ }
/-- The placed gang as a stage gang. -/
def asStage (s : State) : State := onGang s fun G => { G with kind := .stage 0 0 1 }
theorem witness_MonitorResult :
    (∃ I, Issues (ready (mon 0x30000 0)) (.monarm (.s 8) 4 .d) false [.uniPair (.s 8) 2, .sreg 4 1] I ∧ (failsWith (ready (mon 0x30000 0)) I 0x30000 .read 8).isSome = true) ∧
    (∃ I, (abroad.issuer = some I) ∧ ((passes abroad I 0x20000 .read 8).map fun x => x.1) = some (2 ^ 42) ∧ (2 ^ 42) / 2 ^ 42 ≠ abroad.node) ∧
    (∃ I, Issues (ready (mon 0x10000 4)) (.monarm (.s 8) 4 .d) false [.uniPair (.s 8) 2, .sreg 4 1] I ∧ I.sub.sreg 9 = 4 ∧
      passes (ready (mon 0x10000 4)) I 0x10000 .read 8 = some (0x10000, placedPage 0) ∧ isDram 0x10000 = true) ∧
    (∃ I, Issues (ready (mon 0x1FFF8 3)) (.monarm (.s 8) 4 .d) false [.uniPair (.s 8) 2, .sreg 4 1] I ∧ I.sub.sreg 9 = 3 ∧
      passes (ready (mon 0x1FFF8 3)) I 0x1FFF8 .read 8 = some (0x1FFF8, placedPage 0)) ∧
    (∃ I, Issues (ready id) (.monwait ⟨false, 9⟩ .d .plain) false [.udst ⟨false, 9⟩ 1 false] I ∧ I.sub.low.map (fun x => x.2.monitor) = some none) ∧
    (∃ I, Issues (ready (watching 0 0)) (.monwait ⟨false, 9⟩ .d .plain) false [.udst ⟨false, 9⟩ 1 false] I ∧ I.sub.low.map (fun x => x.2.monitor.map (·.ty)) = some (some .d) ∧
      I.sub.acquirePending = false ∧ (ready (watching 0 0)).homeOpen 0 0 ((ready (watching 0 0)).carried 0) false = true ∧ Free I ∧
      leNat ((ready (watching 0 0)).bytes 0x10020 8) = 0 ∧ (ready (watching 0 0)).poison = []) ∧
    ((0x10020 + 7) / 128 ∈ ({ ready (watching 0 0) with poison := [512] } : State).poison) ∧
    (security { ready (watching 0 0) with closed := [⟨0, true⟩] } false 0x10020 = some 1 ∧ security (ready (watching 0 0)) false 0x10020 = none) ∧
    (∃ I, (asStage (ready (watching 1 0))).issuer = some I ∧ I.gang.isStage = true ∧ leNat ((ready (watching 1 0)).bytes 0x10020 8) ≠ 1) ∧
    (∃ I, (ready (watching 1 0)).issuer = some I ∧ I.gang.isStage = false ∧ I.sub.logsEmpty = true ∧ I.sub.liveLanes.length ≤ I.tile.freeSlots) :=
  ⟨issues_of _ (by decide), issuer_of (by decide), issues_of _ (by decide), issues_of _ (by decide), issues_of _ (by decide), issues_of _ (by decide),
    by decide, by decide, issuer_of (by decide), issuer_of (by decide +kernel)⟩
/-- A barrier of expectation 1 at offset 0 of the placed scratchpad. -/
def barred : State := onBlock (ready id) fun B => { B with spad := [(0, 1), (8, 1)] }
theorem witness_BarrierResult : (∀ i ∈ [Instr.barinit (.pos 0) (.pos 1), .bararv (.pos 0) (.pos 1), .barexp (.pos 0) (.pos 1), .barwait (.pos 0) (.pos 1)],
      ∃ I, Issues barred i false [.src (.pos 0), .src (.pos 1)] I ∧ okOf (barred.spadFind I 0 16) = some (some ⟨0, 0, 0⟩) ∧ I.sub.acquirePending = false ∧
        I.sub.quiet = true ∧ Free I ∧ I.block.barrier 0 = (1, 0, 1, 0)) ∧
    (∃ I, (ready loading).issuer = some I ∧ I.sub.quiet = false) ∧
    ((0 + 2 ^ 33 - (2 ^ 32 - 1) - 1) % 2 ^ 32 < 2 ^ 31) ∧ ¬ ((0 + 2 ^ 33 - 0 - 1) % 2 ^ 32 < 2 ^ 31) := by
  refine ⟨?_, issuer_of (by decide), by decide, by decide⟩
  intro i hi
  simp only [List.mem_cons, List.not_mem_nil, or_false] at hi
  rcases hi with rfl | rfl | rfl | rfl <;> exact issues_of _ (by decide)
/-- The placed block with counter 2 at ISSUE 7, COMPL 5. -/
def counted : State := onBlock (ready id) fun B => { B with tcs := [(2, ⟨7, 5, []⟩)] }
theorem witness_TimelineResult :
    (∃ I, Issues counted (.tlqry 2 ⟨false, 31⟩) false [.udst ⟨false, 31⟩ 1 false] I ∧ I.gang.detached = false ∧ I.gang.isStage = false ∧ I.block.tl 2 = ⟨7, 5, []⟩) ∧
    (∃ I, Issues counted (.tlwait 2 (.pos 8)) false [.src (.pos 8)] I ∧ I.sub.resume = none ∧ Free I ∧ I.sub.logsEmpty = true ∧
      I.sub.acquirePending = false ∧ I.sub.liveLanes.length ≤ I.tile.freeSlots) ∧
    (∃ I, detached.issuer = some I ∧ I.gang.detached = true) ∧ (∃ I, (asStage (ready id)).issuer = some I ∧ I.gang.isStage = true ∧ I.gang.detached = false) ∧
    (1 ≤ (8 + 2 ^ 32 - 7) % 2 ^ 32 ∧ (8 + 2 ^ 32 - 7) % 2 ^ 32 < 2 ^ 31) ∧ ¬ (1 ≤ (7 + 2 ^ 32 - 7) % 2 ^ 32) ∧
    (5 + 2 ^ 32 - 5) % 2 ^ 32 < 2 ^ 31 ∧ ¬ ((5 + 2 ^ 32 - 6) % 2 ^ 32 < 2 ^ 31) :=
  ⟨issues_of _ (by decide), issues_of _ (by decide +kernel), issuer_of (by decide), issuer_of (by decide), by decide, by decide, by decide, by decide⟩

theorem witness_QueryResult : (∃ I, Issues (ready id) (.lqry ⟨false, 31⟩ (.pos 2)) false [.src (.pos 2), .udst ⟨false, 31⟩ 1 false] I ∧ 1 < (uniVal ((ready id).window I) 0 I.sub (.pos 2)).toNat) ∧
    (∃ I, Issues (ready id) (.lqry ⟨false, 31⟩ (.pos 1)) false [.src (.pos 1), .udst ⟨false, 31⟩ 1 false] I ∧ (uniVal ((ready id).window I) 0 I.sub (.pos 1)).toNat = 1 ∧
      (ready id).ownerOf I = some (0, 0, I.block)) := ⟨issues_of _ (by decide), issues_of _ (by decide)⟩
/-- The bytes of the placed record. -/
def recordBytes : List Byte := natLe 8 0x10000 ++ natLe 8 0x10100 ++ natLe 8 0 ++ natLe 8 0 ++ natLe 8 0 ++ natLe 8 0 ++ natLe 8 placedRecord.geom.toNat ++ natLe 8 0
/-- The placed block with that record at 0x10080, its address in s4. -/
def submitting : State := (ready (us 4 0x10080)).putBytes 0x10080 recordBytes
/-- The same with four launches pending. -/
def fullPend : State := onBlock submitting fun B => { B with pend := List.replicate 4 ⟨9, 0⟩ }
/-- Bytes that a read of memory gives. -/
def sourceOf (x : SrcAns) : Option (List Byte) := match x with | .ok _ bs => some bs | _ => none
theorem witness_LaunchResult :
    (∃ I, Issues submitting (.launch (.s 4)) false [.src (.s 4)] I ∧ I.sub.resume = none ∧ I.gang.isStage = false ∧ I.block.pend.length < 4 ∧ I.sub.quiet = true ∧ Free I ∧
      sourceOf (readSource submitting I 0x10080 64) = some recordBytes ∧ (submitting.part I.block.part).map (fun P => (LRecord.ofBytes recordBytes).submitCheck P) = some none) ∧
    (∃ I, Issues fullPend (.launch (.s 4)) false [.src (.s 4)] I ∧ 4 ≤ I.block.pend.length ∧ I.sub.logsEmpty = true ∧ I.sub.liveLanes.length ≤ I.tile.freeSlots) ∧
    (∃ I, Issues (ready (loading ∘ us 4 0x10080)) (.launch (.s 4)) false [.src (.s 4)] I ∧ I.block.pend.length < 4 ∧ I.sub.quiet = false) ∧
    (∃ I, (asStage (ready id)).issuer = some I ∧ I.gang.isStage = true) ∧
    (submitting.part 0).map (fun P => (LRecord.ofBytes (List.replicate 64 0)).submitCheck P) = some (some 2) ∧ (0x10081 % 64 ≠ 0) :=
  ⟨issues_of _ (by decide +kernel), issues_of _ (by decide +kernel), issues_of _ (by decide), issuer_of (by decide), by decide, by decide⟩
/-- The placed sub-gang resumed from a SUSPEND. -/
def resumed : State := onSub (ready id) fun U => { U with resume := some .suspend }
theorem witness_SuspendResult :
    (∃ I, Issues (ready id) (.suspend .now) false [] I ∧ I.sub.resume = none ∧ I.gang.isStage = false ∧ Free I ∧ I.sub.logsEmpty = true ∧
      I.sub.liveLanes.length ≤ I.tile.freeSlots ∧ (kfree I.tile.bins 32).isSome = true) ∧
    (∃ I, Issues (ready (us 5 0xFFFFFFFF)) (.suspend (.delay (.s 5))) false [.src (.s 5)] I ∧ I.sub.sreg 5 = 0xFFFFFFFF) ∧
    (∃ I, Issues resumed (.suspend .now) false [] I ∧ I.sub.resume = some .suspend ∧ I.gang.isStage = false) :=
  ⟨issues_of _ (by decide +kernel), issues_of _ (by decide), issues_of _ (by decide)⟩
theorem witness_SpawnResult :
    (∃ I, Issues (ready (us 8 0x10040)) (.spawn (.s 8) 4 true 2) false [.uni (.s 8), .vrun 4 3] I ∧ I.gang.isStage = false ∧ (I.sub.sreg 8).toNat % 4 = 0 ∧
      I.sub.actives ≠ [] ∧ I.sub.quiet = true ∧ Free I) ∧
    (∃ I, Issues (ready (us 8 0x10042)) (.spawn (.s 8) 4 true 2) false [.uni (.s 8), .vrun 4 3] I ∧ (I.sub.sreg 8).toNat % 4 ≠ 0) ∧
    (∃ I, Issues (ready fun S => { S with mask := 0 }) (.spawn (.s 8) 63 false 15) false [.uni (.s 8), .vrun 63 16] I ∧ I.sub.actives = []) ∧
    (∃ I, Issues (ready loading) (.spawn (.s 8) 4 true 2) false [.uni (.s 8), .vrun 4 3] I ∧ I.sub.actives ≠ [] ∧ I.sub.quiet = false) ∧
    (∃ I, Issues detached (.spawn (.s 8) 4 false 2) false [.uni (.s 8), .vrun 4 3] I ∧ I.gang.detached = true ∧ I.gang.isStage = false) ∧
    (∃ I, (asStage (ready id)).issuer = some I ∧ I.gang.isStage = true) :=
  ⟨issues_of _ (by decide), issues_of _ (by decide), issues_of _ (by decide), issues_of _ (by decide), issues_of _ (by decide), issuer_of (by decide)⟩
theorem witness_ExitResult : (∃ I, (ready loading).issuer = some I ∧ I.sub.logsEmpty = false) ∧
    (∃ I, (ready id).issuer = some I ∧ I.sub.logsEmpty = true ∧ wholeGang I = true ∧ I.gang.isStage = false ∧ Free I) ∧
    (∃ I, twoSubs.issuer = some I ∧ I.sub.logsEmpty = true ∧ wholeGang I = false) := ⟨issuer_of (by decide), issuer_of (by decide), issuer_of (by decide)⟩

/-- The placed gang without feeder rights. -/
def noFeeder : State := onGang (ready id) fun G => { G with feeder := false }
theorem witness_EngineCommand :
    (∃ I, Issues (ready id) (.mswap 2 15) false (paramUseList none 0) I ∧ I.gang.feeder = true ∧ (planMswap 2 15 (ready id) I []).causes = [] ∧
      (I.tile.engineQueue (.mswap 2 15)).length < 16 ∧ I.sub.quiet = true ∧ Free I) ∧ (enginePlan (.mswap 2 15)).isSome = true ∧
    (∃ I, Issues noFeeder (.mswap 2 15) false (paramUseList none 0) I ∧ I.gang.feeder = false) ∧
    (∃ I, Issues (ready id) (.copym 0 63 0 true false 31) false (paramUseList (some 31) 1) I ∧ ¬ (31 + 1 ≤ 31)) ∧
    (∃ I, Issues (ready loading) (.mswap 2 15) false (paramUseList none 0) I ∧ I.sub.quiet = false) ∧
    (∃ I, (ready id).issuer = some I ∧ kget I.block.handles 63 = none) ∧ (63 : BitVec 6) ∈ engineHandles (.histclr 0 63) :=
  ⟨issues_of _ (by decide), rfl, issues_of _ (by decide), issues_of _ (by decide), issues_of _ (by decide), issuer_of (by decide), by decide⟩
/-- A tile of the array engine at work. -/
def busyArray : State := onTile (ready id) fun T => { T with arrayQ := [{
  id := 5, uid := 1, vf := 1, world := false, tc := 2, num := 1, cmd := .mswap 2 1, d1 := ⟨0, 0, 0, 0⟩, d2 := ⟨0, 0, 0, 0⟩, par := [], pages := [],
  aux := [], bad := none, links := [], phase := 0, pos := 0, counted := 0, lost := false, wait := [], got := [], seed := 0 }] }
theorem witness_EngineImmediate :
    (∃ I, Issues (ready (us 8 0)) (.tdef 63 28) false (paramUses 28 3) I ∧ I.gang.feeder = true ∧ (28 : BitVec 5).toNat % 4 = 0 ∧ Free I) ∧
    (∃ I, Issues noFeeder (.tdef 63 28) false (paramUses 28 3) I ∧ I.gang.feeder = false) ∧ ((27 : BitVec 5).toNat % 4 ≠ 0) ∧
    (∃ I, (ready id).issuer = some I ∧ I.block.descOk ⟨0xFFFFFFFFFFFFFFFF, 0xFFFFFFFFFFFFFFFF, 0xFFFFFFFFFFFFFFFF, 0xFFFFFFFFFFFFFFFF⟩ = false) ∧
    (∃ I, Issues (ready (us 7 0x3FFFF)) (.accmov true 6 (.s 7)) false [.src (.s 7), .sreg 6 1] I ∧ I.tile.arrayQ = [] ∧ I.gang.isStage = false ∧ I.tile.accPoison = []) ∧
    (∃ I, Issues (ready (us 7 0x40000)) (.accmov true 6 (.s 7)) false [.src (.s 7), .sreg 6 1] I ∧ 2 ^ 18 ≤ (I.sub.sreg 7).toNat) ∧
    (∃ I, Issues busyArray (.accmov false 6 (.s 7)) false [.src (.s 7), .out 6 1] I ∧ I.tile.arrayQ ≠ []) ∧
    (∃ I, Issues (onTile (ready id) fun T => { T with accPoison := [(0, .sheaf)] }) (.accmov false 6 (.s 7)) false [.src (.s 7), .out 6 1] I ∧ kget I.tile.accPoison 0 = some .sheaf) ∧
    (∃ I, Issues (ready id) (.histrd 7 31 ⟨false, 5⟩) false [.udst ⟨false, 5⟩ 1 false] I ∧ I.gang.detached = false ∧ I.gang.isStage = false) :=
  ⟨issues_of _ (by decide), issues_of _ (by decide), by decide, issuer_of (by decide), issues_of _ (by decide), issues_of _ (by decide), issues_of _ (by decide),
    issues_of _ (by decide), issues_of _ (by decide)⟩
/-- An array command of the placed block in a phase. -/
def swapCmd (phase : Nat) (cmd : Instr) : EngCmd :=
  { id := 5, uid := 1, vf := 1, world := false, tc := 2, num := 1, cmd := cmd, d1 := ⟨0, 0, 0, 0⟩, d2 := ⟨0, 0, 0, 0⟩, par := [], pages := [],
    aux := [], bad := none, links := [], phase := phase, pos := 0, counted := 0, lost := false, wait := [], got := [], seed := 0 }
/-- The placed tile with such a command. -/
def engineAt (phase : Nat) (cmd : Instr) : State := onTile (ready id) fun T => { T with arrayQ := [swapCmd phase cmd] }
/-- A copy of one row of 16 words whose payload is performed, counted on the barrier at offset 64. -/
def countedCopy : EngCmd := { swapCmd 2 (.copy 0 1 2 false true false 3) with par := [0, 64], d1 := ⟨0, 0, 0x100000010, 0⟩ }
/-- The placed tile with it. -/
def copying : State := onTile (ready id) fun T => { T with copyQ := [countedCopy] }
theorem witness_EngineEvents :
    (engineAt 3 (.mswap 2 1)).engineCmd 0 5 (swapCmd 3 (.mswap 2 1)) placedBlock ∧
    ((engineAt 3 (.mswap 2 1)).cmdFinish 0 (swapCmd 3 (.mswap 2 1)) placedBlock).isSome = true ∧
    (engineAt 1 (.mswap 2 1)).engineCmd 0 5 (swapCmd 1 (.mswap 2 1)) placedBlock ∧
    ((engineAt 1 (.mswap 2 1)).cmdAdvance 0 (swapCmd 1 (.mswap 2 1)) placedBlock).isSome = true ∧
    ((engineAt 0 (.mmul 1 6 4 16)).tile 0).arrayQ = [swapCmd 0 (.mmul 1 6 4 16)] ∧ takesLinks (.mmul 1 6 4 16) = true ∧
    ((engineAt 1 (.mswap 2 1)).tile 0).arrayFirst (swapCmd 1 (.mswap 2 1)) = true ∧ ((engineAt 1 (.accz 2 1)).tile 0).arrayFirst (swapCmd 1 (.accz 2 1)) = true ∧
    (0 : W32) - 1 + 1 = 0 ∧
    (countedCopy.barriers ≠ [] ∧ countedCopy.counted + 1 ≤ countedCopy.countTotal ∧ countedCopy.phase = 2) ∧
    copying.engineCmd 0 5 countedCopy placedBlock ∧ (copying.countBytes countedCopy placedBlock 1).isSome = true ∧
    placedBlock.placeOf 64 = some ⟨0, 0, 64⟩ ∧ ((engineAt 3 (.mswap 2 1)).findBlock 1).map (fun x => (x.1, x.2.1)) = some (0, 0) ∧
    (copying.cmdAdvance 0 { countedCopy with wait := [7] } placedBlock).isNone = true := by
  refine ⟨⟨rfl, rfl, 0, rfl⟩, by decide, ⟨rfl, rfl, 0, rfl⟩, by decide, rfl, rfl, by decide, by decide, by decide, by decide, ⟨rfl, rfl, 0, rfl⟩, by decide,
    by decide, by decide, by decide⟩

/-- A strand of two four-byte elements, the second poisoned. -/
def aStrand : Strand := { home := 0, esize := 4, elems := [⟨10, [1, 2, 3, 4], false⟩, ⟨11, [5, 6, 7, 8], true⟩], segs := [(0, 2)], nodes := [], gone := [], editGen := 0 }
/-- The placed partition with two strands, a cursor on the second, and an anchor to the first element of the first. -/
def strandPart : Part := { placedPart with
  strands := [(1, aStrand), (2, { aStrand with elems := [⟨12, [0, 0, 0, 0], false⟩], segs := [(1, 1)], gone := [13] })], cursors := [(1, ⟨0, 2, 7, 0, [], []⟩)], anchors := [(3, ⟨1, some 10⟩), (5, ⟨1, some 13⟩)] }
/-- The same with the first n indices of home 0 in use. -/
def manyStrands (n : Nat) : Part := { strandPart with strands := (List.range n).map fun i => (i, aStrand) }
theorem index_none (n : Nat) (h : n = 2 ^ 30) : (manyStrands n).freeIndex 0 = none := by
  simp only [Part.freeIndex, List.find?_eq_none]
  intro x _
  by_cases hx : x < n
  · have : x ∈ ((manyStrands n).strands.filter fun (k, _) => k / 2 ^ 30 == 0).map fun (k, _) => k % 2 ^ 30 :=
      List.mem_map.mpr ⟨(x, aStrand), List.mem_filter.mpr ⟨List.mem_map.mpr ⟨x, List.mem_range.mpr hx, rfl⟩,
        by rw [h] at hx; simpa using Nat.div_eq_of_lt hx⟩, Nat.mod_eq_of_lt (h ▸ hx)⟩
    simp only [List.contains_iff_mem.mpr this, Bool.not_true, Bool.and_false, Bool.false_eq_true, not_false_eq_true]
  · simp only [← h, hx, decide_false, Bool.false_and, Bool.false_eq_true, not_false_eq_true]
theorem witness_StrandIndex : ∃ P : Part, P.freeIndex 0 = none := ⟨manyStrands (2 ^ 30), index_none _ rfl⟩
theorem witness_StrandStructure :
    (strandPart.strandAt 9 = none ∧ strandPart.strandAt 1 = some aStrand ∧ strandPart.cursorAt 9 = none ∧ (strandPart.cursorAt 1).map (·.strand) = some 2) ∧
    (3 ∉ [1, 2, 4, 8, 16, 32, 64] ∧ 64 ∈ [1, 2, 4, 8, 16, 32, 64] ∧ (∀ k, k < 4 → strandPart.fields.getLsbD (4 * 3 + k) = false) ∧
      strandPart.fields.getLsbD (4 * 0 + 0) = true ∧ 2 < strandPart.segTotal ∧ 2 ∉ strandPart.segsUsed ∧ strandPart.tainted = [] ∧ strandPart.retired = [] ∧
      (strandPart.freeIndex 0).isSome = true ∧ ({ strandPart with spsize := 0 }).segTotal = 0) ∧
    (aStrand.elems.length < 3 ∧ 2 ≤ aStrand.elems.length ∧ 2 ^ 40 ≤ aStrand.elems.length + (2 ^ 40 - 2) ∧ aStrand.elems.length + (2 ^ 40 - 3) < 2 ^ 40) ∧
    (strandPart.hasCursor 1 = false ∧ strandPart.hasCursor 2 = true ∧ (strandPart.strandAt 2).map (fun u => (u.esize, u.home)) = some (aStrand.esize, aStrand.home)) ∧
    (aStrand.elems[1]?).isSome = true ∧ aStrand.elems[2]? = none ∧
    (kget strandPart.anchors 3).map (fun A => (A.gen, A.elem)) = some (1, some 10) ∧ (2 ^ 32 + 3) / 2 ^ 32 = 1 ∧ kget strandPart.anchors 4 = none ∧
    (kget strandPart.anchors 5).map (·.elem) = some (some 13) ∧ (∀ x ∈ strandPart.strands, ∀ e ∈ x.2.elems, e.uid ≠ 13) := by decide
/-- A slice with an acquire on its way. -/
def acquiring (S : Slice) : Slice :=
  { S with log := [⟨0, 9, .ldUniform ⟨false, 5⟩ 4 .w (.sync .die), 0, [], 15, [⟨none, 0x10000, 0, 0, false, .pending⟩]⟩] }
/-- The placed block in the partition with strands. -/
def stranded : State := onPart (ready (us 3 1)) fun _ => strandPart
/-- What a SLEN of strand 1 asks of its home. -/
def slenReq : StrandReq := ⟨0, 9, 0, false, .slen (.s 3) 6, 1, [], [], [(none, 0, 0)]⟩
/-- The cause a source's read raises, and whether it waits. -/
def sourceFails (x : SrcAns) : Bool := match x with | .fault _ => true | _ => false
def sourceWaits (x : SrcAns) : Bool := match x with | .wait => true | _ => false
/-- A state with a write of the placed page on its way to its home. -/
def unwritten : State := { ready id with dies := kset (ready id).dies 0 { (ready id).die 0 with inbox := [⟨0, 0, 0, zeroVec, 0, .write 0x10000 [1], 0, 1, none, none, false, false⟩] } }
theorem witness_StrandIssue :
    (∃ I, (ready (acquiring ∘ us 3 1)).issuer = some I ∧ strandWaits (ready (acquiring ∘ us 3 1)) I true (.slen (.s 3) 6) 1 [] [wholeAccess] = true) ∧
    (∃ I, stranded.issuer = some I ∧ stranded.isLocal I.t 0 = true ∧ I.sub.logsEmpty = true ∧ I.block.part = 0 ∧ I.block.world = false) ∧
    stranded.part 0 = some strandPart ∧ stranded.strandDenied strandPart slenReq = false ∧
    (match (strandStep strandPart 0 9 slenReq).2.2 with | .ok ls => ls.map (fun x => (x.1, x.2.1, x.2.2.2.isSome)) | _ => []) = [(none, 2, false)] ∧
    (∃ I, (ready id).issuer = some I ∧ sourceFails (readSource (ready id) I 0x30000 64) = true) ∧
    (∃ I, unwritten.issuer = some I ∧ sourceWaits (readSource unwritten I 0x10000 64) = true) :=
  ⟨issuer_of (by decide), issuer_of (by decide), by decide, by decide, by decide, issuer_of (by decide), issuer_of (by decide)⟩
theorem witness_StrandAccess :
    (elementOp (.sldUniform ⟨false, 9⟩ 6 .w 0 3) = some (.load false, 4) ∧ elementOp (.sacas (.v 0) 1 .w 4) = some (.atomic 10, 4) ∧
      elementOp (.sstLane (.v 6) 2 .d 5) = some (.store, 8) ∧ elementOp (.sldLane ⟨false, 0⟩ 0 .w 1 0) = some (.load true, 4)) ∧
    Reaches aStrand (.load false) 4 1 ∧ ¬ Reaches aStrand .store 8 2 ∧ (aStrand.elems.map (·.poison) = [false, true]) ∧
    (∃ F I, strandForm (.sldLane ⟨false, 8⟩ 1 .w 0 3) = some F ∧ Issues (ready fun S => { S with mask := 0 }) (.sldLane ⟨false, 8⟩ 1 .w 0 3) false F.uses I ∧
      F.accesses (ready fun S => { S with mask := 0 }) I = []) ∧
    (∃ F I, strandForm (.slen (.s 3) 6) = some F ∧ Issues (ready (us 3 1)) (.slen (.s 3) 6) false F.uses I ∧ F.accesses (ready (us 3 1)) I ≠ [] ∧
      strandWaits (ready (us 3 1)) I F.uniform (.slen (.s 3) 6) (F.strand I.sub ((ready (us 3 1)).window I)) (F.args I.sub ((ready (us 3 1)).window I))
        (F.accesses (ready (us 3 1)) I) = false ∧ Free I ∧ (ready (us 3 1)).isLocal I.t 0 = true ∧ homesOf I.t (.slen (.s 3) 6) 1 [] [wholeAccess] = [(0, [wholeAccess])] ∧
      ((ready (us 3 1)).part I.block.part).isSome = true) ∧
    (∃ I, Issues (ready id) (.sins (.s 3) (.pos 0) true 10) false [.src (.s 3), .src (.pos 0), .sreg 10 1] I ∧
      strandWaits (ready id) I true (.sins (.s 3) (.pos 0) true 10) 0 [0, 0, 0] [wholeAccess] = false ∧ Free I ∧ sourceOf (readSource (ready id) I 0 0) = some []) ∧
    (∃ I, Issues (ready (us 11 0x10000)) (.sapnd (.s 20) 10) false [.src (.s 20), paramPair 10] I ∧
      strandWaits (ready (us 11 0x10000)) I true (.sapnd (.s 20) 10) 0 [0, 0x10000] [wholeAccess] = false) := by
  refine ⟨by decide, ⟨by decide, by decide, by decide, fun ⟨k, h⟩ => by cases h⟩, fun h => absurd h.2.2.1 (by decide), by decide,
    form_of strandForm StrandForm.uses (fun F I => F.accesses (ready fun S => { S with mask := 0 }) I = []) (by decide),
    form_of strandForm StrandForm.uses (fun F I => F.accesses (ready (us 3 1)) I ≠ [] ∧
      strandWaits (ready (us 3 1)) I F.uniform (.slen (.s 3) 6) (F.strand I.sub ((ready (us 3 1)).window I)) (F.args I.sub ((ready (us 3 1)).window I))
        (F.accesses (ready (us 3 1)) I) = false ∧ Free I ∧ (ready (us 3 1)).isLocal I.t 0 = true ∧ homesOf I.t (.slen (.s 3) 6) 1 [] [wholeAccess] = [(0, [wholeAccess])] ∧
      ((ready (us 3 1)).part I.block.part).isSome = true) (by decide),
    issues_of _ (by decide), issues_of _ (by decide)⟩

/-- The placed block with 32 items in channel 5. -/
def fullChannel : State := onBlock (ready id) fun B => { B with chans := [(5, ⟨false, 1, List.replicate 32 [7]⟩)] }
theorem witness_ChannelResult :
    (∃ F I, chanForm (.sendLane (.v 3) 5 0 false) = some F ∧ Issues (ready id) (.sendLane (.v 3) 5 0 false) false [F.use] I ∧ I.gang.isStage = false ∧
      I.gang.detached = false ∧ (ready id).isLink I.block F.ch = false ∧ I.sub.quiet = true ∧ Free I ∧ F.send.isSome = true ∧ kget I.block.chans F.ch = none) ∧
    (∃ F I, chanForm (.recvUniform ⟨false, 3⟩ 5 0) = some F ∧ Issues fullChannel (.recvUniform ⟨false, 3⟩ 5 0) false [F.use] I ∧
      (kgetD I.block.chans F.ch ⟨false, 1, []⟩).entries.length = 32 ∧ F.need I.sub = 1 ∧ F.send.isNone = true) ∧
    (∃ F I, chanForm (.recvUniform ⟨false, 3⟩ 5 0) = some F ∧ Issues (ready id) (.recvUniform ⟨false, 3⟩ 5 0) false [F.use] I ∧
      (kgetD I.block.chans F.ch ⟨false, 1, []⟩).entries.length < F.need I.sub) ∧
    (∃ F I, chanForm (.sendUniform (.s 3) 5 0) = some F ∧ Issues fullChannel (.sendUniform (.s 3) 5 0) false [F.use] I ∧ 32 < (kgetD I.block.chans F.ch ⟨false, 1, []⟩).entries.length + 1) ∧
    (∃ F I, chanForm (.sendUniform (.s 3) 5 1) = some F ∧ Issues fullChannel (.sendUniform (.s 3) 5 1) false [F.use] I ∧ (kgetD I.block.chans F.ch ⟨false, 1, []⟩).width ≠ F.width) ∧
    (∃ F I, chanForm (.sendUniform (.s 3) 5 0) = some F ∧ Issues (ready loading) (.sendUniform (.s 3) 5 0) false [F.use] I ∧ I.sub.quiet = false) ∧
    (∃ F I, chanForm (.sendLane (.v 3) 5 0 false) = some F ∧ Issues (ready fun S => { S with mask := 0 }) (.sendLane (.v 3) 5 0 false) false [F.use] I ∧ I.sub.actives = []) :=
  ⟨form_of chanForm (fun F => [F.use]) (fun F I => I.gang.isStage = false ∧ I.gang.detached = false ∧ (ready id).isLink I.block F.ch = false ∧ I.sub.quiet = true ∧ Free I ∧
      F.send.isSome = true ∧ kget I.block.chans F.ch = none) (by decide),
    form_of chanForm (fun F => [F.use]) (fun F I => (kgetD I.block.chans F.ch ⟨false, 1, []⟩).entries.length = 32 ∧ F.need I.sub = 1 ∧ F.send.isNone = true) (by decide),
    form_of chanForm (fun F => [F.use]) (fun F I => (kgetD I.block.chans F.ch ⟨false, 1, []⟩).entries.length < F.need I.sub) (by decide),
    form_of chanForm (fun F => [F.use]) (fun F I => 32 < (kgetD I.block.chans F.ch ⟨false, 1, []⟩).entries.length + 1) (by decide),
    form_of chanForm (fun F => [F.use]) (fun F I => (kgetD I.block.chans F.ch ⟨false, 1, []⟩).width ≠ F.width) (by decide),
    form_of chanForm (fun F => [F.use]) (fun _ I => I.sub.quiet = false) (by decide),
    form_of chanForm (fun F => [F.use]) (fun _ I => I.sub.actives = []) (by decide)⟩

/-- A stage of two windows of registers. -/
def aStage (place : StageAt) : Stage := { entry := 0x10000, win := 2, place := place, pc := 0x10000, stop := 0, live := 3, slices := [], eos := false, atKnot := false }
/-- A link of one-word items. -/
def aLink (ch : Nat) (rows : List (Option (List W32))) : SkLink :=
  { ch := ch, depth := 4, item := 1, rows := rows, flight := [], credits := 1, notices := 0, waiting := [], made := true }
/-- A skein of three stages whose middle one the placed gang runs; its links are channels 1 and 2. -/
def aSkein (rows : List (Option (List W32))) : Skein :=
  { desc := 0x10100, descPa := 0x10100, vf := 1, tile := 0, ctx := 0, uid := 1, slices := 1, ringBase := 0, save := 0, last := 0, switches := 0,
    folded := false, foldGang := none, run := 1, sw := .none, stages := [aStage .unplaced, aStage (.gang 0 2), aStage .unplaced],
    links := [aLink 1 rows, aLink 2 []], freezeDefer := [] }
/-- The placed gang in stage 1 of a skein. -/
def staged (K : Skein) (f : Slice → Slice := id) : State := onPart (asStage (ready f)) fun P => { P with skeins := [(0, K)] }
/-- The placed gang runs stage 1 of K. -/
abbrev AtOne (s : State) (I : Issuer) (K : Skein) : Prop :=
  I.gang.skeinName = some (0, 0) ∧ s.skeinOf I.gang.kind = some K ∧ s.stageOf I.gang.kind = some (1, aStage (.gang 0 2))
theorem atOne_iff {s : State} {I : Issuer} {K : Skein} : AtOne s I K ↔ InStage s I 0 0 K 1 (aStage (.gang 0 2)) := Iff.rfl
/-- Whether the link instruction i executes normally for the running sub-gang, and P holds. -/
def links (s : State) (i : Instr) (b : Bool) (P : LinkForm → Issuer → Prop) [∀ F, DecidablePred (P F)] : Bool :=
  match linkForm i with
  | some F => met s fun I => useFault (s.window I) I.sub.depth b (F.uses I) = none ∧ I.sub.hazard (touches (F.uses I)) = false ∧
      I.sub.readsBad (s.window I) (isLane i) (F.uses I) = false ∧ P F I
  | none => false
theorem link_of {s : State} {i : Instr} {b : Bool} (P : LinkForm → Issuer → Prop) [∀ F, DecidablePred (P F)]
    (h : links s i b P = true) : ∃ F I, linkForm i = some F ∧ Issues s i b (F.uses I) I ∧ P F I := by
  unfold links at h
  split at h
  · have ⟨I, h1, h2, h3, h4, h5⟩ := issuer_of h
    exact ⟨_, I, ‹_›, ⟨h1, h2, h3, h4⟩, h5⟩
  · cases h
theorem witness_SkeinChecks :
    (∃ F I, linkForm (.get (.v 4) 1 0 1) = some F ∧ Issues (ready id) (.get (.v 4) 1 0 1) false (F.uses I) I ∧ I.gang.skeinName = none) ∧
    (∃ F I, linkForm (.get (.v 4) 63 0 1) = some F ∧ Issues (staged (aSkein [])) (.get (.v 4) 63 0 1) false (F.uses I) I ∧ AtOne (staged (aSkein [])) I (aSkein []) ∧
      ∀ l ∈ (aSkein []).links, l.ch ≠ F.ch) ∧
    (∃ F I, linkForm (.get (.v 15) 2 0 1) = some F ∧ Issues (staged (aSkein [])) (.get (.v 15) 2 0 1) false (F.uses I) I ∧ AtOne (staged (aSkein [])) I (aSkein []) ∧
      F.cause I (aSkein []) 1 (aStage (.gang 0 2)) = some 2) ∧
    (∃ F I, linkForm (.get (.v 15) 1 0 1) = some F ∧ Issues (staged { aSkein [] with sw := .unreeling }) (.get (.v 15) 1 0 1) false (F.uses I) I ∧
      AtOne (staged { aSkein [] with sw := .unreeling }) I { aSkein [] with sw := .unreeling } ∧
      F.cause I { aSkein [] with sw := .unreeling } 1 (aStage (.gang 0 2)) = none ∧ ({ aSkein [] with sw := .unreeling }).stopping = true ∧ I.sub.quiet = true) ∧
    (∃ I, (staged (aSkein [])).issuer = some I ∧ AtOne (staged (aSkein [])) I (aSkein []) ∧ wholeGang I = true ∧ (aSkein []).stopping = false ∧
      (4 : BitVec 16).toNat = 2 ^ (aStage (.gang 0 2)).win ∧ (3 : BitVec 16).toNat < 2 ^ (aStage (.gang 0 2)).win) :=
  ⟨link_of (fun _ I => I.gang.skeinName = none) (by decide),
    link_of (fun F I => AtOne (staged (aSkein [])) I (aSkein []) ∧ ∀ l ∈ (aSkein []).links, l.ch ≠ F.ch) (by decide),
    link_of (fun F I => AtOne (staged (aSkein [])) I (aSkein []) ∧ F.cause I (aSkein []) 1 (aStage (.gang 0 2)) = some 2) (by decide),
    link_of (fun F I => AtOne (staged { aSkein [] with sw := .unreeling }) I { aSkein [] with sw := .unreeling } ∧
      F.cause I { aSkein [] with sw := .unreeling } 1 (aStage (.gang 0 2)) = none ∧ ({ aSkein [] with sw := .unreeling }).stopping = true ∧ I.sub.quiet = true) (by decide),
    issuer_of (by decide)⟩

/-- The same with a spread skein whose first link holds a row, or one of end-of-stream, and with the skein folded. -/
def rowSkein : Skein := aSkein [some [9, 9, 9, 9]]
def eosSkein : Skein := aSkein [none]
def foldSkein : Skein := { aSkein [] with folded := true, foldGang := some 2 }
/-- Stage 1 of K may go at the link that the skein numbers n, which satisfies Q. -/
abbrev AtLink (K : Skein) (n : Nat) (Q : SkLink → Prop) (F : LinkForm) (I : Issuer) : Prop :=
  AtOne (staged K) I K ∧ F.cause I K 1 (aStage (.gang 0 2)) = none ∧ K.stopping = false ∧ F.link 1 = some n ∧ I.sub.quiet = true ∧ ∃ l ∈ K.links, l.ch = F.ch ∧ Q l
/-- A GET of link 1. -/
abbrev Gets (K : Skein) (Q : SkLink → Prop) : Prop :=
  ∃ F I, linkForm (.get (.v 15) 1 0 1) = some F ∧ Issues (staged K) (.get (.v 15) 1 0 1) false (F.uses I) I ∧ AtLink K 0 Q F I
/-- A PUT into link 2. -/
abbrev Puts (K : Skein) (eos : Bool) (Q : SkLink → Prop) : Prop :=
  ∃ F I, linkForm (.put (.v 0) 2 0 eos) = some F ∧ Issues (staged K) (.put (.v 0) 2 0 eos) false (F.uses I) I ∧ AtLink K 1 Q F I
theorem get_of {K : Skein} {Q : SkLink → Prop} [DecidablePred Q] (h : links (staged K) (.get (.v 15) 1 0 1) false (AtLink K 0 Q) = true) : Gets K Q := link_of _ h
theorem put_of {K : Skein} {eos : Bool} {Q : SkLink → Prop} [DecidablePred Q]
    (h : links (staged K) (.put (.v 0) 2 0 eos) false (AtLink K 1 Q) = true) : Puts K eos Q := link_of _ h
theorem witness_SkeinRows :
    Gets (aSkein []) (fun l => l.rows = []) ∧ Gets rowSkein (fun l => l.rows = [some [9, 9, 9, 9]]) ∧ Gets eosSkein (fun l => l.rows = [none]) ∧
    Gets foldSkein (fun _ => foldSkein.folded = true) ∧
    Puts (aSkein []) false (fun l => l.credits = 1) ∧ Puts { aSkein [] with links := [aLink 1 [], { aLink 2 [] with credits := 0 }] } false (fun l => l.credits = 0) ∧
    Puts (aSkein []) true (fun _ => True) ∧ Puts foldSkein false (fun _ => True) ∧ Puts foldSkein true (fun _ => True) ∧
    Puts { aSkein [] with stages := [aStage .exited, aStage (.gang 0 2), aStage .exited] } false (fun _ => True) ∧
    Puts { aSkein [] with links := [aLink 1 [], { aLink 2 [] with credits := 2, waiting := [some [1, 2, 3, 4]] }] } false (fun l => l.waiting.length = 1 ∧ l.credits = 2) ∧
    Puts { aSkein [] with stages := [aStage .unplaced, aStage (.gang 0 2), aStage (.gang 1 7)] } true (fun _ => (staged { aSkein [] with stages := [aStage .unplaced, aStage (.gang 0 2), aStage (.gang 1 7)] }).stageOpen (aStage (.gang 1 7)) = false) ∧
    ((0 : Nat) + 2 ^ 32 - 0) % 2 ^ 32 < 4 ∧ ¬ (4 + 2 ^ 32 - 0) % 2 ^ 32 < 4 :=
  ⟨get_of (by decide), get_of (by decide), get_of (by decide), get_of (by decide),
    put_of (by decide), put_of (by decide), put_of (by decide), put_of (by decide), put_of (by decide), put_of (by decide), put_of (by decide), put_of (by decide),
    by decide, by decide⟩

/-- A descriptor of two stages of two windows, in the form given, at 0x10100 of the placed page. -/
def withDesc (form : Byte) (s : State) : State :=
  s.putBytes 0x10100 (form :: 0 :: 0 :: 0 :: 2 :: 1 :: List.replicate 58 0 ++ [0, 0, 1, 0, 0, 0, 0, 0, 2] ++ List.replicate 7 0 ++
    [0, 0, 1, 0, 0, 0, 0, 0, 2] ++ List.replicate 7 0 ++ List.replicate 96 0 ++ [1, 4, 1] ++ List.replicate 61 0)
/-- What the descriptor at 0x10100 asks for: whether it is bad, and else the code it gets. -/
def asked (s : State) (fold : Bool) (I : Issuer) : Option (Bool × Nat) :=
  match s.ownerOf I, s.part I.block.part, readSource s I 0x10100 256 with
  | some (t, ctx, B), some P, .ok s1 bs =>
    let d := SkDesc.ofBytes bs
    let bad := decide (8 ≤ d.form ∨ ((d.form = 0 ∨ d.form = 6) ∧ d.valid (B.rcd.spad * 4096) = false))
    some (bad, if bad then 0 else (s1.skeinAct I.block.part P B t ctx I.sub.gang 0x10100 0x10100 d fold).2)
  | _, _, _ => none
/-- Its checks pass, nothing is owed, and it asks for x. -/
abbrev Asked (s : State) (fold : Bool) (x : Bool × Nat) (I : Issuer) : Prop :=
  passes s I 0x10100 .read 1 = some (0x10100, placedPage 0) ∧ passes s I 0x10100 .write 1 = some (0x10100, placedPage 0) ∧
  I.sub.acquirePending = false ∧ I.sub.overlapsPending false 256 ⟨none, 0x10100, 0, 0, false, .pending⟩ = false ∧ Free I ∧
  asked s fold I = some x
/-- The placed sub-gang with the address of such a descriptor in s1. -/
def asking (form : Byte) : State := withDesc form (ready (us 1 0x10100))
/-- The placed gang in stage 1 of K, its skein's other stages at pl. -/
def inStages (pl : StageAt) (f : Skein → Skein) : Skein := f { aSkein [] with stages := [aStage pl, aStage (.gang 0 2), aStage pl] }
/-- Such a skein with EOS at the NI of stage 1's link. -/
def waitSkein : Skein := inStages .unplaced fun K => { K with links := [aLink 1 [], { aLink 2 [] with waiting := [none] }] }
/-- The gang's last slice may leave stage 1 of K, and P holds of K with the stage gone. -/
abbrev Leaves (s : State) (K : Skein) (P : Skein → Prop) (I : Issuer) : Prop :=
  AtOne s I K ∧ I.sub.logsEmpty = true ∧ wholeGang I = true ∧
    P (K.setStage 1 { aStage (.gang 0 2) with place := .exited, eos := true, atKnot := false, slices := [] })
theorem witness_SkeinSwitch :
    (∃ I, Issues (ready (us 1 0x30000)) (.skfold ⟨false, 3⟩ (.s 1)) false [.src (.s 1), .udst ⟨false, 3⟩ 1 false] I ∧
      (failsWith (ready (us 1 0x30000)) I 0x30000 .read 1).isSome = true) ∧
    (∃ I, Issues (asking 0) (.skspread ⟨false, 3⟩ (.s 1)) false [.src (.s 1), .udst ⟨false, 3⟩ 1 false] I ∧ Asked (asking 0) false (false, 0) I) ∧
    (∃ I, Issues (asking 9) (.skspread ⟨false, 3⟩ (.s 1)) false [.src (.s 1), .udst ⟨false, 3⟩ 1 false] I ∧ Asked (asking 9) false (true, 0) I) ∧
    (∃ I, Issues (asking 7) (.skfold ⟨false, 3⟩ (.s 1)) false [.src (.s 1), .udst ⟨false, 3⟩ 1 false] I ∧ Asked (asking 7) true (false, 7) I) ∧
    (∃ I, Issues (asking 7) (.skqry ⟨false, 3⟩ (.s 1)) false [.src (.s 1), .udst ⟨false, 3⟩ 1 false] I ∧
      passes (asking 7) I 0x10100 .read 4 = some (0x10100, placedPage 0) ∧ I.gang.retry.held = [] ∧
      (sourceOf (readSource (asking 7) I 0x10100 4)).isSome = true) ∧
    (∃ I, (staged (inStages .exited id)).issuer = some I ∧ Leaves (staged (inStages .exited id)) (inStages .exited id)
      (fun K => K.nextStage 1 = none ∧ (staged (inStages .exited id)).stateOpen (inStages .exited id) = true) I) ∧
    (∃ I, (staged (inStages .unplaced id)).issuer = some I ∧ Leaves (staged (inStages .unplaced id)) (inStages .unplaced id)
      (fun K => K.nextStage 1 = some 2 ∧ (K.links[1]?).isSome = true ∧ 1 + 1 < K.stages.length ∧ (aStage (.gang 0 2)).eos = false) I) ∧
    (∃ I, (staged waitSkein).issuer = some I ∧ Leaves (staged waitSkein) waitSkein
      (fun K => K.nextStage 1 = some 2 ∧ (K.links[1]?).map (·.waiting) = some [none] ∧ (aStage (.gang 0 2)).eos = false) I) ∧
    (∃ I, (withDesc 0 (ready (acquiring ∘ us 1 0x10100))).issuer = some I ∧ I.sub.acquirePending = true ∧ (0x10101 : Word).toNat % 256 ≠ 0) ∧
    (∃ I, (staged foldSkein).issuer = some I ∧ Leaves (staged foldSkein) foldSkein
      (fun K => K.nextStage 1 = some 2 ∧ foldSkein.folded = true ∧ foldSkein.stopping = false) I) :=
  ⟨issues_of (fun I => (failsWith (ready (us 1 0x30000)) I 0x30000 .read 1).isSome = true) (by decide),
    issues_of (Asked (asking 0) false (false, 0)) (by decide +kernel),
    issues_of (Asked (asking 9) false (true, 0)) (by decide +kernel),
    issues_of (Asked (asking 7) true (false, 7)) (by decide +kernel),
    issues_of (fun I => passes (asking 7) I 0x10100 .read 4 = some (0x10100, placedPage 0) ∧ I.gang.retry.held = [] ∧
      (sourceOf (readSource (asking 7) I 0x10100 4)).isSome = true) (by decide +kernel),
    issuer_of (by decide), issuer_of (by decide), issuer_of (by decide), issuer_of (by decide), issuer_of (by decide)⟩

/-- The placed gang runs stage 1 of K, whose skein is the first of the partition, and Q holds there. -/
abbrev Stands2 (K : Skein) (Q : State → Prop) (f : Slice → Slice := id) : Prop := (staged K f).skein 0 0 = some K ∧ Q (staged K f)
/-- With a row on its first link. -/
def sentSkein (pl : StageAt) : Skein :=
  { inStages pl id with links := [{ aLink 1 [] with flight := [some [1, 2, 3, 4]], notices := 1 }, { aLink 2 [] with flight := [none], notices := 1 }] }
/-- All of its stages at knots. -/
def heldSkein (sw : Switch) (fold : Option Nat) : Skein :=
  { inStages .unplaced fun K => { K with stages := K.stages.map fun st => { st with atKnot := true } } with sw := sw, foldGang := fold }
theorem witness_SkeinEvents :
    Stands2 (sentSkein .exited) (fun _ => (aStage .exited).gone = true) ∧
    Stands2 (sentSkein .unplaced) (fun s => s.stageOpen (aStage (.gang 0 2)) = true ∧ s.stageOpen (aStage .unplaced) = true) ∧
    Stands2 { inStages .unplaced id with sw := Switch.gathering false false } (fun s => s.skeinTimedOut { inStages .unplaced id with sw := Switch.gathering false false } = true)
      (fun S => { S with knotCount := 4096 }) ∧
    Stands2 { inStages .unplaced id with sw := Switch.gathering true false } (fun s => s.skeinTimedOut { inStages .unplaced id with sw := Switch.gathering true false } = true)
      (fun S => { S with knotCount := 4096 }) ∧
    (let s := onTile (staged (sentSkein .unplaced)) fun T => { T with mode := .drain .plain false }
     (s.tile 0).mode = .drain .plain false ∧ (kget (s.tile 0).gangs 2).isSome = true ∧ s.stageOpen (aStage (.gang 0 2)) = false) ∧
    Stands2 (inStages .unplaced id) (fun s => ((s.findBlock 1).map fun x => (x.1, x.2.1)) = some (0, 0) ∧ (s.tile 0).mode = .run ∧
      ((s.part 0).map fun P => (s.findBlock 1).map fun x => s.stageFits 0 P (inStages .unplaced id) (aStage .unplaced) x.2.2 0) = some (some true)) ∧
    Stands2 (heldSkein (Switch.gathering false true) none) (fun s => (∀ st ∈ (heldSkein (Switch.gathering false true) none).stages, st.atKnot = true ∨ st.gone = true) ∧
      s.stateOpen (heldSkein (Switch.gathering false true) none) = true) ∧
    Stands2 (heldSkein (Switch.copying true) none) (fun s => s.stateOpen (heldSkein (Switch.copying true) none) = true ∧
      ∀ l ∈ (heldSkein (Switch.copying true) none).links, l.made = true → l.flight = [] ∧ l.waiting = []) ∧
    Stands2 (heldSkein (Switch.copying false) (some 2)) (fun s => s.stateOpen (heldSkein (Switch.copying false) (some 2)) = true) ∧
    Stands2 (heldSkein Switch.unreelCopy (some 2)) (fun s => s.stateOpen (heldSkein Switch.unreelCopy (some 2)) = true ∧ (s.findBlock 1).isSome = true) ∧
    Stands2 (heldSkein Switch.exportCopy (some 2)) (fun s => s.stateOpen (heldSkein Switch.exportCopy (some 2)) = true ∧ (s.findBlock 1).isSome = true) := by decide

/-- A configuration block of one partition of field 0, and a Ronzel image, that verify and are as new as the ROM asks. -/
def anEntry : PartEntry := { fields := 1, vflo := 1, vfhi := 4, wflags := 0, reserved := 0, spbase := 0x4000000, spsize := 0x4000000, ssbase := 0x8000000, sssize := 0x4000000, tailZero := true }
def noEntry : PartEntry := { fields := 0, vflo := 0, vfhi := 0, wflags := 0, reserved := 0, spbase := 0, spsize := 0, ssbase := 0, sssize := 0, tailZero := true }
def aConfig : ConfigBlock := { magic := 0x594D4342, svn := Config.minConfigSvn, node := 5, npart := 1, reservedZero := true, part := anEntry :: List.replicate 15 noEntry, edOk := true, mldOk := true }
def anImage : FlashImage := { svn := Config.minImageSvn, digest := 0, edOk := true, mldOk := true }
theorem config_ok : configOk aConfig = true := by
  have h : decide (Config.minConfigSvn.toNat ≤ aConfig.svn.toNat) = true := decide_eq_true (Nat.le_refl _)
  unfold configOk
  simp only [h]
  decide +kernel
theorem image_ok : imageOk anImage = true := by simp [imageOk, anImage]
/-- A package with every rail good whose flash holds them. -/
def powered : State := { State.reset.rails true with flashImage := some anImage, flashConfig := some aConfig }
theorem reset_waits (c : ConfigBlock) : ¬ State.reset.boots c := fun h => by cases h.1
theorem witness_PowerEvents : powered.boots aConfig ∧ (∀ c, ¬ State.reset.boots c) ∧
    (aConfig.part.take aConfig.npart.toNat)[0]? = some anEntry ∧ powered.vaux = true ∧
    (({ powered with recovery := true }).recovery = true ∧ imageOk anImage = true) ∧ ((ready id).released = true) ∧
    ({ ready id with vaux := true }).vaux = true ∧
    (115 * 256 ≤ (0x7300 : BitVec 16).toNat ∧ powered.vcore = true) ∧ ([0x5F00, 0x6900, 0x5EFF, 0] : List (BitVec 16))[1]? = some 0x6900 ∧
    95 * 256 ≤ (0x5F00 : BitVec 16).toNat ∧ ¬ 95 * 256 ≤ (0x5EFF : BitVec 16).toNat ∧ 105 * 256 ≤ (0x6900 : BitVec 16).toNat ∧
    (0x400 : Word).getLsbD 10 = true :=
  ⟨⟨rfl, ⟨anImage, rfl, image_ok⟩, config_ok, rfl, rfl, rfl, rfl, rfl, rfl⟩, reset_waits, rfl, rfl, ⟨rfl, image_ok⟩, rfl, rfl,
    ⟨by decide, rfl⟩, rfl, by decide, by decide, by decide, by decide⟩

/-- A flit of zeros with a good check. -/
def aFlit (fseq : BitVec 12) (kind : Nat) : List Byte := mkFlit (List.replicate 120 0) 0 fseq kind
theorem check_reads (x : W32) : BitVec.ofNat 32 (leNat (natLe 4 x.toNat)) = x := by
  rw [leNat_natLe]; exact BitVec.eq_of_toNat_eq (by simpa using x.isLt)
theorem flit_good (fseq : BitVec 12) (kind : Nat) : (readFlit (aFlit fseq kind)).2.2.2.2 = true := by
  have hl : ∀ x, (List.take 120 (List.replicate 120 (0 : Byte)) ++ List.replicate (120 - (List.replicate 120 (0 : Byte)).length) 0 ++ natLe 4 x).length = 124 := by
    intro x; simp [natLe_length]
  unfold readFlit aFlit mkFlit
  simp only [List.take_left' (hl _), List.drop_left' (hl _), List.length_append, natLe_length, hl]
  rw [List.take_of_length_le (l := natLe 4 _) (Nat.le_of_eq (natLe_length 4 _)), check_reads]
  simp [-List.reduceReplicate]
/-- The placed block with its boundaries up and three ports: one up, one in training, one quiesced. -/
def linked : State :=
  let up := { Port.reset with stat := 2, quiesce := false, replayRun := 8 }
  { far with ports := [(0, up), (1, { up with stat := 1 }), (2, { up with stat := 3, quiesce := true }), (3, { up with quiesce := true })]
             boundaries := [(0, up), (1, up), (2, { up with stat := 1 }), (3, up), (4, up), (5, up), (6, { up with stat := 1 }), (7, { up with replayRun := 0 })] }
/-- A message of a write between dies, and of each other kind. -/
def aMsg (b : Body) : Msg := { src := 1, dst := 0, num := 0, vec := zeroVec, own := 0, body := b, tile := 0, seq := 0, lane := none, flow := none, world := false, shut := false }
/-- Die 0 with such a message in its inbox. -/
def boxed (b : Body) : Die := { Die.reset with inbox := [aMsg b] }
/-- An answer on its way, and a READDATA packet. -/
def anAnswer : Resp := { die := 1, tile := 0, seq := 9, lane := none, data := 0, pr := false, strand := false, obs := none, fill := none, rank := none, bad := none }
def aPacket (op : Byte) (vc : BitVec 2) (len : BitVec 9) : Packet :=
  { badPacket with op := op, vc := vc, len := len, addr := 0x20000, payload := List.replicate len.toNat 0 }
theorem witness_flit : ((readFlit (aFlit 0 3)).2.2.2.2 = true ∧ (readFlit (aFlit 0 3)).2.2.2.1 = 3 ∧ (readFlit (aFlit 0 3)).2.2.1 = (linked.link (.port 0)).rxNext) ∧
    (readFlit (aFlit 1 0)).2.2.1 ≠ (linked.link (.port 0)).rxNext := ⟨⟨flit_good 0 3, by decide +kernel, by decide +kernel⟩, by decide +kernel⟩
/-- A read of die d that has left by port 0. -/
def anOut (d : Nat) : Out := ⟨7, d, 0, aPacket opRead 0 1, some 0, .none⟩
theorem witness_LinkEvents :
    (linkExists (.boundary 3 true) = true ∧ (linked.link (.boundary 3 true)).alive = true ∧ linkExists (.port 23) = true ∧ (linked.link (.port 0)).alive = true) ∧
    ((linked.port 0).alive = true ∧ (linked.port 0).replayRun = 8 ∧ (linked.boundary 3).alive = true ∧ (linked.boundary 3).replayRun = 8 ∧ (linked.boundary 7).replayRun = 0) ∧
    ((linked.port 1).state = 1 ∧ (linked.boundary 2).state = 1 ∧ ((List.range 8).filter fun k => (0x0F : Byte).getLsbD k).length = 4 ∧
      ((List.range 8).filter fun k => (0x07 : Byte).getLsbD k).length < 4) ∧
    (linked.released = true ∧ (linked.port 3).quiesce = true ∧ (linked.port 3).state = 2 ∧ (linked.port 3).carried = []) ∧
    (kgetD (linked.die 0).grtab 639 0xFF = 0xFF ∧ (0xFF : Byte) ≠ 2 ∧ (linked.port 2).state = 3 ∧ (linked.port 0).state ≠ 3) ∧
    (linked.reaches (fun st => st == 2) 1 0 = true ∧ ({ linked with wire := [aMsg (.read 0 1 false)] }).arriving 1 0 ≠ []) ∧
    ((boxed (.write 0 [1])).takeable 0 0).isSome = true ∧ ((boxed (.signal 0 1 0)).takeable 0 0).isSome = true ∧
    ((boxed (.atomic 0 0 4 1 0)).takeable 0 0).isSome = true ∧ ((boxed (.read 0 1 false)).takeable 0 0).isSome = true ∧
    ({ linked with resps := [anAnswer] }).resps[0]? = some anAnswer ∧ linked.reaches (fun st => st == 2) anAnswer.die (dieOf anAnswer.tile) = true ∧
    (({ linked with arrivals := [(0, aPacket opReadData 1 4)] }).arrived (aPacket opReadData 1 4) = some 0 ∧ linked.outOf (aPacket opReadData 1 4) = none ∧
      ({ linked with outs := [anOut 1] }).outOf (aPacket opReadData 1 4) = some (anOut 1) ∧ linked.cutOffDies 0 1 = false ∧
      linked.reaches (fun st => st == 2) 0 1 = true ∧ (ready id).cutOffDies 0 1 = true) := by decide +kernel

/-- A packet that has arrived at port 0, with what else a state needs. -/
def arrived_ (pk : Packet) : State := { linked with arrivals := [(0, pk)] }
theorem witness_PacketEvents :
    (linked.errorCode (aPacket opWrite 0 4) = none ∧ shut.errorCode { aPacket opWrite 0 4 with addr := 0x20000 } = some 2 ∧
      linked.errorCode { aPacket opWrite 0 4 with addr := 0x4000000 } = some 3 ∧ linked.errorCode { aPacket opSignal 3 8 with addr := 0x20004 } = some 4 ∧
      linked.errorCode (aPacket opWrite 0 0) = some 5 ∧ linked.errorCode { aPacket opAtomic 0 4 with aop := 11 } = some 6) ∧
    ((arrived_ (aPacket opWrite 0 256)).canTake 0 (aPacket opWrite 0 256) = true ∧ (arrived_ (aPacket opRead 0 1)).canTake 0 (aPacket opRead 0 1) = true ∧
      (arrived_ (aPacket opAtomic 0 4)).canTake 0 (aPacket opAtomic 0 4) = true ∧ (arrived_ (aPacket 0xFF 0 4)).canTake 0 (aPacket 0xFF 0 4) = true ∧ vcOf 0xFF = none) ∧
    ((arrived_ (aPacket opSignal 3 8)).arrived (aPacket opSignal 3 8) = some 0 ∧ (arrived_ (aPacket opSignal 3 8)).errorCode (aPacket opSignal 3 8) = none ∧
      (arrived_ (aPacket opSignal 3 4)).errorCode (aPacket opSignal 3 4) = some 5) ∧
    (({ linked with signals := [⟨0, { aPacket opSignal 3 8 with cseq := 0xFFFF }⟩] }).signalReady 0 ⟨0, { aPacket opSignal 3 8 with cseq := 0xFFFF }⟩ = true) ∧
    ((arrived_ { aPacket opReduce 2 8 with aop := 1 }).arrived { aPacket opReduce 2 8 with aop := 1 } = some 0 ∧
      (arrived_ { aPacket opReduce 2 8 with aop := 1 }).errorCode { aPacket opReduce 2 8 with aop := 1 } = none ∧
      (arrived_ { aPacket opReduce 2 8 with aop := 4 }).errorCode { aPacket opReduce 2 8 with aop := 4 } = some 6) ∧
    ((aPacket opReduce 2 8) ∈ ({ linked with outbox := [aPacket opReduce 2 8] }).outbox ∧ (aPacket opReduce 2 8).snode.toNat = linked.node ∧ linked.arrivals = []) ∧
    ((arrived_ (aPacket opAck 1 0)).arrived (aPacket opAck 1 0) = some 0 ∧ (arrived_ (aPacket opAtomRes 1 4)).arrived (aPacket opAtomRes 1 4) = some 0 ∧
      (arrived_ (aPacket opError 1 0)).arrived (aPacket opError 1 0) = some 0) := by decide +kernel

/-- A REDUCE of two contributions that adds binary32 numbers, of node n. -/
def aReduce (n : BitVec 10) : Packet := { aPacket opReduce 2 8 with aop := 0, dtype := 2, snode := n, ncontrib := 2 }
/-- A local contribution of it. -/
def aLocal (name : Nat) (pk : Packet) : LocalContrib := { tile := 0, id := 1, name := name, pk := pk, need := 1 }
theorem witness_ReduceEvents :
    (formCode (aReduce 1) = none ∧ formCode { aReduce 1 with dtype := 4 } ≠ none) ∧
    (({ linked with reduces := [⟨0, 0, 0x20000, 0, [aReduce 1], false⟩] }).reduces.find? fun o : ReduceOp => o.has (aReduce 2)) = some ⟨0, 0, 0x20000, 0, [aReduce 1], false⟩ ∧
    ((aReduce 2).ncontrib.toNat ≤ ((([aReduce 1] ++ [aReduce 2]).map fun x => x.snode).eraseDups).length ∧
      ¬ (aReduce 2).ncontrib.toNat ≤ ((([aReduce 2] ++ [aReduce 2]).map fun x => x.snode).eraseDups).length) ∧
    (linked.moreToCome ⟨0, 0, 0x20000, 0, [], true⟩ = false ∧ ({ linked with outbox := [aReduce 0] }).moreToCome ⟨0, 0, 0x20000, 0, [], true⟩ = true) ∧
    (({ linked with reduces := [⟨0, 0, 0x20000, 0, [aReduce 1], true⟩] }).reduces.find? fun o : ReduceOp => o.has (aReduce 2)) = some ⟨0, 0, 0x20000, 0, [aReduce 1], true⟩ ∧
    (({ linked with locals := [aLocal 1 { aReduce 0 with dnode := 7 }] }).localSorted 0 = [aLocal 1 { aReduce 0 with dnode := 7 }] ∧ linked.outRoom 0 65 1 = true) ∧
    (({ linked with locals := [aLocal 1 { aReduce 0 with ncontrib := 1 }] }).localSorted 0 = [aLocal 1 { aReduce 0 with ncontrib := 1 }] ∧
      linked.rangeOpen 0 0x20000 8 (linked.die 0).vec true = true ∧ linked.errorCode { aReduce 0 with op := opWrite, vc := 0, ncontrib := 1 } = none ∧
      (aReduce 0).dnode.toNat = linked.node ∧ formCode { aReduce 0 with ncontrib := 1, aop := 8 } ≠ none) ∧
    (∃ x ∈ [{ aLocal 1 (aReduce 0) with need := 2 }, { aLocal 2 { aReduce 0 with len := 4 } with need := 2 }], x.pk.len ≠ (aReduce 0).len) ∧
    ({ linked with locals := [{ aLocal 1 (aReduce 0) with need := 2 }, { aLocal 2 { aReduce 0 with len := 4 } with need := 2 }] }).localSorted 0 = [{ aLocal 1 (aReduce 0) with need := 2 }, { aLocal 2 { aReduce 0 with len := 4 } with need := 2 }] ∧
    linked.outRoom 0 65 2 = true := by decide +kernel

/-- The placed block's function in a state of its interface, with a window of two slots and one that has none free. -/
def faced (td : TdState) : State :=
  { ready id with vfs := [(1, { Vf.reset with td := td, memEnable := true, windows := [(0, { (Vf.reset.window 0) with depth := 2, free := 2, cap := 7 }), (1, { (Vf.reset.window 0) with depth := 2, free := 0 })] })] }
/-- The function stopped, its tiles scrubbed. -/
def stopped : State := { ready id with vfs := [(1, { Vf.reset with stopScrub := true })] }
theorem witness_InterfaceEvents :
    ((faced .unlocked).hasVf 1 = true ∧ ((faced .unlocked).vf 1).td = .unlocked ∧ ((faced .locked).vf 1).td = .locked ∧ ((faced .run).vf 1).td = .run ∧
      ((faced .error).vf 1).td = .error) ∧
    ((stopped.vf 1).stopScrub = true ∧ ∀ t ∈ stopped.tilesOf 1, (stopped.tile t).scrub = false) ∧
    lockedValue .memEnable 0 ≠ ((faced .locked).vf 1).lockedReg .memEnable ∧
    lockedValue .memEnable 1 = ((faced .locked).vf 1).lockedReg .memEnable ∧
    (0 ∈ (faced .run).tilesOf 1) ∧ ((faced .run).hasVf 5 = true ∧ (faced .run).partOfVf 5 = none) ∧
    (let s := (faced .locked).setVf 1 { (faced .locked).vf 1 with report := some ((faced .locked).tdReport 1) }
     (s.vf 1).td = .locked ∧ (s.vf 1).report.isSome = true) ∧
    ((faced .unlocked).partOfVf 1 = some 0 ∧ ((faced .unlocked).part 0).isSome = true ∧ ((faced .unlocked).vf 1).memEnable = true ∧
      (((faced .unlocked).vf 1).window 0).free ≠ 0 ∧ (((faced .unlocked).vf 1).window 1).free = 0 ∧
      (((faced .unlocked).part 0).map fun P => (windowCheck P 0 recordBytes, windowCheck P 4 recordBytes)) = some (none, some 1)) ∧
    ((0x747 : Word).setWidth 7 ≠ (((faced .locked).vf 1).window 0).depth ∧ (0x702 : Word).setWidth 7 = (((faced .locked).vf 1).window 0).depth ∧
      ((0x702 : Word) >>> 8).setWidth 3 = (((faced .locked).vf 1).window 0).cap ∧ (((faced .unlocked).vf 1).window 0).free = (((faced .unlocked).vf 1).window 0).depth ∧
      ((64 : Word).setWidth 7 : BitVec 7).toNat ≤ 64) := by decide +kernel

theorem witness_RegisterEvents :
    (∃ I, (ready id).issuerOf 0 3 = some I ∧ sysFault (ready id) I .tret .tscr1 0 true = none) ∧
    ((ready id).part 0).isSome = true ∧ (faced .run).hasVf 1 = true ∧ (kget ((ready id).tile 0).subs 3).isSome = true ∧
    ((sheaves.part 0).map fun P => [0, 1, 2].map fun n => (kget P.sheaves n).map fun h => (h.complete, h.restoring)) =
      some [some (true, false), some (false, false), some (true, true)] ∧
    ((staged (aSkein [])).skeinNamed 0 0x10100 = some 0 ∧ (staged (aSkein [])).skein 0 0 = some (aSkein [])) ∧
    ((staged (aSkein [])).reelCode (aSkein []) = 0 ∧ (staged (aSkein [])).unreelCode (aSkein []) = 1 ∧ (aSkein []).save = 0) ∧
    ((staged foldSkein).reelCode foldSkein = 1 ∧ (staged foldSkein).unreelCode foldSkein = 0 ∧ ({ foldSkein with save := 64 } : Skein).save ≠ 0 ∧ foldSkein.folded = true) ∧
    (∃ I, Issues (ready id) (.swr 4 .skreq 0) false [.sreg 4 1] I ∧ sysFault (ready id) I (.swr 4 .skreq 0) .skreq 0 true = none) :=
  ⟨⟨_, rfl, by decide⟩, by decide, by decide, by decide, by decide, by decide, by decide, by decide, issues_of _ (by decide)⟩

/-- The placed block with page tables that map each address of the first 16 GiB to itself. -/
def mapped : State :=
  { onPart (ready id) (fun P => { P with psroot := 0x40001 }) with vfs := [(1, { Vf.reset with hsroot := 0x30001 })] }
    |>.putBytes 0x30000 (natLe 8 0x38001) |>.putBytes 0x38000 (natLe 8 0x1F) |>.putBytes 0x40000 (natLe 8 0x48001) |>.putBytes 0x48000 (natLe 8 0x1F)
/-- The placed partition with an invalidation on its way, of one access. -/
def invalidating (accs : List (Nat × Nat)) : State :=
  { onPart (ready id) fun P => { P with inval := some ⟨0, 3, accs, []⟩ } with wire := [{ aMsg (.write 0x20000 [1]) with seq := 9 }] }
/-- A granule being moved, with a write to it that its home had accepted. -/
def moving : State := { shut with dies := kset shut.dies 0 { shut.die 0 with inbox := [aMsg (.write 0x20000 [1])] } }
theorem witness_TranslationEvents :
    ((0x10000 : Word).getLsbD 0 = false ∧ (rangeOf 0x10000).1 % (rangeOf 0x10000).2 = 0 ∧ (rangeOf 0x14000).1 % (rangeOf 0x14000).2 ≠ 0 ∧
      (0x14001 : Word).getLsbD 0 = true) ∧
    ((okOf (walk mapped 1 0x10000)).map (fun e => (e.out, e.size, e.w)) = some (0, 2 ^ 34, true) ∧ okOf (walk (ready id) 1 0x10000) = none) ∧
    ((invalidating [(0, 9)]).invalWaits ⟨0, 3, [(0, 9)], []⟩ = true ∧ (invalidating []).invalWaits ⟨0, 3, [], []⟩ = false ∧
      (kget ((invalidating []).tile 0).subs 3).isSome = true) ∧
    ((ready id).released = true ∧ 2 ^ 14 - 1 < 2 ^ 14 ∧ (∀ m ∈ shut.closed, m.granule ≠ 2 ^ 14 - 1) ∧ (⟨0, true⟩ : Move) ∈ shut.closed ∧
      (shut.closed.find? fun m => m.granule == 0) = some ⟨0, true⟩) ∧
    (shut.granuleBusy 0 = false ∧ moving.granuleBusy 0 = true) := by decide +kernel
theorem witness_TranslationWrite :
    (∃ I, Issues (ready loading) (.swr 4 .tlbinv 0) false [.sreg 4 1] I ∧ sysFault (ready loading) I (.swr 4 .tlbinv 0) .tlbinv 0 true = none ∧
      I.sub.quiet = false) ∧
    (∃ I, Issues (ready (us 4 0x14000)) (.swr 4 .tlbinv 0) false [.sreg 4 1] I ∧
      sysFault (ready (us 4 0x14000)) I (.swr 4 .tlbinv 0) .tlbinv 0 true = none ∧ I.sub.quiet = true ∧ Free I ∧
      (I.sub.sreg 4).getLsbD 0 = false ∧ (rangeOf (I.sub.sreg 4)).1 % (rangeOf (I.sub.sreg 4)).2 ≠ 0) ∧
    (∃ I, Issues (ready (us 4 1)) (.swr 4 .tlbinv 0) false [.sreg 4 1] I ∧ sysFault (ready (us 4 1)) I (.swr 4 .tlbinv 0) .tlbinv 0 true = none ∧
      I.sub.quiet = true ∧ Free I ∧ ((ready (us 4 1)).part I.block.part).map (·.inval) = some none ∧ (I.sub.sreg 4).getLsbD 0 = true) :=
  ⟨issues_of (fun I => sysFault (ready loading) I (.swr 4 .tlbinv 0) .tlbinv 0 true = none ∧ I.sub.quiet = false) (by decide),
    issues_of (fun I => sysFault (ready (us 4 0x14000)) I (.swr 4 .tlbinv 0) .tlbinv 0 true = none ∧ I.sub.quiet = true ∧ Free I ∧
      (I.sub.sreg 4).getLsbD 0 = false ∧ (rangeOf (I.sub.sreg 4)).1 % (rangeOf (I.sub.sreg 4)).2 ≠ 0) (by decide),
    issues_of (fun I => sysFault (ready (us 4 1)) I (.swr 4 .tlbinv 0) .tlbinv 0 true = none ∧
      I.sub.quiet = true ∧ Free I ∧ ((ready (us 4 1)).part I.block.part).map (·.inval) = some none ∧ (I.sub.sreg 4).getLsbD 0 = true) (by decide)⟩

/-- A record of one block that has not begun, of a region at 0x50000. -/
def aRec (f : LRecord → LRecord := id) : Rec := { placedGrid.rcd with grid := 5, r := f { placedRecord with region := 0x50000 } }
/-- Its queue, with what it holds. -/
def anEff : Eff := ⟨0, 100, false, 0, [(0x50000, 0x50000)], false⟩
def aQueue (recs : List Rec) : Queue :=
  { vf := 1, region := 0x50000, st := .waiting, recs := recs, level := 0, since := 0, eff := some anEff, exhaustions := 0, used := 0, reserve := none }
/-- The placed block beside that queue, with a budget of the region. -/
def queued (recs : List Rec) : State := onPart (mapped.putBytes 0x50010 (natLe 8 1000)) fun P => { P with queues := [(0, aQueue recs)] }
/-- The same once the age of the queue and the time slice are over. -/
def later (s : State) : State := { s with dies := kmap s.dies fun _ D => { D with dusec := 5000 } }
/-- The placed grid with all its blocks ended, its record changed by f. -/
def ended (f : LRecord → LRecord) : State :=
  { queued [] with grids := [(1, { placedGrid with ended := 1, rcd := { placedGrid.rcd with r := f placedRecord } })] }
/-- The same with a grid of one block to follow, at 0x10200, and with one that no check passes. -/
def feeding (region : Nat) (compl : Nat := 0) : State :=
  (ended fun r => { r with edge := 0x10200 }).putBytes 0x10240 (natLe 8 0x10000 ++ natLe 8 0x10100 ++ natLe 8 0 ++ natLe 8 region ++ natLe 8 compl ++ natLe 8 0 ++ natLe 8 placedRecord.geom.toNat ++ natLe 8 0)
/-- What the consumer of the placed grid's edge answers. -/
def follows (s : State) : Option (Option Nat) := (kget s.grids 1).bind fun G => (s.part 0).bind fun P => (s.consumer 1 G P).map (·.2)
/-- What the lead distributor serves first, and whether the place it names is one: 0 a restore, 1 an exhaustion, 2 a discard, 3 a
hold, 4 a reservation, 5 a place. -/
def served (s : State) : Option (Nat × Nat) :=
  (s.nextServe 0).map fun (k, q, x) => (k, match x with
    | .restore => 0 | .exhaust => 1 | .discard => 2 | .hold => 3 | .reserve => 4
    | .place ts => match (s.readNew 0).part 0, q.recs.head? with
      | some P, some rc =>
        let s1 := (s.readNew 0).dispatchRead 0 k rc
        if ((P.places rc.r.cgsize).find? fun y => sameTiles y ts) = some ts ∧
          s1.placeFits P rc (s1.recWorld rc ((s.readNew 0).effNow q rc)) (bindingOn (s1.reserves 0 P) rc.grid) ts = true then 5 else 7
      | _, _ => 7
    | _ => 7)
/-- A record that acquires a write of die 1 not yet seen. -/
def unseen (rc : Rec) : Rec := { rc with vec := [0, 1, 0, 0, 0] }
/-- A record of 1,025 cooperative blocks, in groups of one. -/
def coopRec : Rec := aRec fun r => { r with geom := BitVec.ofNat 64 (0x10001 * 2 ^ 40 + 1 * 2 ^ 30 + 15 * 2 ^ 13), flags := 0x100 }
/-- The queue beside a sheaf with a block of its region. -/
def frozen (recs : List Rec) : State :=
  let s := queued recs
  onPart { s with grids := [(1, { placedGrid with queue := 0 })] } fun P =>
    { P with sheaves := [(1, { aSheaf with magicOk := false, image := { placedTile 0 with mode := .vacant } })] }
/-- The placed tile, to be scrubbed. -/
def scrubbing : State := onTile (ready id) fun T => { T with scrub := true }
theorem witness_PlacementEvents :
    served (queued []) = none ∧ served (queued [aRec]) = some (0, 5) ∧ served (queued [aRec fun r => { r with edge := 0x10200 }]) = some (0, 3) ∧
    served (queued [aRec fun r => { r with region := 1 }]) = some (0, 2) ∧ served (queued [coopRec]) = some (0, 4) ∧
    (((queued [aRec]).part 0).map fun P => (queued [aRec]).frozenOf P 0) = some 0 ∧
    (((frozen [aRec]).part 0).map fun P => decide (0 < (frozen [aRec]).frozenOf P 0)) = some true ∧ served (frozen [aRec]) = some (0, 0) ∧
    ((queued [aRec]).vf aRec.vf).td ≠ .locked ∧
    (({ queued [aRec] with vfs := [(1, { Vf.reset with td := .locked })] } : State).vf aRec.vf).td = .locked ∧
    (kget (queued [aRec]).grids aRec.grid = none ∧ (queued [aRec]).coveredBy aRec.vec = true ∧ (withFar (queued [])).coveredBy (unseen aRec).vec = false) ∧
    ((queued [aRec]).dispatchCode aRec = none ∧ (queued [aRec]).dispatchCode (aRec fun r => { r with region := 1 }) = some 6 ∧
      (queued [aRec]).complOpen placedPart.leadDie 1 placedRecord = true) := by decide +kernel
theorem witness_QueueEvents :
    (((placedPart.places 1).find? fun x => sameTiles x [0]) = some [0] ∧ (queued [aRec]).placeFits placedPart aRec false [] [0] = true) ∧
    ((scrubbing.tile 0).scrub = true ∧ (scrubbing.tile 0).mode = .run) ∧
    (((later (queued [aRec])).part 0).map fun P => (kget P.queues 0).map fun q =>
      decide (q.st = .waiting ∧ q.recs.length = 1 ∧ q.age = 100 ∧ q.base = 0 ∧ q.level = 0 ∧ q.since + q.age ≤ (later (queued [aRec])).leadUsec P)) = some (some true) ∧
    (((later (queued [])).part 0).map fun P => decide (P.nextSlice ≤ (later (queued [])).leadUsec P)) = some true ∧ (queued []).partOfTile 0 = some 0 ∧
    ((kget (ended id).grids 1).map (·.over) = some true ∧ follows (ended id) = none ∧ (ended id).complOpen 0 1 placedRecord = true ∧
      follows (feeding 0x50000) = some none ∧ follows (feeding 1) = some (some 2) ∧ follows (feeding 1 0x20000) = some (some 2) ∧
      (okOf (walk (feeding 1 0x20000) 1 0x20000)).isSome = true ∧ (feeding 1 0x20000).complOpen 0 1 { placedRecord with compl := 0x20000 } = true) := by decide +kernel

/-- The placed tile in a mode. -/
def inMode (m : TMode) : State := onTile sheaves fun T => { T with mode := m }
/-- Sheaves that each fail one check of a restore, and one that fails none: in slots 0 to 4 (slot 5 holds nothing). -/
def tried (h : Sheaf) : State := onPart (ready id) fun P => { P with sheaves := [(0, h)] }
/-- The sheaf of slot 0 may be restored to tile 1, and is the one to restore. -/
abbrev MayGo (h : Sheaf) : Prop :=
  (((tried h).part 0).map fun P => (tried h).restoreFits 0 P 0 h 1 && (tried h).restoreTurn 0 P 0 h) = some true
theorem rev_differs (x : W32) : x + 1 ≠ x := by
  intro h
  have h := congrArg BitVec.toNat h
  have := x.isLt
  simp [BitVec.toNat_add] at h
  omega
theorem witness_SheafEvents :
    ((ready id).released = true ∧ (ready id).partOfTile 0 = some 0 ∧ ((ready id).tile 0).mode = .run ∧ ((ready id).tile 0).blocks ≠ [] ∧
      ((ready id).tile 1).blocks = [] ∧ ((ready id).tile 1).conts = [] ∧ ((ready id).skeinsAt 0).find? (fun x => x.2.2.copying) = none) ∧
    (((staged { aSkein [] with sw := .copying false }).skeinsAt 0).find? fun x => x.2.2.copying) = some (0, 0, { aSkein [] with sw := .copying false }) ∧
    (((inMode (.load 2 none)).tile 0).mode = .load 2 none ∧ ((inMode (.drain .plain false)).tile 0).mode = .drain .plain false ∧ FreezeKind.debug true ≠ .plain ∧
      (inMode (.drain (.debug true) false)).draining 0 = false ∧ (inMode (.drain .plain false)).slotFree 0 = false ∧
      (onPart (inMode (.drain .plain false)) fun P => { P with sheaves := [] }).slotFree 0 = true ∧ ((inMode .save).tile 0).mode = .save) ∧
    (((inMode (.load 2 none)).part 0).map fun P => (P.boundSlots 2, ((inMode (.load 2 none)).restoreJobs P (P.boundSlots 2)).length)) = some ([2], 1) ∧
    (((inMode (.halt true)).tile 0).mode = .halt true ∧ ((inMode (.halt false)).tile 0).mode = .halt false ∧ (kget ((ready id).tile 0).subs 3).isSome = true ∧
      (kget ((ready id).tile 0).blocks 0).map (fun B => B.rcd.spad * 4096) = some 4096 ∧ 2 ^ 18 - 1 < 2 ^ 18) := by decide +kernel
theorem witness_SheafRestore :
    MayGo aSheaf ∧ MayGo { aSheaf with rev := trevOf 1 } ∧ MayGo { aSheaf with rev := trevOf 1 + 1 } ∧ (trevOf 1 + 1 : BitVec _) ≠ trevOf 1 ∧
    MayGo { aSheaf with complete := false } ∧ MayGo { aSheaf with crcOk := false } ∧ MayGo { aSheaf with part := 1 } :=
  ⟨by decide, by decide, by decide, rev_differs _, by decide, by decide, by decide⟩

/-- The placed tile changed by f. -/
def tile_ (f : Tile → Tile) : State := onTile (ready id) f
/-- A bin in a state. -/
def aBin (st : BinState) : Bin := { entry := 0x10000, uid := 1, grid := 1, detached := false, retry := none, st := st, pos := [] }
/-- A parked slice that waits for a monitor, or for a delay. -/
def parked (wait : ContAt) : Cont :=
  { entry := 0x10000, ctx := 0, uid := 1, grid := 1, detached := false, bad := [], park := true, run := 4, slice := 0, lane := 0, regs := [], fill := .zero, gangIx := 0,
    mask := 15, live := 15, stack := [], feeder := false, monitor := some ⟨0x10020, 0x10020, .d, 0, 0⟩, resume := none, place := wait }
/-- A slice with a faulted load. -/
def faulted (S : Slice) : Slice :=
  { S with log := [⟨0, 9, .ldUniform ⟨false, 5⟩ 4 .w .plain, 0, [], 15, [⟨none, 0x10000, 0, 0, false, .faulted 5 2 0x10000⟩]⟩] }
/-- The placed sub-gang waiting for a bin. -/
def stuck (w : W32) : State := onSub (readyAt w id) fun U => { U with binWait := some 1 }
/-- The placed sub-gang with a report due to it. -/
def reported : State := onBlock (State.reset.placedOn 0) fun B => { B with reports := [⟨14, 0, 256⟩] }
def fetched (s : State) (P : Next → Bool) : Bool := match s.issuerOf 0 3 with | some I => P (fetchNext s I).2 | none => false
/-- A parked slice whose monitor is met. -/
def watched : State := tile_ fun T => { T with conts := [(0, parked (.waiting .monitor true))] }
theorem witness_BinEvents :
    (((tile_ fun T => { T with bins := [(0, aBin (.filling 0))] }).tile 0).mode = .run ∧ 0 ≤ (tile_ id).usec 0 ∧
      ((tile_ fun T => { T with bins := [(0, aBin (.filling 9)), (1, aBin (.ready 2))] }).tile 0).firstReady = some 1) ∧
    ((watched.tile 0).onMonitor 4 true = true ∧ watched.monitorMet 0 4 = true) ∧
    ((tile_ fun T => { T with conts := [(0, parked (.waiting .monitor false))] }).tile 0).onMonitor 4 false = true ∧
    ((tile_ fun T => { T with conts := [(0, parked (.waiting (.delay 0) false))] }).tile 0).delayOver 4 = true := by decide
theorem witness_BinDeadlock :
    ((stuck 0xF2000001).binDeadlock 0 = true ∧ ((stuck 0xF2000001).tile 0).oldestWait = some 3 ∧
      fetched (stuck 0xF2000001) (fun n => match n with | .instr _ => true | _ => false) = true) ∧
    fetched (stuck 0xFF000000) (fun n => match n with | .bad _ _ => true | _ => false) = true ∧
    fetched (onSub (stuck 0) fun U => { U with pc := 0x30000 }) (fun n => match n with | .fault _ _ _ => true | _ => false) = true := by decide
theorem witness_EntryEvents :
    ((ready faulted).logTrapDue 0 3 = true) ∧ (reported.logTrapDue 0 3 = false ∧ reported.ready 0 3 = true ∧
      (match (reported.beginIssue 0 3).issuer with | some I => (match front (reported.beginIssue 0 3) I with | .trapped _ => true | _ => false) | none => false) = true ∧
      (reported.issuerOf 0 3).isSome = true) := by decide

/-- The placed gang with its retry in a state. -/
def retrying (st : RState) (attempts : Nat) : State := onGang (ready id) fun G => { G with retry := { G.retry with st := st, attempts := attempts } }
/-- What its gang holds. -/
def attempts (s : State) : Option (RState × Nat) := (kget (s.tile 0).gangs 2).map fun G => (G.retry.st, G.retry.attempts)
theorem witness_ErrorEvents :
    (((ready id).tile 0).mode = .run ∧ (6 : Byte).toNat ∈ [1, 2, 3, 4, 6] ∧ attempts (retrying .run 3) = some (.run, 3) ∧ attempts (retrying .retry 1) = some (.retry, 1) ∧
      attempts (retrying .retry 0) = some (.retry, 0) ∧ attempts (retrying .lasting 0) = some (.lasting, 0) ∧ attempts (ready id) = some (.never, 0) ∧
      ((ready id).tile 0).subsOf 2 ≠ []) ∧
    ((ready fun S => { S with log := [⟨0, 9, .nop, 0, [], 1, [⟨none, 0x20000, 0, 0, false, .faulted 15 6 0x20000⟩]⟩] }).issuer.map fun I => I.sub.lostAddr) = some (some 0x20000) ∧
    ((ready id).inStrandPool 0x4000000 = true ∧ (ready id).inStrandPool 0x20000 = false) ∧
    (isDram 0x20000 = true ∧ lineOf 0x20000 ∉ (ready id).poison) ∧ ((ready id).part 0).isSome = true ∧
    (((inMode .save).tile 0).mode = .save ∧ (kget ((inMode .save).tile 0).subs 3).isSome = true ∧
      (((inMode .save).tile 0).spoil (.lane 3 0 0 127)).isSome = true ∧ (((inMode .save).tile 0).spoil (.uniform 3 0 31)).isSome = true ∧
      (((inMode .save).tile 0).spoil (.lane 3 0 4 0)).isSome = false) ∧
    ((kget ((ready id).tile 0).blocks 0).map fun B => (B.corrected, decide (B.rcd.handler ≠ 0))) = some (0, true) ∧
    ((kget ((onBlock (ready id) fun B => { B with corrected := 255, tctl := 1 }).tile 0).blocks 0).map fun B => (B.corrected, B.tctl.getLsbD 0)) = some (255, true) ∧
    isDram (0 * 128) = true := by decide

/-- The first operand of instruction i that p holds of, in state s. -/
def culprit (s : State) (i : Instr) (p : Win → Bool → Nat → Use → Bool) : Option (Byte × Nat) :=
  match usesOf i, s.issuer with
  | some (us, b), some I => (us.find? (p (s.window I) b I.sub.depth)).map fun u => (u.code, us.length)
  | _, _ => none
def latchOut (_ : Win) (b : Bool) (depth : Nat) (u : Use) : Bool := match u.lat with | some k => !b || decide (depth ≤ k) | none => false
def beyondOut (W : Win) (_ : Bool) (_ : Nat) (u : Use) : Bool := u.cnt != 0 && decide (W.limit < u.reg + u.cnt)
theorem witness_OperandTraps :
    culprit (ready id) (.addLane ⟨false, 5⟩ (.v 7) (.res 0xC3)) (fun _ _ _ u => u.res) = some (0xC3, 3) ∧
    culprit (ready id) (.addLane ⟨false, 5⟩ (.v 7) (.b 0)) latchOut = some (0xA0, 3) ∧
    culprit (onBlock (ready id) fun B => { B with vregs := 8 }) (.addLane ⟨false, 8⟩ (.v 7) (.v 0)) beyondOut = some (8, 3) ∧
    culprit (ready id) (.prefpop ⟨false, 5⟩ (.v 7) false) (fun _ _ _ u => u.odd) = some (7, 2) ∧
    culprit (ready id) (.loop (.pos 1) 4) (fun _ _ _ u => u.cls) = some (0xA5, 1) ∧
    culprit (staged (aSkein [])) (.addLane ⟨false, 16⟩ (.v 7) (.v 0)) beyondOut = some (16, 3) ∧
    ((ready loading).issuer.map fun I => I.sub.hazard (touches [.src (.s 5)])) = some true ∧
    ((ready fun S => { S with bad := [31] }).issuer.map fun I => (I.sub.readsBad ((ready id).window I) false [.src (.s 31)], I.sub.hazard (touches [.src (.s 31)]))) =
      some (true, false) := by decide

end Sys2Proof.Tests
end

section
/-!
Links, boundaries, routes and packets between dies (02_links.md R17, R19, R21 to R29; 09_consistency.md R145, R146):
what each of their events does where its conditions hold.
-/
namespace Sys2Proof.Machine

/-! ### Flits and replay (R22 to R24) -/

/-- A flit that a link may accept (R23): its check holds, its KIND is known, and its FSEQ is the next expected. -/
def Port.Accepts (P : Port) (flit : List Byte) : Prop :=
  let f := readFlit flit
  f.2.2.2.2 = true ∧ f.2.2.2.1 < 4 ∧ f.2.2.1 = P.rxNext

/-- The link layer once it has accepted a flit: the acknowledgement is taken and the next sequence expected (R23, R24). -/
def Port.accept (P : Port) (flit : List Byte) : Port :=
  { P.acked (readFlit flit).2.1 with rxNext := P.rxNext + 1, wantReplay := none }

theorem Port.accepts_iff (P : Port) (flit : List Byte) :
    ((readFlit flit).2.2.2.2 && decide ((readFlit flit).2.2.2.1 < 4) && (readFlit flit).2.2.1 == P.rxNext) = true ↔ P.Accepts flit := by
  simp only [Port.Accepts, Bool.and_eq_true, decide_eq_true_eq, beq_iff_eq, and_assoc]

section Flits
variable {l : Link} {flit : List Byte} {s : State} (hl : linkExists l = true) (ha : (s.link l).alive = true)
include hl ha

theorem exec_flitReceive_discard (h : ¬ (s.link l).Accepts flit) : exec (.flitReceive l flit) s =
    .next (s.setLink l { s.link l with wantReplay := some (s.link l).rxNext }) := by
  rw [exec_flitReceive]
  unfold execFlitReceive
  dsimp only
  rw [if_pos (by rw [hl, ha]; rfl)]
  exact if_neg (mt (Port.accepts_iff _ _).mp h)

theorem exec_replayRequest_eq (fseq : BitVec 12) : exec (.replayRequest l fseq) s =
    let P := (s.link l).acked (fseq - 1)
    .next (State.pump ((s.setLink l { P with
      resend := P.kept
      replayRun := if P.replayRun ≠ 0 ∧ P.replayFrom = fseq then P.replayRun + 1 else 1, replayFrom := fseq }).countReplays l P.kept.length)) := by
  rw [exec_replayRequest]
  unfold execReplayRequest
  exact if_pos (by rw [hl, ha]; rfl)

end Flits

theorem exec_flitReceive_boundary {b : Nat} {far : Bool} {flit : List Byte} {s : State} (hl : linkExists (.boundary b far) = true)
    (ha : (s.link (.boundary b far)).alive = true) (h : (s.link (.boundary b far)).Accepts flit) :
    exec (.flitReceive (.boundary b far) flit) s = .next (s.setLink (.boundary b far) ((s.link (.boundary b far)).accept flit)) := by
  rw [exec_flitReceive]
  unfold execFlitReceive
  dsimp only
  rw [if_pos (by rw [hl, ha]; rfl)]
  exact if_pos ((Port.accepts_iff _ _).mpr h)

/-- A port joins the data of an accepted data flit to its stream, and the whole packets of the stream arrive (R22, R30). -/
theorem exec_flitReceive_port {p : Nat} {flit : List Byte} {s : State} (hl : linkExists (.port p) = true) (ha : (s.port p).alive = true)
    (h : (s.port p).Accepts flit) : exec (.flitReceive (.port p) flit) s =
      let r := if (readFlit flit).2.2.2.1 = 0 then parsePackets 64 ((s.port p).rx ++ (readFlit flit).1) else ([], (s.port p).rx)
      .next (State.pump { s.setPort p { (s.port p).accept flit with rx := r.2 } with arrivals := s.arrivals ++ r.1.map fun k => (p, k) }) := by
  rw [exec_flitReceive]
  unfold execFlitReceive
  dsimp only
  rw [if_pos (by rw [hl]; exact ha)]
  exact if_pos ((Port.accepts_iff _ _).mpr h)

theorem State.countReplays_port (s : State) (p n : Nat) : ((s.countReplays (.port p) n).port p).stat = satInc (s.port p).stat 32 32 n := by
  simp only [State.countReplays, State.port_setPort_same]

theorem State.countReplays_boundary (s : State) (b n : Nat) (far : Bool) :
    ((s.countReplays (.boundary b far) n).boundary b).stat = satInc (s.boundary b).stat 32 32 n := by
  simp only [State.countReplays, State.boundary_setBoundary_same]

/-! ### Training of ports (R21, R24, R29) -/

/-- STATE is the low two bits of GPSTAT and DLSTAT (R19, R21). -/
theorem Port.state_setField (P : Port) (x : Word) (v : Nat) : ({ P with stat := setField x 0 2 v } : Port).state = v % 4 :=
  bits_setField_same x 0 2 v (by omega) (by omega)

theorem exec_portRetrain_eq {p : Nat} {s : State} (hp : p < 24) (ha : (s.port p).alive = true) (hr : 8 ≤ (s.port p).replayRun) :
    exec (.portRetrain p) s = .next (s.setPort p (s.port p).retrain) := by
  rw [exec_portRetrain]
  exact if_pos ⟨hp, ha, hr⟩

theorem exec_portTrainingDone_eq {p : Nat} {lanes : BitVec 8} {s : State} (hp : p < 24) (hs : (s.port p).state = 1) :
    exec (.portTrainingDone p lanes) s =
      let P := s.port p
      let n := ((List.range 8).filter fun k => lanes.getLsbD k).length
      let stat := setField (setField P.stat 16 8 lanes.toNat) 2 1 (if 4 ≤ n ∧ n < 8 then 1 else 0)
      if 4 ≤ n then .next (s.setPort p { P with stat := setField stat 0 2 3, quiesce := true, resend := P.kept })
      else .next (State.portDown (s.setPort p
        { P with stat := setField stat 0 2 0, quiesce := true, kept := [], resend := [], tx := [], rx := [], carried := [], wantReplay := none }) p) := by
  rw [exec_portTrainingDone]
  exact if_pos ⟨hp, hs⟩

/-! ### Training of boundaries (R19) -/

theorem eq_of_mem_ends {b e : Nat} (he : e ∈ [b, b + 4]) : e = b ∨ e = b + 4 := by
  simpa only [List.mem_cons, List.not_mem_nil, or_false] using he

theorem State.boundary_setBoundary (s : State) (b e : Nat) (P : Port) :
    (s.setBoundary b P).boundary e = if e = b then P else s.boundary e := by
  by_cases h : e = b
  · rw [if_pos h, h, State.boundary_setBoundary_same]
  · rw [if_neg h, State.boundary_setBoundary_ne _ _ _ _ h]

theorem farEnd_ne (b : Nat) : b + 4 ≠ b := by omega

theorem nearEnd_ne (b : Nat) : b ≠ b + 4 := by omega

/-- STATE changes at both ends of the boundary, and nothing else of them. -/
theorem State.boundary_setBoundaryState (s : State) (b v : Nat) {e : Nat} (he : e ∈ [b, b + 4]) :
    (s.setBoundaryState b v).boundary e = { s.boundary e with stat := setField (s.boundary e).stat 0 2 v } := by
  unfold State.setBoundaryState
  rcases eq_of_mem_ends he with rfl | rfl <;> simp only [State.boundary_setBoundary, farEnd_ne, nearEnd_ne, if_true, if_false]

/-- A boundary that has left for training (R19, R24). -/
def State.boundaryRetrained (s : State) (b : Nat) : State :=
  ((s.setBoundary b (s.boundary b).retrain).setBoundary (b + 4) { s.boundary (b + 4) with replayRun := 0 }).setBoundaryState b 1

theorem exec_boundaryRetrain_eq {b : Nat} {s : State} (hb : b < 4) (ha : (s.boundary b).alive = true)
    (hr : 8 ≤ (s.boundary b).replayRun ∨ 8 ≤ (s.boundary (b + 4)).replayRun) :
    exec (.boundaryRetrain b) s = .next (s.boundaryRetrained b) := by
  rw [exec_boundaryRetrain]
  unfold execBoundaryRetrain
  rw [if_pos ⟨hb, ha, hr⟩]
  simp only [State.boundaryRetrained, State.boundary_setBoundary, farEnd_ne, if_false]

/-- Both ends are in training, their run of replays is over, and what they keep is still kept. -/
theorem State.boundary_boundaryRetrained (s : State) (b : Nat) {e : Nat} (he : e ∈ [b, b + 4]) :
    ((s.boundaryRetrained b).boundary e).state = 1 ∧ ((s.boundaryRetrained b).boundary e).replayRun = 0 ∧
      ((s.boundaryRetrained b).boundary e).kept = (s.boundary e).kept := by
  unfold State.boundaryRetrained
  rw [State.boundary_setBoundaryState _ _ _ he]
  refine ⟨Port.state_setField .., ?_⟩
  rcases eq_of_mem_ends he with rfl | rfl <;> simp only [State.boundary_setBoundary, farEnd_ne, nearEnd_ne, if_true, if_false, Port.retrain, and_self]

/-- A boundary whose training has succeeded (R19). -/
def State.boundaryUp (s : State) (b : Nat) : State :=
  let s := s.setBoundaryState b 2
  let s := s.setBoundary b { s.boundary b with resend := (s.boundary b).kept }
  s.setBoundary (b + 4) { s.boundary (b + 4) with resend := (s.boundary (b + 4)).kept }

/-- Both ends are up and send again what they keep. -/
theorem State.boundary_boundaryUp (s : State) (b : Nat) {e : Nat} (he : e ∈ [b, b + 4]) : (s.boundaryUp b).boundary e =
    { s.boundary e with stat := setField (s.boundary e).stat 0 2 2, resend := (s.boundary e).kept } := by
  have set := s.boundary_setBoundaryState b 2 he
  unfold State.boundaryUp
  rcases eq_of_mem_ends he with rfl | rfl <;> simp only [State.boundary_setBoundary, farEnd_ne, nearEnd_ne, if_true, if_false, set]

theorem exec_boundaryTrainingDone_up {b : Nat} {s : State} (hb : b < 4) (hs : (s.boundary b).state = 1) :
    exec (.boundaryTrainingDone b true) s = .next (s.boundaryUp b) := by
  rw [exec_boundaryTrainingDone]
  exact if_pos ⟨hb, hs⟩

theorem exec_boundaryTrainingDone_down {b : Nat} {s : State} (hb : b < 4) (hs : (s.boundary b).state = 1) :
    exec (.boundaryTrainingDone b false) s = .next (s.boundaryDown b) := by
  rw [exec_boundaryTrainingDone]
  exact if_pos ⟨hb, hs⟩

/-! ### Quiescing and routes (R28, R29) -/

theorem exec_gpqctlQuiesce_eq {p : Nat} {s : State} (hp : p < 24) (hr : s.released = true) :
    exec (.gpqctlQuiesce p) s = .next (s.setPort p { s.port p with quiesce := true }) := by
  rw [exec_gpqctlQuiesce]
  exact if_pos ⟨hp, hr⟩

theorem exec_gpqctlResume_eq {p : Nat} {s : State} (hp : p < 24) (hr : s.released = true) :
    exec (.gpqctlResume p) s = .next (State.pump (s.setPort p { s.port p with
      quiesce := false, stat := if (s.port p).state = 3 then setField (s.port p).stat 0 2 2 else (s.port p).stat })) := by
  rw [exec_gpqctlResume]
  exact if_pos ⟨hp, hr⟩

theorem exec_portQuiesceDone_eq {p : Nat} {s : State} (hp : p < 24) (hq : (s.port p).quiesce = true) (hs : (s.port p).state = 2)
    (hc : (s.port p).carried = []) :
    exec (.portQuiesceDone p) s = .next (s.setPort p { s.port p with stat := setField (s.port p).stat 0 2 3 }) := by
  rw [exec_portQuiesceDone]
  exact if_pos ⟨hp, hq, hs, hc⟩

/-- A route that carries nothing (R29): none, or a port that is quiesced. -/
def State.QuietRoute (s : State) (x : BitVec 8) : Prop := x = 0xFF ∨ (x.toNat < 24 ∧ (s.port x.toNat).state = 3)

theorem State.quietRoute_iff (s : State) (x : BitVec 8) :
    (x == 0xFF || (decide (x.toNat < 24) && (s.port x.toNat).state == 3)) = true ↔ s.QuietRoute x := by
  simp only [State.QuietRoute, Bool.or_eq_true, Bool.and_eq_true, beq_iff_eq, decide_eq_true_eq]

section Routes
variable {d : Nat} {node : BitVec 10} {v : BitVec 8} {s : State} (hd : d < 4) (hn : node.toNat < 640) (hr : s.released = true)
include hd hn hr

theorem exec_grtabWrite_same (h : kgetD (s.die d).grtab node.toNat 0xFF = v) : exec (.grtabWrite d node v) s = .next s := by
  rw [exec_grtabWrite]
  unfold execGrtabWrite
  rw [if_pos ⟨hd, hn, hr⟩]
  exact if_pos h

theorem exec_grtabWrite_quiet (h : kgetD (s.die d).grtab node.toNat 0xFF ≠ v) (hold : s.QuietRoute (kgetD (s.die d).grtab node.toNat 0xFF))
    (hnew : s.QuietRoute v) : exec (.grtabWrite d node v) s = .next (State.pump (s.setDie d { s.die d with
      grtab := if v = 0xFF then kdel (s.die d).grtab node.toNat else kset (s.die d).grtab node.toNat v })) := by
  rw [exec_grtabWrite]
  unfold execGrtabWrite
  rw [if_pos ⟨hd, hn, hr⟩]
  refine (if_neg h).trans (if_pos ?_)
  exact Bool.and_eq_true_iff.mpr ⟨(s.quietRoute_iff _).mpr hold, (s.quietRoute_iff _).mpr hnew⟩

theorem exec_grtabWrite_refused (h : kgetD (s.die d).grtab node.toNat 0xFF ≠ v)
    (hq : ¬ (s.QuietRoute (kgetD (s.die d).grtab node.toNat 0xFF) ∧ s.QuietRoute v)) :
    exec (.grtabWrite d node v) s = .next (s.setDie d { s.die d with grstat := satInc (s.die d).grstat 0 16 1 }) := by
  rw [exec_grtabWrite]
  unfold execGrtabWrite
  rw [if_pos ⟨hd, hn, hr⟩]
  refine (if_neg h).trans (if_neg fun e => hq ?_)
  obtain ⟨hold, hnew⟩ := Bool.and_eq_true_iff.mp e
  exact ⟨(s.quietRoute_iff _).mp hold, (s.quietRoute_iff _).mp hnew⟩

end Routes

/-! ### Packets between dies (R17, R19, R145, R146) -/

theorem exec_diePacketArrival_eq {src dst : Nat} {s : State} (hp : s.reaches (fun st => st == 2) src dst = true)
    (hm : s.arriving src dst ≠ []) : exec (.diePacketArrival src dst) s =
      .next ((s.arriving src dst).foldl State.acceptMsg { s with wire := s.wire.filter fun x => !(s.arriving src dst).contains x }) := by
  rw [exec_diePacketArrival]
  unfold execDiePacketArrival
  rw [if_pos hp]
  unfold State.arriving at hm ⊢
  cases hw : s.wire.filter fun m => m.src == src && m.dst == dst with
  | nil => rw [hw] at hm; exact absurd rfl hm
  | cons m l => rfl

theorem exec_vectorAnnounce_eq {src : Nat} {s : State} (hr : s.released = true) (hs : src < 5) : exec (.vectorAnnounce src) s = .next
    (((List.range 5).filter fun d => d != src && !s.cutOffDies src d).foldl (fun x d =>
      let v := (s.die src).vec
      let m : Msg := ⟨src, d, 0, v, ent v src, .announce (ent v src), 0, 0, none, none, true, false⟩
      if x.mayLeave m then x.leave m else x) s) := by
  rw [exec_vectorAnnounce]
  exact if_pos ⟨hr, hs⟩

section Homes
variable {home k : Nat} {s : State} {m : Msg} (hm : (s.die home).takeable home k = some m)
include hm

theorem exec_remoteWriteApply_write (hb : (∃ pa bs, m.body = .write pa bs) ∨ ∃ pa x c, m.body = .signal pa x c) :
    exec (.remoteWriteApply home k) s = .next (s.takeMsg home k m) := by
  rw [exec_remoteWriteApply]
  rcases hb with ⟨pa, bs, hb⟩ | ⟨pa, x, c, hb⟩ <;> simp only [execRemoteWriteApply, hm, hb]

theorem exec_remoteWriteApply_atomic (hb : ∃ pa op n y z, m.body = .atomic pa op n y z) :
    exec (.remoteWriteApply home k) s = .next (State.takeWord home m 32 (s.takeMsg home k m)) := by
  obtain ⟨pa, op, n, y, z, hb⟩ := hb
  rw [exec_remoteWriteApply]
  simp only [execRemoteWriteApply, hm, hb]

theorem exec_remoteReadPerform_eq (hb : ∃ pa n f, m.body = .read pa n f) :
    exec (.remoteReadPerform home k) s = .next (s.takeMsg home k m) := by
  obtain ⟨pa, n, f, hb⟩ := hb
  rw [exec_remoteReadPerform]
  simp only [execRemoteReadPerform, hm, hb]

theorem exec_strandOpApply_eq (hb : ∃ r, m.body = .strand r) :
    exec (.strandOpApply home k) s = .next (s.takeMsg home k m) := by
  obtain ⟨r, hb⟩ := hb
  rw [exec_strandOpApply]
  simp only [execStrandOpApply, hm, hb]

end Homes

/-! ### Answers (R17, R19, R146) -/

section Answers
variable {k : Nat} {s : State} {x : Resp} (hx : s.resps[k]? = some x)
  (hc : x.bad.isSome = true ∨ s.reaches (fun st => st == 2) x.die (dieOf x.tile) = true)
include hx hc

/-- An answer that no earlier one filling the same L1 line stands before is delivered. -/
theorem exec_readResponseArrival_inside (hs : x.strand = false)
    (hf : ∀ l bs, x.fill = some (l, bs) → ∀ y ∈ s.resps.take k, y.tile = x.tile → y.fill.map (·.1) ≠ some l) :
    exec (.readResponseArrival (.inside k)) s = .next (State.deliver { s with resps := s.resps.eraseIdx k } x) := by
  rw [exec_readResponseArrival]
  simp only [execReadResponseArrival, hx, hs]
  cases hl : x.fill with
  | none => exact if_pos (by simp only [Bool.not_false, Bool.true_and, Bool.or_eq_true, hc])
  | some f =>
    obtain ⟨l, bs⟩ := f
    have first : (s.resps.take k).any (fun y => y.tile == x.tile && y.fill.map (·.1) == some l) = false := by
      rw [List.any_eq_false]
      intro y hy hsame
      obtain ⟨htile, hline⟩ := Bool.and_eq_true_iff.mp hsame
      exact hf l bs hl y hy (eq_of_beq htile) (eq_of_beq hline)
    exact if_pos (by simp only [first, Bool.not_false, Bool.true_and, Bool.or_eq_true, hc])

theorem exec_strandResponse_eq (hs : x.strand = true) :
    let mine := fun r : Resp => r.strand && r.tile == x.tile && r.seq == x.seq
    exec (.strandResponse k) s =
      .next ((s.resps.filter mine).foldl (fun s r => s.deliver r) { s with resps := s.resps.filter fun r => !mine r }) := by
  rw [exec_strandResponse]
  unfold execStrandResponse
  rw [hx]
  exact if_pos (by simp only [hs, Bool.true_and, Bool.or_eq_true, hc])

end Answers

/-- What taking a response packet at the head of its flow comes to. -/
theorem State.takeResponse_answers {s : State} {pk : Packet} {p : Nat} (hp : s.arrived pk = some p) (error : Bool) :
    s.Answers pk p error fun t => s.takeResponse pk error = t := by
  refine ⟨fun ho => ?_, fun o ho => ⟨fun hcut => ?_, fun hcut hreach => ?_⟩⟩
  · simp only [State.takeResponse, hp, ho]
  · simp only [State.takeResponse, hp, ho, hcut, if_true]
  · simp only [State.takeResponse, hp, ho, hcut, hreach, if_true, Bool.false_eq_true, if_false]

/-- A statement about what a response comes to is as strong as its conclusion. -/
theorem State.Answers.imp {s : State} {pk : Packet} {p : Nat} {error : Bool} {out out' : State → Prop}
    (h : s.Answers pk p error out) (ho : ∀ t, out t → out' t) : s.Answers pk p error out' := by
  obtain ⟨hgone, hanswer⟩ := h
  refine ⟨fun hn => ho _ (hgone hn), fun o hs => ?_⟩
  obtain ⟨hlost, hdone⟩ := hanswer o hs
  exact ⟨fun hc => ho _ (hlost hc), fun hc hr => ho _ (hdone hc hr)⟩

theorem exec_readResponseArrival_packet {pk : Packet} {s : State} (hop : pk.op = opReadData) (hvc : pk.vc = 1) :
    exec (.readResponseArrival (.packet pk)) s = .next (s.takeResponse pk false) := by
  rw [exec_readResponseArrival]
  exact if_pos ⟨hop, hvc⟩

/-- Settles O51, from what each event of links, boundaries and routes, and each event of packets between dies, does. -/
theorem linkEvents : Obligations.LinkEvents := by
  unfold Obligations.LinkEvents
  refine ⟨⟨?flit, ?replay, ?retrain, ?boundaryRetrain, ?portTrained, ?boundaryTrained, ?quiesce, ?resume, ?quiesced, ?route⟩,
    ?arrival, ?announce, ?home, ?answer, ?packet⟩
  case flit =>
    intro l flit s hl ha
    refine ⟨exec_flitReceive_discard hl ha, ?_, ?_⟩
    · rintro b far rfl good
      exact exec_flitReceive_boundary hl ha good
    · rintro p rfl good
      exact exec_flitReceive_port hl ha good
  case replay =>
    intro l fseq s hl ha
    refine ⟨exec_replayRequest_eq hl ha fseq, fun s l n => ⟨?_, ?_⟩⟩
    · rintro p rfl
      exact s.countReplays_port p n
    · rintro b far rfl
      exact s.countReplays_boundary b n far
  case retrain =>
    intro p s hp ha hr
    refine ⟨_, exec_portRetrain_eq hp ha hr, ?_⟩
    rw [State.port_setPort_same]
    exact ⟨retrain_state _, rfl⟩
  case boundaryRetrain =>
    exact fun b s hb ha hr => ⟨_, exec_boundaryRetrain_eq hb ha hr, fun e he => s.boundary_boundaryRetrained b he⟩
  case portTrained =>
    intro p lanes s hp hs
    have trained := exec_portTrainingDone_eq (lanes := lanes) hp hs
    exact ⟨fun hn => trained.trans (if_pos hn), fun hn => trained.trans (if_neg (Nat.not_le.mpr hn))⟩
  case boundaryTrained =>
    intro b s hb hs
    refine ⟨⟨_, exec_boundaryTrainingDone_up hb hs, fun e he => ?_⟩, exec_boundaryTrainingDone_down hb hs⟩
    rw [s.boundary_boundaryUp b he]
    exact ⟨Port.state_setField (P := { s.boundary e with resend := (s.boundary e).kept }) .., rfl, rfl⟩
  case quiesce => exact fun p s hp hr => exec_gpqctlQuiesce_eq hp hr
  case resume => exact fun p s hp hr => exec_gpqctlResume_eq hp hr
  case quiesced => exact fun p s hp hq hs hc => exec_portQuiesceDone_eq hp hq hs hc
  case route =>
    intro d node v s hd hn hr
    exact ⟨exec_grtabWrite_same hd hn hr, fun h hold hnew => ⟨_, exec_grtabWrite_quiet hd hn hr h hold hnew, rfl⟩,
      exec_grtabWrite_refused hd hn hr⟩
  case arrival => exact fun src dst s hp hm => exec_diePacketArrival_eq hp hm
  case announce => exact fun src s hr hs => exec_vectorAnnounce_eq hr hs
  case home =>
    intro home k s m hm
    exact ⟨fun hb => exec_remoteWriteApply_write hm (.inl hb), fun hb => exec_remoteWriteApply_write hm (.inr hb),
      exec_remoteWriteApply_atomic hm, exec_remoteReadPerform_eq hm, exec_strandOpApply_eq hm⟩
  case answer =>
    exact fun k s x hx hc => ⟨exec_readResponseArrival_inside hx hc, exec_strandResponse_eq hx hc⟩
  case packet =>
    intro pk p s hp hop hvc
    refine (s.takeResponse_answers hp false).imp fun t ht => ?_
    rw [exec_readResponseArrival_packet hop hvc, ht]

end Sys2Proof.Machine
end

section
/-!
Device interfaces and their launch windows (03_host_partitions.md R44, R53 to R55; 04_launch_interface.md R57, R59 to R63):
what each request of TDISP, each write to the configuration space, and each write to a launch window does.
-/
namespace Sys2Proof.Machine

/-! ### Requests of TDISP (R53) -/

section Requests
variable {v : Nat} {s : State} (hv : s.hasVf v = true)
include hv

theorem tdispError_eq : tdispError v s = .next (s.toHost (.tdispError v)) := if_pos hv

theorem exec_lockInterfaceRequest_unlocked (h : (s.vf v).td = .unlocked) : exec (.lockInterfaceRequest v true) s =
    .next (s.setVf v { s.vf v with td := .locked, keyed := true, report := some (s.tdReport v) }) := by
  rw [exec_lockInterfaceRequest]
  exact if_pos ⟨hv, h, rfl⟩

theorem exec_lockInterfaceRequest_refused {keyed : Bool} (h : (s.vf v).td ≠ .unlocked ∨ keyed = false) :
    exec (.lockInterfaceRequest v keyed) s = .next (s.toHost (.tdispError v)) := by
  rw [exec_lockInterfaceRequest, ← tdispError_eq hv]
  refine if_neg ?_
  rintro ⟨-, hu, hk⟩
  rcases h with h | h
  · exact h hu
  · exact Bool.false_ne_true (h.symm.trans hk)

theorem exec_getDeviceInterfaceReport_locked {r : TdReport} (h : (s.vf v).td = .locked) (hr : (s.vf v).report = some r) :
    exec (.getDeviceInterfaceReport v) s = .next (s.toHost (.report v r)) := by
  rw [exec_getDeviceInterfaceReport]
  simp only [execGetDeviceInterfaceReport, hr]
  exact if_pos ⟨hv, h⟩

theorem exec_getDeviceInterfaceReport_refused (h : (s.vf v).td ≠ .locked ∨ (s.vf v).report = none) :
    exec (.getDeviceInterfaceReport v) s = .next (s.toHost (.tdispError v)) := by
  rw [exec_getDeviceInterfaceReport, ← tdispError_eq hv]
  cases hr : (s.vf v).report with
  | none => simp only [execGetDeviceInterfaceReport, hr]
  | some r =>
    simp only [execGetDeviceInterfaceReport, hr]
    rcases h with h | h
    · exact if_neg fun hl => h hl.2
    · cases hr.symm.trans h

theorem exec_startInterfaceRequest_locked (h : (s.vf v).td = .locked) :
    exec (.startInterfaceRequest v) s = .next (s.setVf v { s.vf v with td := .run }) := by
  rw [exec_startInterfaceRequest]
  exact if_pos ⟨hv, h⟩

theorem exec_startInterfaceRequest_refused (h : (s.vf v).td ≠ .locked) :
    exec (.startInterfaceRequest v) s = .next (s.toHost (.tdispError v)) := by
  rw [exec_startInterfaceRequest, ← tdispError_eq hv]
  exact if_neg fun hl => h hl.2

theorem exec_stopInterfaceRequest_eq : exec (.stopInterfaceRequest v) s = .next
    ((s.endFunction v).setVf v { (s.endFunction v).vf v with td := .unlocked, report := none, stopScrub := true }) := by
  rw [exec_stopInterfaceRequest]
  exact if_pos hv

/-! ### Registers of the configuration space, and integrity failures (R53) -/

theorem exec_lockedRegisterWrite_unlocked (h : (s.vf v).td = .unlocked) (r : LockedReg) (x : BitVec 128) :
    exec (.lockedRegisterWrite v r x) s = .next (s.setVf v ((s.vf v).setLocked r (lockedValue r x))) := by
  rw [exec_lockedRegisterWrite]
  simp only [execLockedRegisterWrite, hv, h, if_true]

theorem exec_lockedRegisterWrite_error (h : (s.vf v).td = .error) (r : LockedReg) (x : BitVec 128) :
    exec (.lockedRegisterWrite v r x) s = .next s := by
  rw [exec_lockedRegisterWrite]
  simp only [execLockedRegisterWrite, hv, h, if_true]

/-- Where the registers are frozen, a write is judged by whether it changes one. -/
theorem exec_lockedRegisterWrite_frozen (h : (s.vf v).td = .locked ∨ (s.vf v).td = .run) (r : LockedReg) (x : BitVec 128) :
    exec (.lockedRegisterWrite v r x) s = if lockedValue r x = (s.vf v).lockedReg r then .next s else .next (s.tdError v) := by
  rw [exec_lockedRegisterWrite]
  rcases h with h | h <;> simp only [execLockedRegisterWrite, hv, h, if_true]

theorem exec_ideIntegrityFailure_run (h : (s.vf v).td = .run) : exec (.ideIntegrityFailure v) s = .next (s.tdError v) := by
  rw [exec_ideIntegrityFailure]
  exact if_pos ⟨hv, h⟩

end Requests

/-! ### The end of a stop, and entry to ERROR (R54, R55) -/

theorem exec_stopScrubDone_eq {v : Nat} {s : State} (h : (s.vf v).stopScrub = true) (ht : ∀ t ∈ s.tilesOf v, (s.tile t).scrub = false) :
    exec (.stopScrubDone v) s =
      .next (s.setVf v { (s.vf v).mapWindows (fun W => { W with free := W.depth }) with stopScrub := false }) := by
  rw [exec_stopScrubDone]
  refine if_pos ⟨h, List.all_eq_true.mpr fun t hmem => ?_⟩
  rw [ht t hmem]
  rfl

theorem State.tdError_vf (s : State) (v : Nat) :
    (s.tdError v).vf v = { ((s.endFunction v).vf v).mapWindows (fun W => { W with free := 0 }) with td := .error } :=
  State.vf_setVf_same ..

theorem State.tdError_window_free (s : State) (v : Nat) {w : Nat} (hw : w < 16) : (((s.tdError v).vf v).window w).free = 0 := by
  rw [State.tdError_vf]
  exact congrArg Window.free (mapWindows_are ((s.endFunction v).vf v) (fun W => { W with free := 0 }) w hw)

/-! ### A function bound to no partition (R44) -/

section Unbound
variable {v : Nat} {s : State} (hv : s.hasVf v = true)
include hv

theorem tdUnsupported_eq : tdUnsupported v s = .next (s.toHost (.unsupported v)) := if_pos hv

theorem exec_launchRecordWrite_unbound (hp : s.partOfVf v = none) (w off : Nat) (data : List Byte) (ide : Bool) :
    exec (.launchRecordWrite v w off data ide) s = .next (s.toHost (.unsupported v)) := by
  rw [exec_launchRecordWrite, ← tdUnsupported_eq hv]
  simp only [execLaunchRecordWrite, hp]

theorem exec_lwcfgWrite_unbound (hp : s.partOfVf v = none) (w : Nat) (x : Word) :
    exec (.lwcfgWrite v w x) s = .next (s.toHost (.unsupported v)) := by
  rw [exec_lwcfgWrite, ← tdUnsupported_eq hv]
  exact if_pos (by rw [hp]; rfl)

end Unbound

/-! ### Launch records (R55, R57, R60) -/

/-- The first 16 windows of a function decode while its memory is enabled (R59). -/
theorem Vf.window_decodes {V : Vf} {w : Nat} (hm : V.memEnable = true) (hw : w < 16) : (!V.memEnable || decide (16 ≤ w)) = false := by
  simp only [hm, Nat.not_le.mpr hw, Bool.not_true, decide_false, Bool.or_false]

/-- The states of a function in which its windows take records (R55). -/
theorem Vf.accepts_iff (V : Vf) (ide : Bool) :
    V.accepts ide = true ↔ (V.td = .unlocked ∧ V.stopScrub = false) ∨ (V.td = .run ∧ ide = true) := by
  cases h : V.td <;> simp [Vf.accepts, h]

/-- A window drops a write where its function's state or a count of no free slots refuses it. -/
theorem Vf.drops_iff (V : Vf) (w : Nat) (ide : Bool) :
    (!V.accepts ide || (V.window w).free == 0) = true ↔ ¬ V.accepts ide = true ∨ (V.window w).free = 0 := by
  simp only [Bool.or_eq_true, Bool.not_eq_true', Bool.not_eq_true, beq_iff_eq]

theorem Vf.not_drops {V : Vf} {w : Nat} {ide : Bool} (ha : V.accepts ide = true) (hf : (V.window w).free ≠ 0) :
    ¬ (!V.accepts ide || (V.window w).free == 0) = true :=
  mt (V.drops_iff w ide).mp (not_or.mpr ⟨not_not_intro ha, hf⟩)

theorem windowCheck_misplaced (P : Part) {off : Nat} {data : List Byte} (h : off ≠ 0 ∨ data.length ≠ 64) :
    windowCheck P off data = some 1 := if_pos h

section Records
variable {v w off p : Nat} {data : List Byte} {ide : Bool} {s : State} {P : Part} (hp : s.partOfVf v = some p) (hP : s.part p = some P)
  (hm : (s.vf v).memEnable = true) (hw : w < 16) (ho : off < 64)
include hp hP hm hw ho

/-- A write to LWREC of a window that decodes reaches the window front end (R60). -/
theorem exec_launchRecordWrite_bound : exec (.launchRecordWrite v w off data ide) s =
    let V := s.vf v
    let W := V.window w
    if !V.accepts ide || W.free == 0 then .next (s.setVf v (V.setWindow w W.drop))
    else (windowCheck P off data).elim
      (.next (State.submit (s.setVf v (V.setWindow w W.accept)) p v (LRecord.ofBytes data) (fun _ => .window v w)
        (P.secok && v == P.vflo) none W.cap.toNat (s.die 4).vec).1)
      fun c => .next (s.setVf v (V.setWindow w (W.reject c))) := by
  rw [exec_launchRecordWrite]
  simp only [execLaunchRecordWrite, hp, Option.bind_some, hP, Vf.window_decodes hm hw, Nat.not_le.mpr ho, decide_false, Bool.or_false,
    Bool.false_eq_true, if_false]
  cases windowCheck P off data <;> rfl

theorem exec_launchRecordWrite_dropped (h : ¬ (s.vf v).accepts ide = true ∨ ((s.vf v).window w).free = 0) :
    exec (.launchRecordWrite v w off data ide) s = .next (s.setVf v ((s.vf v).setWindow w ((s.vf v).window w).drop)) := by
  rw [exec_launchRecordWrite_bound hp hP hm hw ho]
  exact if_pos (((s.vf v).drops_iff w ide).mpr h)

section Taken
variable (ha : (s.vf v).accepts ide = true) (hf : ((s.vf v).window w).free ≠ 0)
include ha hf

theorem exec_launchRecordWrite_rejected {c : Nat} (hc : windowCheck P off data = some c) :
    exec (.launchRecordWrite v w off data ide) s = .next (s.setVf v ((s.vf v).setWindow w (((s.vf v).window w).reject c))) := by
  rw [exec_launchRecordWrite_bound hp hP hm hw ho]
  exact (if_neg (Vf.not_drops ha hf)).trans (by rw [hc]; rfl)

theorem exec_launchRecordWrite_accepted (hc : windowCheck P off data = none) :
    exec (.launchRecordWrite v w off data ide) s = .next
      (State.submit (s.setVf v ((s.vf v).setWindow w ((s.vf v).window w).accept)) p v (LRecord.ofBytes data) (fun _ => .window v w)
        (P.secok && v == P.vflo) none ((s.vf v).window w).cap.toNat (s.die 4).vec).1 := by
  rw [exec_launchRecordWrite_bound hp hP hm hw ho]
  exact (if_neg (Vf.not_drops ha hf)).trans (by rw [hc]; rfl)

end Taken
end Records

/-! ### Window configuration (R63) -/

/-- DEPTH is the low 7 bits of LWCFG (R59). -/
theorem lwcfg_depth (x : Word) : x.extractLsb' 0 7 = x.setWidth 7 := (BitVec.setWidth_eq_extractLsb' (by omega)).symm

/-- PRIOCAP is the 3 bits of LWCFG from bit 8 (R59). -/
theorem lwcfg_cap (x : Word) : x.extractLsb' 8 3 = (x >>> 8).setWidth 3 := by
  ext i hi
  simp only [BitVec.getElem_extractLsb', BitVec.getElem_setWidth, BitVec.getLsbD_ushiftRight]

section Config
variable {v w : Nat} {s : State} (hp : (s.partOfVf v).isSome = true) (hm : (s.vf v).memEnable = true) (hw : w < 16) (x : Word)
include hp hm hw

/-- An unlocked function's window takes a valid DEPTH while none of its slots is in use. -/
theorem exec_lwcfgWrite_unlocked (h : (s.vf v).td = .unlocked) : exec (.lwcfgWrite v w x) s =
    let W := (s.vf v).window w
    let depth : BitVec 7 := x.setWidth 7
    if W.free = W.depth ∧ 1 ≤ depth.toNat ∧ depth.toNat ≤ 64 then
      .next (s.setVf v ((s.vf v).setWindow w { W with depth := depth, cap := (x >>> 8).setWidth 3, free := depth }))
    else .next s := by
  rw [exec_lwcfgWrite]
  simp only [execLwcfgWrite, Option.isNone_eq_false_iff.mpr hp, Vf.window_decodes hm hw, h, lwcfg_depth, lwcfg_cap, Bool.false_eq_true, if_false]

theorem exec_lwcfgWrite_error (h : (s.vf v).td = .error) : exec (.lwcfgWrite v w x) s = .next s := by
  rw [exec_lwcfgWrite]
  simp only [execLwcfgWrite, Option.isNone_eq_false_iff.mpr hp, Vf.window_decodes hm hw, h, Bool.false_eq_true, if_false]

/-- Where LWCFG is frozen, a write is judged by whether it changes it. -/
theorem exec_lwcfgWrite_frozen (h : (s.vf v).td = .locked ∨ (s.vf v).td = .run) : exec (.lwcfgWrite v w x) s =
    let W := (s.vf v).window w
    if x.setWidth 7 = W.depth ∧ (x >>> 8).setWidth 3 = W.cap then .next s else .next (s.tdError v) := by
  rw [exec_lwcfgWrite]
  rcases h with h | h <;>
    simp only [execLwcfgWrite, Option.isNone_eq_false_iff.mpr hp, Vf.window_decodes hm hw, h, lwcfg_depth, lwcfg_cap, Bool.false_eq_true, if_false]

end Config

/-- Settles O54, from what each request of TDISP, each write to the configuration space, and each write to a launch window
does. -/
theorem interfaceEvents : Obligations.InterfaceEvents := by
  unfold Obligations.InterfaceEvents
  refine ⟨?life, ?unbound, ?record, ?config⟩
  case life =>
    intro v s hv
    refine ⟨exec_lockInterfaceRequest_unlocked hv, fun k => exec_lockInterfaceRequest_refused hv,
      fun r => exec_getDeviceInterfaceReport_locked hv, exec_getDeviceInterfaceReport_refused hv,
      exec_startInterfaceRequest_locked hv, exec_startInterfaceRequest_refused hv, exec_stopInterfaceRequest_eq hv,
      ?scrubbed, ?register, exec_ideIntegrityFailure_run hv, ?error, fun w hw => s.tdError_window_free v hw,
      fun t ht => endFunction_scrub s v t ht, fun g G hg => endFunction_grids s v g G hg⟩
    case scrubbed =>
      intro h ht
      refine ⟨_, exec_stopScrubDone_eq h ht, ?_⟩
      rw [State.vf_setVf_same]
      exact ⟨rfl, mapWindows_are (s.vf v) fun W => { W with free := W.depth }⟩
    case register =>
      intro r x
      exact ⟨fun h => exec_lockedRegisterWrite_unlocked hv h r x,
        fun h same => (exec_lockedRegisterWrite_frozen hv h r x).trans (if_pos same),
        fun h changed => (exec_lockedRegisterWrite_frozen hv h r x).trans (if_neg changed),
        fun h => exec_lockedRegisterWrite_error hv h r x⟩
    case error => rw [State.tdError_vf]
  case unbound =>
    exact fun v w off data ide x s hv hp => ⟨exec_launchRecordWrite_unbound hv hp w off data ide, exec_lwcfgWrite_unbound hv hp w x⟩
  case record =>
    intro v w off data ide s p P hp hP hm hw ho
    dsimp only
    rw [← Vf.accepts_iff]
    exact ⟨exec_launchRecordWrite_dropped hp hP hm hw ho, fun ha hf c => exec_launchRecordWrite_rejected hp hP hm hw ho ha hf,
      exec_launchRecordWrite_accepted hp hP hm hw ho, windowCheck_misplaced P⟩
  case config =>
    intro v w x s hp hm hw
    exact ⟨fun h fits => (exec_lwcfgWrite_unlocked hp hm hw x h).trans (if_pos fits),
      fun h unfit => (exec_lwcfgWrite_unlocked hp hm hw x h).trans (if_neg unfit), exec_lwcfgWrite_error hp hm hw x,
      fun h changed => (exec_lwcfgWrite_frozen hp hm hw x h).trans (if_neg (Classical.not_and_iff_not_or_not.mpr changed)),
      fun h depth cap => (exec_lwcfgWrite_frozen hp hm hw x h).trans (if_pos ⟨depth, cap⟩)⟩

end Sys2Proof.Machine
end

section
/-!
Arrival barriers (17_memory_instructions.md R298, R299): the four words a barrier instruction reads and writes, and what each of
BARINIT, BARARV, BAREXP and BARWAIT executes once its address is found.
-/
namespace Sys2Proof.Machine

/-! ### The words of a barrier -/

/-- The four words a barrier is written as. -/
def Barrier.words (b : Barrier) : Nat × Nat × Nat × Nat := (b.expect, (BitVec.ofInt 32 b.bytes).toNat, b.init, b.phase)

/-- Writing a barrier whose counts are words changes that barrier alone. -/
theorem Barrier.write_step {s : State} {p : SpadAt} {B : Block} (hB : kget (s.tile p.t).blocks p.ctx = some B) {b : Barrier}
    (he : b.expect < 2 ^ 32) (hi : b.init < 2 ^ 32) (hp : b.phase < 2 ^ 32) : BarrierStep s p b.words (b.write s p) :=
  barrier_write hB b.words ⟨he, BitVec.isLt _, hi, hp⟩

/-- BYTES is zero as a signed number where its word is. -/
theorem bytesWord_eq_zero {x : Int} (hlo : -2 ^ 31 ≤ x) (hhi : x < 2 ^ 31) : (BitVec.ofInt 32 x).toNat = 0 ↔ x = 0 := by
  rw [BitVec.toNat_ofInt]
  omega

/-- check() of R298 leaves the words that `phaseStep` states. -/
theorem Barrier.check_words (b : Barrier) (hlo : -2 ^ 31 ≤ b.bytes) (hhi : b.bytes < 2 ^ 31) :
    b.check.words = phaseStep b.expect (BitVec.ofInt 32 b.bytes).toNat b.init b.phase := by
  unfold Barrier.check phaseStep
  simp only [bytesWord_eq_zero hlo hhi]
  split
  · next done => simp [Barrier.words, done.2]
  · rfl

theorem Barrier.check_write_step {s : State} {p : SpadAt} {B : Block} (hB : kget (s.tile p.t).blocks p.ctx = some B) {b : Barrier}
    (he : b.expect < 2 ^ 32) (hlo : -2 ^ 31 ≤ b.bytes) (hhi : b.bytes < 2 ^ 31) (hi : b.init < 2 ^ 32) (hp : b.phase < 2 ^ 32) :
    BarrierStep s p (phaseStep b.expect (BitVec.ofInt 32 b.bytes).toNat b.init b.phase) (b.check.write s p) := by
  rw [← b.check_words hlo hhi]
  unfold Barrier.check
  split
  · exact Barrier.write_step hB hi hi (Nat.mod_lt _ (by decide))
  · exact Barrier.write_step hB he hi hp

theorem Block.spadWord_lt (B : Block) (off : Nat) : leNat (B.spadBytes off 4) < 2 ^ 32 := by
  simpa [Block.spadBytes] using leNat_lt (B.spadBytes off 4)

/-- A word that takes a count of bytes which stays below 2^31. -/
theorem bytesWord_add (x n : Nat) : (BitVec.ofInt 32 ((BitVec.ofNat 32 x).toInt + n)).toNat = (x + n) % 2 ^ 32 := by
  rw [BitVec.ofInt_add, BitVec.ofInt_toInt, BitVec.ofInt_natCast, ← BitVec.ofNat_add, BitVec.toNat_ofNat]

section Words
variable {B : Block} {off e by' init ph : Nat} (hb : B.barrier off = (e, by', init, ph))
include hb

theorem Block.barrier_lt : e < 2 ^ 32 ∧ by' < 2 ^ 32 ∧ init < 2 ^ 32 ∧ ph < 2 ^ 32 := by
  cases hb
  exact ⟨B.spadWord_lt _, B.spadWord_lt _, B.spadWord_lt _, B.spadWord_lt _⟩

theorem Barrier.read_eq {s : State} {p : SpadAt} (hB : kget (s.tile p.t).blocks p.ctx = some B) (ho : p.off = off) :
    Barrier.read s p = ⟨e, (BitVec.ofNat 32 by').toInt, init, ph⟩ := by
  subst ho
  cases hb
  simp only [Barrier.read, State.spadRead, hB, Nat.add_zero]

end Words

/-! ### What the instructions execute -/

/-- A barrier instruction that issues, finds its place and has no acquire before it takes its step there. -/
theorem barrierOp_eq {s : State} {i : Instr} {a b : Opnd} {I : Issuer} {p : SpadAt} (h : Issues s i false [.src a, .src b] I)
    (hp : s.spadFind I ((uniVal (s.window I) 0 I.sub a).setWidth 32) 16 = .ok (some p)) (hq : I.sub.acquirePending = false)
    (f : State → Issuer → SpadAt → Nat → Out1) :
    barrierOp s i a b f = f s I p ((uniVal (s.window I) 0 I.sub b).toNat % 2 ^ 32) := by
  unfold barrierOp
  rw [h.plain]
  simp only [hp, hq, BitVec.toNat_setWidth, Bool.false_eq_true, if_false]

section Executed
variable {s : State} {a b : Opnd} {I : Issuer} {p : SpadAt} {B : Block} {n e by' init ph : Nat}
  (hp : s.spadFind I ((uniVal (s.window I) 0 I.sub a).setWidth 32) 16 = .ok (some p)) (hq : I.sub.acquirePending = false)
include hp hq

theorem exec_bararv_waits (h : Issues s (.bararv a b) false [.src a, .src b] I) (quiet : I.sub.quiet = false) :
    Waits s (.bararv a b) I := by
  rw [Waits, exec_bararv, execBararv, barrierOp_eq h hp hq, quiet]
  exact wait_eq h.issuer

variable (hn : (uniVal (s.window I) 0 I.sub b).toNat % 2 ^ 32 = n)
include hn

theorem exec_barinit_eq (h : Issues s (.barinit a b) false [.src a, .src b] I) : exec (.barinit a b) s =
    if 1 ≤ n ∧ n < 2 ^ 31 then retire ((Barrier.mk n 0 n 0).write s p) I .other I.sub else trapWord s I (.barinit a b) 9 7 := by
  rw [exec_barinit, execBarinit, barrierOp_eq h hp hq, hn]

variable (hB : kget (s.tile p.t).blocks p.ctx = some B) (hb : B.barrier p.off = (e, by', init, ph))
include hB hb

theorem exec_bararv_eq (h : Issues s (.bararv a b) false [.src a, .src b] I) (quiet : I.sub.quiet = true) (free : I.gang.free) :
    exec (.bararv a b) s = if 1 ≤ n ∧ n ≤ e
      then retire ((Barrier.mk (e - n) (BitVec.ofNat 32 by').toInt init ph).check.write s p) I .other I.sub
      else trapWord s I (.bararv a b) 9 8 := by
  rw [exec_bararv, execBararv, barrierOp_eq h hp hq, quiet, free.again, hn]
  simp only [Barrier.read_eq hb hB rfl, Bool.not_true, Bool.false_eq_true, if_false]

theorem exec_barexp_eq (h : Issues s (.barexp a b) false [.src a, .src b] I) (free : I.gang.free) :
    exec (.barexp a b) s = if 1 ≤ n ∧ n < 2 ^ 31 ∧ (BitVec.ofNat 32 by').toInt + n < 2 ^ 31
      then retire ((Barrier.mk e ((BitVec.ofNat 32 by').toInt + n) init ph).check.write s p) I .other I.sub
      else trapWord s I (.barexp a b) 9 8 := by
  rw [exec_barexp, execBarexp, barrierOp_eq h hp hq, free.again, hn]
  simp only [Barrier.read_eq hb hB rfl]

theorem exec_barwait_eq (h : Issues s (.barwait a b) false [.src a, .src b] I) : exec (.barwait a b) s =
    if (ph + 2 ^ 33 - n - 1) % 2 ^ 32 < 2 ^ 31 then retire (s.l1Clear I.t) I .other I.sub else wait s I := by
  rw [exec_barwait, execBarwait, barrierOp_eq h hp hq, hn]
  simp only [Barrier.read_eq hb hB rfl]

end Executed

/-! ### The steps at the barrier -/

section Steps
variable {s : State} {p : SpadAt} {B : Block} {n e by' init ph : Nat} (hB : kget (s.tile p.t).blocks p.ctx = some B)
include hB

theorem barinit_step (hn : n < 2 ^ 31) : BarrierStep s p (n, 0, n, 0) ((Barrier.mk n 0 n 0).write s p) :=
  have word : n < 2 ^ 32 := by omega
  Barrier.write_step hB (b := ⟨n, 0, n, 0⟩) word word (Nat.two_pow_pos 32)

variable (hb : B.barrier p.off = (e, by', init, ph))
include hb

theorem bararv_step : BarrierStep s p (phaseStep (e - n) by' init ph)
    ((Barrier.mk (e - n) (BitVec.ofNat 32 by').toInt init ph).check.write s p) := by
  obtain ⟨he, hby, hi, hph⟩ := Block.barrier_lt hb
  have step := Barrier.check_write_step hB (b := ⟨e - n, (BitVec.ofNat 32 by').toInt, init, ph⟩) (Nat.sub_lt_of_lt he)
    (BitVec.le_toInt _) BitVec.toInt_lt hi hph
  have word : (BitVec.ofInt 32 (BitVec.ofNat 32 by').toInt).toNat = by' := by
    rw [BitVec.ofInt_toInt, BitVec.toNat_ofNat, Nat.mod_eq_of_lt hby]
  rwa [word] at step

theorem barexp_step (hn : (BitVec.ofNat 32 by').toInt + n < 2 ^ 31) : BarrierStep s p (phaseStep e ((by' + n) % 2 ^ 32) init ph)
    ((Barrier.mk e ((BitVec.ofNat 32 by').toInt + n) init ph).check.write s p) := by
  obtain ⟨he, -, hi, hph⟩ := Block.barrier_lt hb
  have low : -2 ^ 31 ≤ (BitVec.ofNat 32 by').toInt + n :=
    Int.le_trans (BitVec.le_toInt _) (Int.le_add_of_nonneg_right (Int.natCast_nonneg n))
  have step := Barrier.check_write_step hB (b := ⟨e, (BitVec.ofNat 32 by').toInt + n, init, ph⟩) he low hn hi hph
  rwa [bytesWord_add] at step

end Steps

/-- Settles O33, from what each barrier instruction executes and the step it takes at the barrier. -/
theorem barrierResult : Obligations.BarrierResult := by
  unfold Obligations.BarrierResult
  intro a b s I p B hiss
  obtain ⟨hinit, harv, hexp, hwait⟩ : Issues s (.barinit a b) false [.src a, .src b] I ∧ Issues s (.bararv a b) false [.src a, .src b] I ∧
      Issues s (.barexp a b) false [.src a, .src b] I ∧ Issues s (.barwait a b) false [.src a, .src b] I := by
    simpa only [List.forall_mem_cons, List.not_mem_nil, false_imp_iff, implies_true, and_true] using hiss
  intro x n hp hB hq e by' init ph hb goes bytes
  have hn : (uniVal (s.window I) 0 I.sub b).toNat % 2 ^ 32 = n := rfl
  refine ⟨?init, ?initTraps, exec_bararv_waits hp hq harv, ?arv, ?arvTraps, ?exp, ?expTraps, ?returns, ?waits⟩
  case init =>
    exact fun ok => ⟨_, barinit_step hB ok.2, (exec_barinit_eq hp hq hn hinit).trans (if_pos ok)⟩
  case initTraps =>
    exact fun bad => (exec_barinit_eq hp hq hn hinit).trans (if_neg bad)
  case arv =>
    exact fun quiet free ok => ⟨_, bararv_step hB hb, (exec_bararv_eq hp hq hn hB hb harv quiet free).trans (if_pos ok)⟩
  case arvTraps =>
    exact fun quiet free bad => (exec_bararv_eq hp hq hn hB hb harv quiet free).trans (if_neg bad)
  case exp =>
    exact fun free ok => ⟨_, barexp_step hB hb ok.2.2, (exec_barexp_eq hp hq hn hB hb hexp free).trans (if_pos ok)⟩
  case expTraps =>
    exact fun free bad => (exec_barexp_eq hp hq hn hB hb hexp free).trans (if_neg bad)
  case returns =>
    exact fun reached => (exec_barwait_eq hp hq hn hB hb hwait).trans (if_pos reached)
  case waits =>
    exact fun unreached => ((exec_barwait_eq hp hq hn hB hb hwait).trans (if_neg unreached)).trans (wait_eq hwait.issuer)

end Sys2Proof.Machine
end

section
/-!
Memory, and the encoding both ways: every step keeps memory in canonical form; the decoder reads back what the encoder writes,
and the encoder writes again what the decoder reads (14_encoding.md R220 to R238).
-/
namespace Sys2Proof.Machine

/-- Settles O8: the first turn of the agenda keeps the form, and so does what the machine does by itself. -/
theorem stepKeepsMemory : Obligations.StepKeepsMemory := by
  unfold Obligations.StepKeepsMemory step nextTurn
  intro s t hw he
  split at he
  · next x rest _ => exact turn_wf (s := { s with agenda := rest }) hw he
  · exact ownTurn_wf hw he

end Sys2Proof.Machine

namespace Sys2Proof.Laws.RoundTrip

/-- Every instruction, by its constructor. -/
theorem every (i : Instr) : Statement i :=
  Instr.rec (motive := Statement)
    addLane subLane mulLane mulhLane mulhuLane mad andLane orLane xorLane andnLane shlLane shrLane sarLane rolLane minLane
    maxLane minuLane maxuLane clzLane popcLane brev bfeLane bfiLane selLane addc subb madc cmpLane plog moviLane movhiLane
    addiLane fadd fsub fmul fma fmin fmax fcmp fclass frnd cvt rcp rsq sqrt exp2 log2 sin cos tanh padd pmul pfma pmax fscl
    dxpack dxunpk dxexp shuf lpush bcast lscan fscan lred vote rng prefpop ldLane stLane lds sts aaddLane afadd amin amaxLane
    aminu amaxu aand aor axor axchgLane acasLane sldLane sstLane srankLane sanchLane sendLane recvLane spawn saadd samin samax
    sacas saxchg addUniform subUniform mulUniform mulhUniform mulhuUniform andUniform orUniform xorUniform andnUniform
    shlUniform shrUniform sarUniform minUniform maxUniform minuUniform maxuUniform clzUniform popcUniform bfeUniform bfiUniform
    cmpEqUniform cmpNeUniform cmpLtUniform cmpLeUniform cmpBloUniform cmpBlsUniform selUniform moviUniform movhiUniform
    addiUniform rolUniform br brz brnz brp call ret jmpi regang mpush mpop msetp melse loop yield exit nop ldUniform stUniform
    aaddUniform acasUniform axchgUniform amaxUniform fence waitc monarm monwait barinit bararv barexp barwait tlwait tlqry tdef
    copy copym copys copyr mload mswap mmul accz accdrn accmov attn histrd histclr snew sfree slen sins sdel ssplit scat sgap
    sapnd sclose srankUniform sanchUniform sldUniform sstUniform sendUniform recvUniform get put knot skfold skspread skqry
    launch suspend lqry srd swr trap tret brk railsGood fullReset recoveryImage firmwareUpdate throttleEvaluation thermtrip
    thstatTrippedClear flitReceive replayRequest portRetrain portTrainingDone boundaryRetrain boundaryTrainingDone
    diePacketArrival vectorAnnounce remoteWriteApply remoteReadPerform readResponseArrival gpqctlQuiesce gpqctlResume
    portQuiesceDone grtabWrite packetWrite packetRead packetAtomic packetSignal signalApply reduceContribution
    localReduceCombine ackResponse atomresResponse errorResponse lockInterfaceRequest getDeviceInterfaceReport
    startInterfaceRequest stopInterfaceRequest stopScrubDone lockedRegisterWrite ideIntegrityFailure spdmMeasurements
    launchRecordWrite lwcfgWrite systemRegisterWrite tepcWrite tlbinvWrite htlbinvWrite tlbinvComplete translationWalk
    shdiscWrite skreqReel skreqUnreel skreqExport worldMoveRequest worldMoveComplete queueAgeTimer placeBlock timeSliceBoundary
    usedUpdate gridCompletion scrubComplete freezeRequest drainComplete sheafSaveDone sheafRestore sheafRestoreDone debugResume
    debugSaveRequest debugScanAccess binTimerExpiry binFormGang binStoreDeadlock monitorWatchFire monitorPoll suspendDelayExpiry
    logEntryComplete trapEntry impreciseReportTaken tileStateError dataError correctedError patrolScrub engineCommandComplete
    barrierByteCount linkedStart strandOpApply strandResponse channelItemArrival distributorReelRequest stageGangPlace
    skeinGatherDone skeinCopyDone skeinUnreelAtKnot skeinExportAtKnot skeinSwitchTimeout railsRemoved freedSlotNoticeArrival
    distributorUnreelRequest i

end Sys2Proof.Laws.RoundTrip

namespace Sys2Proof.Machine

/-- Settles O1, one lemma for each constructor. -/
theorem encodeDecode : Obligations.EncodeDecode :=
  fun i w wf enc => Laws.RoundTrip.every i wf w enc

end Sys2Proof.Machine
end

section
/-!
The encoder writes again what the decoder reads (14_encoding.md R220 to R238).
-/
namespace Sys2Proof.Laws

/-! ### The fields written back -/

@[simp] theorem LDst.code_ofCode (c : BitVec 8) : LDst.code (LDst.ofCode c) = c := by revert c; decide
@[simp] theorem Opnd.code_ofCode (c : BitVec 8) : Opnd.code (Opnd.ofCode c) = c := by revert c; decide
@[simp] theorem Opnd.ok_ofCode (c : BitVec 8) : (Opnd.ofCode c).ok = true := by revert c; decide
@[simp] theorem Os.code_ofCode (c : BitVec 3) : Os.code (Os.ofCode c) = c := by revert c; decide
@[simp] theorem LaAddr.code_ofCode (c : BitVec 7) : LaAddr.code (LaAddr.ofCode c) = c := by revert c; decide
@[simp] theorem FCond.code_ofCode (c : BitVec 3) : FCond.code (FCond.ofCode c) = c := by revert c; decide
@[simp] theorem Rm.code_ofCode (c : BitVec 2) : Rm.code (Rm.ofCode c) = c := by revert c; decide
@[simp] theorem ScanOp.code_ofCode (c : BitVec 3) : ScanOp.code (ScanOp.ofCode c) = c := by revert c; decide
@[simp] theorem BrpMode.code_ofCode (c : BitVec 2) : BrpMode.code (BrpMode.ofCode c) = c := by revert c; decide
@[simp] theorem FenceKind.code_ofCode (c : BitVec 2) : FenceKind.code (FenceKind.ofCode c) = c := by revert c; decide
@[simp] theorem bit_ofBool (c : BitVec 1) : BitVec.ofBool (c == 1#1) = c := by revert c; decide

@[simp] theorem SysReg.code_ofCode (c : BitVec 11) : SysReg.code (SysReg.ofCode c) = c := by
  unfold SysReg.ofCode
  split
  case h_29 => rfl
  all_goals exact BitVec.eq_of_toNat_eq (Eq.symm ‹_›)

@[simp] theorem SysReg.ok_ofCode (c : BitVec 11) : (SysReg.ofCode c).ok = true := by
  cases h : SysReg.ofCode c with
  | unlisted e =>
    have he : c = e := by rw [← SysReg.code_ofCode c, h]; rfl
    simp [SysReg.ok, ← he, h]
  | _ => rfl

@[simp] theorem UDst.code_eq_iff {a : UDst} {c : BitVec 8} : a.code = c ↔ UDst.ofCode? c = some a :=
  ⟨fun h => h ▸ UDst.ofCode?_code a, (by decide : ∀ c, ∀ a ∈ UDst.ofCode? c, a.code = c) c a⟩
@[simp] theorem Ty.code_eq_iff {a : Ty} {c : BitVec 3} : a.code = c ↔ Ty.ofCode? c = some a :=
  ⟨fun h => h ▸ Ty.ofCode?_code a, (by decide : ∀ c, ∀ a ∈ Ty.ofCode? c, a.code = c) c a⟩
@[simp] theorem Ty2.code_eq_iff {a : Ty2} {c : BitVec 3} : a.code = c ↔ Ty2.ofCode? c = some a :=
  ⟨fun h => h ▸ Ty2.ofCode?_code a, (by decide : ∀ c, ∀ a ∈ Ty2.ofCode? c, a.code = c) c a⟩
@[simp] theorem Scope.code_eq_iff {a : Scope} {c : BitVec 3} : a.code = c ↔ Scope.ofCode? c = some a :=
  ⟨fun h => h ▸ Scope.ofCode?_code a, (by decide : ∀ c, ∀ a ∈ Scope.ofCode? c, a.code = c) c a⟩
@[simp] theorem MOrd.code_eq_iff {a : MOrd} {c : BitVec 6} : a.code = c ↔ MOrd.ofCode? c = some a :=
  ⟨fun h => h ▸ MOrd.ofCode?_code a, (by decide : ∀ c, ∀ a ∈ MOrd.ofCode? c, a.code = c) c a⟩
@[simp] theorem AOrd.code_eq_iff {a : AOrd} {c : BitVec 6} : a.code = c ↔ AOrd.ofCode? c = some a :=
  ⟨fun h => h ▸ AOrd.ofCode?_code a, (by decide : ∀ c, ∀ a ∈ AOrd.ofCode? c, a.code = c) c a⟩
@[simp] theorem ICond.code_eq_iff {a : ICond} {c : BitVec 3} : a.code = c ↔ ICond.ofCode? c = some a :=
  ⟨fun h => h ▸ ICond.ofCode?_code a, (by decide : ∀ c, ∀ a ∈ ICond.ofCode? c, a.code = c) c a⟩
@[simp] theorem Comb.code_eq_iff {a : Comb} {c : BitVec 2} : a.code = c ↔ Comb.ofCode? c = some a :=
  ⟨fun h => h ▸ Comb.ofCode?_code a, (by decide : ∀ c, ∀ a ∈ Comb.ofCode? c, a.code = c) c a⟩
@[simp] theorem NTy.code_eq_iff {a : NTy} {c : BitVec 3} : a.code = c ↔ NTy.ofCode? c = some a :=
  ⟨fun h => h ▸ NTy.ofCode?_code a, (by decide : ∀ c, ∀ a ∈ NTy.ofCode? c, a.code = c) c a⟩
@[simp] theorem DxFmt.code_eq_iff {a : DxFmt} {c : BitVec 2} : a.code = c ↔ DxFmt.ofCode? c = some a :=
  ⟨fun h => h ▸ DxFmt.ofCode?_code a, (by decide : ∀ c, ∀ a ∈ DxFmt.ofCode? c, a.code = c) c a⟩
@[simp] theorem FScanOp.code_eq_iff {a : FScanOp} {c : BitVec 2} : a.code = c ↔ FScanOp.ofCode? c = some a :=
  ⟨fun h => h ▸ FScanOp.ofCode?_code a, (by decide : ∀ c, ∀ a ∈ FScanOp.ofCode? c, a.code = c) c a⟩
@[simp] theorem RedOp.code_eq_iff {a : RedOp} {c : BitVec 4} : a.code = c ↔ RedOp.ofCode? c = some a :=
  ⟨fun h => h ▸ RedOp.ofCode?_code a, (by decide : ∀ c, ∀ a ∈ RedOp.ofCode? c, a.code = c) c a⟩
@[simp] theorem VoteMode.code_eq_iff {a : VoteMode} {c : BitVec 2} : a.code = c ↔ VoteMode.ofCode? c = some a :=
  ⟨fun h => h ▸ VoteMode.ofCode?_code a, (by decide : ∀ c, ∀ a ∈ VoteMode.ofCode? c, a.code = c) c a⟩
@[simp] theorem MsetOp.code_eq_iff {a : MsetOp} {c : BitVec 2} : a.code = c ↔ MsetOp.ofCode? c = some a :=
  ⟨fun h => h ▸ MsetOp.ofCode?_code a, (by decide : ∀ c, ∀ a ∈ MsetOp.ofCode? c, a.code = c) c a⟩

@[simp] theorem Ty.ofStore?_eq_some {a : Ty} {c : BitVec 3} :
    Ty.ofStore? c = some a ↔ Ty.ofCode? c = some a ∧ a.storable = true := by
  simp only [Ty.ofStore?, Option.bind_eq_some_iff]
  constructor
  · rintro ⟨t, ht, h⟩
    split at h
    · exact Option.some.inj h ▸ ⟨ht, ‹_›⟩
    · cases h
  · exact fun ⟨h, hs⟩ => ⟨a, h, if_pos hs⟩

/-- Two fields side by side are the bits of a word where each is its own part of them. -/
theorem append_eq_extract {w m n s : Nat} {x : BitVec w} {a : BitVec m} {b : BitVec n} :
    a ++ b = x.extractLsb' s (m + n) ↔ a = x.extractLsb' (s + n) m ∧ b = x.extractLsb' s n := by
  rw [← BitVec.extractLsb'_append_extractLsb'_eq_extractLsb' rfl]
  constructor
  · intro h
    have ha := congrArg (BitVec.extractLsb' n m) h
    have hb := congrArg (BitVec.extractLsb' 0 n) h
    rw [BitVec.extractLsb'_append_eq_left, BitVec.extractLsb'_append_eq_left] at ha
    rw [BitVec.extractLsb'_append_eq_right, BitVec.extractLsb'_append_eq_right] at hb
    exact ⟨ha, hb⟩
  · rintro ⟨rfl, rfl⟩
    rfl

@[simp] theorem Susp.ofCode?_eq_some {x : BitVec 24} {k : Susp} : Susp.ofCode? x = some k ↔ k.ok = true ∧ k.code = x := by
  refine ⟨fun h => ?_, fun ⟨hok, hx⟩ => hx ▸ Susp.ofCode?_code k hok⟩
  rw [← BitVec.extractLsb'_eq_self (x := x)]
  unfold Susp.ofCode? at h
  split at h
  next mid =>
    have hmid : x.extractLsb' 2 14 = 0#14 := by simpa using mid
    have hlow {n : Nat} (hn : (x.extractLsb' 0 2).toNat = n) : x.extractLsb' 0 2 = BitVec.ofNat 2 n := by
      rw [← hn, BitVec.ofNat_toNat, BitVec.setWidth_eq]
    split at h
    next low =>
      split at h
      next top =>
        have htop : x.extractLsb' 16 8 = 0#8 := by simpa using top
        cases h
        refine ⟨rfl, ?_⟩
        change 0#8 ++ (0#14 ++ 0#2) = _
        rw [append_eq_extract, append_eq_extract]
        simp [htop, hmid, hlow low]
      next => cases h
    next low =>
      cases h
      refine ⟨Opnd.ok_ofCode _, ?_⟩
      change Opnd.code _ ++ (0#14 ++ 1#2) = _
      rw [append_eq_extract, append_eq_extract]
      simp [hmid, hlow low]
    next => cases h
  next => cases h

/-! ### The word of what the decoder reads -/

/-- An instruction that the decoder reads is well-formed, and its word has these bits. -/
def Writes (u : BitVec 1) (op : BitVec 7) (x : BitVec 24) (r : Except DecErr Instr) : Prop :=
  ∀ i, r = .ok i → i.wf = true ∧ encode i = word u op x

section Writes
variable {u : BitVec 1} {op : BitVec 7} {x : BitVec 24} {o : Option Instr}

theorem writes_error {e : DecErr} : Writes u op x (.error e) := fun _ h => nomatch h

theorem writes_some {i : Instr} : Writes u op x (fields (some i)) ↔ i.wf = true ∧ encode i = word u op x := by
  simp [Writes, fields]

theorem writes_chk {c : Bool} : Writes u op x (fields (chk c o)) ↔ (c = true → Writes u op x (fields o)) := by
  cases c <;> simp [Writes, fields, chk]

theorem writes_bind {α : Type} {p : Option α} {f : α → Option Instr} :
    Writes u op x (fields (p.bind f)) ↔ ∀ a, p = some a → Writes u op x (fields (f a)) := by
  cases p <;> simp [Writes, fields]

/-- Two words of one opcode are equal where their bits [23:0] are. -/
theorem word_eq_iff {y : BitVec 24} : word u op y = word u op x ↔ y = x.extractLsb' 0 24 := by
  rw [BitVec.extractLsb'_eq_self]
  simp only [word, Option.some.injEq]
  exact ⟨fun h => by rw [← field_bits u op y, h, field_bits], fun h => h ▸ rfl⟩

end Writes

/-- Each opcode of the lane set: what its field checks say of the parts of the word is what the encoder puts there. -/
theorem decodeLane_writes (n : Nat) (x : BitVec 24) : Writes 0#1 (BitVec.ofNat 7 n) x (decodeLane n x) := by
  unfold decodeLane
  split
  case h_95 => exact writes_error
  all_goals
    simp only [writes_chk, writes_bind, writes_some, chkCvt, beq_iff_eq, Ty.ofStore?_eq_some]
    intros
    simp only [Instr.wf, encode, word_eq_iff]
    repeat rw [append_eq_extract]
    simp [*]

/-- Each opcode of the uniform set, likewise. -/
theorem decodeUniform_writes (n : Nat) (x : BitVec 24) : Writes 1#1 (BitVec.ofNat 7 n) x (decodeUniform n x) := by
  unfold decodeUniform
  split
  case h_108 => exact writes_error
  all_goals
    simp only [writes_chk, writes_bind, writes_some, chkPut, beq_iff_eq, Ty.ofStore?_eq_some, Susp.ofCode?_eq_some]
    intros
    simp only [Instr.wf, encode, word_eq_iff]
    repeat rw [append_eq_extract]
    simp [*]

/-- A word is its set bit, its opcode and bits [23:0] (R220). -/
theorem word_of_parts (w : W32) :
    word (BitVec.ofBool (w.getLsbD 31)) (BitVec.ofNat 7 (w.extractLsb' 24 7).toNat) (w.setWidth 24) = some w := by
  have top : BitVec.ofBool (w.getLsbD 31) = w.extractLsb' 31 1 := by
    ext k hk
    obtain rfl : k = 0 := by omega
    simp
  have low : w.setWidth 24 = w.extractLsb' 0 24 := by ext; simp
  have joined : w.extractLsb' 31 1 ++ (w.extractLsb' 24 7 ++ w.extractLsb' 0 24) = w.extractLsb' 0 32 :=
    append_eq_extract.2 ⟨rfl, append_eq_extract.2 ⟨rfl, rfl⟩⟩
  rw [word, BitVec.ofNat_toNat, BitVec.setWidth_eq, top, low, joined, BitVec.extractLsb'_eq_self]

end Sys2Proof.Laws

namespace Sys2Proof.Machine

/-- Settles O2, from what each opcode's field checks say of the parts of the word. -/
theorem decodeEncode : Obligations.DecodeEncode := by
  unfold Obligations.DecodeEncode decode
  intro w i h
  rw [← Laws.word_of_parts w]
  cases hu : w.getLsbD 31 <;> rw [hu] at h
  case false => exact Laws.decodeLane_writes _ _ i h
  case true => exact Laws.decodeUniform_writes _ _ i h

end Sys2Proof.Machine
end

section
/-!
The lane instructions: each is one of the shared lane operations over the operands of its form, with the values of its form
(16_lane_instructions.md R261 to R283).
-/
namespace Sys2Proof.Machine.Lane32

/-- Instruction i writes in each active lane the words of its form. -/
def Runs (i : Instr) (s : State) (F : LaneForm) : Prop :=
  ∃ f, exec i s = laneResult s i F.uses F.dst f ∧ ∀ R j, f R j = F.val R j

section Runs
variable {i : Instr} {s : State} {d : LDst} {a b : Opnd}

theorem runs_of {us : List Use} {f v : Rd → Nat → List W32} (x : exec i s = laneResult s i us d f) (e : ∀ R j, f R j = v R j) :
    Runs i s (.mk us d v) := ⟨f, x, e⟩

theorem runs_int2 {f g : W32 → W32 → W32} (x : exec i s = laneInt2 s i d a b f) (e : ∀ x y, f x y = g x y) :
    Runs i s (.int2 d a b g) := runs_of x fun _ _ => congrArg ([·]) (e ..)

theorem runs_int1 {f g : W32 → W32} (x : exec i s = laneInt1 s i d a f) (e : ∀ x, f x = g x) :
    Runs i s (.int1 d a g) := runs_of x fun _ _ => congrArg ([·]) (e _)

theorem runs_flt2 {f g : W32 → W32 → W32} (x : exec i s = laneFlt2 s i d a b f) (e : ∀ x y, f x y = g x y) :
    Runs i s (.flt2 d a b g) := runs_of x fun _ _ => congrArg ([·]) (e ..)

theorem runs_flt1 {f g : W32 → W32} (x : exec i s = laneFlt1 s i d a f) (e : ∀ x, f x = g x) :
    Runs i s (.flt1 d a g) := runs_of x fun _ _ => congrArg ([·]) (e _)

end Runs

theorem int_runs {i : Instr} {F : LaneForm} (h : laneIntForm i = some F) (s : State) : Runs i s F := by
  unfold laneIntForm at h
  split at h <;> cases h
  next => exact runs_int2 exec_addLane add_eq
  next => exact runs_int2 exec_subLane sub_eq
  next => exact runs_int2 exec_mulLane mul_eq
  next => exact runs_int2 exec_mulhLane (fun _ _ => rfl)
  next => exact runs_int2 exec_mulhuLane (fun _ _ => rfl)
  next => exact runs_of exec_mad (fun _ _ => congrArg ([·]) (mad_eq ..))
  next => exact runs_int2 exec_andLane (fun _ _ => rfl)
  next => exact runs_int2 exec_orLane (fun _ _ => rfl)
  next => exact runs_int2 exec_xorLane (fun _ _ => rfl)
  next => exact runs_int2 exec_andnLane (fun _ _ => rfl)
  next => exact runs_int2 exec_shlLane (fun x y => by rw [cnt_eq, shl_eq])
  next => exact runs_int2 exec_shrLane (fun x y => by rw [cnt_eq, shr_eq])
  next => exact runs_int2 exec_sarLane (fun x y => by rw [cnt_eq, sar_eq])
  next => exact runs_int2 exec_rolLane (fun x y => by rw [cnt_eq, rol_eq])
  next => exact runs_int2 exec_minLane minS_eq
  next => exact runs_int2 exec_maxLane maxS_eq
  next => exact runs_int2 exec_minuLane minU_eq
  next => exact runs_int2 exec_maxuLane maxU_eq
  next => exact runs_int1 exec_clzLane (fun _ => rfl)
  next => exact runs_int1 exec_popcLane (fun _ => rfl)
  next => exact runs_int1 exec_brev (fun _ => rfl)
  next => exact runs_int2 exec_bfeLane (fun _ _ => rfl)
  next => exact runs_of exec_bfiLane (fun _ _ => rfl)
  next => exact runs_of exec_selLane (fun _ _ => rfl)
  next => exact runs_of exec_moviLane (fun _ _ => congrArg ([·]) (movi_eq ..))
  next => exact runs_of exec_movhiLane (fun _ _ => congrArg ([·]) (movhi_eq ..))
  next => exact runs_of exec_addiLane (fun _ _ => congrArg ([·]) (addi_eq ..))

theorem float_runs {i : Instr} {F : LaneForm} (h : laneFloatForm i = some F) (s : State) : Runs i s F := by
  unfold laneFloatForm at h
  split at h <;> cases h
  next => exact runs_flt2 exec_fadd (fun _ _ => rfl)
  next => exact runs_flt2 exec_fsub (fun _ _ => rfl)
  next => exact runs_flt2 exec_fmul (fun _ _ => rfl)
  next => exact runs_of exec_fma (fun _ _ => rfl)
  next => exact runs_flt2 exec_fmin (fun _ _ => rfl)
  next => exact runs_flt2 exec_fmax (fun _ _ => rfl)
  next => exact runs_of exec_fscl (fun _ _ => rfl)
  next => exact runs_flt1 exec_frnd (fun _ => rfl)
  next => exact runs_of exec_cvt (fun _ _ => rfl)
  next => exact runs_flt1 exec_rcp (fun _ => rfl)
  next => exact runs_flt1 exec_rsq (fun _ => rfl)
  next => exact runs_flt1 exec_sqrt (fun _ => rfl)
  next => exact runs_flt1 exec_exp2 (fun _ => rfl)
  next => exact runs_flt1 exec_log2 (fun _ => rfl)
  next => exact runs_flt1 exec_sin (fun _ => rfl)
  next => exact runs_flt1 exec_cos (fun _ => rfl)
  next => exact runs_flt1 exec_tanh (fun _ => rfl)
  next => exact runs_of exec_padd (fun _ _ => rfl)
  next => exact runs_of exec_pmul (fun _ _ => rfl)
  next => exact runs_of exec_pmax (fun _ _ => rfl)
  next => exact runs_of exec_pfma (fun _ _ => rfl)

theorem cross_runs {i : Instr} {F : LaneForm} (h : laneCrossForm i = some F) (s : State) : Runs i s F := by
  unfold laneCrossForm at h
  split at h <;> cases h
  next => exact runs_of exec_shuf (fun _ _ => congrArg ([·]) (across_eq ..))
  next => exact runs_of exec_bcast (fun _ _ => congrArg ([·]) (across_eq ..))
  next => exact runs_of exec_lpush (fun _ _ => rfl)
  next => exact runs_of exec_lscan (fun _ _ => congrArg ([·]) (fold1_map ..))
  next => exact runs_of exec_fscan (fun _ _ => rfl)
  next => exact runs_of exec_lred (fun _ _ => rfl)
  next => exact runs_of exec_prefpop (fun _ _ => congrArg ([·]) (congrArg (BitVec.ofNat 32) ((foldl_add_sum ..).trans (Nat.zero_add _))))
  next => exact runs_of exec_dxpack (fun _ _ => rfl)
  next => exact runs_of exec_dxexp (fun _ _ => rfl)
  next => exact runs_of exec_dxunpk (fun _ _ => rfl)
  next => exact runs_of exec_rng (fun _ _ => rfl)

theorem Runs.next {F : LaneForm} {i : Instr} {s : State} {I : Issuer} (r : Runs i s F) (h : Issues s i true F.uses I) :
    ∃ t, exec i s = .next t ∧ LaneStep (s.afterOperands F.uses) I .ring
      (fun j L => if I.sub.active j then L.took (s.window I) I.sub.depth F.dst (F.val (s.reads I F.uses) j)
        else L.missed I.sub.depth) t :=
  have ⟨_, x, e⟩ := r
  laneForm_next h x e

/-! ### Predicates and carries (R263, R265 to R267, R278) -/

theorem comb_eq (m : Comb) (x y : Bool) : m.apply x y = combine m x y := by cases m <;> rfl

theorem bit_eq (b : Bool) : b.toNat = bit b := by cases b <;> rfl

theorem icond_eq (c : ICond) (x y : W32) : c.holds x y = (match c with
    | .eq => decide (x = y) | .ne => decide (x ≠ y)
    | .lt => decide (x.toInt < y.toInt) | .le => decide (x.toInt ≤ y.toInt)
    | .blo => decide (x.toNat < y.toNat) | .bls => decide (x.toNat ≤ y.toNat)) := by
  cases c <;> simp only [ICond.holds, BitVec.slt_eq_decide, BitVec.sle_eq_decide, BitVec.ult_eq_decide, BitVec.ule_eq_decide]
  all_goals rw [Bool.eq_iff_iff]; simp

theorem fcond_eq (c : FCond) (a b : W32) : c.holds a b = (let x := fval a
    let y := fval b
    let nan := x.isNan || y.isNan
    match c with
    | .eq => FV.eq x y | .ne => nan || !FV.eq x y
    | .lt => FV.lt x y | .le => FV.lt x y || FV.eq x y
    | .gt => FV.lt y x | .ge => FV.lt y x || FV.eq x y
    | .un => nan | .ord => !nan) := by
  cases c <;> simp only [FCond.holds]
  case ne => cases hx : (fval a).isNan <;> cases hy : (fval b).isNan <;> simp [FV.eq, hx, hy]

theorem pred_runs {i : Instr} {F : PredForm} (h : lanePredForm i = some F) (s : State) :
    ∃ f, exec i s = lanePred s i F.uses F.dst f ∧ ∀ R j, f R j = F.val R j := by
  unfold lanePredForm at h
  split at h <;> cases h
  next => exact ⟨_, exec_cmpLane, fun _ _ => (comb_eq ..).trans (congrArg _ (icond_eq ..))⟩
  next => exact ⟨_, exec_fcmp, fun _ _ => (comb_eq ..).trans (congrArg _ (fcond_eq ..))⟩
  next => exact ⟨_, exec_fclass, fun _ _ => comb_eq ..⟩
  next => exact ⟨_, exec_plog, fun _ _ => by rw [plogBit, bit_eq, bit_eq]; rfl⟩
  next => exact ⟨_, exec_vote, fun _ _ => vote_eq ..⟩

theorem subb_eq (a b : W32) (c : Bool) :
    subBorrow a b c = (BitVec.ofInt 32 (a.toNat - (b.toNat + bit c : Nat)), decide (a.toNat < b.toNat + bit c)) := by
  have diff : a - b - BitVec.ofNat 32 (bit c) = BitVec.ofInt 32 (a.toNat - (b.toNat + bit c : Nat)) := by
    apply BitVec.eq_of_toNat_eq
    have := a.isLt
    have := b.isLt
    simp only [BitVec.toNat_sub, BitVec.toNat_ofNat, BitVec.toNat_ofInt]
    omega
  rw [subBorrow, bit_eq, diff]

theorem low_half (t : Nat) : (BitVec.ofNat 64 t).setWidth 32 = BitVec.ofNat 32 t := by
  apply BitVec.eq_of_toNat_eq
  simp only [BitVec.toNat_setWidth, BitVec.toNat_ofNat]
  omega

theorem high_half (t : Nat) : (BitVec.ofNat 64 t >>> 32).setWidth 32 = BitVec.ofNat 32 (t / 2 ^ 32) := by
  apply BitVec.eq_of_toNat_eq
  simp only [BitVec.toNat_setWidth, BitVec.toNat_ushiftRight, BitVec.toNat_ofNat, Nat.shiftRight_eq_div_pow]
  omega

theorem carry_runs {i : Instr} {F : CarryForm} (h : laneCarryForm i = some F) (s : State) :
    ∃ f, exec i s = laneCarry s i F.uses F.dst F.p f ∧ readsLatch F.uses = false ∧ ∀ R j, f R j = F.val R j := by
  unfold laneCarryForm at h
  split at h <;> cases h
  next => exact ⟨_, exec_addc, rfl, fun _ _ => by simp only [addCarry, bit_eq]⟩
  next => exact ⟨_, exec_subb, rfl, fun _ _ => by simp only [subb_eq]⟩
  next => exact ⟨_, exec_madc, rfl, fun _ _ => by simp only [madc_eq, low_half, high_half]⟩

/-- Settles O10. -/
theorem lanePredicates : Obligations.LanePredicates := by
  refine ⟨fun i F s I hF h => ?_, fun i F s I hF h => ?_⟩
  · obtain ⟨f, x, e⟩ := pred_runs hF s
    exact lanePred_next h x e
  · obtain ⟨f, x, n, e⟩ := carry_runs hF s
    exact carry_next h x n e

/-- Settles O9. -/
theorem laneResult : Obligations.LaneResult :=
  ⟨fun _ _ s _ h => (int_runs h s).next, fun _ _ s _ h => (float_runs h s).next, fun _ _ s _ h => (cross_runs h s).next⟩

end Sys2Proof.Machine.Lane32
end

section
/-!
The uniform instructions that compute, branch, set masks, or only wait (15_uniform_instructions.md R243 to R259;
07_execution_model.md R107).
-/
namespace Sys2Proof.Machine

/-! ### Uniform arithmetic (R244 to R248) -/

/-- Instruction i writes the value of its form in every slice. -/
def UniForm.Runs (F : UniForm) (i : Instr) (s : State) : Prop :=
  ∃ f, exec i s = uniResult s i F.uses F.dst f ∧ ∀ rd U, f rd U = F.val rd U

theorem runs_two {i : Instr} {s : State} {d : UDst} {a b : Opnd} {f g : Word → Word → Word} (x : exec i s = uni2 s i d a b f)
    (e : ∀ x y, f x y = g x y) : (UniForm.two d a b g).Runs i s :=
  ⟨_, x, fun _ _ => e ..⟩

theorem uni_runs {i : Instr} {F : UniForm} (h : uniForm i = some F) (s : State) : F.Runs i s := by
  unfold uniForm at h
  split at h <;> cases h
  next => exact runs_two exec_addUniform add_eq
  next => exact runs_two exec_subUniform sub_eq
  next => exact runs_two exec_mulUniform mul_eq
  next => exact runs_two exec_mulhUniform (fun _ _ => rfl)
  next => exact runs_two exec_mulhuUniform (fun _ _ => rfl)
  next => exact runs_two exec_andUniform (fun _ _ => rfl)
  next => exact runs_two exec_orUniform (fun _ _ => rfl)
  next => exact runs_two exec_xorUniform (fun _ _ => rfl)
  next => exact runs_two exec_andnUniform (fun _ _ => rfl)
  next => exact runs_two exec_shlUniform (fun _ _ => by rw [cnt_eq, shl_eq])
  next => exact runs_two exec_shrUniform (fun _ _ => by rw [cnt_eq, shr_eq])
  next => exact runs_two exec_sarUniform (fun _ _ => by rw [cnt_eq, sar_eq])
  next => exact runs_two exec_rolUniform (fun _ _ => by rw [cnt_eq, rol_eq])
  next => exact runs_two exec_minUniform minS_eq
  next => exact runs_two exec_maxUniform maxS_eq
  next => exact runs_two exec_minuUniform minU_eq
  next => exact runs_two exec_maxuUniform maxU_eq
  next => exact ⟨_, exec_clzUniform, fun _ _ => rfl⟩
  next => exact ⟨_, exec_popcUniform, fun _ _ => rfl⟩
  next => exact runs_two exec_bfeUniform (fun _ _ => rfl)
  next => exact ⟨_, exec_bfiUniform, fun _ _ => rfl⟩
  next => exact runs_two exec_cmpEqUniform (fun _ _ => bool_flag _ _ beq_eq_decide)
  next => exact runs_two exec_cmpNeUniform (fun _ _ => bool_flag _ _ bne_eq_decide)
  next => exact runs_two exec_cmpLtUniform (fun _ _ => bool_flag _ _ BitVec.slt_eq_decide)
  next => exact runs_two exec_cmpLeUniform (fun _ _ => bool_flag _ _ BitVec.sle_eq_decide)
  next => exact runs_two exec_cmpBloUniform (fun _ _ => bool_flag _ _ BitVec.ult_eq_decide)
  next => exact runs_two exec_cmpBlsUniform (fun _ _ => bool_flag _ _ BitVec.ule_eq_decide)
  next => exact ⟨_, exec_selUniform, fun _ _ => rfl⟩
  next => exact ⟨_, exec_moviUniform, fun _ _ => rfl⟩
  next => exact ⟨_, exec_movhiUniform, fun _ _ => movhi_eq ..⟩
  next => exact ⟨_, exec_addiUniform, fun _ _ => addi_eq ..⟩

/-- Settles O11. -/
theorem uniformResult : Obligations.UniformResult := by
  unfold Obligations.UniformResult
  intro i F s I hF h
  obtain ⟨f, x, e⟩ := uni_runs hF s
  exact uniForm_next h x e

/-! ### Masks (R258) -/

theorem top_eq (S : Slice) : S.top = S.topMask := by
  unfold Slice.top Slice.topMask
  split <;> simp [*]

/-- Instruction i is the mask operation of its form. -/
def MaskForm.Runs (F : MaskForm) (i : Instr) (s : State) : Prop :=
  ∃ bad f, exec i s = maskOp s i F.uses bad F.code f ∧ readsLatch F.uses = false ∧ (∀ S, bad S = F.bad S) ∧ ∀ S, f S = F.act S

theorem mask_runs {i : Instr} {F : MaskForm} (h : maskForm i = some F) (s : State) : F.Runs i s := by
  unfold maskForm at h
  split at h <;> cases h
  next => exact ⟨_, _, exec_mpush, rfl, fun _ => rfl, fun _ => rfl⟩
  next => exact ⟨_, _, exec_mpop, rfl, fun S => by cases h : S.stack <;> simp [h], fun S => by simp [top_eq]⟩
  next => exact ⟨_, _, exec_msetp, rfl, fun _ => rfl, fun _ => rfl⟩
  next => exact ⟨_, _, exec_msetp, rfl, fun _ => rfl, fun S => by simp only [top_eq]⟩
  next => exact ⟨_, _, exec_msetp, rfl, fun _ => rfl, fun S => by simp only [top_eq]⟩
  next => exact ⟨_, _, exec_melse, rfl, fun S => by cases h : S.stack <;> simp [h], fun S => by simp only [top_eq]⟩

theorem MaskForm.Runs.next {F : MaskForm} {i : Instr} {s : State} {I : Issuer} (r : F.Runs i s) (h : Issues s i true F.uses I) :
    ((∀ x ∈ I.sub.slices, F.bad x.2 = false) → ∃ t, exec i s = .next t ∧ SliceStep s I .straight F.act t) ∧
    ((∃ x ∈ I.sub.slices, F.bad x.2 = true) →
      exec i s = .next (takeTrap s I.t I.u ⟨9, F.code, 0xFF, 0, wordOf i, false, none, I.sub.pc⟩)) :=
  have ⟨_, _, x, n, hb, hf⟩ := r
  mask_next h x rfl n hb hf rfl

/-- Settles O13. -/
theorem maskResult : Obligations.MaskResult :=
  ⟨fun _ _ s _ hF h => ((mask_runs hF s).next h).1, fun _ _ s _ hF h => ((mask_runs hF s).next h).2⟩

/-! ### Branches (R249 to R253) -/

theorem setS_eq (U : Sub) (r : BitVec 5) (x : Word) :
    U.setS r.toNat x = { U with slices := U.slices.map fun y => (y.1, y.2.putDst ⟨false, r⟩ x) } := by
  simp [Sub.setS, Sub.mapSlices, kmap, Slice.putDst, Slice.setSreg]

theorem bne_one (x : Word) : (x - 1 != 0) = decide (x ≠ 1) := by
  rw [bne_eq_decide, decide_eq_decide]
  bv_omega

theorem taken_eq (m : BrpMode) (S : Slice) (p : BitVec 3) : m.taken (S.activePreds p) = (match m with
    | .any => S.holds p true
    | .all => !S.holds p false
    | .none => !S.holds p true
    | .nall => S.holds p false) := by
  cases m <;> simp [BrpMode.taken, holds_true, holds_false]

/-- Instruction i branches as its form says. -/
def BranchForm.Runs (F : BranchForm) (i : Instr) (s : State) (I : Issuer) : Prop :=
  ∃ U tg f, exec i s = branch s I U tg f ∧ tg = F.target I.sub ∧
    U = { I.sub with slices := I.sub.slices.map fun x => (x.1, F.write I.sub x.2) } ∧
    ∀ n S, f (F.write I.sub S) n = F.taken (s.window I) I.sub n S

theorem branch_runs {i : Instr} {F : BranchForm} {s : State} {I : Issuer} (h : branchForm i = some F)
    (hi : Issues s i false F.uses I) : F.Runs i s I := by
  cases i <;> try cases h
  case br => exact ⟨_, _, _, exec_br.trans (hi.plain _), target_eq _ _ (by decide), same_slices _, fun _ _ => rfl⟩
  case brz => exact ⟨_, _, _, exec_brz.trans (hi.plain _), target_eq _ _ (by decide), same_slices _, fun _ _ => rfl⟩
  case brnz => exact ⟨_, _, _, exec_brnz.trans (hi.plain _), target_eq _ _ (by decide), same_slices _, fun _ _ => bne_eq_decide⟩
  case brp => exact ⟨_, _, _, exec_brp.trans (hi.plain _), target_eq _ _ (by decide), same_slices _, fun _ _ => taken_eq ..⟩
  case loop c _ =>
    cases c <;> cases h
    exact ⟨_, _, _, exec_loop.trans (hi.plain _), target_eq _ _ (by decide), setS_eq .., fun _ _ => bne_one ..⟩
  case call => exact ⟨_, _, _, exec_call.trans (hi.plain _), target_eq _ _ (by decide), setS_eq _ 31 _, fun _ _ => rfl⟩
  case ret => exact ⟨_, _, _, exec_ret.trans (hi.plain _), rfl, same_slices _, fun _ _ => rfl⟩

/-- The slices of the groups once each has been changed by f. -/
theorem mem_groups_map {gs : List (Word × KMap Slice)} {pc : Word} {n : Nat} {S : Slice} (f : Slice → Slice) :
    (∃ p ∈ gs.map fun g => (g.1, kmap g.2 fun _ S => f S), p.1 = pc ∧ (n, S) ∈ p.2) ↔
      ∃ S0, (∃ p ∈ gs, p.1 = pc ∧ (n, S0) ∈ p.2) ∧ S = f S0 := by
  constructor
  · rintro ⟨p, hp, rfl, hS⟩
    obtain ⟨g, hg, rfl⟩ := List.mem_map.1 hp
    obtain ⟨⟨m, S0⟩, hS0, e⟩ := List.mem_map.1 hS
    cases e
    exact ⟨S0, ⟨g, hg, rfl, hS0⟩, rfl⟩
  · rintro ⟨S0, ⟨g, hg, rfl, hS0⟩, rfl⟩
    exact ⟨_, List.mem_map_of_mem hg, rfl, List.mem_map.2 ⟨(n, S0), hS0, rfl⟩⟩

/-- Settles O12. -/
theorem controlResult : Obligations.ControlResult := by
  refine ⟨fun i F s I hF h => ?branches, fun d a b s I h => ?jmpi⟩
  case branches =>
    obtain ⟨U, tg, f, x, rfl, hU, hf⟩ := branch_runs hF h
    rw [x]
    exact branch_next s I (F.write I.sub) _ (F.taken (s.window I) I.sub) f U hU hf
  case jmpi =>
    let t := fun n S => sliceVal (s.window I) I.sub a n S + sliceVal (s.window I) I.sub b n S
    obtain ⟨nodup, grouped⟩ := group_inv t I.sub.slices [] List.nodup_nil
    refine ⟨_, exec_jmpi.trans (h.plain _), by rw [List.map_map]; exact nodup, fun pc n S => ?_⟩
    rw [mem_groups_map fun S => if d.nw then S else S.setSreg d.r.toNat (I.sub.pc + 4)]
    constructor
    · rintro ⟨S0, hS0, rfl⟩
      obtain ⟨hmem, hpc⟩ := ((grouped pc n S0).1 hS0).resolve_left (by simp)
      exact ⟨S0, hmem, rfl, hpc⟩
    · rintro ⟨S0, hmem, rfl, hpc⟩
      exact ⟨S0, (grouped pc n S0).2 (.inr ⟨hmem, hpc⟩), rfl⟩

/-! ### NOP, YIELD, REGANG and WAITC (R107, R254, R255, R259) -/

theorem Tile.mem_subsOf {T : Tile} {u : Nat} {U : Sub} (h : kget T.subs u = some U) : (u, U) ∈ T.subsOf U.gang :=
  List.mem_filter.2 ⟨mem_of_kget h, by simp⟩

/-- Two sub-gangs of one gang are more than one. -/
theorem Tile.two_subs {T : Tile} {u v : Nat} {U V : Sub} (hU : kget T.subs u = some U) (hV : kget T.subs v = some V) (ne : v ≠ u)
    (same : U.gang = V.gang) : 1 < (T.subsOf U.gang).length := by
  have mU := T.mem_subsOf hU
  have mV := same ▸ T.mem_subsOf hV
  match h : T.subsOf U.gang with
  | [] => simp [h] at mU
  | [x] =>
    rw [h, List.mem_singleton] at mU mV
    exact absurd (congrArg Prod.fst (mV.trans mU.symm)) ne
  | _ :: _ :: l => simp

/-- Where a sub-gang of a gang does not wait, none of them goes on (R107). -/
theorem settleRegang_waits {s : State} {t v : Nat} {V : Sub} (hV : kget (s.tile t).subs v = some V) (free : V.regang = none) :
    settleRegang s t V.gang = s := by
  have some_free : ((s.tile t).subsOf V.gang).all (fun x => x.2.waits) = false :=
    List.all_eq_false.2 ⟨_, (s.tile t).mem_subsOf hV, by simp [Sub.waits, free]⟩
  exact if_pos (by simp only [some_free, Bool.not_false, Bool.or_true])

/-- WAITC's condition (R259): in every slice every selected count is at or below the limit. -/
theorem counts_iff {l : KMap Slice} {sel : BitVec 5} {lim : Nat} :
    (l.all fun x => (List.range 5).all fun k => !sel.getLsbD k || decide (x.2.outstanding k ≤ lim)) = true ↔
      ∀ x ∈ l, ∀ k, k < 5 → sel.getLsbD k = true → x.2.outstanding k ≤ lim := by
  simp only [List.all_eq_true, List.mem_range, Bool.or_eq_true, Bool.not_eq_true', decide_eq_true_eq, Bool.eq_false_iff]
  exact forall_congr' fun x => forall_congr' fun _ => forall_congr' fun k => forall_congr' fun _ => Decidable.imp_iff_not_or.symm

/-- Settles O14. -/
theorem noEffectOrWait : Obligations.NoEffectOrWait := by
  refine ⟨fun s I hI => ⟨?nop, ?yield, fun one => ?whole⟩, fun s I v V hI hg hne hV hfree hown => ?part, fun a sel s I h => ?waitc⟩
  case nop => exact withIssuer_of hI _
  case yield => exact withIssuer_of hI _
  case whole => exact (withIssuer_of hI _).trans (if_pos one)
  case part =>
    obtain ⟨hT, hsub, -, -, -⟩ := issuer_sub hI
    have two : ¬ (I.tile.subsOf I.sub.gang).length ≤ 1 := Nat.not_le.2 (Tile.two_subs hsub hV hne hg)
    let s' := s.setSub I.t I.u { I.sub with regang := some I.sub.pc, depth := 0 }
    have hV' : kget (s'.tile I.t).subs v = some V := by
      rw [State.tile_setSub_same, Tile.setSub_subs, kget_kset_ne _ _ hne, ← hT, hV]
    refine (withIssuer_of hI _).trans ((if_neg two).trans ((if_neg (by simp [hown])).trans ?_))
    rw [hg]
    exact congrArg _ (settleRegang_waits hV' hfree)
  case waitc =>
    have x : exec (.waitc a sel) s = _ := exec_waitc.trans (h.plain _)
    exact ⟨fun met => x.trans (if_pos (counts_iff.2 met)),
      fun unmet => x.trans ((if_neg (mt counts_iff.1 unmet)).trans (wait_eq h.issuer))⟩

end Sys2Proof.Machine
end

section
/-!
Loads, stores and atomics: which of them go out, and what the accesses they make leave behind (17_memory_instructions.md R285 to
R293; 08_memory_translation.md R131, R137).
-/
namespace Sys2Proof.Machine

/-- Two conditionals of one meaning whose branches agree. -/
theorem ite_iff_congr {α : Type} {b c : Prop} [Decidable b] [Decidable c] {x y u v : α} (h : b ↔ c) (hx : x = u) (hy : y = v) :
    (if b then x else y) = if c then u else v :=
  ite_congr (propext h) (fun _ => hx) fun _ => hy

section Memory
variable {i : Instr} {F : MemForm} {s : State} {I : Issuer} (h : memForm i = some F)
include h

/-- What a memory instruction of a gang that keeps no writes back does. -/
theorem memory_free (n : Issues s i false F.uses I) (free : I.gang.free) (some_lane : F.lanes (s.window I) I.sub ≠ [])
    (goes : Goes s i F I) : exec i s = issueMemory s I (s.window I) i F.spad F.kind (F.accesses s I) := by
  rw [memory_cases h n, if_neg some_lane, if_neg (by rw [waits_iff.2 goes]; simp), free.again, ite_self]

omit h in
theorem issueMemory_next (W : Win) (as : List Access) : ∃ t, issueMemory s I W i F.spad F.kind as = .next t := by
  unfold issueMemory
  dsimp only
  split <;> exact ⟨_, rfl⟩

/-- A sub-gang whose slices have taken the words of accesses. -/
def MemForm.putAll (F : MemForm) (W : Win) (as : List Access) (U : Sub) : Sub :=
  { U with slices := U.slices.map fun (n, S) => (n, (ofSlice n as).foldl (F.put W) S) }

/-- Accesses that are all done at once leave no entry in a log: their words are written. -/
theorem logAccesses_done {U : Sub} {W : Win} {seq : Nat} {as : List Access} (empty : ∀ x ∈ U.slices, x.2.log = [])
    (done : ∀ a ∈ as, a.st = .done) : U.logAccesses W i seq 0 [] as = F.putAll W as U := by
  have slice : ∀ x ∈ U.slices, (x.1,
      if (ofSlice x.1 as).isEmpty then x.2
      else ({ x.2 with log := x.2.log ++ [(⟨x.2.freeSlot, seq, i, 0, [], x.2.mask, ofSlice x.1 as⟩ : LogEntry)] }).settleLog W) =
      (x.1, (ofSlice x.1 as).foldl (F.put W) x.2) := by
    intro x hx
    congr 1
    split
    next none_ => rw [List.isEmpty_iff.1 none_]; rfl
    next some_ =>
      exact settle_done h x.2 W ⟨x.2.freeSlot, seq, i, 0, [], x.2.mask, ofSlice x.1 as⟩ rfl (empty x hx)
        (mt List.isEmpty_iff.2 some_) fun a ha => done a (List.mem_filter.1 ha).1
  unfold Sub.logAccesses MemForm.putAll
  congr 1
  exact List.map_congr_left slice

omit h in
theorem putAll_faults {U : Sub} {W : Win} {as : List Access} (empty : ∀ x ∈ U.slices, x.2.log = []) :
    ((F.putAll W as U).retire .other).faults = [] := by
  change (U.slices.map fun x => (x.1, (ofSlice x.1 as).foldl (F.put W) x.2)).flatMap (fun x => x.2.log.filter LogEntry.faulted) = []
  rw [List.flatMap_map]
  exact List.flatMap_eq_nil_iff.2 fun x hx => by rw [puts_logOf, empty x hx]; rfl

omit h in
/-- The issuer is the same sub-gang once the accesses have been made. -/
theorem made_issuer (hI : s.issuer = some I) (n : Nat) :
    (s.tile I.t).Same ((F.made s I n).1.tile I.t) ∧ kget ((F.made s I n).1.tile I.t).subs I.u = some I.sub := by
  obtain ⟨hT, hsub, -, -, -⟩ := issuer_sub hI
  have same : (s.tile I.t).Same ((F.made s I n).1.tile I.t) :=
    issueAll_subs { s with nextId := s.nextId + 1 } _ _ _ _ _ I.t
  exact ⟨same, by rw [same.subs, ← hT, hsub]⟩

omit h in
/-- The accesses issue, the issuer retires, and a cause among them is raised (R131, R132). -/
theorem issueMemory_eq (hI : s.issuer = some I) :
    let m := F.made s I (F.accesses s I).length
    let t := m.1.setSub I.t I.u ((I.sub.logAccesses (s.window I) i s.nextId 0 [] m.2).retire .other)
    issueMemory s I (s.window I) i F.spad F.kind (F.accesses s I) =
      .next ((if acquires i && m.2.any Access.isDone then t.l1Clear I.t else t).raiseFaults I.t I.u s.nextId) := by
  intro m t
  have hm : issueAll { s with nextId := s.nextId + 1 } I s.nextId F.spad F.kind (F.accesses s I) = m := by
    simp only [m, MemForm.made, List.take_length]
  unfold issueMemory
  have there : kget (m.1.tile I.t).subs I.u = some I.sub := (made_issuer hI _).2
  simp only [State.fresh, hm, there, t]

end Memory

/-- Settles O15. -/
theorem memoryIssues : Obligations.MemoryIssues := by
  refine ⟨fun i F s I hF h free => ⟨fun none_ => ?idle, fun lanes goes => ?goes⟩, fun i F s I hF h lanes stays => ?waits⟩
  case idle => exact (memory_cases hF h).trans (if_pos none_)
  case goes =>
    obtain ⟨t, ht⟩ := issueMemory_next (i := i) (F := F) (s := s) (I := I) (s.window I) (F.accesses s I)
    exact ⟨t, (memory_free hF h free lanes goes).trans ht, ht⟩
  case waits =>
    exact (memory_cases hF h).trans ((if_neg lanes).trans ((if_pos (eq_true_of_ne_false (mt waits_iff.1 stays))).trans (wait_eq h.issuer)))

/-- What an instruction does whose accesses are all done at once. -/
theorem issueMemory_done {i : Instr} {F : MemForm} {s : State} {I : Issuer} (h : memForm i = some F) (hI : s.issuer = some I)
    (some_access : F.accesses s I ≠ []) (empty : ∀ x ∈ I.sub.slices, x.2.log = []) :
    let m := F.made s I (F.accesses s I).length
    (∀ a ∈ m.2, a.st = .done) →
    let t := m.1.setSub I.t I.u ((F.putAll (s.window I) m.2 I.sub).retire .other)
    issueMemory s I (s.window I) i F.spad F.kind (F.accesses s I) = .next (if acquires i then t.l1Clear I.t else t) := by
  intro m done t
  have some_done : m.2.any Access.isDone = true := by
    have lanes := congrArg List.length (issueAll_lane { s with nextId := s.nextId + 1 } I s.nextId F.spad F.kind
      ((F.accesses s I).take (F.accesses s I).length))
    rw [List.take_length, List.length_map, List.length_map] at lanes
    obtain ⟨a, ha⟩ := List.exists_mem_of_length_pos (l := m.2) (by
      simp only [m, MemForm.made, List.take_length, lanes]; exact List.length_pos_iff.2 some_access)
    exact List.any_eq_true.2 ⟨a, ha, by simp [Access.isDone, done a ha]⟩
  have there : kget (t.tile I.t).subs I.u = some ((F.putAll (s.window I) m.2 I.sub).retire .other) := by
    rw [State.tile_setSub_same, Tile.setSub_subs, kget_kset_same]
  rw [issueMemory_eq hI, logAccesses_done h empty done, some_done, Bool.and_true]
  refine congrArg _ (raiseFaults_none _ _ _ _ _ ?_ (putAll_faults (F := F) (W := s.window I) (as := m.2) empty))
  split
  · exact (congrArg (kget · I.u) (State.l1Drop_subs t I.t _ I.t).subs).trans there
  · exact there

/-- Settles O16. -/
theorem memoryResult : Obligations.MemoryResult := by
  unfold Obligations.MemoryResult
  intro i F s I hF h free lanes goes empty m done t
  rw [memory_free hF h free lanes goes]
  exact issueMemory_done hF h.issuer (mt List.map_eq_nil_iff.1 lanes) empty done

/-! ### The frame of memory (R285 to R292) -/

/-- The accesses of an instruction, whose issuer's traps find their handler, store to their own bytes only. -/
theorem issueMemory_mem {i : Instr} {F : MemForm} {s t : State} {I : Issuer} {x : Nat} (hI : s.issuer = some I)
    (out : I.sub.inh = false) (handled : I.block.rcd.handler ≠ 0)
    (away : ∀ k a, (F.accesses s I)[k]? = some a → ∀ pa, F.storesAt (F.made s I k).1 I a = some pa → x < pa ∨ pa + F.kind.size ≤ x)
    (he : issueMemory s I (s.window I) i F.spad F.kind (F.accesses s I) = .next t) : cellGet t.mem x = cellGet s.mem x := by
  let m := F.made s I (F.accesses s I).length
  let U := (I.sub.logAccesses (s.window I) i s.nextId 0 [] m.2).retire .other
  obtain ⟨hT, -, hgang, hblock, -⟩ := issuer_sub hI
  have same : (s.tile I.t).Same (m.1.tile I.t) := (made_issuer hI _).1
  obtain ⟨G, B, hG, hB, hrcd⟩ := same.found (hT ▸ hgang) (hT ▸ hblock)
  have cleared : ∀ c : Bool, let t := m.1.setSub I.t I.u U
      ((t.tile I.t).Same ((if c then t.l1Clear I.t else t).tile I.t)) ∧ (if c then t.l1Clear I.t else t).mem = m.1.mem := by
    rintro (_ | _)
    · exact ⟨.refl _, rfl⟩
    · exact ⟨State.l1Drop_subs _ _ _ _, State.l1Clear_mem ..⟩
  obtain ⟨same', mem'⟩ := cleared (acquires i && m.2.any Access.isDone)
  rw [State.tile_setSub_same] at same'
  obtain ⟨G', B', hG', hB', hrcd'⟩ := same'.found (g := U.gang) hG hB
  have hU : U.inh = false := (logAccesses_inh ..).trans out
  rw [issueMemory_eq hI] at he
  cases he
  rw [← made_mem F s I x away _ (Nat.le_refl _)]
  exact congrArg (cellGet · x) ((raiseFaults_mem (U := U) _ (same'.subs ▸ kget_kset_same ..) hG' hB' hU
    (hrcd' ▸ hrcd ▸ handled)).trans mem')

/-- Settles O17. -/
theorem memoryFrame : Obligations.MemoryFrame := by
  unfold Obligations.MemoryFrame
  intro i F s t I x hF hI free out handled he away
  rw [mem_exec hF] at he
  refine withOperands_mem hI out handled (fun run => ?_) he
  simp only [(mem_form hF).2] at run
  obtain idle | waits | leaves | goes := ite3 run
  · cases idle; rfl
  · rw [wait_eq hI] at waits; cases waits; rfl
  · rw [free.again] at leaves
    exact issueMemory_mem hI out handled away leaves
  · exact issueMemory_mem hI out handled away goes

end Sys2Proof.Machine
end

section
/-!
The checks of an access, first to last, and the operations of the atomics (08_memory_translation.md R128;
17_memory_instructions.md R290).
-/
namespace Sys2Proof.Machine

/-- What is checked once an address is translated, its security found. -/
theorem check_translated {s : State} {t vf : Nat} {world : Bool} {va : Word} {need : Need} {n : Nat} {e : TlbEntry} {sec : Option Byte}
    (h : lookup s t vf va = .ok e)
    (hs : (let fa := e.out + (va.toNat - e.va); if fa / 2 ^ 42 = s.node then security s world (fa % 2 ^ 42) else none) = sec) :
    check s t vf world va need n = match (generalizing := false) sec with
      | some c => .error ⟨18, c, va⟩
      | none => if e.permits need then
          if va.toNat % n = 0 then .ok (e.out + (va.toNat - e.va), e) else .error ⟨5, BitVec.ofNat 8 n.log2, va⟩
        else .error ⟨4, need.code, va⟩ := by
  unfold check
  subst hs
  rw [h] <;> rfl

/-- Settles O22. -/
theorem accessChecks : Obligations.AccessChecks := by
  unfold Obligations.AccessChecks
  intro s t vf world va need n e h fa sec
  refine ⟨fun c hc => check_translated h hc, fun hs hp => ?_, fun hs hp ha => ?_, fun hs hp ha => ?_⟩
  · exact (check_translated h hs).trans (if_neg (by simp [hp]))
  · exact (check_translated h hs).trans ((if_pos hp).trans (if_neg ha))
  · exact (check_translated h hs).trans ((if_pos hp).trans (if_pos ha))

/-- The integer that a word of w bits holds. -/
def wordInt (w v : Nat) : Int := if v < 2 ^ (w - 1) then (v : Int) else (v : Int) - 2 ^ w

theorem wordInt_inj {w x y : Nat} (hx : x < 2 ^ w) (hy : y < 2 ^ w) (h : wordInt w x = wordInt w y) : x = y := by
  have cx : ((2 ^ w : Nat) : Int) = 2 ^ w := by norm_cast
  unfold wordInt at h
  split at h <;> split at h <;> omega

/-- Settles O23. -/
theorem atomicOperations : Obligations.AtomicOperations := by
  unfold Obligations.AtomicOperations
  intro w x y z _ hx hy _ int
  refine ⟨rfl, fun _ => rfl, ?smin, ?smax, rfl, rfl, rfl, rfl, rfl, rfl, rfl⟩
  case smin =>
    change (if wordInt w y < wordInt w x then y else x) = if wordInt w x ≤ wordInt w y then x else y
    split <;> split <;> first | rfl | omega
  case smax =>
    change (if wordInt w x < wordInt w y then y else x) = if wordInt w x ≤ wordInt w y then y else x
    by_cases h : wordInt w x = wordInt w y
    · rw [wordInt_inj hx hy h, ite_self, ite_self]
    · rw [ite_iff_congr (show wordInt w x < wordInt w y ↔ wordInt w x ≤ wordInt w y by omega) rfl rfl]

end Sys2Proof.Machine
end

section
/-!
Global accesses one by one (R119, R123, R124, R133, R145, R146): at the issuing tile's own die, at another die, held in a
gang's share; and accesses to a scratchpad.
-/
namespace Sys2Proof.Machine

/-- An access sends a request, and takes the answer it may have at once. -/
def State.ask (s : State) (I : Issuer) (seq fa : Nat) (b : Body) (a : Access) : State × Access :=
  match s.requestTo I.t I.block.vf I.block.world seq a.lane fa b with
  | (s, .answered r) => (s.takeAnswer r, a.answer r)
  | (s, .onWay) => (s, { a with st := .pending })

theorem State.ask_mem_of {s s' : State} {I : Issuer} {seq fa : Nat} {b : Body} {a : Access} {r : Resp}
    (h : s.requestTo I.t I.block.vf I.block.world seq a.lane fa b = (s', .answered r)) :
    s.ask I seq fa b a = (s'.takeAnswer r, a.answer r) := by
  unfold State.ask; rw [h]

theorem State.ask_onWay {s s' : State} {I : Issuer} {seq fa : Nat} {b : Body} {a : Access}
    (h : s.requestTo I.t I.block.vf I.block.world seq a.lane fa b = (s', .onWay)) :
    s.ask I seq fa b a = (s', { a with st := .pending }) := by
  unfold State.ask; rw [h]

/-- A load with no line in L1 asks its home. -/
theorem issueGlobal_load_ask {s : State} {I : Issuer} {seq n fa : Nat} {o : MOrd} {a : Access}
    (hl : l1Line s I.t (fa % 2 ^ 42) o = none) : ∃ line, issueGlobal s I seq (.load n o) a fa =
      s.ask I seq fa (.read (fa % 2 ^ 42) n line)
        { a with data := (heldOver (heldOf s I) fa n).1, mask := (heldOver (heldOf s I) fa n).2 } := by
  unfold issueGlobal
  dsimp only
  cases o with
  | plain => rw [show kget (s.tile I.t).l1 (lineOf (fa % 2 ^ 42)) = none from hl, ite_self]; exact ⟨_, rfl⟩
  | stm => rw [show kget (s.tile I.t).l1 (lineOf (fa % 2 ^ 42)) = none from hl, ite_self]; exact ⟨_, rfl⟩
  | vol => exact ⟨_, rfl⟩
  | sync c => exact ⟨_, rfl⟩

/-- A load whose line stands in L1 is done with its bytes. -/
theorem issueGlobal_hit {s : State} {I : Issuer} {seq n fa : Nat} {o : MOrd} {a : Access} {bs : List Byte} (hn : fa / 2 ^ 42 = s.node)
    (hd : fa % 2 ^ 42 < 2 ^ 40) (hl : l1Line s I.t (fa % 2 ^ 42) o = some bs) :
    issueGlobal s I seq (.load n o) a fa =
      (s, { a with
        st := .done
        data := overlayBytes (heldOver (heldOf s I) fa n).2 (heldOver (heldOf s I) fa n).1
          (dataOf ((bs.drop (fa % 2 ^ 42 % 128)).take n))
        mask := (heldOver (heldOf s I) fa n).2 }) := by
  obtain ⟨_, e⟩ := issueGlobal_load (seq := seq) (n := n) (o := o) (a := a) (I := I) hn hd
  refine e.trans ?_
  dsimp only
  rw [hl]

theorem noneHeld.holding {s : State} {I : Issuer} (h : noneHeld s I) :
    (match kget (s.tile I.t).gangs I.sub.gang with | some G => G.retry.holding | none => false) = false := by
  cases e : kget (s.tile I.t).gangs I.sub.gang with
  | none => rfl
  | some G => exact (h G e).1

theorem issueGlobal_store {s : State} {I : Issuer} {seq n fa : Nat} {a : Access} (h : noneHeld s I) :
    ∃ p, issueGlobal s I seq (.store n) a fa = (s.l1Drop I.t p).ask I seq fa (.write (fa % 2 ^ 42) (natLe n a.data.toNat)) a := by
  refine ⟨_, Eq.trans (if_neg ?_) rfl⟩
  exact Bool.eq_false_iff.1 h.holding

theorem issueGlobal_atomic {s : State} {I : Issuer} {seq op w fa : Nat} {a : Access} :
    ∃ p, issueGlobal s I seq (.atomic op w) a fa =
      (s.l1Drop I.t p).ask I seq fa (.atomic (fa % 2 ^ 42) op w (a.data.setWidth 64) (a.data.extractLsb' 64 64)) a :=
  ⟨_, rfl⟩

theorem noneHeld.fillTlb {s : State} {I : Issuer} (h : noneHeld s I) (e : TlbEntry) : noneHeld (s.fillTlb I.t e) I := by
  intro G hG
  rw [show ((s.fillTlb I.t e).tile I.t).gangs = (s.tile I.t).gangs from fillTlb_part Tile.gangs (fun _ _ => rfl) ..] at hG
  exact h G hG

theorem l1Line_fillTlb (s : State) (t pa : Nat) (o : MOrd) (e : TlbEntry) : l1Line (s.fillTlb t e) t pa o = l1Line s t pa o := by
  unfold l1Line
  rw [show ((s.fillTlb t e).tile t).l1 = (s.tile t).l1 from fillTlb_part Tile.l1 (fun _ _ => rfl) ..]

theorem spoilt_of {s s' : State} (hp : s'.poison = s.poison) (hw : s'.poisonWords = s.poisonWords) (pa n : Nat) :
    s'.spoilt pa n ↔ s.spoilt pa n := by
  unfold State.spoilt; rw [hp, hw]

theorem spoilt_fillTlb (s : State) (t pa n : Nat) (e : TlbEntry) : (s.fillTlb t e).spoilt pa n ↔ s.spoilt pa n :=
  spoilt_of (fillTlb_state State.poison (fun _ _ _ => rfl) ..) (fillTlb_state State.poisonWords (fun _ _ _ => rfl) ..) pa n

theorem spoilt_l1Drop (s : State) (t pa n : Nat) (p : Nat → Bool) : (s.l1Drop t p).spoilt pa n ↔ s.spoilt pa n :=
  spoilt_of rfl rfl pa n

theorem bytes_of_mem {s s' : State} (h : s'.mem = s.mem) (pa n : Nat) : s'.bytes pa n = s.bytes pa n := by
  unfold State.bytes; rw [h]

theorem datumByte_bytes (s : State) (pa n : Nat) (hn : n ≤ 16) {k : Nat} (hk : k < n) :
    datumByte (dataOf (s.bytes pa n)) k = cellGet s.mem (pa + k) := by
  rw [datumByte_dataOf _ (by rw [State.bytes_length]; exact hn)]
  simp [State.bytes, hk]

/-! ### Performed at the issuer's own die -/

/-- What the own die answers an access with, once its request has been performed. -/
structure Here (s : State) (I : Issuer) (fa : Nat) : Prop where
  node : fa / 2 ^ 42 = s.node
  home : homeOf (fa % 2 ^ 42) = dieOf I.t
  carry : (s.tile I.t).carry = none

theorem Near.here {s : State} {I : Issuer} {k a fa e} (h : Near s I k a fa e) : Here (s.fillTlb I.t e) I fa :=
  let ⟨hn, hh, hc⟩ := h.after
  ⟨hn, hh, hc⟩

theorem Here.l1Drop {s : State} {I : Issuer} {fa : Nat} (h : Here s I fa) (p : Nat → Bool) : Here (s.l1Drop I.t p) I fa :=
  ⟨h.node, h.home, (l1Drop_part Tile.carry (fun _ _ => rfl) ..).trans h.carry⟩

theorem Here.ask {s s' : State} {I : Issuer} {fa seq : Nat} {b : Body} {a : Access} {r : Resp} (h : Here s I fa)
    (hp : s.performHere I.t seq a.lane b = (s', [r])) : s.ask I seq fa b a = (s'.takeAnswer r, a.answer r) := by
  apply State.ask_mem_of
  rw [requestTo_here h.node h.home h.carry, hp]

theorem answer_ok {a : Access} {r : Resp} (hb : r.bad = none) (hs : r.strand = false) :
    (a.answer r).st = .done ∧ (a.answer r).data = overlayBytes a.mask a.data r.data := by
  unfold Access.answer; rw [hb, hs]; exact ⟨rfl, rfl⟩

theorem answer_bad {a : Access} {r : Resp} {g : Nat} {c : Byte} {d : Word} (hb : r.bad = some (g, c, d)) :
    (a.answer r).st = .faulted g c d := by
  unfold Access.answer; rw [hb]

/-- A read at the own die that touches a poisoned line faults. -/
theorem Here.read_poisoned {s : State} {I : Issuer} {fa seq pa n l : Nat} {line : Bool} {a : Access} (h : Here s I fa)
    (hp : s.poisonLine pa n = some l) :
    (s.ask I seq fa (.read pa n line) a).1.mem = s.mem ∧
    (s.ask I seq fa (.read pa n line) a).2.st = .faulted 15 5 (BitVec.ofNat 64 l) := by
  obtain ⟨m, e⟩ : ∃ m, s.performHere I.t seq a.lane (.read pa n line) = (s, [s.answerTo (dieOf I.t) m 0 none (some (15, 5, BitVec.ofNat 64 l))]) := by
    unfold State.performHere State.performBody
    dsimp only
    rw [hp]
    exact ⟨_, rfl⟩
  rw [h.ask e]
  exact ⟨takeAnswer_mem .., answer_bad rfl⟩

/-- Any other read answers with memory's bytes. -/
theorem Here.read {s : State} {I : Issuer} {fa seq pa n : Nat} {line : Bool} {a : Access} (h : Here s I fa)
    (hp : s.poisonLine pa n = none) :
    (s.ask I seq fa (.read pa n line) a).1.mem = s.mem ∧ (s.ask I seq fa (.read pa n line) a).2.st = .done ∧
    (s.ask I seq fa (.read pa n line) a).2.data = overlayBytes a.mask a.data (dataOf (s.bytes pa n)) := by
  obtain ⟨m, fill, e⟩ : ∃ m fill, s.performHere I.t seq a.lane (.read pa n line) = (s, [s.answerTo (dieOf I.t) m (dataOf (s.bytes pa n)) fill none]) := by
    unfold State.performHere State.performBody
    dsimp only
    rw [hp]
    exact ⟨_, _, rfl⟩
  rw [h.ask e]
  exact ⟨takeAnswer_mem .., answer_ok rfl rfl⟩

theorem Here.write {s : State} {I : Issuer} {fa seq pa : Nat} {bs : List Byte} {a : Access} (h : Here s I fa) :
    (s.ask I seq fa (.write pa bs) a).1.mem = cellsSet s.mem pa bs ∧ (s.ask I seq fa (.write pa bs) a).2.st = .done := by
  have e : s.performHere I.t seq a.lane (.write pa bs) = (_, [_]) := rfl
  rw [h.ask e]
  exact ⟨takeAnswer_mem .., (answer_ok rfl rfl).1⟩

theorem Here.atomic_poisoned {s : State} {I : Issuer} {fa seq pa op w l : Nat} {y z : Word} {a : Access} (h : Here s I fa)
    (hp : s.poisonLine pa (w / 8) = some l) :
    (s.ask I seq fa (.atomic pa op w y z) a).1.mem = s.mem ∧
    (s.ask I seq fa (.atomic pa op w y z) a).2.st = .faulted 15 5 (BitVec.ofNat 64 l) := by
  obtain ⟨m, e⟩ : ∃ m, s.performHere I.t seq a.lane (.atomic pa op w y z) = (s, [s.answerTo (dieOf I.t) m 0 none (some (15, 5, BitVec.ofNat 64 l))]) := by
    unfold State.performHere State.performBody
    dsimp only
    rw [hp]
    exact ⟨_, rfl⟩
  rw [h.ask e]
  exact ⟨takeAnswer_mem .., answer_bad rfl⟩

theorem Here.atomic {s : State} {I : Issuer} {fa seq pa op w : Nat} {y z : Word} {a : Access} (h : Here s I fa)
    (hp : s.poisonLine pa (w / 8) = none) :
    (s.ask I seq fa (.atomic pa op w y z) a).1.mem =
      cellsSet s.mem pa (natLe (w / 8) (atomicOp op w (s.le pa (w / 8)) (y.toNat % 2 ^ w) (z.toNat % 2 ^ w))) ∧
    (s.ask I seq fa (.atomic pa op w y z) a).2.st = .done ∧
    (s.ask I seq fa (.atomic pa op w y z) a).2.data = overlayBytes a.mask a.data (BitVec.ofNat 128 (s.le pa (w / 8))) := by
  obtain ⟨s', m, hs, e⟩ : ∃ s' m, s'.mem = cellsSet s.mem pa
      (natLe (w / 8) (atomicOp op w (s.le pa (w / 8)) (y.toNat % 2 ^ w) (z.toNat % 2 ^ w))) ∧
      s.performHere I.t seq a.lane (.atomic pa op w y z) =
        (s', [s'.answerTo (dieOf I.t) m (BitVec.ofNat 128 (s.le pa (w / 8))) none none]) := by
    unfold State.performHere State.performBody
    dsimp only
    rw [hp]
    exact ⟨_, _, rfl, rfl⟩
  rw [h.ask e]
  exact ⟨(takeAnswer_mem ..).trans hs, answer_ok rfl rfl⟩

theorem State.poisonLine_spoilt {s : State} {pa n : Nat} (h : s.spoilt pa n) :
    ∃ k, k < n ∧ s.spoilt (pa + k) 1 ∧ s.poisonLine pa n = some (128 * ((pa + k) / 128)) := by
  obtain ⟨k, hk, hp, e⟩ := poisonLine_some h
  exact ⟨k, hk, ⟨0, by omega, hp⟩, by rw [e, Nat.mul_comm]⟩

/-- With no byte of its own laid over it, an access takes what it reads. -/
theorem overlayBytes_zero (own mem : BitVec 128) : overlayBytes 0 own mem = mem := by
  apply BitVec.eq_of_getLsbD_eq
  intro j hj
  rw [overlay_bit _ _ _ _ hj]
  simp

theorem le_lt (s : State) (pa n : Nat) : s.le pa n < 256 ^ n := by
  have h := leNat_lt (s.bytes pa n)
  rwa [State.bytes_length] at h

theorem ownLoad {s : State} {I : Issuer} {seq n fa : Nat} {o : MOrd} {a : Access} {e : TlbEntry}
    (h : Near s I (.load n o) a fa e) (hn : n ≤ 16) :
    let pa := fa % 2 ^ 42
    let r := issueAccess s I seq false (.load n o) a
    r.1.mem = s.mem ∧
    (∀ bs, l1Line s I.t pa o = some bs → pa % 128 + n ≤ bs.length → r.2.st = .done ∧
      ∀ k, k < n → datumByte r.2.data k = (heldByte (heldOf s I) (fa + k)).getD (bs.getD (pa % 128 + k) 0)) ∧
    (l1Line s I.t pa o = none → ¬ s.spoilt pa n → r.2.st = .done ∧
      ∀ k, k < n → datumByte r.2.data k = (heldByte (heldOf s I) (fa + k)).getD (cellGet s.mem (pa + k))) ∧
    (l1Line s I.t pa o = none → s.spoilt pa n → ∃ k, k < n ∧ s.spoilt (pa + k) 1 ∧
      r.2.st = .faulted 15 5 (BitVec.ofNat 64 (128 * ((pa + k) / 128)))) := by
  intro pa r
  have hm : (s.fillTlb I.t e).mem = s.mem := fillTlb_mem ..
  have hg : r = issueGlobal (s.fillTlb I.t e) I seq (.load n o) a fa := issue_global h.checked
  have hL : l1Line (s.fillTlb I.t e) I.t pa o = l1Line s I.t pa o := l1Line_fillTlb ..
  have hH : heldOf (s.fillTlb I.t e) I = heldOf s I := heldOf_fillTlb ..
  clear_value r
  cases hl : l1Line s I.t pa o with
  | some bs =>
    have e1 := issueGlobal_hit (seq := seq) (n := n) (a := a) (I := I) h.after.1 h.dram (hL.trans hl)
    rw [hH] at e1
    rw [hg, e1]
    refine ⟨hm, fun bs' hb hlen => ⟨rfl, fun k hk => ?_⟩, (by rintro ⟨⟩), (by rintro ⟨⟩)⟩
    cases hb
    have e2 : datumByte (dataOf ((bs.drop (pa % 128)).take n)) k = bs.getD (pa % 128 + k) 0 := by
      rw [datumByte_dataOf _ (by simp; omega)]
      simp [hk, List.getElem?_drop]
    exact (overlay_held hn _ k hk).trans (congrArg _ e2)
  | none =>
    obtain ⟨line, e1⟩ := issueGlobal_load_ask (seq := seq) (n := n) (a := a) (I := I) (hL.trans hl)
    rw [hH] at e1
    rw [hg, e1]
    by_cases hp : s.spoilt pa n
    · obtain ⟨k, hk, hs, ep⟩ := State.poisonLine_spoilt ((spoilt_fillTlb s I.t pa n e).2 hp)
      obtain ⟨r1, r2⟩ := h.here.read_poisoned (seq := seq) (line := line)
        (a := { a with data := (heldOver (heldOf s I) fa n).1, mask := (heldOver (heldOf s I) fa n).2 }) ep
      exact ⟨r1.trans hm, (by rintro _ ⟨⟩), fun _ c => absurd hp c,
        fun _ _ => ⟨k, hk, (spoilt_fillTlb s I.t _ 1 e).1 hs, r2⟩⟩
    · obtain ⟨r1, r2, r3⟩ := h.here.read (seq := seq) (line := line)
        (a := { a with data := (heldOver (heldOf s I) fa n).1, mask := (heldOver (heldOf s I) fa n).2 })
        (poisonLine_none (mt (spoilt_fillTlb s I.t pa n e).1 hp))
      refine ⟨r1.trans hm, (by rintro _ ⟨⟩), fun _ _ => ⟨r2, fun k hk => ?_⟩, fun _ c => absurd c hp⟩
      rw [r3, ← hm, ← datumByte_bytes _ pa n hn hk]
      exact overlay_held hn _ k hk

theorem ownStore {s : State} {I : Issuer} {seq n fa : Nat} {a : Access} {e : TlbEntry} (h : Near s I (.store n) a fa e)
    (hh : noneHeld s I) :
    let pa := fa % 2 ^ 42
    let r := issueAccess s I seq false (.store n) a
    r.2.st = .done ∧
      ∀ x, cellGet r.1.mem x = if pa ≤ x ∧ x < pa + n then datumByte a.data (x - pa) else cellGet s.mem x := by
  intro pa r
  obtain ⟨p, e1⟩ := issueGlobal_store (seq := seq) (n := n) (fa := fa) (a := a) (hh.fillTlb e)
  have hr : r = _ := (issue_global h.checked).trans e1
  obtain ⟨r1, r2⟩ := (h.here.l1Drop p).write (seq := seq) (pa := pa) (bs := natLe n a.data.toNat) (a := a)
  rw [hr]
  refine ⟨r2, fun x => ?_⟩
  have hm : ((s.fillTlb I.t e).l1Drop I.t p).mem = s.mem := (State.l1Drop_mem ..).trans (fillTlb_mem ..)
  rw [r1, cellGet_cellsSet, natLe_length, hm]
  by_cases c : pa ≤ x ∧ x < pa + n
  · rw [if_pos c, if_pos c, natLe_byte _ _ _ (by omega)]
  · rw [if_neg c, if_neg c]

theorem ownAtomic {s : State} {I : Issuer} {seq op w fa : Nat} {a : Access} {e : TlbEntry} (h : Near s I (.atomic op w) a fa e)
    (hm : a.mask = 0) (hw : w = 32 ∨ w = 64) :
    let pa := fa % 2 ^ 42
    let r := issueAccess s I seq false (.atomic op w) a
    let old := leNat (s.bytes pa (w / 8))
    let new := atomicOp op w old (a.data.toNat % 2 ^ w) (a.data.toNat / 2 ^ 64 % 2 ^ w)
    (¬ s.spoilt pa (w / 8) → r.2.st = .done ∧ r.2.data.toNat = old ∧
      ∀ x, cellGet r.1.mem x = if pa ≤ x ∧ x < pa + w / 8 then BitVec.ofNat 8 (new / 256 ^ (x - pa)) else cellGet s.mem x) ∧
    (s.spoilt pa (w / 8) → r.1.mem = s.mem ∧ ∃ k, k < w / 8 ∧ s.spoilt (pa + k) 1 ∧
      r.2.st = .faulted 15 5 (BitVec.ofNat 64 (128 * ((pa + k) / 128)))) := by
  intro pa r old new
  obtain ⟨p, e1⟩ := issueGlobal_atomic (s := s.fillTlb I.t e) (I := I) (seq := seq) (op := op) (w := w) (fa := fa) (a := a)
  have hr : r = _ := (issue_global h.checked).trans e1
  have hmem : ((s.fillTlb I.t e).l1Drop I.t p).mem = s.mem := (State.l1Drop_mem ..).trans (fillTlb_mem ..)
  have hsp := (spoilt_l1Drop (s.fillTlb I.t e) I.t pa (w / 8) p).trans (spoilt_fillTlb s I.t pa (w / 8) e)
  rw [hr]
  constructor
  · intro hp
    obtain ⟨r1, r2, r3⟩ := (h.here.l1Drop p).atomic (seq := seq) (op := op) (a := a) (y := a.data.setWidth 64)
      (z := a.data.extractLsb' 64 64) (poisonLine_none (mt hsp.1 hp))
    have hle : ((s.fillTlb I.t e).l1Drop I.t p).le pa (w / 8) = old := congrArg leNat (bytes_of_mem hmem ..)
    have hy : (a.data.setWidth 64).toNat % 2 ^ w = a.data.toNat % 2 ^ w := by
      rw [BitVec.toNat_setWidth]
      rcases hw with rfl | rfl <;> omega
    have hz : (a.data.extractLsb' 64 64).toNat % 2 ^ w = a.data.toNat / 2 ^ 64 % 2 ^ w := by
      rw [BitVec.extractLsb'_toNat, Nat.shiftRight_eq_div_pow]
      rcases hw with rfl | rfl <;> omega
    refine ⟨r2, ?_, fun x => ?_⟩
    · have hlt : old < 256 ^ (w / 8) := le_lt s pa (w / 8)
      rw [r3, hm, overlayBytes_zero, hle, BitVec.toNat_ofNat, Nat.mod_eq_of_lt]
      rcases hw with rfl | rfl <;> omega
    · rw [r1, cellGet_cellsSet, natLe_length, hmem, hle, hy, hz]
      by_cases c : pa ≤ x ∧ x < pa + w / 8
      · rw [if_pos c, if_pos c, natLe_getD _ _ _ (by omega)]
      · rw [if_neg c, if_neg c]
  · intro hp
    obtain ⟨k, hk, hs, ep⟩ := State.poisonLine_spoilt (hsp.2 hp)
    obtain ⟨r1, r2⟩ := (h.here.l1Drop p).atomic_poisoned (seq := seq) (op := op) (a := a) (y := a.data.setWidth 64)
      (z := a.data.extractLsb' 64 64) ep
    exact ⟨r1.trans hmem, k, hk, (spoilt_fillTlb s I.t _ 1 e).1 ((spoilt_l1Drop _ I.t _ 1 p).1 hs), r2⟩

/-- Settles O18. -/
theorem ownAccess : Obligations.OwnAccess :=
  ⟨fun _ _ _ _ _ _ _ _ h hn => ownLoad h hn, fun _ _ _ _ _ _ _ h hh => ownStore h hh,
    fun _ _ _ _ _ _ _ _ h hm hw => ownAtomic h hm hw⟩

/-! ### Held in the gang's share (R133) -/

/-- A store of a gang that holds its writes joins the gang's share. -/
theorem issueGlobal_held {s : State} {I : Issuer} {G : Gang} {seq n fa : Nat} {a : Access}
    (hg : kget (s.tile I.t).gangs I.sub.gang = some G) (hh : G.retry.holding = true) :
    ∃ p, issueGlobal s I seq (.store n) a fa = ((s.l1Drop I.t p).setRetry I.t I.sub.gang fun r =>
      { r with held := r.held ++ [.store a.lane a.addr fa (natLe n a.data.toNat)] }, { a with st := .done }) := by
  refine ⟨_, Eq.trans (if_pos ?_) rfl⟩
  rw [hg]
  exact hh

theorem setRetry_of {s : State} {t g : Nat} {G : Gang} (h : kget (s.tile t).gangs g = some G) (f : Retry → Retry) :
    s.setRetry t g f = s.setGang t g { G with retry := f G.retry } := by
  unfold State.setRetry; rw [h]

theorem heldOf_setRetry {s : State} {I : Issuer} {G : Gang} (h : kget (s.tile I.t).gangs I.sub.gang = some G) (f : Retry → Retry) :
    heldOf (s.setRetry I.t I.sub.gang f) I = (f G.retry).held := by
  have hk : kget ((s.setRetry I.t I.sub.gang f).tile I.t).gangs I.sub.gang = some { G with retry := f G.retry } := by
    rw [setRetry_of h]; simp [State.setGang]
  unfold heldOf; rw [hk]

/-- Settles O19. -/
theorem heldStore : Obligations.HeldStore := by
  intro s I G seq n fa a e hc hg hh r
  have hg2 : kget ((s.fillTlb I.t e).tile I.t).gangs I.sub.gang = some G := by
    rw [show ((s.fillTlb I.t e).tile I.t).gangs = (s.tile I.t).gangs from fillTlb_part Tile.gangs (fun _ _ => rfl) ..]
    exact hg
  obtain ⟨p, e1⟩ := issueGlobal_held (seq := seq) (n := n) (fa := fa) (a := a) hg2 hh
  have hg3 : kget (((s.fillTlb I.t e).l1Drop I.t p).tile I.t).gangs I.sub.gang = some G := by
    rw [show (((s.fillTlb I.t e).l1Drop I.t p).tile I.t).gangs = _ from l1Drop_part Tile.gangs (fun _ _ => rfl) ..]
    exact hg2
  have hr : r = _ := (issue_global hc).trans e1
  have hw : ((s.fillTlb I.t e).l1Drop I.t p).wire.length = s.wire.length :=
    (List.length_map _).trans (congrArg List.length (fillTlb_state State.wire (fun _ _ _ => rfl) s I.t e))
  have ho : ((s.fillTlb I.t e).l1Drop I.t p).outs = s.outs := fillTlb_state State.outs (fun _ _ _ => rfl) s I.t e
  have hm : ((s.fillTlb I.t e).l1Drop I.t p).mem = s.mem := (State.l1Drop_mem ..).trans (fillTlb_mem ..)
  rw [hr]
  refine ⟨rfl, (setRetry_mem ..).trans hm, ?_, ?_, natLe n a.data.toNat, natLe_length .., fun k hk => natLe_byte _ _ _ hk,
    heldOf_setRetry hg3 _⟩
  · rw [setRetry_of hg3]; exact hw
  · rw [setRetry_of hg3]; exact ho

/-! ### At another die (R145, R146) -/

/-- s' differs from s in nothing that decides how a message of a die leaves. -/
structure State.SendsAs (s' s : State) : Prop where
  mem : s'.mem = s.mem
  node : s'.node = s.node
  boundaries : s'.boundaries = s.boundaries
  wire : s'.wire.length = s.wire.length
  vec : ∀ d, (s'.die d).vec = (s.die d).vec
  applied : ∀ d, (s'.die d).applied = (s.die d).applied
  outq : ∀ d, (s'.die d).outq.length = (s.die d).outq.length

theorem State.SendsAs.of_fillTlb (s : State) (t : Nat) (e : TlbEntry) : (s.fillTlb t e).SendsAs s := by
  have hd : (s.fillTlb t e).dies = s.dies := fillTlb_state State.dies (fun _ _ _ => rfl) s t e
  have hk : ∀ d, (s.fillTlb t e).die d = s.die d := fun d => by simp only [State.die, hd]
  exact ⟨fillTlb_mem .., fillTlb_state State.node (fun _ _ _ => rfl) s t e, fillTlb_state State.boundaries (fun _ _ _ => rfl) s t e,
    congrArg List.length (fillTlb_state State.wire (fun _ _ _ => rfl) s t e), fun d => by rw [hk], fun d => by rw [hk],
    fun d => by rw [hk]⟩

theorem l1Drop_die {α : Type} (f : Die → α) (h : ∀ (D : Die) (g : Msg → Msg), f { D with inbox := D.inbox.map g, outq := D.outq.map g } = f D)
    (s : State) (t : Nat) (p : Nat → Bool) (d : Nat) : f ((s.l1Drop t p).die d) = f (s.die d) := by
  unfold State.l1Drop cancelFills State.die kgetD
  dsimp only
  rw [kget_kmap, State.setTile_dies]
  cases kget s.dies d with
  | none => rfl
  | some D => exact h D _

theorem State.SendsAs.l1Drop {s' s : State} (h : s'.SendsAs s) (t : Nat) (p : Nat → Bool) : (s'.l1Drop t p).SendsAs s :=
  ⟨(State.l1Drop_mem ..).trans h.mem, h.node, h.boundaries, (List.length_map _).trans h.wire,
    fun d => (l1Drop_die Die.vec (fun _ _ => rfl) ..).trans (h.vec d),
    fun d => (l1Drop_die Die.applied (fun _ _ => rfl) ..).trans (h.applied d),
    fun d => (l1Drop_die (fun D => D.outq.length) (fun _ _ => List.length_map _) ..).trans (h.outq d)⟩

theorem State.SendsAs.boundary {s' s : State} (h : s'.SendsAs s) (b : Nat) : s'.boundary b = s.boundary b := by
  unfold State.boundary; rw [h.boundaries]

theorem State.SendsAs.diePath {s' s : State} (h : s'.SendsAs s) (x y : Nat) : s'.diePath x y = s.diePath x y := by
  unfold State.diePath State.boundaryState
  simp only [h.boundary]

theorem State.SendsAs.cutOffDies {s' s : State} (h : s'.SendsAs s) (x y : Nat) : s'.cutOffDies x y = s.cutOffDies x y := by
  unfold State.cutOffDies; rw [h.diePath]

theorem State.SendsAs.firstEnd {s' s : State} (h : s'.SendsAs s) (x y : Nat) : s'.firstEnd x y = s.firstEnd x y := by
  unfold State.firstEnd; rw [h.diePath]

theorem State.SendsAs.writeStalled {s' s : State} (h : s'.SendsAs s) (d : Nat) : s'.writeStalled d = s.writeStalled d := by
  unfold State.writeStalled; simp only [h.vec, h.applied]

/-- A message of at most 88 bytes takes one flit. -/
theorem Msg.flits_le {m : Msg} (h : m.packet.length ≤ 120) : m.flits ≤ 1 := by
  unfold Msg.flits; omega

/-- Bodies that fit one flit: what an access asks for. -/
def Body.small (b : Body) : Prop :=
  (∀ v, b ≠ .announce v) ∧ ∀ m : Msg, m.body = b → m.packet.length ≤ 120

theorem Msg.name_length (m : Msg) : m.name.length = 12 := by
  simp [Msg.name, natLe_length]

theorem Body.small_read (pa n : Nat) (line : Bool) : (Body.read pa n line).small :=
  ⟨fun _ => nofun, fun m h => by simp [Msg.packet, h, Msg.name_length]⟩

theorem Body.small_write (pa : Nat) (bs : List Byte) (h : bs.length ≤ 16) : (Body.write pa bs).small :=
  ⟨fun _ => nofun, fun m e => by simp [Msg.packet, e, Msg.name_length]; omega⟩

theorem Body.small_atomic (pa op w : Nat) (y z : Word) : (Body.atomic pa op w y z).small :=
  ⟨fun _ => nofun, fun m h => by simp [Msg.packet, h, Msg.name_length]⟩

/-- The room of the obligation: the first boundary of the path keeps fewer than 512 flits. -/
def State.roomTo (s : State) (d dst : Nat) : Prop := ∀ b, s.firstEnd d dst = some b → (s.boundary b).kept.length < 512

theorem State.SendsAs.mayLeave {s' s : State} (h : s'.SendsAs s) {d dst : Nat} {b : Body} (hb : b.small) (room : s.roomTo d dst)
    (hw : b.writes = true → s.writeStalled d = false) (m : Msg) (hs : m.src = d) (ht : m.dst = dst) (hm : m.body = b) :
    s'.mayLeave m = true := by
  unfold State.mayLeave
  rw [hm, hs, ht, h.writeStalled, h.firstEnd]
  have hf := Msg.flits_le (hb.2 m hm)
  have hst : (!(b.writes && s.writeStalled d)) = true := by
    cases hbw : b.writes with
    | false => rfl
    | true => rw [hw hbw]; rfl
  rw [hst, Bool.true_and]
  cases he : s.firstEnd d dst with
  | none => rfl
  | some x =>
    have := room x he
    simp only [h.boundary, decide_eq_true_eq]
    omega

/-- A request to another die of the package: it leaves at once, or waits behind the messages before it. -/
theorem State.SendsAs.ask_far {s' s : State} (h : s'.SendsAs s) {I : Issuer} {seq fa : Nat} {b : Body} {a : Access}
    (hn : fa / 2 ^ 42 = s.node) (hf : homeOf (fa % 2 ^ 42) ≠ dieOf I.t) (hc : s.cutOffDies (dieOf I.t) (homeOf (fa % 2 ^ 42)) = false)
    (hl : (s.die (dieOf I.t)).vec.length = 5) (hd : dieOf I.t < 5) (hb : b.small) :
    let d := dieOf I.t
    let dst := homeOf (fa % 2 ^ 42)
    let r := s'.ask I seq fa b a
    r.2.st = .pending ∧ r.1.mem = s.mem ∧
    ((s.die d).outq = [] → s.roomTo d dst → (b.writes = true → s.writeStalled d = false) →
      ∃ m, r.1.wire.length = s.wire.length + 1 ∧ r.1.wire.getLast? = some m ∧ m.src = d ∧ m.dst = dst ∧ m.tile = I.t ∧
        m.seq = seq ∧ m.lane = a.lane ∧ m.body.writes = b.writes ∧
        ent (r.1.die d).vec d = ent (s.die d).vec d + (if b.writes then 1 else 0) ∧ m.own = ent (r.1.die d).vec d) ∧
    ((s.die d).outq ≠ [] →
      ∃ m, (r.1.die d).outq.length = (s.die d).outq.length + 1 ∧ (r.1.die d).outq.getLast? = some m ∧ m.src = d ∧
        m.dst = dst ∧ m.tile = I.t ∧ m.seq = seq ∧ m.lane = a.lane ∧ m.body.writes = b.writes ∧
        ent (r.1.die d).vec d = ent (s.die d).vec d ∧ r.1.wire.length = s.wire.length) := by
  intro d dst r
  have hr : r = (s'.send d dst I.t seq a.lane (s'.carried I.t) b none, { a with st := .pending }) :=
    State.ask_onWay (requestTo_far (hn.trans h.node.symm) hf ((h.cutOffDies ..).trans hc))
  have hq : ∀ x, (s'.die x).outq = [] ↔ (s.die x).outq = [] := fun x => by
    rw [← List.length_eq_zero_iff, ← List.length_eq_zero_iff, h.outq]
  rw [hr]
  refine ⟨rfl, (send_mem ..).trans h.mem, fun he room hw => ?_, fun he => ?_⟩
  · obtain ⟨_, m, h1, h2, h3, h4, h5, h6, h7, h8, h9⟩ := send_spec s' d dst I.t seq a.lane (s'.carried I.t) b (Ne.symm hf)
      (by rw [h.vec]; exact hl) hd hb.1 ((hq d).2 he) (h.mayLeave hb room hw)
    rw [h.vec] at h8
    exact ⟨m, by rw [h1, List.length_append, h.wire]; rfl, by rw [h1, List.getLast?_concat], h2, h3, h4, h5, h6, by rw [h7], h8, h9⟩
  · obtain ⟨_, h1, m, h2, h3, h4, h5, h6, h7, h8, h9⟩ := send_waits s' d dst I.t seq a.lane (s'.carried I.t) b (Ne.symm hf)
      (mt (hq d).1 he)
    exact ⟨m, by rw [h2, List.length_append, h.outq]; rfl, by rw [h2, List.getLast?_concat], h3, h4, h5, h6, h7, by rw [h8],
      by rw [h9, h.vec], by rw [h1, h.wire]⟩

/-- Settles O20. -/
theorem farAccess : Obligations.FarAccess := by
  constructor
  · intro s I seq k a c h
    show (match check s I.t I.block.vf I.block.world a.addr k.need k.size with
      | .error c => (s, { a with st := .faulted c.group c.code c.datum })
      | .ok (fa, e) => issueGlobal (s.fillTlb I.t e) I seq k a fa) = _
    rw [h]
  · intro s I seq fa k a e h hn pa d hf hc hh hl1 hl hd hk
    have hs := State.SendsAs.of_fillTlb s I.t e
    intro r writes room
    have hr : r = issueGlobal (s.fillTlb I.t e) I seq k a fa := issue_global h
    clear_value r
    cases k with
    | load n o =>
      obtain ⟨line, e1⟩ := issueGlobal_load_ask (seq := seq) (n := n) (a := a) (I := I)
        ((l1Line_fillTlb s I.t pa o e).trans (hl1 n o rfl))
      rw [hr, e1]
      exact hs.ask_far (a := { a with data := _, mask := _ }) hn hf hc hl hd (Body.small_read ..)
    | store n =>
      obtain ⟨p, e1⟩ := issueGlobal_store (seq := seq) (n := n) (fa := fa) (a := a) (hh.fillTlb e)
      rw [hr, e1]
      exact (hs.l1Drop I.t p).ask_far hn hf hc hl hd (Body.small_write _ _ (by rw [natLe_length]; exact hk))
    | atomic op w =>
      obtain ⟨p, e1⟩ := issueGlobal_atomic (s := s.fillTlb I.t e) (I := I) (seq := seq) (op := op) (w := w) (fa := fa) (a := a)
      rw [hr, e1]
      exact (hs.l1Drop I.t p).ask_far hn hf hc hl hd (Body.small_atomic ..)

end Sys2Proof.Machine
end

section
/-! Accesses to a scratchpad (R115, R119, R285). -/
namespace Sys2Proof.Machine

theorem spadRead_of {s : State} {p : SpadAt} {B : Block} (h : kget (s.tile p.t).blocks p.ctx = some B) (n : Nat) :
    s.spadRead p n = B.spadBytes p.off n := by
  unfold State.spadRead; rw [h]

theorem spadBytes_length (B : Block) (off n : Nat) : (B.spadBytes off n).length = n := by
  simp [Block.spadBytes]

theorem kget_setBlock (s : State) (t c : Nat) (B : Block) : kget ((s.setBlock t c B).tile t).blocks c = some B := by
  simp [State.setBlock, Tile.setBlock]

/-- The block after a write to its allotment, byte by byte. -/
theorem spadWrite_block {s : State} {p : SpadAt} {B : Block} (h : kget (s.tile p.t).blocks p.ctx = some B) (bs : List Byte) :
    ∃ B', kget ((s.spadWrite p bs).tile p.t).blocks p.ctx = some B' ∧
      ∀ x, B'.spadByte x = if p.off ≤ x ∧ x < p.off + bs.length then bs.getD (x - p.off) 0 else B.spadByte x := by
  unfold State.spadWrite
  rw [h]
  exact ⟨_, kget_setBlock .., Block.spadByte_setSpad B p.off bs⟩

/-- Little-endian bytes of a number, as a write of them leaves them in the allotment. -/
theorem spadWrite_natLe {s : State} {p : SpadAt} {B : Block} (h : kget (s.tile p.t).blocks p.ctx = some B) (n v : Nat) :
    ∃ B', kget ((s.spadWrite p (natLe n v)).tile p.t).blocks p.ctx = some B' ∧
      ∀ x, B'.spadByte x =
        if p.off ≤ x ∧ x < p.off + n then BitVec.ofNat 8 (v / 256 ^ (x - p.off)) else B.spadByte x := by
  obtain ⟨B', h1, h2⟩ := spadWrite_block h (natLe n v)
  refine ⟨B', h1, fun x => ?_⟩
  rw [h2, natLe_length]
  by_cases c : p.off ≤ x ∧ x < p.off + n
  · rw [if_pos c, if_pos c, natLe_getD _ _ _ (by omega)]
  · rw [if_neg c, if_neg c]

theorem dataOf_toNat_of_le {bs : List Byte} (h : bs.length ≤ 16) : (dataOf bs).toNat = leNat bs := by
  have h1 := leNat_lt bs
  have h2 : 256 ^ bs.length ≤ 256 ^ 16 := Nat.pow_le_pow_right (by omega) h
  rw [dataOf, BitVec.toNat_ofNat, Nat.mod_eq_of_lt (by omega)]

/-- The bytes an allotment holds, as those of the number they make. -/
theorem spadByte_leNat (B : Block) (off n : Nat) (hn : n ≤ 16) (x : Nat) : B.spadByte x =
    if off ≤ x ∧ x < off + n then BitVec.ofNat 8 (leNat (B.spadBytes off n) / 256 ^ (x - off)) else B.spadByte x := by
  by_cases c : off ≤ x ∧ x < off + n
  · have hl : (B.spadBytes off n).length ≤ 16 := by rw [spadBytes_length]; exact hn
    have hx : x - off < n := by omega
    have e := datumByte_dataOf _ hl (x - off)
    rw [datumByte, dataOf_toNat_of_le hl] at e
    rw [if_pos c, e]
    simp [Block.spadBytes, hx, Nat.add_sub_cancel' c.1]
  · rw [if_neg c]

/-- An access that has its place, and meets no mark, does what its kind says there. -/
theorem issueAccess_spad {s : State} {I : Issuer} {seq : Nat} {k : MemKind} {a : Access} {p : SpadAt}
    (hf : s.spadFind I (a.addr.setWidth 32) k.size = .ok (some p)) (hm : (∀ n, k ≠ .store n) → s.spadMark p k.size = none) :
    issueAccess s I seq true k a = match (generalizing := false) k with
      | .load n _ => (s, { a with st := .done, data := dataOf (s.spadRead p n) })
      | .store n => (s.spadWrite p (natLe n a.data.toNat), { a with st := .done })
      | .atomic op w =>
        (s.spadWrite p (natLe (w / 8) (atomicOp op w (leNat (s.spadRead p (w / 8))) (a.data.toNat % 2 ^ 64 % 2 ^ w)
          (a.data.toNat / 2 ^ 64 % 2 ^ w))), { a with st := .done, data := dataOf (s.spadRead p (w / 8)) }) := by
  unfold issueAccess
  dsimp only
  rw [if_pos rfl, hf]
  cases k with
  | store n => rfl
  | load n o => dsimp only; rw [if_pos rfl, hm nofun] <;> rfl
  | atomic op w => dsimp only; rw [if_pos rfl, hm nofun] <;> rfl

theorem spadAccess {s : State} {I : Issuer} {seq : Nat} {k : MemKind} {a : Access} {p : SpadAt} {B : Block}
    (hf : s.spadFind I (a.addr.setWidth 32) k.size = .ok (some p)) (hB : kget (s.tile p.t).blocks p.ctx = some B)
    (hm : (∀ n, k ≠ .store n) → s.spadMark p k.size = none) (hk : k.size ≤ 16) :
    let r := issueAccess s I seq true k a
    let old := leNat (B.spadBytes p.off k.size)
    let new := match (generalizing := false) k with
      | .load _ _ => old
      | .store _ => a.data.toNat
      | .atomic op w => atomicOp op w old (a.data.toNat % 2 ^ 64 % 2 ^ w) (a.data.toNat / 2 ^ 64 % 2 ^ w)
    r.2.st = .done ∧ r.1.mem = s.mem ∧ ((∀ n, k ≠ .store n) → r.2.data.toNat = old) ∧
    ∃ B', kget (r.1.tile p.t).blocks p.ctx = some B' ∧ ∀ x, B'.spadByte x =
      if p.off ≤ x ∧ x < p.off + k.size then BitVec.ofNat 8 (new / 256 ^ (x - p.off)) else B.spadByte x := by
  have hl : (B.spadBytes p.off k.size).length ≤ 16 := by rw [spadBytes_length]; exact hk
  have e := issueAccess_spad (seq := seq) (a := a) hf hm
  intro r old new
  have hr : r = _ := e
  rw [hr]
  cases k with
  | load n o =>
    dsimp only
    rw [spadRead_of hB]
    exact ⟨rfl, rfl, fun _ => dataOf_toNat_of_le hl, B, hB, spadByte_leNat B p.off n hk⟩
  | store n => exact ⟨rfl, spadWrite_mem .., fun h => absurd rfl (h n), spadWrite_natLe hB n _⟩
  | atomic op w =>
    dsimp only
    rw [spadRead_of hB]
    exact ⟨rfl, spadWrite_mem .., fun _ => dataOf_toNat_of_le hl, spadWrite_natLe hB (w / 8) _⟩

/-! ### Where an access goes -/

theorem setWidth64_ofNat (a : W32) : a.setWidth 64 = BitVec.ofNat 64 a.toNat :=
  BitVec.eq_of_toNat_eq (by simp)

theorem spadFind_detached {s : State} {I : Issuer} {addr : W32} {n : Nat} (hd : I.gang.detached = true) :
    s.spadFind I addr n = .error ⟨4, 6, BitVec.ofNat 64 addr.toNat⟩ := by
  rw [← setWidth64_ofNat]
  exact if_pos hd

/-- The place of an access of a block's own gang: its checks in order, as numbers. -/
theorem spadFind_own {s : State} {I : Issuer} {addr : W32} {n : Nat} (hd : I.gang.detached = false) (hp : I.block.proxy = none) :
    s.spadFind I addr n =
      if I.block.rcd.cgsize ≤ addr.toNat / 2 ^ 30 ∨ addr.toNat / 2 ^ 21 % 2 ^ 9 ≠ 0 ∨
          I.block.rcd.spad * 4096 < addr.toNat % 2 ^ 21 + n then .error ⟨4, 5, BitVec.ofNat 64 addr.toNat⟩
      else if addr.toNat % 2 ^ 21 % n ≠ 0 then .error ⟨5, BitVec.ofNat 8 n.log2, BitVec.ofNat 64 addr.toNat⟩
      else
        match I.block.peers[addr.toNat / 2 ^ 30]? with
        | none => .ok none
        | some (t, c) =>
          if 256 ≤ t ∨ (s.tile t).mode = .run then .ok (some ⟨t, c, addr.toNat % 2 ^ 21⟩) else .ok none := by
  have h1 : (addr.extractLsb' 30 2).toNat = addr.toNat / 2 ^ 30 := by
    have := addr.isLt
    rw [BitVec.extractLsb'_toNat, Nat.shiftRight_eq_div_pow]; omega
  have h2 : (addr.extractLsb' 21 9 ≠ 0#9) ↔ addr.toNat / 2 ^ 21 % 2 ^ 9 ≠ 0 := by
    rw [ne_eq, ← BitVec.toNat_inj, BitVec.extractLsb'_toNat, Nat.shiftRight_eq_div_pow]; rfl
  have h3 : (addr.setWidth 21).toNat = addr.toNat % 2 ^ 21 := BitVec.toNat_setWidth ..
  have h4 : (addr.setWidth 64 : Word) = BitVec.ofNat 64 addr.toNat := setWidth64_ofNat addr
  unfold State.spadFind State.ownerOf
  rw [hd, if_neg Bool.false_ne_true, hp]
  dsimp only
  rw [h1, h3, h4]
  simp only [h2] <;> rfl

theorem spadPlaces {s : State} {I : Issuer} {addr : W32} {n : Nat} (hd : I.gang.detached = false) (hp : I.block.proxy = none)
    (hn : n = 1 ∨ n = 2 ∨ n = 4 ∨ n = 8 ∨ n = 16) :
    let sel := addr.toNat / 2 ^ 30
    let off := addr.toNat % 2 ^ 21
    let inside := sel < I.block.rcd.cgsize ∧ addr.toNat / 2 ^ 21 % 2 ^ 9 = 0 ∧ off + n ≤ I.block.rcd.spad * 4096
    (¬ inside → s.spadFind I addr n = .error ⟨4, 5, BitVec.ofNat 64 addr.toNat⟩) ∧
    (inside → addr.toNat % n ≠ 0 → ∃ k, 2 ^ k = n ∧ s.spadFind I addr n = .error ⟨5, BitVec.ofNat 8 k, BitVec.ofNat 64 addr.toNat⟩) ∧
    (inside → addr.toNat % n = 0 → ∀ t c, I.block.peers[sel]? = some (t, c) → t < 256 → (s.tile t).mode = .run →
      s.spadFind I addr n = .ok (some ⟨t, c, off⟩)) := by
  intro sel off inside
  have e := spadFind_own (s := s) (addr := addr) (n := n) hd hp
  have hmod : addr.toNat % 2 ^ 21 % n = addr.toNat % n := by
    rcases hn with rfl | rfl | rfl | rfl | rfl <;> omega
  rw [hmod] at e
  have outside : ¬ inside ↔ I.block.rcd.cgsize ≤ sel ∨ addr.toNat / 2 ^ 21 % 2 ^ 9 ≠ 0 ∨ I.block.rcd.spad * 4096 < off + n := by
    show ¬ (_ ∧ _ ∧ _) ↔ _
    rw [Classical.not_and_iff_not_or_not, Classical.not_and_iff_not_or_not, Nat.not_lt, Nat.not_le]
  refine ⟨fun h => ?_, fun h ha => ⟨n.log2, ?_, ?_⟩, fun h ha t c hpe ht hr => ?_⟩
  · rw [e, if_pos (outside.1 h)]
  · rcases hn with rfl | rfl | rfl | rfl | rfl <;> rfl
  · rw [e, if_neg (mt outside.2 (Classical.not_not.2 h)), if_pos ha]
  · rw [e, if_neg (mt outside.2 (Classical.not_not.2 h)), if_neg (Classical.not_not.2 ha), hpe]
    exact if_pos (.inr hr)

/-- Settles O21. -/
theorem scratchAccess : Obligations.ScratchAccess :=
  ⟨fun _ _ _ _ _ _ _ hf hB hm hk => spadAccess hf hB hm hk, fun _ _ _ _ hd hp hn => spadPlaces hd hp hn,
    fun _ _ _ _ hd => spadFind_detached hd⟩

end Sys2Proof.Machine
end

section
/-! The fetch, the operand checks, and the traps the trap instructions raise (R205, R220, R221, R227, R230, R238, R366). -/
namespace Sys2Proof.Machine

/-! ### The fetch -/

section
variable {s s0 : State} {I : Issuer} {t u : Nat} (h : s.nextIssuer s0 t u) (hi : (s0.beginIssue t u).issuer = some I)
  (hu : Undisturbed (s0.beginIssue t u) I)
include h hi hu

/-- A fetch that faults is a trap of the sub-gang in place of an instruction. -/
theorem step_fetchFault {s' : State} {g : Nat} {c : Byte} {x : Word} (hf : fetch (s0.beginIssue t u) I = (s', .fault g c x)) :
    step s = .next ((takeTrap s' t u ⟨g, c, 0xFF, 0, x, false, none, I.sub.pc⟩).endIssue t u) := by
  obtain ⟨ht, hus, e⟩ := step_runs h hi hu
  have hn : fetchNext (s0.beginIssue t u) I = (s', .fault g c x) := by unfold fetchNext; rw [hf]
  rw [e, hn, ← ht, ← hus]
  rfl

/-- A word that decodes runs as its instruction. -/
theorem step_fetched {fa : Nat} {e : TlbEntry} {w : W32} {i : Instr} (hw : WordAt (s0.beginIssue t u) I fa e w)
    (hd : decode w = .ok i) :
    step s = match exec i ((s0.beginIssue t u).fetched t fa e w) with
      | .next s' => .next (s'.finishIssue t u ((s0.beginIssue t u).stageBefore t u).1 ((s0.beginIssue t u).stageBefore t u).2.1
          ((s0.beginIssue t u).stageBefore t u).2.2)
      | o => o := by
  obtain ⟨ht, _, e1⟩ := step_runs h hi hu
  have hn : fetchNext (s0.beginIssue t u) I = ((s0.beginIssue t u).fetched t fa e w, .instr i) := by
    unfold fetchNext; rw [fetch_word hw, ht]; dsimp only; rw [hd]
  rw [e1, hn]
  rfl

/-- A word that decodes to nothing traps with group 1. -/
theorem step_undecoded {fa : Nat} {e : TlbEntry} {w : W32} {c : DecErr} (hw : WordAt (s0.beginIssue t u) I fa e w)
    (hd : decode w = .error c) (hl : w.getLsbD 31 = true ∨ I.sub.actives = []) :
    step s = .next ((takeTrap ((s0.beginIssue t u).fetched t fa e w) t u
      ⟨1, groupOneCode c, 0xFF, 0, w.setWidth 64, false, none, I.sub.pc⟩).endIssue t u) := by
  obtain ⟨ht, hus, e1⟩ := step_runs h hi hu
  have hn : fetchNext (s0.beginIssue t u) I = ((s0.beginIssue t u).fetched t fa e w, .bad w (groupOneCode c)) := by
    unfold fetchNext; rw [fetch_word hw, ht]; dsimp only; rw [hd]; cases c <;> rfl
  have whole : ∀ s' x d, trapWhole s' I (laneWord w) 1 x d = trapAt s' I 1 x d := by
    intro s' x d
    unfold trapWhole laneWord
    rcases hl with hl | hl
    · rw [hl]; rfl
    · rw [hl]; exact ite_self _
  rw [e1, hn]
  unfold afterFetch
  dsimp only
  rw [whole, ← ht, ← hus]
  rfl

end

section
variable {s : State} {I : Issuer}

theorem fetch_misaligned (h : I.sub.pc.toNat % 4 ≠ 0) : fetch s I = (s, .fault 5 2 I.sub.pc) := if_pos h

variable (ha : I.sub.pc.toNat % 4 = 0)
include ha

theorem fetch_refused {c : Cause} (h : check s I.t I.block.vf I.block.world I.sub.pc .fetch 4 = .error c) :
    fetch s I = (s, .fault c.group c.code c.datum) := by
  unfold fetch
  dsimp only
  rw [if_neg (Classical.not_not.2 ha), h]

variable {fa : Nat} {e : TlbEntry} (h : check s I.t I.block.vf I.block.world I.sub.pc .fetch 4 = .ok (fa, e))
  (hm : kget (s.tile I.t).icache fa = none) (hn : fa / 2 ^ 42 = s.node)
include h hm hn

/-- A fetch that its instruction cache does not hold reads memory's line: a mark there is its trap. -/
theorem fetch_poisoned {l : Nat} (hp : s.poisonLine (fa % 2 ^ 42) 4 = some l) :
    fetch s I = (s, .fault 15 5 (BitVec.ofNat 64 l)) := by
  unfold fetch
  dsimp only
  rw [if_neg (Classical.not_not.2 ha), h]
  dsimp only
  rw [hm, if_neg (by simp [hn, -Nat.reducePow]), hp]

theorem fetch_cutOff (hp : s.poisonLine (fa % 2 ^ 42) 4 = none)
    (hc : s.cutOffDies (dieOf I.t) (homeOf (fa % 2 ^ 42)) = true) :
    fetch s I = (s, .fault 15 6 (BitVec.ofNat 64 (fa % 2 ^ 42))) := by
  unfold fetch
  dsimp only
  rw [if_neg (Classical.not_not.2 ha), h]
  dsimp only
  rw [hm, if_neg (by simp [hn, -Nat.reducePow]), hp]
  exact if_pos (by simp [hn, hc, -Nat.reducePow])

end

/-! ### The operands -/

theorem barred_of_uses {i : Instr} {us : List Use} {b : Bool} (h : usesOf i = some (us, b)) : barredInStage i = false := by
  unfold barredInStage
  split
  all_goals first | rfl | cases h

section
variable {s : State} {I : Issuer} {i : Instr} {us : List Use} {b : Bool} (h : usesOf i = some (us, b)) (hI : s.issuer = some I)
include h hI

/-- The order of the checks at issue: a restored poison, then the operand rows, then the owed registers. -/
theorem exec_operands : ∃ f, exec i s =
    if I.sub.readsBad (s.window I) (isLane i) us && !I.sub.hazard (touches us) then trapBad s I (s.window I) (isLane i) us
    else match useFault (s.window I) I.sub.depth b us with
      | some (g, c, code) =>
        trapWhole s I (isLane i) g c (if g = 16 then (s.window I).skein.getD 0 else wordDatum i code)
      | none => if I.sub.hazard (touches us) then wait s I else f := by
  obtain ⟨f, e⟩ := uses_operands h s
  refine ⟨if readsLatch us then f { s with free := s.free + 1 } I (s.window I) s.free else f s I (s.window I) 0,
    (e.trans (withIssuer_of hI _)).trans ?_⟩
  refine ite_iff_congr Iff.rfl rfl ?_
  cases useFault (s.window I) I.sub.depth b us with
  | none => rfl
  | some x => exact if_neg (by rw [barred_of_uses h]; exact fun k => Bool.false_ne_true k.2)

/-- The row that applies decides the trap. -/
theorem exec_useFault {g : Nat} {c code : Byte} (hr : I.sub.readsBad (s.window I) (isLane i) us = false)
    (hf : useFault (s.window I) I.sub.depth b us = some (g, c, code)) :
    exec i s = trapWhole s I (isLane i) g c (if g = 16 then (s.window I).skein.getD 0 else wordDatum i code) := by
  obtain ⟨f, e⟩ := exec_operands h hI
  rw [e, hr, hf]
  rfl

theorem exec_owed (hf : useFault (s.window I) I.sub.depth b us = none) (hz : I.sub.hazard (touches us) = true) : Waits s i I := by
  obtain ⟨f, e⟩ := exec_operands h hI
  rw [hf, hz, Bool.not_true, Bool.and_false] at e
  exact e.trans (wait_eq hI)

theorem exec_readsBad (hr : I.sub.readsBad (s.window I) (isLane i) us = true) (hz : I.sub.hazard (touches us) = false)
    (hl : isLane i = false) : exec i s = .next (takeTrap (s.setSub I.t I.u (I.sub.heal (s.window I) us)) I.t I.u
      ⟨15, 7, 0xFF, 0, 0, false, none, I.sub.pc⟩) := by
  obtain ⟨f, e⟩ := exec_operands h hI
  rw [hr, hz, hl] at e
  exact e

end

theorem find_none {p : Use → Bool} {us : List Use} (h : ∀ u ∈ us, p u = false) : us.find? p = none :=
  List.find?_eq_none.2 fun u hu => Bool.eq_false_iff.1 (h u hu)

/-- Settles O5. -/
theorem fetchAndOperandTraps : Obligations.FetchAndOperandTraps := by
  refine ⟨fun s s0 I t u h => ?_, fun i us b s I h hI => ?_⟩
  · intro s1 hi hu traps
    refine ⟨fun ha => step_fetchFault h hi hu (fetch_misaligned ha),
      fun c ha hc => step_fetchFault h hi hu (fetch_refused ha hc), fun fa e ha hc hm hn hs => ?_,
      fun fa e ha hc hm hn hs hcut => step_fetchFault h hi hu (fetch_cutOff ha hc hm hn (poisonLine_none hs) hcut),
      fun fa e w c hw hd hl => step_undecoded h hi hu hw hd hl⟩
    obtain ⟨k, hk, hp, ep⟩ := State.poisonLine_spoilt hs
    exact ⟨k, hk, hp, step_fetchFault h hi hu (fetch_poisoned ha hc hm hn ep)⟩
  · intro W latch beyond traps no unread
    have skein : W.skein = none → W.skein.isSome = false := fun k => by rw [k]; rfl
    have inside : (W.skein = none → no beyond) → (if W.skein.isSome then none else us.find? beyond) = none := by
      intro hb
      cases hs : W.skein with
      | none => exact find_none (hb hs)
      | some d => rfl
    refine ⟨exec_readsBad h hI, fun hr u hu => ?_, fun hr nr u hu => ?_, fun hr nr nl hs u hu => ?_, fun hr nr nl nb u hu => ?_,
      fun hr nr nl nb no u hu => ?_, fun hr nr nl no nc d u hs hu => ?_, fun nr nl no nc nb hz => ?_⟩
    · exact exec_useFault h hI hr (useFault_of hu rfl rfl rfl rfl)
    · exact exec_useFault h hI hr (useFault_of (find_none nr) hu rfl rfl rfl)
    · refine exec_useFault h hI hr ((useFault_of (find_none nr) (find_none nl) hu rfl rfl).trans ?_)
      dsimp only
      rw [skein hs]
      rfl
    · refine exec_useFault h hI hr ((useFault_of (find_none nr) (find_none nl) rfl hu rfl).trans ?_)
      dsimp only
      rw [inside nb]
    · refine exec_useFault h hI hr ((useFault_of (find_none nr) (find_none nl) rfl (find_none no) hu).trans ?_)
      dsimp only
      rw [inside nb]
    · have e := exec_useFault (g := 16) (c := 3) (code := u.code) h hI hr
        ((useFault_of (find_none nr) (find_none nl) hu (find_none no) (find_none nc)).trans (by
          dsimp only; rw [show W.skein.isSome = true by rw [hs]; rfl]; rfl))
      rw [if_pos rfl, show (s.window I).skein = some d from hs] at e
      exact e
    · refine exec_owed h hI ((useFault_of (find_none nr) (find_none nl) (find_none nb) (find_none no) (find_none nc)).trans ?_) hz
      dsimp only
      rw [ite_self]
      rfl

/-- Settles O4. -/
theorem stepRunsDecoded : Obligations.StepRunsDecoded :=
  fun _ _ _ _ _ _ _ _ _ h hi hu hw hd => step_fetched h hi hu hw hd

/-! ### TRAP, BRK and TRET -/

/-- Settles O25. -/
theorem trapInstructions : Obligations.TrapInstructions :=
  fun _ _ _ hI => ⟨exec_trap.trans ((issues_nil hI _).plain _), exec_brk.trans ((issues_nil hI _).plain _)⟩

theorem faults_nil {U : Sub} (h : ∀ x ∈ U.slices, ∀ e ∈ x.2.log, e.faulted = false) : U.faults = [] :=
  List.flatMap_eq_nil_iff.2 fun x hx => List.filter_eq_nil_iff.2 fun e he => Bool.eq_false_iff.1 (h x hx e he)

theorem faultedEntries_nil {U : Sub} (h : U.faults = []) : U.faultedEntries = [] := by
  unfold Sub.faultedEntries
  rw [show (U.slices.flatMap fun (_, S) => S.log.filter LogEntry.faulted) = [] from h]
  rfl

theorem enterLogTrap_none {s : State} {t u : Nat} {U : Sub} (hk : kget (s.tile t).subs u = some U) (h : U.faults = []) :
    s.enterLogTrap t u = s := by
  have ho : U.oldestFault = none := by simp [Sub.oldestFault, h]
  unfold State.enterLogTrap
  rw [hk]
  dsimp only
  rw [ho]
  exact ite_self _

/-- What a return leaves in the logs is what stood there. -/
theorem leaveHandler_faults {U : Sub} {n : Nat} {S : Slice} (hl : U.low = some (n, S)) : U.leaveHandler.faults = U.faults := by
  unfold Sub.leaveHandler
  rw [hl]
  dsimp only [Sub.faults, Sub.mapSlices, kmap]
  rw [List.flatMap_map]
  rfl

theorem leaveHandler_eq {U : Sub} {n : Nat} {S : Slice} (hl : U.low = some (n, S)) : U.leaveHandler = { U with
    slices := U.slices.map fun (n, S) => (n, S.left)
    pc := S.tepc, depth := S.svDepth, resume := U.svResume, svResume := none, stall := none, binWait := none
    bpSkip := if bits S.tcause.toNat 4 0 = 12 ∧ bits S.tcause.toNat 31 24 < 4 then some (bits S.tcause.toNat 31 24) else none } := by
  unfold Sub.leaveHandler
  rw [hl]
  rfl

theorem inh_of_low {U : Sub} {n : Nat} {S : Slice} (hl : U.low = some (n, S)) : U.inh = S.tcause.getLsbD 15 := by
  unfold Sub.inh; rw [hl]; rfl

/-- Settles O26. -/
theorem trapReturn : Obligations.TrapReturn := by
  intro s I hI
  have run := exec_tret.trans ((issues_nil hI .tret).plain _)
  refine ⟨fun h => run.trans (if_pos (by rw [h]; rfl)), fun n S hl hS hf => run.trans ?_⟩
  have hnil := faults_nil hf
  have hin : (!I.sub.inh) = false := by rw [inh_of_low hl, hS]; rfl
  dsimp only
  rw [hin, faultedEntries_nil hnil, if_neg Bool.false_ne_true]
  refine (congrArg Host.Outcome.next (enterLogTrap_none (U := I.sub.leaveHandler) ?_ ?_)).trans ?_
  · simp [State.setSub, Tile.setSub]
  · rw [leaveHandler_faults hl, hnil]
  · rw [leaveHandler_eq hl]
    rfl

/-- Settles O3. -/
theorem sampleWords : Obligations.SampleWords :=
  ⟨rfl, rfl, rfl, rfl, rfl, rfl, rfl, rfl, rfl, rfl, rfl, rfl⟩

/-- Settles O6. -/
theorem resetMemory : Obligations.ResetMemory := rfl

/-- Settles O7. -/
theorem resetValues : Obligations.ResetValues :=
  ⟨⟨rfl, rfl, rfl, rfl, rfl⟩, ⟨rfl, rfl, rfl, rfl⟩, fun _ _ => rfl, ⟨rfl, rfl, rfl, rfl, rfl, rfl, rfl⟩, fun _ => ⟨rfl, rfl, rfl⟩⟩

end Sys2Proof.Machine
end

section
/-! System registers: SRD, SWR and LQRY (R48, R99, R100, R128, R204, R219, R362 to R365). -/
namespace Sys2Proof.Machine

theorem srd_eq {d : BitVec 5} {r : SysReg} {k : BitVec 8} {s : State} {I : Issuer}
    (h : Issues s (.srd d r k) false [.out d.toNat 1] I) :
    exec (.srd d r k) s = match sysFault s I (.srd d r k) r k.toNat false with
      | some (g, c, x) => trapAt { s with free := s.free + 1 } I g c x
      | none => retire s I .other (I.sub.setS d.toNat (s.sysRead I r k.toNat)) :=
  exec_srd.trans (h.plain _)

theorem srd_step {d : BitVec 5} {r : SysReg} {k : BitVec 8} {s : State} {I : Issuer}
    (h : Issues s (.srd d r k) false [.out d.toNat 1] I) (ok : SysOk s I r k.toNat false) :
    ∃ t, exec (.srd d r k) s = .next t ∧ SliceStep s I .other (fun S => S.putDst ⟨false, d⟩ (s.sysRead I r k.toNat)) t := by
  refine ⟨_, (srd_eq h).trans ?_, rfl⟩
  rw [sysFault_ok ok]
  exact congrArg (fun U => Host.Outcome.next (s.setSub I.t I.u U)) (setS_bare ..)

/-! ### What the registers read -/

section
variable (s : State) (I : Issuer)

/-- GSTAT, field by field (R365). -/
theorem gstat_bits (G : Gang) :
    let st := (match G.retry.st with | .never => 0 | .run => 1 | .retry => 2 | .lasting => 3 | .nonretry => 4)
    let g := (gstatOf G).toNat
    bits g 2 0 = st ∧ bits g 3 3 = 0 ∧ bits g 7 4 = G.retry.attempts % 16 ∧ bits g 8 8 = 0 ∧ bits g 9 9 = bit G.isStage ∧
      bits g 10 10 = bit G.feeder ∧ bits g 11 11 = bit G.detached ∧ bits g 63 12 = 0 := by
  intro st g
  have hs : st < 8 := by
    show (match G.retry.st with | .never => 0 | .run => 1 | .retry => 2 | .lasting => 3 | .nonretry => 4) < 8
    cases G.retry.st <;> decide
  have hg : g = (bit G.detached * 2 ^ 11 + bit G.feeder * 2 ^ 10 + bit G.isStage * 2 ^ 9 + G.retry.attempts % 16 * 2 ^ 4 + st) % 2 ^ 64 := by
    rw [← ite_bit, ← ite_bit, ← ite_bit]
    exact BitVec.toNat_ofNat ..
  have h1 := bit_le G.detached
  have h2 := bit_le G.feeder
  have h3 := bit_le G.isStage
  clear_value g st
  subst hg
  unfold bits
  refine ⟨?_, ?_, ?_, ?_, ?_, ?_, ?_, ?_⟩ <;> omega

theorem trev_bits (k : Nat) : bits ((trevOf k).setWidth 64 : Word).toNat 31 24 = 0xD8 := by
  have h : (trevOf k).toNat = 0xD8 * 2 ^ 24 + (Config.tileStep k ++ Config.tileScan k).toNat := by
    unfold trevOf
    rw [BitVec.toNat_append, ← Nat.shiftLeft_add_eq_or_of_lt (BitVec.isLt _), Nat.shiftLeft_eq]
    rfl
  have hl := (Config.tileStep k ++ Config.tileScan k).isLt
  rw [BitVec.toNat_setWidth, h]
  unfold bits
  omega

theorem tfenceWord_bit (P : Part) (k j : Nat) (hj : j < 64) :
    (s.tfenceWord P k).getLsbD j = true ↔ 64 * k + j ∈ s.tfence ∧ P.hasTile (64 * k + j) = true := by
  unfold State.tfenceWord
  rw [wordBits (fun j => s.tfence.contains (64 * k + j) && P.hasTile (64 * k + j)) j hj]
  simp

theorem fwtabWord_bit (k j : Nat) (hj : j < 64) : (s.fwtabWord k).getLsbD j = true ↔
    (k / 16 / 4) * 4096 + (k / 16 % 4) * 1024 + 64 * (k % 16) + j ∈ s.fwtab := by
  unfold State.fwtabWord
  rw [wordBits (fun j => s.fwtab.contains ((k / 16 / 4) * 4096 + (k / 16 % 4) * 1024 + 64 * (k % 16) + j)) j hj]
  simp

/-- PSHLOG, field by field (R99). -/
theorem pshlog_bits (P : Part) : bits (s.pshlog P).toNat 15 0 = min (s.norev P) 65535 ∧
    bits (s.pshlog P).toNat 31 24 = P.lastSlot.toNat ∧ bits (s.pshlog P).toNat 23 16 = P.lastErr.toNat ∧
    bits (s.pshlog P).toNat 47 32 = P.refused.toNat := by
  have h1 := P.refused.isLt
  have h2 := P.lastSlot.isLt
  have h3 := P.lastErr.isLt
  unfold State.pshlog bits
  dsimp only
  rw [BitVec.toNat_ofNat]
  refine ⟨?_, ?_, ?_, ?_⟩ <;> omega

theorem sysRead_slice {n : Nat} {S : Slice} (h : I.sub.low = some (n, S)) :
    let rd := fun r k => s.sysRead I r k
    rd .tcause 0 = S.tcause ∧ rd .tepc 0 = S.tepc ∧ rd .tdet0 0 = S.tdet0.setWidth 64 ∧ rd .tdet1 0 = S.tdet1.setWidth 64 ∧
      rd .tdet2 0 = S.tdet2.setWidth 64 ∧ rd .tscr0 0 = S.tscr0 ∧ rd .tscr1 0 = S.tscr1 ∧ rd .tscr2 0 = S.tscr2 ∧
      rd .tscr3 0 = S.tscr3 := by
  unfold State.sysRead
  rw [h]
  exact ⟨rfl, rfl, rfl, rfl, rfl, rfl, rfl, rfl, rfl⟩

theorem sysRead_tctl (h : I.block.proxy = none) : s.sysRead I .tctl 0 = I.block.tctl := by
  unfold State.sysRead State.ownerOf
  rw [h]

variable {P : Part} (h : s.part I.block.part = some P)
include h

theorem sysRead_psroot : s.sysRead I .psroot 0 = P.psroot := by unfold State.sysRead; rw [h]
theorem sysRead_pshlog : s.sysRead I .pshlog 0 = s.pshlog P := by unfold State.sysRead; rw [h]
theorem sysRead_tfence (k : Nat) : s.sysRead I .tfence k = s.tfenceWord P k := by unfold State.sysRead; rw [h]

end

/-- Settles O27. -/
theorem systemRead : Obligations.SystemRead := by
  refine ⟨fun d r k s I h ok => srd_step h ok, ?_⟩
  intro s I n S P hl hP rd st
  refine ⟨sysRead_slice s I hl, gstat_bits I.gang, sysRead_tctl s I, fun k => ⟨rfl, rfl, rfl, rfl, rfl, trev_bits k⟩,
    ⟨rfl, rfl, rfl, sysRead_psroot s I hP⟩, fun k j hj => ?_, fun k j hj _ => fwtabWord_bit s k j hj, ?_, rfl, rfl, rfl⟩
  · rw [show rd .tfence k = _ from sysRead_tfence s I hP k]
    exact tfenceWord_bit s P k j hj
  · rw [show rd .pshlog 0 = _ from sysRead_pshlog s I hP]
    exact pshlog_bits s P

/-! ### What the registers take -/

theorem bpcMask_bits (x : Word) : keepsBits (bpcMask x) x (fun b => b ≠ 1 ∧ b < 64) := by
  intro b
  unfold bpcMask
  rw [BitVec.getLsbD_and, Bool.and_eq_true]
  refine and_congr_right fun _ => ?_
  by_cases hb : b < 64
  · have all : ∀ b, b < 64 → ((0xFFFFFFFFFFFFFFFD#64).getLsbD b = true ↔ b ≠ 1 ∧ b < 64) := by decide
    exact all b hb
  · rw [BitVec.getLsbD_of_ge _ _ (by omega)]
    exact ⟨nofun, fun h => absurd h.2 hb⟩

theorem psrootMask_bits (x : Word) : keepsBits (psrootMask x) x (fun b => b = 0 ∨ (15 ≤ b ∧ b < 48)) := by
  intro b
  unfold psrootMask
  rw [BitVec.getLsbD_and, Bool.and_eq_true]
  refine and_congr_right fun _ => ?_
  by_cases hb : b < 64
  · have all : ∀ b, b < 64 → ((0x0000FFFFFFFF8001#64).getLsbD b = true ↔ b = 0 ∨ (15 ≤ b ∧ b < 48)) := by decide
    exact all b hb
  · rw [BitVec.getLsbD_of_ge _ _ (by omega)]
    exact ⟨nofun, fun h => by omega⟩

theorem tctl_bits (x : Word) : keepsBits (x &&& 3#64) x (· < 2) := by
  intro b
  rw [BitVec.getLsbD_and, Bool.and_eq_true]
  refine and_congr_right fun _ => ?_
  by_cases hb : b < 64
  · have all : ∀ b, b < 64 → ((3#64).getLsbD b = true ↔ b < 2) := by decide
    exact all b hb
  · rw [BitVec.getLsbD_of_ge _ _ (by omega)]
    exact ⟨nofun, fun h => by omega⟩

theorem clearTripped_bits (old x : Word) : keepsBits (clearTripped old x) old (fun b => ¬ (b = 10 ∧ x.getLsbD 10 = true)) := by
  intro b
  unfold clearTripped
  cases hx : x.getLsbD 10 with
  | false => exact ⟨fun h => ⟨h, fun k => Bool.false_ne_true k.2⟩, fun h => h.1⟩
  | true =>
    rw [if_pos rfl, BitVec.getLsbD_and, Bool.and_eq_true]
    refine and_congr_right fun ho => ?_
    have hb : b < 64 := Classical.byContradiction fun hb => by
      rw [BitVec.getLsbD_of_ge _ _ (by omega)] at ho
      exact Bool.false_ne_true ho
    have all : ∀ b, b < 64 → ((~~~ 0x400#64).getLsbD b = true ↔ ¬ (b = 10 ∧ true = true)) := by decide
    exact all b hb

theorem sysWrite_slice {s : State} {I : Issuer} {r : SysReg} {k : Nat} {x : Word} {f : Slice → Slice} (h : sliceWrite r x = some f) :
    s.sysWrite I r k x = s.setSub I.t I.u (I.sub.mapSlices f) := by
  cases r <;> cases h <;> rfl

/-- A write that leaves the issuer's tile its sub-gangs, gangs and blocks ends as the instruction's only effect. -/
theorem swr_other {d : BitVec 5} {r : SysReg} {k : BitVec 8} {s s' : State} {I : Issuer}
    (h : Issues s (.swr d r k) false [.sreg d.toNat 1] I) (ok : SysOk s I r k.toNat true)
    (h1 : r ≠ .tlbinv) (h2 : r ≠ .shdisc) (h3 : r ≠ .skreq) (e : s.sysWrite I r k.toNat (I.sub.sreg d.toNat) = s')
    (hc : s'.cur = s.cur) (hs : (s'.tile I.t).subs = (s.tile I.t).subs) (hg : (s'.tile I.t).gangs = (s.tile I.t).gangs)
    (hb : ∀ c, (kget (s.tile I.t).blocks c).isSome = true → (kget (s'.tile I.t).blocks c).isSome = true) :
    exec (.swr d r k) s = .next (s'.setSub I.t I.u (I.sub.retire .other)) := by
  subst e
  exact (swr_goes h ok h1 h2 h3).trans (again_retire h.issuer hc hs hg hb)

theorem sliceWrite_plain {r : SysReg} {x : Word} {f : Slice → Slice} (h : sliceWrite r x = some f) :
    r ≠ .tlbinv ∧ r ≠ .shdisc ∧ r ≠ .skreq := by
  refine ⟨?_, ?_, ?_⟩ <;> rintro rfl <;> cases h

/-- Settles O28. -/
theorem systemWrite : Obligations.SystemWrite := by
  intro d r k s I h ok x goes
  have hT : I.tile = s.tile I.t := (issuer_facts h.issuer).2.1
  refine ⟨fun f hf => ?_, ?_, ?_, ?_, ?_⟩
  · obtain ⟨h1, h2, h3⟩ := sliceWrite_plain hf
    refine ⟨_, (swr_goes h ok h1 h2 h3).trans ?_, rfl⟩
    rw [sysWrite_slice hf]
    exact again_slices h.issuer f
  · rintro rfl
    obtain ⟨hs, hg, hc, hb⟩ := mapBlock_tile s (I.block.proxy.getD I.block.uid) I.t fun B => { B with tctl := x &&& 3#64 }
    exact ⟨x &&& 3#64, tctl_bits x, swr_other h ok nofun nofun nofun rfl hc hs hg hb⟩
  · rintro rfl
    refine ⟨bpcMask x, bpcMask_bits x, swr_other h ok nofun nofun nofun ?_ rfl ?_ ?_ ?_⟩
    · rw [hT]; rfl
    · rw [setTile_same, hT]
    · rw [setTile_same, hT]
    · intro c hb; rw [setTile_same, hT]; exact hb
  · rintro rfl
    exact ⟨_, clearTripped_bits _ x, swr_other h ok nofun nofun nofun rfl rfl rfl rfl fun _ hb => hb⟩
  · rintro P rfl hP
    refine ⟨psrootMask x, psrootMask_bits x, swr_other h ok nofun nofun nofun ?_ rfl rfl rfl fun _ hb => hb⟩
    unfold State.sysWrite
    dsimp only
    rw [hP]

/-! ### The traps -/

/-- A single uniform register that is only written is refused by no row. -/
theorem useFault_out (W : Win) (depth n : Nat) (b : Bool) : useFault W depth b [.out n 1] = none := by
  have odd : [Use.out n 1].find? (·.odd) = none := by simp [Use.out, Use.sreg, Nat.mod_one]
  refine (useFault_of (r := none) (l := none) (o := none) (c := none) rfl rfl rfl odd rfl).trans ?_
  dsimp only
  rw [ite_self]
  rfl

/-- A register that is only written is checked, and owed, like one that is read. -/
theorem Issues.written {s : State} {i : Instr} {I : Issuer} {n : Nat} (h : Issues s i false [.sreg n 1] I) :
    Issues s i false [.out n 1] I :=
  ⟨h.issuer, useFault_out .., h.notOwed, readsBad_nil _ _ _⟩

/-- What SRD and SWR trap with is what `sysFault` finds. -/
theorem sys_traps {d : BitVec 5} {r : SysReg} {k : BitVec 8} {write : Bool} {s : State} {I : Issuer} {g : Nat} {c : Byte} {x : Word}
    (h : Issues s (if write then .swr d r k else .srd d r k) false [.sreg d.toNat 1] I)
    (hf : sysFault s I (if write then .swr d r k else .srd d r k) r k.toNat write = some (g, c, x)) :
    exec (if write then .swr d r k else .srd d r k) s =
      .next (takeTrap { s with free := s.free + 1 } I.t I.u ⟨g, c, 0xFF, 0, x, false, none, I.sub.pc⟩) := by
  cases write with
  | false =>
    refine (srd_eq h.written).trans ?_
    rw [show sysFault s I (.srd d r k) r k.toNat false = _ from hf] <;> rfl
  | true =>
    show execSwr d r k s = _
    unfold execSwr
    dsimp only
    rw [Issues.plain (i := .swr d r k) h, show sysFault s I (.swr d r k) r k.toNat true = _ from hf] <;> rfl

theorem sysFault_unlisted {s : State} {I : Issuer} {i : Instr} {r : SysReg} {k : Nat} {write : Bool} (h : sysRow r = none) :
    sysFault s I i r k write = some (1, 2, wordOf i) := by
  cases r <;> cases h <;> rfl

/-- Settles O29. -/
theorem systemTraps : Obligations.SystemTraps := by
  intro d r k write s I i h traps
  refine ⟨fun hr => ⟨_, rfl, sys_traps h (sysFault_unlisted hr)⟩,
    fun n rt w hr hk => ⟨wordDatum i ((Config.freeWord s.free 0).setWidth 8), wordDatum_low i _, sys_traps h ((sysFault_listed hr).trans (if_pos hk))⟩,
    fun n rt w hr hk hw => ⟨wordDatum i ((Config.freeWord s.free 0).setWidth 8), wordDatum_low i _, sys_traps h ((sysFault_listed hr).trans ?_)⟩⟩
  rw [if_neg (Nat.not_le.2 hk), if_pos hw]

/-! ### SHDISC (R100) -/

/-- What SWR to SHDISC does once its checks have passed. -/
theorem swr_shdisc {d : BitVec 5} {k : BitVec 8} {s : State} {I : Issuer} {P : Part}
    (h : Issues s (.swr d .shdisc k) false [.sreg d.toNat 1] I) (ok : SysOk s I .shdisc k.toNat true)
    (hP : s.part I.block.part = some P) :
    exec (.swr d .shdisc k) s = match P.discardable ((I.sub.sreg d.toNat).toNat % 256) with
      | some c => trapAt s I 17 c (BitVec.ofNat 64 ((I.sub.sreg d.toNat).toNat % 256))
      | none => again (s.discardSheaf I.block.part ((I.sub.sreg d.toNat).toNat % 256)) fun s I => retire s I .other I.sub := by
  have hb : bits (I.sub.sreg d.toNat).toNat 7 0 = (I.sub.sreg d.toNat).toNat % 256 := by simp [bits]
  show execSwr d .shdisc k s = _
  unfold execSwr
  dsimp only
  rw [h.plain, sysFault_ok ok]
  dsimp only
  rw [hb, hP] <;> rfl

/-- Going on at the issuer, if it is still there, leaves the partitions as they are. -/
theorem again_next (s : State) (f : Issuer → Sub) :
    ∃ t, (again s fun s I => .next (s.setSub I.t I.u (f I))) = .next t ∧ t.parts = s.parts := by
  unfold again
  cases s.issuer with
  | none => exact ⟨s, rfl, rfl⟩
  | some I => exact ⟨_, rfl, rfl⟩

/-- Settles O30. -/
theorem sheafDiscard : Obligations.SheafDiscard := by
  intro d k s I P h ok hP slot traps
  have e := swr_shdisc h ok hP
  have trap : ∀ c, P.discardable slot = some c → traps c := fun c hc => by
    rw [show P.discardable _ = _ from hc] at e
    exact e
  refine ⟨fun hs => trap 1 ?_, fun x hs hc => trap 1 ?_, fun x hs hc hr => trap 2 ?_, fun x hs hc hr => ?_⟩
  · unfold Part.discardable; rw [hs]
  · unfold Part.discardable; rw [hs]; simp [hc]
  · unfold Part.discardable; rw [hs]; simp [hc, hr]
  · have hn : P.discardable slot = none := by unfold Part.discardable; rw [hs]; simp [hc, hr]
    rw [show P.discardable _ = _ from hn] at e
    obtain ⟨t, ht, he⟩ := again_next (s.discardSheaf I.block.part slot) (fun I => I.sub.retire .other)
    refine ⟨t, e.trans ht, fun P' hP' => discard_noSheaf s I.block.part slot P' ?_⟩
    rw [← hP']
    unfold State.part
    rw [he]

/-! ### LQRY (R362) -/

theorem toNat_mul (b : Bool) (n : Nat) : (if b then n else 0) = b.toNat * n := by
  cases b <;> simp

/-- The word of selector 1: launches, the tag of the oldest slot, the slots taken. -/
theorem lqryValue_one (ctx : Nat) (B : Block) : lqryValue ctx B 1 =
    BitVec.ofNat 64 (B.launches.toNat * 2 ^ 32 + (match B.pend with | p :: _ => p.tag.toNat | [] => 0) * 2 ^ 16 + B.pend.length) := by
  unfold lqryValue
  cases B.pend with
  | nil => rfl
  | cons p ps => rfl

theorem lqryValue_zero (ctx : Nat) (B : Block) : lqryValue ctx B 0 =
    BitVec.ofNat 64 (ctx * 2 ^ 24 + B.rcd.retry.toNat * 2 ^ 19 + B.rcd.coop.toNat * 2 ^ 18 + B.rcd.cgcode * 2 ^ 16 + B.rcd.tag.toNat) := by
  rw [← toNat_mul, ← toNat_mul]
  rfl

/-- Settles O35. -/
theorem queryResult : Obligations.QueryResult := by
  intro d a s I h sel
  have e : exec (.lqry d a) s = _ := exec_lqry.trans (h.plain _)
  refine ⟨fun hs => e.trans (if_pos hs), fun t ctx B ho hs => ?_⟩
  have run : exec (.lqry d a) s = retire s I .other (I.sub.setDst d (lqryValue ctx B sel)) := by
    refine e.trans ((if_neg (Nat.not_lt.2 hs)).trans ?_)
    rw [ho]
  have step : ∀ x, lqryValue ctx B sel = BitVec.ofNat 64 x → ∃ st, exec (.lqry d a) s = .next st ∧
      SliceStep s I .other (fun S => S.putDst d (BitVec.ofNat 64 x)) st := fun x hx =>
    ⟨_, run.trans (congrArg (fun U => Host.Outcome.next (s.setSub I.t I.u U)) (setDst_eq ..)), by rw [hx]; exact rfl⟩
  rcases Nat.le_one_iff_eq_zero_or_eq_one.1 hs with h0 | h1
  · obtain ⟨st, h1, h2⟩ := step _ (by rw [h0]; exact lqryValue_zero ctx B)
    exact ⟨_, st, h1, h2, fun _ => rfl, fun h1 => absurd (h0.symm.trans h1) Nat.zero_ne_one⟩
  · obtain ⟨st, h2, h3⟩ := step _ (by rw [h1]; exact lqryValue_one ctx B)
    exact ⟨_, st, h2, h3, fun h0 => absurd (h0.symm.trans h1) Nat.zero_ne_one, fun _ => rfl⟩

end Sys2Proof.Machine
end

section
/-! Fences, monitors and timelines (R115, R176, R294 to R297, R301, R302). -/
namespace Sys2Proof.Machine

/-! ### FENCE -/

theorem releaseWaits_iff {n : Nat} {I : Issuer} {sc : Scope} :
    releaseWaits n I sc = true ↔ I.sub.quiet = false ∨ (5 ≤ sc.rank ∧ fabricBusy n I = true) := by
  unfold releaseWaits
  rw [Bool.or_eq_true, Bool.not_eq_true', Bool.and_eq_true, decide_eq_true_eq]

theorem fence_eq {sc : Scope} {k : FenceKind} {s : State} {I : Issuer} (h : s.issuer = some I) :
    exec (.fence sc k) s = if releaseWaits s.node I sc then wait s I
      else if k ≠ .acq ∧ 2 ≤ sc.rank then
        becomeNonRetry s I fun s I => retire (if k = .rel then s else s.l1Clear I.t) I .other I.sub
      else retire (if k = .rel then s else s.l1Clear I.t) I .other I.sub :=
  exec_fence.trans ((issues_nil h _).plain _)

/-- Settles O31. -/
theorem fenceResult : Obligations.FenceResult := by
  intro sc k s I h waits
  refine ⟨fun hw => ?_, fun hw hf => ?_, l1Clear_l1 s I.t, State.l1Drop_mem ..⟩
  · exact (fence_eq h).trans ((if_pos (releaseWaits_iff.2 hw)).trans (wait_eq h))
  · refine (fence_eq h).trans ((if_neg (mt releaseWaits_iff.1 hw)).trans ?_)
    split
    next hk =>
      have free : I.gang.free := by
        rcases hf with ha | hr | hf
        · exact absurd ha hk.1
        · exact absurd hk.2 (Nat.not_le.2 hr)
        · exact hf
      exact free.again _
    next => rfl

/-! ### MONARM -/

/-- A condition word is unlisted when it is 4 or more. -/
theorem unlisted_iff (c : Word) : c / 4 ≠ 0 ↔ 4 ≤ c.toNat := by
  rw [ne_eq, ← BitVec.toNat_inj, BitVec.toNat_udiv, show (4 : Word).toNat = 4 from rfl, show (0 : Word).toNat = 0 from rfl]
  omega

theorem monarm_eq {r addr : BitVec 5} {ty : Ty2} {s : State} {I : Issuer}
    (h : Issues s (.monarm (.s r) addr ty) false [.uniPair (.s r) 2, .sreg addr.toNat 1] I) :
    exec (.monarm (.s r) addr ty) s = match check s I.t I.block.vf I.block.world (I.sub.sreg addr.toNat) .read ty.bytes with
      | .error c => trapAt s I c.group c.code c.datum
      | .ok (fa, e) =>
        if fa / 2 ^ 42 ≠ s.node ∨ ¬ isDram (fa % 2 ^ 42) then trapWord s I (.monarm (.s r) addr ty) 9 5
        else if I.sub.sreg (r.toNat + 1) / 4 ≠ 0 then trapWord s I (.monarm (.s r) addr ty) 9 6
        else retire (s.fillTlb I.t e) I .other (I.sub.mapSlices fun S =>
          { S with monitor := some ⟨fa % 2 ^ 42, I.sub.sreg addr.toNat, ty, I.sub.sreg r.toNat, (I.sub.sreg (r.toNat + 1)).setWidth 2⟩ }) :=
  exec_monarm.trans (h.plain _)

theorem monarm_result {r addr : BitVec 5} {ty : Ty2} {s : State} {I : Issuer}
    (h : Issues s (.monarm (.s r) addr ty) false [.uniPair (.s r) 2, .sreg addr.toNat 1] I) :
    let i : Instr := .monarm (.s r) addr ty
    let va := I.sub.sreg addr.toNat
    let c := I.sub.sreg (r.toNat + 1)
    (∀ e, check s I.t I.block.vf I.block.world va .read ty.bytes = .error e → Traps s i I e.group e.code e.datum) ∧
    ∀ fa e, check s I.t I.block.vf I.block.world va .read ty.bytes = .ok (fa, e) →
      (fa / 2 ^ 42 ≠ s.node ∨ ¬ isDram (fa % 2 ^ 42) → Traps s i I 9 5 (wordOf i)) ∧
      (fa / 2 ^ 42 = s.node → isDram (fa % 2 ^ 42) → 4 ≤ c.toNat → Traps s i I 9 6 (wordOf i)) ∧
      (fa / 2 ^ 42 = s.node → isDram (fa % 2 ^ 42) → c.toNat < 4 → ∃ t, exec i s = .next t ∧
        SliceStep (s.fillTlb I.t e) I .other
          (fun S => { S with monitor := some ⟨fa % 2 ^ 42, va, ty, I.sub.sreg r.toNat, BitVec.ofNat 2 c.toNat⟩ }) t) := by
  intro i va c
  have run : exec i s = _ := monarm_eq h
  refine ⟨fun e he => ?_, fun fa e he => ?_⟩
  · rw [he] at run; exact run
  · rw [he] at run
    have inside : fa / 2 ^ 42 = s.node → isDram (fa % 2 ^ 42) = true → ¬ (fa / 2 ^ 42 ≠ s.node ∨ ¬ isDram (fa % 2 ^ 42)) :=
      fun hn hd k => k.elim (absurd hn) (absurd hd)
    refine ⟨fun ho => run.trans (if_pos ho), fun hn hd hc => ?_, fun hn hd hc => ?_⟩
    · exact run.trans ((if_neg (inside hn hd)).trans (if_pos ((unlisted_iff _).2 hc)))
    · refine ⟨_, run.trans ((if_neg (inside hn hd)).trans (if_neg (mt (unlisted_iff _).1 (Nat.not_le.2 hc)))), ?_⟩
      have hw : (c.setWidth 2 : BitVec 2) = BitVec.ofNat 2 c.toNat := BitVec.eq_of_toNat_eq (by simp)
      show _ = _
      rw [← hw]
      rfl

/-! ### MONWAIT -/

/-- What MONWAIT does at a monitor of its width. -/
theorem monwait_eq {d : UDst} {ty : Ty2} {o : AOrd} {s : State} {I : Issuer} {n : Nat} {S : Slice} {M : Monitor}
    (h : Issues s (.monwait d ty o) false [.udst d 1 false] I) (hl : I.sub.low = some (n, S)) (hM : S.monitor = some M) (ht : M.ty = ty) :
    exec (.monwait d ty o) s =
      if I.sub.acquirePending || I.sub.overlapsPending false ty.bytes ⟨none, M.va, 0, 0, false, .pending⟩ ||
          !s.homeOpen (dieOf I.t) (homeOf M.pa) (s.carried I.t) false then wait s I
      else match s.poisonLine M.pa ty.bytes, security s I.block.world M.pa with
        | some l, _ => trapAt s I 15 5 (BitVec.ofNat 64 l)
        | none, some c => trapAt s I 18 c M.va
        | none, none =>
          let s1 := s.noteRead (dieOf I.t) (homeOf M.pa)
          let (od, om) := heldOver I.gang.retry.held (M.pa + s1.node * 2 ^ 42) ty.bytes
          let v := (overlayBytes om od (dataOf (s1.bytes M.pa ty.bytes))).toNat % 2 ^ (8 * ty.bytes)
          if M.holds v then
            retire (s1.l1Clear I.t) { I with sub := (I.sub.setDst d (BitVec.ofNat 64 v)).mapSlices fun S => { S with monitor := none } }
              .other ((I.sub.setDst d (BitVec.ofNat 64 v)).mapSlices fun S => { S with monitor := none })
          else if I.gang.isStage then wait s1 I
          else park s1 I .monwait (some .monitor) (decide (s1.watches (homeOf M.pa) < 8192)) := by
  have hm : (I.sub.low.bind fun (_, S) => S.monitor) = some M := by rw [hl]; exact hM
  subst ht
  show execMonwait d M.ty o s = _
  unfold execMonwait
  rw [h.plain]
  dsimp only
  rw [hm]
  dsimp only
  exact if_neg (Classical.not_not.2 rfl)

theorem monwait_without {d : UDst} {ty : Ty2} {o : AOrd} {s : State} {I : Issuer} {n : Nat} {S : Slice}
    (h : Issues s (.monwait d ty o) false [.udst d 1 false] I) (hl : I.sub.low = some (n, S)) (hM : ∀ M, S.monitor = some M → M.ty ≠ ty) :
    Traps s (.monwait d ty o) I 9 4 (wordOf (.monwait d ty o)) := by
  have hm : (I.sub.low.bind fun (_, S) => S.monitor) = S.monitor := by rw [hl]; rfl
  show execMonwait d ty o s = _
  unfold execMonwait
  rw [h.plain]
  dsimp only
  rw [hm]
  cases e : S.monitor with
  | none => rfl
  | some M => exact if_pos (hM M e)

theorem setDst_mapSlices (U : Sub) (d : UDst) (x : Word) (g : Slice → Slice) (k : RunKind) :
    ((U.setDst d x).mapSlices g).retire k =
      { U.retire k with slices := U.slices.map fun (n, S) => (n, g (S.putDst d x)) } := by
  show ((U.setDst d x).retire k).mapSlices g = _
  rw [setDst_eq]
  simp only [Sub.mapSlices, kmap, List.map_map]
  rfl

theorem noteRead_stamp (s : State) (d hm : Nat) : (s.noteRead d hm).stamp = s.stamp := by
  unfold State.noteRead State.observe
  split <;> rfl

/-- After the read of a wait that does not hold, the sub-gang waits as it would have before it. -/
theorem wait_noteRead {s : State} {I : Issuer} (h : s.issuer = some I) (d hm : Nat) : wait (s.noteRead d hm) I =
    .next ((s.noteRead d hm).setSub I.t I.u { I.sub with stall := some s.gen, issued := s.stamp }) := by
  rw [wait_eq (noteRead_issuer h d hm), noteRead_gen, noteRead_stamp]

theorem monwait_result {d : UDst} {ty : Ty2} {o : AOrd} {s : State} {I : Issuer} {n : Nat} {S : Slice} {M : Monitor}
    (h : Issues s (.monwait d ty o) false [.udst d 1 false] I) (hl : I.sub.low = some (n, S)) (hM : S.monitor = some M) (ht : M.ty = ty) :
    let i : Instr := .monwait d ty o
    let open' := I.sub.acquirePending = false ∧ I.sub.overlapsPending false ty.bytes ⟨none, M.va, 0, 0, false, .pending⟩ = false ∧
      s.homeOpen (dieOf I.t) (homeOf M.pa) (s.carried I.t) false = true
    let v := leNat (s.bytes M.pa ty.bytes)
    let holds := monitorCond M.cond.toNat (8 * ty.bytes) v (M.cmp.toNat % 2 ^ (8 * ty.bytes))
    let s1 := s.noteRead (dieOf I.t) (homeOf M.pa)
    (¬ open' → Waits s i I) ∧
    (open' → s.spoilt M.pa ty.bytes → ∃ k, k < ty.bytes ∧ s.spoilt (M.pa + k) 1 ∧
      Traps s i I 15 5 (BitVec.ofNat 64 (128 * ((M.pa + k) / 128)))) ∧
    (∀ c, open' → ¬ s.spoilt M.pa ty.bytes → security s I.block.world M.pa = some c → Traps s i I 18 c M.va) ∧
    (open' → ¬ s.spoilt M.pa ty.bytes → security s I.block.world M.pa = none → I.gang.free →
      (holds → ∃ t, exec i s = .next t ∧ SliceStep (s1.l1Clear I.t) I .other
        (fun S => { S.putDst d (BitVec.ofNat 64 v) with monitor := none }) t) ∧
      (¬ holds → I.gang.isStage = true → exec i s = .next (s1.setSub I.t I.u { I.sub with stall := some s.gen, issued := s.stamp })) ∧
      (¬ holds → I.gang.isStage = false → I.sub.logsEmpty = true → parkRoom I (some .monitor) →
        ∃ w t, exec i s = .next t ∧ Parks s1 I .monwait (some .monitor) w t)) := by
  intro i open' v holds s1
  have run : exec i s = _ := monwait_eq h hl hM ht
  have shut : (I.sub.acquirePending || I.sub.overlapsPending false ty.bytes ⟨none, M.va, 0, 0, false, .pending⟩ ||
      !s.homeOpen (dieOf I.t) (homeOf M.pa) (s.carried I.t) false) = true ↔ ¬ open' := by
    rw [← Bool.not_eq_false, Bool.or_eq_false_iff, Bool.or_eq_false_iff, Bool.not_eq_false', and_assoc]
  have goes : open' → exec i s = _ := fun ho => run.trans (if_neg (mt shut.1 (Classical.not_not.2 ho)))
  refine ⟨fun ho => run.trans ((if_pos (shut.2 ho)).trans (wait_eq h.issuer)), fun ho hs => ?_, fun c ho hs hc => ?_,
    fun ho hs hc hf => ?_⟩
  · obtain ⟨k, hk, hp, ep⟩ := State.poisonLine_spoilt hs
    refine ⟨k, hk, hp, (goes ho).trans ?_⟩
    rw [ep]
    rfl
  · refine (goes ho).trans ?_
    rw [poisonLine_none hs, hc]
    rfl
  · have e := goes ho
    rw [poisonLine_none hs, hc, hf.2.1] at e
    dsimp only at e
    rw [show (overlayBytes (heldOver [] (M.pa + s1.node * 2 ^ 42) ty.bytes).2 (heldOver [] (M.pa + s1.node * 2 ^ 42) ty.bytes).1
      (dataOf ((s.noteRead (dieOf I.t) (homeOf M.pa)).bytes M.pa ty.bytes))).toNat % 2 ^ (8 * ty.bytes) = v from
        monwait_value _ _ _ _ _ _ (by have := Machine.Ty2.bytes_le ty; omega)] at e
    have hh : M.holds v = true ↔ holds := by rw [monitor_holds, ht]
    refine ⟨fun hv => ⟨_, e.trans (if_pos (hh.2 hv)), ?_⟩, fun hv hst => ?_, fun hv hst hl hr => ?_⟩
    · exact congrArg ((s1.l1Clear I.t).setSub I.t I.u) (setDst_mapSlices ..)
    · exact e.trans ((if_neg (mt hh.1 hv)).trans ((if_pos hst).trans (wait_noteRead h.issuer _ _)))
    · obtain ⟨t, h1, h2⟩ := park_free (s := s1) (w := decide (s1.watches (homeOf M.pa) < 8192)) (resume := .monwait) hf hl hr
      exact ⟨_, t, e.trans ((if_neg (mt hh.1 hv)).trans ((if_neg (by rw [hst]; exact Bool.false_ne_true)).trans h1)), h2⟩

/-- Settles O32. -/
theorem monitorResult : Obligations.MonitorResult :=
  ⟨fun _ _ _ _ _ h => monarm_result h,
    fun _ _ _ _ _ _ _ h hl => ⟨fun hM => monwait_without h hl hM, fun _ hM ht => monwait_result h hl hM ht⟩⟩

/-! ### TLQRY and TLWAIT -/

theorem timelineBarred_detached {I : Issuer} (h : I.gang.detached = true) : timelineBarred I = some 6 := if_pos h

theorem timelineBarred_stage {I : Issuer} (h : I.gang.detached = false) (hs : I.gang.isStage = true) : timelineBarred I = some 7 := by
  unfold timelineBarred; rw [h, hs]; rfl

theorem timelineBarred_none {I : Issuer} (h : I.gang.detached = false) (hs : I.gang.isStage = false) : timelineBarred I = none := by
  unfold timelineBarred; rw [h, hs]; rfl

theorem tlqry_eq {tc : BitVec 4} {d : UDst} {s : State} {I : Issuer} (h : Issues s (.tlqry tc d) false [.udst d 1 false] I) :
    exec (.tlqry tc d) s = match timelineBarred I with
      | some c => trapNoAddr s I 4 c
      | none => retire s I .other (I.sub.setDst d ((I.block.tl tc).issue ++ (I.block.tl tc).compl)) :=
  exec_tlqry.trans (h.plain _)

/-- Two words of 32 bits side by side, as one of 64. -/
theorem append_ofNat (x y : W32) : (x ++ y : Word) = BitVec.ofNat 64 (x.toNat * 2 ^ 32 + y.toNat) := by
  apply BitVec.eq_of_toNat_eq
  have h1 := x.isLt
  have h2 := y.isLt
  rw [BitVec.toNat_append, ← Nat.shiftLeft_add_eq_or_of_lt (BitVec.isLt _), Nat.shiftLeft_eq, BitVec.toNat_ofNat]
  omega

theorem tlwait_eq {tc : BitVec 4} {x : Opnd} {us : List Use} {n : W32} {s : State} {I : Issuer}
    (hr : ∀ m, I.sub.resume = some (.tlwait m) → us = [] ∧ n = m)
    (hn : (∀ m, I.sub.resume ≠ some (.tlwait m)) → us = [.src x] ∧ n = (uniVal (s.window I) 0 I.sub x).setWidth 32)
    (h : Issues s (.tlwait tc x) false us I) :
    exec (.tlwait tc x) s = match timelineBarred I with
      | some c => trapNoAddr s I 4 c
      | none =>
        if 1 ≤ (n - (I.block.tl tc).issue).toNat ∧ (n - (I.block.tl tc).issue).toNat < 2 ^ 31 then trapWord s I (.tlwait tc x) 9 9
        else if I.sub.acquirePending then wait s I
        else if tlReached (I.block.tl tc).compl n then retire (s.l1Clear I.t) I .other I.sub
        else park s I (.tlwait n) (some (.timeline tc n)) false := by
  refine (exec_tlwait.trans (withIssuer_of h.issuer _)).trans ?_
  dsimp only
  split
  next m hm =>
    obtain ⟨rfl, rfl⟩ := hr m hm
    exact h.plain _
  next hm =>
    obtain ⟨rfl, rfl⟩ := hn hm
    exact h.plain _

/-- Settles O34. -/
theorem timelineResult : Obligations.TimelineResult := by
  intro tc s I hI T
  refine ⟨fun d h => ⟨fun hd => ?_, fun hd hs => ?_, fun hd hs => ?_⟩, ?_⟩
  · have e := tlqry_eq h
    rw [timelineBarred_detached hd] at e
    exact ⟨_, e⟩
  · have e := tlqry_eq h
    rw [timelineBarred_stage hd hs] at e
    exact ⟨_, e⟩
  · have e := tlqry_eq h
    rw [timelineBarred_none hd hs, append_ofNat] at e
    exact ⟨_, e, congrArg (s.setSub I.t I.u) (setDst_eq ..)⟩
  · intro x us n hr hn h ahead reached
    have e := tlwait_eq hr hn h
    have ha : (n - T.issue).toNat = ahead := by
      show _ = (n.toNat + 2 ^ 32 - T.issue.toNat) % 2 ^ 32
      rw [BitVec.toNat_sub]
      have := T.issue.isLt
      omega
    have hc : tlReached T.compl n = true ↔ reached := by
      show decide ((T.compl - n).toNat < 2 ^ 31) = true ↔ (T.compl.toNat + 2 ^ 32 - n.toNat) % 2 ^ 32 < 2 ^ 31
      rw [decide_eq_true_eq, BitVec.toNat_sub]
      have := n.isLt
      have : (2 ^ 32 - n.toNat + T.compl.toNat) = T.compl.toNat + 2 ^ 32 - n.toNat := by omega
      rw [this]
    refine ⟨fun hd => ?_, fun hd hs => ?_, fun hd hs => ?_⟩
    · rw [timelineBarred_detached hd] at e; exact ⟨_, e⟩
    · rw [timelineBarred_stage hd hs] at e; exact ⟨_, e⟩
    · rw [timelineBarred_none hd hs] at e
      dsimp only at e
      rw [show (n - (I.block.tl tc).issue).toNat = ahead from ha] at e
      refine ⟨fun hw => e.trans (if_pos hw), fun hw hp => ?_, fun hw hp ht => ?_, fun hw hp ht hf hl hr => ?_⟩
      · exact e.trans ((if_neg hw).trans ((if_pos hp).trans (wait_eq hI)))
      · exact e.trans ((if_neg hw).trans ((if_neg (by rw [hp]; exact Bool.false_ne_true)).trans (if_pos (hc.2 ht))))
      · obtain ⟨t, h1, h2⟩ := park_free (s := s) (w := false) (resume := .tlwait n) hf hl hr
        exact ⟨t, e.trans ((if_neg hw).trans ((if_neg (by rw [hp]; exact Bool.false_ne_true)).trans
          ((if_neg (mt hc.1 ht)).trans h1))), h2⟩

end Sys2Proof.Machine
end

section
/-! LAUNCH, SUSPEND, SPAWN and EXIT (R107, R113, R115, R116, R176, R256, R356 to R361). -/
namespace Sys2Proof.Machine

/-! ### LAUNCH -/

theorem launch_eq {a : Opnd} {us : List Use} {va : Word} {s : State} {I : Issuer}
    (hr : ∀ m, I.sub.resume = some (.launch m) → us = [] ∧ va = m)
    (hn : (∀ m, I.sub.resume ≠ some (.launch m)) → us = [.src a] ∧ va = uniVal (s.window I) 0 I.sub a)
    (h : Issues s (.launch a) false us I) :
    exec (.launch a) s = if I.gang.isStage then trapNoAddr s I 4 7
      else if I.block.pend.length < 4 then launchNow s I (.launch a) va
      else park s I (.launch va) (some .slot) false := by
  refine (exec_launch.trans (withIssuer_of h.issuer _)).trans ?_
  dsimp only
  split
  next m hm =>
    obtain ⟨rfl, rfl⟩ := hr m hm
    exact h.plain _
  next hm =>
    obtain ⟨rfl, rfl⟩ := hn hm
    exact h.plain _

/-- A launch that goes ahead with its accesses performed, case by case of the read of its record. -/
theorem launchNow_free {i : Instr} {va : Word} {s : State} {I : Issuer} (hq : I.sub.quiet = true) (hf : I.gang.free) :
    launchNow s I i va = match readSource s I va 64 with
      | .fault c => trapAt s I c.group c.code c.datum
      | .wait => wait s I
      | .ok s bs =>
        match s.part I.block.part with
        | none => .next s
        | some P =>
          if va.toNat % 64 ≠ 0 then trapWord s I i 10 1
          else
            match (LRecord.ofBytes bs).submitCheck P with
            | some c => trapWord s I i 10 (BitVec.ofNat 8 c)
            | none => again ((s.submit I.block.part I.block.vf (LRecord.ofBytes bs) (fun _ => .pend I.block.uid) I.block.world
                (some I.block.world) 7 (s.carried I.t)).1.mapBlock I.block.uid fun B =>
                  { B with pend := B.pend ++ [⟨s.nextId, (LRecord.ofBytes bs).tag⟩], launches := B.launches + 1 })
                fun s I => retire s I .other I.sub := by
  unfold launchNow
  rw [hq, if_neg (by exact Bool.false_ne_true), hf.again]
  rfl

/-- A record that is submitted joins its queue last, and changes nothing on the tiles. -/
theorem submit_last {s : State} {I : Issuer} {P : Part} {r : LRecord} (hP : s.part I.block.part = some P) :
    let s2 := (s.submit I.block.part I.block.vf r (fun _ => .pend I.block.uid) I.block.world (some I.block.world) 7 (s.carried I.t)).1
    s2.lastRecord I.block.part I.block.vf r.region = some (launched s I r) ∧ s2.tiles = s.tiles ∧ s2.nextId = s.nextId + 1 ∧
      s2.cur = s.cur :=
  enqueue_last _ _ P (launched s I r) hP

theorem launch_submits {a : Opnd} {va : Word} {s s1 : State} {I : Issuer} {bs : List Byte} {P : Part} (hI : s.issuer = some I)
    (run : exec (.launch a) s = launchNow s I (.launch a) va) (hq : I.sub.quiet = true) (hf : I.gang.free)
    (hs : readSource s I va 64 = .ok s1 bs) (hP : s1.part I.block.part = some P) :
    let r := LRecord.ofBytes bs
    let trap := fun code => Host.Outcome.next (takeTrap s1 I.t I.u ⟨10, code, 0xFF, 0, wordOf (.launch a), false, none, I.sub.pc⟩)
    (va.toNat % 64 ≠ 0 → exec (.launch a) s = trap 1) ∧
    (va.toNat % 64 = 0 → ∀ c, r.submitCheck P = some c → exec (.launch a) s = trap (BitVec.ofNat 8 c)) ∧
    (va.toNat % 64 = 0 → r.submitCheck P = none → ∃ s2 : State, exec (.launch a) s = .next
        ((s2.mapBlock I.block.uid fun B => { B with pend := B.pend ++ [⟨s1.nextId, r.tag⟩], launches := B.launches + 1 }).setSub
          I.t I.u (I.sub.retire .other)) ∧
      s2.lastRecord I.block.part I.block.vf r.region = some (launched s1 I r) ∧
      s2.tiles = s1.tiles ∧ s2.nextId = s1.nextId + 1) := by
  intro r trap
  have e := run.trans (launchNow_free hq hf)
  rw [hs] at e
  dsimp only at e
  rw [hP] at e
  dsimp only at e
  refine ⟨fun ha => e.trans (if_pos ha), fun ha c hc => ?_, fun ha hc => ?_⟩
  · rw [if_neg (Classical.not_not.2 ha), show (LRecord.ofBytes bs).submitCheck P = some c from hc] at e
    exact e
  · rw [if_neg (Classical.not_not.2 ha), show (LRecord.ofBytes bs).submitCheck P = none from hc] at e
    obtain ⟨h1, h2, h3, h4⟩ := submit_last (I := I) (r := r) hP
    have same : SameIssuer s s1 I := SameIssuer.readPieces _ _ _ _ _ hs
    exact ⟨_, e.trans (((same.trans (.of_tiles h4 h2 I)).trans (.mapBlock _ _ _ I)).retire hI), h1, h2, h3⟩

/-- Settles O36. -/
theorem launchResult : Obligations.LaunchResult := by
  intro a s I us va hr hn h i
  have e := launch_eq hr hn h
  have go : I.gang.isStage = false → I.block.pend.length < 4 → exec i s = launchNow s I i va := fun hst hp => by
    rw [hst, if_neg Bool.false_ne_true, if_pos hp] at e
    exact e
  refine ⟨fun hst => ?_, fun hst hp hf hl hpr => ?_, fun hst hp hq => ?_, fun hst hp hq hf => ⟨fun c hc => ?_, fun hw => ?_,
    fun s1 bs P hs hP => launch_submits h.issuer (go hst hp) hq hf hs hP⟩⟩
  · exact ⟨_, e.trans (if_pos hst)⟩
  · obtain ⟨t, h1, h2⟩ := park_free (s := s) (w := false) (resume := .launch va) hf hl hpr
    refine ⟨t, e.trans ?_, h2⟩
    rw [hst, if_neg Bool.false_ne_true, if_neg (Nat.not_lt.2 hp), h1]
  · refine (go hst hp).trans ((if_pos ?_).trans (wait_eq h.issuer))
    rw [hq]; rfl
  · refine ((go hst hp).trans (launchNow_free hq hf)).trans ?_
    rw [hc] <;> rfl
  · refine ((go hst hp).trans (launchNow_free hq hf)).trans ?_
    rw [hw]
    exact wait_eq h.issuer

/-! ### SUSPEND -/

/-- The delay of a SUSPEND; 0 parks at once. -/
theorem suspend_eq {k : Susp} {us : List Use} {n : Nat} {s : State} {I : Issuer} (hr : I.sub.resume = some .suspend → us = [])
    (hn : I.sub.resume ≠ some .suspend → match k with
      | .now => us = [] ∧ n = 0
      | .delay a => us = [.src a] ∧ n = (uniVal (s.window I) 0 I.sub a).toNat % 2 ^ 32)
    (h : Issues s (.suspend k) false us I) :
    exec (.suspend k) s = if I.gang.isStage then trapNoAddr s I 4 7
      else if I.sub.resume = some .suspend then retire s I .other I.sub
      else park s I .suspend (if n = 0 then none else some (.delay n)) false := by
  refine (exec_suspend.trans (withIssuer_of h.issuer _)).trans ?_
  dsimp only
  by_cases hs : I.sub.resume = some .suspend
  · obtain rfl := hr hs
    rw [if_pos (beq_iff_eq.2 hs), if_pos hs, h.plain, if_pos (beq_iff_eq.2 hs)]
  · have hb : ¬ (I.sub.resume == some .suspend) = true := fun k => hs (beq_iff_eq.1 k)
    rw [if_neg hb, if_neg hs]
    cases k with
    | now =>
      obtain ⟨rfl, rfl⟩ := hn hs
      rw [h.plain, if_neg hb] <;> rfl
    | delay a =>
      obtain ⟨rfl, rfl⟩ := hn hs
      refine (h.plain _).trans ?_
      rw [if_neg hb]
      dsimp only
      rw [BitVec.toNat_setWidth]
      by_cases h0 : (uniVal (s.window I) 0 I.sub a).toNat % 2 ^ 32 = 0
      · rw [if_pos h0, if_pos h0]
      · rw [if_neg h0, if_neg h0]

/-- Settles O37. -/
theorem suspendResult : Obligations.SuspendResult := by
  intro k s I us n hr hn h
  have e := suspend_eq hr hn h
  refine ⟨fun hst => ⟨_, e.trans (if_pos hst)⟩, fun hst hs => ?_, ?_⟩
  · rw [hst, if_neg Bool.false_ne_true, if_pos hs] at e
    exact e
  · intro hst hs hf hl cond hp
    obtain ⟨t, h1, h2⟩ := park_free (s := s) (w := false) (resume := .suspend) hf hl hp
    refine ⟨t, e.trans ?_, h2⟩
    rw [hst, if_neg Bool.false_ne_true, if_neg hs]
    exact h1

/-! ### SPAWN -/

/-- Every active lane's continuation enters a bin, or the issuer waits for bins (R360, R361). -/
def spawnNow (s : State) (I : Issuer) (entry : Word) (base n : Nat) (det : Bool) : Out1 :=
  let m := I.sub.actives.length
  match spawnAll s I (spawnedCont s I entry base n det) with
  | some T' =>
    let s1 : State := { s.setTile I.t T' with nextId := s.nextId + m, stamp := s.stamp + m, free := s.free + m }
    again s1 fun s I => retire s I .other I.sub
  | none => .next (s.setSub I.t I.u { I.sub with binWait := some (I.sub.binWait.getD s.stamp), stall := some s.gen })

theorem spawn_eq {r : BitVec 5} {base : BitVec 6} {det : Bool} {k : BitVec 4} {s : State} {I : Issuer}
    (h : Issues s (.spawn (.s r) base det k) false [.uni (.s r), .vrun base.toNat (k.toNat + 1)] I) :
    ∃ f, exec (.spawn (.s r) base det k) s =
      (if I.gang.isStage then trapWhole { s with free := s.free + 1 } I true 4 7 (Config.freeWord s.free 0)
      else if I.gang.detached && !det then trapWhole { s with free := s.free + 1 } I true 4 6 (Config.freeWord s.free 0)
      else if (I.sub.sreg r.toNat).toNat % 4 ≠ 0 then trapWhole s I true 5 2 (I.sub.sreg r.toNat)
      else if I.sub.actives.isEmpty then retire s I .other I.sub
      else if !I.sub.quiet then wait s I
      else becomeNonRetry s I f) ∧
      f s I = spawnNow s I (I.sub.sreg r.toNat) base.toNat (k.toNat + 1) det := by
  rw [exec_spawn]
  unfold execSpawn
  dsimp only
  rw [h.plain]
  exact ⟨_, rfl, rfl⟩

/-- The bins' new tile leaves the issuer where it was. -/
theorem spawnNow_some {s : State} {I : Issuer} {entry : Word} {base n : Nat} {det : Bool} {T' : Tile} (hI : s.issuer = some I)
    (hT : spawnAll s I (spawnedCont s I entry base n det) = some T') :
    spawnNow s I entry base n det = .next (State.setSub { s.setTile I.t T' with
      nextId := s.nextId + I.sub.actives.length, stamp := s.stamp + I.sub.actives.length,
      free := s.free + I.sub.actives.length } I.t I.u (I.sub.retire .other)) := by
  have ht := issuer_tile hI
  obtain ⟨h1, h2, h3⟩ := spawnAll_same hT
  rw [ht] at h1 h2 h3
  have same : SameIssuer s (s.setTile I.t T') I := .setTile s I.t T' I h1 h2 fun c hc => by rw [h3]; exact hc
  unfold spawnNow
  rw [hT]
  exact SameIssuer.retire hI (same.trans (.of_tiles (by rfl) (by rfl) I))

/-- Settles O38. -/
theorem spawnResult : Obligations.SpawnResult := by
  intro r base hr hb det k s I i
  obtain ⟨R, rfl⟩ : ∃ R : BitVec 5, r = R.toNat := ⟨BitVec.ofNat 5 r, by rw [BitVec.toNat_ofNat, Nat.mod_eq_of_lt hr]⟩
  obtain ⟨B, rfl⟩ : ∃ B : BitVec 6, base = B.toNat := ⟨BitVec.ofNat 6 base, by rw [BitVec.toNat_ofNat, Nat.mod_eq_of_lt hb]⟩
  intro h
  have hi : i = .spawn (.s R) B det k := by simp only [i, BitVec.ofNat_toNat, BitVec.setWidth_eq]
  have h' : Issues s (.spawn (.s R) B det k) false [.uni (.s R), .vrun B.toNat (k.toNat + 1)] I := by
    simpa only [hi, BitVec.ofNat_toNat, BitVec.setWidth_eq] using h
  clear_value i
  subst hi
  obtain ⟨f, e, ef⟩ := spawn_eq h'
  intro entry barred goes
  have past : I.gang.isStage = false → (I.gang.detached = false ∨ det = true) → exec (.spawn (.s R) B det k) s =
      if entry.toNat % 4 ≠ 0 then trapWhole s I true 5 2 entry
      else if I.sub.actives.isEmpty then retire s I .other I.sub
      else if !I.sub.quiet then wait s I
      else becomeNonRetry s I f := fun hst hd => by
    have hd' : (I.gang.detached && !det) = false := by rcases hd with hd | hd <;> simp [hd]
    rw [hst, hd', if_neg Bool.false_ne_true, if_neg Bool.false_ne_true] at e
    exact e
  have go : goes → exec (.spawn (.s R) B det k) s = if I.sub.actives.isEmpty then retire s I .other I.sub
      else if !I.sub.quiet then wait s I else becomeNonRetry s I f := fun ⟨hst, hd, ha⟩ =>
    (past hst hd).trans (if_neg (Classical.not_not.2 ha))
  have some' : I.sub.actives ≠ [] → ¬ I.sub.actives.isEmpty = true := fun hn k => hn (List.isEmpty_iff.1 k)
  refine ⟨fun hst => ⟨_, e.trans (if_pos hst)⟩, fun hst hd hdet => ?_, fun hst hd ha => (past hst hd).trans (if_pos ha),
    fun hg hn => (go hg).trans (if_pos (List.isEmpty_iff.2 hn)), fun hg hn hq => ?_, fun hg hn hq hf => ?_⟩
  · rw [hst, if_neg Bool.false_ne_true, if_pos (by rw [hd, hdet]; rfl)] at e
    exact ⟨_, e⟩
  · refine (go hg).trans ((if_neg (some' hn)).trans ((if_pos ?_).trans (wait_eq h'.issuer)))
    rw [hq]; rfl
  · have now : exec (.spawn (.s R) B det k) s = spawnNow s I entry B.toNat (k.toNat + 1) det := by
      refine (go hg).trans ((if_neg (some' hn)).trans ?_)
      rw [hq, if_neg (by exact Bool.false_ne_true), hf.again, ef]
    refine ⟨fun T' hT => now.trans (spawnNow_some h'.issuer hT), fun hT => now.trans ?_⟩
    unfold spawnNow
    rw [show spawnAll s I (spawnedCont s I entry B.toNat (k.toNat + 1) det) = none from hT]

/-! ### EXIT -/

theorem exit_eq {s : State} {I : Issuer} (h : s.issuer = some I) :
    exec .exit s = if !I.sub.logsEmpty then wait s I
      else if !wholeGang I then .next (s.leaveGang I.t I.u)
      else
        match I.gang.skeinName, s.skeinOf I.gang.kind, s.stageOf I.gang.kind with
        | some (p, k), some K, some (n, st) => stageExit s I p k K n st
        | _, _, _ => commitPoint s I fun s I => .next (s.leaveGang I.t I.u) :=
  exec_exit.trans ((issues_nil h .exit).plain _)

theorem skeinName_none {G : Gang} (h : G.isStage = false) : G.skeinName = none := by
  unfold Gang.isStage at h
  unfold Gang.skeinName
  cases e : G.kind <;> rw [e] at h <;> first | rfl | cases h

/-- Settles O39. -/
theorem exitResult : Obligations.ExitResult := by
  intro s I hI
  have e := exit_eq hI
  refine ⟨fun hl => ?_, fun hl hw => ?_, leaveGang_gone hI⟩
  · rw [hl] at e
    exact e.trans (wait_eq hI)
  · rw [hl] at e
    refine e.trans ?_
    rcases hw with hw | ⟨hst, hf⟩
    · rw [hw]; rfl
    · rw [skeinName_none hst]
      cases wholeGang I with
      | false => rfl
      | true =>
        show commitPoint s I (fun s I => .next (s.leaveGang I.t I.u)) = _
        exact hf.commits _

end Sys2Proof.Machine
end

section
/-! Engine commands at issue, and those that take effect there (R150, R151, R306 to R311, R328, R329, R332). -/
namespace Sys2Proof.Machine

section
variable {i : Instr} {tc : BitVec 4} {n : Option (BitVec 5)} {top : Nat} {plan : State → Issuer → List Word → EngPlan}
  {s : State} {I : Issuer}

theorem paramsMissing_iff : paramsMissing n top = true ↔ ¬ paramsExist n top := by
  unfold paramsMissing paramsExist
  cases n with
  | none => simp
  | some n => simp

theorem engine_eq (h : enginePlan i = some (tc, n, top, plan)) (hI : Issues s i false (paramUseList n top) I) :
    exec i s =
      match bestCause (need I.gang.feeder ⟨11, 0, wordOf i⟩ ++
          (if paramsMissing n top then EngPlan.fail [engCause i 3 32] else plan s I (paramWords I n top)).causes) with
      | some c => trapAt s I c.group c.code c.datum
      | none =>
        if engineWaits I i tc then wait s I
        else becomeNonRetry s I fun s' I' => again (accept s' I' i tc (paramWords I n top)
          (if paramsMissing n top then EngPlan.fail [engCause i 3 32] else plan s I (paramWords I n top)))
            fun s I => retire s I .other I.sub :=
  (exec_engine h s).trans (hI.plain _)

/-- A command waits unless its queue has room and its counter too, and its issuer's accesses are performed. -/
theorem engineWaits_iff : engineWaits I i tc = true ↔ ¬ ((I.tile.engineQueue i).length < 16 ∧
    ((I.block.tl tc).issue.toNat + 2 ^ 32 - (I.block.tl tc).compl.toNat) % 2 ^ 32 < 2 ^ 31 - 1) ∨ I.sub.quiet = false := by
  unfold engineWaits
  dsimp only
  rw [seq_sub, Bool.or_eq_true, Bool.or_eq_true, decide_eq_true_eq, decide_eq_true_eq, Bool.not_eq_true',
    Classical.not_and_iff_not_or_not, Nat.not_lt, Nat.not_lt, or_right_comm]

theorem engineQueue_accept {T T' : Tile} {c : EngCmd} (h1 : T'.copyQ = if isArrayCmd i then T.copyQ else T.copyQ ++ [c])
    (h2 : T'.arrayQ = if isArrayCmd i then T.arrayQ ++ [c] else T.arrayQ) : T'.engineQueue i = T.engineQueue i ++ [c] := by
  unfold Tile.engineQueue
  rw [h1, h2]
  cases isArrayCmd i <;> rfl

/-- The queue of an accepted command ends with it. -/
theorem accept_queue (par : List Word) (p : EngPlan) :
    let L := I.block.tl tc
    let t := (accept s I i tc par p).setSub I.t I.u (I.sub.retire .other)
    ∃ c B, (t.tile I.t).engineQueue i = I.tile.engineQueue i ++ [c] ∧ c.cmd = i ∧ c.tc = tc ∧ c.par = par ∧ c.num = L.issue + 1 ∧
      c.uid = I.block.uid ∧ c.d1 = p.d1 ∧ c.d2 = p.d2 ∧ c.pages = p.pages ∧
      kget (t.tile I.t).blocks I.gang.ctx = some B ∧ B.tl tc = { L with issue := L.issue + 1 } ∧ t.mem = s.mem := by
  intro L t
  have hT : t.tile I.t = Tile.setSub ((accept s I i tc par p).tile I.t) I.u (I.sub.retire .other) := setTile_same ..
  rw [show (accept s I i tc par p).tile I.t = _ from setTile_same s I.t _] at hT
  have tl : ∀ (B : Block) (m : Timeline), ({ B with tcs := kset B.tcs tc.toNat m } : Block).tl tc = m := fun B m => by
    simp [Block.tl, kgetD]
  have mem : t.mem = s.mem := rfl
  rw [hT]
  exact ⟨_, _, engineQueue_accept rfl rfl, rfl, rfl, rfl, rfl, rfl, rfl, rfl, rfl, kget_kset_same .., tl .., mem⟩

/-- What a command finds at issue. -/
theorem engine_command (h : enginePlan i = some (tc, n, top, plan)) (hI : Issues s i false (paramUseList n top) I) :
    let par := paramWords I n top
    let L := I.block.tl tc
    let rights := if I.gang.feeder then [] else [(⟨11, 0, wordOf i⟩ : Cause)]
    let room := (I.tile.engineQueue i).length < 16 ∧ (L.issue.toNat + 2 ^ 32 - L.compl.toNat) % 2 ^ 32 < 2 ^ 31 - 1
    (¬ paramsExist n top → ∃ c, bestCause (rights ++ [engCause i 3 32]) = some c ∧ Traps s i I c.group c.code c.datum) ∧
    (paramsExist n top → ∀ c, bestCause (rights ++ (plan s I par).causes) = some c → Traps s i I c.group c.code c.datum) ∧
    (paramsExist n top → I.gang.feeder = true → (plan s I par).causes = [] → (¬ room ∨ I.sub.quiet = false) → Waits s i I) ∧
    (paramsExist n top → I.gang.feeder = true → (plan s I par).causes = [] → room → I.sub.quiet = true → I.gang.free →
      ∃ t c B, exec i s = .next t ∧ t = (accept s I i tc par (plan s I par)).setSub I.t I.u (I.sub.retire .other) ∧
        (t.tile I.t).engineQueue i = I.tile.engineQueue i ++ [c] ∧ c.cmd = i ∧ c.tc = tc ∧ c.par = par ∧ c.num = L.issue + 1 ∧
        c.uid = I.block.uid ∧ c.d1 = (plan s I par).d1 ∧ c.d2 = (plan s I par).d2 ∧ c.pages = (plan s I par).pages ∧
        kget (t.tile I.t).blocks I.gang.ctx = some B ∧ B.tl tc = { L with issue := L.issue + 1 } ∧ t.mem = s.mem) := by
  intro par L rights room
  have e := engine_eq h hI
  have there : paramsExist n top → paramsMissing n top = false := fun hp =>
    Bool.eq_false_iff.2 fun k => paramsMissing_iff.1 k hp
  have passes : I.gang.feeder = true → (plan s I par).causes = [] → bestCause (need I.gang.feeder ⟨11, 0, wordOf i⟩ ++
      (plan s I par).causes) = none := fun hf hc => by rw [hf, hc]; rfl
  refine ⟨fun hp => ?_, fun hp c hc => ?_, fun hp hf hc hw => ?_, fun hp hf hc hr hq hfree => ?_⟩
  · obtain ⟨c, hc⟩ : ∃ c, bestCause (rights ++ [engCause i 3 32]) = some c := by
      unfold rights
      split
      · exact bestCause_cons ..
      · exact bestCause_cons ..
    rw [paramsMissing_iff.2 hp, if_pos rfl, show bestCause (need I.gang.feeder ⟨11, 0, wordOf i⟩ ++
      (EngPlan.fail [engCause i 3 32]).causes) = some c from hc] at e
    exact ⟨c, hc, e⟩
  · rw [there hp, if_neg Bool.false_ne_true, show bestCause (need I.gang.feeder ⟨11, 0, wordOf i⟩ ++
      (plan s I (paramWords I n top)).causes) = some c from hc] at e
    exact e
  · rw [there hp, if_neg Bool.false_ne_true, passes hf hc] at e
    exact e.trans ((if_pos (engineWaits_iff.2 hw)).trans (wait_eq hI.issuer))
  · rw [there hp, if_neg Bool.false_ne_true, passes hf hc] at e
    have hw : ¬ engineWaits I i tc = true := fun k => (engineWaits_iff.1 k).elim (absurd hr) fun k => by
      rw [hq] at k; exact Bool.false_ne_true k.symm
    obtain ⟨c, B, rest⟩ := accept_queue (i := i) (tc := tc) (I := I) (s := s) par (plan s I par)
    exact ⟨_, c, B, e.trans ((if_neg hw).trans ((hfree.again _).trans ((SameIssuer.accept hI.issuer i tc par _).retire hI.issuer))), rfl, rest⟩

/-- A handle that no TDEF has defined is among the causes a command finds. -/
theorem handleOf_undefined {B : Block} {j : BitVec 6} (h : kget B.handles j.toNat = none) :
    handleOf B i j = (.zero, [engCause i 1 j.toNat]) := by
  unfold handleOf; rw [h]

theorem withHandles_undefined {B : Block} {h1 h2 j : BitVec 6} {f : TDesc → TDesc → EngPlan} (hj : j = h1 ∨ j = h2)
    (h : kget B.handles j.toNat = none) : engCause i 1 j.toNat ∈ (withHandles B i h1 h2 f).causes := by
  unfold withHandles
  rcases hj with rfl | rfl
  · rw [handleOf_undefined h]
    exact List.mem_cons_self ..
  · rw [handleOf_undefined h]
    dsimp only
    rw [List.isEmpty_cons, Bool.and_false, if_neg Bool.false_ne_true]
    exact List.mem_append_right _ (List.mem_cons_self ..)

theorem mem_handles {h1 h2 j : BitVec 6} (h : j ∈ [h1, h2]) : j = h1 ∨ j = h2 := by simpa using h

theorem undefined_handle {par : List Word} {j : BitVec 6} (h : enginePlan i = some (tc, n, top, plan)) (hj : j ∈ engineHandles i)
    (hk : kget I.block.handles j.toNat = none) : engCause i 1 j.toNat ∈ (plan s I par).causes := by
  unfold enginePlan at h
  split at h <;> cases h
  next => exact withHandles_undefined (mem_handles hj) hk
  next => exact withHandles_undefined (mem_handles hj) hk
  next => exact withHandles_undefined (mem_handles hj) hk
  next => exact withHandles_undefined (mem_handles hj) hk
  next =>
    obtain rfl := List.mem_singleton.1 hj
    unfold planMload
    dsimp only
    rw [handleOf_undefined hk]
    exact List.mem_cons_self ..
  next => cases hj
  next => exact withHandles_undefined (mem_handles hj) hk
  next =>
    obtain rfl := List.mem_singleton.1 hj
    unfold planAccz
    dsimp only
    rw [handleOf_undefined hk]
    exact List.mem_cons_self ..
  next => exact withHandles_undefined (mem_handles hj) hk
  next =>
    obtain rfl := List.mem_singleton.1 hj
    unfold planHistclr
    dsimp only
    rw [handleOf_undefined hk]
    exact List.mem_cons_self ..
  next => exact withHandles_undefined (mem_handles hj) hk

end

/-- Settles O40. -/
theorem engineCommand : Obligations.EngineCommand :=
  ⟨fun _ _ _ _ _ _ _ h hI => engine_command h hI, fun _ _ _ _ _ _ _ _ _ h hj hk => undefined_handle h hj hk⟩

/-! ### TDEF, ACCMOV, HISTRD -/

/-- TDEF's causes: the rights, then the alignment of its registers, then the descriptor. -/
theorem tdef_eq {h : BitVec 6} {n : BitVec 5} {s : State} {I : Issuer} (hI : Issues s (.tdef h n) false (paramUses n 3) I) :
    let d : TDesc := ⟨I.sub.sreg n.toNat, I.sub.sreg (n.toNat + 1), I.sub.sreg (n.toNat + 2), I.sub.sreg (n.toNat + 3)⟩
    ∃ f, exec (.tdef h n) s =
      (match bestCause (need I.gang.feeder ⟨11, 0, wordOf (.tdef h n)⟩ ++ (if n.toNat % 4 == 0 then
          need (I.block.descOk d) (engCause (.tdef h n) 2 h.toNat) else [engCause (.tdef h n) 3 n.toNat])) with
      | some c => trapAt s I c.group c.code c.datum
      | none => becomeNonRetry s I f) ∧
      f s I = again (s.setBlock I.t I.gang.ctx { I.block with handles := kset I.block.handles h.toNat d })
        fun s I => retire s I .other I.sub := by
  intro d
  rw [exec_tdef]
  unfold execTdef
  dsimp only
  rw [hI.plain]
  exact ⟨_, rfl, rfl⟩

theorem SameIssuer.setBlock (s : State) (t c : Nat) (B : Block) (I : Issuer) : SameIssuer s (s.setBlock t c B) I :=
  .setTile s t _ I rfl rfl fun _ h => kset_some _ _ _ _ h

theorem tdef_result {h : BitVec 6} {n : BitVec 5} {s : State} {I : Issuer} (hI : Issues s (.tdef h n) false (paramUses n 3) I) :
    let w := fun k => I.sub.sreg (n.toNat + k)
    let d : TDesc := ⟨w 0, w 1, w 2, w 3⟩
    (I.gang.feeder = false → Traps s (.tdef h n) I 11 0 (wordOf (.tdef h n))) ∧
    (I.gang.feeder = true → n.toNat % 4 ≠ 0 → Traps s (.tdef h n) I 7 3 (engCause (.tdef h n) 3 n.toNat).datum) ∧
    (I.gang.feeder = true → n.toNat % 4 = 0 → I.block.descOk d = false → Traps s (.tdef h n) I 7 2 (engCause (.tdef h n) 2 h.toNat).datum) ∧
    (I.gang.feeder = true → n.toNat % 4 = 0 → I.block.descOk d = true → I.gang.free → exec (.tdef h n) s = .next
      ((s.setBlock I.t I.gang.ctx { I.block with handles := kset I.block.handles h.toNat d }).setSub I.t I.u (I.sub.retire .other))) := by
  intro w d
  obtain ⟨f, e, ef⟩ := tdef_eq hI
  rw [show (⟨I.sub.sreg n.toNat, I.sub.sreg (n.toNat + 1), I.sub.sreg (n.toNat + 2), I.sub.sreg (n.toNat + 3)⟩ : TDesc) = d from rfl] at e ef
  have aligned : n.toNat % 4 = 0 → (n.toNat % 4 == 0) = true := fun ha => beq_iff_eq.2 ha
  refine ⟨fun hf => ?_, fun hf ha => ?_, fun hf ha hd => ?_, fun hf ha hd hfree => ?_⟩
  · rw [hf] at e
    refine e.trans ?_
    cases n.toNat % 4 == 0 with
    | false => rfl
    | true =>
      cases I.block.descOk d with
      | false => rfl
      | true => rfl
  · rw [hf, show (n.toNat % 4 == 0) = false from beq_eq_false_iff_ne.2 ha] at e
    exact e
  · rw [hf, aligned ha, hd] at e
    exact e
  · rw [hf, aligned ha, hd] at e
    exact e.trans ((hfree.again _).trans (ef.trans ((SameIssuer.setBlock s I.t _ _ I).retire hI.issuer)))

theorem accmov_eq {st : Bool} {r : BitVec 5} {x : Opnd} {s : State} {I : Issuer}
    (hI : Issues s (.accmov st r x) false [.src x, if st then .sreg r.toNat 1 else .out r.toNat 1] I) :
    let a := (uniVal (s.window I) 0 I.sub x).toNat % 2 ^ 32
    exec (.accmov st r x) s = if 2 ^ 18 ≤ a then trapAt s I 2 3 (wordDatum (.accmov st r x) x.code)
      else if I.gang.isStage then trapNoAddr s I 4 7
      else if !I.tile.arrayQ.isEmpty then wait s I
      else if st then
        again (s.setTile I.t { I.tile with acc := kset I.tile.acc a ((I.sub.sreg r.toNat).setWidth 32), accPoison := kdel I.tile.accPoison a })
          fun s I => retire s I .other I.sub
      else match kget I.tile.accPoison a with
        | some m => trapAt s I 15 m.code m.datum
        | none => retire s I .other (I.sub.setS r.toNat ((kgetD I.tile.acc a 0).setWidth 64)) := by
  intro a
  rw [exec_accmov]
  unfold execAccmov
  dsimp only
  rw [hI.plain, BitVec.toNat_setWidth] <;> rfl

theorem accmov_result {st : Bool} {r : BitVec 5} {x : Opnd} {s : State} {I : Issuer}
    (hI : Issues s (.accmov st r x) false [.src x, if st then .sreg r.toNat 1 else .out r.toNat 1] I) :
    let i : Instr := .accmov st r x
    let a := (uniVal (s.window I) 0 I.sub x).toNat % 2 ^ 32
    (2 ^ 18 ≤ a → Traps s i I 2 3 (wordDatum i x.code)) ∧
    (a < 2 ^ 18 → I.gang.isStage = true → TrapsFree s i I 4 7) ∧
    (a < 2 ^ 18 → I.gang.isStage = false → I.tile.arrayQ ≠ [] → Waits s i I) ∧
    (a < 2 ^ 18 → I.gang.isStage = false → I.tile.arrayQ = [] → st = true → ∃ T, exec i s = .next
      ((s.setTile I.t T).setSub I.t I.u (I.sub.retire .other)) ∧ kgetD T.acc a 0 = (I.sub.sreg r.toNat).setWidth 32 ∧
      (∀ b, b ≠ a → kgetD T.acc b 0 = kgetD I.tile.acc b 0) ∧ T = { I.tile with acc := T.acc, accPoison := T.accPoison }) ∧
    (a < 2 ^ 18 → I.gang.isStage = false → I.tile.arrayQ = [] → st = false → ∀ m, kget I.tile.accPoison a = some m →
      Traps s i I 15 m.code m.datum) ∧
    (a < 2 ^ 18 → I.gang.isStage = false → I.tile.arrayQ = [] → st = false → kget I.tile.accPoison a = none → ∃ t, exec i s = .next t ∧
      SliceStep s I .other (fun S => S.setSreg r.toNat ((kgetD I.tile.acc a 0).setWidth 64)) t) := by
  intro i a
  have e : exec i s = _ := accmov_eq hI
  have inside : a < 2 ^ 18 → ¬ 2 ^ 18 ≤ a := Nat.not_le.2
  have quiet : a < 2 ^ 18 → I.gang.isStage = false → I.tile.arrayQ = [] → exec i s =
      if st then
        again (s.setTile I.t { I.tile with acc := kset I.tile.acc a ((I.sub.sreg r.toNat).setWidth 32), accPoison := kdel I.tile.accPoison a })
          fun s I => retire s I .other I.sub
      else match kget I.tile.accPoison a with
        | some m => trapAt s I 15 m.code m.datum
        | none => retire s I .other (I.sub.setS r.toNat ((kgetD I.tile.acc a 0).setWidth 64)) := fun ha hst hq =>
    (e.trans ((if_neg (inside ha)).trans (if_neg (by rw [hst]; exact Bool.false_ne_true)))).trans (if_neg (by rw [hq]; exact Bool.false_ne_true))
  refine ⟨fun ha => e.trans (if_pos ha), fun ha hst => ⟨_, (e.trans (if_neg (inside ha))).trans (if_pos hst)⟩, fun ha hst hq => ?_,
    fun ha hst hq h => ?_, fun ha hst hq h m hm => ?_, fun ha hst hq h hm => ?_⟩
  · refine (e.trans ((if_neg (inside ha)).trans (if_neg (by rw [hst]; exact Bool.false_ne_true)))).trans ((if_pos ?_).trans (wait_eq hI.issuer))
    cases hl : I.tile.arrayQ with
    | nil => exact absurd hl hq
    | cons c cs => rfl
  · have ht := issuer_tile hI.issuer
    refine ⟨_, ((quiet ha hst hq).trans (if_pos h)).trans (SameIssuer.retire hI.issuer (.setTile s I.t _ I ?_ ?_ ?_)), ?_, fun b hb => ?_, rfl⟩
    · show I.tile.subs = _; rw [ht]
    · show I.tile.gangs = _; rw [ht]
    · intro c hc; rw [← ht] at hc; exact hc
    · simp [kgetD]
    · simp [kgetD, kget_kset_ne _ _ hb]
  · have k := quiet ha hst hq
    rw [h, hm] at k
    exact k
  · have k := quiet ha hst hq
    rw [h, hm] at k
    exact ⟨_, k, congrArg (s.setSub I.t I.u) (setS_bare ..)⟩

theorem histrd_eq {h : BitVec 6} {bin : BitVec 5} {d : UDst} {s : State} {I : Issuer} (hI : Issues s (.histrd h bin d) false [.udst d 1 false] I) :
    exec (.histrd h bin d) s = match timelineBarred I with
      | some c => trapNoAddr s I 4 c
      | none => retire s I .other (I.sub.setDst d ((kgetD (kgetD I.block.hist h.toNat []) bin.toNat 0).setWidth 64)) :=
  exec_histrd.trans (hI.plain _)

/-- Settles O41. -/
theorem engineImmediate : Obligations.EngineImmediate := by
  refine ⟨fun h n s I hI => tdef_result hI, ?_, fun h bin d s I hI => ?_⟩
  · intro st r hr x s I i hI
    obtain ⟨R, rfl⟩ : ∃ R : BitVec 5, r = R.toNat := ⟨BitVec.ofNat 5 r, by rw [BitVec.toNat_ofNat, Nat.mod_eq_of_lt hr]⟩
    have hi : i = .accmov st R x := by simp only [i, BitVec.ofNat_toNat, BitVec.setWidth_eq]
    clear_value i
    subst hi
    exact accmov_result hI
  · have e := histrd_eq hI
    refine ⟨fun hd => ?_, fun hd hs => ?_, fun hd hs => ?_⟩
    · rw [timelineBarred_detached hd] at e; exact ⟨_, e⟩
    · rw [timelineBarred_stage hd hs] at e; exact ⟨_, e⟩
    · rw [timelineBarred_none hd hs] at e
      exact ⟨_, e, congrArg (s.setSub I.t I.u) (setDst_eq ..)⟩

end Sys2Proof.Machine
end

section
/-! Engine commands as they run: progress, completion, counted bytes, linked starts, timelines (R149, R151, R298, R316, R317). -/
namespace Sys2Proof.Machine

/-! ### Finding a block -/

theorem findSome_kset {α β : Type} {f : Nat × α → Option (Nat × β)} (hf : ∀ x z, f x = some z → z.1 = x.1) {m : KMap α} {k : Nat}
    {v : α} {y : Nat × β} {z : β} (h : m.findSome? f = some (k, z)) (hv : f (k, v) = some y) : (kset m k v).findSome? f = some y := by
  induction m with
  | nil => cases h
  | cons x m ih =>
    obtain ⟨j, w⟩ := x
    have front : ∀ m', ((k, v) :: m').findSome? f = some y := fun m' => by rw [List.findSome?_cons, hv]
    unfold kset
    split
    · exact front _
    · split
      · exact front _
      next hj _ =>
        rw [List.findSome?_cons] at h ⊢
        cases e : f (j, w) with
        | some z' =>
          rw [e] at h
          cases h
          exact absurd (hf _ _ e).symm hj
        | none =>
          rw [e] at h
          exact ih h

theorem findSome_kget {α β : Type} {f : Nat × α → Option (Nat × β)} (hf : ∀ x z, f x = some z → z.1 = x.1) {m : KMap α} {k : Nat}
    {w : α} {y z : Nat × β} (h : m.findSome? f = some z) (hz : z.1 = k) (hk : kget m k = some w) (hw : f (k, w) = some y) : y = z := by
  induction m with
  | nil => cases h
  | cons x m ih =>
    obtain ⟨j, v⟩ := x
    rw [List.findSome?_cons] at h
    unfold kget at hk
    cases e : f (j, v) with
    | some z' =>
      rw [e] at h
      cases h
      have hj : j = k := (hf _ _ e).symm.trans hz
      subst hj
      rw [if_pos rfl] at hk
      cases hk
      exact Option.some.inj (hw.symm.trans e)
    | none =>
      rw [e] at h
      split at hk
      next hj =>
        subst hj
        cases hk
        rw [hw] at e
        cases e
      next hj => exact ih h hk

/-- What a tile answers a search for a block with. -/
def blockIn (uid : Nat) (x : Nat × Tile) : Option (Nat × Nat × Block) :=
  (x.2.blocks.find? fun (_, B) => B.uid == uid).map fun (c, B) => (x.1, c, B)

theorem findBlock_eq (s : State) (uid : Nat) : s.findBlock uid = s.tiles.findSome? (blockIn uid) := rfl

theorem blockIn_key {uid : Nat} (x : Nat × Tile) (z : Nat × Nat × Block) (h : blockIn uid x = some z) : z.1 = x.1 := by
  unfold blockIn at h
  cases e : x.2.blocks.find? fun (_, B) => B.uid == uid with
  | none => rw [e] at h; cases h
  | some y => rw [e] at h; cases h; rfl

theorem blockIn_of {uid t ctx : Nat} {T : Tile} {B : Block} (h : (T.blocks.find? fun (_, B) => B.uid == uid) = some (ctx, B)) :
    blockIn uid (t, T) = some (t, ctx, B) := by
  unfold blockIn; rw [h]; rfl

/-- The tile a block is found on names the same context for it. -/
theorem findBlock_tile {s : State} {uid t ctx : Nat} {B : Block} (h : s.findBlock uid = some (t, ctx, B)) {c : Nat} {B' : Block}
    (hT : ((s.tile t).blocks.find? fun (_, B) => B.uid == uid) = some (c, B')) : c = ctx ∧ B' = B := by
  cases hk : kget s.tiles t with
  | none =>
    unfold State.tile kgetD at hT
    rw [hk] at hT
    cases hT
  | some T =>
    rw [show s.tile t = T by unfold State.tile kgetD; rw [hk] <;> rfl] at hT
    have := findSome_kget blockIn_key h rfl hk (blockIn_of hT)
    simpa using this

theorem findBlock_setTile {s : State} {uid t ctx c : Nat} {B B' : Block} {T : Tile} (h : s.findBlock uid = some (t, ctx, B))
    (hT : (T.blocks.find? fun (_, B) => B.uid == uid) = some (c, B')) : (s.setTile t T).findBlock uid = some (t, c, B') :=
  findSome_kset blockIn_key h (blockIn_of hT)

/-! ### Completion -/

section
variable {s : State} {t id ctx : Nat} {c : EngCmd} {B : Block}

/-- The tile a command leaves behind in its queues. -/
def Tile.withoutCmd (T : Tile) (c : EngCmd) : Tile :=
  { T with
    copyQ := T.copyQ.filter fun x => x.id != c.id
    arrayQ := (T.arrayQ.filter fun x => x.id != c.id).map fun x => { x with links := x.links.filter (· != c.id) }
    links := kmap T.links fun _ l => l.filter (· != c.id) }

theorem cmdLeaves_eq (s : State) (t : Nat) (c : EngCmd) : s.cmdLeaves t c = (s.setTile t ((s.tile t).withoutCmd c)).mapBlock c.uid fun B =>
    { B with tcs := kset B.tcs c.tc.toNat ((B.tl c.tc).complete c.num) } := rfl

theorem mapBlock_of {uid : Nat} (h : s.findBlock uid = some (t, ctx, B)) (f : Block → Block) : s.mapBlock uid f = s.setBlock t ctx (f B) := by
  unfold State.mapBlock; rw [h]

/-- The block of a command that has left its queue stands where it stood, its counter gone on. -/
theorem cmdLeaves_block (hf : s.findBlock c.uid = some (t, ctx, B))
    (hT : ((s.tile t).blocks.find? fun (_, B) => B.uid == c.uid) = some (ctx, B)) :
    (s.cmdLeaves t c).findBlock c.uid = some (t, ctx, { B with tcs := kset B.tcs c.tc.toNat ((B.tl c.tc).complete c.num) }) := by
  have h1 : (s.setTile t ((s.tile t).withoutCmd c)).findBlock c.uid = some (t, ctx, B) := findBlock_setTile hf hT
  rw [cmdLeaves_eq, mapBlock_of h1]
  refine findBlock_setTile h1 ?_
  rw [setTile_same]
  have hu := List.find?_some hT
  exact find_kset _ _ _ _ B (.inr hT) hu

/-- A command with nothing left to count completes. -/
theorem cmdFinish_of (hf : s.findBlock c.uid = some (t, ctx, B)) (hT : ((s.tile t).blocks.find? fun (_, B) => B.uid == c.uid) = some (ctx, B))
    (hn : ¬ (c.counted < c.countTotal ∧ c.barriers ≠ [])) :
    s.cmdFinish t c B = some (((s.cmdLeaves t c).wakeTimeline t c.uid c.tc ((B.tl c.tc).complete c.num).compl).settleBlock t ctx) := by
  have tl : ∀ m : Timeline, ({ B with tcs := kset B.tcs c.tc.toNat m } : Block).tl c.tc = m := fun m => by simp [Block.tl, kgetD]
  have hb := cmdLeaves_block hf hT
  unfold State.cmdFinish
  rw [if_neg hn]
  dsimp only
  rw [hT]
  dsimp only
  show some (((s.cmdLeaves t c).wakeTimeline t c.uid c.tc (match (s.cmdLeaves t c).findBlock c.uid with
    | some (_, _, B) => (B.tl c.tc).compl | none => 0)).settleBlock t ctx) = _
  rw [hb]
  dsimp only
  rw [tl]

variable (h : s.engineCmd t id c B)
include h

/-- A command runs on its tile: the pieces its search finds. -/
theorem engineCmd_runs : (s.tile t).runs = true ∧ (s.tile t).cmd id = some c ∧
    ∃ ctx, ((s.tile t).blocks.find? fun (_, B) => B.uid == c.uid) = some (ctx, B) := by
  obtain ⟨hm, hc, hb⟩ := h
  exact ⟨decide_eq_true hm, hc, hb⟩

theorem cmdRun_of (n : Nat) : State.cmdRun t id (n + 1) s =
    if c.phase = 3 then (if c.wait.isEmpty then s.cmdFinish t c B else none)
    else match s.cmdAdvance t c B with
      | none => none
      | some (s, c) => some ((State.cmdRun t id n (s.setTile t ((s.tile t).setCmd c))).getD (s.setTile t ((s.tile t).setCmd c))) := by
  obtain ⟨_, hc, ctx, hb⟩ := engineCmd_runs h
  rw [State.cmdRun, hc]
  dsimp only
  rw [hb]
  dsimp only
  split
  · rfl
  · cases s.cmdAdvance t c B with
    | none => rfl
    | some x =>
      dsimp only
      cases State.cmdRun t id n (x.1.setTile t ((x.1.tile t).setCmd x.2)) <;> rfl

theorem complete_eq : exec (.engineCommandComplete t id) s = .next ((State.cmdRun t id 8 s).getD s) := by
  refine exec_engineCommandComplete.trans ((if_pos (engineCmd_runs h).1).trans ?_)
  cases State.cmdRun t id 8 s <;> rfl

theorem complete_last (hp : c.phase = 3) (hw : c.wait = []) (hb : c.barriers = [] ∨ c.countTotal ≤ c.counted)
    (hf : s.findBlock c.uid = some (t, ctx, B)) : exec (.engineCommandComplete t id) s = .next
      (((s.cmdLeaves t c).wakeTimeline t c.uid c.tc ((B.tl c.tc).complete c.num).compl).settleBlock t ctx) := by
  obtain ⟨_, _, ctx', hT⟩ := engineCmd_runs h
  obtain ⟨rfl, _⟩ := findBlock_tile hf hT
  have hn : ¬ (c.counted < c.countTotal ∧ c.barriers ≠ []) := fun ⟨h1, h2⟩ => hb.elim h2 fun h3 => Nat.not_lt.2 h3 h1
  rw [complete_eq h, cmdRun_of h, if_pos hp, hw, if_pos (by rfl), cmdFinish_of hf hT hn]
  rfl

theorem complete_advance (hp : c.phase ≠ 3) : (s.cmdAdvance t c B = none → exec (.engineCommandComplete t id) s = .next s) ∧
    ∀ s1 c1, s.cmdAdvance t c B = some (s1, c1) → let s2 := s1.setTile t ((s1.tile t).setCmd c1)
      exec (.engineCommandComplete t id) s = .next ((State.cmdRun t id 7 s2).getD s2) := by
  rw [complete_eq h, cmdRun_of h, if_neg hp]
  refine ⟨fun hn => by rw [hn]; rfl, fun s1 c1 hs => ?_⟩
  rw [hs]
  rfl

end

/-! ### Counted bytes -/

/-- Every tile has the mode it had. -/
def State.SameModes (s' s : State) : Prop := ∀ t, (s'.tile t).mode = (s.tile t).mode

theorem State.SameModes.setBlock (s : State) (t c : Nat) (B : Block) : (s.setBlock t c B).SameModes s := fun t' => by
  unfold State.setBlock
  rw [State.tile_setTile]
  split
  next h => rw [h]; rfl
  next => rfl

theorem State.SameModes.spadWrite (s : State) (p : SpadAt) (bs : List Byte) : (s.spadWrite p bs).SameModes s := by
  unfold State.spadWrite
  split
  · exact .setBlock _ _ _ _
  · exact fun _ => rfl

theorem State.SameModes.mapBlock (s : State) (uid : Nat) (f : Block → Block) : (s.mapBlock uid f).SameModes s := by
  unfold State.mapBlock
  dsimp only
  split
  · exact .setBlock _ _ _ _
  · exact fun _ => rfl

theorem State.SameModes.trans {a b c : State} (h : b.SameModes a) (k : c.SameModes b) : c.SameModes a := fun t => (k t).trans (h t)

/-- Counting n bytes on the barriers of tiles that run goes through. -/
theorem countBytes_some {c : EngCmd} {B : Block} {n : Nat} : ∀ {s : State},
    (∀ a ∈ c.barriers, ∀ p, B.placeOf a = some p → (s.tile p.t).mode = .run) → ∃ s', s.countBytes c B n = some s' := by
  unfold State.countBytes
  intro s
  generalize c.barriers = as
  induction as generalizing s with
  | nil => exact fun _ => ⟨s, rfl⟩
  | cons a as ih =>
    intro hm
    have rest : ∀ s' : State, s'.SameModes s → ∀ b ∈ as, ∀ p, B.placeOf b = some p → (s'.tile p.t).mode = .run := fun s' hs b hb p hp =>
      (hs p.t).trans (hm b (List.mem_cons_of_mem _ hb) p hp)
    unfold foldOpt
    dsimp only
    cases hp : B.placeOf a with
    | none => exact ih (rest s fun _ => rfl)
    | some p =>
      dsimp only
      rw [if_pos (hm a (List.mem_cons_self ..) p hp)]
      cases (Barrier.read s p).land n with
      | some b => exact ih (rest _ (.spadWrite _ _ _))
      | none => exact ih (rest _ (State.SameModes.trans (.spadWrite s p _) (.mapBlock _ _ _)))

/-- On one barrier within its range, the count goes down by n, and a phase that it completes ends. -/
theorem countBytes_one {s : State} {c : EngCmd} {B : Block} {n a : Nat} {p : SpadAt} (ha : c.barriers = [a]) (hp : B.placeOf a = some p)
    (hm : (s.tile p.t).mode = .run) (hl : (-(2 ^ 31) : Int) ≤ (Barrier.read s p).bytes - n) :
    s.countBytes c B n = some (({ Barrier.read s p with bytes := (Barrier.read s p).bytes - n }.check).write s p) := by
  have land : (Barrier.read s p).land n = some ({ Barrier.read s p with bytes := (Barrier.read s p).bytes - n }.check) :=
    if_neg (Int.not_lt.2 hl)
  unfold State.countBytes
  rw [ha]
  unfold foldOpt
  dsimp only
  rw [hp]
  dsimp only
  rw [if_pos hm, land]
  rfl

theorem barrier_count {s : State} {t id n : Nat} {c : EngCmd} {B : Block} (h : s.engineCmd t id c B) (hb : c.barriers ≠ []) (hn : n ≠ 0)
    (hle : c.counted + n ≤ c.countTotal) (hp : 2 ≤ c.phase) {s' : State} (hs : s.countBytes c B n = some s') :
    exec (.barrierByteCount t id n) s = .next (s'.setTile t ((s'.tile t).setCmd { c with counted := c.counted + n })) := by
  obtain ⟨hr, hc, ctx, hT⟩ := engineCmd_runs h
  have h0 : ¬ c.phase = 0 := by omega
  have h1 : ¬ c.phase = 1 := by omega
  have none : ¬ (c.barriers = [] ∨ n = 0 ∨ c.countTotal < c.counted + n) := by
    rintro (k | k | k)
    · exact hb k
    · exact hn k
    · exact Nat.not_lt.2 hle k
  rw [exec_barrierByteCount]
  unfold execBarrierByteCount
  rw [if_pos hr, hc]
  dsimp only
  rw [hT]
  dsimp only
  rw [if_neg none, if_neg h0, if_neg h1]
  dsimp only
  rw [if_neg (Nat.not_lt.2 hp), hs]

/-! ### Array commands that need no data -/

section
variable {s : State} {t : Nat} {c : EngCmd} {B : Block} (hf : (s.tile t).arrayFirst c = true) (hp : c.phase < 2)
include hf hp

theorem arrayAdvance_mswap {q : BitVec 4} {m : BitVec 4} (hc : c.cmd = .mswap q m) :
    s.arrayAdvance t c B = some (s.setTile t { s.tile t with
      active := (swapPlanes m ((s.tile t).active, (s.tile t).shadow)).1
      shadow := (swapPlanes m ((s.tile t).active, (s.tile t).shadow)).2 }, { c with phase := 3 }) := by
  unfold State.arrayAdvance
  rw [hf, if_neg (by exact Bool.false_ne_true), if_neg (Nat.not_le.2 hp), hc]
  rfl

theorem arrayAdvance_accz {q : BitVec 4} {z : BitVec 6} (hc : c.cmd = .accz q z) : s.arrayAdvance t c B =
    some (s.setTile t (c.d1.cells.flatten.foldl (fun (T : Tile) w => T.accPut w 0 none) (s.tile t)), { c with phase := 3 }) := by
  unfold State.arrayAdvance
  rw [hf, if_neg (by exact Bool.false_ne_true), if_neg (Nat.not_le.2 hp), hc]
  rfl

theorem arrayAdvance_histclr {q : BitVec 4} {h : BitVec 6} (hc : c.cmd = .histclr q h) : s.arrayAdvance t c B =
    some (s.mapBlock c.uid fun B => { B with hist := kdel B.hist h.toNat }, { c with phase := 3 }) := by
  unfold State.arrayAdvance
  rw [hf, if_neg (by exact Bool.false_ne_true), if_neg (Nat.not_le.2 hp), hc]
  rfl

end

theorem linkedStart_first {s : State} {t id : Nat} {c : EngCmd} {l : List EngCmd} (hm : (s.tile t).mode = .run)
    (hq : (s.tile t).arrayQ = c :: l) (hid : c.id = id) (hk : takesLinks c.cmd = true) (hp : c.phase = 0) (hl : c.links = []) :
    exec (.linkedStart t id) s = .next (s.setTile t ((s.tile t).setCmd { c with phase := 1 })) := by
  rw [exec_linkedStart]
  unfold execLinkedStart
  dsimp only
  rw [hq]
  exact if_pos ⟨hid, decide_eq_true hm, hk, hp, hl⟩

/-- With nothing completed ahead, only the next number moves the completion value on. -/
theorem complete_compl {L : Timeline} {n : W32} (h : L.ahead = []) :
    (L.complete n).compl = if n = L.compl + 1 then L.compl + 1 else L.compl := by
  unfold Timeline.complete
  rw [h]
  simp only [List.foldl_cons, List.foldl_nil, List.contains_cons, List.contains_nil, Bool.or_false, beq_iff_eq]
  simp only [eq_comm]

/-- Settles O42. -/
theorem engineEvents : Obligations.EngineEvents := by
  refine ⟨fun t id s c B h => ⟨fun hp hw hb ctx hf => complete_last h hp hw hb hf, complete_advance h, fun n hb hn hle hp hm => ?_⟩,
    fun t id s c l hm hq hid hk hp hl => linkedStart_first hm hq hid hk hp hl,
    fun s t c B hf hp => ⟨fun q m hc => arrayAdvance_mswap hf hp hc, fun q z hc => arrayAdvance_accz hf hp hc,
      fun q h hc => arrayAdvance_histclr hf hp hc⟩, fun L n h => ⟨fun hn => ?_, fun hn => ?_⟩⟩
  · obtain ⟨s', hs⟩ := countBytes_some hm
    refine ⟨s', hs, barrier_count h hb hn hle hp hs, ?_⟩
    intro a p ha hpl b hl
    have one := countBytes_one ha hpl (hm a (ha ▸ List.mem_cons_self ..) p hpl) hl
    exact Option.some.inj (hs.symm.trans one)
  · rw [complete_compl h, if_pos hn, hn]
  · rw [complete_compl h, if_neg hn]

end Sys2Proof.Machine
end

section
/-! The proof of O45: SEND and RECV of both instruction sets. -/
namespace Sys2Proof.Machine

/-- What a form does once its instruction may act: a SEND pushes its entries, a RECV waits for those it needs or pops them. -/
def ChanForm.Does (F : ChanForm) (f : State → Issuer → Win → Chan → Out1) : Prop :=
  (∀ g, F.send = some g → ∀ s I W C, f s I W C = pushEntries s I F.ch C F.row F.width (g I.sub W)) ∧
  (F.send = none → ∀ s I W C, f s I W C = if C.entries.length < F.need I.sub then wait s I
    else retire ((if F.need I.sub = 0 then s else setChan s I F.ch { C with entries := C.entries.drop (F.need I.sub) }).l1Clear I.t) I .other
      (F.recv I.sub W (C.entries.take (F.need I.sub))))

theorem sendItem_eq : sendItem = laneItem := by
  funext W U r width j
  cases r <;> rfl

theorem takeItems_eq (W : Win) (U : Sub) (d : LDst) (items : List (Nat × List W32)) :
    takeItems W U d items = if d.nw then U else items.foldl (fun U (j, ws) => writeRegs W U j d.r.toNat ws) U := rfl

theorem headD_take_one {α : Type} (es : List α) (x : α) : (es.take 1).headD x = es.headD x := by
  cases es <;> rfl

theorem zip_take_length {α β : Type} (js : List α) (es : List β) : js.zip (es.take js.length) = js.zip es := by
  induction js generalizing es with
  | nil => rfl
  | cons j js ih =>
    cases es with
    | nil => rfl
    | cons e es => simp [ih]

theorem recvLane_does (d : LDst) (ch : BitVec 6) (n : BitVec 2) (row : Bool) (F : ChanForm) (h : chanForm (.recvLane d ch n row) = some F)
    (s : State) : ∃ f, execRecvLane d ch n row s = channelOp s (.recvLane d ch n row) F.lane [F.use] F.ch F.row F.width f ∧ F.Does f := by
  cases h
  refine ⟨_, by unfold execRecvLane; rfl, ⟨fun g hg => (by cases hg), fun _ s I W C => ?_⟩⟩
  cases row with
  | true => simp only [takeItems_eq, if_true, headD_take_one]
  | false => simp only [takeItems_eq, Bool.false_eq_true, if_false, zip_take_length]

theorem recvUniform_does (d : UDst) (ch : BitVec 6) (n : BitVec 2) (F : ChanForm) (h : chanForm (.recvUniform d ch n) = some F)
    (s : State) : ∃ f, execRecvUniform d ch n s = channelOp s (.recvUniform d ch n) F.lane [F.use] F.ch F.row F.width f ∧ F.Does f := by
  cases h
  refine ⟨_, by unfold execRecvUniform; rfl, ⟨fun g hg => (by cases hg), fun _ s I W C => ?_⟩⟩
  cases C.entries with
  | nil => simp
  | cons x es => simp

/-- Each form's instruction is an operation on its channel. -/
theorem chanForm_does {i : Instr} {F : ChanForm} (h : chanForm i = some F) (s : State) :
    ∃ f, exec i s = channelOp s i F.lane [F.use] F.ch F.row F.width f ∧ F.Does f := by
  cases i
  case sendLane r ch n row =>
    cases h
    refine ⟨_, exec_sendLane.trans (by unfold execSendLane; rfl), ⟨fun g hg s I W C => ?_, fun hn => (by cases hn)⟩⟩
    cases hg
    simp only [sendItem_eq]
  case recvLane d ch n row => exact recvLane_does d ch n row F h s
  case sendUniform r ch n =>
    cases h
    refine ⟨_, exec_sendUniform.trans (by unfold execSendUniform; rfl), ⟨fun g hg s I W C => ?_, fun hn => (by cases hn)⟩⟩
    cases hg
    rfl
  case recvUniform d ch n => exact recvUniform_does d ch n F h s
  all_goals cases h

theorem pushEntries_full {s : State} {I : Issuer} {c width : Nat} {C : Chan} {row : Bool} {es : List (List W32)}
    (h : 32 < C.entries.length + es.length) : pushEntries s I c C row width es = wait s I := if_pos h

theorem pushEntries_room {s : State} {I : Issuer} {c width : Nat} {C : Chan} {row : Bool} {es : List (List W32)}
    (h : C.entries.length + es.length ≤ 32) : pushEntries s I c C row width es =
      retire (if es = [] then s else setChan s I c ⟨row, width, C.entries ++ es⟩) I .other I.sub := by
  refine (if_neg (Nat.not_lt.2 h)).trans ?_
  cases es <;> rfl

/-- Settles O45. -/
theorem channelResult : Obligations.ChannelResult := by
  intro i F s I hF h C barred datum goes none_ fits set
  obtain ⟨f, hx, hsend, hrecv⟩ := chanForm_does hF s
  have e := channelOp_runs h hx
  have idle : (F.lane && !F.row && I.sub.actives.isEmpty) = true ↔ none_ := by
    simp only [Bool.and_eq_true, Bool.not_eq_true', List.isEmpty_iff, and_assoc, none_]
  have differs : (!C.entries.isEmpty && (C.row != F.row || C.width != F.width)) = true ↔ ¬ fits := by
    simp only [fits, Bool.and_eq_true, Bool.not_eq_true', Bool.or_eq_true, bne_iff_ne, List.isEmpty_eq_false_iff, not_or,
      Classical.not_and_iff_not_or_not, ne_eq]
  have past : goes → exec i s =
      if (!(F.lane && !F.row && I.sub.actives.isEmpty)) = true ∧ (!C.entries.isEmpty && (C.row != F.row || C.width != F.width)) = true then
        trapWhole s I F.lane 8 1 datum
      else if !(F.lane && !F.row && I.sub.actives.isEmpty) && !I.sub.quiet then wait s I
      else becomeNonRetry s I fun s' I' => f s' I' (s.window I) (I'.block.chan F.ch) := by
    rintro ⟨h1, h2, h3⟩
    rw [h1, h2, h3, if_neg Bool.false_ne_true, if_neg Bool.false_ne_true, if_neg Bool.false_ne_true] at e
    refine e.trans (ite_iff_congr ?_ rfl rfl)
    rw [Bool.and_assoc, Bool.and_eq_true]
    rfl
  have goes' : goes → none_ ∨ (fits ∧ I.sub.quiet = true) → I.gang.free → exec i s = f s I (s.window I) C := by
    intro hg hn hf
    refine (past hg).trans ((if_neg ?_).trans ((if_neg ?_).trans (hf.again _)))
    · rintro ⟨k1, k2⟩
      rcases hn with hn | ⟨hn, -⟩
      · rw [idle.2 hn] at k1; cases k1
      · exact differs.1 k2 hn
    · rcases hn with hn | ⟨-, hn⟩
      · rw [idle.2 hn]; exact Bool.false_ne_true
      · rw [hn, Bool.not_true, Bool.and_false]; exact Bool.false_ne_true
  have busy : ¬ none_ → (!(F.lane && !F.row && I.sub.actives.isEmpty)) = true := fun hn => by
    rw [Bool.not_eq_true', ← Bool.not_eq_true]
    exact fun k => hn (idle.1 k)
  refine ⟨fun hst => ⟨_, e.trans (if_pos hst)⟩, fun hst hd => ?_, fun hst hd hl => ?_, fun hg hn hf => ?_, fun hg hn hf hq => ?_, fun hg hn hf => ?_⟩
  · rw [hst, hd, if_neg Bool.false_ne_true, if_pos rfl] at e
    exact ⟨_, e⟩
  · rw [hst, hd, hl, if_neg Bool.false_ne_true, if_neg Bool.false_ne_true, if_pos rfl] at e
    exact e
  · exact (past hg).trans (if_pos ⟨busy hn, differs.2 hf⟩)
  · refine (past hg).trans ((if_neg fun k => differs.1 k.2 hf).trans ((if_pos ?_).trans (wait_eq h.issuer)))
    rw [busy hn, hq]; rfl
  · have now := goes' hg hn hf
    refine ⟨fun g hs => ?_, fun hs => ?_⟩
    · intro es
      have push := now.trans (hsend g hs s I (s.window I) C)
      exact ⟨fun hl _ => push.trans ((pushEntries_full hl).trans (wait_eq h.issuer)), fun hl => push.trans (pushEntries_room hl)⟩
    · intro k
      have pop := now.trans (hrecv hs s I (s.window I) C)
      exact ⟨fun hl => pop.trans ((if_pos hl).trans (wait_eq h.issuer)), fun hl => pop.trans (if_neg (Nat.not_lt.2 hl))⟩

end Sys2Proof.Machine
end

section
/-! The proofs of O46, O47 and O48: the skein instructions. -/
namespace Sys2Proof.Machine

/-! ### Checks of GET, PUT and KNOT -/

theorem knot_does {g h : BitVec 8} {s : State} {I : Issuer} (hI : s.issuer = some I) {p k : Nat} {K : Skein} {m : Nat} {st : Stage}
    (hs : InStage s I p k K m st) :
    let live : BitVec 16 := h ++ g
    (2 ^ st.win ≤ live.toNat → Traps s (.knot g h) I 16 3 K.desc) ∧
    (live.toNat < 2 ^ st.win → wholeGang I = false → Traps s (.knot g h) I 16 5 K.desc) ∧
    (live.toNat < 2 ^ st.win → wholeGang I = true → K.stopping = true → StopsAtKnot s (.knot g h) I p k K m st 3 live) ∧
    (live.toNat < 2 ^ st.win → wholeGang I = true → K.stopping = false → SkeinDone s s (.knot g h) I I.sub) := by
  intro live
  have e := (exec_knot_runs (g := g) (h := h) hI).trans (inStage_of hs _)
  have narrow : live.toNat < 2 ^ st.win → exec (.knot g h) s = if !wholeGang I then trapSkein s I K 5
      else if K.stopping then stopAtKnot s I p k K m st 3 live else retireSk s I I.sub := fun hw => e.trans (if_neg (Nat.not_le.2 hw))
  have whole : live.toNat < 2 ^ st.win → wholeGang I = true → exec (.knot g h) s =
      if K.stopping then stopAtKnot s I p k K m st 3 live else retireSk s I I.sub := fun hw hg =>
    (narrow hw).trans (if_neg (by rw [hg]; exact Bool.false_ne_true))
  refine ⟨fun hw => e.trans (if_pos hw), fun hw hg => (narrow hw).trans (if_pos (by rw [hg]; rfl)),
    fun hw hg hk => stopAtKnot_does hI ((whole hw hg).trans (if_pos hk)), fun hw hg hk => (whole hw hg).trans (if_neg ?_)⟩
  rw [hk]; exact Bool.false_ne_true

/-- Settles O46. -/
theorem skeinChecks : Obligations.SkeinChecks := by
  refine ⟨fun i F s I hF h => ?_, fun g h s I hI => ⟨fun hn => ?_, fun p k K m st hs => knot_does hI hs⟩⟩
  · obtain ⟨f, e⟩ := form_runs hF h
    obtain ⟨outside, inside⟩ := link_runs h.issuer e
    refine ⟨outside, fun p k K m st hs => ?_⟩
    obtain ⟨foreign, own⟩ := inside p k K m st hs
    refine ⟨foreign, fun hl => ?_⟩
    obtain ⟨fails, stops, -⟩ := own hl
    exact ⟨fails, stops⟩
  · exact ⟨_, (exec_knot_runs hI).trans (inStage_not hn _)⟩

/-! ### Rows -/

theorem getDoes_rows {s : State} {I : Issuer} (hI : s.issuer = some I) (x : BitVec 7) (ch : BitVec 6) (n : BitVec 2) (pm : BitVec 3)
    (p k : Nat) (K : Skein) (m : Nat) (st : Stage) (q : Nat) (l : SkLink)
    (e : exec (.get (.v x) ch n pm) s = getDoes (.v x) n pm s I (s.window I) p k K m st q l) :
    let i := Instr.get (.v x) ch n pm
    let off := K.ringAt q
    let head := I.block.spadLe off 4
    let tail := I.block.spadLe (off + 4) 4
    let ended := I.block.spadLe (off + 8) 4
    let take := fun row => takeRow (s.window I) I.sub (4 * K.slices) x.toNat (n.toNat + 1) pm row
    (K.folded = false → l.rows = [] → Waits s i I) ∧
    (K.folded = false → ∀ rest, l.rows = none :: rest → SkeinDone s s i I (take none)) ∧
    (K.folded = false → ∀ row rest, l.rows = some row :: rest →
      SkeinDone s (s.setSkein p k (K.setLink q { l with rows := rest, notices := l.notices + 1 })) i I (take (some row))) ∧
    (K.folded = true → head ≠ tail → SkeinDone s (s.setBlock I.t I.gang.ctx (I.block.setWord off (head + 1))) i I
      (take (some (I.block.ringRow off (rowBytes K.slices l.item) (head % l.depth))))) ∧
    (K.folded = true → head = tail → ended ≠ 0 → SkeinDone s s i I (take none)) ∧
    (K.folded = true → head = tail → ended = 0 → LeavesStage s i I p k K m st 1 (m - 1)) := by
  intro i off head tail ended take
  have spread : K.folded = false → exec i s = match l.rows with
      | [] => wait s I
      | none :: _ => retireSk s I (take none)
      | some ws :: rest => retireSk (s.setSkein p k (K.setLink q { l with rows := rest, notices := l.notices + 1 })) I (take (some ws)) :=
    fun hf => e.trans (if_neg (by rw [hf]; exact Bool.false_ne_true))
  have folded : K.folded = true → exec i s = if head ≠ tail then
        retireSk (s.setBlock I.t I.gang.ctx (I.block.setWord off (head + 1))) I
          (take (some (I.block.ringRow off (rowBytes K.slices l.item) (head % l.depth))))
      else if ended ≠ 0 then retireSk s I (take none) else leaveStage s I p k K m st 1 (m - 1) :=
    fun hf => e.trans (if_pos hf)
  refine ⟨fun hf hr => ?_, fun hf rest hr => ?_, fun hf row rest hr => ?_, fun hf hh => (folded hf).trans (if_pos hh),
    fun hf hh he => (folded hf).trans ((if_neg (Classical.not_not.2 hh)).trans (if_pos he)),
    fun hf hh he => leaveStage_does hI ((folded hf).trans ((if_neg (Classical.not_not.2 hh)).trans (if_neg (Classical.not_not.2 he))))⟩
  · have e := spread hf
    rw [hr] at e
    exact e.trans (wait_eq hI)
  · have e := spread hf
    rw [hr] at e
    exact e
  · have e := spread hf
    rw [hr] at e
    exact e

theorem putDoes_rows {s : State} {I : Issuer} (hI : s.issuer = some I) (r : Opnd) (ch : BitVec 6) (n : BitVec 2) (eos : Bool) (first : Nat)
    (hfirst : eos = false → first = itemReg r) (p k : Nat) (K : Skein) (m : Nat) (st : Stage) (q : Nat) (l : SkLink)
    (e : exec (.put r ch n eos) s = putDoes r n eos s I (s.window I) p k K m st q l) :
    let i := Instr.put r ch n eos
    let off := K.ringAt q
    let size := rowBytes K.slices l.item
    let head := I.block.spadLe off 4
    let tail := I.block.spadLe (off + 4) 4
    let row := buildRow (s.window I) I.sub (4 * K.slices) first (n.toNat + 1)
    let K' := if eos then K.setStage m { st with eos := true } else K
    let gone := match K.stages[m + 1]? with | some c => c.gone | none => true
    let full := ¬ (tail + 2 ^ 32 - head) % 2 ^ 32 < l.depth
    let promised := (l.waiting.filter Option.isSome).length
    let held := l.waiting ≠ [] ∨ ∃ c, K.stages[m + 1]? = some c ∧ s.stageOpen c = false
    (gone = true → SkeinDone s (s.setSkein p k K') i I I.sub) ∧
    (gone = false → K.folded = false → eos = false → l.credits ≤ promised → Waits s i I) ∧
    (gone = false → K.folded = false → (eos = true ∨ promised < l.credits) → ¬ held → SkeinDone s (s.setSkein p k (K'.setLink q
      { l with credits := l.credits - (if eos then 0 else 1), flight := l.flight ++ [if eos then none else some row] })) i I I.sub) ∧
    (gone = false → K.folded = false → (eos = true ∨ promised < l.credits) → held → SkeinDone s (s.setSkein p k (K'.setLink q
      { l with waiting := l.waiting ++ [if eos then none else some row] })) i I I.sub) ∧
    (gone = false → K.folded = true → eos = true →
      SkeinDone s ((s.setSkein p k K').setBlock I.t I.gang.ctx (I.block.setWord (off + 8) 1)) i I I.sub) ∧
    (gone = false → K.folded = true → eos = false → full → LeavesStage s i I p k K m st 2 (m + 1)) ∧
    (gone = false → K.folded = true → eos = false → ¬ full →
      SkeinDone s (s.setBlock I.t I.gang.ctx ((I.block.putRow off size (tail % l.depth) row).setWord (off + 4) (tail + 1))) i I I.sub) := by
  intro i off size head tail row K' gone full promised held
  have item : (if eos then none else some (buildRow (s.window I) I.sub (4 * K.slices) (itemReg r) (n.toNat + 1))) =
      if eos then none else some row := by
    cases eos with
    | true => rfl
    | false => simp only [row, hfirst rfl]
  have e' : exec i s = if gone then retireSk (s.setSkein p k K') I I.sub
      else if K.folded then
        if eos then retireSk ((s.setSkein p k K').setBlock I.t I.gang.ctx (I.block.setWord (off + 8) 1)) I I.sub
        else if (tail + 2 ^ 32 - head) % 2 ^ 32 < l.depth then retireSk (s.setBlock I.t I.gang.ctx
          ((I.block.putRow off size (tail % l.depth) (buildRow (s.window I) I.sub (4 * K.slices) (itemReg r) (n.toNat + 1))).setWord (off + 4) (tail + 1))) I I.sub
        else leaveStage s I p k K m st 2 (m + 1)
      else if !eos && decide (l.credits ≤ promised) then wait s I
      else if !l.waiting.isEmpty || !(match K.stages[m + 1]? with | some c => s.stageOpen c | none => true) then
        retireSk (s.setSkein p k (K'.setLink q { l with waiting := l.waiting ++ [if eos then none else some row] })) I I.sub
      else retireSk (s.setSkein p k (K'.setLink q
        { l with credits := l.credits - (if eos then 0 else 1), flight := l.flight ++ [if eos then none else some row] })) I I.sub := by
    rw [← item]
    exact e
  clear e item
  have isHeld : (!l.waiting.isEmpty || !(match K.stages[m + 1]? with | some c => s.stageOpen c | none => true)) = true ↔ held := by
    simp only [Bool.or_eq_true, Bool.not_eq_true', List.isEmpty_eq_false_iff, held]
    refine or_congr Iff.rfl ?_
    cases K.stages[m + 1]? with
    | none => simp
    | some c => simp
  have live : gone = false → K.folded = false → (eos = true ∨ promised < l.credits) → exec i s =
      if !l.waiting.isEmpty || !(match K.stages[m + 1]? with | some c => s.stageOpen c | none => true) then
        retireSk (s.setSkein p k (K'.setLink q { l with waiting := l.waiting ++ [if eos then none else some row] })) I I.sub
      else retireSk (s.setSkein p k (K'.setLink q
        { l with credits := l.credits - (if eos then 0 else 1), flight := l.flight ++ [if eos then none else some row] })) I I.sub := by
    intro hg hf hc
    rw [hg, hf, if_neg Bool.false_ne_true, if_neg Bool.false_ne_true] at e'
    refine e'.trans (if_neg ?_)
    rw [Bool.and_eq_true, Bool.not_eq_true', decide_eq_true_eq]
    rintro ⟨h1, h2⟩
    rcases hc with hc | hc
    · rw [hc] at h1; cases h1
    · omega
  refine ⟨fun hg => e'.trans (if_pos hg), fun hg hf he hc => ?_, fun hg hf hc hh => (live hg hf hc).trans (if_neg fun k => hh (isHeld.1 k)),
    fun hg hf hc hh => (live hg hf hc).trans (if_pos (isHeld.2 hh)), fun hg hf he => ?_, fun hg hf he hfull => ?_, fun hg hf he hfull => ?_⟩
  · rw [hg, hf, if_neg Bool.false_ne_true, if_neg Bool.false_ne_true] at e'
    refine (e'.trans (if_pos ?_)).trans (wait_eq hI)
    rw [he, decide_eq_true hc]; rfl
  · rw [hg, hf, if_neg Bool.false_ne_true, if_pos rfl] at e'
    exact e'.trans (if_pos he)
  · rw [hg, hf, if_neg Bool.false_ne_true, if_pos rfl] at e'
    refine leaveStage_does hI (e'.trans ((if_neg ?_).trans (if_neg hfull)))
    rw [he]; exact Bool.false_ne_true
  · rw [hg, hf, if_neg Bool.false_ne_true, if_pos rfl, ← hfirst he] at e'
    refine e'.trans ((if_neg ?_).trans (if_pos (Classical.not_not.1 hfull)))
    rw [he]; exact Bool.false_ne_true

/-- Settles O47. -/
theorem skeinRows : Obligations.SkeinRows := by
  intro i F s I p k K m st q l hF h hs hl hc hk hq hql
  dsimp only
  refine ⟨fun x ch n pm hi => ?_, fun r ch n eos hi => ?_⟩
  · subst hi
    obtain ⟨-, inside⟩ := link_runs h.issuer (get_runs hF h)
    obtain ⟨-, own⟩ := inside p k K m st hs
    obtain ⟨-, -, runs⟩ := own hl
    exact getDoes_rows h.issuer x ch n pm p k K m st q l (runs hc hk q l hq hql)
  · subst hi
    obtain ⟨e, hreg⟩ := put_runs hF h
    obtain ⟨-, inside⟩ := link_runs h.issuer e
    obtain ⟨-, own⟩ := inside p k K m st hs
    obtain ⟨-, -, runs⟩ := own hl
    have width : F.width = n.toNat + 1 := by
      cases eos <;> cases r <;> cases hF <;> rfl
    rw [width]
    exact putDoes_rows h.issuer r ch n eos F.first (fun he => (hreg he).1) p k K m st q l (runs hc hk q l hq hql)

/-! ### SKFOLD, SKSPREAD and SKQRY -/

/-- SKFOLD and SKSPREAD once the request may act. -/
def skeinSwitchNow (d : UDst) (va : Word) (fa : Nat) (fold : Bool) (s : State) (I : Issuer) : Out1 :=
  match readSource s I va 256, s.ownerOf I, s.part I.block.part with
  | .fault c, _, _ => trapAt s I c.group c.code c.datum
  | .ok s bs, some (t, ctx, B), some P =>
    let desc := SkDesc.ofBytes bs
    if 8 ≤ desc.form ∨ ((desc.form = 0 ∨ desc.form = 6) ∧ ¬ desc.valid (B.rcd.spad * 4096)) then trapAt s I 16 1 va
    else
      let (s, code) := s.skeinAct I.block.part P B t ctx I.sub.gang va fa desc fold
      again s fun s I => retire s I .other (I.sub.setDst d (BitVec.ofNat 64 code))
  | _, _, _ => wait s I

theorem skeinSwitch_eq {s : State} {i : Instr} {I : Issuer} {d : UDst} {a : Opnd} (fold : Bool) (hi : i = if fold then .skfold d a else .skspread d a)
    (h : Issues s i false [.src a, .udst d 1 false] I) {va : Word} (hv : uniVal (s.window I) 0 I.sub a = va) :
    exec i s =
      match check s I.t I.block.vf I.block.world va .read 1 with
      | .error c => trapAt s I c.group c.code c.datum
      | .ok _ =>
        match check s I.t I.block.vf I.block.world va .write 1 with
        | .error c => trapAt s I c.group c.code c.datum
        | .ok (fa, e) =>
          if va.toNat % 256 ≠ 0 then trapAt s I 16 1 va
          else if I.sub.acquirePending || I.sub.overlapsPending false 256 ⟨none, va, 0, 0, false, .pending⟩ then wait s I
          else becomeNonRetry (s.fillTlb I.t e) I (skeinSwitchNow d va fa fold) := by
  cases fold with
  | true =>
    subst hi
    have h : Issues s (.skfold d a) false [.src a, .udst d 1 false] I := h
    show execSkfold d a s = _
    unfold execSkfold skeinSwitch
    exact (h.plain _).trans (by subst hv; rfl)
  | false =>
    subst hi
    have h : Issues s (.skspread d a) false [.src a, .udst d 1 false] I := h
    show execSkspread d a s = _
    unfold execSkspread skeinSwitch
    exact (h.plain _).trans (by subst hv; rfl)

theorem skqry_eq {s : State} {I : Issuer} {d : UDst} {a : Opnd} (h : Issues s (.skqry d a) false [.src a, .udst d 1 false] I)
    {va : Word} (hv : uniVal (s.window I) 0 I.sub a = va) :
    exec (.skqry d a) s =
      match check s I.t I.block.vf I.block.world va .read 4 with
      | .error c => trapAt s I c.group c.code c.datum
      | .ok (_, e) =>
        if I.sub.acquirePending || I.sub.overlapsPending false 4 ⟨none, va, 0, 0, false, .pending⟩ then wait s I
        else
          match readSource (s.fillTlb I.t e) I va 4 with
          | .fault c => trapAt s I c.group c.code c.datum
          | .wait => wait s I
          | .ok s bs =>
            let x := leNat (overlayHeld s I va bs)
            again (s.l1Clear I.t) fun s I => retire s I .other (I.sub.setDst d (BitVec.ofNat 64 x)) :=
  exec_skqry.trans ((h.plain _).trans (by subst hv; rfl))

theorem overlayHeld_none {s : State} {I : Issuer} {va : Word} {bs : List Byte} (h : I.gang.retry.held = []) : overlayHeld s I va bs = bs := by
  unfold overlayHeld
  rw [h]
  rfl

theorem again_runs (s : State) (k : RunKind) (g : Sub → Sub) :
    ∃ t', (again s fun s I => Machine.retire s I k (g I.sub)) = .next t' ∧ ∀ J, s.issuer = some J → t' = s.setSub J.t J.u ((g J.sub).retire k) := by
  cases e : s.issuer with
  | none =>
    refine ⟨s, by unfold again; rw [e], fun J hJ => by cases hJ⟩
  | some J =>
    refine ⟨_, again_of e _, fun J' hJ => ?_⟩
    cases hJ
    rfl

theorem skeinSwitchNow_does {s0 s s1 : State} {I : Issuer} {d : UDst} {va : Word} {fa : Nat} {fold : Bool} {bs : List Byte} {t ctx : Nat} {B : Block}
    {P : Part} (hI : s0.issuer = some I) (same : SameIssuer s0 s I) (ho : s.ownerOf I = some (t, ctx, B)) (hP : s.part I.block.part = some P)
    (hr : readSource s I va 256 = .ok s1 bs) :
    let desc := SkDesc.ofBytes bs
    let bad := 8 ≤ desc.form ∨ ((desc.form = 0 ∨ desc.form = 6) ∧ desc.valid (B.rcd.spad * 4096) = false)
    let act := s1.skeinAct I.block.part P B t ctx I.sub.gang va fa desc fold
    (bad → skeinSwitchNow d va fa fold s I = .next (takeTrap s1 I.t I.u ⟨16, 1, 0xFF, 0, va, false, none, I.sub.pc⟩)) ∧
    (¬ bad → act.2 ≠ 0 → skeinSwitchNow d va fa fold s I =
      .next (s1.setSub I.t I.u ((I.sub.setDst d (BitVec.ofNat 64 act.2)).retire .other))) ∧
    (¬ bad → ∃ t', skeinSwitchNow d va fa fold s I = .next t' ∧ ∀ J, act.1.issuer = some J →
      t' = act.1.setSub J.t J.u ((J.sub.setDst d (BitVec.ofNat 64 act.2)).retire .other)) := by
  intro desc bad act
  have e : skeinSwitchNow d va fa fold s I = if bad then trapAt s1 I 16 1 va
      else again act.1 fun s I => retire s I .other (I.sub.setDst d (BitVec.ofNat 64 act.2)) := by
    unfold skeinSwitchNow
    rw [hr, ho, hP]
    refine ite_iff_congr (or_congr Iff.rfl (and_congr Iff.rfl ?_)) rfl rfl
    exact Bool.not_eq_true _ ▸ Iff.rfl
  refine ⟨fun hb => e.trans (if_pos hb), fun hb hc => ?_, fun hb => ?_⟩
  · have unchanged : act.1 = s1 := skeinAct_same hc
    refine (e.trans (if_neg hb)).trans ?_
    rw [unchanged]
    exact retire_with hI (same.trans (SameIssuer.readPieces _ s va 256 [] hr)) (fun U => U.setDst d (BitVec.ofNat 64 act.2))
  · rw [e, if_neg hb]
    exact again_runs act.1 .other fun U => U.setDst d (BitVec.ofNat 64 act.2)

/-! ### EXIT of a stage -/

theorem exit_stage {s : State} {I : Issuer} {p k : Nat} {K : Skein} {m : Nat} {st : Stage} (hI : s.issuer = some I) (hs : InStage s I p k K m st)
    (hl : I.sub.logsEmpty = true) (hw : wholeGang I = true) : exec .exit s = stageExit s I p k K m st := by
  obtain ⟨h1, h2, h3⟩ := hs
  have e := exit_eq hI
  rw [hl, hw, h1, h2, h3] at e
  exact e

/-- EXIT of a spread stage that others follow or precede: EOS goes out on its link, or waits at it, where it has not sent one. -/
theorem stageExit_spread (s : State) (I : Issuer) (p k : Nat) (K : Skein) (m : Nat) (st : Stage) (hf : K.folded = false) :
    let push := m + 1 < K.stages.length ∧ st.eos = false
    let K' := K.setStage m { st with place := .exited, eos := true, atKnot := false, slices := [] }
    ∀ n, K'.nextStage m = some n →
      (¬ push → stageExit s I p k K m st = .next ((s.setSkein p k K').leaveGang I.t I.u)) ∧
      (push → ∀ l, K'.links[m]? = some l →
        let on := l.waiting = [] ∧ ∀ c, K.stages[m + 1]? = some c → c.gone = true ∨ s.stageOpen c = true
        (on → stageExit s I p k K m st = .next ((s.setSkein p k (K'.setLink m { l with flight := l.flight ++ [none] })).leaveGang I.t I.u)) ∧
        (¬ on → stageExit s I p k K m st = .next ((s.setSkein p k (K'.setLink m { l with waiting := l.waiting ++ [none] })).leaveGang I.t I.u))) := by
  intro push K' n hn
  have isPush : (decide (m + 1 < K.stages.length) && !st.eos) = true ↔ push := by simp [push]
  have e : stageExit s I p k K m st = .next ((s.setSkein p k (match K'.links[m]? with
      | some l =>
        if !(decide (m + 1 < K.stages.length) && !st.eos) then K'
        else if l.waiting.isEmpty && (match K.stages[m + 1]? with | some c => c.gone || s.stageOpen c | none => true) then
          K'.setLink m { l with flight := l.flight ++ [none] }
        else K'.setLink m { l with waiting := l.waiting ++ [none] }
      | none => K')).leaveGang I.t I.u) := by
    unfold stageExit
    dsimp only
    rw [show (K.setStage m { st with place := .exited, eos := true, atKnot := false, slices := [] }).nextStage m = some n from hn]
    exact if_neg (by rw [hf]; exact Bool.false_ne_true)
  refine ⟨fun hp => ?_, fun hp l hl => ?_⟩
  · have hp' : (decide (m + 1 < K.stages.length) && !st.eos) = false := by rw [← Bool.not_eq_true, isPush]; exact hp
    rw [hp'] at e
    refine e.trans ?_
    cases K'.links[m]? <;> rfl
  · rw [isPush.2 hp, hl] at e
    have isOn : (l.waiting.isEmpty && (match K.stages[m + 1]? with | some c => c.gone || s.stageOpen c | none => true)) = true ↔
        (l.waiting = [] ∧ ∀ c, K.stages[m + 1]? = some c → c.gone = true ∨ s.stageOpen c = true) := by
      rw [Bool.and_eq_true, List.isEmpty_iff]
      refine and_congr Iff.rfl ?_
      cases K.stages[m + 1]? with
      | none => simp
      | some c => simp
    refine ⟨fun on => ?_, fun on => ?_⟩
    · refine e.trans ?_
      exact congrArg (fun K => (.next ((s.setSkein p k K).leaveGang I.t I.u) : Out1)) (if_pos (isOn.2 on))
    · refine e.trans ?_
      exact congrArg (fun K => (.next ((s.setSkein p k K).leaveGang I.t I.u) : Out1)) (if_neg fun k => on (isOn.1 k))

theorem stageExit_folded (s : State) (I : Issuer) (p k : Nat) (K : Skein) (m : Nat) (st : Stage) (hf : K.folded = true) (hk : K.stopping = false) :
    let K' := K.setStage m { st with place := .exited, eos := true, atKnot := false, slices := [] }
    ∀ n, K'.nextStage m = some n → stageExit s I p k K m st = .next (State.transferTo (State.setSkein
      (if m + 1 < K.stages.length ∧ st.eos = false then s.setBlock I.t I.gang.ctx (I.block.setWord (K.ringAt m + 8) 1) else s) p k K')
        I.t I.u p k n) := by
  intro K' n hn
  unfold stageExit
  dsimp only
  rw [show (K.setStage m { st with place := .exited, eos := true, atKnot := false, slices := [] }).nextStage m = some n from hn]
  dsimp only
  rw [hf, hk, if_pos rfl, if_neg Bool.false_ne_true]
  refine congrArg (fun s => (.next ((State.setSkein s p k K').transferTo I.t I.u p k n) : Out1)) (ite_iff_congr ?_ rfl rfl)
  simp

theorem stageExit_last (s : State) (I : Issuer) (p k : Nat) (K : Skein) (m : Nat) (st : Stage) :
    let K' := K.setStage m { st with place := .exited, eos := true, atKnot := false, slices := [] }
    K'.nextStage m = none → stageExit s I p k K m st =
      if s.stateOpen K then .next (((s.leaveGang I.t I.u).setSkein p k K').endSkein p k K' 7) else wait s I := by
  intro K' hn
  unfold stageExit
  dsimp only
  rw [show (K.setStage m { st with place := .exited, eos := true, atKnot := false, slices := [] }).nextStage m = none from hn]

/-- Settles O48. -/
theorem Skein.skeinSwitch : Obligations.SkeinSwitch := by
  refine ⟨⟨fun i d a fold s I hi h => ?_, fun d a s I h => ?_⟩, fun s I p k K m st hI hs hl hw => ?_⟩
  · intro va chk owed
    have e := skeinSwitch_eq fold hi h (va := va) rfl
    refine ⟨fun c hc => ?_, fun er c hr hc => ?_, fun er fa x hr hc => ?_⟩
    · have hc' : check s I.t I.block.vf I.block.world va .read 1 = .error c := hc
      rw [hc'] at e
      exact e
    · have hr' : check s I.t I.block.vf I.block.world va .read 1 = .ok er := hr
      have hc' : check s I.t I.block.vf I.block.world va .write 1 = .error c := hc
      rw [hr', hc'] at e
      exact e
    · have hr' : check s I.t I.block.vf I.block.world va .read 1 = .ok er := hr
      have hc' : check s I.t I.block.vf I.block.world va .write 1 = .ok (fa, x) := hc
      rw [hr', hc'] at e
      have aligned : va.toNat % 256 = 0 → exec i s = if owed then wait s I
          else becomeNonRetry (s.fillTlb I.t x) I (skeinSwitchNow d va fa fold) := fun ha => e.trans (if_neg (Classical.not_not.2 ha))
      refine ⟨fun ha => e.trans (if_pos ha), fun ha ho => ((aligned ha).trans (if_pos ho)).trans (wait_eq h.issuer),
        fun ha ho hf s1 bs t ctx B P hown hP hread => ?_⟩
      have now : exec i s = skeinSwitchNow d va fa fold (s.fillTlb I.t x) I :=
        ((aligned ha).trans (if_neg (by rw [ho]; exact Bool.false_ne_true))).trans (hf.again _)
      rw [now]
      exact skeinSwitchNow_does h.issuer (SameIssuer.fillTlb s I.t x I) hown hP hread
  · intro va owed
    have e := skqry_eq h (va := va) rfl
    refine ⟨fun c hc => ?_, fun fa x hc => ?_⟩
    · have hc' : check s I.t I.block.vf I.block.world va .read 4 = .error c := hc
      rw [hc'] at e
      exact e
    · have hc' : check s I.t I.block.vf I.block.world va .read 4 = .ok (fa, x) := hc
      rw [hc'] at e
      dsimp only at e
      refine ⟨fun ho => (e.trans (if_pos ho)).trans (wait_eq h.issuer), fun ho s1 bs hr hheld => ?_⟩
      have hr' : readSource (s.fillTlb I.t x) I va 4 = .ok s1 bs := hr
      have same : SameIssuer s (s1.l1Clear I.t) I :=
        ((SameIssuer.fillTlb s I.t x I).trans (SameIssuer.readPieces _ _ va 4 [] hr)).trans (SameIssuer.l1Clear s1 I.t I)
      rw [hr'] at e
      refine (e.trans (if_neg (show ¬ owed = true by rw [ho]; exact Bool.false_ne_true))).trans ?_
      dsimp only
      rw [overlayHeld_none hheld]
      exact retire_with h.issuer same fun U => U.setDst d (BitVec.ofNat 64 (leNat bs))
  · intro push K'
    have e := exit_stage hI hs hl hw
    refine ⟨fun hn ho => ?_, fun hn ho => ?_, fun n hn => ⟨fun hf hp => ?_, fun hf hp => ?_, fun hf hk => ?_⟩⟩
    · refine (e.trans ((stageExit_last s I p k K m st hn).trans (if_neg ?_))).trans (wait_eq hI)
      rw [ho]; exact Bool.false_ne_true
    · exact e.trans ((stageExit_last s I p k K m st hn).trans (if_pos ho))
    · exact e.trans ((stageExit_spread s I p k K m st hf n hn).1 hp)
    · rw [e]
      exact (stageExit_spread s I p k K m st hf n hn).2 hp
    · exact e.trans (stageExit_folded s I p k K m st hf hk n hn)

end Sys2Proof.Machine
end

section
/-! The proof of O43: the structural operations of the home strand unit. -/
namespace Sys2Proof.Machine

/-! ### Segments of the pool -/

theorem kdel_absent {α : Type} (m : KMap α) (k : Nat) (h : kget m k = none) : kdel m k = m := by
  induction m with
  | nil => rfl
  | cons p m ih =>
    obtain ⟨j, v⟩ := p
    unfold kget at h
    unfold kdel
    split at h
    · cases h
    · next hj => rw [if_neg hj, ih h]

/-- Steps round a pool of T that are fewer than T end in different places. -/
theorem ring_steps_nodup (x T n : Nat) (h : n ≤ T) : ((List.range n).map fun k => (x + k) % T).Nodup := by
  refine List.pairwise_map.2 (List.Pairwise.imp_of_mem (fun {a b} _ hb hab heq => ?_) List.pairwise_lt_range)
  have hbT : b < T := Nat.lt_of_lt_of_le (List.mem_range.1 hb) h
  have : (x + b - (x + a)) % T = 0 := Nat.sub_mod_eq_zero_of_mod_eq heq.symm
  rw [Nat.add_sub_add_left, Nat.mod_eq_of_lt (by omega)] at this
  omega

/-- Counting: as many steps round a pool as its taken segments and one more meet a segment that is not taken, where there is one. -/
theorem ring_meets_free (x T : Nat) (taken : List Nat) {g : Nat} (hg : g < T) (hfree : g ∉ taken) :
    ∃ k ∈ List.range (taken.length + 1), (x + k) % T ∉ taken := by
  refine Classical.byContradiction fun none_ => ?_
  have hall : ∀ k ∈ List.range (taken.length + 1), (x + k) % T ∈ taken := fun k hk =>
    Classical.byContradiction fun hn => none_ ⟨k, hk, hn⟩
  by_cases hT : T ≤ taken.length + 1
  · have : (x + (g + (T - x % T)) % T) % T = g := by
      have hx : x % T < T := Nat.mod_lt x (by omega)
      rw [Nat.add_mod, Nat.mod_mod, ← Nat.add_mod]
      have : x + (g + (T - x % T)) = g + T * (x / T + 1) := by
        have := Nat.div_add_mod x T
        rw [Nat.mul_add, Nat.mul_one]
        omega
      rw [this, Nat.add_mul_mod_self_left, Nat.mod_eq_of_lt hg]
    have lt : (g + (T - x % T)) % T < taken.length + 1 := Nat.lt_of_lt_of_le (Nat.mod_lt _ (by omega)) hT
    exact hfree (this ▸ hall _ (List.mem_range.2 lt))
  · have sub : ((List.range (taken.length + 1)).map fun k => (x + k) % T) ⊆ taken := by
      intro y hy
      obtain ⟨k, hk, rfl⟩ := List.mem_map.1 hy
      exact hall k hk
    have := (ring_steps_nodup x T (taken.length + 1) (by omega)).length_le_of_subset sub
    rw [List.length_map, List.length_range] at this
    omega

theorem pickSegs_one (P : Part) (x : Nat) (taken : List Nat) :
    ((∀ g, g < P.segTotal → g ∈ taken) → P.pickSegs x taken 1 = none) ∧
    ((∃ g, g < P.segTotal ∧ g ∉ taken) → ∃ g, P.pickSegs x taken 1 = some [g]) := by
  have found : ∀ k, (decide (0 < P.segTotal) && !taken.contains ((x + k) % P.segTotal)) = true ↔
      0 < P.segTotal ∧ (x + k) % P.segTotal ∉ taken := fun k => by
    rw [Bool.and_eq_true, decide_eq_true_eq, Bool.not_eq_true', List.contains_eq_mem, decide_eq_false_iff_not]
  refine ⟨fun h => ?_, fun ⟨g, hg, hfree⟩ => ?_⟩
  · have none_ : ((List.range (taken.length + 1)).find? fun k => decide (0 < P.segTotal) && !taken.contains ((x + k) % P.segTotal)) = none := by
      refine List.find?_eq_none.2 fun k _ hk => ?_
      obtain ⟨hp, hn⟩ := (found k).1 hk
      exact hn (h _ (Nat.mod_lt _ hp))
    unfold Part.pickSegs
    rw [none_]
  · obtain ⟨k, hk, hmiss⟩ := ring_meets_free x P.segTotal taken hg hfree
    have some_ : (((List.range (taken.length + 1)).find? fun k => decide (0 < P.segTotal) && !taken.contains ((x + k) % P.segTotal))).isSome = true :=
      List.find?_isSome.2 ⟨k, hk, (found k).2 ⟨by omega, hmiss⟩⟩
    obtain ⟨k', hk'⟩ := Option.isSome_iff_exists.1 some_
    refine ⟨(x + k') % P.segTotal, ?_⟩
    unfold Part.pickSegs
    rw [hk']
    unfold Part.pickSegs
    rfl

/-- A new empty strand takes one segment of the pool, where one is free. -/
theorem place_new (P : Part) (seed b home size : Nat) (hb : kget P.strands b = none) :
    let taken := fun g => g ∈ P.segsUsed ∨ g ∈ P.tainted ∨ g ∈ P.retired
    let new := P.place seed b ⟨home, size, [], [], [], [], 0⟩ [] [] [] false
    ((∀ g, g < P.segTotal → taken g) → new = none) ∧
    ((∃ g, g < P.segTotal ∧ ¬ taken g) → ∃ g, new = some ({ P with
      strands := kset P.strands b ⟨home, size, [], [], [g], [], 0 + 1⟩, tainted := P.tainted } : Part).retire) := by
  intro taken new
  have used : Part.segsUsed { P with strands := kdel P.strands b } = P.segsUsed := by rw [kdel_absent _ _ hb]
  have e : new = (P.pickSegs (Config.freeWord seed 1).toNat (P.segsUsed ++ [] ++ [] ++ [] ++ P.tainted ++ P.retired) 1).elim none fun gs =>
      some ({ P with strands := kset P.strands b ⟨home, size, [], [], gs.take 1, [], 0 + 1⟩, tainted := P.tainted ++ [] } : Part).retire := by
    rw [← used]
    show P.place _ _ _ _ _ _ _ = _
    have st : gather (4096 / size) [] 0 = [] := rfl
    unfold Part.place
    simp only [st, keptSegs, looseSegs, nodeCount, layOut, poisonedSegs, List.filterMap_nil, List.foldl_nil, List.filter_nil, List.length_nil,
      Bool.false_and, Bool.false_eq_true, if_false, if_true, Nat.add_zero, Nat.zero_add, Nat.sub_zero, List.nil_append]
    cases P.pickSegs (Config.freeWord seed 1).toNat _ 1 <;> rfl
  simp only [List.append_nil, List.append_assoc] at e
  obtain ⟨all, one⟩ := pickSegs_one P (Config.freeWord seed 1).toNat (P.segsUsed ++ (P.tainted ++ P.retired))
  have mem : ∀ g, g ∈ P.segsUsed ++ (P.tainted ++ P.retired) ↔ taken g := fun g => by rw [List.mem_append, List.mem_append]
  refine ⟨fun h => ?_, fun ⟨g, hg, hn⟩ => ?_⟩
  · rw [e, all fun g hg => (mem g).2 (h g hg)]
    rfl
  · obtain ⟨g', hg'⟩ := one ⟨g, hg, fun k => hn ((mem g).1 k)⟩
    refine ⟨g', ?_⟩
    rw [e, hg']
    rfl


/-! ### What each operation does on a strand that exists -/

theorem opSins_some {P : Part} {seed id : Nat} {a : W32} {r n : Word} {bytes : List Byte} {t : Strand} (ht : P.strandAt a = some t) :
    opSins P seed id a r n bytes =
      if t.elems.length < r.toNat then failed P id 1 r
      else if rankLimit ≤ t.elems.length + n.toNat then failed P id 2 r
      else if n = 0 then (P, id, .res 0)
      else (P.place seed a.toNat { t with elems := t.elems.take r.toNat ++ newElems id t.esize n.toNat bytes ++ t.elems.drop r.toNat } t.held []
        (frontOf t.segs r.toNat ++ .loose n.toNat :: backOf t.segs r.toNat) false).elim (failed P id 3 r) fun P => (P, id + n.toNat, .res 0) := by
  unfold opSins
  rw [ht]
  dsimp only
  cases P.place seed a.toNat _ _ _ _ _ <;> rfl

theorem opSdel_some {P : Part} {seed id : Nat} {a : W32} {r n : Word} {t : Strand} (ht : P.strandAt a = some t) :
    opSdel P seed id a r n =
      if rankLimit ≤ r.toNat then failed P id 1 r
      else if rankLimit ≤ n.toNat then failed P id 2 r
      else if t.elems.length < r.toNat + n.toNat then failed P id 1 r
      else if n = 0 then (P, id, .res 0)
      else (P.place seed a.toNat { t with
          elems := t.elems.take r.toNat ++ t.elems.drop (r.toNat + n.toNat)
          gone := t.gone ++ P.anchored (((t.elems.drop r.toNat).take n.toNat).map (·.uid)) }
          t.held [] (frontOf t.segs r.toNat ++ backOf t.segs (r.toNat + n.toNat)) true).elim (failed P id 3 r) fun P => (P, id, .res 0) := by
  unfold opSdel
  rw [ht]
  dsimp only
  cases P.place seed a.toNat _ _ _ _ _ <;> rfl

theorem opSsplit_some {P : Part} {seed id : Nat} {a : W32} {r : Word} {t : Strand} (ht : P.strandAt a = some t) :
    opSsplit P seed id a r =
      if t.elems.length < r.toNat then failed P id 1 r
      else if P.hasCursor a then failed P id 6 r
      else (P.freeIndex t.home).elim (failed P id 3 r) fun i =>
        ((P.place seed a.toNat { t with elems := t.elems.take r.toNat } t.held (keptSegs (backOf t.segs r.toNat)) (frontOf t.segs r.toNat)
            false).bind fun P =>
          P.place (seed + 1) (strandId t.home i) ⟨t.home, t.esize, t.elems.drop r.toNat, [], [], [], 0⟩ t.held [] (backOf t.segs r.toNat) false).elim
          (failed P id 3 r) fun P => (P, id, .res (BitVec.ofNat 128 (strandId t.home i))) := by
  unfold opSsplit
  rw [ht]
  dsimp only
  cases P.freeIndex t.home with
  | none => rfl
  | some i =>
    dsimp only [Option.elim]
    cases Option.bind (P.place seed a.toNat _ _ _ _ _) _ <;> rfl

/-- Copies of elements under fresh names from id. -/
def copiesOf (id : Nat) (es : List Elem) : List Elem := es.zipIdx.map fun x => { x.1 with uid := id + x.2 }

theorem copiesOf_map {α : Type} (f : Elem → α) (id : Nat) (es : List Elem) (hf : ∀ e u, f { e with uid := u } = f e) :
    (copiesOf id es).map f = es.map f := by
  have : es.map f = (es.zipIdx.map Prod.fst).map f := by rw [List.zipIdx_map_fst]
  rw [this, copiesOf, List.map_map, List.map_map]
  exact List.map_congr_left fun x _ => hf x.1 _

theorem copiesOf_bytes (id : Nat) (es : List Elem) : (copiesOf id es).map (·.bytes) = es.map (·.bytes) := copiesOf_map _ id es fun _ _ => rfl

theorem copiesOf_poison (id : Nat) (es : List Elem) : (copiesOf id es).map (·.poison) = es.map (·.poison) := copiesOf_map _ id es fun _ _ => rfl

theorem copiesOf_uid (id : Nat) (es : List Elem) : (copiesOf id es).map (·.uid) = (List.range es.length).map (id + ·) := by
  have : List.range es.length = es.zipIdx.map Prod.snd := by rw [List.zipIdx_map_snd, List.range_eq_range']
  rw [this, copiesOf, List.map_map, List.map_map]
  rfl

theorem opScat_some {P : Part} {seed id : Nat} {a b : W32} {share : Bool} {t u : Strand} (ht : P.strandAt a = some t) (hu : P.strandAt b = some u) :
    opScat P seed id a b share =
      if t.esize ≠ u.esize ∨ t.home ≠ u.home then failed P id 5 0
      else if a = b then failed P id 10 0
      else if P.hasCursor a || (!share && P.hasCursor b) then failed P id 6 0
      else if rankLimit ≤ t.elems.length + u.elems.length then failed P id 2 0
      else if share then
        (P.place seed a.toNat { t with elems := t.elems ++ copiesOf id u.elems } t.held []
          (frontOf (t.segs ++ u.segs) rankLimit) false).elim (failed P id 3 0)
          fun P => (P, id + (copiesOf id u.elems).length, .res 0)
      else
        ((P.place seed b.toNat { u with elems := [] } u.nodes (u.segs.map (·.1)) [] false).bind fun P =>
          P.place (seed + 1) a.toNat { t with elems := t.elems ++ u.elems } (t.held ++ u.segs.map (·.1)) [] (frontOf (t.segs ++ u.segs) rankLimit)
            false).elim (failed P id 3 0) fun P => (P, id, .res 0) := by
  unfold opScat
  rw [ht, hu]
  dsimp only [copiesOf]
  cases share with
  | true =>
    simp only [if_true]
    cases P.place seed a.toNat _ _ _ _ _ <;> rfl
  | false =>
    simp only [Bool.false_eq_true, if_false]
    cases Option.bind (P.place seed b.toNat _ _ _ _ _) _ <;> rfl

/-- The cursors after SGAP has opened n from entry h up, before the element of a rank. -/
def openGap (cs : KMap Cursor) (t : Strand) (a : W32) (id h n rank : Nat) : KMap Cursor :=
  (List.range n).foldl (fun m i => kset m (h + i) ⟨t.home, a, id, i, [], (t.elems.take rank).map (·.uid)⟩) cs

theorem opSgap_some {P : Part} {id : Nat} {a : W32} {r k : Word} {t : Strand} (ht : P.strandAt a = some t) :
    opSgap P id a r k =
      if t.elems.length < r.toNat then failed P id 1 r
      else if k.toNat = 0 ∨ 32 < k.toNat then failed P id 7 r
      else (P.freeCursors t.home k.toNat).elim (failed P id 7 r) fun h =>
        ({ P with cursors := openGap P.cursors t a id h k.toNat r.toNat }, id + 1, .res (BitVec.ofNat 128 h)) := by
  unfold opSgap
  rw [ht]
  dsimp only
  cases P.freeCursors t.home k.toNat <;> rfl

theorem opSapnd_some {P : Part} {seed id : Nat} {c : W32} {n : Word} {bytes : List Byte} {k : Cursor} {t : Strand} (hc : P.cursorAt c = some k)
    (ht : P.strandAt k.strand = some t) :
    opSapnd P seed id c n bytes =
      if rankLimit ≤ t.elems.length + n.toNat then failed P id 2 0
      else if n = 0 then (P, id, .res 0)
      else (P.place seed k.strand.toNat { t with
          elems := t.elems.take (P.appendPos k t) ++ newElems id t.esize n.toNat bytes ++ t.elems.drop (P.appendPos k t) } t.held []
          (frontOf t.segs (P.appendPos k t) ++ .loose n.toNat :: backOf t.segs (P.appendPos k t)) false).elim (failed P id 3 0) fun P =>
        ({ P with cursors := kset P.cursors c.toNat { k with mine := k.mine ++ (newElems id t.esize n.toNat bytes).map (·.uid) } },
          id + n.toNat, .res 0) := by
  unfold opSapnd
  rw [hc]
  dsimp only
  rw [ht]
  dsimp only
  cases P.place seed k.strand.toNat _ _ _ _ _ <;> rfl

theorem opSanch_some {P : Part} {id : Nat} {a : W32} {r : Word} {t : Strand} (ht : P.strandAt a = some t) :
    opSanch P id a r = (t.elems[r.toNat]?).elim (failed P id 1 r) fun e =>
      (P.anchorOn t.home e.uid).elim (failed P id 8 r) fun x => (x.1, id, .res (x.2.setWidth 128)) := by
  unfold opSanch
  rw [ht]
  dsimp only
  cases t.elems[r.toNat]? with
  | none => rfl
  | some e =>
    dsimp only [Option.elim]
    cases P.anchorOn t.home e.uid <;> rfl

theorem opSnew_eq (P : Part) (seed id : Nat) (size home : Word) :
    opSnew P seed id size home =
      if ¬ [1, 2, 4, 8, 16, 32, 64].contains size.toNat then failed P id 9 0
      else if home.toNat > 3 ∨ ¬ ((List.range 4).any fun k => P.fields.getLsbD (4 * home.toNat + k)) then failed P id 11 0
      else (P.freeIndex home.toNat).elim (failed P id 3 0) fun i =>
        (P.place seed (strandId home.toNat i) ⟨home.toNat, size.toNat, [], [], [], [], 0⟩ [] [] [] false).elim (failed P id 3 0)
          fun P => (P, id, .res (BitVec.ofNat 128 (strandId home.toNat i))) := by
  unfold opSnew
  cases P.freeIndex home.toNat with
  | none => rfl
  | some i =>
    dsimp only [Option.elim]
    cases P.place seed (strandId home.toNat i) _ _ _ _ _ <;> rfl

/-! ### The request's operation -/

section
variable {P : Part} {seed id : Nat} {r : StrandReq} {t : Strand}

/-- The argument k of a request. -/
abbrev StrandReq.arg (r : StrandReq) (k : Nat) : Word := r.args.getD k 0

theorem step_snew {o q n} (h : r.i = .snew o q n) : strandStep P seed id r = opSnew P seed id (r.arg 0) (r.arg 1) := by simp only [strandStep, h]
theorem step_sfree {o} (h : r.i = .sfree o) : strandStep P seed id r = opSfree P id r.strand := by simp only [strandStep, h]
theorem step_slen {o n} (h : r.i = .slen o n) : strandStep P seed id r = opSlen P id r.strand := by simp only [strandStep, h]
theorem step_sins {o q z n} (h : r.i = .sins o q z n) : strandStep P seed id r = opSins P seed id r.strand (r.arg 0) (r.arg 1) r.bytes := by
  simp only [strandStep, h]
theorem step_sdel {o q n} (h : r.i = .sdel o q n) : strandStep P seed id r = opSdel P seed id r.strand (r.arg 0) (r.arg 1) := by
  simp only [strandStep, h]
theorem step_ssplit {o q n} (h : r.i = .ssplit o q n) : strandStep P seed id r = opSsplit P seed id r.strand (r.arg 0) := by
  simp only [strandStep, h]
theorem step_scat {o q sh} (h : r.i = .scat o q sh) : strandStep P seed id r = opScat P seed id r.strand ((r.arg 0).setWidth 32) sh := by
  simp only [strandStep, h]
theorem step_sgap {o q n} (h : r.i = .sgap o q n) : strandStep P seed id r = opSgap P id r.strand (r.arg 0) (r.arg 1) := by
  simp only [strandStep, h]
theorem step_sapnd {o n} (h : r.i = .sapnd o n) : strandStep P seed id r = opSapnd P seed id r.strand (r.arg 0) r.bytes := by
  simp only [strandStep, h]
theorem step_sclose {o} (h : r.i = .sclose o) : strandStep P seed id r = opSclose P id r.strand := by simp only [strandStep, h]
theorem step_sanch {o q n} (h : r.i = .sanchUniform o q n) : strandStep P seed id r = opSanch P id r.strand (r.arg 0) := by
  simp only [strandStep, h]
theorem step_srank {o pm n} (h : r.i = .srankUniform o pm n) : strandStep P seed id r = opSrank P id (r.arg 0) := by simp only [strandStep, h]

/-- An optional part that an operation leaves: none fails, some is done. -/
theorem elim_fails_or_does {o : Option Part} {c : Byte} {x : Word} {id' : Nat} {res : BitVec 128} {f : Part → Part}
    (e : strandStep P seed id r = o.elim (failed P id c x) fun P' => (f P', id', .res res)) :
    StrandFails P seed id r c x ∨ ∃ P', o = some P' ∧ StrandDoes P seed id r res (f P') := by
  cases o with
  | none => exact .inl e
  | some P' => exact .inr ⟨P', rfl, id', e⟩

/-! ### Failures where nothing of that name exists -/

theorem strand_missing (ha : P.strandAt r.strand = none) :
    ((∃ o, r.i = .sfree o) ∨ (∃ o n, r.i = .slen o n) → StrandFails P seed id r 4 0) ∧
    ((∃ o q z n, r.i = .sins o q z n) ∨ (∃ o q n, r.i = .sdel o q n) ∨ (∃ o q n, r.i = .ssplit o q n) ∨ (∃ o q n, r.i = .sgap o q n) ∨
      (∃ o q n, r.i = .sanchUniform o q n) → StrandFails P seed id r 4 (r.args.getD 0 0)) := by
  refine ⟨?_, ?_⟩
  · rintro (⟨o, h⟩ | ⟨o, n, h⟩)
    · exact (step_sfree h).trans (by simp only [opSfree, ha]; rfl)
    · exact (step_slen h).trans (by simp only [opSlen, ha]; rfl)
  · rintro (⟨o, q, z, n, h⟩ | ⟨o, q, n, h⟩ | ⟨o, q, n, h⟩ | ⟨o, q, n, h⟩ | ⟨o, q, n, h⟩)
    · exact (step_sins h).trans (by simp only [opSins, ha]; rfl)
    · exact (step_sdel h).trans (by simp only [opSdel, ha]; rfl)
    · exact (step_ssplit h).trans (by simp only [opSsplit, ha]; rfl)
    · exact (step_sgap h).trans (by simp only [opSgap, ha]; rfl)
    · exact (step_sanch h).trans (by simp only [opSanch, ha]; rfl)

theorem cursor_missing (hc : P.cursorAt r.strand = none) (h : (∃ o, r.i = .sclose o) ∨ ∃ o n, r.i = .sapnd o n) : StrandFails P seed id r 7 0 := by
  rcases h with ⟨o, h⟩ | ⟨o, n, h⟩
  · exact (step_sclose h).trans (by simp only [opSclose, hc]; rfl)
  · exact (step_sapnd h).trans (by simp only [opSapnd, hc]; rfl)

/-! ### SNEW -/

theorem snew_does {o q n} (hi : r.i = .snew o q n) :
    let x := r.args.getD 0 0
    let y := r.args.getD 1 0
    (x.toNat ∉ [1, 2, 4, 8, 16, 32, 64] → StrandFails P seed id r 9 0) ∧
    (x.toNat ∈ [1, 2, 4, 8, 16, 32, 64] → (3 < y.toNat ∨ ∀ k, k < 4 → P.fields.getLsbD (4 * y.toNat + k) = false) → StrandFails P seed id r 11 0) ∧
    (x.toNat ∈ [1, 2, 4, 8, 16, 32, 64] → y.toNat ≤ 3 → (∃ k, k < 4 ∧ P.fields.getLsbD (4 * y.toNat + k) = true) →
      let taken := fun g => g ∈ P.segsUsed ∨ g ∈ P.tainted ∨ g ∈ P.retired
      ((∀ g, g < P.segTotal → taken g) → StrandFails P seed id r 3 0) ∧ (P.freeIndex y.toNat = none → StrandFails P seed id r 3 0) ∧
      ((∃ g, g < P.segTotal ∧ ¬ taken g) → P.freeIndex y.toNat ≠ none → ∃ b P', StrandDoes P seed id r (BitVec.ofNat 128 b) P' ∧
        kget P.strands b = none ∧ b / 2 ^ 30 = y.toNat ∧
        (∃ t, kget P'.strands b = some t ∧ t.elems = [] ∧ t.esize = x.toNat ∧ t.home = y.toNat ∧ t.held.length = 1) ∧
        (∀ c, c ≠ b → kget P'.strands c = kget P.strands c) ∧ P'.cursors = P.cursors ∧ P'.anchors = P.anchors)) := by
  intro x y
  have e := (step_snew (P := P) (seed := seed) (id := id) hi).trans (opSnew_eq ..)
  have known : ([1, 2, 4, 8, 16, 32, 64] : List Nat).contains x.toNat = true ↔ x.toNat ∈ [1, 2, 4, 8, 16, 32, 64] := List.contains_iff_mem
  have fielded : ((List.range 4).any fun k => P.fields.getLsbD (4 * y.toNat + k)) = true ↔ ∃ k, k < 4 ∧ P.fields.getLsbD (4 * y.toNat + k) = true := by
    simp only [List.any_eq_true, List.mem_range]
  have sized := fun hx : x.toNat ∈ [1, 2, 4, 8, 16, 32, 64] => e.trans (if_neg (Classical.not_not.2 (known.2 hx)))
  refine ⟨fun hx => e.trans (if_pos fun k => hx (known.1 k)), fun hx hy => (sized hx).trans (if_pos ?_), fun hx hy hf => ?_⟩
  · rcases hy with hy | hy
    · exact .inl hy
    · refine .inr fun k => ?_
      obtain ⟨j, hj, hb⟩ := fielded.1 k
      rw [hy j hj] at hb
      cases hb
  · intro taken
    have e := (sized hx).trans (if_neg (by
      rintro (h | h)
      · exact absurd h (Nat.not_lt.2 hy)
      · exact h (fielded.2 hf)))
    cases hfree : P.freeIndex y.toNat with
    | none =>
      have e : strandStep P seed id r = failed P id 3 0 := e.trans (by rw [show P.freeIndex (r.arg 1).toNat = none from hfree]; rfl)
      exact ⟨fun _ => e, fun _ => e, fun _ hn => absurd rfl hn⟩
    | some i =>
      obtain ⟨hb, hhome⟩ := freeIndex_spec hfree
      obtain ⟨full, room⟩ := place_new P seed (strandId y.toNat i) y.toNat x.toNat hb
      have e : strandStep P seed id r = (P.place seed (strandId y.toNat i) ⟨y.toNat, x.toNat, [], [], [], [], 0⟩ [] [] [] false).elim (failed P id 3 0)
          fun P => (P, id, .res (BitVec.ofNat 128 (strandId y.toNat i))) :=
        e.trans (by rw [show P.freeIndex (r.arg 1).toNat = some i from hfree]; rfl)
      refine ⟨fun hall => e.trans (by rw [full hall]; rfl), fun hn => (by cases hn), fun hroom _ => ?_⟩
      obtain ⟨g, hg⟩ := room hroom
      rw [hg] at e
      refine ⟨strandId y.toNat i, _, ⟨id, e⟩, hb, hhome, ⟨_, kget_kset_same .., rfl, rfl, rfl, rfl⟩,
        fun c hc => kget_kset_ne _ _ hc, rfl, rfl⟩

/-! ### Operations on the elements of one strand -/

theorem sins_does {o q z n} (hi : r.i = .sins o q z n) (ht : P.strandAt r.strand = some t) :
    let x := r.args.getD 0 0
    let y := r.args.getD 1 0
    let L := t.elems.length
    (L < x.toNat → StrandFails P seed id r 1 x) ∧ (x.toNat ≤ L → 2 ^ 40 ≤ L + y.toNat → StrandFails P seed id r 2 x) ∧
    (x.toNat ≤ L → L + y.toNat < 2 ^ 40 → y = 0 → StrandDoes P seed id r 0 P) ∧
    (x.toNat ≤ L → L + y.toNat < 2 ^ 40 → y ≠ 0 → StrandFails P seed id r 3 x ∨ ∃ P' new, StrandDoes P seed id r 0 P' ∧
      NewElems id t.esize y.toNat r.bytes new ∧ P.Holds P' r.strand (t.elems.take x.toNat ++ new ++ t.elems.drop x.toNat) ∧
      P.Rest P' [r.strand.toNat]) := by
  intro x y L
  have e := (step_sins (P := P) (seed := seed) (id := id) hi).trans (opSins_some ht)
  have in_ := fun hx : x.toNat ≤ L => e.trans (if_neg (Nat.not_lt.2 hx))
  have short := fun (hx : x.toNat ≤ L) (hy : L + y.toNat < 2 ^ 40) => (in_ hx).trans (if_neg (Nat.not_le.2 hy))
  refine ⟨fun hx => e.trans (if_pos hx), fun hx hy => (in_ hx).trans (if_pos hy), fun hx hy h0 => ⟨id, (short hx hy).trans (if_pos h0)⟩,
    fun hx hy h0 => ?_⟩
  refine (elim_fails_or_does (f := fun P => P) ((short hx hy).trans (if_neg h0))).imp_right fun ⟨P', hp, hd⟩ => ?_
  obtain ⟨holds, rest, -⟩ := holds_put (gone := t.gone) ht hp
  exact ⟨P', _, hd, newElems_spec .., holds, rest⟩

theorem mem_anchored {us : List Nat} {u : Nat} (hu : u ∈ us) (h : ∃ k A, (k, A) ∈ P.anchors ∧ A.elem = some u) : u ∈ P.anchored us := by
  obtain ⟨k, A, hm, hA⟩ := h
  refine List.mem_filter.2 ⟨hu, List.any_eq_true.2 ⟨(k, A), hm, ?_⟩⟩
  simp [hA]

theorem sdel_does {o q n} (hi : r.i = .sdel o q n) (ht : P.strandAt r.strand = some t) :
    let x := r.args.getD 0 0
    let y := r.args.getD 1 0
    let L := t.elems.length
    (2 ^ 40 ≤ x.toNat → StrandFails P seed id r 1 x) ∧ (x.toNat < 2 ^ 40 → 2 ^ 40 ≤ y.toNat → StrandFails P seed id r 2 x) ∧
    (x.toNat < 2 ^ 40 → y.toNat < 2 ^ 40 → L < x.toNat + y.toNat → StrandFails P seed id r 1 x) ∧
    (x.toNat < 2 ^ 40 → y.toNat < 2 ^ 40 → x.toNat + y.toNat ≤ L → y = 0 → StrandDoes P seed id r 0 P) ∧
    (x.toNat < 2 ^ 40 → y.toNat < 2 ^ 40 → x.toNat + y.toNat ≤ L → y ≠ 0 → StrandFails P seed id r 3 x ∨ ∃ P', StrandDoes P seed id r 0 P' ∧
      P.Holds P' r.strand (t.elems.take x.toNat ++ t.elems.drop (x.toNat + y.toNat)) ∧ P.Rest P' [r.strand.toNat] ∧
      ∀ t', P'.strandAt r.strand = some t' → ∀ e ∈ (t.elems.drop x.toNat).take y.toNat, (∃ k A, (k, A) ∈ P.anchors ∧ A.elem = some e.uid) →
        e.uid ∈ t'.gone) := by
  intro x y L
  have e := (step_sdel (P := P) (seed := seed) (id := id) hi).trans (opSdel_some ht)
  have e1 := fun hx : x.toNat < 2 ^ 40 => e.trans (if_neg (Nat.not_le.2 hx))
  have e2 := fun (hx : x.toNat < 2 ^ 40) (hy : y.toNat < 2 ^ 40) => (e1 hx).trans (if_neg (Nat.not_le.2 hy))
  have e3 := fun (hx : x.toNat < 2 ^ 40) (hy : y.toNat < 2 ^ 40) (hl : x.toNat + y.toNat ≤ L) => (e2 hx hy).trans (if_neg (Nat.not_lt.2 hl))
  refine ⟨fun hx => e.trans (if_pos hx), fun hx hy => (e1 hx).trans (if_pos hy), fun hx hy hl => (e2 hx hy).trans (if_pos hl),
    fun hx hy hl h0 => ⟨id, (e3 hx hy hl).trans (if_pos h0)⟩, fun hx hy hl h0 => ?_⟩
  refine (elim_fails_or_does (f := fun P => P) ((e3 hx hy hl).trans (if_neg h0))).imp_right fun ⟨P', hp, hd⟩ => ?_
  obtain ⟨holds, rest, -⟩ := holds_put ht hp
  refine ⟨P', hd, holds, rest, fun t' ht' el hel han => ?_⟩
  obtain ⟨segs, nodes, tn, rt, rfl⟩ := place_eq hp
  obtain ⟨-, hk⟩ := strandAt_key ht'
  obtain rfl := Option.some.inj ((kget_kset_same ..).symm.trans hk)
  exact List.mem_append.2 (.inr (mem_anchored (List.mem_map.2 ⟨el, hel, rfl⟩) han))

theorem ssplit_does {o q n} (hi : r.i = .ssplit o q n) (ht : P.strandAt r.strand = some t) :
    let x := r.args.getD 0 0
    let L := t.elems.length
    (L < x.toNat → StrandFails P seed id r 1 x) ∧ (x.toNat ≤ L → P.hasCursor r.strand = true → StrandFails P seed id r 6 x) ∧
    (x.toNat ≤ L → P.hasCursor r.strand = false → StrandFails P seed id r 3 x ∨ ∃ b P', StrandDoes P seed id r (BitVec.ofNat 128 b) P' ∧
      kget P.strands b = none ∧ b / 2 ^ 30 = t.home ∧ P.Holds P' r.strand (t.elems.take x.toNat) ∧
      (∃ u, kget P'.strands b = some u ∧ u.elems = t.elems.drop x.toNat ∧ u.esize = t.esize ∧ u.home = t.home) ∧
      P.Rest P' [r.strand.toNat, b]) := by
  intro x L
  have e := (step_ssplit (P := P) (seed := seed) (id := id) hi).trans (opSsplit_some ht)
  have in_ := fun hx : x.toNat ≤ L => e.trans (if_neg (Nat.not_lt.2 hx))
  refine ⟨fun hx => e.trans (if_pos hx), fun hx hc => (in_ hx).trans (if_pos hc), fun hx hc => ?_⟩
  have e := (in_ hx).trans (if_neg (by rw [hc]; exact Bool.false_ne_true))
  cases hfree : P.freeIndex t.home with
  | none => exact .inl (e.trans (by rw [hfree]; rfl))
  | some i =>
    rw [hfree] at e
    obtain ⟨hb, hhome⟩ := freeIndex_spec hfree
    refine (elim_fails_or_does (f := fun P => P) e).imp_right fun ⟨P', hp, hd⟩ => ⟨strandId t.home i, P', hd, hb, hhome, ?_⟩
    obtain ⟨P1, hp1, hp2⟩ := Option.bind_eq_some_iff.1 hp
    obtain ⟨segs1, nodes1, tn1, rt1, rfl⟩ := place_eq hp1
    obtain ⟨segs2, nodes2, tn2, rt2, rfl⟩ := place_eq hp2
    obtain ⟨hz, hk⟩ := strandAt_key ht
    have ne : r.strand.toNat ≠ strandId t.home i := fun k => by rw [k, hb] at hk; cases hk
    refine ⟨⟨t, _, ht, strandAt_of hz ((kget_kset_ne _ _ ne).trans (kget_kset_same ..)), rfl, rfl, rfl, rfl⟩,
      ⟨_, kget_kset_same .., rfl, rfl, rfl⟩, fun c hc => ?_, rfl, rfl⟩
    rw [List.mem_cons, List.mem_singleton, not_or] at hc
    exact (kget_kset_ne _ _ hc.2).trans (kget_kset_ne _ _ hc.1)

theorem scat_does {o q sh} (hi : r.i = .scat o q sh) (ht : P.strandAt r.strand = some t) :
    let L := t.elems.length
    let b : W32 := (r.args.getD 0 0).setWidth 32
    (P.strandAt b = none → StrandFails P seed id r 4 0) ∧
    ∀ u, P.strandAt b = some u →
      (t.esize ≠ u.esize ∨ t.home ≠ u.home → StrandFails P seed id r 5 0) ∧
      (t.esize = u.esize → t.home = u.home → r.strand = b → StrandFails P seed id r 10 0) ∧
      (t.esize = u.esize → t.home = u.home → r.strand ≠ b →
        (P.hasCursor r.strand = true ∨ (sh = false ∧ P.hasCursor b = true) → StrandFails P seed id r 6 0) ∧
        (P.hasCursor r.strand = false → (sh = true ∨ P.hasCursor b = false) →
          (2 ^ 40 ≤ L + u.elems.length → StrandFails P seed id r 2 0) ∧
          (L + u.elems.length < 2 ^ 40 → StrandFails P seed id r 3 0 ∨ ∃ P' es, StrandDoes P seed id r 0 P' ∧ P.Holds P' r.strand (t.elems ++ es) ∧
            (sh = false → es = u.elems ∧ P.Holds P' b [] ∧ P.Rest P' [r.strand.toNat, b.toNat]) ∧
            (sh = true → es.map (·.bytes) = u.elems.map (·.bytes) ∧ es.map (·.poison) = u.elems.map (·.poison) ∧
              es.map (·.uid) = (List.range u.elems.length).map (id + ·) ∧ P.Rest P' [r.strand.toNat])))) := by
  intro L b
  have e0 := step_scat (P := P) (seed := seed) (id := id) hi
  refine ⟨fun hu => e0.trans ?_, fun u hu => ?_⟩
  · unfold opScat
    rw [ht, show P.strandAt ((r.arg 0).setWidth 32) = none from hu] <;> rfl
  have e := e0.trans (opScat_some ht hu)
  have e1 := fun (h1 : t.esize = u.esize) (h2 : t.home = u.home) => e.trans (if_neg (not_or.2 ⟨Classical.not_not.2 h1, Classical.not_not.2 h2⟩))
  have busy : (P.hasCursor r.strand || (!sh && P.hasCursor b)) = true ↔ P.hasCursor r.strand = true ∨ (sh = false ∧ P.hasCursor b = true) := by
    rw [Bool.or_eq_true, Bool.and_eq_true, Bool.not_eq_true']
  refine ⟨fun h => e.trans (if_pos h), fun h1 h2 hab => (e1 h1 h2).trans (if_pos hab), fun h1 h2 hab => ?_⟩
  have e2 := (e1 h1 h2).trans (if_neg hab)
  refine ⟨fun hb => e2.trans (if_pos (busy.2 hb)), fun hca hcb => ?_⟩
  have e3 := e2.trans (if_neg (by
    rw [busy, hca]
    rintro (h | ⟨h, h'⟩)
    · cases h
    · rcases hcb with hcb | hcb
      · rw [h] at hcb; cases hcb
      · rw [h'] at hcb; cases hcb))
  refine ⟨fun hl => e3.trans (if_pos hl), fun hl => ?_⟩
  have e4 := e3.trans (if_neg (Nat.not_le.2 hl))
  cases sh with
  | true =>
    refine (elim_fails_or_does (f := fun P => P) (e4.trans (if_pos rfl))).imp_right fun ⟨P', hp, hd⟩ => ?_
    obtain ⟨holds, rest, -⟩ := holds_put (gone := t.gone) ht hp
    refine ⟨P', _, hd, holds, (by rintro ⟨⟩), fun _ => ⟨copiesOf_bytes .., copiesOf_poison .., copiesOf_uid .., rest⟩⟩
  | false =>
    refine (elim_fails_or_does (f := fun P => P) (e4.trans (if_neg Bool.false_ne_true))).imp_right fun ⟨P', hp, hd⟩ => ?_
    obtain ⟨P1, hp1, hp2⟩ := Option.bind_eq_some_iff.1 hp
    obtain ⟨segs1, nodes1, tn1, rt1, rfl⟩ := place_eq hp1
    obtain ⟨segs2, nodes2, tn2, rt2, rfl⟩ := place_eq hp2
    obtain ⟨hz, hk⟩ := strandAt_key ht
    obtain ⟨hzb, hkb⟩ := strandAt_key hu
    have ne : b.toNat ≠ r.strand.toNat := fun k => hab (BitVec.eq_of_toNat_eq k.symm)
    refine ⟨_, u.elems, hd, ⟨t, _, ht, strandAt_of hz (kget_kset_same ..), rfl, rfl, rfl, rfl⟩, fun _ => ⟨rfl,
      ⟨u, _, hu, strandAt_of hzb ((kget_kset_ne _ _ ne).trans (kget_kset_same ..)), rfl, rfl, rfl, rfl⟩, fun c hc => ?_, rfl, rfl⟩,
      (by rintro ⟨⟩)⟩
    rw [List.mem_cons, List.mem_singleton, not_or] at hc
    exact (kget_kset_ne _ _ hc.1).trans (kget_kset_ne _ _ hc.2)

theorem sgap_does {o q n} (hi : r.i = .sgap o q n) (ht : P.strandAt r.strand = some t) :
    let x := r.args.getD 0 0
    let y := r.args.getD 1 0
    let L := t.elems.length
    (L < x.toNat → StrandFails P seed id r 1 x) ∧ (x.toNat ≤ L → (y.toNat = 0 ∨ 32 < y.toNat) → StrandFails P seed id r 7 x) ∧
    (x.toNat ≤ L → 1 ≤ y.toNat → y.toNat ≤ 32 → StrandFails P seed id r 7 x ∨ ∃ h P', StrandDoes P seed id r (BitVec.ofNat 128 h) P' ∧
      P'.strands = P.strands ∧ P'.anchors = P.anchors ∧ (∀ k, k < y.toNat → kget P'.cursors (h + k) =
        some ⟨t.home, r.strand, id, k, [], (t.elems.take x.toNat).map (·.uid)⟩) ∧
      (∀ c, (c < h ∨ h + y.toNat ≤ c) → kget P'.cursors c = kget P.cursors c)) := by
  intro x y L
  have e := (step_sgap (P := P) (seed := seed) (id := id) hi).trans (opSgap_some ht)
  have in_ := fun hx : x.toNat ≤ L => e.trans (if_neg (Nat.not_lt.2 hx))
  refine ⟨fun hx => e.trans (if_pos hx), fun hx hy => (in_ hx).trans (if_pos hy), fun hx h1 h32 => ?_⟩
  have e := (in_ hx).trans (if_neg (by
    rintro (h | h)
    · exact absurd h (by omega : y.toNat ≠ 0)
    · exact absurd h (Nat.not_lt.2 h32)))
  cases hfree : P.freeCursors t.home y.toNat with
  | none => exact .inl (e.trans (by rw [show P.freeCursors t.home (r.arg 1).toNat = none from hfree]; rfl))
  | some h =>
    obtain ⟨new, kept⟩ := kget_fold_kset (fun i => (⟨t.home, r.strand, id, i, [], (t.elems.take x.toNat).map (·.uid)⟩ : Cursor)) h y.toNat P.cursors
    rw [show P.freeCursors t.home (r.arg 1).toNat = some h from hfree] at e
    exact .inr ⟨h, _, ⟨_, e⟩, rfl, rfl, new, kept⟩

theorem sanch_does {o q n} (hi : r.i = .sanchUniform o q n) (ht : P.strandAt r.strand = some t) :
    let x := r.args.getD 0 0
    (t.elems.length ≤ x.toNat → StrandFails P seed id r 1 x) ∧
    (∀ e, t.elems[x.toNat]? = some e → StrandFails P seed id r 8 x ∨ ∃ key gen P',
      StrandDoes P seed id r (BitVec.ofNat 128 (gen.toNat * 2 ^ 32 + key % 2 ^ 32)) P' ∧
      (∀ A, kget P.anchors key = some A → A.elem = none) ∧ kget P'.anchors key = some ⟨gen, some e.uid⟩ ∧
      (∀ c, c ≠ key → kget P'.anchors c = kget P.anchors c) ∧ P'.strands = P.strands ∧ P'.cursors = P.cursors) := by
  intro x
  have e := (step_sanch (P := P) (seed := seed) (id := id) hi).trans (opSanch_some ht)
  refine ⟨fun hx => e.trans ?_, fun el hel => ?_⟩
  · rw [show t.elems[(r.arg 0).toNat]? = none from List.getElem?_eq_none hx]
    rfl
  · rw [show t.elems[(r.arg 0).toNat]? = some el from hel] at e
    cases hanc : P.anchorOn t.home el.uid with
    | none => exact .inl (e.trans (by dsimp only [Option.elim]; rw [hanc] <;> rfl))
    | some at_ =>
      obtain ⟨P', tok⟩ := at_
      obtain ⟨key, gen, rfl, htok, hold⟩ := anchorOn_spec hanc
      have word : tok.setWidth 128 = BitVec.ofNat 128 (gen.toNat * 2 ^ 32 + key % 2 ^ 32) := by
        rw [← htok]
        exact BitVec.eq_of_toNat_eq (by rw [BitVec.toNat_setWidth, BitVec.toNat_ofNat])
      dsimp only [Option.elim] at e
      rw [hanc] at e
      dsimp only at e
      rw [word] at e
      exact .inr ⟨key, gen, _, ⟨id, e⟩, hold, kget_kset_same .., fun c hc => kget_kset_ne _ _ hc, rfl, rfl⟩

theorem slen_does {o n} (hi : r.i = .slen o n) (ht : P.strandAt r.strand = some t) :
    StrandDoes P seed id r (BitVec.ofNat 128 t.elems.length) P := by
  refine ⟨id, (step_slen hi).trans ?_⟩
  unfold opSlen
  rw [ht]

theorem sfree_does {o} (hi : r.i = .sfree o) (ht : P.strandAt r.strand = some t) :
    ∃ P', StrandDoes P seed id r 0 P' ∧ kget P'.strands r.strand.toNat = none ∧
      (∀ b, b ≠ r.strand.toNat → kget P'.strands b = kget P.strands b) ∧
      (∀ h c, (h, c) ∈ P'.cursors ↔ (h, c) ∈ P.cursors ∧ c.strand ≠ r.strand) ∧
      (∀ k A, kget P.anchors k = some A → let of_ := A.elem.any fun u => (t.elems.any fun e => e.uid == u) || t.gone.contains u
        (of_ = true → kget P'.anchors k = some ⟨A.gen + 1, none⟩) ∧ (of_ = false → kget P'.anchors k = some A)) := by
  have e := step_sfree (P := P) (seed := seed) (id := id) hi
  simp only [opSfree, ht] at e
  refine ⟨_, ⟨id, e⟩, kget_kdel_same .., fun b hb => kget_kdel_ne _ hb, fun h c => ?_,
    fun k A hA => ?_⟩
  · exact (mem_kfilter (m := P.cursors) (p := fun _ c => c.strand != r.strand)).trans (and_congr Iff.rfl bne_iff_ne)
  · have e := (freeAnchors_get P (fun e => (t.elems.any fun x => x.uid == e) || t.gone.contains e) k).trans (by rw [hA])
    intro of_
    obtain ⟨gen, el⟩ := A
    cases el with
    | none => exact ⟨fun h => absurd h Bool.false_ne_true, fun _ => e⟩
    | some u =>
      refine ⟨fun h => e.trans (congrArg some (if_pos h)), fun h => e.trans (congrArg some (if_neg ?_))⟩
      exact (Bool.eq_false_iff.1 h)

/-! ### Cursors -/

theorem sclose_does {o} (hi : r.i = .sclose o) {k : Cursor} (hc : P.cursorAt r.strand = some k) :
    ∃ P', StrandDoes P seed id r 0 P' ∧ P'.strands = P.strands ∧ P'.anchors = P.anchors ∧ P'.cursorAt r.strand = none := by
  have e := step_sclose (P := P) (seed := seed) (id := id) hi
  simp only [opSclose, hc] at e
  refine ⟨_, ⟨_, e⟩, rfl, rfl, ?_⟩
  unfold Part.cursorAt
  split
  · refine tidy_none ?_
    have := r.strand.isLt
    exact (kget_kset_ne _ _ (by omega)).trans (kget_kdel_same ..)
  · rfl

theorem sapnd_does {o n} (hi : r.i = .sapnd o n) {k : Cursor} (hc : P.cursorAt r.strand = some k) (ht : P.strandAt k.strand = some t) :
    let x := r.args.getD 0 0
    (2 ^ 40 ≤ t.elems.length + x.toNat → StrandFails P seed id r 2 0) ∧
    (t.elems.length + x.toNat < 2 ^ 40 → x = 0 → StrandDoes P seed id r 0 P) ∧
    (t.elems.length + x.toNat < 2 ^ 40 → x ≠ 0 → StrandFails P seed id r 3 0 ∨ ∃ P' p new, StrandDoes P seed id r 0 P' ∧
      NewElems id t.esize x.toNat r.bytes new ∧ P.Holds P' k.strand (t.elems.take p ++ new ++ t.elems.drop p) ∧ P'.anchors = P.anchors ∧
      p = P.appendPos k t ∧ kget P'.cursors r.strand.toNat = some { k with mine := k.mine ++ new.map (·.uid) }) := by
  intro x
  have e := (step_sapnd (P := P) (seed := seed) (id := id) hi).trans (opSapnd_some hc ht)
  have short := fun h : t.elems.length + x.toNat < 2 ^ 40 => e.trans (if_neg (Nat.not_le.2 h))
  refine ⟨fun h => e.trans (if_pos h), fun h h0 => ⟨id, (short h).trans (if_pos h0)⟩, fun h h0 => ?_⟩
  refine (elim_fails_or_does ((short h).trans (if_neg h0))).imp_right fun ⟨P', hp, hd⟩ => ?_
  obtain ⟨⟨t1, t2, h1, h2, held⟩, ⟨-, -, hanc⟩, -⟩ := holds_put (gone := t.gone) ht hp
  exact ⟨_, _, _, hd, newElems_spec .., ⟨t1, t2, h1, h2, held⟩, hanc, rfl, kget_kset_same ..⟩

/-! ### Ranks of anchors -/

theorem opSrank_of {tok : Word} {P' : Part} {x : Option (Nat × Nat)} (h : P.rankOf tok = (P', x)) :
    opSrank P id tok = (P', id, .ok [(none, rankWords x, x.isSome, none)]) := by
  unfold opSrank
  rw [h]

theorem rankOf_fields (tok : Word) : (tok.extractLsb' 0 18).toNat = tok.toNat % 2 ^ 18 ∧
    (tok.extractLsb' 18 14 = 0#14 ↔ tok.toNat / 2 ^ 18 % 2 ^ 14 = 0) ∧ (tok.extractLsb' 32 32).toNat = tok.toNat / 2 ^ 32 := by
  refine ⟨?_, ?_, ?_⟩
  · rw [BitVec.extractLsb'_toNat]; rfl
  · rw [← BitVec.toNat_inj, BitVec.extractLsb'_toNat, Nat.shiftRight_eq_div_pow]; rfl
  · rw [BitVec.extractLsb'_toNat, Nat.shiftRight_eq_div_pow, Nat.mod_eq_of_lt (by have := tok.isLt; omega)]

/-- Where the element with a name stands: the first strand in order of key that holds one, with its place. -/
def Part.findElem (P : Part) (u : Nat) : Option (Nat × Nat) :=
  P.strands.findSome? fun (k, t) => (t.elems.findIdx? fun e => e.uid == u).map fun r => (r, k)

theorem rankOf_live {tok : Word} {A : Anchor} {u : Nat} (h0 : tok.toNat / 2 ^ 18 % 2 ^ 14 = 0) (hA : kget P.anchors (tok.toNat % 2 ^ 18) = some A)
    (hg : A.gen.toNat = tok.toNat / 2 ^ 32) (hu : A.elem = some u) :
    P.rankOf tok = match P.findElem u with
      | some x => (P, some x)
      | none => ({ P with anchors := kset P.anchors (tok.toNat % 2 ^ 18) ⟨A.gen + 1, none⟩ }, none) := by
  obtain ⟨hk, hz, hgen⟩ := rankOf_fields tok
  have gen : ¬ A.gen ≠ tok.extractLsb' 32 32 := Classical.not_not.2 (BitVec.eq_of_toNat_eq (hg.trans hgen.symm))
  unfold Part.rankOf
  dsimp only
  rw [if_neg (Classical.not_not.2 (hz.2 h0)), hk, hA]
  dsimp only
  rw [if_neg gen, hu] <;> rfl

theorem rankOf_gone {tok : Word} (h : tok.toNat / 2 ^ 18 % 2 ^ 14 ≠ 0 ∨ kget P.anchors (tok.toNat % 2 ^ 18) = none ∨
    ∃ A, kget P.anchors (tok.toNat % 2 ^ 18) = some A ∧ (A.gen.toNat ≠ tok.toNat / 2 ^ 32 ∨ A.elem = none)) : P.rankOf tok = (P, none) := by
  obtain ⟨hk, hz, hgen⟩ := rankOf_fields tok
  unfold Part.rankOf
  dsimp only
  rw [hk]
  split
  · rfl
  · next h0 =>
    rcases h with h | h | ⟨A, hA, h⟩
    · exact absurd (hz.1 (Classical.not_not.1 h0)) h
    · rw [h]
    · rw [hA]
      dsimp only
      split
      · rfl
      · next hg =>
        rcases h with h | h
        · exact absurd ((congrArg BitVec.toNat (Classical.not_not.1 hg)).trans hgen) h
        · rw [h]

theorem findElem_none {u : Nat} (h : ∀ k t, (k, t) ∈ P.strands → ∀ e ∈ t.elems, e.uid ≠ u) : P.findElem u = none := by
  refine List.findSome?_eq_none_iff.2 fun x hx => ?_
  obtain ⟨k, t⟩ := x
  refine Option.map_eq_none_iff.2 (List.findIdx?_eq_none_iff.2 fun e he => ?_)
  exact beq_eq_false_iff_ne.2 (h k t hx e he)

theorem findElem_some {u k : Nat} {t : Strand} {e : Elem} (ht : (k, t) ∈ P.strands) (he : e ∈ t.elems) (hu : e.uid = u) :
    ∃ k' t' m, P.findElem u = some (m, k') ∧ (k', t') ∈ P.strands ∧ (t'.elems[m]?.map (·.uid)) = some u := by
  have : P.findElem u ≠ none := fun hn => by
    have := Option.map_eq_none_iff.1 (List.findSome?_eq_none_iff.1 hn (k, t) ht)
    exact absurd (List.findIdx?_eq_none_iff.1 this e he) (by simp [hu])
  obtain ⟨⟨m, k'⟩, hx⟩ := Option.ne_none_iff_exists'.1 this
  obtain ⟨⟨k2, t2⟩, hmem, hf⟩ := List.exists_of_findSome?_eq_some hx
  obtain ⟨m2, hm, hpair⟩ := Option.map_eq_some_iff.1 hf
  cases hpair
  obtain ⟨hlt, hp, -⟩ := List.findIdx?_eq_some_iff_getElem.1 hm
  refine ⟨k', t2, m, hx, hmem, ?_⟩
  rw [List.getElem?_eq_getElem hlt]
  exact congrArg some (beq_iff_eq.1 hp)

theorem srank_does {o pm n} (hi : r.i = .srankUniform o pm n) :
    let tok := r.args.getD 0 0
    let key := tok.toNat % 2 ^ 18
    let gone := fun P' => strandStep P seed id r = (P', id, .ok [(none, BitVec.ofNat 128 (2 ^ 64 - 1), false, none)])
    ((tok.toNat / 2 ^ 18 % 2 ^ 14 ≠ 0 ∨ kget P.anchors key = none ∨
      ∃ A, kget P.anchors key = some A ∧ (A.gen.toNat ≠ tok.toNat / 2 ^ 32 ∨ A.elem = none)) → gone P) ∧
    ∀ A u, tok.toNat / 2 ^ 18 % 2 ^ 14 = 0 → kget P.anchors key = some A → A.gen.toNat = tok.toNat / 2 ^ 32 → A.elem = some u →
      ((∀ k t, (k, t) ∈ P.strands → ∀ e ∈ t.elems, e.uid ≠ u) → gone { P with anchors := kset P.anchors key ⟨A.gen + 1, none⟩ }) ∧
      (∀ k t e, (k, t) ∈ P.strands → e ∈ t.elems → e.uid = u → ∃ k' t' m, (k', t') ∈ P.strands ∧ (t'.elems[m]?.map (·.uid)) = some u ∧
        strandStep P seed id r = (P, id, .ok [(none, BitVec.ofNat 128 (k' * 2 ^ 64 + m), true, none)])) := by
  intro tok key gone
  refine ⟨fun h => (step_srank hi).trans (opSrank_of (rankOf_gone h)), fun A u h0 hA hg hu => ⟨fun h => ?_, fun k t e ht he heu => ?_⟩⟩
  · have live := rankOf_live h0 hA hg hu
    rw [findElem_none h] at live
    exact (step_srank hi).trans (opSrank_of live)
  · obtain ⟨k', t', m, hf, hm, hk⟩ := findElem_some ht he heu
    have live := rankOf_live h0 hA hg hu
    rw [hf] at live
    exact ⟨k', t', m, hm, hk, (step_srank hi).trans (opSrank_of live)⟩

end

/-- Settles O43. -/
theorem strandStructure : Obligations.StrandStructure := by
  refine ⟨fun P seed id r => ?_, fun P seed id r o pm n hi => srank_does hi⟩
  intro a x y fails does
  exact ⟨strand_missing, fun o q n hi => snew_does hi, cursor_missing, fun o k hi hc => sclose_does hi hc,
    fun o n k t hi hc ht => sapnd_does hi hc ht, fun t ht => ⟨fun o n hi => slen_does hi ht, fun o hi => sfree_does hi ht,
      fun o q z n hi => sins_does hi ht, fun o q n hi => sdel_does hi ht, fun o q n hi => ssplit_does hi ht, fun o q sh hi => scat_does hi ht,
      fun o q n hi => sgap_does hi ht, fun o q n hi => sanch_does hi ht⟩⟩

end Sys2Proof.Machine
end

section
/-! The proof of O44: element accesses at the home strand unit, and strand instructions at issue. -/
namespace Sys2Proof.Machine

/-! ### Element accesses at their home -/

section
variable {P : Part} {seed id : Nat} {r : StrandReq} {op : ElemOp} {n : Nat} {t : Strand}

theorem elem_missing (ho : elementOp r.i = some (op, n)) (ha : P.strandAt r.strand = none) :
    strandStep P seed id r = (P, id, .fail (r.lanes.map fun (l, w, _) => (l, 6, 4, BitVec.ofNat 64 (wordRank w)))) := by
  rw [step_elem ho]
  unfold opElem
  rw [ha]
  simp only [rank_word]

/-- What a lane of an access that fails as a whole reports: its own cause, or none. -/
def outCause (t : Strand) (op : ElemOp) (n : Nat) (x : Option Nat × Word × BitVec 128) : Option Nat × Nat × Byte × Word :=
  if !reaches t x.2.1 n op.whole then (x.1, 6, 1, BitVec.ofNat 64 (wordRank x.2.1)) else (x.1, 0, 0, 0)

theorem not_reaches {w : Word} : (!reaches t w n op.whole) = true ↔ ¬ Reaches t op n w := by
  rw [Bool.not_eq_true', ← Bool.not_eq_true, reaches_eq]

theorem elem_out (ho : elementOp r.i = some (op, n)) (ht : P.strandAt r.strand = some t) (hout : ∃ x ∈ r.lanes, ¬ Reaches t op n x.2.1)
    (hop : op ≠ .load true) : strandStep P seed id r = (P, id, .fail (r.lanes.map (outCause t op n))) := by
  have nf : op.nf = false := by
    cases op with
    | load b => cases b with | true => exact absurd rfl hop | false => rfl
    | store => rfl
    | atomic k => rfl
  obtain ⟨x, hx, hr⟩ := hout
  rw [step_elem ho]
  unfold opElem
  rw [ht]
  dsimp only
  refine (if_pos ?_).trans ?_
  · rw [nf, Bool.not_false, Bool.true_and]
    exact List.any_eq_true.2 ⟨x, hx, not_reaches.2 hr⟩
  · unfold outCause
    simp only [rank_word]

/-- One lane out of range of an access that answers it with a predicate. -/
theorem elem_skipped (ho : elementOp r.i = some (op, n)) (ht : P.strandAt r.strand = some t) {l : Option Nat} {w : Word} {x : BitVec 128}
    (hl : r.lanes = [(l, w, x)]) (hr : ¬ Reaches t op n w) (hop : op = .load true) :
    ∃ P', strandStep P seed id r = (P', id, .ok [(l, 0, false, none)]) ∧ P'.strandAt r.strand = some t ∧ P.Rest P' [r.strand.toNat] := by
  subst hop
  rw [step_elem ho, hl]
  rcases elem_one (seed := seed) (id := id) (l := l) (x := x) ht (op := .load true) (n := n) (w := w) (.inr rfl) with ⟨hw, -⟩ | ⟨P0, t0, h0, rest, -, -, same, e⟩
  · cases hw
  · obtain ⟨rfl, rfl⟩ := same rfl
    dsimp only at e
    rw [if_pos (not_reaches.2 hr)] at e
    exact ⟨_, e, strandAt_of (strandAt_key ht).1 (kget_kset_same ..), rest_put rest _⟩

/-- One lane in range: it fails for want of a segment, or acts on an element of the strand, whose segments may be its own copies. -/
theorem elem_acts (ho : elementOp r.i = some (op, n)) (ht : P.strandAt r.strand = some t) {l : Option Nat} {w : Word} {x : BitVec 128}
    (hl : r.lanes = [(l, w, x)]) (hr : Reaches t op n w) :
    (op.writes = true ∧ strandStep P seed id r = (P, id, .fail (r.lanes.map fun (l, w, _) => (l, 6, 3, BitVec.ofNat 64 (wordRank w))))) ∨
    ∃ (P0 : Part) (t0 : Strand), P.Rest P0 [r.strand.toNat] ∧ t0.esize = t.esize ∧ t0.elems = t.elems ∧ (op.writes = false → P0 = P ∧ t0 = t) ∧
      strandStep P seed id r = ({ P0 with strands := kset P0.strands r.strand.toNat (elemLane P0 t0 op n l w x).1 }, id,
        .ok [(elemLane P0 t0 op n l w x).2]) := by
  rw [step_elem ho, hl]
  rcases elem_one (seed := seed) (id := id) (l := l) (x := x) ht (.inl hr) with h | ⟨P0, t0, -, rest, h1, h2, same, e⟩
  · exact .inl h
  · refine .inr ⟨P0, t0, rest, h1, h2, same, ?_⟩
    dsimp only at e
    rw [if_neg (fun k => not_reaches.1 k hr)] at e
    exact e

theorem elemLane_of {P0 : Part} {t0 : Strand} {l : Option Nat} {w : Word} {x : BitVec 128} {e : Elem} (he : t0.elems[wordRank w]? = some e) :
    elemLane P0 t0 op n l w x =
      if e.poison then (t0, (l, 0, false, some (15, (8 : Byte), P0.lineAt t0 (wordRank w))))
      else match op with
        | .load _ => (t0, (l, BitVec.ofNat 128 (e.value (wordOff w) n), true, none))
        | .store => ({ t0 with elems := t0.elems.set (wordRank w) (setElemBytes e (wordOff w) (natLe n x.toNat)) }, (l, 0, true, none))
        | .atomic k => ({ t0 with elems := t0.elems.set (wordRank w) (setElemBytes e (wordOff w) (natLe n
            (atomicOp k (8 * n) (e.value (wordOff w) n) (x.toNat % 2 ^ (8 * n)) (x.toNat / 2 ^ 64 % 2 ^ (8 * n))))) },
            (l, BitVec.ofNat 128 (e.value (wordOff w) n), true, none)) := by
  obtain ⟨hrank, hoff, -⟩ := rankPart_eq w
  unfold elemLane
  rw [show rankPart w = (wordRank w, wordOff w, (rankPart w).2.2) from by rw [← hrank, ← hoff]]
  dsimp only
  rw [he]
  dsimp only
  cases e.poison with
  | true => rfl
  | false => cases op <;> rfl

theorem elem_does (ho : elementOp r.i = some (op, n)) (ht : P.strandAt r.strand = some t) {l : Option Nat} {w : Word} {x : BitVec 128}
    (hl : r.lanes = [(l, w, x)]) {e : Elem} (hr : Reaches t op n w) (he : t.elems[wordRank w]? = some e) :
    let a := r.strand
    let fails := fun (g : Option Nat × Word × BitVec 128 → Option Nat × Nat × Byte × Word) =>
      strandStep P seed id r = (P, id, .fail (r.lanes.map g))
    (e.poison = true → (fails fun (l, w, _) => (l, 6, 3, BitVec.ofNat 64 (wordRank w))) ∨ ∃ P' t', P'.strandAt a = some t' ∧
      strandStep P seed id r = (P', id, .ok [(l, 0, false, some (15, 8, P'.lineAt t' (wordRank w)))]) ∧
      (op.writes = false → P'.strandAt a = some t)) ∧
    (e.poison = false → ∀ b, op = .load b → ∃ P', strandStep P seed id r =
        (P', id, .ok [(l, BitVec.ofNat 128 (e.value (wordOff w) n), true, none)]) ∧ P'.strandAt a = some t ∧ P.Rest P' [a.toNat]) ∧
    (e.poison = false → op = .store → (fails fun (l, w, _) => (l, 6, 3, BitVec.ofNat 64 (wordRank w))) ∨ ∃ P',
      strandStep P seed id r = (P', id, .ok [(l, 0, true, none)]) ∧ P'.Wrote a t (wordRank w) (wordOff w) n x.toNat ∧ P.Rest P' [a.toNat]) ∧
    (e.poison = false → ∀ k, op = .atomic k → (fails fun (l, w, _) => (l, 6, 3, BitVec.ofNat 64 (wordRank w))) ∨ ∃ P',
      let old := e.value (wordOff w) n
      strandStep P seed id r = (P', id, .ok [(l, BitVec.ofNat 128 old, true, none)]) ∧
      P'.Wrote a t (wordRank w) (wordOff w) n (atomicOp k (8 * n) old (x.toNat % 2 ^ (8 * n)) (x.toNat / 2 ^ 64 % 2 ^ (8 * n))) ∧ P.Rest P' [a.toNat]) := by
  intro a fails
  have hz := (strandAt_key ht).1
  rcases elem_acts (seed := seed) (id := id) ho ht hl hr with ⟨hw, hf⟩ | ⟨P0, t0, rest, h1, h2, same, hs⟩
  · refine ⟨fun _ => .inl hf, fun _ b hb => ?_, fun _ _ => .inl hf, fun _ _ _ => .inl hf⟩
    rw [hb] at hw
    cases hw
  · rw [elemLane_of (h2 ▸ he)] at hs
    refine ⟨fun hp => .inr ?_, fun hp b hb => ?_, fun hp hst => .inr ?_, fun hp k hk => .inr ?_⟩
    · rw [hp, if_pos rfl] at hs
      have here := strandAt_of (P := { P0 with strands := kset P0.strands r.strand.toNat t0 }) hz (kget_kset_same ..)
      exact ⟨_, t0, here, hs, fun hw => by rw [← (same hw).2]; exact here⟩
    · subst hb
      obtain ⟨rfl, rfl⟩ := same rfl
      rw [hp, if_neg Bool.false_ne_true] at hs
      exact ⟨_, hs, strandAt_of hz (kget_kset_same ..), rest_put rest _⟩
    · subst hst
      rw [hp, if_neg Bool.false_ne_true] at hs
      exact ⟨_, hs, wrote_put hz he h1 h2, rest_put rest _⟩
    · subst hk
      rw [hp, if_neg Bool.false_ne_true] at hs
      exact ⟨_, hs, wrote_put hz he h1 h2, rest_put rest _⟩

end

/-! ### The request at a home on the issuer's own die -/

/-- What a request at the issuer's own die leaves as it was: partitions, memory, sub-gangs, gangs and blocks. -/
structure State.KeepsWork (s s' : State) : Prop where
  parts : s'.parts = s.parts
  mem : s'.mem = s.mem
  subs : ∀ t, (s'.tile t).subs = (s.tile t).subs
  gangs : ∀ t, (s'.tile t).gangs = (s.tile t).gangs
  blocks : ∀ t, (s'.tile t).blocks = (s.tile t).blocks

namespace State.KeepsWork

theorem refl (s : State) : s.KeepsWork s := ⟨rfl, rfl, fun _ => rfl, fun _ => rfl, fun _ => rfl⟩

theorem trans {a b c : State} (h : a.KeepsWork b) (k : b.KeepsWork c) : a.KeepsWork c :=
  ⟨k.parts.trans h.parts, k.mem.trans h.mem, fun t => (k.subs t).trans (h.subs t), fun t => (k.gangs t).trans (h.gangs t),
    fun t => (k.blocks t).trans (h.blocks t)⟩

theorem of_tiles {s s' : State} (hp : s'.parts = s.parts) (hm : s'.mem = s.mem) (ht : s'.tiles = s.tiles) : s.KeepsWork s' := by
  have tile : ∀ t, s'.tile t = s.tile t := fun t => congrArg (kgetD · t Tile.reset) ht
  exact ⟨hp, hm, fun t => by rw [tile], fun t => by rw [tile], fun t => by rw [tile]⟩

theorem setTile (s : State) (t : Nat) (T : Tile) (h1 : T.subs = (s.tile t).subs) (h2 : T.gangs = (s.tile t).gangs)
    (h3 : T.blocks = (s.tile t).blocks) : s.KeepsWork (s.setTile t T) := by
  have pick : ∀ {α : Type} (f : Tile → α), f T = f (s.tile t) → ∀ k, f ((s.setTile t T).tile k) = f (s.tile k) := fun f hf k => by
    rw [State.tile_setTile]
    split
    · next hk => rw [hf, hk]
    · rfl
  exact ⟨rfl, rfl, pick Tile.subs h1, pick Tile.gangs h2, pick Tile.blocks h3⟩

theorem dropRanks (s : State) (p : Nat) (P P' : Part) : s.KeepsWork (s.dropRanks p P P') := by
  have pick : ∀ {α : Type} (f : Tile → α), (∀ T rs, f { T with ranks := rs } = f T) → ∀ k, f ((s.dropRanks p P P').tile k) = f (s.tile k) :=
    fun f hf k => by
      unfold State.dropRanks State.tile kgetD
      dsimp only
      rw [kget_kmap]
      cases kget s.tiles k with
      | none => rfl
      | some T => exact hf T _
  exact ⟨rfl, rfl, pick Tile.subs fun _ _ => rfl, pick Tile.gangs fun _ _ => rfl, pick Tile.blocks fun _ _ => rfl⟩

theorem fillRank (s : State) (t : Nat) (e : RankEntry) : s.KeepsWork (s.fillRank t e) := by
  unfold State.fillRank
  dsimp only
  split
  · split
    · exact setTile _ _ _ rfl rfl rfl
    · exact refl _
  · exact refl _

theorem takeAnswer (s : State) (r : Resp) : s.KeepsWork (s.takeAnswer r) := by
  unfold State.takeAnswer
  extract_lets s1 s2
  have h1 : s.KeepsWork s1 := by
    unfold s1
    split
    · exact of_tiles rfl rfl rfl
    · exact refl _
  have h2 : s1.KeepsWork s2 := by
    unfold s2
    split
    · exact fillRank _ _ _
    · exact refl _
  refine (h1.trans h2).trans ?_
  split
  · exact setTile _ _ _ rfl rfl rfl
  · exact refl _

theorem takeAnswers (rs : List Resp) : ∀ s : State, s.KeepsWork (rs.foldl (fun s r => s.takeAnswer r) s) := by
  induction rs with
  | nil => exact refl
  | cons r rs ih => exact fun s => (takeAnswer s r).trans (ih _)

end State.KeepsWork

/-- A request that the world check lets pass is the home unit's step. -/
theorem strandApply_here {s : State} {P : Part} {r : StrandReq} (hp : s.part r.part = some P) (hd : s.strandDenied P r = false) :
    let st := strandStep P s.free s.nextId r
    (s.setPart r.part st.1).KeepsWork (s.strandApply r).1 ∧ (s.strandApply r).2 = st.2.2 := by
  intro st
  have e : s.strandApply r = ({ (s.setPart r.part st.1).dropRanks r.part P st.1 with nextId := st.2.1, free := s.free + 2 }, st.2.2) := by
    unfold State.strandApply
    rw [hp]
    exact if_neg (by rw [hd]; exact Bool.false_ne_true)
  rw [e]
  exact ⟨(State.KeepsWork.dropRanks _ _ _ _).trans (.of_tiles rfl rfl rfl), rfl⟩

theorem strandSend_here {s : State} {I : Issuer} {seq : Nat} {i : Instr} {a : W32} {args : List Word} {bytes : List Byte} {as : List Access} {h : Nat}
    {P : Part} (hh : homesOf I.t i a args as = [(h, as)]) (hl : s.isLocal I.t h = true) (hp : s.part I.block.part = some P) :
    let r : StrandReq := ⟨I.t, seq, I.block.part, I.block.world, i, a, args, bytes, as.map fun x => (x.lane, x.addr, x.data)⟩
    s.strandDenied P r = false →
    let st := strandStep P s.free s.nextId r
    let out := strandSend s I seq i a args bytes as
    (s.setPart I.block.part st.1).KeepsWork out.1 ∧ ∃ obs rank, out.2 = answerAll as (strandResps h r obs rank st.2.2) := by
  intro r hd st out
  obtain ⟨kept, ans⟩ := strandApply_here (r := r) hp hd
  have here : h = dieOf I.t := beq_iff_eq.1 (Bool.and_eq_true_iff.1 hl).1
  let m : Msg := ⟨dieOf I.t, dieOf I.t, 0, (s.die (dieOf I.t)).vec, ent (s.die (dieOf I.t)).vec (dieOf I.t), .strand r, I.t, seq, none, none,
    (s.tile I.t).world, false⟩
  let s1 := if strandWrites r.i then (s.strandApply r).1.joinObserved (dieOf I.t) m.vec else (s.strandApply r).1
  have joined : (s.strandApply r).1.KeepsWork s1 := by
    unfold s1
    split
    · exact .of_tiles rfl rfl rfl
    · exact .refl _
  let rs := strandResps (dieOf I.t) r (s1.die (dieOf I.t)).observed (s1.rankEntry r) (s.strandApply r).2
  have request : s.strandRequest I.t h r = (s1, some rs) := by
    unfold State.strandRequest
    rw [hl]
    rfl
  have e : out = (rs.foldl (fun s r => s.takeAnswer r) s1, answerAll as rs) := by
    show strandSend s I seq i a args bytes as = _
    unfold strandSend
    rw [hh, List.foldl_cons, List.foldl_nil]
    dsimp only
    rw [request]
  rw [e]
  refine ⟨(kept.trans joined).trans (State.KeepsWork.takeAnswers rs s1), (s1.die (dieOf I.t)).observed, s1.rankEntry r, ?_⟩
  show answerAll as (strandResps (dieOf I.t) r _ _ (s.strandApply r).2) = _
  rw [ans, here]


/-! ### The results of a strand instruction -/

/-- What a destination takes of a result. -/
def StrandDst.wb (D : StrandDst) (x : BitVec 128) (b : Bool) : WB :=
  ⟨match D.v with | some r => seqFrom r (D.words x) | none => [], match D.s with | some r => seqFrom r (D.sregs x) | none => [], predOf D.p b⟩

/-- An instruction writes back what its destination takes. -/
def WritesDst (i : Instr) : Prop := ∀ x b, wbOf i x b = (strandDst i).wb x b

theorem word_part (x : BitVec 128) (k : Nat) : x.extractLsb' k 32 = BitVec.ofNat 32 (x.toNat / 2 ^ k) := by
  apply BitVec.eq_of_toNat_eq
  rw [BitVec.extractLsb'_toNat, BitVec.toNat_ofNat, Nat.shiftRight_eq_div_pow]

theorem word_low (x : BitVec 128) : x.setWidth 32 = BitVec.ofNat 32 (x.toNat / 2 ^ 0) := by
  rw [setW32, Nat.pow_zero, Nat.div_one]

theorem lowWords_one (x : BitVec 128) : lowWords 1 x = [x.setWidth 32] := by rw [word_low]; rfl
theorem lowWords_two (x : BitVec 128) : lowWords 2 x = [x.setWidth 32, x.extractLsb' 32 32] := by rw [word_low, word_part]; rfl
theorem lowWords_three (x : BitVec 128) : lowWords 3 x = [x.setWidth 32, x.extractLsb' 32 32, x.extractLsb' 64 32] := by
  rw [word_low, word_part, word_part]; rfl

theorem strand_half (x : BitVec 128) : (x.extractLsb' 64 32).setWidth 64 = BitVec.ofNat 64 (x.toNat / 2 ^ 64 % 2 ^ 32) := by
  apply BitVec.eq_of_toNat_eq
  rw [BitVec.toNat_setWidth, BitVec.extractLsb'_toNat, BitVec.toNat_ofNat, Nat.shiftRight_eq_div_pow]

theorem writesDst_reg {i : Instr} {n : BitVec 5} (hd : strandDst i = intoReg n) (hw : ∀ x b, wbOf i x b = ⟨[], [(n.toNat, x.setWidth 64)], none⟩) :
    WritesDst i := fun x b => by
  rw [hw, hd, setW64]
  rfl

theorem writesDst_none {i : Instr} (hd : strandDst i = ⟨none, fun _ => [], none, fun _ => [], 0⟩) (hw : ∀ x b, wbOf i x b = ⟨[], [], none⟩) :
    WritesDst i := fun x b => by
  rw [hw, hd]
  rfl

theorem writesDst_atomic {i : Instr} {d : Opnd} {ty : Ty2} (hd : strandDst i = intoGroup d ty) (hw : ∀ x b, wbOf i x b = match (generalizing := false) d with
      | .v r => ⟨seqFrom r.toNat (match (generalizing := false) ty with | .w => [x.setWidth 32] | .d => [x.setWidth 32, x.extractLsb' 32 32]), [], none⟩
      | _ => ⟨[], [], none⟩) : WritesDst i := fun x b => by
  rw [hw, hd]
  unfold StrandDst.wb intoGroup
  cases d with
  | v r =>
    cases ty with
    | w => show _ = (⟨seqFrom r.toNat (lowWords 1 x), [], none⟩ : WB); rw [lowWords_one]
    | d => show _ = (⟨seqFrom r.toNat (lowWords 2 x), [], none⟩ : WB); rw [lowWords_two]
  | _ => rfl

theorem strandForm_writes {i : Instr} {F : StrandForm} (h : strandForm i = some F) : WritesDst i := by
  cases i <;> simp only [strandForm, reduceCtorEq] at h
  case snew => exact writesDst_reg rfl fun _ _ => rfl
  case slen => exact writesDst_reg rfl fun _ _ => rfl
  case ssplit => exact writesDst_reg rfl fun _ _ => rfl
  case sgap => exact writesDst_reg rfl fun _ _ => rfl
  case sanchUniform => exact writesDst_reg rfl fun _ _ => rfl
  case sfree => exact writesDst_none rfl fun _ _ => rfl
  case sdel => exact writesDst_none rfl fun _ _ => rfl
  case scat => exact writesDst_none rfl fun _ _ => rfl
  case sclose => exact writesDst_none rfl fun _ _ => rfl
  case sstLane => exact writesDst_none rfl fun _ _ => rfl
  case sstUniform => exact writesDst_none rfl fun _ _ => rfl
  case saadd => exact writesDst_atomic rfl fun _ _ => rfl
  case samin => exact writesDst_atomic rfl fun _ _ => rfl
  case samax => exact writesDst_atomic rfl fun _ _ => rfl
  case sacas => exact writesDst_atomic rfl fun _ _ => rfl
  case saxchg => exact writesDst_atomic rfl fun _ _ => rfl
  case srankUniform a pm n =>
    intro x b
    show (⟨[], [(n.toNat, x.setWidth 64), (n.toNat + 1, (x.extractLsb' 64 32).setWidth 64)], predOf pm b⟩ : WB) =
      ⟨[], seqFrom n.toNat [BitVec.ofNat 64 x.toNat, BitVec.ofNat 64 (x.toNat / 2 ^ 64 % 2 ^ 32)], predOf pm b⟩
    rw [setW64, strand_half]
    rfl
  case sldLane d addr ty pm sn =>
    intro x b
    show (⟨if d.nw then [] else seqFrom d.r.toNat (loadWords ty x), [], predOf pm b⟩ : WB) =
      ⟨match lreg d with | some r => seqFrom r (laneWords ty x) | none => [], [], predOf pm b⟩
    rw [loadWords_eq]
    unfold lreg
    cases d.nw <;> rfl
  case sldUniform d addr ty pm sn =>
    intro x b
    show (⟨[], if d.nw then [] else seqFrom d.r.toNat (loadUni ty x), predOf pm b⟩ : WB) =
      ⟨[], match ureg d with | some r => seqFrom r (uniWords ty x) | none => [], predOf pm b⟩
    rw [loadUni_eq]
    unfold ureg
    cases d.nw <;> rfl
  case sanchLane d addr sn =>
    intro x b
    show (⟨if d.nw then [] else seqFrom d.r.toNat [x.setWidth 32, x.extractLsb' 32 32], [], none⟩ : WB) =
      ⟨match lreg d with | some r => seqFrom r (lowWords 2 x) | none => [], [], none⟩
    rw [lowWords_two]
    unfold lreg
    cases d.nw <;> rfl
  case srankLane d addr pm =>
    intro x b
    show (⟨if d.nw then [] else seqFrom d.r.toNat [x.setWidth 32, x.extractLsb' 32 32, x.extractLsb' 64 32, 0], [], predOf pm b⟩ : WB) =
      ⟨match lreg d with | some r => seqFrom r (lowWords 3 x ++ [0]) | none => [], [], predOf pm b⟩
    rw [lowWords_three]
    unfold lreg
    cases d.nw <;> rfl

section
variable {i : Instr} (hi : WritesDst i)
include hi

theorem writeBack_put (S : Slice) (W : Win) {e : LogEntry} (a : Access) (he : e.i = i) (hm : e.act = S.mask) :
    S.writeBack W e a = (strandDst i).put W S a.lane a.data a.pr := by
  unfold Slice.writeBack StrandDst.put
  rw [he, hi]
  generalize strandDst i = D
  obtain ⟨v, words, sreg, sregs, p⟩ := D
  unfold StrandDst.wb predOf
  cases a.lane with
  | some j =>
    refine congrArg (fun f => { S with lanes := S.lanes.modify (j % 4) f }) (funext fun L => ?_)
    cases v with
    | none => by_cases hp : p = 0#3 <;> simp [hp]
    | some r =>
      have regs := foldl_seqFrom r W.base (words a.data) (fun (L : Lane) n x => L.setReg n x) L
      simp only [regs]
      by_cases hp : p = 0#3 <;> simp [hp, Lane.putRegs]
  | none =>
    cases sreg with
    | none =>
      by_cases hp : p = 0#3
      · simp [hp]
      · simp [hp, hm]
    | some r =>
      by_cases hp : p = 0#3
      · simp [hp, seqFrom, List.foldl_map]
      · simp [hp, hm, seqFrom, List.foldl_map]

omit hi in
theorem put_mask (D : StrandDst) (W : Win) (S : Slice) (l : Option Nat) (x : BitVec 128) (b : Bool) : (D.put W S l x b).mask = S.mask := by
  unfold StrandDst.put
  cases l with
  | some j => rfl
  | none =>
    cases D.s with
    | none => rfl
    | some r => exact foldl_keep (fun (T : Slice) (y : Word × Nat) => T.setSreg (r + y.2) y.1) Slice.mask (fun _ _ => rfl) (D.sregs x).zipIdx S

omit hi in
theorem put_withLog (D : StrandDst) (W : Win) (S : Slice) (l : Option Nat) (x : BitVec 128) (b : Bool) (log : List LogEntry) :
    D.put W { S with log := log } l x b = { D.put W S l x b with log := log } := by
  unfold StrandDst.put
  cases l with
  | some j => rfl
  | none =>
    cases D.s with
    | none => rfl
    | some r =>
      dsimp only
      rw [setSregs_withLog]

omit hi in
theorem put_keepsLog (D : StrandDst) (W : Win) (S : Slice) (l : Option Nat) (x : BitVec 128) (b : Bool) : (D.put W S l x b).log = S.log := by
  have := congrArg Slice.log (put_withLog D W S l x b S.log)
  exact this

/-- A slice after the results of accesses have been put into it. -/
def StrandDst.putAll (D : StrandDst) (W : Win) (as : List Access) (S : Slice) : Slice := as.foldl (fun S a => D.put W S a.lane a.data a.pr) S

omit hi in
theorem putAll_withLog (D : StrandDst) (W : Win) (as : List Access) (log : List LogEntry) : ∀ S : Slice,
    D.putAll W as { S with log := log } = { D.putAll W as S with log := log } := by
  induction as with
  | nil => exact fun _ => rfl
  | cons a as ih => exact fun S => (congrArg (D.putAll W as) (put_withLog D W S a.lane a.data a.pr log)).trans (ih _)

omit hi in
theorem putAll_log (D : StrandDst) (W : Win) (as : List Access) (S : Slice) : (D.putAll W as S).log = S.log := by
  have := congrArg Slice.log (putAll_withLog D W as S.log S)
  exact this

theorem writeBacks_put (W : Win) {e : LogEntry} (he : e.i = i) (as : List Access) : ∀ S : Slice, e.act = S.mask →
    as.foldl (fun S a => S.writeBack W e a) S = (strandDst i).putAll W as S := by
  induction as with
  | nil => exact fun _ _ => rfl
  | cons a as ih =>
    intro S hm
    rw [List.foldl_cons, writeBack_put hi S W a he hm]
    exact ih _ (hm.trans (put_mask ..).symm)

theorem settleLog_put {S : Slice} {W : Win} {e : LogEntry} (he : e.i = i) (hm : e.act = S.mask) (hl : S.log = []) (hne : e.accs ≠ [])
    (hd : ∀ a ∈ e.accs, a.st = .done) : ({ S with log := S.log ++ [e] }).settleLog W = (strandDst i).putAll W e.accs S := by
  have done : ∀ a ∈ e.accs, a.isDone = true := fun a ha => by simp [Access.isDone, hd a ha]
  have waits : e.waiting = false := List.any_eq_false.2 fun a ha => by simp [hd a ha]
  obtain ⟨a, ha⟩ := List.exists_mem_of_ne_nil _ hne
  have pends : e.pending = true := List.any_eq_true.2 ⟨a, ha, by simp [hd a ha]⟩
  have all : e.accs.filter Access.isDone = e.accs := List.filter_eq_self.2 done
  have none_ : (e.accs.filter fun a => !a.isDone) = [] := List.filter_eq_nil_iff.2 fun a ha => by simp [done a ha]
  have same : (strandDst i).putAll W e.accs S = { (strandDst i).putAll W e.accs S with log := [] } := by
    have : ({ S with log := [] } : Slice) = S := by rw [← hl]
    rw [← putAll_withLog, this]
  unfold Slice.settleLog
  rw [hl, List.nil_append, List.foldl_cons, List.foldl_nil, waits, pends, if_pos (by rfl)]
  unfold Slice.settleEntry
  rw [all, none_, writeBacks_put hi W he e.accs { S with log := [e] } hm, putAll_withLog, same]
  simp

/-- Accesses of a strand instruction that are all done at once leave no entry in a log. -/
theorem logAccesses_put {U : Sub} {W : Win} {seq : Nat} {a : W32} {args : List Word} {as : List Access} (empty : ∀ x ∈ U.slices, x.2.log = [])
    (done : ∀ a ∈ as, a.st = .done) : U.logAccesses W i seq a args as =
      { U with slices := U.slices.map fun x => (x.1, (strandDst i).putAll W (ofSlice x.1 as) x.2) } := by
  unfold Sub.logAccesses kmap
  congr 1
  refine List.map_congr_left fun x hx => congrArg (Prod.mk x.1) ?_
  dsimp only
  split
  next none_ => rw [show ofSlice x.1 as = [] from List.isEmpty_iff.1 none_]; rfl
  next some_ =>
    exact settleLog_put hi (e := ⟨x.2.freeSlot, seq, i, a, args, x.2.mask, ofSlice x.1 as⟩) rfl rfl (empty x hx)
      (mt List.isEmpty_iff.2 some_) fun a ha => done a (List.mem_filter.1 ha).1

/-! ### The answers of a home that does what it is asked -/

/-- An access with the result of its lane. -/
def answered (ls : List (Option Nat × BitVec 128 × Bool × Option (Nat × Byte × Word))) (y : Access) : Access :=
  match ls.find? fun x => x.1 == y.lane with
  | some x => { y with st := .done, data := x.2.1, pr := x.2.2.1 }
  | none => y

omit hi in
theorem answerAll_done {h : Nat} {r : StrandReq} {obs : List W32} {rank : Option Nat → Option RankEntry}
    {ls : List (Option Nat × BitVec 128 × Bool × Option (Nat × Byte × Word))} {as : List Access} (good : ∀ x ∈ ls, x.2.2.2 = none)
    (mask : ∀ y ∈ as, y.mask = 0) : answerAll as (strandResps h r obs rank (.ok ls)) = as.map (answered ls) := by
  refine List.map_congr_left fun y hy => ?_
  have found : (strandResps h r obs rank (.ok ls)).find? (fun r => r.lane == y.lane) =
      (ls.find? fun x => x.1 == y.lane).map fun (l, x, p, bad) => ⟨h, r.tile, r.seq, l, x, p, true, some obs, none, if bad.isSome then none else rank l, bad⟩ :=
    List.find?_map ..
  unfold answered
  cases hf : ls.find? fun x => x.1 == y.lane with
  | none => rw [found, hf] <;> rfl
  | some x =>
    rw [found, hf]
    obtain ⟨l, v, p, bad⟩ := x
    obtain rfl : bad = none := good _ (List.mem_of_find?_eq_some hf)
    simp only [Option.map_some, Access.answer, mask y hy, overlay_zero, ite_self]

omit hi in
theorem answered_lane (ls : List (Option Nat × BitVec 128 × Bool × Option (Nat × Byte × Word))) (y : Access) : (answered ls y).lane = y.lane := by
  unfold answered
  split <;> rfl

omit hi in
theorem ofSlice_answered (ls : List (Option Nat × BitVec 128 × Bool × Option (Nat × Byte × Word))) (n : Nat) (as : List Access) :
    ofSlice n (as.map (answered ls)) = (ofSlice n as).map (answered ls) := by
  unfold ofSlice
  rw [List.filter_map]
  refine congrArg (List.map (answered ls)) (List.filter_congr fun y _ => ?_)
  rw [Function.comp_apply, answered_lane]

end

theorem answered_done {ls : List (Option Nat × BitVec 128 × Bool × Option (Nat × Byte × Word))} {y : Access} (h : ∃ x ∈ ls, x.1 = y.lane) :
    ∃ x, ls.find? (fun x => x.1 == y.lane) = some x ∧ answered ls y = { y with st := .done, data := x.2.1, pr := x.2.2.1 } := by
  obtain ⟨x, hx, hl⟩ := h
  obtain ⟨x', hf⟩ := Option.isSome_iff_exists.1 (List.find?_isSome.2 ⟨x, hx, beq_iff_eq.2 hl⟩ : (ls.find? fun x => x.1 == y.lane).isSome = true)
  refine ⟨x', hf, ?_⟩
  unfold answered
  rw [hf]

theorem putAll_answered (D : StrandDst) (W : Win) (ls : List (Option Nat × BitVec 128 × Bool × Option (Nat × Byte × Word))) (as : List Access)
    (h : ∀ y ∈ as, ∃ x ∈ ls, x.1 = y.lane) : ∀ S : Slice, D.putAll W (as.map (answered ls)) S =
      as.foldl (fun S y => match ls.find? fun x => x.1 == y.lane with | some x => D.put W S y.lane x.2.1 x.2.2.1 | none => S) S := by
  induction as with
  | nil => exact fun _ => rfl
  | cons y as ih =>
    intro S
    obtain ⟨x, hf, hy⟩ := answered_done (h y (List.mem_cons_self ..))
    rw [List.foldl_cons, List.map_cons, hy, hf]
    exact ih (fun z hz => h z (List.mem_cons_of_mem _ hz)) _

/-- A strand instruction whose home stands on the issuer's own die and does what it is asked. -/
theorem issueStrand_effect {s t : State} {I : Issuer} {W : Win} {i : Instr} {a : W32} {args : List Word} {bytes : List Byte} {as : List Access}
    (hi : WritesDst i) (hW : ∀ S l x b, (strandDst i).put W S l x b = (strandDst i).put (s.window I) S l x b)
    (hu : kget (s.tile I.t).subs I.u = some I.sub) (empty : I.sub.logsEmpty = true) (mask : ∀ y ∈ as, y.mask = 0)
    (ht : issueStrand s I W i a args bytes as = .next t) : StrandEffect s I i a args bytes as t := by
  intro h P hh hl hp r st hd ls hls good every
  obtain ⟨kept, obs, rank, ans⟩ := strandSend_here (s := { s with nextId := s.nextId + 1 }) (seq := s.nextId) (bytes := bytes) hh hl hp hd
  rw [show (strandStep P s.free (s.nextId + 1) r).2.2 = .ok ls from hls, answerAll_done good mask] at ans
  have noLog : ∀ x ∈ I.sub.slices, x.2.log = [] := fun x hx => List.isEmpty_iff.1 (List.all_eq_true.1 empty x hx)
  let out := strandSend { s with nextId := s.nextId + 1 } I s.nextId i a args bytes as
  have subs : (out.1.tile I.t).subs = (s.tile I.t).subs := kept.subs I.t
  have done : ∀ y ∈ out.2, y.st = .done := fun y hy => by
    rw [show out.2 = as.map (answered ls) from ans] at hy
    obtain ⟨z, hz, rfl⟩ := List.mem_map.1 hy
    obtain ⟨x, -, hx⟩ := answered_done (every z hz)
    rw [hx]
  let U : Sub := { I.sub.retire .other with slices := I.sub.slices.map fun x => (x.1, (strandDst i).putAll W (ofSlice x.1 out.2) x.2) }
  have log : (I.sub.logAccesses W i s.nextId a args out.2).retire .other = U := by
    rw [logAccesses_put hi noLog done]
    rfl
  have faults : U.faults = [] := List.flatMap_eq_nil_iff.2 fun x hx => by
    obtain ⟨y, hy, rfl⟩ := List.mem_map.1 hx
    dsimp only
    rw [putAll_log, noLog y hy]
    rfl
  have there : kget ((out.1.setSub I.t I.u U).tile I.t).subs I.u = some U := by
    rw [State.tile_setSub_same, Tile.setSub_subs, kget_kset_same]
  have e : t = out.1.setSub I.t I.u U := by
    have e : issueStrand s I W i a args bytes as = .next ((out.1.setSub I.t I.u
        ((I.sub.logAccesses W i s.nextId a args out.2).retire .other)).raiseFaults I.t I.u s.nextId) := by
      show finishIssue out.1 I W i s.nextId a args out.2 = _
      unfold finishIssue
      rw [subs, hu]
    rw [log, raiseFaults_none _ _ _ _ U there faults, ht] at e
    cases e
    rfl
  have results : U = { I.sub.retire .other with slices := I.sub.slices.map fun (n, S) =>
      (n, (ofSlice n as).foldl (fun S y => match ls.find? fun x => x.1 == y.lane with
        | some x => (strandDst i).put (s.window I) S y.lane x.2.1 x.2.2.1
        | none => S) S) } := by
    refine congrArg (fun l => { I.sub.retire .other with slices := l }) (List.map_congr_left fun (x : Nat × Slice) _ => congrArg (Prod.mk x.1) ?_)
    have asked : ∀ y ∈ ofSlice x.1 as, ∃ z ∈ ls, z.1 = y.lane := fun y hy => every y (List.mem_filter.1 hy).1
    rw [show out.2 = as.map (answered ls) from ans, ofSlice_answered, putAll_answered _ _ _ _ asked]
    simp only [hW]
  rw [e]
  refine ⟨?_, kept.mem, there.trans (congrArg some results), fun u hu' => ?_, ?_, ?_⟩
  · show kget out.1.parts I.block.part = _
    rw [kept.parts]
    exact kget_kset_same ..
  · rw [State.tile_setSub_same, Tile.setSub_subs, kget_kset_ne _ _ hu', subs]
  · rw [State.tile_setSub_same]
    exact kept.gangs I.t
  · rw [State.tile_setSub_same]
    exact kept.blocks I.t

/-! ### Strand instructions at issue -/

theorem accesses_mask (F : StrandForm) (s : State) (I : Issuer) : ∀ y ∈ F.accesses s I, y.mask = 0 := fun y hy => by
  obtain ⟨x, -, rfl⟩ := List.mem_map.1 hy
  rfl

theorem whole_mask : ∀ y ∈ [wholeAccess], y.mask = 0 := fun y hy => by rw [List.mem_singleton.1 hy]; rfl

theorem issuer_kget {s : State} {I : Issuer} (h : s.issuer = some I) : kget (s.tile I.t).subs I.u = some I.sub := by
  obtain ⟨hT, hsub, -, -, -⟩ := issuer_sub h
  rw [← hT, hsub]

theorem form_issues {i : Instr} {F : StrandForm} {s : State} {I : Issuer} (hF : strandForm i = some F) (h : Issues s i false F.uses I) :
    let as := F.accesses s I
    let a := F.strand I.sub (s.window I)
    let args := F.args I.sub (s.window I)
    (as = [] → exec i s = .next (s.setSub I.t I.u (I.sub.retire .other))) ∧
    (as ≠ [] → strandWaits s I F.uniform i a args as = true → Waits s i I) ∧
    (as ≠ [] → strandWaits s I F.uniform i a args as = false → I.gang.free →
      ∃ t, exec i s = .next t ∧ issueStrand s I (s.window I) i a args [] as = .next t ∧
        (I.sub.logsEmpty = true → StrandEffect s I i a args [] as t)) := by
  obtain ⟨idle, waits, goes⟩ := strand_runs hF h
  refine ⟨idle, fun hn hw => (waits hn hw).trans (wait_eq h.issuer), fun hn hw hf => ?_⟩
  obtain ⟨t, ht⟩ := issueStrand_next s I (s.window I) i (F.strand I.sub (s.window I)) (F.args I.sub (s.window I)) [] (F.accesses s I)
  exact ⟨t, (goes hn hw hf).trans ht, ht, fun hl =>
    issueStrand_effect (strandForm_writes hF) (fun _ _ _ _ => rfl) (issuer_kget h.issuer) hl (accesses_mask F s I) ht⟩

/-- What an instruction does that reads its bytes from memory before it goes to its home. -/
def sourced (W : Win) (i : Instr) (a : W32) (args : List Word) (va : Word) (len : Nat) (s : State) (I : Issuer) : Out1 :=
  match readSource s I va len with
  | .fault c => trapAt s I c.group c.code c.datum
  | .wait => wait s I
  | .ok s bs => issueStrand s I W i a args bs [wholeAccess]

theorem sourced_does {s : State} {I : Issuer} {i : Instr} {a : W32} {args : List Word} {va : Word} {len : Nat} {X : Out1}
    (hI : s.issuer = some I) (hi : WritesDst i) (hW : ∀ W W' S l x b, (strandDst i).put W S l x b = (strandDst i).put W' S l x b)
    (e : exec i s = if strandWaits s I true i a args [wholeAccess] then wait s I else X)
    (hX : I.gang.free → X = sourced (s.window I) i a args va len s I) :
    (strandWaits s I true i a args [wholeAccess] = true → Waits s i I) ∧
    (strandWaits s I true i a args [wholeAccess] = false → I.gang.free →
      (∀ c, readSource s I va len = .fault c → Traps s i I c.group c.code c.datum) ∧ (readSource s I va len = .wait → Waits s i I) ∧
      ∀ s1 bs, readSource s I va len = .ok s1 bs →
        ∃ t, exec i s = .next t ∧ issueStrand s1 I (s.window I) i a args bs [wholeAccess] = .next t ∧
          (I.sub.logsEmpty = true → StrandEffect s1 I i a args bs [wholeAccess] t)) := by
  refine ⟨fun hw => (e.trans (if_pos hw)).trans (wait_eq hI), fun hw free => ?_⟩
  have now := (e.trans (if_neg (by rw [hw]; exact Bool.false_ne_true))).trans (hX free)
  unfold sourced at now
  refine ⟨fun c hc => ?_, fun hc => ?_, fun s1 bs hr => ?_⟩
  · rw [hc] at now
    exact now
  · rw [hc] at now
    exact now.trans (wait_eq hI)
  · rw [hr] at now
    obtain ⟨t, ht⟩ := issueStrand_next s1 I (s.window I) i a args bs [wholeAccess]
    have same : SameIssuer s s1 I := SameIssuer.readPieces _ s va len [] hr
    exact ⟨t, now.trans ht, ht, fun hl => issueStrand_effect hi (fun S l x b => hW _ _ S l x b) (by rw [same.subs]; exact issuer_kget hI) hl whole_mask ht⟩

theorem sins_eq {a b : Opnd} {z : Bool} {n : BitVec 5} {s : State} {I : Issuer}
    (h : Issues s (.sins a b z n) false [.src a, .src b, if z then .sreg n.toNat 1 else paramPair n] I) :
    let id := lo32 (uniVal (s.window I) 0 I.sub a)
    let cnt := I.sub.sreg n.toNat
    let args := [uniVal (s.window I) 0 I.sub b, cnt, if z then 0 else I.sub.sreg (n.toNat + 1)]
    exec (.sins a b z n) s = if strandWaits s I true (.sins a b z n) id args [wholeAccess] then wait s I
      else becomeNonRetry s I fun s' I' => sourced (s.window I) (.sins a b z n) id args (args.getD 2 0)
        (if z || decide (rankLimit ≤ cnt.toNat) then 0 else cnt.toNat * s'.elemSize I'.block.part id) s' I' := by
  rw [exec_sins]
  unfold execSins
  exact (h.plain _).trans rfl

theorem sapnd_eq {a : Opnd} {n : BitVec 5} {s : State} {I : Issuer} (h : Issues s (.sapnd a n) false [.src a, paramPair n] I) :
    let c := lo32 (uniVal (s.window I) 0 I.sub a)
    let cnt := I.sub.sreg n.toNat
    let args := [cnt, I.sub.sreg (n.toNat + 1)]
    let strand := match (s.part I.block.part).bind fun P => P.cursorAt c with | some k => k.strand | none => 0
    let len := if rankLimit ≤ cnt.toNat then 0 else cnt.toNat * s.elemSize I.block.part strand
    ∃ X, exec (.sapnd a n) s = (if strandWaits s I true (.sapnd a n) c args [wholeAccess] then wait s I else X) ∧
      (I.gang.free → X = sourced (s.window I) (.sapnd a n) c args (args.getD 1 0) len s I) := by
  intro c cnt args strand len
  rw [exec_sapnd]
  unfold execSapnd
  dsimp only
  rw [h.plain]
  refine ⟨_, rfl, fun free => ?_⟩
  obtain ⟨holding, held, -, -⟩ := free
  rw [holding]
  unfold sourced
  cases readSource s I (args.getD 1 0) len with
  | fault x => rfl
  | wait => rfl
  | ok s1 bs =>
    dsimp only
    rw [if_neg Bool.false_ne_true, overlayHeld_none held]

/-- Settles O44. -/
theorem strandAccess : Obligations.StrandAccess := by
  refine ⟨fun P seed id r op n ho => ?_, fun i F s I hF h => form_issues hF h, fun a b z n s I h => ?_, fun a n s I h => ?_,
    fun s I seq i a args bytes as h P hh hl hp hd => ?_⟩
  · refine ⟨elem_missing ho, fun t ht => ⟨fun hout hop => ⟨outCause t op n, elem_out ho ht hout hop, fun l w x => ?_⟩, fun l w x hl =>
      ⟨fun hr hop => elem_skipped ho ht hl hr hop, fun e hr he => elem_does ho ht hl hr he⟩⟩⟩
    exact ⟨fun hr => if_pos (not_reaches.2 hr), fun hr => if_neg fun k => not_reaches.1 k hr⟩
  · intro id cnt va len args
    have sized : (if (z || decide (rankLimit ≤ cnt.toNat)) = true then 0 else cnt.toNat * s.elemSize I.block.part id) = len :=
      ite_iff_congr (by rw [Bool.or_eq_true, decide_eq_true_eq]; rfl) rfl rfl
    refine sourced_does h.issuer (writesDst_none rfl fun _ _ => rfl) (fun _ _ _ _ _ _ => rfl) (sins_eq h) fun free => (free.again _).trans ?_
    rw [← sized]
    rfl
  · intro c cnt va strand len
    obtain ⟨X, e, hX⟩ := sapnd_eq h
    exact sourced_does h.issuer (writesDst_none rfl fun _ _ => rfl) (fun _ _ _ _ _ _ => rfl) e hX
  · obtain ⟨kept, ans⟩ := strandSend_here (bytes := bytes) hh hl hp hd
    refine ⟨?_, kept.mem, ans⟩
    show kget _ _ = _
    rw [kept.parts]
    exact kget_kset_same ..

end Sys2Proof.Machine
end

section
/-! The proof of O49: link arrivals, stage placement and the switches of a skein. -/
namespace Sys2Proof.Machine

section
variable {p k : Nat} {s : State} {K : Skein} (hK : s.skein p k = some K)
include hK

theorem itemArrival_does {n : Nat} {l : SkLink} {st : Stage} {x : Option (List W32)} {rest : List (Option (List W32))} (hl : K.links[n]? = some l)
    (hst : K.stages[n + 1]? = some st) (hf : l.flight = x :: rest) :
    (st.gone = true → exec (.channelItemArrival p k n) s = .next (s.setSkein p k (K.setLink n { l with flight := rest }))) ∧
    (st.gone = false → l.made = true →
      (s.stageOpen st = true ∨ ∃ t g d b, st.place = .gang t g ∧ (s.tile t).mode = .drain d b ∧ (kget (s.tile t).gangs g).isSome = true) →
      exec (.channelItemArrival p k n) s =
        .next (s.setSkein p k (K.setLink n { l with flight := rest, rows := l.rows ++ [x] }))) := by
  have e : exec (.channelItemArrival p k n) s =
      if st.gone then .next (s.setSkein p k (K.setLink n { l with flight := rest }))
      else if l.made && s.takesRows st then .next (s.setSkein p k (K.setLink n { l with flight := rest, rows := l.rows ++ [x] }))
      else .next s := by
    show execChannelItemArrival p k n s = _
    simp only [execChannelItemArrival, hK, hl, hst, hf]
  refine ⟨fun hg => e.trans (if_pos hg), fun hg hm ho => e.trans ((if_neg (by rw [hg]; exact Bool.false_ne_true)).trans (if_pos ?_))⟩
  rw [hm, Bool.true_and]
  unfold State.takesRows
  rcases ho with ho | ⟨t, g, d, b, hp, hmode, hgang⟩
  · rw [ho, Bool.true_or]
  · rw [hp]
    dsimp only
    rw [hmode, hgang]
    simp

theorem noticeArrival_does {n : Nat} {l : SkLink} {st : Stage} (hl : K.links[n]? = some l) (hst : K.stages[n]? = some st) (hn : l.notices ≠ 0) :
    (st.gone = true → exec (.freedSlotNoticeArrival p k n) s = .next (s.setSkein p k (K.setLink n { l with notices := l.notices - 1 }))) ∧
    (st.gone = false → s.stageOpen st = true → exec (.freedSlotNoticeArrival p k n) s =
      .next (s.setSkein p k (K.setLink n { l with notices := l.notices - 1, credits := l.credits + 1 }))) := by
  have e : exec (.freedSlotNoticeArrival p k n) s =
      if l.notices = 0 then .next s
      else if st.gone then .next (s.setSkein p k (K.setLink n { l with notices := l.notices - 1 }))
      else if s.stageOpen st then .next (s.setSkein p k (K.setLink n { l with notices := l.notices - 1, credits := l.credits + 1 }))
      else .next s := by
    show execFreedSlotNoticeArrival p k n s = _
    simp only [execFreedSlotNoticeArrival, hK, hl, hst]
  exact ⟨fun hg => e.trans ((if_neg hn).trans (if_pos hg)),
    fun hg ho => e.trans ((if_neg hn).trans ((if_neg (by rw [hg]; exact Bool.false_ne_true)).trans (if_pos ho)))⟩

theorem switchTimeout_does (ht : s.skeinTimedOut K = true) :
    ((∀ x, K.sw ≠ .gathering true x) → exec (.skeinSwitchTimeout p k) s = .next (s.skeinAbort p k 2)) ∧
    ((∃ x, K.sw = .gathering true x) → exec (.skeinSwitchTimeout p k) s = .next (K.stages.foldl (fun s st =>
      match st.place with | .gang t _ => if s.slotsFree t then s.freezeTile t .plain else s | _ => s) (s.skeinAbort p k 2))) := by
  have e : exec (.skeinSwitchTimeout p k) s = .next (if (match K.sw with | .gathering true _ => true | _ => false) then
        K.stages.foldl (fun s st =>
          match st.place with | .gang t _ => if s.slotsFree t then s.freezeTile t .plain else s | _ => s) (s.skeinAbort p k 2)
      else s.skeinAbort p k 2) := by
    show execSkeinSwitchTimeout p k s = _
    unfold execSkeinSwitchTimeout State.timeoutSkein
    rw [hK]
    exact congrArg _ (if_pos ht)
  refine ⟨fun hn => e.trans (congrArg _ (if_neg ?_)), fun ⟨x, hx⟩ => e.trans (congrArg _ (if_pos ?_))⟩
  · cases h : K.sw with
    | gathering b x =>
      cases b with
      | true => exact absurd h (hn x)
      | false => exact Bool.false_ne_true
    | _ => exact Bool.false_ne_true
  · rw [hx]

theorem stageGangPlace_does {n t t0 ctx0 : Nat} {P : Part} {st : Stage} {B : Block} (hP : s.part p = some P) (hst : K.stages[n]? = some st)
    (hB : s.findBlock K.uid = some (t0, ctx0, B)) (hu : st.place = .unplaced) (hsw : K.sw = .none) (hf : K.folded = false)
    (hr : (s.tile t0).mode = .run) (hfit : s.stageFits p P K st B t = true) :
    exec (.stageGangPlace p k n t) s = .next ((s.stagePlaced p k n t t0 K st B).setSkein p k
      (K.stageBegun n t ((s.l1Clear t).observe (dieOf t) (s.carried t0)).nextId st)) := by
  show execStageGangPlace p k n t s = _
  unfold execStageGangPlace
  rw [hP, hK]
  dsimp only
  rw [hst, hB]
  dsimp only
  refine (if_pos ⟨hu, hsw, by rw [hf]; exact Bool.false_ne_true, hr, hfit⟩).trans ?_
  unfold State.stagePlaced Skein.stageBegun
  cases s.scrubDue t B.vf B.world <;> rfl

theorem gatherDone_does {b x : Bool} (hsw : K.sw = .gathering b x) (hall : ∀ st ∈ K.stages, st.atKnot = true ∨ st.gone = true)
    (ho : s.stateOpen K = true) : exec (.skeinGatherDone p k) s = .next (s.updateSkein p k { K with sw := .copying x }) := by
  show execSkeinGatherDone p k s = _
  unfold execSkeinGatherDone
  rw [hK]
  dsimp only
  rw [hsw]
  refine if_pos ⟨List.all_eq_true.2 fun st hst => ?_, ho⟩
  rw [Bool.or_eq_true]
  exact hall st hst

theorem copyDone_does {x : Bool} (hsw : K.sw = .copying x) (ho : s.stateOpen K = true) (hr : (s.tile K.tile).mode = .run) :
    (K.foldGang.isSome = true → exec (.skeinCopyDone p k) s = .next
      ((s.setSkein p k { K with stages := K.stages.map fun st => { st with atKnot := false } }).switchOver p k K.freezeDefer)) ∧
    (K.foldGang = none → (∀ l ∈ K.links, l.made = true → l.flight = [] ∧ l.waiting = []) →
      let s1 := (s.reelCopy p k K).switchOver p k K.freezeDefer
      exec (.skeinCopyDone p k) s = .next (if x then s1.exportRequest p k else s1)) := by
  have runs : (!s.stateOpen K || (s.tile K.tile).mode != .run) = false := by
    rw [ho, hr]
    rfl
  have e : exec (.skeinCopyDone p k) s = if K.foldGang.isSome then .next
        ((s.setSkein p k { K with stages := K.stages.map fun st => { st with atKnot := false } }).switchOver p k K.freezeDefer)
      else if K.links.all fun l => !l.made || (l.flight.isEmpty && l.waiting.isEmpty) then
        .next (if x then ((s.reelCopy p k K).switchOver p k K.freezeDefer).exportRequest p k else (s.reelCopy p k K).switchOver p k K.freezeDefer)
      else .next s := by
    show execSkeinCopyDone p k s = _
    unfold execSkeinCopyDone
    rw [hK]
    dsimp only
    rw [hsw]
    exact if_neg (by rw [runs]; exact Bool.false_ne_true)
  refine ⟨fun hg => e.trans (if_pos hg), fun hg hl => e.trans ((if_neg (by rw [hg]; exact Bool.false_ne_true)).trans (if_pos ?_))⟩
  refine List.all_eq_true.2 fun l hm => ?_
  cases hmade : l.made with
  | false => rfl
  | true =>
    obtain ⟨h1, h2⟩ := hl l hm hmade
    rw [h1, h2]
    rfl

theorem unreelAtKnot_does {t c : Nat} {B : Block} (hsw : K.sw = .unreelCopy) (ho : s.stateOpen K = true) (hB : s.findBlock K.uid = some (t, c, B)) :
    let s1 := (s.unfold K).1
    let sts := (s.unfold K).2.zipIdx.map fun x =>
      if x.1.gone then x.1
      else { x.1 with place := .unplaced, atKnot := false
                      slices := switchSlices x.1 (windowBase K.stages x.2) 0 (s1.free + 256 * x.2) x.1.slices }
    let links := K.links.zipIdx.map fun x => x.1.ofRing B K.slices (K.ringAt x.2)
    exec (.skeinUnreelAtKnot p k) s = .next (({ s1 with free := s1.free + 2048 }.setSkein p k
      { K with stages := sts, links := links, folded := false, foldGang := none, run := 0 }).switchOver p k K.freezeDefer) := by
  intro s1 sts links
  show execSkeinUnreelAtKnot p k s = _
  unfold execSkeinUnreelAtKnot
  rw [hK]
  dsimp only
  refine (if_neg (not_or.2 ⟨Classical.not_not.2 hsw, Classical.not_not.2 ho⟩)).trans ?_
  rw [hB]

theorem exportAtKnot_does {t c : Nat} {B : Block} (hsw : K.sw = .exportCopy) (ho : s.stateOpen K = true) (hB : s.findBlock K.uid = some (t, c, B)) :
    let s1 := (s.unfold K).1
    let area := saveArea K (s.unfold K).2 B s1.free
    let s2 := { s1 with free := s1.free + 1 }
    let s3 := s2.devPut K.tile K.vf (s2.worldOf K.tile) (area.length / 65536 + 2) K.save area
    let K' := { K with last := 1, foldGang := none }
    exec (.skeinExportAtKnot p k) s = .next (((s3.setSkein p k K').endSkein p k K' 6).deferredFreezes K.freezeDefer) := by
  intro s1 area s2 s3 K'
  show execSkeinExportAtKnot p k s = _
  unfold execSkeinExportAtKnot
  rw [hK]
  dsimp only
  refine (if_neg (not_or.2 ⟨Classical.not_not.2 hsw, Classical.not_not.2 ho⟩)).trans ?_
  rw [hB]

end

/-- Settles O49. -/
theorem skeinEvents : Obligations.SkeinEvents :=
  ⟨fun _ _ _ _ _ _ _ _ _ hK hl hst hf => itemArrival_does hK hl hst hf, fun _ _ _ _ _ _ _ hK hl hst hn => noticeArrival_does hK hl hst hn,
    fun _ _ _ _ hK ht => switchTimeout_does hK ht,
    fun _ _ _ _ _ _ _ _ _ _ _ hP hK hst hB hu hsw hf hr hfit => stageGangPlace_does hK hP hst hB hu hsw hf hr hfit,
    fun _ _ _ _ _ _ hK hsw hall ho => gatherDone_does hK hsw hall ho, fun _ _ _ _ _ hK hsw ho hr => copyDone_does hK hsw ho hr,
    fun _ _ _ _ _ _ _ hK hsw ho hB => unreelAtKnot_does hK hsw ho hB, fun _ _ _ _ _ _ _ hK hsw ho hB => exportAtKnot_does hK hsw ho hB⟩

end Sys2Proof.Machine
end

section
/-!
POWER (O50). The boot and the release of the dies, and the events of the rails, the heat and the measurements.
-/
namespace Sys2Proof.Machine

/-! ### Release from reset -/

theorem State.release_of {s : State} {c : ConfigBlock} {i : FlashImage} (hc : s.flashConfig = some c) (hi : s.flashImage = some i) :
    s.release = if s.vaux && s.vdram && s.vcore && s.vserdes && s.vhost && !s.released && configOk c && imageOk i then
      { s with
        released := true
        recovery := false
        gnode := BitVec.ofNat 64 (2 ^ 31 + c.node.toNat)
        parts := (c.part.take c.npart.toNat).zipIdx.map fun (e, k) => (k, partStart e)
        dies := (List.range 5).map fun d => (d, Die.reset)
        boundaries := (List.range 8).map fun b => (b, Port.train)
        ports := (List.range 24).map fun p => (p, Port.train) }
    else s := by
  unfold State.release
  rw [hc, hi]

theorem State.release_boots {s : State} {c : ConfigBlock} (h : s.boots c) :
    s.release = { s with
      released := true
      recovery := false
      gnode := BitVec.ofNat 64 (2 ^ 31 + c.node.toNat)
      parts := (c.part.take c.npart.toNat).zipIdx.map fun (e, k) => (k, partStart e)
      dies := (List.range 5).map fun d => (d, Die.reset)
      boundaries := (List.range 8).map fun b => (b, Port.train)
      ports := (List.range 24).map fun p => (p, Port.train) } := by
  obtain ⟨hc, ⟨i, hi, hio⟩, hco, hr, h1, h2, h3, h4, h5⟩ := h
  rw [State.release_of hc hi, hr, h1, h2, h3, h4, h5, hco, hio] <;> rfl

/-- Without every condition for a boot nothing is released. -/
theorem State.release_not_boots {s : State} (h : ∀ c, ¬ s.boots c) : s.release = s := by
  match hc : s.flashConfig, hi : s.flashImage with
  | none, _ => unfold State.release; rw [hc]
  | some c, none => unfold State.release; rw [hc, hi]
  | some c, some i =>
    rw [State.release_of hc hi]
    refine if_neg fun hb => ?_
    simp only [Bool.and_eq_true, Bool.not_eq_true'] at hb
    obtain ⟨⟨⟨⟨⟨⟨⟨h1, h2⟩, h3⟩, h4⟩, h5⟩, hr⟩, hco⟩, hio⟩ := hb
    exact h c ⟨hc, ⟨i, hi, hio⟩, hco, hr, h1, h2, h3, h4, h5⟩

theorem Port.train_state : Port.train.state = 1 := by decide

theorem State.release_does {s : State} {c : ConfigBlock} (h : s.boots c) :
    s.release.released = true ∧ s.release.recovery = false ∧ s.release.gnode = BitVec.ofNat 64 (2 ^ 31 + c.node.toNat) ∧
    (∀ k e, (c.part.take c.npart.toNat)[k]? = some e → s.release.part k = some (partStart e)) ∧
    (∀ d, d < 5 → s.release.die d = Die.reset) ∧ (∀ p, p < 24 → (s.release.port p).state = 1) ∧
    (∀ b, b < 8 → (s.release.boundary b).state = 1) ∧ s.release.mem = s.mem := by
  rw [State.release_boots h]
  refine ⟨rfl, rfl, rfl, ?_, ?_, ?_, ?_, rfl⟩
  · intro k e he
    have := kget_zipIdx partStart (c.part.take c.npart.toNat) k 0
    rwa [Nat.zero_add, he] at this
  · intro d hd
    exact congrArg (Option.getD · Die.reset) (kget_range Die.reset 5 d hd)
  · intro p hp
    have : kget ((List.range 24).map fun p => (p, Port.train)) p = some Port.train := kget_range Port.train 24 p hp
    simp only [State.port, kgetD, this]
    exact Port.train_state
  · intro b hb
    have : kget ((List.range 8).map fun b => (b, Port.train)) b = some Port.train := kget_range Port.train 8 b hb
    simp only [State.boundary, kgetD, this]
    exact Port.train_state

theorem State.boot_eq (s : State) : s.boot = State.release { s with
    configFailed := decide (∀ c, s.flashConfig = some c → configOk c = false)
    recovery := decide (∀ i, s.flashImage = some i → imageOk i = false) } := by
  unfold State.boot
  congr 2
  · cases s.flashConfig with
    | none => simp
    | some c => simp
  · cases s.flashImage with
    | none => simp
    | some i => simp

/-! ### Heat -/

/-- The word of THSTAT after an evaluation: the level, the cause of a rise, the temperature and, at 105 degrees, the tripped bit. -/
theorem throttle_eq (x : Word) (temp : Nat) (current : CoreCurrent) :
    throttle x temp current =
      let level := bits x.toNat 2 0
      let level' := nextLevel level temp current
      let cause := if level < level' then (if 95 * 256 ≤ temp then 1 else 0) + (if current = .stayedAbove then 2 else 0) else bits x.toNat 9 8
      let y := setField (setField (setField x 0 3 level') 8 2 cause) 16 16 temp
      if 105 * 256 ≤ temp then y ||| 0x400 else y := by
  have hs : (current == CoreCurrent.stayedAbove) = decide (current = .stayedAbove) := by cases current <;> rfl
  have hw : (current == CoreCurrent.within) = decide (current = .within) := by cases current <;> rfl
  simp only [throttle, nextLevel, hs, hw, Bool.or_eq_true, Bool.and_eq_true, decide_eq_true_eq]
  rfl

theorem nextLevel_lt (level temp : Nat) (current : CoreCurrent) (h : level < 8) : nextLevel level temp current < 8 := by
  unfold nextLevel
  repeat' split
  all_goals omega

theorem bits_lt_eight (x : Nat) : bits x 2 0 < 8 := Nat.mod_lt _ (by decide)

/-- The two bits of a cause that is the sum of its bits' values. -/
theorem cause_bits (A B : Prop) [Decidable A] [Decidable B] :
    ((if A then 1 else 0) + (if B then 2 else 0)) % 4 % 2 = (if A then 1 else 0) ∧
    ((if A then 1 else 0) + (if B then 2 else 0)) % 4 / 2 = if B then 1 else 0 := by
  by_cases a : A <;> by_cases b : B <;> simp only [a, b, if_true, if_false] <;> decide

theorem throttle_does (x : Word) (t : BitVec 16) (current : CoreCurrent) :
    let v := (throttle x t.toNat current).toNat
    let old := x.toNat
    let level := nextLevel (bits old 2 0) t.toNat current
    bits v 2 0 = level ∧ bits v 31 16 = t.toNat ∧
    (bits old 2 0 < level →
      bits v 8 8 = (if 95 * 256 ≤ t.toNat then 1 else 0) ∧ bits v 9 9 = if current = .stayedAbove then 1 else 0) ∧
    (level ≤ bits old 2 0 → bits v 9 8 = bits old 9 8) ∧ (105 * 256 ≤ t.toNat → bits v 10 10 = 1) := by
  intro v old level
  obtain ⟨cause, hcause⟩ : ∃ c, c = if bits old 2 0 < level then
      (if 95 * 256 ≤ t.toNat then 1 else 0) + (if current = .stayedAbove then 2 else 0) else bits old 9 8 := ⟨_, rfl⟩
  obtain ⟨y, hy⟩ : ∃ y, y = setField (setField (setField x 0 3 level) 8 2 cause) 16 16 t.toNat := ⟨_, rfl⟩
  have hv : v = (if 105 * 256 ≤ t.toNat then y ||| 0x400 else y).toNat := by
    rw [hy, hcause]
    exact congrArg BitVec.toNat (throttle_eq x t.toNat current)
  have off : ∀ hi lo, hi < 10 ∨ 10 < lo → bits v hi lo = bits y.toNat hi lo := by
    intro hi lo h
    rw [hv]
    split
    · exact bits_or_1024 y hi lo h
    · rfl
  have hlevel : level < 8 := nextLevel_lt _ _ _ (bits_lt_eight _)
  have h20 : bits y.toNat 2 0 = level := by
    rw [hy, bits_setField_other _ _ _ _ _ _ (by omega) (by omega), bits_setField_other _ _ _ _ _ _ (by omega) (by omega)]
    exact (bits_setField_same x 0 3 level (by omega) (by omega)).trans (Nat.mod_eq_of_lt hlevel)
  have h98 : bits y.toNat 9 8 = cause % 4 := by
    rw [hy, bits_setField_other _ _ _ _ _ _ (by omega) (by omega)]
    exact bits_setField_same _ 8 2 cause (by omega) (by omega)
  have h3116 : bits y.toNat 31 16 = t.toNat := by
    rw [hy]
    exact (bits_setField_same _ 16 16 t.toNat (by omega) (by omega)).trans (Nat.mod_eq_of_lt t.isLt)
  have split98 : bits v 8 8 = bits v 9 8 % 2 ∧ bits v 9 9 = bits v 9 8 / 2 := by
    unfold bits
    omega
  refine ⟨(off 2 0 (by omega)).trans h20, (off 31 16 (by omega)).trans h3116, ?_, ?_, ?_⟩
  · intro hl
    rw [if_pos hl] at hcause
    rw [split98.1, split98.2, off 9 8 (by omega), h98, hcause]
    exact cause_bits _ _
  · intro hl
    rw [if_neg (by omega)] at hcause
    rw [off 9 8 (by omega), h98, hcause]
    exact Nat.mod_eq_of_lt (Nat.mod_lt _ (by decide))
  · intro ht
    rw [hv, if_pos ht]
    apply Nat.eq_of_testBit_eq
    intro k
    rw [bits_testBit, BitVec.toNat_or, Nat.testBit_or]
    match k with
    | 0 =>
      have : Nat.testBit 1024 10 = true := by decide
      simp [this]
    | k + 1 =>
      simp [Nat.testBit_succ]

theorem throttleEvaluation_does (temps : List (BitVec 16)) (current : CoreCurrent) (s : State) (h : s.released = true) :
    exec (.throttleEvaluation temps current) s = .next ((List.range 4).foldl (thStep temps current) s) := by
  exact if_pos h

/-! ### Rails, reset, flash and measurements -/

theorem railsGood_eq (s : State) : exec .railsGood s = .next (if s.released then s.rails true else (s.rails true).boot) := rfl

theorem fullReset_does (c : ConfigBlock) (s : State) (h : s.vaux = true) :
    exec (.fullReset c) s = .next (State.boot { s.held s.vdram with flashConfig := some c }) := by
  exact if_pos h

theorem recoveryImage_does (i : FlashImage) (s : State) (h1 : s.vaux = true) (h2 : s.recovery = true) (h3 : imageOk i = true) :
    exec (.recoveryImage i) s = .next (State.boot { s with flashImage := some i }) := by
  exact if_pos (by rw [h1, h2, h3] <;> rfl)

theorem firmwareUpdate_eq (i : FlashImage) (lost : Bool) (s : State) (h1 : s.vaux = true) (h2 : s.released = true) (h3 : imageOk i = true) :
    exec (.firmwareUpdate i lost) s = if lost then .next
      { (s.rails false).held false with flashImage := some { i with edOk := false, mldOk := false } }
    else .next { s with flashImage := some i } := by
  exact if_pos (by rw [h1, h2, h3] <;> rfl)

theorem thermtrip_does (d : Nat) (temp : BitVec 16) (s : State) (h1 : 115 * 256 ≤ temp.toNat) (h2 : s.vcore = true) :
    exec (.thermtrip d temp) s = .next (State.held { s with vcore := false, thermtrip := true } s.vdram) := by
  exact if_pos ⟨h1, h2⟩

theorem thstatTrippedClear_does (d : Nat) (v : Word) (s : State) (h : v.getLsbD 10 = true) :
    exec (.thstatTrippedClear d v) s = .next (s.setDie d { s.die d with thstat := (s.die d).thstat &&& ~~~ 0x400#64 }) := by
  exact if_pos h

theorem State.held_keeps (s : State) (keep : Bool) :
    (s.held keep).released = false ∧ (s.held keep).parts = [] ∧ (s.held keep).dies = [] ∧ (s.held keep).tiles = [] ∧
    (s.held keep).grids = [] ∧ (s.held keep).flashImage = s.flashImage ∧ (s.held keep).flashConfig = s.flashConfig ∧
    (keep = true → (s.held keep).mem = s.mem) := by
  refine ⟨rfl, rfl, rfl, rfl, rfl, rfl, rfl, fun h => ?_⟩
  exact if_pos h

/-- Settles O50: the release by the conditions for a boot, then each event of the rails, the heat and the flash, the throttle level
by the fields of THSTAT. -/
theorem powerEvents : Obligations.PowerEvents := by
  unfold Obligations.PowerEvents
  refine ⟨fun s => ⟨fun c h => State.release_does h, State.release_not_boots, s.boot_eq⟩, ?_, fun s => rfl, State.held_keeps,
    fullReset_does, recoveryImage_does, fun i s h1 h2 h3 => firmwareUpdate_eq i false s h1 h2 h3,
    fun i s h1 h2 h3 => firmwareUpdate_eq i true s h1 h2 h3, thermtrip_does, ?_, thstatTrippedClear_does, ?_⟩
  · intro s
    rw [railsGood_eq]
    exact ⟨fun h => by rw [h] <;> rfl, fun h => by rw [h] <;> rfl⟩
  · intro temps current s h
    refine ⟨_, throttleEvaluation_does temps current s h, fun d x hd hx => ?_⟩
    dsimp only
    rw [thStep_die temps current s d x hd hx]
    exact throttle_does _ x current
  · intro nonce s h
    exact if_pos h

end Sys2Proof.Machine
end

section
/-!
REGISTERS WRITTEN FROM OUTSIDE (O55). What a write of a register, of SHDISC and of SKREQ does, and what a request on a skein comes to.
-/
namespace Sys2Proof.Machine

theorem systemRegisterWrite_sub {t u : Nat} {reg : SysReg} {k : BitVec 8} {x : Word} {s : State} {I : Issuer} (hI : s.issuerOf t u = some I)
    (hf : sysFault s I .tret reg k.toNat true = none) (h1 : reg ≠ .tlbinv) (h2 : reg ≠ .shdisc) (h3 : reg ≠ .skreq) :
    exec (.systemRegisterWrite (.sub t u reg k x)) s = .next (s.sysWrite I reg k.toNat x) := by
  show execSystemRegisterWrite (.sub t u reg k x) s = _
  unfold execSystemRegisterWrite
  dsimp only
  rw [hI]
  dsimp only
  rw [hf]
  refine (if_neg Bool.false_ne_true).trans ?_
  split
  · exact absurd rfl h1
  · exact absurd rfl h2
  · exact absurd rfl h3
  · rfl

theorem systemRegisterWrite_psched {p : Nat} {x : Word} {s : State} {P : Part} (hP : s.part p = some P) :
    exec (.systemRegisterWrite (.psched p x)) s = .next (s.setPart p { P with pschedNext := some (pschedMask x) }) := by
  show execSystemRegisterWrite (.psched p x) s = _
  simp only [execSystemRegisterWrite, hP]

theorem systemRegisterWrite_hsroot {v : Nat} {x : Word} {s : State} (h : s.hasVf v = true) :
    exec (.systemRegisterWrite (.hsroot v x)) s = .next (s.setVf v { s.vf v with hsroot := hsrootMask x }) := by
  exact if_pos h

theorem systemRegisterWrite_bpc {t k : Nat} {x : Word} {s : State} (h : (s.partOfTile t).isSome = true) (hk : k < 4) :
    exec (.systemRegisterWrite (.bpc t k x)) s = .next (s.setTile t { s.tile t with bpc := kset (s.tile t).bpc k (bpcMask x) }) := by
  exact if_pos ⟨h, hk⟩

theorem tepcWrite_does {t u : Nat} {x : Word} {s : State} {U : Sub} (hU : kget (s.tile t).subs u = some U) :
    exec (.tepcWrite t u x) s = .next (s.setSub t u (U.mapSlices fun S => S.writeTepc x)) := by
  show execTepcWrite t u x s = _
  simp only [execTepcWrite, hU]

/-! ### SHDISC -/

/-- A sheaf may be discarded exactly when it is complete and not being restored. -/
theorem Part.discardable_none {P : Part} {slot : Nat} {h : Sheaf} (hk : kget P.sheaves slot = some h) :
    P.discardable slot = none ↔ h.complete = true ∧ h.restoring = false := by
  unfold Part.discardable
  rw [hk]
  cases hc : h.complete <;> cases hr : h.restoring <;> simp [hc, hr]

theorem shdiscWrite_eq {p slot : Nat} {s : State} {P : Part} {x : Option Byte} (hP : s.part p = some P) (hx : P.discardable slot = x) :
    exec (.shdiscWrite p slot) s = x.elim (.next (s.discardSheaf p slot)) fun _ => .next s := by
  subst hx
  show execShdiscWrite p slot s = _
  simp only [execShdiscWrite, hP, Option.bind_some]
  cases P.discardable slot <;> rfl

theorem shdiscWrite_discards {p slot : Nat} {s : State} {P : Part} {h : Sheaf} (hP : s.part p = some P) (hk : kget P.sheaves slot = some h)
    (hc : h.complete = true) (hr : h.restoring = false) : exec (.shdiscWrite p slot) s = .next (s.discardSheaf p slot) :=
  shdiscWrite_eq hP ((Part.discardable_none hk).2 ⟨hc, hr⟩)

theorem shdiscWrite_ignored {p slot : Nat} {s : State} {P : Part} {h : Sheaf} (hP : s.part p = some P) (hk : kget P.sheaves slot = some h)
    (hn : h.complete = false ∨ h.restoring = true) : exec (.shdiscWrite p slot) s = .next s := by
  match hx : P.discardable slot with
  | some c => exact shdiscWrite_eq hP hx
  | none =>
    obtain ⟨hc, hr⟩ := (Part.discardable_none hk).1 hx
    rw [hc, hr] at hn
    rcases hn with hn | hn <;> cases hn

/-! ### Requests on skeins -/

/-- The skein a descriptor's address names is one of its partition, its descriptor at the address the translation gives. -/
theorem skeinNamed_some {p : Nat} {desc : Word} {s : State} {k : Nat} (h : s.skeinNamed p desc = some k) :
    ∃ P K e, s.part p = some P ∧ (k, K) ∈ P.skeins ∧ lookup s K.tile K.vf desc = .ok e ∧ e.out + (desc.toNat - e.va) = K.descPa := by
  unfold State.skeinNamed at h
  obtain ⟨P, hP, h⟩ := Option.bind_eq_some_iff.1 h
  obtain ⟨⟨k', K⟩, hfind, hk⟩ := Option.map_eq_some_iff.1 h
  obtain rfl : k' = k := hk
  have hmem := List.mem_of_find?_eq_some hfind
  have hpred := List.find?_some hfind
  dsimp only at hpred
  match hl : lookup s K.tile K.vf desc with
  | .error x => rw [hl] at hpred; exact absurd hpred Bool.false_ne_true
  | .ok e =>
    rw [hl] at hpred
    exact ⟨P, K, e, hP, hmem, hl, beq_iff_eq.1 hpred⟩

theorem skreq_does {p : Nat} {desc : Word} {s : State} {k : Nat} (h : s.skeinNamed p desc = some k) :
    exec (.skreqReel p desc) s = .next (s.reelRequest p k false false) ∧ exec (.skreqUnreel p desc) s = .next (s.unreelRequest p k) ∧
    exec (.skreqExport p desc) s = .next (s.exportRequest p k) := by
  refine ⟨?_, ?_, ?_⟩
  · show execSkreqReel p desc s = _
    simp only [execSkreqReel, h]
  · show execSkreqUnreel p desc s = _
    simp only [execSkreqUnreel, h]
  · show execSkreqExport p desc s = _
    simp only [execSkreqExport, h]

section
variable {p k : Nat} {s : State} {K : Skein} (hK : s.skein p k = some K)
include hK

theorem reelRequest_eq (d e : Bool) : s.reelRequest p k d e = if s.reelCode K = 0 then s.startReel p k K d e none else s := by
  simp only [State.reelRequest, hK]

theorem unreelRequest_eq : s.unreelRequest p k = if s.unreelCode K = 0 ∧ K.folded then s.startUnreel p k K false none else s := by
  simp only [State.unreelRequest, hK]

theorem exportRequest_eq : s.exportRequest p k = if K.save = 0 then s
    else if K.folded then (if s.unreelCode K = 0 then s.startUnreel p k K true none else s) else s.reelRequest p k false true := by
  simp only [State.exportRequest, hK]

theorem requests_do :
    (∀ d e, s.reelCode K ≠ 0 → s.reelRequest p k d e = s) ∧ (∀ d e, s.reelCode K = 0 → s.reelRequest p k d e = s.startReel p k K d e none) ∧
    (s.unreelCode K ≠ 0 → s.unreelRequest p k = s) ∧ (s.unreelCode K = 0 → K.folded = true → s.unreelRequest p k = s.startUnreel p k K false none) ∧
    (K.save = 0 → s.exportRequest p k = s) ∧
    (K.save ≠ 0 → K.folded = true → s.unreelCode K = 0 → s.exportRequest p k = s.startUnreel p k K true none) ∧
    (K.save ≠ 0 → K.folded = true → s.unreelCode K ≠ 0 → s.exportRequest p k = s) ∧
    (K.save ≠ 0 → K.folded = false → s.exportRequest p k = s.reelRequest p k false true) := by
  refine ⟨fun d e h => (reelRequest_eq hK d e).trans (if_neg h), fun d e h => (reelRequest_eq hK d e).trans (if_pos h),
    fun h => (unreelRequest_eq hK).trans (if_neg fun hc => h hc.1), fun h hf => (unreelRequest_eq hK).trans (if_pos ⟨h, hf⟩),
    fun h => (exportRequest_eq hK).trans (if_pos h), fun h hf hc => (exportRequest_eq hK).trans ?_, fun h hf hc => (exportRequest_eq hK).trans ?_,
    fun h hf => (exportRequest_eq hK).trans ?_⟩
  · rw [if_neg h, if_pos hf, if_pos hc]
  · rw [if_neg h, if_pos hf, if_neg hc]
  · exact (if_neg h).trans (if_neg (by rw [hf]; exact Bool.false_ne_true))
end

/-- SWR to SKREQ makes its request and then goes on at the issuer, if it is still there. -/
theorem swr_skreq {r : BitVec 5} {k : BitVec 8} {s : State} {I : Issuer} (h : Issues s (.swr r .skreq k) false [.sreg r.toNat 1] I)
    (ok : sysFault s I (.swr r .skreq k) .skreq k.toNat true = none) :
    ∃ t, exec (.swr r .skreq k) s = .next t ∧ ∀ J, (s.skreq I.block.part (I.sub.sreg r.toNat)).issuer = some J →
      t = (s.skreq I.block.part (I.sub.sreg r.toNat)).setSub J.t J.u (J.sub.retire .other) := by
  have e : exec (.swr r .skreq k) s =
      again (s.skreq I.block.part (I.sub.sreg r.toNat)) fun s I => retire s I .other I.sub := by
    show execSwr r .skreq k s = _
    unfold execSwr
    dsimp only
    rw [h.plain, ok]
  obtain ⟨t, ht, hJ⟩ := again_runs (s.skreq I.block.part (I.sub.sreg r.toNat)) .other id
  exact ⟨t, e.trans ht, hJ⟩

/-- Settles O55, by kind of write, the requests on skeins by their codes. -/
theorem registerEvents : Obligations.RegisterEvents := by
  unfold Obligations.RegisterEvents
  exact ⟨fun t u reg k x s I hI hf h1 h2 h3 => systemRegisterWrite_sub hI hf h1 h2 h3, fun p x s P => systemRegisterWrite_psched,
    fun v x s => systemRegisterWrite_hsroot, fun t k x s => systemRegisterWrite_bpc, fun t u x s U => tepcWrite_does,
    fun p slot s P h => shdiscWrite_discards, fun p slot s P h => shdiscWrite_ignored, fun p desc s k => skeinNamed_some,
    fun p desc s k => skreq_does, fun p k s => ⟨rfl, rfl⟩, fun p k s K => requests_do, fun r k s I => swr_skreq⟩

end Sys2Proof.Machine
end

section
/-!
TRANSLATIONS AND WORLD MOVES (O56). What TLBINV and HTLBINV drop, the walk that fills, the two parts of SWR to TLBINV, and the
closing and opening of a granule.
-/
namespace Sys2Proof.Machine

theorem Part.invalidates_iff (P : Part) (x : Word) (e : TlbEntry) : P.invalidates x e = true ↔
    P.vflo ≤ e.vf ∧ e.vf ≤ P.vfhi ∧ (x.getLsbD 0 = true ∨ meets e.va e.size (rangeOf x).1 (rangeOf x).2) := by
  unfold Part.invalidates meets
  rw [tlbRange_eq]
  simp [and_assoc]

theorem hvInvalidates_iff (v : Nat) (x : Word) (e : TlbEntry) : hvInvalidates v x e = true ↔
    e.vf = v ∧ (x.getLsbD 0 = true ∨ meets e.ia e.size (rangeOf x).1 (rangeOf x).2) := by
  unfold hvInvalidates meets
  rw [tlbRange_eq]
  simp

/-- A write that names all translations, or an aligned range, is not refused. -/
theorem not_misaligned {x : Word} (h : x.getLsbD 0 = true ∨ (rangeOf x).1 % (rangeOf x).2 = 0) : ¬ tlbMisaligned x = true := by
  rw [misaligned_iff]
  rintro ⟨h0, h1⟩
  rcases h with h | h
  · rw [h] at h0; cases h0
  · exact h1 h

theorem tlbinvWrite_does {p : Nat} {x : Word} {s : State} {P : Part} (hP : s.part p = some P) :
    (x.getLsbD 0 = false → (rangeOf x).1 % (rangeOf x).2 ≠ 0 → exec (.tlbinvWrite p x) s = .next s) ∧
    ((x.getLsbD 0 = true ∨ (rangeOf x).1 % (rangeOf x).2 = 0) → ∃ t, exec (.tlbinvWrite p x) s = .next t ∧
      s.dropped t fun e => P.vflo ≤ e.vf ∧ e.vf ≤ P.vfhi ∧ (x.getLsbD 0 = true ∨ meets e.va e.size (rangeOf x).1 (rangeOf x).2)) := by
  have e : exec (.tlbinvWrite p x) s = if tlbMisaligned x then .next s else .next (s.dropTlbs (P.invalidates x)) := by
    show execTlbinvWrite p x s = _
    simp only [execTlbinvWrite, State.tlbDrop, hP]
  exact ⟨fun h0 h1 => e.trans (if_pos ((misaligned_iff x).2 ⟨h0, h1⟩)), fun h => ⟨_, e.trans (if_neg (not_misaligned h)),
    dropTlbs_dropped s _ _ (P.invalidates_iff x)⟩⟩

theorem htlbinvWrite_does (v : Nat) (x : Word) (s : State) :
    (x.getLsbD 0 = false → (rangeOf x).1 % (rangeOf x).2 ≠ 0 → exec (.htlbinvWrite v x) s = .next s) ∧
    ((x.getLsbD 0 = true ∨ (rangeOf x).1 % (rangeOf x).2 = 0) → ∃ t, exec (.htlbinvWrite v x) s = .next t ∧
      s.dropped t fun e => e.vf = v ∧ (x.getLsbD 0 = true ∨ meets e.ia e.size (rangeOf x).1 (rangeOf x).2)) := by
  have e : exec (.htlbinvWrite v x) s = if tlbMisaligned x then .next s else .next (s.dropTlbs (hvInvalidates v x)) := rfl
  exact ⟨fun h0 h1 => e.trans (if_pos ((misaligned_iff x).2 ⟨h0, h1⟩)), fun h => ⟨_, e.trans (if_neg (not_misaligned h)),
    dropTlbs_dropped s _ _ (hvInvalidates_iff v x)⟩⟩

theorem translationWalk_does (t v : Nat) (va : Word) (s : State) :
    (∀ x, walk s v va = .error x → exec (.translationWalk t v va) s = .next s) ∧
    ∀ e, walk s v va = .ok e → exec (.translationWalk t v va) s = .next
      (State.fillTlb (s.setDie (dieOf t) { s.die (dieOf t) with dtu := (e :: (s.die (dieOf t)).dtu.filter fun x => x != e).take 65536 }) t e) := by
  constructor
  all_goals
    intro x h
    show execTranslationWalk t v va s = _
    simp only [execTranslationWalk, h]

theorem tlbinvComplete_does {p : Nat} {s : State} {P : Part} {V : Inval} {U : Sub} (hP : s.part p = some P) (hV : P.inval = some V)
    (hU : kget (s.tile V.tile).subs V.sub = some U) :
    (s.invalWaits V = true → exec (.tlbinvComplete p) s = .next s) ∧
    (s.invalWaits V = false → exec (.tlbinvComplete p) s =
      .next ((s.setPart p { P with inval := none }).setSub V.tile V.sub (U.retire .other))) := by
  have hU' : kget ((s.setPart p { P with inval := none }).tile V.tile).subs V.sub = some U := hU
  have e : exec (.tlbinvComplete p) s = .next (if s.invalWaits V then s
      else (s.setPart p { P with inval := none }).setSub V.tile V.sub (U.retire .other)) := by
    show execTlbinvComplete p s = _
    simp only [execTlbinvComplete, State.tlbinvDone, hP, hV, hU']
  exact ⟨fun h => e.trans (congrArg _ (if_pos h)), fun h => e.trans (congrArg _ (if_neg (by rw [h]; exact Bool.false_ne_true)))⟩

/-! ### SWR to TLBINV -/

section
variable {r : BitVec 5} {k : BitVec 8} {s : State} {I : Issuer} {P : Part} (h : Issues s (.swr r .tlbinv k) false [.sreg r.toNat 1] I)
  (ok : sysFault s I (.swr r .tlbinv k) .tlbinv k.toNat true = none) (hP : s.part I.block.part = some P)
include h ok

theorem swr_tlbinv_eq : exec (.swr r .tlbinv k) s = swrTlbinv s I (.swr r .tlbinv k) (I.sub.sreg r.toNat) := by
  show execSwr r .tlbinv k s = _
  unfold execSwr
  dsimp only
  rw [h.plain, ok]

theorem swr_tlbinv_unquiet (hq : I.sub.quiet = false) : Waits s (.swr r .tlbinv k) I := by
  refine (swr_tlbinv_eq h ok).trans ((if_pos ?_).trans (wait_eq h.issuer))
  rw [hq]
  rfl

include hP

theorem swr_tlbinv_quiet {v : Option Inval} (hv : P.inval = v) (hq : I.sub.quiet = true) (hg : I.gang.free) :
    exec (.swr r .tlbinv k) s = if tlbMisaligned (I.sub.sreg r.toNat) then
        trapAt { s with free := s.free + 1 } I 2 4 (wordDatum (.swr r .tlbinv k) ((Config.freeWord s.free 0).setWidth 8))
      else v.elim
        (wait ((s.dropTlbs (P.invalidates (I.sub.sreg r.toNat))).setPart I.block.part { P with inval := some ⟨I.t, I.u,
          s.accessesUnder P (s.heldTranslations (P.invalidates (I.sub.sreg r.toNat))),
          s.commandsUnder P (s.heldTranslations (P.invalidates (I.sub.sreg r.toNat)))⟩ }) I)
        fun _ => wait s I := by
  subst hv
  rw [swr_tlbinv_eq h ok]
  unfold swrTlbinv
  rw [hq, Bool.not_true]
  refine (if_neg Bool.false_ne_true).trans ?_
  rw [hg.again, hP]
  dsimp only
  cases P.inval <;> rfl

theorem swr_tlbinv_does :
    (I.sub.quiet = false → Waits s (.swr r .tlbinv k) I) ∧
    (I.sub.quiet = true → I.gang.free →
      ((I.sub.sreg r.toNat).getLsbD 0 = false ∧ (rangeOf (I.sub.sreg r.toNat)).1 % (rangeOf (I.sub.sreg r.toNat)).2 ≠ 0) →
      ∃ y, exec (.swr r .tlbinv k) s = trapAt { s with free := s.free + 1 } I 2 4 y) ∧
    (I.sub.quiet = true → I.gang.free →
      ¬ ((I.sub.sreg r.toNat).getLsbD 0 = false ∧ (rangeOf (I.sub.sreg r.toNat)).1 % (rangeOf (I.sub.sreg r.toNat)).2 ≠ 0) →
      P.inval.isSome = true → Waits s (.swr r .tlbinv k) I) ∧
    (I.sub.quiet = true → I.gang.free →
      ¬ ((I.sub.sreg r.toNat).getLsbD 0 = false ∧ (rangeOf (I.sub.sreg r.toNat)).1 % (rangeOf (I.sub.sreg r.toNat)).2 ≠ 0) →
      P.inval = none →
      exec (.swr r .tlbinv k) s = wait ((s.dropTlbs (P.invalidates (I.sub.sreg r.toNat))).setPart I.block.part { P with inval := some ⟨I.t, I.u,
          s.accessesUnder P (s.heldTranslations (P.invalidates (I.sub.sreg r.toNat))),
          s.commandsUnder P (s.heldTranslations (P.invalidates (I.sub.sreg r.toNat)))⟩ }) I) := by
  rw [← misaligned_iff]
  refine ⟨swr_tlbinv_unquiet h ok, fun hq hg hx => ⟨_, (swr_tlbinv_quiet h ok hP rfl hq hg).trans (if_pos hx)⟩, fun hq hg hx hv => ?_,
    fun hq hg hx hv => (swr_tlbinv_quiet h ok hP hv hq hg).trans (if_neg hx)⟩
  obtain ⟨v, hv⟩ := Option.isSome_iff_exists.1 hv
  exact ((swr_tlbinv_quiet h ok hP hv hq hg).trans (if_neg hx)).trans (wait_eq h.issuer)
end

/-! ### World moves -/

theorem worldMoveRequest_eq (g : Nat) (secure : Bool) (s : State) : exec (.worldMoveRequest g secure) s =
    if s.released = true ∧ g < 2 ^ 14 ∧ ∀ m ∈ s.closed, m.granule ≠ g then .next { s with closed := s.closed ++ [⟨g, secure⟩] } else .next s := by
  show execWorldMoveRequest g secure s = _
  unfold execWorldMoveRequest
  refine ite_iff_congr ?_ rfl rfl
  simp [and_assoc]

theorem zeroGranule_cell (s : State) (g a : Nat) : cellGet (s.zeroGranule g).mem a = if a / 2 ^ 26 = g then 0 else cellGet s.mem a := by
  have : cellGet (s.zeroGranule g).mem a = if (a / 2 ^ 26 != g) = true then cellGet s.mem a else memFill :=
    find_filter_key s.mem (fun pa => pa / 2 ^ 26 != g) a
  rw [this]
  by_cases h : a / 2 ^ 26 = g
  · rw [if_neg fun e => bne_iff_ne.1 e h, if_pos h]; rfl
  · rw [if_pos (bne_iff_ne.2 h), if_neg h]

theorem mem_world (b : Bool) (g h : Nat) (l : List Nat) :
    h ∈ (if b then insNat g (l.filter fun x => x != g) else l.filter fun x => x != g) ↔ (h = g ∧ b = true) ∨ (h ≠ g ∧ h ∈ l) := by
  cases b <;> by_cases e : h = g <;> simp [mem_insNat, e]

theorem worldMoveComplete_does {g : Nat} {s : State} {m : Move} (hm : (s.closed.find? fun m => m.granule == g) = some m) :
    (s.granuleBusy g = true → exec (.worldMoveComplete g) s = .next s) ∧
    (s.granuleBusy g = false → ∃ t, exec (.worldMoveComplete g) s = .next t ∧
      (∀ a, a / 2 ^ 26 = g → cellGet t.mem a = 0) ∧ (∀ a, a / 2 ^ 26 ≠ g → cellGet t.mem a = cellGet s.mem a) ∧
      (m.secure = true ↔ g ∈ t.fwtab) ∧ (∀ h, h ≠ g → (h ∈ t.fwtab ↔ h ∈ s.fwtab)) ∧ (∀ m ∈ t.closed, m.granule ≠ g)) := by
  have e : exec (.worldMoveComplete g) s = if s.granuleBusy g then .next s else .next { s.zeroGranule g with
      fwtab := if m.secure then insNat g (s.fwtab.filter fun x => x != g) else s.fwtab.filter fun x => x != g
      closed := s.closed.filter fun x => x.granule != g } := by
    show execWorldMoveComplete g s = _
    unfold execWorldMoveComplete
    rw [hm] <;> rfl
  refine ⟨fun h => e.trans (if_pos h), fun h => ?_⟩
  rw [h] at e
  refine ⟨_, e.trans (if_neg Bool.false_ne_true), fun a ha => (zeroGranule_cell s g a).trans (if_pos ha),
    fun a ha => (zeroGranule_cell s g a).trans (if_neg ha), ?_, fun h hne => ?_, fun x hx => ?_⟩
  · rw [mem_world]; simp
  · rw [mem_world]; simp [hne]
  · simpa using (List.mem_filter.1 hx).2

/-- Settles O56: writes of TLBINV and HTLBINV by their alignment, the walk, SWR to TLBINV by its parts, and world moves. -/
theorem translationEvents : Obligations.TranslationEvents := by
  unfold Obligations.TranslationEvents
  refine ⟨⟨fun p x s P hP => tlbinvWrite_does hP, htlbinvWrite_does, translationWalk_does, fun p s P V U hP hV hU => tlbinvComplete_does hP hV hU,
    fun r k s I P h ok hP => swr_tlbinv_does h ok hP⟩, fun g secure s hr hg hc => ?_, fun g secure s m hm hg => ?_,
    fun g s m hm => worldMoveComplete_does hm⟩
  · exact (worldMoveRequest_eq g secure s).trans (if_pos ⟨hr, hg, hc⟩)
  · exact (worldMoveRequest_eq g secure s).trans (if_neg fun hc => hc.2.2 m hm hg)

end Sys2Proof.Machine
end

section
/-!
BINS (O59). The statement says that a READY bin forms its gang with nothing else done; a bin of detached threads begins with an
acquire that empties the L1 read cache of its tile (R125, R361), so the statement fails there.
-/
namespace Sys2Proof.Machine

/-- A READY bin of detached threads, with one continuation. -/
def detachedBin : Bin := { entry := 0x10000, uid := 1, grid := 1, detached := true, retry := none, st := .ready 0, pos := [some 0] }

/-- The continuation in `detachedBin`. -/
def detachedCont : Cont :=
  { entry := 0x10000, ctx := 0, uid := 1, grid := 1, detached := true, park := false, run := 0, slice := 0, lane := 0, regs := [],
    fill := .zero, bad := [], gangIx := 0, mask := 15, live := 15, stack := [], feeder := false, monitor := none, resume := none,
    place := .bin 0 }

/-- A running tile with a block, a READY bin of detached threads of that block's grid, and one line in its L1 read cache. -/
def detachedReady : State :=
  let s := State.reset.placedOn 0
  s.setTile 0 { s.tile 0 with bins := [(0, detachedBin)], conts := [(0, detachedCont)], l1 := [(512, List.replicate 128 0)] }

/-- BIN_FORM_GANG of a bin whose threads begin with an acquire empties the L1 read cache, then forms the gang. -/
theorem binFormGang_acquires {t b : Nat} {s : State} (hm : (s.tile t).mode = .run) (hb : (s.tile t).firstReady = some b)
    (ha : (s.tile t).binAcquires b = true) : exec (.binFormGang t b) s = .next ((s.l1Clear t).formGang t b) := by
  refine (if_pos ⟨hm, hb⟩).trans ?_
  rw [ha] <;> rfl

theorem detachedReady_mode : (detachedReady.tile 0).mode = .run := by decide
theorem detachedReady_first : (detachedReady.tile 0).firstReady = some 0 := by decide
theorem detachedReady_acquires : (detachedReady.tile 0).binAcquires 0 = true := by decide

theorem formGang_keeps_line : ((detachedReady.formGang 0 0).tile 0).l1 = [(512, List.replicate 128 0)] := by decide
theorem formGang_after_acquire : (((detachedReady.l1Clear 0).formGang 0 0).tile 0).l1 = [] := by decide

/-- Refutes O59: the gang of `detachedReady` begins with an empty L1 read cache, where the statement keeps the cached line. -/
theorem not_binEvents : ¬ Obligations.BinEvents := by
  unfold Obligations.BinEvents
  rintro ⟨bins, -⟩
  obtain ⟨-, forms, -⟩ := bins 0 detachedReady detachedReady_mode
  have h := (binFormGang_acquires detachedReady_mode detachedReady_first detachedReady_acquires).symm.trans (forms 0 detachedReady_first)
  have hl := congrArg (fun s : State => (s.tile 0).l1) (Host.Outcome.next.inj h)
  rw [formGang_keeps_line, formGang_after_acquire] at hl
  cases hl

end Sys2Proof.Machine
end

section
/-!
ERRORS OF STORAGE (O60). An error of a gang's state, of memory, of a strand pool, of a saved image, and the corrected ones.
-/
namespace Sys2Proof.Machine

/-! ### Errors of a gang's state -/

section
variable {t g : Nat} {code : BitVec 8} {s : State} {G : Gang} (hm : (s.tile t).mode = .run) (hc : code.toNat ∈ [1, 2, 3, 4, 6])
  (hG : kget (s.tile t).gangs g = some G)
include hm hc hG

/-- The cases of the error: a lapsed retry point traps, and else the gang's place in the retry protocol decides. -/
theorem tileStateError_eq {st : RState} (hst : G.retry.st = st) : exec (.tileStateError t g code) s =
    if G.retry.point = .lapsed then .next (s.stateTrap t g code)
    else match (generalizing := false) st with
      | .run => .next (s.rebin t g .retry (G.retry.attempts - 1))
      | .retry => if 0 < G.retry.attempts then .next (s.rebin t g .retry (G.retry.attempts - 1)) else .next ((s.rebin t g .lasting 0).fence t)
      | .lasting => .next (s.unrecovered t G.ctx)
      | _ => .next (s.stateTrap t g code) := by
  subst hst
  refine (if_neg (not_or.2 ⟨Classical.not_not.2 hm, Classical.not_not.2 (List.contains_iff_mem.2 hc)⟩)).trans ?_
  rw [hG] <;> rfl

theorem tileStateError_rebins (hp : G.retry.point ≠ .lapsed) :
    (G.retry.st = .run → exec (.tileStateError t g code) s = .next (s.rebin t g .retry (G.retry.attempts - 1))) ∧
    (G.retry.st = .retry → 0 < G.retry.attempts → exec (.tileStateError t g code) s = .next (s.rebin t g .retry (G.retry.attempts - 1))) ∧
    (G.retry.st = .retry → G.retry.attempts = 0 → exec (.tileStateError t g code) s = .next ((s.rebin t g .lasting 0).fence t)) ∧
    (G.retry.st = .lasting → exec (.tileStateError t g code) s = .next (s.unrecovered t G.ctx)) :=
  ⟨fun hst => (tileStateError_eq hm hc hG hst).trans (if_neg hp),
    fun hst ha => (tileStateError_eq hm hc hG hst).trans ((if_neg hp).trans (if_pos ha)),
    fun hst ha => (tileStateError_eq hm hc hG hst).trans ((if_neg hp).trans (if_neg (by omega))),
    fun hst => (tileStateError_eq hm hc hG hst).trans (if_neg hp)⟩

theorem tileStateError_stateTrap (h : G.retry.point = .lapsed ∨ G.retry.st = .nonretry ∨ G.retry.st = .never) :
    exec (.tileStateError t g code) s = .next (s.stateTrap t g code) := by
  by_cases hp : G.retry.point = .lapsed
  · exact (tileStateError_eq hm hc hG rfl).trans (if_pos hp)
  · rcases h with h | h | h
    · exact absurd h hp
    · exact (tileStateError_eq hm hc hG h).trans (if_neg hp)
    · exact (tileStateError_eq hm hc hG h).trans (if_neg hp)

omit hm hc hG in
/-- The trap is that of the gang's first sub-gang. -/
theorem stateTrap_eq {u : Nat} {U : Sub} {l : KMap Sub} (h : (s.tile t).subsOf g = (u, U) :: l) : s.stateTrap t g code =
    takeTrap { s with free := s.free + 1 } t u
      ⟨15, code, 0xFF, 0, if code = 6 then U.lostAddr.getD (Config.freeWord s.free 0) else 0, false, none, U.pc⟩ := by
  unfold State.stateTrap
  rw [h] <;> rfl
end

/-- The address of a lost packet is that of an access of the log that faulted for it. -/
theorem lostAddr_some {U : Sub} {d : Word} (h : U.lostAddr = some d) :
    ∃ x ∈ U.slices, ∃ e ∈ x.2.log, ∃ a ∈ e.accs, a.st = .faulted 15 6 d := by
  unfold Sub.lostAddr at h
  obtain ⟨x, hx, h⟩ := List.exists_of_findSome?_eq_some h
  obtain ⟨e, he, h⟩ := List.exists_of_findSome?_eq_some h
  obtain ⟨a, ha, h⟩ := List.exists_of_findSome?_eq_some h
  refine ⟨x, hx, e, he, a, ha, ?_⟩
  split at h
  · next hst => rw [hst]; cases h; rfl
  · cases h

/-! ### Lines of memory and of strand pools -/

theorem State.poisonLineAt_pool {pa : Nat} {s : State} (h : s.inStrandPool pa = true) :
    s.poisonLineAt pa = { s.countErr (homeOf pa) .poisoned with parts := kmap (s.countErr (homeOf pa) .poisoned).parts fun _ P =>
      if P.spbase ≤ pa ∧ pa < P.spbase + P.spsize then P.poisonLine pa else P } := by
  exact if_pos h

theorem State.poisonLineAt_dram {pa : Nat} {s : State} (hd : isDram pa = true) (hs : s.inStrandPool pa = false) (hl : lineOf pa ∉ s.poison) :
    (s.poisonLineAt pa).poison = insNat (lineOf pa) s.poison := by
  unfold State.poisonLineAt
  dsimp only
  rw [hs, hd, if_neg Bool.false_ne_true, if_neg (by simpa using hl)] <;> rfl

theorem Part.poisonLine_strands (P : Part) (pa : Nat) : (P.poisonLine pa).strands = kmap P.strands fun _ S =>
    { S with elems := S.elems.zipIdx.map fun (e, k) =>
        if k ∈ S.ranksIn ((pa - P.spbase) / 4096) ((pa - P.spbase) % 4096 / 128) then { e with poison := true } else e } := by
  simp only [Part.poisonLine, List.contains_iff_mem]

/-! ### Words of an image being saved -/

theorem sheafWord_eq {t : Nat} {pl : ScanPlace} {s : State} {o : Option Tile} (hm : (s.tile t).mode = .save) (ho : (s.tile t).spoil pl = o) :
    exec (.dataError (.sheafWord t pl)) s = o.elim (.next s) fun T => .next ((s.setTile t T).countErr (dieOf t) .poisoned) := by
  subst ho
  show execDataError (.sheafWord t pl) s = _
  unfold execDataError
  dsimp only
  rw [if_pos hm]
  cases (s.tile t).spoil pl <;> rfl

section
variable {T : Tile} {u sl : Nat} {U : Sub} {S : Slice} (hU : kget T.subs u = some U) (hS : kget U.slices sl = some S)
include hU hS

theorem sliceAt_eq : T.sliceAt u sl = some S := by
  unfold Tile.sliceAt
  rw [hU]
  exact hS

theorem spoil_uniform {r : BitVec 5} (hr : r.toNat ∉ S.bad) : T.spoil (.uniform u sl r) =
    some (T.setSub u { U with slices := kset U.slices sl { S with bad := S.bad ++ [r.toNat] } }) := by
  have hb : S.bad.contains r.toNat = false := by simpa using hr
  simp only [Tile.spoil, Tile.scanGet, sliceAt_eq hU hS, hU, hb, Option.map_some, Option.isNone_some, Bool.false_eq_true, if_false]

theorem spoil_lane {ln : Nat} {L : Lane} {r : BitVec 7} (hL : S.lanes[ln]? = some L) (hr : r.toNat ∉ L.bad) : T.spoil (.lane u sl ln r) =
    some (T.setSub u
      { U with slices := kset U.slices sl { S with lanes := S.lanes.modify ln fun L => { L with bad := L.bad ++ [r.toNat] } } }) := by
  have hb : L.bad.contains r.toNat = false := by simpa using hr
  have hLa : T.laneAt u sl ln = some L := by
    unfold Tile.laneAt
    rw [sliceAt_eq hU hS]
    exact hL
  simp only [Tile.spoil, Tile.scanGet, sliceAt_eq hU hS, hLa, hU, hb, Option.map_some, Option.isNone_some, Bool.false_eq_true, if_false]
end

/-! ### Engine errors, corrected errors and the patrol -/

theorem engineError_does {t ctx pa : Nat} {s : State} {B : Block} (hB : kget (s.tile t).blocks ctx = some B) :
    exec (.dataError (.engine t ctx pa)) s = .next (s.reportTo B.uid ⟨15, 9, BitVec.ofNat 64 (128 * (pa / 128))⟩) := by
  show execDataError (.engine t ctx pa) s = _
  simp only [execDataError, hB, lineOf, Nat.mul_comm]

theorem correctedError_tile {t ctx : Nat} {unit : Byte} {s : State} {B : Block} (hB : kget (s.tile t).blocks ctx = some B) :
    exec (.correctedError (.tile t ctx unit)) s = .next ((s.countErr (dieOf t) .sramcor).setBlock t ctx (B.countCorrected unit)) := by
  have hB' : kget ((s.countErr (dieOf t) .sramcor).tile t).blocks ctx = some B := hB
  show execCorrectedError (.tile t ctx unit) s = _
  simp only [execCorrectedError, hB']

/-- The count of a block's corrected errors: at 256 it starts again, and is reported where the block wants it. -/
theorem Block.countCorrected_cases (B : Block) (unit : Byte) :
    (B.corrected + 1 < 256 → B.countCorrected unit = { B with corrected := B.corrected + 1 }) ∧
    (256 ≤ B.corrected + 1 → B.tctl.getLsbD 0 = true ∧ B.rcd.handler ≠ 0 →
      B.countCorrected unit = { B with corrected := 0, reports := B.reports ++ [⟨14, unit, 256⟩] }) ∧
    (256 ≤ B.corrected + 1 → ¬ (B.tctl.getLsbD 0 = true ∧ B.rcd.handler ≠ 0) → B.countCorrected unit = { B with corrected := 0 }) :=
  ⟨fun h => if_pos h, fun h hf => (if_neg (by omega)).trans (if_pos (by simpa using hf)),
    fun h hf => (if_neg (by omega)).trans (if_neg (by simpa using hf))⟩

theorem patrolScrub_does {line : Nat} {s : State} (h : isDram (line * 128) = true) :
    exec (.patrolScrub line .clean) s = .next s ∧
    exec (.patrolScrub line .correctable) s = .next (s.countErr (homeOf (line * 128)) .dramcor) ∧
    exec (.patrolScrub line .uncorrectable) s = .next (s.poisonLineAt (line * 128)) :=
  ⟨if_pos h, if_pos h, if_pos h⟩

/-- Settles O60, by the place of the error. -/
theorem errorEvents : Obligations.ErrorEvents := by
  unfold Obligations.ErrorEvents
  refine ⟨fun t g code s G hm hc hG => ⟨tileStateError_rebins hm hc hG, fun h u U l hl => ?_⟩, fun U d => lostAddr_some,
    fun pa s hd hs hl => ⟨rfl, State.poisonLineAt_dram hd hs hl⟩, fun pa s h => ?_, Part.poisonLine_strands,
    fun t pl s hm => ⟨fun T hT => sheafWord_eq hm hT, fun hT => sheafWord_eq hm hT⟩,
    fun T u U sl S hU hS => ⟨fun r => spoil_uniform hU hS, fun ln L r => spoil_lane hU hS⟩, fun t ctx pa s B => engineError_does,
    fun t ctx unit s B hB => ?_, fun d s => ⟨rfl, rfl⟩, fun line s => patrolScrub_does⟩
  · rw [← stateTrap_eq hl]
    exact tileStateError_stateTrap hm hc hG h
  · exact congrArg Host.Outcome.next (State.poisonLineAt_pool h)
  · obtain ⟨h1, h2, h3⟩ := B.countCorrected_cases unit
    refine ⟨fun h => ?_, fun h hf => ?_, fun h hf => ?_⟩
    · rw [← h1 h]; exact correctedError_tile hB
    · rw [← h2 h hf]; exact correctedError_tile hB
    · rw [← h3 h hf]; exact correctedError_tile hB

end Sys2Proof.Machine
end

section
/-!
SHEAVES (O58). The freeze of a tile, the end of its drain, the save and the restore of its image, and the debug port.
-/
namespace Sys2Proof.Machine

/-! ### Freezing -/

theorem freezeRequest_does {t p : Nat} {d : FreezeKind} {s : State} {P : Part} (hr : s.released = true) (ht : s.partOfTile t = some p)
    (hP : s.part p = some P) : exec (.freezeRequest t d) s =
      .next ((t :: (s.boundTiles P t).filter fun x => x != t).foldl (fun s x => s.startFreeze x d) s) := by
  show execFreezeRequest t d s = _
  simp only [execFreezeRequest, State.freezeTile, hr, ht, hP, Option.isSome_some, Bool.and_self, if_true, Option.bind_some]

section
variable {t : Nat} {d : FreezeKind} {s : State}

theorem startFreeze_idle (hm : (s.tile t).mode = .run) (hb : (s.tile t).blocks = []) (hc : (s.tile t).conts = []) : s.startFreeze t d = s := by
  unfold State.startFreeze
  dsimp only
  rw [hm]
  exact if_pos (by unfold Tile.idle; rw [hb, hc] <;> rfl)

theorem not_idle (h : (s.tile t).blocks ≠ [] ∨ (s.tile t).conts ≠ []) : ¬ (s.tile t).idle = true := by
  unfold Tile.idle
  rw [Bool.and_eq_true, List.isEmpty_iff, List.isEmpty_iff]
  exact fun hn => h.elim (absurd hn.1) (absurd hn.2)

/-- A tile that runs begins to drain, unless a skein of it copies, which defers the freeze. -/
theorem startFreeze_busy (hm : (s.tile t).mode = .run) (h : (s.tile t).blocks ≠ [] ∨ (s.tile t).conts ≠ [])
    {x : Option (Nat × Nat × Skein)} (hx : ((s.skeinsAt t).find? fun x => x.2.2.copying) = x) :
    s.startFreeze t d = x.elim
      (let s1 := (s.skeinsAt t).foldl (fun s x => s.skeinAbort x.1 x.2.1 3) s
       s1.setTile t { s1.tile t with mode := .drain d false, fusec := (s1.die (dieOf t)).dusec, vcout := s1.outstanding t })
      fun x => s.setSkein x.1 x.2.1 { x.2.2 with freezeDefer := x.2.2.freezeDefer ++ [(t, d)] } := by
  subst hx
  unfold State.startFreeze
  dsimp only
  rw [hm]
  refine (if_neg (not_idle h)).trans ?_
  cases (s.skeinsAt t).find? fun x => x.2.2.copying <;> rfl

theorem startFreeze_loading {slot : Nat} (hm : (s.tile t).mode = .load slot none) :
    s.startFreeze t d = s.setTile t { s.tile t with mode := .load slot (some d) } := by
  simp only [State.startFreeze, hm]

theorem startFreeze_does :
    ((s.tile t).mode = .run → (s.tile t).blocks = [] → (s.tile t).conts = [] → s.startFreeze t d = s) ∧
    ((s.tile t).mode = .run → ((s.tile t).blocks ≠ [] ∨ (s.tile t).conts ≠ []) →
      (∀ p k K, ((s.skeinsAt t).find? fun x => x.2.2.copying) = some (p, k, K) → s.startFreeze t d =
        s.setSkein p k { K with freezeDefer := K.freezeDefer ++ [(t, d)] }) ∧
      (((s.skeinsAt t).find? fun x => x.2.2.copying) = none →
        let s1 := (s.skeinsAt t).foldl (fun s x => s.skeinAbort x.1 x.2.1 3) s
        s.startFreeze t d = s1.setTile t
          { s1.tile t with mode := .drain d false, fusec := (s1.die (dieOf t)).dusec, vcout := s1.outstanding t })) ∧
    (∀ slot, (s.tile t).mode = .load slot none → s.startFreeze t d = s.setTile t { s.tile t with mode := .load slot (some d) }) :=
  ⟨startFreeze_idle, fun hm hb => ⟨fun _ _ _ hx => startFreeze_busy hm hb hx, fun hx => startFreeze_busy hm hb hx⟩,
    fun _ => startFreeze_loading⟩

theorem drainComplete_does {b : Bool} (hm : (s.tile t).mode = .drain d b) (hd : s.draining t = false) :
    (d = .debug true → exec (.drainComplete t) s = .next (s.setTile t { s.tile t with mode := .halt false })) ∧
    (d ≠ .debug true → s.slotFree t = true → exec (.drainComplete t) s = .next (s.setTile t { s.tile t with mode := .save })) ∧
    (d ≠ .debug true → s.slotFree t = false → exec (.drainComplete t) s = .next (s.setTile t { s.tile t with mode := .drain d true })) := by
  have e : exec (.drainComplete t) s =
      if d = .debug true then .next (s.setTile t { s.tile t with mode := .halt false })
      else if s.slotFree t then .next (s.setTile t { s.tile t with mode := .save })
      else .next (s.setTile t { s.tile t with mode := .drain d true }) := by
    show execDrainComplete t s = _
    simp only [execDrainComplete, hm, hd, Bool.false_eq_true, if_false]
  exact ⟨fun h => e.trans (if_pos h), fun h hs => e.trans ((if_neg h).trans (if_pos hs)),
    fun h hs => e.trans ((if_neg h).trans (if_neg (by rw [hs]; exact Bool.false_ne_true)))⟩
end

/-! ### Save and restore -/

/-- The sheaf of a tile whose image has streamed into its slot. -/
def State.savedSheaf (s : State) (t p : Nat) : Sheaf :=
  { complete := true, restoring := false, crcOk := true, magicOk := true, part := p, src := t, rev := trevOf t,
    fusec := (s.tile t).fusec, vsnap := s.carried t, poison := (s.tile t).spoiled, held := s.endpoints t,
    outs := s.outs.filter fun o => o.die == dieOf t && o.ni == t % 64 && o.port.isNone, image := s.tile t }

theorem sheafSaveDone_does {t p : Nat} {s : State} {P : Part} (hm : (s.tile t).mode = .save) (ht : s.partOfTile t = some p)
    (hP : s.part p = some P) : exec (.sheafSaveDone t) s =
      .next (((((s.outs.filter fun o => o.die == dieOf t && o.ni == t % 64 && o.port.isNone).reverse.foldl State.leaveFlow s).writeHeader P
        (P.slotOf t) (s.savedSheaf t p)).setPart p { P with sheaves := kset P.sheaves (P.slotOf t) (s.savedSheaf t p) }).setTile t
          (s.tile t).vacated) := by
  show execSheafSaveDone t s = _
  simp only [execSheafSaveDone, hm, ht, hP, Option.bind_some]
  rfl

/-- What a refusal that ends the sheaf's work leaves: the slot refused and discarded, the cooperative grids failed. -/
def State.refuseSheaf (s : State) (p slot code : Nat) (P : Part) (h : Sheaf) : State :=
  ((h.image.blocks.filter fun x => x.2.proxy.isNone && x.2.rcd.coop).map fun x => x.2.grid).foldl (fun s g => s.failGrid g)
    ((s.setPart p (P.refuse slot code)).discardSheaf p slot)

section
variable {p slot t : Nat} {s : State} {P : Part} {h : Sheaf} (hP : s.part p = some P) (hk : kget P.sheaves slot = some h)
  (hf : s.restoreFits p P slot h t = true) (ht : s.restoreTurn p P slot h = true)
include hP hk hf ht

theorem sheafRestore_eq {c : Option Nat} (hc : State.restoreCode p h t = c) : exec (.sheafRestore p slot t) s = c.elim
    (.next ((s.setPart p { P with sheaves := kset P.sheaves slot { h with restoring := true } }).loading slot t))
    fun code => if code = 1 then .next (s.setPart p (P.refuse slot code)) else .next (s.refuseSheaf p slot code P h) := by
  subst hc
  show execSheafRestore p slot t s = _
  simp only [execSheafRestore, hP, hk, hf, ht, Bool.not_true, Bool.or_self, Bool.false_eq_true, if_false]
  cases State.restoreCode p h t <;> rfl

theorem sheafRestore_does :
    (¬ (h.magicOk = true ∧ h.complete = true) → exec (.sheafRestore p slot t) s = .next (s.refuseSheaf p slot 4 P h)) ∧
    ((h.magicOk = true ∧ h.complete = true) → h.crcOk = false → exec (.sheafRestore p slot t) s = .next (s.refuseSheaf p slot 2 P h)) ∧
    ((h.magicOk = true ∧ h.complete = true) → h.crcOk = true → h.part ≠ p →
      exec (.sheafRestore p slot t) s = .next (s.refuseSheaf p slot 3 P h)) ∧
    ((h.magicOk = true ∧ h.complete = true) → h.crcOk = true → h.part = p → h.rev ≠ trevOf t →
      exec (.sheafRestore p slot t) s = .next (s.setPart p (P.refuse slot 1))) ∧
    ((h.magicOk = true ∧ h.complete = true) → h.crcOk = true → h.part = p → h.rev = trevOf t → exec (.sheafRestore p slot t) s =
      .next ((s.setPart p { P with sheaves := kset P.sheaves slot { h with restoring := true } }).loading slot t)) := by
  have whole : (h.magicOk = true ∧ h.complete = true) → ¬ (!(h.magicOk && h.complete)) = true := fun ⟨hm, hc⟩ => by rw [hm, hc]; decide
  have crc : h.crcOk = true → ¬ (!h.crcOk) = true := fun hc => by rw [hc]; decide
  refine ⟨fun hw => ?_, fun hw hc => ?_, fun hw hc hp => ?_, fun hw hc hp hr => ?_, fun hw hc hp hr => ?_⟩
  · exact sheafRestore_eq hP hk hf ht (c := some 4) (if_pos (by rw [Bool.not_eq_true', Bool.eq_false_iff, ne_eq, Bool.and_eq_true]; exact hw))
  · exact sheafRestore_eq hP hk hf ht (c := some 2) ((if_neg (whole hw)).trans (if_pos (by rw [hc]; rfl)))
  · exact sheafRestore_eq hP hk hf ht (c := some 3) ((if_neg (whole hw)).trans ((if_neg (crc hc)).trans (if_pos hp)))
  · exact sheafRestore_eq hP hk hf ht (c := some 1)
      ((if_neg (whole hw)).trans ((if_neg (crc hc)).trans ((if_neg (Classical.not_not.2 hp)).trans (if_pos hr))))
  · exact sheafRestore_eq hP hk hf ht (c := none)
      ((if_neg (whole hw)).trans ((if_neg (crc hc)).trans ((if_neg (Classical.not_not.2 hp)).trans (if_neg (Classical.not_not.2 hr)))))
end

theorem sheafRestoreDone_does {t slot p : Nat} {b : Option FreezeKind} {s : State} {P : Part} (hm : (s.tile t).mode = .load slot b)
    (ht : s.partOfTile t = some p) (hP : s.part p = some P) (hj : (P.boundSlots slot).length ≤ (s.restoreJobs P (P.boundSlots slot)).length) :
    exec (.sheafRestoreDone t) s = .next (s.loadJobs p (s.restoreJobs P (P.boundSlots slot))) := by
  have e : exec (.sheafRestoreDone t) s = if (s.restoreJobs P (P.boundSlots slot)).length < (P.boundSlots slot).length then .next s
      else .next (s.loadJobs p (s.restoreJobs P (P.boundSlots slot))) := by
    show execSheafRestoreDone t s = _
    simp only [execSheafRestoreDone, hm, ht, hP, Option.bind_some]
    rfl
  exact e.trans (if_neg (by omega))

/-! ### The debug port -/

section
variable {t : Nat} {b : Bool} {s : State} (hm : (s.tile t).mode = .halt b)
include hm

theorem debugResume_does (us : List Nat) : exec (.debugResume t us) s =
    .next (((s.setTile t (us.foldl Tile.selectSub { s.tile t with mode := .run })).applyRetlog t).releaseItems t) := by
  show execDebugResume t us s = _
  simp only [execDebugResume, hm]

theorem debugSaveRequest_does {f : Bool} (hf : s.slotFree t = f) : exec (.debugSaveRequest t) s =
    .next (s.setTile t { s.tile t with mode := if f then .save else .halt true }) := by
  subst hf
  show execDebugSaveRequest t s = _
  simp only [execDebugSaveRequest, hm]

theorem drainComplete_halted (hb : b = true) (hf : s.slotFree t = true) :
    exec (.drainComplete t) s = .next (s.setTile t { s.tile t with mode := .save }) := by
  subst hb
  show execDrainComplete t s = _
  simp only [execDrainComplete, hm, hf, if_true]

theorem debugScan_write (pl : ScanPlace) (x : Word) :
    exec (.debugScanAccess t (.write pl x)) s = .next (s.setTile t ((s.tile t).scanPut pl x)) := by
  show execDebugScanAccess t (.write pl x) s = _
  simp only [execDebugScanAccess, hm]

theorem debugScan_read (pl : ScanPlace) :
    exec (.debugScanAccess t (.read pl)) s = .next (s.toHost (.scan t pl ((s.tile t).scanGet pl))) := by
  show execDebugScanAccess t (.read pl) s = _
  simp only [execDebugScanAccess, hm]
  rfl
end

section
variable {T : Tile}

theorem scanPut_none {pl : ScanPlace} (x : Word) (h : T.scanGet pl = none) : T.scanPut pl x = T :=
  if_pos (by rw [h]; rfl)

theorem scan_pc {u : Nat} {U : Sub} (hU : kget T.subs u = some U) :
    T.scanGet (.pc u) = some U.pc ∧ ∀ x, T.scanPut (.pc u) x = T.setSub u { U with pc := x } := by
  constructor
  · simp only [Tile.scanGet, hU, Option.map_some]
  · intro x
    simp only [Tile.scanPut, Tile.scanGet, hU, Option.map_some, Option.isNone_some, Bool.false_eq_true, if_false]

section
variable {u sl : Nat} {U : Sub} {S : Slice} (hU : kget T.subs u = some U) (hS : kget U.slices sl = some S)
include hU hS

theorem scan_uniform (r : BitVec 5) : T.scanGet (.uniform u sl r) = some (S.sreg r.toNat) ∧
    ∀ x, T.scanPut (.uniform u sl r) x = T.setSub u { U with slices := kset U.slices sl (S.setSreg r.toNat x) } := by
  have hg : T.scanGet (.uniform u sl r) = some (S.sreg r.toNat) := by simp only [Tile.scanGet, sliceAt_eq hU hS, Option.map_some]
  exact ⟨hg, fun x => by simp only [Tile.scanPut, hg, hU, hS, Option.isNone_some, Bool.false_eq_true, if_false]⟩

theorem scan_mask : T.scanGet (.mask u sl) = some (S.mask.setWidth 64) ∧
    ∀ x, T.scanPut (.mask u sl) x = T.setSub u { U with slices := kset U.slices sl { S with mask := x.setWidth 4 } } := by
  have hg : T.scanGet (.mask u sl) = some (S.mask.setWidth 64) := by simp only [Tile.scanGet, sliceAt_eq hU hS, Option.map_some]
  exact ⟨hg, fun x => by simp only [Tile.scanPut, hg, hU, hS, Option.isNone_some, Bool.false_eq_true, if_false]⟩

theorem scan_stack {k : Nat} {m : BitVec 4} (hk : S.stack[k]? = some m) : T.scanGet (.stack u sl k) = some (m.setWidth 64) ∧
    ∀ x, T.scanPut (.stack u sl k) x =
      T.setSub u { U with slices := kset U.slices sl { S with stack := S.stack.set k (x.setWidth 4) } } := by
  have hg : T.scanGet (.stack u sl k) = some (m.setWidth 64) := by
    simp only [Tile.scanGet, sliceAt_eq hU hS, Option.bind_some, hk, Option.map_some]
  exact ⟨hg, fun x => by simp only [Tile.scanPut, hg, hU, hS, Option.isNone_some, Bool.false_eq_true, if_false]⟩

theorem laneAt_eq {ln : Nat} {L : Lane} (hL : S.lanes[ln]? = some L) : T.laneAt u sl ln = some L := by
  unfold Tile.laneAt
  rw [sliceAt_eq hU hS]
  exact hL

theorem scan_lane {ln : Nat} {L : Lane} (hL : S.lanes[ln]? = some L) (r : BitVec 7) :
    T.scanGet (.lane u sl ln r) = some ((L.reg r.toNat).setWidth 64) ∧ ∀ x, T.scanPut (.lane u sl ln r) x =
      T.setSub u
        { U with slices := kset U.slices sl { S with lanes := S.lanes.modify ln fun L => L.setReg r.toNat (x.setWidth 32) } } := by
  have hg : T.scanGet (.lane u sl ln r) = some ((L.reg r.toNat).setWidth 64) := by
    simp only [Tile.scanGet, laneAt_eq hU hS hL, Option.map_some]
  exact ⟨hg, fun x => by simp only [Tile.scanPut, hg, hU, hS, Option.isNone_some, Bool.false_eq_true, if_false]⟩

theorem scan_pred {ln : Nat} {L : Lane} (hL : S.lanes[ln]? = some L) :
    T.scanGet (.pred u sl ln) = some (L.p.setWidth 64) ∧ ∀ x, T.scanPut (.pred u sl ln) x =
      T.setSub u
        { U with slices := kset U.slices sl { S with lanes := S.lanes.modify ln fun L => { L with p := x.setWidth 8 ||| 1 } } } := by
  have hg : T.scanGet (.pred u sl ln) = some (L.p.setWidth 64) := by
    simp only [Tile.scanGet, laneAt_eq hU hS hL, Option.map_some]
  exact ⟨hg, fun x => by simp only [Tile.scanPut, hg, hU, hS, Option.isNone_some, Bool.false_eq_true, if_false]⟩
end

theorem scan_spad {c w : Nat} {B : Block} (hB : kget T.blocks c = some B) (hw : 4 * w < B.rcd.spad * 4096) :
    T.scanGet (.spad c w) = some (BitVec.ofNat 64 (B.spadLe (4 * w) 4)) ∧
    ∀ x, T.scanPut (.spad c w) x = T.setBlock c (B.setSpad (4 * w) (natLe 4 (x.toNat % 2 ^ 32))) := by
  have hg : T.scanGet (.spad c w) = some (BitVec.ofNat 64 (B.spadLe (4 * w) 4)) := by
    simp only [Tile.scanGet, hB, Option.bind_some, if_pos hw]
  exact ⟨hg, fun x => by simp only [Tile.scanPut, hg, hB, Option.isNone_some, Bool.false_eq_true, if_false]⟩

theorem scan_acc {k : Nat} (hk : k < 2 ^ 18) : T.scanGet (.acc k) = some ((kgetD T.acc k 0).setWidth 64) ∧
    ∀ x, T.scanPut (.acc k) x = { T with acc := kset T.acc k (x.setWidth 32) } := by
  have hg : T.scanGet (.acc k) = some ((kgetD T.acc k 0).setWidth 64) := if_pos hk
  exact ⟨hg, fun x => by simp only [Tile.scanPut, hg, Option.isNone_some, Bool.false_eq_true, if_false]⟩
end

/-- Settles O58: the freeze and the restore of a tile by their steps, the debug port by its requests and by the places of a scan. -/
theorem sheafEvents : Obligations.SheafEvents := by
  unfold Obligations.SheafEvents
  refine ⟨⟨fun t d p s P => freezeRequest_does, fun t d s => startFreeze_does, fun t d b s => drainComplete_does,
    fun t p s P hm ht hP => ⟨s.savedSheaf t p, ⟨rfl, rfl, rfl, rfl, rfl, rfl, rfl, rfl, rfl, rfl, rfl, rfl, rfl⟩, sheafSaveDone_does hm ht hP⟩,
    fun p slot t s P h => sheafRestore_does, fun t slot b p s P => sheafRestoreDone_does⟩, fun t b s hm => ?_⟩
  refine ⟨debugResume_does hm, fun hf => debugSaveRequest_does hm hf, fun hf => debugSaveRequest_does hm hf, drainComplete_halted hm,
    debugScan_write hm, debugScan_read hm, fun pl x => scanPut_none x, fun u U hU => ⟨scan_pc hU, fun sl S hS => ?_⟩,
    fun c B w => scan_spad, fun k => scan_acc⟩
  exact ⟨scan_uniform hU hS, scan_mask hU hS, fun k m => scan_stack hU hS, fun ln L hL => ⟨scan_lane hU hS hL, scan_pred hU hS hL⟩⟩

end Sys2Proof.Machine
end

section
/-!
PLACEMENT (O57). What the distributor serves, the scrub of a tile, the ageing of a queue, the boundary of a time slice, USED, and the
completion of a grid.
-/
namespace Sys2Proof.Machine

/-! ### What is served -/

theorem placeBlock_eq {p : Nat} {ts : List Nat} {s : State} {x : Option (Nat × Queue × Serve)} (hx : s.nextServe p = x) :
    exec (.placeBlock p ts) s = x.elim (.next (s.readNew p)) fun x => .next ((s.readNew p).serveQueue p x.1 x.2.1 x.2.2 ts) := by
  subst hx
  show execPlaceBlock p ts s = _
  unfold execPlaceBlock
  cases s.nextServe p <;> rfl

section
variable {p k : Nat} {ts : List Nat} {s : State} {P : Part} {q : Queue} {rc : Rec} (hq : q.recs.head? = some rc)
  (hP : (s.dispatchRead p k rc).part p = some P)
include hq hP

theorem serveQueue_discard : s.serveQueue p k q .discard ts = (s.dispatchRead p k rc).discardHead p k P rc := by
  simp only [State.serveQueue, hq, hP]

theorem serveQueue_hold : s.serveQueue p k q .hold ts = (s.dispatchRead p k rc).mapQueue p k fun q => { q with st := .held } := by
  simp only [State.serveQueue, hq, hP]

theorem serveQueue_reserve : s.serveQueue p k q .reserve ts =
    { (s.dispatchRead p k rc).mapQueue p k (fun q => { q with reserve := some (s.dispatchRead p k rc).stamp }) with
      stamp := (s.dispatchRead p k rc).stamp + 1 } := by
  simp only [State.serveQueue, hq, hP]

theorem serveQueue_place {ts0 y : List Nat} (hy : ((P.places rc.r.cgsize).find? fun y => sameTiles y ts) = some y)
    (hf : (s.dispatchRead p k rc).placeFits P rc ((s.dispatchRead p k rc).recWorld rc (s.effNow q rc))
      (bindingOn ((s.dispatchRead p k rc).reserves p P) rc.grid) y = true) :
    s.serveQueue p k q (.place ts0) ts = (s.dispatchRead p k rc).placeNext p k P q rc (s.effNow q rc) y := by
  simp only [State.serveQueue, hq, hP, hy, hf, if_true]
end

theorem placeBlock_does {p k : Nat} {ts : List Nat} {s : State} {P : Part} {q : Queue} {x : Serve} {rc : Rec}
    (hx : s.nextServe p = some (k, q, x)) (hq : q.recs.head? = some rc) (hP : ((s.readNew p).dispatchRead p k rc).part p = some P) :
    let s0 := s.readNew p
    let e := s0.effNow q rc
    let s1 := s0.dispatchRead p k rc
    let out := fun t => exec (.placeBlock p ts) s = .next t
    (x = .discard → out (s1.discardHead p k P rc)) ∧
    (x = .hold → out (s1.mapQueue p k fun q => { q with st := .held })) ∧
    (x = .reserve → out { s1.mapQueue p k (fun q => { q with reserve := some s1.stamp }) with stamp := s1.stamp + 1 }) ∧
    (∀ ts0 y, x = .place ts0 → ((P.places rc.r.cgsize).find? fun y => sameTiles y ts) = some y →
      s1.placeFits P rc (s1.recWorld rc e) (bindingOn (s1.reserves p P) rc.grid) y = true → out (s1.placeNext p k P q rc e y)) := by
  have served : ∀ t, (s.readNew p).serveQueue p k q x ts = t → exec (.placeBlock p ts) s = .next t := fun t h =>
    (placeBlock_eq hx).trans (congrArg Host.Outcome.next h)
  refine ⟨fun h => served _ ?_, fun h => served _ ?_, fun h => served _ ?_, fun ts0 y h hy hf => served _ ?_⟩
  · subst h; exact serveQueue_discard hq hP
  · subst h; exact serveQueue_hold hq hP
  · subst h; exact serveQueue_reserve hq hP
  · subst h; exact serveQueue_place hq hP hy hf

/-- The queue that is served is the first that does not pass, unless it has to wait. -/
theorem firstServed_iff (s : State) (p : Nat) (P : Part) (l : List (Nat × Queue)) (k : Nat) (q : Queue) (x : Serve) :
    s.firstServed p P l = some (k, q, x) ↔ ∃ a b, l = a ++ (k, q) :: b ∧
      (∀ y ∈ a, s.serve p P y.1 y.2 = .pass) ∧ s.serve p P k q = x ∧ x ≠ .pass ∧ x ≠ .stop := by
  induction l with
  | nil => exact ⟨nofun, fun ⟨a, b, h, _⟩ => absurd h (by simp)⟩
  | cons y l ih =>
    obtain ⟨k', q'⟩ := y
    by_cases hp : s.serve p P k' q' = .pass
    · have e : s.firstServed p P ((k', q') :: l) = s.firstServed p P l := by simp only [State.firstServed, hp]
      rw [e, ih]
      constructor
      · rintro ⟨a, b, rfl, ha, hx⟩
        exact ⟨(k', q') :: a, b, rfl, List.forall_mem_cons.2 ⟨hp, ha⟩, hx⟩
      · rintro ⟨a, b, hl, ha, hx, hxp, hxs⟩
        cases a with
        | nil => cases hl; exact absurd (hx.symm.trans hp) hxp
        | cons z a => cases hl; exact ⟨a, b, rfl, (List.forall_mem_cons.1 ha).2, hx, hxp, hxs⟩
    · have e : s.firstServed p P ((k', q') :: l) = if s.serve p P k' q' = .stop then none else some (k', q', s.serve p P k' q') := by
        rw [State.firstServed]
        cases hv : s.serve p P k' q' with
        | pass => exact absurd hv hp
        | stop => rfl
        | restore | exhaust | discard | hold | reserve | place => exact (if_neg nofun).symm
      rw [e]
      constructor
      · intro h
        split at h
        · cases h
        · next hs => cases h; exact ⟨[], l, rfl, nofun, rfl, hp, hs⟩
      · rintro ⟨a, b, hl, ha, hx, hxp, hxs⟩
        cases a with
        | nil => cases hl; rw [if_neg (by rw [hx]; exact hxs), hx]
        | cons z a => cases hl; exact absurd ((List.forall_mem_cons.1 ha).1) hp

theorem serve_frozen {s : State} {p : Nat} {P : Part} {k : Nat} {q : Queue} (h : 0 < s.frozenOf P k) :
    s.serve p P k q = if s.queueRestores p P k = [] then .pass else .restore :=
  (if_pos h).trans (ite_iff_congr List.isEmpty_iff rfl rfl)

theorem serve_head {s : State} {p : Nat} {P : Part} {k : Nat} {q : Queue} {rc : Rec} (h : s.frozenOf P k = 0) (hq : q.recs.head? = some rc) :
    s.serve p P k q = if (s.vf rc.vf).td = .locked then .pass
      else if kget s.grids rc.grid = none ∧ s.coveredBy rc.vec = false then .stop else s.serveHead p P q rc := by
  refine (if_neg (by omega)).trans ?_
  rw [hq]
  refine ite_iff_congr Iff.rfl rfl (ite_iff_congr ?_ rfl rfl)
  rw [Bool.and_eq_true, Option.isNone_iff_eq_none, Bool.not_eq_true']

theorem serve_does (s : State) (p : Nat) (P : Part) (k : Nat) (q : Queue) :
    (0 < s.frozenOf P k → s.serve p P k q = if s.queueRestores p P k = [] then .pass else .restore) ∧
    ∀ rc, s.frozenOf P k = 0 → q.recs.head? = some rc →
      ((s.vf rc.vf).td = .locked → s.serve p P k q = .pass) ∧
      ((s.vf rc.vf).td ≠ .locked → kget s.grids rc.grid = none → s.coveredBy rc.vec = false → s.serve p P k q = .stop) ∧
      ((s.vf rc.vf).td ≠ .locked → (kget s.grids rc.grid = none → s.coveredBy rc.vec = true) → s.serve p P k q = s.serveHead p P q rc) := by
  refine ⟨serve_frozen, fun rc h hq => ⟨fun hl => (serve_head h hq).trans (if_pos hl),
    fun hl hg hc => (serve_head h hq).trans ((if_neg hl).trans (if_pos ⟨hg, hc⟩)),
    fun hl hc => (serve_head h hq).trans ((if_neg hl).trans (if_neg fun hn => ?_))⟩⟩
  rw [hc hn.1] at hn
  exact absurd hn.2 nofun

/-! ### The head of a queue whose grid has not begun -/

section
variable {s : State} {p : Nat} {P : Part} {q : Queue} {rc : Rec} (hg : kget s.grids rc.grid = none)
include hg

theorem serveHead_exhausted (he : (s.effNow q rc).exhausted = true) : s.serveHead p P q rc = .exhaust := by
  refine if_pos ?_
  rw [hg, he] <;> rfl

variable (he : (s.effNow q rc).exhausted = false)
include he

theorem serveHead_refused {c : Nat} (hc : s.dispatchCode rc = some c) :
    s.serveHead p P q rc = if s.complOpen P.leadDie rc.vf rc.r then .discard else .stop := by
  simp only [State.serveHead, hg, he, hc, Option.isSome_none, Bool.not_false, Bool.and_false, Bool.false_eq_true, if_false]

variable (hc : s.dispatchCode rc = none)
include hc

theorem serveHead_held (h0 : rc.r.edge ≠ 0) {fa : Nat} (hd : s.devicePlace rc.vf rc.r.edge = some fa) (hz : s.placeLe (fa + 4) 4 = 0) :
    s.serveHead p P q rc = .hold := by
  have hx : s.edgeFree rc.vf rc.r.edge = some (fa + 4, 0) := by
    unfold State.edgeFree
    rw [hd, Option.map_some, hz]
  simp only [State.serveHead, hg, he, hc, hx, h0, Option.isSome_none, Bool.not_false, Bool.and_false, Bool.false_eq_true, or_self, if_false]

/-- A head that names no edge, or one with a free slot, is placed where it fits; a cooperative one must fit as a whole. -/
theorem serveHead_placed (h : rc.r.edge = 0 ∨ ∃ fa, s.devicePlace rc.vf rc.r.edge = some fa ∧ s.placeLe (fa + 4) 4 ≠ 0 ∧
      s.deviceOpen P.leadDie (fa + 4) = true) :
    s.serveHead p P q rc =
      if (rc.r.coop && !s.wholeFits P rc (s.recWorld rc (s.effNow q rc)) (bindingOn (s.reserves p P) rc.grid)) = true then
        (if q.reserve.isSome then .pass else .reserve)
      else (s.findPlace P rc (s.recWorld rc (s.effNow q rc)) (bindingOn (s.reserves p P) rc.grid)).elim .pass .place := by
  have last : ∀ o : Option (List Nat), (match o with | some ts => Serve.place ts | none => .pass) = o.elim .pass .place := by
    intro o
    cases o <;> rfl
  rcases h with h0 | ⟨fa, hd, hz, ho⟩
  · simp only [State.serveHead, hg, he, hc, h0, Option.isSome_none, Bool.not_false, Bool.and_false, Bool.false_eq_true, or_true, if_true,
      if_false, Bool.true_and]
    rw [← last] <;> rfl
  · obtain ⟨m, hm⟩ := Nat.exists_eq_succ_of_ne_zero hz
    have hx : s.edgeFree rc.vf rc.r.edge = some (fa + 4, m + 1) := by
      unfold State.edgeFree
      rw [hd, Option.map_some, hm]
    by_cases h0 : rc.r.edge = 0
    · simp only [State.serveHead, hg, he, hc, h0, Option.isSome_none, Bool.not_false, Bool.and_false, Bool.false_eq_true, or_true, if_true,
        if_false, Bool.true_and]
      rw [← last] <;> rfl
    · simp only [State.serveHead, hg, he, hc, hx, h0, ho, Option.isSome_none, Bool.not_false, Bool.not_true, Bool.and_false, Bool.false_eq_true,
        or_self, if_false, Bool.true_and]
      rw [← last] <;> rfl
end

theorem serveHead_does (s : State) (p : Nat) (P : Part) (q : Queue) (rc : Rec) (hg : kget s.grids rc.grid = none) :
    let e := s.effNow q rc
    let res := bindingOn (s.reserves p P) rc.grid
    let goes := fun x => s.serveHead p P q rc = x
    (e.exhausted = true → goes .exhaust) ∧
    (e.exhausted = false → ∀ c, s.dispatchCode rc = some c → goes (if s.complOpen P.leadDie rc.vf rc.r then .discard else .stop)) ∧
    (e.exhausted = false → s.dispatchCode rc = none →
      (rc.r.edge ≠ 0 → ∀ fa, s.devicePlace rc.vf rc.r.edge = some fa → s.placeLe (fa + 4) 4 = 0 → goes .hold) ∧
      ((rc.r.edge = 0 ∨ ∃ fa, s.devicePlace rc.vf rc.r.edge = some fa ∧ s.placeLe (fa + 4) 4 ≠ 0 ∧ s.deviceOpen P.leadDie (fa + 4) = true) →
        (rc.r.coop = true → s.wholeFits P rc (s.recWorld rc e) res = false → goes (if q.reserve = none then .reserve else .pass)) ∧
        ((rc.r.coop = true → s.wholeFits P rc (s.recWorld rc e) res = true) →
          (∀ ts, s.findPlace P rc (s.recWorld rc e) res = some ts → goes (.place ts)) ∧
          (s.findPlace P rc (s.recWorld rc e) res = none → goes .pass)))) := by
  refine ⟨serveHead_exhausted hg, fun he c => serveHead_refused hg he, fun he hc => ⟨fun h0 fa => serveHead_held hg he hc h0,
    fun h => ⟨fun hcoop hfit => (serveHead_placed hg he hc h).trans ?_, fun hfit => ?_⟩⟩⟩
  · rw [hcoop, hfit]
    cases q.reserve <;> rfl
  · have hn : ¬ (rc.r.coop && !s.wholeFits P rc (s.recWorld rc (s.effNow q rc)) (bindingOn (s.reserves p P) rc.grid)) = true := by
      rw [Bool.and_eq_true, Bool.not_eq_true']
      rintro ⟨h1, h2⟩
      rw [hfit h1] at h2
      cases h2
    have e := (serveHead_placed hg he hc h).trans (if_neg hn)
    exact ⟨fun ts hts => e.trans (congrArg (Option.elim · Serve.pass Serve.place) hts),
      fun hts => e.trans (congrArg (Option.elim · Serve.pass Serve.place) hts)⟩

/-! ### Scrub, ageing, time slices and USED -/

theorem scrubComplete_does {t : Nat} {s : State} (hs : (s.tile t).scrub = true) (hm : (s.tile t).mode = .run ∨ (s.tile t).mode = .vacant) :
    exec (.scrubComplete t) s = .next (((s.l1Clear t).setTile t
      { (s.l1Clear t).tile t with scrub := false, scrubbed := true, acc := [], accPoison := [], active := [], shadow := [], icache := [],
                                  tlb := [], l1 := [], ranks := [] }).beginBlocks t) := by
  refine if_pos ?_
  rw [hs]
  rcases hm with h | h <;> rw [h] <;> rfl

theorem queueAgeTimer_does {p k : Nat} {s : State} {P : Part} {q : Queue} (hP : s.part p = some P) (hq : kget P.queues k = some q)
    (h : q.st = .waiting ∧ q.recs ≠ [] ∧ q.age ≠ 0 ∧ q.base < 7 ∧ q.level < 6 ∧ q.since + q.age ≤ s.leadUsec P) :
    exec (.queueAgeTimer p k) s =
      .next (s.setPart p { P with queues := kset P.queues k { q with level := q.level + 1, since := q.since + q.age } }) := by
  show execQueueAgeTimer p k s = _
  unfold execQueueAgeTimer
  rw [hP]
  dsimp only
  rw [hq]
  exact if_pos h

/-- Reading a queue's region again leaves every partition where it is. -/
theorem refreshQueue_part (s : State) (p k : Nat) (h : (s.part p).isSome = true) : ((s.refreshQueue p k).part p).isSome = true := by
  unfold State.refreshQueue
  split
  · exact h
  · split
    · exact h
    · split
      · exact h
      · show ((State.setPart s p _).part p).isSome = true
        rw [State.part_setPart_same]
        rfl

theorem foldl_refreshQueue_part (p : Nat) (ks : List Nat) (s : State) (h : (s.part p).isSome = true) :
    ((ks.foldl (fun s k => s.refreshQueue p k) s).part p).isSome = true := by
  induction ks generalizing s with
  | nil => exact h
  | cons k ks ih => exact ih _ (refreshQueue_part s p k h)

theorem timeSliceBoundary_does {p : Nat} {s : State} {P : Part} (hP : s.part p = some P) (ht : P.nextSlice ≤ s.leadUsec P) :
    let psched := P.pschedNext.getD P.psched
    let s1 := s.setPart p { P with psched := psched, pschedNext := none,
                                   nextSlice := P.nextSlice + max 100 (bits psched.toNat 31 0) }
    let s2 := (kkeys P.queues).foldl (fun s k => s.refreshQueue p k) s1
    ∃ P2, s2.part p = some P2 ∧ exec (.timeSliceBoundary p) s = .next (s2.freezeEligible p P2 true) := by
  intro psched s1 s2
  have hs1 : (s1.part p).isSome = true := by rw [State.part_setPart_same]; rfl
  obtain ⟨P2, hP2⟩ := Option.isSome_iff_exists.1 (foldl_refreshQueue_part p (kkeys P.queues) s1 hs1)
  refine ⟨P2, hP2, ?_⟩
  show execTimeSliceBoundary p s = _
  unfold execTimeSliceBoundary
  rw [hP]
  refine (if_neg (by omega)).trans ?_
  show (match s2.part p with | some P => Host.Outcome.next (s2.freezeEligible p P true) | none => Host.Outcome.next s2) = _
  rw [show s2.part p = some P2 from hP2]

theorem usedUpdate_does {t p : Nat} {s : State} {P : Part} (ht : s.partOfTile t = some p) (hP : s.part p = some P) :
    exec (.usedUpdate t) s = .next (P.queues.foldl (fun s x =>
      if x.2.used = 0 ∨ ¬ s.usedOpen P.leadDie x.2 then s
      else (s.addUsed P.leadDie x.2).mapQueue p x.1 fun q => { q with used := 0 }) s) := by
  show execUsedUpdate t s = _
  simp only [execUsedUpdate, ht, hP, Option.bind_some]

/-! ### The completion of a grid -/

theorem complNamed_iff (s : State) (vf : Nat) (x : Word) :
    s.complNamed vf x = true ↔ x ≠ 0 ∧ x.toNat % 16 = 0 ∧ ∃ e, walk s vf x = .ok e := by
  unfold State.complNamed
  cases walk s vf x <;> simp

/-- A grid that is over is completed, its vectors gathered and its flags written, and leaves the table of grids. -/
def State.gridDone (s : State) (g : Nat) (G : Grid) (P : Part) (n : Nat) : State :=
  { (s.gatherVec P).complete P.leadDie G.rcd.vf G.world g G.rcd.r ((if G.unrec then 1 else 0) + n) with
    grids := kdel ((s.gatherVec P).complete P.leadDie G.rcd.vf G.world g G.rcd.r ((if G.unrec then 1 else 0) + n)).grids g }

section
variable {g : Nat} {s : State} {G : Grid} {P : Part} (hG : kget s.grids g = some G) (hP : s.part G.part = some P) (ho : G.over = true)
  (hc : s.complOpen P.leadDie G.rcd.vf G.rcd.r = true)
include hG hP ho hc

theorem gridCompletion_alone (h : s.consumer g G P = none) : exec (.gridCompletion g) s = .next (s.gridDone g G P 0) := by
  show execGridCompletion g s = _
  simp only [execGridCompletion, hG, hP, ho, hc, h]
  rfl

theorem gridCompletion_submits {r : LRecord} (h : s.consumer g G P = some (r, none)) : exec (.gridCompletion g) s =
    .next ((s.gridDone g G P 0).submit G.part G.rcd.vf r (fun _ => .edge G.rcd.vf G.rcd.r.edge) G.world none 7
      ((s.gridDone g G P 0).die P.leadDie).vec).1 := by
  show execGridCompletion g s = _
  simp only [execGridCompletion, hG, hP, ho, hc, h]
  rfl

theorem gridCompletion_refuses {r : LRecord} {c : Nat} (h : s.consumer g G P = some (r, some c))
    (hr : s.complOpen P.leadDie G.rcd.vf r = true) : exec (.gridCompletion g) s =
    .next (((s.gridDone g G P (if s.complNamed G.rcd.vf r.compl then 0 else 2)).complete P.leadDie G.rcd.vf G.world g r 1).returnEdge
      G.rcd.vf G.rcd.r.edge) := by
  show execGridCompletion g s = _
  simp only [execGridCompletion, hG, hP, ho, hc, h, hr]
  cases s.complNamed G.rcd.vf r.compl <;> rfl

theorem gridCompletion_does :
    (s.consumer g G P = none → exec (.gridCompletion g) s = .next (s.gridDone g G P 0)) ∧
    (∀ r, s.consumer g G P = some (r, none) → exec (.gridCompletion g) s =
      .next ((s.gridDone g G P 0).submit G.part G.rcd.vf r (fun _ => .edge G.rcd.vf G.rcd.r.edge) G.world none 7
        ((s.gridDone g G P 0).die P.leadDie).vec).1) ∧
    (∀ r c, s.consumer g G P = some (r, some c) → s.complOpen P.leadDie G.rcd.vf r = true →
      ((r.compl ≠ 0 ∧ r.compl.toNat % 16 = 0 ∧ ∃ e, walk s G.rcd.vf r.compl = .ok e) → exec (.gridCompletion g) s =
        .next (((s.gridDone g G P 0).complete P.leadDie G.rcd.vf G.world g r 1).returnEdge G.rcd.vf G.rcd.r.edge)) ∧
      (¬ (r.compl ≠ 0 ∧ r.compl.toNat % 16 = 0 ∧ ∃ e, walk s G.rcd.vf r.compl = .ok e) → exec (.gridCompletion g) s =
        .next (((s.gridDone g G P 2).complete P.leadDie G.rcd.vf G.world g r 1).returnEdge G.rcd.vf G.rcd.r.edge))) := by
  refine ⟨gridCompletion_alone hG hP ho hc, fun r => gridCompletion_submits hG hP ho hc, fun r c h hr => ?_⟩
  have e := gridCompletion_refuses hG hP ho hc h hr
  rw [← complNamed_iff]
  exact ⟨fun hn => e.trans (by rw [if_pos hn]), fun hn => e.trans (by rw [if_neg hn])⟩
end

/-- Settles O57: what is served and what is done with it, the head of a queue by its checks, and the other events of a tile, a queue, a
time slice and a grid. -/
theorem placementEvents : Obligations.PlacementEvents := by
  unfold Obligations.PlacementEvents
  exact ⟨⟨fun p ts s h => placeBlock_eq h, fun p k ts s P q x rc hx hq => placeBlock_does hx hq,
    fun s p P l k q x => firstServed_iff s p P l k q x, serve_does, serveHead_does⟩,
    fun t s => scrubComplete_does, fun p k s P q hP hq h1 h2 h3 h4 h5 h6 => queueAgeTimer_does hP hq ⟨h1, h2, h3, h4, h5, h6⟩,
    fun p s P => timeSliceBoundary_does, fun t p s P => usedUpdate_does, fun g s G P => gridCompletion_does⟩

end Sys2Proof.Machine
end

section
/-!
REDUCTION (O53). A contribution at the switch, and the combining of contributions inside the package.
-/
namespace Sys2Proof.Machine

/-! ### At the switch -/

/-- The operation a contribution belongs to: the one that stands, or a new one. -/
def State.reduceOf (s : State) (pk : Packet) : ReduceOp :=
  (s.reduces.find? fun o => o.has pk).getD ⟨pk.dnode, pk.rgroup, pk.addr, pk.tag, [], false⟩

/-- A contribution that repeats a node's, comes while some of its own package is still to come, or has another shape. -/
def State.clashes (s : State) (pk : Packet) : Prop :=
  (∃ x ∈ (s.reduceOf pk).contribs, x.snode = pk.snode) ∨ (pk.snode.toNat = s.node ∧ s.moreToCome (s.reduceOf pk) = true) ∨
  ∃ x, (s.reduceOf pk).contribs.head? = some x ∧ (x.len ≠ pk.len ∨ x.aop ≠ pk.aop ∨ x.dtype ≠ pk.dtype)

theorem clashes_iff (s : State) (pk : Packet) :
    ((s.reduceOf pk).contribs.any (fun x => x.snode == pk.snode) || (pk.snode.toNat == s.node && s.moreToCome (s.reduceOf pk)) ||
      (match (s.reduceOf pk).contribs.head? with
        | some x => x.len != pk.len || x.aop != pk.aop || x.dtype != pk.dtype
        | none => false)) = true ↔ s.clashes pk := by
  unfold State.clashes
  generalize (s.reduceOf pk).contribs = cs
  cases cs <;> simp [or_assoc]

open Classical in
/-- The whole operation of the switch, its booleans as propositions. -/
theorem contributeSwitch_eq (s : State) (pk : Packet) :
    let op := s.reduceOf pk
    let others := s.reduces.filter fun o => !o.has pk
    let cs := op.contribs ++ [pk]
    let last := pk.ncontrib.toNat ≤ (cs.map fun x => x.snode).eraseDups.length
    let t := (if op.failed then s else op.contribs.foldl (fun s x => s.switchAnswer x (some 7)) s).switchAnswer pk (some ((formCode pk).getD 7))
    let sum := foldReduce pk.aop.toNat pk.dtype.toNat ((cs.foldl (fun l x => insNode x l) []).map (·.payload))
    s.contributeSwitch pk =
      if formCode pk ≠ none ∨ s.clashes pk ∨ op.failed = true then
        { t with reduces := if last ∧ t.moreToCome op = false then others else others ++ [{ op with contribs := cs, failed := true }] }
      else if last then { (cs.foldl (fun t x => t.switchAnswer x (s.writeResult pk sum).2) (s.writeResult pk sum).1) with reduces := others }
      else { s with reduces := others ++ [{ op with contribs := cs }] } := by
  intro op others cs last t sum
  unfold State.contributeSwitch
  refine ite_iff_congr ?_ ?_ ?_
  · rw [Bool.or_eq_true, Bool.or_eq_true, ← clashes_iff, Option.isSome_iff_ne_none, or_assoc] <;> rfl
  · have hr : (decide last && !t.moreToCome op) = true ↔ last ∧ t.moreToCome op = false := by
      rw [Bool.and_eq_true, decide_eq_true_iff, Bool.not_eq_true']
    exact congrArg (fun r => { t with reduces := r }) (ite_iff_congr hr rfl rfl)
  · exact ite_iff_congr decide_eq_true_iff rfl rfl

theorem contributeSwitch_does (s : State) (pk : Packet) :
    let op := s.reduceOf pk
    let others := s.reduces.filter fun o => !o.has pk
    let bad := formCode pk ≠ none ∨ s.clashes pk ∨ op.failed = true
    let cs := op.contribs ++ [pk]
    let last := pk.ncontrib.toNat ≤ (cs.map fun x => x.snode).eraseDups.length
    let stays := fun (t : State) => if last ∧ t.moreToCome op = false then others else others ++ [{ op with contribs := cs, failed := true }]
    let sum := foldReduce pk.aop.toNat pk.dtype.toNat ((cs.foldl (fun l x => insNode x l) []).map (·.payload))
    (bad → op.failed = false →
      let t := (op.contribs.foldl (fun s x => s.switchAnswer x (some 7)) s).switchAnswer pk (some ((formCode pk).getD 7))
      s.contributeSwitch pk = { t with reduces := stays t }) ∧
    (op.failed = true → let t := s.switchAnswer pk (some ((formCode pk).getD 7))
      s.contributeSwitch pk = { t with reduces := stays t }) ∧
    (¬ bad → last → s.contributeSwitch pk =
      { (cs.foldl (fun t x => t.switchAnswer x (s.writeResult pk sum).2) (s.writeResult pk sum).1) with reduces := others }) ∧
    (¬ bad → ¬ last → s.contributeSwitch pk = { s with reduces := others ++ [{ op with contribs := cs }] }) := by
  intro op others bad cs last stays sum
  have e := contributeSwitch_eq s pk
  dsimp only at e
  refine ⟨fun hb hf => ?_, fun hf => ?_, fun hb hl => e.trans ((if_neg hb).trans (if_pos hl)), fun hb hl => e.trans ((if_neg hb).trans (if_neg hl))⟩
  · rw [if_pos hb, show (s.reduceOf pk).failed = false from hf] at e
    exact e
  · rw [if_pos (.inr (.inr hf)), show (s.reduceOf pk).failed = true from hf] at e
    exact e

/-! ### Inside the package -/

section
variable {k : Nat} {s : State} {c : LocalContrib} {l : List LocalContrib} (hs : s.localSorted k = c :: l)

/-- Whether the contributions of a group agree in length, operation and type with the first. -/
def sameShape (c : LocalContrib) (l : List LocalContrib) : Bool :=
  (c :: l).all fun x => x.pk.len == c.pk.len && x.pk.aop == c.pk.aop && x.pk.dtype == c.pk.dtype

include hs

theorem localReduceCombine_eq (hn : c.need ≤ (c :: l).length)
    (hr : s.outRoom (dieOf c.tile) 65 (if sameShape c l then 1 else (c :: l).length) = true) :
    let s' := { s with locals := s.locals.filter fun x => !(c :: l).contains x }
    let sum := foldReduce c.pk.aop.toNat c.pk.dtype.toNat ((c :: l).map (·.pk.payload))
    exec (.localReduceCombine k) s =
      if c.pk.dnode.toNat = s.node ∧ c.pk.ncontrib = 1 then
        if ¬ sameShape c l ∨ formCode c.pk ≠ none ∨ s.errorCode { c.pk with op := opWrite, vc := 0 } ≠ none then .next (s'.answerLocals (c :: l) true)
        else if s'.rangeOpen (dieOf c.tile) c.pk.addr.toNat sum.length (s'.die (dieOf c.tile)).vec true then
          .next ((s'.writeNow (dieOf c.tile) c.pk.addr.toNat sum (s'.die (dieOf c.tile)).vec).answerLocals (c :: l) false)
        else .next s
      else if ¬ sameShape c l then .next ((c :: l).foldl (fun s x => s.sendReduce (dieOf x.tile) x.pk [x]) s')
      else .next (s'.sendReduce (dieOf c.tile) { c.pk with payload := sum } (c :: l)) := by
  intro s' sum
  show execLocalReduceCombine k s = _
  unfold execLocalReduceCombine
  rw [show (s.localGroup k).foldl (fun l c => insContrib c l) [] = c :: l from hs]
  refine (if_neg (not_or.2 ⟨by omega, Classical.not_not.2 hr⟩)).trans (ite_iff_congr ?_ (ite_iff_congr ?_ rfl rfl) (ite_iff_congr ?_ rfl rfl))
  · rw [Bool.and_eq_true, beq_iff_eq, beq_iff_eq]
  · rw [Bool.or_eq_true, Bool.or_eq_true, Bool.not_eq_true', Option.isSome_iff_ne_none, Option.isSome_iff_ne_none, or_assoc,
      Bool.not_eq_true] <;> rfl
  · rw [Bool.not_eq_true', Bool.not_eq_true] <;> rfl
end

/-- Settles O53: the switch by what is wrong with a contribution and whether it is the last, the package by whether the reduction is
confined to it and its contributions agree. -/
theorem reduceEvents : Obligations.ReduceEvents := by
  unfold Obligations.ReduceEvents
  refine ⟨contributeSwitch_does, fun k s c l hs => ?_⟩
  intro cs die agree s' sum here refused out hn hr
  have e := localReduceCombine_eq hs hn hr
  refine ⟨fun hh ha => e.trans ((if_neg hh).trans (if_pos ha)), fun hh ha => e.trans ((if_neg hh).trans (if_neg (Classical.not_not.2 ha))),
    fun hh hf => e.trans ((if_pos hh).trans (if_pos hf)), fun hh hf ho => e.trans ((if_pos hh).trans ((if_neg hf).trans (if_pos ho)))⟩

end Sys2Proof.Machine
end

section
/-!
PACKETS (O52). The code that refuses a packet, and what each operation does once its packet has arrived.
-/
namespace Sys2Proof.Machine

/-! ### The code of a refusal -/

/-- The bytes a packet names. -/
def namedBytes (pk : Packet) : Nat :=
  if pk.op = opSignal then 8 else if pk.op = opAtomic then (if pk.dtype = 1 then 8 else 4) else max 1 pk.len.toNat

section
variable (s : State) (pk : Packet)

theorem mappedHere_iff (pa n : Nat) : mappedHere pa n = true ↔
    ∀ k, k < n → isDram (pa + k) = true ∨ (isHost (pa + k) = true ∧ Config.hostPresent (pa + k) = true) := by
  simp only [mappedHere, List.all_eq_true, List.mem_range, Bool.or_eq_true, Bool.and_eq_true]

theorem barredAt_two (w : Bool) (a : Nat) : s.barredAt w a = some 2 ↔ security s w a = some 1 := by
  rw [barred_eq]
  cases security s w a with
  | none => simp
  | some c => by_cases hc : c = 1 <;> simp [hc]

theorem barredAt_three (w : Bool) (a : Nat) : s.barredAt w a = some 3 ↔ ∃ c, security s w a = some c ∧ c ≠ 1 := by
  rw [barred_eq]
  cases security s w a with
  | none => simp
  | some c => by_cases hc : c = 1 <;> simp [hc]

/-- Some byte of a packet lies where its security gives a code. -/
def State.barredBytes (c : Nat) : Prop := ∃ k, k < namedBytes pk ∧ s.barredAt pk.world (pk.addr.toNat + k) = some c

theorem barredBytes_two : s.barredBytes pk 2 ↔
    (((List.range (namedBytes pk)).map fun k => pk.addr.toNat + k).any fun a => security s pk.world a == some 1) = true := by
  simp [State.barredBytes, barredAt_two]

theorem barredBytes_three (h : ¬ s.barredBytes pk 2) : s.barredBytes pk 3 ↔
    (((List.range (namedBytes pk)).map fun k => pk.addr.toNat + k).any fun a => (security s pk.world a).isSome) = true := by
  simp only [State.barredBytes, barredAt_two] at h
  simp only [State.barredBytes, barredAt_three, List.any_map, List.any_eq_true, List.mem_range, Function.comp_apply, Option.isSome_iff_exists]
  refine exists_congr fun k => and_congr_right fun hk => exists_congr fun c => ⟨And.left, fun hc => ⟨hc, fun h1 => h ⟨k, hk, ?_⟩⟩⟩
  rw [hc, h1]

/-- A packet whose address its operation does not allow. -/
def skewed (pk : Packet) : Prop := (pk.op = opSignal ∧ pk.addr.toNat % 8 ≠ 0) ∨ (pk.op = opAtomic ∧ pk.addr.toNat % namedBytes pk ≠ 0)

theorem namedBytes_atomic (h : pk.op = opAtomic) : namedBytes pk = atomicBytes pk := by
  unfold namedBytes atomicBytes
  rw [h]
  rfl

theorem skewed_iff : ((pk.op = opSignal ∧ pk.addr.toNat % 8 ≠ 0) ∨ (pk.op = opAtomic ∧ pk.addr.toNat % atomicBytes pk ≠ 0)) ↔ skewed pk :=
  or_congr Iff.rfl (and_congr_right fun h => by rw [namedBytes_atomic pk h])

/-- An ill-formed packet. -/
def illFormed (pk : Packet) : Prop := vcOf pk.op ≠ some pk.vc ∨ lenOk pk = false ∨ ((pk.op = opAtomic ∨ pk.op = opReduce) ∧ 4 ≤ pk.dtype.toNat)

theorem illFormed_iff : (vcOf pk.op ≠ some pk.vc ∨ ¬ lenOk pk = true ∨ ((pk.op = opAtomic ∨ pk.op = opReduce) ∧ 4 ≤ pk.dtype.toNat)) ↔
    illFormed pk := by
  rw [Bool.not_eq_true]
  rfl

open Classical in
theorem formCode_eq : formCode pk = if illFormed pk then some 5 else if aopOk pk = false then some 6 else none :=
  ite_iff_congr (illFormed_iff pk) rfl (ite_iff_congr (by rw [Bool.not_eq_true']) rfl rfl)

open Classical in
/-- The lowest cause that applies decides the code. -/
theorem errorCode_eq : s.errorCode pk =
    if ¬ ∀ k, k < namedBytes pk → isDram (pk.addr.toNat + k) = true ∨
        (isHost (pk.addr.toNat + k) = true ∧ Config.hostPresent (pk.addr.toNat + k) = true) then some 1
    else if s.barredBytes pk 2 then some 2
    else if s.barredBytes pk 3 then some 3
    else if skewed pk then some 4
    else if illFormed pk then some 5
    else if aopOk pk = false then some 6
    else none := by
  have hn : (if pk.op = opSignal then 8 else if pk.op = opAtomic then atomicBytes pk else max 1 pk.len.toNat) = namedBytes pk := rfl
  unfold State.errorCode
  dsimp only
  rw [hn, ← formCode_eq]
  refine ite_iff_congr ?_ rfl ?_
  · rw [Bool.not_eq_true', ← mappedHere_iff, Bool.not_eq_true]
  by_cases h2 : s.barredBytes pk 2
  · rw [if_pos h2, if_pos ((barredBytes_two s pk).1 h2)]
  · rw [if_neg h2, if_neg fun h => h2 ((barredBytes_two s pk).2 h)]
    exact ite_iff_congr (barredBytes_three s pk h2).symm rfl (ite_iff_congr (skewed_iff pk) rfl rfl)

theorem errorCode_does :
    let pa := pk.addr.toNat
    let mapped := ∀ k, k < namedBytes pk → isDram (pa + k) = true ∨ (isHost (pa + k) = true ∧ Config.hostPresent (pa + k) = true)
    let barred := s.barredBytes pk
    let code := s.errorCode pk
    (¬ mapped → code = some 1) ∧ (mapped → barred 2 → code = some 2) ∧ (mapped → ¬ barred 2 → barred 3 → code = some 3) ∧
    (mapped → ¬ barred 2 → ¬ barred 3 → skewed pk → code = some 4) ∧
    (mapped → ¬ barred 2 → ¬ barred 3 → ¬ skewed pk → illFormed pk → code = some 5) ∧
    (mapped → ¬ barred 2 → ¬ barred 3 → ¬ skewed pk → ¬ illFormed pk → aopOk pk = false → code = some 6) ∧
    (mapped → ¬ barred 2 → ¬ barred 3 → ¬ skewed pk → ¬ illFormed pk → aopOk pk = true → code = none) := by
  intro pa mapped barred code
  have e := errorCode_eq s pk
  refine ⟨fun h => e.trans (if_pos h), fun h h2 => e.trans ?_, fun h h2 h3 => e.trans ?_, fun h h2 h3 h4 => e.trans ?_,
    fun h h2 h3 h4 h5 => e.trans ?_, fun h h2 h3 h4 h5 h6 => e.trans ?_, fun h h2 h3 h4 h5 h6 => e.trans ?_⟩
  · rw [if_neg (Classical.not_not.2 h), if_pos h2]
  · rw [if_neg (Classical.not_not.2 h), if_neg h2, if_pos h3]
  · rw [if_neg (Classical.not_not.2 h), if_neg h2, if_neg h3, if_pos h4]
  · rw [if_neg (Classical.not_not.2 h), if_neg h2, if_neg h3, if_neg h4, if_pos h5]
  · rw [if_neg (Classical.not_not.2 h), if_neg h2, if_neg h3, if_neg h4, if_neg h5, if_pos h6]
  · rw [if_neg (Classical.not_not.2 h), if_neg h2, if_neg h3, if_neg h4, if_neg h5, h6]
    exact if_neg nofun
end

/-! ### Requests -/

section
variable {p : Nat} {pk : Packet} {s : State} (ht : s.canTake p pk = true)
include ht

theorem packetWrite_takes (h : pk.op = opWrite ∨ vcOf pk.op = none ∨ (vcOf pk.op = some 1 ∧ pk.vc ≠ 1)) :
    exec (.packetWrite p pk) s = .next (s.takeRequest p pk).pump := by
  refine if_pos ?_
  rw [ht, Bool.true_and, Bool.or_eq_true, Bool.or_eq_true, Bool.and_eq_true, beq_iff_eq, beq_iff_eq, bne_iff_ne, Option.isNone_iff_eq_none]
  rcases h with h | h | h
  · exact .inl (.inl h)
  · exact .inl (.inr h)
  · exact .inr h

theorem packetRead_takes (h : pk.op = opRead) : exec (.packetRead p pk) s = .next (s.takeRequest p pk).pump :=
  if_pos (by rw [ht, h] <;> rfl)

theorem packetAtomic_takes (h : pk.op = opAtomic) : exec (.packetAtomic p pk) s = .next (s.takeRequest p pk).pump :=
  if_pos (by rw [ht, h] <;> rfl)

theorem requests_take :
    let s1 := s.takeArrival p pk
    let s2 := if pk.vc = 0 then { s1 with flowRx := kset s1.flowRx (flowKey pk.sep.toNat pk.snode.toNat 0) ((pk.fseq.toNat + 1) % 65536) } else s1
    let t := State.pump (match s2.errorCode pk with
      | some c => if pk.vc = 1 then s2 else s2.refuse (p / 6) pk c
      | none => s2.enterHome (p / 6) pk)
    (pk.op = opWrite → exec (.packetWrite p pk) s = .next t) ∧ (pk.op = opRead → exec (.packetRead p pk) s = .next t) ∧
    (pk.op = opAtomic → exec (.packetAtomic p pk) s = .next t) ∧
    ((vcOf pk.op = none ∨ (vcOf pk.op = some 1 ∧ pk.vc ≠ 1)) → exec (.packetWrite p pk) s = .next t) := by
  intro s1 s2 t
  have e : t = (s.takeRequest p pk).pump := rfl
  rw [e]
  exact ⟨fun h => packetWrite_takes ht (.inl h), packetRead_takes ht, packetAtomic_takes ht, fun h => packetWrite_takes ht (.inr h)⟩
end

/-! ### Signals -/

theorem packetSignal_does {p : Nat} {pk : Packet} {s : State} (ha : s.arrived pk = some p) (ho : pk.op = opSignal) :
    let s1 := s.takeArrival p pk
    (∀ c, s1.errorCode pk = some c → exec (.packetSignal p pk) s = .next (State.pump (if pk.vc = 1 then s1 else s1.refuse (p / 6) pk c))) ∧
    (s1.errorCode pk = none → exec (.packetSignal p pk) s = .next { s1 with signals := s1.signals ++ [⟨p, pk⟩] }) := by
  intro s1
  have hb : (s.arrived pk == some p && pk.op == opSignal) = true := by rw [ha, ho, beq_self_eq_true, beq_self_eq_true] <;> rfl
  refine ⟨fun c hc => (if_pos hb).trans ?_, fun hc => (if_pos hb).trans ?_⟩
  · rw [show (s.takeArrival p pk).errorCode pk = some c from hc] <;> rfl
  · rw [show (s.takeArrival p pk).errorCode pk = none from hc]

theorem signalApply_does {k : Nat} {s : State} {h : HeldSignal} (hk : s.signals[k]? = some h) (hr : s.signalReady k h = true) :
    exec (.signalApply k) s = .next (State.enterHome { s with signals := s.signals.eraseIdx k } (h.port / 6) h.pk).pump := by
  show execSignalApply k s = _
  simp only [execSignalApply, hk, hr, if_true]

/-! ### Contributions to a reduction -/

theorem failsReduce_iff (pk : Packet) : failsReduce pk = true ↔ 4 ≤ pk.dtype.toNat ∨ aopOk pk = false := by
  unfold failsReduce
  rw [Bool.or_eq_true, decide_eq_true_iff, Bool.not_eq_true']

theorem reduceContribution_arrived {p : Nat} {pk : Packet} {s : State} (ha : s.arrived pk = some p) (ho : pk.op = opReduce)
    {x : Option Nat} (hx : (s.takeArrival p pk).errorCode pk = x) : exec (.reduceContribution pk) s = x.elim
      (.next (State.pump (State.contributeSwitch
        { s.takeArrival p pk with reduceVia := (s.takeArrival p pk).reduceVia ++ [(p / 6, pk)] } pk)))
      fun c => .next (if pk.vc == 2 && failsReduce pk then ((s.takeArrival p pk).refuseAt (p / 6) pk c).contributeSwitch pk
        else (s.takeArrival p pk).refuseAt (p / 6) pk c).pump := by
  subst hx
  refine (if_pos ho).trans ?_
  rw [ha]
  dsimp only
  cases (s.takeArrival p pk).errorCode pk <;> rfl

theorem reduceContribution_does {p : Nat} {pk : Packet} {s : State} (ha : s.arrived pk = some p) (ho : pk.op = opReduce) :
    let s1 := s.takeArrival p pk
    (∀ c, s1.errorCode pk = some c →
      let s2 := if pk.vc = 1 then s1 else s1.refuse (p / 6) pk c
      ((pk.vc ≠ 2 ∨ (pk.dtype.toNat < 4 ∧ aopOk pk = true)) → exec (.reduceContribution pk) s = .next s2.pump) ∧
      (pk.vc = 2 → (4 ≤ pk.dtype.toNat ∨ aopOk pk = false) → exec (.reduceContribution pk) s = .next (s2.contributeSwitch pk).pump)) ∧
    (s1.errorCode pk = none → exec (.reduceContribution pk) s = .next (State.pump
      (State.contributeSwitch { s1 with reduceVia := s1.reduceVia ++ [(p / 6, pk)] } pk))) := by
  refine ⟨fun c hc => ?_, fun hc => reduceContribution_arrived ha ho hc⟩
  have e := reduceContribution_arrived ha ho hc
  refine ⟨fun h => e.trans (congrArg (fun t => Host.Outcome.next (State.pump t)) (if_neg ?_)),
    fun hv hf => e.trans (congrArg (fun t => Host.Outcome.next (State.pump t)) (if_pos ?_))⟩
  · rw [Bool.and_eq_true, beq_iff_eq, failsReduce_iff]
    rintro ⟨hv, hf⟩
    rcases h with h | ⟨h1, h2⟩
    · exact h hv
    · rcases hf with hf | hf
      · omega
      · rw [h2] at hf; cases hf
  · rw [Bool.and_eq_true, beq_iff_eq, failsReduce_iff]
    exact ⟨hv, hf⟩

/-- A packet that is not among the arrivals has not arrived. -/
theorem arrived_none {s : State} {pk : Packet} (h : ∀ a ∈ s.arrivals, a.2 ≠ pk) : s.arrived pk = none := by
  unfold State.arrived
  match hf : s.arrivals.find? fun a => a.2.sep == pk.sep && a.2.snode == pk.snode && a.2.vc == pk.vc with
  | none => rw [hf]
  | some (p, k) => rw [hf]; exact if_neg (h _ (List.mem_of_find?_eq_some hf))

theorem reduceContribution_own {pk : Packet} {s : State} (ho : pk.op = opReduce) (hn : pk.snode.toNat = s.node) (hm : pk ∈ s.outbox)
    (ha : ∀ a ∈ s.arrivals, a.2 ≠ pk) :
    exec (.reduceContribution pk) s = .next (State.contributeSwitch { s with outbox := s.outbox.erase pk } pk) := by
  refine (if_pos ho).trans ?_
  rw [arrived_none ha]
  refine (if_neg ?_).trans ((if_pos hn).trans (if_pos (List.contains_iff_mem.2 hm)))
  rw [List.any_eq_true]
  rintro ⟨a, hmem, he⟩
  exact ha a hmem (beq_iff_eq.1 he)

/-! ### Responses -/

theorem takeResponse_answers {pk : Packet} {s : State} {p : Nat} {error : Bool} {i : Instr} (ha : s.arrived pk = some p)
    (he : exec i s = .next (s.takeResponse pk error)) : s.Answers pk p error fun t => exec i s = .next t := by
  have e : ∀ t, s.takeResponse pk error = t → exec i s = .next t := fun t ht => he.trans (congrArg _ ht)
  refine ⟨fun ho => e _ ?_, fun o ho => ⟨fun hc => e _ ?_, fun hc hr => e _ ?_⟩⟩
  · simp only [State.takeResponse, ha, ho]
  · simp only [State.takeResponse, ha, ho, hc, if_true]
  · simp only [State.takeResponse, ha, ho, hc, hr, Bool.false_eq_true, if_false, if_true]

/-- Settles O52: the refusal by its causes in their order, then each operation of an arrived packet. -/
theorem packetEvents : Obligations.PacketEvents := by
  unfold Obligations.PacketEvents
  exact ⟨errorCode_does, fun p pk s => requests_take, fun p pk s => packetSignal_does, fun k s h => signalApply_does,
    fun p pk s => reduceContribution_does, fun pk s => reduceContribution_own, fun p pk s ha hv =>
      ⟨fun ho => takeResponse_answers ha (if_pos ⟨ho, hv⟩), fun ho => takeResponse_answers ha (if_pos ⟨ho, hv⟩),
        fun ho => takeResponse_answers ha (if_pos ⟨ho, hv⟩)⟩⟩

end Sys2Proof.Machine
end
